-- ==== Sys2Proof/Word.lean ====
section
/-! DEFINITION. The word types of the Z1024: a register lane, a byte, a lane mask, an instruction (R2, R96). -/

namespace Sys2Proof

/-- One lane of a vector register (R65). -/
abbrev Word := BitVec 32

/-- One byte of storage (R2). -/
abbrev Byte := BitVec 8

/-- One bit per lane of a warp: lane l is bit l (R9, R91). -/
abbrev Mask := BitVec 32

/-- A column instruction (R96). -/
abbrev Insn := BitVec 96

/-- A stagehand instruction (R364). -/
abbrev HandInsn := BitVec 64

/-- The mask that holds every lane. -/
abbrev Mask.all : Mask := BitVec.allOnes 32

end Sys2Proof
end

