-- ==== Sys2Proof/Syntax.lean ====
section
/-! DEFINITION. The instructions of the Z1024 as data: the head and the eight body formats of the column's instructions
(R103-R114), the stagehand's one format (R364), and the ONE inductive of steps, a constructor for each row of the opcode
table. Column and stagehand instructions carry the fields of their format; ring commands name the ring whose next accepted
entry they run; events name the unit they happen at. -/

namespace Sys2Proof

/-- The common head of a column instruction without its opcode (R103). TY[5] and the reserved bits are zero in every
instruction that decodes, so they are not held. -/
structure Head where
  ty : BitVec 5
  u  : Bool
  s  : Bool
  rm : BitVec 2
  gn : Bool
  gp : BitVec 3
  deriving DecidableEq, Repr

/-- A 16-bit operand field (R116). -/
structure Operand where
  ind : Bool
  reg : BitVec 8
  pat : BitVec 2
  k   : BitVec 5
  deriving DecidableEq, Repr

/-- Format C (R113). -/
structure CFields where
  h   : Head
  tgt : BitVec 32
  rcv : BitVec 24
  ur  : BitVec 8
  sub : BitVec 8
  deriving DecidableEq, Repr

/-- Formats V3 and VI (R107). `bc` is bits [46:15]: the fields B and C of V3, the immediate of VI; SUB[7] selects. -/
structure VFields where
  h    : Head
  d    : BitVec 9
  a    : Operand
  bc   : BitVec 32
  sub  : BitVec 8
  hint : BitVec 7
  deriving DecidableEq, Repr

/-- Format M (R109). In the atomics SIZE and CPOL together are the operation code AOP (R257). -/
structure MFields where
  h    : Head
  dat  : BitVec 9
  adr  : Operand
  obj  : BitVec 16
  off  : BitVec 16
  size : BitVec 3
  cpol : BitVec 2
  ord  : BitVec 3
  obs  : BitVec 7
  deriving DecidableEq, Repr

/-- Format X (R110). -/
structure XFields where
  h   : Head
  d   : BitVec 9
  a   : Operand
  dom : BitVec 4
  pk  : BitVec 3
  pp  : BitVec 10
  num : BitVec 6
  lsp : BitVec 3
  sub : BitVec 8
  deriving DecidableEq, Repr

/-- Format T (R111). -/
structure TFields where
  h    : Head
  td   : BitVec 5
  areg : BitVec 8
  breg : BitVec 8
  k8   : BitVec 8
  mode : BitVec 2
  abm  : BitVec 8
  bbm  : BitVec 8
  af   : BitVec 6
  bf   : BitVec 6
  sum  : Bool
  q    : Bool
  rows : BitVec 8
  deriving DecidableEq, Repr

/-- Format P (R112). -/
structure PFields where
  h    : Head
  tf   : BitVec 5
  tl   : BitVec 5
  dst  : BitVec 8
  selp : BitVec 3
  par  : BitVec 8
  sup  : BitVec 8
  stw  : BitVec 8
  of   : BitVec 6
  dk   : Bool
  deriving DecidableEq, Repr

/-- Format S (R114). -/
structure SFields where
  h   : Head
  sr  : BitVec 12
  d   : BitVec 9
  a   : Operand
  sub : BitVec 8
  deriving DecidableEq, Repr

/-- The stagehand's format (R364). -/
structure HFields where
  d   : BitVec 5
  s   : BitVec 5
  t   : BitVec 5
  x   : BitVec 3
  imm : BitVec 32
  deriving DecidableEq, Repr

/-- A command entry of a ring, 64 bytes (R78). `rsvd` holds its reserved bytes: byte 9 lowest, then bytes 12-15 and 32-63. -/
structure CmdEntry where
  seq  : BitVec 64
  opc  : BitVec 8
  ctx  : BitVec 16
  arg0 : BitVec 64
  arg1 : BitVec 64
  rsvd : BitVec 296
  deriving DecidableEq, Repr

/-- A ring: a partition's (R77) or the administrative one (R390). -/
inductive RingId where
  | part (p : Nat)
  | admin
  deriving DecidableEq, Repr

/-- A link flit as a receiver sees it (R386): its numbers, its type, and the CRC field beside the bytes it covers. -/
structure Flit where
  fseq : BitVec 16
  ack  : BitVec 16
  typ  : BitVec 8
  cred : BitVec 8
  pay  : List Byte
  crc  : BitVec 64
  deriving DecidableEq, Repr

/-- The verdict of a fault resolution (R430). -/
inductive Verdict where
  | retry
  | refuse (kind : Nat)
  deriving DecidableEq, Repr

/-- A function whose readiness is reported (R391). -/
inductive ReadyFn where
  | port (i : Nat)
  | cols (d : Nat)
  | smgr (d : Nat)
  | seqr
  | hold
  | stage (c : Nat)
  deriving DecidableEq, Repr

/-- What an image write of Twimor replaces (R397). -/
inductive FlashPart where
  | config
  | firmware
  deriving DecidableEq, Repr

/-- A physical column that fails its rehearsal at power-on, with the unit and the block of its first failure (R456, R457). -/
structure BadColumn where
  phys  : Nat
  unit  : Nat
  block : Nat
  deriving DecidableEq, Repr

/-- A step of a die's bring-up (R394), with the physical columns of the die that fail the rehearsal of step 3. -/
structure BringUp where
  die : Nat
  bad : List BadColumn
  deriving DecidableEq, Repr

/-- The steps of the Z1024: one constructor for each row of the opcode table, in the table's order. -/
inductive Instr where
  -- control (R155)
  | nop (f : CFields) | bra (f : CFields) | brx (f : CFields) | call (f : CFields) | ret (f : CFields)
  | loop (f : CFields) | join (f : CFields) | exit (f : CFields) | tail (f : CFields) | spawn (f : CFields)
  | yield (f : CFields) | wait (f : CFields) | trap (f : CFields) | svc (f : CFields) | brk (f : CFields)
  -- integer and bit instructions (R166-R171)
  | iadd (f : VFields) | isub (f : VFields) | imul (f : VFields) | imulh (f : VFields) | imad (f : VFields)
  | imin (f : VFields) | imax (f : VFields) | iabs (f : VFields) | idot4 (f : VFields)
  | icmp (f : VFields) | sel (f : VFields) | mov (f : VFields) | movs (f : VFields) | plop (f : VFields)
  | and (f : VFields) | or (f : VFields) | xor (f : VFields) | andn (f : VFields)
  | shl (f : VFields) | shr (f : VFields) | sar (f : VFields) | rot (f : VFields)
  | popc (f : VFields) | clz (f : VFields) | brev (f : VFields)
  | bfx (f : VFields) | bfi (f : VFields) | bswz (f : VFields) | tern (f : VFields)
  -- address (R172-R174)
  | lea (f : VFields) | cadr (f : VFields) | cget (f : VFields) | tidx (f : VFields)
  -- floating point (R175-R179)
  | fadd (f : VFields) | fsub (f : VFields) | fmul (f : VFields) | ffma (f : VFields)
  | fmin (f : VFields) | fmax (f : VFields) | fcmp (f : VFields) | fclass (f : VFields) | fdot2 (f : VFields)
  | fdiv (f : VFields) | fsqrt (f : VFields)
  | frcp (f : VFields) | frsq (f : VFields) | fex2 (f : VFields) | flg2 (f : VFields)
  | fsin (f : VFields) | fcos (f : VFields) | ftanh (f : VFields)
  -- conversion (R180-R185)
  | cvt (f : VFields) | cvtb (f : VFields) | qnt (f : VFields) | dqnt (f : VFields)
  | pack (f : VFields) | unpk (f : VFields) | retag (f : VFields)
  -- cross-lane (R189)
  | setpart (f : VFields) | lget (f : VFields) | lput (f : VFields) | bfly (f : VFields) | poll (f : VFields)
  | match_ (f : VFields) | redc (f : VFields) | scan (f : VFields) | elect (f : VFields)
  -- index registers (R237)
  | ixset (f : VFields) | ixld (f : VFields) | ixmov (f : VFields) | ixadv (f : VFields)
  -- memory (R217)
  | ld (f : MFields) | ldu (f : MFields) | ldt (f : MFields) | st (f : MFields) | stu (f : MFields)
  | lds (f : MFields) | sts (f : MFields) | pref (f : MFields)
  | cctlClean (f : MFields) | cctlFlush (f : MFields) | cctlPin (f : MFields) | cctlUnpin (f : MFields)
  | cctlDrop (f : MFields) | cctlDropall (f : MFields)
  -- atomics and ordering (R255-R269, R377-R379)
  | atom (f : MFields) | ared (f : MFields) | atsc (f : MFields) | fence (f : MFields)
  | bar (f : XFields) | bard (f : XFields) | ofence (f : XFields) | nmatom (f : MFields) | nmfence (f : MFields)
  -- exchange (R276, R296)
  | xch (f : XFields) | xget (f : XFields) | xput (f : XFields) | msg (f : XFields) | rwait (f : XFields)
  | radv (f : XFields) | rbind (f : XFields) | watch (f : MFields)
  -- matrix and projection (R305, R324)
  | mldb (f : TFields) | mma (f : TFields) | mmab (f : TFields) | mmas (f : TFields) | mclr (f : TFields)
  | mdrain (f : PFields) | pjadj (f : PFields) | mlda (f : TFields)
  -- copies, graphs, near memory (R346-R373)
  | cpy (f : VFields) | glaunch (f : VFields) | gpatch (f : VFields) | cue (f : VFields) | nmrun (f : VFields)
  -- system (R416, R454)
  | sread (f : SFields) | swrite (f : SFields) | swriteRng (f : SFields) | swriteLease (f : SFields)
  | eret (f : SFields) | tlbi (f : SFields) | ctxswReset (f : SFields) | ctxswSave (f : SFields)
  | testReq (f : SFields) | testRes (f : SFields) | testInj (f : SFields)
  -- the stagehand (R365)
  | hadd (f : HFields) | hsub (f : HFields) | hmul (f : HFields) | hlogic (f : HFields) | hshift (f : HFields)
  | hli (f : HFields) | hclk (f : HFields) | hbr (f : HFields) | hloop (f : HFields)
  | vld (f : HFields) | vst (f : HFields) | qadd (f : HFields) | qsub (f : HFields) | qmul (f : HFields)
  | qfma (f : HFields) | qmuls (f : HFields) | qminmax (f : HFields) | qrsq (f : HFields) | qbc (f : HFields)
  | qsum (f : HFields) | qinsQext (f : HFields) | ropen (f : HFields) | racc (f : HFields) | rwr (f : HFields)
  | rclr (f : HFields) | claim (f : HFields) | unclm (f : HFields) | signal (f : HFields) | cuew (f : HFields)
  | aqsvc (f : HFields) | end_ (f : HFields)
  -- ring commands: the next accepted entry of partition ring p, or of the administrative ring (R78, R390)
  | launch (p : Nat) | graph (p : Nat) | preempt (p : Nat) | resume (p : Nat) | reset (p : Nat) | mark (p : Nat)
  | drop (p : Nat) | unassignedOpc (r : RingId)
  -- ring and scheduling events (R77-R87)
  | cmdTailDoorbell (r : RingId) (entries : List CmdEntry) (tail : Nat)
  | cplHeadAdvance (r : RingId) (head : Nat)
  | placementGroupStart (p : Nat)
  | warpEnterActive (col : Nat)
  | warpOverdue (col slot : Nat)
  -- memory events: `op` is the operation's number on its column, `req` one of its requests
  | loadDataReturn (col op req : Nat)
  | storePerformed (col op req : Nat)
  | gwctReturn (col op : Nat)
  | leaseExpiry (col ctx line : Nat)
  | releaseWaitEnd (col slot : Nat)
  | subnormalReplayDone (col op : Nat)
  | retirementTrackerFree (col entry : Nat)
  | launchEndOnColumn (col launch : Nat)
  | barrierPhaseComplete (col gang bar : Nat)
  | bardPhaseComplete (launch unit channel : Nat)
  | xchSendArrival (col slot : Nat)
  | msgDelivery (col entry : Nat)
  | msgCompletionReturn (col op : Nat)
  | ringChangeReport (col dst ring : Nat)
  | rwaitWake (col slot : Nat)
  | rwaitTimeout (col slot : Nat)
  | watchWake (col slot : Nat)
  | watchTimeout (col slot : Nat)
  -- engines
  | tileOpStart (col queue : Nat)
  | tileOpComplete (col queue : Nat)
  | copyStart (col op : Nat)
  | copyComplete (col op : Nat)
  | graphReplayStart (die : Nat)
  | graphNodeStart (die replay node : Nat)
  | graphNodeFinish (die replay node : Nat)
  | cueWaitPoll (die replay node : Nat)
  | stagehandProgramStart (col : Nat)
  | claimComplete (col : Nat)
  | cuewWake (col : Nat)
  | atomicQueueServe (col : Nat)
  | bankWindow (col bank : Nat)
  -- translation faults (R421-R437)
  | tableWalkComplete (col ctx off : Nat) (write priv : Bool)
  | wingStageFaultArrival (col ctx gran : Nat)
  | faultRecordSend (p ctx gran : Nat)
  | faultResolution (p rseq : Nat) (col : Nat) (v : Verdict)
  | deferredTrap (col slot : Nat)
  | migration (p ctx page frame : Nat)
  | fetchLineArrival (col slot : Nat)
  -- pre-emption, holds, field test
  | haltTick (p : Nat)
  | imageWriteDone (p col : Nat)
  | hold (p : Nat)
  | holdRelease (p : Nat)
  | rehearsalStart (col : Nat)
  | rehearsalEnd (col unit block : Nat)
  | columnRetirement (col understudy : Nat) (readable : Bool)
  -- bring-up, fabric, host, power, management
  | powerOn (step : BringUp)
  | portTrained (port : Nat) (margins : List Nat)
  | flitReceive (port : Nat) (wire : List Byte)
  | retryRequestReceive (port : Nat) (ack : BitVec 16)
  | portRetrain (port : Nat) (margins : Option (List Nat))
  | hostMemoryRead (port addr len : Nat)
  | hostMemoryWrite (port addr : Nat) (bytes : List Byte)
  | powerLimitState (power : Nat) (junction : Vector Nat 4)
  | clockGateIdle (col : Nat)
  | thermalHoldEntry (junction : Vector Nat 4) (inlet : Nat)
  | thermalHoldExit (junction : Vector Nat 4) (inlet : Nat)
  | twimorErrorRecordRead (die : Nat)
  | twimorImageWrite (part : FlashPart) (die : Nat) (bytes : List Byte)
  | functionFailure (f : ReadyFn)
  | debuggerResume (col slot : Nat) (after : Bool)
  | debuggerAttach (on : Bool)
  -- the rows without operands: the administrative commands (R75, R390), the sequencer (R261), Twimor (R397)
  | pcreate | premove | grant | attest | sequencerTicket | twimorIdentityRead | twimorSensorRead | twimorModuleReset
  deriving DecidableEq, Repr

end Sys2Proof
end

