-- ==== Sys2Proof/Config.lean ====
section
/-! DEFINITION. What an implementation of the Z1024 fixes, and the free values: constants without a body, of which no proof
can know a value, one for each thing the spec leaves open (R7, R148, R179, R39, R102, R393, R396). Every free value is named
in the assumption log. -/

namespace Sys2Proof.Config

/-- Healthy logical columns of each die, from the configuration record (R19). DESIGN CHOICE: a whole device (log 2). -/
def colsFromRecord : Nat := 256

/-- Understudies of each die that stand unused, from the configuration record (R19). DESIGN CHOICE (log 2). -/
def sparesFromRecord : Nat := 16

/-- An undefined 32-bit value (R7), one for each number drawn (log 7). -/
opaque freeWord : Nat → Word

/-- A free yes or no: which of two allowed actions the device takes (R7, R39, R102), one for each number drawn (log 7). -/
opaque freeBool : Nat → Bool

/-- Which of the values that a 4-byte element of a stable page has had a load sees (R42), by the load's number and the element, the
same for all lanes of the load (log 7). -/
opaque freeElem : Nat → Nat → Word

/-- The value that FREE summation proposes (R148); the model keeps it only inside the bound (log 8). -/
opaque freeSum : Nat → Word

/-- The special functions of R179, and the stagehand's QRSQ (R365). -/
inductive Sfu where
  | rcp | rsq | ex2 | lg2 | sin | cos | tanh
  deriving DecidableEq, Repr

/-- The result that a special function proposes for an element, by function, format code and source bits: the same on every
column and device (R179). The model keeps it only inside the bound (log 9). -/
opaque sfuResult : Sfu → BitVec 5 → Word → Word

/-- The bytes of the device serial (R388; log 4). -/
opaque serialByte : Nat → Byte

/-- The 32-byte seed that die 0 derives from its SRAM pattern (R395; log 4). -/
opaque seedByte : Nat → Byte

/-- The ML-DSA-65 public key of a key generation seed, byte by byte (R395; log 4). -/
opaque mlDsaPublic : List Byte → Nat → Byte

/-- The ML-DSA-65 signature of a report, 3,309 bytes, as a function of the key generation seed, the signed bytes and the place (R396; log 4). -/
opaque signatureByte : List Byte → List Byte → Nat → Byte

/-- The bytes of the certificate of the device's key (R396; log 4). -/
opaque certificate : List Byte

/-- The bytes of an image region whose layout the spec does not give (R89), by the number of the save and the offset (log 80). -/
opaque imageByte : Nat → Nat → Byte

/-- The 240 payload bytes of a flit that the device sends: the layout of transactions is not given (R386; log 7). -/
opaque flitPay : Nat → List Byte

/-- The transaction-layer credits that a flit returns (R386): the spec gives no count (log 7). -/
opaque flitCred : Nat → BitVec 8

/-- Whether a firmware image passes the check of its signature (R394; log 4). -/
opaque firmwareSigned : List Byte → Bool

/-- Whether a configuration record's bytes and its signature belong together under Phiusk's key (R393; log 4). -/
opaque recordSigned : List Byte → List Byte → Bool

/-- What the body of a configuration record makes of a physical column of a die (R13, R393): below 256 the logical number in the die that it carries, 256
an understudy, else unusable. The body's layout is not given (log 2). -/
opaque recordRole : List Byte → Nat → Nat → Nat

/-- The thresholds of the configuration record (R464; log 4), by counter number. -/
opaque threshold : Nat → Nat

/-- The retirement limit of the configuration record (R458; log 4). -/
opaque retirementLimit : Nat

end Sys2Proof.Config
end

