-- ==== Sys2Proof/Machine/Bits.lean ====
section
/-! DEFINITION. Bit-field, sign-extension and byte-order helpers, and the views of the instruction fields (R107, R116-R119). -/

namespace Sys2Proof

/-- The number that a bit string stands for as two's complement, truncated to w bits first. -/
def signedOf (w : Nat) (x : Nat) : Int :=
  let y := x % 2 ^ w
  if y < 2 ^ (w - 1) then (y : Int) else (y : Int) - (2 ^ w : Nat)

/-- x mod 2^w as a number, for any integer x. -/
def wrapInt (w : Nat) (x : Int) : Nat := (x % ((2 ^ w : Nat) : Int)).toNat

/-- The little-endian bytes of a number (R2). -/
def bytesOf : Nat → Nat → List Byte
  | 0, _ => []
  | n + 1, x => BitVec.ofNat 8 x :: bytesOf n (x / 256)

/-- The number that little-endian bytes hold (R2). -/
def numOf : List Byte → Nat
  | [] => 0
  | b :: bs => b.toNat + 256 * numOf bs

/-- Lane l is in the mask. -/
def Mask.has (m : Mask) (l : Nat) : Bool := m.getLsbD l

/-- The lane numbers in ascending order (R9). -/
def lanes : List Nat := List.range 32

/-- The mask of the lanes that satisfy p. -/
def Mask.of (p : Nat → Bool) : Mask :=
  lanes.foldl (fun m l => if p l then m ||| (1#32 <<< l) else m) 0

/-- The lanes of a mask in ascending order. -/
def Mask.list (m : Mask) : List Nat := lanes.filter (fun l => Mask.has m l)

/-- A vector of 32 lanes from its lane function. -/
def tab {α : Type} (f : Nat → α) : Vector α 32 := Vector.ofFn (fun i => f i.val)

/-- Lane l of a vector of 32 lanes; lanes are counted modulo 32. -/
def lane {α : Type} (v : Vector α 32) (l : Nat) : α := v[l % 32]'(Nat.mod_lt l (by decide))

/-- The operand field in its 16 bits (R116). -/
def Operand.bits (o : Operand) : BitVec 16 := BitVec.ofBool o.ind ++ o.reg ++ o.pat ++ o.k

/-- The operand field that 16 bits hold (R116). -/
def Operand.ofBits (x : BitVec 16) : Operand :=
  { ind := x.getLsbD 15, reg := x.extractLsb' 7 8, pat := x.extractLsb' 5 2, k := x.extractLsb' 0 5 }

/-- Every bit of the field is 0. -/
def Operand.isZero (o : Operand) : Bool := o.bits == 0

/-- The form that names a special source, K = 1 to 31 (R118). -/
def Operand.isSpecial (o : Operand) : Bool := !o.ind && o.pat == 0 && o.reg == 0 && o.k != 0

/-- The special-source form with an unassigned K (R118). -/
def Operand.badSpecial (o : Operand) : Bool := o.isSpecial && decide (3 < o.k.toNat)

/-- The index register, mode and offset of an indirect field (R119). -/
def Operand.xi (o : Operand) : Nat := (o.bits.extractLsb' 11 4).toNat
/-- The mode XM of an indirect field (R119). -/
def Operand.xm (o : Operand) : BitVec 2 := o.bits.extractLsb' 9 2
/-- The element offset XO of an indirect field (R119): 0, +1, -2, -1. -/
def Operand.xo (o : Operand) : Int := ((o.bits.extractLsb' 7 2).toInt : Int)

/-- A destination field as an operand field without a pattern: D[8] is IND and D[7:0] is read as REG (R107). -/
def dstOperand (d : BitVec 9) : Operand :=
  { ind := d.getLsbD 8, reg := d.extractLsb' 0 8, pat := 0, k := 0 }

/-- The register number of a direct destination field (R107). -/
def dstReg (d : BitVec 9) : Nat := (d.extractLsb' 0 8).toNat

/-- The field B of a V3 body (R107). -/
def VFields.b (f : VFields) : Operand := Operand.ofBits (f.bc.extractLsb' 16 16)
/-- The field C of a V3 body (R107). -/
def VFields.c (f : VFields) : Operand := Operand.ofBits (f.bc.extractLsb' 0 16)
/-- The immediate of a VI body (R107). -/
def VFields.imm (f : VFields) : Word := f.bc
/-- SUB[7]: the VI form (R106). -/
def VFields.vi (f : VFields) : Bool := f.sub.getLsbD 7
/-- Bits [h:l] of SUB as a number. -/
def VFields.subBits (f : VFields) (h l : Nat) : Nat := (f.sub.extractLsb' l (h - l + 1)).toNat
/-- Bit n of SUB. -/
def VFields.subBit (f : VFields) (n : Nat) : Bool := f.sub.getLsbD n

/-- The operation code of an atomic, bits [14:10] (R257). -/
def MFields.aop (f : MFields) : BitVec 5 := f.size ++ f.cpol
/-- The signed byte offset OFF (R109). -/
def MFields.offset (f : MFields) : Int := f.off.toInt
/-- The access size in bytes that SIZE names (R109). -/
def accessBytes (size : Nat) : Nat := 2 ^ size
/-- The number of data registers that SIZE names (R220). -/
def accessRegs (size : Nat) : Nat := if size ≤ 2 then 1 else if size = 3 then 2 else 4

/-- K of a matrix instruction (R111). -/
def TFields.k (f : TFields) : Nat := 8 * (f.k8.toNat + 1)

/-- The 12-bit format codes of R120 that are assigned. -/
def fmtAssigned (c : BitVec 5) : Bool :=
  decide (c.toNat ≤ 0x09) || (decide (0x10 ≤ c.toNat) && decide (c.toNat ≤ 0x17))

namespace Fmt
/-- RAW (R120). -/
def raw : BitVec 5 := 0x00
/-- F32 (R120). -/
def f32 : BitVec 5 := 0x01
/-- F16X2 (R120). -/
def f16x2 : BitVec 5 := 0x02
/-- BF16X2 (R120). -/
def bf16x2 : BitVec 5 := 0x03
/-- E4M3X4 (R120). -/
def e4m3x4 : BitVec 5 := 0x04
/-- E5M2X4 (R120). -/
def e5m2x4 : BitVec 5 := 0x05
/-- E2M3X4 (R120). -/
def e2m3x4 : BitVec 5 := 0x06
/-- E3M2X4 (R120). -/
def e3m2x4 : BitVec 5 := 0x07
/-- E2M1X8 (R120). -/
def e2m1x8 : BitVec 5 := 0x08
/-- E8M0X4 (R120). -/
def e8m0x4 : BitVec 5 := 0x09
/-- I32 (R120). -/
def i32 : BitVec 5 := 0x10
/-- UI32 (R120). -/
def ui32 : BitVec 5 := 0x11
/-- I16X2 (R120). -/
def i16x2 : BitVec 5 := 0x12
/-- U16X2 (R120). -/
def u16x2 : BitVec 5 := 0x13
/-- I8X4 (R120). -/
def i8x4 : BitVec 5 := 0x14
/-- U8X4 (R120). -/
def u8x4 : BitVec 5 := 0x15
/-- I4X8 (R120). -/
def i4x8 : BitVec 5 := 0x16
/-- U4X8 (R120). -/
def u4x8 : BitVec 5 := 0x17
end Fmt

/-- Elements per lane of a format (R133). -/
def elems (f : BitVec 5) : Nat :=
  match f.toNat with
  | 2 | 3 | 0x12 | 0x13 => 2
  | 4 | 5 | 6 | 7 | 9 | 0x14 | 0x15 => 4
  | 8 | 0x16 | 0x17 => 8
  | _ => 1

/-- The distance of one element to the next within a lane (R133). -/
def pitch (f : BitVec 5) : Nat := 32 / elems f

/-- The bits of an element in a lane (R133): six for FP6, else the pitch. -/
def elemBits (f : BitVec 5) : Nat := if f = Fmt.e2m3x4 ∨ f = Fmt.e3m2x4 then 6 else pitch f

/-- The element width in a tensor in memory (R49): six for FP6. -/
def memBits (f : BitVec 5) : Nat := elemBits f

/-- A floating-point format (R129) or E8M0. -/
def isFloatFmt (f : BitVec 5) : Bool := decide (1 ≤ f.toNat) && decide (f.toNat ≤ 9)

/-- An integer format (R132). -/
def isIntFmt (f : BitVec 5) : Bool := decide (0x10 ≤ f.toNat) && decide (f.toNat ≤ 0x17)

/-- A two's-complement integer format (R132). -/
def isSignedFmt (f : BitVec 5) : Bool := isIntFmt f && !f.getLsbD 0

/-- The code of element i in a lane (R133). -/
def elemCode (f : BitVec 5) (x : Word) (i : Nat) : Nat := x.toNat / 2 ^ (pitch f * i) % 2 ^ elemBits f

/-- The lane with the code of element i replaced (R153); the unused bits of an FP6 element become 0 (R133). -/
def insCode (f : BitVec 5) (x : Word) (i code : Nat) : Word :=
  let p := pitch f
  let m : Nat := (2 ^ p - 1) * 2 ^ (p * i)
  (x &&& ~~~(BitVec.ofNat 32 m)) ||| BitVec.ofNat 32 (code % 2 ^ elemBits f * 2 ^ (p * i))

/-- A word as a register of a format holds it: the bits between FP6 elements are written as zero (R133). -/
def padded (f : BitVec 5) (w : Word) : Word := if f = Fmt.e2m3x4 ∨ f = Fmt.e3m2x4 then w &&& 0x3F3F3F3F#32 else w

/-- Element i as an integer under an integer format (R132). -/
def elemInt (f : BitVec 5) (x : Word) (i : Nat) : Int :=
  if isSignedFmt f then signedOf (pitch f) (elemCode f x i) else (elemCode f x i : Int)

/-- The least and the greatest value of an integer format (R132). -/
def intMin (f : BitVec 5) : Int := if isSignedFmt f then -((2 ^ (pitch f - 1) : Nat) : Int) else 0
/-- The greatest value of an integer format (R132). -/
def intMax (f : BitVec 5) : Int :=
  if isSignedFmt f then ((2 ^ (pitch f - 1) : Nat) : Int) - 1 else ((2 ^ pitch f : Nat) : Int) - 1

/-- Clamp(x, f) of R153. -/
def clampInt (f : BitVec 5) (x : Int) : Int := max (intMin f) (min x (intMax f))

/-- The element code of an integer that a format wraps or holds (R153). -/
def intCode (f : BitVec 5) (x : Int) : Nat := wrapInt (pitch f) x

end Sys2Proof
end

