-- ==== Sys2Proof/Machine/Numbers.lean ====
section
/-! DEFINITION. Number formats and arithmetic: codes and exact values (R129-R133), rounding and overflow (R139-R141), E8M0
(R131), stochastic rounding (R142, R143), FixedSum (R149), the bound of FREE summation (R148), blocks (R137) and the special
functions' bounds (R179). -/

namespace Sys2Proof

/-- The parameters of a floating element format (R129): exponent and mantissa bits, bias, the code of the largest finite
magnitude, whether E all ones with M = 0 is an infinity, and the canonical NaN where there is one (R130). -/
structure FloatFmt where
  eb   : Nat
  mb   : Nat
  bias : Nat
  maxc : Nat
  inf  : Bool
  nan  : Option Nat
  deriving DecidableEq, Repr

/-- FP32 (R129). -/
def FloatFmt.fp32 : FloatFmt := { eb := 8, mb := 23, bias := 127, maxc := 0x7F7FFFFF, inf := true, nan := some 0x7FC00000 }
/-- FP16 (R129). -/
def FloatFmt.fp16 : FloatFmt := { eb := 5, mb := 10, bias := 15, maxc := 0x7BFF, inf := true, nan := some 0x7E00 }
/-- BF16 (R129). -/
def FloatFmt.bf16 : FloatFmt := { eb := 8, mb := 7, bias := 127, maxc := 0x7F7F, inf := true, nan := some 0x7FC0 }
/-- E4M3 (R129). -/
def FloatFmt.e4m3 : FloatFmt := { eb := 4, mb := 3, bias := 7, maxc := 0x7E, inf := false, nan := some 0x7F }
/-- E5M2 (R129). -/
def FloatFmt.e5m2 : FloatFmt := { eb := 5, mb := 2, bias := 15, maxc := 0x7B, inf := true, nan := some 0x7E }
/-- E2M3 (R129). -/
def FloatFmt.e2m3 : FloatFmt := { eb := 2, mb := 3, bias := 1, maxc := 0x1F, inf := false, nan := none }
/-- E3M2 (R129). -/
def FloatFmt.e3m2 : FloatFmt := { eb := 3, mb := 2, bias := 3, maxc := 0x1F, inf := false, nan := none }
/-- E2M1 (R129). -/
def FloatFmt.e2m1 : FloatFmt := { eb := 2, mb := 1, bias := 1, maxc := 0x7, inf := false, nan := none }

/-- The element format of a register tag (R120, R129). -/
def floatFmt (f : BitVec 5) : FloatFmt :=
  match f.toNat with
  | 2 => .fp16
  | 3 => .bf16
  | 4 => .e4m3
  | 5 => .e5m2
  | 6 => .e2m3
  | 7 => .e3m2
  | 8 => .e2m1
  | _ => .fp32

/-- An exact value: NaN, a signed infinity, or the signed fraction n / d (a signed zero where n = 0). -/
inductive FVal where
  | nan
  | inf (neg : Bool)
  | fin (neg : Bool) (n d : Nat)
  deriving DecidableEq, Repr

/-- The sign of a value; NaN has none. -/
def FVal.neg : FVal → Bool
  | .nan => false
  | .inf s => s
  | .fin s _ _ => s

/-- A zero of either sign. -/
def FVal.isZero : FVal → Bool
  | .fin _ n _ => n == 0
  | _ => false

/-- A NaN. -/
def FVal.isNan (x : FVal) : Bool := x == .nan

/-- An infinity. -/
def FVal.isInf : FVal → Bool
  | .inf _ => true
  | _ => false

/-- 2^e times n / d. -/
def scale2 (n d : Nat) (e : Int) : Nat × Nat := if 0 ≤ e then (n * 2 ^ e.toNat, d) else (n, d * 2 ^ (-e).toNat)

/-- The value with the exponent moved by e. -/
def FVal.scale (x : FVal) (e : Int) : FVal :=
  match x with
  | .fin s n d => .fin s (scale2 n d e).1 (scale2 n d e).2
  | v => v

/-- The value of a code (R129). -/
def FloatFmt.value (F : FloatFmt) (c : Nat) : FVal :=
  let s : Bool := c / 2 ^ (F.eb + F.mb) % 2 == 1
  let m := c % 2 ^ (F.eb + F.mb)
  let e := m / 2 ^ F.mb
  let f := m % 2 ^ F.mb
  if F.maxc < m then (if F.inf && f == 0 then .inf s else .nan)
  else if e = 0 then
    let p := scale2 f 1 (1 - (F.bias : Int) - F.mb)
    .fin s p.1 p.2
  else
    let p := scale2 (2 ^ F.mb + f) 1 ((e : Int) - F.bias - F.mb)
    .fin s p.1 p.2

/-- The value of an integer. -/
def FVal.ofInt (x : Int) : FVal := .fin (decide (x < 0)) x.natAbs 1

/-- The value of an E8M0 code (R131). -/
def e8m0Value (c : Nat) : FVal :=
  if c % 256 = 255 then .nan else let p := scale2 1 1 ((c % 256 : Nat) - (127 : Int)); .fin false p.1 p.2

/-- Element i of a lane as an exact value under a format (R153). -/
def elemVal (f : BitVec 5) (x : Word) (i : Nat) : FVal :=
  if f = Fmt.e8m0x4 then e8m0Value (elemCode f x i)
  else if isFloatFmt f then (floatFmt f).value (elemCode f x i)
  else FVal.ofInt (if f = Fmt.raw then (x.toNat : Int) else elemInt f x i)

/-! ## Exact operations -/

/-- The negation. -/
def FVal.negate : FVal → FVal
  | .nan => .nan
  | .inf s => .inf !s
  | .fin s n d => .fin (!s) n d

/-- The magnitude. -/
def FVal.abs : FVal → FVal
  | .nan => .nan
  | .inf _ => .inf false
  | .fin _ n d => .fin false n d

/-- The exact product; 0 × ∞ is invalid (R140). -/
def FVal.mul : FVal → FVal → FVal
  | .fin s n d, .fin t m e => .fin (s != t) (n * m) (d * e)
  | .inf s, .inf t => .inf (s != t)
  | .inf s, .fin t n _ => if n = 0 then .nan else .inf (s != t)
  | .fin t n _, .inf s => if n = 0 then .nan else .inf (s != t)
  | _, _ => .nan

/-- The exact quotient; 0 / 0 and ∞ / ∞ are invalid, x / 0 is an infinity (R140, R176). -/
def FVal.div : FVal → FVal → FVal
  | .fin s n d, .fin t m e =>
    if m = 0 then (if n = 0 then .nan else .inf (s != t)) else .fin (s != t) (n * e) (d * m)
  | .inf s, .fin t _ _ => .inf (s != t)
  | .fin s _ _, .inf t => .fin (s != t) 0 1
  | _, _ => .nan

/-- Numerator of a finite value over the common denominator 1, as a signed fraction; zero for what is not finite. -/
def FVal.frac : FVal → Int × Nat
  | .fin s n d => (if s then -(n : Int) else n, d)
  | _ => (0, 1)

/-- The sum of signed fractions. -/
def fracSum : List (Int × Nat) → Int × Nat
  | [] => (0, 1)
  | (n, d) :: xs => let (m, e) := fracSum xs; if e = d then (n + m, d) else (n * e + m * d, d * e)

/-- The exact sum of terms, with the sign of an exact zero as IEEE 754-2019 gives it under the rounding mode (R139). -/
def FVal.sum (rm : BitVec 2) (xs : List FVal) : FVal :=
  if xs.any FVal.isNan then .nan
  else if xs.any (fun x => x == .inf true) && xs.any (fun x => x == .inf false) then .nan
  else if xs.any (fun x => x == .inf true) then .inf true
  else if xs.any (fun x => x == .inf false) then .inf false
  else
    let (n, d) := fracSum (xs.map FVal.frac)
    if n = 0 then
      let allNeg := xs.all (fun x => x.isZero && x.neg)
      let allPos := xs.all (fun x => x.isZero && !x.neg)
      .fin (allNeg || (!allPos && rm == 2)) 0 1
    else .fin (decide (n < 0)) n.natAbs d

/-- The exact sum of two values. -/
def FVal.add (rm : BitVec 2) (x y : FVal) : FVal := FVal.sum rm [x, y]

/-- Comparison of two values that are no NaN: -1, 0 or 1; both zeros are equal. -/
def FVal.cmp (x y : FVal) : Int :=
  match x, y with
  | .inf s, .inf t => if s = t then 0 else if s then -1 else 1
  | .inf s, _ => if s then -1 else 1
  | _, .inf t => if t then 1 else -1
  | a, b => let (n, d) := a.frac; let (m, e) := b.frac; Int.sign (n * e - m * d)

/-! ## Rounding -/

/-- A magnitude that rounding can measure exactly: n / d, or its square root. -/
structure Mag where
  n : Nat
  d : Nat
  root : Bool

/-- The integer square root of x with k result bits still to find. -/
def isqrtGo (x : Nat) : Nat → Nat → Nat
  | 0, r => r
  | k + 1, r => let t := r + 2 ^ k; isqrtGo x k (if t * t ≤ x then t else r)

/-- The integer square root. -/
def isqrt (x : Nat) : Nat := isqrtGo x (Nat.log2 x / 2 + 1) 0

/-- floor(log2 (n / d)) for positive n and d. -/
def floorLog2 (n d : Nat) : Int :=
  let e : Int := (Nat.log2 n : Int) - (Nat.log2 d : Int)
  let p := scale2 d 1 e
  if n * p.2 < p.1 then e - 1 else e

/-- floor(log2 m) of a positive magnitude. -/
def Mag.log2 (m : Mag) : Int := if m.root then floorLog2 m.n m.d / 2 else floorLog2 m.n m.d

/-- floor(n / d / 2^q), and whether that is exact. -/
def fracFloor (n d : Nat) (q : Int) : Nat × Bool :=
  let p := scale2 n d (-q)
  (p.1 / p.2, p.1 % p.2 == 0)

/-- floor(m / 2^q), and whether that is exact. -/
def Mag.floorAt (m : Mag) (q : Int) : Nat × Bool :=
  if m.root then
    let (a, ex) := fracFloor m.n m.d (2 * q)
    let s := isqrt a
    (s, ex && s * s == a)
  else fracFloor m.n m.d q

/-- The magnitude in units of 2^q rounded under a mode, for a value of the given sign (R139). -/
def Mag.roundAt (m : Mag) (q : Int) (rm : BitVec 2) (neg : Bool) : Nat :=
  let (t, ex) := m.floorAt (q - 1)
  let k := t / 2
  let half : Bool := t % 2 == 1
  let exact := !half && ex
  if rm = 0 then (if half && (!ex || k % 2 == 1) then k + 1 else k)
  else if rm = 1 then k
  else if rm = 2 then (if neg && !exact then k + 1 else k)
  else (if !neg && !exact then k + 1 else k)

/-- The exponent of the grid's spacing for a positive magnitude (R139). -/
def FloatFmt.quantum (F : FloatFmt) (m : Mag) : Int := max m.log2 (1 - (F.bias : Int)) - F.mb

/-- The spacing exponent of the subnormal grid. -/
def FloatFmt.qmin (F : FloatFmt) : Int := 1 - (F.bias : Int) - F.mb

/-- The code of k * 2^q on the grid extended without limit; above maxc it overflows. -/
def FloatFmt.codeAt (F : FloatFmt) (k : Nat) (q : Int) : Nat :=
  if k = 0 then 0 else k + (q - F.qmin).toNat * 2 ^ F.mb

/-- The magnitude code that rounding chooses on the extended grid. -/
def FloatFmt.roundMag (F : FloatFmt) (m : Mag) (rm : BitVec 2) (neg : Bool) : Nat :=
  if m.n = 0 then 0 else F.codeAt (m.roundAt (F.quantum m) rm neg) (F.quantum m)

/-- A sign and a magnitude code as an element code. -/
def FloatFmt.signed (F : FloatFmt) (neg : Bool) (c : Nat) : Nat := if neg then 2 ^ (F.eb + F.mb) + c else c

/-- An infinite result without saturation (R140). -/
def FloatFmt.infCode (F : FloatFmt) (neg : Bool) : Nat :=
  if F.inf then F.signed neg (F.maxc + 1)
  else match F.nan with
    | some c => c
    | none => F.signed neg F.maxc

/-- The canonical NaN, and +0 where the format has none (R130, R141). -/
def FloatFmt.nanCode (F : FloatFmt) : Nat := F.nan.getD 0

/-- A magnitude code of the extended grid as the element code that is written (R140). -/
def FloatFmt.finish (F : FloatFmt) (neg : Bool) (c : Nat) (rm : BitVec 2) (sat : Bool) : Nat :=
  if c ≤ F.maxc then F.signed neg c
  else if sat then F.signed neg F.maxc
  else if rm = 0 || (rm = 2 && neg) || (rm = 3 && !neg) then F.infCode neg
  else F.signed neg F.maxc

/-- The element code of an exact value: one rounding, with overflow and saturation (R139, R140, R141). -/
def FloatFmt.round (F : FloatFmt) (rm : BitVec 2) (sat : Bool) (x : FVal) : Nat :=
  match x with
  | .nan => F.nanCode
  | .inf s => if sat then F.signed s F.maxc else F.infCode s
  | .fin s n d => F.finish s (F.roundMag { n := n, d := d, root := false } rm s) rm sat

/-- The element code of the square root of a value (R176): NaN below -0, the zero itself. -/
def FloatFmt.roundSqrt (F : FloatFmt) (rm : BitVec 2) (sat : Bool) (x : FVal) : Nat :=
  match x with
  | .nan => F.nanCode
  | .inf s => if s then F.nanCode else F.round rm sat (.inf false)
  | .fin s n d =>
    if n = 0 then F.signed s 0
    else if s then F.nanCode
    else F.finish false (F.roundMag { n := n, d := d, root := true } rm false) rm sat

/-- An exact value rounded to an integer (R139, R181); zero for what is not finite. -/
def roundInt (rm : BitVec 2) (x : FVal) : Int :=
  match x with
  | .fin s n d =>
    let k := Mag.roundAt { n := n, d := d, root := false } 0 rm s
    if s then -(k : Int) else k
  | _ => 0

/-- A floating value as an integer element: rounded, then clamped; a NaN gives 0 (R140, R141). -/
def toIntElem (t : BitVec 5) (rm : BitVec 2) (x : FVal) : Int :=
  match x with
  | .nan => 0
  | .inf s => if s then intMin t else intMax t
  | v => clampInt t (roundInt rm v)

/-- The magnitude of a positive value, for its grid. -/
def FVal.mag : FVal → Mag
  | .fin _ n d => { n := n, d := d, root := false }
  | _ => { n := 0, d := 1, root := false }

/-- The E8M0 code of a value (R131). -/
def toE8m0 (rm : BitVec 2) (sat : Bool) (x : FVal) : Nat :=
  match x with
  | .nan => 255
  | .inf s => if !s && sat then 254 else 255
  | .fin s n d =>
    if s || n = 0 then 255
    else
      let k := floorLog2 n d
      if k < -127 then 0
      else
        let (t, ex) := fracFloor n d (k - 1)
        -- t is 2 or 3: x lies in [2^k, 2^(k+1)), and the tie at 1.5 * 2^k goes to the even code
        let atTie : Bool := t == 3 && ex
        let isPow : Bool := t == 2 && ex
        let up : Bool :=
          if rm = 0 then (if atTie then (k + 127) % 2 == 1 else t == 3)
          else rm == 3 && !isPow
        let r := if up then k + 1 else k
        if r > 127 then (if sat then 254 else 255) else (r + 127).toNat

/-- The bounds of an element format's codes: the element of an exact value under a destination format, with the flag that a
NaN was lost (R141, R181). -/
def convertElem (t : BitVec 5) (rm : BitVec 2) (sat : Bool) (x : FVal) : Nat × Bool :=
  if t = Fmt.e8m0x4 then (toE8m0 rm sat x, false)
  else if isFloatFmt t then
    ((floatFmt t).round rm sat x, x.isNan && (floatFmt t).nan == none)
  else (intCode t (toIntElem t rm x), x.isNan)

/-! ## Stochastic rounding -/

/-- Step of R142. -/
def rngStep (z : Word) : Word :=
  let z := z ^^^ (z <<< 13)
  let z := z ^^^ (z >>> 17)
  z ^^^ (z <<< 5)

/-- The state of a lane's generator at warp start (R142). -/
def rngStart (seed : Word) (col slot l j : Nat) : Word :=
  let k := (col * 48 + slot) * 32 + l
  let z := seed ^^^ BitVec.ofNat 32 (k * 0x9E3779B9) ^^^ BitVec.ofNat 32 (j * 0x85EBCA6B)
  let z := rngStep (rngStep (rngStep z))
  if z = 0 then 0x2545F491 else z

/-- The draw of R143: the top 24 bits. -/
def rngDraw (g : Word) : Nat := g.toNat / 256

/-- Whether a draw moves a magnitude away from zero: the fraction of the spacing 2^q against the draw (R143). -/
def srAway (m : Mag) (q : Int) (rnd : Nat) : Bool :=
  let lo := (m.floorAt q).1
  let f := (m.floorAt (q - 24)).1 - lo * 2 ^ 24
  decide (rnd < f)

/-- A stochastically rounded element (R143). -/
def srElem (t : BitVec 5) (sat : Bool) (rnd : Nat) (x : FVal) : Nat × Bool :=
  match x with
  | .fin s n d =>
    let m : Mag := { n := n, d := d, root := false }
    if isFloatFmt t then
      let F := floatFmt t
      if n = 0 then (F.signed s 0, false)
      else
        let q := F.quantum m
        let k := (m.floorAt q).1 + (if srAway m q rnd then 1 else 0)
        (F.finish s (F.codeAt k q) 0 sat, false)
    else
      let k : Int := (m.floorAt 0).1 + (if srAway m 0 rnd then 1 else 0)
      (intCode t (clampInt t (if s then -k else k)), false)
  | v => convertElem t 0 sat v

/-! ## Sums -/

/-- floor(|t| / 2^q) with the sign of t, for a finite t. -/
def truncAt (q : Int) (x : FVal) : Int :=
  match x with
  | .fin s n d => let k := (fracFloor n d q).1; if s then -(k : Int) else k
  | _ => 0

/-- The sum of one group of at most 24 terms (R149), as an F32 value. -/
def groupSum (grp : List FVal) : FVal :=
  if grp.any FVal.isNan || (grp.any (fun x => x == .inf true) && grp.any (fun x => x == .inf false)) then .nan
  else if grp.any FVal.isInf then (if grp.any (fun x => x == .inf true) then .inf true else .inf false)
  else if grp.all FVal.isZero then .fin (grp.all FVal.neg) 0 1
  else
    let e := grp.foldl (fun e x => match x with
      | .fin _ n d => if n = 0 then e else
          match e with
          | none => some (floorLog2 n d)
          | some k => some (max k (floorLog2 n d))
      | _ => e) (none : Option Int)
    let q := e.getD 0 - 30
    let s : Int := grp.foldl (fun a x => a + truncAt q x) 0
    let v : FVal := if s = 0 then .fin false 0 1 else (FVal.ofInt s).scale q
    FloatFmt.fp32.value (FloatFmt.fp32.round 0 false v)

/-- FixedSum over groups of 24 (R149), by fuel for the number of groups. -/
def fixedSumGo : Nat → FVal → List FVal → FVal
  | 0, acc, _ => acc
  | k + 1, acc, xs =>
    match xs with
    | [] => acc
    | _ =>
      let s := groupSum (xs.take 24)
      fixedSumGo k (FloatFmt.fp32.value (FloatFmt.fp32.round 0 false (FVal.add 0 acc s))) (xs.drop 24)

/-- FixedSum(c, x) as an F32 code (R149). -/
def fixedSum (c : FVal) (xs : List FVal) : Nat :=
  FloatFmt.fp32.round 0 false (fixedSumGo (xs.length / 24 + 1) c xs)

/-- |x| as a fraction. -/
def FVal.absFrac : FVal → Nat × Nat
  | .fin _ n d => (n, d)
  | _ => (0, 1)

/-- A candidate F32 code lies within the bound of FREE summation around the exact sum (R148): |D - x| <= (s + 1) 2^-23 * A,
for the sum A of magnitudes. -/
def freeOk (steps : Nat) (x : FVal) (absSum : Nat × Nat) (code : Nat) : Bool :=
  match FloatFmt.fp32.value code with
  | .nan => false
  | .inf s =>
    -- allowed where the interval holds magnitudes above the maximum of that sign
    let (n, d) := x.frac
    let bn : Int := (steps + 1) * absSum.1
    let bd : Nat := absSum.2 * 2 ^ 23
    let (mn, md) := (FloatFmt.fp32.value FloatFmt.fp32.maxc).frac
    if s then decide (n * bd * md - bn * d * md < -(mn * d * bd)) else decide (mn * d * bd < n * bd * md + bn * d * md)
  | v =>
    let (n, d) := x.frac
    let (m, e) := v.frac
    let diff := (n * e - m * d).natAbs
    decide (diff * (absSum.2 * 2 ^ 23) ≤ (steps + 1) * absSum.1 * (d * e))

/-- FREE summation (R148): the candidate where it is within the bound, else the exact sum rounded (log 8). -/
def freeSum (cand : Word) (steps : Nat) (c : FVal) (xs : List FVal) : Nat :=
  match FVal.sum 0 (c :: xs) with
  | .fin s n d =>
    let a := fracSum ((c :: xs).map (fun x => let (n, d) := x.absFrac; ((n : Int), d)))
    if freeOk steps (.fin s n d) (a.1.natAbs, a.2) cand.toNat then cand.toNat
    else FloatFmt.fp32.round 0 false (.fin s n d)
  | v => FloatFmt.fp32.round 0 false v

/-! ## Values of F32 words -/

/-- The value of an F32 word. -/
def f32Val (w : Word) : FVal := FloatFmt.fp32.value w.toNat

/-- An exact value rounded to an F32 word. -/
def roundF32 (rm : BitVec 2) (x : FVal) : Word := BitVec.ofNat 32 (FloatFmt.fp32.round rm false x)

/-- +0. -/
def FVal.zero : FVal := .fin false 0 1

/-- FixedSum(+0, xs) as a value (R149). -/
def sumF32 (xs : List FVal) : FVal := FloatFmt.fp32.value (fixedSum FVal.zero xs)

/-- x - y, exact. -/
def FVal.minus (x y : FVal) : FVal := FVal.add 0 x y.negate

/-- x < y, false where one is a NaN. -/
def FVal.less (x y : FVal) : Bool := !x.isNan && !y.isNan && decide (FVal.cmp x y < 0)

/-- max(x, 0), +0 where x is not above 0. -/
def FVal.relu (x : FVal) : FVal := if FVal.less FVal.zero x then x else FVal.zero

/-- x divided by a count and rounded to F32, as a value. -/
def FVal.per (x : FVal) (n : Nat) : FVal := f32Val (roundF32 0 (FVal.div x (.fin false n 1)))

/-! ## Blocks -/

/-- emax of R137. -/
def blockEmax (f : BitVec 5) : Int :=
  match f.toNat with
  | 4 => 8
  | 5 => 15
  | 6 => 2
  | 7 => 4
  | _ => 2

/-- Element formats of BX6 and BX4, whose blocks lose their NaNs to the scale (R137). -/
def blockNoNan (f : BitVec 5) : Bool := (floatFmt f).nan == none

/-- The scale code of a block of values (R137, steps 1 to 3). A block without a finite value has no largest |xi|, and the spec gives
it no m: its scale is that of m = 0, 127 (DESIGN CHOICE, log 121). -/
def blockScale (f : BitVec 5) (xs : List FVal) : Nat :=
  if blockNoNan f && xs.any FVal.isNan then 255
  else
    let e := xs.foldl (fun e x => match x with
      | .fin _ n d => if n = 0 then e else
          match e with
          | none => some (floorLog2 n d)
          | some k => some (max k (floorLog2 n d))
      | _ => e) (none : Option Int)
    match e with
    | none => 127
    | some k => (127 + max (-127) (min 127 (k - blockEmax f))).toNat

/-- One element of a block under its scale (R137, steps 2, 4 and 5); `draw` is the stochastic draw where .sr is set. -/
def blockElem (f : BitVec 5) (rm : BitVec 2) (draw : Option Nat) (sc : Nat) (x : FVal) : Nat :=
  let F := floatFmt f
  if sc = 255 then 0
  else match x with
    | .nan => F.nanCode
    | .inf s => if F.inf then F.infCode s else F.signed s F.maxc
    | v =>
      let y := v.scale (127 - (sc : Int))
      match draw with
      | none => F.round rm true y
      | some r => (srElem f true r y).1

/-! ## Special functions -/

/-- Fixed-point numbers have this many fraction bits in the enclosures below. -/
def fixP : Nat := 400

/-- n / d in fixed point. -/
def fixOf (n d : Nat) : Nat := n * 2 ^ fixP / d

/-- The product of two fixed-point numbers. -/
def fixMul (a b : Nat) : Nat := a * b / 2 ^ fixP

/-- The sum of x^(2i+1) / (2i+1) with alternating signs where `alt`, i from the given one for k terms; pw = x^(2i+1). -/
def atanGo (alt : Bool) (x2 : Nat) : Nat → Nat → Nat → Int
  | 0, _, _ => 0
  | k + 1, i, pw =>
    (if alt && i % 2 == 1 then -((pw / (2 * i + 1) : Nat) : Int) else ((pw / (2 * i + 1) : Nat) : Int)) +
      atanGo alt x2 k (i + 1) (fixMul pw x2)

/-- arctan of a fixed-point number below 1/2 (200 terms). -/
def fixAtan (x : Nat) : Nat := (atanGo true (fixMul x x) 200 0 x).toNat
/-- artanh of a fixed-point number below 1/2 (200 terms). -/
def fixAtanh (x : Nat) : Nat := (atanGo false (fixMul x x) 200 0 x).toNat

/-- Pi, by 16 arctan(1/5) - 4 arctan(1/239). -/
def fixPi : Nat := 16 * fixAtan (fixOf 1 5) - 4 * fixAtan (fixOf 1 239)
/-- ln 2, by 2 artanh(1/3). -/
def fixLn2 : Nat := 2 * fixAtanh (fixOf 1 3)

/-- The sum of the terms t * x / i, t * x^2 / (i (i+1)), ... of the exponential series. -/
def expGo (x : Nat) : Nat → Nat → Nat → Nat
  | 0, _, _ => 0
  | k + 1, i, t => t + expGo x k (i + 1) (fixMul t x / i)

/-- e^x for a fixed-point x below 2 (120 terms). -/
def fixExp (x : Nat) : Nat := expGo x 120 1 (2 ^ fixP)

/-- The alternating series of sine and cosine: t, -t x2 / (i (i+1)), ... -/
def trigGo (x2 : Nat) : Nat → Nat → Int → Int
  | 0, _, _ => 0
  | k + 1, i, t => t + trigGo x2 k (i + 2) (-(t * x2 / 2 ^ fixP / ((i * (i + 1) : Nat) : Int)))

/-- A value near the exact result of a special function on a nonzero finite argument, within 2^-180 of it: a signed fraction. -/
def sfuNear (fn : Config.Sfu) (neg : Bool) (n d : Nat) : Int × Nat :=
  let one : Nat := 2 ^ fixP
  match fn with
  | .ex2 =>
    let k := n / d
    let f := fixOf (n % d) d
    if 400 ≤ k then (if neg then (1, 2 ^ 400) else (2 ^ 400, 1))
    else
      let p := fixExp (fixMul f fixLn2)
      if neg then ((one : Int), p * 2 ^ k) else ((p * 2 ^ k : Nat), one)
  | .lg2 =>
    let e := floorLog2 n d
    let s := scale2 n d (-e)
    let m := fixOf (s.1 - s.2) (s.1 + s.2)
    (e * one + (2 * fixAtanh m * one / fixLn2 : Nat), one)
  | .sin | .cos =>
    let x := fixOf n d
    let r : Int := (x : Int) - (2 * fixPi : Nat) * ((x / (2 * fixPi) : Nat) : Int)
    let r : Int := if r > fixPi then r - (2 * fixPi : Nat) else r
    let x2 := (r * r / one).toNat
    if fn = .sin then
      let v := trigGo x2 120 2 r
      (if neg then -v else v, one)
    else (trigGo x2 120 1 one, one)
  | .tanh =>
    if 64 * d ≤ n then (if neg then -((one - 1 : Nat) : Int) else ((one - 1 : Nat) : Int), one)
    else
      let t := 2 * fixOf n d
      let k := t / fixLn2
      let ex := fixExp (t % fixLn2) * 2 ^ k
      let v : Int := (((ex - one) * one / (ex + one) : Nat) : Int)
      (if neg then -v else v, one)
  | _ => (0, 1)

/-- The error allowed: in ulps of the destination, or absolute 2^-k (R179). -/
inductive SfuBound where
  | ulps (k : Nat)
  | absolute (k : Nat)
  | exact

/-- The bound of a special function on a nonzero finite argument (R179). What the table says is exact stays exact for a packed format,
whose bound R179 states as 1 ulp for every function (DEDUCED, log 122). -/
def sfuBound (fn : Config.Sfu) (packed : Bool) (n d : Nat) : SfuBound :=
  let isPow : Bool := n * 2 ^ (Nat.log2 d) == d * 2 ^ (Nat.log2 n)
  match fn with
  | .rcp => if isPow then .exact else .ulps 1
  | .rsq => .ulps 1
  | .ex2 => if n % d = 0 then .exact else .ulps 1
  | .lg2 =>
    if isPow then .exact else if packed then .ulps 1
    else if d ≤ 2 * n ∧ n ≤ 2 * d then .absolute 22 else .ulps 1
  | .sin | .cos => if packed then .ulps 1 else if n ≤ 2 ^ 20 * d then .ulps 2 else .absolute 21
  | .tanh => if packed then .ulps 1 else .ulps 2

/-- A candidate code keeps to the bound around y = n / d (of the given sign). -/
def sfuOk (F : FloatFmt) (b : SfuBound) (y : Int × Nat) (code : Nat) : Bool :=
  match F.value code with
  | .fin s m e =>
    let c : Int := if s then -(m : Int) else m
    let diff := (c * y.2 - y.1 * e).natAbs
    let den := e * y.2
    match b with
    | .exact => false
    | .absolute k => decide (diff * 2 ^ k ≤ den)
    | .ulps k =>
      let q := F.quantum { n := y.1.natAbs, d := y.2, root := false }
      let u := scale2 k 1 q
      y.1 != 0 && decide (diff * u.2 ≤ den * u.1)
  | _ => false

/-- The special value of a function on zero, infinity or a negative argument (R179), where it has one. -/
def sfuSpecial (fn : Config.Sfu) (x : FVal) : Option FVal :=
  match fn, x with
  | _, .nan => some .nan
  | .rcp, .inf s => some (.fin s 0 1)
  | .rcp, .fin s n _ => if n = 0 then some (.inf s) else none
  | .rsq, .inf s => some (if s then .nan else .fin false 0 1)
  | .rsq, .fin s n _ => if n = 0 then some (.inf s) else if s then some .nan else none
  | .ex2, .inf s => some (if s then .fin false 0 1 else .inf false)
  | .ex2, .fin _ n _ => if n = 0 then some (.fin false 1 1) else none
  | .lg2, .inf s => some (if s then .nan else .inf false)
  | .lg2, .fin s n d => if n = 0 then some (.inf true) else if s then some .nan
      else if n = d then some (.fin false 0 1) else none
  | .sin, .inf _ => some .nan
  | .sin, .fin s n _ => if n = 0 then some (.fin s 0 1) else none
  | .cos, .inf _ => some .nan
  | .cos, .fin _ _ _ => none
  | .tanh, .inf s => some (.fin s 1 1)
  | .tanh, .fin s n _ => if n = 0 then some (.fin s 0 1) else none

/-- The code of y rounded to nearest even. -/
def sfuRound (F : FloatFmt) (fn : Config.Sfu) (neg : Bool) (n d : Nat) : Nat :=
  match fn with
  | .rcp => F.round 0 false (.fin neg d n)
  | .rsq => F.finish false (F.roundMag { n := d, d := n, root := true } 0 false) 0 false
  | _ => let y := sfuNear fn neg n d; F.round 0 false (.fin (decide (y.1 < 0)) y.1.natAbs y.2)

/-- A value near y for the bound test: exact for the reciprocal, within 2^-180 for the others. -/
def sfuY (fn : Config.Sfu) (neg : Bool) (n d : Nat) : Int × Nat :=
  match fn with
  | .rcp => (if neg then -(d : Int) else d, n)
  | .rsq => (isqrt (d * 2 ^ (2 * fixP) / n), 2 ^ fixP)
  | _ => sfuNear fn neg n d

/-- A result below the least normal value of its format in magnitude: it underflows (R139, R179; the word is IEEE 754's: DEDUCED,
log 123). -/
def sfuTiny (F : FloatFmt) (y : Int × Nat) : Bool :=
  match F.value (2 ^ F.mb) with
  | .fin _ n d => decide (y.1.natAbs * d < n * y.2)
  | _ => false

/-- A special function's element code: the special value, or the device's own result where it keeps to the bound of R179, else
the result rounded to nearest even; a result that overflows or underflows is the rounded one (R139, R140; log 9, log 123). -/
def sfuCode (fn : Config.Sfu) (f : BitVec 5) (code : Nat) : Nat :=
  let F := floatFmt f
  match sfuSpecial fn (F.value code), F.value code with
  | some v, _ => F.round 0 false v
  | none, .fin s n d =>
    let r := sfuRound F fn s n d
    let cand := (Config.sfuResult fn f (BitVec.ofNat 32 code)).toNat % 2 ^ elemBits f
    if r % 2 ^ (F.eb + F.mb) ≤ F.maxc && !sfuTiny F (sfuY fn s n d) && sfuOk F (sfuBound fn (elems f != 1) n d) (sfuY fn s n d) cand then cand else r
  | none, _ => F.nanCode

end Sys2Proof
end

