-- ==== Sys2Proof/Machine/Legal.lean ====
section
/-! DEFINITION. The checks that an instruction's own bits decide, in the three groups of R124: unassigned SUB codes (step 5),
reserved bits (step 6) and unimplemented combinations (step 8), for every instruction, from the table of its class. -/

namespace Sys2Proof

/-- What a field of a V body names. `src`: a register read or written, direct or indirect; `direct`: a register that may not be
indirect; `range`: a register range or pair; `pred`: a predicate; `dpred`: a predicate destination, never p0; `ix`: an index
register; `zero`: unused; `free`: read by the instruction's own rule. -/
inductive FieldUse where
  | src | direct | range | pred | dpred | ix | zero | free
  deriving DecidableEq, Repr

/-- The table row of a V-format instruction: accepted SUB values, whether SUB[7] selects a VI form, accepted TY, U, S and RM,
what the fields name in V3 and VI form, the immediates without reserved bits, and the further combinations. -/
structure VRule where
  sub   : BitVec 8 → Bool
  vi    : Bool := false
  ty    : BitVec 5 → Bool
  u     : Bool := true
  s     : Bool := false
  rm    : Bool := false
  d     : FieldUse := .src
  a     : FieldUse := .src
  b     : FieldUse := .src
  c     : FieldUse := .zero
  aVI   : FieldUse := .src
  imm   : Word → Bool := fun _ => true
  extra : Bool := true

/-- SUB codes of a major with a V3 form only. -/
def v3Sub (p : BitVec 8 → Bool) : BitVec 8 → Bool := fun s => !s.getLsbD 7 && p s
/-- SUB codes of a major with both forms. -/
def anySub (p : BitVec 8 → Bool) : BitVec 8 → Bool := fun s => p (s &&& 0x7F#8)
/-- SUB[6:0] = 0. -/
def baseSub : BitVec 8 → Bool := fun s => s == 0

/-- I32, UI32, I16X2, U16X2, I8X4 and U8X4 (R166). -/
def packedSix (t : BitVec 5) : Bool := decide (0x10 ≤ t.toNat) && decide (t.toNat ≤ 0x15)
/-- I32, UI32, I16X2 and U16X2 (R166). -/
def wideInts (t : BitVec 5) : Bool := decide (0x10 ≤ t.toNat) && decide (t.toNat ≤ 0x13)
/-- I32, UI32 or RAW (R170). -/
def logicTy (t : BitVec 5) : Bool := t == Fmt.i32 || t == Fmt.ui32 || t == Fmt.raw
/-- F32, F16X2 or BF16X2 (R175). -/
def floatTy (t : BitVec 5) : Bool := t == Fmt.f32 || t == Fmt.f16x2 || t == Fmt.bf16x2
/-- The formats that .sr may convert to (R143). -/
def srTy (t : BitVec 5) : Bool :=
  (decide (4 ≤ t.toNat) && decide (t.toNat ≤ 8)) || (decide (0x14 ≤ t.toNat) && decide (t.toNat ≤ 0x17))
/-- TY = 0 alone. -/
def ty0 (t : BitVec 5) : Bool := t == 0

/-- A two-source arithmetic major with both forms. -/
def arith2 (ty : BitVec 5 → Bool) (s rm : Bool) : VRule := { sub := anySub baseSub, vi := true, ty := ty, s := s, rm := rm }
/-- A three-source arithmetic major with both forms. -/
def arith3 (ty : BitVec 5 → Bool) (s rm : Bool) : VRule :=
  { sub := anySub baseSub, vi := true, ty := ty, s := s, rm := rm, c := .src }
/-- A one-source major with a V3 form only. -/
def arith1 (ty : BitVec 5 → Bool) (s rm : Bool) : VRule :=
  { sub := v3Sub baseSub, ty := ty, s := s, rm := rm, b := .zero }

/-- .sr is used where R143 accepts it. -/
def srOk (sr : Bool) (f : VFields) : Bool := !sr || (srTy f.h.ty && f.h.rm == 0)

/-- The number of positions of a conversion (R180). -/
def cvtPositions (s t : BitVec 5) : Nat := max (elems s) (elems t) / min (elems s) (elems t)

/-- The operation and type pairings of R199, with S for the integer add only. -/
def reduceOk (f : VFields) : Bool :=
  let op := f.subBits 2 0
  let ty := f.h.ty
  let intTy := ty == Fmt.i32 || ty == Fmt.ui32
  (if op ≤ 2 then intTy || ty == Fmt.f32 else intTy || ty == Fmt.raw) && (!f.h.s || (op == 0 && intTy))

/-- The row of each V-format instruction: R166-R185, R189, R237, R346, R352, R359, R373. Three rows hold a choice of the model's
(DESIGN CHOICE, log 105 and 127): CVT between integer formats takes any RM, as R181's other pairs do, though nothing rounds there; and CVTB
takes a crossbar pattern on its companion register in both directions, .enc keeping in each lane that lane's own bytes;
and BFLY refuses a special source in a field that it also writes with the unimplemented combination, R118 and R411 naming no trap
(log 127). -/
def vRule : Instr → Option (VFields × VRule)
  | .iadd f => some (f, arith2 packedSix true false)
  | .isub f => some (f, arith2 packedSix true false)
  | .imul f => some (f, arith2 wideInts true false)
  | .imulh f => some (f, arith2 (fun t => t == Fmt.i32 || t == Fmt.ui32) false false)
  | .imad f => some (f, arith3 wideInts true false)
  | .imin f => some (f, arith2 packedSix false false)
  | .imax f => some (f, arith2 packedSix false false)
  | .iabs f => some (f, arith1 (fun t => t == Fmt.i32 || t == Fmt.i16x2 || t == Fmt.i8x4) true false)
  | .idot4 f => some (f, arith3 (fun t => t == Fmt.i8x4 || t == Fmt.u8x4) true false)
  | .icmp f => some (f, {
      sub := anySub (fun s => decide ((s &&& 7#8).toNat ≤ 5) && s &&& 0x70#8 == 0), vi := true,
      ty := packedSix, d := .dpred })
  | .sel f => some (f, { sub := anySub (fun s => s &&& 0x70#8 == 0), vi := true, ty := fmtAssigned })
  | .mov f => some (f, { sub := anySub baseSub, vi := true, ty := fmtAssigned, b := .zero, aVI := .zero })
  | .movs f => some (f, { sub := v3Sub (fun s => s &&& 0x78#8 == 0), ty := ty0, d := .range, a := .range, b := .zero })
  | .plop f => some (f, { sub := v3Sub baseSub, ty := ty0, d := .dpred, a := .pred, b := .pred, c := .free })
  | .and f => some (f, arith2 logicTy false false)
  | .or f => some (f, arith2 logicTy false false)
  | .xor f => some (f, arith2 logicTy false false)
  | .andn f => some (f, arith2 logicTy false false)
  | .shl f => some (f, arith2 logicTy false false)
  | .shr f => some (f, arith2 logicTy false false)
  | .sar f => some (f, arith2 logicTy false false)
  | .rot f => some (f, arith2 logicTy false false)
  | .popc f => some (f, arith1 logicTy false false)
  | .clz f => some (f, arith1 logicTy false false)
  | .brev f => some (f, arith1 logicTy false false)
  | .bfx f => some (f, arith2 logicTy false false)
  | .bfi f => some (f, arith3 logicTy false false)
  | .bswz f => some (f, { sub := v3Sub baseSub, ty := ty0, c := .src })
  | .tern f => some (f, { sub := fun _ => true, ty := ty0, c := .src })
  | .lea f => some (f, {
      sub := anySub (fun s => s &&& 0x70#8 == 0), vi := true, ty := fun t => t == Fmt.ui32, d := .range,
      a := .range, aVI := .range })
  | .cadr f => some (f, {
      sub := anySub baseSub, vi := true, ty := fun t => t == Fmt.ui32, d := .range, a := .range,
      aVI := .range, imm := fun x => decide (x.toNat < 2 ^ 11) })
  | .cget f => some (f, {
      sub := v3Sub (fun s => decide (s.toNat ≤ 1)), ty := fun t => t == Fmt.ui32,
      d := if f.sub == 0 then .src else .range, a := .range, b := .zero })
  | .tidx f => some (f, { sub := v3Sub (fun s => s &&& 0x70#8 == 0), ty := fun t => t == Fmt.ui32, a := .zero, b := .zero })
  | .fadd f => some (f, arith2 floatTy true true)
  | .fsub f => some (f, arith2 floatTy true true)
  | .fmul f => some (f, arith2 floatTy true true)
  | .ffma f => some (f, arith3 floatTy true true)
  | .fmin f => some (f, { sub := anySub (fun s => decide (s.toNat ≤ 1)), vi := true, ty := floatTy })
  | .fmax f => some (f, { sub := anySub (fun s => decide (s.toNat ≤ 1)), vi := true, ty := floatTy })
  | .fcmp f => some (f, { sub := anySub (fun s => s &&& 0x70#8 == 0), vi := true, ty := floatTy, d := .dpred })
  | .fclass f => some (f, arith1 floatTy false false)
  | .fdot2 f => some (f, arith3 (fun t => t == Fmt.f16x2 || t == Fmt.bf16x2) true true)
  | .fdiv f => some (f, { sub := v3Sub baseSub, ty := fun t => t == Fmt.f32, s := true, rm := true })
  | .fsqrt f => some (f, arith1 (fun t => t == Fmt.f32) true true)
  | .frcp f => some (f, arith1 floatTy false false)
  | .frsq f => some (f, arith1 floatTy false false)
  | .fex2 f => some (f, arith1 floatTy false false)
  | .flg2 f => some (f, arith1 floatTy false false)
  | .fsin f => some (f, arith1 floatTy false false)
  | .fcos f => some (f, arith1 floatTy false false)
  | .ftanh f => some (f, arith1 floatTy false false)
  | .cvt f => some (f, {
      sub := v3Sub (fun s => s &&& 0x70#8 == 0), ty := fun t => fmtAssigned t && t != 0, s := true, rm := true,
      b := .free,
      extra := fmtAssigned (f.bc.extractLsb' 16 5) && (f.bc.extractLsb' 16 5 != 0) &&
        decide (f.subBits 3 1 < cvtPositions (f.bc.extractLsb' 16 5) f.h.ty) && srOk (f.subBit 0) f })
  | .cvtb f => some (f, {
      sub := v3Sub (fun s => s &&& 0x60#8 == 0), ty := fun t => decide (4 ≤ t.toNat) && decide (t.toNat ≤ 8),
      s := f.subBit 0, rm := true, d := .range, a := .range,
      extra := !f.b.isSpecial && (!f.subBit 1 || (!f.subBit 0 && f.h.rm == 0)) })
  | .qnt f => some (f, {
      sub := v3Sub (fun s => s &&& 0x70#8 == 0), ty := fun t => t == Fmt.i8x4 || t == Fmt.i4x8, rm := true,
      extra := decide (f.subBits 3 1 < elems f.h.ty) && srOk (f.subBit 0) f })
  | .dqnt f => some (f, {
      sub := v3Sub (fun s => s &&& 0x61#8 == 0), ty := fun t => t == Fmt.f32, rm := true,
      extra := decide (f.subBits 3 1 < if f.subBit 4 then 8 else 4) })
  | .pack f => some (f, { sub := v3Sub (fun s => decide (s.toNat ≤ 1)), ty := fun t => fmtAssigned t && decide (2 ≤ elems t) })
  | .unpk f => some (f, {
      sub := v3Sub (fun s => decide (s.toNat ≤ 1)), ty := fun t => fmtAssigned t && decide (2 ≤ elems t),
      b := .zero })
  | .retag f => some (f, arith1 fmtAssigned false false)
  | .setpart f => some (f, {
      sub := fun s => s == 0x80, vi := true, ty := ty0, u := false, d := .zero, aVI := .zero,
      imm := fun x => decide (x.toNat < 8), extra := decide (1 ≤ f.imm.toNat) && decide (f.imm.toNat ≤ 5) })
  | .lget f => some (f, {
      sub := anySub (fun s => s &&& 0x0C#8 == 0), vi := true, ty := ty0, u := false, d := .direct,
      a := .direct, b := .direct, aVI := .direct, c := if f.subBits 1 0 = 2 then .direct else .zero,
      imm := fun x => decide (x.toNat < if f.subBits 1 0 = 2 then 64 else 32) })
  | .lput f => some (f, {
      sub := anySub (fun s => s &&& 0x0F#8 == 0), vi := true, ty := ty0, u := false, d := .direct,
      a := .direct, b := .direct, aVI := .direct, imm := fun x => decide (x.toNat < 32) })
  | .bfly f => some (f, {
      sub := v3Sub (fun s => s &&& 0x40#8 == 0), ty := ty0, u := false, d := .zero, a := .direct,
      b := .direct, c := if f.subBit 5 then .pred else .zero,
      extra := f.a.pat == 0 && f.b.pat == 0 && !f.a.isSpecial && !f.b.isSpecial })
  | .poll f => some (f, {
      sub := v3Sub (fun s => decide (s.toNat ≤ 6)), ty := ty0, u := false,
      d := if f.subBits 2 0 ≤ 3 then .dpred else .direct, a := .pred, b := .zero })
  | .match_ f => some (f, {
      sub := v3Sub (fun s => s &&& 0x60#8 == 0 && (s &&& 3#8 == 3 || s &&& 0x1C#8 == 0)), ty := ty0,
      u := false, d := .direct, a := .direct, b := .zero })
  | .redc f => some (f, {
      sub := v3Sub (fun s => decide (s.toNat ≤ 5)), ty := fmtAssigned, u := false, s := true, d := .direct,
      a := .direct, b := .zero, extra := reduceOk f })
  | .scan f => some (f, {
      sub := v3Sub (fun s => decide ((s &&& 7#8).toNat ≤ 5)), ty := fmtAssigned, u := false, s := true,
      d := .direct, a := .direct, b := .zero, extra := reduceOk f })
  | .elect f => some (f, {
      sub := v3Sub (fun s => decide (s.toNat ≤ 1)), ty := ty0, u := false, d := .dpred, a := .zero,
      b := .zero })
  | .ixset f => some (f, {
      sub := anySub (fun s => decide (s.toNat ≤ 1)), vi := true, ty := ty0, u := false, d := .ix,
      a := .direct, b := .zero, aVI := .zero, imm := fun x => x &&& 0x00FE0000#32 == 0 })
  | .ixld f => some (f, {
      sub := anySub (fun s => decide (s.toNat ≤ 1)), vi := true, ty := ty0, u := false, d := .ix,
      a := .direct, b := .zero, aVI := .zero, imm := fun x => decide (x.toNat < 256) })
  | .ixmov f => some (f, {
      sub := v3Sub (fun s => decide (s.toNat ≤ 2)), ty := fun t => t == 0 || t == Fmt.ui32, u := false,
      d := .direct, a := .ix, b := .zero })
  | .ixadv f => some (f, {
      sub := fun s => if s.getLsbD 7 then decide ((s &&& 0x7F#8).toNat ≤ 1) else decide (s.toNat ≤ 3),
      vi := true, ty := ty0, u := false, d := .ix, a := .zero, aVI := .zero,
      b := if f.subBit 1 then .zero else .direct, imm := fun x => decide (x.toNat < 256) })
  | .cpy f => some (f, { sub := v3Sub baseSub, ty := ty0, u := false, d := .zero, a := .range, b := .zero })
  | .glaunch f => some (f, {
      sub := v3Sub (fun s => decide (s.toNat ≤ 1)), ty := ty0, u := false, d := .direct, a := .range,
      b := .zero })
  | .gpatch f => some (f, { sub := v3Sub baseSub, ty := ty0, u := false, d := .zero, a := .range, b := .range, c := .direct })
  | .cue f => some (f, {
      sub := v3Sub (fun s => decide (s.toNat ≤ 1)), ty := ty0, u := false, d := .zero, a := .range,
      b := .direct })
  | .nmrun f => some (f, { sub := v3Sub baseSub, ty := ty0, u := false, d := .zero, a := .range, b := .zero })
  | _ => none

/-- Reserved bits of an operand field under its use (R115, R118). Two points are the model's choice (DESIGN CHOICE, log 105): K of a
field with PAT = 00 that names a register or an index register is read by nothing and may hold any value, for R116 makes it the
pattern's parameter and no description calls it unused; and a predicate or index field with IND = 1 is refused by the combination
alone (0x04), whatever its other bits hold. -/
def FieldUse.clean (k : FieldUse) (o : Operand) : Bool :=
  match k with
  | .zero => o.isZero
  | .pred | .dpred => o.ind || (o.bits &&& 0x7FF8#16 == 0 && (k != .dpred || o.bits != 0))
  | .ix => o.ind || o.bits &&& 0x7FF0#16 == 0
  | .free => true
  | _ => !o.badSpecial

/-- Combinations of an operand field under its use (R118, R152, R230). -/
def FieldUse.allowed (k : FieldUse) (o : Operand) : Bool :=
  match k with
  | .src | .zero | .free => true
  | .direct => !o.ind
  | .range => !o.ind && !o.isSpecial
  | .pred | .dpred | .ix => !o.ind

/-- Reserved bits of a destination field under its use. -/
def FieldUse.cleanD (k : FieldUse) (d : BitVec 9) : Bool :=
  match k with
  | .zero => d == 0
  | .dpred | .pred => d.getLsbD 8 || (d &&& 0x0F8#9 == 0 && d != 0)
  | .ix => d.getLsbD 8 || d &&& 0x0F0#9 == 0
  | _ => true

/-- Combinations of a destination field under its use. -/
def FieldUse.allowedD (k : FieldUse) (d : BitVec 9) : Bool :=
  match k with
  | .src | .zero | .free => true
  | _ => !d.getLsbD 8

/-- Among the fields of one instruction at most one that names a given index register has a mode (R233). -/
def oneMode (os : List Operand) : Bool :=
  let ms := (os.filter (fun o => o.ind && o.xm != 0)).map Operand.xi
  decide (ms.Nodup)

/-- The operand fields of a V-format instruction with what they name, in its form. -/
def VRule.fields (r : VRule) (f : VFields) : List (FieldUse × Operand) :=
  if r.vi && f.vi then [(r.aVI, f.a)] else [(r.a, f.a), (r.b, f.b), (r.c, f.c)]

/-- Reserved bits of a V-format instruction (R115). PLOP's C holds its table in [15:8] (R168) and CVT's B its source format. -/
def VRule.clean (r : VRule) (f : VFields) : Bool :=
  r.d.cleanD f.d && (r.fields f).all (fun x => x.1.clean x.2) && (!(r.vi && f.vi) || r.imm f.imm)

/-- Combinations of a V-format instruction (R105, R230, R233). -/
def VRule.allowed (r : VRule) (f : VFields) : Bool :=
  r.ty f.h.ty && (!f.h.u || r.u) && (!f.h.s || r.s) && (f.h.rm == 0 || r.rm) && r.d.allowedD f.d &&
    (r.fields f).all (fun x => x.1.allowed x.2) &&
    oneMode (dstOperand f.d :: ((r.fields f).filter (fun x => x.1 == .src)).map Prod.snd) && r.extra

/-- Head fields all zero but the guard. -/
def Head.plain (h : Head) : Bool := h.ty == 0 && !h.u && !h.s && h.rm == 0

/-- The unguarded head (R104). -/
def Head.noGuard (h : Head) : Bool := !h.gn && h.gp == 0

/-- The checks of one instruction in the order of R124: SUB codes, reserved bits, combinations. -/
structure Checks where
  sub  : Bool
  rsv  : Bool
  comb : Bool

/-- Format C (R155). -/
def cChecks (f : CFields) (tgt rcv ur sub : Bool) (guardOk : Bool) : Checks :=
  { sub := true,
    rsv := (tgt || f.tgt == 0) && (rcv || f.rcv == 0) && (ur || f.ur == 0) && (sub || f.sub == 0),
    comb := f.h.plain && guardOk }

/-- The SIZE and ORD codes of format M that are assigned (R217). -/
def mSub (f : MFields) : Bool := decide (f.size.toNat ≤ 4) && decide (f.ord.toNat ≤ 4)

/-- The TY values of a plain access (R220), as far as the instruction's own bits decide them. -/
def accessTy (obj0 : Bool) (size : Nat) (ty : BitVec 5) : Bool :=
  if obj0 then (if size ≤ 1 then logicTy ty else fmtAssigned ty) else decide (2 ≤ size) && fmtAssigned ty

/-- The memory majors (R217): accepted ORD, indirect DAT, address kind. -/
def memChecks (f : MFields) (ords : BitVec 3 → Bool) (indDat : Bool) : Checks :=
  { sub := mSub f,
    rsv := !f.adr.badSpecial && (f.ord != 0 || f.obs == 0),
    comb := !f.h.u && !f.h.s && f.h.rm == 0 && ords f.ord && !f.adr.ind && !f.adr.isSpecial &&
      (!f.dat.getLsbD 8 || (indDat && decide (f.size.toNat ≤ 2))) && accessTy (f.obj == 0) f.size.toNat f.h.ty }

/-- LDS and STS (R217, R225). -/
def spadChecks (f : MFields) : Checks :=
  { sub := mSub f,
    rsv := f.obj == 0 && f.cpol == 0 && !f.adr.badSpecial && (f.ord != 0 || f.obs == 0),
    comb := !f.h.u && !f.h.s && f.h.rm == 0 && f.ord == 0 && !f.adr.ind &&
      (!f.dat.getLsbD 8 || decide (f.size.toNat ≤ 2)) && accessTy true f.size.toNat f.h.ty }

/-- A cache-control operation (R217, R228). -/
def cctlChecks (f : MFields) (op : BitVec 9) : Checks :=
  { sub := mSub f && f.dat &&& 7#9 == op,
    rsv := f.dat == op && f.obj == 0 && f.cpol == 0 && f.obs == 0 && !f.adr.badSpecial &&
      (op != 5 || (f.adr.isZero && f.off == 0)),
    comb := f.h.plain && f.size == 0 && f.ord == 0 && !f.adr.ind && (op == 5 || !f.adr.isSpecial) }

/-- The operation and type pairings of the atomics (R258). -/
def atomicOk (aop : BitVec 5) (ty : BitVec 5) (rm : BitVec 2) : Bool :=
  let intTy := ty == Fmt.i32 || ty == Fmt.ui32
  match aop.toNat with
  | 0 => (intTy && rm == 0) || ty == Fmt.f32
  | 1 | 2 => intTy && rm == 0
  | 3 | 4 | 5 => (intTy || ty == Fmt.raw) && rm == 0
  | 6 | 7 => (intTy || ty == Fmt.f32 || ty == Fmt.raw) && rm == 0
  | 8 => ty == Fmt.ui32 && rm == 0
  | _ => false

/-- The atomics (R257). -/
def atomicChecks (f : MFields) (ords : BitVec 3 → Bool) : Checks :=
  { sub := decide (f.aop.toNat ≤ 8) && decide (f.ord.toNat ≤ 4),
    rsv := !f.adr.badSpecial && (f.ord != 0 || f.obs == 0),
    comb := !f.h.u && !f.h.s && ords f.ord && !f.dat.getLsbD 8 && !f.adr.ind && !f.adr.isSpecial &&
      atomicOk f.aop f.h.ty f.h.rm }

/-- The number of columns of an exchange domain (R275); 0 where the domain is none. -/
def domCols (dom : Nat) : Nat := if 5 ≤ dom ∧ dom ≤ 9 then 4 ^ (dom - 4) else if dom = 4 then 1 else 0

/-- The exchange permutation of R276. -/
def permOk (f : XFields) (bc : Bool) : Bool :=
  (f.pk == 1 || f.pk == 2 || (bc && f.pk == 3)) && decide (5 ≤ f.dom.toNat) && decide (f.dom.toNat ≤ 9) &&
    decide (f.pp.toNat < domCols f.dom.toNat)

/-- The ring instructions' common head and operand checks (R276). -/
def ringComb (f : XFields) : Bool := f.h.plain && !f.d.getLsbD 8 && !f.a.ind

/-- A direct operand of one register: reserved bits. -/
def xClean (o : Operand) : Bool := !o.badSpecial

/-- The accumulator classes of R304: the K per tick, sparse step width and ticks per step of AF and BF under TY. -/
def matClass (af bf : BitVec 6) (ty : BitVec 5) : Option (Nat × Nat × Nat) :=
  let a := af.toNat
  let b := bf.toNat
  if ((a = 2 ∧ b = 2) ∨ (a = 3 ∧ b = 3)) ∧ ty = Fmt.f32 then some (2, 4, 2)
  else if (a = 4 ∨ a = 5) ∧ (b = 4 ∨ b = 5) ∧ ty = Fmt.f32 then some (4, 4, 1)
  else if (6 ≤ a ∧ a ≤ 8) ∧ (6 ≤ b ∧ b ≤ 8) ∧ ty = Fmt.f32 then some (8, 8, 1)
  else if (a = 0x14 ∨ a = 0x15) ∧ (b = 0x14 ∨ b = 0x15) ∧ ty = Fmt.i32 then some (4, 4, 1)
  else if (a = 0x16 ∨ a = 0x17) ∧ (b = 0x16 ∨ b = 0x17) ∧ ty = Fmt.i32 then some (8, 8, 1)
  else none

/-- The formats of the scaled operands (R308). -/
def scaledFmt (c : BitVec 6) : Bool := decide (4 ≤ c.toNat) && decide (c.toNat ≤ 8)

/-- MMA's combinations (R304, R305, R308, R309). -/
def mmaComb (f : TFields) : Bool :=
  if f.mode = 0 then
    (matClass f.af f.bf f.h.ty).isSome && (!f.h.s || f.h.ty == Fmt.i32) && (!f.sum || f.h.ty == Fmt.f32) &&
      (f.abm == 0 || (scaledFmt f.af && f.k % 24 == 0)) && (f.bbm == 0 || (scaledFmt f.bf && f.k % 24 == 0))
  else
    f.mode == 3 && decide (2 ≤ f.af.toNat) && decide (f.af.toNat ≤ 5) && (f.bf == 0x14 || f.bf == 0x16) &&
      f.h.ty == Fmt.f32 && !f.h.s && f.abm == 0 && f.bbm != 0

/-- The formats that an MLDB can load (R301). -/
def bFormat (c : BitVec 6) : Bool :=
  (decide (2 ≤ c.toNat) && decide (c.toNat ≤ 8)) || (decide (0x14 ≤ c.toNat) && decide (c.toNat ≤ 0x17))

/-- The head of a format T or P instruction. -/
def tHead (h : Head) : Bool := !h.u && h.rm == 0

/-- MDRAIN's output formats (R324). -/
def drainOut (ty : BitVec 5) (of : BitVec 6) : Bool :=
  if ty = Fmt.f32 then decide (1 ≤ of.toNat) && decide (of.toNat ≤ 8)
  else of == 0x10 || of == 1 || of == 2 || of == 3

/-- System instructions (R416): no field of the head but the guard, direct registers. -/
def sComb (f : SFields) : Bool := f.h.plain && !f.d.getLsbD 8 && !f.a.ind && !f.a.isSpecial

/-- Special-register numbers that are assigned (R19, R31, R36, R61, R64, R144, R145, R214, R243, R250, R447). -/
def srAssigned (n : BitVec 12) : Bool :=
  decide (n.toNat ≤ 9) || n == 0x020 || n == 0x030 || n == 0x031 || n == 0x032 || n == 0x040 || n == 0x041 || n == 0x110 ||
    n == 0x111

/-- The static checks of every column instruction. -/
def Instr.checks (i : Instr) : Checks :=
  match i with
  | .nop f => cChecks f false false false false f.h.noGuard
  | .bra f => cChecks f true true false false true
  | .brx f => cChecks f false false true false true
  | .call f => cChecks f true false false false true
  | .ret f => cChecks f false false false false true
  | .loop f => cChecks f true false true false true
  | .join f => cChecks f false false false false f.h.noGuard
  | .exit f => cChecks f false false false false true
  | .tail f => cChecks f false false false false true
  | .spawn f => { cChecks f true false true true true with
      rsv := f.rcv == 0 && f.sub &&& 0xF8#8 == 0 && f.sub &&& 7#8 != 0 }
  | .yield f => cChecks f false false false false true
  | .wait f => { cChecks f true false false false true with
      rsv := f.tgt &&& 0xFF000000#32 == 0 && f.rcv == 0 && f.ur == 0 && f.sub == 0 }
  | .trap f => cChecks f false false false true true
  | .svc f => cChecks f false false false true true
  | .brk f => cChecks f false false false true true
  | .ld f => memChecks f (fun o => o == 0 || o == 1) true
  | .ldu f => memChecks f (fun o => o == 0 || o == 1) true
  | .st f => memChecks f (fun o => o == 0 || o == 2) true
  | .stu f => memChecks f (fun o => o == 0 || o == 2) false
  | .ldt f => {
      sub := mSub f,
      rsv := f.off == 0 && f.obs == 0 && !f.adr.badSpecial,
      comb := !f.h.u && fmtAssigned f.h.ty && f.ord == 0 && decide (2 ≤ f.size.toNat) && f.obj != 0 && !f.adr.ind &&
        !f.adr.isSpecial && !f.dat.getLsbD 8 }
  | .lds f => spadChecks f
  | .sts f => spadChecks f
  | .pref f => {
      sub := mSub f,
      rsv := f.dat == 0 && f.obs == 0 && !f.adr.badSpecial,
      comb := f.h.plain && f.size == 0 && decide (f.cpol.toNat ≤ 1) && f.ord == 0 && !f.adr.ind && !f.adr.isSpecial }
  | .cctlClean f => cctlChecks f 0
  | .cctlFlush f => cctlChecks f 1
  | .cctlPin f => cctlChecks f 2
  | .cctlUnpin f => cctlChecks f 3
  | .cctlDrop f => cctlChecks f 4
  | .cctlDropall f => cctlChecks f 5
  | .atom f => atomicChecks f (fun o => decide (o.toNat ≤ 3))
  | .ared f => atomicChecks f (fun o => o == 0 || o == 2)
  | .atsc f => atomicChecks f (fun o => o == 4)
  | .nmatom f => { atomicChecks f (fun o => o == 0) with
      rsv := !f.adr.badSpecial && f.obs == 0
      comb := (atomicChecks f (fun o => o == 0)).comb && f.h.rm == 0 }
  | .fence f => {
      sub := mSub f,
      rsv := f.dat == 0 && f.adr.isZero && f.obj == 0 && f.off == 0 && f.size == 0 && f.cpol == 0,
      comb := f.h.plain && decide (1 ≤ f.ord.toNat) && decide (f.ord.toNat ≤ 3) }
  | .nmfence f => {
      sub := mSub f,
      rsv := f.dat == 0 && f.adr.isZero && f.obj == 0 && f.off == 0 && f.size == 0 && f.cpol == 0 && f.ord == 0,
      comb := f.h.plain }
  | .bar f => {
      sub := decide ((f.sub &&& 3#8).toNat ≤ 2) && f.sub &&& 0xF8#8 == 0,
      rsv := f.d == 0 && f.dom == 0 && f.pk == 0 && f.lsp == 0 && f.pp &&& 0x380#10 == 0 &&
        (if f.sub.getLsbD 2 then xClean f.a else f.a.isZero),
      comb := f.h.plain && !f.a.ind }
  | .bard f => {
      sub := decide (f.sub.toNat ≤ 2),
      rsv := f.d == 0 && f.a.isZero && f.pk == 0 && f.lsp == 0 && f.pp &&& 0x380#10 == 0,
      comb := f.h.plain && decide (4 ≤ f.dom.toNat) && decide (f.dom.toNat ≤ 9) && decide (f.num.toNat ≤ 15) }
  | .ofence f => {
      sub := true,
      rsv := f.d == 0 && f.a.isZero && f.dom == 0 && f.pk == 0 && f.pp == 0 && f.num == 0 && f.lsp == 0 && f.sub == 0,
      comb := f.h.plain }
  | .xch f => { sub := f.sub == 0, rsv := f.num == 0 && xClean f.a, comb := ringComb f && permOk f true }
  | .xget f => {
      sub := decide (f.sub.toNat ≤ 4), rsv := f.num == 0 && f.lsp == 0 && xClean f.a,
      comb := !f.h.u && !f.h.s && f.h.rm == 0 && !f.d.getLsbD 8 && !f.a.ind && !f.a.isSpecial && permOk f true &&
        accessTy true f.sub.toNat f.h.ty }
  | .xput f => {
      sub := decide (f.sub.toNat ≤ 4), rsv := f.num == 0 && f.lsp == 0 && xClean f.a,
      comb := !f.h.u && !f.h.s && f.h.rm == 0 && !f.d.getLsbD 8 && !f.a.ind && !f.a.isSpecial && permOk f false &&
        accessTy true f.sub.toNat f.h.ty }
  | .msg f => {
      sub := f.sub &&& 0xE0#8 == 0,
      rsv := f.dom == 0 && f.pk == 0 && f.lsp == 0 && f.pp &&& 0x380#10 == 0 && (f.sub.getLsbD 4 || f.pp == 0) && xClean f.a,
      comb := ringComb f && !f.a.isSpecial }
  | .rwait f => {
      sub := decide (f.sub.toNat ≤ 3), rsv := f.dom == 0 && f.pk == 0 && f.lsp == 0 && xClean f.a,
      comb := ringComb f }
  | .radv f => {
      sub := f.sub == 0, rsv := f.d == 0 && f.dom == 0 && f.pk == 0 && f.pp == 0 && f.lsp == 0 && xClean f.a,
      comb := ringComb f }
  | .rbind f => {
      sub := f.sub == 0,
      rsv := f.d == 0 && f.dom == 0 && f.pk == 0 && f.pp &&& 0x3F0#10 == 0 && f.lsp == 0 && xClean f.a,
      comb := ringComb f && (f.pp == 0 || (decide (10 ≤ f.pp.toNat) && decide (f.pp.toNat ≤ 16))) }
  | .watch f => {
      sub := decide (f.size.toNat ≤ 5) && decide (f.ord.toNat ≤ 4),
      rsv := f.obj == 0 && f.cpol == 0 && f.obs == 0 && !f.adr.badSpecial,
      comb := f.h.plain && !f.dat.getLsbD 8 && (f.ord == 0 || f.ord == 1) && !f.adr.ind && !f.adr.isSpecial }
  | .mldb f => {
      sub := true,
      rsv := f.td == 0 && f.abm == 0 && f.bbm == 0 && f.af == 0 && !f.sum && f.rows == 0,
      comb := tHead f.h && f.h.ty == 0 && !f.h.s && bFormat f.bf }
  | .mma f => { sub := true, rsv := true, comb := tHead f.h && mmaComb f }
  | .mmab f => {
      sub := true, rsv := f.abm == 0 && f.bbm == 0 && f.rows == 0,
      comb := tHead f.h && f.mode == 1 && (matClass f.af f.bf f.h.ty).isSome && (!f.h.s || f.h.ty == Fmt.i32) &&
        (!f.sum || f.h.ty == Fmt.f32) }
  | .mmas f => {
      sub := true, rsv := true,
      comb := tHead f.h && f.mode == 2 && (matClass f.af f.bf f.h.ty).isSome && (!f.h.s || f.h.ty == Fmt.i32) &&
        (!f.sum || f.h.ty == Fmt.f32) && decide (f.k ≤ 512) }
  | .mclr f => {
      sub := true,
      rsv := f.areg == 0 && f.breg == 0 && f.k8 &&& 0xE0#8 == 0 && f.abm == 0 && f.bbm == 0 && f.af == 0 && f.bf == 0 &&
        !f.sum && f.rows == 0,
      comb := tHead f.h && f.h.ty == 0 && !f.h.s && f.mode == 0 && decide (f.td.toNat ≤ f.k8.toNat) }
  | .mlda f => {
      sub := true,
      rsv := f.breg == 0 && f.k8 == 0 && f.abm == 0 && f.bbm == 0 && f.af == 0 && f.bf == 0 && !f.sum,
      comb := tHead f.h && f.h.ty == 0 && !f.h.s && f.mode == 0 }
  | .mdrain f => {
      sub := true, rsv := true,
      comb := (f.h.ty == Fmt.f32 || (f.h.ty == Fmt.i32 && f.selp == 0)) && !f.h.u && (!f.h.s || f.selp != 7) &&
        (f.h.rm == 0 || f.selp == 0) && decide (f.tf.toNat ≤ f.tl.toNat) &&
        (f.par != 0 || f.selp == 0 || f.selp == 5 || f.selp == 6) && (f.selp != 7 || (f.dst == 0 && f.stw != 0)) &&
        (if f.selp = 7 then f.of == 0 && !f.dk else drainOut f.h.ty f.of) }
  | .pjadj f => {
      sub := true, rsv := true,
      comb := f.h.ty == Fmt.f32 && !f.h.u && f.h.rm == 0 && decide (f.tf.toNat ≤ f.tl.toNat) && f.sup == 0 &&
        (f.selp == 1 || f.selp == 3 || f.selp == 4 || f.selp == 5 || f.selp == 6) && (f.par != 0 || f.selp != 3) &&
        f.stw != 0 && (f.of == 1 || f.of == 2 || f.of == 3) }
  | .sread f => { sub := f.sub == 0 && srAssigned f.sr, rsv := f.a.isZero, comb := sComb f }
  | .swrite f => {
      sub := f.sub == 0 && srAssigned f.sr && f.sr != 8 && f.sr != 5, rsv := f.d == 0 && xClean f.a,
      comb := f.h.plain && !f.a.ind }
  | .swriteRng f => { sub := f.sub == 0 && f.sr == 8, rsv := f.d == 0 && xClean f.a, comb := f.h.plain && !f.a.ind }
  | .swriteLease f => { sub := f.sub == 0 && f.sr == 5, rsv := f.d == 0 && xClean f.a, comb := f.h.plain && !f.a.ind }
  | .eret f => { sub := f.sub == 0, rsv := f.sr == 0 && f.d == 0 && xClean f.a, comb := sComb f }
  | .tlbi f => {
      sub := decide (f.sub.toNat ≤ 1), rsv := f.sr == 0 && f.d == 0 && xClean f.a && (f.sub == 0 || f.a.isZero),
      comb := sComb f }
  | .ctxswReset f => { sub := f.sub == 0, rsv := f.sr == 0 && f.d == 0 && xClean f.a, comb := f.h.plain && !f.a.ind }
  | .ctxswSave f => { sub := f.sub == 1, rsv := f.sr == 0 && xClean f.a, comb := f.h.plain && !f.a.ind && !f.d.getLsbD 8 }
  | .testReq f => { sub := f.sub == 0, rsv := f.sr == 0 && f.d == 0 && xClean f.a, comb := f.h.plain && !f.a.ind }
  | .testRes f => { sub := f.sub == 1, rsv := f.sr == 0 && xClean f.a, comb := f.h.plain && !f.a.ind && !f.d.getLsbD 8 }
  | .testInj f => { sub := f.sub == 2 || f.sub == 6, rsv := f.sr == 0 && f.d == 0 && xClean f.a, comb := sComb f }
  | i => match vRule i with
    | some (f, r) => { sub := r.sub f.sub, rsv := r.clean f && vSpecial i f, comb := r.allowed f }
    | none => { sub := true, rsv := true, comb := true }
where
  /-- The two V-format fields that hold a table or a format code beside reserved bits: PLOP's C (R168) and CVT's B (R180). -/
  vSpecial (i : Instr) (f : VFields) : Bool :=
    match i with
    | .plop _ => f.bc &&& 0xF8#32 == 0
    | .cvt _ => f.bc &&& 0xFFE00000#32 == 0
    | _ => true

/-- The fields of a stagehand instruction that its row of R365 uses, its accepted X and its unused immediate bits. -/
structure HRule where
  d   : Bool := false
  s   : Bool := false
  t   : Bool := false
  x   : BitVec 3 → Bool := fun x => x == 0
  imm : BitVec 32 → Bool := fun i => i == 0
  dq  : Bool := false
  sq  : Bool := false
  tq  : Bool := false

/-- The row of R365 of each stagehand instruction. -/
def hRule : Instr → Option (HFields × HRule)
  | .hadd f => some (f, { d := true, s := true, t := true, imm := fun _ => true })
  | .hsub f => some (f, { d := true, s := true, t := true })
  | .hmul f => some (f, { d := true, s := true, t := true })
  | .hlogic f => some (f, { d := true, s := true, t := true, x := fun x => decide (x.toNat ≤ 2) })
  | .hshift f => some (f, { d := true, s := true, t := true, x := fun x => decide (x.toNat ≤ 2), imm := fun _ => true })
  | .hli f => some (f, { d := true, x := fun x => decide (x.toNat ≤ 1), imm := fun _ => true })
  | .hclk f => some (f, { d := true })
  | .hbr f => some (f, { s := f.x != 6, t := f.x != 6, x := fun x => decide (x.toNat ≤ 6), imm := fun _ => true })
  | .hloop f => some (f, { d := true, imm := fun _ => true })
  | .vld f => some (f, { d := true, s := true, x := fun x => decide (x.toNat ≤ 2), imm := fun _ => true, dq := f.x == 0 })
  | .vst f => some (f, { d := true, s := true, x := fun x => decide (x.toNat ≤ 2), imm := fun _ => true, dq := f.x == 0 })
  | .qadd f => some (f, { d := true, s := true, t := true, x := fun _ => true, dq := true, sq := true, tq := true })
  | .qsub f => some (f, { d := true, s := true, t := true, x := fun _ => true, dq := true, sq := true, tq := true })
  | .qmul f => some (f, { d := true, s := true, t := true, x := fun _ => true, dq := true, sq := true, tq := true })
  | .qfma f => some (f, { d := true, s := true, t := true, x := fun _ => true, dq := true, sq := true, tq := true })
  | .qmuls f => some (f, { d := true, s := true, t := true, x := fun _ => true, dq := true, sq := true })
  | .qminmax f => some (f, {
      d := true, s := true, t := true, x := fun x => decide (x.toNat ≤ 1), dq := true, sq := true,
      tq := true })
  | .qrsq f => some (f, { d := true, s := true, dq := true, sq := true })
  | .qbc f => some (f, { d := true, s := true, dq := true })
  | .qsum f => some (f, { d := true, s := true, sq := true })
  | .qinsQext f => some (f, {
      d := true, s := true, x := fun x => decide (x.toNat ≤ 1), imm := fun i => decide (i.toNat < 16),
      dq := f.x == 0, sq := f.x == 1 })
  | .ropen f => some (f, { s := true, imm := fun _ => true })
  | .racc f => some (f, { s := true, t := true, imm := fun _ => true })
  | .rwr f => some (f, { s := true, x := fun x => decide (x.toNat ≤ 1), imm := fun _ => true })
  | .rclr f => some (f, { s := true, imm := fun _ => true })
  | .claim f => some (f, { s := true, t := true, x := fun x => decide (x.toNat ≤ 3) })
  | .unclm f => some (f, { x := fun x => decide (x.toNat ≤ 3) })
  | .signal f => some (f, { s := true })
  | .cuew f => some (f, { d := true, s := true, t := true, imm := fun _ => true })
  | .aqsvc f => some (f, {})
  | .end_ f => some (f, {})
  | _ => none

/-- The encoding of a stagehand instruction is one that R366 does not fault. -/
def HRule.ok (r : HRule) (f : HFields) : Bool :=
  (r.d || f.d == 0) && (r.s || f.s == 0) && (r.t || f.t == 0) && r.x f.x && r.imm f.imm &&
    (!r.dq || !f.d.getLsbD 4) && (!r.sq || !f.s.getLsbD 4) && (!r.tq || !f.t.getLsbD 4)

end Sys2Proof
end

