-- ==== Sys2Proof/Machine/State.lean ====
section
/-! DEFINITION. The state of the Z1024 as plain data: the vaults' bytes, and the device: its columns with their warps, caches,
logs, queues, rings and stagehands, and its partitions, contexts, rings, walkers, stage managers, ports and clock. INVENTORY.md
lists every piece with the rule that names it. Tables are lists of number and value, sorted by number without repeats. -/

namespace Sys2Proof.Machine

/-- Why the machine stops. No step of this model stops: the spec gives every step an effect. The one constructor names a host
access outside every vault, which the device refuses with an error reply (R389) and the model answers in its reply list, so
that nothing raises it; it would be safe, since it makes nothing provable about a next state. -/
inductive Fault where
  | noSuchAddress
  deriving DecidableEq, Repr

/-- Why a step has no meaning here. `notModelled` is raised by an arm of `exec` that has no meaning yet (safe: nothing can be
proved about a next state); no arm raises it now. -/
inductive Refusal where
  | notModelled (mnemonic : String)
  deriving DecidableEq, Repr

/-- The vaults' bytes that are not zero, by c * 2^44 + a for vault address a of logical column c, rising (R388). -/
abbrev Memory := List Host.Cell

/-- A table from numbers to values, sorted by number without repeats. -/
abbrev Table (α : Type) := List (Nat × α)

/-- What a vector register holds, under its shape (R65), with its poison (R440). -/
inductive RegData where
  | uniform (v : Word) (pois : Bool)
  | affine (base stride : Word) (pois : Bool)
  | general (vals : Vector Word 32) (pois : Mask)
  deriving DecidableEq, Repr

/-- A vector register: its format tag (R120) and its data. -/
structure VReg where
  fmt  : BitVec 5
  data : RegData
  deriving DecidableEq, Repr

/-- A register as a warp starts with it: uniform 0, tagged RAW, unpoisoned (R63). -/
def VReg.start : VReg := { fmt := 0, data := .uniform 0 false }

/-- An index register (R229). -/
structure IxReg where
  base   : BitVec 8
  bound  : BitVec 9
  stride : BitVec 8
  idx    : Vector (BitVec 8) 32
  deriving DecidableEq, Repr

/-- An entry of the reconvergence stack (R157). -/
structure StackEntry where
  slot : BitVec 48
  mask : Mask
  deriving DecidableEq, Repr

/-- A deferred report (R400). -/
structure Deferred where
  pc    : BitVec 48
  cause : BitVec 8
  lane  : BitVec 5
  kind  : BitVec 8
  deriving DecidableEq, Repr

/-- What a parked warp waits for (R73, R91). `barFull` and `bardFull` wait to arrive in the next phase, with the count, the form and
the mask of the instruction (R266). A domain barrier is named by its unit's number and its channel (R269). -/
inductive Park where
  | none
  | bar (b phase : Nat)
  | barFull (b count form : Nat) (mask : BitVec 7)
  | bard (unit channel phase : Nat)
  | bardFull (unit channel form : Nat) (mask : BitVec 7)
  | rwait (ring threshold : Nat) (deadline : Option Nat) (vd : Nat) (acq : Bool)
  | watch (vd : Nat) (deadline : Option Nat) (acq : Bool)
  | glaunch (vd : Nat)
  deriving DecidableEq, Repr

/-- Why a warp that is not parked cannot issue its next instruction (R85): the registers that missing loads write, WAIT's limits,
a release, translation faults of granules (with the place
in LOADS, bit 0, or in STORES, bit 1, that the held instruction keeps, R422), a subnormal replay, a full tile queue, the sender's interface, a requested save. -/
inductive Wait where
  | none
  | regs (rs : List Nat)
  | counters (loads stores copies tiles : Nat)
  | release (mask : BitVec 7)
  | translation (grans : List Nat) (fetch : Bool) (place : BitVec 2)
  | replay
  | queue (q : Nat)
  | interface
  | save
  deriving DecidableEq, Repr

/-- A warp (R63, R91). `retLoads` holds the two words of a return-stack entry that is being loaded back (R160). -/
structure Warp where
  pc       : BitVec 48
  enabled  : Mask
  retired  : Mask
  rstack   : List StackEntry
  retTop   : List (BitVec 48)
  retDepth : Nat
  regs     : Table VReg
  preds    : Vector Mask 7
  ix       : Vector IxReg 16
  wlog     : BitVec 3
  wstat    : BitVec 32
  obs      : BitVec 7
  rng      : Vector Word 32
  loads    : Nat
  stores   : Nat
  copies   : Nat
  tiles    : Nat
  ctx      : Nat
  launch   : Nat
  gang     : Nat
  coords   : List Nat
  group    : Nat
  spawned  : Bool
  prio     : Nat
  active   : Bool
  entered  : Nat
  enteredOpp : Nat
  lastIssue : Nat
  overdueCount : Nat
  overdueAt : Option Nat
  stallUntil : Nat
  yld      : Bool
  park     : Park
  wait     : Wait
  stopped  : Bool
  relDone  : Bool
  retLoads : List (Option Word)
  privMode : Bool
  deferred : List Deferred
  ovf      : Bool
  relTimes : Vector Nat 7
  nmPending : Nat
  nmTime   : Nat
  xchCount : Nat
  barPend  : Table Nat
  bardPend : Table Nat
  deriving DecidableEq, Repr

/-- The kinds of an outstanding operation. -/
inductive OpKind where
  | load | uload | loadT | xget
  | ret (high : Bool)
  | store | ustore | xput
  | atom (aop : BitVec 5) (rm : BitVec 2)
  | ared (aop : BitVec 5) (rm : BitVec 2)
  | atsc (aop : BitVec 5) (ticket : Option Nat)
  | cue | gpatch
  | cctl (op : BitVec 3) | pref (l2only : Bool)
  | lds | sts
  | xch | msg | replay | copy
  | nmatom (aop : BitVec 5) (rm : BitVec 2)
  deriving DecidableEq, Repr

/-- The value-range rule of a record that a store writes through (R446): bounds, action, element format and record index. -/
structure RangeRule where
  lo  : Word
  hi  : Word
  act : Nat
  fmt : BitVec 5
  idx : Nat
  deriving DecidableEq, Repr

/-- One lane's part of an outstanding access: its column and offset, its bytes' count, the vault address of its first `cut`
bytes and of the rest (an FP6 access can cross a page), its request, the registers that a load writes (or the element that an
LDT fills), the data that a store carries or the operands of an atomic, the range rule of its record, and its page's effective
policy, ZC and S bits (R206, R37). `part` numbers the first byte of a piece of an FP6 access, which has one piece for each sector it
meets, and `lined` says that its requests are lines (R215). -/
structure LaneAcc where
  lane : Nat
  tcol : Nat
  off  : Nat
  va   : Nat
  cut  : Nat
  va2  : Nat
  size : Nat
  req  : Nat
  dst  : List Nat
  data : List Word
  pois : List Bool
  rng  : Option RangeRule
  pol  : Nat
  zc   : Bool
  stable : Bool
  part : Option Nat := none
  lined : Bool := false
  deriving DecidableEq, Repr

/-- One value on its way to a register lane. -/
structure LaneWrite where
  reg  : Nat
  lane : Nat
  val  : Word
  pois : Bool
  deriving DecidableEq, Repr

/-- An outstanding operation of a column's warp (R221, R235, R251): its number in issue order, its lanes still to perform, the
latest completion time so far, the register lanes it will write (its reservation) and those that a later instruction has
overwritten since (R235), and its tag and shape for the write. `reqs` counts a load's requests, `missed` says that not all of them hit
in L1 (R216, R226), `base` numbers its free choices between old and new values (R42), and `priv` is the privilege it was translated with (R38). -/
structure MemOp where
  id      : Nat
  slot    : Nat
  ctx     : Nat
  kind    : OpKind
  lanes   : List LaneAcc
  logged  : Nat
  time    : Nat
  done    : List LaneWrite
  resv    : List (Nat × Mask)
  killed  : List (Nat × Mask)
  window  : Bool
  uni     : Bool
  fmt     : BitVec 5
  size    : Nat
  obj     : Nat
  cpol    : BitVec 2
  rm      : BitVec 2
  sat     : Bool
  acq     : Bool
  reach   : BitVec 7
  mark    : Bool
  itick   : Nat
  pc      : BitVec 48
  entry   : Option Nat
  missed  : Bool := false
  reqs    : Nat := 0
  base    : Nat := 0
  priv    : Bool := false
  deriving DecidableEq, Repr

/-- A word of the pool or of the B-SRAM: value, poison, and the context that wrote it last (R202, R300). Contents are kept per byte:
`alt` lists the bytes that another context wrote last, with that context. -/
structure PoolWord where
  val  : Word
  pois : Bool
  ctx  : Nat
  alt  : List (Nat × Nat) := []
  deriving DecidableEq, Repr

/-- Words that a context reset left undefined (R452): of the pool, or of the B-SRAM counted from 2^19 on, for that context, with the
first of their undefined values' numbers. -/
structure UndefRange where
  ctx  : Nat
  lo   : Nat
  hi   : Nat
  base : Nat
  deriving DecidableEq, Repr

/-- The pool division of a column (R59). -/
structure Regions where
  n      : Nat
  w      : Nat
  regs   : Nat
  spad   : Nat
  acc    : Nat
  spawnw : Nat
  deriving DecidableEq, Repr

/-- A resident gang of a column: its slot, launch, and coordinates. -/
structure Gang where
  slot   : Nat
  launch : Nat
  ctx    : Nat
  group  : Nat
  coords : List Nat
  deriving DecidableEq, Repr

/-- A named barrier (R266). `phase` counts the phases, its lowest bit is the phase bit (R89); `engines` counts engine arrivals that
wait for the next phase (R349). -/
structure Barrier where
  arr     : Nat
  exp     : Nat
  phase   : Nat
  mask    : BitVec 7
  engines : Nat
  deriving DecidableEq, Repr

/-- One 128-byte line of an L1 frame (R203, R204); poison is per 32-byte sector (R440). -/
structure L1Line where
  present : BitVec 4
  expiry  : Nat
  stable  : Bool
  data    : BitVec 1024
  pois    : BitVec 4
  deriving DecidableEq, Repr

/-- A superblock frame of the L1 (R203); the list of frames is in order of use, latest first. -/
structure L1Frame where
  ctx   : Nat
  sb    : Nat
  lines : Vector L1Line 4
  deriving DecidableEq, Repr

/-- What an L2 tag records of one line (R208, R210, R244): its bits, its word bitmap, the slot of its set and the first word there, its
poison (R438) and its latest lease; a line's bytes are those of the vault list. -/
structure L2Line where
  valid  : Bool
  dirty  : Bool
  pinned : Bool
  zc     : Bool
  expiry : Nat
  map    : BitVec 32 := 0
  pois   : Bool := false
  place  : Option (Nat × Nat) := none
  deriving DecidableEq, Repr

/-- An L2 tag (R208), by vault superblock; the list of tags is in order of use, latest first. -/
structure L2Tag where
  sb    : Nat
  lines : Vector L2Line 4
  deriving DecidableEq, Repr

/-- The value that a 4-byte element of a stable page held before another agent wrote it in the running kernel (R42), by context and
vault word. -/
structure OldWord where
  ctx  : Nat
  word : Nat
  val  : Word
  deriving DecidableEq, Repr

/-- Who waits on a watch-table entry (R296, R355, R384). -/
inductive Watcher where
  | warp (slot : Nat)
  | node (die replay node : Nat)
  | hand
  deriving DecidableEq, Repr

/-- A watch-table entry (R296); `fired` is the value that decided its status, once one did, with `pois` its poison then. -/
structure Watch where
  va    : Nat
  cmp   : BitVec 3
  value : Word
  who   : Watcher
  wcol  : Nat
  ctx   : Nat
  fired : Option (Word × Nat)
  pois  : Bool := false
  deriving DecidableEq, Repr

/-- A cached translation (R39): the page by its granule, and the entry's frame of that granule and fields. -/
structure TlbEntry where
  ctx   : Nat
  gran  : Nat
  frame : Nat
  w     : Bool
  sys   : Bool
  mig   : BitVec 2
  cp    : BitVec 2
  zc    : Bool
  stable : Bool
  big   : Bool
  deriving DecidableEq, Repr

/-- A value that a word of the page tables of a column's partition held before it was changed, and the pages for which the column no longer
uses it, each by context, first granule and number of granules (R39). -/
structure OldPte where
  addr : Nat
  val  : Nat
  done : List (Nat × Nat × Nat)
  deriving DecidableEq, Repr

/-- A fetched code line (R96, R102): five instructions and the line word, and the page's SYS bit. -/
structure CodeLine where
  ctx  : Nat
  off  : Nat
  bits : BitVec 512
  sys  : Bool
  deriving DecidableEq, Repr

/-- An object-table entry as a running launch first read it (R46): its offset and its 64 bytes as a number. -/
structure ObjLine where
  ctx : Nat
  off : Nat
  val : Nat
  deriving DecidableEq, Repr

/-- A side-log entry (R424), with the granule that it waits on. STATE is 1 waiting, 2 replaying, 3 refused; a free entry is not in the list. `at_` is the offset of a GPATCH's staging block where the fault is there and not at the header that its lane names. -/
structure LogEntry where
  lseq  : Nat
  op    : Nat
  ctx   : Nat
  slot  : Nat
  lane  : Nat
  kind  : Nat
  state : Nat
  orph  : Bool
  fkind : Nat
  gran  : Nat
  acc   : LaneAcc
  pc    : BitVec 48
  itick : Nat
  at_   : Option Nat := none
  deriving DecidableEq, Repr

/-- Who waits on a fault-filter entry with an access that a fault holds (R422, R433): a warp by its slot, a copy of the engine, the head of a tile
queue, a replay, a node of a replay, or a launch of a partition's ring. -/
inductive Waiter where
  | warp (slot : Nat)
  | copy (id : Nat)
  | tile (queue : Nat)
  | replay (id : Nat)
  | node (replay node : Nat)
  | launch (part : Nat) (seq : BitVec 64)
  deriving DecidableEq, Repr

/-- A fault-filter entry of a column (R426); `sent` once its fault has reached the wing stage. After a retry, `rerun` lists the waiters whose held
accesses are still to run again, so that the entry stays open (R425), `lifted` says that such an access is being tried, and `again` that one
has faulted anew, so that the granule is reported once more (R430). -/
structure FilterEntry where
  ctx   : Nat
  gran  : Nat
  kind  : Nat
  level : Nat
  acc   : BitVec 8
  sent  : Bool
  tick  : Nat
  rerun : List Waiter := []
  lifted : Bool := false
  again : Bool := false
  deriving DecidableEq, Repr

/-- A retirement-tracker entry (R70): the ended warp's gang, launch and coordinates, and its completion times by observer. -/
structure Tracker where
  id     : Nat
  slot   : Nat
  gang   : Nat
  launch : Nat
  coords : List Nat
  spawned : Bool
  times  : Vector Nat 7
  deriving DecidableEq, Repr

/-- A receive ring (R286). `gang` is the binding gang slot; a ring with no entry, or of size 0, is unbound. -/
structure Ring where
  base : Nat
  size : Nat
  head : BitVec 32
  tail : BitVec 32
  gang : Nat
  deriving DecidableEq, Repr

/-- A message in the outbound buffer (R290); `away` once its ring has turned it away (R291). -/
structure OutMsg where
  op    : Nat
  slot  : Nat
  dcol  : Nat
  ring  : Nat
  words : List (Word × Bool)
  itick : Nat
  away  : Bool
  deriving DecidableEq, Repr

/-- An exchange send waiting in a receiver's exchange buffer (R279, R280). -/
structure XSend where
  dom   : BitVec 4
  pk    : BitVec 3
  pp    : BitVec 10
  reg   : VReg
  deriving DecidableEq, Repr

/-- An XCH in flight (R279): its operation, destination register, lane selection and parameters, which of its member's exchanges it is,
counted from 0, whether its own data is still to come, the columns that its send is still to reach, and its member's place: the launch, the level of the group and the coordinates
(R278). Slot 48, which no warp has, stands for a warp that has ended. -/
structure XchOp where
  slot   : Nat
  op     : Nat
  idx    : Nat
  vd     : Nat
  lsp    : Mask
  dom    : BitVec 4
  pk     : BitVec 3
  pp     : BitVec 10
  reg    : VReg
  wants  : Bool
  sends  : List Nat
  launch : Nat
  level  : Nat
  coords : List Nat
  deriving DecidableEq, Repr

/-- A queued tile operation with the values read at issue (R320): its instruction, warp slot, gang slot and context, the privilege of
its page, the register values, the MMAS step counter, its issue tick, its start, the granule that holds it (R433), the B-lines an
MLDB has written and the tick of the last, and what R263 and R319 need: the tiles it names, the pool and B-SRAM byte ranges and
the registers it reads and writes, the tiles, ranges and words that an operation of the other queue leaves undefined, whether all
it writes is undefined, the words and registers that it still sees as they stood before a later operation of its queue, and the
number of the first of its undefined values. An MMAS stopped in a halted column has `scanned` its bitmaps, which a restore makes it do
again (`rescan`, R316, R318). -/
structure TileOp where
  insn    : Instr
  slot    : Nat
  gang    : Nat
  ctx     : Nat
  priv    : Bool
  aoff    : Word
  ahi     : Word
  boff    : Word
  asc     : Word
  bsc     : Word
  rowsv   : Word
  step    : Nat
  itick   : Nat
  started : Option Nat
  held    : Option Nat
  line    : Nat
  wrote   : Option Nat
  tiles   : List Nat
  reads   : List (Nat × Nat)
  writes  : List (Nat × Nat)
  bread   : List (Nat × Nat)
  bwrite  : List (Nat × Nat)
  rregs   : List Nat
  wregs   : List (Nat × Mask)
  clash   : List Nat
  vague   : List (Nat × Nat)
  bclash  : List (Nat × Nat)
  spoiled : Bool
  kept    : Table PoolWord
  keptRegs : Table VReg
  killed  : List (Nat × Mask)
  rescan  : Bool
  base    : Nat
  scanned : Bool := false
  deriving DecidableEq, Repr

/-- A copy descriptor's eight words (R344). -/
structure CopyDesc where
  src  : BitVec 64
  dst  : BitVec 64
  len  : BitVec 32
  ctl  : BitVec 32
  cw   : BitVec 64
  deriving DecidableEq, Repr

/-- Who issued a copy or a stagehand program: a warp, or, once it has ended, its tracker entry (R70), or a graph node. -/
inductive Owner where
  | warp (col slot : Nat) (entry : Option Nat)
  | node (die replay node : Nat)
  deriving DecidableEq, Repr

/-- A tensor record (R47). `ext` and `str` hold the five extents and strides, that of dimension 0 first. -/
structure TRec where
  base  : Nat
  rank  : Nat
  repl  : Bool
  fmt   : BitVec 5
  grp   : Nat
  rd    : Bool
  wr    : Bool
  mb    : Bool
  cp    : Bool
  nm    : Bool
  ract  : Nat
  scale : Nat
  rsv   : Nat
  split : Nat
  count : Nat
  ext   : List Nat
  str   : List Nat
  sblk  : Nat
  first : Nat
  lo    : Word
  hi    : Word
  deriving DecidableEq, Repr

/-- A copy command in a column's engine (R347): who issued it, its descriptor, its records in the tensor forms, and how far it is.
`stage` is 0 queued, 1 started, 2 all written, 3 its completion word updated; `pos` counts the bytes or elements moved, `late` says
that an element was out of range under RACT 011 (R446), `held` is the granule that holds it (R433), `rest` the bytes of an element that the
fault kept from being written, and `tainted` the granules of poison of the destination that have received poison from it (R442). -/
structure CopyCmd where
  id      : Nat
  owner   : Owner
  ctx     : Nat
  gang    : Nat
  launch  : Nat
  priv    : Bool
  desc    : CopyDesc
  srec    : Option TRec
  drec    : Option TRec
  stage   : Nat
  pos     : Nat
  time    : Nat
  err     : Word
  late    : Bool
  held    : Option Nat
  rest    : List (Byte × Bool) := []
  tainted : List Nat := []
  deriving DecidableEq, Repr

/-- One page's part of a claim of the stagehand (R369): its slot, its rows' vault addresses, and whether the claim has completed. -/
structure Claim where
  slot : Nat
  off  : Nat
  len  : Nat
  done : Bool
  deriving DecidableEq, Repr

/-- An entry of the atomic queue (R376), with what its translation gave and the privilege that it was made with. -/
structure NmEntry where
  slot : Nat
  wid  : Nat
  ctx  : Nat
  off  : Nat
  va   : Nat
  aop  : BitVec 5
  ty   : BitVec 5
  rm   : BitVec 2
  val  : Word
  val2 : Word
  pois : Bool
  tick : Nat
  orph : Bool
  zc   : Bool := false
  stable : Bool := false
  priv : Bool := false
  deriving DecidableEq, Repr

/-- A run descriptor's six qwords in the run queue (R372), who issued it, and whether it was read poisoned (R444). -/
structure RunDesc where
  q     : Vector (BitVec 64) 6
  owner : Owner
  ctx   : Nat
  pois  : Bool
  deriving DecidableEq, Repr

/-- What a stagehand's program waits for (R376, R384): its claim, a cue with the tick of the last read where the watch table was full, or
the atomic queue. -/
inductive HandWait where
  | none
  | claim
  | cuew (d : BitVec 5) (tcol off : Nat) (target : Word) (deadline poll : Option Nat)
  | aqsvc
  deriving DecidableEq, Repr

/-- A row operation, or a queue entry, that holds a bank (R368, R376, R381): its row, the ticks at which its phases end, and, once it is
suspended, the lengths of the phases after the one that ends. -/
structure RowRun where
  bank : Nat
  row  : Option Nat
  ends : List Nat
  rest : List Nat
  deriving DecidableEq, Repr

/-- The value that a claimed word held before the stagehand wrote it (R380), and the tick at which the write is performed. -/
structure HandWord where
  word : Nat
  val  : Word
  till : Nat
  deriving DecidableEq, Repr

/-- The ticks of a stagehand and of its banks (R366, R368, R381): from when its next instruction may start, until when ordinary accesses
hold each bank, the row operation or queue entry under way, the ordinary windows by the tick at which each closes at the latest,
until when the stagehand keeps a bank after a window (none: until the next phase has run), and the words being written. -/
structure BankTimes where
  free    : Nat
  busy    : Table Nat
  run     : Option RowRun
  windows : Table Nat
  kept    : Table (Option Nat)
  olds    : List HandWord
  deriving DecidableEq, Repr

/-- A stagehand (R362). `service` is the row of a service claim (R376), `halted` says that a halt tick has passed while a CUEW waits (R384). -/
structure Hand where
  h       : Vector (BitVec 64) 32
  q       : Vector (Vector Word 16) 16
  pc      : Nat
  prog    : Table (BitVec 64)
  ilen    : Nat
  running : Option RunDesc
  wait    : HandWait
  claims  : List Claim
  acc     : Table (Vector Word 256)
  openRow : Table Nat
  banks   : BankTimes
  runq    : List RunDesc
  atomq   : List NmEntry
  service : Option Nat
  writeTime : Nat
  halted  : Bool
  deriving DecidableEq, Repr

/-- The progress of one domain-barrier channel of a unit of a launch (R269): the phase, and the column and slot of every arrival in the
current one. -/
structure BardState where
  launch  : Nat
  unit    : Nat
  channel : Nat
  phase   : Nat
  arrived : List (Nat × Nat)
  mask    : BitVec 7
  deriving DecidableEq, Repr

/-- The saved state of a column in an image slot (R89-R92): the header's fields and the column's regions, with the filter entries that its
log names and the arrivals at domain barriers. -/
structure Image where
  valid   : Bool
  col     : Nat
  poolReg : Nat
  poolSpad : Nat
  poolAcc : Nat
  obj     : BitVec 64
  flags   : BitVec 64
  lease   : Nat
  ptRoot  : BitVec 64
  peerTab : BitVec 64
  filter  : List FilterEntry
  bards   : List BardState
  ctx     : Nat
  part    : Nat
  htick   : Nat
  seq     : BitVec 64
  occ     : BitVec 48
  regions : Regions
  warps   : Table Warp
  gangs   : List Gang
  pool    : Table PoolWord
  bsram   : Table PoolWord
  undef   : List UndefRange
  ops     : List MemOp
  log     : List LogEntry
  tileQ   : Vector (List TileOp) 2
  yielded : Bool
  bars    : Table Barrier
  rings   : Table Ring
  tracker : List Tracker
  watches : List Watch
  copies  : List CopyCmd
  xchs    : List XchOp
  xbuf    : Table XSend
  outbuf  : List OutMsg
  deriving DecidableEq, Repr

/-- A column (R21). `turned` lists the sending column and the ring of messages turned away, `reports` those to which a change of
the ring is being reported (R291). `rehearseQ` is a queued rehearsal's scan and arrays bits (R454). `was` and `past` hold what words of
stable pages and of any page held before they were written in the running kernel (R42, R102); `opps` counts the column's issue
opportunities, `lastEnter` is the tick of the last entry into the active set (R86), and `readied` lists the warps found ready and not
issued at the last opportunity (R73); `hwErrs` counts its uncorrectable errors outside the vault, and `retiring` says that the
column is to be retired (R458). -/
structure Column where
  warps    : Table Warp
  poolReg  : Nat
  poolSpad : Nat
  poolAcc  : Nat
  regions  : Regions
  gangs    : List Gang
  pool     : Table PoolWord
  bsram    : Table PoolWord
  undef    : List UndefRange
  bars     : Table Barrier
  l1       : List L1Frame
  l2       : List L2Tag
  horizon  : Vector Nat 4
  l2Bypass : BitVec 64
  vrCount  : BitVec 64
  watches  : List Watch
  tlb      : List TlbEntry
  oldPtes  : List OldPte
  code     : List CodeLine
  objs     : List ObjLine
  ops      : List MemOp
  nextOp   : Nat
  log      : List LogEntry
  lseq     : BitVec 32
  filter   : List FilterEntry
  tracker  : List Tracker
  rings    : Table Ring
  outbuf   : List OutMsg
  turned   : List (Nat × Nat)
  reports  : List (Nat × Nat)
  xchs     : List XchOp
  xbuf     : Table XSend
  tileQ    : Vector (List TileOp) 2
  yielded  : Bool
  copies   : List CopyCmd
  hand     : Hand
  started  : Table Nat
  rehearsal : BitVec 64
  rehearsing : Bool
  rehearseQ : Option (BitVec 2)
  halted   : Bool
  gated    : Bool
  lastIssue : Option Nat
  stableSent : List (Nat × Nat)
  rangeSent : List (Nat × Nat)
  busyEnd  : Nat
  was      : List OldWord
  past     : List OldWord
  opps     : Nat
  lastEnter : Option Nat
  readied  : List Nat
  hwErrs   : Nat
  retiring : Bool
  deriving DecidableEq, Repr

/-- A launch level (R54). -/
structure Level where
  scope : BitVec 7
  dom   : BitVec 4
  ext   : Nat
  deriving DecidableEq, Repr

/-- The fields of a launch record (R52). -/
structure LaunchRec where
  entry   : BitVec 48
  objBase : Nat
  objLast : Nat
  regs    : Nat
  spad    : Nat
  acc     : Nat
  l1min   : Nat
  spawnw  : Nat
  pwin    : Nat
  prio    : Nat
  fixsum  : Bool
  partid  : Nat
  nlev    : Nat
  seed    : Word
  fabidx  : Nat
  args    : Nat
  levels  : List Level
  deriving DecidableEq, Repr

/-- Where a launch came from, which decides how its end is reported (R62, R79). -/
inductive Origin where
  | ring (p : Nat) (seq : BitVec 64)
  | node (die replay node : Nat)
  | loaded
  deriving DecidableEq, Repr

/-- A launch: accepted, then placed group by group, then ended column by column (R72, R82). -/
structure Launch where
  id      : Nat
  ctx     : Nat
  part    : Nat
  rec_    : LaunchRec
  origin  : Origin
  placed  : Nat
  cols    : List Nat
  ended   : List Nat
  deriving DecidableEq, Repr

/-- The states of a context (R76). -/
inductive CtxState where
  | empty
  | resident
  | saved (slot : Nat)
  deriving DecidableEq, Repr

/-- A context (R76). `objBase` and `objLast` are its object table's, from the launch record that last started (R45, R90). -/
structure Context where
  part    : Nat
  state   : CtxState
  fixRight : Bool
  lease   : Nat
  ptRoot  : BitVec 64
  peerTab : BitVec 64
  objBase : Nat := 0
  objLast : Nat := 0
  deriving DecidableEq, Repr

/-- A pending pre-emption of a partition (R88): who asked, the slot, the halt tick, and the columns that wrote their image. -/
structure Preempting where
  ctx    : Nat
  slot   : Nat
  seq    : Option (BitVec 64)
  htick  : Option Nat
  written : List Nat
  deriving DecidableEq, Repr

/-- A partition (R75): one domain instance by its domain code and first column, with its 64 launch queues (R80) by the
launches' numbers. -/
structure Partition where
  dom      : Nat
  first    : Nat
  held     : Bool
  holdWanted : Bool
  lost     : Bool
  preempt  : Option Preempting
  queues   : Table (List Nat)
  rseq     : Nat
  deriving DecidableEq, Repr

/-- A completion of a command (R79). -/
structure Completion where
  cseq   : Nat
  seq    : BitVec 64
  status : Nat
  opc    : Nat
  ctx    : Nat
  info   : BitVec 64
  deriving DecidableEq, Repr

/-- A ring block (R77): indices modulo 4,096, sequence numbers, entries, and the device's own view: accepted entries not begun,
begun and not completed, launches whose record's read is held, with the granule of the first (R62), and completions held back by a
full completion ring. -/
structure RingBlock where
  cmdTail : Nat
  cmdHead : Nat
  cplTail : Nat
  cplHead : Nat
  seqRx   : BitVec 64
  cseqTx  : Nat
  cmds    : Table CmdEntry
  cpls    : Table Completion
  accepted : List CmdEntry
  begun   : List CmdEntry
  marks   : List (CmdEntry × List (BitVec 64))
  waiting : List (CmdEntry × Option Nat)
  heldCpl : List Completion
  stopped : Bool
  deriving DecidableEq, Repr

/-- Who asked for a replay (R358, R361). -/
inductive ReplayOwner where
  | ring (p : Nat) (seq : BitVec 64)
  | warp (col slot : Nat)
  deriving DecidableEq, Repr

/-- A node of a replay: its record as the walker read it when the replay took its slot (R354), its count, and how far it is (R357).
`ready` is the tick from which it may finish, `held` the granule that holds it (R433), `poll` the tick of the last read of a cue whose
watch table was full (R355), `waited` that a fault has held its launch record's reading (R62), `hcol` the column in which that reading is held, `cue` what a cue-wait node waits for, as its
parameters stood when it started (R357). -/
structure GNode where
  kind     : Nat
  pidx     : List Nat
  body     : List (BitVec 64)
  succ     : List Nat
  count    : Nat
  started  : Bool
  finished : Bool
  ready    : Option Nat
  held     : Option Nat
  poll     : Option Nat
  waited   : Bool := false
  hcol     : Option Nat := none
  cue      : Option (BitVec 64 × Word) := none
  deriving DecidableEq, Repr

/-- A replay of a graph object (R357): waiting for a slot, or running. `pbOff` is a GRAPH command's own parameter block, `failed` the
STATUS of a replay that has failed (R450), `held` the granule that holds it (R433), `pb` its slot's parameter block, `asker` the warp that asked
for it, by column, slot, launch and its number there (R62). -/
structure Replay where
  id      : Nat
  ctx     : Nat
  part    : Nat
  home    : Nat
  obj     : Nat
  pbOff   : Option Nat
  owner   : ReplayOwner
  slot    : Option Nat
  pb      : Nat
  nodes   : List GNode
  prev    : Option Nat
  failed  : Option Nat
  held    : Option Nat
  asker   : Option (Nat × Nat × Nat × Nat) := none
  deriving DecidableEq, Repr

/-- A wing-stage entry (R427); in a wing that is not its partition's lead, `fwd` once its first fault has been forwarded. -/
structure WingEntry where
  part  : Nat
  ctx   : Nat
  gran  : Nat
  kind  : Nat
  level : Nat
  acc   : BitVec 8
  waiters : Nat
  fcol  : Nat
  tick  : Nat
  arrived : Nat
  rseq  : Option Nat
  fwd   : Bool := false
  deriving DecidableEq, Repr

/-- A resolution on its way to the columns that wait for it (R430). -/
structure Resolution where
  part  : Nat
  rseq  : Nat
  ctx   : Nat
  gran  : Nat
  verdict : Verdict
  cols  : List Nat
  deriving DecidableEq, Repr

/-- A fault record at a stage manager (R428). -/
structure FaultRecord where
  part  : Nat
  rseq  : Nat
  ctx   : Nat
  gran  : Nat
  kind  : Nat
  level : Nat
  acc   : BitVec 8
  waiters : Nat
  fcol  : Nat
  tick  : Nat
  deriving DecidableEq, Repr

/-- An error record (R460). -/
structure ErrorRecord where
  eseq  : Nat
  tick  : Nat
  kind  : Nat
  unit  : Nat
  block : Nat
  col   : Option Nat
  phys  : Nat
  ctx   : Option (Nat × Nat)
  pc    : BitVec 48
  lane  : Nat
  slot  : Nat
  synd  : BitVec 64
  detail : BitVec 128
  deriving DecidableEq, Repr

/-- The counters of one lane of a port (R463). -/
structure LaneCounter where
  margin : Nat
  retry  : Nat
  corr   : Nat
  deriving DecidableEq, Repr

/-- A fabric port's link state (R386, R387): the last number sent and received, the retry buffer, the types and payloads that wait for a place in
it, the flits that it has put on the link, again those sent again, those delivered to the transaction layer, a retry request sent
and not yet answered, the tick since when retries fail, the credits returned to it, and the counters of its lanes. -/
structure Port where
  txSeq   : BitVec 16
  rxSeq   : BitVec 16
  buffer  : List Flit
  queue   : List (BitVec 8 × List Byte)
  sent    : List Flit
  delivered : List Flit
  retryReq : Bool
  failing : Option Int
  credits : Nat
  lanes   : Vector LaneCounter 8
  deriving DecidableEq, Repr

/-- The counters of one vault bank (R463). -/
structure BankCounter where
  csec  : Nat
  rrow  : Nat
  scrub : Nat
  rows  : List Nat
  deriving DecidableEq, Repr

/-- The power states (R398). -/
inductive PowerState where
  | p0 | p1 | p3
  deriving DecidableEq, Repr

/-- A host's write whose acknowledgement waits for its GWCT (R389): its column and number there, its fabric address and that tick. -/
structure HostAck where
  col  : Nat
  op   : Nat
  addr : Nat
  at_  : Nat
  deriving DecidableEq, Repr

/-- What leaves the device towards the host, a peer (by its fabric node, R31) or Twimor: the outside's view. -/
inductive Reply where
  | data (addr : Nat) (bytes : List Byte)
  | refused (addr : Nat)
  | ack (addr : Nat)
  | hostRead (addr n : Nat)
  | hostWrite (addr : Nat) (bytes : List Byte)
  | peerRead (node addr n : Nat)
  | peerWrite (node addr : Nat) (bytes : List Byte)
  | twimor (bytes : List Byte)
  | header (bytes : List Byte)
  | cause (die step : Nat)
  | stop (col slot : Nat)
  deriving DecidableEq, Repr

/-- An error that a store's code or parity finds when the store is read (R438), by column and place: in a sector of the vault or of an L2 data slot, both by
vault address, in an L2 tag, by superblock, in a line of an L1 frame, in a word of the pool or of the B-SRAM, in a control structure of
a context, by unit, block and structure number (R461, R462), in the stagehand's program memory or registers; a flit of a network stage that
still fails after its retries, by the contexts of the traffic on its hop (R448); and a codeword that a lane of a port has corrected
(R463). A corrected error of any other store changes nothing that can be read (R439). -/
inductive HwError where
  | sector (col va : Nat) (corrected : Bool)
  | slot (col va : Nat)
  | tag (col sb : Nat)
  | l1 (col frame line : Nat)
  | pool (col word : Nat)
  | bsram (col word : Nat)
  | control (col ctx unit block structure_ : Nat)
  | hand (col : Nat)
  | hop (die stage : Nat) (ctxs : List Nat)
  | lane (port lane : Nat)
  deriving DecidableEq, Repr

/-- What is read from outside: the counters of a lane of a port and of a bank of a vault over Twimor (R463, R385), and the header of an image slot,
which a debugger reads through the stage manager (R90, R406). -/
inductive Ask where
  | laneCounters (die port lane : Nat)
  | bankCounters (die col bank : Nat)
  | imageHeader (col slot : Nat)
  deriving DecidableEq, Repr

/-- One turn of the environment's schedule: time passes, a column has an issue opportunity, a stagehand runs an instruction,
an event happens, a store's error is found, or something is read from outside. -/
inductive Turn where
  | tick (n : Nat)
  | issue (col : Nat)
  | hand (col : Nat)
  | event (i : Instr)
  | error (e : HwError)
  | ask (a : Ask)
  deriving DecidableEq, Repr

/-- The instruction that is issuing: its warp, the PC of its word's first slot, and its place in a pair. -/
structure Cur where
  col    : Nat
  slot   : Nat
  pc     : BitVec 48
  paired : Bool
  second : Bool
  priv   : Bool
  deriving DecidableEq, Repr

/-- What became of the last instruction that issued. -/
inductive Issued where
  | retired | held | trapped
  deriving DecidableEq, Repr

/-- The device: everything but the vaults' bytes. `understudies` lists the healthy physical columns of a die that stand unused (R13, R19), `boot` counts
the bring-up steps that each die has done and `bootFail` lists the dies whose check failed (R394), `readyEvents` are readiness changes
whose entries are still to be written (R390, R392), `acks` the host's writes to acknowledge (R389), `hotSince` the tick since when the
inlet reads above 45 degrees (R398). -/
structure Dev where
  now       : Nat
  agenda    : List Turn
  cur       : Cur
  issued    : Issued
  free      : Nat
  vaultPois : List Nat
  inject    : List (Nat × Bool)
  cols      : Table Column
  ready     : List ReadyFn
  capCols   : Vector Nat 4
  spares    : Vector Nat 4
  absent    : List Nat
  phys      : Table Nat
  understudies : List Nat
  boot      : Vector Nat 4
  bootFail  : List Nat
  readyEvents : List (BitVec 64)
  acks      : List HostAck
  parts     : Table Partition
  ctxs      : Table Context
  rings     : Table RingBlock
  adminRing : RingBlock
  launches  : Table Launch
  nextLaunch : Nat
  images    : Table Image
  bards     : List BardState
  tickets   : Nat
  replays   : Table Replay
  nextReplay : Nat
  wings     : List (Nat × WingEntry)
  resolutions : List Resolution
  faults    : List FaultRecord
  errors    : Table (List ErrorRecord)
  eseq      : Vector Nat 4
  ports     : Table Port
  banks     : Table BankCounter
  power     : PowerState
  rate      : Nat
  junction  : Vector Nat 4
  inlet     : Nat
  watts     : Nat
  hotSince  : Option Int
  flashCfg  : List Byte
  flashFw   : List Byte
  stagedCfg : Option (List Byte)
  stagedFw  : Option (List Byte)
  minVer    : Nat
  debugger  : Bool
  replies   : List Reply
  deriving DecidableEq, Repr

/-- The state of the machine. -/
structure State where
  vault : Memory
  dev   : Dev
  deriving DecidableEq, Repr

/-- An index register as a warp starts with it (R63). -/
def IxReg.start : IxReg := { base := 0, bound := 0, stride := 0, idx := Vector.replicate 32 0 }

/-- A warp as R63 starts one, before its launch's own values are put in; also what an unoccupied slot reads as. -/
def Warp.start : Warp :=
  { pc := 0, enabled := Mask.all, retired := 0, rstack := [], retTop := [], retDepth := 0, regs := [],
    preds := Vector.replicate 7 0, ix := Vector.replicate 16 IxReg.start, wlog := 5, wstat := 0, obs := 0,
    rng := Vector.replicate 32 1, loads := 0, stores := 0, copies := 0, tiles := 0, ctx := 0, launch := 0, gang := 0,
    coords := [], group := 0, spawned := false, prio := 0, active := false, entered := 0,
    enteredOpp := 0, lastIssue := 0,
    overdueCount := 0, overdueAt := none, stallUntil := 0, yld := false, park := .none, wait := .none, stopped := false,
    relDone := false, retLoads := [], privMode := false, deferred := [], ovf := false,
    relTimes := Vector.replicate 7 0, nmPending := 0, nmTime := 0, xchCount := 0, barPend := [], bardPend := [] }

/-- A stagehand with no program (R362, R374). -/
def Hand.start : Hand :=
  { h := Vector.replicate 32 0, q := Vector.replicate 16 (Vector.replicate 16 0), pc := 0, prog := [], ilen := 0,
    running := none, wait := .none, claims := [], acc := [], openRow := [], banks := { free := 0, busy := [], run := none, windows := [], kept := [], olds := [] }, runq := [], atomq := [],
    service := none, writeTime := 0, halted := false }

/-- A column with nothing on it, as bring-up leaves it. -/
def Column.start : Column :=
  { warps := [], poolReg := 0, poolSpad := 0, poolAcc := 0,
    regions := { n := 0, w := 0, regs := 0, spad := 0, acc := 0, spawnw := 0 }, gangs := [], pool := [], bsram := [], undef := [],
    bars := [], l1 := [], l2 := [], horizon := Vector.replicate 4 0, l2Bypass := 0, vrCount := 0, watches := [],
    tlb := [], oldPtes := [], code := [], objs := [], ops := [], nextOp := 0, log := [], lseq := 0, filter := [], tracker := [], rings := [],
    outbuf := [], turned := [], reports := [], xchs := [], xbuf := [], tileQ := Vector.replicate 2 [], yielded := false, copies := [],
    hand := Hand.start, started := [], rehearsal := 0, rehearsing := false, rehearseQ := none, halted := false,
    gated := false, lastIssue := none, stableSent := [], rangeSent := [], busyEnd := 0, was := [],
    past := [], opps := 0, lastEnter := none, readied := [], hwErrs := 0, retiring := false }

/-- A ring block at power-on (R459). -/
def RingBlock.start : RingBlock :=
  { cmdTail := 0, cmdHead := 0, cplTail := 0, cplHead := 0, seqRx := 0, cseqTx := 0, cmds := [], cpls := [],
    accepted := [], begun := [], marks := [], waiting := [], heldCpl := [], stopped := false }

/-- The device right after reset, before any function has come up (R391, R394). -/
def Dev.start : Dev :=
  { now := 0, agenda := [], cur := { col := 0, slot := 0, pc := 0, paired := false, second := false, priv := false },
    issued := .retired, free := 0, vaultPois := [], inject := [], cols := [], ready := [],
    capCols := Vector.replicate 4 Config.colsFromRecord, spares := Vector.replicate 4 Config.sparesFromRecord,
    absent := [], phys := [], understudies := [], boot := Vector.replicate 4 0, bootFail := [], readyEvents := [], acks := [], parts := [], ctxs := [], rings := [], adminRing := RingBlock.start,
    launches := [], nextLaunch := 0, images := [], bards := [], tickets := 0, replays := [], nextReplay := 0,
    wings := [], resolutions := [], faults := [], errors := [], eseq := Vector.replicate 4 0, ports := [], banks := [],
    power := .p0, rate := 8, junction := Vector.replicate 4 0, inlet := 0, watts := 0, hotSince := none, flashCfg := [], flashFw := [],
    stagedCfg := none, stagedFw := none, minVer := 0, debugger := false, replies := [] }

/-- The machine right after reset: no byte of a vault written, nothing resident, no function ready, the clock at 0. -/
def State.reset : State := { vault := [], dev := Dev.start }

end Sys2Proof.Machine
end

