-- ==== Sys2Proof/Machine/Tables.lean ====
section
/-! DEFINITION. Tables, the vaults' bytes, and the accessors of the device's columns and warps. -/

namespace Sys2Proof.Machine

/-! ## Tables -/

/-- The value of a key. -/
def Table.get? {α : Type} : Table α → Nat → Option α
  | [], _ => none
  | (j, v) :: t, k => if j = k then some v else if k < j then none else Table.get? t k

/-- The table with a key's value set. -/
def Table.set {α : Type} : Table α → Nat → α → Table α
  | [], k, v => [(k, v)]
  | (j, w) :: t, k, v => if j = k then (k, v) :: t else if k < j then (k, v) :: (j, w) :: t else (j, w) :: Table.set t k v

/-- The table without a key. -/
def Table.del {α : Type} : Table α → Nat → Table α
  | [], _ => []
  | (j, w) :: t, k =>
    if j = k then t.filter (fun x => decide (k < x.1)) else if k < j then (j, w) :: t else (j, w) :: Table.del t k

/-- The value of a key, or a default. -/
def Table.getD {α : Type} (t : Table α) (k : Nat) (v : α) : α := (t.get? k).getD v

/-- The key has a value. -/
def Table.has {α : Type} (t : Table α) (k : Nat) : Bool := (t.get? k).isSome

/-- The values in key order. -/
def Table.vals {α : Type} (t : Table α) : List α := t.map Prod.snd

/-- Every value changed. -/
def Table.mapVals {α : Type} (t : Table α) (f : Nat → α → α) : Table α := t.map (fun p => (p.1, f p.1 p.2))

/-! ## Vault bytes -/

/-- The bytes that the header of an image slot holds at reset: MAGIC and VER (R90). -/
def headerReset : List Byte := [0x4D, 0x52, 0x47, 0x5A, 0x01, 0x00]

/-- What the byte of a key reads as that nothing has written: an image slot's MAGIC and VER at their reset values (R89, R90), and 0 elsewhere.
DESIGN CHOICE: the spec gives no other contents after bring-up (log 1). -/
def Memory.unlisted (key : Nat) : Byte :=
  let a := key % 2 ^ 44
  if 0x60000000 ≤ a ∧ a < 0x60800000 then headerReset.getD (a % 0x400000) 0 else 0

/-- The byte at a key. -/
def Memory.byte : Memory → Nat → Byte
  | [], a => Memory.unlisted a
  | (k, b) :: m, a => if k = a then b else if a < k then Memory.unlisted a else Memory.byte m a

/-- The bytes with one written; an entry that would hold the unlisted value is removed. -/
def Memory.put : Memory → Nat → Byte → Memory
  | [], a, b => if b = Memory.unlisted a then [] else [(a, b)]
  | (k, c) :: m, a, b =>
    if k = a then (if b = Memory.unlisted a then m else (a, b) :: m)
    else if a < k then (if b = Memory.unlisted a then (k, c) :: m else (a, b) :: (k, c) :: m)
    else (k, c) :: Memory.put m a b

/-- Keys strictly above a bound and rising, no entry at the unlisted value. -/
def Memory.above : Option Nat → Memory → Bool
  | _, [] => true
  | lo, (k, b) :: m => (match lo with
      | none => true
      | some l => decide (l < k)) && b != Memory.unlisted k && Memory.above (some k) m

/-- The canonical form: addresses strictly rising, and no entry equal to what an unlisted address reads as. -/
def Memory.wf (m : Memory) : Bool := Memory.above none m

/-- n bytes from a key on. -/
def Memory.bytes (m : Memory) (a : Nat) : Nat → List Byte
  | 0 => []
  | n + 1 => m.byte a :: Memory.bytes m (a + 1) n

/-- The little-endian number in n bytes from a key on (R2). -/
def Memory.num (m : Memory) (a n : Nat) : Nat := numOf (m.bytes a n)

/-- Bytes written from a key on. -/
def Memory.write : Memory → Nat → List Byte → Memory
  | m, _, [] => m
  | m, a, b :: bs => Memory.write (m.put a b) (a + 1) bs

/-- The key of vault address a of logical column c (R388). -/
def vkey (c a : Nat) : Nat := c * 2 ^ 44 + a

/-- The bytes of a vault (R12): addresses below 0x6080_0000, the usable part and the green room's two images. -/
def vaultSize : Nat := 0x60800000

/-- The usable part of a vault, 24,576 frames of 64 KiB (R33). -/
def vaultUsable : Nat := 0x60000000

/-! ## Columns and warps -/

/-- A column; one that holds nothing reads as `Column.start`. -/
def Dev.col (d : Dev) (c : Nat) : Column := d.cols.getD c Column.start

/-- The device with a column replaced. -/
def Dev.putCol (d : Dev) (c : Nat) (k : Column) : Dev := { d with cols := d.cols.set c k }

/-- The device with a column changed. -/
def Dev.modCol (d : Dev) (c : Nat) (f : Column → Column) : Dev := d.putCol c (f (d.col c))

/-- A warp slot; an unoccupied one reads as `Warp.start`. -/
def Column.warp (k : Column) (w : Nat) : Warp := k.warps.getD w Warp.start

/-- The column with a warp replaced. -/
def Column.putWarp (k : Column) (s : Nat) (w : Warp) : Column := { k with warps := k.warps.set s w }

/-- The warp of a column's slot. -/
def Dev.warp (d : Dev) (c s : Nat) : Warp := (d.col c).warp s

/-- The device with a warp replaced. -/
def Dev.putWarp (d : Dev) (c s : Nat) (w : Warp) : Dev := d.modCol c (fun k => k.putWarp s w)

/-- The device with a warp changed. -/
def Dev.modWarp (d : Dev) (c s : Nat) (f : Warp → Warp) : Dev := d.putWarp c s (f (d.warp c s))

/-- The column that issues. -/
def Dev.curCol (d : Dev) : Column := d.col d.cur.col

/-- The warp that issues. -/
def Dev.curWarp (d : Dev) : Warp := d.warp d.cur.col d.cur.slot

/-- The device with the issuing warp changed. -/
def Dev.modCurWarp (d : Dev) (f : Warp → Warp) : Dev := d.modWarp d.cur.col d.cur.slot f

/-- The device with the issuing column changed. -/
def Dev.modCurCol (d : Dev) (f : Column → Column) : Dev := d.modCol d.cur.col f

/-- A context, by its number; one that does not exist reads as an empty one of partition 0. -/
def Dev.ctx (d : Dev) (n : Nat) : Context :=
  d.ctxs.getD n { part := 0, state := .empty, fixRight := false, lease := 4096, ptRoot := 0, peerTab := 0 }

/-- The columns of a domain (R20): 1 for a column, 4 for a quad, up to 1024. -/
def domColumns (dom : Nat) : Nat := domCols dom

/-- The columns of a partition, in ascending logical number (R75, R20). -/
def Partition.columns (p : Partition) : List Nat := (List.range (domColumns p.dom)).map (fun i => p.first + i)

/-- A partition, by its number. -/
def Dev.part (d : Dev) (p : Nat) : Partition :=
  d.parts.getD p {
    dom := 0, first := 0, held := false, holdWanted := false, lost := false, preempt := none, queues := [],
    rseq := 0 }

/-- The columns of the partition of a context. -/
def Dev.ctxCols (d : Dev) (n : Nat) : List Nat := (d.part (d.ctx n).part).columns

/-- A logical column of a context's partition; an absent one counts as outside (R29). -/
def Dev.inPart (d : Dev) (ctx c : Nat) : Bool := (d.ctxCols ctx).contains c && !d.absent.contains c

/-- The die of a logical column (R17, R20). -/
def dieOf (c : Nat) : Nat := c / 256

/-- The launch record under which a warp runs; zeros where there is none. -/
def Dev.launchRec (d : Dev) (id : Nat) : LaunchRec :=
  match d.launches.get? id with
  | some l => l.rec_
  | none => {
      entry := 0, objBase := 0, objLast := 0, regs := 256, spad := 0, acc := 0, l1min := 1, spawnw := 0, pwin := 0,
      prio := 0, fixsum := false, partid := 0, nlev := 2, seed := 0, fabidx := 0, args := 0, levels := [] }

/-- The launch record of the issuing warp. -/
def Dev.curRec (d : Dev) : LaunchRec := d.launchRec d.curWarp.launch

/-- The next undefined value (R7; log 7), and the device with the counter advanced. -/
def Dev.draw (d : Dev) : Word × Dev := (Config.freeWord d.free, { d with free := d.free + 1 })

/-- The next free choice (log 7), and the device with the counter advanced. -/
def Dev.choose (d : Dev) : Bool × Dev := (Config.freeBool d.free, { d with free := d.free + 1 })

/-- One of several numbers, by a free choice where there is more than one (log 15). -/
def Dev.pick (d : Dev) : List Nat → Option (Nat × Dev)
  | [] => none
  | [x] => some (x, d)
  | x :: y :: l =>
    let (w, d) := d.draw
    some ((x :: y :: l).getD (w.toNat % (l.length + 2)) x, d)

/-- The special-register values %warp and %col, and Now() (R64, R24). -/
def Dev.slotWord (d : Dev) : Word := BitVec.ofNat 32 d.cur.slot

end Sys2Proof.Machine
end

