-- ==== Sys2Proof/Machine/Records.lean ====
section
/-! DEFINITION. The records and completions that the device writes for the outside: rings' completion entries (R79, R390),
error records and their event entries (R460), and the readiness changes (R391). -/

namespace Sys2Proof.Machine

/-- The ring block of a ring. -/
def Dev.ring (d : Dev) : RingId → RingBlock
  | .part p => d.rings.getD p RingBlock.start
  | .admin => d.adminRing

/-- The device with a ring block replaced. -/
def Dev.putRing (d : Dev) : RingId → RingBlock → Dev
  | .part p, b => { d with rings := d.rings.set p b }
  | .admin, b => { d with adminRing := b }

/-- A completion ring is full: the device writes only when CPL_TAIL + 1 ≠ CPL_HEAD (R79). -/
def RingBlock.full (b : RingBlock) : Bool := (b.cplTail + 1) % 4096 == b.cplHead % 4096

/-- One completion written: it takes the next CSEQ (R79). -/
def RingBlock.writeCpl (b : RingBlock) (c : Completion) : RingBlock :=
  { b with cpls := b.cpls.set (b.cplTail % 4096) { c with cseq := b.cseqTx + 1 }, cseqTx := b.cseqTx + 1,
           cplTail := (b.cplTail + 1) % 4096 }

/-- A completion written, or held behind earlier held ones (R79). -/
def RingBlock.pushCpl (b : RingBlock) (c : Completion) : RingBlock :=
  if b.heldCpl.isEmpty && !b.full then b.writeCpl c else { b with heldCpl := b.heldCpl ++ [c] }

/-- Held completions written while there is room (R79). -/
def RingBlock.release : List Completion → RingBlock → RingBlock
  | [], b => { b with heldCpl := [] }
  | c :: cs, b => if b.full then { b with heldCpl := c :: cs } else RingBlock.release cs (b.writeCpl c)

/-- The completion of a command with a status at the present tick (R79). -/
def cplOf (d : Dev) (seq : BitVec 64) (opc ctx status : Nat) : Completion :=
  { cseq := 0, seq := seq, status := status, opc := opc, ctx := ctx, info := BitVec.ofNat 64 d.now }

/-- MARKs whose earlier commands have all completed complete in turn, each counting for the later ones (R78, R79). -/
def RingBlock.settleMarks (d : Dev) : Nat → RingBlock → RingBlock
  | 0, b => b
  | k + 1, b =>
    match b.marks.find? (fun m => m.2.isEmpty) with
    | none => b
    | some (e, _) =>
      let rest := (b.marks.filter (fun m => m.1.seq != e.seq)).map (fun m => (m.1, m.2.filter (· != e.seq)))
      let b := { b with marks := rest, begun := b.begun.filter (fun x => x.seq != e.seq) }
      RingBlock.settleMarks d k (b.pushCpl (cplOf d e.seq e.opc.toNat e.ctx.toNat 0))

/-- A begun command of a ring completes with a status (R79). -/
def Dev.complete (d : Dev) (r : RingId) (seq : BitVec 64) (status : Nat) : Dev :=
  let b := d.ring r
  match b.begun.find? (fun e => e.seq == seq) with
  | none => d
  | some e =>
    let b : RingBlock :=
      { b with begun := b.begun.filter (fun x => x.seq != seq), waiting := b.waiting.filter (fun x => x.1.seq != seq),
               marks := b.marks.map (fun m : CmdEntry × List (BitVec 64) => (m.1, m.2.filter (· != seq))) }
    let b := b.pushCpl (cplOf d e.seq e.opc.toNat e.ctx.toNat status)
    d.putRing r (RingBlock.settleMarks d (b.marks.length + 1) b)

/-- An event entry in the administrative completion ring (R390). -/
def Dev.event (d : Dev) (opc ctx : Nat) (info : BitVec 64) : Dev :=
  { d with adminRing := d.adminRing.pushCpl { cseq := 0, seq := 0, status := 0, opc := opc, ctx := ctx, info := info } }

/-- What an error record says beside its number, die and tick (R460). -/
structure RecordInfo where
  kind   : Nat
  unit   : Nat
  block  : Nat := 0
  col    : Option Nat := none
  ctx    : Option Nat := none
  pc     : BitVec 48 := 0
  lane   : Nat := 0
  slot   : Nat := 0
  synd   : BitVec 64 := 0
  detail : BitVec 128 := 0

/-- The event entry's bytes 24-31 for an error record (R460). -/
def recordInfoWord (eseq kind unit col die : Nat) : BitVec 64 :=
  BitVec.ofNat 64 (eseq % 2 ^ 32 + kind * 2 ^ 32 + unit * 2 ^ 40 + col % 1024 * 2 ^ 48 + die % 4 * 2 ^ 58)

/-- An error record at the stage manager of a die: the next ESEQ, the last 1,024 kept, and an event entry (R460). -/
def Dev.record (d : Dev) (die : Nat) (r : RecordInfo) : Dev :=
  let n := d.eseq[die % 4]'(Nat.mod_lt _ (by decide)) + 1
  let e : ErrorRecord :=
    { eseq := n, tick := d.now, kind := r.kind, unit := r.unit, block := r.block, col := r.col,
      phys := (r.col.map (fun c => d.phys.getD c (c % 256))).getD 0,
      ctx := r.ctx.map (fun c => (c, (d.ctx c).part)), pc := r.pc, lane := r.lane, slot := r.slot, synd := r.synd,
      detail := r.detail }
  let l := d.errors.getD die [] ++ [e]
  let d := { d with errors := d.errors.set die (l.drop (l.length - 1024)),
                    eseq := d.eseq.set (die % 4) n (Nat.mod_lt _ (by decide)) }
  d.event 0x81 ((r.ctx).getD 0) (recordInfoWord n r.kind r.unit (r.col.getD 0) die)

/-- An error record about a column (R460). -/
def Dev.recordCol (d : Dev) (c : Nat) (r : RecordInfo) : Dev := d.record (dieOf c) { r with col := some c }

/-- The position of a function in the readiness map, 8 × byte + bit (R391). -/
def readyPos : ReadyFn → Nat
  | .port i => i
  | .cols k => 33 + k
  | .smgr k => 37 + k
  | .seqr => 41
  | .hold => 42
  | .stage c => 64 + c

/-- Events are raised once some port and the stage manager of die 0 are ready (R392). -/
def Dev.eventsOn (d : Dev) : Bool :=
  d.ready.contains (.smgr 0) && d.ready.any (fun f => match f with
    | .port _ => true
    | _ => false)

/-- The readiness changes' entries written, in the order of the changes, as soon as events can be raised (R390, R392). -/
def Dev.raiseReady (d : Dev) : Dev :=
  if d.eventsOn then d.readyEvents.foldl (fun (d : Dev) w => d.event 0x80 0 w) { d with readyEvents := [] } else d

/-- A readiness bit set or cleared: each change has one event entry (R390-R392), which waits until some port and the stage manager of die 0
are ready (DEDUCED, log 112). -/
def Dev.setReady (d : Dev) (f : ReadyFn) (on : Bool) : Dev :=
  if d.ready.contains f == on then d
  else
    Dev.raiseReady { d with
      ready := if on then d.ready ++ [f] else d.ready.filter (· != f),
      readyEvents := d.readyEvents ++ [BitVec.ofNat 64 (readyPos f + (if on then 65536 else 0))] }

end Sys2Proof.Machine
end

