-- ==== Sys2Proof/Machine/Registers.lean ====
section
/-! DEFINITION. The registers of a warp: vector registers under their shapes (R65, R66), predicates (R4), index registers (R229),
the register lanes that outstanding operations will write (R235), and the write of a result (R66, R67). -/

namespace Sys2Proof.Machine

/-- The shape of a value or a result (R65). -/
inductive Shape where
  | uniform
  | affine (base stride : Word)
  | general
  deriving DecidableEq, Repr

/-- The value that lane l of a register reads (R65). -/
def RegData.lane (r : RegData) (l : Nat) : Word :=
  match r with
  | .uniform v _ => v
  | .affine b s _ => b + BitVec.ofNat 32 l * s
  | .general v _ => Sys2Proof.lane v l

/-- The poison of lane l (R440). -/
def RegData.pois (r : RegData) (l : Nat) : Bool :=
  match r with
  | .uniform _ p => p
  | .affine _ _ p => p
  | .general _ p => Mask.has p (l % 32)

/-- The values of all lanes. -/
def RegData.vals (r : RegData) : Vector Word 32 := tab r.lane

/-- The poison of all lanes. -/
def RegData.poisMask (r : RegData) : Mask := Mask.of r.pois

/-- The shape tag (R65). -/
def RegData.shape (r : RegData) : Shape :=
  match r with
  | .uniform _ _ => .uniform
  | .affine b s _ => .affine b s
  | .general _ _ => .general

/-- Register r of a warp; one that nothing has written holds its start value (R63). -/
def Warp.reg (w : Warp) (r : Nat) : VReg := w.regs.getD r VReg.start

/-- The value of lane l of register r. -/
def Warp.laneOf (w : Warp) (r l : Nat) : Word := (w.reg r).data.lane l

/-- What an instruction writes into a register: lane values with poison, the format tag, and the shape that it gives where every
lane is active (R66, R67). -/
structure Result where
  vals  : Vector Word 32
  pois  : Mask
  fmt   : BitVec 5
  shape : Shape
  deriving DecidableEq, Repr

/-- A uniform result. -/
def Result.uni (v : Word) (pois : Bool) (fmt : BitVec 5) : Result :=
  { vals := tab (fun _ => v), pois := if pois then Mask.all else 0, fmt := fmt, shape := .uniform }

/-- A general result from a lane function. -/
def Result.gen (f : Nat → Word) (pois : Mask) (fmt : BitVec 5) : Result :=
  { vals := tab f, pois := pois, fmt := fmt, shape := .general }

/-- An affine result needs a tag of I32, UI32 or RAW (R65). -/
def affineTag (f : BitVec 5) : Bool := f == Fmt.i32 || f == Fmt.ui32 || f == Fmt.raw

/-- The register that a whole write of a result gives (R65, R66). -/
def Result.whole (x : Result) : VReg :=
  match x.shape with
  | .uniform => { fmt := x.fmt, data := .uniform (lane x.vals 0) (Mask.has x.pois 0) }
  | .affine b s =>
    if s = 0 then { fmt := x.fmt, data := .uniform (lane x.vals 0) (Mask.has x.pois 0) }
    else if affineTag x.fmt then { fmt := x.fmt, data := .affine b s (Mask.has x.pois 0) }
    else { fmt := x.fmt, data := .general x.vals x.pois }
  | .general => { fmt := x.fmt, data := .general x.vals x.pois }

/-- The register after the lanes of m are written and the others kept: general (R66 step 1). -/
def VReg.mixed (r : VReg) (m : Mask) (x : Result) : VReg :=
  { fmt := x.fmt,
    data := .general (tab (fun l => if Mask.has m l then lane x.vals l else r.data.lane l))
      ((x.pois &&& m) ||| (r.data.poisMask &&& ~~~m)) }

/-- The write of a result into register r in the lanes of m; `ind` marks an indirect destination, which becomes general (R66,
R234). A write with no lane writes nothing (R104). -/
def Warp.write (w : Warp) (r : Nat) (m : Mask) (x : Result) (ind : Bool) : Warp :=
  if m = 0 then w
  else if m = Mask.all ∧ ind = false then { w with regs := w.regs.set r x.whole }
  else { w with regs := w.regs.set r ((w.reg r).mixed m x) }

/-! ## Predicates -/

/-- Predicate p; p0 is all-true (R4). -/
def Warp.pred (w : Warp) (p : Nat) : Mask :=
  if h : 1 ≤ p ∧ p ≤ 7 then w.preds[p - 1]'(by omega) else Mask.all

/-- Predicate p with the lanes of m set to bits; p0 is constant (R4). -/
def Warp.setPred (w : Warp) (p : Nat) (m bits : Mask) : Warp :=
  if h : 1 ≤ p ∧ p ≤ 7 then
    { w with preds := w.preds.set (p - 1) ((w.pred p &&& ~~~m) ||| (bits &&& m)) (by omega) }
  else w

/-- The lanes that the guard selects (R104). -/
def Warp.guard (w : Warp) (h : Head) : Mask := if h.gn then ~~~(w.pred h.gp.toNat) else w.pred h.gp.toNat

/-- The enabled mask E: the lanes that the convergence state runs and that EXIT has not retired (R155). -/
def Warp.e (w : Warp) : Mask := w.enabled &&& ~~~w.retired

/-- The active lanes of an instruction (R9). -/
def Warp.act (w : Warp) (h : Head) : Mask := w.e &&& w.guard h

/-- The guard selects every lane of E (R156). -/
def Warp.allE (w : Warp) (h : Head) : Bool := w.e &&& w.guard h == w.e
/-- The guard selects no lane of E (R156). -/
def Warp.noneE (w : Warp) (h : Head) : Bool := w.e &&& w.guard h == 0

/-! ## Index registers and the status word -/

/-- Index register i. -/
def Warp.ixr (w : Warp) (i : Nat) : IxReg := w.ix[i % 16]'(Nat.mod_lt _ (by decide))

/-- The warp with an index register replaced. -/
def Warp.setIx (w : Warp) (i : Nat) (x : IxReg) : Warp := { w with ix := w.ix.set (i % 16) x (Nat.mod_lt _ (by decide)) }

/-- The registers of a window [BASE, BASE + BOUND) (R229). -/
def IxReg.window (x : IxReg) : List Nat := (List.range x.bound.toNat).map (fun i => x.base.toNat + i)

/-- %wstat with bits set (R145). -/
def Warp.flag (w : Warp) (bits : BitVec 32) : Warp := { w with wstat := w.wstat ||| bits }

/-- %wstat.NANLOST set where a NaN was lost (R141). -/
def Warp.nanLost (w : Warp) (b : Bool) : Warp := if b then w.flag 1 else w

/-! ## Reservations -/

/-- The registers of warp slot s that an outstanding operation will write (R235). -/
def Column.reserved (k : Column) (s : Nat) : List Nat :=
  ((k.ops.filter (fun o => o.slot == s)).map (fun o => o.resv.map Prod.fst)).flatten

/-- An instruction that reads one of these registers is not ready (R235). -/
def Column.busy (k : Column) (s : Nat) (rs : List Nat) : Bool := let v := k.reserved s; rs.any (fun r => v.contains r)

/-- The number of indirect reservations that a warp holds (R235). -/
def Column.windows (k : Column) (s : Nat) : Nat := (k.ops.filter (fun o => o.slot == s && o.window)).length

/-- A warp holds four indirect reservations: one more is not ready (R235). -/
def Column.windowsFull (k : Column) (s : Nat) : Bool := decide (4 ≤ k.windows s)

/-- An operation learns that a later instruction has written lanes of a register: its own write no longer reaches them (R235). -/
def MemOp.kill (o : MemOp) (r : Nat) (m : Mask) : MemOp :=
  if o.resv.any (fun x => x.1 == r) then { o with killed := (r, m) :: o.killed } else o

/-- Lane l of register r has been overwritten since the operation issued. -/
def MemOp.dead (o : MemOp) (r l : Nat) : Bool := o.killed.any (fun x => x.1 == r && Mask.has x.2 l)

/-- A tile operation in flight learns that lanes of a register have been written: all that it writes is undefined where it reads the
register (R263), and its own write of the register no longer reaches those lanes (R235). -/
def TileOp.met (o : TileOp) (r : Nat) (m : Mask) : TileOp :=
  { o with spoiled := o.spoiled || o.rregs.contains r, killed := if o.wregs.any (fun x => x.1 == r) then (r, m) :: o.killed else o.killed }

/-- Lanes of a register of slot s have been written: the tile operations of its warp learn of it. -/
def Column.spoilReg (k : Column) (s r : Nat) (m : Mask) : Column :=
  { k with tileQ := k.tileQ.map (fun q => q.map (fun o : TileOp => if o.slot = s then o.met r m else o)) }

/-- An undefined format tag: any assigned code (R7). -/
def freeTag (n : Nat) : BitVec 5 := let t := (Config.freeWord n).setWidth 5; if fmtAssigned t then t else Fmt.raw

/-- The undefined value that a tile operation leaves in lane l of register r (R7). -/
def TileOp.fogLane (o : TileOp) (r l : Nat) : Word := Config.freeWord (o.base + 2 ^ 20 + 32 * r + l)

/-- The undefined tag that a tile operation leaves in register r (R7). -/
def TileOp.fogTag (o : TileOp) (r : Nat) : BitVec 5 := freeTag (o.base + 2 ^ 21 + r)

/-- What a tile operation leaves in register r where its result is undefined (R7). -/
def TileOp.fogReg (o : TileOp) (r : Nat) : Result := Result.gen (o.fogLane r) 0 (o.fogTag r)

/-- The warp of slot s as an instruction reads it: the register lanes that a tile operation in flight writes are undefined (R263). -/
def Column.seen (k : Column) (s : Nat) : Warp :=
  let os := (k.tileQ.toList.flatten).filter (fun o => o.slot == s)
  { k.warp s with regs := os.foldl (fun t o => o.wregs.foldl (fun t r =>
      t.set r.1 ((t.getD r.1 VReg.start).mixed r.2 (o.fogReg r.1))) t) (k.warp s).regs }

/-- A column whose warp s writes a result into a register: the register, and the outstanding operations overtaken. -/
def Column.writeReg (k : Column) (s r : Nat) (m : Mask) (x : Result) (ind : Bool) : Column :=
  if m = 0 then k
  else
    let k := k.spoilReg s r m
    let k := { k with ops := k.ops.map (fun o : MemOp => if o.slot = s then o.kill r m else o) }
    k.putWarp s ((k.warp s).write r m x ind)

/-- The issuing warp as its instruction reads its registers (R263). -/
def Dev.seen (d : Dev) : Warp := d.curCol.seen d.cur.slot

/-- The issuing warp writes a result into a register. -/
def Dev.writeReg (d : Dev) (r : Nat) (m : Mask) (x : Result) : Dev :=
  d.modCurCol (fun k => k.writeReg d.cur.slot r m x false)

/-- The issuing warp writes results into consecutive registers. -/
def Dev.writeRegs (d : Dev) (r : Nat) (m : Mask) : List Result → Dev
  | [] => d
  | x :: xs => Dev.writeRegs (d.writeReg r m x) (r + 1) m xs

/-- The registers' results of one write to a register number that depends on the lane (R234). -/
def Column.writeLanes (k : Column) (s : Nat) (regs : Vector Nat 32) (m : Mask) (x : Result) : Column :=
  let rs := ((Mask.list m).map (fun l => lane regs l)).eraseDups
  rs.foldl (fun k r => k.writeReg s r (Mask.of (fun l => Mask.has m l && lane regs l == r)) x true) k

/-- The reserved registers' lanes that a load writes when its last request returns: each register gets its lanes that no later
instruction has overwritten, with the load's tag where nothing has retagged it since (R220, R235). -/
def Column.commitReg (k : Column) (o : MemOp) (r : Nat) : Column :=
  let ws := o.done.filter (fun x => x.reg == r && !o.dead r x.lane)
  let touched := o.killed.any (fun x => x.1 == r)
  if ws.isEmpty then k
  else
    let w := k.warp o.slot
    let get (l : Nat) : Option LaneWrite := ws.find? (fun x => x.lane == l)
    let m := Mask.of (fun l => (get l).isSome)
    let x : Result :=
      { vals := tab (fun l => match get l with
          | some y => y.val
          | none => 0),
        pois := Mask.of (fun l => match get l with
          | some y => y.pois
          | none => false),
        fmt := if touched then (w.reg r).fmt else o.fmt,
        shape := if o.uni then .uniform else .general }
    -- an earlier operation still outstanding is overtaken as by any later write
    let k := k.spoilReg o.slot r m
    let k := { k with ops := k.ops.map (fun p : MemOp => if p.slot = o.slot ∧ p.id < o.id then p.kill r m else p) }
    k.putWarp o.slot (w.write r m x o.window)

/-- Every register of an operation's results. -/
def Column.commit (k : Column) (o : MemOp) : Column :=
  ((o.done.map (fun x => x.reg)).eraseDups).foldl (fun k r => k.commitReg o r) k

/-! ## Waiting -/

/-- The kinds that count in LOADS until their destinations are written (R221, R260). -/
def OpKind.isLoad : OpKind → Bool
  | .load | .uload | .loadT | .lds | .xget | .ret _ | .atom _ _ | .atsc _ _ | .xch => true
  | _ => false

/-- The issuing warp waits for a long-latency dependence: it leaves the active set (R85). -/
def Dev.leave (d : Dev) (x : Wait) : Dev := d.modCurWarp (fun w => { w with wait := x, active := false, entered := d.now })

/-- The issuing warp waits without leaving the active set (R84, R252). -/
def Dev.stay (d : Dev) (x : Wait) : Dev := d.modCurWarp (fun w => { w with wait := x })

/-- Registers that missing loads, or an XCH, of the warp will write (R85, R280). -/
def Column.missing (k : Column) (s : Nat) : List Nat :=
  ((k.ops.filter (fun o => o.slot == s && o.kind.isLoad && (o.missed || o.kind == .xch))).map (fun o => o.resv.map Prod.fst)).flatten

/-- The issuing warp waits for registers that are reserved (R235): for a load that missed, outside the active set (R85). -/
def Dev.holdRegs (d : Dev) (rs : List Nat) : Dev :=
  let v := d.curCol.missing d.cur.slot
  if rs.any (fun r => v.contains r) then d.leave (.regs rs) else d

/-- The issuing warp parks: it leaves the active set and issues nothing until it is woken (R73, R85). -/
def Dev.park (d : Dev) (p : Park) : Dev := d.modCurWarp (fun w => { w with park := p, active := false, entered := d.now })

end Sys2Proof.Machine
end

