-- ==== Sys2Proof/Machine/Slices.lean ====
section
/-! DEFINITION. The caches of a column and the home slices: L1 lines under leases (R203-R206), L2 tags, pins, compression and
bypasses (R208-R213), the slices' records of leases (R244, R245), poisoned and injected sectors (R440, R442, R454). A line's bytes
in L2 are those of the vault list, which the slice keeps coherent (log 10). -/

namespace Sys2Proof.Machine

/-! ## L1 -/

/-- The sets of the L1: C / 4,096 (R203). -/
def Column.l1Sets (k : Column) : Nat := max 1 (4 * ((2097152 - k.poolAcc) / 16384))

/-- The frame of a superblock (R203). -/
def Column.l1Frame (k : Column) (ctx sb : Nat) : Option L1Frame := k.l1.find? (fun f => f.ctx == ctx && f.sb == sb)

/-- Line i of a frame. -/
def L1Frame.line (f : L1Frame) (i : Nat) : L1Line := f.lines[i % 4]'(Nat.mod_lt _ (by decide))

/-- A line is usable before its expiry, a stable one until the kernel boundary (R204). -/
def L1Line.usable (l : L1Line) (now : Nat) : Bool := l.present != 0 && (l.stable || decide (now < l.expiry))

/-- The usable line of an offset with its sector present. -/
def Column.l1Hit (k : Column) (now ctx off : Nat) : Option L1Line :=
  match k.l1Frame ctx (off / 512) with
  | some f =>
    let l := f.line (off / 128)
    if l.usable now && l.present.getLsbD (off / 32 % 4) then some l else none
  | none => none

/-- The byte of an offset in a line. -/
def L1Line.byte (l : L1Line) (off : Nat) : Byte := l.data.extractLsb' (8 * (off % 128)) 8

/-- The older values that a load may still see in a vault word of a stable page (R42). -/
def Column.wasWords (k : Column) (ctx w : Nat) : List Word := (k.was.filter (fun x => x.ctx == ctx && x.word == w)).map OldWord.val

/-- What load number `n` sees of a sector's bytes of a stable page, `old` in the cached copy and `new` in memory: freely one of the
values that an element has had, where another agent has written it (R42); else the cached copy. -/
def Column.seeStable (k : Column) (ctx n va : Nat) (old new : List Byte) : List Byte :=
  ((List.range 8).map (fun j =>
    let w := va / 4 + j
    let o := (old.drop (4 * j)).take 4
    match k.wasWords ctx w with
    | [] => o
    | x :: xs =>
      let vs := BitVec.ofNat 32 (numOf o) :: BitVec.ofNat 32 (numOf ((new.drop (4 * j)).take 4)) :: x :: xs
      bytesOf 4 (vs.getD ((Config.freeElem n w).toNat % vs.length) 0).toNat)).flatten

/-- The poison of an offset's sector in a line. -/
def L1Line.sectorPois (l : L1Line) (off : Nat) : Bool := l.pois.getLsbD (off / 32 % 4)

/-- One bit of a four-bit field set or cleared. -/
def setBit4 (x : BitVec 4) (i : Nat) (b : Bool) : BitVec 4 := if b then x ||| (1#4 <<< i) else x &&& ~~~(1#4 <<< i)

/-- A line's bytes from an offset on replaced. -/
def L1Line.setBytes (l : L1Line) : Nat → List Byte → L1Line
  | _, [] => l
  | off, b :: bs =>
    let i := 8 * (off % 128)
    L1Line.setBytes { l with data := (l.data &&& ~~~((255#1024) <<< i)) ||| ((b.setWidth 1024) <<< i) } (off + 1) bs

/-- A line with nothing present. -/
def L1Line.none : L1Line := { present := 0, expiry := 0, stable := false, data := 0, pois := 0 }

/-- The frame put first in the order of use, or last under the evict-first policy (R203). -/
def Column.l1Put (k : Column) (f : L1Frame) (last : Bool) : Column :=
  let rest := k.l1.filter (fun g => !(g.ctx == f.ctx && g.sb == f.sb))
  { k with l1 := if last then rest ++ [f] else f :: rest }

/-- The last frame of a set in the order of use, when the set holds eight (R203). -/
def Column.l1Victim (k : Column) (sb : Nat) : Option L1Frame :=
  let fs := k.l1.filter (fun f => f.sb % k.l1Sets == sb % k.l1Sets)
  if fs.length < 8 then none else fs.getLast?

/-- A sector of a line arrives: R204's rules for the present bits and the expiry. -/
def L1Line.fill (l : L1Line) (now off : Nat) (bytes : List Byte) (pois : Bool) (expiry : Nat) (stable : Bool) : L1Line :=
  let ok := l.usable now
  let l : L1Line := if ok then { l with expiry := min l.expiry expiry } else { L1Line.none with expiry := expiry }
  let i := off / 32 % 4
  let l := l.setBytes (off / 32 * 32) bytes
  { l with present := setBit4 l.present i true, pois := setBit4 l.pois i pois, stable := stable }

/-- The sectors of one line filled into a frame. -/
def L1Frame.fill (f : L1Frame) (now : Nat) (secs : List (Nat × List Byte × Bool)) (expiry : Nat) (stable : Bool) : L1Frame :=
  secs.foldl (fun f x => { f with lines := f.lines.set (x.1 / 128 % 4) ((f.line (x.1 / 128)).fill now x.1 x.2.1 x.2.2 expiry stable)
                                             (Nat.mod_lt _ (by decide)) }) f

/-- The sectors of a request, all of one line, filled into the L1 (R203, R204, R206). The frame becomes the latest used; under the
evict-first policy (`last`) an absent one is allocated as the least recently used, and a present one keeps its place. -/
def Column.l1Fill (k : Column) (now ctx : Nat) (secs : List (Nat × List Byte × Bool)) (expiry : Nat) (stable last : Bool) : Column :=
  let sb := (secs.head?.map Prod.fst).getD 0 / 512
  match k.l1Frame ctx sb with
  | some f =>
    let f := f.fill now secs expiry stable
    if last then { k with l1 := k.l1.map (fun g : L1Frame => if g.ctx = f.ctx ∧ g.sb = f.sb then f else g) } else k.l1Put f false
  | none =>
    let k := match k.l1Victim sb with
      | some v => { k with l1 := k.l1.filter (fun g => !(g.ctx == v.ctx && g.sb == v.sb)) }
      | none => k
    k.l1Put ((({ ctx := ctx, sb := sb, lines := Vector.replicate 4 L1Line.none } : L1Frame)).fill now secs expiry stable) last

/-- The usable line of an offset changed, where its sector is present. -/
def Column.l1Mod (k : Column) (now ctx off : Nat) (f : L1Line → L1Line) : Column :=
  { k with l1 := k.l1.map (fun g : L1Frame =>
      if g.ctx = ctx ∧ g.sb = off / 512 then
        let l := g.line (off / 128)
        if l.usable now && l.present.getLsbD (off / 32 % 4) then
          { g with lines := g.lines.set (off / 128 % 4) (f l) (Nat.mod_lt _ (by decide)) }
        else g
      else g) }

/-- A store updates the bytes that a usable line holds in a present sector (R205). -/
def Column.l1Store (k : Column) (now ctx off : Nat) (bytes : List Byte) : Column := k.l1Mod now ctx off (fun l => l.setBytes off bytes)

/-- Every line of a context that a test selects is dropped from the L1 (R228, R253, R41). -/
def Column.l1Drop (k : Column) (ctx : Nat) (p : Nat → L1Line → Bool) : Column :=
  { k with l1 := k.l1.map (fun f : L1Frame =>
      if f.ctx = ctx then
        { f with lines := Vector.ofFn (fun i : Fin 4 => let l := f.line i.val
                                                        if p (f.sb * 512 + i.val * 128) l then L1Line.none else l) }
      else f) }

/-- The acquire's drop: every line of the context but those of stable pages (R253). -/
def Column.acquire (k : Column) (ctx : Nat) : Column := k.l1Drop ctx (fun _ l => !l.stable)

/-- One line's drop by an atomic or a load under the L2-only policy (R205, R246). -/
def Column.l1DropLine (k : Column) (ctx off : Nat) : Column := k.l1Drop ctx (fun o _ => o == off / 128 * 128)

/-! ## L2 -/

/-- The slice of a vault address (R207). -/
def sliceOf (va : Nat) : Nat := va / 512 % 4

/-- The tag of a superblock. -/
def Column.l2Tag (k : Column) (sb : Nat) : Option L2Tag := k.l2.find? (fun t => t.sb == sb)

/-- Line i of a tag. -/
def L2Tag.line (t : L2Tag) (i : Nat) : L2Line := t.lines[i % 4]'(Nat.mod_lt _ (by decide))

/-- The tag with line i changed. -/
def L2Tag.setLine (t : L2Tag) (i : Nat) (l : L2Line) : L2Tag := { t with lines := t.lines.set (i % 4) l (Nat.mod_lt _ (by decide)) }

/-- A tag with a pinned line is pinned (R212). -/
def L2Tag.pinned (t : L2Tag) : Bool := t.lines.toList.any (fun l => l.pinned)

/-- Two superblocks lie in one set of one slice (R208). -/
def sameSet (a b : Nat) : Bool := a % 2048 == b % 2048

/-- The word bitmap of a line (R210): a bit for each 4-byte word that is not zero. -/
def Memory.lineMap (m : Memory) (c line : Nat) : BitVec 32 := Mask.of (fun j => m.num (vkey c (line * 128 + 4 * j)) 4 != 0)

/-- The words that a line occupies in its slot (R210, R438): none where it is not valid, all 32 where it is pinned, uncompressed or
poisoned. -/
def L2Line.words (l : L2Line) : Nat :=
  if !l.valid then 0 else if l.pinned || !l.zc || l.pois then 32 else (Mask.list l.map).length

/-- First fit of the lines of a superblock in ascending order, given their words and the words in each slot opened so far (R210): the
slot of each and the words before it there. A line of no words takes no slot. -/
def firstFit : List Nat → List Nat → List (Option (Nat × Nat))
  | _, [] => []
  | bins, x :: xs =>
    if x = 0 then none :: firstFit bins xs
    else match bins.findIdx? (fun b => b + x ≤ 32) with
      | some i => some (i, bins.getD i 0) :: firstFit (bins.set i (bins.getD i 0 + x)) xs
      | none => some (bins.length, 0) :: firstFit (bins ++ [x]) xs

/-- The lines of a tag by first fit. -/
def L2Tag.fits (t : L2Tag) : List (Option (Nat × Nat)) := firstFit [] (t.lines.toList.map L2Line.words)

/-- The data slots of its set that a tag's lines occupy. -/
def L2Tag.slots (t : L2Tag) : List Nat := (t.lines.toList.filterMap (fun l => l.place.map Prod.fst)).eraseDups

/-- The data slots of a set that other superblocks leave free. -/
def Column.freeSlots (k : Column) (sb : Nat) : List Nat :=
  let used := ((k.l2.filter (fun t => sameSet t.sb sb && t.sb != sb)).map L2Tag.slots).flatten
  (List.range 16).filter (fun i => !used.contains i)

/-- The tag with its lines placed in slots of a list. -/
def L2Tag.placed (t : L2Tag) (free : List Nat) : L2Tag :=
  let fs := t.fits
  { t with lines := Vector.ofFn (fun i : Fin 4 =>
      { t.line i.val with place := (fs.getD i.val none).map (fun p => (free.getD p.1 0, p.2)) }) }

/-- A tag leaves the slice: its lines' expiries are folded into the lease horizon (R244). -/
def Column.l2Evict (k : Column) (sb : Nat) : Column :=
  match k.l2Tag sb with
  | none => k
  | some t =>
    let e := t.lines.toList.foldl (fun m l => max m l.expiry) 0
    { k with l2 := k.l2.filter (fun x => x.sb != sb),
             horizon := k.horizon.set (sb % 4) (max (k.horizon[sb % 4]'(Nat.mod_lt _ (by decide))) e)
                          (Nat.mod_lt _ (by decide)) }

/-- The least recently used tag of a set without a pinned line, other than one superblock's own (R208). -/
def Column.l2Victim (k : Column) (sb : Nat) (own : Bool) : Option Nat :=
  ((k.l2.filter (fun t => sameSet t.sb sb && !t.pinned && (own || t.sb != sb))).getLast?).map (fun t => t.sb)

/-- A line with no record. -/
def L2Line.none : L2Line := { valid := false, dirty := false, pinned := false, zc := false, expiry := 0 }

/-- A line that leaves the L2 with its tag staying: its lease record stays. -/
def L2Line.drop (l : L2Line) : L2Line := { l with valid := false, dirty := false, place := .none }

/-- The tag of a superblock replaced where it stands. -/
def Column.l2Set (k : Column) (t : L2Tag) : Column := { k with l2 := k.l2.map (fun x : L2Tag => if x.sb = t.sb then t else x) }

/-- The lines of a tag fit into a number of slots. -/
def L2Tag.fitsIn (t : L2Tag) (n : Nat) : Bool := t.fits.all (fun x => match x with
  | some p => decide (p.1 < n)
  | none => true)

/-- What a superblock keeps where its set frees no more slots (R213): its dirty lines are written back and dropped, but pinned ones; where the
others do not fit either, so are the clean ones, of which the rule says nothing (DESIGN CHOICE, log 129). Pins hold, but one that is being set on
a line without a slot is not. -/
def L2Tag.shed (t : L2Tag) (n : Nat) : L2Tag :=
  let less (p : L2Line → Bool) : L2Tag :=
    { t with lines := t.lines.map (fun l : L2Line => if (l.pinned && l.place.isSome) || !p l then l else { l.drop with pinned := false }) }
  let u := less (fun l => l.pinned || l.dirty)
  if u.fitsIn n then u else less (fun _ => true)

/-- The lines of a superblock repacked from scratch (R210). Where the set has too few free slots, its least recently used tags leave;
where none is left to leave, lines of the superblock are dropped, once, which L2_BYPASS counts (R213). -/
def Column.l2Repack (sb : Nat) : Nat → Column → Column
  | 0, k => k
  | n + 1, k =>
    match k.l2Tag sb with
    | none => k
    | some t =>
      let free := k.freeSlots sb
      if t.fitsIn free.length then k.l2Set (t.placed free)
      else match k.l2Victim sb false with
        | some v => Column.l2Repack sb n (k.l2Evict v)
        | none => { k.l2Set ((t.shed free.length).placed free) with l2Bypass := k.l2Bypass + 1 }

/-- A set refuses a request: it needs a tag and all tags are pinned, or a data slot (`slot`) and all slots hold pinned lines (R213). -/
def Column.l2Full (k : Column) (sb : Nat) (slot : Bool) : Bool :=
  let ts := k.l2.filter (fun t => sameSet t.sb sb)
  let pins : Nat := (ts.map (fun t : L2Tag => (t.lines.toList.filter (fun l => l.pinned)).length)).sum
  ((k.l2Tag sb).isNone && decide (16 ≤ (ts.filter L2Tag.pinned).length)) || (slot && decide (16 ≤ pins))

/-- A missing line allocated with the record given (R208, R209): its tag becomes the latest used, or the least under evict-first, and so does a
tag that other lines of the superblock have brought already (R206; DESIGN CHOICE, log 130); a set of 16 tags loses its least recently
used one. -/
def Column.l2Enter (k : Column) (va : Nat) (l : L2Line) (last : Bool) : Column :=
  let sb := va / 512
  let k := if (k.l2Tag sb).isNone && decide (16 ≤ (k.l2.filter (fun t => sameSet t.sb sb)).length) then
      match k.l2Victim sb true with
      | some v => k.l2Evict v
      | none => k
    else k
  let t := (k.l2Tag sb).getD { sb := sb, lines := Vector.replicate 4 L2Line.none }
  let old := t.line (va / 128)
  let t := t.setLine (va / 128) { l with expiry := old.expiry }
  let rest := k.l2.filter (fun x => x.sb != sb)
  Column.l2Repack sb 32 { k with l2 := if last then rest ++ [t] else t :: rest }

/-- The tag of a line becomes the latest used. -/
def Column.l2Use (k : Column) (va : Nat) : Column :=
  match k.l2Tag (va / 512) with
  | some t => { k with l2 := t :: k.l2.filter (fun x => x.sb != va / 512) }
  | none => k

/-- The line of a vault address is valid in L2. -/
def Column.l2Valid (k : Column) (va : Nat) : Bool :=
  match k.l2Tag (va / 512) with
  | some t => (t.line (va / 128)).valid
  | none => false

/-- A change of one line's tag bits. -/
def Column.l2Mod (k : Column) (va : Nat) (f : L2Line → L2Line) : Column :=
  { k with l2 := k.l2.map (fun t : L2Tag => if t.sb = va / 512 then t.setLine (va / 128) (f (t.line (va / 128))) else t) }

/-- A change of one line's tag bits, with its superblock repacked: a pin, or the bitmap that a write leaves (R210, R212). -/
def Column.l2Change (k : Column) (va : Nat) (f : L2Line → L2Line) : Column := Column.l2Repack (va / 512) 32 (k.l2Mod va f)

/-- Every pin of a column's L2 ends (R212). -/
def Column.l2Unpin (k : Column) : Column :=
  (((k.l2.filter L2Tag.pinned).map L2Tag.sb)).foldl (fun k sb => Column.l2Repack sb 32 k)
    { k with l2 := k.l2.map (fun t : L2Tag => { t with lines := t.lines.map (fun l : L2Line => { l with pinned := false }) }) }

/-- Lx: the slice's recorded expiry for the line, or its lease horizon where it holds no record (R245). -/
def Column.lx (k : Column) (va : Nat) : Nat :=
  let h := k.horizon[sliceOf va % 4]'(Nat.mod_lt _ (by decide))
  match k.l2Tag (va / 512) with
  | some t => let e := (t.line (va / 128)).expiry; if e = 0 then h else e
  | none => h

/-- GWCT of a write performed now (R245); on a stable page no lease covers it (R270). -/
def gwct (now lx : Nat) : Nat := max now lx + 4

/-- A vault address lies under a completed claim, or under the service claim (R369, R370, R376). -/
def Column.claimed (k : Column) (va : Nat) : Bool :=
  k.hand.claims.any (fun c => c.done && decide (c.off ≤ va) && decide (va < c.off + c.len)) || k.hand.service == some (va / 1024)

/-! ## The vault controller -/

/-- A counter that reaches its threshold for the first time sends a record of kind 0x12 (R464): its number, and its value. -/
def Dev.reaches (d : Dev) (col : Option Nat) (die unit block n old new : Nat) : Dev :=
  if old < Config.threshold n ∧ Config.threshold n ≤ new then
    d.record die { kind := 0x12, unit := unit, block := block, col := col, detail := BitVec.ofNat 128 (n + new * 2 ^ 32) }
  else d

/-- A count one higher, stopping at its largest value (R463). -/
def satNext (n bits : Nat) : Nat := min (n + 1) (2 ^ bits - 1)

/-- The counters of a vault bank (R463): one more corrected sector and one more scrub, and a repeat-row hit where the row is among
the last four. Counters 3, 4 and 5 are SCRUB, RROW and CSEC. -/
def Dev.corrected (d : Dev) (c va : Nat) : Dev :=
  let bank := va / 1024 % 32
  let row := va / 32768
  let a := d.banks.getD (c * 32 + bank) { csec := 0, rrow := 0, scrub := 0, rows := [] }
  let b : BankCounter := {
    csec := satNext a.csec 32, rrow := if a.rows.contains row then satNext a.rrow 16 else a.rrow,
    scrub := satNext a.scrub 16, rows := (row :: a.rows.filter (· != row)).take 4 }
  let d : Dev := { d with banks := d.banks.set (c * 32 + bank) b }
  let hit (d : Dev) (n old new : Nat) : Dev := d.reaches (some c) (dieOf c) 0x13 bank n old new
  hit (hit (hit d 3 a.scrub b.scrub) 4 a.rrow b.rrow) 5 a.csec b.csec

/-- A sector is marked poisoned, or its mark is removed (R440, R442). -/
def Dev.setPois (d : Dev) (key : Nat) (b : Bool) : Dev :=
  let rest := d.vaultPois.filter (· != key / 32)
  { d with vaultPois := if b then key / 32 :: rest else rest }

/-- A vault sector is poisoned (R438, R440). -/
def Dev.poisoned (d : Dev) (key : Nat) : Bool := d.vaultPois.contains (key / 32)

/-- Some sector of the line of a vault address is poisoned. -/
def Dev.linePois (d : Dev) (c va : Nat) : Bool := (List.range 4).any (fun i => d.poisoned (vkey c (va / 128 * 128 + 32 * i)))

/-- The bank of an address (R367). -/
def bankOf (a : Nat) : Nat := a / 1024 % 32

/-- The tick at which the row operation or queue entry under way has its last phase behind it. -/
def RowRun.over (r : RowRun) : Nat := r.ends.getLastD 0

/-- The stagehand has the bank for a phase under way (R381). -/
def BankTimes.holds (b : BankTimes) (now bank : Nat) : Bool :=
  match b.run with
  | some r => r.bank == bank && decide (now < r.over)
  | none => false

/-- The stagehand keeps a bank after a window until a phase that begins now has run (R381). -/
def BankTimes.keepUntil (b : BankTimes) (bank end_ : Nat) : BankTimes :=
  if b.kept.get? bank = some none then { b with kept := b.kept.set bank (some end_) } else b

/-- An ordinary request at a bank (R381): a row operation or queue entry under way there is suspended at the end of its phase, or of that which the
stagehand keeps the bank for after a window, the bank is precharged, and a window of 64 ticks at most opens. -/
def BankTimes.request (b : BankTimes) (now bank : Nat) : BankTimes :=
  match b.run with
  | none => b
  | some r =>
    if !b.holds now bank || b.windows.has bank || b.kept.get? bank == some none then b
    else
      let least := ((b.kept.get? bank).bind id).getD 0
      let later := r.ends.filter (fun e => decide (now < e))
      let e := (later.find? (fun e => decide (least ≤ e))).getD r.over
      let past := later.filter (fun x => decide (e ≤ x))
      { b with windows := b.windows.set bank (e + 8 + 64),
               run := some { r with ends := later.filter (fun x => decide (x ≤ e)), rest := (past.zip (past.drop 1)).map (fun x => x.2 - x.1) } }

/-- The tick from which a bank may serve an ordinary request that comes after all others (R381): those before it are over, and a window is open, or
the stagehand has the bank no more. -/
def BankTimes.serviceFrom (b : BankTimes) (now bank : Nat) : Nat :=
  max (max now (b.busy.getD bank 0)) (match b.windows.get? bank with
    | some t => t - 64
    | none => if b.holds now bank then (b.run.map RowRun.over).getD 0 else 0)

/-- The ticks at which phases of given lengths end, from a tick on. -/
def phaseEnds : Nat → List Nat → List Nat
  | _, [] => []
  | t, p :: ps => (t + p) :: phaseEnds (t + p) ps

/-- The window at the bank where the stagehand works closes, and it takes the bank again (R381): when no request is pending there (`wanted`) or 64
ticks have passed, and the request under service is done. It reactivates its row, if that was open, and goes on with its phases;
another window can open only after the reactivation and the phase after it, and then serves the requests that are left. -/
def Hand.resume (h : Hand) (now : Nat) (wanted : Bool) : Hand :=
  match h.banks.run with
  | none => h
  | some r =>
    match h.banks.windows.get? r.bank with
    | none => h
    | some t =>
      let b := max (h.banks.busy.getD r.bank 0) (t - 64)
      -- the requests that the bank has not begun to serve when the 64 ticks pass
      let left := (b - t) / 24
      let close := if b ≤ t then (if wanted then t else b) else b - 24 * left
      if now < close then h
      else
        let ps := (if r.row.isNone || r.rest.head? == some 16 then [] else [16]) ++ r.rest
        let ends := phaseEnds close ps
        let open_ := match r.row with
          | some w => h.openRow.set r.bank w
          | none => h.openRow
        let kept := match r.rest with
          | [] => none
          | _ :: _ => ends[ps.length - r.rest.length]?
        let h : Hand := { h with openRow := open_, banks := { h.banks with
            windows := h.banks.windows.del r.bank, run := some { r with ends := ends, rest := [] },
            free := ends.getLastD close, kept := h.banks.kept.set r.bank kept } }
        if left = 0 then h
        else
          let q : BankTimes := { h.banks with busy := h.banks.busy.set r.bank close }
          let q := q.request close r.bank
          { h with openRow := h.openRow.del r.bank, banks := { q with busy := q.busy.set r.bank (q.serviceFrom close r.bank + 24 * left) } }

/-- An ordinary access at a bank: it is served after those before it, holds the bank for 24 ticks and leaves it closed (R368, R381). -/
def Hand.ordinary (h : Hand) (now bank : Nat) : Hand :=
  let h := match h.banks.run with
    | some r => if r.bank = bank then h.resume now true else h
    | none => h
  let b := h.banks.request now bank
  { h with openRow := h.openRow.del bank, banks := { b with busy := b.busy.set bank (b.serviceFrom now bank + 24) } }

/-- An ordinary access holds a bank and leaves it closed (R368). -/
def Dev.bankShut (d : Dev) (c va : Nat) : Dev := d.modCol c (fun k => { k with hand := k.hand.ordinary d.now (bankOf va) })

/-- A read of a sector in its bank: an injected error is reported exactly once (R454): an uncorrectable one poisons the sector and is
recorded with a free syndrome (log 7), a corrected one is counted. -/
def Dev.bankRead (d : Dev) (c va : Nat) : Dev :=
  let key := vkey c va / 32
  match d.inject.find? (fun x => x.1 == key) with
  | none => d
  | some (_, ce) =>
    let d := { d with inject := d.inject.filter (fun x => x.1 != key) }
    if ce then d.corrected c va
    else
      let (a, d) := d.draw
      let (b, d) := d.draw
      (d.setPois (vkey c va) true).recordCol c
        { kind := 0x01, unit := 0x13, block := va / 1024 % 32, synd := a ++ b,
          detail := BitVec.ofNat 128 (va / 32 * 32 + va / 32768 * 2 ^ 64) }

/-- A sector read at its controller by an ordinary access (R368). -/
def Dev.controllerRead (d : Dev) (c va : Nat) : Dev := (d.bankShut c va).bankRead c va

/-- Sectors of one line read at their controller, by one access. -/
def Dev.controllerReads (d : Dev) (c : Nat) (secs : List Nat) : Dev :=
  match secs with
  | [] => d
  | a :: _ => secs.foldl (fun d a => d.bankRead c a) (d.bankShut c a)

/-- The values that a claimed word may still be read with while the stagehand writes it (R380). -/
def Hand.oldWords (h : Hand) (now word : Nat) : List Word :=
  (h.banks.olds.filter (fun o => o.word == word && decide (now < o.till))).map HandWord.val

/-- Vault bytes as a reader that is not the stagehand's program sees them: of a word that the stagehand is writing, freely the value
before or after the write (R380), by the number of the read. -/
def State.seen (s : State) (c n va len : Nat) : List Byte :=
  let h := (s.dev.col c).hand
  if h.banks.olds.isEmpty then s.vault.bytes (vkey c va) len
  else
    (s.vault.bytes (vkey c va) len).zipIdx.map (fun b =>
      let a := va + b.2
      match h.oldWords s.dev.now (a / 4) with
      | [] => b.1
      | x :: xs =>
        let vs := BitVec.ofNat 32 (s.vault.num (vkey c (a / 4 * 4)) 4) :: x :: xs
        (vs.getD ((Config.freeElem n (a / 4)).toNat % vs.length) 0).extractLsb' (8 * (a % 4)) 8)

/-- The vault addresses of the four sectors of a line. -/
def lineSectors (va : Nat) : List Nat := (List.range 4).map (fun i => va / 128 * 128 + 32 * i)

/-- The home slices leave a line to the vault: a claim covers it, or a slice of the column is under rehearsal (R207, R370). -/
def Column.aside (k : Column) (va : Nat) : Bool := k.claimed va || k.rehearsing

/-- A request for a line that misses bypasses its set (R213): the line needs no slot where it is compressed and zero, as it stands, or, for a
store, as the store leaves it (`s.ahead`). -/
def State.l2Refuses (s : State) (c va : Nat) (zc : Bool) : Bool :=
  (s.dev.col c).l2Full (va / 512) (!zc || s.dev.linePois c va || s.vault.lineMap c (va / 128) != 0)

/-- A line that misses in L2 brought in: bypassed and counted (R213), or allocated, after its sectors `secs` have been read (R209). -/
def State.l2Bring (s : State) (c va : Nat) (zc last : Bool) (secs : List Nat) : Dev :=
  let d := s.dev
  if s.l2Refuses c va zc then
    d.modCol c (fun k => { k with l2Bypass := k.l2Bypass + 1 })
  else
    let d := d.controllerReads c secs
    let l : L2Line := { L2Line.none with valid := true, zc := zc, map := s.vault.lineMap c (va / 128), pois := d.linePois c va }
    d.modCol c (fun k => k.l2Enter va l last)

/-- The line of a vault address as a write has left it in L2 (R210): its bitmap, its poison, and its superblock repacked where they have
changed. -/
def State.l2Written (s : State) (c va : Nat) : Dev :=
  let d := s.dev
  if !(d.col c).l2Valid va then d
  else
    let m := s.vault.lineMap c (va / 128)
    let p := d.linePois c va
    d.modCol c (fun k =>
      let l := (k.l2Tag (va / 512)).map (fun t => t.line (va / 128))
      if l.any (fun l => l.map == m && l.pois == p) then k else k.l2Change va (fun l => { l with map := m, pois := p }))

/-- The effective cache policy of an access: CPOL, or the page's CP where CPOL is 00 (R206). -/
def policy (cpol cp : BitVec 2) : Nat := if cpol = 0 then (if cp = 1 then 1 else if cp = 2 then 2 else 0) else cpol.toNat

/-- A page's ZC bit at an access of a line in L2 (R210). -/
def Column.l2Zc (k : Column) (va : Nat) (zc : Bool) : Column :=
  if ((k.l2Tag (va / 512)).map (fun t => (t.line (va / 128)).zc)).getD zc == zc then k else k.l2Change va (fun l => { l with zc := zc })

/-- A request for sectors of one line at its home slice, `va` an address in the line: a claimed one, one under rehearsal, a bypass or a miss
under the no-allocation policy reads the vault and grants nothing; else the line is allocated as the policy says (3: no
allocation), and a lease granted where `lease` is given (R204, R206, R207, R213). The answer is the lease's end. -/
def State.homeRead (s : State) (c va pol : Nat) (zc : Bool) (lease : Option Nat) (secs : List Nat) : Dev × Option Nat :=
  let d := s.dev
  let k := d.col c
  let cold := !k.l2Valid va
  if k.aside va || (pol == 3 && cold) then (d.controllerReads c secs, none)
  else
    let d := if cold then s.l2Bring c va zc (pol == 2) (lineSectors va) else d.modCol c (fun k => (k.l2Use va).l2Zc va zc)
    if !(d.col c).l2Valid va then (if cold then d.controllerReads c secs else d, none)
    else
      match lease with
      | none => (d, none)
      | some n =>
        -- 0: a stable page, which receives no lease (R244)
        if n = 0 then (d, some 0)
        else
          let e := d.now + n
          (d.modCol c (fun k => k.l2Mod va (fun l => { l with expiry := max l.expiry e })), some e)

/-- One sector read at its home slice by an agent that has no policy and takes no lease (R207): a walk, a copy, the walker, a stagehand. It goes under
the normal policy whatever the page's CP (R206; DESIGN CHOICE, log 131). -/
def State.homeSector (s : State) (c va : Nat) (zc : Bool) : Dev := (s.homeRead c va 0 zc none [va / 32 * 32]).1

/-- A write's line at its home slice, `va` an address in the line and `whole` the sectors that the request writes whole: the line
allocated and marked dirty, or the write applied in the vault (R206, R207, R209, R213, R370). The answer is the tick of global
completion: of a claimed row the tick of the vault write plus 4 (R370), else that of R245. -/
def State.homeWrite (s : State) (c va pol : Nat) (zc stable : Bool) (whole : List Nat) : Dev × Nat :=
  let d := s.dev
  let k := d.col c
  let cold := !k.l2Valid va
  let t := gwct d.now (if stable || k.claimed va then 0 else k.lx va)
  if k.aside va || (pol == 3 && cold) then (d.bankShut c va, t)
  else
    let d := if cold then s.l2Bring c va zc (pol == 2) ((lineSectors va).filter (fun a => !whole.contains a))
      else d.modCol c (fun k => (k.l2Use va).l2Zc va zc)
    if !(d.col c).l2Valid va then (d.bankShut c va, t)
    else (d.modCol c (fun k => k.l2Mod va (fun l => { l with dirty := true })), t)

end Sys2Proof.Machine
end

