-- ==== Sys2Proof/Machine/Translate.lean ====
section
/-! DEFINITION. Translation: the walk of a column's own page tables (R34-R38), the column's translation cache (R39), the fault
filter (R425, R426), and the pointer's fields (R27, R28). -/

namespace Sys2Proof.Machine

/-- A failed translation: the fault kind (R429) and the level at which the walk ended (R428). -/
structure Flt where
  kind  : Nat
  level : Nat
  deriving DecidableEq, Repr

/-- The 64 KiB granule of an offset. -/
def granOf (off : Nat) : Nat := off / 65536

/-- A page-table entry of a column's own vault (R35, R37). -/
def State.ptEntry (s : State) (c addr : Nat) : Nat := s.vault.num (vkey c addr) 8

/-- Bits [h:l] of a number. -/
def bitsOf (x h l : Nat) : Nat := x / 2 ^ l % 2 ^ (h - l + 1)

/-- A present entry is malformed at its level (R38). -/
def entryBad (level e : Nat) : Bool :=
  let typ := bitsOf e 3 2
  let addr := bitsOf e 39 16
  bitsOf e 63 40 != 0 || bitsOf e 15 11 != 0 || typ == 3 ||
    (if typ = 0 then bitsOf e 10 4 != 0 || bitsOf e 1 1 != 0 || level == 2
     else (typ == 1 && level != 2) || (typ == 2 && level != 1) || bitsOf e 7 6 == 3 || bitsOf e 5 4 == 3 ||
       decide (24575 < addr) || (typ == 2 && addr % 32 != 0))

/-- The translation that a leaf gives a granule (R33, R37). -/
def leafEntry (ctx gran e : Nat) : TlbEntry :=
  let big := bitsOf e 3 2 == 2
  { ctx := ctx, gran := gran, frame := bitsOf e 39 16 + (if big then gran % 32 else 0), w := bitsOf e 1 1 == 1,
    sys := bitsOf e 8 8 == 1, mig := BitVec.ofNat 2 (bitsOf e 7 6), cp := BitVec.ofNat 2 (bitsOf e 5 4), zc := bitsOf e 9 9 == 1,
    stable := bitsOf e 10 10 == 1, big := big }

/-- One level of the walk, and the levels below it (R34, R38). A poisoned entry counts as malformed (R444). -/
def State.walkAt (s : State) (c ctx gran : Nat) : Nat → Nat → Nat → Except Flt TlbEntry
  | 0, level, _ => .error { kind := 5, level := level }
  | n + 1, level, table =>
    let idx := if level = 0 then gran / 2 ^ 14 % 2 ^ 14 else if level = 1 then gran / 2 ^ 5 % 2 ^ 9 else gran % 2 ^ 5
    let addr := table + 8 * idx
    let e := s.ptEntry c addr
    if s.dev.poisoned (vkey c addr) then .error { kind := 5, level := level }
    else if bitsOf e 0 0 = 0 then .error { kind := 0, level := level }
    else if entryBad level e then .error { kind := 5, level := level }
    else if bitsOf e 3 2 = 0 then State.walkAt s c ctx gran n (level + 1) (bitsOf e 39 16 * 256)
    else .ok (leafEntry ctx gran e)

/-- The walk of a column's tables for an offset (R34-R38). -/
def State.walk (s : State) (c ctx off : Nat) : Except Flt TlbEntry :=
  s.walkAt c ctx (granOf off) 3 0 (bitsOf (s.dev.ctx ctx).ptRoot.toNat 23 0 * 256)

/-- The fault kind of an access that a present leaf forbids, first that applies (R38, R429). -/
def TlbEntry.forbids (e : TlbEntry) (write priv : Bool) : Option Nat :=
  if e.sys && !priv then some 2
  else if e.mig = 2 then some 4
  else if write && !e.w then some 1
  else if write && e.mig == 1 then some 3
  else none

/-- A granule is among those for which a column no longer uses an older value of a table word. -/
def OldPte.over (o : OldPte) (ctx gran : Nat) : Bool := o.done.any (fun x => x.1 == ctx && decide (x.2.1 ≤ gran) && decide (gran < x.2.1 + x.2.2))

/-- The values of a table entry that a column may use for a granule: its present one, and those that it had before software changed it, until a
TLBI that covers the page (R39). -/
def State.pteVals (s : State) (c ctx gran addr : Nat) : List (Option Nat) :=
  none :: (((s.dev.col c).oldPtes.filter (fun o => o.addr == addr && !o.over ctx gran)).map (fun o => some o.val))

/-- The walks that a column may make of a granule (R39), that of the present entries first: at each level by the present entry or an older value
of it. -/
def State.walksAt (s : State) (c ctx gran : Nat) : Nat → Nat → Nat → List (Except Flt TlbEntry)
  | 0, level, _ => [.error { kind := 5, level := level }]
  | n + 1, level, table =>
    let idx := if level = 0 then gran / 2 ^ 14 % 2 ^ 14 else if level = 1 then gran / 2 ^ 5 % 2 ^ 9 else gran % 2 ^ 5
    let addr := table + 8 * idx
    ((s.pteVals c ctx gran addr).map (fun v =>
      let e := v.getD (s.ptEntry c addr)
      if v.isNone && s.dev.poisoned (vkey c addr) then [.error { kind := 5, level := level }]
      else if bitsOf e 0 0 = 0 then [.error { kind := 0, level := level }]
      else if entryBad level e then [.error { kind := 5, level := level }]
      else if bitsOf e 3 2 = 0 then State.walksAt s c ctx gran n (level + 1) (bitsOf e 39 16 * 256)
      else [.ok (leafEntry ctx gran e)])).flatten

/-- The walks that use an older value of some entry (R39). -/
def State.oldWalks (s : State) (c ctx off : Nat) : List (Except Flt TlbEntry) :=
  if (s.dev.col c).oldPtes.isEmpty then []
  else (s.walksAt c ctx (granOf off) 3 0 (bitsOf (s.dev.ctx ctx).ptRoot.toNat 23 0 * 256)).tail

/-- A walk with its reads, which are made at the home slices of the column's own vault (R35, R207): an entry whose read reports an uncorrectable
error is malformed (R444). -/
def State.walkReading (s : State) (c ctx gran : Nat) : Nat → Nat → Nat → Except Flt TlbEntry × Dev
  | 0, level, _ => (.error { kind := 5, level := level }, s.dev)
  | n + 1, level, table =>
    let idx := if level = 0 then gran / 2 ^ 14 % 2 ^ 14 else if level = 1 then gran / 2 ^ 5 % 2 ^ 9 else gran % 2 ^ 5
    let addr := table + 8 * idx
    let s : State := { s with dev := s.homeSector c addr false }
    let e := s.ptEntry c addr
    if s.dev.poisoned (vkey c addr) then (.error { kind := 5, level := level }, s.dev)
    else if bitsOf e 0 0 = 0 then (.error { kind := 0, level := level }, s.dev)
    else if entryBad level e then (.error { kind := 5, level := level }, s.dev)
    else if bitsOf e 3 2 = 0 then State.walkReading s c ctx gran n (level + 1) (bitsOf e 39 16 * 256)
    else (.ok (leafEntry ctx gran e), s.dev)

/-! ### Older entries of the tables -/

/-- The listed 8-byte words of [lo, hi). -/
def Memory.listed (m : Memory) (lo hi : Nat) : List Nat := ((m.filter (fun x => decide (lo ≤ x.1) && decide (x.1 < hi))).map (fun x => x.1 / 8 * 8)).eraseDups

/-- The tables of the next level that a table of n bytes points to, by vault address (R34, R37). -/
def State.subTables (s : State) (c level table n : Nat) : List Nat :=
  ((s.vault.listed (vkey c table) (vkey c table + n)).map (fun w => s.vault.num w 8)).filterMap (fun e =>
    if bitsOf e 0 0 = 1 ∧ bitsOf e 3 2 = 0 ∧ !entryBad level e then some (bitsOf e 39 16 * 256) else none)

/-- A vault word of column c belongs to the page tables of a context as they stand (R34, R35). -/
def State.inTables (s : State) (c ctx w : Nat) : Bool :=
  let inside (n table : Nat) : Bool := decide (table ≤ w) && decide (w < table + n)
  let root := bitsOf (s.dev.ctx ctx).ptRoot.toNat 23 0 * 256
  let mids := s.subTables c 0 root 131072
  inside 131072 root || mids.any (fun t => inside 4096 t || (s.subTables c 1 t 4096).any (inside 256))

/-- What the words of a column's page tables held, where a write of vault bytes from `va` on changes them (R39). -/
def State.keepPtes (s : State) (c va : Nat) (bs : List Byte) : Dev :=
  let old (w : Nat) : Nat := s.ptEntry c w
  let new (w : Nat) : Nat := numOf ((List.range 8).map (fun j =>
    if va ≤ w + j ∧ w + j < va + bs.length then bs.getD (w + j - va) 0 else s.vault.byte (vkey c (w + j))))
  let ctxs := (s.dev.ctxs.filter (fun x => (s.dev.ctxCols x.1).contains c)).map Prod.fst
  let ws := ((List.range ((va + bs.length + 7) / 8 - va / 8)).map (fun i => (va / 8 + i) * 8)).filter (fun w =>
    old w != new w && ctxs.any (fun ctx => s.inTables c ctx w))
  if ws.isEmpty then s.dev
  else s.dev.modCol c (fun k => { k with oldPtes := k.oldPtes ++ ws.map (fun w => { addr := w, val := old w, done := [] }) })

/-- A column uses no older entry for the granules of a page any more (R39, R416): n of them from `base` on, or, of an older 2 MiB leaf, all of its
page. -/
def OldPte.forget (ctx base n : Nat) (o : OldPte) : OldPte :=
  let big := bitsOf o.val 0 0 == 1 && bitsOf o.val 3 2 == 2 && n == 1
  { o with done := (if big then (ctx, base / 32 * 32, 32) else (ctx, base, n)) :: o.done }

/-- The translations of granules [base, base + n) leave a column's cache, with the older entries that it could still have walked (R39). -/
def Column.dropXlate (k : Column) (ctx base n : Nat) : Column :=
  { k with
    tlb := k.tlb.filter (fun e => !(e.ctx == ctx && (if e.big then decide (base < e.gran / 32 * 32 + 32) && decide (e.gran / 32 * 32 < base + n)
      else decide (base ≤ e.gran) && decide (e.gran < base + n)))),
    oldPtes := k.oldPtes.map (OldPte.forget ctx base n) }

/-! ### The cache -/

/-- A cached entry serves a granule: its own, or, for a 2 MiB page, any of the page (R39). -/
def TlbEntry.serves (e : TlbEntry) (ctx gran : Nat) : Bool := e.ctx == ctx && (e.gran == gran || (e.big && e.gran / 32 == gran / 32))

/-- A cached entry as the translation of a granule that it serves. -/
def TlbEntry.for_ (e : TlbEntry) (gran : Nat) : TlbEntry := { e with gran := gran, frame := e.frame + gran % 32 - e.gran % 32 }

/-- The cached translations of a granule, of which a column may use any until a TLBI (R39). -/
def Column.cached (k : Column) (ctx gran : Nat) : List TlbEntry :=
  ((k.tlb.filter (fun e => e.serves ctx gran)).map (fun e => e.for_ gran)).eraseDups

/-- A translation put into the cache beside those that it may replace. -/
def Column.cache (k : Column) (e : TlbEntry) : Column :=
  if (k.cached e.ctx e.gran).contains e then k else { k with tlb := e :: k.tlb }

/-- One of a list's members, freely. -/
def Dev.pickOf {α : Type} (d : Dev) (x : α) (xs : List α) : α × Dev :=
  match xs with
  | [] => (x, d)
  | _ :: _ => let (w, d) := d.draw; ((x :: xs).getD (w.toNat % (xs.length + 1)) x, d)

/-- A translation that a walk of the present entries finds: its reads are made, and it is cached. -/
def State.useWalk (s : State) (c ctx off : Nat) : Except Flt TlbEntry × Dev :=
  match s.walkReading c ctx (granOf off) 3 0 (bitsOf (s.dev.ctx ctx).ptRoot.toNat 23 0 * 256) with
  | (.ok e, d) => (.ok e, d.modCol c (fun k => k.cache e))
  | (.error f, d) => (.error f, d)

/-- What a column may use for an offset beside a walk of the present entries (R39): what it has cached, and walks that use an older entry. -/
def State.olderXlates (s : State) (c ctx off : Nat) : List (Except Flt TlbEntry) :=
  ((s.dev.col c).cached ctx (granOf off)).map Except.ok ++ s.oldWalks c ctx off

/-- The translation that a column uses for an offset: a cached one, or, where the tables say otherwise now, freely any of those, one that an older
entry gives, or the walk's (R39). -/
def State.lookup (s : State) (c ctx off : Nat) : Except Flt TlbEntry × Dev :=
  match s.olderXlates c ctx off with
  | [] => s.useWalk c ctx off
  | x :: xs =>
    let known := match s.walk c ctx off with
      | .ok e => ((s.dev.col c).cached ctx (granOf off)).contains e
      | .error _ => false
    let (y, d) := s.dev.pickOf (some x) (xs.map some ++ (if known then [] else [none]))
    match y with
    | some r => (r, d)
    | none => { s with dev := d }.useWalk c ctx off

/-- The open filter entry of a granule (R425, R426), unless it is lifted for the word that is being tried. -/
def Column.filterOf (k : Column) (ctx gran : Nat) : Option FilterEntry :=
  k.filter.find? (fun e => !e.lifted && e.ctx == ctx && e.gran == gran)

/-- The access of a waiter is tried: the entries that wait for it to run again do not hold it (R425, R430). -/
def Column.liftFor (k : Column) (w : Waiter) : Column :=
  { k with filter := k.filter.map (fun e : FilterEntry => if e.rerun.contains w then { e with lifted := true } else e) }

/-- The trial of a waiter is over: the lifted entries hold again. Where the trial has met a fault in such a granule, the entry stays open, the waiter
waits on it with the others that have failed, and the granule is reported anew, once (R430); the union of access types keeps what it had. -/
def Column.unlift (k : Column) (w : Waiter) : Column :=
  let twin (e : FilterEntry) (b : Bool) : Option FilterEntry := k.filter.find? (fun f => f.lifted == b && f.ctx == e.ctx && f.gran == e.gran)
  { k with filter := (k.filter.filter (fun e => e.lifted || (twin e true).isNone)).map (fun e : FilterEntry =>
      if e.lifted then
        match twin e false with
        | some f =>
          let e : FilterEntry := { e with lifted := false, acc := e.acc ||| f.acc, rerun := e.rerun.filter (· != w) }
          if e.again then e else { e with kind := f.kind, level := f.level, sent := false, again := true, tick := f.tick }
        | none => { e with lifted := false }
      else e) }

/-- The fault of an access that a leaf forbids: the walk ended at the middle level for a 2 MiB leaf, else at the leaf level (R34, R428). -/
def TlbEntry.denied (e : TlbEntry) (kind : Nat) : Flt := { kind := kind, level := if e.big then 1 else 2 }

/-- The translation of an access: an open filter entry of the granule makes it wait (R425); else the lookup and the leaf's
permissions (R38). The answer holds the entry, or the fault. -/
def State.translate (s : State) (c ctx off : Nat) (write priv : Bool) : Except Flt TlbEntry × Dev :=
  match (s.dev.col c).filterOf ctx (granOf off) with
  | some f => (.error { kind := f.kind, level := f.level }, s.dev)
  | none =>
    match s.lookup c ctx off with
    | (.error f, d) => (.error f, d)
    | (.ok e, d) =>
      match e.forbids write priv with
      | some k => (.error (e.denied k), d)
      | none => (.ok e, d)

/-- The vault address of an offset under a translation (R33). -/
def TlbEntry.va (e : TlbEntry) (off : Nat) : Nat := e.frame * 65536 + off % 65536

/-- The kinds of access in a fault's union (R428). -/
inductive AccKind where
  | load | store | atomic | fetch | copy | mldb | walker | nmatom
  deriving DecidableEq, Repr

/-- The union bit of an access kind (R428). -/
def AccKind.bit : AccKind → BitVec 8
  | .load => 0x01
  | .store => 0x02
  | .atomic => 0x04
  | .fetch => 0x08
  | .copy => 0x10
  | .mldb => 0x20
  | .walker => 0x40
  | .nmatom => 0x80

/-- A failed translation at a column's fault filter: it joins the granule's entry or opens one (R426). Entries past the sixteenth
wait unsent in the list, so that no fault is lost. -/
def Column.report (k : Column) (now ctx gran : Nat) (f : Flt) (a : AccKind) : Column :=
  match k.filterOf ctx gran with
  | some _ =>
    { k with filter := k.filter.map (fun e : FilterEntry =>
        if e.ctx = ctx ∧ e.gran = gran then { e with acc := e.acc ||| a.bit } else e) }
  | none =>
    { k with filter := k.filter ++ [{ ctx := ctx, gran := gran, kind := f.kind, level := f.level, acc := a.bit, sent := false,
                                      tick := now }] }

/-- A fault reported at a column. -/
def Dev.report (d : Dev) (c ctx gran : Nat) (f : Flt) (a : AccKind) : Dev := d.modCol c (fun k => k.report d.now ctx gran f a)

/-! ## Pointers -/

/-- A pointer's selector, reserved field and offset (R27). -/
def ptrSel (p : BitVec 64) : Nat := (p.extractLsb' 53 11).toNat
/-- Bits [52:44] of a pointer, zero in every pointer that is dereferenced (R27). -/
def ptrRsv (p : BitVec 64) : Nat := (p.extractLsb' 44 9).toNat
/-- The offset of a pointer (R27). -/
def ptrOff (p : BitVec 64) : Nat := (p.extractLsb' 0 44).toNat

/-- The self pointer to an offset (R28). -/
def selfPtr (off : Nat) : BitVec 64 := (0x7FF#11 ++ 0#9 ++ BitVec.ofNat 44 off)

/-- The selector of an ordinary access: self, or the executing column (R29). -/
def ownSel (c : Nat) (p : BitVec 64) : Bool := ptrRsv p == 0 && (ptrSel p == 0x7FF || ptrSel p == c)

end Sys2Proof.Machine
end

