-- ==== Sys2Proof/Machine/Waiters.lean ====
section
/-! DEFINITION. Who waits on an entry of a column's fault filter (R426), and how a waiter's access runs again after a retry (R425, R430). -/

namespace Sys2Proof.Machine

/-- The replays of a graph whose home is a column. -/
def Dev.homeReplays (d : Dev) (c ctx : Nat) : List Replay := d.replays.vals.filter (fun x => x.ctx == ctx && x.home == c)

/-- The partition that begins at a column. -/
def Dev.partAt (d : Dev) (c : Nat) : Option Nat := (d.parts.find? (fun x => x.2.first == c)).map Prod.fst

/-- A granule answers a test, if there is one. -/
def heldBy (p : Nat → Bool) (g : Option Nat) : Bool :=
  match g with
  | some g => p g
  | none => false

/-- The launches of a ring whose reads a fault holds, at the partition's lowest column (R62). -/
def Dev.heldLaunches (d : Dev) (c ctx : Nat) (p : Nat → Bool) : List CmdEntry :=
  match d.partAt c with
  | none => []
  | some n => ((d.ring (.part n)).waiting.filter (fun x => x.1.ctx.toNat == ctx && heldBy p x.2)).map Prod.fst

/-- The nodes of a context's replays that a fault of column c holds: in the column that its reading names, else in the graph's home (R62, R433). -/
def Dev.heldNodes (d : Dev) (c ctx : Nat) (p : Nat → Bool) : List (Replay × Nat) :=
  ((d.replays.vals.filter (fun x => x.ctx == ctx)).map (fun x =>
    (x.nodes.zipIdx.filter (fun n => n.1.hcol.getD x.home == c && heldBy p n.1.held)).map (fun n => (x, n.2)))).flatten

/-- The engine commands of a context that column c's faults hold at granules (R433). -/
def Dev.heldEngines (d : Dev) (c ctx : Nat) (p : Nat → Bool) : List Waiter :=
  let k := d.col c
  (k.copies.filter (fun x => x.ctx == ctx && heldBy p x.held)).map (fun x => .copy x.id) ++
    ([0, 1].map (fun q => ((k.tileQ.toList.getD q []).filter (fun o => o.ctx == ctx && heldBy p o.held)).map (fun _ => Waiter.tile q))).flatten ++
    ((d.homeReplays c ctx).filter (fun x => heldBy p x.held)).map (fun x => .replay x.id) ++
    (d.heldNodes c ctx p).map (fun x => .node x.1.id x.2) ++
    (d.heldLaunches c ctx p).map (fun e => .launch ((d.partAt c).getD 0) e.seq)

/-- The warps of a context that a granule holds (R422). -/
def Column.heldWarps (k : Column) (ctx gran : Nat) : List (Nat × Warp) :=
  k.warps.filter (fun w => w.2.ctx == ctx && (match w.2.wait with
    | .translation gs _ _ => gs.contains gran
    | _ => false))

/-- The waiting side-log entries of a granule, in log order (R431). -/
def Column.logOf (k : Column) (ctx gran : Nat) : List LogEntry := k.log.filter (fun e => e.ctx == ctx && e.gran == gran && e.state == 1)

/-- Those of a granule's waiters that are held with an access to run again (R422, R433). -/
def Dev.held_ (d : Dev) (c ctx gran : Nat) : List Waiter :=
  ((d.col c).heldWarps ctx gran).map (fun w => .warp w.1) ++ d.heldEngines c ctx (· == gran)

/-- An engine command that a retry has let run again waits on its entry until it has. -/
def FilterEntry.engines (f : FilterEntry) : Nat := (f.rerun.filter (fun w => match w with
  | .warp _ => false
  | _ => true)).length

/-- The waiter count of a filter entry (R426): held instructions, side-log entries and held engine commands. -/
def Dev.waiters (d : Dev) (c ctx gran : Nat) : Nat :=
  (d.held_ c ctx gran).length + ((d.col c).logOf ctx gran).length +
    (((d.col c).filter.find? (fun f => f.ctx == ctx && f.gran == gran)).map FilterEntry.engines).getD 0

/-- A column's filter without a granule's entry. -/
def Column.closeFilter (k : Column) (ctx gran : Nat) : Column :=
  { k with filter := k.filter.filter (fun f => !(f.ctx == ctx && f.gran == gran)) }

/-- The entry of a granule changed. -/
def Column.modFilter (k : Column) (ctx gran : Nat) (f : FilterEntry → FilterEntry) : Column :=
  { k with filter := k.filter.map (fun e : FilterEntry => if e.ctx = ctx ∧ e.gran = gran then f e else e) }

/-- The last of a retry's held accesses has run again and none has faulted anew: with no waiter left the entry closes (R425); for those that have come
since, the column goes on as after a retry, as its own resolution of number 0 that no record has (log 119). -/
def Dev.settleFilter (d : Dev) (c ctx gran : Nat) : Dev :=
  if d.waiters c ctx gran = 0 then d.modCol c (fun k => k.closeFilter ctx gran)
  else { d with resolutions := d.resolutions ++ [{ part := (d.ctx ctx).part, rseq := 0, ctx := ctx, gran := gran, verdict := .retry, cols := [c] }] }

/-- A waiter's access has run again (R425), or never will: each entry that waited for it goes on with the others. -/
def Dev.ranAgain (d : Dev) (c : Nat) (w : Waiter) : Dev :=
  ((d.col c).filter.filter (fun f => f.rerun.contains w)).foldl (fun (d : Dev) f =>
    let left := f.rerun.filter (· != w)
    let d := d.modCol c (fun k => k.modFilter f.ctx f.gran (fun e => { e with rerun := left }))
    if left.isEmpty && !f.again then d.settleFilter c f.ctx f.gran else d) d

/-- The accesses of a replay and of its nodes that a retry has let run again never will: the replay is over. -/
def Dev.neverAgain (d : Dev) (replay : Nat) : Dev :=
  let ours (w : Waiter) : Bool := match w with
    | .replay r => r == replay
    | .node r _ => r == replay
    | _ => false
  d.cols.foldl (fun (d : Dev) c => ((((c.2.filter.map (fun e => e.rerun.filter ours)).flatten).eraseDups).foldl (fun (d : Dev) w => d.ranAgain c.1 w)) d) d

/-- A turn of a waiter that a retry has let run again: no entry that waits for it holds it meanwhile. -/
def State.trial (s : State) (c : Nat) (w : Waiter) (run : State → State) : State :=
  if (s.dev.col c).filter.any (fun e => e.rerun.contains w) then
    let t := run { s with dev := s.dev.modCol c (fun k => k.liftFor w) }
    { t with dev := (t.dev.modCol c (fun k => k.unlift w)).ranAgain c w }
  else run s

end Sys2Proof.Machine
end

