-- ==== Sys2Proof/Machine/Access.lean ====
section
/-! DEFINITION. Outstanding operations: their start with the counters and the side log (R221, R423), the performing of one request
of a load, a store or an atomic (R223, R244-R247, R259), value ranges (R446), watches (R298), completion and release (R251, R252). -/

namespace Sys2Proof.Machine

/-! ## Lanes of an access -/

/-- The vault address of byte i of a lane's access. -/
def LaneAcc.addr (a : LaneAcc) (i : Nat) : Nat := if i < a.cut then a.va + i else a.va2 + (i - a.cut)

/-- Two accesses share a 4-byte location of a column's offsets (R247). -/
def LaneAcc.overlaps (a b : LaneAcc) : Bool :=
  a.tcol == b.tcol && decide (0 < a.size) && decide (0 < b.size) && decide (a.off / 4 ≤ (b.off + b.size - 1) / 4) &&
    decide (b.off / 4 ≤ (a.off + a.size - 1) / 4)

/-- The offsets of the sectors that an access touches, with the vault address of each. -/
def LaneAcc.sectors (a : LaneAcc) : List (Nat × Nat) :=
  ((List.range a.size).map (fun i => ((a.off + i) / 32 * 32, a.addr i / 32 * 32))).eraseDups

/-- The sectors of several lanes, each once. -/
def sectorsOf (ls : List LaneAcc) : List (Nat × Nat) := ((ls.map LaneAcc.sectors).flatten).eraseDups

/-- The lines of vault bytes that several lanes touch, by column and line number, each once. -/
def linesOf (ls : List LaneAcc) : List (Nat × Nat) :=
  ((ls.map (fun a : LaneAcc => a.sectors.map (fun x => (a.tcol, x.2 / 128)))).flatten).eraseDups

/-- The request of a lane under the coalescer: its line where the address pair is uniform or affine, else its sector (R215). -/
def reqOf (lined : Bool) (off : Nat) : Nat := if lined then off / 128 else off / 32

/-- A translated access in one piece for each sector that it meets (R215): only an FP6 access, or an FP6 element of an LDT, meets two
(R134). The pieces of an FP6 access (`six`) are numbered by their first byte; those of an LDT's element stand under the element's
number and, for the second, 33 above it, with its bits' place as a fifth entry. -/
def LaneAcc.pieces (six ldt : Bool) (a : LaneAcc) : List LaneAcc :=
  let n := 32 - a.off % 32
  let tag (b : LaneAcc) (p : Nat) : LaneAcc := if six then { b with part := some p } else b
  if a.size ≤ n || !(six || ldt) then [tag a 0]
  else
    let b : LaneAcc := { a with off := a.off + n, va := a.addr n, size := a.size - n, cut := a.size - n, req := reqOf a.lined (a.off + n) }
    match ldt, a.dst with
    | true, [r, e, k, w] =>
      [{ a with size := n, cut := n, dst := [r, e, k, 8 * n - k] }, { b with dst := [r, e + 33, 0, w + k - 8 * n, 8 * n - k] }]
    | _, _ => [tag { a with size := n, cut := n } 0, tag b n]

/-- Some data word that reaches a piece of a store is poisoned (R442). -/
def LaneAcc.dirty (a : LaneAcc) : Bool :=
  match a.part with
  | none => a.pois.any id
  | some p => a.pois.zipIdx.any (fun x => x.1 && decide (3 * x.2 < p + a.size) && decide (p < 3 * x.2 + 3))

/-! ## Register words and bytes (R220, R134) -/

/-- A 6-bit packing: three bytes hold four elements (R134). -/
def fp6 (f : BitVec 5) : Bool := f == Fmt.e2m3x4 || f == Fmt.e3m2x4

/-- The register word of three packed FP6 bytes (R133, R134). -/
def unpackFp6 (n : Nat) : Word :=
  BitVec.ofNat 32 (n % 64 + n / 64 % 64 * 2 ^ 8 + n / 4096 % 64 * 2 ^ 16 + n / 262144 % 64 * 2 ^ 24)

/-- The three packed bytes of an FP6 register word. -/
def packFp6 (w : Word) : Nat :=
  let n := w.toNat
  n % 64 + n / 2 ^ 8 % 64 * 64 + n / 2 ^ 16 % 64 * 4096 + n / 2 ^ 24 % 64 * 262144

/-- Chunks of n bytes. -/
def chunks (n : Nat) : Nat → List Byte → List (List Byte)
  | 0, _ => []
  | k + 1, bs => bs.take n :: chunks n k (bs.drop n)

/-- The words that the bytes of a lane's access give its registers (R220). -/
def loadWords (size : Nat) (rec6 signed : Bool) (bs : List Byte) : List Word :=
  if size ≤ 1 then
    let n := 8 * 2 ^ size
    [if signed then BitVec.ofInt 32 (signedOf n (numOf bs)) else BitVec.ofNat 32 (numOf bs)]
  else if rec6 then (chunks 3 (accessRegs size) bs).map (fun c => unpackFp6 (numOf c))
  else (chunks 4 (accessRegs size) bs).map (fun c => BitVec.ofNat 32 (numOf c))

/-- The bytes that a lane's registers store (R220). -/
def storeBytes (size : Nat) (rec6 : Bool) (ws : List Word) : List Byte :=
  if size ≤ 1 then bytesOf (2 ^ size) ((ws.headD 0).toNat)
  else if rec6 then (ws.map (fun w => bytesOf 3 (packFp6 w))).flatten
  else (ws.map (fun w => bytesOf 4 w.toNat)).flatten

/-- The bytes per lane of an access (R220). -/
def laneBytes (size : Nat) (rec6 : Bool) : Nat := if rec6 then 3 * accessRegs size else accessBytes size

/-! ## Value ranges -/

/-- A value lies outside its record's range; a NaN does (R446). -/
def RangeRule.outside (r : RangeRule) (x : FVal) : Bool :=
  let lo := FloatFmt.fp32.value r.lo.toNat
  let hi := FloatFmt.fp32.value r.hi.toNat
  x.isNan || lo.isNan || hi.isNan || decide (FVal.cmp x lo < 0) || decide (0 < FVal.cmp x hi)

/-- A value that is zero or below, negative infinity among them. -/
def FVal.notAbove (x : FVal) : Bool := !x.isNan && (x.neg || x.isZero)

/-- The greatest value of an element format at most x, or the least at least x, as a code (R446). Every value of E8M0 is above 0, so
its least value stands at least x for an x that is not. -/
def toward (f : BitVec 5) (up : Bool) (x : FVal) : Nat :=
  if isFloatFmt f then
    if f = Fmt.e8m0x4 then if up && FVal.notAbove x then 0 else toE8m0 (if up then 3 else 2) true x
    else (floatFmt f).round (if up then 3 else 2) (!(floatFmt f).inf) x
  else intCode f (toIntElem f (if up then 3 else 2) x)

/-- The value of an element format nearest x under RN, as a code (R446). -/
def nearest (f : BitVec 5) (x : FVal) : Nat :=
  if f = Fmt.e8m0x4 && FVal.notAbove x then 0 else (convertElem f 0 (!(floatFmt f).inf) x).1

/-- The code's value under an element format. -/
def codeVal (f : BitVec 5) (c : Nat) : FVal := elemVal f (BitVec.ofNat 32 c) 0

/-- The element that a clamping record writes for one outside its range (R446). -/
def RangeRule.clamp (r : RangeRule) (x : FVal) : Nat :=
  let lo := FloatFmt.fp32.value r.lo.toNat
  let hi := FloatFmt.fp32.value r.hi.toNat
  let up := toward r.fmt true lo
  let dn := toward r.fmt false hi
  if r.outside (codeVal r.fmt up) && r.outside (codeVal r.fmt dn) then nearest r.fmt lo
  else if !x.isNan && decide (0 < FVal.cmp x hi) then dn else up

/-- A word that a record's range rule lets through, with the number of elements outside and the bits of the first (R446, R461). -/
def RangeRule.word (r : RangeRule) (w : Word) : Word × Nat × Word :=
  (List.range (elems r.fmt)).foldl (fun (p : Word × Nat × Word) i =>
    let x := elemVal r.fmt w i
    if r.outside x then
      (if r.act = 2 then insCode r.fmt p.1 i (r.clamp x) else p.1, p.2.1 + 1,
       if p.2.1 = 0 then BitVec.ofNat 32 (elemCode r.fmt w i) else p.2.2)
    else p) (w, 0, 0)

/-- The words of a store after the range rule, poisoned words left as they are, with the number of elements outside and the bits
of the first (R446). -/
def rangeWords (r : Option RangeRule) (ws : List Word) (ps : List Bool) : List Word × Nat × Word :=
  match r with
  | none => (ws, 0, 0)
  | some r =>
    if r.act = 0 then (ws, 0, 0)
    else (List.zip ws ps).foldl (fun (p : List Word × Nat × Word) x =>
      if x.2 then (p.1 ++ [x.1], p.2)
      else
        let (v, n, b) := r.word x.1
        (p.1 ++ [v], p.2.1 + n, if p.2.1 = 0 then b else p.2.2)) ([], 0, 0)

/-- A deferred report queued at a warp, at most four; a further one sets OVF (R400). -/
def Warp.defer (w : Warp) (r : Deferred) : Warp :=
  if w.deferred.length < 4 then { w with deferred := w.deferred ++ [r] } else { w with ovf := true }

/-- What an error record names of a warp (R460): its slot, the first lane and the PC concerned, zero where there is none. -/
structure Concerned where
  slot : Nat := 0
  lane : Nat := 0
  pc   : BitVec 48 := 0

/-- The column's count of elements out of range, and the record of kind 0x05, once for each record index in each kernel (R446). -/
def Dev.outOfRange (d : Dev) (c launch ctx : Nat) (who : Concerned) (r : RangeRule) (n : Nat) (bits : Word) : Dev :=
  let d := d.modCol c (fun k => { k with vrCount := k.vrCount + BitVec.ofNat 64 n })
  if (d.col c).rangeSent.contains (launch, r.idx) then d
  else
    (d.modCol c (fun k => { k with rangeSent := (launch, r.idx) :: k.rangeSent })).recordCol c
      { kind := 0x05, unit := 0, ctx := some ctx, slot := who.slot, lane := who.lane, pc := who.pc,
        detail := BitVec.ofNat 128 (r.idx + bits.toNat * 2 ^ 32) }

/-- The values of the words of vault bytes [va, va + n) kept as those that a load may still see (R42). -/
def State.keepWas (s : State) (tc ctx va n : Nat) : Dev :=
  let ws := (List.range ((va + n + 3) / 4 - va / 4)).map (fun i =>
    ({ ctx := ctx, word := va / 4 + i, val := BitVec.ofNat 32 (s.vault.num (vkey tc ((va / 4 + i) * 4)) 4) } : OldWord))
  s.dev.modCol tc (fun k => { k with was := k.was ++ ws.filter (fun w => !k.was.contains w) })

/-- The same for a write that names no context: for every context of the column's warps. -/
def State.keepStable (s : State) (tc va n : Nat) : Dev :=
  (((s.dev.col tc).warps.map (fun w => w.2.ctx)).eraseDups).foldl (fun d ctx => { s with dev := d }.keepWas tc ctx va n) s.dev

/-- The recorded values of the words that a column's own write of vault bytes from `va` on changes (R42): a load of the column sees that
write, and nothing older. -/
def Column.wasPatch (k : Column) (ctx va : Nat) (bs : List Byte) : Column :=
  { k with was := k.was.map (fun o : OldWord => if o.ctx = ctx then
      { o with val := BitVec.ofNat 32 (numOf ((List.range 4).map (fun i =>
          let a := o.word * 4 + i
          if va ≤ a ∧ a < va + bs.length then bs.getD (a - va) 0 else o.val.extractLsb' (8 * i) 8))) }
    else o) }

/-- A write to a stable page by an agent other than the column's warps: where a kernel of the context runs on the column of the access, its
loads may see the old words until the next kernel boundary (R42). A write that a translation in column c's tables has marked also sends
a record of kind 0x07, once for each page in each kernel (R437). -/
def State.stableMark (s : State) (c : Nat) (a : LaneAcc) (ctx : Nat) : State :=
  let tc := a.tcol
  match ((s.dev.col tc).warps.filter (fun w => w.2.ctx == ctx)).head? with
  | none => s
  | some w =>
    let d := s.keepWas tc ctx a.va a.size
    let page := match s.walk c ctx a.off with
      | .ok e => if e.big then a.off / 2 ^ 21 * 2 ^ 21 else a.off / 65536 * 65536
      | .error _ => a.off / 65536 * 65536
    if (d.col tc).stableSent.contains (w.2.launch, page) then { s with dev := d }
    else
      let d := d.modCol tc (fun k => { k with stableSent := (w.2.launch, page) :: k.stableSent })
      { s with dev := d.recordCol tc { kind := 0x07, unit := 0, ctx := some ctx, detail := BitVec.ofNat 128 page } }

/-! ## Watches -/

/-- A watch's comparison (R296); code 6, which no WATCH has, is that of a cue (R351). -/
def cmpOk (cmp : BitVec 3) (w v : Word) : Bool :=
  match cmp.toNat with
  | 0 => w == v
  | 1 => w != v
  | 2 => decide (w.toInt < v.toInt)
  | 3 => decide (v.toInt ≤ w.toInt)
  | 4 => decide (w.toNat < v.toNat)
  | 5 => decide (v.toNat ≤ w.toNat)
  | 6 => decide ((w - v).toNat < 2 ^ 31)
  | _ => false

/-- A write of bytes [va, va + n) of a column tested against its watch entries: the first satisfying value decides (R297, R298). -/
def State.testWatches (s : State) (c va n : Nat) : State :=
  { s with dev := s.dev.modCol c (fun k => { k with watches := k.watches.map (fun w : Watch =>
      if w.fired.isNone ∧ va < w.va + 4 ∧ w.va < va + n then
        let v := BitVec.ofNat 32 (s.vault.num (vkey c w.va) 4)
        if cmpOk w.cmp v w.value then { w with fired := some (v, 0), pois := s.dev.poisoned (vkey c w.va) } else w
      else w) }) }

/-! ## Operations of a column -/

/-- The operation of a number. -/
def Column.op? (k : Column) (id : Nat) : Option MemOp := k.ops.find? (fun o => o.id == id)

/-- The column with an operation replaced. -/
def Column.setOp (k : Column) (o : MemOp) : Column := { k with ops := k.ops.map (fun p => if p.id = o.id then o else p) }

/-- The column without an operation. -/
def Column.delOp (k : Column) (id : Nat) : Column := { k with ops := k.ops.filter (fun p => p.id != id) }

/-- An operation started at a column: it takes the next number in issue order. -/
def Column.addOp (k : Column) (o : MemOp) : Column := { k with ops := k.ops ++ [{ o with id := k.nextOp }], nextOp := k.nextOp + 1 }

/-- The kinds that count in STORES until every request has its completion time (R221, R260). -/
def OpKind.isStore : OpKind → Bool
  | .store | .ustore | .sts | .xput | .atom _ _ | .ared _ _ | .atsc _ _ | .cue | .gpatch | .cctl _ | .msg => true
  | _ => false

/-- An earlier access of the same warp to a 4-byte location of these lanes is still to be performed, as one outstanding or logged (R222, R247). -/
def Column.overtakes (k : Column) (o : MemOp) (ls : List LaneAcc) : Bool :=
  k.ops.any (fun p => p.slot == o.slot && decide (p.id < o.id) && p.lanes.any (fun a => ls.any (fun b => a.overlaps b))) ||
    k.log.any (fun e => e.slot == o.slot && decide (e.op < o.id) && e.state != 3 && ls.any (fun b => e.acc.overlaps b))

/-- An earlier ST or STU of another warp of the column and context to such a location is sent and still to be performed, and a usable line of the L1
has taken both in the order in which they were sent: the writes of the location are performed in that order, since loads that hit see it
(R205, R247). -/
def Column.behind (k : Column) (now : Nat) (o : MemOp) (ls : List LaneAcc) : Bool :=
  (o.kind == .store || o.kind == .ustore) && k.ops.any (fun p => p.ctx == o.ctx && (p.kind == .store || p.kind == .ustore) &&
    decide (p.id < o.id) && p.lanes.any (fun a => ls.any (fun b => a.overlaps b && (k.l1Hit now o.ctx b.off).isSome)))

/-- The column's own lines of the locations that an access of its has reached at the slice without them leave the L1, but stable ones: no later load
of its warps sees less than that access did (R205, R247). -/
def Column.l1Pass (k : Column) (c ctx : Nat) (ls : List LaneAcc) : Column :=
  ls.foldl (fun (k : Column) a => if a.tcol = c then k.l1Drop ctx (fun o l => o == a.off / 128 * 128 && !l.stable) else k) k

/-- The latest completion times of a warp's operations by observer, with one more (R251, R252). -/
def timesWith (v : Vector Nat 7) (reach : BitVec 7) (t : Nat) : Vector Nat 7 :=
  Vector.ofFn (fun i : Fin 7 => if reach.getLsbD i.val then max v[i] t else v[i])

/-- A column whose operation completes at a tick: the warp's release times take it, or, where the warp has ended, its tracker
entry's (R70, R251). -/
def Column.completeTime (k : Column) (o : MemOp) : Column :=
  match o.entry with
  | some e => { k with tracker := k.tracker.map (fun t : Tracker => if t.id = e then { t with times := timesWith t.times o.reach o.time } else t) }
  | none => k.putWarp o.slot { k.warp o.slot with relTimes := timesWith (k.warp o.slot).relTimes o.reach o.time }

/-- The counter LOADS falls by one. -/
def Warp.unload (w : Warp) : Warp := { w with loads := w.loads - 1 }
/-- The counter STORES falls by one. -/
def Warp.unstore (w : Warp) : Warp := { w with stores := w.stores - 1 }

/-- One word of a return-stack entry has been loaded; with both, the entry stands at the bottom of the warp's part (R160). -/
def Warp.retLoaded (w : Warp) (high : Bool) (v : Word) : Warp :=
  let ws := w.retLoads.set (if high then 1 else 0) (some v)
  match ws with
  | [some lo, some hi] => { w with retLoads := [], retTop := w.retTop ++ [hi.extractLsb' 0 16 ++ lo] }
  | _ => { w with retLoads := ws }

/-- A load's last request has returned: its registers are written, LOADS falls, its reservation ends, and an acquire drops the
context's lines (R221, R235, R253). An atomic stays for its completion time. -/
def Column.loaded (k : Column) (o : MemOp) : Column :=
  let k := match o.kind with
    | .ret h => k.putWarp o.slot ((k.warp o.slot).retLoaded h (match o.done with
        | x :: _ => x.val
        | [] => 0))
    | _ => k.commit o
  let k := if o.acq then k.acquire o.ctx else k
  let k := k.putWarp o.slot (k.warp o.slot).unload
  if o.kind.isStore then k.setOp { o with lanes := [], resv := [], done := [], acq := false } else k.delOp o.id

/-- An operation that has all its completion times leaves: STORES falls and the release times take it (R221, R252). -/
def Column.storeDone (k : Column) (o : MemOp) : Column :=
  let k := k.completeTime o
  let k := if o.entry.isNone && o.kind.isStore then k.putWarp o.slot (k.warp o.slot).unstore else k
  k.delOp o.id

/-! ## Loads -/

/-- The operation is a load or a store through an FP6 record, whose registers are packed three bytes each (R220, R134). -/
def MemOp.six (o : MemOp) : Bool :=
  o.obj != 0 && fp6 o.fmt && (match o.kind with
    | .load | .uload | .store | .ustore => true
    | _ => false)

/-- The bytes that one piece of a store writes, after its record's range rule, with the rule's count and the bits of the first element
outside, which the first piece of a lane reports (R220, R446). -/
def MemOp.pieceBytes (o : MemOp) (a : LaneAcc) : List Byte × Nat × Word :=
  let (ws, n, bits) := rangeWords a.rng a.data a.pois
  let bs := storeBytes o.size o.six ws
  match a.part with
  | none => (bs, n, bits)
  | some p => ((bs.drop p).take a.size, if p = 0 then n else 0, bits)

/-- The sector's poison after a request writes it: set by a poisoned lane, removed only when unpoisoned lanes write all 32 bytes
(R442). -/
def sectorAfter (old : Bool) (ls : List LaneAcc) (sec : Nat) : Bool :=
  let hits := ls.filter (fun a => a.sectors.any (fun x => x.1 == sec))
  if hits.any LaneAcc.dirty then true
  else if (List.range 32).all (fun i => hits.any (fun a => decide (a.off ≤ sec + i) && decide (sec + i < a.off + a.size))) then false
  else old

/-- A store's bytes put over a sector's, in ascending lane order, with the sector's poison (R246). -/
def MemOp.over (o : MemOp) (sec : Nat) (p : List Byte × Bool) : List Byte × Bool :=
  let ls := o.lanes.filter (fun a => a.sectors.any (fun x => x.1 == sec))
  if ls.isEmpty then p
  else
    (ls.foldl (fun bs a =>
      let w := (o.pieceBytes a).1
      (List.range 32).map (fun i => if a.off ≤ sec + i ∧ sec + i < a.off + a.size then w.getD (sec + i - a.off) 0 else bs.getD i 0)) p.1,
     sectorAfter p.2 ls sec)

/-- The stores of a column that are sent and not yet performed (R205), in issue order. -/
def Column.sent (k : Column) (ctx : Nat) : List MemOp := k.ops.filter (fun o => o.ctx == ctx && (o.kind == .store || o.kind == .ustore))

/-- A sector as a fill brings it to the L1 (R246): never older than the column's own stores. -/
def Column.overlaid (k : Column) (ctx sec : Nat) (p : List Byte × Bool) : List Byte × Bool :=
  (k.sent ctx).foldl (fun p o => o.over sec p) p

/-- The column's usable L1 lines take a store in the tick it is sent (R205, R442). -/
def Column.l1Send (k : Column) (now : Nat) (o : MemOp) : Column :=
  let k := o.lanes.foldl (fun k a => k.l1Store now o.ctx a.off (o.pieceBytes a).1) k
  (sectorsOf o.lanes).foldl (fun k x => k.l1Mod now o.ctx x.1 (fun l =>
    { l with pois := setBit4 l.pois (x.1 / 32 % 4) (sectorAfter (l.sectorPois x.1) o.lanes x.1) })) k

/-- The lines of a load's sectors, with the sectors of each, in order. -/
def byLine (secs : List (Nat × Nat)) : List (List (Nat × Nat)) :=
  ((secs.map (fun x => x.1 / 128)).eraseDups).map (fun ln => secs.filter (fun x => x.1 / 128 == ln))

/-- A sector's bytes as a load of a line in the L1 sees them: a stable one's elements may be older (R42). -/
def State.hitSector (s : State) (c ctx n : Nat) (l : L1Line) (off va : Nat) : List Byte × Bool :=
  let bytes := (List.range 32).map (fun i => l.byte (off + i))
  (if l.stable then (s.dev.col c).seeStable ctx n va bytes (s.vault.bytes (vkey c va) 32) else bytes, l.sectorPois off)

/-- The sectors of one line read for a load, and the caches as the policy leaves them (R204, R206, R246): those present in a usable L1 line
are taken there, the others are one request to the home slice. `n` numbers the load. -/
def State.readLine (s : State) (c ctx n : Nat) (a : LaneAcc) (fills : Bool) (secs : List (Nat × Nat)) :
    Dev × List (Nat × List Byte × Bool) :=
  let d := s.dev
  let k := d.col c
  let looks := fills && a.pol != 1
  let hit (x : Nat × Nat) : Option L1Line := if looks then k.l1Hit d.now ctx x.1 else none
  let near := secs.filterMap (fun x => (hit x).map (fun l => let b := s.hitSector c ctx n l x.1 x.2; (x.1, b.1, b.2)))
  let far := secs.filter (fun x => (hit x).isNone)
  let d := if near.isEmpty then d else d.modCol c (fun k => match k.l1Frame ctx ((secs.headD (0, 0)).1 / 512) with
    | some f => k.l1Put f false
    | none => k)
  match far with
  | [] => (d, near)
  | x :: _ =>
    let lease := if looks && a.pol != 3 then some (if a.stable then 0 else (d.ctx ctx).lease) else none
    let (d, got) := { s with dev := d }.homeRead a.tcol x.2 a.pol a.zc lease (far.map Prod.snd)
    let seen (x : Nat × Nat) : Nat × List Byte × Bool :=
      let bytes := s.seen a.tcol n x.2 32
      let pois := d.poisoned (vkey a.tcol x.2)
      let p := if got.isSome then (d.col c).overlaid ctx x.1 (bytes, pois) else (bytes, pois)
      (x.1, p.1, p.2)
    let filled := far.map seen
    let d := match got with
      | some e => d.modCol c (fun k => k.l1Fill d.now ctx filled e a.stable (a.pol == 2))
      | none => d
    let d := if fills && a.pol == 1 then d.modCol c (fun k => k.l1DropLine ctx x.1) else d
    -- a load of a stable page may see an older value of an element that another agent has written (R42)
    let old (y : Nat × List Byte × Bool) : Nat × List Byte × Bool :=
      if fills && a.stable then
        match far.find? (fun x => x.1 == y.1) with
        | some x => (y.1, (d.col c).seeStable ctx n x.2 y.2.1 y.2.1, y.2.2)
        | none => y
      else y
    (d, near ++ filled.map old)

/-- The sectors of a request read, line by line. -/
def State.readLines (s : State) (c ctx n : Nat) (fills : Bool) (ls : List LaneAcc) :
    List (List (Nat × Nat)) → Dev × List (Nat × List Byte × Bool)
  | [] => (s.dev, [])
  | secs :: rest =>
    match ls.find? (fun a => a.sectors.any (fun x => secs.contains x)) with
    | none => State.readLines s c ctx n fills ls rest
    | some a =>
      let (d, xs) := s.readLine c ctx n a fills secs
      let (d, ys) := State.readLines { s with dev := d } c ctx n fills ls rest
      (d, xs ++ ys)

/-- The bytes and the poison that a lane receives from the sectors read (R442). -/
def LaneAcc.gather (a : LaneAcc) (secs : List (Nat × List Byte × Bool)) : List Byte × Bool :=
  let at_ (i : Nat) : Option (Nat × List Byte × Bool) := secs.find? (fun x => x.1 == (a.off + i) / 32 * 32)
  ((List.range a.size).map (fun i => match at_ i with
      | some x => x.2.1.getD ((a.off + i) % 32) 0
      | none => 0),
   (List.range a.size).any (fun i => match at_ i with
      | some x => x.2.2
      | none => false))

/-- The register lanes that a lane of a load writes; an LDT's lane holds one element or scale, kept raw under a number of its own
until the registers are put together (R220, R223, R226). -/
def MemOp.laneWrites (o : MemOp) (a : LaneAcc) (bs : List Byte) (pois : Bool) : List LaneWrite :=
  if o.kind = .loadT then
    -- dst is [register, 1 + element (plus 16 for its scale), first bit, bits]
    -- and, for the second piece of an element in two sectors, the place of its bits
    match a.dst with
    | [r, e, b, n] => [{ reg := r + 256 * e, lane := a.lane, val := BitVec.ofNat 32 (numOf bs / 2 ^ b % 2 ^ n), pois := pois }]
    | [r, e, b, n, p] => [{ reg := r + 256 * e, lane := a.lane, val := BitVec.ofNat 32 (numOf bs / 2 ^ b % 2 ^ n * 2 ^ p), pois := pois }]
    | _ => []
  else if o.six then
    -- byte j of an FP6 access is byte j % 3 of its register j / 3, kept under a number of its own
    let p := a.part.getD 0
    bs.zipIdx.map (fun x => { reg := a.dst.getD ((p + x.2) / 3) 0 + 256 * (1 + (p + x.2) % 3), lane := a.lane, val := x.1.setWidth 32, pois := pois })
  else
    let ws := loadWords o.size false (o.fmt == Fmt.i32) bs
    (List.zip a.dst ws).map (fun p => { reg := p.1, lane := a.lane, val := padded o.fmt p.2, pois := pois })

/-- An LDT's register from its raw elements: element codes as they are, or decoded to BF16 under their scales (R226). -/
def MemOp.ldtWord (o : MemOp) (r l : Nat) : LaneWrite :=
  let get (k : Nat) : Option LaneWrite := o.done.find? (fun x => x.reg == r + 256 * k && x.lane == l)
  let code (k : Nat) : Nat := ((get k).map (fun x => x.val.toNat)).getD 0 + ((get (k + 33)).map (fun x => x.val.toNat)).getD 0
  let scaled := o.obj ≥ 65536
  let src : BitVec 5 := BitVec.ofNat 5 (o.obj / 65536)
  let n := elems o.fmt
  { reg := r, lane := l,
    val := (List.range n).foldl (fun w e =>
      if scaled then
        -- an element outside the extents reads as +0
        if (get (e + 1)).isSome then
          let x := ((floatFmt src).value (code (e + 1)))
          let sc := e8m0Value (code (e + 17))
          insCode Fmt.bf16x2 w e (FloatFmt.bf16.round o.rm o.sat (FVal.mul x sc))
        else w
      else insCode o.fmt w e (code (e + 1))) 0,
    pois := (List.range n).any (fun e => [e + 1, e + 17, e + 34].any (fun k => ((get k).map LaneWrite.pois).getD false)) }

/-- A register of an FP6 load from its three bytes (R133, R134). -/
def MemOp.sixWord (o : MemOp) (r l : Nat) : LaneWrite :=
  let get (j : Nat) : Option LaneWrite := o.done.find? (fun x => x.reg == r + 256 * (j + 1) && x.lane == l)
  let byte (j : Nat) : Nat := ((get j).map (fun x => x.val.toNat)).getD 0
  { reg := r, lane := l, val := padded o.fmt (unpackFp6 (byte 0 + byte 1 * 2 ^ 8 + byte 2 * 2 ^ 16)),
    pois := (List.range 3).any (fun j => ((get j).map LaneWrite.pois).getD false) }

/-- The finished results of a load: the registers of an LDT and of an FP6 load are put together from their parts. -/
def MemOp.finished (o : MemOp) : MemOp :=
  if o.kind = .loadT then
    { o with done := (o.resv.map (fun p => (Mask.list p.2).map (fun l => o.ldtWord p.1 l))).flatten }
  else if o.six then
    { o with done := ((o.done.map (fun x => (x.reg % 256, x.lane))).eraseDups).map (fun x => o.sixWord x.1 x.2) }
  else o

/-- The register lanes that a request's values reach: a single access's value goes to every lane that the load writes (R224, R235). -/
def MemOp.spread (o : MemOp) (ws : List LaneWrite) : List LaneWrite :=
  let ws := if o.uni then (ws.map (fun x => (List.range 32).map (fun l => { x with lane := l }))).flatten else ws
  ws.filter (fun x => o.resv.isEmpty || o.resv.any (fun p => p.1 == x.reg % 256 && Mask.has p.2 x.lane) || o.window)

/-- An own earlier access keeps a load of these lanes from being taken in the L1 (R222, R247): a store that is sent has updated a usable
line, so only an access of another kind does, or a lane that waits in the side log; on a stable page a store does too. -/
def Column.hitBlocked (k : Column) (o : MemOp) (stable : Bool) (a : LaneAcc) : Bool :=
  { k with ops := k.ops.filter (fun p => stable || !(p.kind == OpKind.store || p.kind == OpKind.ustore)) }.overtakes { o with id := k.nextOp } [a]

/-- A piece of a load that hits in the L1 as the load issues: what it writes (R204, R216). `va` is its sector's vault address, where it is
known. A load that only a stable line may serve (`only`) is one that has not been translated (R437). -/
def State.takeHit (s : State) (c : Nat) (o : MemOp) (only : Bool) (va : Option Nat) (a : LaneAcc) : Option (List LaneWrite) :=
  let k := s.dev.col c
  match k.l1Hit s.dev.now o.ctx a.off with
  | none => none
  | some l =>
    if (only && !l.stable) || decide (32 < a.off % 32 + a.size) || k.hitBlocked o l.stable a then none
    else
      let b := match va with
        | some v => s.hitSector c o.ctx o.base l (a.off / 32 * 32) (v / 32 * 32)
        | none => ((List.range 32).map (fun i => l.byte (a.off / 32 * 32 + i)), l.sectorPois a.off)
      let g := a.gather [(a.off / 32 * 32, b.1, b.2)]
      some (o.laneWrites a g.1 g.2)

/-- The frames that a load's hits use become the latest used (R203). -/
def Column.l1Use (k : Column) (ctx : Nat) (as : List LaneAcc) : Column :=
  as.foldl (fun k a => match k.l1Frame ctx (a.off / 512) with
    | some f => k.l1Put f false
    | none => k) k

/-- The least tick at which a load whose requests all hit in L1 writes its destinations (R216). -/
def MemOp.hitTime (o : MemOp) : Nat := o.itick + 16 + o.reqs / 2

/-- One request of a load performed (R204, R223, R244): its lanes' bytes are read, and with the last request the load completes; one whose
requests all hit completes at its time (R216). A request that an earlier own access to its bytes precedes is not performed yet
(R222, R247). -/
def State.loadReq (s : State) (c : Nat) (o : MemOp) (req : Nat) : Dev :=
  let ls := o.lanes.filter (fun a => a.req == req)
  if (s.dev.col c).overtakes o ls || (!o.missed && decide (s.dev.now < o.hitTime)) then s.dev
  else
    let (d, secs) := s.readLines c o.ctx o.base (o.kind != .xget) ls (byLine (sectorsOf ls))
    let ws := (ls.map (fun a => let g := a.gather secs; o.laneWrites a g.1 g.2)).flatten
    let ws := o.spread ws
    -- an XGET of the own column has read past its L1 (R284, R247)
    let d := if o.kind = .xget then d.modCol c (fun k => k.l1Pass c o.ctx ls) else d
    let o := { o with lanes := o.lanes.filter (fun a => a.req != req), done := o.done ++ ws }
    if o.lanes.isEmpty then d.modCol c (fun k => k.loaded o.finished) else d.modCol c (fun k => k.setOp o)

/-! ## Stores -/

/-- What the words of vault bytes from `va` on held, where a write changes them, kept for the fetches of the contexts whose launches run on the
column (R102). -/
def State.keepPast (s : State) (tc va : Nat) (bs : List Byte) : Dev :=
  let d := s.dev
  let ctxs := ((d.launches.filter (fun l => l.2.cols.contains tc && !l.2.ended.contains tc)).map (fun l => l.2.ctx)).eraseDups
  if ctxs.isEmpty then d
  else
    let old (i : Nat) : Word := BitVec.ofNat 32 (s.vault.num (vkey tc ((va / 4 + i) * 4)) 4)
    let new (i : Nat) : Word := BitVec.ofNat 32 (numOf ((List.range 4).map (fun j =>
      let a := (va / 4 + i) * 4 + j
      if va ≤ a ∧ a < va + bs.length then bs.getD (a - va) 0 else (old i).extractLsb' (8 * j) 8)))
    let ws := (List.range ((va + bs.length + 3) / 4 - va / 4)).filter (fun i => old i != new i)
    d.modCol tc (fun k =>
      let xs := (ctxs.map (fun ctx => ws.map (fun i => ({ ctx := ctx, word := va / 4 + i, val := old i } : OldWord)))).flatten
      { k with past := k.past ++ xs.filter (fun x => !k.past.contains x) })

/-- The bytes that another agent's write leaves in words that the stagehand is writing: freely its own, or those of the stagehand's write,
word by word (R370). -/
def State.raced (s : State) (c va : Nat) (bs : List Byte) : List Byte × Dev :=
  let h := (s.dev.col c).hand
  if h.banks.olds.isEmpty then (bs, s.dev)
  else
    let own (a : Nat) : Bool := (h.oldWords s.dev.now (a / 4)).isEmpty || (Config.freeElem s.dev.free (a / 4)).getLsbD 31
    (bs.zipIdx.map (fun b => if own (va + b.2) then b.1 else s.vault.byte (vkey c (va + b.2))), { s.dev with free := s.dev.free + 1 })

/-- What a write of vault bytes from `va` on takes from the page tables (R39) and from the code of running contexts (R102) is kept. -/
def State.keepOld (s : State) (tc va : Nat) (bs : List Byte) : Dev := { s with dev := s.keepPtes tc va bs }.keepPast tc va bs

/-- The bytes of one lane written in its column's vault, the lines' bitmaps in L2 (R210), and its watches tested (R209, R298). -/
def State.putLane (s : State) (a : LaneAcc) (bs : List Byte) : State :=
  let put (s : State) (va : Nat) (bs : List Byte) : State :=
    if bs.isEmpty then s
    else
      let (bs, d) := s.raced a.tcol va bs
      let s : State := { s with dev := d }
      let s : State := { vault := s.vault.write (vkey a.tcol va) bs, dev := s.keepOld a.tcol va bs }
      { s with dev := s.l2Written a.tcol va }.testWatches a.tcol va bs.length
  put (put s a.va (bs.take a.cut)) a.va2 (bs.drop a.cut)

/-- The home slices' part of a request's writes: each line, and the latest completion time (R209, R245). -/
def State.writeLinesAt (s : State) (ls : List LaneAcc) : List (Nat × Nat) → Dev × Nat
  | [] => (s.dev, 0)
  | x :: xs =>
    let mine := ls.filter (fun a => a.tcol == x.1 && a.sectors.any (fun y => y.2 / 128 == x.2))
    let whole := (lineSectors (x.2 * 128)).filter (fun v => (List.range 32).all (fun i =>
      mine.any (fun a => (List.range a.size).any (fun j => a.addr j == v + i))))
    let (d, t) := match mine with
      | a :: _ => s.homeWrite x.1 (x.2 * 128) a.pol a.zc a.stable whole
      | [] => (s.dev, 0)
    let (d, u) := State.writeLinesAt { s with dev := d } ls xs
    (d, max t u)

/-- The vaults as writes will leave them: what a store that misses needs in L2 is judged by the line that it leaves (R213). -/
def State.ahead (s : State) (ws : List (LaneAcc × List Byte)) : State :=
  { s with vault := ws.foldl (fun v x =>
      (v.write (vkey x.1.tcol x.1.va) (x.2.take x.1.cut)).write (vkey x.1.tcol x.1.va2) (x.2.drop x.1.cut)) s.vault }

/-- The home slices' part of a request's writes. -/
def State.writeLines (s : State) (ls : List LaneAcc) : Dev × Nat := s.writeLinesAt ls (linesOf ls)

/-- The home slices' part of the reads of a request that reads before it writes (R259). -/
def State.touchLines (s : State) (ls : List LaneAcc) : Dev :=
  (linesOf ls).foldl (fun d x =>
    let mine := ls.filter (fun a => a.tcol == x.1 && a.sectors.any (fun y => y.2 / 128 == x.2))
    match mine with
    | a :: _ => ({ s with dev := d }.homeRead x.1 (x.2 * 128) a.pol a.zc none
        (((mine.map (fun a : LaneAcc => a.sectors.map Prod.snd)).flatten).eraseDups.filter (fun v => v / 128 == x.2))).1
    | [] => d) s.dev

/-- A 4-byte word read at its home slice (R207), as a watch, a cue or the stagehand's wait for one compares it: the word and its poison. -/
def State.sliceWord (s : State) (a : LaneAcc) : Word × Bool × Dev :=
  let d := s.touchLines [a]
  (BitVec.ofNat 32 (numOf (s.seen a.tcol d.free a.va 4)), d.poisoned (vkey a.tcol a.va), { d with free := d.free + 1 })

/-- The home slices' part of the writes of a request that has read its lines: one that was bypassed there is applied in the vault, and is not
counted again (R213). -/
def State.writeBack (s : State) (ls : List LaneAcc) : Dev × Nat := s.writeLines (ls.map (fun a => { a with pol := 3 }))

/-- The poison of the sectors that a request wrote. -/
def Dev.poisonSectors (d : Dev) (ls : List LaneAcc) : Dev :=
  (sectorsOf ls).foldl (fun d x =>
    match ls.find? (fun a => a.sectors.contains x) with
    | some a => let key := vkey a.tcol x.2; d.setPois key (sectorAfter (d.poisoned key) ls x.1)
    | none => d) d

/-- The launch of an operation's warp, by its tracker entry once it has ended. -/
def Dev.launchOf (d : Dev) (c : Nat) (o : MemOp) : Nat :=
  match o.entry.bind (fun e => (d.col c).tracker.find? (fun t => t.id == e)) with
  | some t => t.launch
  | none => (d.warp c o.slot).launch

/-- What a lane's range rule leaves: the count, the record, and a deferred trap for RACT 011 (R446, R400). -/
def State.rangeEffect (s : State) (c : Nat) (o : MemOp) (a : LaneAcc) (n : Nat) (bits : Word) : State :=
  match a.rng with
  | none => s
  | some r =>
    if n = 0 then s
    else
      let d := s.dev.outOfRange c (s.dev.launchOf c o) o.ctx { slot := o.slot, lane := a.lane, pc := o.pc } r n bits
      let d := if r.act = 3 && o.entry.isNone then
          d.modWarp c o.slot (fun w => w.defer { pc := o.pc, cause := 0x1B, lane := BitVec.ofNat 5 a.lane, kind := 0 })
        else d
      { s with dev := d }

/-- A write of the column's own warps performed: its loads see it, and nothing older (R42, R222). -/
def State.ownWrite (s : State) (c : Nat) (o : MemOp) (a : LaneAcc) (bs : List Byte) : State :=
  if a.tcol = c && o.kind != .xput then { s with dev := s.dev.modCol c (fun k => k.wasPatch o.ctx a.va bs) } else s

/-- One lane of a store performed: the range rule, the bytes and the watches (R223, R446). -/
def State.storeLane (s : State) (c : Nat) (o : MemOp) (a : LaneAcc) : State :=
  let (bs, n, bits) := o.pieceBytes a
  ((s.putLane a bs).ownWrite c o a bs).rangeEffect c o a n bits

/-- The value that an atomic writes, if it writes one (R258). -/
def atomNew (aop ty : BitVec 5) (rm : BitVec 2) (old b c : Word) : Option Word :=
  let signed := ty == Fmt.i32
  let lt (x y : Word) : Bool := if signed then decide (x.toInt < y.toInt) else decide (x.toNat < y.toNat)
  match aop.toNat with
  | 0 =>
    if ty = Fmt.f32 then
      some (BitVec.ofNat 32 (FloatFmt.fp32.round rm false
        (FVal.add rm (FloatFmt.fp32.value old.toNat) (FloatFmt.fp32.value b.toNat))))
    else some (old + b)
  | 1 => some (if lt b old then b else old)
  | 2 => some (if lt old b then b else old)
  | 3 => some (old &&& b)
  | 4 => some (old ||| b)
  | 5 => some (old ^^^ b)
  | 6 => some b
  | 7 => if old = b then some c else none
  | 8 => if old.toNat < b.toNat then some (old + 1) else none
  | _ => none

/-- One lane of an atomic performed at its slice: the old value, its poison, and the new one written (R259, R442). -/
def State.atomLane (s : State) (aop ty : BitVec 5) (rm : BitVec 2) (a : LaneAcc) : State × Word × Bool × Bool :=
  let key := vkey a.tcol a.va
  let old := BitVec.ofNat 32 (numOf (s.seen a.tcol s.dev.free a.va 4))
  let s : State := if (s.dev.col a.tcol).hand.banks.olds.isEmpty then s else { s with dev := { s.dev with free := s.dev.free + 1 } }
  let op := s.dev.poisoned key
  match atomNew aop ty rm old (a.data.getD 0 0) (a.data.getD 1 0) with
  | some v =>
    let s := { s with dev := s.dev.setPois key (op || a.pois.any id) }
    (s.putLane a (bytesOf 4 v.toNat), old, op, true)
  | none => (s, old, op, false)

/-- Lanes of an atomic in ascending order (R259): the old values, and whether one wrote. -/
def State.atomLanes (s : State) (aop ty : BitVec 5) (rm : BitVec 2) : List LaneAcc → State × List LaneWrite × Bool
  | [] => (s, [], false)
  | a :: rest =>
    let (s, old, p, wrote) := s.atomLane aop ty rm a
    let (s, ws, w2) := State.atomLanes s aop ty rm rest
    (s, (a.dst.map (fun r => ({ reg := r, lane := a.lane, val := old, pois := p } : LaneWrite))) ++ ws, wrote || w2)

/-- An update of a completion word: COUNT rises, and a failure is written into ERR, or marked MULTI where ERR is not 0 (R349,
R448). -/
def wordUpdate (old : Nat) (err : Option Word) : Nat :=
  let count := (old + 1) % 2 ^ 32
  let e := old / 2 ^ 32 % 2 ^ 32
  let e := match err with
    | none => e
    | some x => if e = 0 then x.toNat else (BitVec.ofNat 32 e ||| 0x80000000#32).toNat
  count + e * 2 ^ 32

/-- The completion word of a command updated at its home slice in column tc under a translation of column c (R349, R448), with the completion time.
A write to a stable page is marked (R437). -/
def State.wordAt (s : State) (c tc ctx off : Nat) (e : TlbEntry) (err : Option Word) : State × Nat :=
  let a : LaneAcc :=
    { lane := 0, tcol := tc, off := off, va := e.va off, cut := 8, va2 := 0, size := 8, req := 0, dst := [], data := [], pois := [],
      rng := none, pol := 0, zc := e.zc, stable := e.stable }
  let s : State := { s with dev := s.touchLines [a] }
  let s := if e.stable then s.stableMark c a ctx else s
  let (d, t) := s.writeBack [a]
  let s : State := { s with dev := d }
  (s.putLane a (bytesOf 8 (wordUpdate (s.vault.num (vkey tc a.va) 8) err)), t)

/-- The completion word of a command updated, or the fault of its page in the issuing column c, where an open filter entry of the granule makes the
update wait like any other write (R425). -/
def State.wordDone (s : State) (c tc ctx off : Nat) (err : Option Word) : Except (Flt × Nat) (State × Nat) × Dev :=
  match s.translate c ctx off true false with
  | (.error f, d) => (.error (f, granOf off), d)
  | (.ok e, d) =>
    let r := { s with dev := d }.wordAt c tc ctx off e err
    (.ok r, r.1.dev)

/-- A cache-control operation on one line (R228): .clean, .flush or .pin. -/
def State.cctlLine (s : State) (op : BitVec 3) (a : LaneAcc) : State × Nat :=
  let d := s.dev
  let k := d.col a.tcol
  let t := gwct d.now (if a.stable then 0 else k.lx a.va)
  if op = 0 then ({ s with dev := d.putCol a.tcol (k.l2Mod a.va (fun l => { l with dirty := false })) }, t)
  else if op = 1 then
    ({ s with dev := d.putCol a.tcol (k.l2Mod a.va (fun l => if l.pinned then { l with dirty := false } else l.drop)) }, t)
  else
    -- a pinned line takes a slot whatever it holds
    let pinned := ((k.l2Tag (a.va / 512)).map (fun t => (t.line (a.va / 128)).pinned)).getD false
    if pinned || k.aside a.va then (s, d.now)
    else if k.l2Full (a.va / 512) true then ({ s with dev := d.putCol a.tcol { k with l2Bypass := k.l2Bypass + 1 } }, d.now)
    else
      let d := if k.l2Valid a.va then d else s.l2Bring a.tcol a.va a.zc false (lineSectors a.va)
      ({ s with dev := d.modCol a.tcol (fun k => k.l2Change a.va (fun l => { l with pinned := l.valid })) }, d.now)

/-- The staging block's qword that a GPATCH names, as the header stands now: its offset, or none past the block (R360). -/
def State.patchOff (s : State) (a : LaneAcc) : Option Nat :=
  let head := vkey a.tcol a.va
  let p := (a.data.getD 2 0).toNat
  if s.vault.num (head + 4) 1 * 8 ≤ p then none else some ((s.vault.num (head + 0x18) 8 % 2 ^ 44 + 8 * p) % 2 ^ 44)

/-- The qword of the staging block that a GPATCH writes, translated; none past the block; or the fault that keeps it from there (R360, R423). -/
def State.patchTo (s : State) (c : Nat) (o : MemOp) (a : LaneAcc) : Except (Flt × Nat) (Option LaneAcc) × Dev :=
  match s.patchOff a with
  | none => (.ok none, s.dev)
  | some off =>
    match s.translate c o.ctx off true o.priv with
    | (.error f, d) => (.error (f, granOf off), d)
    | (.ok e, d) => (.ok (some { a with off := off, va := e.va off, cut := 8, size := 8, zc := e.zc, stable := e.stable }), d)

/-- A GPATCH performed (R360): its qword of the staging block as the header stands now; an index past the block is reported, and
writes nothing. -/
def State.patch (s : State) (c : Nat) (o : MemOp) (a : LaneAcc) (b : Option LaneAcc) : State × Nat :=
  match b with
  | none =>
    ({ s with dev := s.dev.recordCol c { kind := 0x08, unit := 0, ctx := some o.ctx, pc := o.pc, slot := o.slot,
                                         detail := BitVec.ofNat 128 (a.off + (a.data.getD 2 0).toNat % 65536 * 2 ^ 48) } }, s.dev.now)
  | some b =>
    let bs := bytesOf 4 (a.data.getD 0 0).toNat ++ bytesOf 4 (a.data.getD 1 0).toNat
    let (d, t) := ({ s with dev := s.dev.poisonSectors [b] }.ahead [(b, bs)]).writeLines [b]
    let s : State := { s with dev := d.modCol c (fun k => k.l1Pass c o.ctx [b]) }
    (s.putLane b bs, t)

/-- Lanes of an atomic performed at their slices (R259): the read of their lines, the operations, and where one wrote, the lines' write with
its completion time. No line that the column's L1 has fetched since the issue hides from a later load what the atomic has read or written
there (R222, R247, R260; log 109). -/
def State.performAtom (s : State) (c : Nat) (o : MemOp) (aop ty : BitVec 5) (rm : BitVec 2) (ls : List LaneAcc) :
    State × Nat × List LaneWrite :=
  let (s, ws, wrote) := { s with dev := s.touchLines ls }.atomLanes aop ty rm ls
  let own := ls.filter (fun a => a.tcol == c)
  let drop (d : Dev) : Dev := d.modCol c (fun k => own.foldl (fun (k : Column) a => k.l1DropLine o.ctx a.off) k)
  if wrote then
    let (d, t) := s.writeBack ls
    let d := (drop d).modCol c (fun k => own.foldl (fun (k : Column) a => k.wasPatch o.ctx a.va (s.vault.bytes (vkey c a.va) a.size)) k)
    ({ s with dev := d }, t, ws)
  else ({ s with dev := drop s.dev }, s.dev.now, ws)

/-- The requests of a store-class operation performed on some of its lanes: the state, the completion time, and what lanes of
an atomic return. -/
def State.perform (s : State) (c : Nat) (o : MemOp) (ls : List LaneAcc) : State × Nat × List LaneWrite :=
  match o.kind with
  | .atom aop rm | .ared aop rm => s.performAtom c o aop o.fmt rm ls
  | .atsc aop _ => s.performAtom c o aop o.fmt o.rm ls
  | .cue =>
    let (s, t, _) := s.performAtom c o 0 Fmt.ui32 0 ls
    (s, t, [])
  | .gpatch =>
    match ls with
    | a :: _ => match s.patchTo c o a with
      | (.ok b, d) => let (s, t) := { s with dev := d }.patch c o a b; (s, t, [])
      | (.error _, d) => ({ s with dev := d }, 0, [])
    | [] => (s, 0, [])
  | .cctl op =>
    let (s', t) := ls.foldl (fun (p : State × Nat) a => let q := p.1.cctlLine op a; (q.1, max p.2 q.2)) (s, 0)
    (s', t, [])
  | _ =>
    let s := if o.kind == .xput then (ls.filter (fun a => a.stable)).foldl (fun s a => s.stableMark c a o.ctx) s else s
    let (d, t) := ({ s with dev := s.dev.poisonSectors ls }.ahead (ls.map (fun a => (a, (o.pieceBytes a).1)))).writeLines ls
    let s := { s with dev := d }
    let s := ls.foldl (fun s a => s.storeLane c o a) s
    -- an XPUT into the own column has written past its L1 (R284, R247)
    (if o.kind == .xput then { s with dev := s.dev.modCol c (fun k => k.l1Pass c o.ctx ls) } else s, t, [])

/-! ## The side log -/

/-- The free entries of the side log (R423): an outstanding GPATCH keeps the one that it needs. -/
def Column.logFree (k : Column) : Nat :=
  256 - k.log.length - (k.ops.filter (fun o => o.kind == .gpatch && !o.lanes.isEmpty)).length

/-- The side-log kind of an operation (R424). -/
def OpKind.logKind : OpKind → Nat
  | .store => 1
  | .ustore => 2
  | .ared _ _ => 3
  | .xput => 4
  | .nmatom _ _ => 5
  | .cue => 6
  | .gpatch => 7
  | _ => 1

/-- A lane of a store-class operation written into the side log, waiting on its granule's fault (R423, R426). -/
def Column.logLane (k : Column) (o : MemOp) (id : Nat) (a : LaneAcc) (now gran : Nat) (f : Flt) (acc : AccKind)
    (at_ : Option Nat := none) : Column :=
  let k := k.report now o.ctx gran f acc
  { k with log := k.log ++ [{ lseq := k.lseq.toNat, op := id, ctx := o.ctx, slot := o.slot, lane := a.lane, kind := o.kind.logKind,
                              state := 1, orph := false, fkind := f.kind, gran := gran, acc := a, pc := o.pc, itick := o.itick, at_ := at_ }],
           lseq := k.lseq + 1 }

/-! ## Performing -/

/-- One request of a store-class operation performed (R223, R244, R259): the lanes' effects, the latest completion time so far, and an
atomic's old values; with its last lane an atomic's registers are written. -/
def State.storeReq (s : State) (c : Nat) (o : MemOp) (req : Nat) : State :=
  let ls := o.lanes.filter (fun a => a.req == req)
  let stuck := if o.kind = .gpatch then ls.head?.bind (fun a => match s.patchTo c o a with
    | (.error f, d) => some (f, d)
    | _ => none) else none
  if ls.isEmpty || (s.dev.col c).overtakes o ls || (s.dev.col c).behind s.dev.now o ls then s
  else match stuck, ls with
  | some ((f, g), d), a :: _ =>
    -- the staging block's page does not translate: the lane waits in the side log (R423)
    { s with dev := d.modCol c (fun k =>
        (k.logLane o o.id a d.now g f .store (s.patchOff a)).setOp { o with lanes := o.lanes.filter (fun b => b.req != req), logged := o.logged + 1 }) }
  | _, _ =>
    let (s, t, ws) := s.perform c o ls
    match (s.dev.col c).op? o.id with
    | none => s
    | some o =>
      let o := { o with lanes := o.lanes.filter (fun a => a.req != req), time := max o.time t, done := o.done ++ ws }
      let loads := o.kind.isLoad && o.lanes.isEmpty
      { s with dev := s.dev.modCol c (fun k => if loads then (k.setOp o).loaded o else k.setOp o) }

/-! ## Release -/

/-- The kinds of a copy descriptor's word 5 (R344). -/
def CopyDesc.dk (x : CopyDesc) : Nat := (x.ctl.extractLsb' 4 2).toNat
/-- The source kind (R344). -/
def CopyDesc.sk (x : CopyDesc) : Nat := (x.ctl.extractLsb' 2 2).toNat
/-- The form (R344). -/
def CopyDesc.form (x : CopyDesc) : Nat := (x.ctl.extractLsb' 0 2).toNat
/-- The completion kind (R344). -/
def CopyDesc.ck (x : CopyDesc) : Nat := (x.ctl.extractLsb' 6 2).toNat
/-- The named barrier (R344). -/
def CopyDesc.barn (x : CopyDesc) : Nat := (x.ctl.extractLsb' 8 6).toNat

/-- The observers that a copy's writes can affect (R251). -/
def CopyDesc.reach (x : CopyDesc) : BitVec 7 :=
  if x.dk = 1 then 0x0D else if x.dk = 2 then 0x08
  else if ptrSel x.dst = 0x400 then 0x40
  else if 0x401 ≤ ptrSel x.dst ∧ ptrSel x.dst ≤ 0x5FF then 0x20
  else 0x7F

/-- A copy was issued by the warp that now holds a slot of this column. -/
def CopyCmd.byWarp (x : CopyCmd) (s : Nat) : Bool :=
  match x.owner with
  | .warp _ t e => t == s && e.isNone
  | .node _ _ _ => false

/-- What OFENCE waits for (R264), and a release with MTX in its mask (R252): no register write of the warp outstanding, no load, no
STS that is not written yet, no copy into its scratchpad. -/
def Column.ordered (k : Column) (s : Nat) : Bool :=
  (k.warp s).loads == 0 && k.ops.all (fun o => o.slot != s || (o.resv.isEmpty && (o.kind != .sts || o.entry.isSome))) && k.xchs.all (fun x => x.slot != s) &&
    k.copies.all (fun c => !c.byWarp s || c.desc.dk != 1)

/-- A release of warp slot w with a mask may complete now (R252): no load outstanding, every covered operation has its completion
time, and Now() has reached the latest. -/
def Column.released (k : Column) (s : Nat) (m : BitVec 7) (now : Nat) : Bool :=
  let w := k.warp s
  w.loads == 0 && k.ops.all (fun o => o.slot != s || o.entry.isSome || o.reach &&& m == 0) &&
    k.copies.all (fun c => !c.byWarp s || c.desc.reach &&& m == 0) &&
    (List.range 7).all (fun i => !m.getLsbD i || decide ((w.relTimes.toList.getD i 0) ≤ now)) &&
    (!m.getLsbD 3 || k.ordered s)

/-- The mask of an instruction: its own, or %obs where it is zero (R250). -/
def Warp.obsMask (w : Warp) (m : BitVec 7) : BitVec 7 := if m = 0 then w.obs else m

/-- An acquire load or atomic of the warp has not dropped the lines yet: no later memory instruction of the warp issues (R253). -/
def Column.acquiring (k : Column) (s : Nat) : Bool := k.ops.any (fun o => o.slot == s && o.acq)

end Sys2Proof.Machine
end

