-- ==== Sys2Proof/Machine/Fetch.lean ====
section
/-! DEFINITION. Fetch lines: their layout (R96-R98, R100), the fetch of a line with its parity check (R101, R102), and the
branch-target check of a transfer (R99). -/

namespace Sys2Proof.Machine

/-- The line offset of a PC (R98). -/
def pcLine (pc : BitVec 48) : Nat := pc.toNat / 5 * 64

/-- The slot of a PC (R98). -/
def pcSlot (pc : BitVec 48) : Nat := pc.toNat % 5

/-- A PC that can be fetched (R98). -/
def pcInRange (pc : BitVec 48) : Bool := decide (pcLine pc < 2 ^ 44)

/-- The PC of slot 0 of the line of a PC. -/
def pcStart (pc : BitVec 48) : BitVec 48 := BitVec.ofNat 48 (pc.toNat / 5 * 5)

/-- The parity bits that a line's instruction bits give (R97): bit i is the XOR of the bits whose index modulo 16 equals i. -/
def linePar (b : BitVec 512) : BitVec 16 := (List.range 30).foldl (fun p j => p ^^^ b.extractLsb' (16 * j) 16) 0

/-- A line passes the parity check (R101). -/
def lineParOk (b : BitVec 512) : Bool := b.extractLsb' 496 16 == linePar b

/-- TGT bit i (R97). -/
def lineTgt (b : BitVec 512) (i : Nat) : Bool := b.getLsbD (480 + i)

/-- PAIR bit j (R97): slots j and j + 1 form one issue word. -/
def linePair (b : BitVec 512) (j : Nat) : Bool := decide (j < 4) && b.getLsbD (485 + j)

/-- A malformed line (R100). -/
def lineBad (b : BitVec 512) : Bool :=
  b.extractLsb' 489 7 != 0 || (List.range 3).any (fun j => linePair b j && linePair b (j + 1)) ||
    (List.range 4).any (fun j => linePair b j && lineTgt b (j + 1))

/-- The instruction of slot i (R96). -/
def lineInsn (b : BitVec 512) (i : Nat) : Insn := b.extractLsb' (96 * i) 96

/-- The first n words of a line as one fetch gives them: each freely one of the values that it has had while a launch runs (R102). -/
def mixLine (new : BitVec 512) (old : Nat → List Word) : Nat → Dev → BitVec 512 × Dev
  | 0, d => (0, d)
  | n + 1, d =>
    let (r, d) := mixLine new old n d
    let (w, d) := d.pickOf (new.extractLsb' (32 * n) 32) (old n)
    (r ||| (w.setWidth 512 <<< (32 * n)), d)

/-- The older values of word i of a line that a column may still fetch (R102): those that it had before it was written, and what was fetched
first. -/
def Column.oldCode (k : Column) (ctx off va : Nat) (new : BitVec 512) (i : Nat) : List Word :=
  (((k.code.find? (fun x => x.ctx == ctx && x.off == off)).map (fun x => x.bits.extractLsb' (32 * i) 32)).toList ++
    (k.past.filter (fun x => x.ctx == ctx && x.word == va / 4 + i)).map OldWord.val).filter (fun w => w != new.extractLsb' (32 * i) 32)

/-- The line that one fetch gives, where `new` stands in memory (R102). -/
def Column.fetchBits (k : Column) (ctx off va : Nat) (new : BitVec 512) (d : Dev) : BitVec 512 × Dev :=
  mixLine new (k.oldCode ctx off va new) 16 d

/-- What a fetch gives: the line, none where it fails parity after its refetch or is poisoned (R101, R438), with the page's SYS bit. -/
structure Fetched where
  line : Option (BitVec 512)
  sys  : Bool

/-- A line fetched into the column's buffer (R96, R101): the first contents stay beside later ones until the kernel boundary. -/
def Column.keepLine (k : Column) (ctx off : Nat) (bits : BitVec 512) (sys : Bool) : Column :=
  if k.code.any (fun x => x.ctx == ctx && x.off == off) then k
  else { k with code := { ctx := ctx, off := off, bits := bits, sys := sys } :: k.code }

/-- The fetch of a line through the column's page table and L2, under the normal policy (R37, R101; log 131): a translation fault, or the line. -/
def State.fetchLine (s : State) (c ctx off : Nat) : Except Flt Fetched × Dev :=
  match s.translate c ctx off false true with
  | (.error f, d) => (.error f, d)
  | (.ok e, d) =>
    let va := e.va off
    let d := ({ s with dev := d }.homeRead c va 0 e.zc none [va, va + 32]).1
    let new := BitVec.ofNat 512 (s.vault.num (vkey c va) 64)
    let bad := d.poisoned (vkey c va) || d.poisoned (vkey c (va + 32))
    let k := d.col c
    let (b, d) := k.fetchBits ctx off va new d
    if bad then (.ok { line := none, sys := e.sys }, d)
    else if lineParOk b then (.ok { line := some b, sys := e.sys }, d.modCol c (fun k => k.keepLine ctx off b e.sys))
    else
      let (b, d) := k.fetchBits ctx off va new d
      if lineParOk b then (.ok { line := some b, sys := e.sys }, d.modCol c (fun k => k.keepLine ctx off b e.sys))
      else (.ok { line := none, sys := e.sys }, d)

/-- The outcome of a transfer's check of its target slot (R99): the transfer may take effect, is refused, or waits for the line. -/
inductive TgtCheck where
  | ok | refused
  | held (f : Flt)
  deriving DecidableEq, Repr

/-- A slot's TGT bit checked as R99 says: a slot beyond the fetch range, in a SYS line reached from unprivileged code, or in a line
that fails parity is left to its own fetch. -/
def State.checkTarget (s : State) (c ctx : Nat) (priv : Bool) (pc : BitVec 48) : TgtCheck × Dev :=
  if !pcInRange pc then (.ok, s.dev)
  else
    match s.fetchLine c ctx (pcLine pc) with
    | (.error f, d) => (.held f, d)
    | (.ok x, d) =>
      if x.sys && !priv then (.ok, d)
      else match x.line with
        | none => (.ok, d)
        | some b => (if lineTgt b (pcSlot pc) then .ok else .refused, d)

end Sys2Proof.Machine
end

