-- ==== Sys2Proof/Machine/Operands.lean ====
section
/-! DEFINITION. Operand forms: the outcome of an issue and a trap's report (R399, R407), the lane crossbar (R117), special sources
(R118), immediates (R107), indirect operands (R231-R234), and the issue checks of operands in the order of R408. -/

namespace Sys2Proof.Machine

/-- What a trap reports (R403, R407): its cause, EINFO, EMASK, and whether EPC is the PC after the instruction (TRAP and SVC). -/
structure TrapInfo where
  cause : Nat
  einfo : BitVec 64 := 0
  emask : Mask := 0
  next  : Bool := false
  deriving DecidableEq, Repr

/-- The outcome of one instruction's issue: it retires with an effect on the device alone or, `made`, on the vaults too; it is held
(not ready, or waiting without effect, R73, R422); or it traps before any effect (R399). -/
inductive Issue where
  | retire (d : Dev)
  | made (s : State)
  | hold (d : Dev)
  | trap (t : TrapInfo)

/-- The first failure of checks in order (R408). -/
def firstTrap : List (Option TrapInfo) → Option TrapInfo
  | [] => none
  | some t :: _ => some t
  | none :: ts => firstTrap ts

/-- EINFO in the bound layout B (R407). -/
def einfoB (val bound : Nat) : BitVec 64 := BitVec.ofNat 64 (val % 2 ^ 32 + bound % 2 ^ 16 * 2 ^ 32)

/-- EINFO in the operand layout O (R407). -/
def einfoO (code reg lane : Nat) (want tag : BitVec 5) (xi idx : Nat) : BitVec 64 :=
  BitVec.ofNat 64 (code + reg % 256 * 2 ^ 8 + lane * 2 ^ 16 + want.toNat * 2 ^ 32 + tag.toNat * 2 ^ 40 + xi * 2 ^ 48 + idx * 2 ^ 52)

/-- EINFO in the address layout A: the pointer with the lane's number in [52:48] (R407). -/
def einfoA (p : BitVec 64) (lane : Nat) : BitVec 64 :=
  (p &&& ~~~(0x1F#64 <<< 48)) ||| (BitVec.ofNat 64 (lane % 32) <<< 48)

/-- The lowest lane of a mask, 0 where it is empty. -/
def Mask.first (m : Mask) : Nat := (Mask.list m).headD 0

/-- A check of a condition. -/
def check (ok : Bool) (t : TrapInfo) : Option TrapInfo := if ok then none else some t

/-- A check that reports the lanes that fail. -/
def checkLanes (bad : Mask) (t : Nat → TrapInfo) : Option TrapInfo :=
  if bad = 0 then none else some { t (Mask.first bad) with emask := bad }

/-! ## The crossbar -/

/-- The source lane of lane l under a pattern (R117), with the tile width 2^wlog. -/
def srcLane (wlog : Nat) (pat : BitVec 2) (k : BitVec 5) (l : Nat) : Nat :=
  let w := 2 ^ wlog
  let b := l - l % w
  if pat = 1 then b + ((l - b : Nat) + 32 - k.toNat) % w
  else if pat = 2 then b + ((l - b) ^^^ (k.toNat % w))
  else if pat = 3 then k.toNat
  else l

/-- A source as an instruction reads it: the field's code (R407), whether it is indirect, its register or index register, the
registers that it waits for, the lanes outside the window (R232), for each source lane the register read, its tag and idx', the
lanes whose tag is checked, and for each receiving lane its value and poison, with the shape (R66). -/
structure Src where
  code  : Nat
  ind   : Bool
  reg   : Option Nat
  xi    : Nat
  waits : List Nat
  oob   : Mask
  regs  : Vector Nat 32
  tags  : Vector (BitVec 5) 32
  idx   : Vector Nat 32
  chk   : Mask
  vals  : Vector Word 32
  pois  : Mask
  shape : Shape
  deriving DecidableEq, Repr

/-- The shape that a pattern gives a source (R66). -/
def patShape (pat : BitVec 2) (sh : Shape) : Shape :=
  if pat = 3 then .uniform
  else if pat = 0 then sh
  else if sh = .uniform then .uniform else .general

/-- A source that every lane reads as one value with one tag. -/
def Src.const (code : Nat) (v : Word) (tag : BitVec 5) : Src :=
  { code := code, ind := false, reg := none, xi := 0, waits := [], oob := 0, regs := tab (fun _ => 0), tags := tab (fun _ => tag),
    idx := tab (fun _ => 0), chk := Mask.all, vals := tab (fun _ => v), pois := 0, shape := .uniform }

/-- A direct register through a pattern (R117). -/
def Src.direct (w : Warp) (code r : Nat) (pat : BitVec 2) (k : BitVec 5) : Src :=
  let g := w.reg r
  let wlog := w.wlog.toNat
  { code := code, ind := false, reg := some r, xi := 0, waits := [r], oob := 0, regs := tab (fun _ => r),
    tags := tab (fun _ => g.fmt), idx := tab (fun _ => 0), chk := Mask.all,
    vals := tab (fun l => g.data.lane (srcLane wlog pat k l)),
    pois := Mask.of (fun l => g.data.pois (srcLane wlog pat k l)),
    shape := patShape pat g.data.shape }

/-- A special source (R118). -/
def Src.special (d : Dev) (code : Nat) (k : BitVec 5) : Src :=
  if k = 1 then
    { Src.const code 0 Fmt.i32 with vals := tab (fun l => BitVec.ofNat 32 l), shape := .affine 0 1 }
  else if k = 2 then Src.const code (BitVec.ofNat 32 d.cur.slot) Fmt.i32
  else Src.const code (BitVec.ofNat 32 d.cur.col) Fmt.i32

/-! ## Indirect operands -/

/-- idx' of R231: the index after the pre-decrement of the index registers in `pre`, in the active lanes. -/
def idxAt (w : Warp) (act : Mask) (pre : List Nat) (xi l : Nat) : Nat :=
  let x := w.ixr xi
  let i := lane x.idx l
  (if pre.contains xi && Mask.has act l then i - x.stride else i).toNat

/-- pos of R231. -/
def posAt (w : Warp) (act : Mask) (pre : List Nat) (o : Operand) (l : Nat) : Int := idxAt w act pre o.xi l + o.xo

/-- pos lies in the window (R231). -/
def inWin (w : Warp) (act : Mask) (pre : List Nat) (o : Operand) (l : Nat) : Bool :=
  decide (0 ≤ posAt w act pre o l) && decide (posAt w act pre o l < ((w.ixr o.xi).bound.toNat : Int))

/-- The register that lane l names (R231); 0 outside the window, where nothing is read. -/
def regAt (w : Warp) (act : Mask) (pre : List Nat) (o : Operand) (l : Nat) : Nat :=
  if inWin w act pre o l then (w.ixr o.xi).base.toNat + (posAt w act pre o l).toNat else 0

/-- An indirect operand with a set of checked lanes, through a pattern (R231, R232). -/
def Src.indirect (w : Warp) (act : Mask) (pre : List Nat) (code : Nat) (o : Operand) (pat : BitVec 2) (k : BitVec 5)
    (chk : Mask) : Src :=
  let wlog := w.wlog.toNat
  let ok := Mask.of (inWin w act pre o)
  { code := code, ind := true, reg := none, xi := o.xi, waits := (w.ixr o.xi).window, oob := chk &&& ~~~ok,
    regs := tab (regAt w act pre o), tags := tab (fun l => (w.reg (regAt w act pre o l)).fmt),
    idx := tab (idxAt w act pre o.xi), chk := chk &&& ok,
    vals := tab (fun l => let s := srcLane wlog pat k l; (w.reg (regAt w act pre o s)).data.lane s),
    pois := Mask.of (fun l => let s := srcLane wlog pat k l; (w.reg (regAt w act pre o s)).data.pois s),
    shape := if pat = 3 then .uniform else .general }

/-- The source lanes that feed some active lane (R232). -/
def feeders (wlog : Nat) (pat : BitVec 2) (k : BitVec 5) (act : Mask) : Mask :=
  Mask.of (fun s => (Mask.list act).any (fun l => srcLane wlog pat k l == s))

/-- What a V-format instruction reads its operands by: the device, the active lanes, and the index registers that some field
pre-decrements. -/
structure VCtx where
  d      : Dev
  w      : Warp
  act    : Mask
  fields : List Operand
  pre    : List Nat

/-- The reading context of an instruction with these operand fields, the destination first (R231). -/
def vctx (d : Dev) (h : Head) (fields : List Operand) : VCtx :=
  { d := d, w := d.seen, act := d.curWarp.act h, fields := fields,
    pre := (fields.filter (fun o => o.ind && o.xm == 2)).map Operand.xi }

/-- A source operand field (R116-R119). -/
def VCtx.src (x : VCtx) (code : Nat) (o : Operand) : Src :=
  if o.ind then Src.indirect x.w x.act x.pre code o o.pat o.k (feeders x.w.wlog.toNat o.pat o.k x.act)
  else if o.isSpecial then Src.special x.d code o.k
  else Src.direct x.w code o.reg.toNat o.pat o.k

/-- A register field that is also a destination read as a source, in each lane that lane's register (R152, R234). -/
def VCtx.oldOf (x : VCtx) (o : Operand) : Src :=
  if o.ind then Src.indirect x.w x.act x.pre 0 o 0 0 x.act else Src.direct x.w 0 o.reg.toNat 0 0

/-- The destination read as a source (R152, R234). -/
def VCtx.old (x : VCtx) (dst : BitVec 9) : Src :=
  if dst.getLsbD 8 then Src.indirect x.w x.act x.pre 0 (dstOperand dst) 0 0 x.act
  else Src.direct x.w 0 (dstReg dst) 0 0

/-- A register of a range, through the field's pattern (R217). -/
def VCtx.reg (x : VCtx) (code r : Nat) (o : Operand) : Src := Src.direct x.w code r o.pat o.k

/-- The second source: B, or the immediate in VI form, tagged as the instruction reads it (R107). -/
def VCtx.srcB (x : VCtx) (f : VFields) (tag : BitVec 5) : Src :=
  if f.vi then Src.const 2 f.imm tag else x.src 2 f.b

/-- The third source: C, or the old destination in VI form (R152). -/
def VCtx.srcC (x : VCtx) (f : VFields) : Src := if f.vi then x.old f.d else x.src 3 f.c

/-! ## Checks -/

/-- A source with the format that the instruction reads there, further tags that it accepts, whether its checked registers must
carry one tag, and a tag that they must equal (R121, R169, R232). -/
structure Use where
  src  : Src
  want : Option (BitVec 5)
  also : List (BitVec 5) := []
  one  : Bool := false
  eq   : Option (BitVec 5) := none

/-- The tag that an indirect or direct source has: that of its lowest checked lane (R169). -/
def Src.tag (s : Src) : BitVec 5 := lane s.tags (Mask.first s.chk)

/-- The checked lanes whose tag satisfies a test. -/
def Src.tagMask (s : Src) (p : BitVec 5 → Bool) : Mask := Mask.of (fun l => Mask.has s.chk l && p (lane s.tags l))

/-- The lanes whose tag is not accepted (R121, R169, R232). -/
def Use.badTags (u : Use) : Mask :=
  match u.want with
  | some f => u.src.tagMask (fun t => t != Fmt.raw && t != f && !u.also.contains t)
  | none =>
    let m := if u.one then u.src.tagMask (fun t => t != u.src.tag) else 0
    if m != 0 then m
    else match u.eq with
      | some f => u.src.tagMask (fun t => t != f)
      | none => 0

/-- The tag check of a source (R121, R407). -/
def Use.tagCheck (u : Use) : Option TrapInfo :=
  checkLanes u.badTags (fun l =>
    { cause := 0x0B, einfo := einfoO u.src.code (lane u.src.regs l) l (u.want.getD (u.eq.getD u.src.tag)) (lane u.src.tags l) u.src.xi
        (if u.src.ind then lane u.src.idx l else 0) })

/-- The register bound of a direct source (R60). -/
def boundCheck (regs hi : Nat) : Option TrapInfo :=
  check (decide (hi < regs)) { cause := 0x0E, einfo := einfoB hi regs }

/-- The register bound of a source (R60). -/
def Src.boundCheck (s : Src) (regs : Nat) : Option TrapInfo :=
  match s.reg with
  | some r => Machine.boundCheck regs r
  | none => none

/-- A source is uniform after its pattern; an indirect one counts as non-uniform (R68). -/
def Src.isUniform (s : Src) : Bool := !s.ind && s.shape == .uniform

/-- The uniformity check (R68). An indirect source fails in its first lane, whose register and idx' are reported (R407). -/
def Src.uniCheck (s : Src) : Option TrapInfo :=
  check s.isUniform
    { cause := 0x0C,
      einfo := if s.ind then einfoO s.code (lane s.regs 0) 0 0 0 s.xi (lane s.idx 0) else einfoO s.code (s.reg.getD 0) 0 0 0 0 0 }

/-- The window check of an indirect source (R232). -/
def Src.winCheck (s : Src) : Option TrapInfo :=
  checkLanes s.oob (fun l =>
    { cause := 0x0D, einfo := einfoO s.code (lane s.regs l) l 0 0 s.xi (lane s.idx l) })

/-- The poison of the active lanes' values as consumption (R418, R419). -/
def Src.poisCheck (s : Src) (m : Mask) : Option TrapInfo :=
  checkLanes (s.pois &&& m) (fun l =>
    { cause := 0x1A, einfo := einfoO s.code (s.reg.getD 0) l 0 (lane s.tags l) 0 0 })

/-- The poison of the registers of one field as consumption: the lanes of all of them, and the first register of the first lane (R408,
R418, R419). -/
def poisJoin (ss : List Src) (m : Mask) : Option TrapInfo :=
  checkLanes (ss.foldl (fun x s => x ||| (s.pois &&& m)) 0) (fun l => match ss.find? (fun s => Mask.has s.pois l) with
    | some s => { cause := 0x1A, einfo := einfoO s.code (s.reg.getD 0) l 0 (lane s.tags l) 0 0 }
    | none => { cause := 0x1A })

/-- The bound and window checks of a destination (R60, R232). -/
def dstBound (regs : Nat) (dst : BitVec 9) : Option TrapInfo :=
  if dst.getLsbD 8 then none else boundCheck regs (dstReg dst)

/-- The window check of an indirect destination over the active lanes (R232). -/
def VCtx.dstWin (x : VCtx) (dst : BitVec 9) : Option TrapInfo :=
  if dst.getLsbD 8 then (x.old dst).winCheck else none

/-- REGS of the issuing warp (R60). -/
def VCtx.regs (x : VCtx) : Nat := x.d.curCol.regions.regs

/-- The registers that an instruction waits for: all that it reads (R235). -/
def VCtx.waits (_ : VCtx) (us : List Use) : List Nat := (us.map (fun u => u.src.waits)).flatten

/-- The warp holds four indirect reservations (R235). -/
def VCtx.windowsFull (x : VCtx) : Bool := x.d.curCol.windowsFull x.d.cur.slot

/-- A fifth indirect reservation of a warp must wait for one to end (R235). -/
def VCtx.fifthWindow (x : VCtx) (dst : BitVec 9) : Bool := dst.getLsbD 8 && x.windowsFull

/-- A register that the instruction reads is reserved (R235). -/
def VCtx.notReady (x : VCtx) (us : List Use) : Bool := x.d.curCol.busy x.d.cur.slot (x.waits us)

/-! ## Effects -/

/-- The PC moves past the instruction: by 1, and past both where it is the second of a pair (R98). -/
def Dev.advance (d : Dev) : Dev := d.modCurWarp (fun w => { w with pc := d.cur.pc + (if d.cur.second then 2 else 1) })

/-- The issue hints: STALL keeps the warp from issuing for that many ticks, YLD ranks it last at the next opportunity (R108). -/
def Dev.hint (d : Dev) (h : BitVec 7) : Dev :=
  d.modCurWarp (fun w => { w with
    stallUntil := max w.stallUntil (d.now + (h.extractLsb' 0 6).toNat + 1), yld := w.yld || h.getLsbD 6 })

/-- The index of lane l after the post-increment of a field's mode (R231 step 5). -/
def stepIdx (x : IxReg) (xm : BitVec 2) (i : Nat) : BitVec 8 :=
  let s : Int := i + x.stride.toInt
  if xm = 1 then BitVec.ofInt 8 s
  else if xm = 2 then BitVec.ofNat 8 i
  else if x.bound = 0 then BitVec.ofNat 8 i
  else BitVec.ofInt 8 (s % (x.bound.toNat : Int))

/-- The index updates of a field in the active lanes (R231 steps 1 and 5). -/
def Warp.stepField (w : Warp) (act : Mask) (pre : List Nat) (o : Operand) : Warp :=
  if o.ind && o.xm != 0 then
    let x := w.ixr o.xi
    w.setIx o.xi { x with idx := tab (fun l =>
      if Mask.has act l then stepIdx x o.xm (idxAt w act pre o.xi l) else lane x.idx l) }
  else w

/-- The index updates of all fields, each once (R233). -/
def Warp.stepFields (w : Warp) (act : Mask) (pre : List Nat) (fs : List Operand) : Warp :=
  fs.foldl (fun w o => w.stepField act pre o) w

/-- The index updates of an instruction applied to the device. -/
def VCtx.step (x : VCtx) (d : Dev) : Dev := d.modCurWarp (fun w => w.stepFields x.act x.pre x.fields)

/-- A result written to a destination field, direct or indirect (R66, R234). -/
def VCtx.writeDst (x : VCtx) (d : Dev) (dst : BitVec 9) (r : Result) : Dev :=
  if dst.getLsbD 8 then
    d.modCurCol (fun k => k.writeLanes d.cur.slot (tab (regAt x.w x.act x.pre (dstOperand dst))) x.act r)
  else d.writeReg (dstReg dst) x.act r

end Sys2Proof.Machine
end

