-- ==== Sys2Proof/Machine/Flags.lean ====
section
/-! DEFINITION. What an instruction leaves beside its value: the shape of its result (R66), its poison (R441), the predicate of a
comparison with the record of dropped poison (R167, R441), and the status bits of %wstat (R145). The finish of every V-format
instruction stands here: readiness, the issue checks in the order of R408, and the write. -/

namespace Sys2Proof.Machine

/-- The row of R66's table that an instruction follows, S being clear where the table asks it. -/
inductive ShapeRule where
  | plain | add | sub | shl | mul | copy
  deriving DecidableEq, Repr

/-- Base and stride of a uniform or affine source. -/
def Src.line (s : Src) : Option (Word × Word) :=
  match s.shape with
  | .uniform => some (lane s.vals 0, 0)
  | .affine b t => some (b, t)
  | .general => none

/-- A left shift as SHL gives it (R170). -/
def shlWord (a : Word) (k : Nat) : Word := if 32 ≤ k then 0 else a <<< k

/-- The shape of a whole result (R66 step 2). `preds` says that every predicate source holds one bit in all lanes. -/
def resultShape (rule : ShapeRule) (ss : List Src) (preds : Bool) : Shape :=
  if ss.all (fun s => s.shape == .uniform) && preds then .uniform
  else
    match rule, ss with
    | .add, [a, b] => match a.line, b.line with
      | some (x, s), some (y, t) => .affine (x + y) (s + t)
      | _, _ => .general
    | .sub, [a, b] => match a.line, b.line with
      | some (x, s), some (y, t) => .affine (x - y) (s - t)
      | _, _ => .general
    | .shl, [a, b] => match a.line, b.shape with
      | some (x, s), .uniform =>
        let k := (lane b.vals 0).toNat % 64
        .affine (shlWord x k) (shlWord s k)
      | _, _ => .general
    | .mul, [a, b] => match a.line, b.line, a.shape, b.shape with
      | some (x, s), some (u, _), _, .uniform => .affine (x * u) (s * u)
      | some (u, _), some (x, s), .uniform, _ => .affine (x * u) (s * u)
      | _, _, _, _ => .general
    | .copy, [a] => a.shape
    | _, _ => .general

/-- The poison of a result whose lanes depend on every source (R441). -/
def poisOf (ss : List Src) : Mask := ss.foldl (fun m s => m ||| s.pois) 0

/-- A predicate holds one bit in all 32 lanes (R66). -/
def predUniform (m : Mask) : Bool := m == 0 || m == Mask.all

/-- A result from a lane function over sources, each lane depending on all of them. -/
def laneResult (rule : ShapeRule) (ss : List Src) (fmt : BitVec 5) (f : Nat → Word) : Result :=
  { vals := tab f, pois := poisOf ss, fmt := fmt, shape := resultShape rule ss true }

/-- Sources in the order in which R408 examines them: the old destination before A, B and C. -/
def dFirst (us : List Use) : List Use := us.filter (fun u => u.src.code == 0) ++ us.filter (fun u => u.src.code != 0)

/-- The issue checks of a V-format instruction in the order of R408: register bounds, uniformity under U, tags, windows, then the
instruction's own. -/
def VCtx.checks (_ : VCtx) (u : Bool) (bounds : List (Option TrapInfo)) (win : Option TrapInfo) (us : List Use)
    (preds : Option TrapInfo) (own : List (Option TrapInfo)) : Option TrapInfo :=
  let us := dFirst us
  firstTrap (bounds ++ (if u then us.map (fun y => y.src.uniCheck) ++ [preds] else []) ++ us.map Use.tagCheck ++ [win] ++
    us.map (fun y => y.src.winCheck) ++ own)

/-- The register bounds of sources (R60). -/
def VCtx.bounds (x : VCtx) (us : List Use) : List (Option TrapInfo) := us.map (fun y => y.src.boundCheck x.regs)

/-- The finish of a V-format instruction with a register destination: not ready while a register it reads is reserved (R235);
then the checks, and the wait of a fifth indirect reservation; then the result is written, the indices step, the hints and the PC
move on. -/
def VCtx.finish (x : VCtx) (f : VFields) (us : List Use) (preds : Option TrapInfo) (own : List (Option TrapInfo)) (r : Result)
    (post : Dev → Dev) : Issue :=
  if x.notReady us then .hold (x.d.holdRegs (x.waits us))
  else match x.checks f.h.u (dstBound x.regs f.d :: x.bounds us) (x.dstWin f.d) us preds own with
    | some t => .trap t
    | none =>
      if x.fifthWindow f.d then .hold x.d else .retire ((x.step (x.writeDst (post x.d) f.d r)).hint f.hint).advance

/-- The finish of an instruction that writes a range of registers from its destination on: the bounds of its ranges are its own. -/
def VCtx.finishRange (x : VCtx) (f : VFields) (bounds : List (Option TrapInfo)) (us : List Use) (own : List (Option TrapInfo))
    (rs : List Result) (post : Dev → Dev) : Issue :=
  if x.notReady us then .hold (x.d.holdRegs (x.waits us))
  else match x.checks f.h.u bounds none us none own with
    | some t => .trap t
    | none => .retire ((x.step ((post x.d).writeRegs (dstReg f.d) x.act rs)).hint f.hint).advance

/-- The error record of a poison that passes no further than a predicate (R441, R461). -/
def Dev.predPoison (d : Dev) (m : Mask) : Dev :=
  if m = 0 then d
  else d.recordCol d.cur.col { kind := 0x04, unit := 0, ctx := some d.curWarp.ctx, pc := d.curWarp.pc, lane := Mask.first m,
                               slot := d.cur.slot }

/-- The finish of an instruction whose destination is predicate pd: bits in the active lanes (R167), the poison recorded. -/
def VCtx.finishPred (x : VCtx) (f : VFields) (us : List Use) (preds : Option TrapInfo) (bits : Mask) : Issue :=
  if x.notReady us then .hold (x.d.holdRegs (x.waits us))
  else match x.checks f.h.u (x.bounds us) none us preds [] with
    | some t => .trap t
    | none =>
      let d := x.d.predPoison (poisOf (us.map Use.src) &&& x.act)
      let d := d.modCurWarp (fun w => w.setPred (f.d.toNat % 8) x.act bits)
      .retire ((x.step d).hint f.hint).advance

end Sys2Proof.Machine
end

