-- ==== Sys2Proof/Machine/Ops.lean ====
section
/-! DEFINITION. The shared operations of the instructions: the end of an issue, the start of loads and stores with translation, the
side log and the counters (R221, R421-R423), the words of the pool and the B-SRAM (R202, R300), taking a trap (R399-R404) and the
return from one (R405), the end of a warp (R70), and the reset of a context (R451-R453). -/

namespace Sys2Proof.Machine

/-! ## Accesses before translation -/

/-- A lane's access before it is translated. -/
def laneWant (lane tcol off size req : Nat) : LaneAcc :=
  { lane := lane, tcol := tcol, off := off % 2 ^ 44, va := 0, cut := size, va2 := 0, size := size, req := req, dst := [], data := [],
    pois := [], rng := none, pol := 0, zc := false, stable := false }

/-- An operation of the issuing warp with its lanes still to be translated. -/
def Dev.newOp (d : Dev) (kind : OpKind) (fmt : BitVec 5) (size : Nat) (ls : List LaneAcc) : MemOp :=
  { id := 0, slot := d.cur.slot, ctx := d.curWarp.ctx, kind := kind, lanes := ls, logged := 0, time := 0, done := [], resv := [],
    killed := [], window := false, uni := false, fmt := fmt, size := size, obj := 0, cpol := 0, rm := 0, sat := false, acq := false,
    reach := 0x7F, mark := false, itick := d.now, pc := d.cur.pc, entry := none, base := d.free, priv := d.cur.priv }

/-- A lane's access translated in column c (R33, R421): an access that crosses a granule translates both. -/
def State.resolve (s : State) (c ctx : Nat) (cpol : BitVec 2) (write priv : Bool) (a : LaneAcc) : Except (Flt × Nat) LaneAcc × Dev :=
  match s.translate c ctx a.off write priv with
  | (.error f, d) => (.error (f, granOf a.off), d)
  | (.ok e, d) =>
    let b : LaneAcc := { a with va := e.va a.off, cut := a.size, pol := policy cpol e.cp, zc := e.zc, stable := e.stable }
    let n := 65536 - a.off % 65536
    if a.size ≤ n then (.ok b, d)
    else
      match { s with dev := d }.translate c ctx (a.off + n) write priv with
      | (.error f, d) => (.error (f, granOf (a.off + n)), d)
      | (.ok e2, d) => (.ok { b with cut := n, va2 := e2.va (a.off + n) }, d)

/-! ## Stores -/

/-- The lanes of a store-class operation: those that translate are to be performed, the others go to the side log (R423). A
GPATCH translates its header, which it reads. -/
def State.placeLanes (s : State) (c : Nat) (o : MemOp) (acc : AccKind) (priv : Bool) : List LaneAcc → Dev × List LaneAcc × Nat
  | [] => (s.dev, [], 0)
  | a :: as =>
    match s.resolve c o.ctx o.cpol (o.kind != .gpatch) priv a with
    | (.ok b, d) =>
      let (d, ls, n) := State.placeLanes { s with dev := d } c o acc priv as
      (d, b.pieces o.six false ++ ls, n)
    | (.error (f, g), d) =>
      let d := d.modCol c (fun k => k.logLane o k.nextOp a d.now g f acc)
      let (d, ls, n) := State.placeLanes { s with dev := d } c o acc priv as
      (d, ls, n + 1)

/-- An operation entered at column c, counted in its warp's LOADS and STORES (R221). -/
def Dev.enter (d : Dev) (c : Nat) (o : MemOp) : Dev :=
  let d := { d with free := d.free + 1 }.modCol c (fun k => k.addOp o)
  d.modWarp c o.slot (fun w => { w with
    loads := w.loads + (if o.kind.isLoad then 1 else 0), stores := w.stores + (if o.kind.isStore then 1 else 0) })

/-- A store-class operation starts (R221, R423); the column's L1 takes an ST or STU in the same tick (R205). -/
def State.startStore (s : State) (c : Nat) (o : MemOp) (acc : AccKind) (priv : Bool) : Dev :=
  let (d, ls, n) := s.placeLanes c o acc priv o.lanes
  let o := { o with lanes := ls, logged := n }
  let d := if o.kind = .store ∨ o.kind = .ustore then d.modCol c (fun k => k.l1Send d.now o) else d
  d.enter c o

/-- A store-class operation of n lanes may start: the side log has room (R423) and STORES stays below 64 (R221). -/
def Column.storeRoom (k : Column) (s n : Nat) : Bool := decide (n ≤ k.logFree) && decide ((k.warp s).stores < 63)

/-! ## Loads -/

/-- A lane's values from usable stable lines of the L1, which are read without translation (R437), unless an own earlier access to
its bytes is still to be performed (R222) or the granule waits on a fault (R425). Where another agent has written the page since,
each 4-byte element is an old or the new one (R42). -/
def State.stableHit (s : State) (c : Nat) (o : MemOp) (ps : List LaneAcc) : Option (List LaneWrite) :=
  let k := s.dev.col c
  if o.cpol = 1 || o.kind == .xget || ps.any (fun a => (k.filterOf o.ctx (granOf a.off)).isSome) then none
  else
    let ws := ps.map (fun a => s.takeHit c o true (match s.walk c o.ctx a.off with
      | .ok e => some (e.va a.off)
      | .error _ => none) a)
    if ws.all Option.isSome then some (ws.map (fun x => x.getD [])).flatten else none

/-- The translated pieces of a load's lane: those that hit in the L1 have their values, the others are left (R204, R216). -/
def State.hitPieces (s : State) (c : Nat) (o : MemOp) (ps : List LaneAcc) : List LaneAcc × List LaneWrite :=
  let looks (a : LaneAcc) : Bool := a.pol != 1 && o.kind.isLoad && !o.kind.isStore && o.kind != .xget
  let ws := ps.map (fun a => (a, if looks a then s.takeHit c o false (some a.va) a else none))
  ((ws.filter (fun x => x.2.isNone)).map Prod.fst, (ws.map (fun x => x.2.getD [])).flatten)

/-- The lanes of a load-class operation: those that hit in the L1 have their values, the others are translated and left. The answer lists
the failed translations with their granules. -/
def State.seekLanes (s : State) (c : Nat) (o : MemOp) (write priv : Bool) :
    List LaneAcc → Dev × List LaneAcc × List LaneWrite × List (Flt × Nat)
  | [] => (s.dev, [], [], [])
  | a :: as =>
    match if write then none else s.stableHit c o (a.pieces o.six (o.kind == .loadT)) with
    | some ws =>
      let (d, ls, done, fs) := State.seekLanes { s with dev := s.dev.modCol c (fun k => k.l1Use o.ctx [a]) } c o write priv as
      (d, ls, ws ++ done, fs)
    | none =>
      match s.resolve c o.ctx o.cpol write priv a with
      | (.ok b, d) =>
        let ps := b.pieces o.six (o.kind == .loadT)
        let (ms, ws) := { s with dev := d }.hitPieces c o ps
        let d := if ws.isEmpty then d else d.modCol c (fun k => k.l1Use o.ctx ps)
        let (d, ls, done, fs) := State.seekLanes { s with dev := d } c o write priv as
        (d, ms ++ ls, ws ++ done, fs)
      | (.error f, d) =>
        let (d, ls, done, fs) := State.seekLanes { s with dev := d } c o write priv as
        (d, ls, done, f :: fs)

/-- The requests of a load's lanes (R215). -/
def MemOp.requests (o : MemOp) : Nat :=
  (((o.lanes.map (fun a => (a.pieces o.six (o.kind == .loadT)).map LaneAcc.req)).flatten).eraseDups).length

/-- Failed translations reported at a column (R426). -/
def Dev.reportAll (d : Dev) (c ctx : Nat) (acc : AccKind) (fs : List (Flt × Nat)) : Dev :=
  fs.foldl (fun d f => d.report c ctx f.2 f.1 acc) d

/-- A held instruction: its faults are reported and its warp waits outside the active set, keeping its place in a counter (R422, R85). -/
def Dev.holdFault (d : Dev) (acc : AccKind) (fs : List (Flt × Nat)) (place : BitVec 2 := 0) : Dev :=
  let d := d.reportAll d.cur.col d.curWarp.ctx acc fs
  d.leave (.translation ((fs.map Prod.snd).eraseDups) (acc == .fetch) place)

/-- A load-class operation of the issuing warp starts, or its warp is held (R421, R422). An operation that also writes (an atomic)
translates every lane for a write. It has missed unless all its requests hit; an LDT of more than 32 requests has missed too (R216,
R226). The answer says whether it started. -/
def State.startLoad (s : State) (o : MemOp) (acc : AccKind) (write priv : Bool) : Dev × Bool :=
  let c := s.dev.cur.col
  let (d, ls, done, fs) := s.seekLanes c o write priv o.lanes
  if fs.isEmpty then
    let n := o.requests
    (d.enter c { o with
      lanes := ls, done := o.done ++ o.spread done, reqs := n, missed := !ls.isEmpty || (o.kind == .loadT && decide (32 < n)) }, true)
  else (d.holdFault acc fs (if o.kind.isLoad then 1 else 2), false)

/-- LOADS stays below 64 (R221). -/
def Warp.loadRoom (w : Warp) : Bool := decide (w.loads < 63)

/-! ## Pool and B-SRAM words -/

/-- Where B-SRAM words stand in the table of undefined ranges. -/
def bsBase : Nat := 2 ^ 19

/-- What a pool or B-SRAM word that holds nothing of a context's reads as: zero, or undefined since a reset (R202, R300, R452). -/
def Column.blank (k : Column) (ctx i : Nat) : Word × Bool :=
  match k.undef.find? (fun u => u.ctx == ctx && decide (u.lo ≤ i) && decide (i < u.hi)) with
  | some u => (Config.freeWord (u.base + i), false)
  | none => (0, false)

/-- The context that wrote byte i of a word last (R202). -/
def PoolWord.owner (p : PoolWord) (i : Nat) : Nat := ((p.alt.find? (fun x => x.1 == i)).map Prod.snd).getD p.ctx

/-- What an entry of the pool or the B-SRAM gives a context (R202, R300): zero in the bytes that another context wrote last. -/
def Column.ofEntry (k : Column) (ctx i : Nat) (e : Option PoolWord) : Word × Bool :=
  match e with
  | some p =>
    if p.alt.isEmpty then (if p.ctx = ctx then (p.val, p.pois) else (0, false))
    else
      let mine (j : Nat) : Bool := p.owner j == ctx
      ((List.range 4).foldl (fun w j => if mine j then w ||| (p.val &&& (0xFF#32 <<< (8 * j))) else w) 0, p.pois && (List.range 4).any mine)
  | none => k.blank ctx i

/-- A word of the pool for a context: what was last written for it, zero otherwise, or undefined since a reset (R202, R452). -/
def Column.poolWord (k : Column) (ctx i : Nat) : Word × Bool := k.ofEntry ctx i (k.pool.get? i)

/-- A pool word written for a context. -/
def Column.putPool (k : Column) (ctx i : Nat) (v : Word) (p : Bool) : Column :=
  { k with pool := k.pool.set i { val := v, pois := p, ctx := ctx } }

/-- A word of the B-SRAM for a context (R300). -/
def Column.bsWord (k : Column) (ctx i : Nat) : Word × Bool := k.ofEntry ctx (bsBase + i) (k.bsram.get? i)

/-- A B-SRAM word written for a context. -/
def Column.putBs (k : Column) (ctx i : Nat) (v : Word) (p : Bool) : Column :=
  { k with bsram := k.bsram.set i { val := v, pois := p, ctx := ctx } }

/-- The bytes of the scratchpad of a gang (R60). -/
def Column.spadBytes (k : Column) : Nat := k.regions.spad * 128

/-- The first pool byte of a gang's scratchpad (R60, R225). -/
def Column.spadBase (k : Column) (gang : Nat) : Nat := k.poolReg + gang * k.regions.spad * 128

/-- Bg: the B-SRAM bytes of a gang (R300). -/
def Column.bsGang (k : Column) : Nat := if k.regions.n = 0 then 0 else 256 * (4096 / k.regions.n)

/-- B: the named barriers of a gang (R60). -/
def Column.barCount (k : Column) : Nat := if k.regions.n = 0 then 64 else min 64 (128 / k.regions.n)

/-- Bytes from a pool byte on, with the poison of the words they lie in. -/
def Column.poolBytes (k : Column) (ctx a n : Nat) : List Byte × Bool :=
  let at_ (i : Nat) := k.poolWord ctx (i / 4)
  ((List.range n).map (fun i => (at_ (a + i)).1.extractLsb' (8 * ((a + i) % 4)) 8),
   (List.range n).any (fun i => (at_ (a + i)).2))

/-- A word with one byte replaced. -/
def setByte (w : Word) (i : Nat) (b : Byte) : Word :=
  (w &&& ~~~(0xFF#32 <<< (8 * (i % 4)))) ||| ((b.setWidth 32) <<< (8 * (i % 4)))

/-- A word after one of its bytes is written for a context (R202): the other bytes keep their contents and their contexts. -/
def PoolWord.putByte (p : PoolWord) (ctx i : Nat) (b : Byte) (pois : Bool) : PoolWord :=
  let own (j : Nat) : Nat := if j = i % 4 then ctx else p.owner j
  { val := setByte p.val i b, pois := pois, ctx := own 0,
    alt := ([1, 2, 3].filter (fun j => own j != own 0)).map (fun j => (j, own j)) }

/-- Bytes written from a byte on of the pool, or of the B-SRAM, whose words are the blank ones from `base` on. A poisoned write poisons every word
that it touches; an unpoisoned one clears a word's poison only where it fills the word (R442, R445). -/
def Column.putBytes (k : Column) (base ctx : Nat) (pois : Bool) : Table PoolWord → Nat → List Byte → Table PoolWord
  | t, _, [] => t
  | t, a, b :: bs =>
    let p : PoolWord := match t.get? (a / 4) with
      | some p => p
      | none => let x := k.blank ctx (base + a / 4); { val := x.1, pois := x.2, ctx := ctx }
    let fills := a % 4 == 0 && decide (3 ≤ bs.length)
    Column.putBytes k base ctx pois (t.set (a / 4) (p.putByte ctx a b (pois || (p.pois && !fills)))) (a + 1) bs

/-- Bytes written from a pool byte on. -/
def Column.putPoolBytes (k : Column) (ctx : Nat) (pois : Bool) (a : Nat) (bs : List Byte) : Column :=
  { k with pool := k.putBytes 0 ctx pois k.pool a bs }

/-- Bytes written from a B-SRAM byte on (R300). -/
def Column.putBsBytes (k : Column) (ctx : Nat) (pois : Bool) (a : Nat) (bs : List Byte) : Column :=
  { k with bsram := k.putBytes bsBase ctx pois k.bsram a bs }

/-- A word of the pool or of the B-SRAM loses its poison. -/
def cleanWord (t : Table PoolWord) (i : Nat) : Table PoolWord :=
  match t.get? i with
  | some p => t.set i { p with pois := false }
  | none => t

/-! ## Taking a trap and returning -/

/-- Word i of lane l of the private window of a warp slot, Z bytes a lane (R43). -/
def winWord (z slot i l : Nat) : Nat := 0xFF000000000 + slot * 32 * z + (32 * i + l) * 4

/-- Z of the issuing warp's launch (R43). -/
def Dev.pwin (d : Dev) : Nat := d.curRec.pwin

/-- The six words of a trap frame, Wd - 6 first (R403). -/
def frameWords (t : TrapInfo) (epc : BitVec 48) (paired second defer ovf : Bool) : List Word :=
  [epc.setWidth 32,
   BitVec.ofNat 32 (epc.toNat / 2 ^ 32 + t.cause % 256 * 2 ^ 16 + (if paired then 2 ^ 24 else 0) + (if defer then 2 ^ 25 else 0) +
     (if second then 2 ^ 26 else 0) + (if ovf then 2 ^ 27 else 0)),
   t.emask, t.einfo.setWidth 32, t.einfo.extractLsb' 32 32, 0]

/-- Ordinary 32-bit stores of one lane's words of the private window, one operation each (R160, R402). -/
def State.windowStores (s : State) (lane : Nat) (priv : Bool) : List (Nat × Word) → Dev
  | [] => s.dev
  | (i, v) :: rest =>
    let d := s.dev
    let a : LaneAcc :=
      { laneWant lane d.cur.col (winWord d.pwin d.cur.slot i lane) 4 0 with data := [v], pois := [false] }
    let d := s.startStore d.cur.col (d.newOp .store Fmt.ui32 2 [a]) .store priv
    State.windowStores { s with dev := d } lane priv rest

/-- The vector line's offset of a cause, and its PC (R402). -/
def vectorOff (cause : Nat) : Nat := 0xFE000000000 + 64 * cause
/-- The PC of a cause's vector line (R402). -/
def vectorPc (cause : Nat) : BitVec 48 := BitVec.ofNat 48 (0x13D80000000 + 5 * cause)

/-! ## The end of a warp -/

/-- The parts of an undefined range outside [lo, hi). -/
def UndefRange.cut (u : UndefRange) (lo hi : Nat) : List UndefRange :=
  [{ u with hi := min u.hi lo }, { u with lo := max u.lo hi }].filter (fun v => decide (v.lo < v.hi))

/-- The register rows of a warp become pool bytes when it ends, each lane's value at its place (R91, R202). -/
def Column.spillRows (k : Column) (s : Nat) : Column :=
  let w := k.warp s
  let n := k.regions.regs
  let lo := s * n * 32
  let hi := (s + 1) * n * 32
  let rows : Table PoolWord := ((w.regs.filter (fun r => decide (r.1 < n))).map (fun r =>
    lanes.map (fun l => (lo + 32 * r.1 + l, ({ val := r.2.data.lane l, pois := r.2.data.pois l, ctx := w.ctx } : PoolWord))))).flatten
  { k with
    pool := k.pool.filter (fun x => decide (x.1 < lo)) ++ rows ++ k.pool.filter (fun x => decide (hi ≤ x.1)),
    undef := (k.undef.map (fun u => u.cut lo hi)).flatten }

/-- The register rows of every warp become pool bytes as the warps leave the column together (R202, R452). -/
def Column.spillAll (k : Column) : Column := k.warps.foldl (fun (k : Column) w => k.spillRows w.1) k

/-- The owner of a copy or a program whose warp in slot s ends into a tracker entry. -/
def Owner.orphan (o : Owner) (s e : Nat) : Owner :=
  match o with
  | .warp c t none => if t = s then .warp c t (some e) else o
  | _ => o

/-- The owner is the warp that now holds slot s. -/
def Owner.isWarp (o : Owner) (s : Nat) : Bool :=
  match o with
  | .warp _ t none => t == s
  | _ => false

/-- The owner is a tracker entry. -/
def Owner.isEntry (o : Owner) (e : Nat) : Bool :=
  match o with
  | .warp _ _ (some x) => x == e
  | _ => false

/-- The stores, reductions and copies that a warp has outstanding (R70). -/
def Column.outstanding (k : Column) (s : Nat) : Bool :=
  k.ops.any (fun o => o.slot == s && o.entry.isNone) || k.log.any (fun e => e.slot == s && !e.orph && e.state != 3) ||
    k.copies.any (fun c => c.owner.isWarp s) || k.hand.runq.any (fun r => r.owner.isWarp s) ||
    (match k.hand.running with
      | some r => r.owner.isWarp s
      | none => false)

/-- A tracker entry still has an operation without its completion time (R70). -/
def Column.entryBusy (k : Column) (e : Nat) : Bool :=
  k.ops.any (fun o => o.entry == some e) || k.copies.any (fun c => c.owner.isEntry e) ||
    k.hand.runq.any (fun r => r.owner.isEntry e) ||
    (match k.hand.running with
      | some r => r.owner.isEntry e
      | none => false)

/-- A tracker entry is in use: an operation of its has no completion time yet, or Now() has not reached the latest (R70). -/
def Column.entryUsed (k : Column) (now : Nat) (t : Tracker) : Bool := k.entryBusy t.id || t.times.toList.any (fun x => decide (now < x))

/-- The tracker entries in use. -/
def Column.usedEntries (k : Column) (now : Nat) : List Tracker := k.tracker.filter (k.entryUsed now)

/-- A completion time of a warp's work is still to come (R70). -/
def Warp.timesAhead (w : Warp) (now : Nat) : Bool := w.relTimes.toList.any (fun t => decide (now < t))

/-- The least number that no tracker entry has. -/
def Column.freeEntry (k : Column) : Nat :=
  ((List.range (k.tracker.length + 1)).find? (fun n => k.tracker.all (fun t => t.id != n))).getD 0

/-- The warp of slot s ends (R70, R71): its outstanding operations and unreached completion times pass to a tracker entry, its rows to
the pool, its slot is free, and with its last warp the gang's slot and rings. Entries no longer in use have freed. -/
def Column.endWarp (k : Column) (now s : Nat) : Column :=
  let w := k.warp s
  let k : Column := { k with tracker := k.usedEntries now }
  let e := k.freeEntry
  let k : Column :=
    if k.outstanding s || w.timesAhead now then
      { k with
        tracker := k.tracker ++ [{ id := e, slot := s, gang := w.gang, launch := w.launch, coords := w.coords,
                                      spawned := w.spawned, times := w.relTimes }],
        ops := k.ops.map (fun o : MemOp => if o.slot = s ∧ o.entry = none then { o with entry := some e } else o),
        log := k.log.map (fun x : LogEntry => if x.slot = s then { x with orph := true } else x),
        copies := k.copies.map (fun c : CopyCmd => { c with owner := c.owner.orphan s e }),
        hand := { k.hand with runq := k.hand.runq.map (fun r : RunDesc => { r with owner := r.owner.orphan s e }),
                              running := k.hand.running.map (fun r : RunDesc => { r with owner := r.owner.orphan s e }) } }
    else k
  let k : Column := { k with hand := { k.hand with atomq := k.hand.atomq.map (fun x : NmEntry =>
    if x.slot = s then { x with orph := true } else x) } }
  let k := k.spillRows s
  let k : Column := { k with xbuf := k.xbuf.del s, xchs := k.xchs.map (fun x : XchOp => if x.slot = s then { x with slot := 48 } else x) }
  let k : Column := { k with warps := k.warps.del s, busyEnd := now, watches := k.watches.filter (fun x => match x.who with
    | .warp t => t != s
    | _ => true) }
  if k.warps.any (fun x => x.2.gang == w.gang) then k
  else
    { k with gangs := k.gangs.filter (fun g => g.slot != w.gang),
             rings := k.rings.filter (fun r => r.2.gang != w.gang) }

/-- TAIL is not ready: a load or a tile operation outstanding, or all sixteen tracker entries in use (R21, R70). -/
def Column.endHeld (k : Column) (now s : Nat) : Bool :=
  decide (0 < (k.warp s).loads) || decide (0 < (k.warp s).tiles) ||
    ((k.outstanding s || (k.warp s).timesAhead now) && decide (16 ≤ (k.usedEntries now).length))

/-! ## Context reset -/

/-- The completion word of a copy, where it has one (R344, R349): its column and offset. -/
def CopyDesc.word (x : CopyDesc) (c : Nat) : Option (Nat × Nat) :=
  if x.ck = 0 then some (if ptrSel x.cw = 0x7FF then c else ptrSel x.cw, ptrOff x.cw) else none

/-- The completion word of a run descriptor, where it has one (R372). -/
def RunDesc.word (r : RunDesc) (c : Nat) : Option (Nat × Nat) :=
  let p := r.q[2]
  if p = 0 then none else some (if ptrSel p = 0x7FF then c else ptrSel p, ptrOff p)

/-- ERR of a failed command (R448). -/
def errWord (unit detail code : Nat) : Word := BitVec.ofNat 32 (code + detail % 256 * 2 ^ 8 + unit % 256 * 2 ^ 16)

/-- The completion words that a reset of a context updates on a column, of its copies there and of those `saved` in its image, with ERR code 0x06
(R449, R452). -/
def Column.resetWords (k : Column) (c ctx cause : Nat) (saved : List CopyCmd) : List (Nat × Nat × Nat × Word) :=
  let cs := ((k.copies ++ saved).filter (fun x => x.ctx == ctx)).filterMap (fun x =>
    (x.desc.word c).map (fun p => (c, p.1, p.2, errWord 0x14 cause 6)))
  let rs := ((k.hand.runq ++ k.hand.running.toList).filter (fun x => x.ctx == ctx)).filterMap (fun x =>
    (x.word c).map (fun p => (c, p.1, p.2, errWord 0x15 cause 6)))
  cs ++ rs

/-- What a program that has ended leaves of the banks' times: no row operation and no ordinary window. -/
def BankTimes.left (b : BankTimes) : BankTimes := { b with run := none, windows := [], kept := [] }

/-- A claim's range tested once against memory as the claim ends (R371). -/
def State.testClaims (s : State) (c : Nat) (cs : List Claim) : State := cs.foldl (fun (s : State) x => s.testWatches c x.off x.len) s

/-- The stagehand without the work of a context (R452): a row that its program has opened stays open (R368). -/
def Hand.reset (h : Hand) (ctx : Nat) : Hand :=
  let h : Hand := { h with runq := h.runq.filter (fun r => r.ctx != ctx), atomq := h.atomq.filter (fun e => e.ctx != ctx) }
  match h.running with
  | some r => if r.ctx = ctx then { h with running := none, wait := .none, claims := [], banks := h.banks.left } else h
  | none => h

/-- The claims of a context's running program, which end as it is reset (R371, R452). -/
def Hand.claimsOf (h : Hand) (ctx : Nat) : List Claim :=
  match h.running with
  | some r => if r.ctx = ctx then h.claims else []
  | none => []

/-- Steps 1 to 5 of a reset on one column (R452). `here` says that the context was resident; `base` numbers the undefined values. -/
def Column.reset (k : Column) (ctx : Nat) (here : Bool) (base : Nat) : Column :=
  let k := if here then k.spillAll else k
  let k : Column :=
    { k.dropXlate ctx 0 (2 ^ 28) with
      ops := k.ops.filter (fun o => o.ctx != ctx), log := k.log.filter (fun e => e.ctx != ctx),
      filter := k.filter.filter (fun e => e.ctx != ctx), watches := k.watches.filter (fun w => w.ctx != ctx),
      code := k.code.filter (fun e => e.ctx != ctx),
      objs := k.objs.filter (fun e => e.ctx != ctx),
      l1 := k.l1.filter (fun f => f.ctx != ctx), copies := k.copies.filter (fun x => x.ctx != ctx),
      tileQ := k.tileQ.map (fun q => q.filter (fun t => t.ctx != ctx)), hand := k.hand.reset ctx }
  if here then
    { k with
      warps := [], gangs := [], bars := [], rings := [], tracker := [], outbuf := [], turned := [], reports := [], xchs := [], xbuf := [],
      yielded := false,
      pool := k.pool.filter (fun x => decide (x.1 < k.poolSpad / 4) || decide (k.poolAcc / 4 ≤ x.1)), bsram := [],
      undef := { ctx := ctx, lo := k.poolSpad / 4, hi := k.poolAcc / 4, base := base } ::
        { ctx := ctx, lo := bsBase, hi := 2 * bsBase, base := base } ::
        (k.undef.map (fun u => (u.cut (k.poolSpad / 4) (k.poolAcc / 4)).flatMap (fun v => v.cut bsBase (2 * bsBase)))).flatten,
      l2 := k.l2Unpin.l2, l2Bypass := k.l2Unpin.l2Bypass, was := k.was.filter (fun o => o.ctx != ctx), past := k.past.filter (fun o => o.ctx != ctx) }
  else k

/-- An accepted command begins to run. -/
def RingBlock.begin (b : RingBlock) (e : CmdEntry) : RingBlock :=
  { b with accepted := b.accepted.filter (fun x => x.seq != e.seq), begun := b.begun ++ [e] }

/-- The commands of a context on a ring complete with a status, but the one whose SEQ is kept (R452). -/
def Dev.abandon (d : Dev) (r : RingId) (ctx status : Nat) (keep : Option (BitVec 64)) : Dev :=
  let mine (e : CmdEntry) : Bool := e.ctx.toNat == ctx && e.opc != 6 && keep != some e.seq
  let b := d.ring r
  let d := d.putRing r ((b.accepted.filter mine).foldl RingBlock.begin b)
  ((d.ring r).begun.filter mine).foldl (fun d e => d.complete r e.seq status) d

/-- The completion words of abandoned commands updated where their pages translate. -/
def State.failWords (s : State) (ctx : Nat) : List (Nat × Nat × Nat × Word) → State
  | [] => s
  | (c, tc, off, e) :: rest =>
    let s := match s.wordDone c tc ctx off (some e) with
      | (.ok (t, _), _) => t
      | (.error _, d) => { s with dev := d }
    State.failWords s ctx rest

/-- The vault key of an image slot of a column (R89). -/
def slotKey (c slot : Nat) : Nat := vkey c (0x60000000 + slot % 2 * 0x400000)

/-- VALID of an image slot cleared (R90, R93). -/
def Memory.clearValid (m : Memory) (c slot : Nat) : Memory := m.write (slotKey c slot + 6) [0, 0]

/-- VALID of every image of a context cleared; an image's key has its column and slot. -/
def State.clearImages (s : State) (ctx : Nat) : Memory :=
  (s.dev.images.filter (fun i => i.2.ctx == ctx)).foldl (fun (m : Memory) i => m.clearValid (i.1 / 2) (i.1 % 2)) s.vault

/-- A context is reset (R452): on every column of its partition its warps and engines end, its logs and caches are dropped; its
commands complete with STATUS 5, its image is discarded, it becomes empty, and a record of kind 0x0A is sent. -/
def State.contextReset (s : State) (ctx cause code : Nat) (keep : Option (BitVec 64)) : State :=
  let d := s.dev
  let x := d.ctx ctx
  let p := d.part x.part
  let here := x.state == .resident
  let saved (c : Nat) : List CopyCmd := ((d.images.filter (fun i => i.1 / 2 == c && i.2.ctx == ctx)).map (fun i => i.2.copies)).flatten
  let words := (p.columns.map (fun c => (d.col c).resetWords c ctx cause (saved c))).flatten
  let claims := p.columns.map (fun c => (c, (d.col c).hand.claimsOf ctx))
  let saving := match p.preempt with
    | some q => q.ctx == ctx
    | none => false
  let d := p.columns.foldl (fun d c => d.modCol c (fun k =>
    let k : Column := { k.reset ctx here (d.free + c * 2 ^ 20) with busyEnd := d.now }
    if saving && !p.held && !p.holdWanted then { k with halted := false } else k)) d
  let mine (id : Nat) : Bool := match d.launches.get? id with
    | some l => l.ctx == ctx
    | none => false
  let p : Partition :=
    { p with queues := p.queues.mapVals (fun _ q => q.filter (fun id => !mine id)), preempt := if saving then none else p.preempt }
  let d : Dev :=
    { d with
      free := d.free + 2 ^ 32, parts := if d.parts.has x.part then d.parts.set x.part p else d.parts,
      ctxs := if d.ctxs.has ctx then d.ctxs.set ctx { x with state := .empty } else d.ctxs,
      bards := d.bards.filter (fun b => !mine b.launch), launches := d.launches.filter (fun l => l.2.ctx != ctx),
      images := d.images.filter (fun i => i.2.ctx != ctx), replays := d.replays.filter (fun r => r.2.ctx != ctx),
      wings := d.wings.filter (fun w => w.2.ctx != ctx), faults := d.faults.filter (fun f => f.ctx != ctx),
      resolutions := d.resolutions.filter (fun r => r.ctx != ctx) }
  let d := d.abandon (.part x.part) ctx 5 keep
  let d := d.record (dieOf p.first) { kind := 0x0A, unit := 0, ctx := some ctx, detail := BitVec.ofNat 128 (cause + code % 256 * 256) }
  let s := ({ vault := s.clearImages ctx, dev := d } : State).failWords ctx words
  claims.foldl (fun (s : State) x => s.testClaims x.1 x.2) s

/-! ## The trap -/

/-- The issuing warp is held by its trap entry: its vector line's page, or the room of the side log (R402). -/
def Dev.held (d : Dev) : Dev := { d with issued := .held }

/-- Trap entry (R402-R404): a nested trap, a window with no room or a bad vector line resets the context; a vector page that is not
present holds the warp; else the frame is written by six ordinary stores and the PC goes to the vector line in privileged mode. -/
def State.trapEntry (s : State) (t : TrapInfo) (defer : Bool) : State :=
  let d := s.dev
  let c := d.cur.col
  let w := d.curWarp
  let z := d.pwin
  let dead (s : State) (cause : Nat) : State :=
    let s := s.contextReset w.ctx cause 0 none
    { s with dev := { s.dev with issued := .trapped } }
  if d.cur.priv then dead s 7
  else if z < 24 then dead s 6
  else
    match s.fetchLine c w.ctx (vectorOff t.cause) with
    | (.error f, d) => { s with dev := (d.holdFault .fetch [(f, granOf (vectorOff t.cause))]).held }
    | (.ok x, d) =>
      let s := { s with dev := d }
      let marked := match x.line with
        | some b => lineTgt b 0
        | none => true
      if !x.sys || !marked then dead s 5
      else if d.curCol.logFree < 6 || decide (57 < w.stores) then { s with dev := d.held }
      else
        let epc := if t.next then d.cur.pc + 1 else d.cur.pc
        let ws := frameWords t epc d.cur.paired d.cur.second defer w.ovf
        let d := s.windowStores 1 false ((List.range 6).map (fun i => (z / 4 - 6 + i, ws.getD i 0)))
        let d := d.modCurWarp (fun w => { w with
          pc := vectorPc t.cause, privMode := true, ovf := false, wait := .none, relDone := false,
          deferred := if defer then w.deferred.drop 1 else w.deferred })
        -- the consumption of poison is recorded (R461)
        let d := if t.cause = 0x1A then
            d.recordCol c { kind := 0x03, unit := 0, ctx := some w.ctx, pc := d.cur.pc, lane := Mask.first t.emask, slot := d.cur.slot,
                            detail := t.einfo.setWidth 128 }
          else d
        { s with dev := { d with issued := .trapped } }

/-- The return from a trap: the PC, and nothing else (R405). -/
def Dev.eret (d : Dev) (pc : BitVec 48) : Dev := d.modCurWarp (fun w => { w with pc := pc })

/-- The hints of an instruction that retires (R108). -/
def Issue.hinted (h : BitVec 7) : Issue → Issue
  | .retire d => .retire (d.hint h)
  | .made s => .made { s with dev := s.dev.hint h }
  | x => x

/-- What an issue leaves: the state after it retired, or was held, or the trap's entry (R399). -/
def State.conclude (s : State) : Issue → Host.Outcome State Fault Refusal
  | .retire d => .next { s with dev := { d with issued := .retired } }
  | .made t => .next { t with dev := { t.dev with issued := .retired } }
  | .hold d => .next { s with dev := { d with issued := .held } }
  | .trap t => .next (s.trapEntry t false)

/-! ## Guards, transfers and uniform registers -/

/-- An instruction that acts for the whole warp: its guard selects every lane of E or none (R156). Two points are the model's choice
(DESIGN CHOICE, log 106): where E is empty the guard selects every lane and none, and the instruction has no effect; and the trap of
illegal convergence comes before the instruction's other checks, its target's among them, for R408 does not list it. -/
def Dev.whole (d : Dev) (h : Head) (go : Unit → Issue) : Issue :=
  if d.curWarp.noneE h then .retire d.advance
  else if d.curWarp.allE h then go ()
  else .trap { cause := 0x0A }

/-- A checked transfer to a slot (R99): refused with 0x06, held for its line, or made. -/
def State.transfer (s : State) (pc : BitVec 48) (go : Dev → Issue) : Issue :=
  match s.checkTarget s.dev.cur.col s.dev.curWarp.ctx s.dev.cur.priv pc with
  | (.ok, d) => go d
  | (.refused, _) => .trap { cause := 0x06, einfo := pc.setWidth 64 }
  | (.held f, d) => .hold (d.holdFault .fetch [(f, granOf (pcLine pc))])

/-- The PC of the issuing warp set. -/
def Dev.jump (d : Dev) (pc : BitVec 48) : Dev := d.modCurWarp (fun w => { w with pc := pc })

/-- A direct register that must be uniform and tagged UI32, I32 or RAW. -/
def Dev.uniUse (d : Dev) (code r : Nat) (pat : BitVec 2) (k : BitVec 5) : Use :=
  { src := Src.direct d.seen code r pat k, want := some Fmt.ui32, also := [Fmt.i32] }

/-- The value of a uniform register. -/
def Dev.uniVal (d : Dev) (r : Nat) : Word := d.seen.laneOf r 0

/-- The checks of uniform registers in the order of R408: the bound of the range up to `hi`, uniformity, tags, further checks, poison
as consumption (R418). -/
def Dev.uniTrap (d : Dev) (hi : Nat) (us : List Use) (own : List (Option TrapInfo)) : Option TrapInfo :=
  firstTrap (boundCheck d.curCol.regions.regs hi :: us.map (fun u => u.src.uniCheck) ++ us.map Use.tagCheck ++ own ++
    us.map (fun u => u.src.poisCheck Mask.all))

/-- An instruction that reads uniform registers: not ready while one is reserved, then the checks, then its effect. -/
def Dev.withUni (d : Dev) (hi : Nat) (us : List Use) (own : List (Option TrapInfo)) (go : Unit → Issue) : Issue :=
  let rs := (us.map (fun u => u.src.waits)).flatten
  if d.curCol.busy d.cur.slot rs then .hold (d.holdRegs rs)
  else match d.uniTrap hi us own with
    | some t => .trap t
    | none => go ()

/-! ## Release -/

/-- Release(M) before an instruction's effect (R252, R256): the warp waits, in the active set, until the release is over. -/
def Dev.release (d : Dev) (m : BitVec 7) (go : Dev → Issue) : Issue :=
  if d.curWarp.relDone || d.curCol.released d.cur.slot m d.now then
    go (d.modCurWarp (fun w => { w with relDone := false, wait := .none }))
  else .hold (d.stay (.release m))

/-! ## Readiness of pending warps -/

/-- A warp's recorded dependence has resolved (R85): it is a ready member of the pending set. -/
def Dev.waitOver (d : Dev) (c s : Nat) : Bool :=
  let k := d.col c
  let w := k.warp s
  w.park == .none && !w.stopped &&
    (match w.wait with
      | .none | .release _ => true
      | .regs rs => !k.busy s rs
      | .counters l st cp t =>
        decide (w.loads ≤ l) && decide (w.stores ≤ st) && decide (w.copies ≤ cp) && decide (w.tiles ≤ t)
      | .translation gs _ _ => gs.all (fun g => match k.filterOf w.ctx g with
        | some f => f.rerun.contains (.warp s)
        | none => true)
      | .replay => k.ops.all (fun o => o.slot != s || o.kind != .replay)
      | .queue q => decide ((k.tileQ.toList.getD q []).length < 8)
      | .interface => decide (k.outbuf.length < 4)
      | .save => (d.part (d.ctx w.ctx).part).preempt.isNone)

/-- A warp of the pending set that the column's last opportunity found ready, and nothing has changed that since (R73, R108). -/
def Dev.pendingOk (d : Dev) (c : Nat) (x : Nat × Warp) : Bool :=
  !x.2.active && (d.col c).readied.contains x.1 && d.waitOver c x.1 && decide (x.2.stallUntil ≤ d.now)

/-- The column has a ready warp in its pending set beside slot s. -/
def Dev.pendingReady (d : Dev) (c s : Nat) : Bool := (d.col c).warps.any (fun x => x.1 != s && d.pendingOk c x)

/-- A warp waits for a release (R252). -/
def Warp.atRelease (w : Warp) : Bool :=
  match w.wait with
  | .release _ => true
  | _ => false

/-! ## New warps -/

/-- The coordinates and SCOPE of a launch's warp level (R56, R58): its index, and its scope. -/
def LaunchRec.warpScope (r : LaunchRec) : BitVec 7 :=
  match r.levels.find? (fun l => l.dom == 2) with
  | some l => l.scope
  | none => 0

/-- A uniform RAW register (R63). -/
def rawReg (v : Word) : VReg := { fmt := Fmt.raw, data := .uniform v false }

/-- A warp as it begins in a slot (R63, R142): j warps of its launch started there before. -/
def newWarp (r : LaunchRec) (c slot j now ctx launch gang group : Nat) (coords : List Nat) (pc : BitVec 48) (prio : Nat)
    (spawned priv : Bool) : Warp :=
  let a := selfPtr r.args
  let seed := fun l => rngStart r.seed c slot l j
  { Warp.start with
    pc := pc, regs := [(0, rawReg (a.setWidth 32)), (1, rawReg (a.extractLsb' 32 32))], obs := r.warpScope, rng := tab seed,
    ctx := ctx, launch := launch, gang := gang, coords := coords, group := group, spawned := spawned, prio := prio, entered := now,
    privMode := priv }

/-- A warp started in a slot of column c, counted for R142. -/
def Dev.startWarp (d : Dev) (c slot launch : Nat) (mk : Nat → Warp) : Dev :=
  let key := launch * 64 + slot
  d.modCol c (fun k =>
    let j := k.started.getD key 0
    { k with gated := false, warps := k.warps.set slot (mk j), started := k.started.set key (j + 1) })

/-! ## Stops for the debugger -/

/-- A stopped warp is reported once its tile operations and copies have completed (R455); its stagehand programs may still be queued or running. -/
def Dev.reportStop (d : Dev) (c s : Nat) : Dev :=
  let w := d.warp c s
  if w.stopped && w.tiles == 0 && (d.col c).copies.all (fun x => !x.byWarp s) then { d with replies := d.replies ++ [.stop c s] } else d

end Sys2Proof.Machine
end

