-- ==== Sys2Proof/Machine/Integer.lean ====
section
/-! DEFINITION. The integer, predicate, move, logic, shift and field instructions (R166-R171). -/

namespace Sys2Proof.Machine

/-- The operand fields of a V-format instruction with n sources, the destination first (R107). -/
def vOperands (f : VFields) (n : Nat) : List Operand :=
  dstOperand f.d :: (if f.vi then [f.a] else ([f.a, f.b, f.c].take n))

/-- The reading context of a V-format instruction with n sources. -/
def vIn (f : VFields) (s : State) (n : Nat) : VCtx := vctx s.dev f.h (vOperands f n)

/-- A lane put together from element results (R153): wrapped, or clamped under S. -/
def intLane (t : BitVec 5) (sat : Bool) (g : Nat → Int) : Word :=
  (List.range (elems t)).foldl (fun y i => insCode t y i (intCode t (if sat then clampInt t (g i) else g i))) 0

/-- A source that is read under a format (R121). -/
def Use.of (s : Src) (t : BitVec 5) : Use := { src := s, want := some t }

/-- A source of any tag. -/
def Use.any (s : Src) : Use := { src := s, want := none }

/-- A register of a pointer or an index: UI32, I32 or RAW (R172, R173). -/
def Use.ptr (s : Src) : Use := { src := s, want := some Fmt.ui32, also := [Fmt.i32] }

/-- A pointer from its low and high register words (R27). -/
def ptrOf (lo hi : Word) : BitVec 64 := hi ++ lo

/-- No further effect. -/
def noPost (d : Dev) : Dev := d

/-- A two-source integer instruction (R166). -/
def intTwo (f : VFields) (s : State) (rule : ShapeRule) (g : Int → Int → Int) : Issue :=
  let x := vIn f s 2
  let t := f.h.ty
  let a := x.src 1 f.a
  let b := x.srcB f t
  let rule := if f.h.s || !affineTag t then .plain else rule
  x.finish f [Use.of a t, Use.of b t] none []
    (laneResult rule [a, b] t (fun l => intLane t f.h.s (fun i => g (elemInt t (lane a.vals l) i) (elemInt t (lane b.vals l) i)))) noPost

/-- The meaning of IADD. -/
def execIadd (f : VFields) (s : State) : Host.Outcome State Fault Refusal := s.conclude (intTwo f s .add (fun a b => a + b))

/-- The meaning of ISUB. -/
def execIsub (f : VFields) (s : State) : Host.Outcome State Fault Refusal := s.conclude (intTwo f s .sub (fun a b => a - b))

/-- The meaning of IMUL. -/
def execImul (f : VFields) (s : State) : Host.Outcome State Fault Refusal := s.conclude (intTwo f s .mul (fun a b => a * b))

/-- The meaning of IMULH: the high word of the product (R166). -/
def execImulh (f : VFields) (s : State) : Host.Outcome State Fault Refusal :=
  s.conclude (intTwo f s .plain (fun a b => a * b / (2 ^ 32 : Nat)))

/-- The meaning of IMIN. -/
def execImin (f : VFields) (s : State) : Host.Outcome State Fault Refusal := s.conclude (intTwo f s .plain (fun a b => min a b))

/-- The meaning of IMAX. -/
def execImax (f : VFields) (s : State) : Host.Outcome State Fault Refusal := s.conclude (intTwo f s .plain (fun a b => max a b))

/-- IMAD (R166). -/
def imadIssue (f : VFields) (s : State) : Issue :=
  let x := vIn f s 3
  let t := f.h.ty
  let a := x.src 1 f.a
  let b := x.srcB f t
  let c := x.srcC f
  x.finish f [Use.of a t, Use.of b t, Use.of c t] none []
    (laneResult .plain [a, b, c] t (fun l => intLane t f.h.s (fun i =>
      elemInt t (lane a.vals l) i * elemInt t (lane b.vals l) i + elemInt t (lane c.vals l) i))) noPost

/-- The meaning of IMAD. -/
def execImad (f : VFields) (s : State) : Host.Outcome State Fault Refusal := s.conclude (imadIssue f s)

/-- IABS (R166). -/
def iabsIssue (f : VFields) (s : State) : Issue :=
  let x := vIn f s 1
  let t := f.h.ty
  let a := x.src 1 f.a
  x.finish f [Use.of a t] none []
    (laneResult .plain [a] t (fun l => intLane t f.h.s (fun i => ((elemInt t (lane a.vals l) i).natAbs : Int)))) noPost

/-- The meaning of IABS. -/
def execIabs (f : VFields) (s : State) : Host.Outcome State Fault Refusal := s.conclude (iabsIssue f s)

/-- IDOT4 (R166): one I32 result. -/
def idot4Issue (f : VFields) (s : State) : Issue :=
  let x := vIn f s 3
  let t := f.h.ty
  let a := x.src 1 f.a
  let b := x.srcB f t
  let c := x.srcC f
  x.finish f [Use.of a t, Use.of b t, Use.of c Fmt.i32] none []
    (laneResult .plain [a, b, c] Fmt.i32 (fun l => intLane Fmt.i32 f.h.s (fun _ =>
      elemInt Fmt.i32 (lane c.vals l) 0 +
        ((List.range 4).map (fun i => elemInt t (lane a.vals l) i * elemInt t (lane b.vals l) i)).sum))) noPost

/-- The meaning of IDOT4. -/
def execIdot4 (f : VFields) (s : State) : Host.Outcome State Fault Refusal := s.conclude (idot4Issue f s)

/-! ## Predicates -/

/-- The comparison of two elements by SUB[2:0] (R167). -/
def intCmp (code : Nat) (a b : Int) : Bool :=
  match code with
  | 0 => a == b
  | 1 => a != b
  | 2 => decide (a < b)
  | 3 => decide (a ≤ b)
  | 4 => decide (b < a)
  | _ => decide (b ≤ a)

/-- A lane's predicate bit from its element pairs: every pair, or any under SUB[3] (R167). -/
def pairsBit (any : Bool) (n : Nat) (p : Nat → Bool) : Bool := if any then (List.range n).any p else (List.range n).all p

/-- ICMP (R167). -/
def icmpIssue (f : VFields) (s : State) : Issue :=
  let x := vIn f s 2
  let t := f.h.ty
  let a := x.src 1 f.a
  let b := x.srcB f t
  x.finishPred f [Use.of a t, Use.of b t] none
    (Mask.of (fun l => pairsBit (f.subBit 3) (elems t) (fun i =>
      intCmp (f.subBits 2 0) (elemInt t (lane a.vals l) i) (elemInt t (lane b.vals l) i))))

/-- The meaning of ICMP. -/
def execIcmp (f : VFields) (s : State) : Host.Outcome State Fault Refusal := s.conclude (icmpIssue f s)

/-- Predicate sources that are not uniform under U (R68). -/
def predCheck (ms : List Mask) : Option TrapInfo := check (ms.all predUniform) { cause := 0x0C }

/-- PLOP (R168). -/
def plopIssue (f : VFields) (s : State) : Issue :=
  let x := vIn f s 0
  let p (o : Operand) : Mask := x.w.pred (o.bits.toNat % 8)
  let bit (m : Mask) (l : Nat) : Nat := if Mask.has m l then 1 else 0
  let table := f.c.bits.extractLsb' 8 8
  x.finishPred f [] (predCheck [p f.a, p f.b, p f.c])
    (Mask.of (fun l => table.getLsbD (4 * bit (p f.a) l + 2 * bit (p f.b) l + bit (p f.c) l)))

/-- The meaning of PLOP. -/
def execPlop (f : VFields) (s : State) : Host.Outcome State Fault Refusal := s.conclude (plopIssue f s)

/-! ## Moves -/

/-- The predicate that SEL reads, negated under SUB[3] (R169). -/
def selPred (w : Warp) (f : VFields) : Mask :=
  let m := w.pred (f.subBits 2 0)
  if f.subBit 3 then ~~~m else m

/-- SEL (R169): the selected lane's value with its own poison; FP6 results have zero between their elements (R133). -/
def selIssue (f : VFields) (s : State) : Issue :=
  let x := vIn f s 2
  let a := x.src 1 f.a
  let any := f.h.ty == Fmt.raw
  let t := if any then a.tag else f.h.ty
  let b := x.srcB f t
  let p := selPred x.w f
  let ua : Use := if any then { src := a, want := none, one := true } else Use.of a t
  let ub : Use := if any then { src := b, want := none, one := true, eq := some t } else Use.of b t
  let r : Result := {
    vals := tab (fun l => padded t (if Mask.has p l then lane a.vals l else lane b.vals l)),
    pois := (a.pois &&& p) ||| (b.pois &&& ~~~p), fmt := t, shape := resultShape .plain [a, b] (predUniform p) }
  x.finish f [ua, ub] (predCheck [p]) [] r noPost

/-- The meaning of SEL. -/
def execSel (f : VFields) (s : State) : Host.Outcome State Fault Refusal := s.conclude (selIssue f s)

/-- MOV (R169): a register in V3 form, the immediate in VI form; FP6 results have zero between their elements (R133). -/
def movIssue (f : VFields) (s : State) : Issue :=
  let x : VCtx := vctx s.dev f.h (dstOperand f.d :: (if f.vi then [] else [f.a]))
  let any := f.h.ty == Fmt.raw
  let a := if f.vi then Src.const 2 f.imm f.h.ty else x.src 1 f.a
  let t := if any then a.tag else f.h.ty
  let u : Use := if any then { src := a, want := none, one := true } else Use.of a t
  x.finish f [u] none [] (laneResult .copy [a] t (fun l => padded t (lane a.vals l))) noPost

/-- The meaning of MOV. -/
def execMov (f : VFields) (s : State) : Host.Outcome State Fault Refusal := s.conclude (movIssue f s)

/-- MOVS (R169): n registers copied with their tags. -/
def movsIssue (f : VFields) (s : State) : Issue :=
  let x := vIn f s 0
  let n := f.subBits 2 0 + 1
  let va := f.a.reg.toNat
  let as := (List.range n).map (fun i => x.reg 1 (va + i) f.a)
  x.finishRange f [boundCheck x.regs (dstReg f.d + n - 1), boundCheck x.regs (va + n - 1)] (as.map Use.any) []
    (as.map (fun a => laneResult .copy [a] a.tag (fun l => padded a.tag (lane a.vals l)))) noPost

/-- The meaning of MOVS. -/
def execMovs (f : VFields) (s : State) : Host.Outcome State Fault Refusal := s.conclude (movsIssue f s)

/-! ## Logic and shifts -/

/-- A source of a logic instruction: any tag where TY is RAW (R170). -/
def logicUse (t : BitVec 5) (s : Src) : Use := if t = Fmt.raw then Use.any s else Use.of s t

/-- A source of a field instruction: the tag TY or RAW, for R171 lists no further tag (R121). -/
def fieldUse (t : BitVec 5) (s : Src) : Use := Use.of s t

/-- A two-source logic, shift or field instruction, by what it accepts of its sources (R170, R171). -/
def twoWords (f : VFields) (s : State) (use : BitVec 5 → Src → Use) (rule : ShapeRule) (g : Word → Word → Word) : Issue :=
  let x := vIn f s 2
  let t := f.h.ty
  let a := x.src 1 f.a
  let b := x.srcB f t
  x.finish f [use t a, use t b] none []
    (laneResult rule [a, b] t (fun l => g (lane a.vals l) (lane b.vals l))) noPost

/-- A two-source logic or shift instruction (R170). -/
def logicTwo (f : VFields) (s : State) (rule : ShapeRule) (g : Word → Word → Word) : Issue := twoWords f s logicUse rule g

/-- A one-source logic instruction with its result tag (R170). -/
def logicOne (f : VFields) (s : State) (tag : BitVec 5) (g : Word → Word) : Issue :=
  let x := vIn f s 1
  let a := x.src 1 f.a
  x.finish f [logicUse f.h.ty a] none [] (laneResult .plain [a] tag (fun l => g (lane a.vals l))) noPost

/-- The meaning of AND. -/
def execAnd (f : VFields) (s : State) : Host.Outcome State Fault Refusal := s.conclude (logicTwo f s .plain (fun a b => a &&& b))

/-- The meaning of OR. -/
def execOr (f : VFields) (s : State) : Host.Outcome State Fault Refusal := s.conclude (logicTwo f s .plain (fun a b => a ||| b))

/-- The meaning of XOR. -/
def execXor (f : VFields) (s : State) : Host.Outcome State Fault Refusal := s.conclude (logicTwo f s .plain (fun a b => a ^^^ b))

/-- The meaning of ANDN. -/
def execAndn (f : VFields) (s : State) : Host.Outcome State Fault Refusal := s.conclude (logicTwo f s .plain (fun a b => a &&& ~~~b))

/-- The shift amount b[5:0] (R170). -/
def shiftAmount (b : Word) : Nat := b.toNat % 64

/-- SAR's result (R170). -/
def sarWord (a : Word) (k : Nat) : Word := BitVec.sshiftRight a (min k 31)

/-- SHR's result (R170). -/
def shrWord (a : Word) (k : Nat) : Word := if 32 ≤ k then 0 else a >>> k

/-- The meaning of SHL. -/
def execShl (f : VFields) (s : State) : Host.Outcome State Fault Refusal :=
  s.conclude (logicTwo f s .shl (fun a b => shlWord a (shiftAmount b)))

/-- The meaning of SHR. -/
def execShr (f : VFields) (s : State) : Host.Outcome State Fault Refusal :=
  s.conclude (logicTwo f s .plain (fun a b => shrWord a (shiftAmount b)))

/-- The meaning of SAR. -/
def execSar (f : VFields) (s : State) : Host.Outcome State Fault Refusal :=
  s.conclude (logicTwo f s .plain (fun a b => sarWord a (shiftAmount b)))

/-- The meaning of ROT. -/
def execRot (f : VFields) (s : State) : Host.Outcome State Fault Refusal :=
  s.conclude (logicTwo f s .plain (fun a b => a.rotateLeft (b.toNat % 32)))

/-- The number of set bits. -/
def popWord (a : Word) : Word := BitVec.ofNat 32 (Mask.list a).length

/-- The number of leading zeros, 32 for 0 (R170). -/
def clzWord (a : Word) : Word := BitVec.ofNat 32 (if a = 0 then 32 else 31 - Nat.log2 a.toNat)

/-- Bit i moved to bit 31 - i (R170). -/
def brevWord (a : Word) : Word := Mask.of (fun i => a.getLsbD (31 - i))

/-- The meaning of POPC. -/
def execPopc (f : VFields) (s : State) : Host.Outcome State Fault Refusal := s.conclude (logicOne f s Fmt.ui32 popWord)

/-- The meaning of CLZ. -/
def execClz (f : VFields) (s : State) : Host.Outcome State Fault Refusal := s.conclude (logicOne f s Fmt.ui32 clzWord)

/-- The meaning of BREV. -/
def execBrev (f : VFields) (s : State) : Host.Outcome State Fault Refusal := s.conclude (logicOne f s f.h.ty brevWord)

/-! ## Fields and bytes -/

/-- P and N of a control operand (R171). -/
def fieldPos (b : Word) : Nat := b.toNat % 32
/-- N: the length of the field that a control operand names (R171). -/
def fieldLen (b : Word) : Nat := min (b.toNat / 256 % 64) (32 - fieldPos b)

/-- BFX's result (R171). -/
def bfxWord (signed : Bool) (a b : Word) : Word :=
  let n := fieldLen b
  let v := a.toNat / 2 ^ fieldPos b % 2 ^ n
  if n = 0 then 0 else if signed then BitVec.ofInt 32 (signedOf n v) else BitVec.ofNat 32 v

/-- The meaning of BFX. -/
def execBfx (f : VFields) (s : State) : Host.Outcome State Fault Refusal :=
  s.conclude (twoWords f s fieldUse .plain (bfxWord (f.h.ty == Fmt.i32)))

/-- BFI's result (R171). -/
def bfiWord (a b c : Word) : Word :=
  let m := BitVec.ofNat 32 ((2 ^ fieldLen b - 1) * 2 ^ fieldPos b)
  (c &&& ~~~m) ||| ((a <<< fieldPos b) &&& m)

/-- A three-source field instruction (R171). -/
def fieldThree (f : VFields) (s : State) (g : Word → Word → Word → Word) : Issue :=
  let x := vIn f s 3
  let t := f.h.ty
  let a := x.src 1 f.a
  let b := x.srcB f t
  let c := x.srcC f
  x.finish f [fieldUse t a, fieldUse t b, fieldUse t c] none []
    (laneResult .plain [a, b, c] t (fun l => g (lane a.vals l) (lane b.vals l) (lane c.vals l))) noPost

/-- The meaning of BFI. -/
def execBfi (f : VFields) (s : State) : Host.Outcome State Fault Refusal := s.conclude (fieldThree f s bfiWord)

/-- The reversed bits of a byte. -/
def revByte (b : Byte) : Byte := (List.range 8).foldl (fun r i => if b.getLsbD i then r ||| (0x80#8 >>> i) else r) 0

/-- A byte of BSWZ's result under a control byte (R171). -/
def bswzByte (a b : Word) (k : Byte) : Byte :=
  let j := k.toNat % 8
  let v := (b ++ a).extractLsb' (8 * j) 8
  match k.toNat / 8 % 4 with
  | 0 => v
  | 1 => revByte v
  | 2 => if v.getLsbD 7 then 0xFF else 0
  | _ => 0

/-- BSWZ's result (R171). -/
def bswzWord (a b c : Word) : Word :=
  BitVec.ofNat 32 (numOf ((List.range 4).map (fun i => bswzByte a b (c.extractLsb' (8 * i) 8))))

/-- A three-source instruction without a VI form that reads any tag and writes RAW (R171). -/
def rawThree (f : VFields) (s : State) (g : Word → Word → Word → Word) : Issue :=
  let x : VCtx := vctx s.dev f.h [dstOperand f.d, f.a, f.b, f.c]
  let a := x.src 1 f.a
  let b := x.src 2 f.b
  let c := x.src 3 f.c
  x.finish f [Use.any a, Use.any b, Use.any c] none []
    (laneResult .plain [a, b, c] Fmt.raw (fun l => g (lane a.vals l) (lane b.vals l) (lane c.vals l))) noPost

/-- The meaning of BSWZ. -/
def execBswz (f : VFields) (s : State) : Host.Outcome State Fault Refusal := s.conclude (rawThree f s bswzWord)

/-- TERN's result under its table (R171). -/
def ternWord (table : BitVec 8) (a b c : Word) : Word :=
  let bit (x : Word) (j : Nat) : Nat := if x.getLsbD j then 1 else 0
  Mask.of (fun j => table.getLsbD (bit a j + 2 * bit b j + 4 * bit c j))

/-- The meaning of TERN. -/
def execTern (f : VFields) (s : State) : Host.Outcome State Fault Refusal := s.conclude (rawThree f s (ternWord f.sub))

end Sys2Proof.Machine
end

