-- ==== Sys2Proof/Machine/Float.lean ====
section
/-! DEFINITION. The floating-point instructions (R175-R178), with the replay of subnormal operands and results (R147), and the special
functions (R179). -/

namespace Sys2Proof.Machine

/-- Element i of a lane is subnormal under a floating format (R147). -/
def subElem (f : BitVec 5) (w : Word) (i : Nat) : Bool :=
  let m := elemCode f w i % 2 ^ ((floatFmt f).eb + (floatFmt f).mb)
  m != 0 && decide (m < 2 ^ (floatFmt f).mb)

/-- Some element of a lane is subnormal. -/
def subLane (f : BitVec 5) (w : Word) : Bool := (List.range (elems f)).any (subElem f w)

/-- An exact value is nonzero and below the smallest normal of a format (R147). -/
def FVal.tiny (F : FloatFmt) (v : FVal) : Bool :=
  match v with
  | .fin _ n d => n != 0 && decide (floorLog2 n d < 1 - (F.bias : Int))
  | _ => false

/-- A floating source with the format under which its elements are read. -/
structure FloatIn where
  src : Src
  fmt : BitVec 5

/-- The exact element values of a lane. -/
def FloatIn.val (x : FloatIn) (l i : Nat) : FVal := elemVal x.fmt (lane x.src.vals l) i

/-- A floating computation of one lane: each destination element's exact value from the sources (R176). -/
abbrev Exact := Nat → Nat → FVal

/-- The lane of rounded elements (R176). -/
def floatLane (t : BitVec 5) (rm : BitVec 2) (sat : Bool) (g : Nat → FVal) : Word :=
  (List.range (elems t)).foldl (fun y i => insCode t y i ((floatFmt t).round rm sat (g i))) 0

/-- The active lanes that need replay (R147). -/
def replayMask (act : Mask) (ins : List FloatIn) (t : BitVec 5) (g : Exact) : Mask :=
  Mask.of (fun l => Mask.has act l &&
    (ins.any (fun x => subLane x.fmt (lane x.src.vals l)) || (List.range (elems t)).any (fun i => FVal.tiny (floatFmt t) (g l i))))

/-- SUBREP increases by 1 and stops at 0xFFFF (R145, R147). -/
def Warp.subrep (w : Warp) : Warp :=
  if w.wstat.extractLsb' 16 16 = 0xFFFF#16 then w else { w with wstat := w.wstat + 0x10000#32 }

/-- The register that lane l of a V-format result goes to. -/
def VCtx.dstOf (x : VCtx) (dst : BitVec 9) (l : Nat) : Nat :=
  if dst.getLsbD 8 then regAt x.w x.act x.pre (dstOperand dst) l else dstReg dst

/-- A replayed instruction's results on their way: its destination lanes are reserved until they are written (R147). -/
def VCtx.replayOp (x : VCtx) (f : VFields) (r : Result) : MemOp :=
  let regs := if f.d.getLsbD 8 then (x.old f.d).waits else [dstReg f.d]
  { x.d.newOp .replay r.fmt 2 [] with
    done := (Mask.list x.act).map (fun l => { reg := x.dstOf f.d l, lane := l, val := lane r.vals l, pois := Mask.has r.pois l }),
    resv := regs.map (fun q => (q, Mask.of (fun l => Mask.has x.act l && x.dstOf f.d l == q))),
    window := f.d.getLsbD 8, uni := r.shape == .uniform }

/-- The issue of a replayed instruction: it retires, its results are still to be written, and its warp waits (R147). -/
def VCtx.replay (x : VCtx) (f : VFields) (r : Result) : Dev :=
  let d := x.d.modCurCol (fun k => k.addOp (x.replayOp f r))
  let d := d.modCurWarp (fun w => { w.subrep with wait := .replay, active := false, entered := d.now })
  ((x.step d).hint f.hint).advance

/-- A floating-point instruction that computes and rounds (R176), replayed where R147 says so. -/
def floatIssue (f : VFields) (x : VCtx) (ins : List FloatIn) (t : BitVec 5) (mayReplay : Bool) (g : Exact)
    (fin : Nat → Word) : Issue :=
  let us := ins.map (fun i => Use.of i.src i.fmt)
  let r := laneResult .plain (ins.map FloatIn.src) t fin
  if mayReplay && replayMask x.act ins t g != 0 then
    if x.notReady us then .hold (x.d.holdRegs (x.waits us))
    else match x.checks f.h.u (dstBound x.regs f.d :: x.bounds us) (x.dstWin f.d) us none [] with
      | some t => .trap t
      | none => if x.fifthWindow f.d then .hold x.d else .retire (x.replay f r)
  else x.finish f us none [] r noPost

/-- A two-source floating-point instruction. -/
def floatTwo (f : VFields) (s : State) (mayReplay : Bool) (op : FVal → FVal → FVal) : Issue :=
  let x := vIn f s 2
  let t := f.h.ty
  let a : FloatIn := { src := x.src 1 f.a, fmt := t }
  let b : FloatIn := { src := x.srcB f t, fmt := t }
  let g : Exact := fun l i => op (a.val l i) (b.val l i)
  floatIssue f x [a, b] t mayReplay g (fun l => floatLane t f.h.rm f.h.s (g l))

/-- The meaning of FADD. -/
def execFadd (f : VFields) (s : State) : Host.Outcome State Fault Refusal := s.conclude (floatTwo f s true (FVal.add f.h.rm))

/-- The meaning of FSUB. -/
def execFsub (f : VFields) (s : State) : Host.Outcome State Fault Refusal :=
  s.conclude (floatTwo f s true (fun a b => FVal.add f.h.rm a b.negate))

/-- The meaning of FMUL. -/
def execFmul (f : VFields) (s : State) : Host.Outcome State Fault Refusal := s.conclude (floatTwo f s true FVal.mul)

/-- The meaning of FDIV. -/
def execFdiv (f : VFields) (s : State) : Host.Outcome State Fault Refusal := s.conclude (floatTwo f s false FVal.div)

/-- FFMA: one rounding (R176). -/
def ffmaIssue (f : VFields) (s : State) : Issue :=
  let x := vIn f s 3
  let t := f.h.ty
  let a : FloatIn := { src := x.src 1 f.a, fmt := t }
  let b : FloatIn := { src := x.srcB f t, fmt := t }
  let c : FloatIn := { src := x.srcC f, fmt := t }
  let g : Exact := fun l i => FVal.add f.h.rm (FVal.mul (a.val l i) (b.val l i)) (c.val l i)
  floatIssue f x [a, b, c] t true g (fun l => floatLane t f.h.rm f.h.s (g l))

/-- The meaning of FFMA. -/
def execFfma (f : VFields) (s : State) : Host.Outcome State Fault Refusal := s.conclude (ffmaIssue f s)

/-- FDOT2: c + a0*b0 + a1*b1 as one F32 result (R176). -/
def fdot2Issue (f : VFields) (s : State) : Issue :=
  let x := vIn f s 3
  let t := f.h.ty
  let a : FloatIn := { src := x.src 1 f.a, fmt := t }
  let b : FloatIn := { src := x.srcB f t, fmt := t }
  let c : FloatIn := { src := x.srcC f, fmt := Fmt.f32 }
  let g : Exact := fun l _ =>
    FVal.sum f.h.rm [c.val l 0, FVal.mul (a.val l 0) (b.val l 0), FVal.mul (a.val l 1) (b.val l 1)]
  floatIssue f x [a, b, c] Fmt.f32 true g (fun l => floatLane Fmt.f32 f.h.rm f.h.s (g l))

/-- The meaning of FDOT2. -/
def execFdot2 (f : VFields) (s : State) : Host.Outcome State Fault Refusal := s.conclude (fdot2Issue f s)

/-- FSQRT's code (R176). -/
def fsqrtIssue (f : VFields) (s : State) : Issue :=
  let x := vIn f s 1
  let t := f.h.ty
  let a : FloatIn := { src := x.src 1 f.a, fmt := t }
  floatIssue f x [a] t false (fun _ _ => .nan)
    (fun l => (List.range (elems t)).foldl (fun y i => insCode t y i ((floatFmt t).roundSqrt f.h.rm f.h.s (a.val l i))) 0)

/-- The meaning of FSQRT. -/
def execFsqrt (f : VFields) (s : State) : Host.Outcome State Fault Refusal := s.conclude (fsqrtIssue f s)

/-- Order of two values with -0 below +0 (R177). -/
def fLess (a b : FVal) : Bool := decide (FVal.cmp a b < 0) || (a.isZero && b.isZero && a.neg && !b.neg)

/-- FMIN and FMAX on element codes (R177). -/
def minMaxCode (t : BitVec 5) (max_ nan : Bool) (a b : Nat) : Nat :=
  let F := floatFmt t
  let x := F.value a
  let y := F.value b
  if x.isNan && y.isNan then F.nanCode
  else if x.isNan then (if nan then F.nanCode else b)
  else if y.isNan then (if nan then F.nanCode else a)
  else if fLess x y == max_ then b else a

/-- FMIN and FMAX (R177). -/
def minMaxIssue (f : VFields) (s : State) (max_ : Bool) : Issue :=
  let x := vIn f s 2
  let t := f.h.ty
  let a : FloatIn := { src := x.src 1 f.a, fmt := t }
  let b : FloatIn := { src := x.srcB f t, fmt := t }
  floatIssue f x [a, b] t false (fun _ _ => .nan) (fun l => (List.range (elems t)).foldl (fun y i =>
    insCode t y i (minMaxCode t max_ (f.subBit 0) (elemCode t (lane a.src.vals l) i) (elemCode t (lane b.src.vals l) i))) 0)

/-- The meaning of FMIN. -/
def execFmin (f : VFields) (s : State) : Host.Outcome State Fault Refusal := s.conclude (minMaxIssue f s false)

/-- The meaning of FMAX. -/
def execFmax (f : VFields) (s : State) : Host.Outcome State Fault Refusal := s.conclude (minMaxIssue f s true)

/-- FCMP's condition on two elements (R178). -/
def floatCmp (code : Nat) (a b : FVal) : Bool :=
  let un := a.isNan || b.isNan
  match code with
  | 0 => !un && FVal.cmp a b == 0
  | 1 => un || FVal.cmp a b != 0
  | 2 => !un && decide (FVal.cmp a b < 0)
  | 3 => !un && decide (FVal.cmp a b ≤ 0)
  | 4 => !un && decide (0 < FVal.cmp a b)
  | 5 => !un && decide (0 ≤ FVal.cmp a b)
  | 6 => !un
  | _ => un

/-- FCMP (R178). -/
def fcmpIssue (f : VFields) (s : State) : Issue :=
  let x := vIn f s 2
  let t := f.h.ty
  let a : FloatIn := { src := x.src 1 f.a, fmt := t }
  let b : FloatIn := { src := x.srcB f t, fmt := t }
  x.finishPred f [Use.of a.src t, Use.of b.src t] none
    (Mask.of (fun l => pairsBit (f.subBit 3) (elems t) (fun i => floatCmp (f.subBits 2 0) (a.val l i) (b.val l i))))

/-- The meaning of FCMP. -/
def execFcmp (f : VFields) (s : State) : Host.Outcome State Fault Refusal := s.conclude (fcmpIssue f s)

/-- The class bit of an element (R178). -/
def classBit (t : BitVec 5) (w : Word) (i : Nat) : Nat :=
  match elemVal t w i with
  | .nan => 8
  | .inf s => if s then 0 else 7
  | .fin s n _ =>
    if n = 0 then (if s then 3 else 4)
    else if subElem t w i then (if s then 2 else 5)
    else (if s then 1 else 6)

/-- FCLASS's mask (R178). -/
def classWord (t : BitVec 5) (w : Word) : Word :=
  (List.range (elems t)).foldl (fun y i => y ||| (1#32 <<< (16 * i + classBit t w i))) 0

/-- FCLASS (R178). -/
def fclassIssue (f : VFields) (s : State) : Issue :=
  let x := vIn f s 1
  let a := x.src 1 f.a
  x.finish f [Use.of a f.h.ty] none [] (laneResult .plain [a] Fmt.ui32 (fun l => classWord f.h.ty (lane a.vals l))) noPost

/-- The meaning of FCLASS. -/
def execFclass (f : VFields) (s : State) : Host.Outcome State Fault Refusal := s.conclude (fclassIssue f s)

/-! ## Special functions -/

/-- A special function (R179). -/
def sfuIssue (f : VFields) (s : State) (fn : Config.Sfu) : Issue :=
  let x := vIn f s 1
  let t := f.h.ty
  let a := x.src 1 f.a
  x.finish f [Use.of a t] none []
    (laneResult .plain [a] t (fun l =>
      (List.range (elems t)).foldl (fun y i => insCode t y i (sfuCode fn t (elemCode t (lane a.vals l) i))) 0)) noPost

/-- The meaning of FRCP. -/
def execFrcp (f : VFields) (s : State) : Host.Outcome State Fault Refusal := s.conclude (sfuIssue f s .rcp)

/-- The meaning of FRSQ. -/
def execFrsq (f : VFields) (s : State) : Host.Outcome State Fault Refusal := s.conclude (sfuIssue f s .rsq)

/-- The meaning of FEX2. -/
def execFex2 (f : VFields) (s : State) : Host.Outcome State Fault Refusal := s.conclude (sfuIssue f s .ex2)

/-- The meaning of FLG2. -/
def execFlg2 (f : VFields) (s : State) : Host.Outcome State Fault Refusal := s.conclude (sfuIssue f s .lg2)

/-- The meaning of FSIN. -/
def execFsin (f : VFields) (s : State) : Host.Outcome State Fault Refusal := s.conclude (sfuIssue f s .sin)

/-- The meaning of FCOS. -/
def execFcos (f : VFields) (s : State) : Host.Outcome State Fault Refusal := s.conclude (sfuIssue f s .cos)

/-- The meaning of FTANH. -/
def execFtanh (f : VFields) (s : State) : Host.Outcome State Fault Refusal := s.conclude (sfuIssue f s .tanh)

end Sys2Proof.Machine
end

