-- ==== Sys2Proof/Machine/Tensor.lean ====
section
/-! DEFINITION. Tensor records: an object-table entry's fields and its checks (R45-R48), where its elements lie (R49), its columns,
padding and span (R50, R51, R219), and its reading (R46, R53). -/

namespace Sys2Proof.Machine

/-- The record that an entry's 64 bytes hold, as a little-endian number (R47). -/
def TRec.ofNum (e : Nat) : TRec :=
  { base := bitsOf e 43 0, rank := bitsOf e 46 44, repl := bitsOf e 47 47 == 1, fmt := BitVec.ofNat 5 (bitsOf e 52 48),
    grp := bitsOf e 55 53, rd := bitsOf e 56 56 == 1, wr := bitsOf e 57 57 == 1, mb := bitsOf e 58 58 == 1,
    cp := bitsOf e 59 59 == 1, nm := bitsOf e 60 60 == 1, ract := bitsOf e 63 61, scale := bitsOf e 107 64,
    rsv := bitsOf e 113 108, split := bitsOf e 116 114, count := bitsOf e 127 117,
    ext := (List.range 5).map (fun i => bitsOf e (159 + 32 * i) (128 + 32 * i)),
    str := 1 :: (List.range 4).map (fun i => bitsOf e (319 + 32 * i) (288 + 32 * i)),
    sblk := bitsOf e 437 416, first := bitsOf e 447 438, lo := BitVec.ofNat 32 (bitsOf e 479 448),
    hi := BitVec.ofNat 32 (bitsOf e 511 480) }

/-- Elements per block or group (R49). -/
def TRec.g (r : TRec) : Nat :=
  match r.grp with
  | 1 | 2 => 24
  | 3 => 48
  | _ => 96

/-- A malformed entry (R48, R446). -/
def TRec.malformed (r : TRec) : Bool :=
  r.rank == 0 || decide (5 < r.rank) || decide (r.rank ≤ r.split) || (!r.repl && r.sblk == 0) || decide (1024 < r.first + r.count) ||
    r.rsv != 0 || decide (3 < r.ract) || decide (4 < r.grp) || !fmtAssigned r.fmt ||
    (r.grp == 1 && !(decide (4 ≤ r.fmt.toNat) && decide (r.fmt.toNat ≤ 8))) ||
    (decide (2 ≤ r.grp) && r.fmt != Fmt.i8x4 && r.fmt != Fmt.i4x8) ||
    (r.grp != 0 && (r.ext.getD 0 0 % r.g != 0 || (List.range r.rank).any (fun i => i != 0 && r.str.getD i 0 % r.g != 0)))

/-- A column of the record's range (R48). -/
def TRec.onColumn (r : TRec) (c : Nat) : Bool := decide (r.first ≤ c) && decide (c < r.first + r.count)

/-- The number of blocks along the split dimension (R50). -/
def TRec.blocks (r : TRec) : Nat := (r.ext.getD r.split 0 + r.sblk - 1) / r.sblk

/-- P: the padded extent along the split dimension (R50). -/
def TRec.padded (r : TRec) : Nat := if r.repl then r.ext.getD r.split 0 else (r.blocks + r.count - 1) / r.count * r.sblk

/-- XC(j): the real extent of holding column j along the split dimension (R50, R51). -/
def TRec.colExtent (r : TRec) (j : Nat) : Nat :=
  let e := r.ext.getD r.split 0
  if r.repl then e
  else
    -- full rounds of blocks, then this column's block of the last round
    let k := r.blocks / r.count
    let rem := r.blocks % r.count
    let n := k + (if j < rem then 1 else 0)
    if n = 0 then 0 else (n - 1) * r.sblk + min r.sblk (e - ((n - 1) * r.count + j) * r.sblk)

/-- The extent that accesses may reach along a dimension (R51, R219). -/
def TRec.reachExt (r : TRec) (d : Nat) : Nat := if d = r.split then r.padded else r.ext.getD d 0

/-- The record span in bytes (R219). -/
def TRec.span (r : TRec) : Nat :=
  ((1 + ((List.range r.rank).map (fun d => (r.reachExt d - 1) * r.str.getD d 0)).sum) * memBits r.fmt + 7) / 8

/-- n of R49 for local indices: the strides at or above RANK are ignored (R47). -/
def TRec.elemNo (r : TRec) (i : List Nat) : Nat := ((List.range (min 5 r.rank)).map (fun d => i.getD d 0 * r.str.getD d 0)).sum

/-- The bit address of an element (R49). -/
def TRec.bitAddr (r : TRec) (i : List Nat) : Nat := r.base * 8 + r.elemNo i * memBits r.fmt

/-- The bytes of a scale-plane entry (R49). -/
def TRec.scaleBytes (r : TRec) : Nat := if r.grp = 1 then 1 else 4

/-- The offset of an element's scale (R49). -/
def TRec.scaleOff (r : TRec) (i : List Nat) : Nat :=
  let i0 := i.getD 0 0
  r.scale + r.scaleBytes * (i0 / r.g + (r.elemNo i - i0) / r.g)

/-- A local index lies in the real extents of a column (R226). -/
def TRec.inside (r : TRec) (c : Nat) (i : List Nat) : Bool :=
  (List.range r.rank).all (fun d =>
    decide (i.getD d 0 < if d = r.split then r.colExtent (c - r.first) else r.ext.getD d 0))

/-- The range rule of a store through the record (R446). -/
def TRec.rule (r : TRec) (idx : Nat) : Option RangeRule :=
  if r.grp = 0 ∧ r.ract ≠ 0 then some { lo := r.lo, hi := r.hi, act := r.ract, fmt := r.fmt, idx := idx } else none

/-! ## Reading an entry -/

/-- An entry's value as one instruction sees it: what stands in memory, or, where that changed while a launch runs, what was read
before (R46). -/
def Dev.objValue (d : Dev) (c ctx off new : Nat) : Nat × Dev :=
  match (d.col c).objs.find? (fun x => x.ctx == ctx && x.off == off) with
  | none => (new, d.modCol c (fun k => { k with objs := { ctx := ctx, off := off, val := new } :: k.objs }))
  | some o =>
    if o.val = new then (new, d)
    else
      let (b, d) := d.choose
      (if b then o.val else new, d)

/-- The record of an index on column c in the object table at an offset (R45, R48, R53): a failed translation of its entry, or the record;
none where the entry is malformed, poisoned (R444) or beyond the last. -/
def State.tensorAt (s : State) (c ctx base last idx : Nat) : Except (Flt × Nat) (Option TRec) × Dev :=
  if last < idx then (.ok none, s.dev)
  else
    let off := (base + 64 * idx) % 2 ^ 44
    match s.translate c ctx off false true with
    | (.error f, d) => (.error (f, granOf off), d)
    | (.ok e, d) =>
      let va := e.va off
      let d := ({ s with dev := d }.homeRead c va 0 e.zc none [va, va + 32]).1
      if d.poisoned (vkey c va) || d.poisoned (vkey c (va + 32)) then (.ok none, d)
      else
        let (v, d) := d.objValue c ctx off (s.vault.num (vkey c va) 64)
        let r := TRec.ofNum v
        (.ok (if r.malformed then none else some r), d)

/-- The record of an index under a launch (R53). -/
def State.tensor (s : State) (c ctx : Nat) (l : LaunchRec) (idx : Nat) : Except (Flt × Nat) (Option TRec) × Dev :=
  s.tensorAt c ctx l.objBase l.objLast idx

/-- An instruction that names index `idx`, 0 for none: it is held while its entry does not translate. -/
def State.withRecord (s : State) (idx : Nat) (acc : AccKind) (go : Dev → Option (Option TRec) → Issue) : Issue :=
  if idx = 0 then go s.dev none
  else
    match s.tensor s.dev.cur.col s.dev.curWarp.ctx s.dev.curRec idx with
    | (.error f, d) => .hold (d.holdFault acc [f])
    | (.ok r, d) => go d (some r)

/-- EINFO of a tensor-record trap (R407): layout A with the index in [63:48]. -/
def einfoRec (idx : Nat) (p : BitVec 64) : BitVec 64 := BitVec.ofNat 16 idx ++ p.extractLsb' 0 48

end Sys2Proof.Machine
end

