-- ==== Sys2Proof/Machine/Tiles.lean ====
section
/-! DEFINITION. The tile queues (R316, R317): words of the pool and the B-SRAM in runs, what operations in flight leave undefined (R263,
R319), what the operations of one queue see of each other (R316, R341), and the entry of an operation. -/

namespace Sys2Proof.Machine

/-! ## Ranges and runs -/

/-- Two lists of ranges [lo, hi) share a number. -/
def meets (a b : List (Nat × Nat)) : Bool := a.any (fun x => b.any (fun y => decide (x.1 < y.2) && decide (y.1 < x.2)))

/-- The ranges that two lists of ranges share. -/
def shared (a b : List (Nat × Nat)) : List (Nat × Nat) :=
  (a.map (fun x => (b.map (fun y => (max x.1 y.1, min x.2 y.2))).filter (fun z => decide (z.1 < z.2)))).flatten

/-- A number lies in a list of ranges. -/
def within (rs : List (Nat × Nat)) (i : Nat) : Bool := rs.any (fun x => decide (x.1 ≤ i) && decide (i < x.2))

/-- The entries of the next n keys from i on. -/
def Table.run {α : Type} : Nat → Nat → Table α → List (Option α)
  | 0, _, _ => []
  | n + 1, i, t =>
    match t.dropWhile (fun x => decide (x.1 < i)) with
    | [] => none :: Table.run n (i + 1) []
    | (j, v) :: rest => if j = i then some v :: Table.run n (i + 1) rest else none :: Table.run n (i + 1) ((j, v) :: rest)

/-- Consecutive keys from lo on replaced. -/
def Table.splice {α : Type} (t : Table α) (lo : Nat) (vs : List α) : Table α :=
  t.filter (fun x => decide (x.1 < lo)) ++ vs.zipIdx.map (fun x => (lo + x.2, x.1)) ++
    t.filter (fun x => decide (lo + vs.length ≤ x.1))

/-- A value and its poison as a word that a context wrote. -/
def wordOf (ctx : Nat) (x : Word × Bool) : PoolWord := { val := x.1, pois := x.2, ctx := ctx }

/-- n pool words from word lo on. -/
def Column.poolRun (k : Column) (ctx lo n : Nat) : List (Word × Bool) :=
  (k.pool.run n lo).zipIdx.map (fun x => k.ofEntry ctx (lo + x.2) x.1)

/-- Pool words from word lo on written for a context. -/
def Column.putPoolRun (k : Column) (ctx lo : Nat) (ws : List (Word × Bool)) : Column :=
  { k with pool := k.pool.splice lo (ws.map (wordOf ctx)) }

/-- B-SRAM words from word lo on written for a context. -/
def Column.putBsRun (k : Column) (ctx lo : Nat) (ws : List (Word × Bool)) : Column :=
  { k with bsram := k.bsram.splice lo (ws.map (wordOf ctx)) }

/-! ## Operations in flight -/

/-- A tile queue's operations, head first (R316). -/
def Column.queue (k : Column) (q : Nat) : List TileOp := k.tileQ[q % 2]'(Nat.mod_lt _ (by decide))

/-- A tile queue replaced. -/
def Column.putQueue (k : Column) (q : Nat) (os : List TileOp) : Column :=
  { k with tileQ := k.tileQ.set (q % 2) os (Nat.mod_lt _ (by decide)) }

/-- The undefined value that an operation leaves in pool word i (R7). -/
def TileOp.fog (o : TileOp) (i : Nat) : Word × Bool := (Config.freeWord (o.base + 2 ^ 18 + i), false)

/-- The pool words of an operation from word lo on, as it sees them. -/
def TileOp.words (o : TileOp) (k : Column) (lo n : Nat) : Array (Word × Bool) :=
  let ws := k.poolRun o.ctx lo n
  (if o.kept.isEmpty then ws
   else ws.zipIdx.map (fun x => match o.kept.get? (lo + x.2) with
     | some p => (p.val, p.pois)
     | none => x.1)).toArray

/-- The B-SRAM words of an operation from word lo on: those that the other queue makes undefined for it are free (R319). -/
def TileOp.bwords (o : TileOp) (k : Column) (lo n : Nat) : Array (Word × Bool) :=
  (((k.bsram.run n lo).zipIdx).map (fun x =>
    let i := lo + x.2
    if within o.vague (4 * i) then (Config.freeWord (o.base + i), false) else k.ofEntry o.ctx (bsBase + i) x.1)).toArray

/-- A register as an operation sees it. -/
def TileOp.reg (o : TileOp) (k : Column) (r : Nat) : VReg := o.keptRegs.getD r ((k.warp o.slot).reg r)

/-- What an operation p of the other queue does to o (R263, R319): the tiles that both name and the B-SRAM bytes that both write are
undefined, the B-SRAM bytes that p writes are undefined for o, and an operand in scratchpad or registers that p writes leaves all
that o writes undefined. -/
def TileOp.hazard (o p : TileOp) : TileOp :=
  { o with
    clash := o.clash ++ o.tiles.filter (fun t => p.tiles.contains t), vague := o.vague ++ shared o.bread p.bwrite,
    bclash := o.bclash ++ shared o.bwrite p.bwrite,
    spoiled := o.spoiled || meets o.reads p.writes || (o.slot == p.slot && p.wregs.any (fun x => o.rregs.contains x.1)) }

/-- An operation p keeps the words and registers it reads as they stand before a later operation o of its queue writes them. -/
def TileOp.keep (k : Column) (o p : TileOp) : TileOp :=
  let ws := (shared p.reads o.writes).map (fun r => (List.range ((r.2 - r.1) / 4)).map (fun i => r.1 / 4 + i))
  let rs := if p.slot = o.slot then p.rregs.filter (fun r => o.wregs.any (fun x => x.1 == r)) else []
  { p with
    kept := ws.flatten.foldl (fun t i => if t.has i then t else t.set i (wordOf p.ctx (k.poolWord p.ctx i))) p.kept,
    keptRegs := rs.foldl (fun t r => if t.has r then t else t.set r ((k.warp p.slot).reg r)) p.keptRegs }

/-- The words of a range made undefined by an operation. -/
def Column.fogRange (k : Column) (o : TileOp) (r : Nat × Nat) : Column :=
  k.putPoolRun o.ctx (r.1 / 4) ((List.range ((r.2 - r.1) / 4)).map (fun i => o.fog (r.1 / 4 + i)))

/-- A tile's pool bytes, by its number g × ACC + t (R302). -/
def Column.tileRange (k : Column) (t : Nat) : Nat × Nat := (k.poolSpad + t * 16384, k.poolSpad + (t + 1) * 16384)

/-- Scratchpad bytes [lo, hi) of the pool written by something that is no tile operation: what reads them leaves all that it writes
undefined, and what writes them leaves them undefined until it completes (R263). A tile operation that its own warp has issued after the
writing STS (`from_`: its slot and tick) reads the bytes before or after the write (R264). -/
def Column.touched (k : Column) (lo hi : Nat) (from_ : Option (Nat × Nat) := none) : Column :=
  let later (o : TileOp) : Bool := from_.any (fun x => o.slot == x.1 && decide (x.2 < o.itick))
  let k := { k with tileQ := k.tileQ.map (fun q : List TileOp => q.map (fun o : TileOp =>
    if meets o.reads [(lo, hi)] && !later o then { o with spoiled := true } else o)) }
  ((k.queue 0 ++ k.queue 1).map (fun o => (o, shared o.writes [(lo / 4 * 4, (hi + 3) / 4 * 4)]))).foldl
    (fun k x => x.2.foldl (fun k r => k.fogRange x.1 r) k) k

/-- A tile operation enters its queue (R316, R317): TILES rises, and from now to its completion what it writes is undefined to others
(R263). An earlier load no longer reaches the registers that it writes (R235). -/
def Dev.enqueue (d : Dev) (q : Nat) (o : TileOp) : Dev :=
  let k := d.curCol
  let o := (k.queue (1 - q)).foldl TileOp.hazard { o with base := d.free }
  let rest := (k.queue (1 - q)).map (fun p => p.hazard o)
  let mine := (k.queue q ++ [o]).map (TileOp.keep k o)
  let k := (k.putQueue (1 - q) rest).putQueue q mine
  let k := (o.writes ++ o.clash.map k.tileRange).foldl (fun k r => k.fogRange o r) k
  let k := { k with ops := k.ops.map (fun p : MemOp => if p.slot = o.slot then o.wregs.foldl (fun p r => p.kill r.1 r.2) p else p) }
  let d := { d.putCol d.cur.col k with free := d.free + 2 ^ 22 }
  d.modCurWarp (fun w => { w with tiles := w.tiles + 1 })

/-! ## What an operation delivers -/

/-- Scratchpad words on their way past later operations of the queue: one that reads them sees them, and the first that writes them
keeps them from the scratchpad. -/
def passWords : List TileOp → List (Nat × PoolWord) → List TileOp × List (Nat × PoolWord)
  | [], ws => ([], ws)
  | p :: ps, ws =>
    let p' : TileOp := { p with kept := ws.foldl (fun t x => if t.has x.1 then t.set x.1 x.2 else t) p.kept }
    let (ps, rest) := passWords ps (ws.filter (fun x => !within p.writes (4 * x.1)))
    (p' :: ps, rest)

/-- Register lanes on their way past later operations of the queue. -/
def passReg (slot r : Nat) (x : Result) : List TileOp → Mask → List TileOp × Mask
  | [], m => ([], m)
  | p :: ps, m =>
    let mine := p.slot == slot
    let p' : TileOp :=
      if mine then { p with keptRegs := p.keptRegs.mapVals (fun j v => if j = r then v.mixed m x else v) } else p
    let m := if mine then (p.wregs.filter (fun y => y.1 == r)).foldl (fun m y => m &&& ~~~y.2) m else m
    let (ps, m) := passReg slot r x ps m
    (p' :: ps, m)

/-- Scratchpad words from word lo on that an operation, no longer in queue q, delivers. -/
def Column.deliverWords (k : Column) (q : Nat) (o : TileOp) (lo : Nat) (ws : List (Word × Bool)) : Column :=
  let items := ws.zipIdx.map (fun x => (lo + x.2, wordOf o.ctx (if o.spoiled then o.fog (lo + x.2) else x.1)))
  let (later, rest) := passWords (k.queue q) items
  let k := k.putQueue q later
  if rest.length = items.length then { k with pool := k.pool.splice lo (rest.map Prod.snd) }
  else rest.foldl (fun k x => { k with pool := k.pool.set x.1 x.2 }) k

/-- Lanes of a register that an operation, no longer in queue q, delivers, but for those that a later instruction has written (R235);
the register becomes general (R329), with the tag of such an instruction where there is one. -/
def Column.deliverReg (k : Column) (q : Nat) (o : TileOp) (r : Nat) (m : Mask) (x : Result) : Column :=
  let x := if o.spoiled then o.fogReg r else x
  let late := o.killed.filter (fun y => y.1 == r)
  let x := if late.isEmpty then x else { x with fmt := ((k.warp o.slot).reg r).fmt }
  let m := late.foldl (fun m y => m &&& ~~~y.2) m
  let (later, left) := passReg o.slot r x (k.queue q) m
  let k := k.putQueue q later
  if left = 0 then k
  else k.putWarp o.slot { k.warp o.slot with regs := (k.warp o.slot).regs.set r (((k.warp o.slot).reg r).mixed left x) }

/-- Rows 0 to M - 1 of a tile that an operation writes. -/
def Column.deliverTile (k : Column) (o : TileOp) (t : Nat) (rows : List (List (Word × Bool))) : Column :=
  let lo := (k.tileRange t).1 / 4
  let ws := rows.flatten
  k.putPoolRun o.ctx lo (if o.spoiled then ws.zipIdx.map (fun x => o.fog (lo + x.2)) else ws)

/-- B-SRAM words from word lo on that an operation writes. -/
def Column.deliverBs (k : Column) (o : TileOp) (lo : Nat) (ws : List (Word × Bool)) : Column :=
  k.putBsRun o.ctx lo (if o.spoiled then ws.zipIdx.map (fun x => (Config.freeWord (o.base + lo + x.2), false)) else ws)

/-- The end of an operation: the tiles and B-SRAM bytes of R263 and R319 are left undefined. -/
def Column.settle (k : Column) (o : TileOp) : Column :=
  let k := o.clash.foldl (fun k t => k.fogRange o (k.tileRange t)) k
  o.bclash.foldl (fun k r => k.putBsRun o.ctx (r.1 / 4)
    ((List.range ((r.2 - r.1) / 4)).map (fun i => (Config.freeWord (o.base + r.1 / 4 + i), false)))) k

end Sys2Proof.Machine
end

