-- ==== Sys2Proof/Machine/Mem.lean ====
section
/-! DEFINITION. The memory instructions (R217-R228): loads and stores of a column's offsets, uniform and scratchpad accesses, the
transposing load, prefetch and cache control. -/

namespace Sys2Proof.Machine

/-! ## Addresses and their checks -/

/-- Register i of the range that a register field names, through the field's pattern (R217). -/
def rangeSrc (w : Warp) (code : Nat) (o : Operand) (i : Nat) : Src := Src.direct w code (o.reg.toNat + i) o.pat o.k

/-- The value of a uniform source. -/
def Src.uni (s : Src) : Word := lane s.vals 0

/-- The pointer of lane l (R218). -/
def lanePtr (lo hi : Src) (l : Nat) : BitVec 64 := ptrOf (lane lo.vals l) (lane hi.vals l)

/-- off(l) of R218. -/
def laneOff (lo hi : Src) (disp : Int) (l : Nat) : Nat := (((ptrOff (lanePtr lo hi l) : Int) + disp) % (2 ^ 44 : Nat)).toNat

/-- A pointer with its offset replaced: what a trap reports of an access. -/
def ptrWith (p : BitVec 64) (off : Nat) : BitVec 64 := p.extractLsb' 44 20 ++ BitVec.ofNat 44 off

/-- The active lanes that fail a test. -/
def failing (act : Mask) (ok : Nat → Bool) : Mask := Mask.of (fun l => Mask.has act l && !ok l)

/-- The selector check (R29). -/
def selCheck (c : Nat) (act : Mask) (lo hi : Src) : Option TrapInfo :=
  checkLanes (failing act (fun l => ownSel c (lanePtr lo hi l)))
    (fun l => { cause := 0x13, einfo := einfoA (lanePtr lo hi l) l })

/-- The checks of a tensor record (R48, R219): well formed, with the right, on this column, and the access of n bytes within the
span. -/
def recCheck (c : Nat) (act : Mask) (lo hi : Src) (disp : Int) (idx n : Nat) (right : TRec → Bool) (r : Option (Option TRec)) :
    Option TrapInfo :=
  let bad := match r with
    | none => 0
    | some none => act
    | some (some t) =>
      if !right t || !t.onColumn c then act
      else failing act (fun l =>
        let o := laneOff lo hi disp l
        decide (t.base ≤ o) && decide (o + n ≤ t.base + t.span))
  checkLanes bad (fun l => { cause := 0x15, einfo := einfoRec idx (ptrWith (lanePtr lo hi l) (laneOff lo hi disp l)) })

/-- The alignment check (R219): a multiple of n bytes, or, through an FP6 record, of three from its base. -/
def alignCheck (act : Mask) (lo hi : Src) (disp : Int) (n : Nat) (r : Option (Option TRec)) : Option TrapInfo :=
  let ok (o : Nat) : Bool := match r with
    | some (some t) => if fp6 t.fmt then (o - t.base) % 3 == 0 else o % n == 0
    | _ => o % n == 0
  checkLanes (failing act (fun l => ok (laneOff lo hi disp l)))
    (fun l => { cause := 0x14, einfo := einfoA (ptrWith (lanePtr lo hi l) (laneOff lo hi disp l)) l })

/-- A TY other than 0 and the record's FMT (R220). -/
def recTy (ty : BitVec 5) (r : Option (Option TRec)) : Option TrapInfo :=
  match r with
  | some (some t) => check (ty == 0 || ty == t.fmt) { cause := 0x04 }
  | _ => none

/-- The format of an access: TY, or the record's FMT (R220). -/
def accFmt (ty : BitVec 5) (r : Option (Option TRec)) : BitVec 5 :=
  match r with
  | some (some t) => t.fmt
  | _ => ty

/-- The range bound of registers r to r + n - 1 (R60, R219). -/
def rangeBound (regs r n : Nat) : Option TrapInfo := boundCheck regs (r + n - 1)

/-- The register bound of a direct destination or data field of k registers (R60). -/
def VCtx.datBound (x : VCtx) (dat : BitVec 9) (k : Nat) : Option TrapInfo :=
  if dat.getLsbD 8 then none else rangeBound x.regs (dstReg dat) k

/-- The uniformity of a register that an instruction wants uniform (R224). -/
def uniIf (u : Bool) (s : Src) : Option TrapInfo := if u then s.uniCheck else none

/-- An address pair is uniform or affine after its pattern (R215). -/
def lineShaped (lo hi : Src) : Bool := lo.shape != .general && hi.shape != .general

/-- Every register of an address pair is uniform after its pattern. -/
def uniPair (lo hi : Src) : Bool := lo.shape == .uniform && hi.shape == .uniform

/-- A later memory instruction waits for an acquire of its warp (R253). -/
def Dev.afterAcquire (d : Dev) (go : Unit → Issue) : Issue :=
  if d.curCol.acquiring d.cur.slot then .hold d else go ()

/-- The register lanes that a load with destination field `dat` reserves (R235). -/
def VCtx.reserve (x : VCtx) (dat : BitVec 9) (k : Nat) : List (Nat × Mask) :=
  if dat.getLsbD 8 then ((x.old dat).waits).map (fun r => (r, x.act))
  else (List.range k).map (fun j => (dstReg dat + j, x.act))

/-- The registers that lane l of a destination or data field names. -/
def VCtx.datRegs (x : VCtx) (dat : BitVec 9) (k l : Nat) : List Nat :=
  if dat.getLsbD 8 then [regAt x.w x.act x.pre (dstOperand dat) l] else (List.range k).map (fun j => dstReg dat + j)

/-- An access with no active lane (R104): it waits for its registers and meets the checks that concern no lane, register bounds,
uniformity and tags, and then only advances the PC. Nothing reads its tensor record (log 21). -/
def VCtx.idle (x : VCtx) (checks : List (Option TrapInfo)) (us : List Use) : Issue :=
  if x.notReady us then .hold (x.d.holdRegs (x.waits us))
  else match firstTrap (checks ++ us.map Use.tagCheck) with
    | some t => .trap t
    | none => .retire x.d.advance

/-! ## Loads -/

/-- LD and LDU (R217-R224). -/
def ldIssue (f : MFields) (s : State) (u : Bool) : Issue :=
  let x0 := vctx s.dev f.h [dstOperand f.dat]
  let lo := rangeSrc x0.w 1 f.adr 0
  let hi := rangeSrc x0.w 1 f.adr 1
  let us := [Use.ptr lo, Use.ptr hi]
  let size := f.size.toNat
  let k := accessRegs size
  if x0.act = 0 then x0.idle [x0.datBound f.dat k, rangeBound x0.regs f.adr.reg.toNat 2, uniIf u lo, uniIf u hi] us
  else
    if x0.notReady us then .hold (x0.d.holdRegs (x0.waits us))
    else s.withRecord f.obj.toNat .load (fun d r =>
      let x := { x0 with d := d }
      let c := d.cur.col
      let t := accFmt f.h.ty r
      let rec6 := f.obj != 0 && fp6 t
      let n := laneBytes size rec6
      match firstTrap ([recTy f.h.ty r, x.datBound f.dat k, rangeBound x.regs f.adr.reg.toNat 2,
          uniIf u lo, uniIf u hi] ++ us.map Use.tagCheck ++ [x.dstWin f.dat, selCheck c x.act lo hi,
          recCheck c x.act lo hi f.offset f.obj.toNat n TRec.rd r, alignCheck x.act lo hi f.offset n r,
          poisJoin [lo, hi] x.act]) with
      | some e => .trap e
      | none => d.afterAcquire (fun _ =>
        if !d.curWarp.loadRoom || x.fifthWindow f.dat then .hold d
        else
          -- an LDU whose lanes name registers of their own makes its one access for each of them (R224, R234)
          let single := !f.dat.getLsbD 8 && (u || (uniPair lo hi && x.act == Mask.all))
          let ls := (if single then [Mask.first x.act] else Mask.list x.act).map (fun l =>
            let o := laneOff lo hi f.offset l
            { laneWant l c o n (reqOf (lineShaped lo hi) o) with dst := x.datRegs f.dat k l, lined := lineShaped lo hi })
          let o : MemOp := { d.newOp (if u then .uload else .load) t size ls with
            resv := x.reserve f.dat k, window := f.dat.getLsbD 8, uni := single, obj := f.obj.toNat, cpol := f.cpol,
            acq := f.ord == 1 }
          let (d, ok) := { s with dev := d }.startLoad o .load false d.cur.priv
          if ok then .retire (x.step d).advance else .hold d))

/-- The meaning of LD. -/
def execLd (f : MFields) (s : State) : Host.Outcome State Fault Refusal := s.conclude (ldIssue f s false)

/-- The meaning of LDU. -/
def execLdu (f : MFields) (s : State) : Host.Outcome State Fault Refusal := s.conclude (ldIssue f s true)

/-! ## Stores -/

/-- The data of a store-class instruction: its registers as sources (R220). -/
def VCtx.datSrcs (x : VCtx) (dat : BitVec 9) (k : Nat) : List Src :=
  if dat.getLsbD 8 then [x.old dat] else (List.range k).map (fun j => Src.direct x.w 0 (dstReg dat + j) 0 0)

/-- How a store reads a data register (R220): RAW accepts any tag from 32 bits on, without a record. -/
def storeUse (typed : Bool) (size : Nat) (t : BitVec 5) (s : Src) : Use :=
  if !typed && decide (2 ≤ size) && t == Fmt.raw then Use.any s else Use.of s t

/-- ST and STU (R217-R224, R256). -/
def stIssue (f : MFields) (s : State) (u : Bool) : Issue :=
  let x0 := vctx s.dev f.h [dstOperand f.dat]
  let lo := rangeSrc x0.w 1 f.adr 0
  let hi := rangeSrc x0.w 1 f.adr 1
  let size := f.size.toNat
  let k := accessRegs size
  let dat := x0.datSrcs f.dat k
  let ad := [Use.ptr lo, Use.ptr hi]
  if x0.act = 0 then
    x0.idle ([x0.datBound f.dat k, rangeBound x0.regs f.adr.reg.toNat 2] ++ dat.map (uniIf u) ++ [uniIf u lo, uniIf u hi])
      (dat.map (if f.obj == 0 || f.h.ty != 0 then storeUse (f.obj != 0) size f.h.ty else Use.any) ++ ad)
  else
    let rs := x0.waits (dat.map Use.any ++ ad)
    if x0.d.curCol.busy x0.d.cur.slot rs then .hold (x0.d.holdRegs rs)
    else s.withRecord f.obj.toNat .store (fun d r =>
      let x := { x0 with d := d }
      let c := d.cur.col
      let t := accFmt f.h.ty r
      let rec6 := f.obj != 0 && fp6 t
      let n := laneBytes size rec6
      let us := (match r with
        | some none => []
        | _ => dat.map (storeUse r.isSome size t)) ++ ad
      match firstTrap ([recTy f.h.ty r, x.datBound f.dat k, rangeBound x.regs f.adr.reg.toNat 2] ++
          dat.map (uniIf u) ++ [uniIf u lo, uniIf u hi] ++ us.map Use.tagCheck ++ [x.dstWin f.dat, selCheck c x.act lo hi,
          recCheck c x.act lo hi f.offset f.obj.toNat n TRec.wr r, alignCheck x.act lo hi f.offset n r,
          poisJoin [lo, hi] x.act]) with
      | some e => .trap e
      | none => d.afterAcquire (fun _ =>
        let act := if u then [Mask.first x.act] else Mask.list x.act
        if !d.curCol.storeRoom d.cur.slot act.length then .hold d
        else
          let rule := match r with
            | some (some q) => q.rule f.obj.toNat
            | _ => none
          let ls := act.map (fun l =>
            let o := laneOff lo hi f.offset l
            { laneWant (if u then 0 else l) c o n (reqOf (lineShaped lo hi) o) with
              lined := lineShaped lo hi, data := dat.map (fun q => lane q.vals l), pois := dat.map (fun q => Mask.has q.pois l), rng := rule })
          let o : MemOp := { d.newOp (if u then .ustore else .store) t size ls with obj := f.obj.toNat, cpol := f.cpol }
          let go (d : Dev) : Issue := .retire (x.step ({ s with dev := d }.startStore c o .store d.cur.priv)).advance
          if f.ord = 2 then d.release (d.curWarp.obsMask f.obs) go else go d))

/-- The meaning of ST. -/
def execSt (f : MFields) (s : State) : Host.Outcome State Fault Refusal := s.conclude (stIssue f s false)

/-- The meaning of STU. -/
def execStu (f : MFields) (s : State) : Host.Outcome State Fault Refusal := s.conclude (stIssue f s true)

/-! ## Scratchpad -/

/-- g(l) of R225. -/
def spadOff (a : Src) (disp : Int) (l : Nat) : Nat := (((lane a.vals l).toNat + disp) % (2 ^ 32 : Nat)).toNat

/-- The scratchpad bound (R60, R225). -/
def spadBound (k : Column) (act : Mask) (off : Nat → Nat) (n : Nat) : Option TrapInfo :=
  checkLanes (failing act (fun l => decide (off l + n ≤ k.spadBytes)))
    (fun l => { cause := 0x10, einfo := einfoB (off l + n) k.regions.spad })

/-- The alignment of a scratchpad access (R225, R407). -/
def spadAlign (act : Mask) (off : Nat → Nat) (n : Nat) : Option TrapInfo :=
  checkLanes (failing act (fun l => off l % n == 0)) (fun l => { cause := 0x14, einfo := einfoB (off l) n })

/-- The offset register of LDS and STS: a register, or a special source (R118, R217). -/
def VCtx.spadAdr (x : VCtx) (o : Operand) : Src := x.src 1 o

/-- A lane's access of the pool byte `at_`. It stands outside the offset space, so that no other access meets it. -/
def spadAcc (lane at_ n : Nat) : LaneAcc := { laneWant lane 1024 0 n 0 with off := 2 ^ 44 + at_, va := at_ }

/-- The largest number of distinct words that accesses of n bytes touch in one of the 32 banks (R225). -/
def spadDepth (offs : List Nat) (n : Nat) : Nat :=
  let ws := ((offs.map (fun g => (List.range ((g + n - 1) / 4 - g / 4 + 1)).map (fun i => g / 4 + i))).flatten).eraseDups
  (List.range 32).foldl (fun m b => max m (ws.filter (fun w => w % 32 == b)).length) 0

/-- The tick at which an LDS or STS completes (R225). -/
def MemOp.spadTime (o : MemOp) : Nat := o.itick + 6 + (o.reqs + 1) / 2

/-- An access of the scratchpad. -/
def OpKind.isSpad : OpKind → Bool
  | .lds | .sts => true
  | _ => false

/-- A scratchpad access is performed now: it is time, and all that the column has issued before have been (R225). -/
def Column.spadTurn (k : Column) (now : Nat) (o : MemOp) : Bool :=
  decide (o.spadTime ≤ now) && k.ops.all (fun p => !p.kind.isSpad || decide (o.id ≤ p.id))

/-- The registers that a lane of an LDS reads (R220, R225). -/
def Column.spadLane (k : Column) (o : MemOp) (a : LaneAcc) : List LaneWrite :=
  let ws := loadWords o.size false (o.fmt == Fmt.i32) (k.poolBytes o.ctx a.va a.size).1
  (List.range (accessRegs o.size)).map (fun j =>
    { reg := a.dst.getD j 0, lane := a.lane, val := padded o.fmt (ws.getD j 0), pois := (k.poolBytes o.ctx (a.va + 4 * j) (min 4 a.size)).2 })

/-- A lane of an STS written (R220, R225, R445). -/
def Column.spadPut (k : Column) (o : MemOp) (a : LaneAcc) : Column :=
  if o.size ≤ 1 then k.putPoolBytes o.ctx (a.pois.any id) a.va (storeBytes o.size false a.data)
  else (a.data.zip a.pois).zipIdx.foldl (fun k x => k.putPoolBytes o.ctx x.1.2 (a.va + 4 * x.2) (bytesOf 4 x.1.1.toNat)) k

/-- An LDS performed (R225): its registers are written, and LOADS falls. -/
def Column.spadLoad (k : Column) (o : MemOp) : Column := k.loaded { o with done := (o.lanes.map (k.spadLane o)).flatten }

/-- An STS performed (R225), lanes in ascending order: STORES falls, and CPY and MTX observe it from now on (R251). -/
def Column.spadStore (k : Column) (now : Nat) (o : MemOp) : Column :=
  let from_ := if o.entry.isNone then some (o.slot, o.itick) else none
  (o.lanes.foldl (fun k a => (k.spadPut o a).touched a.va (a.va + a.size) from_) k).storeDone { o with time := now }

/-- An LDS or STS performed, if it may be. -/
def Column.spadDone (k : Column) (now : Nat) (o : MemOp) : Column :=
  if !k.spadTurn now o then k else if o.kind = .lds then k.spadLoad o else k.spadStore now o

/-- LDS (R225): it is performed after those that the column has issued before, and LOADS counts it until then (R221). -/
def ldsIssue (f : MFields) (s : State) : Issue :=
  let x := vctx s.dev f.h [dstOperand f.dat]
  let d := s.dev
  let a := x.spadAdr f.adr
  let u := Use.ptr a
  let size := f.size.toNat
  let k := accessRegs size
  let n := accessBytes size
  let off := spadOff a f.offset
  if x.act = 0 then x.idle [x.datBound f.dat k, a.boundCheck x.regs] [u]
  else
    if x.notReady [u] then .hold (d.holdRegs (x.waits [u]))
    else match firstTrap [x.datBound f.dat k, a.boundCheck x.regs, u.tagCheck,
        x.dstWin f.dat, spadBound d.curCol x.act off n, spadAlign x.act off n, a.poisCheck x.act] with
    | some e => .trap e
    | none => d.afterAcquire (fun _ =>
      if !x.w.loadRoom || x.fifthWindow f.dat then .hold d
      else
        let base := d.curCol.spadBase x.w.gang
        let ls := (Mask.list x.act).map (fun l => { spadAcc l (base + off l) n with dst := x.datRegs f.dat k l })
        let o : MemOp := { d.newOp .lds f.h.ty size ls with
          resv := x.reserve f.dat k, window := f.dat.getLsbD 8, uni := a.shape == .uniform, reqs := spadDepth ((Mask.list x.act).map off) n, reach := 0 }
        .retire (x.step (d.enter d.cur.col o)).advance)

/-- The meaning of LDS. -/
def execLds (f : MFields) (s : State) : Host.Outcome State Fault Refusal := s.conclude (ldsIssue f s)

/-- STS (R225): it is performed after those that the column has issued before, and STORES counts it until then (R221); CPY and MTX observe it (R251). -/
def stsIssue (f : MFields) (s : State) : Issue :=
  let x := vctx s.dev f.h [dstOperand f.dat]
  let d := s.dev
  let a := x.spadAdr f.adr
  let size := f.size.toNat
  let k := accessRegs size
  let n := accessBytes size
  let dat := x.datSrcs f.dat k
  let us := dat.map (storeUse false size f.h.ty) ++ [Use.ptr a]
  let off := spadOff a f.offset
  if x.act = 0 then x.idle [x.datBound f.dat k, a.boundCheck x.regs] us
  else
    if x.notReady us then .hold (d.holdRegs (x.waits us))
    else match firstTrap ([x.datBound f.dat k, a.boundCheck x.regs] ++
        us.map Use.tagCheck ++ [x.dstWin f.dat, spadBound d.curCol x.act off n, spadAlign x.act off n, a.poisCheck x.act]) with
    | some e => .trap e
    | none => d.afterAcquire (fun _ =>
      if !decide (x.w.stores < 63) then .hold d
      else
        let base := d.curCol.spadBase x.w.gang
        let ls := (Mask.list x.act).map (fun l =>
          { spadAcc l (base + off l) n with data := dat.map (fun q => lane q.vals l), pois := dat.map (fun q => Mask.has q.pois l) })
        let o : MemOp := { d.newOp .sts f.h.ty size ls with reqs := spadDepth ((Mask.list x.act).map off) n, reach := 0x0C }
        .retire (x.step (d.enter d.cur.col o)).advance)

/-- The meaning of STS. -/
def execSts (f : MFields) (s : State) : Host.Outcome State Fault Refusal := s.conclude (stsIssue f s)

/-! ## The transposing load -/

/-- The accesses of one element of an LDT: its code, and its block scale where the record has one (R226). -/
def ldtElem (r : TRec) (c l reg e : Nat) (i : List Nat) : List LaneAcc :=
  if !r.inside c i then []
  else
    let b := r.bitAddr i
    let w := memBits r.fmt
    let o := b / 8
    let n := (b % 8 + w + 7) / 8
    { laneWant l c o n (o / 32) with dst := [reg, e + 1, b % 8, w] } ::
      (if r.grp = 1 then
        let q := r.scaleOff i
        [{ laneWant l c q 1 (q / 32) with dst := [reg, e + 17, 0, 8] }]
      else [])

/-- LDT (R226). -/
def ldtIssue (f : MFields) (s : State) : Issue :=
  let x0 := vctx s.dev f.h []
  let k := accessRegs f.size.toNat
  if x0.act = 0 then
    let is := (List.range 2).map (rangeSrc x0.w 1 f.adr)
    x0.idle ([rangeBound x0.regs (dstReg f.dat) k, rangeBound x0.regs f.adr.reg.toNat 2] ++ is.map Src.uniCheck) (is.map Use.ptr)
  else
    s.withRecord f.obj.toNat .load (fun d r =>
      let x := { x0 with d := d }
      let c := d.cur.col
      let rank := match r with
        | some (some t) => t.rank
        | _ => 2
      let is := (List.range rank).map (rangeSrc x.w 1 f.adr)
      let us := is.map Use.ptr
      let t := (r.getD none).getD (TRec.ofNum 0)
      let known := (r.getD none).isSome
      if x.notReady us then .hold (d.holdRegs (x.waits us))
      else match firstTrap ([check (!known || (t.rank != 1 && decide (t.grp ≤ 1) &&
            (if t.grp = 1 then f.h.ty == Fmt.bf16x2 else f.h.ty == 0 || f.h.ty == t.fmt))) { cause := 0x04 },
          rangeBound x.regs (dstReg f.dat) k, rangeBound x.regs f.adr.reg.toNat rank] ++ us.map (fun q => q.src.uniCheck) ++
          us.map Use.tagCheck ++ [check (known && t.rd && t.onColumn c)
            { cause := 0x15, einfo := einfoRec f.obj.toNat (selfPtr t.base), emask := x.act }] ++
          [poisJoin is x.act]) with
      | some e => .trap e
      | none => d.afterAcquire (fun _ =>
        if !d.curWarp.loadRoom then .hold d
        else
          let dst := if t.grp = 1 then Fmt.bf16x2 else t.fmt
          let n := elems dst
          let i (j : Nat) : Nat := match is[j]? with
            | some q => (lane q.vals 0).toNat
            | none => 0
          let ls := ((Mask.list x.act).map (fun l => ((List.range k).map (fun j => ((List.range n).map (fun e =>
            ldtElem t c l (dstReg f.dat + j) e [i 0 + l, i 1 + j * n + e, i 2, i 3, i 4])).flatten)).flatten)).flatten
          let o : MemOp := { d.newOp .loadT dst f.size.toNat ls with
            resv := x.reserve f.dat k, obj := f.obj.toNat + (if t.grp = 1 then 65536 * t.fmt.toNat else 0), cpol := f.cpol,
            rm := f.h.rm, sat := f.h.s }
          let (d, ok) := { s with dev := d }.startLoad o .load false d.cur.priv
          if ok then .retire d.advance else .hold d))

/-- The meaning of LDT. -/
def execLdt (f : MFields) (s : State) : Host.Outcome State Fault Refusal := s.conclude (ldtIssue f s)

/-! ## Prefetch and cache control -/

/-- The translated lanes of a prefetch under its CPOL: one that does not translate is dropped (R206, R227). -/
def State.seekPref (s : State) (c ctx : Nat) (cpol : BitVec 2) (priv : Bool) : List LaneAcc → Dev × List LaneAcc
  | [] => (s.dev, [])
  | a :: as =>
    match s.resolve c ctx cpol false priv a with
    | (.ok b, d) =>
      let (d, ls) := State.seekPref { s with dev := d } c ctx cpol priv as
      (d, b :: ls)
    | (.error _, d) => State.seekPref { s with dev := d } c ctx cpol priv as

/-- PREF (R227). Its requests stand under slot 48, which no warp has: nothing orders or counts them. -/
def prefIssue (f : MFields) (s : State) : Issue :=
  let x0 := vctx s.dev f.h []
  let lo := rangeSrc x0.w 1 f.adr 0
  let hi := rangeSrc x0.w 1 f.adr 1
  let us := [Use.ptr lo, Use.ptr hi]
  if x0.act = 0 then x0.idle [rangeBound x0.regs f.adr.reg.toNat 2] us
  else
    if x0.notReady us then .hold (x0.d.holdRegs (x0.waits us))
    else s.withRecord f.obj.toNat .load (fun d r =>
      let x := { x0 with d := d }
      let c := d.cur.col
      let n := match r with
        | some (some t) => laneBytes 0 (fp6 t.fmt)
        | _ => 1
      match firstTrap ([rangeBound x.regs f.adr.reg.toNat 2] ++ us.map Use.tagCheck ++ [selCheck c x.act lo hi,
          recCheck c x.act lo hi f.offset f.obj.toNat n TRec.rd r, alignCheck x.act lo hi f.offset n r,
          poisJoin [lo, hi] x.act]) with
      | some e => .trap e
      | none => d.afterAcquire (fun _ =>
        let ls := (Mask.list x.act).map (fun l =>
          let o := laneOff lo hi f.offset l
          laneWant l c o n (reqOf (lineShaped lo hi) o))
        let (d, ls) := { s with dev := d }.seekPref c x.w.ctx f.cpol d.cur.priv ls
        let o : MemOp := { d.newOp (.pref (f.cpol == 1)) 0 0 ls with slot := 48, reach := 0 }
        .retire (if ls.isEmpty then d else d.modCol c (fun k => k.addOp o)).advance))

/-- The meaning of PREF. -/
def execPref (f : MFields) (s : State) : Host.Outcome State Fault Refusal := s.conclude (prefIssue f s)

/-- A CCTL operation with an address (R228): the issue checks, then one act for each line that an active lane's address falls in. -/
def cctlAt (f : MFields) (s : State) (go : VCtx → List (Nat × Nat) → Issue) : Issue :=
  let x := vctx s.dev f.h []
  let lo := rangeSrc x.w 1 f.adr 0
  let hi := rangeSrc x.w 1 f.adr 1
  let us := [Use.ptr lo, Use.ptr hi]
  if x.act = 0 then x.idle [rangeBound x.regs f.adr.reg.toNat 2] us
  else
    if x.notReady us then .hold (x.d.holdRegs (x.waits us))
    else match firstTrap ([rangeBound x.regs f.adr.reg.toNat 2] ++ us.map Use.tagCheck ++
        [selCheck x.d.cur.col x.act lo hi, poisJoin [lo, hi] x.act]) with
    | some e => .trap e
    | none => x.d.afterAcquire (fun _ =>
      let all := (Mask.list x.act).map (fun l => (l, laneOff lo hi f.offset l / 128 * 128))
      go x (((all.map Prod.snd).eraseDups).map (fun o => (((all.find? (fun p => p.2 == o)).map Prod.fst).getD 0, o))))

/-- The lines of a CCTL as accesses. -/
def cctlLanes (c : Nat) (ls : List (Nat × Nat)) : List LaneAcc := ls.map (fun p => laneWant p.1 c p.2 0 (p.2 / 128))

/-- CCTL .clean, .flush and .pin: counted in STORES, held where a line does not translate (R221, R228). -/
def cctlStore (f : MFields) (s : State) (op : BitVec 3) : Issue :=
  cctlAt f s (fun x ls =>
    if !decide (x.w.stores < 63) then .hold x.d
    else
      let o : MemOp := { x.d.newOp (.cctl op) 0 0 (cctlLanes x.d.cur.col ls) with cpol := 1, reach := if op = 2 then 0 else 0x7F }
      let (d, ok) := s.startLoad o .load false x.d.cur.priv
      if ok then .retire d.advance else .hold d)

/-- The meaning of CCTL.clean. -/
def execCctlClean (f : MFields) (s : State) : Host.Outcome State Fault Refusal := s.conclude (cctlStore f s 0)

/-- The meaning of CCTL.flush. -/
def execCctlFlush (f : MFields) (s : State) : Host.Outcome State Fault Refusal := s.conclude (cctlStore f s 1)

/-- The meaning of CCTL.pin. -/
def execCctlPin (f : MFields) (s : State) : Host.Outcome State Fault Refusal := s.conclude (cctlStore f s 2)

/-- CCTL .unpin (R212, R228). -/
def unpinIssue (f : MFields) (s : State) : Issue :=
  cctlAt f s (fun x ls =>
    let c := x.d.cur.col
    let o : MemOp := { x.d.newOp (.cctl 3) 0 0 [] with cpol := 1 }
    let (d, as, _, fs) := s.seekLanes c o false x.d.cur.priv (cctlLanes c ls)
    if fs.isEmpty then
      .retire (d.modCol c (fun k => as.foldl (fun k a => k.l2Change a.va (fun l => { l with pinned := false })) k)).advance
    else .hold (d.holdFault .load fs))

/-- The meaning of CCTL.unpin. -/
def execCctlUnpin (f : MFields) (s : State) : Host.Outcome State Fault Refusal := s.conclude (unpinIssue f s)

/-- CCTL .drop (R228). -/
def dropIssue (f : MFields) (s : State) : Issue :=
  cctlAt f s (fun x ls =>
    .retire (x.d.modCurCol (fun k => k.l1Drop x.w.ctx (fun o l => (ls.map Prod.snd).contains o && !l.stable))).advance)

/-- The meaning of CCTL.drop. -/
def execCctlDrop (f : MFields) (s : State) : Host.Outcome State Fault Refusal := s.conclude (dropIssue f s)

/-- CCTL .dropall (R228): stable lines included. -/
def dropallIssue (f : MFields) (s : State) : Issue :=
  let x := vctx s.dev f.h []
  if x.act = 0 then .retire s.dev.advance
  else s.dev.afterAcquire (fun _ => .retire (s.dev.modCurCol (fun k => k.l1Drop x.w.ctx (fun _ _ => true))).advance)

/-- The meaning of CCTL.dropall. -/
def execCctlDropall (f : MFields) (s : State) : Host.Outcome State Fault Refusal := s.conclude (dropallIssue f s)

end Sys2Proof.Machine
end

