-- ==== Sys2Proof/Machine/Atomic.lean ====
section
/-! DEFINITION. Atomics, fences and barriers (R255-R269), and the near-memory atomics (R377-R379). -/

namespace Sys2Proof.Machine

/-! ## Atomics -/

/-- The data registers of an atomic: DAT, and DAT + 1 for cas (R257). -/
def atomRegs (f : MFields) : Nat := if f.aop.toNat = 7 then 2 else 1

/-- The data of an atomic as sources. -/
def atomData (x : VCtx) (f : MFields) : List Src := (List.range (atomRegs f)).map (fun j => Src.direct x.w 0 (dstReg f.dat + j) 0 0)

/-- The lanes of an atomic with their operands (R259): each is one word at its address. -/
def atomLaneList (x : VCtx) (f : MFields) (lo hi : Src) (dat : List Src) (c : Nat) : List LaneAcc :=
  (Mask.list x.act).map (fun l =>
    let o := laneOff lo hi f.offset l
    { laneWant l c o 4 (reqOf (lineShaped lo hi) o) with
      dst := [dstReg f.dat], data := dat.map (fun q => lane q.vals l), pois := dat.map (fun q => Mask.has q.pois l) })

/-- The FMT of an atomic's record equals TY (R257). -/
def atomTy (ty : BitVec 5) (r : Option (Option TRec)) : Option TrapInfo :=
  match r with
  | some (some t) => check (t.fmt == ty) { cause := 0x04 }
  | _ => none

/-- The checks of an atomic (R219, R257), then its effect on the active lanes. -/
def atomIssue (f : MFields) (s : State) (acc : AccKind) (right : TRec → Bool) (go : VCtx → Dev → List LaneAcc → Issue) : Issue :=
  let x0 := vctx s.dev f.h []
  let lo := rangeSrc x0.w 1 f.adr 0
  let hi := rangeSrc x0.w 1 f.adr 1
  let dat := atomData x0 f
  let us := dat.map (fun q => Use.of q f.h.ty) ++ [Use.ptr lo, Use.ptr hi]
  if x0.act = 0 then x0.idle [rangeBound x0.regs (dstReg f.dat) (atomRegs f), rangeBound x0.regs f.adr.reg.toNat 2] us
  else
    if x0.notReady us then .hold (x0.d.holdRegs (x0.waits us))
    else s.withRecord f.obj.toNat acc (fun d r =>
      let x := { x0 with d := d }
      let c := d.cur.col
      match firstTrap ([atomTy f.h.ty r, rangeBound x.regs (dstReg f.dat) (atomRegs f), rangeBound x.regs f.adr.reg.toNat 2] ++
          us.map Use.tagCheck ++ [selCheck c x.act lo hi, recCheck c x.act lo hi f.offset f.obj.toNat 4 right r,
          alignCheck x.act lo hi f.offset 4 none, poisJoin [lo, hi] x.act]) with
      | some e => .trap e
      | none => d.afterAcquire (fun _ => go x d (atomLaneList x f lo hi dat c)))

/-- The record grants RD and WR. -/
def TRec.rw (t : TRec) : Bool := t.rd && t.wr

/-- The L1 lines of an atomic's lanes dropped in the issuing column (R205). -/
def Dev.dropLanes (d : Dev) (ctx : Nat) (ls : List LaneAcc) : Dev :=
  d.modCurCol (fun k => ls.foldl (fun k a => if a.tcol = d.cur.col then k.l1DropLine ctx a.off else k) k)

/-- An atomic that returns old values starts (R259, R260), or is held for its translation (R422). -/
def atomStart (s : State) (f : MFields) (kind : OpKind) (acq : Bool) (act : Mask) (ls : List LaneAcc) (d : Dev) : Issue :=
  let o : MemOp := { d.newOp kind f.h.ty 2 ls with resv := [(dstReg f.dat, act)], obj := f.obj.toNat, rm := f.h.rm, acq := acq }
  let (d, ok) := { s with dev := d }.startLoad o .atomic true d.cur.priv
  if ok then .retire (d.dropLanes d.curWarp.ctx ls).advance else .hold d

/-- The meaning of ATOM. -/
def execAtom (f : MFields) (s : State) : Host.Outcome State Fault Refusal :=
  s.conclude (atomIssue f s .atomic TRec.rw (fun x d ls =>
    if !d.curWarp.loadRoom || !decide (d.curWarp.stores < 63) then .hold d
    else
      let go := atomStart s f (.atom f.aop f.h.rm) (f.ord.getLsbD 0) x.act ls
      if f.ord.getLsbD 1 then d.release (d.curWarp.obsMask f.obs) go else go d))

/-- The meaning of ARED. -/
def execAred (f : MFields) (s : State) : Host.Outcome State Fault Refusal :=
  s.conclude (atomIssue f s .store TRec.wr (fun _ d ls =>
    if !d.curCol.storeRoom d.cur.slot ls.length then .hold d
    else
      let go (d : Dev) : Issue :=
        let o : MemOp := { d.newOp (.ared f.aop f.h.rm) f.h.ty 2 ls with obj := f.obj.toNat, rm := f.h.rm }
        .retire (({ s with dev := d }.startStore d.cur.col o .store d.cur.priv).dropLanes d.curWarp.ctx ls).advance
      if f.ord = 2 then d.release (d.curWarp.obsMask f.obs) go else go d))

/-- An ATSC of a warp is in flight: its acquire is still to come (R262). -/
def Column.atscBusy (k : Column) (s : Nat) : Bool :=
  k.ops.any (fun o => o.slot == s && o.acq && (match o.kind with
    | .atsc _ _ => true
    | _ => false))

/-- The meaning of ATSC (R261): the release, then a request to the house sequencer, whose ticket orders it at the slices. -/
def execAtsc (f : MFields) (s : State) : Host.Outcome State Fault Refusal :=
  s.conclude (s.dev.whole f.h (fun _ => atomIssue f s .atomic TRec.rw (fun x d ls =>
    if d.curCol.atscBusy d.cur.slot || !d.curWarp.loadRoom || !decide (d.curWarp.stores < 63) then .hold d
    else d.release (d.curWarp.obsMask f.obs) (atomStart s f (.atsc f.aop none) true x.act ls))))

/-! ## Fences -/

/-- FENCE (R255): .acq waits for the warp's loads and drops the context's lines, .rel releases, .ar does both. -/
def fenceIssue (f : MFields) (s : State) : Issue :=
  s.dev.whole f.h (fun _ =>
    let acq (d : Dev) : Issue :=
      if f.ord.getLsbD 0 then
        if d.curWarp.loads = 0 then .retire (d.modCurCol (fun k => k.acquire d.curWarp.ctx)).advance else .hold d
      else .retire d.advance
    if f.ord.getLsbD 1 then s.dev.release (s.dev.curWarp.obsMask f.obs) acq else acq s.dev)

/-- The meaning of FENCE. -/
def execFence (f : MFields) (s : State) : Host.Outcome State Fault Refusal := s.conclude (fenceIssue f s)

/-- The meaning of OFENCE (R264). -/
def execOfence (f : XFields) (s : State) : Host.Outcome State Fault Refusal :=
  s.conclude (s.dev.whole f.h (fun _ =>
    if s.dev.curCol.ordered s.dev.cur.slot then .retire s.dev.advance else .hold s.dev))

/-- The meaning of NMFENCE (R379). -/
def execNmfence (f : MFields) (s : State) : Host.Outcome State Fault Refusal :=
  s.conclude (s.dev.whole f.h (fun _ =>
    let w := s.dev.curWarp
    if w.nmPending = 0 ∧ (w.obsMask f.obs = 0 ∨ w.nmTime ≤ s.dev.now) then .retire s.dev.advance else .hold s.dev))

/-! ## Near-memory atomics -/

/-- The entry of one lane in the atomic queue (R376, R377). -/
def nmEntry (o : MemOp) (aop : BitVec 5) (rm : BitVec 2) (now : Nat) (orph : Bool) (a : LaneAcc) : NmEntry :=
  { slot := o.slot, wid := o.id, ctx := o.ctx, off := a.off, va := a.va, aop := aop, ty := o.fmt, rm := rm, val := a.data.getD 0 0,
    val2 := a.data.getD 1 0, pois := a.pois.any id, tick := now, orph := orph, zc := a.zc, stable := a.stable,
    priv := o.priv }

/-- The meaning of NMATOM (R377): the lanes that translate enter the queue in ascending order, the others the side log (R423). -/
def execNmatom (f : MFields) (s : State) : Host.Outcome State Fault Refusal :=
  s.conclude (atomIssue f s .nmatom (fun t => t.nm && t.wr) (fun _ d ls =>
    let k := d.curCol
    if 256 < k.hand.atomq.length + ls.length ∨ k.logFree < ls.length then .hold d
    else
      let o : MemOp := { d.newOp (.nmatom f.aop f.h.rm) f.h.ty 2 [] with obj := f.obj.toNat, cpol := 1, rm := f.h.rm, reach := 0 }
      let (d, as, n) := { s with dev := d }.placeLanes d.cur.col o .nmatom d.cur.priv ls
      let d := d.modCurCol (fun k => { k with hand := { k.hand with
        atomq := k.hand.atomq ++ as.map (nmEntry o f.aop f.h.rm d.now false) } })
      let d := if n = 0 then d else d.modCurCol (fun k => k.addOp { o with logged := n })
      .retire (d.modCurWarp (fun w => { w with nmPending := w.nmPending + ls.length })).advance))

/-! ## Named barriers -/

/-- The number of a barrier in the column's table: 64 barriers for each gang at most. -/
def barKey (gang b : Nat) : Nat := gang * 64 + b

/-- A barrier that nothing has arrived at. -/
def Barrier.start : Barrier := { arr := 0, exp := 0, phase := 0, mask := 0, engines := 0 }

/-- A gang's barrier. -/
def Column.bar (k : Column) (gang b : Nat) : Barrier := k.bars.getD (barKey gang b) Barrier.start

/-- A gang's barrier replaced. -/
def Column.putBar (k : Column) (gang b : Nat) (x : Barrier) : Column := { k with bars := k.bars.set (barKey gang b) x }

/-- The phase is full: its arrivals equal a nonzero expected count (R266). -/
def Barrier.full (x : Barrier) : Bool := x.exp != 0 && x.arr == x.exp

/-- EINFO of the barrier-count trap (R407). -/
def einfoBar (b exp count : Nat) : BitVec 64 := BitVec.ofNat 64 (b % 64 + exp % 256 * 2 ^ 8 + count % 256 * 2 ^ 16)

/-- The count checks of an arrival (R266). -/
def Barrier.refuse (x : Barrier) (b count : Nat) : Option TrapInfo :=
  check ((x.exp == 0 || x.exp == count) && decide (x.arr + 1 ≤ count)) { cause := 0x17, einfo := einfoBar b x.exp count }

/-- An arrival in the current phase (R266). -/
def Barrier.arrive (x : Barrier) (count : Nat) (m : BitVec 7) : Barrier := { x with arr := x.arr + 1, exp := count, mask := m }

/-- The warp of slot s has waited for its phase of barrier b: it clears its pending phase, acquires, and goes on past the BAR (R266). -/
def Column.barWake (k : Column) (s b : Nat) : Column :=
  let w := k.warp s
  let k := k.acquire w.ctx
  k.putWarp s { w with park := .none, wait := .none, barPend := w.barPend.del b, pc := w.pc + 1 }

/-- The issuing warp waits at barrier b (R266): it goes on where its pending phase has completed, else it parks. -/
def Dev.barWait (d : Dev) (b : Nat) : Dev :=
  let w := d.curWarp
  let now := (d.curCol.bar w.gang b).phase
  let p := w.barPend.getD b now
  if p < now then d.modCurCol (fun k => k.barWake d.cur.slot b) else d.park (.bar b p)

/-- The warp of slot s arrives at barrier b of its gang (R266). -/
def Column.barArrive (k : Column) (s b count : Nat) (m : BitVec 7) : Column :=
  let w := k.warp s
  let x := k.bar w.gang b
  (k.putBar w.gang b (x.arrive count m)).putWarp s { w with barPend := w.barPend.set b x.phase }

/-- An effect after a last check. -/
def afterCheck (t : Option TrapInfo) (d : Dev) : Issue :=
  match t with
  | some t => .trap t
  | none => .retire d

/-- BAR after its other checks (R266): the arrival count, then the poison of its count register (R408, R419). -/
def barGo (d : Dev) (b count form : Nat) (m : BitVec 7) (pois : Option TrapInfo) : Issue :=
  let w := d.curWarp
  let x := d.curCol.bar w.gang b
  if form = 2 then afterCheck pois (d.barWait b)
  else d.release m (fun d =>
    if x.full then afterCheck pois (d.park (.barFull b count form m))
    else match x.refuse b count with
      | some t => .trap t
      | none =>
        let d := d.modCurCol (fun k => k.barArrive d.cur.slot b count m)
        afterCheck pois (if form = 1 then d.advance else d.barWait b))

/-- BAR (R265, R266). -/
def barIssue (f : XFields) (s : State) : Issue :=
  s.dev.whole f.h (fun _ =>
    let d := s.dev
    let x := vctx d f.h []
    let b := f.num.toNat
    let us := if f.sub.getLsbD 2 then [Use.ptr (x.src 1 f.a)] else []
    let count := match us with
      | u :: _ => (lane u.src.vals 0).toNat
      | [] => d.curCol.regions.w
    if x.notReady us then .hold (d.holdRegs (x.waits us))
    else match firstTrap (x.bounds us ++ us.map (fun u => u.src.uniCheck) ++ us.map Use.tagCheck ++
        [check (decide (b < d.curCol.barCount)) { cause := 0x12, einfo := einfoB b d.curCol.barCount },
         check (decide (1 ≤ count) && decide (count ≤ 48))
          { cause := 0x17, einfo := einfoBar b (d.curCol.bar d.curWarp.gang b).exp count }]) with
    | some t => .trap t
    | none => barGo d b count (f.sub.toNat % 4) (d.curWarp.obsMask (f.pp.extractLsb' 0 7))
        (poisJoin (us.map Use.src) Mask.all))

/-- The meaning of BAR. -/
def execBar (f : XFields) (s : State) : Host.Outcome State Fault Refusal := s.conclude (barIssue f s)

/-- The tracker entries that a test selects have their completion times under a mask, and Now() has reached them (R267). -/
def Column.trackerClear (k : Column) (now : Nat) (m : BitVec 7) (sel : Tracker → Bool) : Bool :=
  (k.tracker.filter sel).all (fun t =>
    k.ops.all (fun o => o.entry != some t.id || o.reach &&& m == 0) &&
    k.copies.all (fun c => !c.owner.isEntry t.id || c.desc.reach &&& m == 0) &&
    (List.range 7).all (fun i => !m.getLsbD i || decide (t.times.toList.getD i 0 ≤ now)))

/-! ## Domain barriers -/

/-- The level that fixes a domain barrier's participants: the outermost one bound to a domain (R58, R269). -/
def LaunchRec.levelOf (r : LaunchRec) (dom : Nat) : Option Nat := r.levels.findIdx? (fun l => l.dom.toNat == dom)

/-- The level of the launch's placement groups (R81). -/
def LaunchRec.groupLevel (r : LaunchRec) : Nat := if (r.levels.map (fun l => l.dom.toNat)).headD 0 = 10 then 1 else 0

/-- A domain that a BARD may name (R268). -/
def LaunchRec.bardOk (r : LaunchRec) (dom : Nat) : Bool :=
  (r.levelOf dom).isSome && decide (dom ≤ (r.levels.map (fun l => l.dom.toNat)).getD r.groupLevel 0)

/-- The number of a unit of level i: its coordinates from level 0 on in one number, beside its level (R57). -/
def LaunchRec.unitNo (r : LaunchRec) (i : Nat) (coords : List Nat) : Nat :=
  ((List.range (i + 1)).foldl (fun n j => n * (match r.levels[j]? with
    | some l => l.ext
    | none => 1) + coords.getD j 0) 0) * 8 + i

/-- The participants of a unit of level i: the warps that placement starts in it (R269). -/
def LaunchRec.participants (r : LaunchRec) (i : Nat) : Nat :=
  let n := (r.levels.findIdx? (fun l => l.dom == 2)).getD 0
  ((r.levels.take (n + 1)).drop (i + 1)).foldl (fun p l => p * l.ext) 1

/-- A channel's state; one that nothing has used is in phase 0. -/
def Dev.bard (d : Dev) (launch unit channel : Nat) : BardState :=
  (d.bards.find? (fun b => b.launch == launch && b.unit == unit && b.channel == channel)).getD
    { launch := launch, unit := unit, channel := channel, phase := 0, arrived := [], mask := 0 }

/-- A channel's state replaced. -/
def Dev.putBard (d : Dev) (x : BardState) : Dev :=
  { d with bards := x :: d.bards.filter (fun b => !(b.launch == x.launch && b.unit == x.unit && b.channel == x.channel)) }

/-- The columns of a launch. -/
def Dev.launchCols (d : Dev) (launch : Nat) : List Nat := match d.launches.get? launch with
  | some l => l.cols
  | none => []

/-- A warp is a participant of a unit (R269). -/
def Warp.inUnit (w : Warp) (r : LaunchRec) (launch unit : Nat) : Bool :=
  w.launch == launch && !w.spawned && r.unitNo (unit % 8) w.coords == unit

/-- The warps of a context that live on a column: those there, and those saved in its image (R88). -/
def Dev.livingOn (d : Dev) (c ctx : Nat) : Table Warp :=
  (d.col c).warps ++ ((d.images.filter (fun i => i.1 / 2 == c && i.2.ctx == ctx)).map (fun i => i.2.warps)).flatten

/-- The arrivals of a channel's phase: those of the participants that live, saved ones among them, and every ended participant once (R269). -/
def Dev.bardCount (d : Dev) (x : BardState) : Nat :=
  let r := d.launchRec x.launch
  let live := ((d.launchCols x.launch).map (fun c => (((d.livingOn c ((d.launches.get? x.launch).map (fun l => l.ctx) |>.getD 0)).filter (fun w => w.2.inUnit r x.launch x.unit)).map
    (fun w => (c, w.1))))).flatten
  (x.arrived.filter (fun p => live.contains p)).length + (r.participants (x.unit % 8) - live.length)

/-- A channel's phase is full. -/
def Dev.bardFull (d : Dev) (x : BardState) : Bool := decide ((d.launchRec x.launch).participants (x.unit % 8) ≤ d.bardCount x)

/-- The key of a pending phase: unit and channel. -/
def bardKey (unit channel : Nat) : Nat := unit * 16 + channel

/-- The warp of a slot arrives at a channel (R269). -/
def Dev.bardArrive (d : Dev) (c s unit channel : Nat) (m : BitVec 7) : Dev :=
  let w := d.warp c s
  let x := d.bard w.launch unit channel
  (d.putBard { x with arrived := x.arrived ++ [(c, s)], mask := m }).putWarp c s
    { w with bardPend := w.bardPend.set (bardKey unit channel) x.phase }

/-- A warp has waited for its phase of a channel (R266, R269). -/
def Column.bardWake (k : Column) (s unit channel : Nat) : Column :=
  let w := k.warp s
  let k := k.acquire w.ctx
  k.putWarp s { w with park := .none, wait := .none, bardPend := w.bardPend.del (bardKey unit channel), pc := w.pc + 1 }

/-- The issuing warp waits at a channel (R266, R269). -/
def Dev.bardWait (d : Dev) (unit channel : Nat) : Dev :=
  let w := d.curWarp
  let now := (d.bard w.launch unit channel).phase
  let p := w.bardPend.getD (bardKey unit channel) now
  if p < now then d.modCurCol (fun k => k.bardWake d.cur.slot unit channel) else d.park (.bard unit channel p)

/-- BARD (R268, R269). -/
def bardIssue (f : XFields) (s : State) : Issue :=
  let d := s.dev
  let r := d.curRec
  let w := d.curWarp
  if w.spawned || !r.bardOk f.dom.toNat then .trap { cause := 0x04 }
  else d.whole f.h (fun _ =>
    let i := (r.levelOf f.dom.toNat).getD 0
    let unit := r.unitNo i w.coords
    let ch := f.num.toNat
    let scope := match r.levels[i]? with
      | some l => l.scope
      | none => 0
    let m := if f.pp.extractLsb' 0 7 = 0 then scope else f.pp.extractLsb' 0 7
    if f.sub = 2 then .retire (d.bardWait unit ch)
    else d.release m (fun d =>
      if d.bardFull (d.bard w.launch unit ch) then .retire (d.park (.bardFull unit ch f.sub.toNat m))
      else
        let d := d.bardArrive d.cur.col d.cur.slot unit ch m
        if f.sub = 1 then .retire d.advance else .retire (d.bardWait unit ch)))

/-- The meaning of BARD. -/
def execBard (f : XFields) (s : State) : Host.Outcome State Fault Refusal := s.conclude (bardIssue f s)

end Sys2Proof.Machine
end

