-- ==== Sys2Proof/Machine/Exchange.lean ====
section
/-! DEFINITION. Crossing columns (R272-R299): exchanges of registers, exchange accesses, messages and receive rings, and watches. -/

namespace Sys2Proof.Machine

/-! ## Members -/

/-- s(m): the member whose data member m receives (R275). -/
def sourceOf (dom pk pp m : Nat) : Nat :=
  let n := domCols dom
  if pk = 1 then m ^^^ pp else if pk = 2 then (m + n - pp) % n else pp

/-- The members that member m's data reaches (R275): t(m), or every member for the source of a broadcast. -/
def targetsOf (dom pk pp m : Nat) : List Nat :=
  let n := domCols dom
  if pk = 1 then [m ^^^ pp] else if pk = 2 then [(m + pp) % n] else if m = pp then List.range n else []

/-- The column of a member of the instance that holds column c (R275). -/
def memberCol (c dom t : Nat) : Nat := c - c % domCols dom + t

/-! ## XCH -/

/-- The level that an exchange's group belongs to, where the launch covers a domain (R278). -/
def LaunchRec.covers (r : LaunchRec) (dom : Nat) : Option Nat :=
  let ds := r.levels.map (fun l => l.dom.toNat)
  let g := (ds.findIdx? (· == 3)).getD 0
  match (List.range ds.length).reverse.find? (fun j => ds.getD j 16 == dom) with
  | none => none
  | some i =>
    if g = 0 || ds.getD (g - 1) 0 != 4 then none
    else if ((List.range g).drop (i + 1)).all (fun j =>
        decide (ds.getD j 0 < ds.getD (j - 1) 0) && (r.levels.map Level.ext).getD j 0 == 4 ^ (ds.getD (j - 1) 0 - ds.getD j 0)) then some i
    else none

/-- A warp belongs to the exchange group of given coordinates (R278). -/
def Warp.inGroup (w : Warp) (r : LaunchRec) (launch i : Nat) (coords : List Nat) : Bool :=
  let g := (r.levels.findIdx? (fun l => l.dom == 3)).getD 0
  w.launch == launch && !w.spawned && r.unitNo i w.coords == r.unitNo i coords && w.coords.getD g 0 == coords.getD g 0 &&
    w.coords.getD (g + 1) 0 == coords.getD (g + 1) 0

/-- The slot of an exchange's member on a column (R278); none where the member has ended. -/
def Dev.member (d : Dev) (x : XchOp) (c : Nat) : Option Nat :=
  ((d.col c).warps.find? (fun w => w.2.inGroup (d.launchRec x.launch) x.launch x.level x.coords)).map Prod.fst

/-- An instruction that reads uniform registers and passes their poison on: not ready while one is reserved, then the bounds,
uniformity, tags and its own checks (R408). -/
def VCtx.readUni (x : VCtx) (bounds : List (Option TrapInfo)) (us : List Use) (own : List (Option TrapInfo)) (go : Unit → Issue) : Issue :=
  if x.notReady us then .hold (x.d.holdRegs (x.waits us))
  else match firstTrap (bounds ++ x.bounds us ++ us.map (fun u => u.src.uniCheck) ++ us.map Use.tagCheck ++ own) with
    | some t => .trap t
    | none => go ()

/-- An instruction that reads uniform registers and consumes their poison, last of its checks (R408, R418). -/
def VCtx.withUni (x : VCtx) (bounds : List (Option TrapInfo)) (us : List Use) (own : List (Option TrapInfo)) (go : Unit → Issue) : Issue :=
  x.readUni bounds us (own ++ us.map (fun u => u.src.poisCheck Mask.all)) go

/-- An XCH sends its source and awaits its own data (R279, R280). -/
def Dev.xchStart (d : Dev) (f : XFields) (a : Src) (level : Nat) : Dev :=
  let c := d.cur.col
  let w := d.curWarp
  let lsp := w.pred f.lsp.toNat
  let vd := dstReg f.d
  let o : MemOp := { d.newOp .xch (a.tag) 2 [] with resv := [(vd, lsp)], reach := 0 }
  let x : XchOp :=
    { slot := d.cur.slot, op := d.curCol.nextOp, idx := w.xchCount, vd := vd, lsp := lsp, dom := f.dom, pk := f.pk, pp := f.pp,
      reg := Result.whole { vals := tab (fun l => padded a.tag (lane a.vals l)), pois := a.pois, fmt := a.tag, shape := a.shape }, wants := true,
      sends := (targetsOf f.dom.toNat f.pk.toNat f.pp.toNat (c % domCols f.dom.toNat)).map (memberCol c f.dom.toNat),
      launch := w.launch, level := level, coords := w.coords }
  ((d.enter c o).modCol c (fun k => { k with xchs := k.xchs ++ [x] })).modWarp c d.cur.slot
    (fun w => { w with xchCount := w.xchCount + 1 })

/-- XCH (R278-R280). -/
def xchIssue (f : XFields) (s : State) : Issue :=
  let d := s.dev
  match d.curRec.covers f.dom.toNat with
  | none => .trap { cause := 0x04 }
  | some i =>
    if d.curWarp.spawned then .trap { cause := 0x04 }
    else d.whole f.h (fun _ =>
      let x := vctx d f.h []
      let a := x.src 1 f.a
      if x.notReady [Use.any a] then .hold (d.holdRegs (x.waits [Use.any a]))
      else match firstTrap [rangeBound x.regs (dstReg f.d) 1, a.boundCheck x.regs] with
        | some t => .trap t
        | none => d.afterAcquire (fun _ =>
          if d.curCol.xchs.any (fun o => o.slot == d.cur.slot) || !d.curWarp.loadRoom then .hold d
          else .retire (d.xchStart f a i).advance))

/-- The meaning of XCH. -/
def execXch (f : XFields) (s : State) : Host.Outcome State Fault Refusal := s.conclude (xchIssue f s)

/-- DETAIL of an exchange-mismatch record: DOM, PK and PP in the order of the instruction (R281, R461). -/
def xchParams (dom : BitVec 4) (pk : BitVec 3) (pp : BitVec 10) : Nat := (dom ++ pk ++ pp).toNat

/-- The data of a send written into the receiver's destination (R279): with every lane selected and none overwritten since, the register
takes the sender's shape; else the selected lanes are written. -/
def Column.xchWrite (k : Column) (x : XchOp) (reg : VReg) : Column :=
  match k.op? x.op with
  | none => k
  | some o =>
    let o2 : MemOp := { o with
      fmt := reg.fmt, done := (Mask.list x.lsp).map (fun l => { reg := x.vd, lane := l, val := reg.data.lane l, pois := reg.data.pois l }) }
    let k := k.commit o2
    let k := if x.lsp = Mask.all ∧ o.killed = [] then
        k.putWarp x.slot { k.warp x.slot with regs := (k.warp x.slot).regs.set x.vd reg }
      else k
    (k.delOp x.op).putWarp x.slot ((k.delOp x.op).warp x.slot).unload

/-- An exchange operation changed in its column's list; one that neither wants data nor has a send left is gone. -/
def Column.putXch (k : Column) (x : XchOp) : Column :=
  { k with xchs := (k.xchs.map (fun y : XchOp => if y.op = x.op then x else y)).filter (fun y => y.wants || !y.sends.isEmpty) }

/-- The receiver takes the send in its buffer (R279-R281). -/
def Dev.xchTake (d : Dev) (c : Nat) (x : XchOp) (y : XSend) : Dev :=
  let d := d.modCol c (fun k => (({ k with xbuf := k.xbuf.del x.slot }).xchWrite x y.reg).putXch { x with wants := false })
  if y.dom = x.dom ∧ y.pk = x.pk ∧ y.pp = x.pp then d
  else d.recordCol c { kind := 0x06, unit := 0, ctx := some (d.warp c x.slot).ctx, slot := x.slot,
                       detail := BitVec.ofNat 128 (xchParams x.dom x.pk x.pp + xchParams y.dom y.pk y.pp * 2 ^ 32) }

/-- A send of operation x on column c has been accepted by column t (R280). -/
def Dev.xchAccept (d : Dev) (c t : Nat) (x : XchOp) : Dev := d.modCol c (fun k => k.putXch { x with sends := x.sends.erase t })

/-- The sends of the device that are on their way to a column. -/
def Dev.xchPending (d : Dev) (t : Nat) : List (Nat × XchOp) :=
  (d.cols.map (fun p => (p.2.xchs.filter (fun x => x.sends.contains t)).map (fun x => (p.1, x)))).flatten

/-- The exchange whose data a warp takes next (R279): the one it has issued and awaits, else the next that it issues. -/
def Column.xchNext (k : Column) (slot : Nat) : Nat :=
  match k.xchs.find? (fun x => x.slot == slot && x.wants) with
  | some x => x.idx
  | none => (k.warp slot).xchCount

/-- No send is addressed to column t in the exchange that operation x awaits (R281): every other live member has issued it, and none of their sends
to the column is from it or from an earlier one. -/
def Dev.xchUnfed (d : Dev) (t : Nat) (x : XchOp) : Bool :=
  (List.range (domCols x.dom.toNat)).all (fun m =>
    let c := memberCol t x.dom.toNat m
    match d.member x c with
    | some w => decide (x.idx < (d.warp c w).xchCount)
    | none => true) &&
    (d.xchPending t).all (fun p => d.member p.2 t != some x.slot || decide (x.idx < p.2.idx))

/-- The send that the buffer of a column's warp slot takes next, by its sender and operation (R279-R281): one of an exchange that the warp has not
gone past; where the warp awaits an exchange in which no send is addressed to it, the earliest of those of later exchanges. -/
def Dev.xchNextSend (d : Dev) (t slot : Nat) : Option (Nat × XchOp) :=
  let k := d.col t
  let ps := (d.xchPending t).filter (fun p => d.member p.2 t == some slot)
  match ps.find? (fun p => decide (p.2.idx ≤ k.xchNext slot)) with
  | some p => some p
  | none => match k.xchs.find? (fun x => x.slot == slot && x.wants) with
    | some x => if d.xchUnfed t x then ps.find? (fun p => ps.all (fun q => decide (p.2.idx ≤ q.2.idx))) else none
    | none => none

/-- The meaning of XCH_SEND_ARRIVAL at a column's warp slot (R279-R281): a send in the slot's buffer is taken; else one that waits for
the buffer enters it, unless it belongs to a later exchange than the warp takes next; else one whose member has ended is dropped.
DEDUCED (log 115): j counts every XCH that a warp issues, of whatever domain. -/
def execXchSendArrival (col slot : Nat) (s : State) : Host.Outcome State Fault Refusal :=
  let d := s.dev
  let k := d.col col
  match k.xbuf.get? slot, k.xchs.find? (fun x => x.slot == slot && x.wants) with
  | some y, some x => .next { s with dev := d.xchTake col x y }
  | some _, none => .next s
  | none, _ =>
    match d.xchNextSend col slot with
    | some (c, x) =>
      let d := d.modCol col (fun k => { k with xbuf := k.xbuf.set slot { dom := x.dom, pk := x.pk, pp := x.pp, reg := x.reg } })
      .next { s with dev := d.xchAccept c col x }
    | none =>
      match (d.xchPending col).find? (fun p => d.member p.2 col == none) with
      | some (c, x) =>
        let d := d.recordCol col { kind := 0x06, unit := 0, detail := BitVec.ofNat 128 (xchParams x.dom x.pk x.pp * 2 ^ 32 + 2 ^ 63) }
        .next { s with dev := d.xchAccept c col x }
      | none => .next s

/-! ## XGET and XPUT -/

/-- An exchange access's selector: self (R29, R283). -/
def selfCheck (act : Mask) (lo hi : Src) : Option TrapInfo :=
  checkLanes (failing act (fun l => ptrSel (lanePtr lo hi l) == 0x7FF && ptrRsv (lanePtr lo hi l) == 0))
    (fun l => { cause := 0x13, einfo := einfoA (lanePtr lo hi l) l })

/-- The partner column lies in the partition and is present (R283). -/
def partnerCheck (d : Dev) (act : Mask) (lo hi : Src) (c : Nat) : Option TrapInfo :=
  checkLanes (if d.inPart d.curWarp.ctx c then 0 else act) (fun l => { cause := 0x13, einfo := einfoA (lanePtr lo hi l) l })

/-- XGET and XPUT up to their access (R276, R283): the partner column, the checks of R219, and the lanes of the access. -/
def xmemIssue (f : XFields) (s : State) (put : Bool) (go : VCtx → Src → Src → List Src → Nat → Issue) : Issue :=
  let x := vctx s.dev f.h []
  let d := s.dev
  let lo := rangeSrc x.w 1 f.a 0
  let hi := rangeSrc x.w 1 f.a 1
  let size := f.sub.toNat
  let k := accessRegs size
  let n := accessBytes size
  let dat := if put then (List.range k).map (fun j => Src.direct x.w 0 (dstReg f.d + j) 0 0) else []
  let us := dat.map (storeUse false size f.h.ty) ++ [Use.ptr lo, Use.ptr hi]
  if x.act = 0 then x.idle [rangeBound x.regs (dstReg f.d) k, rangeBound x.regs f.a.reg.toNat 2] us
  else
    let dom := f.dom.toNat
    let m := d.cur.col % domCols dom
    let c := memberCol d.cur.col dom
      (if put then (targetsOf dom f.pk.toNat f.pp.toNat m).headD 0 else sourceOf dom f.pk.toNat f.pp.toNat m)
    if x.notReady us then .hold (d.holdRegs (x.waits us))
    else match firstTrap ([rangeBound x.regs (dstReg f.d) k, rangeBound x.regs f.a.reg.toNat 2] ++ us.map Use.tagCheck ++
        [selfCheck x.act lo hi, partnerCheck d x.act lo hi c, alignCheck x.act lo hi 0 n none, poisJoin [lo, hi] x.act]) with
      | some t => .trap t
      | none => d.afterAcquire (fun _ => go x lo hi dat c)

/-- XGET (R283, R284). It goes under the L2-only policy, having no CPOL (DESIGN CHOICE, log 131). -/
def xgetIssue (f : XFields) (s : State) : Issue :=
  xmemIssue f s false (fun x lo hi _ c =>
    let d := s.dev
    let k := accessRegs f.sub.toNat
    if !d.curWarp.loadRoom then .hold d
    else
      let single := uniPair lo hi && x.act == Mask.all
      let ls := (if single then [Mask.first x.act] else Mask.list x.act).map (fun l =>
        let o := laneOff lo hi 0 l
        { laneWant l c o (accessBytes f.sub.toNat) (reqOf (lineShaped lo hi) o) with dst := x.datRegs f.d k l })
      let o : MemOp := { d.newOp .xget f.h.ty f.sub.toNat ls with resv := x.reserve f.d k, uni := single, cpol := 1 }
      let (d, ok) := s.startLoad o .load false d.cur.priv
      if ok then .retire d.advance else .hold d)

/-- The meaning of XGET. -/
def execXget (f : XFields) (s : State) : Host.Outcome State Fault Refusal := s.conclude (xgetIssue f s)

/-- XPUT (R283, R284). It goes under its page's CP, having no CPOL (DESIGN CHOICE, log 131). -/
def xputIssue (f : XFields) (s : State) : Issue :=
  xmemIssue f s true (fun x lo hi dat c =>
    let d := s.dev
    let act := Mask.list x.act
    if !d.curCol.storeRoom d.cur.slot act.length then .hold d
    else
      let ls := act.map (fun l =>
        let o := laneOff lo hi 0 l
        { laneWant l c o (accessBytes f.sub.toNat) (reqOf (lineShaped lo hi) o) with
          data := dat.map (fun q => lane q.vals l), pois := dat.map (fun q => Mask.has q.pois l) })
      .retire (s.startStore d.cur.col (d.newOp .xput f.h.ty f.sub.toNat ls) .store d.cur.priv).advance)

/-- The meaning of XPUT. -/
def execXput (f : XFields) (s : State) : Host.Outcome State Fault Refusal := s.conclude (xputIssue f s)

/-! ## Receive rings -/

/-- A ring of a column; one with no entry is unbound. -/
def Column.ring (k : Column) (n : Nat) : Ring := k.rings.getD n { base := 0, size := 0, head := 0, tail := 0, gang := 0 }

/-- EINFO of the ring trap (R407). -/
def einfoRing (n why : Nat) : BitVec 64 := BitVec.ofNat 64 (n % 16 + why * 16)

/-- The ring-number check of every ring instruction (R287). -/
def ringNumber (n : Nat) : Option TrapInfo := check (decide (n < 16)) { cause := 0x18, einfo := einfoRing n 5 }

/-- The ring is bound to the issuing gang (R293, R294). -/
def Column.ringMine (k : Column) (gang n : Nat) : Option TrapInfo :=
  let r := k.ring n
  if r.size = 0 then some { cause := 0x18, einfo := einfoRing n 1 }
  else check (r.gang == gang) { cause := 0x18, einfo := einfoRing n 2 }

/-- Bytes delivered and not consumed (R286). -/
def Ring.bytes (r : Ring) : Nat := (r.tail - r.head).toNat

/-- A ring that changed: the columns whose messages it has turned away are told (R291). -/
def Column.ringChanged (k : Column) (n : Nat) : Column :=
  { k with reports := k.reports ++ k.turned.filter (fun t => t.2 == n), turned := k.turned.filter (fun t => t.2 != n) }

/-- The ring that an RBIND of size code z leaves (R287). -/
def Column.rbind (k : Column) (gang n base z : Nat) : Column :=
  let r : Ring := if z = 0 then { k.ring n with size := 0, gang := gang }
    else { base := k.spadBase gang + base, size := 2 ^ z, head := 0, tail := 0, gang := gang }
  ({ k with rings := k.rings.set n r }).ringChanged n

/-- RBIND (R287). -/
def rbindIssue (f : XFields) (s : State) : Issue :=
  s.dev.whole f.h (fun _ =>
    let d := s.dev
    let x := vctx d f.h []
    let u := Use.ptr (x.src 1 f.a)
    let b := u.src.uni.toNat
    let z := f.pp.toNat % 16
    let n := f.num.toNat
    let k := d.curCol
    let g := d.curWarp.gang
    x.withUni [] [u]
      [check (z == 0 || decide (b + 2 ^ z ≤ k.spadBytes)) { cause := 0x10, einfo := einfoB (b + 2 ^ z) k.regions.spad },
       check (z == 0 || b % 32 == 0) { cause := 0x14, einfo := einfoB b 32 }, ringNumber n,
       check ((k.ring n).size == 0 || (k.ring n).gang == g) { cause := 0x18, einfo := einfoRing n 2 }]
      (fun _ => d.afterAcquire (fun _ =>
        .retire (d.modCurCol (fun k => if z = 0 ∧ (k.ring n).size = 0 then k else k.rbind g n b z)).advance)))

/-- The meaning of RBIND. -/
def execRbind (f : XFields) (s : State) : Host.Outcome State Fault Refusal := s.conclude (rbindIssue f s)

/-- A uniform UI32 result written by a warp that may have been parked. -/
def Column.putUni (k : Column) (s r : Nat) (v : Word) (pois : Bool) : Column := k.writeReg s r Mask.all (Result.uni v pois Fmt.ui32) false

/-- A warp goes on past the instruction that it was parked at, after an acquire where it asked for one (R253). -/
def Column.unpark (k : Column) (s : Nat) (acq : Bool) : Column :=
  let k := if acq then k.acquire (k.warp s).ctx else k
  k.putWarp s { k.warp s with park := .none, wait := .none, pc := (k.warp s).pc + 1 }

/-- RWAIT returns: TAIL and HEAD are written, and the acquire is made (R293). -/
def Column.rwaitDone (k : Column) (s n vd : Nat) (acq : Bool) : Column :=
  let r := k.ring n
  ((k.putUni s vd r.tail false).putUni s (vd + 1) r.head false).unpark s acq

/-- RWAIT (R293). -/
def rwaitIssue (f : XFields) (s : State) : Issue :=
  s.dev.whole f.h (fun _ =>
    let d := s.dev
    let x := vctx d f.h []
    let u := Use.ptr (x.src 1 f.a)
    let t := u.src.uni.toNat
    let n := f.num.toNat
    let vd := dstReg f.d
    x.withUni [rangeBound x.regs vd 2] [u]
      [ringNumber n, d.curCol.ringMine d.curWarp.gang n,
       check (decide (t ≤ (d.curCol.ring n).size)) { cause := 0x18, einfo := einfoRing n 3 }]
      (fun _ => d.afterAcquire (fun _ =>
        if f.sub.getLsbD 0 || decide (t ≤ (d.curCol.ring n).bytes) then
          .retire (d.modCurCol (fun k => k.rwaitDone d.cur.slot n vd (f.sub.getLsbD 1)))
        else
          let dl := if f.pp = 0 then none else some (d.now + 256 * f.pp.toNat)
          .retire (d.park (.rwait n t dl vd (f.sub.getLsbD 1))))))

/-- The meaning of RWAIT. -/
def execRwait (f : XFields) (s : State) : Host.Outcome State Fault Refusal := s.conclude (rwaitIssue f s)

/-- The meaning of RWAIT_WAKE (R293). -/
def execRwaitWake (col slot : Nat) (s : State) : Host.Outcome State Fault Refusal :=
  match (s.dev.warp col slot).park with
  | .rwait n t _ vd acq =>
    if t ≤ ((s.dev.col col).ring n).bytes then .next { s with dev := s.dev.modCol col (fun k => k.rwaitDone slot n vd acq) } else .next s
  | _ => .next s

/-- The meaning of RWAIT_TIMEOUT (R293). -/
def execRwaitTimeout (col slot : Nat) (s : State) : Host.Outcome State Fault Refusal :=
  match (s.dev.warp col slot).park with
  | .rwait n _ (some dl) vd acq =>
    if dl ≤ s.dev.now then .next { s with dev := s.dev.modCol col (fun k => k.rwaitDone slot n vd acq) } else .next s
  | _ => .next s

/-- RADV (R294). -/
def radvIssue (f : XFields) (s : State) : Issue :=
  s.dev.whole f.h (fun _ =>
    let d := s.dev
    let x := vctx d f.h []
    let u := Use.ptr (x.src 1 f.a)
    let c := u.src.uni.toNat
    let n := f.num.toNat
    let r := d.curCol.ring n
    x.withUni [] [u]
      [ringNumber n, d.curCol.ringMine d.curWarp.gang n,
       check (c % 32 == 0 && decide (c ≤ r.bytes)) { cause := 0x18, einfo := einfoRing n 4 }]
      (fun _ => d.afterAcquire (fun _ => .retire (d.modCurCol (fun k =>
        ({ k with rings := k.rings.set n { r with head := r.head + BitVec.ofNat 32 c } }).ringChanged n)).advance)))

/-- The meaning of RADV. -/
def execRadv (f : XFields) (s : State) : Host.Outcome State Fault Refusal := s.conclude (radvIssue f s)

/-! ## Messages -/

/-- The payload words of a MSG with their poison (R289). -/
def msgWords (w : Warp) (r words : Nat) : List (Word × Bool) :=
  (List.range words).map (fun j => (w.laneOf (r + j / 32) (j % 32), (w.reg (r + j / 32)).data.pois (j % 32)))

/-- A column whose MSG enters the outbound buffer: its operation has the reach XCH and completes with its delivery (R289, R292). -/
def Dev.sendMsg (d : Dev) (dcol ring : Nat) (words : List (Word × Bool)) : Dev :=
  let c := d.cur.col
  let id := d.curCol.nextOp
  (d.enter c { d.newOp .msg 0 2 [] with reach := 0x02 }).modCol c (fun k => { k with outbuf := k.outbuf ++
    [{ op := id, slot := d.cur.slot, dcol := dcol, ring := ring, words := words, itick := d.now, away := false }] })

/-- MSG (R289). -/
def msgIssue (f : XFields) (s : State) : Issue :=
  s.dev.whole f.h (fun _ =>
    let d := s.dev
    let x := vctx d f.h []
    let lo := rangeSrc x.w 1 f.a 0
    let hi := rangeSrc x.w 1 f.a 1
    let words := 8 * (f.sub.toNat % 16 + 1)
    let k := (words + 31) / 32
    let p := ptrOf lo.uni hi.uni
    let pay := (List.range k).map (fun j => Use.any (Src.direct x.w 0 (dstReg f.d + j) 0 0))
    if x.notReady pay then .hold (d.holdRegs (x.waits pay))
    else x.withUni [rangeBound x.regs (dstReg f.d) k, rangeBound x.regs f.a.reg.toNat 2] [Use.ptr lo, Use.ptr hi]
      [checkLanes (if ptrRsv p = 0 && d.inPart d.curWarp.ctx (ptrSel p) then 0 else x.act)
        (fun l => { cause := 0x13, einfo := einfoA p l }), ringNumber f.num.toNat]
      (fun _ => d.afterAcquire (fun _ =>
        let go (d : Dev) : Issue :=
          if 4 ≤ d.curCol.outbuf.length then .hold (d.leave .interface)
          else if !decide (d.curWarp.stores < 63) then .hold d
          else .retire (d.sendMsg (ptrSel p) f.num.toNat (msgWords x.w (dstReg f.d) words)).advance
        if f.sub.getLsbD 4 then d.release (d.curWarp.obsMask (f.pp.extractLsb' 0 7)) go else go d)))

/-- The meaning of MSG. -/
def execMsg (f : XFields) (s : State) : Host.Outcome State Fault Refusal := s.conclude (msgIssue f s)

/-- The header words of a record (R288). -/
def recordHeader (len src slot tick : Nat) : List (Word × Bool) :=
  ([len % 65536 + src % 65536 * 65536, slot % 256, tick, tick / 2 ^ 32, 0, 0, 0, 0].map (BitVec.ofNat 32)).map (fun v => (v, false))

/-- Words written into a ring from a byte count on, wrapping at its end (R286, R288). -/
def Column.ringWords (k : Column) (ctx : Nat) (r : Ring) : Nat → List (Word × Bool) → Column
  | _, [] => k
  | c, (v, p) :: ws => let a := r.base + c % r.size
    Column.ringWords ((k.putPool ctx (a / 4) v p).touched a (a + 4)) ctx r (c + 4) ws

/-- A record delivered (R288, R291): header and payload, and then TAIL. -/
def Column.deliver (k : Column) (n src slot tick : Nat) (words : List (Word × Bool)) : Column :=
  let r := k.ring n
  let ctx := ((k.warps.find? (fun w => w.2.gang == r.gang)).map (fun w => w.2.ctx)).getD 0
  let len := 4 * words.length
  let k := k.ringWords ctx r r.tail.toNat (recordHeader len src slot tick ++ words)
  { k with rings := k.rings.set n { r with tail := r.tail + BitVec.ofNat 32 (32 + len) } }

/-- A ring has room for a record (R286). -/
def Ring.takes (r : Ring) (len : Nat) : Bool := r.size != 0 && decide (r.bytes + 32 + len ≤ r.size)

/-- The meaning of MSG_DELIVERY of an entry of a column's outbound buffer (R291): delivered, or turned away by its ring; an earlier
message of the column to the same ring goes first. -/
def execMsgDelivery (col entry : Nat) (s : State) : Host.Outcome State Fault Refusal :=
  let d := s.dev
  match (d.col col).outbuf[entry]? with
  | none => .next s
  | some m =>
    if m.away || ((d.col col).outbuf.take entry).any (fun e => e.dcol == m.dcol && e.ring == m.ring) then .next s
    else if ((d.col m.dcol).ring m.ring).takes (4 * m.words.length) then
      let d := d.modCol m.dcol (fun k => k.deliver m.ring col m.slot d.now m.words)
      .next { s with dev := d.modCol col (fun k =>
        let k : Column := { k with outbuf := k.outbuf.eraseIdx entry }
        match k.op? m.op with
        | some o => k.setOp { o with mark := true, time := d.now }
        | none => k) }
    else
      let d := d.modCol m.dcol (fun k => { k with turned := if k.turned.contains (col, m.ring) then k.turned else k.turned ++ [(col, m.ring)] })
      .next { s with dev := d.modCol col (fun k => { k with outbuf := k.outbuf.set entry { m with away := true } }) }

/-- The meaning of MSG_COMPLETION_RETURN (R292): a delivered message's completion time reaches its sender. -/
def execMsgCompletionReturn (col op : Nat) (s : State) : Host.Outcome State Fault Refusal :=
  match (s.dev.col col).op? op with
  | some o => if o.kind = .msg ∧ o.mark then .next { s with dev := s.dev.modCol col (fun k => k.storeDone o) } else .next s
  | none => .next s

/-- The meaning of RING_CHANGE_REPORT from column `dst` to column `col` (R291): the messages that the ring turned away are sent again. -/
def execRingChangeReport (col dst ring : Nat) (s : State) : Host.Outcome State Fault Refusal :=
  let d := s.dev
  if (d.col dst).reports.contains (col, ring) then
    let d := d.modCol dst (fun k => { k with reports := k.reports.erase (col, ring) })
    .next { s with dev := d.modCol col (fun k => { k with outbuf := k.outbuf.map (fun m : OutMsg =>
      if m.dcol = dst ∧ m.ring = ring then { m with away := false } else m) }) }
  else .next s

/-! ## Watches -/

/-- WATCH returns (R297): the value, the status, and the acquire. -/
def Column.watchDone (k : Column) (s vd : Nat) (v : Word) (pois : Bool) (status : Nat) (acq : Bool) : Column :=
  let k : Column := { k with watches := k.watches.filter (fun w => w.who != .warp s) }
  ((k.putUni s vd v pois).putUni s (vd + 1) (BitVec.ofNat 32 status) false).unpark s acq

/-- The entries of a slice's watch table in use (R296): one whose status is decided is freed as its watch returns (R297). -/
def Column.watchCount (k : Column) (va : Nat) : Nat := (k.watches.filter (fun w => sliceOf w.va == sliceOf va)).length

/-- A WATCH of a translated location registers at its slice (R297): it returns at once with a satisfying value or from a full table, else it
parks. -/
def State.register (s : State) (f : MFields) (a : LaneAcc) (v : Word) (timeout : Nat) : Dev :=
  let c := s.dev.cur.col
  let va := a.va
  let (now, pois, d) := s.sliceWord a
  let vd := dstReg f.dat
  let acq := f.ord == 1
  if cmpOk f.size now v then d.modCol c (fun k => k.watchDone d.cur.slot vd now pois 0 acq)
  else if 64 ≤ (d.col c).watchCount va then d.modCol c (fun k => k.watchDone d.cur.slot vd now pois 1 acq)
  else
    let e : Watch := { va := va, cmp := f.size, value := v, who := .warp d.cur.slot, wcol := c, ctx := d.curWarp.ctx, fired := none }
    (d.modCol c (fun k => { k with watches := k.watches ++ [e] })).park
      (.watch vd (if timeout = 0 then none else some (d.now + timeout)) acq)

/-- WATCH (R296, R297). It waits for the warp's own earlier accesses to the location (R222). -/
def watchIssue (f : MFields) (s : State) : Issue :=
  s.dev.whole f.h (fun _ =>
    let d := s.dev
    let x := vctx d f.h []
    let c := d.cur.col
    let v := Src.direct x.w 0 (dstReg f.dat) 0 0
    let t := Src.direct x.w 0 (dstReg f.dat + 1) 0 0
    let lo := rangeSrc x.w 1 f.adr 0
    let hi := rangeSrc x.w 1 f.adr 1
    x.withUni [rangeBound x.regs (dstReg f.dat) 2, rangeBound x.regs f.adr.reg.toNat 2] [Use.ptr v, Use.ptr t, Use.ptr lo, Use.ptr hi]
      [selCheck c x.act lo hi, alignCheck x.act lo hi f.offset 4 none]
      (fun _ => d.afterAcquire (fun _ =>
        let a := laneWant 0 c (laneOff lo hi f.offset 0) 4 0
        if d.curCol.overtakes { d.newOp .load 0 2 [] with id := d.curCol.nextOp } [a] then .hold d
        else match s.resolve c d.curWarp.ctx 1 false d.cur.priv a with
          | (.error e, d) => .hold (d.holdFault .load [e])
          | (.ok b, d) => .retire ({ s with dev := d }.register f b v.uni t.uni.toNat))))

/-- The meaning of WATCH. -/
def execWatch (f : MFields) (s : State) : Host.Outcome State Fault Refusal := s.conclude (watchIssue f s)

/-- The watch entry of a warp slot. -/
def Column.watchOf (k : Column) (s : Nat) : Option Watch := k.watches.find? (fun w => w.who == .warp s)

/-- The meaning of WATCH_WAKE (R297, R299): the status that the slice decided reaches the warp. -/
def execWatchWake (col slot : Nat) (s : State) : Host.Outcome State Fault Refusal :=
  let d := s.dev
  match (d.warp col slot).park, (d.col col).watchOf slot with
  | .watch vd _ acq, some w => match w.fired with
    | some (v, st) => .next { s with dev := d.modCol col (fun k => k.watchDone slot vd v w.pois st acq) }
    | none => .next s
  | _, _ => .next s

/-- The meaning of WATCH_TIMEOUT (R297). -/
def execWatchTimeout (col slot : Nat) (s : State) : Host.Outcome State Fault Refusal :=
  let d := s.dev
  match (d.warp col slot).park, (d.col col).watchOf slot with
  | .watch vd (some dl) acq, some w =>
    if dl ≤ d.now ∧ w.fired.isNone then
      .next { s with dev := { d with free := d.free + 1 }.modCol col (fun k =>
        k.watchDone slot vd (BitVec.ofNat 32 (numOf (s.seen col d.free w.va 4))) (d.poisoned (vkey col w.va)) 2 acq) }
    else .next s
  | _, _ => .next s

end Sys2Proof.Machine
end

