-- ==== Sys2Proof/Machine/Address.lean ====
section
/-! DEFINITION. The address instructions (R172-R174): pointers in register pairs, selectors, and the coordinates of R57. -/

namespace Sys2Proof.Machine

/-- An address instruction with pointer va, va + 1 and index b (R172, R173). -/
def ptrIssue (f : VFields) (s : State) (g : BitVec 64 → Word → BitVec 64) : Issue :=
  let x := vIn f s 2
  let va := f.a.reg.toNat
  let lo := x.reg 1 va f.a
  let hi := x.reg 1 (va + 1) f.a
  let b := x.srcB f Fmt.ui32
  let p (l : Nat) := g (ptrOf (lane lo.vals l) (lane hi.vals l)) (lane b.vals l)
  x.finishRange f ([boundCheck x.regs (dstReg f.d + 1), boundCheck x.regs (va + 1), b.boundCheck x.regs])
    [Use.ptr lo, Use.ptr hi, Use.ptr b] []
    [laneResult .plain [lo, hi, b] Fmt.ui32 (fun l => (p l).setWidth 32),
     laneResult .plain [lo, hi, b] Fmt.ui32 (fun l => (p l).extractLsb' 32 32)] noPost

/-- LEA's pointer (R172): OFF plus b times 2^k modulo 2^44, the other bits unchanged. -/
def leaPtr (k : Nat) (signed : Bool) (p : BitVec 64) (b : Word) : BitVec 64 :=
  let i : Int := if signed then b.toInt else b.toNat
  p.extractLsb' 44 20 ++ BitVec.ofInt 44 ((ptrOff p : Int) + i * 2 ^ k)

/-- The meaning of LEA. -/
def execLea (f : VFields) (s : State) : Host.Outcome State Fault Refusal :=
  s.conclude (ptrIssue f s (leaPtr (f.subBits 2 0) (f.subBit 3)))

/-- CADR's pointer (R173). -/
def cadrPtr (p : BitVec 64) (b : Word) : BitVec 64 := b.extractLsb' 0 11 ++ 0#9 ++ p.extractLsb' 0 44

/-- The meaning of CADR. -/
def execCadr (f : VFields) (s : State) : Host.Outcome State Fault Refusal := s.conclude (ptrIssue f s cadrPtr)

/-- CGET (R173). -/
def cgetIssue (f : VFields) (s : State) : Issue :=
  let x := vIn f s 1
  let va := f.a.reg.toNat
  let lo := x.reg 1 va f.a
  let hi := x.reg 1 (va + 1) f.a
  let src := [boundCheck x.regs (va + 1)]
  let us := [Use.ptr lo, Use.ptr hi]
  if f.subBits 1 0 = 0 then
    let r := laneResult .plain [lo, hi] Fmt.ui32 (fun l => (lane hi.vals l) >>> 21)
    if x.notReady us then .hold (x.d.holdRegs (x.waits us))
    else match x.checks f.h.u (dstBound x.regs f.d :: src) (x.dstWin f.d) us none [] with
      | some t => .trap t
      | none =>
        if x.fifthWindow f.d then .hold x.d else .retire ((x.step (x.writeDst x.d f.d r)).hint f.hint).advance
  else
    x.finishRange f (boundCheck x.regs (dstReg f.d + 1) :: src) us []
      [laneResult .plain [lo, hi] Fmt.ui32 (fun l => lane lo.vals l),
       laneResult .plain [lo, hi] Fmt.ui32 (fun l => (lane hi.vals l) ||| 0xFFE00000#32)] noPost

/-- The meaning of CGET. -/
def execCget (f : VFields) (s : State) : Host.Outcome State Fault Refusal := s.conclude (cgetIssue f s)

/-! ## Coordinates -/

/-- The EXT of the tile level, 1 where there is none (R57). -/
def LaunchRec.tileExt (r : LaunchRec) : Nat := match r.levels.find? (fun l => l.dom == 1) with
  | some l => l.ext
  | none => 1

/-- The width of a tile (R57). -/
def LaunchRec.tileWidth (r : LaunchRec) : Nat := 32 / max 1 r.tileExt

/-- The level that TIDX names: its domain and EXT; the omitted thread level stands at NLEV, and none beyond (R174). -/
def LaunchRec.level (r : LaunchRec) (i : Nat) : Option (Nat × Nat) :=
  match r.levels[i]? with
  | some l => some (l.dom.toNat, l.ext)
  | none => if i = r.levels.length ∧ r.levels.all (fun l => l.dom != 0) then some (0, r.tileWidth) else none

/-- TIDX's value in lane l and its shape: the coordinate or the EXT of a level (R57, R174). R57 names the shapes of the coordinates;
an EXT, one value for the warp, is uniform at every level (DEDUCED, log 125). -/
def tidxVal (r : LaunchRec) (coords : List Nat) (i : Nat) (ext : Bool) : (Nat → Nat) × Shape :=
  match r.level i with
  | none => (fun _ => if ext then 1 else 0, .uniform)
  | some (dom, e) =>
    if ext then (fun _ => e, .uniform)
    else if dom = 0 then (fun l => l % r.tileWidth, if r.tileWidth = 32 then .affine 0 1 else .general)
    else if dom = 1 then (fun l => l / r.tileWidth, .general)
    else if dom = 10 then (fun _ => r.fabidx, .uniform)
    else (fun _ => coords.getD i 0, .uniform)

/-- TIDX (R174). Under U a coordinate that differs between lanes is a free value (R68 gives one result; log 11). -/
def tidxIssue (f : VFields) (s : State) : Issue :=
  let x : VCtx := vctx s.dev f.h [dstOperand f.d]
  let v := tidxVal s.dev.curRec x.w.coords (f.subBits 2 0) (f.subBit 3)
  let own := f.h.u && v.2 != .uniform
  let r : Result :=
    if own then Result.uni (s.dev.draw).1 false Fmt.ui32
    else { vals := tab (fun l => BitVec.ofNat 32 (v.1 l)), pois := 0, fmt := Fmt.ui32, shape := v.2 }
  x.finish f [] none [] r (fun d => if own then (d.draw).2 else d)

/-- The meaning of TIDX. -/
def execTidx (f : VFields) (s : State) : Host.Outcome State Fault Refusal := s.conclude (tidxIssue f s)

end Sys2Proof.Machine
end

