-- ==== Sys2Proof/Machine/Matrix.lean ====
section
/-! DEFINITION. The matrix array (R300-R321): the issue of MLDB, MMA, MMAB, MMAS, MCLR and MLDA with their checks (R305, R306), the time
that an operation holds its unit (R318), and the values that it writes (R307-R315, R443). -/

namespace Sys2Proof.Machine

/-! ## Issue -/

/-- The guard rule of R306: guard 0b1000 retires the instruction; any other guard must select all 32 lanes, all enabled. -/
def Dev.wholeWarp (d : Dev) (h : Head) (go : Unit → Issue) : Issue :=
  if h.gn && h.gp == 0 then .retire d.advance
  else if d.curWarp.act h == Mask.all then go ()
  else .trap { cause := 0x0A }

/-- A tile operation of the issuing warp with nothing read yet. -/
def Dev.tileOp (d : Dev) (i : Instr) : TileOp :=
  { insn := i, slot := d.cur.slot, gang := d.curWarp.gang, ctx := d.curWarp.ctx, priv := d.cur.priv, aoff := 0, ahi := 0, boff := 0,
    asc := 0, bsc := 0, rowsv := 64, step := 0, itick := d.now, started := none, held := none, line := 0, wrote := none, tiles := [],
    reads := [], writes := [], bread := [], bwrite := [], rregs := [], wregs := [], clash := [], vague := [], bclash := [],
    spoiled := false, kept := [], keptRegs := [], killed := [], rescan := false, base := 0 }

/-- A register that a matrix instruction reads: uniform at issue, or a bitmap of any shape (R306). -/
structure TileUse where
  use    : Use
  bitmap : Bool := false

/-- A uniform register of a matrix instruction (R306). -/
def Dev.tileUse (d : Dev) (code r : Nat) : TileUse := { use := d.uniUse code r 0 0 }

/-- The registers of a bitmap (R306, R311). -/
def Dev.bitmapUses (d : Dev) (r k : Nat) : List TileUse :=
  if r = 0 then []
  else (List.range (2 * ((k + 31) / 32))).map (fun j =>
    { use := { src := Src.direct d.seen 4 (r + j) 0 0, want := some Fmt.ui32 }, bitmap := true })

/-- The issue of a tile operation: readiness, the checks in the order of R408, the bounds of its register fields first, then the queue
(R316, R85) and the counter (R317, R221). -/
def State.tileIssue (s : State) (h : Head) (q : Nat) (us : List TileUse) (bounds own : List (Option TrapInfo)) (o : TileOp) : Issue :=
  let d := s.dev
  d.wholeWarp h (fun _ =>
    let rs := (us.map (fun u => u.use.src.waits)).flatten
    let fixed := us.filter (fun u => !u.bitmap)
    if d.curCol.busy d.cur.slot rs then .hold (d.holdRegs rs)
    else match firstTrap (bounds ++ fixed.map (fun u => u.use.src.uniCheck) ++
        us.map (fun u => u.use.tagCheck) ++ own ++ fixed.map (fun u => u.use.src.poisCheck Mask.all)) with
    | some t => .trap t
    | none => d.afterAcquire (fun _ =>
      if 8 ≤ (d.curCol.queue q).length then .hold (d.leave (.queue q))
      else if 63 ≤ d.curWarp.tiles then .hold d
      else .retire (d.enqueue q o).advance))

/-- The bound of a register field that names n registers, or none where it is 0 (R60, R305). -/
def Column.fieldBound (k : Column) (r : BitVec 8) (n : Nat) (opt : Bool) : Option TrapInfo :=
  if opt && r == 0 then none else rangeBound k.regions.regs r.toNat n

/-- The tile bound (R60). -/
def tileBound (k : Column) (t : Nat) : Option TrapInfo :=
  check (decide (t < k.regions.acc)) { cause := 0x0F, einfo := einfoB t k.regions.acc }

/-- The scratchpad bound of a gang-local range (R60). -/
def spadRange (k : Column) (a n : Nat) : Option TrapInfo :=
  check (decide (a + n ≤ k.spadBytes)) { cause := 0x10, einfo := einfoB (a + n) k.regions.spad }

/-- The B-SRAM bound of a gang-local range (R306). -/
def bsRange (k : Column) (b n : Nat) : Option TrapInfo :=
  check (decide (b + n ≤ k.bsGang)) { cause := 0x11, einfo := einfoB (b + n) (k.bsGang / 256) }

/-- The alignment of a scratchpad or B-SRAM offset (R306, R407). -/
def offAlign (a n : Nat) : Option TrapInfo := check (a % n == 0) { cause := 0x14, einfo := einfoB a n }

/-- The row count, and other combinations that R306 refuses. -/
def comboCheck (ok : Bool) : Option TrapInfo := check ok { cause := 0x04 }

/-- The right to FIXED summation (R150): the launch's and the context's. -/
def Dev.sumRight (d : Dev) (sum : Bool) (go : Unit → Issue) : Issue :=
  if sum && !(d.curRec.fixsum && (d.ctx d.curWarp.ctx).fixRight) then .trap { cause := 0x09, einfo := d.cur.pc.setWidth 64 } else go ()

/-- The element format of AF or BF. -/
def fmtOf (c : BitVec 6) : BitVec 5 := c.setWidth 5

/-- The bits of an element in scratchpad and B-SRAM (R301). -/
def TFields.aw (f : TFields) : Nat := pitch (fmtOf f.af)
/-- The bits of a B element in the B-SRAM (R301). -/
def TFields.bw (f : TFields) : Nat := pitch (fmtOf f.bf)

/-- The B-lines of an operand of K rows (R301). -/
def TFields.bLines (f : TFields) : Nat := f.k * TFields.bw f / 32

/-- The uniform register of a field that may be 0 for none. -/
def Dev.optUse (d : Dev) (r : BitVec 8) : List TileUse := if r = 0 then [] else [d.tileUse 4 r.toNat]

/-- The value of a register field, or a default where it names none. -/
def Dev.optVal (d : Dev) (r : BitVec 8) (v : Word) : Word := if r = 0 then v else d.uniVal r.toNat

/-- G of a scale descriptor in the quantised mode (R309); 0 where the code is none. -/
def groupOf (desc : Nat) : Nat :=
  match bitsOf desc 21 20 with
  | 1 => 24
  | 2 => 48
  | 3 => 96
  | _ => 0

/-- The first pool byte of a gang's scratchpad, and the first B-SRAM byte (R300). -/
def Column.bsGangBase (k : Column) (gang : Nat) : Nat := gang * k.bsGang

/-- MMA, MMAB and MMAS (R305-R312). -/
def mmaIssue (i : Instr) (f : TFields) (s : State) : Issue :=
  let d := s.dev
  let k := d.curCol
  let g := d.curWarp.gang
  let quant := f.mode == 3
  let sparse := f.mode == 2
  let batch := f.mode == 1
  let a := (d.uniVal f.areg.toNat).toNat
  let b := (d.uniVal f.breg.toNat).toNat
  let rows := d.optVal f.rows 64
  let m := if batch then 256 else rows.toNat
  let asc := if sparse then 0 else d.optVal f.abm 0
  let bsc := if sparse then 0 else d.optVal f.bbm 0
  let gsz := groupOf bsc.toNat
  let bs := bsc.toNat % 2 ^ 20
  let aBytes := m * f.k * TFields.aw f / 8
  let bBytes := (if batch then 4 else 1) * TFields.bLines f * 256
  let ascBytes := m * (f.k / 24)
  let bscBytes := (if quant then (if gsz = 0 then 0 else f.k / gsz) else (f.k / 24 + 3) / 4) * 256
  let hasA := !sparse && f.abm != 0
  let hasB := !sparse && f.bbm != 0
  let us := [d.tileUse 1 f.areg.toNat, d.tileUse 2 f.breg.toNat] ++
    (if sparse then d.bitmapUses f.abm.toNat f.k ++ d.bitmapUses f.bbm.toNat f.k else d.optUse f.abm ++ d.optUse f.bbm) ++ d.optUse f.rows
  let own := [tileBound k f.td.toNat, spadRange k a aBytes, bsRange k b bBytes, if hasA then spadRange k asc.toNat ascBytes else none,
    if hasB then bsRange k bs bscBytes else none, offAlign a 32, offAlign b 256, if hasA then offAlign asc.toNat 32 else none,
    if hasB then offAlign bs 256 else none, comboCheck (decide (1 ≤ rows.toNat) && decide (rows.toNat ≤ 64)),
    if hasB then comboCheck (if quant then gsz != 0 && bitsOf bsc.toNat 31 22 == 0 && f.k % gsz == 0 else bitsOf bsc.toNat 31 20 == 0)
    else none]
  let sb := k.spadBase g
  let bb := k.bsGangBase g
  let o := d.tileOp i
  let o : TileOp :=
    { o with
      aoff := d.uniVal f.areg.toNat, boff := d.uniVal f.breg.toNat, asc := asc, bsc := bsc, rowsv := rows,
      tiles := [g * k.regions.acc + f.td.toNat],
      reads := (sb + a, sb + a + aBytes) :: (if hasA then [(sb + asc.toNat, sb + asc.toNat + ascBytes)] else []),
      bread := (bb + b, bb + b + bBytes) :: (if hasB then [(bb + bs, bb + bs + bscBytes)] else []),
      rregs := ((us.filter (fun u => u.bitmap)).map (fun u => u.use.src.waits)).flatten }
  let n := if sparse then 2 * ((f.k + 31) / 32) else 1
  let bounds := [k.fieldBound f.areg 1 false, k.fieldBound f.breg 1 false, k.fieldBound f.abm n true, k.fieldBound f.bbm n true,
    k.fieldBound f.rows 1 true]
  d.sumRight f.sum (fun _ => s.tileIssue f.h (if f.q then 1 else 0) us bounds own o)

/-- The meaning of MMA. -/
def execMma (f : TFields) (s : State) : Host.Outcome State Fault Refusal := s.conclude (mmaIssue (.mma f) f s)

/-- The meaning of MMAB. -/
def execMmab (f : TFields) (s : State) : Host.Outcome State Fault Refusal := s.conclude (mmaIssue (.mmab f) f s)

/-- The meaning of MMAS. -/
def execMmas (f : TFields) (s : State) : Host.Outcome State Fault Refusal := s.conclude (mmaIssue (.mmas f) f s)

/-- The source bits of an MLDB's element: FP6 elements are packed in memory (R313, R134). -/
def TFields.srcBits (f : TFields) : Nat := if f.mode.getLsbD 1 then memBits (fmtOf f.bf) else TFields.bw f

/-- The source bytes of an MLDB (R313). -/
def TFields.srcBytes (f : TFields) : Nat := 64 * f.k * TFields.srcBits f / 8

/-- MLDB (R313). -/
def mldbIssue (f : TFields) (s : State) : Issue :=
  let d := s.dev
  let k := d.curCol
  let g := d.curWarp.gang
  let mem := f.mode.getLsbD 1
  let a := d.uniVal f.areg.toNat
  let hi := if mem then d.uniVal (f.areg.toNat + 1) else 0
  let b := (d.uniVal f.breg.toNat).toNat
  let p := ptrOf a hi
  let n := TFields.srcBytes f
  let bBytes := TFields.bLines f * 256
  let us := [d.tileUse 1 f.areg.toNat] ++ (if mem then [d.tileUse 1 (f.areg.toNat + 1)] else []) ++ [d.tileUse 2 f.breg.toNat]
  let own := [if mem then none else spadRange k a.toNat n, bsRange k b bBytes,
    if mem then check (ownSel d.cur.col p) { cause := 0x13, einfo := einfoA p 0, emask := Mask.all } else none,
    if mem then check ((f.mode != 2 || ptrOff p % 32 == 0) && ptrOff p / 2 ^ 21 == (ptrOff p + n - 1) / 2 ^ 21)
        { cause := 0x14, einfo := einfoA p 0, emask := Mask.all }
    else if f.mode = 0 then offAlign a.toNat 32 else none,
    offAlign b 256]
  let bb := k.bsGangBase g
  let o := d.tileOp (.mldb f)
  let o : TileOp :=
    { o with
      aoff := a, ahi := hi, boff := d.uniVal f.breg.toNat,
      reads := if mem then [] else [(k.spadBase g + a.toNat, k.spadBase g + a.toNat + n)], bwrite := [(bb + b, bb + b + bBytes)] }
  s.tileIssue f.h (if f.q then 1 else 0) us [k.fieldBound f.areg (if mem then 2 else 1) false, k.fieldBound f.breg 1 false] own o

/-- The meaning of MLDB. -/
def execMldb (f : TFields) (s : State) : Host.Outcome State Fault Refusal := s.conclude (mldbIssue f s)

/-- MCLR (R315). -/
def mclrIssue (f : TFields) (s : State) : Issue :=
  let d := s.dev
  let k := d.curCol
  let last := f.k8.toNat % 32
  let o := d.tileOp (.mclr f)
  let o : TileOp :=
    { o with tiles := (List.range (last + 1 - f.td.toNat)).map (fun j => d.curWarp.gang * k.regions.acc + f.td.toNat + j) }
  s.tileIssue f.h (if f.q then 1 else 0) [] [] [tileBound k last] o

/-- The meaning of MCLR. -/
def execMclr (f : TFields) (s : State) : Host.Outcome State Fault Refusal := s.conclude (mclrIssue f s)

/-- MLDA (R314). -/
def mldaIssue (f : TFields) (s : State) : Issue :=
  let d := s.dev
  let k := d.curCol
  let g := d.curWarp.gang
  let a := d.uniVal f.areg.toNat
  let rows := d.optVal f.rows 64
  let us := d.tileUse 1 f.areg.toNat :: d.optUse f.rows
  let own := [tileBound k f.td.toNat, spadRange k a.toNat (rows.toNat * 256), offAlign a.toNat 32,
    comboCheck (decide (1 ≤ rows.toNat) && decide (rows.toNat ≤ 64))]
  let sb := k.spadBase g
  let o := d.tileOp (.mlda f)
  let o : TileOp :=
    { o with aoff := a, rowsv := rows, tiles := [g * k.regions.acc + f.td.toNat],
             reads := [(sb + a.toNat, sb + a.toNat + rows.toNat * 256)] }
  s.tileIssue f.h (if f.q then 1 else 0) us [k.fieldBound f.areg 1 false, k.fieldBound f.rows 1 true] own o

/-- The meaning of MLDA. -/
def execMlda (f : TFields) (s : State) : Host.Outcome State Fault Refusal := s.conclude (mldaIssue f s)

/-! ## Elements -/

/-- The element of width w bits at a bit of a run of words: its value under a format, and its word's poison. -/
def elemAt (ws : Array (Word × Bool)) (f : BitVec 5) (bit : Nat) : FVal × Bool :=
  let w := ws.getD (bit / 32) (0, false)
  (codeVal f (w.1.toNat / 2 ^ (bit % 32) % 2 ^ pitch f), w.2)

/-- Element (k, n) of a B operand in a run of B-lines (R301). -/
def bElem (ws : Array (Word × Bool)) (f : BitVec 5) (k n : Nat) : FVal × Bool :=
  let e := 32 / pitch f
  elemAt ws f ((k / e * 64 + n) * 32 + k % e * pitch f)

/-- One term of an output element: the factors, whether it is present, and its poison (R307, R312, R443). -/
structure Term where
  a    : FVal
  b    : FVal
  on   : Bool
  pois : Bool

/-- The term's exact product, +0 where it is absent. -/
def Term.product (t : Term) : FVal := if t.on then FVal.mul t.a t.b else .fin false 0 1

/-- The exact product of an integer term. -/
def Term.int (t : Term) : Int := if t.on then t.a.frac.1 * t.b.frac.1 else 0

/-- Integer accumulation in steps of `chunk` terms, each exact and then wrapped or clamped (R307). -/
def intSteps (sat : Bool) (chunk : Nat) : Nat → Int → List Int → Int
  | 0, acc, _ => acc
  | n + 1, acc, xs =>
    if xs.isEmpty then acc
    else
      let e := acc + (xs.take chunk).sum
      intSteps sat chunk n (if sat then clampInt Fmt.i32 e else signedOf 32 (wrapInt 32 e)) (xs.drop chunk)

/-- One output element (R307, R312, R443): FixedSum, FREE summation around a proposed value, or integer steps. -/
def accumulate (f : TFields) (steps chunk : Nat) (cand : Word) (c : Word × Bool) (ts : List Term) : Word × Bool :=
  let live := ts.filter (fun t => t.on)
  let p := c.2 || live.any (fun t => t.pois)
  if f.h.ty = Fmt.f32 then
    let c := FloatFmt.fp32.value c.1.toNat
    (BitVec.ofNat 32 (if f.sum then fixedSum c (ts.map Term.product) else freeSum cand steps c (live.map Term.product)), p)
  else (BitVec.ofNat 32 (wrapInt 32 (intSteps f.h.s chunk (ts.length + 1) c.1.toInt (ts.map Term.int))), p)

/-- K per tick, the sparse step width and the ticks per step of the operands' class (R304); the quantised mode follows AF (R309). -/
def TFields.rates (f : TFields) : Nat × Nat × Nat :=
  if f.mode = 3 then (if f.af.toNat ≤ 3 then (2, 4, 2) else (4, 4, 1)) else (matClass f.af f.bf f.h.ty).getD (4, 4, 1)

/-! ## Bitmaps -/

/-- The bit of a bitmap for row or column i and term k (R311). -/
def TileOp.bit (o : TileOp) (k : Column) (r i n : Nat) : Bool :=
  r == 0 || ((o.reg k (r + 2 * (n / 32) + i / 32)).data.lane (i % 32)).getLsbD (n % 32)

/-- A bitmap's bits of `rows` rows or columns, as lists over k. -/
def TileOp.bits (o : TileOp) (k : Column) (r rows kk : Nat) : List (List Bool) :=
  (List.range rows).map (fun i => (List.range kk).map (fun n => o.bit k r i n))

/-- A bitmap word that is read is poisoned (R443). -/
def TileOp.bitsPois (o : TileOp) (k : Column) (r rows kk : Nat) : Bool :=
  r != 0 && (List.range ((kk + 31) / 32)).any (fun j => (List.range rows).any (fun i =>
    (o.reg k (r + 2 * j + i / 32)).data.pois (i % 32)))

/-- The lists joined element by element under "or". -/
def orRows (kk : Nat) (rows : List (List Bool)) : List Bool :=
  rows.foldl (fun a b => List.zipWith (fun x y => x || y) a b) (List.replicate kk false)

/-- The list L of an MMAS (R312). -/
def TileOp.listed (o : TileOp) (k : Column) (f : TFields) : List Nat :=
  let a := orRows f.k (o.bits k f.abm.toNat o.rowsv.toNat f.k)
  let b := orRows f.k (o.bits k f.bbm.toNat 64 f.k)
  (List.range f.k).filter (fun n => a.getD n false && b.getD n false)

/-- The steps of an MMAS (R312). -/
def sparseSteps (f : TFields) (l : List Nat) : Nat := let p := (TFields.rates f).2.1; (l.length + p - 1) / p

/-- The boundary after j steps is a step boundary (R312): every one, or, with SUM = 1, one between groups of 24. -/
def stepBoundary (f : TFields) (l : List Nat) (j : Nat) : Bool :=
  let p := (TFields.rates f).2.1
  !f.sum || l.length ≤ j * p || l.getD (j * p) 0 / 24 != l.getD (j * p - 1) 0 / 24

/-! ## The products -/

/-- An element under its block's scale (R308). -/
def scaled (s x : FVal × Bool) : FVal × Bool := (FVal.mul s.1 x.1, s.2 || x.2)

/-- The scale byte at a byte of a run of words. -/
def scaleAt (ws : Array (Word × Bool)) (byte : Nat) : FVal × Bool :=
  let w := ws.getD (byte / 4) (0, false)
  (e8m0Value (w.1.toNat / 2 ^ (8 * (byte % 4)) % 256), w.2)

/-- The A operand's rows (R303, R308). -/
def TileOp.aRows (o : TileOp) (k : Column) (f : TFields) (m : Nat) : List (List (FVal × Bool)) :=
  let w := TFields.aw f
  let ws := o.words k ((k.spadBase o.gang + o.aoff.toNat) / 4) ((m * f.k * w + 31) / 32)
  let scales := f.mode == 0 && f.abm != 0
  let sc := if scales then o.words k ((k.spadBase o.gang + o.asc.toNat) / 4) ((m * (f.k / 24) + 3) / 4) else #[]
  (List.range m).map (fun i => (List.range f.k).map (fun n =>
    let x := elemAt ws (fmtOf f.af) ((i * f.k + n) * w)
    if scales then scaled (scaleAt sc (i * (f.k / 24) + n / 24)) x else x))

/-- The B operand's columns (R301, R308), those of r stacked operands one after the other (R310). -/
def TileOp.bCols (o : TileOp) (k : Column) (f : TFields) (r : Nat) : List (List (FVal × Bool)) :=
  let bb := k.bsGangBase o.gang
  let ln := TFields.bLines f
  let scales := f.mode == 0 && f.bbm != 0
  let sc := if scales then o.bwords k ((bb + o.bsc.toNat % 2 ^ 20) / 4) ((f.k / 24 + 3) / 4 * 64) else #[]
  ((List.range r).map (fun j =>
    let ws := o.bwords k ((bb + o.boff.toNat) / 4 + j * ln * 64) (ln * 64)
    (List.range 64).map (fun n => (List.range f.k).map (fun i =>
      let x := bElem ws (fmtOf f.bf) i n
      if scales then scaled (scaleAt sc ((i / 24 / 4 * 64 + n) * 4 + i / 24 % 4)) x else x)))).flatten

/-- The terms of two lists of elements. -/
def termsOf (as bs : List (FVal × Bool)) : List Term :=
  List.zipWith (fun a b => { a := a.1, b := b.1, on := true, pois := a.2 || b.2 }) as bs

/-- The terms of a quantised output (R309): with SUM = 1 one for each k, else one for each group. -/
def quantTerms (f : TFields) (gsz : Nat) (as bs : List (FVal × Bool)) (entries : List (Word × Bool)) : List Term :=
  (entries.zipIdx.map (fun e =>
    let ga := (as.drop (e.2 * gsz)).take gsz
    let gb := (bs.drop (e.2 * gsz)).take gsz
    let sc := FloatFmt.fp16.value (e.1.1.toNat % 65536)
    let z : Int := signedOf 8 (e.1.1.toNat / 65536)
    if f.sum then
      List.zipWith (fun a b => { a := a.1, b := FVal.mul sc (FVal.ofInt (b.1.frac.1 - z)), on := true, pois := a.2 || b.2 || e.1.2 }) ga gb
    else
      let aq := FVal.sum 0 (List.zipWith (fun a b => FVal.mul a.1 b.1) ga gb)
      let za := FVal.mul (FVal.ofInt (-z)) (FVal.sum 0 (ga.map Prod.fst))
      [{ a := sc, b := FVal.add 0 aq za, on := true, pois := e.1.2 || ga.any (fun x => x.2) || gb.any (fun x => x.2) }])).flatten

/-- The output rows of MMA, MMAB or MMAS (R307-R312, R443). -/
def TileOp.product (o : TileOp) (k : Column) (f : TFields) : List (List (Word × Bool)) :=
  let m := if f.mode = 1 then 64 else o.rowsv.toNat
  let (kpt, p, _) := TFields.rates f
  let tile := o.words k ((k.tileRange (o.tiles.headD 0)).1 / 4) (m * 64)
  let as := (o.aRows k f (if f.mode = 1 then 256 else m)).toArray
  let bs := (o.bCols k f (if f.mode = 1 then 4 else 1)).toArray
  let gsz := groupOf o.bsc.toNat
  let groups := if f.mode = 3 then f.k / gsz else 0
  let ents := if f.mode = 3 then o.bwords k ((k.bsGangBase o.gang + o.bsc.toNat % 2 ^ 20) / 4) (groups * 64) else #[]
  let sparse := f.mode == 2
  let am := if sparse then (o.bits k f.abm.toNat m f.k).toArray else #[]
  let bm := if sparse then (o.bits k f.bbm.toNat 64 f.k).toArray else #[]
  let l := if sparse then o.listed k f else []
  let bad := sparse && (o.bitsPois k f.abm.toNat m f.k || o.bitsPois k f.bbm.toNat 64 f.k)
  let steps := if sparse then sparseSteps f l else f.k / kpt
  (List.range m).map (fun i => (List.range 64).map (fun n =>
    let a := as.getD (if f.mode = 1 then (4 * (i / 16) + n / 16) * 16 + i % 16 else i) []
    let b := bs.getD (if f.mode = 1 then i / 16 * 64 + n else n) []
    let ts :=
      if f.mode = 3 then quantTerms f gsz a b ((List.range groups).map (fun g => ents.getD (g * 64 + n) (0, false)))
      else if sparse then
        let all := List.zipWith (fun (t : Term) (x : Bool × Bool) => { t with on := x.1 && x.2 }) (termsOf a b)
          (List.zip (am.getD i []) (bm.getD n []))
        if f.sum then all else (List.zip (List.range f.k) all).filterMap (fun x => if l.contains x.1 then some x.2 else none)
      else termsOf a b
    let r := accumulate f steps (if sparse then p else kpt) (Config.freeSum (o.base + i * 64 + n)) (tile.getD (i * 64 + n) (0, false)) ts
    (r.1, r.2 || bad)))

/-! ## Loads and clears -/

/-- The bit of element (k, n) in an MLDB's source (R313). -/
def mldbBit (f : TFields) (kk n : Nat) : Nat := (if f.mode.getLsbD 0 then n * f.k + kk else kk * 64 + n) * TFields.srcBits f

/-- One B-line from the codes and the poison of its elements (R301). -/
def mldbLine (f : TFields) (ln : Nat) (get : Nat → Nat × Bool) : List (Word × Bool) :=
  let w := TFields.bw f
  let e := 32 / w
  (List.range 64).map (fun n => (List.range e).foldl (fun (acc : Word × Bool) j =>
    let x := get (mldbBit f (ln * e + j) n)
    (acc.1 ||| BitVec.ofNat 32 (x.1 % 2 ^ elemBits (fmtOf f.bf) * 2 ^ (w * j)), acc.2 || x.2)) (0, false))

/-- The B-lines of an MLDB from the scratchpad (R313). -/
def TileOp.spadLines (o : TileOp) (k : Column) (f : TFields) : List (Word × Bool) :=
  let a := k.spadBase o.gang + o.aoff.toNat
  let ws := o.words k (a / 4) ((a % 4 + TFields.srcBytes f + 3) / 4)
  let get (bit : Nat) : Nat × Bool :=
    let b := a % 4 * 8 + bit
    let x := ws.getD (b / 32) (0, false)
    let y := ws.getD (b / 32 + 1) (0, false)
    let two := decide (32 < b % 32 + TFields.srcBits f)
    ((x.1.toNat + y.1.toNat * 2 ^ 32) / 2 ^ (b % 32) % 2 ^ TFields.srcBits f, x.2 || (two && y.2))
  ((List.range (TFields.bLines f)).map (fun ln => mldbLine f ln get)).flatten

/-- The sectors of offsets translated and read at their home slices (R313): their bytes and poison, or the fault. -/
def State.homeSectors (s : State) (c ctx : Nat) (priv : Bool) : List Nat → Except (Flt × Nat) (List (Nat × List Byte × Bool)) × Dev
  | [] => (.ok [], s.dev)
  | x :: xs =>
    match s.translate c ctx x false priv with
    | (.error f, d) => (.error (f, granOf x), d)
    | (.ok e, d) =>
      let d := { s with dev := d }.homeSector c (e.va x) e.zc
      let bs := s.seen c d.free (e.va x) 32
      let p := d.poisoned (vkey c (e.va x))
      let d := { d with free := d.free + 1 }
      match State.homeSectors { s with dev := d } c ctx priv xs with
      | (.error f, d) => (.error f, d)
      | (.ok rest, d) => (.ok ((x, bs, p) :: rest), d)

/-- The lines of a memory-source MLDB from its next one on: written one by one, until one faults (R313, R433). -/
def State.memLines (s : State) (c : Nat) (o : TileOp) (f : TFields) : Nat → Nat → Dev × Nat × Option (Flt × Nat)
  | 0, ln => (s.dev, ln, none)
  | n + 1, ln =>
    let a := ptrOff (ptrOf o.aoff o.ahi)
    let w := TFields.srcBits f
    let e := 32 / TFields.bw f
    let bits := ((List.range e).map (fun j => (List.range 64).map (fun i => mldbBit f (ln * e + j) i))).flatten
    let secs := ((bits.map (fun b => [(a + b / 8) / 32 * 32, (a + (b + w - 1) / 8) / 32 * 32])).flatten).eraseDups
    match s.homeSectors c o.ctx o.priv secs with
    | (.error g, d) => (d, ln, some g)
    | (.ok ss, d) =>
      let byte (x : Nat) : Nat × Bool := match ss.find? (fun y => y.1 == x / 32 * 32) with
        | some y => ((y.2.1.getD (x % 32) 0).toNat, y.2.2)
        | none => (0, false)
      let get (bit : Nat) : Nat × Bool :=
        let lo := byte (a + bit / 8)
        let hi := byte (a + (bit + w - 1) / 8)
        let more := (bit + w - 1) / 8 != bit / 8
        let v := lo.1 + (if more then 256 * hi.1 else 0)
        (v / 2 ^ (bit % 8) % 2 ^ w, lo.2 || hi.2)
      let row := mldbLine f ln get
      let d := d.modCol c (fun k => k.deliverBs o ((k.bsGangBase o.gang + o.boff.toNat) / 4 + ln * 64) row)
      State.memLines { s with dev := d } c o f n (ln + 1)

/-- The rows that MLDA loads (R314). -/
def TileOp.loadRows (o : TileOp) (k : Column) : List (List (Word × Bool)) :=
  [(o.words k ((k.spadBase o.gang + o.aoff.toNat) / 4) (o.rowsv.toNat * 64)).toList]

/-- The zero words of a tile (R315). -/
def zeroTile : List (List (Word × Bool)) := [List.replicate 4096 (0, false)]

/-! ## Units and time -/

/-- The three units (R316). -/
inductive TileUnit where
  | array | loader | drain
  deriving DecidableEq, Repr

/-- The unit of an operation (R316). -/
def TileOp.unit (o : TileOp) : TileUnit :=
  match o.insn with
  | .mldb _ | .mlda _ => .loader
  | .mdrain _ | .pjadj _ => .drain
  | _ => .array

/-- The operation is a memory-source MLDB (R318). -/
def TileOp.fromMem (o : TileOp) : Bool :=
  match o.insn with
  | .mldb f => f.mode.getLsbD 1
  | _ => false

/-- The scan of an MMAS and the ticks of one of its steps (R318). -/
def sparseTicks (f : TFields) : Nat × Nat := ((f.k + 127) / 128, (TFields.rates f).2.2 * (if f.sum then 2 else 1))

/-- The ticks that an array or loader operation holds its unit (R318); a memory-source MLDB's is not fixed. -/
def TileOp.arrayBusy (o : TileOp) (k : Column) : Nat :=
  match o.insn with
  | .mma f => f.k / (TFields.rates f).1 * (if f.sum then 2 else 1) + (if f.mode = 3 then 4 else 0)
  | .mmab f => f.k / (TFields.rates f).1 * (if f.sum then 2 else 1)
  | .mmas f => (sparseTicks f).1 + (sparseSteps f (o.listed k f) - o.step) * (sparseTicks f).2
  | .mclr f => 4 * (f.k8.toNat % 32 + 1 - f.td.toNat)
  | .mlda _ => o.rowsv.toNat
  | .mldb f => TFields.bLines f * (if f.mode.getLsbD 0 then 2 else 1)
  | _ => 0

end Sys2Proof.Machine
end

