-- ==== Sys2Proof/Machine/Project.lean ====
section
/-! DEFINITION. The projection engine (R322-R343): the issue of MDRAIN and PJADJ (R323-R325), the selectors and the adjoint row by row
(R330-R339), the work of a row (R340), and where the results land (R326-R329, R443). -/

namespace Sys2Proof.Machine

/-! ## Issue -/

/-- The most elements of a row (R322). -/
def PFields.width (f : PFields) : Nat := 64 * (f.tl.toNat + 1 - f.tf.toNat)

/-- M and N of a geometry value (R323). -/
def geoM (g : Word) : Nat := bitsOf g.toNat 6 0
/-- N of a geometry value (R323). -/
def geoN (g : Word) : Nat := bitsOf g.toNat 27 16

/-- The geometry that PAR = 0 implies (R323). -/
def PFields.fullGeo (f : PFields) : Word := BitVec.ofNat 32 (64 + PFields.width f * 65536)

/-- The output goes to the scratchpad (R324, R327). -/
def PFields.toSpad (f : PFields) : Bool := f.dk && f.selp != 7

/-- The geometry passes its own checks (R325): with a scratchpad output N is a multiple of 8. -/
def PFields.geoOk (f : PFields) (g : Word) : Bool :=
  decide (1 ≤ geoM g) && decide (geoM g ≤ 64) && decide (1 ≤ geoN g) && decide (geoN g ≤ PFields.width f) &&
    g &&& 0xF000FF80#32 == 0 && (!PFields.toSpad f || geoN g % 8 == 0)

/-- The registers per 32 rows of an output of N elements (R326). -/
def PFields.outRegs (f : PFields) (n : Nat) : Nat := let e := elems (fmtOf f.of); (n + e - 1) / e

/-- The structure words are row values (R328). -/
def PFields.rowValue (f : PFields) : Bool := f.selp == 3 || f.selp == 7

/-- The numbers of registers of DST, SUP and STW (R326, R328). -/
def PFields.counts (f : PFields) (m n : Nat) : Nat × Nat × Nat :=
  let r := (m + 31) / 32
  (r * PFields.outRegs f n, r, if PFields.rowValue f then r else 2 * ((n + 31) / 32))

/-- The lanes of the rows below M that lie in the h-th 32 rows. -/
def rowLanes (m h : Nat) : Mask := Mask.of (fun l => decide (32 * h + l < m))

/-- The registers that a drain writes, with their lanes and tags (R326, R328): DST, then SUP, then STW. -/
def PFields.regsOut (f : PFields) (adj : Bool) (m n : Nat) : List (Nat × Mask × BitVec 5) :=
  let r := PFields.outRegs f n
  let dst := if f.dk || f.selp = 7 then [] else
    ((List.range ((m + 31) / 32)).map (fun h => (List.range r).map (fun j => (f.dst.toNat + h * r + j, rowLanes m h, fmtOf f.of)))).flatten
  let sup := if adj || f.sup = 0 then [] else
    (List.range ((m + 31) / 32)).map (fun h => (f.sup.toNat + h, rowLanes m h, Fmt.ui32))
  let stw := if adj || f.stw = 0 then []
    else if PFields.rowValue f then (List.range ((m + 31) / 32)).map (fun h => (f.stw.toNat + h, rowLanes m h, Fmt.f32))
    else ((List.range ((n + 31) / 32)).map (fun j => (List.range ((m + 31) / 32)).map (fun h =>
      (f.stw.toNat + 2 * j + h, rowLanes m h, Fmt.ui32)))).flatten
  dst ++ sup ++ stw

/-- The registers that PJADJ reads as structure words (R338). -/
def PFields.stwIn (f : PFields) (m n : Nat) : List Nat :=
  if PFields.rowValue f then (List.range ((m + 31) / 32)).map (fun h => f.stw.toNat + h)
  else (List.range (2 * ((n + 31) / 32))).map (fun j => f.stw.toNat + j)

/-- The register ranges of DST, SUP and STW, the last also where PJADJ reads it (R326, R328). -/
def PFields.ranges (f : PFields) (adj : Bool) (m n : Nat) : List (List Nat) :=
  let c := PFields.counts f m n
  let from_ (r : BitVec 8) (n : Nat) : List Nat := (List.range n).map (fun j => r.toNat + j)
  [if f.dk || f.selp = 7 then [] else from_ f.dst c.1, if adj || f.sup = 0 then [] else from_ f.sup c.2.1,
    if f.stw = 0 then [] else from_ f.stw c.2.2]

/-- The registers that lie in two of the ranges, which then hold undefined values (R329). -/
def PFields.doubled (f : PFields) (adj : Bool) (m n : Nat) : List Nat :=
  let rs := (PFields.ranges f adj m n).flatten
  rs.eraseDups.filter (fun r => decide (1 < (rs.filter (fun x => x == r)).length))

/-- The projection-parameter check (R325, R407). -/
def paramCheck (bad : Bool) (code : Nat) : Option TrapInfo := check (!bad) { cause := 0x19, einfo := BitVec.ofNat 64 code }

/-- A value is finite and above +0. -/
def posFinite (w : Word) : Bool :=
  match FloatFmt.fp32.value w.toNat with
  | .fin s n _ => !s && n != 0
  | _ => false

/-- A value is finite. -/
def finite (w : Word) : Bool :=
  match FloatFmt.fp32.value w.toNat with
  | .fin _ _ _ => true
  | _ => false

/-- lo and hi of a box are refused (R325). -/
def boxBad (lo hi : Word) : Bool :=
  let a := FloatFmt.fp32.value lo.toNat
  let b := FloatFmt.fp32.value hi.toNat
  a.isNan || b.isNan || decide (0 < FVal.cmp a b)

/-- The scratchpad bytes of an output (R327). -/
def PFields.outBytes (f : PFields) (m n : Nat) : Nat := m * n * pitch (fmtOf f.of) / 8

/-- MDRAIN and PJADJ (R323-R325). -/
def drainIssue (i : Instr) (f : PFields) (adj : Bool) (s : State) : Issue :=
  let d := s.dev
  let k := d.curCol
  let g := d.curWarp.gang
  let v (j : Nat) : Word := if f.par = 0 then 0 else d.uniVal (f.par.toNat + j)
  let p0 := v 0
  let p1 := v 1
  let geo := if f.par = 0 then PFields.fullGeo f else v 2
  let m := geoM geo
  let n := geoN geo
  let ok := PFields.geoOk f geo
  let spad := PFields.toSpad f
  let yes := adj && f.selp == 3
  let dst := if spad then d.uniVal f.dst.toNat else 0
  let c := PFields.counts f m n
  let f32Use (j : Nat) : TileUse :=
    { use := { src := Src.direct d.seen 4 (f.par.toNat + j) 0 0, want := some Fmt.f32 } }
  let us := (if spad then [d.tileUse 0 f.dst.toNat] else []) ++
    (if f.par = 0 then [] else [f32Use 0, if yes then d.tileUse 4 (f.par.toNat + 1) else f32Use 1, d.tileUse 4 (f.par.toNat + 2)])
  let stw : List TileUse := if ok && adj then (PFields.stwIn f m n).map (fun r =>
    { use := { src := Src.direct d.seen 4 r 0 0, want := none }, bitmap := true }) else []
  let regs := k.regions.regs
  let ranges := [if spad then boundCheck regs f.dst.toNat else none,
    if ok && !f.dk && f.selp != 7 then rangeBound regs f.dst.toNat c.1 else none,
    if f.par = 0 then none else rangeBound regs f.par.toNat 3,
    if ok && f.sup != 0 then rangeBound regs f.sup.toNat c.2.1 else none,
    if ok && f.stw != 0 then rangeBound regs f.stw.toNat c.2.2 else none]
  let ball := f.selp == 1 && !adj || f.selp == 2 || f.selp == 3
  let own := [tileBound k f.tl.toNat, if ok && spad then spadRange k dst.toNat (PFields.outBytes f m n) else none,
    if ok && yes then spadRange k p1.toNat (m * n * 4) else none, if spad then offAlign dst.toNat 32 else none,
    if yes then offAlign p1.toNat 32 else none,
    paramCheck (m == 0 || decide (64 < m)) 1, paramCheck (n == 0 || decide (PFields.width f < n)) 2,
    paramCheck (geo &&& 0xF000FF80#32 != 0) 3, paramCheck (spad && n % 8 != 0) 4, paramCheck (ball && !posFinite p0) 5,
    paramCheck (!adj && f.selp == 4 && boxBad p0 p1) 6, paramCheck (!adj && f.selp == 7 && !finite p0) 7]
  let sb := k.spadBase g
  let outs := (PFields.regsOut f adj m n).map (fun x => (x.1, x.2.1)) ++ (PFields.doubled f adj m n).map (fun r => (r, Mask.all))
  let o := d.tileOp i
  let o : TileOp :=
    { o with
      aoff := dst, boff := p0, asc := p1, rowsv := geo,
      tiles := (List.range (f.tl.toNat + 1 - f.tf.toNat)).map (fun j => g * k.regions.acc + f.tf.toNat + j),
      reads := if yes then [(sb + p1.toNat, sb + p1.toNat + m * n * 4)] else [],
      writes := if spad then [(sb + dst.toNat, sb + dst.toNat + PFields.outBytes f m n)] else [],
      rregs := if adj then PFields.stwIn f m n else [], wregs := outs }
  s.tileIssue f.h 0 (us ++ stw) ranges own o

/-- The meaning of MDRAIN. -/
def execMdrain (f : PFields) (s : State) : Host.Outcome State Fault Refusal := s.conclude (drainIssue (.mdrain f) f false s)

/-- The meaning of PJADJ. -/
def execPjadj (f : PFields) (s : State) : Host.Outcome State Fault Refusal := s.conclude (drainIssue (.pjadj f) f true s)

/-! ## Rows -/

/-- An output before its rounding: an exact value, or a signed square root of one (R334). -/
inductive RowElem where
  | val (x : FVal)
  | root (neg : Bool) (x : FVal)
  | bits (w : Word)

/-- What a row gives (R328): its outputs, its support size and set, its row value, and the work of R340 in ticks. -/
structure RowOut where
  ys   : List RowElem
  sup  : List Bool
  size : Nat
  word : Word
  work : Nat

/-- The ordered image of FP32 (R332). -/
def keyOf (b : Nat) : Nat := if b < 2 ^ 31 then b + 2 ^ 31 else 2 ^ 32 - 1 - b
/-- The inverse of the ordered image (R332). -/
def ofKey (a : Nat) : Nat := if 2 ^ 31 ≤ a then a - 2 ^ 31 else 2 ^ 32 - 1 - a

/-- The bisection of R332 between two keys: the key that it ends at, and the times that it ran. -/
def bisect (xs : List FVal) (z : FVal) : Nat → Nat → Nat → Nat × Nat
  | 0, a, _ => (a, 0)
  | n + 1, a, b =>
    if b - a ≤ 1 then (a, 0)
    else
      let m := a + (b - a) / 2
      let t := FloatFmt.fp32.value (ofKey m)
      let f := sumF32 (xs.map (fun x => (x.minus t).relu))
      let r := if !FVal.less f z && !f.isNan then bisect xs z n m b else bisect xs z n a m
      (r.1, r.2 + 1)

/-- The simplex projection of a row without NaN (R332): the outputs, the set S, and the times that the loop ran. -/
def simplex (z : FVal) (ws : List Word) : List FVal × List Bool × Nat :=
  let xs := ws.map f32Val
  let pinf := xs.map (fun x => x == .inf false)
  if pinf.any id then
    let k := (pinf.filter id).length
    (pinf.map (fun b => if b then FVal.div z (.fin false k 1) else FVal.zero), pinf, 0)
  else if xs.all FVal.isInf then (xs.map (fun _ => FVal.div z (.fin false xs.length 1)), xs.map (fun _ => true), 0)
  else
    let keys := (List.zip ws xs).filterMap (fun p => if p.2.isInf then none else some (keyOf p.1.toNat))
    let top := keys.foldl max 0
    let lo := roundF32 2 (FVal.add 2 (FloatFmt.fp32.value (ofKey top)) z.negate)
    let lo := if lo = 0xFF800000 then 0xFF7FFFFF else lo
    let (a, n) := bisect xs z 33 (keyOf lo.toNat) top
    let tau := FloatFmt.fp32.value (ofKey a)
    let s := xs.map (fun x => FVal.less tau x)
    let inS := (List.zip xs s).filterMap (fun p => if p.2 then some p.1 else none)
    let taus := ((sumF32 inS).minus z).per inS.length
    ((List.zip xs s).map (fun p => if p.2 then (p.1.minus taus).relu else FVal.zero), s, n)

/-- A block of the monotone pooling: first index, length, mean (R336). -/
structure Block where
  first : Nat
  len   : Nat
  mean  : FVal

/-- Adjacent violators at the top of the stack merged (R336), with the ticks that the merges cost (R340). -/
def poolTop (decr : Bool) (xs : List FVal) : Nat → List Block → List Block × Nat
  | 0, bs => (bs, 0)
  | n + 1, bs =>
    match bs with
    | q :: p :: rest =>
      if (if decr then FVal.less p.mean q.mean else FVal.less q.mean p.mean) then
        let len := p.len + q.len
        let mean := (sumF32 ((xs.drop p.first).take len)).per len
        let r := poolTop decr xs n ({ first := p.first, len := len, mean := mean } :: rest)
        (r.1, r.2 + (len + 63) / 64)
      else (bs, 0)
    | _ => (bs, 0)

/-- The pooling of a row from element n on (R336): the stack of blocks, top first, and the ticks of its merges. -/
def poolRow (decr : Bool) (xs : List FVal) : List FVal → Nat → List Block × Nat → List Block × Nat
  | [], _, r => r
  | x :: rest, n, (bs, t) =>
    let (bs, u) := poolTop decr xs (bs.length + 1) ({ first := n, len := 1, mean := x } :: bs)
    poolRow decr xs rest (n + 1) (bs, t + u)

/-- The number of true entries. -/
def countTrue (bs : List Bool) : Nat := (bs.filter id).length

/-- One row of an MDRAIN (R330-R337). -/
def drainRow (f : PFields) (p0 p1 : Word) (ws : List Word) : RowOut :=
  let xs := ws.map f32Val
  let n := ws.length
  let c := (n + 63) / 64
  let z := f32Val p0
  let plain (ys : List FVal) (sup : List Bool) (word : Word) (work : Nat) : RowOut :=
    { ys := ys.map RowElem.val, sup := sup, size := countTrue sup, word := word, work := work }
  if f.h.ty = Fmt.i32 then
    { ys := ws.map (fun w => if fmtOf f.of = Fmt.i32 then .bits w else .val (FVal.ofInt w.toInt)), sup := [], size := 0, word := 0,
      work := c }
  else if f.selp = 0 then { ys := xs.map RowElem.val, sup := [], size := 0, word := 0, work := c }
  else if f.selp = 4 then
    let hi := f32Val p1
    plain (xs.map (fun x => if x.isNan then .nan else if FVal.less x z then z else if FVal.less hi x then hi else x))
      (xs.map (fun x => FVal.less z x && FVal.less x hi)) 0 c
  else if f.selp = 7 then
    let up := xs.filter (fun x => FVal.less z x)
    { ys := [], sup := [], size := up.length,
      word := if xs.any FVal.isNan then 0x7FC00000 else roundF32 0 (sumF32 (up.map (fun x => x.minus z))), work := c }
  else if xs.any FVal.isNan then
    -- R340 counts no search for such a row
    plain (xs.map (fun _ => .nan)) (xs.map (fun _ => false)) 0x7FC00000
      (if f.selp = 1 then 3 * c else if f.selp = 2 then 4 * c else if f.selp = 3 then 2 * c else (n + 7) / 8 + c)
  else if f.selp = 1 then
    let r := simplex z ws
    plain r.1 r.2.1 0 ((3 + r.2.2) * c)
  else if f.selp = 2 then
    let q := sumF32 (xs.map FVal.abs)
    if !FVal.less z q then plain xs (xs.map (fun x => !x.isZero)) 0 (2 * c)
    else
      let r := simplex z (ws.map (fun w => w &&& 0x7FFFFFFF#32))
      plain ((List.zip xs r.1).map (fun p => if p.1.neg then p.2.negate else p.2)) r.2.1 0 ((4 + r.2.2) * c)
  else if f.selp = 3 then
    let infs := xs.map FVal.isInf
    let k := countTrue infs
    if 0 < k then
      { ys := xs.map (fun x => if x.isInf then .root x.neg (FVal.div (FVal.mul z z) (.fin false k 1)) else .val (.fin x.neg 0 1)),
        sup := infs, size := k, word := 0x7F800000, work := 2 * c }
    else
      let q := FloatFmt.fp32.value (fixedSum FVal.zero (xs.map (fun x => FVal.mul x x)))
      let nw : Word := BitVec.ofNat 32 (FloatFmt.fp32.roundSqrt 0 false q)
      let g := f32Val (roundF32 0 (FVal.div z (f32Val nw)))
      plain (if !FVal.less z (f32Val nw) then xs else xs.map (fun x => FVal.mul x g)) (xs.map (fun x => !x.isZero)) nw (2 * c)
  else
    let r := poolRow (f.selp == 6) xs xs 0 ([], 0)
    let bs := r.1.reverse
    let starts := (List.range n).map (fun i => bs.any (fun b => b.first == i))
    plain ((bs.map (fun b => List.replicate b.len b.mean)).flatten) starts 0 ((n + 7) / 8 + c + r.2)

/-- The values of the entries that are marked. -/
def chosen (xs : List FVal) (s : List Bool) : List FVal := (List.zip xs s).filterMap (fun p => if p.2 then some p.1 else none)

/-- The ends of the blocks of a row: for each element, its block's first index (R338). -/
def blockOf (starts : List Bool) : List Nat :=
  (starts.zipIdx.foldl (fun (acc : List Nat × Nat) b => let s := if b.1 || b.2 == 0 then b.2 else acc.2; (acc.1 ++ [s], s)) ([], 0)).1

/-- One row of a PJADJ (R338, R339): the gradient from g, the structure bits or the norm, y and z. -/
def adjointRow (f : PFields) (z : FVal) (ws : List Word) (bits : List Bool) (norm : Word) (ys : List Word) : RowOut :=
  let gs := ws.map f32Val
  let c := (ws.length + 63) / 64
  let out (xs : List FVal) (work : Nat) : RowOut := { ys := xs.map RowElem.val, sup := [], size := 0, word := 0, work := work }
  if f.selp = 4 then out ((List.zip gs bits).map (fun p => if p.2 then p.1 else FVal.zero)) c
  else if f.selp = 1 then
    let k := countTrue bits
    if k = 0 then out (gs.map (fun _ => FVal.zero)) (2 * c)
    else
      let m := (sumF32 (chosen gs bits)).per k
      out ((List.zip gs bits).map (fun p => if p.2 then p.1.minus m else FVal.zero)) (2 * c)
  else if f.selp = 3 then
    let nv := f32Val norm
    if nv.isNan then out (gs.map (fun _ => .nan)) (2 * c)
    else if !FVal.less z nv then out gs (2 * c)
    else
      let yv := ys.map f32Val
      let g := f32Val (roundF32 0 (FVal.div z nv))
      let cc := sumF32 (List.zipWith FVal.mul yv gs)
      let q := f32Val (roundF32 0 (FVal.div cc (FVal.mul z z)))
      out (List.zipWith (fun y x => FVal.mul g (x.minus (FVal.mul y q))) yv gs) (2 * c)
  else
    let b := blockOf bits
    let mean (s : Nat) : FVal :=
      let mine := (List.zip gs b).filterMap (fun p => if p.2 = s then some p.1 else none)
      (sumF32 mine).per mine.length
    let means := (b.eraseDups).map (fun s => (s, mean s))
    out (b.map (fun s => match means.find? (fun x => x.1 == s) with
      | some x => x.2
      | none => FVal.zero)) (2 * c)

/-! ## Rounding and placing -/

/-- An output element that is a zero, exact or rounded, is +0 where the selector states no sign (R330). -/
def plusZero (t : BitVec 5) (c : Nat) : Nat := if isFloatFmt t && c % 2 ^ (elemBits t - 1) == 0 then 0 else c

/-- The selector states the sign of its zeros (R330): the balls of an MDRAIN give x's own (R333, R334). -/
def PFields.signed (f : PFields) (adj : Bool) : Bool := !adj && (f.selp == 2 || f.selp == 3)

/-- The element code of an output under OF, and whether a NaN was lost (R330). -/
def RowElem.code (f : PFields) (rm : BitVec 2) (y : RowElem) : Nat × Bool :=
  match y with
  | .bits w => (w.toNat, false)
  | .val x => convertElem (fmtOf f.of) rm f.h.s x
  | .root neg x =>
    let F := floatFmt (fmtOf f.of)
    let c := F.roundSqrt 0 f.h.s x
    (if (F.value c).isNan then F.nanCode else F.signed neg c, false)

/-- A row after rounding: its element codes, its support bits, size and value, its poison by element and as a whole, and its work. -/
structure RowDone where
  codes : List Nat
  sup   : List Bool
  size  : Nat
  word  : Word
  pois  : List Bool
  all   : Bool
  lost  : Bool
  work  : Nat

/-- The selector takes each element by itself (R443). -/
def PFields.byElement (f : PFields) : Bool := f.selp == 0 || f.selp == 4

/-- Row i of a drain: read, projected, rounded (R322, R330, R443). -/
def TileOp.row (o : TileOp) (k : Column) (f : PFields) (adj : Bool) (i : Nat) : RowDone :=
  let n := geoN o.rowsv
  let xs := ((List.range ((n + 63) / 64)).map (fun j =>
    (o.words k ((k.tileRange (o.tiles.getD j 0)).1 / 4 + 64 * i) (min 64 (n - 64 * j))).toList)).flatten
  let ws := xs.map Prod.fst
  let stw (r : Nat) : Word × Bool := let g := (o.reg k r).data; (g.lane (i % 32), g.pois (i % 32))
  let l2 := adj && f.selp == 3
  let sw := if l2 then [stw (f.stw.toNat + i / 32)]
    else if adj then (List.range ((n + 31) / 32)).map (fun j => stw (f.stw.toNat + 2 * j + i / 32)) else []
  let bits := (List.range n).map (fun j => ((sw.getD (j / 32) (0, false)).1).getLsbD (j % 32))
  let ys := if l2 then (o.words k ((k.spadBase o.gang + o.asc.toNat) / 4 + i * n) n).toList else []
  let r := if adj then adjointRow f (f32Val o.boff) ws bits (sw.getD 0 (0, false)).1 (ys.map Prod.fst) else drainRow f o.boff o.asc ws
  let cs := r.ys.map (fun y => let c := y.code f (if adj then 0 else f.h.rm)
    (if PFields.signed f adj then c.1 else plusZero (fmtOf f.of) c.1, c.2))
  let codes := cs.map Prod.fst
  let own := (List.range n).map (fun j => (xs.getD j (0, false)).2 || (adj && (sw.getD (j / 32) (0, false)).2))
  let whole := own.any id || sw.any (fun x => x.2) || ys.any (fun x => x.2)
  let sup := if f.selp = 0 then codes.map (fun c => decide (c % 2 ^ (elemBits (fmtOf f.of) - 1) ≠ 0) ||
      (isIntFmt (fmtOf f.of) && c != 0)) else r.sup
  { codes := codes, sup := sup, size := if f.selp = 0 then countTrue sup else r.size, word := r.word,
    pois := if PFields.byElement f then own else own.map (fun _ => whole), all := whole,
    lost := cs.any Prod.snd, work := r.work }

/-- The word of e elements' codes under a format. -/
def packCodes (f : BitVec 5) (cs : List Nat) : Word := (cs.zipIdx).foldl (fun w c => insCode f w c.2 c.1) 0

/-- A register's lanes from a function of the row. -/
def rowReg (m h : Nat) (fmt : BitVec 5) (g : Nat → Word × Bool) : Mask × Result :=
  (rowLanes m h, { vals := tab (fun l => (g (32 * h + l)).1),
                   pois := Mask.of (fun l => decide (32 * h + l < m) && (g (32 * h + l)).2), fmt := fmt, shape := .general })

/-- The registers of a drain's results, DST, SUP and STW (R326, R328, R443). -/
def drainRegs (f : PFields) (adj : Bool) (m n : Nat) (rows : Array RowDone) : List (Nat × Mask × Result) :=
  let row (i : Nat) : RowDone := rows.getD i { codes := [], sup := [], size := 0, word := 0, pois := [], all := false, lost := false, work := 0 }
  let e := elems (fmtOf f.of)
  let r := PFields.outRegs f n
  let hs := List.range ((m + 31) / 32)
  let elemPois := PFields.byElement f
  let dst := if f.dk || f.selp = 7 then [] else (hs.map (fun h => (List.range r).map (fun j =>
    (f.dst.toNat + h * r + j, rowReg m h (fmtOf f.of) (fun i =>
      (packCodes (fmtOf f.of) (((row i).codes.drop (j * e)).take e), (((row i).pois.drop (j * e)).take e).any id)))))).flatten
  let sup := if adj || f.sup = 0 then [] else hs.map (fun h =>
    (f.sup.toNat + h, rowReg m h Fmt.ui32 (fun i => (BitVec.ofNat 32 (row i).size, (row i).all))))
  let stw := if adj || f.stw = 0 then []
    else if PFields.rowValue f then hs.map (fun h => (f.stw.toNat + h, rowReg m h Fmt.f32 (fun i => ((row i).word, (row i).all))))
    else ((List.range ((n + 31) / 32)).map (fun j => hs.map (fun h =>
      (f.stw.toNat + 2 * j + h, rowReg m h Fmt.ui32 (fun i =>
        let bs := ((row i).sup.drop (32 * j)).take 32
        (BitVec.ofNat 32 (bs.zipIdx.foldl (fun x b => if b.1 then x + 2 ^ b.2 else x) 0),
         if elemPois then (((row i).pois.drop (32 * j)).take 32).any id else (row i).all)))))).flatten
  (dst ++ sup ++ stw).map (fun x => (x.1, x.2.1, x.2.2))

/-- The scratchpad words of a drain's rows (R327). -/
def drainSpad (f : PFields) (rows : List RowDone) : List (Word × Bool) :=
  let e := 32 / pitch (fmtOf f.of)
  (rows.map (fun r => (List.range (r.codes.length / e)).map (fun j =>
    (packCodes (fmtOf f.of) ((r.codes.drop (j * e)).take e), ((r.pois.drop (j * e)).take e).any id)))).flatten

/-- The rows of a drain (R322). -/
def TileOp.rows (o : TileOp) (k : Column) (f : PFields) (adj : Bool) : List RowDone :=
  (List.range (geoM o.rowsv)).map (fun i => o.row k f adj i)

/-- busy of a drain: the largest total over the four row engines (R340). -/
def rowsBusy (rows : List RowDone) : Nat :=
  let total (e : Nat) : Nat := (rows.zipIdx.map (fun r => if r.2 % 4 = e then r.1.work else 0)).sum
  ((List.range 4).map total).foldl max 0

/-- A drain's results delivered (R326-R329), and NANLOST set in its warp (R330). -/
def Column.drained (k : Column) (o : TileOp) (f : PFields) (adj : Bool) (rows : List RowDone) : Column :=
  let m := geoM o.rowsv
  let n := geoN o.rowsv
  let k := if f.dk && f.selp != 7 then k.deliverWords 0 o ((k.spadBase o.gang + o.aoff.toNat) / 4) (drainSpad f rows) else k
  let odd := PFields.doubled f adj m n
  let regs := (drainRegs f adj m n rows.toArray).filter (fun x => !odd.contains x.1) ++
    odd.map (fun r => (r, Mask.all, o.fogReg r))
  let k := regs.foldl (fun k x => k.deliverReg 0 o x.1 x.2.1 x.2.2) k
  k.putWarp o.slot ((k.warp o.slot).nanLost (rows.any (fun r => r.lost)))

/-- The ticks that an operation holds its unit (R318, R340). -/
def TileOp.busy (o : TileOp) (k : Column) : Nat :=
  match o.insn with
  | .mdrain f => rowsBusy (o.rows k f false)
  | .pjadj f => rowsBusy (o.rows k f true)
  | _ => o.arrayBusy k

end Sys2Proof.Machine
end

