-- ==== Sys2Proof/Machine/TileRun.lean ====
section
/-! DEFINITION. The tile queues at work: when an operation starts, yields and resumes (R316), when it completes (R318), and what its
completion does (R263, R317). -/

namespace Sys2Proof.Machine

/-! ## Starting -/

/-- An operation holds its unit at a tick (R318): a memory-source MLDB until its last B-line is written. -/
def TileOp.holds (o : TileOp) (k : Column) (now : Nat) : Bool :=
  match o.started with
  | none => false
  | some t =>
    if o.fromMem then
      match o.wrote with
      | none => true
      | some w => decide (now ≤ w)
    else decide (now < t + o.busy k)

/-- The operations of a queue that have started. -/
def Column.running (k : Column) (q : Nat) : List TileOp := (k.queue q).filter (fun o => o.started.isSome)

/-- The position of queue 1's MMAS that yielded (R316, R321): its last started operation. -/
def Column.yieldPos (k : Column) : Option Nat := if k.yielded then some ((k.running 1).length - 1) else none

/-- A unit is free: nothing that started holds it, a yielded MMAS apart (R316). -/
def Column.unitFree (k : Column) (now : Nat) (u : TileUnit) : Bool :=
  !((k.queue 0).any (fun o => o.unit == u && o.holds k now)) &&
    !((k.queue 1).zipIdx.any (fun x => some x.2 != k.yieldPos && x.1.unit == u && x.1.holds k now))

/-- The position of the operation of a queue that may start next as far as its queue goes (R316): four ticks after its issue, after
the completion of the one ahead, or, both on the array, after the last busy tick of the one ahead. -/
def Column.next (k : Column) (now q : Nat) : Option Nat :=
  let os := k.queue q
  match os.findIdx? (fun o => o.started.isNone) with
  | none => none
  | some i =>
    match os[i]? with
    | none => none
    | some o =>
      let ahead := match i with
        | 0 => true
        | j + 1 => match os[j]? with
          | some p => p.unit == .array && o.unit == .array && !(q == 1 && k.yielded) && !p.holds k now
          | none => false
      if o.held.isNone && decide (o.itick + 4 ≤ now) && ahead then some i else none

/-- Queue 0's next operation wants a unit now (R316). -/
def Column.wanted (k : Column) (now : Nat) (u : TileUnit) : Bool :=
  match k.next now 0 with
  | some i => match (k.queue 0)[i]? with
    | some o => o.unit == u
    | none => false
  | none => false

/-- An operation of a queue changed. -/
def Column.modTile (k : Column) (q i : Nat) (f : TileOp → TileOp) : Column :=
  k.putQueue q ((k.queue q).zipIdx.map (fun x => if x.2 = i then f x.1 else x.1))

/-- The steps that a running MMAS has completed where the present tick is one of its step boundaries with steps left (R312, R316). -/
def TileOp.boundary (o : TileOp) (k : Column) (now : Nat) : Option Nat :=
  match o.insn, o.started with
  | .mmas f, some t =>
    let (scan, tick) := sparseTicks f
    let l := o.listed k f
    let e := now - t
    let n := (e - scan) / tick
    let all := o.step + n
    if scan ≤ e ∧ 0 < n ∧ (e - scan) % tick = 0 ∧ all < sparseSteps f l ∧ stepBoundary f l all then some all else none
  | _, _ => none

/-- A queue's running MMAS at a step boundary: its position and its step counter. -/
def Column.atBoundary (k : Column) (now q : Nat) : Option (Nat × Nat) :=
  let i := (k.running q).length - 1
  match (k.queue q)[i]? with
  | some o => if q = 1 && k.yielded then none else (o.boundary k now).map (fun n => (i, n))
  | none => none

/-- Queue 1's MMAS that can yield now. -/
def Column.yielding (k : Column) (now : Nat) : Option (Nat × Nat) := k.atBoundary now 1

/-- A stopped warp's operations stand in a queue: they complete before its stop is reported, in a halted column too (R94, R455). -/
def Column.urgent (k : Column) (q : Nat) : Bool := (k.queue q).any (fun o => (k.warp o.slot).stopped)

/-- The tick from which an operation that starts now is busy: an MMAS that goes on from its step counter repeats its scan only after a restore
(R316, R318). -/
def TileOp.startAt (o : TileOp) (now : Nat) : Nat :=
  match o.insn with
  | .mmas f => if o.scanned && !o.rescan then now - (sparseTicks f).1 else now
  | _ => now

/-- An operation starts, or goes on. -/
def TileOp.starts (o : TileOp) (now : Nat) : TileOp := { o with started := some (o.startAt now), scanned := false, rescan := false }

/-- In a halted column, a running MMAS of either queue stops at its next step boundary, its steps counted, and nothing starts (R88, R320). -/
def Column.tileHalt (k : Column) (now q : Nat) : Column :=
  match k.atBoundary now q with
  | some (j, n) => k.modTile q j (fun p => { p with step := n, started := none, scanned := true })
  | none => k

/-- The start of a queue's next operation, the yield that lets it, or the resumption of a yielded MMAS, without a new scan but after a
restore (R316, R318). -/
def Column.tileStart (k : Column) (now q : Nat) : Column :=
  let start (k : Column) (i : Nat) : Column := k.modTile q i (fun o => o.starts now)
  if k.halted && !k.urgent q then k.tileHalt now q
  else if q = 0 then
    match k.next now 0 with
    | none => k
    | some i =>
      match (k.queue 0)[i]? with
      | none => k
      | some o =>
        if k.unitFree now o.unit then start k i
        else if o.unit = .array then
          match k.yielding now with
          | some (j, n) =>
            let k2 : Column := { k.modTile 1 j (fun p => { p with step := n }) with yielded := true }
            if k2.unitFree now .array then start k2 i else k
          | none => k
        else k
  else if k.yielded then
    if k.unitFree now .array && !k.wanted now .array then
      { k.modTile 1 ((k.running 1).length - 1) (fun o => { o with scanned := true }.starts now) with yielded := false }
    else k
  else
    match k.next now 1 with
    | none => k
    | some i =>
      match (k.queue 1)[i]? with
      | none => k
      | some o => if k.unitFree now o.unit && !k.wanted now o.unit then start k i else k

/-- The meaning of TILE_OP_START (R316). -/
def execTileOpStart (col queue : Nat) (s : State) : Host.Outcome State Fault Refusal :=
  .next { s with dev := s.dev.modCol col (fun k => k.tileStart s.dev.now queue) }

/-! ## Completion -/

/-- What an operation, no longer in its queue, writes (R307-R315, R326-R329). -/
def Column.tileEffect (k : Column) (q : Nat) (o : TileOp) : Column :=
  match o.insn with
  | .mma f | .mmab f | .mmas f => k.deliverTile o (o.tiles.headD 0) (o.product k f)
  | .mclr _ => o.tiles.foldl (fun k t => k.deliverTile o t zeroTile) k
  | .mlda _ => k.deliverTile o (o.tiles.headD 0) (o.loadRows k)
  | .mldb f =>
    if f.mode.getLsbD 1 then k
    else k.deliverBs o ((k.bsGangBase o.gang + o.boff.toNat) / 4) (o.spadLines k f)
  | .mdrain f => k.drained o f false (o.rows k f false)
  | .pjadj f => k.drained o f true (o.rows k f true)
  | _ => k.putQueue q (k.queue q)

/-- A queue's head leaves it: TILES falls (R317), and a stopped warp may be reported (R455). -/
def Dev.tileGone (d : Dev) (c slot : Nat) : Dev :=
  let d := d.modCol c (fun k => { k with busyEnd := d.now })
  (d.modWarp c slot (fun w => { w with tiles := w.tiles - 1 })).reportStop c slot

/-- A queue's head completes: its values are written, and what R263 and R319 leave undefined is. -/
def Dev.tileDone (d : Dev) (c q : Nat) (o : TileOp) : Dev :=
  let d := d.modCol c (fun k =>
    let k := k.putQueue q (k.queue q).tail
    (k.tileEffect q o).settle o)
  d.tileGone c o.slot

/-- X of R318. -/
def TileOp.x (o : TileOp) : Nat := if o.unit = .loader then 4 else 10

/-- A queue's head that has been refused its memory fails, and the queue moves on (R433, R449). -/
def Dev.tileFail (d : Dev) (c q : Nat) (o : TileOp) (kind : Nat) : Dev :=
  let d := d.modCol c (fun k => (k.putQueue q (k.queue q).tail).settle o)
  let d := d.recordCol c { kind := 0x0B, unit := 0x08, block := q, ctx := some o.ctx, slot := o.slot,
                            detail := (errWord 0x08 kind 2).setWidth 128 }
  d.tileGone c o.slot

/-- The next line of a memory-source MLDB read and written, or the operation held at it where it faults (R313, R433): other accesses fall between
the lines. -/
def State.mldbRun (s : State) (c q : Nat) (o : TileOp) (f : TFields) : Dev :=
  (s.trial c (.tile q) (fun s =>
    let (d, ln, bad) := s.memLines c o f (min 1 (TFields.bLines f - o.line)) o.line
    { s with dev := match bad with
      | none =>
        d.modCol c (fun k => k.modTile q 0 (fun o => { o with line := ln, wrote := if TFields.bLines f ≤ ln then some d.now else none }))
      | some (g, gran) =>
        let d := d.report c o.ctx gran g .mldb
        d.modCol c (fun k => k.modTile q 0 (fun o => { o with line := ln, held := some gran, started := none })) })).dev

/-- The completion of a queue's head, or, of a memory-source MLDB, its next B-line (R318). -/
def State.tileComplete (s : State) (c q : Nat) : Dev :=
  let d := s.dev
  let k := d.col c
  match k.queue q with
  | [] => d
  | o :: _ =>
    match o.started with
    | none => d
    | some t =>
      if q = 1 ∧ k.yieldPos = some 0 then d
      else if o.fromMem then
        match o.wrote, o.insn with
        | some w, _ => if w + 4 ≤ d.now then d.tileDone c q o else d
        | none, .mldb f => if t < d.now then s.mldbRun c q o f else d
        | none, _ => d
      else if t + o.busy k + o.x ≤ d.now + 1 then d.tileDone c q o
      else d

/-- The meaning of TILE_OP_COMPLETE (R318). -/
def execTileOpComplete (col queue : Nat) (s : State) : Host.Outcome State Fault Refusal :=
  .next { s with dev := s.tileComplete col queue }

end Sys2Proof.Machine
end

