-- ==== Sys2Proof/Machine/Engine.lean ====
section
/-! DEFINITION. What the engines beside the warps share: reads and writes at the home slices under a column's page table (R348, R207), a
host's and a peer's memory (R31), the end of what stops an engine (R433, R448), and completion times of an owner's work (R251). -/

namespace Sys2Proof.Machine

/-- Why an engine does not get past an access: a fault of a granule, which holds it (R433), or a failure with its code and detail
(R449). -/
inductive Stop where
  | fault (f : Flt) (gran : Nat)
  | fail (code detail : Nat)

/-- Bytes of one sector of column tc read at their home slice, translated by column c (R348): with the poison of each. -/
def State.engineRead (s : State) (c tc ctx off n : Nat) (priv : Bool) : Except Stop (List (Byte × Bool)) × Dev :=
  match s.translate c ctx off false priv with
  | (.error f, d) => (.error (.fault f (granOf off)), d)
  | (.ok e, d) =>
    let va := e.va off
    let d := { s with dev := d }.homeSector tc va e.zc
    let p := d.poisoned (vkey tc va)
    (.ok ((s.seen tc d.free va n).map (fun b => (b, p))), { d with free := d.free + 1 })

/-- Bytes of column tc read at their home slices, sector by sector. -/
def State.engineReads (s : State) (c tc ctx : Nat) (priv : Bool) : Nat → Nat → Nat → Except Stop (List (Byte × Bool)) × Dev
  | 0, _, _ => (.ok [], s.dev)
  | k + 1, off, n =>
    if n = 0 then (.ok [], s.dev)
    else
      let m := min n (32 - off % 32)
      match s.engineRead c tc ctx (off % 2 ^ 44) m priv with
      | (.error e, d) => (.error e, d)
      | (.ok bs, d) =>
        match State.engineReads { s with dev := d } c tc ctx priv k (off + m) (n - m) with
        | (.error e, d) => (.error e, d)
        | (.ok rest, d) => (.ok (bs ++ rest), d)

/-- Bytes of one sector of column tc written at their home slice, translated by column c (R348): watches tested (R298), a stable
page's write marked (R437). `clean` says that with this write the sector has been rewritten whole from unpoisoned bytes (R442). The answer is the
tick of global completion. -/
def State.engineWrite (s : State) (c tc ctx off : Nat) (priv : Bool) (bs : List (Byte × Bool)) (clean : Unit → Bool := fun _ => false) :
    Except Stop Nat × State :=
  match s.translate c ctx off true priv with
  | (.error f, d) => (.error (.fault f (granOf off)), { s with dev := d })
  | (.ok e, d) =>
    let a : LaneAcc :=
      { laneWant 0 tc off bs.length 0 with va := e.va off, cut := bs.length, pois := bs.map Prod.snd, zc := e.zc, stable := e.stable }
    let s := { s with dev := d }
    let s := if e.stable then s.stableMark c a ctx else s
    let (d, t) := ({ s with dev := s.dev.poisonSectors [a] }.ahead [(a, bs.map Prod.fst)]).writeLines [a]
    let s := { s with dev := if d.poisoned (vkey tc a.va) && clean () then d.setPois (vkey tc a.va) false else d }
    (.ok t, s.putLane a (bs.map Prod.fst))

/-- Bytes written at their home slices of column tc, sector by sector, with the latest completion time: what stands before an access that stops
the engine is written (R433). -/
def State.engineWrites (s : State) (c tc ctx : Nat) (priv : Bool) : Nat → Nat → List (Byte × Bool) → Except Stop Nat × State
  | 0, _, _ => (.ok 0, s)
  | k + 1, off, bs =>
    if bs.isEmpty then (.ok 0, s)
    else
      let m := 32 - off % 32
      match s.engineWrite c tc ctx (off % 2 ^ 44) priv (bs.take m) with
      | (.error e, s) => (.error e, s)
      | (.ok t, s) =>
        match State.engineWrites s c tc ctx priv k (off + m) (bs.drop m) with
        | (.error e, s) => (.error e, s)
        | (.ok u, s) => (.ok (max t u), s)

/-- The little-endian 64-bit words of a list of bytes. -/
def wordsOf (bs : List Byte) : Nat → List Nat
  | 0 => []
  | n + 1 => numOf (bs.take 8) :: wordsOf (bs.drop 8) n

/-! ## Owners -/

/-- The work of an owner completes at a tick with a reach: the warp's release times take it, or its tracker entry's (R70, R251). -/
def Dev.ownerTime (d : Dev) (o : Owner) (reach : BitVec 7) (t : Nat) : Dev :=
  match o with
  | .warp c s none => d.modWarp c s (fun w => { w with relTimes := timesWith w.relTimes reach t })
  | .warp c _ (some e) => d.modCol c (fun k => { k with tracker := k.tracker.map (fun x : Tracker =>
      if x.id = e then { x with times := timesWith x.times reach t } else x) })
  | .node _ _ _ => d

/-- The warp slot that an owner's work concerns (R460). -/
def Owner.slot (o : Owner) : Nat :=
  match o with
  | .warp _ s _ => s
  | .node _ _ _ => 0

/-- The record of a failed engine command (R461): its ERR and its completion-word pointer, and the slot of its warp. -/
def Dev.engineFailed (d : Dev) (c unit block ctx slot : Nat) (err : Word) (word : BitVec 64) : Dev :=
  d.recordCol c { kind := 0x0B, unit := unit, block := block, ctx := some ctx, slot := slot, detail := word ++ 0#32 ++ err }

/-- A node of a replay changed. -/
def Dev.modNode (d : Dev) (r j : Nat) (f : GNode → GNode) : Dev :=
  match d.replays.get? r with
  | some x => { d with replays := d.replays.set r { x with nodes := x.nodes.zipIdx.map (fun n => if n.2 = j then f n.1 else n.1) } }
  | none => d

/-- The work of a graph node is done, so that the node finishes from a tick on (R355). -/
def Dev.nodeReady (d : Dev) (o : Owner) (t : Nat) : Dev :=
  match o with
  | .node _ r j => d.modNode r j (fun n => { n with ready := some t })
  | _ => d

/-- A replay fails with a STATUS, unless it has failed before (R450). -/
def Dev.replayFails (d : Dev) (r status : Nat) : Dev :=
  match d.replays.get? r with
  | some x => { d with replays := d.replays.set r { x with failed := some (x.failed.getD status) } }
  | none => d

/-- A node fails with the ERR of its command or body: its replay starts no further node, the node itself is over, and the walker sends
a record (R450). -/
def Dev.nodeFails (d : Dev) (o : Owner) (status : Nat) (err : Word) : Dev :=
  match o with
  | .node _ r _ => match d.replays.get? r with
    | some x => ((d.nodeReady o d.now).replayFails r status).engineFailed x.home 0x23 0 x.ctx 0 err 0
    | none => d
  | _ => d

end Sys2Proof.Machine
end

