-- ==== Sys2Proof/Machine/Link.lean ====
section
/-! DEFINITION. The link layer of the fabric ports (R385-R387): the CRC of a flit, what a port sends and keeps for a retry, and what it
accepts. -/

namespace Sys2Proof.Machine

/-! ## The CRC -/

/-- One bit of CRC-64/WE (R386). -/
def crcBit (c : BitVec 64) : BitVec 64 := if c.getLsbD 63 then (c <<< 1) ^^^ 0x42F0E1EBA9EA3693#64 else c <<< 1

/-- One byte of CRC-64/WE, its most significant bit first (R386). -/
def crcByte (c : BitVec 64) (b : Byte) : BitVec 64 :=
  crcBit (crcBit (crcBit (crcBit (crcBit (crcBit (crcBit (crcBit (c ^^^ (b.setWidth 64 <<< 56)))))))))

/-- CRC-64/WE of bytes in ascending order (R386). -/
def crc64 (bs : List Byte) : BitVec 64 := ~~~(bs.foldl crcByte (BitVec.allOnes 64))

/-- Bytes 0-247 of a flit (R386). -/
def flitBytes (f : Flit) : List Byte :=
  bytesOf 2 f.fseq.toNat ++ bytesOf 2 f.ack.toNat ++ [f.typ, f.cred, 0, 0] ++ (List.range 240).map (fun i => f.pay.getD i 0)

/-- A flit's CRC field is that of its bytes. -/
def flitOk (f : Flit) : Bool := f.crc == crc64 (flitBytes f)

/-- The 256 bytes of a flit on the link, its CRC from byte 248 on, least significant byte first (R386). -/
def flitWire (f : Flit) : List Byte := flitBytes f ++ bytesOf 8 f.crc.toNat

/-- The flit in 256 bytes of the link (R386). -/
def flitOfWire (bs : List Byte) : Flit :=
  let n (i k : Nat) : Nat := numOf ((bs.drop i).take k)
  { fseq := BitVec.ofNat 16 (n 0 2), ack := BitVec.ofNat 16 (n 2 2), typ := BitVec.ofNat 8 (n 4 1), cred := BitVec.ofNat 8 (n 5 1),
    pay := (bs.drop 8).take 240, crc := BitVec.ofNat 64 (n 248 8) }

/-- 256 bytes of the link pass their CRC (R386). -/
def wireOk (bs : List Byte) : Bool := bs.length == 256 && numOf (bs.drop 248) == (crc64 (bs.take 248)).toNat

/-! ## Ports -/

/-- A port before its first flit: the first number of a direction is 0. DESIGN CHOICE (log 18). -/
def Port.start : Port :=
  { txSeq := 0xFFFF, rxSeq := 0xFFFF, buffer := [], queue := [], sent := [], delivered := [], retryReq := false, failing := none, credits := 0,
    lanes := Vector.replicate 8 { margin := 0, retry := 0, corr := 0 } }

/-- A port, by its number. -/
def Dev.port (d : Dev) (i : Nat) : Port := d.ports.getD i Port.start

/-- A port changed. -/
def Dev.modPort (d : Dev) (i : Nat) (f : Port → Port) : Dev := { d with ports := d.ports.set i (f (d.port i)) }

/-- The port that traffic takes: the lowest that is ready (R392). -/
def Dev.route (d : Dev) : Option Nat := (List.range 24).find? (fun i => d.ready.contains (.port i))

/-- A port is ready. -/
def Dev.portOpen (d : Dev) (i : Nat) : Bool := decide (i < 24) && d.ready.contains (.port i)

/-- Some port is ready. -/
def Dev.linked (d : Dev) : Bool := d.route.isSome

/-- A flit that a port sends next, with its acknowledgement, the credits that it returns, which are a free value (log 7), and its CRC
(R386). -/
def Port.nextFlit (p : Port) (typ : BitVec 8) (pay : List Byte) : Flit :=
  let f : Flit := { fseq := p.txSeq + 1, ack := p.rxSeq, typ := typ, cred := Config.flitCred p.sent.length, pay := pay, crc := 0 }
  { f with crc := crc64 (flitBytes f) }

/-- A flit sent, and kept in the retry buffer until it is acknowledged (R387). -/
def Port.emit (p : Port) (typ : BitVec 8) (pay : List Byte) : Port :=
  let f := p.nextFlit typ pay
  { p with txSeq := p.txSeq + 1, buffer := p.buffer ++ [f], sent := p.sent ++ [f] }

/-- What a port has to send: it waits while the retry buffer holds 512 flits (R387). -/
def Port.put (p : Port) (typ : BitVec 8) (pay : List Byte) : Port :=
  if 512 ≤ p.buffer.length ∨ p.queue ≠ [] then { p with queue := p.queue ++ [(typ, pay)] } else p.emit typ pay

/-- Waiting flits sent while the retry buffer has room. -/
def Port.drain : List (BitVec 8 × List Byte) → Port → Port
  | [], p => { p with queue := [] }
  | x :: xs, p => if 512 ≤ p.buffer.length then { p with queue := x :: xs } else Port.drain xs (p.emit x.1 x.2)

/-- What leaves for the fabric (R388, R389): the transaction, and a flit of it at a port. -/
def Dev.send (d : Dev) (r : Reply) (typ : BitVec 8) : Dev :=
  let d : Dev := { d with replies := d.replies ++ [r] }
  match d.route with
  | none => d
  | some i => { d.modPort i (fun p => p.put typ (Config.flitPay d.free)) with free := d.free + 1 }

/-- The flits up to an acknowledged number leave the retry buffer (R387): those that still wait are the ones numbered after it. Retries of the
port have then not failed, and flits that waited for room are sent. -/
def Port.acked (p : Port) (ack : BitVec 16) : Port :=
  if p.buffer.any (fun f => f.fseq == ack) then
    let p : Port := { p with buffer := (p.buffer.dropWhile (fun f => f.fseq != ack)).drop 1, failing := none }
    p.drain p.queue
  else p

/-- Retries fail from now on, unless they have before. -/
def Port.fails (p : Port) (now : Nat) : Port := { p with failing := some (p.failing.getD now) }

/-- A retry request (R387): the port sends again from its first unacknowledged flit, in order. -/
def Port.retry (p : Port) (now : Nat) (ack : BitVec 16) : Port :=
  let p := p.acked ack
  if p.buffer.isEmpty then p else ({ p with sent := p.sent ++ p.buffer } : Port).fails now

/-- A flit received in order without error (R387): its credits are counted, it is delivered, a retry request is served. -/
def Port.take (p : Port) (now : Nat) (f : Flit) : Port :=
  let p := p.acked f.ack
  let p : Port := { p with rxSeq := f.fseq, retryReq := false, failing := if p.retryReq then none else p.failing, credits := p.credits + f.cred.toNat }
  if f.typ = 3 then p.retry now f.ack
  else if f.typ = 1 ∨ f.typ = 2 then { p with delivered := p.delivered ++ [f] }
  else p

/-- A flit dropped at a port (R387, R463): a retry request, a flit of TYPE 3 without payload, goes out, counted on the lane whose error correction
failed, which is a free choice (log 7). -/
def Dev.dropFlit (d : Dev) (i : Nat) : Dev :=
  let (w, d) := d.draw
  let l := w.toNat % 8
  let old := ((d.port i).lanes.toList.getD l { margin := 0, retry := 0, corr := 0 }).retry
  let d := d.modPort i (fun p => { (p.put 3 []).fails d.now with
    retryReq := true, lanes := Vector.ofFn (fun k => if k.val = l then { p.lanes[k] with retry := satNext old 16 } else p.lanes[k]) })
  d.reaches none 0 0x20 (8 * i + l) 1 old (satNext old 16)

/-- The meaning of FLIT_RECEIVE (R386, R387). -/
def execFlitReceive (port : Nat) (wire : List Byte) (s : State) : Host.Outcome State Fault Refusal :=
  let d := s.dev
  let flit := flitOfWire wire
  if !d.ready.contains (.port port) then .next s
  else if wireOk wire && flit.fseq == (d.port port).rxSeq + 1 then .next { s with dev := d.modPort port (fun p => p.take d.now flit) }
  else .next { s with dev := d.dropFlit port }

/-- The meaning of RETRY_REQUEST_RECEIVE (R387). -/
def execRetryRequestReceive (port : Nat) (ack : BitVec 16) (s : State) : Host.Outcome State Fault Refusal :=
  if !s.dev.ready.contains (.port port) then .next s
  else .next { s with dev := s.dev.modPort port (fun p => p.retry s.dev.now ack) }

/-- The margins of a training, by lane (R463), with a record for each one below its threshold (R464). -/
def Dev.trained (d : Dev) (i : Nat) (margins : List Nat) : Dev :=
  let m (l : Nat) : Nat := min (margins.getD l 0) 255
  let d := d.modPort i (fun p => { p with lanes := Vector.ofFn (fun k => { p.lanes[k] with margin := m k.val }) })
  ((List.range 8).filter (fun l => decide (m l < Config.threshold 0))).foldl (fun (d : Dev) l =>
    d.record 0 { kind := 0x12, unit := 0x20, block := 8 * i + l, detail := BitVec.ofNat 128 (m l * 2 ^ 32) }) d

/-- The meaning of PORT_TRAINED (R385, R391). -/
def execPortTrained (port : Nat) (margins : List Nat) (s : State) : Host.Outcome State Fault Refusal :=
  if 24 ≤ port ∨ s.dev.ready.contains (.port port) then .next s
  else .next { s with dev := (s.dev.setReady (.port port) true).trained port margins }

/-- The retries of a port have failed for 1 ms, 1,050,000 ticks (R387). -/
def Port.lost (p : Port) (now : Nat) : Bool :=
  match p.failing with
  | some t => decide (t + 1050000 ≤ now)
  | none => false

/-- The meaning of PORT_RETRAIN (R387, R461, R463): a port whose retries have failed for 1 ms retrains, with new margins; its flits that wait are sent
again after the retraining. The record's margin is that of the lane which its BLOCK names, lane 0 (DESIGN CHOICE, log 136). A port that fails to retrain (no margins) is
lost. -/
def execPortRetrain (port : Nat) (margins : Option (List Nat)) (s : State) : Host.Outcome State Fault Refusal :=
  let d := s.dev
  if !d.ready.contains (.port port) || !(d.port port).lost d.now then .next s
  else match margins with
    | some ms =>
      let d := (d.modPort port (fun p => { p with sent := p.sent ++ p.buffer, retryReq := false, failing := none })).trained port ms
      let m := ((d.port port).lanes.toList.headD { margin := 0, retry := 0, corr := 0 }).margin
      .next { s with dev := d.record 0 { kind := 0x10, unit := 0x20, block := 8 * port, detail := BitVec.ofNat 128 (port + m * 2 ^ 32) } }
    | none =>
      let d := d.record 0 { kind := 0x11, unit := 0x20, block := 8 * port, detail := BitVec.ofNat 128 port }
      .next { s with dev := d.setReady (.port port) false }

end Sys2Proof.Machine
end

