-- ==== Sys2Proof/Machine/Copy.lean ====
section
/-! DEFINITION. Copy commands (R344-R350): CPY and its checks, the moving of bytes and elements (R345, R348, R442, R446), and the
completion of a copy (R347, R349, R448). -/

namespace Sys2Proof.Machine

/-! ## The descriptor -/

/-- A descriptor from its eight words (R344). -/
def CopyDesc.ofWords (w : Nat → Word) : CopyDesc := { src := w 1 ++ w 0, dst := w 3 ++ w 2, len := w 4, ctl := w 5, cw := w 7 ++ w 6 }

/-- SOBJ of a tensor form (R344). -/
def CopyDesc.sobj (x : CopyDesc) : Nat := (x.len.extractLsb' 0 16).toNat
/-- DOBJ of a tensor form (R344). -/
def CopyDesc.dobj (x : CopyDesc) : Nat := (x.len.extractLsb' 16 16).toNat

/-- Every field and code of R344 is one that it assigns. -/
def CopyDesc.legal (x : CopyDesc) : Bool :=
  decide (x.ctl.toNat < 2 ^ 14) && decide (x.ck ≤ 1) && decide (x.dk ≤ 2) && decide (x.sk ≤ 1) && decide (x.form ≤ 2) &&
    (if x.ck = 0 then x.barn == 0 else x.cw == 0)

/-- A memory pointer of a copy (R29): self, a logical column of the partition, the host window or a peer. -/
def Dev.copySel (d : Dev) (ctx : Nat) (p : BitVec 64) : Bool :=
  let s := ptrSel p
  ptrRsv p == 0 && (s == 0x7FF || d.inPart ctx s || decide (0x400 ≤ s ∧ s ≤ 0x5FF))

/-- A scratchpad or B-SRAM pointer (R344). -/
def localPtr (p : BitVec 64) : Bool := ptrRsv p == 0 && ptrSel p == 0x7FF && decide (ptrOff p < 2 ^ 32)

/-- A side's pointer under its kind (R344); a reserved kind has no rule for its pointer, and is refused as a reserved code (R346). -/
def Dev.sideSel (d : Dev) (ctx kind most : Nat) (p : BitVec 64) : Bool :=
  if kind = 0 then d.copySel ctx p else decide (most < kind) || localPtr p

/-- The selectors of a copy: its two sides, and its completion word on a column of the partition (R344). -/
def Dev.copySels (d : Dev) (ctx : Nat) (x : CopyDesc) : Bool × Bool × Bool :=
  (d.sideSel ctx x.sk 1 x.src, d.sideSel ctx x.dk 2 x.dst,
   x.ck != 0 || (ptrRsv x.cw == 0 && (ptrSel x.cw == 0x7FF || d.inPart ctx (ptrSel x.cw))))

/-! ## Tensor forms -/

/-- The extents of the box that a record gives (R345): P along its split dimension unless it is replicated. -/
def TRec.box (r : TRec) : List Nat := (List.range 5).map (fun i => if i < r.rank then r.reachExt i else 1)

/-- The box of a copy (R345): of the destination, or, transposing, of the source. -/
def copyBox (x : CopyDesc) (s t : TRec) : List Nat := if x.form = 2 then s.box else t.box

/-- The indices of element j of a box, dimension 0 fastest. -/
def boxIndex : List Nat → Nat → List Nat
  | [], _ => []
  | e :: es, j => j % e :: boxIndex es (j / e)

/-- The elements of a box. -/
def boxSize (b : List Nat) : Nat := b.foldl (· * ·) 1

/-- The source and destination indices of element j (R345). -/
def copyIndex (x : CopyDesc) (box : List Nat) (j : Nat) : List Nat × List Nat :=
  let i := boxIndex box j
  (i, if x.form = 2 then [i.getD 1 0, i.getD 0 0, 0, 0, 0] else i)

/-- The bit address of an element with BASE moved by a pointer's offset (R345). -/
def TRec.bitFrom (r : TRec) (off : Nat) (i : List Nat) : Nat := off * 8 + r.bitAddr i

/-- The end of a box in a record with BASE moved: one past its last byte. -/
def TRec.boxEnd (r : TRec) (off : Nat) (box : List Nat) : Nat :=
  (r.bitFrom off (box.map (fun e => e - 1)) + memBits r.fmt + 7) / 8

/-- The column that a pointer names where column c dereferences it. -/
def colOf (c : Nat) (p : BitVec 64) : Nat := if ptrSel p = 0x7FF then c else ptrSel p

/-- A copy of column c may use a record for the side of a pointer (R48): it holds the tensor, or it crosses to a column that does. -/
def TRec.serves (r : TRec) (c kind : Nat) (p : BitVec 64) : Bool := r.onColumn c || (kind == 0 && r.onColumn (colOf c p))

/-- SOBJ of a copy of column c has its right and its column (R345, R48). -/
def copySrcOk (c : Nat) (x : CopyDesc) (s : TRec) : Bool := s.cp && s.grp == 0 && s.serves c x.sk x.src

/-- DOBJ of a copy of column c has its rights and its column (R345, R48). -/
def copyDstOk (c : Nat) (x : CopyDesc) (t : TRec) : Bool := t.cp && t.grp == 0 && (x.dk != 2 || t.mb) && t.serves c x.dk x.dst

/-- The records of a tensor or transposing copy fit each other (R345). -/
def copyRecords (c : Nat) (x : CopyDesc) (s t : TRec) : Bool :=
  copySrcOk c x s && copyDstOk c x t && s.fmt == t.fmt &&
    (x.form != 2 || (s.rank == 2 && t.rank == 2 && t.ext.getD 0 0 == s.ext.getD 1 0 && t.ext.getD 1 0 == s.ext.getD 0 0))

/-- The box in the destination's own dimensions. -/
def dstBox (x : CopyDesc) (box : List Nat) : List Nat := if x.form = 2 then [box.getD 1 1, box.getD 0 1, 1, 1, 1] else box

/-! ## CPY -/

/-- The end of a side's range of bytes, in the linear and the tensor forms. -/
def copyEnd (x : CopyDesc) (dst : Bool) (recs : Option (TRec × TRec)) : Nat :=
  let p := if dst then x.dst else x.src
  match recs with
  | none => ptrOff p + x.len.toNat
  | some (s, t) =>
    let box := copyBox x s t
    if dst then t.boxEnd (ptrOff p) (dstBox x box) else s.boxEnd (ptrOff p) box

/-- The range checks of a copy's scratchpad and B-SRAM sides, and its barrier (R346, R60); a side of a reserved kind has no range. -/
def copyBounds (k : Column) (x : CopyDesc) (recs : Option (TRec × TRec)) : List (Option TrapInfo) :=
  let known := x.form == 0 || recs.isSome
  let side (kind : Nat) (dst : Bool) : Option TrapInfo :=
    if kind = 0 || !known then none
    else
      let e := copyEnd x dst recs
      if kind = 1 then spadRange k e 0 else if dst && kind == 2 then bsRange k e 0 else none
  [side x.sk false, side x.dk true,
   if x.ck = 1 then check (decide (x.barn < k.barCount)) { cause := 0x12, einfo := einfoB x.barn k.barCount } else none]

/-- The command that a CPY starts. -/
def Dev.copyCmd (d : Dev) (x : CopyDesc) (s t : Option TRec) : CopyCmd :=
  { id := d.curCol.nextOp, owner := .warp d.cur.col d.cur.slot none, ctx := d.curWarp.ctx, gang := d.curWarp.gang,
    launch := d.curWarp.launch, priv := d.cur.priv, desc := x, srec := s, drec := t, stage := 1, pos := 0, time := 0, err := 0,
    late := false, held := none }

/-- A copy command enters a column's engine, and CPYS of its warp rises (R347). -/
def Dev.startCopy (d : Dev) (x : CopyCmd) : Dev :=
  let d := d.modCurCol (fun k => { k with copies := k.copies ++ [x], nextOp := k.nextOp + 1 })
  d.modCurWarp (fun w => { w with copies := w.copies + 1 })

/-- CPY (R346, R347). -/
def cpyIssue (f : VFields) (s : State) : Issue :=
  let d := s.dev
  d.whole f.h (fun _ =>
    let va := f.a.reg.toNat
    let us := (List.range 8).map (fun i => Use.ptr (rangeSrc d.seen 1 f.a i))
    let rs := (List.range 8).map (fun i => va + i)
    if d.curCol.busy d.cur.slot rs then .hold (d.holdRegs rs)
    else match firstTrap ([rangeBound d.curCol.regions.regs va 8] ++ us.map (fun u => u.src.uniCheck) ++ us.map Use.tagCheck) with
    | some t => .trap t
    | none =>
      let x := CopyDesc.ofWords (fun i => (rangeSrc d.seen 1 f.a i).uni)
      let tensor := x.form == 1 || x.form == 2
      s.withRecord (if tensor then x.sobj else 0) .copy (fun d a =>
        { s with dev := d }.withRecord (if tensor then x.dobj else 0) .copy (fun d b =>
          let recs := match a, b with
            | some (some p), some (some q) => some (p, q)
            | _, _ => none
          let sel := d.copySels d.curWarp.ctx x
          let e := d.curWarp.e
          let pt (ok : Bool) (p : BitVec 64) (t : TrapInfo) : Option TrapInfo :=
            check ok { t with einfo := einfoA p (Mask.first e), emask := e }
          let good := match recs with
            | some (p, q) => copyRecords d.cur.col x p q
            | none => false
          let culprit := match a with
            | some (some p) => if copySrcOk d.cur.col x p then x.dobj else x.sobj
            | _ => x.sobj
          match firstTrap (copyBounds d.curCol x recs ++
              [pt sel.1 x.src { cause := 0x13 }, pt sel.2.1 x.dst { cause := 0x13 }, pt sel.2.2 x.cw { cause := 0x13 },
               check (!tensor || good) { cause := 0x15, einfo := einfoRec culprit x.src, emask := e },
               pt (x.ck != 0 || ptrOff x.cw % 8 == 0) x.cw { cause := 0x14 }, check x.legal { cause := 0x03 }] ++
              us.map (fun u : Use => u.src.poisCheck Mask.all)) with
          | some t => .trap t
          | none => d.afterAcquire (fun _ =>
            if 16 ≤ d.curCol.copies.length ∨ 63 ≤ d.curWarp.copies then .hold d
            else .retire (d.startCopy (d.copyCmd x (recs.map Prod.fst) (recs.map Prod.snd))).advance))))

/-- The meaning of CPY. -/
def execCpy (f : VFields) (s : State) : Host.Outcome State Fault Refusal := s.conclude ((cpyIssue f s).hinted f.hint)

/-! ## Moving bytes -/

/-- A byte of the scratchpad or the B-SRAM, from its words. -/
def byteOf (w : Word × Bool) (i : Nat) : Byte × Bool := (w.1.extractLsb' (8 * (i % 4)) 8, w.2)

/-- A failure of a fabric access (R29, R31, R449): a port of the device, or 0xFF for none. -/
def Dev.fabricStop (d : Dev) : Stop × Dev :=
  let (w, d) := d.draw
  let p := w.toNat % 25
  (.fail 3 (if p = 24 then 0xFF else p), d)

/-- A context's peer-table entry for peer p (R31). -/
def State.peerEntry (s : State) (c ctx p : Nat) : Nat :=
  s.vault.num (vkey c (bitsOf (s.dev.ctx ctx).peerTab.toNat 23 0 * 256 + 8 * (p - 1))) 8

/-- A context's peer-table entry is usable: V is set and the reserved bits are 0 (R31). -/
def State.peerOk (s : State) (c ctx p : Nat) : Bool := bitsOf (s.peerEntry c ctx p) 63 63 == 1 && bitsOf (s.peerEntry c ctx p) 62 24 == 0

/-- The peer's node, which the transaction layer carries as the destination (R31). -/
def State.peerNode (s : State) (c ctx p : Nat) : Nat := bitsOf (s.peerEntry c ctx p) 23 0

/-- The peer's fabric address of an offset (R31). -/
def peerAddr (a : Nat) : Nat := 0x0040000000000000 + bitsOf a 43 34 * 2 ^ 44 + a % 2 ^ 34

/-- n bytes from outside the device: free (R31). -/
def Dev.outside (d : Dev) : Nat → List (Byte × Bool) × Dev
  | 0 => ([], d)
  | n + 1 =>
    let (w, d) := d.draw
    let (bs, d) := Dev.outside d n
    ((w.extractLsb' 0 8, false) :: bs, d)

/-- Bytes of a copy's source from address a on (R344, R348): n of them, within one sector of a column's memory. -/
def State.copyRead (s : State) (c : Nat) (x : CopyCmd) (a n : Nat) : Except Stop (List (Byte × Bool)) × Dev :=
  let k := s.dev.col c
  if x.desc.sk = 1 then
    (.ok ((List.range n).map (fun i => byteOf (k.poolWord x.ctx ((k.spadBase x.gang + a + i) / 4)) (k.spadBase x.gang + a + i))), s.dev)
  else
    let sel := ptrSel x.desc.src
    if 0x400 ≤ sel ∧ sel ≤ 0x5FF then
      let (b, d) := s.dev.choose
      if b || !s.dev.linked || (sel != 0x400 && !s.peerOk c x.ctx (sel - 0x400)) then
        let (e, d) := d.fabricStop
        (.error e, d)
      else
        let d := d.send (if sel = 0x400 then .hostRead (a % 2 ^ 44) n else .peerRead (s.peerNode c x.ctx (sel - 0x400)) (peerAddr a) n) 1
        let (bs, d) := d.outside n
        (.ok bs, d)
    else s.engineRead c (colOf c x.desc.src) x.ctx (a % 2 ^ 44) n x.priv

/-- The bytes of a granule of poison at a copy's destination (R440, R442). -/
def CopyCmd.grain (x : CopyCmd) : Nat := if x.desc.dk = 0 then 32 else 4

/-- The bits of a copy's destination that its first n bytes or elements fill take in all of a granule. -/
def CopyCmd.covers (x : CopyCmd) (n g : Nat) : Bool :=
  let lo := g * x.grain
  match x.desc.form, x.srec, x.drec with
  | 0, _, _ | _, none, _ | _, _, none => decide (ptrOff x.desc.dst ≤ lo) && decide (lo + x.grain ≤ ptrOff x.desc.dst + n)
  | _, some p, some q =>
    let box := copyBox x.desc p q
    (List.range (8 * x.grain)).all (fun b => (List.range n).any (fun m =>
      let o := q.bitFrom (ptrOff x.desc.dst) (copyIndex x.desc box m).2
      decide (o ≤ 8 * lo + b) && decide (8 * lo + b < o + memBits q.fmt)))

/-- With a write of a granule, after which n bytes or elements have been moved, the copy has rewritten the granule whole from unpoisoned bytes
(R442; log 132). -/
def CopyCmd.cleans (x : CopyCmd) (n a : Nat) (bs : List (Byte × Bool)) : Bool :=
  !bs.any Prod.snd && !x.tainted.contains (a / x.grain) && x.covers n (a / x.grain)

/-- The copy has brought poison to the granules that poisoned bytes reach. -/
def CopyCmd.taint (x : CopyCmd) (a : Nat) (bs : List (Byte × Bool)) : CopyCmd :=
  let gs := (bs.zipIdx.filter (fun b => b.1.2)).map (fun b => (a + b.2) / x.grain)
  if gs.isEmpty then x else { x with tainted := (x.tainted ++ gs).eraseDups }

/-- Bytes from an address on in pieces of one granule each. -/
def granules (g : Nat) : Nat → Nat → List (Byte × Bool) → List (Nat × List (Byte × Bool))
  | 0, _, _ => []
  | n + 1, a, bs => if bs.isEmpty then [] else (a, bs.take (g - a % g)) :: granules g n (a + (g - a % g)) (bs.drop (g - a % g))

/-- A copy's bytes of one word written in the issuing gang's scratchpad or B-SRAM, the word poisoned where a byte of it is (R442). -/
def Column.copyWord (k : Column) (x : CopyCmd) (n a : Nat) (bs : List (Byte × Bool)) : Column :=
  let pois := bs.any Prod.snd
  let vs := bs.map Prod.fst
  if x.desc.dk = 1 then
    let at_ := k.spadBase x.gang + a
    let k := (k.putPoolBytes x.ctx pois at_ vs).touched at_ (at_ + bs.length)
    if (k.poolWord x.ctx (at_ / 4)).2 && x.cleans n a bs then { k with pool := cleanWord k.pool (at_ / 4) } else k
  else
    let at_ := k.bsGangBase x.gang + a
    let k := k.putBsBytes x.ctx pois at_ vs
    if (k.bsWord x.ctx (at_ / 4)).2 && x.cleans n a bs then { k with bsram := cleanWord k.bsram (at_ / 4) } else k

/-- Bytes of a copy's destination from address a on, within one sector of a column's memory, with which n bytes or elements in all are moved: the
completion time, and the state. -/
def State.copyWrite (s : State) (c : Nat) (x : CopyCmd) (n a : Nat) (bs : List (Byte × Bool)) : Except Stop Nat × State :=
  let d := s.dev
  if x.desc.dk = 1 ∨ x.desc.dk = 2 then
    (.ok d.now, { s with dev := d.modCol c (fun k =>
      (granules 4 (bs.length + 1) a bs).foldl (fun (k : Column) p => k.copyWord x n p.1 p.2) k) })
  else
    let sel := ptrSel x.desc.dst
    if 0x400 ≤ sel ∧ sel ≤ 0x5FF then
      if bs.any Prod.snd then (.error (.fail 1 0), s)
      else
        let (b, d) := d.choose
        if b || !s.dev.linked || (sel != 0x400 && !s.peerOk c x.ctx (sel - 0x400)) then
          let (e, d) := d.fabricStop
          (.error e, { s with dev := d })
        else
          let r := if sel = 0x400 then Reply.hostWrite (a % 2 ^ 44) (bs.map Prod.fst)
            else Reply.peerWrite (s.peerNode c x.ctx (sel - 0x400)) (peerAddr a) (bs.map Prod.fst)
          (.ok d.now, { s with dev := d.send r 1 })
    else s.engineWrite c (colOf c x.desc.dst) x.ctx (a % 2 ^ 44) x.priv bs (fun _ => x.cleans n a bs)

/-- Both sides of a copy name one storage. -/
def CopyDesc.oneSpace (x : CopyDesc) (c : Nat) : Bool :=
  x.sk == x.dk && x.sk != 2 && (x.sk == 1 || (colOf c x.src == colOf c x.dst && !(decide (0x400 ≤ ptrSel x.src) && ptrSel x.src != 0x7FF)))

/-- Bytes that are also source bytes of the same copy are undefined (R347). -/
def Dev.blur (d : Dev) (own : Nat → Bool) : Nat → List (Byte × Bool) → List (Byte × Bool) × Dev
  | _, [] => ([], d)
  | a, b :: bs =>
    if own a then
      let (w, d) := d.draw
      let (rest, d) := Dev.blur d own (a + 1) bs
      ((w.extractLsb' 0 8, false) :: rest, d)
    else
      let (rest, d) := Dev.blur d own (a + 1) bs
      (b :: rest, d)

/-- A state with what a copy's read or write left, and the stop if there was one. -/
def stopped (s : State) (x : CopyCmd) (e : Stop) (d : Dev) : State × CopyCmd × Option Stop := ({ s with dev := d }, x, some e)

/-- Linear bytes moved, at most n more steps of one sector each, up to byte `lim` (R345). -/
def State.linearMove (s : State) (c lim : Nat) : Nat → CopyCmd → State × CopyCmd × Option Stop
  | 0, x => (s, x, none)
  | n + 1, x =>
    if lim ≤ x.pos then (s, x, none)
    else
      let a := ptrOff x.desc.src + x.pos
      let b := ptrOff x.desc.dst + x.pos
      let m := min (lim - x.pos) (min (32 - a % 32) (32 - b % 32))
      match s.copyRead c x a m with
      | (.error e, d) => stopped s x e d
      | (.ok bs, d) =>
        let lo := ptrOff x.desc.src
        let (bs, d) := if x.desc.oneSpace c then d.blur (fun a => decide (lo ≤ a) && decide (a < lo + x.desc.len.toNat)) b bs else (bs, d)
        match { s with dev := d }.copyWrite c x (x.pos + m) b bs with
        | (.error e, s) => (s, x, some e)
        | (.ok t, s) => State.linearMove s c lim n { x.taint b bs with pos := x.pos + m, time := max x.time t }

/-- Bytes read one by one. -/
def State.copyReads (s : State) (c : Nat) (x : CopyCmd) : Nat → Nat → Except Stop (List (Byte × Bool)) × Dev
  | _, 0 => (.ok [], s.dev)
  | a, n + 1 =>
    match s.copyRead c x a 1 with
    | (.error e, d) => (.error e, d)
    | (.ok bs, d) =>
      match State.copyReads { s with dev := d } c x (a + 1) n with
      | (.error e, d) => (.error e, d)
      | (.ok rest, d) => (.ok (bs ++ rest), d)

/-- The bytes of an element written one by one: the state, the command with the bytes that a stop keeps from being written, and the stop (R433). -/
def State.copyWrites (s : State) (c : Nat) (x : CopyCmd) : Nat → List (Byte × Bool) → State × CopyCmd × Option Stop
  | _, [] => (s, { x with rest := [] }, none)
  | a, b :: bs =>
    match s.copyWrite c x (x.pos + 1) a [b] with
    | (.error e, s) => (s, { x with rest := b :: bs }, some e)
    | (.ok t, s) => State.copyWrites s c { x.taint a [b] with time := max x.time t } (a + 1) bs

/-- A byte of a copy's destination as it stands, for an element that fills only some of its bits. -/
def State.dstByte (s : State) (c : Nat) (x : CopyCmd) (a : Nat) : Except Stop (List (Byte × Bool)) × Dev :=
  let y : CopyCmd := { x with desc := { x.desc with src := x.desc.dst, ctl := if x.desc.dk = 1 then 4#32 else 0#32 } }
  if x.desc.dk = 2 then
    let k := s.dev.col c
    (.ok [byteOf (k.bsWord x.ctx ((k.bsGangBase x.gang + a) / 4)) (k.bsGangBase x.gang + a)], s.dev)
  else s.copyRead c y a 1

/-- An element under a record's range rule (R446): the code that is written, and whether it lay outside. -/
def elemRule (r : TRec) (code : Nat) (pois : Bool) : Nat × Bool :=
  match r.rule 0 with
  | none => (code, false)
  | some q =>
    let v := codeVal r.fmt code
    if pois || !q.outside v then (code, false) else (if q.act = 2 then q.clamp v else code, true)

/-- The byte of a destination with the bits [lo, hi) of an element's span replaced. -/
def mergeByte (old : Byte) (code first w i : Nat) : Byte :=
  BitVec.ofNat 8 ((List.range 8).foldl (fun v b =>
    let p := 8 * i + b
    let bit := if first ≤ p ∧ p < first + w then code / 2 ^ (p - first) % 2 else old.toNat / 2 ^ b % 2
    v + bit * 2 ^ b) 0)

/-- The old bytes of an element's span, each read only where the element fills it in part. -/
def State.oldBytes (s : State) (c : Nat) (x : CopyCmd) (bit w : Nat) : Nat → List (Nat) → Except Stop (List (Byte × Bool)) × Dev
  | _, [] => (.ok [], s.dev)
  | a, i :: is =>
    let whole := decide (bit ≤ 8 * i) && decide (8 * i + 8 ≤ bit + w)
    match if whole then (.ok [(0, false)], s.dev) else s.dstByte c x a with
    | (.error e, d) => (.error e, d)
    | (.ok b, d) =>
      match State.oldBytes { s with dev := d } c x bit w (a + 1) is with
      | (.error e, d) => (.error e, d)
      | (.ok rest, d) => (.ok (b ++ rest), d)

/-- The bytes of an element written, and the element counted with its last. -/
def State.putElem (s : State) (c : Nat) (x : CopyCmd) (a : Nat) (bs : List (Byte × Bool)) : State × CopyCmd × Option Stop :=
  match s.copyWrites c x a bs with
  | (s, x, none) => (s, { x with pos := x.pos + 1 }, none)
  | r => r

/-- One element moved, or the rest of it, from the byte at which a fault has held the copy (R345, R433, R446). -/
def State.moveElem (s : State) (c : Nat) (x : CopyCmd) (p q : TRec) (box : List Nat) : State × CopyCmd × Option Stop :=
  let (i, j) := copyIndex x.desc box x.pos
  let w := memBits p.fmt
  let sb := p.bitFrom (ptrOff x.desc.src) i
  let db := q.bitFrom (ptrOff x.desc.dst) j
  if !x.rest.isEmpty then s.putElem c x ((db + w + 7) / 8 - x.rest.length) x.rest
  else match s.copyReads c x (sb / 8) ((sb % 8 + w + 7) / 8) with
  | (.error e, d) => stopped s x e d
  | (.ok bs, d) =>
    let s := { s with dev := d }
    let pois := bs.any Prod.snd
    let raw := numOf (bs.map Prod.fst) / 2 ^ (sb % 8) % 2 ^ w
    let (code, out) := elemRule q raw pois
    let n := (db % 8 + w + 7) / 8
    match s.oldBytes c x (db % 8) w (db / 8) (List.range n) with
    | (.error e, d) => stopped s x e d
    | (.ok old, d) =>
      let new := old.zipIdx.map (fun b => (mergeByte b.1.1 code (db % 8) w b.2, pois || b.1.2))
      let own (a : Nat) : Bool := (List.range (boxSize box)).any (fun m =>
        let o := p.bitFrom (ptrOff x.desc.src) (copyIndex x.desc box m).1
        decide (o / 8 ≤ a) && decide (a ≤ (o + w - 1) / 8))
      let (new, d) := if x.desc.oneSpace c then d.blur own (db / 8) new else (new, d)
      let d := if out then d.outOfRange c x.launch x.ctx { slot := x.owner.slot }
          { lo := q.lo, hi := q.hi, act := q.ract, fmt := q.fmt, idx := x.desc.dobj } 1 (BitVec.ofNat 32 raw) else d
      { s with dev := d }.putElem c { x with late := x.late || (out && q.ract == 3) } (db / 8) new

/-- Elements moved, at most n more, up to element `lim` (R345). -/
def State.tensorMove (s : State) (c lim : Nat) (p q : TRec) (box : List Nat) : Nat → CopyCmd → State × CopyCmd × Option Stop
  | 0, x => (s, x, none)
  | n + 1, x =>
    if lim ≤ x.pos then (s, x, none)
    else
      match s.moveElem c x p q box with
      | (s, x, none) => State.tensorMove s c lim p q box n x
      | r => r

/-- What a copy moves in all: bytes or elements (R345). -/
def CopyCmd.total (x : CopyCmd) : Nat :=
  match x.srec, x.drec with
  | some p, some q => if x.desc.form = 0 then x.desc.len.toNat else boxSize (copyBox x.desc p q)
  | _, _ => x.desc.len.toNat

/-- Where a copy's next 4 KiB boundary lies (R88), in what it counts: bytes, or the elements of a format that come to 4,096 bytes. -/
def CopyCmd.boundary (x : CopyCmd) : Nat :=
  match x.srec with
  | some p => if x.desc.form = 0 then (x.pos / 4096 + 1) * 4096
    else ((x.pos * memBits p.fmt / 32768 + 1) * 32768 + memBits p.fmt - 1) / memBits p.fmt
  | none => (x.pos / 4096 + 1) * 4096

/-- One piece of a copy moved, up to its next 4 KiB boundary (R88). -/
def State.copyPiece (s : State) (c : Nat) (x : CopyCmd) : State × CopyCmd × Option Stop :=
  let lim := min x.total x.boundary
  match x.srec, x.drec with
  | some p, some q =>
    if x.desc.form = 0 then s.linearMove c lim 4096 x else s.tensorMove c lim p q (copyBox x.desc p q) 8193 x
  | _, _ => s.linearMove c lim 4096 x

/-- A copy command replaced. -/
def Column.setCopy (k : Column) (x : CopyCmd) : Column := { k with copies := k.copies.map (fun y => if y.id = x.id then x else y) }

/-- The copy command of a number. -/
def Column.copy? (k : Column) (id : Nat) : Option CopyCmd := k.copies.find? (fun x => x.id == id)

/-- A copy has failed with an ERR (R448). -/
def CopyCmd.fails (x : CopyCmd) (code detail : Nat) : CopyCmd := { x with stage := 2, err := errWord 0x14 detail code }

/-- A copy after some of its bytes were moved: complete with its last, failed, or held at a fault (R433, R446). -/
def State.afterPiece (s : State) (c : Nat) (x : CopyCmd) (e : Option Stop) : State :=
  match e with
  | none =>
    let x := if x.total ≤ x.pos then (if x.late then x.fails 7 0 else { x with stage := 2 }) else x
    { s with dev := s.dev.modCol c (fun k => k.setCopy x) }
  | some (.fail code detail) => { s with dev := s.dev.modCol c (fun k => k.setCopy (x.fails code detail)) }
  | some (.fault f g) =>
    { s with dev := (s.dev.report c x.ctx g f .copy).modCol c (fun k => k.setCopy { x with held := some g }) }

/-- The copy of a stopped warp, which completes before the stop is reported, in a halted column too (R94, R455). -/
def CopyCmd.urgent (x : CopyCmd) (k : Column) : Bool :=
  match x.owner with
  | .warp _ s none => (k.warp s).stopped
  | _ => false

/-- COPY_START: a queued copy starts where fewer than sixteen run, and a running one moves its next bytes (R345, R347, R348). A halted
column's copies stand at their boundary (R88). -/
def State.copyRun (s : State) (c id : Nat) : State :=
  let k := s.dev.col c
  match k.copy? id with
  | none => s
  | some x =>
    if (k.halted && !x.urgent k) || x.held.isSome then s
    else if x.stage = 0 then
      if 16 ≤ (k.copies.filter (fun y => y.stage != 0)).length then s
      else { s with dev := s.dev.modCol c (fun k => k.setCopy { x with stage := 1 }) }
    else if x.stage = 1 then
      s.trial c (.copy id) (fun s =>
        let (s, x, e) := s.copyPiece c x
        s.afterPiece c x e)
    else s

/-- The meaning of COPY_START (R345). -/
def execCopyStart (col op : Nat) (s : State) : Host.Outcome State Fault Refusal := .next (s.copyRun col op)

/-! ## Completion -/

/-- An engine arrives at a named barrier of a gang (R349): in a full phase it waits for the next. -/
def Column.engineArrive (k : Column) (gang b : Nat) : Column :=
  let x := k.bar gang b
  k.putBar gang b (if x.full then { x with engines := x.engines + 1 } else { x with arr := x.arr + 1 })

/-- A completion word updated for an engine command of column c (R349, R448): the state and its completion time, or the granule that does
not translate, reported. -/
def State.finishWord (s : State) (c ctx : Nat) (p : BitVec 64) (err : Option Word) : Except Nat (State × Nat) × Dev :=
  match s.wordDone c (colOf c p) ctx (ptrOff p) err with
  | (.ok r, d) => (.ok r, d)
  | (.error (f, g), d) => (.error g, d.report c ctx g f .copy)

/-- A copy leaves its engine: CPYS of its warp falls, its completion time is kept, its barrier arrival made (R347, R349). The record of a failed one
names its place among the engine's commands (R462). -/
def Dev.copyGone (d : Dev) (c : Nat) (x : CopyCmd) : Dev :=
  let block := ((d.col c).copies.filter (fun y => y.stage != 0)).findIdx (fun y => y.id == x.id)
  let d := d.modCol c (fun k =>
    let k : Column := { k with copies := k.copies.filter (fun y => y.id != x.id), busyEnd := d.now }
    if x.desc.ck = 1 then k.engineArrive x.gang x.desc.barn else k)
  let d := d.ownerTime x.owner x.desc.reach x.time
  let d := if x.err = 0 then d.nodeReady x.owner d.now else (d.engineFailed c 0x14 block x.ctx x.owner.slot x.err x.desc.cw).nodeFails x.owner 7 x.err
  match x.owner with
  | .warp _ s none => (d.modWarp c s (fun w => { w with copies := w.copies - 1 })).reportStop c s
  | _ => d

/-- COPY_COMPLETE: the completion word of a copy whose writes are made, and then its completion (R347, R349). -/
def State.copyEndRun (s : State) (c id : Nat) : State :=
  match (s.dev.col c).copy? id with
  | none => s
  | some x =>
    if x.stage = 2 ∧ x.held = none then
      if x.desc.ck = 0 then s.trial c (.copy id) (fun s =>
        match s.finishWord c x.ctx x.desc.cw (if x.err = 0 then none else some x.err) with
        | (.ok (s, t), _) => { s with dev := s.dev.modCol c (fun k => k.setCopy { x with stage := 3, time := max x.time t }) }
        | (.error g, d) => { s with dev := d.modCol c (fun k => k.setCopy { x with held := some g }) })
      else { s with dev := s.dev.modCol c (fun k => k.setCopy { x with stage := 3 }) }
    else if x.stage = 3 ∧ x.time ≤ s.dev.now then { s with dev := s.dev.copyGone c x }
    else s

/-- The meaning of COPY_COMPLETE (R347, R349). -/
def execCopyComplete (col op : Nat) (s : State) : Host.Outcome State Fault Refusal := .next (s.copyEndRun col op)

end Sys2Proof.Machine
end

