-- ==== Sys2Proof/Machine/Launch.lean ====
section
/-! DEFINITION. Launches (R52-R62, R80-R82): the launch record as the scheduler reads and checks it, the queues, the placement of groups, and
the end of a launch on a column and as a whole (R72). -/

namespace Sys2Proof.Machine

/-! ## The launch record -/

/-- A level descriptor's fields (R54). -/
def Level.ofQ (q : Nat) : Level := { scope := BitVec.ofNat 7 (bitsOf q 46 40), dom := BitVec.ofNat 4 (bitsOf q 35 32), ext := bitsOf q 31 0 }

/-- The fields of a launch record given as 32 words of 64 bits (R52). OBJBASE and ARGS are aligned, and R62 rejects no record for their
low bits: they count as zero (DESIGN CHOICE, log 58). -/
def LaunchRec.ofQs (q : Nat → Nat) : LaunchRec :=
  let n := bitsOf (q 3) 51 48
  { entry := BitVec.ofNat 48 (bitsOf (q 0) 47 0), objBase := bitsOf (q 1) 43 6 * 64, objLast := bitsOf (q 1) 63 48, regs := bitsOf (q 2) 8 0,
    spad := bitsOf (q 2) 39 24, acc := bitsOf (q 2) 47 42, l1min := bitsOf (q 2) 55 48, spawnw := bitsOf (q 2) 61 56,
    pwin := bitsOf (q 3) 16 0, prio := bitsOf (q 3) 35 30, fixsum := bitsOf (q 3) 36 36 == 1, partid := bitsOf (q 3) 47 40, nlev := n,
    seed := BitVec.ofNat 32 (q 4), fabidx := bitsOf (q 4) 47 32, args := bitsOf (q 5) 43 4 * 16,
    levels := (List.range n).map (fun i => Level.ofQ (q (6 + i))) }

/-- The reserved fields of a launch record are zero, descriptors from NLEV on included (R52, R54). -/
def launchClean (q : Nat → Nat) : Bool :=
  let n := bitsOf (q 3) 51 48
  bitsOf (q 0) 63 48 == 0 && bitsOf (q 1) 47 44 == 0 && bitsOf (q 2) 63 62 == 0 && bitsOf (q 2) 41 40 == 0 &&
    bitsOf (q 2) 23 9 == 0 && bitsOf (q 3) 63 52 == 0 && bitsOf (q 3) 39 37 == 0 && bitsOf (q 3) 29 17 == 0 && bitsOf (q 4) 63 48 == 0 &&
    bitsOf (q 5) 63 44 == 0 && (List.range 18).all (fun i => q (14 + i) == 0) &&
    (List.range 8).all (fun i => if i < n then bitsOf (q (6 + i)) 63 47 == 0 && bitsOf (q (6 + i)) 39 36 == 0 else q (6 + i) == 0)

/-- The domain codes of a record's levels. -/
def LaunchRec.doms (r : LaunchRec) : List Nat := r.levels.map (fun l => l.dom.toNat)

/-- The level bound to gang. -/
def LaunchRec.gangLevel (r : LaunchRec) : Nat := (r.doms.findIdx? (· == 3)).getD 0

/-- W: the EXT of the warp level (R56). -/
def LaunchRec.width (r : LaunchRec) : Nat := match r.levels[r.gangLevel + 1]? with
  | some l => l.ext
  | none => 0

/-- No level binds to a coarser domain than the one before it (R56). -/
def neverRises : List Nat → Bool
  | a :: b :: ds => decide (b ≤ a) && neverRises (b :: ds)
  | _ => true

/-- The levels below the warp level: at most a tile level and then a thread level, with the EXTs that R56 allows. -/
def lowerOk (ls : List Level) : Bool :=
  let tile (e : Nat) : Bool := [1, 2, 4, 8, 16].contains e
  match ls with
  | [] => true
  | [a] => (a.dom == 0 && a.ext == 32) || (a.dom == 1 && tile a.ext)
  | [a, b] => a.dom == 1 && tile a.ext && b.dom == 0 && b.ext * a.ext == 32
  | _ => false

/-- A hierarchy is well formed (R55, R56). The thread level that is left out counts in the product. -/
def LaunchRec.hierarchy (r : LaunchRec) : Bool :=
  let ds := r.doms
  let g := r.gangLevel
  let omitted := if ds.contains 0 then 1 else r.tileWidth
  decide (2 ≤ r.nlev) && decide (r.nlev ≤ 8) && ds.all (fun x => decide (x ≤ 10)) && neverRises ds && (ds.filter (· == 3)).length == 1 &&
    ds.getD (g + 1) 16 == 2 && (ds.take g).all (fun x => decide (4 ≤ x)) && !(ds.drop 1).contains 10 &&
    r.levels.all (fun l => l.ext != 0) && decide (1 ≤ r.width) && decide (r.width ≤ 48) && lowerOk (r.levels.drop (g + 2)) &&
    decide ((r.levels.map Level.ext).foldl (· * ·) omitted ≤ 2 ^ 40)

/-- A count of gang slots that fits a column (R59). -/
def LaunchRec.fits (r : LaunchRec) (n : Nat) : Bool :=
  let w := n * r.width + r.spawnw
  decide (w ≤ 48) && decide (n * r.acc ≤ 32) &&
    decide (w * r.regs * 128 + n * r.spad * 128 + n * r.acc * 16384 + r.l1min * 16384 ≤ 2097152)

/-- n of R59. -/
def LaunchRec.gangs (r : LaunchRec) : Nat := ((List.range 49).filter r.fits).getLastD 0

/-- REGS, SPAD, ACC, L1MIN, SPAWNW and PWIN lie in their ranges (R52, R43). -/
def LaunchRec.ranges (r : LaunchRec) : Bool :=
  decide (8 ≤ r.regs) && decide (r.regs ≤ 256) && r.regs % 8 == 0 && decide (r.spad ≤ 12288) && decide (r.acc ≤ 32) &&
    decide (1 ≤ r.l1min) && decide (r.l1min ≤ 64) && decide (r.spawnw ≤ 47) && r.pwin % 16 == 0 && decide (r.pwin ≤ 65536)

/-! ## The places of a group -/

/-- The columns of a domain's instance, one for a domain within a column. -/
def domSize (dom : Nat) : Nat := max 1 (domCols dom)

/-- Units of a level placed in their parents' instances (R81): coordinates from the group on, first column within the group's instance,
and columns. -/
def placeLevel (dom ext : Nat) (us : List (List Nat × Nat × Nat)) : List (List Nat × Nat × Nat) :=
  (us.map (fun u => (List.range ext).map (fun k =>
    if dom = 3 then (u.1 ++ [k], u.2.1 + k % u.2.2, 1)
    else if domSize dom < u.2.2 then (u.1 ++ [k], u.2.1 + k % (u.2.2 / domSize dom) * domSize dom, domSize dom)
    else (u.1 ++ [k], u.2.1, u.2.2)))).flatten

/-- The domain of a launch's placement groups (R81). -/
def LaunchRec.groupDom (r : LaunchRec) : Nat := r.doms.getD r.groupLevel 3

/-- The gangs of a placement group: their coordinates below the group level, and their columns within its instance (R81). -/
def LaunchRec.layout (r : LaunchRec) : List (List Nat × Nat) :=
  (((r.levels.take (r.gangLevel + 1)).drop (r.groupLevel + 1)).foldl (fun us l => placeLevel l.dom.toNat l.ext us)
    [([], 0, domSize r.groupDom)]).map (fun u => (u.1, u.2.1))

/-- The gangs that a group puts on a column of its instance. -/
def LaunchRec.load (r : LaunchRec) (off : Nat) : Nat := (r.layout.filter (fun u => u.2 == off)).length

/-- The placement rule of R81: the group's domain is no larger than the partition, and no column takes more gangs than n. -/
def LaunchRec.placeable (r : LaunchRec) (cols : Nat) : Bool :=
  let size := domSize r.groupDom
  let total := (((r.levels.take (r.gangLevel + 1)).drop (r.groupLevel + 1)).map Level.ext).foldl (· * ·) 1
  decide (size ≤ cols) && decide (total ≤ 48 * size) && (List.range size).all (fun c => decide (r.load c ≤ r.gangs))

/-- The placement groups of a launch (R81). -/
def LaunchRec.groups (r : LaunchRec) : Nat := match r.levels[r.groupLevel]? with
  | some l => l.ext
  | none => 1

/-! ## Acceptance -/

/-- What the scheduler's reading of a launch record gives (R62, R444). -/
inductive Accept where
  | taken (r : LaunchRec)
  | rejected
  | poisoned
  | held (f : Flt) (gran : Nat)

/-- The launch record at an offset of column c read and checked for partition p (R62). -/
def State.readLaunch (s : State) (c ctx p off : Nat) : Accept × Dev :=
  if off % 256 ≠ 0 then (.rejected, s.dev)
  else
    match s.engineReads c c ctx false 8 off 256 with
    | (.error (.fault f g), d) => (.held f g, d)
    | (.error (.fail _ _), d) => (.poisoned, d)
    | (.ok bs, d) =>
      let qs := wordsOf (bs.map Prod.fst) 32
      let q (i : Nat) : Nat := qs.getD i 0
      let r := LaunchRec.ofQs q
      if bs.any Prod.snd then (.poisoned, d)
      else if !launchClean q || !r.hierarchy || !r.ranges || r.gangs == 0 || r.partid != p || !r.placeable (d.part p).columns.length then
        (.rejected, d)
      else
        match { s with dev := d }.checkTarget c ctx false r.entry with
        | (.ok, d) => (.taken r, d)
        | (.refused, d) => (.rejected, d)
        | (.held f, d) => (.held f (granOf (pcLine r.entry)), d)

/-- A launch joins the queue of its priority (R80). -/
def Dev.queueLaunch (d : Dev) (ctx p : Nat) (r : LaunchRec) (o : Origin) : Dev :=
  let id := d.nextLaunch
  let l : Launch := { id := id, ctx := ctx, part := p, rec_ := r, origin := o, placed := 0, cols := [], ended := [] }
  let x := d.part p
  { d with launches := d.launches.set id l, nextLaunch := id + 1,
           parts := d.parts.set p { x with queues := x.queues.set r.prio (x.queues.getD r.prio [] ++ [id]) } }

/-! ## Placement -/

/-- The state of a launch's context. -/
def Dev.launchState (d : Dev) (id : Nat) : CtxState := match d.launches.get? id with
  | some l => (d.ctx l.ctx).state
  | none => .empty

/-- The contexts of a partition. -/
def Dev.ctxsOf (d : Dev) (p : Nat) : List Nat := (d.ctxs.filter (fun x => x.2.part == p)).map Prod.fst

/-- The resident context of a partition (R76). -/
def Dev.residentOf (d : Dev) (p : Nat) : Option Nat := (d.ctxsOf p).find? (fun c => (d.ctx c).state == .resident)

/-- The head launches of a partition's queues, highest priority first (R80). -/
def Partition.heads (p : Partition) : List Nat := ((List.range 64).reverse.map (fun q => (p.queues.getD q []).take 1)).flatten

/-- With no context resident, the empty context of the highest head becomes resident (R82). -/
def Dev.makeResident (d : Dev) (p : Nat) : Dev :=
  if (d.residentOf p).isSome then d
  else match (d.part p).heads with
    | h :: _ => match d.launches.get? h with
      | some l =>
        if (d.ctx l.ctx).state = .empty ∧ d.ctxs.has l.ctx then { d with ctxs := d.ctxs.set l.ctx { d.ctx l.ctx with state := .resident } } else d
      | none => d
    | [] => d

/-- The regions of a column set from a launch (R59). Where the L1's share of the pool changes, the L1 is empty (log 16). -/
def Column.bound (k : Column) (r : LaunchRec) : Column :=
  let n := r.gangs
  let reg := (n * r.width + r.spawnw) * r.regs * 128
  let acc := reg + n * r.spad * 128 + n * r.acc * 16384
  { k with poolReg := reg, poolSpad := reg + n * r.spad * 128, poolAcc := acc, l1 := if k.poolAcc = acc then k.l1 else [],
           regions := { n := n, w := r.width, regs := r.regs, spad := r.spad, acc := r.acc, spawnw := r.spawnw } }

/-- A column's boundaries are those that a launch would use (R60). -/
def Column.sameBounds (k : Column) (r : LaunchRec) : Bool :=
  k.regions.regs == r.regs && k.regions.spad == r.spad && k.regions.acc == r.acc && k.regions.w == r.width && k.regions.spawnw == r.spawnw

/-- The free gang slots of a column. -/
def Column.freeGangs (k : Column) : List Nat := (List.range k.regions.n).filter (fun g => k.gangs.all (fun x => x.slot != g))

/-- A column is free for a number of gangs of a launch (R81); one that is rehearsed, that a queued rehearsal holds, having no resident warp,
or that is halted is not (R456). -/
def Column.freeFor (k : Column) (r : LaunchRec) (need : Nat) : Bool :=
  !k.rehearsing && !k.halted && (k.rehearseQ.isNone || !k.warps.isEmpty) &&
    (k.warps.isEmpty || (k.sameBounds r && decide (need ≤ k.freeGangs.length)))

/-- The free instances of a partition for a group, by their first columns (R81). -/
def Dev.instances (d : Dev) (p : Partition) (r : LaunchRec) : List Nat :=
  let size := domSize r.groupDom
  ((List.range (p.columns.length / size)).map (fun i => p.first + i * size)).filter (fun c0 =>
    (List.range size).all (fun o => (d.col (c0 + o)).freeFor r (r.load o)))

/-- The coordinates of a gang of group `group` (R57). -/
def LaunchRec.gangCoords (r : LaunchRec) (group : Nat) (below : List Nat) : List Nat :=
  (if r.groupLevel = 1 then [r.fabidx] else []) ++ [group] ++ below

/-- A gang begins on a column (R63, R81, R83): it takes a free gang slot, with fresh barriers, and its warps their slots. -/
def Dev.startGang (d : Dev) (c : Nat) (l : Launch) (coords : List Nat) : Dev :=
  let r := l.rec_
  match d.pick (d.col c).freeGangs with
  | none => d
  | some (g, d) =>
    let d := d.modCol c (fun k => { k with
      gangs := k.gangs ++ [{ slot := g, launch := l.id, ctx := l.ctx, group := l.placed, coords := coords }],
      bars := k.bars.filter (fun b => b.1 / 64 != g), rings := k.rings.filter (fun x => x.2.gang != g) })
    (List.range r.width).foldl (fun d i =>
      d.startWarp c (g * r.width + i) l.id (fun j =>
        newWarp r c (g * r.width + i) j d.now l.ctx l.id g l.placed (coords ++ [i]) r.entry r.prio false false)) d

/-- The next group of a launch starts on the instance from column c0 on, all its gangs in one tick (R81, R82). -/
def Dev.startGroup (d : Dev) (l : Launch) (c0 : Nat) : Dev :=
  let r := l.rec_
  let lay := r.layout
  let cols := (lay.map (fun u => c0 + u.2)).eraseDups
  -- the context's object table is now the launch's (R45, R90)
  let d : Dev := { d with ctxs := d.ctxs.set l.ctx { d.ctx l.ctx with objBase := r.objBase, objLast := r.objLast } }
  -- a graph's launch begins with an acquire on every column of the partition (R355)
  let d := match l.origin with
    | .node _ _ _ =>
      if l.placed = 0 then (d.part l.part).columns.foldl (fun (d : Dev) c => d.modCol c (fun k => k.acquire l.ctx)) d else d
    | _ => d
  let d := cols.foldl (fun (d : Dev) c => d.modCol c (fun k => if k.warps.isEmpty then { k with gangs := [] }.bound r else k)) d
  let d := lay.foldl (fun (d : Dev) u => d.startGang (c0 + u.2) l (r.gangCoords l.placed u.1)) d
  let l2 : Launch :=
    { l with placed := l.placed + 1, cols := (l.cols ++ cols).eraseDups, ended := l.ended.filter (fun c => !cols.contains c) }
  let p := d.part l.part
  let d := { d with launches := d.launches.set l.id l2 }
  if l2.placed < r.groups then d
  else { d with parts := d.parts.set l.part { p with queues := p.queues.mapVals (fun _ q => q.filter (· != l.id)) } }

/-- The halt tick of a pre-emption of the partition is set: no placement group starts (R88). -/
def Partition.halting (p : Partition) : Bool := match p.preempt with
  | some x => x.htick.isSome
  | none => false

/-- A placement decision of a partition (R82). -/
def Dev.placeGroup (d : Dev) (p : Nat) : Dev :=
  let x := d.part p
  if x.held || x.holdWanted || x.halting || x.lost then d
  else
    let d := d.makeResident p
    match (d.part p).heads.find? (fun id => d.launchState id == .resident) with
    | none => d
    | some id => match d.launches.get? id with
      | none => d
      | some l => match d.pick (d.instances x l.rec_) with
        | some (c0, d) => d.startGroup l c0
        | none => d

/-- The meaning of PLACEMENT_GROUP_START (R81, R82). -/
def execPlacementGroupStart (p : Nat) (s : State) : Host.Outcome State Fault Refusal := .next { s with dev := s.dev.placeGroup p }

/-! ## The end of a launch -/

/-- What a launch leaves when it is complete (R72): a command completes, a graph node may finish. -/
def Dev.launchOver (d : Dev) (l : Launch) : Dev :=
  let d : Dev := { d with launches := d.launches.del l.id, bards := d.bards.filter (fun b => b.launch != l.id) }
  match l.origin with
  | .ring p seq => d.complete (.part p) seq 0
  | .node die r j => d.nodeReady (.node die r j) d.now
  | .loaded => d

/-- The kernel boundary of a launch on a column (R41): the context's stable lines leave the L1, its fetched lines and entries the column
(R102, R46). -/
def Column.kernelEnd (k : Column) (ctx launch : Nat) : Column :=
  let k := k.l1Drop ctx (fun _ x => x.stable)
  { k with code := k.code.filter (fun x => x.ctx != ctx), objs := k.objs.filter (fun x => x.ctx != ctx),
           stableSent := k.stableSent.filter (fun x => x.1 != launch), rangeSent := k.rangeSent.filter (fun x => x.1 != launch),
           started := k.started.filter (fun x => x.1 / 64 != launch), was := k.was.filter (fun x => x.ctx != ctx),
           past := k.past.filter (fun x => x.ctx != ctx) }

/-- A launch may end on a column (R72). -/
def Column.launchIdle (k : Column) (launch : Nat) : Bool :=
  k.warps.all (fun w => w.2.launch != launch) && k.tracker.all (fun t => t.launch != launch)

/-- The meaning of LAUNCH_END_ON_COLUMN (R72): once every group has been placed, so that no further warp of the launch comes; a saved
launch's warps stand in the image, and it does not end. -/
def execLaunchEndOnColumn (col launch : Nat) (s : State) : Host.Outcome State Fault Refusal :=
  let d := s.dev
  match d.launches.get? launch with
  | none => .next s
  | some l =>
    if d.launchState launch != .resident || decide (l.placed < l.rec_.groups) || !l.cols.contains col || l.ended.contains col || !(d.col col).launchIdle launch then .next s
    else
      let d := d.modCol col (fun k => k.kernelEnd l.ctx launch)
      let l : Launch := { l with ended := l.ended ++ [col] }
      let d := { d with launches := d.launches.set launch l }
      if l.cols.all (fun c => l.ended.contains c) then .next { s with dev := d.launchOver l }
      else .next { s with dev := d }

/-- The meaning of RETIREMENT_TRACKER_FREE (R70): an entry frees when its operations have their completion times and Now() has reached
the latest. -/
def execRetirementTrackerFree (col entry : Nat) (s : State) : Host.Outcome State Fault Refusal :=
  let k := s.dev.col col
  match k.tracker.find? (fun t => t.id == entry) with
  | none => .next s
  | some t =>
    if k.entryUsed s.dev.now t then .next s
    else .next { s with dev := s.dev.modCol col (fun k => { k with tracker := k.tracker.filter (fun x => x.id != entry) }) }

end Sys2Proof.Machine
end

