-- ==== Sys2Proof/Machine/Graph.lean ====
section
/-! DEFINITION. Cues (R351, R352), graph objects and their walker (R353-R358), and the instructions that start and patch graphs
(R359-R361). -/

namespace Sys2Proof.Machine

/-! ## Pointers to a column of the partition -/

/-- A pointer to the issuing column or another logical column of the partition (R352, R359). -/
def Dev.partPtr (d : Dev) (ctx : Nat) (p : BitVec 64) : Bool := ptrRsv p == 0 && (ptrSel p == 0x7FF || d.inPart ctx (ptrSel p))

/-- A check of a uniform pointer, which concerns every lane of the instruction (R407). -/
def pairTrap (act : Mask) (p : BitVec 64) (ok : Bool) (cause : Nat) : Option TrapInfo :=
  check ok { cause := cause, einfo := einfoA p (Mask.first act), emask := act }

/-! ## CUE and GPATCH -/

/-- CUE (R352). -/
def cueIssue (f : VFields) (s : State) : Issue :=
  s.dev.whole f.h (fun _ =>
    let d := s.dev
    let x := vctx d f.h []
    let lo := rangeSrc x.w 1 f.a 0
    let hi := rangeSrc x.w 1 f.a 1
    let v := x.src 2 f.b
    let p := ptrOf lo.uni hi.uni
    x.withUni [rangeBound x.regs f.a.reg.toNat 2] [Use.ptr lo, Use.ptr hi, Use.ptr v]
      [pairTrap x.act p (d.partPtr d.curWarp.ctx p) 0x13, pairTrap x.act p (ptrOff p % 4 == 0) 0x14]
      (fun _ => d.afterAcquire (fun _ =>
        let go (d : Dev) : Issue :=
          if !d.curCol.storeRoom d.cur.slot 1 then .hold d
          else
            let a : LaneAcc := { laneWant 0 (colOf d.cur.col p) (ptrOff p) 4 0 with data := [v.uni], pois := [false] }
            -- an add like ARED's drops the column's own line (R205, R352)
            .retire (({ s with dev := d }.startStore d.cur.col (d.newOp .cue Fmt.ui32 2 [a]) .store d.cur.priv).dropLanes d.curWarp.ctx [a]).advance
        if f.sub.getLsbD 0 then d.release d.curWarp.obs go else go d)))

/-- The meaning of CUE. -/
def execCue (f : VFields) (s : State) : Host.Outcome State Fault Refusal := s.conclude ((cueIssue f s).hinted f.hint)

/-- GPATCH (R359, R360). -/
def gpatchIssue (f : VFields) (s : State) : Issue :=
  s.dev.whole f.h (fun _ =>
    let d := s.dev
    let x := vctx d f.h []
    let lo := rangeSrc x.w 1 f.a 0
    let hi := rangeSrc x.w 1 f.a 1
    let v0 := rangeSrc x.w 2 f.b 0
    let v1 := rangeSrc x.w 2 f.b 1
    let q := x.src 3 f.c
    let p := ptrOf lo.uni hi.uni
    x.withUni [rangeBound x.regs f.a.reg.toNat 2, rangeBound x.regs f.b.reg.toNat 2]
      [Use.ptr lo, Use.ptr hi, Use.ptr v0, Use.ptr v1, Use.ptr q]
      [pairTrap x.act p (d.partPtr d.curWarp.ctx p) 0x13, pairTrap x.act p (ptrOff p % 64 == 0) 0x14]
      (fun _ => d.afterAcquire (fun _ =>
        if !d.curCol.storeRoom d.cur.slot 1 then .hold d
        else
          let a : LaneAcc :=
            { laneWant 0 (colOf d.cur.col p) (ptrOff p) 8 0 with data := [v0.uni, v1.uni, q.uni], pois := [false, false, false] }
          .retire (s.startStore d.cur.col (d.newOp .gpatch Fmt.ui32 3 [a]) .store d.cur.priv).advance)))

/-- The meaning of GPATCH. -/
def execGpatch (f : VFields) (s : State) : Host.Outcome State Fault Refusal := s.conclude ((gpatchIssue f s).hinted f.hint)

/-! ## The walker's reading of an object -/

/-- Why the walker does not get past a graph object (R356, R433, R444). -/
inductive WalkStop where
  | malformed
  | poisoned
  | held (f : Flt) (gran : Nat)

/-- Words of 64 bits that the walker reads at the home slices of a graph's home column (R353). -/
def State.walkWords (s : State) (c ctx off n : Nat) : Except WalkStop (List Nat) × Dev :=
  match s.engineReads c c ctx false (n / 4 + 2) off (8 * n) with
  | (.error (.fault f g), d) => (.error (.held f g), d)
  | (.error (.fail _ _), d) => (.error .poisoned, d)
  | (.ok bs, d) => if bs.any Prod.snd then (.error .poisoned, d) else (.ok (wordsOf (bs.map Prod.fst) n), d)

/-- The fields of a graph object's header (R353). -/
structure GHead where
  nnodes : Nat
  pblen  : Nat
  nodes  : Nat
  succ   : Nat
  stage  : Nat
  pb     : List Nat
  nrep   : Nat
  deriving DecidableEq, Repr

/-- The header's fields lie in their ranges, and its reserved bits are zero (R353, R356). -/
def headOk (q : Nat → Nat) : Bool :=
  let n := bitsOf (q 0) 12 0
  let l := bitsOf (q 0) 39 32
  bitsOf (q 0) 63 40 == 0 && bitsOf (q 0) 31 13 == 0 && decide (1 ≤ n) && decide (n ≤ 4096) && decide (1 ≤ l) && decide (l ≤ 8) &&
    [1, 3, 4, 5].all (fun i => bitsOf (q i) 63 44 == 0 && bitsOf (q i) 5 0 == 0) &&
    bitsOf (q 2) 63 44 == 0 && bitsOf (q 2) 0 0 == 0 && bitsOf (q 6) 31 2 == 0 && q 7 == 0

/-- The header of a graph object. -/
def State.readHead (s : State) (c ctx obj : Nat) : Except WalkStop GHead × Dev :=
  if obj % 64 ≠ 0 then (.error .malformed, s.dev)
  else
    match s.walkWords c ctx obj 8 with
    | (.error e, d) => (.error e, d)
    | (.ok ws, d) =>
      let q (i : Nat) : Nat := ws.getD i 0
      if headOk q then
        (.ok { nnodes := bitsOf (q 0) 12 0, pblen := bitsOf (q 0) 39 32, nodes := bitsOf (q 1) 43 0, succ := bitsOf (q 2) 43 0,
               stage := bitsOf (q 3) 43 0, pb := [bitsOf (q 4) 43 0, bitsOf (q 5) 43 0], nrep := bitsOf (q 6) 63 32 }, d)
      else (.error .malformed, d)

/-- The record of node j with its successors (R354, R356): its count begins at NPRED. -/
def State.readNode (s : State) (c ctx : Nat) (h : GHead) (j : Nat) : Except WalkStop GNode × Dev :=
  match s.walkWords c ctx (h.nodes + 64 * j) 8 with
  | (.error e, d) => (.error e, d)
  | (.ok ws, d) =>
    let q (i : Nat) : Nat := ws.getD i 0
    let si := bitsOf (q 0) 63 44
    let sn := bitsOf (q 0) 43 32
    let pidx := (List.range 6).map (fun i => bitsOf (q 1) (8 * i + 7) (8 * i))
    let ok := bitsOf (q 0) 31 20 == 0 && bitsOf (q 0) 7 4 == 0 && decide (bitsOf (q 0) 3 0 ≤ 6) && bitsOf (q 1) 63 48 == 0 &&
      decide (si + sn ≤ 2 ^ 20) && pidx.all (fun x => x == 255 || decide (x < h.pblen * 8))
    if !ok then (.error .malformed, d)
    else
      match { s with dev := d }.engineReads c c ctx false (sn / 16 + 2) (h.succ + 2 * si) (2 * sn) with
      | (.error (.fault f g), d) => (.error (.held f g), d)
      | (.error (.fail _ _), d) => (.error .poisoned, d)
      | (.ok bs, d) =>
        let at_ (i : Nat) : Nat := numOf (((bs.map Prod.fst).drop (2 * i)).take 2)
        let succ := (List.range sn).map at_
        if bs.any Prod.snd then (.error .poisoned, d)
        else if succ.all (fun n => decide (n < h.nnodes)) then
          (.ok { kind := bitsOf (q 0) 3 0, pidx := pidx, body := (List.range 6).map (fun i => BitVec.ofNat 64 (q (2 + i))), succ := succ,
                 count := bitsOf (q 0) 19 8, started := false, finished := false, ready := none, held := none, poll := none }, d)
        else (.error .malformed, d)

/-- The node records from node j on. -/
def State.readNodes (s : State) (c ctx : Nat) (h : GHead) : Nat → Nat → Except WalkStop (List GNode) × Dev
  | 0, _ => (.ok [], s.dev)
  | n + 1, j =>
    match s.readNode c ctx h j with
    | (.error e, d) => (.error e, d)
    | (.ok x, d) =>
      match State.readNodes { s with dev := d } c ctx h n (j + 1) with
      | (.error e, d) => (.error e, d)
      | (.ok xs, d) => (.ok (x :: xs), d)

/-- Every node's NPRED is the number of times that it appears in the successor lists (R356). -/
def countsOk (ns : List GNode) : Bool :=
  let all := (ns.map (fun n => n.succ)).flatten
  ns.zipIdx.all (fun n => n.1.count == all.count n.2)

/-- A graph object read and validated (R356). -/
def State.readGraph (s : State) (c ctx obj : Nat) : Except WalkStop (GHead × List GNode) × Dev :=
  match s.readHead c ctx obj with
  | (.error e, d) => (.error e, d)
  | (.ok h, d) =>
    match { s with dev := d }.readNodes c ctx h h.nnodes 0 with
    | (.error e, d) => (.error e, d)
    | (.ok ns, d) => if countsOk ns then (.ok (h, ns), d) else (.error .malformed, d)

/-! ## The start of a replay -/

/-- A replay of the same object (R357). -/
def Replay.same (x y : Replay) : Bool := x.ctx == y.ctx && x.home == y.home && x.obj == y.obj

/-- The running replays of an object's slots. -/
def Dev.running (d : Dev) (x : Replay) : List Replay := (d.replays.vals).filter (fun y => x.same y && y.slot.isSome)

/-- A warp's request for a replay rests from the writing of the image that saves the warp until its context is resident again (R361). -/
def Dev.asleep (d : Dev) (x : Replay) : Bool :=
  match x.owner with
  | .warp c _ => (d.ctx x.ctx).state != .resident || (match (d.part x.part).preempt with
    | some q => q.ctx == x.ctx && q.written.contains c
    | none => false)
  | .ring _ _ => false

/-- A free slot of a replay's object (R357). -/
def Dev.freeSlot (d : Dev) (x : Replay) : Option Nat := [0, 1].find? (fun k => (d.running x).all (fun y => y.slot != some k))

/-- A replay that arrived earlier waits (R358). -/
def Dev.waitsBefore (d : Dev) (x y : Replay) : Bool := decide (y.id < x.id) && y.slot.isNone && !d.asleep y

/-- The slot that a waiting replay would take now (R357, R358), in the order of arrival: none while both slots are busy, an earlier replay of
the object waits, or the walker's 64 places go to those that run and to earlier ones that find a slot. -/
def Dev.slotFor (d : Dev) (x : Replay) : Option Nat :=
  let taken := d.replays.vals.filter (fun y => dieOf y.home == dieOf x.home &&
    (y.slot.isSome || (d.waitsBefore x y && y.held.isNone && (d.freeSlot y).isSome)))
  if decide (64 ≤ taken.length) || d.replays.vals.any (fun y => x.same y && d.waitsBefore x y) then none else d.freeSlot x

/-- Bytes 0x30-0x37 of a header as the walker writes them (R353): the slots in use, and NREP. -/
def busyWord (slots : List Nat) (nrep : Nat) : List (Byte × Bool) :=
  (bytesOf 8 ((slots.map (fun k => 2 ^ k)).sum + nrep % 2 ^ 32 * 2 ^ 32)).map (fun b => (b, false))

/-- Why a replay does not begin. -/
inductive ReplayTry where
  | begun (slot : Nat)
  | bad (status : Nat)
  | busy
  | held

/-- The STATUS that a walker's stop gives (R358, R450). -/
def WalkStop.status : WalkStop → Nat
  | .poisoned => 7
  | _ => 6

/-- The replay is held by the walker, whose fault is reported (R433). -/
def Dev.replayHeld (d : Dev) (x : Replay) (f : Flt) (g : Nat) : Dev :=
  { d.report x.home x.ctx g f .walker with replays := d.replays.set x.id { x with held := some g } }

/-- The parameter block copied and the header marked (R357): what stops that, and the state with what is written. -/
def State.takeSlot (s : State) (x : Replay) (h : GHead) (k : Nat) : Option Stop × State :=
  let n := 64 * h.pblen
  match s.engineReads x.home x.home x.ctx false 20 (x.pbOff.getD h.stage) n with
  | (.error e, d) => (some e, { s with dev := d })
  | (.ok bs, d) =>
    match { s with dev := d }.engineWrites x.home x.home x.ctx false 20 (h.pb.getD k 0) bs with
    | (.error e, s) => (some e, s)
    | (.ok _, s) =>
      let slots := ((s.dev.running x).filterMap (fun y => y.slot)) ++ [k]
      match s.engineWrites x.home x.home x.ctx false 2 (x.obj + 0x30) (busyWord slots (h.nrep + 1)) with
      | (.error e, s) => (some e, s)
      | (.ok _, s) => (none, s)

/-- A replay that does not begin is forgotten; one whose object was read poisoned has failed, and the walker sends a record (R444, R450). -/
def Dev.replayRefused (d : Dev) (x : Replay) (status : Nat) : Dev :=
  let d := if status = 7 then d.engineFailed x.home 0x23 0 x.ctx 0 (errWord 0x23 0 1) 0 else d
  { d with replays := d.replays.del x.id }

/-- The walker tries to begin a waiting replay (R356-R358). -/
def State.tryReplay (s : State) (x : Replay) : ReplayTry × State :=
  match s.dev.slotFor x with
  | none => (.busy, s)
  | some k =>
    match s.readGraph x.home x.ctx x.obj with
    | (.error (.held f g), d) => (.held, { s with dev := d.replayHeld x f g })
    | (.error e, d) => (.bad e.status, { s with dev := d.replayRefused x e.status })
    | (.ok (h, ns), d) =>
      match { s with dev := d }.takeSlot x h k with
      | (some (.fault f g), s) => (.held, { s with dev := s.dev.replayHeld x f g })
      | (some (.fail _ _), s) => (.bad 7, { s with dev := s.dev.replayRefused x 7 })
      | (none, s) =>
        let d := s.dev
        let other := (d.running x).head?.map (fun y => y.id)
        let y : Replay := { x with slot := some k, pb := h.pb.getD k 0, nodes := ns, prev := other, held := none }
        (.begun k, { s with dev := { d with replays := d.replays.set x.id y } })

/-- A new replay that waits for a slot of its object (R358). -/
def Dev.askReplay (d : Dev) (ctx home obj : Nat) (pb : Option Nat) (o : ReplayOwner) : Replay × Dev :=
  let x : Replay :=
    { id := d.nextReplay, ctx := ctx, part := (d.ctx ctx).part, home := home, obj := obj, pbOff := pb, owner := o, slot := none, pb := 0,
      nodes := [], prev := none, failed := none, held := none,
      asker := match o with
        | .warp c s =>
          let l := (d.warp c s).launch
          some (c, s, l, (d.col c).started.getD (l * 64 + s) 0)
        | .ring _ _ => none }
  (x, { d with replays := d.replays.set x.id x, nextReplay := d.nextReplay + 1 })

/-! ## GLAUNCH -/

/-- A GPATCH of the warp is still to be performed (R361). -/
def Column.patching (k : Column) (s : Nat) : Bool :=
  k.ops.any (fun o => o.slot == s && o.kind == .gpatch && (!o.lanes.isEmpty || decide (0 < o.logged)))

/-- The result of a GLAUNCH (R361). -/
def ReplayTry.word : ReplayTry → Word
  | .begun k => BitVec.ofNat 32 (k * 256)
  | .bad _ => 2
  | _ => 1

/-- A GLAUNCH's result written, and the warp past it (R361). -/
def Dev.glaunched (d : Dev) (vd : Nat) (t : ReplayTry) : Dev := (d.writeReg vd Mask.all (Result.uni t.word false Fmt.ui32)).advance

/-- GLAUNCH after its checks (R361): its replay begins, or fails, or, without .try, the warp parks until it takes a slot. -/
def State.glaunchGo (s : State) (vd : Nat) (once : Bool) (p : BitVec 64) : State :=
  let d := s.dev
  let (x, d) := d.askReplay d.curWarp.ctx (colOf d.cur.col p) (ptrOff p) none (.warp d.cur.col d.cur.slot)
  let (t, s) := { s with dev := d }.tryReplay x
  match t with
  | .busy =>
    if once then { s with dev := Dev.glaunched { s.dev with replays := s.dev.replays.del x.id } vd .busy }
    else { s with dev := s.dev.park (.glaunch vd) }
  | .held => { s with dev := s.dev.park (.glaunch vd) }
  | t => { s with dev := s.dev.glaunched vd t }

/-- GLAUNCH (R359, R361). -/
def glaunchIssue (f : VFields) (s : State) : Issue :=
  s.dev.whole f.h (fun _ =>
    let d := s.dev
    let x := vctx d f.h []
    let lo := rangeSrc x.w 1 f.a 0
    let hi := rangeSrc x.w 1 f.a 1
    let p := ptrOf lo.uni hi.uni
    x.withUni [boundCheck x.regs (dstReg f.d), rangeBound x.regs f.a.reg.toNat 2] [Use.ptr lo, Use.ptr hi]
      [pairTrap x.act p (d.partPtr d.curWarp.ctx p) 0x13, pairTrap x.act p (ptrOff p % 64 == 0) 0x14]
      (fun _ => d.afterAcquire (fun _ =>
        if d.curCol.patching d.cur.slot then .hold d else .made (s.glaunchGo (dstReg f.d) (f.sub.getLsbD 0) p))))

/-- The meaning of GLAUNCH. -/
def execGlaunch (f : VFields) (s : State) : Host.Outcome State Fault Refusal := s.conclude ((glaunchIssue f s).hinted f.hint)

/-! ## GRAPH_REPLAY_START -/

/-- What the asker of a replay learns from its beginning or its failure to begin (R358, R361). -/
def Dev.replayTold (d : Dev) (x : Replay) (t : ReplayTry) : Dev :=
  match x.owner, t with
  | .ring p seq, .bad st => d.complete (.part p) seq st
  | .ring _ _, _ => d
  | .warp c s, t => match (d.warp c s).park with
    | .glaunch vd => d.modCol c (fun k => (k.putUni s vd t.word false).unpark s false)
    | _ => d

/-- A waiting replay that begins, or fails to (R357, R358). -/
def State.beginReplay (s : State) (x : Replay) : State :=
  let (t, s) := s.tryReplay x
  match t with
  | .busy | .held => s
  | t => { s with dev := s.dev.replayTold x t }

/-- The waiting replays of a die in the order in which they arrived. -/
def Dev.waitingReplays (d : Dev) (die : Nat) : List Replay :=
  (d.replays.vals).filter (fun x => dieOf x.home == die && x.slot.isNone && x.held.isNone && !d.asleep x)

/-- The meaning of GRAPH_REPLAY_START (R357, R358): the first waiting replay of a die that finds its slot begins. -/
def execGraphReplayStart (die : Nat) (s : State) : Host.Outcome State Fault Refusal :=
  match (s.dev.waitingReplays die).find? (fun x => (s.dev.slotFor x).isSome) with
  | some x => .next (s.trial x.home (.replay x.id) (fun s => s.beginReplay x))
  | none => .next s

/-! ## Nodes -/

/-- Node j of a replay. -/
def Replay.node? (x : Replay) (j : Nat) : Option GNode := x.nodes[j]?

/-- The same node of the replay that held the other slot has finished, or that replay has ended (R357). -/
def Dev.prevDone (d : Dev) (x : Replay) (j : Nat) : Bool :=
  match x.prev with
  | none => true
  | some r => match d.replays.get? r with
    | none => true
    | some y => match y.node? j with
      | some n => n.finished
      | none => true

/-- No node of a context starts while it is not resident, or its partition is held or halting (R88, R95, R358). -/
def Dev.graphsRun (d : Dev) (ctx : Nat) : Bool :=
  let c := d.ctx ctx
  let p := d.part c.part
  c.state == .resident && !p.held && !p.holdWanted && !p.halting && !p.lost

/-- A launch node of the same graph object, or of a graph that the same warp has launched, has met a fault at its record and has not joined its
queue: later ones wait for it (R62). -/
def Dev.launchWaits (d : Dev) (x : Replay) : Bool :=
  d.replays.vals.any (fun y => y.ctx == x.ctx && ((y.home == x.home && y.obj == x.obj) || (y.asker.isSome && y.asker == x.asker)) &&
    y.failed.isNone && y.nodes.any (fun m => m.waited && !m.started))

/-- A node may start (R357, R450); a launch node waits behind one whose reading a fault has held (R62). -/
def Dev.nodeMay (d : Dev) (x : Replay) (j : Nat) (n : GNode) : Bool :=
  x.slot.isSome && x.failed.isNone && d.graphsRun x.ctx && !n.started && n.count == 0 && n.held.isNone && d.prevDone x j &&
    (n.kind != 1 || n.waited || !d.launchWaits x)

/-- A node's body with its parameters put in (R354, R357). -/
def State.nodeBody (s : State) (x : Replay) (n : GNode) : Except WalkStop (List (BitVec 64)) × Dev :=
  let ps := List.zip n.pidx n.body
  let rec go (s : State) : List (Nat × BitVec 64) → Except WalkStop (List (BitVec 64)) × Dev
    | [] => (.ok [], s.dev)
    | (i, q) :: rest =>
      let r : Except WalkStop (List Nat) × Dev := if i = 255 then (.ok [q.toNat], s.dev) else s.walkWords x.home x.ctx (x.pb + 8 * i) 1
      match r with
      | (.error e, d) => (.error e, d)
      | (.ok ws, d) =>
        match go { s with dev := d } rest with
        | (.error e, d) => (.error e, d)
        | (.ok qs, d) => (.ok (BitVec.ofNat 64 (ws.headD 0) :: qs), d)
  go s ps

/-- A pointer of a node: SEL 0x7FF means the home column (R355). -/
def homePtr (home : Nat) (p : BitVec 64) : BitVec 64 := if ptrSel p = 0x7FF then BitVec.ofNat 11 home ++ p.extractLsb' 0 53 else p

/-- A node starts with an effect on the device, and may finish from a tick on where it is known. -/
def Dev.nodeRuns (d : Dev) (x : Replay) (j : Nat) (ready : Option Nat) : Dev :=
  d.modNode x.id j (fun n => { n with started := true, ready := ready, held := none, hcol := none, waited := false })

/-- A node whose body breaks its kind's rules, or whose command is rejected, fails as it starts (R450). -/
def Dev.nodeBad (d : Dev) (x : Replay) (j code : Nat) : Dev :=
  (d.nodeRuns x j none).nodeFails (.node (dieOf x.home) x.id j) 7 (errWord 0x23 0 code)

/-- A node that the walker cannot start yet for a fault that it has met in column c (R433). -/
def Dev.nodeHeld (d : Dev) (x : Replay) (j c : Nat) (f : Flt) (g : Nat) : Dev :=
  (d.report c x.ctx g f .walker).modNode x.id j (fun n => { n with held := some g, hcol := some c })

/-- What stops a node: a fault holds it, a failure ends it. -/
def Dev.nodeStop (d : Dev) (x : Replay) (j : Nat) : Stop → Dev
  | .fault f g => d.nodeHeld x j x.home f g
  | .fail code _ => d.nodeBad x j code

/-- A launch node (R355, R62). -/
def State.launchNode (s : State) (x : Replay) (j : Nat) (p : BitVec 64) : State :=
  if !s.dev.partPtr x.ctx p then { s with dev := s.dev.nodeBad x j 4 }
  else
    match s.readLaunch (ptrSel p) x.ctx x.part (ptrOff p) with
    | (.taken r, d) => { s with dev := (d.nodeRuns x j none).queueLaunch x.ctx x.part r (.node (dieOf x.home) x.id j) }
    | (.rejected, d) => { s with dev := d.nodeBad x j 4 }
    | (.poisoned, d) => { s with dev := d.nodeBad x j 1 }
    | (.held f g, d) => { s with dev := (d.nodeHeld x j (ptrSel p) f g).modNode x.id j (fun n => { n with waited := true }) }

/-- The descriptor of a copy node (R355). -/
def nodeDesc (home : Nat) (q : Nat → BitVec 64) : CopyDesc :=
  { src := homePtr home (q 0), dst := homePtr home (q 1), len := (q 2).extractLsb' 0 32, ctl := (q 2).extractLsb' 32 32,
    cw := homePtr home (q 3) }

/-- A copy node's descriptor keeps the rules of R344 and R355. -/
def Dev.nodeCopyOk (d : Dev) (ctx : Nat) (x : CopyDesc) : Bool :=
  let sel := d.copySels ctx x
  x.legal && x.sk == 0 && x.dk == 0 && x.ck == 0 && sel.1 && sel.2.1 && sel.2.2 && ptrOff x.cw % 8 == 0

/-- The command of a copy node enters the engine of its executing column. -/
def Dev.copyQueued (d : Dev) (x : Replay) (j c : Nat) (desc : CopyDesc) (recs : Option (TRec × TRec)) : Dev :=
  let o : Owner := .node (dieOf x.home) x.id j
  (d.nodeRuns x j none).modCol c (fun k => { k with
    gated := false, nextOp := k.nextOp + 1,
    copies := k.copies ++ [{ id := k.nextOp, owner := o, ctx := x.ctx, gang := 0, launch := 0, priv := false, desc := desc,
                             srec := recs.map Prod.fst, drec := recs.map Prod.snd, stage := 0, pos := 0, time := 0, err := 0,
                             late := false, held := none }] })

/-- A copy node (R355). The records of its tensor forms are those of the context's object table as its last launch gave it (DESIGN CHOICE,
log 17), read on the executing column. -/
def State.copyNode (s : State) (x : Replay) (j : Nat) (q : Nat → BitVec 64) : State :=
  let d := s.dev
  let sel := ((q 4).extractLsb' 0 11).toNat
  let c := if sel = 0x7FF then x.home else sel
  let desc := nodeDesc x.home q
  if !d.inPart x.ctx c || !d.nodeCopyOk x.ctx desc then { s with dev := d.nodeBad x j 4 }
  else if desc.form = 0 then { s with dev := d.copyQueued x j c desc none }
  else if desc.sobj = 0 ∨ desc.dobj = 0 then { s with dev := d.nodeBad x j 4 }
  else
    let t := (d.ctx x.ctx).objBase
    let last := (d.ctx x.ctx).objLast
    match s.tensorAt c x.ctx t last desc.sobj with
    | (.error f, d) => { s with dev := d.nodeHeld x j c f.1 f.2 }
    | (.ok a, d) =>
      match { s with dev := d }.tensorAt c x.ctx t last desc.dobj with
      | (.error f, d) => { s with dev := d.nodeHeld x j c f.1 f.2 }
      | (.ok b, d) => match a, b with
        | some p, some r =>
          { s with dev := if copyRecords c desc p r then d.copyQueued x j c desc (some (p, r)) else d.nodeBad x j 4 }
        | _, _ => { s with dev := d.nodeBad x j 4 }

/-- A stagehand node (R375): its descriptor enters the run queue of its executing column, where there is room. -/
def Dev.handNode (d : Dev) (x : Replay) (j : Nat) (q : Nat → BitVec 64) : Dev :=
  let sel := ((q 1).extractLsb' 16 11).toNat
  let c := if sel = 0x7FF then x.home else sel
  if !d.inPart x.ctx c then d.nodeBad x j 4
  else if 8 ≤ (d.col c).hand.runq.length then d
  else
    let qs : Vector (BitVec 64) 6 := Vector.ofFn (fun i => if i.val = 1 then q 1 ||| 0x7FF0000#64 else if i.val = 2 ∧ q 2 ≠ 0 then homePtr x.home (q 2) else q i.val)
    (d.nodeRuns x j none).modCol c (fun k => { k with gated := false, hand := { k.hand with
      runq := k.hand.runq ++ [{ q := qs, owner := .node (dieOf x.home) x.id j, ctx := x.ctx, pois := false }] } })

/-- A cue's word translated by a graph's home column for a read or a write (R35). -/
def State.cueAt (s : State) (x : Replay) (p : BitVec 64) (write : Bool) : Except Stop LaneAcc × Dev :=
  match s.translate x.home x.ctx (ptrOff p) write false with
  | (.error f, d) => (.error (.fault f (granOf (ptrOff p))), d)
  | (.ok e, d) =>
    (.ok { laneWant 0 (colOf x.home p) (ptrOff p) 4 0 with va := e.va (ptrOff p), cut := 4, zc := e.zc, stable := e.stable }, d)

/-- A cue-add node (R355). -/
def State.cueAddNode (s : State) (x : Replay) (j : Nat) (p : BitVec 64) (v : Word) : State :=
  match s.cueAt x p true with
  | (.error e, d) => { s with dev := d.nodeStop x j e }
  | (.ok a, d) =>
    let a : LaneAcc := { a with data := [v], pois := [false] }
    let s := { s with dev := d }
    let s := if a.stable then s.stableMark x.home a x.ctx else s
    let (s, _, _) := { s with dev := s.touchLines [a] }.atomLanes 0 Fmt.ui32 0 [a]
    let (d, t) := s.writeBack [a]
    { s with dev := d.nodeRuns x j (some t) }

/-- A cue read at its slice: whether it is reached at a target (R351). -/
def State.cueReached (s : State) (a : LaneAcc) (t : Word) : Bool × Dev :=
  let (v, _, d) := s.sliceWord a
  (cmpOk 6 v t, d)

/-- A cue-wait node (R355): reached at once, registered in its slice's watch table, or read every 256 ticks where the table is full. Its
pointer and target stay those of its start (R357). -/
def State.cueWaitNode (s : State) (x : Replay) (j : Nat) (p : BitVec 64) (t : Word) : State :=
  match s.cueAt x p false with
  | (.error e, d) => { s with dev := d.nodeStop x j e }
  | (.ok a, d) =>
    let (hit, d) := { s with dev := d }.cueReached a t
    let d := d.modNode x.id j (fun n => { n with cue := some (p, t) })
    if hit then { s with dev := d.nodeRuns x j (some d.now) }
    else if (d.col a.tcol).watchCount a.va < 64 then
      let w : Watch := { va := a.va, cmp := 6, value := t, who := .node (dieOf x.home) x.id j, wcol := x.home, ctx := x.ctx, fired := none }
      { s with dev := (d.nodeRuns x j none).modCol a.tcol (fun k => { k with watches := k.watches ++ [w] }) }
    else { s with dev := (d.nodeRuns x j none).modNode x.id j (fun n => { n with poll := some d.now }) }

/-- A signal node (R355). -/
def State.signalNode (s : State) (x : Replay) (j : Nat) (p : BitVec 64) : State :=
  match s.wordDone x.home (colOf x.home p) x.ctx (ptrOff p) none with
  | (.error (f, g), d) => { s with dev := d.nodeHeld x j x.home f g }
  | (.ok (s, t), _) => { s with dev := s.dev.nodeRuns x j (some t) }

/-- A node started by its kind (R355). -/
def State.startNode (s : State) (x : Replay) (j kind : Nat) (q : Nat → BitVec 64) : State :=
  let p := homePtr x.home (q 0)
  let fits (n : Nat) : Bool := s.dev.partPtr x.ctx p && ptrOff p % n == 0
  let bad : State := { s with dev := s.dev.nodeBad x j 4 }
  match kind with
  | 0 => if (List.range 6).all (fun i => q i == 0) then { s with dev := s.dev.nodeRuns x j (some s.dev.now) } else bad
  | 1 => s.launchNode x j p
  | 2 => s.copyNode x j q
  | 3 => { s with dev := s.dev.handNode x j q }
  | 4 => if fits 4 then s.cueAddNode x j p ((q 1).extractLsb' 0 32) else bad
  | 5 => if fits 4 then s.cueWaitNode x j p ((q 1).extractLsb' 0 32) else bad
  | _ => if fits 8 then s.signalNode x j p else bad

/-- The meaning of GRAPH_NODE_START (R355, R357). -/
def execGraphNodeStart (die replay node : Nat) (s : State) : Host.Outcome State Fault Refusal :=
  match s.dev.replays.get? replay with
  | none => .next s
  | some x => match x.node? node with
    | none => .next s
    | some n =>
      if dieOf x.home ≠ die ∨ !s.dev.nodeMay x node n then .next s
      else .next (s.trial (n.hcol.getD x.home) (.node replay node) (fun s =>
        match s.nodeBody x n with
        | (.error (.held f g), d) => { s with dev := d.nodeHeld x node x.home f g }
        | (.error _, d) => { s with dev := d.nodeBad x node 1 }
        | (.ok qs, d) => { s with dev := d }.startNode x node n.kind (fun i => qs.getD i 0)))

/-! ## Finishing -/

/-- The watch entry of a node. -/
def Dev.nodeWatch (d : Dev) (r j : Nat) : Option Watch :=
  ((d.cols.map (fun c => c.2.watches)).flatten).find? (fun w => match w.who with
    | .node _ x y => x == r && y == j
    | _ => false)

/-- The entry's slice without it. -/
def Dev.dropNodeWatch (d : Dev) (r j : Nat) : Dev :=
  { d with cols := d.cols.mapVals (fun _ k => { k with watches := k.watches.filter (fun w => match w.who with
    | .node _ x y => !(x == r && y == j)
    | _ => true) }) }

/-- A node may finish at this tick (R355). -/
def Dev.nodeDone (d : Dev) (r j : Nat) (n : GNode) : Bool :=
  n.started && !n.finished &&
    (match n.ready with
      | some t => decide (t ≤ d.now)
      | none => match d.nodeWatch r j with
        | some w => w.fired.isSome
        | none => false)

/-- A replay after one of its nodes finished: each successor's count falls for each time that it is named (R357). -/
def Replay.finish (x : Replay) (j : Nat) (n : GNode) : Replay :=
  { x with nodes := x.nodes.zipIdx.map (fun m =>
      if m.2 = j then { m.1 with finished := true } else { m.1 with count := m.1.count - n.succ.count m.2 }) }

/-- A replay ends with its last node, or, once it has failed, with the last of its running ones (R357, R450). -/
def Replay.over (x : Replay) : Bool :=
  x.nodes.all (fun n => n.finished || (x.failed.isSome && !n.started))

/-- A replay has ended: its slot is free, and a GRAPH command completes (R357, R358, R450). -/
def Dev.replayEnds (d : Dev) (x : Replay) : Dev :=
  let d := { d with replays := d.replays.del x.id }.neverAgain x.id
  match x.owner with
  | .ring p seq => d.complete (.part p) seq (x.failed.getD 0)
  | .warp _ _ => d

/-- The end of a replay with its header's BUSY cleared (R353, R357); a fault holds it. -/
def State.endReplay (s : State) (x : Replay) : State :=
  let others := ((s.dev.running x).filter (fun y => y.id != x.id)).filterMap (fun y => y.slot)
  match s.engineReads x.home x.home x.ctx false 2 (x.obj + 0x30) 8 with
  | (.error (.fault f g), d) => { s with dev := d.replayHeld x f g }
  | (.error (.fail _ _), d) => { s with dev := d.replayEnds x }
  | (.ok bs, d) =>
    match { s with dev := d }.engineWrites x.home x.home x.ctx false 2 (x.obj + 0x30)
        (busyWord others (numOf ((bs.map Prod.fst).drop 4))) with
    | (.error (.fault f g), s) => { s with dev := s.dev.replayHeld x f g }
    | (.error (.fail _ _), s) => { s with dev := s.dev.replayEnds x }
    | (.ok _, s) => { s with dev := s.dev.replayEnds x }

/-- The meaning of GRAPH_NODE_FINISH (R355, R357); for a node that has finished, the end of a replay that a fault held. -/
def execGraphNodeFinish (die replay node : Nat) (s : State) : Host.Outcome State Fault Refusal :=
  match s.dev.replays.get? replay with
  | none => .next s
  | some x => match x.node? node with
    | none => .next s
    | some n =>
      if dieOf x.home ≠ die ∨ x.slot = none ∨ x.held.isSome then .next s
      else if s.dev.nodeDone replay node n then
        let d := s.dev.dropNodeWatch replay node
        let x := x.finish node n
        let s := { s with dev := { d with replays := d.replays.set replay x } }
        .next (if x.over then s.endReplay x else s)
      else if n.finished && x.over then .next (s.trial x.home (.replay replay) (fun s => s.endReplay x))
      else .next s

/-- A cue-wait node reads its cue again. -/
def State.pollNode (s : State) (x : Replay) (j : Nat) (n : GNode) : State :=
  match n.cue with
  | none => s
  | some (p, t) =>
    match s.cueAt x p false with
    | (.error e, d) => { s with dev := d.nodeStop x j e }
    | (.ok a, d) =>
      let (hit, d) := { s with dev := d }.cueReached a t
      { s with dev := d.modNode x.id j (fun n => { n with ready := if hit then some d.now else none, poll := if hit then none else some d.now }) }

/-- The meaning of CUE_WAIT_POLL (R355): 256 ticks after its last read, the walker reads the cue of a node that found its table full. -/
def execCueWaitPoll (die replay node : Nat) (s : State) : Host.Outcome State Fault Refusal :=
  match s.dev.replays.get? replay with
  | none => .next s
  | some x => match x.node? node with
    | none => .next s
    | some n => match n.poll with
      | none => .next s
      | some t =>
        if dieOf x.home ≠ die ∨ n.held.isSome ∨ n.ready.isSome ∨ s.dev.now < t + 256 then .next s
        else .next (s.trial (n.hcol.getD x.home) (.node replay node) (fun s => s.pollNode x node n))

end Sys2Proof.Machine
end

