-- ==== Sys2Proof/Machine/Hand.lean ====
section
/-! DEFINITION. The near-memory tier: the stagehand's registers and instructions (R362-R368), claims (R369-R371), programs (R372-R375), the
atomic queue (R376), windows at a bank (R381), stagehand faults (R383), and cue waits (R384). -/

namespace Sys2Proof.Machine

/-! ## Registers -/

/-- H(i); h0 reads as 0 (R362). -/
def Hand.hreg (h : Hand) (i : BitVec 5) : BitVec 64 := if i = 0 then 0 else h.h[i.toNat]

/-- H(i) written; a write to h0 is discarded (R362). -/
def Hand.setH (h : Hand) (i : BitVec 5) (v : BitVec 64) : Hand := if i = 0 then h else { h with h := h.h.set i.toNat v }

/-- Q(i) (R362). -/
def Hand.qreg (h : Hand) (i : BitVec 5) : Vector Word 16 := h.q[i.toNat % 16]'(Nat.mod_lt _ (by decide))

/-- Q(i) written. -/
def Hand.setQ (h : Hand) (i : BitVec 5) (v : Vector Word 16) : Hand := { h with q := h.q.set (i.toNat % 16) v (Nat.mod_lt _ (by decide)) }

/-- The next instruction. -/
def Hand.next (h : Hand) : Hand := { h with pc := h.pc + 1 }

/-- A column's stagehand changed. -/
def Dev.modHand (d : Dev) (c : Nat) (f : Hand → Hand) : Dev := d.modCol c (fun k => { k with hand := f k.hand })

/-- The stagehand whose instruction runs. -/
def State.hand (s : State) : Hand := (s.dev.col s.dev.cur.col).hand

/-- An instruction whose whole effect is on the stagehand's registers. -/
def State.handDo (s : State) (f : Hand → Hand) : Host.Outcome State Fault Refusal :=
  .next { s with dev := s.dev.modHand s.dev.cur.col (fun h => (f h).next) }

/-- The target of a branch, counted from the branch (R366), in the 13 bits of the PC. -/
def Hand.branch (h : Hand) (imm : BitVec 32) : Hand := { h with pc := (((h.pc : Int) + imm.toInt) % 8192).toNat }

/-! ## Scalar instructions -/

/-- The meaning of HADD (R365). -/
def execHadd (f : HFields) (s : State) : Host.Outcome State Fault Refusal :=
  s.handDo (fun h => h.setH f.d (h.hreg f.s + h.hreg f.t + f.imm.signExtend 64))

/-- The meaning of HSUB (R365). -/
def execHsub (f : HFields) (s : State) : Host.Outcome State Fault Refusal := s.handDo (fun h => h.setH f.d (h.hreg f.s - h.hreg f.t))

/-- The meaning of HMUL (R365). -/
def execHmul (f : HFields) (s : State) : Host.Outcome State Fault Refusal := s.handDo (fun h => h.setH f.d (h.hreg f.s * h.hreg f.t))

/-- The meaning of HLOGIC (R365). -/
def execHlogic (f : HFields) (s : State) : Host.Outcome State Fault Refusal :=
  s.handDo (fun h =>
    let a := h.hreg f.s
    let b := h.hreg f.t
    h.setH f.d (if f.x = 0 then a &&& b else if f.x = 1 then a ||| b else a ^^^ b))

/-- The meaning of HSHIFT (R365). -/
def execHshift (f : HFields) (s : State) : Host.Outcome State Fault Refusal :=
  s.handDo (fun h =>
    let a := h.hreg f.s
    let n := ((h.hreg f.t + f.imm.signExtend 64).extractLsb' 0 6).toNat
    h.setH f.d (if f.x = 0 then a <<< n else if f.x = 1 then a >>> n else a.sshiftRight n))

/-- The meaning of HLI (R365). -/
def execHli (f : HFields) (s : State) : Host.Outcome State Fault Refusal :=
  s.handDo (fun h => h.setH f.d (if f.x = 0 then f.imm.signExtend 64 else f.imm ++ (h.hreg f.d).extractLsb' 0 32))

/-- The meaning of HCLK (R365). -/
def execHclk (f : HFields) (s : State) : Host.Outcome State Fault Refusal := s.handDo (fun h => h.setH f.d (BitVec.ofNat 64 s.dev.now))

/-- The condition of a branch (R365). -/
def handCond (x : BitVec 3) (a b : BitVec 64) : Bool :=
  match x.toNat with
  | 0 => a == b
  | 1 => a != b
  | 2 => decide (a.toInt < b.toInt)
  | 3 => decide (b.toInt ≤ a.toInt)
  | 4 => decide (a.toNat < b.toNat)
  | 5 => decide (b.toNat ≤ a.toNat)
  | _ => true

/-- The meaning of HBR (R365, R366). -/
def execHbr (f : HFields) (s : State) : Host.Outcome State Fault Refusal :=
  .next { s with dev := s.dev.modHand s.dev.cur.col (fun h =>
    if handCond f.x (h.hreg f.s) (h.hreg f.t) then h.branch f.imm else h.next) }

/-- The meaning of HLOOP (R365, R366). -/
def execHloop (f : HFields) (s : State) : Host.Outcome State Fault Refusal :=
  .next { s with dev := s.dev.modHand s.dev.cur.col (fun h =>
    let v := h.hreg f.d - 1
    let h := h.setH f.d v
    if h.hreg f.d = 0 then h.next else h.branch f.imm) }

/-! ## Vector instructions -/

/-- A vector result by lane. -/
def qTab (g : Nat → Word) : Vector Word 16 := Vector.ofFn (fun i => g i.val)

/-- Lane i of a vector register's value. -/
def qLane (v : Vector Word 16) (i : Nat) : Word := v[i % 16]'(Nat.mod_lt _ (by decide))

/-- An F32 value rounded under an instruction's X: RM in [1:0], saturation in [2] (R365). -/
def qRound (x : BitVec 3) (v : FVal) : Word := BitVec.ofNat 32 (FloatFmt.fp32.round (x.extractLsb' 0 2) (x.getLsbD 2) v)

/-- A vector instruction of two vector sources (R365). -/
def qTwo (f : HFields) (s : State) (op : FVal → FVal → FVal) : Host.Outcome State Fault Refusal :=
  s.handDo (fun h => h.setQ f.d (qTab (fun i => qRound f.x (op (f32Val (qLane (h.qreg f.s) i)) (f32Val (qLane (h.qreg f.t) i))))))

/-- The meaning of QADD (R365). -/
def execQadd (f : HFields) (s : State) : Host.Outcome State Fault Refusal := qTwo f s (FVal.add (f.x.extractLsb' 0 2))

/-- The meaning of QSUB (R365). -/
def execQsub (f : HFields) (s : State) : Host.Outcome State Fault Refusal :=
  qTwo f s (fun a b => FVal.add (f.x.extractLsb' 0 2) a b.negate)

/-- The meaning of QMUL (R365). -/
def execQmul (f : HFields) (s : State) : Host.Outcome State Fault Refusal := qTwo f s FVal.mul

/-- The meaning of QFMA (R365). -/
def execQfma (f : HFields) (s : State) : Host.Outcome State Fault Refusal :=
  s.handDo (fun h => h.setQ f.d (qTab (fun i =>
    qRound f.x (FVal.add (f.x.extractLsb' 0 2) (FVal.mul (f32Val (qLane (h.qreg f.s) i)) (f32Val (qLane (h.qreg f.t) i)))
      (f32Val (qLane (h.qreg f.d) i))))))

/-- The meaning of QMULS (R365). -/
def execQmuls (f : HFields) (s : State) : Host.Outcome State Fault Refusal :=
  s.handDo (fun h =>
    let b := f32Val ((h.hreg f.t).extractLsb' 0 32)
    h.setQ f.d (qTab (fun i => qRound f.x (FVal.mul (f32Val (qLane (h.qreg f.s) i)) b))))

/-- The meaning of QMINMAX (R365, R177). -/
def execQminmax (f : HFields) (s : State) : Host.Outcome State Fault Refusal :=
  s.handDo (fun h => h.setQ f.d (qTab (fun i =>
    BitVec.ofNat 32 (minMaxCode Fmt.f32 (f.x == 1) false (qLane (h.qreg f.s) i).toNat (qLane (h.qreg f.t) i).toNat))))

/-- The meaning of QRSQ (R365, R179). -/
def execQrsq (f : HFields) (s : State) : Host.Outcome State Fault Refusal :=
  s.handDo (fun h => h.setQ f.d (qTab (fun i => BitVec.ofNat 32 (sfuCode .rsq Fmt.f32 (qLane (h.qreg f.s) i).toNat))))

/-- The meaning of QBC (R365). -/
def execQbc (f : HFields) (s : State) : Host.Outcome State Fault Refusal :=
  s.handDo (fun h => h.setQ f.d (qTab (fun _ => (h.hreg f.s).extractLsb' 0 32)))

/-- The meaning of QSUM (R365, R149). -/
def execQsum (f : HFields) (s : State) : Host.Outcome State Fault Refusal :=
  s.handDo (fun h => h.setH f.d (BitVec.ofNat 64 (fixedSum FVal.zero ((List.range 16).map (fun i => f32Val (qLane (h.qreg f.s) i))))))

/-- The meaning of QINS_QEXT (R365). -/
def execQinsQext (f : HFields) (s : State) : Host.Outcome State Fault Refusal :=
  let i := f.imm.toNat % 16
  s.handDo (fun h =>
    if f.x = 0 then h.setQ f.d (qTab (fun l => if l = i then (h.hreg f.s).extractLsb' 0 32 else qLane (h.qreg f.d) l))
    else h.setH f.d ((qLane (h.qreg f.s) i).setWidth 64))

/-! ## The end of a program -/

/-- A watch entry's range tested once as a claim of a column ends (R371). -/
def State.endClaims (s : State) (c : Nat) (p : Claim → Bool) : State :=
  let cs := (s.dev.col c).hand.claims.filter p
  let s : State := { s with dev := s.dev.modHand c (fun h => { h with claims := h.claims.filter (fun x => !p x) }) }
  s.testClaims c cs

/-- The program of a column is over (R374): CPYS of its warp falls, at a completion time where there is one, or its node finishes or
fails. A row that it has opened stays open (R368). -/
def Dev.programOver (d : Dev) (c : Nat) (r : RunDesc) (t : Option Nat) (err : Word) : Dev :=
  let d := d.modHand c (fun h => { h with running := none, wait := .none, halted := false, banks := h.banks.left })
  let d := d.modCol c (fun k => { k with busyEnd := d.now })
  match r.owner with
  | .warp _ s e =>
    match t with
    | some t =>
      d.modCol c (fun k => k.addOp { d.newOp .copy 0 2 [] with slot := s, ctx := r.ctx, reach := 0, time := t, entry := e })
    | none =>
      if e.isSome then d else d.modWarp c s (fun w => { w with copies := w.copies - 1 })
  | .node _ _ _ => if err = 0 then d.nodeReady r.owner (t.getD d.now) else d.nodeFails r.owner 7 err

/-- The record of a stagehand fault (R383, R461): its DETAIL and the PC. -/
def Dev.handRecord (d : Dev) (c : Nat) (r : RunDesc) (detail : Nat) : Dev :=
  d.recordCol c { kind := 0x0C, unit := 0x15, ctx := some r.ctx, detail := BitVec.ofNat 128 (detail % 256 + (d.col c).hand.pc % 8192 * 2 ^ 16) }

/-- A stagehand address translated by its column (R39, R363), with no regard to the column's fault filter, which no stagehand access waits for
(R421, R425): none where the page is refused. -/
def State.handXlate (s : State) (c ctx off : Nat) (write : Bool) : Option TlbEntry × Dev :=
  match s.lookup c ctx off with
  | (.ok e, d) => (if e.mig == 0 && !e.sys && (!write || e.w) then some e else none, d)
  | (.error _, d) => (none, d)

/-- The completion word of a program updated (R374). DEDUCED (log 116): the update is a stagehand access (R421), so that one whose page
does not translate is a stagehand fault of the ended program, which ends without it. -/
def State.programWord (s : State) (c : Nat) (r : RunDesc) (err : Word) (word : Bool) : State :=
  if r.q[2] = 0 || !word then { s with dev := s.dev.programOver c r none err }
  else
    let off := ptrOff r.q[2]
    match s.handXlate c r.ctx off true with
    | (some e, d) =>
      let (s, t) := { s with dev := d }.wordAt c (colOf c r.q[2]) r.ctx off e (if err = 0 then none else some err)
      { s with dev := s.dev.programOver c r (some t) err }
    | (none, d) => { s with dev := (d.handRecord c r 3).programOver c r none (if err = 0 then errWord 0x15 3 5 else err) }

/-- The program of a column ends (R374): its claims end and its completion word is updated. -/
def State.endProgram (s : State) (c : Nat) (err : Word) (word : Bool) : State :=
  match (s.dev.col c).hand.running with
  | none => s
  | some r => (s.endClaims c (fun _ => true)).programWord c r err word

/-- A failed program (R374, R444, R449): a record, and its end with ERR. -/
def State.failProgram (s : State) (c code : Nat) (word : Bool) : State :=
  match (s.dev.col c).hand.running with
  | none => s
  | some r =>
    let err := errWord 0x15 0 code
    let s : State := { s with dev := (s.dev.engineFailed c 0x15 0 r.ctx r.owner.slot err r.q[2]).modHand c (fun h => { h with acc := [] }) }
    s.endProgram c err word

/-- A stagehand fault (R383): a record with the PC, undefined accumulators, and the program's end with ERR. -/
def State.handFault (s : State) (c detail : Nat) : State :=
  match (s.dev.col c).hand.running with
  | none => s
  | some r =>
    let s : State := { s with dev := (s.dev.handRecord c r detail).modHand c (fun h => { h with acc := [] }) }
    s.endProgram c (errWord 0x15 detail 5) true

/-- The meaning of END (R374). -/
def execEnd (_ : HFields) (s : State) : Host.Outcome State Fault Refusal := .next (s.endProgram s.dev.cur.col 0 true)

/-! ## Addresses -/

/-- The address of an instruction (R363). -/
def Hand.addr (h : Hand) (f : HFields) : Nat := (h.hreg f.s + f.imm.signExtend 64).toNat % 2 ^ 44

/-- The context of the running program. -/
def Hand.ctx (h : Hand) : Nat := match h.running with
  | some r => r.ctx
  | none => 0

/-- Vault bytes [va, va + n) lie in a claim that the program holds. -/
def Hand.holds (h : Hand) (va n : Nat) : Bool := h.claims.any (fun x => x.done && decide (x.off ≤ va) && decide (va + n ≤ x.off + x.len))

/-- An instruction's checks in order: the fault of the first that fails, by its DETAIL (R449), or what follows. -/
def State.handCheck (s : State) (cs : List (Bool × Nat)) (go : Unit → State) : State :=
  match cs.find? (fun x => !x.1) with
  | some (_, detail) => s.handFault s.dev.cur.col detail
  | none => go ()

/-- An instruction's access after its first checks: its page translated, and what follows under the translation (R363, R383). -/
def State.handAt (s : State) (cs : List (Bool × Nat)) (off : Nat) (write : Bool) (go : TlbEntry → State → State) :
    Host.Outcome State Fault Refusal :=
  .next (s.handCheck cs (fun _ => match s.handXlate s.dev.cur.col s.hand.ctx off write with
    | (none, d) => { s with dev := d }.handFault s.dev.cur.col 3
    | (some e, d) => go e { s with dev := d }))

/-! ## VLD and VST -/

/-- The size of a VLD or a VST (R365). -/
def vSize (x : BitVec 3) : Nat := if x = 0 then 64 else if x = 1 then 8 else 4

/-- Bytes [va, va + n) of one line read at their home slice or, under a claim, in the vault (R366). -/
def State.handLine (s : State) (c va n : Nat) (zc : Bool) : Dev :=
  (s.homeRead c va 0 zc none ((List.range ((va + n + 31) / 32 - va / 32)).map (fun i => (va / 32 + i) * 32))).1

/-- The sectors of [va, va + n) read at their home slices (R374). -/
def State.handRead (s : State) (c va n : Nat) (zc : Bool) : Dev :=
  (List.range ((va + n + 31) / 32 - va / 32)).foldl (fun (d : Dev) i =>
    { s with dev := d }.homeSector c ((va / 32 + i) * 32) zc) s.dev

/-- Some sector of [va, va + n) is poisoned. -/
def Dev.poisonedIn (d : Dev) (c va n : Nat) : Bool := (List.range ((va + n + 31) / 32 - va / 32)).any (fun i => d.poisoned (vkey c ((va / 32 + i) * 32)))

/-- A loaded value put into its register (R365). -/
def Hand.loaded (h : Hand) (f : HFields) (bs : List Byte) : Hand :=
  if f.x = 0 then h.setQ f.d (qTab (fun i => BitVec.ofNat 32 (numOf ((bs.drop (4 * i)).take 4)))) else h.setH f.d (BitVec.ofNat 64 (numOf bs))

/-- After an access of the vault under a claim, the next instruction starts when the bank is free (R366, R368). -/
def Column.handAfter (k : Column) (va : Nat) : Column :=
  if k.claimed va then
    { k with hand := { k.hand with banks := { k.hand.banks with free := k.hand.banks.busy.getD (bankOf va) 0 } } }
  else k

/-- The meaning of VLD (R363, R365, R444). -/
def execVld (f : HFields) (s : State) : Host.Outcome State Fault Refusal :=
  let c := s.dev.cur.col
  let h := s.hand
  let off := h.addr f
  let n := vSize f.x
  s.handAt [(off % n == 0, 2)] off false (fun e s =>
    let va := e.va off
    let d := (s.handLine c va n e.zc).modCol c (fun k => k.handAfter va)
    let s : State := { s with dev := d }
    if d.poisonedIn c va n then s.failProgram c 1 true
    else { s with dev := d.modHand c (fun h => (h.loaded f (s.vault.bytes (vkey c va) n)).next) })

/-- The words of a stagehand write at vault address va keep what they held until it is performed (R380). -/
def State.handOld (s : State) (c va n till : Nat) : List HandWord :=
  (List.range ((va + n + 3) / 4 - va / 4)).map (fun i =>
    { word := va / 4 + i, val := BitVec.ofNat 32 (s.vault.num (vkey c ((va / 4 + i) * 4)) 4), till := till })

/-- Bytes that the stagehand writes in the vault, inside a claim, and that are performed at tick `till`: the sectors that they fill lose
their poison (R370, R442), and until then a reader may see the old words (R380). DESIGN CHOICE (log 117): the bytes are in memory from
the start of the instruction. -/
def State.handWrite (s : State) (c va : Nat) (bs : List Byte) (till : Nat) : State :=
  let full := (List.range ((va + bs.length) / 32 - (va + 31) / 32)).map (fun i => vkey c (((va + 31) / 32 + i) * 32))
  -- what it writes of a running kernel's stable page may still be read as it was (R42)
  let d := full.foldl (fun (d : Dev) k => d.setPois k false) ({ s with dev := s.keepStable c va bs.length }.keepOld c va bs)
  let olds := s.handOld c va bs.length till
  { vault := s.vault.write (vkey c va) bs,
    dev := d.modHand c (fun h => { h with writeTime := till + 4, banks := { h.banks with
      olds := h.banks.olds.filter (fun o => decide (d.now < o.till)) ++ olds } }) }

/-- The bytes that a VST stores (R365). -/
def Hand.stored (h : Hand) (f : HFields) : List Byte :=
  if f.x = 0 then ((List.range 16).map (fun i => bytesOf 4 (qLane (h.qreg f.d) i).toNat)).flatten
  else bytesOf (vSize f.x) (h.hreg f.d).toNat

/-- The meaning of VST (R363, R365, R383). -/
def execVst (f : HFields) (s : State) : Host.Outcome State Fault Refusal :=
  let c := s.dev.cur.col
  let h := s.hand
  let off := h.addr f
  let n := vSize f.x
  s.handAt [(off % n == 0, 2)] off true (fun e s =>
    let va := e.va off
    s.handCheck [(h.holds va n, 4)] (fun _ =>
      let s : State := { s with dev := (s.dev.bankShut c va).modCol c (fun k => k.handAfter va) }
      let s := s.handWrite c va (h.stored f) s.hand.banks.free
      { s with dev := s.dev.modHand c Hand.next }))

/-! ## Rows and accumulators -/

/-- A bank's accumulator, with the device: undefined lanes take fresh undefined values (R367). -/
def Dev.accOf (d : Dev) (c bank : Nat) : Vector Word 256 × Dev :=
  match (d.col c).hand.acc.get? bank with
  | some v => (v, d)
  | none =>
    let v : Vector Word 256 := Vector.ofFn (fun i => Config.freeWord (d.free + i.val))
    (v, { d with free := d.free + 256 }.modHand c (fun h => { h with acc := h.acc.set bank v }))

/-- A bank's accumulator written. -/
def Hand.setAcc (h : Hand) (bank : Nat) (v : Vector Word 256) : Hand := { h with acc := h.acc.set bank v }

/-- The phases of a row operation (R368): precharge and activate as the bank needs them, and then the work. -/
def Hand.phases (h : Hand) (bank row : Nat) (work : List Nat) : List Nat :=
  (match h.openRow.get? bank with
    | some r => if r = row then [] else [8, 16]
    | none => [16]) ++ work

/-- A row operation of given phases begins (R368, R381): its row is open after it, and the next instruction starts after its last phase, a
ROPEN of the open row taking one tick. The first phase after a window is the stagehand's. -/
def Hand.beginRow (h : Hand) (now bank row : Nat) (work : List Nat) : Hand :=
  let ps := h.phases bank row work
  let ends := phaseEnds now ps
  { h with openRow := h.openRow.set bank row, banks := { (match ends with
      | e :: _ => h.banks.keepUntil bank e
      | [] => h.banks) with
      run := some { bank := bank, row := some row, ends := ends, rest := [] }, free := ends.getLastD (now + 1) } }

/-- A row operation: its row's vault address, which lies in a claim (R367, R368); `own` asks for the accumulator of its bank (R383). The
checks' order is a choice (log 74). -/
def State.rowOp (f : HFields) (s : State) (write : Bool) (work : List Nat) (own : Nat → Bool) (go : Nat → State → State) :
    Host.Outcome State Fault Refusal :=
  let c := s.dev.cur.col
  let h := s.hand
  let off := h.addr f / 1024 * 1024
  s.handAt [] off write (fun e s =>
    let va := e.va off
    s.handCheck [(h.holds va 1024, 4), (own (bankOf off), 5)] (fun _ =>
      go va { s with dev := s.dev.modHand c (fun h => h.beginRow s.dev.now (bankOf va) (va / 1024) work) }))

/-- The meaning of ROPEN (R368). -/
def execRopen (f : HFields) (s : State) : Host.Outcome State Fault Refusal :=
  State.rowOp f s false [] (fun _ => true) (fun _ s => { s with dev := s.dev.modHand s.dev.cur.col Hand.next })

/-- The sectors of a row read in its bank. -/
def Dev.rowRead (d : Dev) (c va : Nat) : Dev := (List.range 32).foldl (fun (d : Dev) i => d.bankRead c (va + 32 * i)) d

/-- Lane i of an accumulator after a row is added (R367). -/
def raccLane (a w f : Word) : Word := BitVec.ofNat 32 (fixedSum (f32Val a) [FVal.mul (f32Val w) (f32Val f)])

/-- The meaning of RACC (R367, R444). -/
def execRacc (f : HFields) (s : State) : Host.Outcome State Fault Refusal :=
  State.rowOp f s false [32] (fun _ => true) (fun va s =>
    let c := s.dev.cur.col
    let d := s.dev.rowRead c va
    let s : State := { s with dev := d }
    if d.poisonedIn c va 1024 then s.failProgram c 1 true
    else
      let x := (s.hand.hreg f.t).extractLsb' 0 32
      let (a, d) := d.accOf c (bankOf va)
      let v : Vector Word 256 := Vector.ofFn (fun i => raccLane a[i] (BitVec.ofNat 32 (s.vault.num (vkey c (va + 4 * i.val)) 4)) x)
      { s with dev := d.modHand c (fun h => (h.setAcc (bankOf va) v).next) })

/-- The program has an accumulator in a bank, or none in any (R383). DEDUCED (log 71): a RWR to a row of another bank than those that the
program has accumulated in or cleared is the fault of DETAIL 5. -/
def Hand.ownAcc (h : Hand) (bank : Nat) : Bool := h.acc.isEmpty || h.acc.has bank

/-- The meaning of RWR (R367): the accumulator of the addressed row's bank goes into the row, and is cleared with X = 001. -/
def execRwr (f : HFields) (s : State) : Host.Outcome State Fault Refusal :=
  State.rowOp f s true [32] s.hand.ownAcc (fun va s =>
    let c := s.dev.cur.col
    let (a, d) := s.dev.accOf c (bankOf va)
    let s := { s with dev := d }.handWrite c va ((a.toList.map (fun w : Word => bytesOf 4 w.toNat)).flatten) s.hand.banks.free
    { s with dev := s.dev.modHand c (fun h =>
        (if f.x = 1 then h.setAcc (bankOf va) (Vector.replicate 256 0) else h).next) })

/-- The meaning of RCLR (R363, R365): the accumulator of the addressed bank is +0. -/
def execRclr (f : HFields) (s : State) : Host.Outcome State Fault Refusal :=
  let off := s.hand.addr f
  s.handAt [] off false (fun _ s =>
    { s with dev := s.dev.modHand s.dev.cur.col (fun h => (h.setAcc (bankOf off) (Vector.replicate 256 0)).next) })

/-! ## Claims -/

/-- The lines of [lo, hi) written back and invalidated in L2, pinned ones included (R369); their lease records stay (R244). -/
def Column.l2Invalidate (k : Column) (lo hi : Nat) : Column :=
  { k with l2 := k.l2.map (fun t : L2Tag =>
      { t with lines := Vector.ofFn (fun i : Fin 4 =>
          let a := t.sb * 512 + i.val * 128
          let l := t.line i.val
          if decide (lo ≤ a) && decide (a < hi) then { l.drop with pinned := false } else l) }) }

/-- Every lease on the lines of [lo, hi) ended four ticks ago or more (R369, R245). -/
def Column.leasesOver (k : Column) (now lo hi : Nat) : Bool :=
  (List.range ((hi - lo + 127) / 128)).all (fun i => decide (k.lx (lo + 128 * i) + 4 ≤ now))

/-- The parts of a claim of rows [lo, hi) of offsets in pages of given granules; none where one fails R363 for a write. -/
def State.claimPages (s : State) (c ctx slot lo hi : Nat) : List Nat → Option (List Claim) × Dev
  | [] => (some [], s.dev)
  | g :: gs =>
    let a := max lo (g * 65536)
    let b := min hi ((g + 1) * 65536)
    match s.handXlate c ctx (a % 2 ^ 44) true with
    | (none, d) => (none, d)
    | (some e, d) =>
      match State.claimPages { s with dev := d } c ctx slot lo hi gs with
      | (none, d) => (none, d)
      | (some ps, d) => (some ({ slot := slot, off := e.va a, len := b - a, done := false } :: ps), d)

/-- The pages' parts of a claim of rows [lo, hi) of offsets (R369). -/
def State.claimParts (s : State) (c ctx slot lo hi : Nat) : Option (List Claim) × Dev :=
  s.claimPages c ctx slot lo hi ((List.range (granOf (hi - 1) + 1 - granOf lo)).map (fun i => granOf lo + i))

/-- The meaning of CLAIM (R369): the lines leave L2, and the program waits until the claim completes. -/
def execClaim (f : HFields) (s : State) : Host.Outcome State Fault Refusal :=
  let c := s.dev.cur.col
  let h := s.hand
  let slot := f.x.toNat % 4
  let lo := (h.hreg f.s).toNat % 2 ^ 44
  let n := (h.hreg f.t).toNat
  .next (s.handCheck [(decide (1 ≤ n) && decide (n ≤ 2 ^ 22) && h.claims.all (fun x => x.slot != slot), 6)] (fun _ =>
    match s.claimParts c h.ctx slot (lo / 1024 * 1024) ((lo + n + 1023) / 1024 * 1024) with
    | (none, d) => { s with dev := d }.handFault c 6
    | (some ps, d) =>
      let d := d.modCol c (fun k => ps.foldl (fun (k : Column) x => k.l2Invalidate x.off (x.off + x.len)) k)
      { s with dev := d.modHand c (fun h => { h with claims := h.claims ++ ps, wait := .claim }) }))

/-- The meaning of CLAIM_COMPLETE (R369). -/
def execClaimComplete (col : Nat) (s : State) : Host.Outcome State Fault Refusal :=
  let k := s.dev.col col
  let ps := k.hand.claims.filter (fun x => !x.done)
  if k.hand.wait == .claim && ps.all (fun x => k.leasesOver s.dev.now x.off (x.off + x.len)) then
    let d := s.dev.modCol col (fun k => ps.foldl (fun (k : Column) x => k.l2Invalidate x.off (x.off + x.len)) k)
    .next { s with dev := d.modHand col (fun h =>
      { h with claims := h.claims.map (fun x : Claim => { x with done := true }), wait := .none, pc := h.pc + 1 }) }
  else .next s

/-- The meaning of UNCLM (R371). -/
def execUnclm (f : HFields) (s : State) : Host.Outcome State Fault Refusal :=
  let c := s.dev.cur.col
  let s := s.endClaims c (fun x => x.slot == f.x.toNat % 4)
  .next { s with dev := s.dev.modHand c Hand.next }

/-! ## Signals and cues -/

/-- The meaning of SIGNAL (R365, R349). -/
def execSignal (f : HFields) (s : State) : Host.Outcome State Fault Refusal :=
  let c := s.dev.cur.col
  let h := s.hand
  let p := h.hreg f.s
  s.handAt [(s.dev.partPtr h.ctx p && ptrOff p % 8 == 0, 7)] (ptrOff p) true (fun e s =>
    let (s, t) := s.wordAt c (colOf c p) h.ctx (ptrOff p) e none
    { s with dev := s.dev.modHand c (fun h => { h with writeTime := max h.writeTime t, pc := h.pc + 1 }) })

/-- The entries of a column's stagehand leave the watch tables. -/
def Dev.cuewForget (d : Dev) (c : Nat) : Dev :=
  { d with cols := d.cols.mapVals (fun _ k => { k with watches := k.watches.filter (fun w => !(w.who == .hand && w.wcol == c)) }) }

/-- CUEW ends with a status (R384). -/
def Dev.cuewEnd (d : Dev) (c : Nat) (r : BitVec 5) (status : Nat) : Dev :=
  (d.cuewForget c).modHand c (fun h => { (h.setH r (BitVec.ofNat 64 status)).next with wait := .none, halted := false })

/-- A cue's word under a translation of a stagehand, to be read at its slice. -/
def cueLane (tc off : Nat) (e : TlbEntry) : LaneAcc := { laneWant 0 tc off 4 0 with va := e.va off, cut := 4, zc := e.zc, stable := e.stable }

/-- The meaning of CUEW (R365, R384): done where the cue is reached, else registered at the cue's slice, or, with its table full, read every
256 ticks. -/
def execCuew (f : HFields) (s : State) : Host.Outcome State Fault Refusal :=
  let c := s.dev.cur.col
  let h := s.hand
  let p := h.hreg f.s
  let off := ptrOff p
  s.handAt [(s.dev.partPtr h.ctx p && off % 4 == 0, 7)] off false (fun e s =>
    let tc := colOf c p
    let va := e.va off
    let t := (h.hreg f.t).extractLsb' 0 32
    let (hit, d) := s.cueReached (cueLane tc off e) t
    let dl := if f.imm = 0 then none else some (d.now + 256 * f.imm.toNat)
    if hit then { s with dev := d.cuewEnd c f.d 0 }
    else if (d.col tc).watchCount va < 64 then
      let w : Watch := { va := va, cmp := 6, value := t, who := .hand, wcol := c, ctx := h.ctx, fired := none }
      let d := d.modCol tc (fun k => { k with watches := k.watches ++ [w] })
      { s with dev := d.modHand c (fun h => { h with wait := .cuew f.d tc off t dl none }) }
    else { s with dev := d.modHand c (fun h => { h with wait := .cuew f.d tc off t dl (some d.now) }) })

/-- A waiting CUEW's cue has been reached: by its watch entry, or by a read 256 ticks after the last one (R355, R384). -/
def State.cueSeen (s : State) (c tc off : Nat) (t : Word) (poll : Option Nat) : Bool × Dev :=
  match poll with
  | some n =>
    if s.dev.now < n + 256 then (false, s.dev)
    else match s.handXlate c (s.dev.col c).hand.ctx off false with
      | (some e, d) => { s with dev := d }.cueReached (cueLane tc off e) t
      | (none, d) => (false, d)
  | none => ((s.dev.col tc).watches.any (fun w => w.who == .hand && w.wcol == c && w.fired.isSome), s.dev)

/-- The meaning of CUEW_WAKE (R384). -/
def execCuewWake (col : Nat) (s : State) : Host.Outcome State Fault Refusal :=
  let h := (s.dev.col col).hand
  match h.wait with
  | .cuew r tc off t dl poll =>
    let (hit, d) := s.cueSeen col tc off t poll
    let s : State := { s with dev := d }
    if hit then .next { s with dev := s.dev.cuewEnd col r 0 }
    else if (match dl with
      | some n => decide (n ≤ s.dev.now)
      | none => false) then .next { s with dev := s.dev.cuewEnd col r 1 }
    else if h.halted then .next { s with dev := s.dev.cuewEnd col r 2 }
    else
      match poll with
      | some n =>
        if n + 256 ≤ s.dev.now then
          .next { s with dev := s.dev.modHand col (fun h => { h with wait := .cuew r tc off t dl (some s.dev.now) }) }
        else .next s
      | none => .next s
  | _ => .next s

/-- The meaning of AQSVC (R376): the program waits until the atomic queue is empty. -/
def execAqsvc (_ : HFields) (s : State) : Host.Outcome State Fault Refusal :=
  .next { s with dev := s.dev.modHand s.dev.cur.col (fun h =>
    if h.atomq.isEmpty then { h.next with wait := .none } else { h with wait := .aqsvc }) }

/-! ## NMRUN -/

/-- NMRUN's descriptor read at the home slices, and put into the run queue (R373). -/
def State.nmrunGo (s : State) (p : BitVec 64) : Issue :=
  let d := s.dev
  let c := d.cur.col
  let ctx := d.curWarp.ctx
  if 8 ≤ d.curCol.hand.runq.length ∨ 63 ≤ d.curWarp.copies then .hold d
  else
    match s.engineReads c c ctx d.cur.priv 3 (ptrOff p) 48 with
    | (.error (.fault f g), d) => .hold (d.holdFault .load [(f, g)])
    | (.error (.fail _ _), d) => .hold d
    | (.ok bs, d) =>
      let qs := wordsOf (bs.map Prod.fst) 6
      let r : RunDesc :=
        { q := Vector.ofFn (fun i => BitVec.ofNat 64 (qs.getD i.val 0)), owner := .warp c d.cur.slot none, ctx := ctx, pois := bs.any Prod.snd }
      let d := d.modHand c (fun h => { h with runq := h.runq ++ [r] })
      .retire (d.modCurWarp (fun w => { w with copies := w.copies + 1 })).advance

/-- NMRUN (R373). -/
def nmrunIssue (f : VFields) (s : State) : Issue :=
  s.dev.whole f.h (fun _ =>
    let d := s.dev
    let x := vctx d f.h []
    let lo := rangeSrc x.w 1 f.a 0
    let hi := rangeSrc x.w 1 f.a 1
    let p := ptrOf lo.uni hi.uni
    x.withUni [rangeBound x.regs f.a.reg.toNat 2] [Use.ptr lo, Use.ptr hi]
      [pairTrap x.act p (ownSel d.cur.col p) 0x13, pairTrap x.act p (ptrOff p % 64 == 0) 0x14]
      (fun _ => d.afterAcquire (fun _ => s.nmrunGo p)))

/-- The meaning of NMRUN. -/
def execNmrun (f : VFields) (s : State) : Host.Outcome State Fault Refusal := s.conclude ((nmrunIssue f s).hinted f.hint)

/-! ## The start of a program -/

/-- The fields of a run descriptor (R372). -/
def RunDesc.img (r : RunDesc) : Nat := bitsOf r.q[0].toNat 43 0
/-- ILEN (R372). -/
def RunDesc.ilen (r : RunDesc) : Nat := bitsOf r.q[0].toNat 56 44 + 1
/-- ENTRY (R372). -/
def RunDesc.entry (r : RunDesc) : Nat := bitsOf r.q[1].toNat 12 0

/-- The completion word's pointer keeps R349's placement rule: a column of the partition, 8-byte aligned. -/
def Dev.runWordOk (d : Dev) (r : RunDesc) : Bool := r.q[2] == 0 || (d.partPtr r.ctx r.q[2] && ptrOff r.q[2] % 8 == 0)

/-- A descriptor is not rejected (R374). -/
def Dev.runOk (d : Dev) (r : RunDesc) : Bool :=
  bitsOf r.q[0].toNat 63 57 == 0 && r.img % 64 == 0 && bitsOf r.q[1].toNat 63 27 == 0 && bitsOf r.q[1].toNat 15 13 == 0 &&
    bitsOf r.q[1].toNat 26 16 == 0x7FF && decide (r.entry < r.ilen) && d.runWordOk r

/-- The words of a program image from word i on, through the home slices (R374): what stops the load, or the words with whether one is poisoned. -/
def State.loadImage (s : State) (c ctx : Nat) : Nat → Nat → Option (Table (BitVec 64) × Bool) × Dev
  | 0, _ => (some ([], false), s.dev)
  | n + 1, off =>
    match s.handXlate c ctx (off % 2 ^ 44) false with
    | (none, d) => (none, d)
    | (some e, d) =>
      let va := e.va (off % 2 ^ 44)
      let d := { s with dev := d }.handRead c va 8 e.zc
      let w := BitVec.ofNat 64 (s.vault.num (vkey c va) 8)
      match State.loadImage { s with dev := d } c ctx n (off + 8) with
      | (none, d) => (none, d)
      | (some (ws, p), d) => (some ((0, w) :: ws.map (fun x => (x.1 + 1, x.2)), p || d.poisoned (vkey c va)), d)

/-- A program's registers as it starts (R374). -/
def Hand.begin (h : Hand) (r : RunDesc) (ws : Table (BitVec 64)) : Hand :=
  { h with h := Vector.ofFn (fun i => if i.val = 1 then r.q[3] else if i.val = 2 then r.q[4] else if i.val = 3 then r.q[5] else 0),
           q := Vector.replicate 16 (Vector.replicate 16 0), pc := r.entry, prog := ws, ilen := r.ilen, wait := .none, acc := [],
           halted := false }

/-- The head of the run queue taken by the stagehand of a column (R374). -/
def State.startProgram (s : State) (c : Nat) (r : RunDesc) : State :=
  let s : State := { s with dev := s.dev.modCol c (fun k => { k with gated := false, hand := { k.hand with
    runq := k.hand.runq.drop 1, running := some r, wait := .none, pc := r.entry, acc := [], halted := false } }) }
  if r.pois then s.failProgram c 1 (s.dev.runWordOk r)
  else if !s.dev.runOk r then s.failProgram c 4 (s.dev.runWordOk r)
  else
    match s.loadImage c r.ctx r.ilen r.img with
    | (none, d) => { s with dev := d }.handFault c 3
    | (some (ws, p), d) =>
      if p then { s with dev := d }.failProgram c 1 true
      else { s with dev := d.modHand c (fun h => h.begin r ws) }

/-- A stagehand may take a program: it is ready (R392), runs none, and its partition is not held (R95). -/
def Dev.handFree (d : Dev) (c : Nat) (r : RunDesc) : Bool :=
  let p := d.part (d.ctx r.ctx).part
  (d.col c).hand.running.isNone && d.ready.contains (.stage c) && !p.held && !p.holdWanted

/-- The meaning of STAGEHAND_PROGRAM_START (R374). -/
def execStagehandProgramStart (col : Nat) (s : State) : Host.Outcome State Fault Refusal :=
  match (s.dev.col col).hand.runq with
  | r :: _ => if s.dev.handFree col r then .next (s.startProgram col r) else .next s
  | [] => .next s

/-! ## The atomic queue -/

/-- The value that an entry writes, if it writes one: F32 add is a fixed sum (R377). -/
def NmEntry.new (e : NmEntry) (old : Word) : Option Word :=
  if e.aop = 0 ∧ e.ty = Fmt.f32 then some (BitVec.ofNat 32 (fixedSum (f32Val old) [f32Val e.val]))
  else atomNew e.aop e.ty e.rm old e.val e.val2

/-- The stagehand has nothing under way (R366, R376, R381): what it did last is done, and no window suspends it. -/
def BankTimes.ready (b : BankTimes) (now : Nat) : Bool :=
  decide (b.free ≤ now) && (match b.run with
    | some r => !b.windows.has r.bank
    | none => true)

/-- The stagehand may serve its queue now (R376). -/
def Hand.serves (h : Hand) (now : Nat) : Bool :=
  h.banks.ready now && match h.running, h.wait, h.atomq with
  | _, _, [] => false
  | none, _, _ => true
  | some _, .none, e :: _ => decide (e.tick + 512 ≤ now)
  | some _, _, _ => true

/-- An entry's service begins: it holds its bank for 32 ticks (R376) and leaves it closed. -/
def Hand.serveEntry (h : Hand) (now bank : Nat) : Hand :=
  { h with openRow := h.openRow.del bank, banks := { h.banks.keepUntil bank (now + 32) with
      run := some { bank := bank, row := none, ends := [now + 32], rest := [] }, free := now + 32 } }

/-- An entry performed in the vault (R376, R377): the word, its poison (R442), and its warp's count and latest completion time (R379). -/
def State.nmPerform (s : State) (c : Nat) (e : NmEntry) : State :=
  let key := vkey c e.va
  let old := BitVec.ofNat 32 (s.vault.num key 4)
  let s : State := { s with dev := (s.dev.bankRead c e.va).modHand c (fun h => h.serveEntry s.dev.now (bankOf e.va)) }
  let s : State := match e.new old with
    | some v =>
      let bs := bytesOf 4 v.toNat
      let s : State := if e.stable then { s with dev := s.keepStable c e.va 4 } else s
      { vault := s.vault.write key bs, dev := (s.keepOld c e.va bs).setPois key (s.dev.poisoned key || e.pois) }
    | none => s
  if e.orph then s
  else { s with dev := s.dev.modWarp c e.slot (fun w => { w with nmPending := w.nmPending - 1, nmTime := max w.nmTime (s.dev.now + 4) }) }

/-- The head entry served: its row is claimed by the program or by the service claim, which ends before an entry of another row (R376). -/
def State.nmServe (s : State) (c : Nat) (e : NmEntry) (rest : List NmEntry) : State :=
  let row := e.va / 1024
  let own := (s.dev.col c).hand.claims.any (fun x => x.done && decide (x.off / 1024 ≤ row) && decide (row < (x.off + x.len) / 1024))
  let s := s.nmPerform c e
  let keep := !own && (match rest with
    | n :: _ => n.va / 1024 == row
    | [] => false)
  let s : State := { s with dev := (s.dev.modHand c (fun h => { h with atomq := rest, service := if keep then some row else none })).modCol c (fun k =>
    { k with busyEnd := s.dev.now }) }
  if own || keep then s else s.testWatches c (row * 1024) 1024

/-! ## Windows at a bank -/

/-- Where a copy of column c reads and writes next, by column and offset. -/
def CopyCmd.places (x : CopyCmd) (c : Nat) : List (Nat × Nat) :=
  let off := match x.srec, x.drec with
    | some p, some q =>
      if x.desc.form = 0 then (ptrOff x.desc.src + x.pos, ptrOff x.desc.dst + x.pos)
      else
        let ij := copyIndex x.desc (copyBox x.desc p q) x.pos
        (p.bitFrom (ptrOff x.desc.src) ij.1 / 8, q.bitFrom (ptrOff x.desc.dst) ij.2 / 8)
    | _, _ => (ptrOff x.desc.src + x.pos, ptrOff x.desc.dst + x.pos)
  (if x.desc.sk = 0 then [(colOf c x.desc.src, off.1)] else []) ++ (if x.desc.dk = 0 then [(colOf c x.desc.dst, off.2)] else [])

/-- An ordinary request is pending at a bank (R381): a lane of a warp's access, of any column, or a copy's next bytes. Translation leaves
the bank's bits of an offset unchanged (R367). -/
def Dev.bankWanted (d : Dev) (c bank : Nat) : Bool :=
  d.cols.any (fun p =>
    p.2.ops.any (fun o => o.lanes.any (fun a => a.tcol == c && bankOf a.off == bank)) ||
      p.2.copies.any (fun x => x.stage == 1 && (x.places p.1).any (fun y => y.1 == c && bankOf y.2 == bank)))

/-- A column's stagehand takes its bank again where its window is over. -/
def Dev.resumeHand (d : Dev) (c : Nat) : Dev :=
  match (d.col c).hand.banks.run with
  | some r => d.modHand c (fun h => h.resume d.now (d.bankWanted c r.bank))
  | none => d

/-- A window opens at a bank where a row operation or a queue entry is under way (R381). -/
def Hand.window (h : Hand) (now bank : Nat) : Hand :=
  if h.banks.holds now bank && !h.banks.windows.has bank && h.banks.kept.get? bank != some none then
    { h with openRow := h.openRow.del bank, banks := h.banks.request now bank }
  else h

/-- The meaning of BANK_WINDOW (R381): an ordinary request that is pending at a bank arrives where a row operation or a queue entry is under way. -/
def execBankWindow (col bank : Nat) (s : State) : Host.Outcome State Fault Refusal :=
  if s.dev.bankWanted col bank then .next { s with dev := s.dev.modHand col (fun h => h.window s.dev.now bank) } else .next s

/-- The meaning of ATOMIC_QUEUE_SERVE (R376): the head entry's row is claimed, once its lines' leases are over (R369), and the entry
performed. -/
def execAtomicQueueServe (col : Nat) (s : State) : Host.Outcome State Fault Refusal :=
  let s : State := { s with dev := s.dev.resumeHand col }
  let k := s.dev.col col
  match k.hand.atomq with
  | [] => .next s
  | e :: rest =>
    let row := e.va / 1024
    if !k.hand.serves s.dev.now then .next s
    else if k.claimed e.va then .next (s.nmServe col e rest)
    else
      let s : State := { s with dev := s.dev.modCol col (fun k => k.l2Invalidate (row * 1024) (row * 1024 + 1024)) }
      if k.leasesOver s.dev.now (row * 1024) (row * 1024 + 1024) then .next (s.nmServe col e rest) else .next s

end Sys2Proof.Machine
end

