-- ==== Sys2Proof/Machine/Errors.lean ====
section
/-! DEFINITION. The errors that a store's code or parity finds (R438, R439, R448, R463), one turn of the environment's schedule each (log 120). The
opcode table has no row for them. -/

namespace Sys2Proof.Machine

/-! ## Counting and recording -/

/-- An uncorrectable error of a column outside its vault: the column is to be retired once they exceed the limit (R458). -/
def Column.hwError (k : Column) : Column :=
  { k with hwErrs := k.hwErrs + 1, retiring := k.retiring || decide (Config.retirementLimit < k.hwErrs + 1) }

/-- An uncorrectable error of a column outside its vault, counted and recorded (R458, R461, R462); its syndrome is free (log 7). -/
def Dev.columnError (d : Dev) (c : Nat) (r : RecordInfo) : Dev :=
  let (a, d) := d.draw
  let (b, d) := d.draw
  (d.modCol c Column.hwError).recordCol c { r with synd := a ++ b }

/-- Uncorrectable data in a unit's block, at an offset or a byte of the pool or the B-SRAM (R461). -/
def Dev.dataError (d : Dev) (c unit block at_ : Nat) : Dev :=
  d.columnError c { kind := 0x01, unit := unit, block := block, detail := BitVec.ofNat 128 at_ }

/-! ## The stores -/

/-- A read at the controller that finds an error in a sector (R438). While the L2 holds the line nothing reads the sector there. -/
def Dev.sectorError (d : Dev) (c va : Nat) (corrected : Bool) : Dev :=
  if (d.col c).l2Valid va || decide (vaultSize ≤ va) then d
  else
    let key := vkey c va / 32
    ({ d with inject := (key, corrected) :: d.inject.filter (fun x => x.1 != key) } : Dev).bankRead c va

/-- An error in an L2 data slot (R438): a clean line is read again from the vault; in a dirty line the sector becomes poisoned. -/
def State.slotError (s : State) (c va : Nat) : State :=
  match (s.dev.col c).l2Tag (va / 512) with
  | none => s
  | some t =>
    let l := t.line (va / 128)
    if !l.valid then s
    else
      let d := s.dev.dataError c 0x11 (sliceOf va) (va / 32 * 32)
      let d := if l.dirty then d.setPois (vkey c va) true else d.controllerReads c (lineSectors va)
      { s with dev := ({ s with dev := d } : State).l2Written c va }

/-- The dirty sectors of a tag, by vault address: those of its dirty lines. -/
def L2Tag.dirtySectors (t : L2Tag) : List Nat :=
  ((List.range 4).filter (fun i => (t.line i).valid && (t.line i).dirty)).flatMap (fun i => lineSectors (t.sb * 512 + i * 128))

/-- An error in an L2 tag (R438): the tag is dropped, and every dirty sector of its superblock is poisoned in the vault. -/
def Dev.tagError (d : Dev) (c sb : Nat) : Dev :=
  match (d.col c).l2Tag sb with
  | none => d
  | some t =>
    let d := d.dataError c 0x11 (sb % 4) (sb * 512)
    t.dirtySectors.foldl (fun (d : Dev) a => d.setPois (vkey c a) true) (d.modCol c (fun k => k.l2Evict sb))

/-- An L1 line dropped, to be fetched again. -/
def L1Frame.drop (f : L1Frame) (j : Nat) : L1Frame :=
  { f with lines := Vector.ofFn (fun i : Fin 4 => if i.val = j then { f.lines[i] with present := 0 } else f.lines[i]) }

/-- An error in an L1 line (R438). -/
def Dev.l1Error (d : Dev) (c i j : Nat) : Dev :=
  match (d.col c).l1[i]? with
  | none => d
  | some f =>
    (d.dataError c 0x04 (f.sb % (d.col c).l1Sets) (f.sb * 512 + j % 4 * 128)).modCol c (fun k =>
      { k with l1 := k.l1.set i (f.drop (j % 4)) })

/-- Word l of the row of a register becomes poisoned (R438, R440): the bit of its lane, or the one bit of a uniform or affine register, which has
one or two words (R65). -/
def RegData.spoilWord (r : RegData) (l : Nat) : RegData :=
  match r with
  | .uniform v p => .uniform v (p || l == 0)
  | .affine b s p => .affine b s (p || decide (l < 2))
  | .general vs p => .general vs (p ||| 1#32 <<< (l % 32))

/-- A register row's word becomes poisoned: row w × REGS + j holds vj of warp slot w (R202). -/
def Column.spoilRow (k : Column) (i : Nat) : Column :=
  let row := i / 32
  let slot := row / k.regions.regs
  let j := row % k.regions.regs
  if k.warps.has slot then
    let w := k.warp slot
    k.putWarp slot { w with regs := w.regs.set j { w.reg j with data := (w.reg j).data.spoilWord (i % 32) } }
  else k

/-- A word of the pool outside the rows of the warps, or of the B-SRAM, with poison: one that nothing has written stands as the context reads it. -/
def spoilWord (ctx : Nat) (x : Word × Bool) (e : Option PoolWord) : PoolWord :=
  match e with
  | some p => { p with pois := true }
  | none => { val := x.1, pois := true, ctx := ctx }

/-- The context that is resident on a column. -/
def Dev.ctxOn (d : Dev) (c : Nat) : Nat := 
  (((d.parts.filter (fun x => x.2.columns.contains c)).filterMap (fun x => d.residentOf x.1)).head?).getD 0

/-- An error in a word of the pool (R438): the word becomes poisoned; the L1's lines have their own. -/
def Dev.poolError (d : Dev) (c i : Nat) : Dev :=
  let k := d.col c
  let a := 4 * i
  let ctx := d.ctxOn c
  if k.poolAcc ≤ a then d
  else if a < k.poolReg ∧ k.warps.has (i / 32 / k.regions.regs) then (d.dataError c 0x01 (a / 128) a).modCol c (fun k => k.spoilRow i)
  else
    let (unit, block) :=
      if a < k.poolReg then (0x01, a / 128)
      else if a < k.poolSpad then (0x02, i / 1024)
      else (0x03, (a - k.poolSpad) / 16384)
    (d.dataError c unit block a).modCol c (fun k => { k with pool := k.pool.set i (spoilWord ctx (k.blank ctx i) (k.pool.get? i)) })

/-- An error in a word of the B-SRAM (R438), whose blocks are its stripes (R300). -/
def Dev.bsramError (d : Dev) (c i : Nat) : Dev :=
  if 262144 ≤ i then d
  else
    let ctx := d.ctxOn c
    (d.dataError c 0x10 (i % 64) (4 * i)).modCol c (fun k =>
      { k with bsram := k.bsram.set i (spoilWord ctx (k.blank ctx (bsBase + i)) (k.bsram.get? i)) })

/-! ## Control state -/

/-- An error in a control structure of a context on a column (R438, R451): a record, and the context is reset with cause 3. -/
def State.controlError (s : State) (c ctx unit block structure_ : Nat) : State :=
  if (s.dev.ctx ctx).state != .resident || !s.dev.inPart ctx c then s
  else
    let r : RecordInfo := { kind := 0x02, unit := unit, block := block, ctx := some ctx, detail := BitVec.ofNat 128 structure_ }
    ({ s with dev := s.dev.columnError c r } : State).contextReset ctx 3 0 none

/-- A flit of a network stage that still fails its CRC after 8 retries (R448): every context with traffic on the hop is reset with cause 3. -/
def State.hopError (s : State) (die stage : Nat) (ctxs : List Nat) : State :=
  let (a, d) := s.dev.draw
  let (b, d) := d.draw
  let d := d.record die { kind := 0x02, unit := 0x25, block := stage, synd := a ++ b }
  (ctxs.filter (fun c => (d.ctx c).state == .resident)).foldl (fun (s : State) c => s.contextReset c 3 0 none) { s with dev := d }

/-- A codeword that a lane of a port corrects: CORR counts it (R463, R464). -/
def Dev.laneError (d : Dev) (i l : Nat) : Dev :=
  if !d.ready.contains (.port i) || decide (8 ≤ l) then d
  else
    let old := ((d.port i).lanes.toList.getD l { margin := 0, retry := 0, corr := 0 }).corr
    let d := d.modPort i (fun p => { p with
      lanes := Vector.ofFn (fun k => if k.val = l then { p.lanes[k] with corr := satNext old 40 } else p.lanes[k]) })
    d.reaches none 0 0x20 (8 * i + l) 2 old (satNext old 40)

/-! ## The turn -/

/-- What the finding of an error does. -/
def State.hwError (s : State) (e : HwError) : State :=
  match e with
  | .sector c va b => { s with dev := s.dev.sectorError c va b }
  | .slot c va => s.slotError c va
  | .tag c sb => { s with dev := s.dev.tagError c sb }
  | .l1 c i j => { s with dev := s.dev.l1Error c i j }
  | .pool c i => { s with dev := s.dev.poolError c i }
  | .bsram c i => { s with dev := s.dev.bsramError c i }
  | .control c ctx unit block n => s.controlError c ctx unit block n
  | .hand c => s.failProgram c 8 true
  | .hop die stage ctxs => s.hopError die stage ctxs
  | .lane i l => { s with dev := s.dev.laneError i l }

end Sys2Proof.Machine
end

