-- ==== Sys2Proof/Machine/Digest.lean ====
section
/-! DEFINITION. SHAKE256 (R388, R395, R396), as FIPS 202 defines it: the spec names the function and does not write it out. PRESUMED (log 4). -/

namespace Sys2Proof.Machine

/-- A Keccak state: 25 lanes of 64 bits, lane (x, y) at 5y + x. -/
abbrev Keccak := Vector (BitVec 64) 25

/-- A Keccak state by its lanes. -/
def keccakOf (f : Nat → BitVec 64) : Keccak := Vector.ofFn (fun i => f i.val)

/-- Lane i of a state. -/
def Keccak.at_ (a : Keccak) (i : Nat) : BitVec 64 := a[i % 25]'(Nat.mod_lt _ (by decide))

/-- The rotations of step ρ along its walk (x, y) → (y, 2x + 3y) from (1, 0), lane by lane: step t + 1 of the walk rotates by the triangular number
(t + 1)(t + 2)/2. -/
def rhoWalk : Nat → Nat → Nat × Nat → List (Nat × Nat)
  | 0, _, _ => []
  | n + 1, t, (x, y) => (5 * y + x, (t + 1) * (t + 2) / 2 % 64) :: rhoWalk n (t + 1) (y, (2 * x + 3 * y) % 5)

/-- The rotation of each lane in step ρ: lane (0, 0), which the walk never meets, is not rotated. -/
def rhoOf (i : Nat) : Nat := (((rhoWalk 24 0 (1, 0)).find? (fun p => p.1 == i)).map Prod.snd).getD 0

/-- One step of the shift register of step ι, whose feedback is x⁸ + x⁶ + x⁵ + x⁴ + 1. -/
def iotaStep (r : BitVec 8) : BitVec 8 := (r <<< 1) ^^^ (if r.msb then 0x71 else 0)

/-- The next seven bits of the register, bit j at place 2^j - 1 of the constant, with the register after them. -/
def iotaBits : Nat → Nat → BitVec 8 → BitVec 64 → BitVec 64 × BitVec 8
  | 0, _, r, w => (w, r)
  | n + 1, j, r, w => iotaBits n (j + 1) (iotaStep r) (if r.getLsbD 0 then w ||| (1#64 <<< (2 ^ j - 1)) else w)

/-- The constants of step ι in the order of the rounds. -/
def iotaRounds : Nat → BitVec 8 → List (BitVec 64)
  | 0, _ => []
  | n + 1, r => let (w, r) := iotaBits 7 0 r 0; w :: iotaRounds n r

/-- Steps θ, ρ, π, χ and ι of one round. -/
def keccakRound (a : Keccak) (rc : BitVec 64) : Keccak :=
  let cs : Vector (BitVec 64) 5 := Vector.ofFn (fun x => (List.range 5).foldl (fun w y => w ^^^ a.at_ (x.val + 5 * y)) 0)
  let col (x : Nat) : BitVec 64 := cs[x % 5]'(Nat.mod_lt _ (by decide))
  let th : Keccak := keccakOf (fun i => a.at_ i ^^^ col (i + 4) ^^^ (col (i + 1)).rotateLeft 1)
  -- lane (x, y) of the result comes from lane (x + 3y, x)
  let b : Keccak := keccakOf (fun i =>
    let j := 5 * (i % 5) + (i % 5 + 3 * (i / 5)) % 5
    (th.at_ j).rotateLeft (rhoOf j))
  let r : Keccak := keccakOf (fun i => b.at_ i ^^^ (~~~(b.at_ (i / 5 * 5 + (i + 1) % 5)) &&& b.at_ (i / 5 * 5 + (i + 2) % 5)))
  keccakOf (fun i => if i = 0 then r.at_ 0 ^^^ rc else r.at_ i)

/-- Keccak-f[1600]. -/
def keccakF (a : Keccak) : Keccak := (iotaRounds 24 1).foldl keccakRound a

/-- One block of 136 bytes absorbed. -/
def keccakAbsorb (a : Keccak) (bs : List Byte) : Keccak :=
  keccakF (keccakOf (fun i => a.at_ i ^^^ (if i < 17 then BitVec.ofNat 64 (numOf ((bs.drop (8 * i)).take 8)) else 0)))

/-- The blocks of a padded message absorbed. -/
def keccakBlocks : Nat → Keccak → List Byte → Keccak
  | 0, a, _ => a
  | n + 1, a, bs => keccakBlocks n (keccakAbsorb a (bs.take 136)) (bs.drop 136)

/-- The padding of SHAKE256 after a message of n bytes. -/
def shakePad (n : Nat) : List Byte :=
  let z := 135 - n % 136
  if z = 0 then [0x9F] else 0x1F :: (List.replicate (z - 1) 0 ++ [0x80])

/-- n blocks of 136 bytes squeezed. -/
def keccakSqueeze : Nat → Keccak → List Byte
  | 0, _ => []
  | n + 1, a => ((List.range 17).map (fun i => bytesOf 8 (a.at_ i).toNat)).flatten ++ keccakSqueeze n (keccakF a)

/-- The first n bytes of SHAKE256 of a byte string. -/
def shake256 (bs : List Byte) (n : Nat) : List Byte :=
  let m := bs ++ shakePad bs.length
  (keccakSqueeze ((n + 135) / 136) (keccakBlocks (m.length / 136) (keccakOf (fun _ => 0)) m)).take n

end Sys2Proof.Machine
end

