-- ==== Sys2Proof/Machine/Fabric.lean ====
section
/-! DEFINITION. The fabric's addresses (R388): the identity block (R395), the readiness map (R391), the bytes of the ring blocks (R77-R79), and
the column memory as the host reads and writes it (R389). -/

namespace Sys2Proof.Machine

/-! ## The ring blocks -/

/-- An entry of a ring that nothing has written. -/
def CmdEntry.zero : CmdEntry := { seq := 0, opc := 0, ctx := 0, arg0 := 0, arg1 := 0, rsvd := 0 }

/-- The 64 bytes of a command entry (R78). -/
def cmdBytes (e : CmdEntry) : List Byte :=
  let r (i n : Nat) : List Byte := bytesOf n (e.rsvd.toNat / 2 ^ (8 * i))
  bytesOf 8 e.seq.toNat ++ bytesOf 1 e.opc.toNat ++ r 0 1 ++ bytesOf 2 e.ctx.toNat ++ r 1 4 ++ bytesOf 8 e.arg0.toNat ++
    bytesOf 8 e.arg1.toNat ++ r 5 32

/-- The command entry in 64 bytes (R78). -/
def cmdOfBytes (bs : List Byte) : CmdEntry :=
  let n (i k : Nat) : Nat := numOf ((bs.drop i).take k)
  { seq := BitVec.ofNat 64 (n 0 8), opc := BitVec.ofNat 8 (n 8 1), ctx := BitVec.ofNat 16 (n 10 2), arg0 := BitVec.ofNat 64 (n 16 8),
    arg1 := BitVec.ofNat 64 (n 24 8), rsvd := BitVec.ofNat 296 (n 9 1 + n 12 4 * 2 ^ 8 + n 32 32 * 2 ^ 40) }

/-- The 32 bytes of a completion entry (R79). -/
def Completion.bytes (c : Completion) : List Byte :=
  bytesOf 8 c.cseq ++ bytesOf 8 c.seq.toNat ++ bytesOf 2 c.status ++ bytesOf 2 c.opc ++ bytesOf 2 c.ctx ++ bytesOf 2 0 ++
    bytesOf 8 c.info.toNat

/-- A byte of a ring block (R77). -/
def RingBlock.byte (b : RingBlock) (off : Nat) : Byte :=
  if off < 0x30 then (bytesOf 8 ([b.cmdTail, b.cmdHead, b.cplTail, b.cplHead, b.seqRx.toNat, b.cseqTx].getD (off / 8) 0)).getD (off % 8) 0
  else if off < 0x1000 then 0
  else if off < 0x41000 then (cmdBytes (b.cmds.getD ((off - 0x1000) / 64) CmdEntry.zero)).getD (off % 64) 0
  else match b.cpls.get? ((off - 0x41000) / 32) with
    | some c => c.bytes.getD (off % 32) 0
    | none => 0

/-- A number with one of its eight bytes replaced. -/
def withByte (n i : Nat) (x : Byte) : Nat := numOf ((bytesOf 8 n).set i x)

/-- A byte that the host writes into a ring block (R77): of its two indices, which count modulo 4,096, and of its command entries. A write to
what the device writes, or to reserved bytes, leaves them as they are (DESIGN CHOICE, log 111). -/
def RingBlock.setByte (b : RingBlock) (off : Nat) (x : Byte) : RingBlock :=
  if off < 8 then { b with cmdTail := withByte b.cmdTail off x % 4096 }
  else if 0x18 ≤ off ∧ off < 0x20 then { b with cplHead := withByte b.cplHead (off - 0x18) x % 4096 }
  else if 0x1000 ≤ off ∧ off < 0x41000 then
    let i := (off - 0x1000) / 64
    { b with cmds := b.cmds.set i (cmdOfBytes ((cmdBytes (b.cmds.getD i CmdEntry.zero)).set (off % 64) x)) }
  else b

/-- Bytes that the host writes into a ring block from an offset on. -/
def RingBlock.setBytes (b : RingBlock) : Nat → List Byte → RingBlock
  | _, [] => b
  | off, x :: xs => RingBlock.setBytes (b.setByte off x) (off + 1) xs

/-! ## The device's identity and readiness -/

/-- The device's 1,952-byte identity public key (R395): of the key pair that the generation seed gives, which SHAKE256 expands from the
32-byte seed of die 0. -/
def keySeed : List Byte := shake256 ((List.range 32).map Config.seedByte) 32

/-- The identity public key (R395). -/
def publicKey : List Byte := (List.range 1952).map (Config.mlDsaPublic keySeed)

/-- The identity block (R388): the serial, the SHAKE256 digest of the identity public key, and zeros. -/
def identityBlock : List Byte := (List.range 8).map Config.serialByte ++ shake256 publicKey 32 ++ List.replicate 4056 0

/-- The readiness map (R391). -/
def Dev.readyMap (d : Dev) : List Byte :=
  (List.range 256).map (fun i => BitVec.ofNat 8 (((List.range 8).map (fun j =>
    if d.ready.any (fun f => readyPos f == 8 * i + j) then 2 ^ j else 0)).sum))

/-! ## The addresses -/

/-- What a fabric address names (R388). -/
inductive FabricPlace where
  | identity (off : Nat)
  | ready (off : Nat)
  | ring (r : RingId) (off : Nat)
  | column (c off : Nat)
  deriving DecidableEq, Repr

/-- What the n bytes from a fabric address on lie in (R388). Bytes that lie in no one of the places are refused as a whole (DESIGN CHOICE,
log 111). -/
def fabricPlace (a n : Nat) : Option FabricPlace :=
  let within (lo size : Nat) : Bool := decide (lo ≤ a) && decide (a + n ≤ lo + size)
  let p := (a - 0x100000000) / 0x100000
  let c := (a - 0x40000000000000) / 2 ^ 44
  if within 0 0x1000 then some (.identity a)
  else if within 0x1000 0x100 then some (.ready (a - 0x1000))
  else if within 0x100000 0x61000 then some (.ring .admin (a - 0x100000))
  else if within (0x100000000 + p * 0x100000) 0x61000 && decide (p < 256) then some (.ring (.part p) ((a - 0x100000000) % 0x100000))
  else if within (0x40000000000000 + c * 2 ^ 44) (2 ^ 44) && decide (c < 1024) then some (.column c ((a - 0x40000000000000) % 2 ^ 44))
  else none

/-! ## Column memory -/

/-- A host access that the device serves (R388, R389): of a logical column that is there, below the green room. -/
def Dev.hostOk (d : Dev) (col off n : Nat) : Bool := decide (col < 1024) && !d.absent.contains col && decide (off + n ≤ vaultUsable)

/-- A host's read at the home slices of each sector (R389). -/
def State.hostReads (s : State) (c : Nat) : Nat → Nat → Nat → Dev
  | 0, _, _ => s.dev
  | k + 1, off, n =>
    if n = 0 then s.dev
    else
      let m := min n (32 - off % 32)
      let d := s.homeSector c off false
      State.hostReads { s with dev := d } c k (off + m) (n - m)

/-- A host's write at the home slices, sector by sector (R389, R298): the state and the latest completion time. -/
def State.hostWrites (s : State) (c : Nat) : Nat → Nat → List Byte → State × Nat
  | 0, _, _ => (s, 0)
  | k + 1, off, bs =>
    if bs.isEmpty then (s, 0)
    else
      let m := min bs.length (32 - off % 32)
      let a : LaneAcc := { laneWant 0 c off m 0 with va := off, cut := m, pois := [false] }
      -- what it writes of a running kernel's stable page may still be read as it was (R42)
      let s := { s with dev := s.keepStable c off m }
      let (d, t) := ({ s with dev := s.dev.poisonSectors [a] }.ahead [(a, bs.take m)]).writeLines [a]
      let s := { s with dev := d }
      let (s, u) := State.hostWrites (s.putLane a (bs.take m)) c k (off + m) (bs.drop m)
      (s, max t u)

/-- Bytes read at a fabric address (R388, R389, R391, R77); none where the device refuses the access. -/
def State.fabricRead (s : State) (a n : Nat) : Option (List Byte) × Dev :=
  let d := s.dev
  match fabricPlace a n with
  | some (.identity off) => (some ((identityBlock.drop off).take n), d)
  | some (.ready off) => (some ((d.readyMap.drop off).take n), d)
  | some (.ring r off) => (some ((List.range n).map (fun i => (d.ring r).byte (off + i))), d)
  | some (.column c off) =>
    if d.hostOk c off n then
      let d := s.hostReads c (n / 32 + 2) off n
      (some (s.seen c d.free off n), { d with free := d.free + 1 })
    else (none, d)
  | none => (none, d)

end Sys2Proof.Machine
end

