-- ==== Sys2Proof/WellFormed.lean ====
section
/-! DEFINITION. The well-formed instructions: those whose own bits pass every static check (R105, R115, R118, R366). Commands and
events are no encodings, and are well formed as such. -/

namespace Sys2Proof

/-- The major opcode of a column instruction (R125). -/
def Instr.major : Instr → Option (BitVec 8)
  | .nop _ => some 0x00
  | .bra _ => some 0x01
  | .brx _ => some 0x02
  | .call _ => some 0x03
  | .ret _ => some 0x04
  | .loop _ => some 0x05
  | .join _ => some 0x06
  | .exit _ => some 0x07
  | .tail _ => some 0x08
  | .spawn _ => some 0x09
  | .yield _ => some 0x0A
  | .wait _ => some 0x0B
  | .trap _ => some 0x0D
  | .svc _ => some 0x0E
  | .brk _ => some 0x0F
  | .iadd _ => some 0x10
  | .isub _ => some 0x11
  | .imul _ => some 0x12
  | .imulh _ => some 0x13
  | .imad _ => some 0x14
  | .imin _ => some 0x15
  | .imax _ => some 0x16
  | .iabs _ => some 0x17
  | .icmp _ => some 0x1A
  | .sel _ => some 0x1B
  | .mov _ => some 0x1C
  | .movs _ => some 0x1D
  | .plop _ => some 0x1E
  | .idot4 _ => some 0x1F
  | .and _ => some 0x20
  | .or _ => some 0x21
  | .xor _ => some 0x22
  | .andn _ => some 0x23
  | .shl _ => some 0x25
  | .shr _ => some 0x26
  | .sar _ => some 0x27
  | .rot _ => some 0x28
  | .popc _ => some 0x29
  | .clz _ => some 0x2A
  | .brev _ => some 0x2B
  | .bfx _ => some 0x2C
  | .bfi _ => some 0x2D
  | .bswz _ => some 0x2E
  | .tern _ => some 0x2F
  | .lea _ => some 0x30
  | .cadr _ => some 0x31
  | .cget _ => some 0x32
  | .tidx _ => some 0x33
  | .fadd _ => some 0x40
  | .fsub _ => some 0x41
  | .fmul _ => some 0x42
  | .ffma _ => some 0x43
  | .fmin _ => some 0x44
  | .fmax _ => some 0x45
  | .fcmp _ => some 0x47
  | .fclass _ => some 0x48
  | .fdot2 _ => some 0x49
  | .fdiv _ => some 0x4B
  | .fsqrt _ => some 0x4C
  | .frcp _ => some 0x50
  | .frsq _ => some 0x51
  | .fex2 _ => some 0x52
  | .flg2 _ => some 0x53
  | .fsin _ => some 0x54
  | .fcos _ => some 0x55
  | .ftanh _ => some 0x56
  | .cvt _ => some 0x60
  | .cvtb _ => some 0x61
  | .qnt _ => some 0x62
  | .dqnt _ => some 0x63
  | .pack _ => some 0x64
  | .unpk _ => some 0x65
  | .retag _ => some 0x66
  | .setpart _ => some 0x70
  | .lget _ => some 0x71
  | .lput _ => some 0x72
  | .bfly _ => some 0x73
  | .poll _ => some 0x74
  | .match_ _ => some 0x75
  | .redc _ => some 0x76
  | .scan _ => some 0x77
  | .elect _ => some 0x78
  | .ixset _ => some 0x80
  | .ixld _ => some 0x81
  | .ixmov _ => some 0x82
  | .ixadv _ => some 0x83
  | .ld _ => some 0x90
  | .ldu _ => some 0x91
  | .ldt _ => some 0x92
  | .st _ => some 0x93
  | .stu _ => some 0x94
  | .lds _ => some 0x95
  | .sts _ => some 0x96
  | .pref _ => some 0x97
  | .cctlClean _ => some 0x98
  | .cctlFlush _ => some 0x98
  | .cctlPin _ => some 0x98
  | .cctlUnpin _ => some 0x98
  | .cctlDrop _ => some 0x98
  | .cctlDropall _ => some 0x98
  | .atom _ => some 0xA0
  | .ared _ => some 0xA1
  | .atsc _ => some 0xA2
  | .fence _ => some 0xA3
  | .bar _ => some 0xA4
  | .bard _ => some 0xA5
  | .ofence _ => some 0xA6
  | .nmatom _ => some 0xA7
  | .nmfence _ => some 0xA8
  | .xch _ => some 0xB0
  | .xget _ => some 0xB1
  | .xput _ => some 0xB2
  | .msg _ => some 0xB3
  | .rwait _ => some 0xB4
  | .radv _ => some 0xB5
  | .rbind _ => some 0xB6
  | .watch _ => some 0xB7
  | .mldb _ => some 0xC0
  | .mma _ => some 0xC1
  | .mmab _ => some 0xC2
  | .mmas _ => some 0xC3
  | .mclr _ => some 0xC4
  | .mdrain _ => some 0xC5
  | .pjadj _ => some 0xC6
  | .mlda _ => some 0xC7
  | .cpy _ => some 0xD0
  | .glaunch _ => some 0xD1
  | .gpatch _ => some 0xD2
  | .cue _ => some 0xD3
  | .nmrun _ => some 0xD4
  | .sread _ => some 0xE0
  | .swrite _ => some 0xE1
  | .swriteRng _ => some 0xE1
  | .swriteLease _ => some 0xE1
  | .eret _ => some 0xE2
  | .tlbi _ => some 0xE3
  | .ctxswReset _ => some 0xE4
  | .ctxswSave _ => some 0xE4
  | .testReq _ => some 0xE5
  | .testRes _ => some 0xE5
  | .testInj _ => some 0xE5
  | _ => none

/-- A column instruction. -/
def Instr.isColumn (i : Instr) : Bool := i.major.isSome

/-- A column or stagehand instruction whose bits pass every static check; every command and event. -/
def Instr.wf (i : Instr) : Bool :=
  match hRule i with
  | some (f, r) => r.ok f
  | none => if i.isColumn then (i.checks).sub && (i.checks).rsv && (i.checks).comb else true

end Sys2Proof
end

