-- ==== Sys2Proof/Decode.lean ====
section
/-! DEFINITION. Decoding, total on any bits, and encoding: the head and the body formats (R103-R114), the opcode map (R125), the
stagehand's format (R364) and the command entries' codes (R78, R390). A word that no instruction has is refused by name. -/

namespace Sys2Proof

/-- Why a word is no instruction, in the order of R124. `opcode`: an unassigned major (step 4), or a stagehand opcode (R366);
`sub`: an unassigned SUB, SIZE or ORD code (step 5); `reserved`: a nonzero reserved or unused bit (step 6); `combination`: an
unimplemented combination (step 8). -/
inductive DecodeErr where
  | opcode | sub | reserved | combination
  deriving DecidableEq, Repr

/-! ## Fields -/

/-- The head of a word (R103). -/
def headOf (w : Insn) : Head :=
  { ty := w.extractLsb' 82 5, u := w.getLsbD 81, s := w.getLsbD 80, rm := w.extractLsb' 78 2, gn := w.getLsbD 75,
    gp := w.extractLsb' 72 3 }

/-- The C body (R113). -/
def cBody (w : Insn) : CFields :=
  { h := headOf w, tgt := w.extractLsb' 40 32, rcv := w.extractLsb' 16 24, ur := w.extractLsb' 8 8, sub := w.extractLsb' 0 8 }

/-- The V3 or VI body (R107). -/
def vBody (w : Insn) : VFields :=
  { h := headOf w, d := w.extractLsb' 63 9, a := Operand.ofBits (w.extractLsb' 47 16), bc := w.extractLsb' 15 32,
    sub := w.extractLsb' 7 8, hint := w.extractLsb' 0 7 }

/-- The M body (R109). -/
def mBody (w : Insn) : MFields :=
  { h := headOf w, dat := w.extractLsb' 63 9, adr := Operand.ofBits (w.extractLsb' 47 16), obj := w.extractLsb' 31 16,
    off := w.extractLsb' 15 16, size := w.extractLsb' 12 3, cpol := w.extractLsb' 10 2, ord := w.extractLsb' 7 3,
    obs := w.extractLsb' 0 7 }

/-- The X body (R110). -/
def xBody (w : Insn) : XFields :=
  { h := headOf w, d := w.extractLsb' 63 9, a := Operand.ofBits (w.extractLsb' 47 16), dom := w.extractLsb' 43 4,
    pk := w.extractLsb' 40 3, pp := w.extractLsb' 30 10, num := w.extractLsb' 24 6, lsp := w.extractLsb' 21 3,
    sub := w.extractLsb' 13 8 }

/-- The T body (R111). -/
def tBody (w : Insn) : TFields :=
  { h := headOf w, td := w.extractLsb' 67 5, areg := w.extractLsb' 59 8, breg := w.extractLsb' 51 8, k8 := w.extractLsb' 43 8,
    mode := w.extractLsb' 41 2, abm := w.extractLsb' 33 8, bbm := w.extractLsb' 25 8, af := w.extractLsb' 19 6,
    bf := w.extractLsb' 13 6, sum := w.getLsbD 12, q := w.getLsbD 11, rows := w.extractLsb' 3 8 }

/-- The P body (R112). -/
def pBody (w : Insn) : PFields :=
  { h := headOf w, tf := w.extractLsb' 67 5, tl := w.extractLsb' 62 5, dst := w.extractLsb' 54 8, selp := w.extractLsb' 51 3,
    par := w.extractLsb' 43 8, sup := w.extractLsb' 35 8, stw := w.extractLsb' 27 8, of := w.extractLsb' 21 6,
    dk := w.getLsbD 20 }

/-- The S body (R114). -/
def sBody (w : Insn) : SFields :=
  { h := headOf w, sr := w.extractLsb' 60 12, d := w.extractLsb' 51 9, a := Operand.ofBits (w.extractLsb' 35 16),
    sub := w.extractLsb' 27 8 }

/-- The stagehand's fields (R364). -/
def hBody (w : HandInsn) : HFields :=
  { d := w.extractLsb' 53 5, s := w.extractLsb' 48 5, t := w.extractLsb' 43 5, x := w.extractLsb' 40 3, imm := w.extractLsb' 0 32 }

/-! ## The opcode maps -/

/-- The cache-control operation that DAT[2:0] names (R228). -/
def cctlOf (f : MFields) : Instr :=
  if f.dat &&& 7#9 = 0 then .cctlClean f else if f.dat &&& 7#9 = 1 then .cctlFlush f
  else if f.dat &&& 7#9 = 2 then .cctlPin f else if f.dat &&& 7#9 = 3 then .cctlUnpin f
  else if f.dat &&& 7#9 = 4 then .cctlDrop f else .cctlDropall f

/-- SWRITE by its special register (R144, R214). -/
def swriteOf (f : SFields) : Instr :=
  if f.sr = 8 then .swriteRng f else if f.sr = 5 then .swriteLease f else .swrite f

/-- TEST by its SUB code (R454). -/
def testOf (f : SFields) : Instr :=
  if f.sub = 0 then .testReq f else if f.sub = 1 then .testRes f else .testInj f

/-- The instruction of a word by its major opcode (R125), before any check of its bits. -/
def candidate (w : Insn) : Option Instr :=
  match (w.extractLsb' 88 8).toNat with
  | 0x00 => some (.nop (cBody w))
  | 0x01 => some (.bra (cBody w))
  | 0x02 => some (.brx (cBody w))
  | 0x03 => some (.call (cBody w))
  | 0x04 => some (.ret (cBody w))
  | 0x05 => some (.loop (cBody w))
  | 0x06 => some (.join (cBody w))
  | 0x07 => some (.exit (cBody w))
  | 0x08 => some (.tail (cBody w))
  | 0x09 => some (.spawn (cBody w))
  | 0x0A => some (.yield (cBody w))
  | 0x0B => some (.wait (cBody w))
  | 0x0D => some (.trap (cBody w))
  | 0x0E => some (.svc (cBody w))
  | 0x0F => some (.brk (cBody w))
  | 0x10 => some (.iadd (vBody w))
  | 0x11 => some (.isub (vBody w))
  | 0x12 => some (.imul (vBody w))
  | 0x13 => some (.imulh (vBody w))
  | 0x14 => some (.imad (vBody w))
  | 0x15 => some (.imin (vBody w))
  | 0x16 => some (.imax (vBody w))
  | 0x17 => some (.iabs (vBody w))
  | 0x1A => some (.icmp (vBody w))
  | 0x1B => some (.sel (vBody w))
  | 0x1C => some (.mov (vBody w))
  | 0x1D => some (.movs (vBody w))
  | 0x1E => some (.plop (vBody w))
  | 0x1F => some (.idot4 (vBody w))
  | 0x20 => some (.and (vBody w))
  | 0x21 => some (.or (vBody w))
  | 0x22 => some (.xor (vBody w))
  | 0x23 => some (.andn (vBody w))
  | 0x25 => some (.shl (vBody w))
  | 0x26 => some (.shr (vBody w))
  | 0x27 => some (.sar (vBody w))
  | 0x28 => some (.rot (vBody w))
  | 0x29 => some (.popc (vBody w))
  | 0x2A => some (.clz (vBody w))
  | 0x2B => some (.brev (vBody w))
  | 0x2C => some (.bfx (vBody w))
  | 0x2D => some (.bfi (vBody w))
  | 0x2E => some (.bswz (vBody w))
  | 0x2F => some (.tern (vBody w))
  | 0x30 => some (.lea (vBody w))
  | 0x31 => some (.cadr (vBody w))
  | 0x32 => some (.cget (vBody w))
  | 0x33 => some (.tidx (vBody w))
  | 0x40 => some (.fadd (vBody w))
  | 0x41 => some (.fsub (vBody w))
  | 0x42 => some (.fmul (vBody w))
  | 0x43 => some (.ffma (vBody w))
  | 0x44 => some (.fmin (vBody w))
  | 0x45 => some (.fmax (vBody w))
  | 0x47 => some (.fcmp (vBody w))
  | 0x48 => some (.fclass (vBody w))
  | 0x49 => some (.fdot2 (vBody w))
  | 0x4B => some (.fdiv (vBody w))
  | 0x4C => some (.fsqrt (vBody w))
  | 0x50 => some (.frcp (vBody w))
  | 0x51 => some (.frsq (vBody w))
  | 0x52 => some (.fex2 (vBody w))
  | 0x53 => some (.flg2 (vBody w))
  | 0x54 => some (.fsin (vBody w))
  | 0x55 => some (.fcos (vBody w))
  | 0x56 => some (.ftanh (vBody w))
  | 0x60 => some (.cvt (vBody w))
  | 0x61 => some (.cvtb (vBody w))
  | 0x62 => some (.qnt (vBody w))
  | 0x63 => some (.dqnt (vBody w))
  | 0x64 => some (.pack (vBody w))
  | 0x65 => some (.unpk (vBody w))
  | 0x66 => some (.retag (vBody w))
  | 0x70 => some (.setpart (vBody w))
  | 0x71 => some (.lget (vBody w))
  | 0x72 => some (.lput (vBody w))
  | 0x73 => some (.bfly (vBody w))
  | 0x74 => some (.poll (vBody w))
  | 0x75 => some (.match_ (vBody w))
  | 0x76 => some (.redc (vBody w))
  | 0x77 => some (.scan (vBody w))
  | 0x78 => some (.elect (vBody w))
  | 0x80 => some (.ixset (vBody w))
  | 0x81 => some (.ixld (vBody w))
  | 0x82 => some (.ixmov (vBody w))
  | 0x83 => some (.ixadv (vBody w))
  | 0x90 => some (.ld (mBody w))
  | 0x91 => some (.ldu (mBody w))
  | 0x92 => some (.ldt (mBody w))
  | 0x93 => some (.st (mBody w))
  | 0x94 => some (.stu (mBody w))
  | 0x95 => some (.lds (mBody w))
  | 0x96 => some (.sts (mBody w))
  | 0x97 => some (.pref (mBody w))
  | 0x98 => some (cctlOf (mBody w))
  | 0xA0 => some (.atom (mBody w))
  | 0xA1 => some (.ared (mBody w))
  | 0xA2 => some (.atsc (mBody w))
  | 0xA3 => some (.fence (mBody w))
  | 0xA4 => some (.bar (xBody w))
  | 0xA5 => some (.bard (xBody w))
  | 0xA6 => some (.ofence (xBody w))
  | 0xA7 => some (.nmatom (mBody w))
  | 0xA8 => some (.nmfence (mBody w))
  | 0xB0 => some (.xch (xBody w))
  | 0xB1 => some (.xget (xBody w))
  | 0xB2 => some (.xput (xBody w))
  | 0xB3 => some (.msg (xBody w))
  | 0xB4 => some (.rwait (xBody w))
  | 0xB5 => some (.radv (xBody w))
  | 0xB6 => some (.rbind (xBody w))
  | 0xB7 => some (.watch (mBody w))
  | 0xC0 => some (.mldb (tBody w))
  | 0xC1 => some (.mma (tBody w))
  | 0xC2 => some (.mmab (tBody w))
  | 0xC3 => some (.mmas (tBody w))
  | 0xC4 => some (.mclr (tBody w))
  | 0xC5 => some (.mdrain (pBody w))
  | 0xC6 => some (.pjadj (pBody w))
  | 0xC7 => some (.mlda (tBody w))
  | 0xD0 => some (.cpy (vBody w))
  | 0xD1 => some (.glaunch (vBody w))
  | 0xD2 => some (.gpatch (vBody w))
  | 0xD3 => some (.cue (vBody w))
  | 0xD4 => some (.nmrun (vBody w))
  | 0xE0 => some (.sread (sBody w))
  | 0xE1 => some (swriteOf (sBody w))
  | 0xE2 => some (.eret (sBody w))
  | 0xE3 => some (.tlbi (sBody w))
  | 0xE4 => some (if (sBody w).sub = 0 then .ctxswReset (sBody w) else .ctxswSave (sBody w))
  | 0xE5 => some (testOf (sBody w))
  | _ => none

/-- The reserved bits of a word that no field holds: TY[5] and [77:76] (R105), and the low bits of the X, T, P and S bodies
(R110-R112, R114). -/
def rawClean (w : Insn) : Bool :=
  let op := (w.extractLsb' 88 8).toNat
  !w.getLsbD 87 && w.extractLsb' 76 2 == 0 &&
    (if (0xA4 ≤ op ∧ op ≤ 0xA6) ∨ (0xB0 ≤ op ∧ op ≤ 0xB6) then w.extractLsb' 0 13 == 0
     else if (0xC0 ≤ op ∧ op ≤ 0xC4) ∨ op = 0xC7 then w.extractLsb' 0 3 == 0
     else if op = 0xC5 ∨ op = 0xC6 then w.extractLsb' 0 20 == 0
     else if 0xE0 ≤ op ∧ op ≤ 0xE5 then w.extractLsb' 0 27 == 0
     else true)

/-- The first of the checks 4, 5, 6 and 8 of R124 that a word fails. -/
def staticErr (w : Insn) : Option DecodeErr :=
  match candidate w with
  | none => some .opcode
  | some i =>
    if !(i.checks).sub then some .sub
    else if !(rawClean w && (i.checks).rsv) then some .reserved
    else if !(i.checks).comb then some .combination
    else none

/-- The step of R124 at which an error is found. -/
def DecodeErr.step : DecodeErr → Nat
  | .opcode => 4
  | .sub => 5
  | .reserved => 6
  | .combination => 8

/-- Decoding a column instruction. -/
def decode (w : Insn) : Except DecodeErr Instr :=
  match staticErr w with
  | some e => .error e
  | none =>
    match candidate w with
    | some i => .ok i
    | none => .error .opcode

/-- The stagehand instruction of a word by its opcode (R365). -/
def handCandidate (w : HandInsn) : Option Instr :=
  match (w.extractLsb' 58 6).toNat with
  | 0x01 => some (.hadd (hBody w))
  | 0x02 => some (.hsub (hBody w))
  | 0x03 => some (.hmul (hBody w))
  | 0x04 => some (.hlogic (hBody w))
  | 0x05 => some (.hshift (hBody w))
  | 0x06 => some (.hli (hBody w))
  | 0x07 => some (.hclk (hBody w))
  | 0x08 => some (.hbr (hBody w))
  | 0x09 => some (.hloop (hBody w))
  | 0x10 => some (.vld (hBody w))
  | 0x11 => some (.vst (hBody w))
  | 0x18 => some (.qadd (hBody w))
  | 0x19 => some (.qsub (hBody w))
  | 0x1A => some (.qmul (hBody w))
  | 0x1B => some (.qfma (hBody w))
  | 0x1C => some (.qmuls (hBody w))
  | 0x1D => some (.qminmax (hBody w))
  | 0x1E => some (.qrsq (hBody w))
  | 0x1F => some (.qbc (hBody w))
  | 0x20 => some (.qsum (hBody w))
  | 0x21 => some (.qinsQext (hBody w))
  | 0x28 => some (.ropen (hBody w))
  | 0x29 => some (.racc (hBody w))
  | 0x2A => some (.rwr (hBody w))
  | 0x2B => some (.rclr (hBody w))
  | 0x30 => some (.claim (hBody w))
  | 0x31 => some (.unclm (hBody w))
  | 0x38 => some (.signal (hBody w))
  | 0x39 => some (.cuew (hBody w))
  | 0x3C => some (.aqsvc (hBody w))
  | 0x3F => some (.end_ (hBody w))
  | _ => none

/-- Decoding a stagehand instruction (R365, R366). -/
def decodeHand (w : HandInsn) : Except DecodeErr Instr :=
  match handCandidate w with
  | none => .error .opcode
  | some i =>
    match hRule i with
    | some (f, r) => if w.extractLsb' 32 8 == 0 && r.ok f then .ok i else .error .reserved
    | none => .error .opcode

/-- The command that an entry of a ring names by its OPC (R78, R390). -/
def commandOf (r : RingId) (opc : BitVec 8) : Instr :=
  match r, opc.toNat with
  | .part p, 0x01 => .launch p
  | .part p, 0x02 => .graph p
  | .part p, 0x03 => .preempt p
  | .part p, 0x04 => .resume p
  | .part p, 0x05 => .reset p
  | .part p, 0x06 => .mark p
  | .part p, 0x07 => .drop p
  | .admin, 0x10 => .pcreate
  | .admin, 0x11 => .premove
  | .admin, 0x12 => .grant
  | .admin, 0x13 => .attest
  | r, _ => .unassignedOpc r

/-! ## Encoding -/

/-- The head with its opcode (R103). -/
def headWord (op : BitVec 8) (h : Head) : BitVec 24 :=
  op ++ 0#1 ++ h.ty ++ BitVec.ofBool h.u ++ BitVec.ofBool h.s ++ h.rm ++ 0#2 ++ BitVec.ofBool h.gn ++ h.gp

/-- A word of format C (R113). -/
def cWord (op : BitVec 8) (f : CFields) : Insn := headWord op f.h ++ f.tgt ++ f.rcv ++ f.ur ++ f.sub

/-- A word of format V3 or VI (R107). -/
def vWord (op : BitVec 8) (f : VFields) : Insn := headWord op f.h ++ f.d ++ f.a.bits ++ f.bc ++ f.sub ++ f.hint

/-- A word of format M (R109). -/
def mWord (op : BitVec 8) (f : MFields) : Insn :=
  headWord op f.h ++ f.dat ++ f.adr.bits ++ f.obj ++ f.off ++ f.size ++ f.cpol ++ f.ord ++ f.obs

/-- A word of format X (R110). -/
def xWord (op : BitVec 8) (f : XFields) : Insn :=
  headWord op f.h ++ f.d ++ f.a.bits ++ f.dom ++ f.pk ++ f.pp ++ f.num ++ f.lsp ++ f.sub ++ 0#13

/-- A word of format T (R111). -/
def tWord (op : BitVec 8) (f : TFields) : Insn :=
  headWord op f.h ++ f.td ++ f.areg ++ f.breg ++ f.k8 ++ f.mode ++ f.abm ++ f.bbm ++ f.af ++ f.bf ++ BitVec.ofBool f.sum ++
    BitVec.ofBool f.q ++ f.rows ++ 0#3

/-- A word of format P (R112). -/
def pWord (op : BitVec 8) (f : PFields) : Insn :=
  headWord op f.h ++ f.tf ++ f.tl ++ f.dst ++ f.selp ++ f.par ++ f.sup ++ f.stw ++ f.of ++ BitVec.ofBool f.dk ++ 0#20

/-- A word of format S (R114). -/
def sWord (op : BitVec 8) (f : SFields) : Insn := headWord op f.h ++ f.sr ++ f.d ++ f.a.bits ++ f.sub ++ 0#27

/-- The stagehand word of an opcode and its fields (R364). -/
def handWord (op : BitVec 6) (f : HFields) : HandInsn := op ++ f.d ++ f.s ++ f.t ++ f.x ++ 0#8 ++ f.imm

/-- The opcode and fields of a stagehand instruction (R365). -/
def Instr.hand : Instr → Option (BitVec 6 × HFields)
  | .hadd f => some (0x01, f)
  | .hsub f => some (0x02, f)
  | .hmul f => some (0x03, f)
  | .hlogic f => some (0x04, f)
  | .hshift f => some (0x05, f)
  | .hli f => some (0x06, f)
  | .hclk f => some (0x07, f)
  | .hbr f => some (0x08, f)
  | .hloop f => some (0x09, f)
  | .vld f => some (0x10, f)
  | .vst f => some (0x11, f)
  | .qadd f => some (0x18, f)
  | .qsub f => some (0x19, f)
  | .qmul f => some (0x1A, f)
  | .qfma f => some (0x1B, f)
  | .qmuls f => some (0x1C, f)
  | .qminmax f => some (0x1D, f)
  | .qrsq f => some (0x1E, f)
  | .qbc f => some (0x1F, f)
  | .qsum f => some (0x20, f)
  | .qinsQext f => some (0x21, f)
  | .ropen f => some (0x28, f)
  | .racc f => some (0x29, f)
  | .rwr f => some (0x2A, f)
  | .rclr f => some (0x2B, f)
  | .claim f => some (0x30, f)
  | .unclm f => some (0x31, f)
  | .signal f => some (0x38, f)
  | .cuew f => some (0x39, f)
  | .aqsvc f => some (0x3C, f)
  | .end_ f => some (0x3F, f)
  | _ => none

/-- The 96-bit word of a column instruction; none for what is no column instruction. -/
def encode : Instr → Option Insn
  | .nop f => some (cWord 0x00 f)
  | .bra f => some (cWord 0x01 f)
  | .brx f => some (cWord 0x02 f)
  | .call f => some (cWord 0x03 f)
  | .ret f => some (cWord 0x04 f)
  | .loop f => some (cWord 0x05 f)
  | .join f => some (cWord 0x06 f)
  | .exit f => some (cWord 0x07 f)
  | .tail f => some (cWord 0x08 f)
  | .spawn f => some (cWord 0x09 f)
  | .yield f => some (cWord 0x0A f)
  | .wait f => some (cWord 0x0B f)
  | .trap f => some (cWord 0x0D f)
  | .svc f => some (cWord 0x0E f)
  | .brk f => some (cWord 0x0F f)
  | .iadd f => some (vWord 0x10 f)
  | .isub f => some (vWord 0x11 f)
  | .imul f => some (vWord 0x12 f)
  | .imulh f => some (vWord 0x13 f)
  | .imad f => some (vWord 0x14 f)
  | .imin f => some (vWord 0x15 f)
  | .imax f => some (vWord 0x16 f)
  | .iabs f => some (vWord 0x17 f)
  | .icmp f => some (vWord 0x1A f)
  | .sel f => some (vWord 0x1B f)
  | .mov f => some (vWord 0x1C f)
  | .movs f => some (vWord 0x1D f)
  | .plop f => some (vWord 0x1E f)
  | .idot4 f => some (vWord 0x1F f)
  | .and f => some (vWord 0x20 f)
  | .or f => some (vWord 0x21 f)
  | .xor f => some (vWord 0x22 f)
  | .andn f => some (vWord 0x23 f)
  | .shl f => some (vWord 0x25 f)
  | .shr f => some (vWord 0x26 f)
  | .sar f => some (vWord 0x27 f)
  | .rot f => some (vWord 0x28 f)
  | .popc f => some (vWord 0x29 f)
  | .clz f => some (vWord 0x2A f)
  | .brev f => some (vWord 0x2B f)
  | .bfx f => some (vWord 0x2C f)
  | .bfi f => some (vWord 0x2D f)
  | .bswz f => some (vWord 0x2E f)
  | .tern f => some (vWord 0x2F f)
  | .lea f => some (vWord 0x30 f)
  | .cadr f => some (vWord 0x31 f)
  | .cget f => some (vWord 0x32 f)
  | .tidx f => some (vWord 0x33 f)
  | .fadd f => some (vWord 0x40 f)
  | .fsub f => some (vWord 0x41 f)
  | .fmul f => some (vWord 0x42 f)
  | .ffma f => some (vWord 0x43 f)
  | .fmin f => some (vWord 0x44 f)
  | .fmax f => some (vWord 0x45 f)
  | .fcmp f => some (vWord 0x47 f)
  | .fclass f => some (vWord 0x48 f)
  | .fdot2 f => some (vWord 0x49 f)
  | .fdiv f => some (vWord 0x4B f)
  | .fsqrt f => some (vWord 0x4C f)
  | .frcp f => some (vWord 0x50 f)
  | .frsq f => some (vWord 0x51 f)
  | .fex2 f => some (vWord 0x52 f)
  | .flg2 f => some (vWord 0x53 f)
  | .fsin f => some (vWord 0x54 f)
  | .fcos f => some (vWord 0x55 f)
  | .ftanh f => some (vWord 0x56 f)
  | .cvt f => some (vWord 0x60 f)
  | .cvtb f => some (vWord 0x61 f)
  | .qnt f => some (vWord 0x62 f)
  | .dqnt f => some (vWord 0x63 f)
  | .pack f => some (vWord 0x64 f)
  | .unpk f => some (vWord 0x65 f)
  | .retag f => some (vWord 0x66 f)
  | .setpart f => some (vWord 0x70 f)
  | .lget f => some (vWord 0x71 f)
  | .lput f => some (vWord 0x72 f)
  | .bfly f => some (vWord 0x73 f)
  | .poll f => some (vWord 0x74 f)
  | .match_ f => some (vWord 0x75 f)
  | .redc f => some (vWord 0x76 f)
  | .scan f => some (vWord 0x77 f)
  | .elect f => some (vWord 0x78 f)
  | .ixset f => some (vWord 0x80 f)
  | .ixld f => some (vWord 0x81 f)
  | .ixmov f => some (vWord 0x82 f)
  | .ixadv f => some (vWord 0x83 f)
  | .ld f => some (mWord 0x90 f)
  | .ldu f => some (mWord 0x91 f)
  | .ldt f => some (mWord 0x92 f)
  | .st f => some (mWord 0x93 f)
  | .stu f => some (mWord 0x94 f)
  | .lds f => some (mWord 0x95 f)
  | .sts f => some (mWord 0x96 f)
  | .pref f => some (mWord 0x97 f)
  | .cctlClean f => some (mWord 0x98 f)
  | .cctlFlush f => some (mWord 0x98 f)
  | .cctlPin f => some (mWord 0x98 f)
  | .cctlUnpin f => some (mWord 0x98 f)
  | .cctlDrop f => some (mWord 0x98 f)
  | .cctlDropall f => some (mWord 0x98 f)
  | .atom f => some (mWord 0xA0 f)
  | .ared f => some (mWord 0xA1 f)
  | .atsc f => some (mWord 0xA2 f)
  | .fence f => some (mWord 0xA3 f)
  | .bar f => some (xWord 0xA4 f)
  | .bard f => some (xWord 0xA5 f)
  | .ofence f => some (xWord 0xA6 f)
  | .nmatom f => some (mWord 0xA7 f)
  | .nmfence f => some (mWord 0xA8 f)
  | .xch f => some (xWord 0xB0 f)
  | .xget f => some (xWord 0xB1 f)
  | .xput f => some (xWord 0xB2 f)
  | .msg f => some (xWord 0xB3 f)
  | .rwait f => some (xWord 0xB4 f)
  | .radv f => some (xWord 0xB5 f)
  | .rbind f => some (xWord 0xB6 f)
  | .watch f => some (mWord 0xB7 f)
  | .mldb f => some (tWord 0xC0 f)
  | .mma f => some (tWord 0xC1 f)
  | .mmab f => some (tWord 0xC2 f)
  | .mmas f => some (tWord 0xC3 f)
  | .mclr f => some (tWord 0xC4 f)
  | .mdrain f => some (pWord 0xC5 f)
  | .pjadj f => some (pWord 0xC6 f)
  | .mlda f => some (tWord 0xC7 f)
  | .cpy f => some (vWord 0xD0 f)
  | .glaunch f => some (vWord 0xD1 f)
  | .gpatch f => some (vWord 0xD2 f)
  | .cue f => some (vWord 0xD3 f)
  | .nmrun f => some (vWord 0xD4 f)
  | .sread f => some (sWord 0xE0 f)
  | .swrite f => some (sWord 0xE1 f)
  | .swriteRng f => some (sWord 0xE1 f)
  | .swriteLease f => some (sWord 0xE1 f)
  | .eret f => some (sWord 0xE2 f)
  | .tlbi f => some (sWord 0xE3 f)
  | .ctxswReset f => some (sWord 0xE4 f)
  | .ctxswSave f => some (sWord 0xE4 f)
  | .testReq f => some (sWord 0xE5 f)
  | .testRes f => some (sWord 0xE5 f)
  | .testInj f => some (sWord 0xE5 f)
  | _ => none

/-- The 64-bit word of a stagehand instruction; none for what is none. -/
def encodeHand (i : Instr) : Option HandInsn := i.hand.map (fun x => handWord x.1 x.2)

/-- The instruction that the decoder reads from an opcode-table word: a stagehand word where the row has 1 to 64 bits, else a
column word. -/
def decodeTableWord (nbits w : Nat) : Option Instr :=
  if 1 ≤ nbits ∧ nbits ≤ 64 then
    match decodeHand (BitVec.ofNat 64 w) with
    | .ok i => some i
    | .error _ => none
  else
    match decode (BitVec.ofNat 96 w) with
    | .ok i => some i
    | .error _ => none

end Sys2Proof
end

