-- ==== Sys2Proof/Machine/System.lean ====
section
/-! DEFINITION. The system instructions: special registers (R19, R31, R36, R61, R64, R144, R145, R214, R243, R250, R416, R447), the return
from a trap (R405), the invalidation of translations (R39, R416, R435), and context switch and test (R454). -/

namespace Sys2Proof.Machine

/-! ## Special registers -/

/-- CAP_COLS (R19). -/
def Dev.capColsReg (d : Dev) : BitVec 64 :=
  let die (i : Nat) : Nat := d.capCols.toList.getD i 0 % 512 * 2 ^ (9 * i) + d.spares.toList.getD i 0 % 32 * 2 ^ (40 + 5 * i) +
    (if d.ready.contains (.cols i) then 2 ^ (36 + i) else 0)
  BitVec.ofNat 64 (die 0 + die 1 + die 2 + die 3)

/-- %ocnt (R214). -/
def Warp.ocnt (w : Warp) : Word :=
  BitVec.ofNat 32 (w.loads % 64 + w.stores % 64 * 2 ^ 8 + w.copies % 64 * 2 ^ 16 + w.tiles % 64 * 2 ^ 24)

/-- The special registers of 64 bits, which fill two registers (R416). -/
def srWide (n : Nat) : Bool := [0x009, 0x020, 0x030, 0x031, 0x032, 0x040, 0x041, 0x110, 0x111].contains n

/-- The value of a special register that is one for the warp, the column, the context or the device. -/
def Dev.srValue (d : Dev) (n : Nat) : BitVec 64 :=
  let w := d.curWarp
  let k := d.curCol
  let x := d.ctx w.ctx
  match n with
  | 0x001 => BitVec.ofNat 64 d.cur.slot
  | 0x002 => BitVec.ofNat 64 d.cur.col
  | 0x003 => w.wlog.setWidth 64
  | 0x004 => w.wstat.setWidth 64
  | 0x005 => BitVec.ofNat 64 x.lease
  | 0x006 => w.ocnt.setWidth 64
  | 0x007 => w.obs.setWidth 64
  | 0x009 => BitVec.ofNat 64 d.now
  | 0x020 => d.capColsReg
  | 0x030 => BitVec.ofNat 64 k.poolReg
  | 0x031 => BitVec.ofNat 64 k.poolSpad
  | 0x032 => BitVec.ofNat 64 k.poolAcc
  | 0x040 => k.l2Bypass
  | 0x041 => k.vrCount
  | 0x110 => x.ptRoot
  | 0x111 => x.peerTab
  | _ => 0

/-- The tag of an SREAD's destination (R416). -/
def srTag (n : Nat) : BitVec 5 := if n ≤ 2 then Fmt.i32 else Fmt.ui32

/-- What an SREAD writes into its first register (R64, R144, R416). -/
def Dev.srResult (d : Dev) (n : Nat) : Result :=
  if n = 0 then { Result.gen (fun l => BitVec.ofNat 32 l) 0 Fmt.i32 with shape := .affine 0 1 }
  else if n = 8 then Result.gen (fun l => lane d.curWarp.rng l) 0 Fmt.ui32
  else Result.uni ((d.srValue n).extractLsb' 0 32) false (srTag n)

/-- The registers that only privileged code reads (R31, R36). -/
def srPrivRead (n : Nat) : Bool := n == 0x110 || n == 0x111
/-- The registers that only privileged code writes (R31, R36, R214). -/
def srPrivWrite (n : Nat) : Bool := n == 0x005 || srPrivRead n
/-- The registers of one value that an SWRITE changes (R145, R214, R250, R36, R31). -/
def srWritable (n : Nat) : Bool := n == 0x004 || n == 0x007 || srPrivWrite n

/-- The privilege check of an instruction (R401), step 9 of R124. -/
def Dev.privileged (d : Dev) (needs : Bool) (einfo : BitVec 64) (go : Unit → Issue) : Issue :=
  if needs && !d.cur.priv then .trap { cause := 0x09, einfo := einfo } else go ()

/-- SREAD (R416). -/
def sreadIssue (f : SFields) (s : State) : Issue :=
  let d := s.dev
  let n := f.sr.toNat
  let vd := (f.d.extractLsb' 0 8).toNat
  d.privileged (srPrivRead n) (BitVec.ofNat 64 n) (fun _ =>
    match boundCheck d.curCol.regions.regs (if srWide n then vd + 1 else vd) with
    | some t => .trap t
    | none =>
      let m := d.curWarp.act f.h
      let hi := Result.uni ((d.srValue n).extractLsb' 32 32) false Fmt.ui32
      .retire (d.writeRegs vd m (d.srResult n :: (if srWide n then [hi] else []))).advance)

/-- The meaning of SREAD. -/
def execSread (f : SFields) (s : State) : Host.Outcome State Fault Refusal := s.conclude (sreadIssue f s)

/-- A context changed. -/
def Dev.modCtx (d : Dev) (n : Nat) (f : Context → Context) : Dev := { d with ctxs := d.ctxs.set n (f (d.ctx n)) }

/-- %lease clamped into its range (R214). -/
def leaseClamp (v : Word) : Nat := min 65536 (max 256 (v.toNat % 2 ^ 17))

/-- A special register of one value written (R36, R31, R145, R214, R250). -/
def Dev.srWrite (d : Dev) (n : Nat) (v : Word) : Dev :=
  match n with
  | 0x004 => d.modCurWarp (fun w => { w with wstat := v &&& 0xFFFF000D#32 })
  | 0x005 => d.modCtx d.curWarp.ctx (fun x => { x with lease := leaseClamp v })
  | 0x007 => d.modCurWarp (fun w => { w with obs := v.extractLsb' 0 7 })
  | 0x110 => d.modCtx d.curWarp.ctx (fun x => { x with ptRoot := (v.extractLsb' 0 24).setWidth 64 })
  | 0x111 => d.modCtx d.curWarp.ctx (fun x => { x with peerTab := (v.extractLsb' 0 24).setWidth 64 })
  | _ => d

/-- SWRITE of a register of one value: an ignored one makes only the privilege check (R416). -/
def swriteIssue (f : SFields) (s : State) : Issue :=
  let d := s.dev
  let n := f.sr.toNat
  d.privileged (srPrivWrite n) (BitVec.ofNat 64 n) (fun _ =>
    d.whole f.h (fun _ =>
      if !srWritable n then .retire d.advance
      else
        let x := vctx d f.h []
        let v := x.src 1 f.a
        x.withUni [] [Use.ptr v] [] (fun _ => .retire (d.srWrite n v.uni).advance)))

/-- The meaning of SWRITE. -/
def execSwrite (f : SFields) (s : State) : Host.Outcome State Fault Refusal := s.conclude (swriteIssue f s)

/-- A generator's state from a source value (R144). -/
def rngOf (v : Word) : Word := if v = 0 then 0x2545F491#32 else v

/-- SWRITE of %rng (R144): each active lane takes its lane of the source. -/
def swriteRngIssue (f : SFields) (s : State) : Issue :=
  let d := s.dev
  d.whole f.h (fun _ =>
    let x := vctx d f.h []
    let v := x.src 1 f.a
    let us := [Use.ptr v]
    if x.notReady us then .hold (d.holdRegs (x.waits us))
    else match firstTrap (x.bounds us ++ us.map Use.tagCheck ++ [v.poisCheck x.act]) with
      | some t => .trap t
      | none =>
        .retire (d.modCurWarp (fun w => { w with
          rng := tab (fun l => if Mask.has x.act l then rngOf (lane v.vals l) else lane w.rng l) })).advance)

/-- The meaning of SWRITE_RNG. -/
def execSwriteRng (f : SFields) (s : State) : Host.Outcome State Fault Refusal := s.conclude (swriteRngIssue f s)

/-- The meaning of SWRITE_LEASE (R214). -/
def execSwriteLease (f : SFields) (s : State) : Host.Outcome State Fault Refusal :=
  s.conclude (swriteIssue { f with sr := 5 } s)

/-! ## ERET -/

/-- A pair of uniform registers (R405, R416). -/
def VCtx.pair (x : VCtx) (o : Operand) : Src × Src := (rangeSrc x.w 1 o 0, rangeSrc x.w 1 o 1)

/-- ERET (R405). -/
def eretIssue (f : SFields) (s : State) : Issue :=
  let d := s.dev
  d.privileged true (d.cur.pc.setWidth 64) (fun _ =>
    d.whole f.h (fun _ =>
      let x := vctx d f.h []
      let (lo, hi) := x.pair f.a
      x.withUni [rangeBound x.regs f.a.reg.toNat 2] [Use.ptr lo, Use.ptr hi] [] (fun _ =>
        .retire (d.eret (hi.uni.extractLsb' 0 16 ++ lo.uni)))))

/-- The meaning of ERET. -/
def execEret (f : SFields) (s : State) : Host.Outcome State Fault Refusal := s.conclude (eretIssue f s)

/-! ## TLBI -/

/-- A cached translation covers the page of an offset; with no offset, every one of the context is meant (R416). -/
def TlbEntry.covers (e : TlbEntry) (off : Option Nat) : Bool :=
  match off with
  | none => true
  | some o => e.gran == granOf o || (e.big && e.gran / 32 == granOf o / 32)

/-- An outstanding access of a lane, with the privilege that it was translated with, was translated otherwise than the tables now say (R435). -/
def State.staleLane (s : State) (c ctx : Nat) (write priv : Bool) (a : LaneAcc) : Bool :=
  let bad (off va : Nat) : Bool :=
    match s.walk c ctx off with
    | .error _ => true
    | .ok e => e.va off != va || e.zc != a.zc || e.stable != a.stable || (e.forbids write priv).isSome
  bad a.off a.va || (decide (a.cut < a.size) && bad (a.off + a.cut) a.va2)

/-- The lanes of a lane's access lie in the page that a TLBI names. -/
def LaneAcc.inPage (a : LaneAcc) (big : Bool) (off : Option Nat) : Bool :=
  match off with
  | none => true
  | some o =>
    let page (x : Nat) : Nat := if big then granOf x / 32 else granOf x
    page a.off == page o || page (a.off + a.size - 1) == page o

/-- A column has outstanding accesses that translated with an old entry (R435). -/
def State.stale (s : State) (c ctx : Nat) (off : Option Nat) : Bool :=
  let big := match off with
    | some o => match s.walk c ctx o with
      | .ok e => e.big
      | .error _ => true
    | none => false
  (s.dev.col c).ops.any (fun o => o.ctx == ctx && o.lanes.any (fun a => a.inPage big off && s.staleLane c ctx o.kind.isStore o.priv a)) ||
    (s.dev.col c).hand.atomq.any (fun e =>
      let a : LaneAcc := { laneWant 0 c e.off 4 0 with va := e.va, zc := e.zc, stable := e.stable }
      e.ctx == ctx && a.inPage big off && s.staleLane c ctx true e.priv a)

/-- The page that a TLBI names in a column (R39, R416): its first granule and how many it has; with no offset, every granule. -/
def State.tlbiPage (s : State) (c ctx : Nat) (off : Option Nat) : Nat × Nat :=
  match off with
  | none => (0, 2 ^ 28)
  | some o => match s.walk c ctx o with
    | .ok e => if e.big then (granOf o / 32 * 32, 32) else (granOf o, 1)
    | .error _ => (granOf o, 1)

/-- The translations that a TLBI names leave a column, with the older entries that it could still have walked (R39). -/
def State.tlbi (s : State) (c ctx : Nat) (off : Option Nat) : Dev :=
  s.dev.modCol c (fun k => k.dropXlate ctx (s.tlbiPage c ctx off).1 (s.tlbiPage c ctx off).2)

/-- TLBI (R416): the translations leave the cache of every column of the partition, and the warp waits until the accesses that used an old
one have been performed (R435). -/
def tlbiIssue (f : SFields) (s : State) : Issue :=
  let d := s.dev
  d.privileged true (d.cur.pc.setWidth 64) (fun _ =>
    d.whole f.h (fun _ =>
      let x := vctx d f.h []
      let (lo, hi) := x.pair f.a
      let ctx := d.curWarp.ctx
      let go (off : Option Nat) : Issue :=
        let cs := d.ctxCols ctx
        let d := cs.foldl (fun (d : Dev) c => { s with dev := d }.tlbi c ctx off) d
        if cs.any (fun c => s.stale c ctx off) then .hold d else .retire d.advance
      if f.sub.getLsbD 0 then go none
      else
        x.withUni [rangeBound x.regs f.a.reg.toNat 2] [Use.ptr lo, Use.ptr hi] [] (fun _ => go (some (ptrOff (ptrOf lo.uni hi.uni))))))

/-- The meaning of TLBI. -/
def execTlbi (f : SFields) (s : State) : Host.Outcome State Fault Refusal := s.conclude (tlbiIssue f s)

/-! ## CTXSW -/

/-- CTXSW .reset (R454). Its source, like those of CTXSW .save and TEST, is not among the reads that consume poison (R418): a result
that depends on it is poisoned with it (R441). -/
def ctxswResetIssue (f : SFields) (s : State) : Issue :=
  let d := s.dev
  d.privileged true (d.cur.pc.setWidth 64) (fun _ =>
    d.whole f.h (fun _ =>
      let x := vctx d f.h []
      let v := x.src 1 f.a
      x.readUni [] [Use.ptr v] [] (fun _ => .made (s.contextReset d.curWarp.ctx 2 (v.uni.toNat % 256) none))))

/-- The meaning of CTXSW_RESET. -/
def execCtxswReset (f : SFields) (s : State) : Host.Outcome State Fault Refusal := s.conclude (ctxswResetIssue f s)

/-- The key of a column's image slot. -/
def imageKey (c slot : Nat) : Nat := 2 * c + slot % 2

/-- An image slot of a partition holds a valid image. -/
def Dev.slotUsed (d : Dev) (p slot : Nat) : Bool :=
  (d.part p).columns.any (fun c => match d.images.get? (imageKey c slot) with
    | some i => i.valid
    | none => false)

/-- A save or a RESUME of the partition is pending (R454). -/
def Dev.swapping (d : Dev) (p : Nat) : Bool :=
  (d.part p).preempt.isSome || (d.ring (.part p)).begun.any (fun e => e.opc == 3 || e.opc == 4)

/-- A save of a resident context into a slot begins: the halt tick is still to be set (R88). -/
def Dev.startSave (d : Dev) (p ctx slot : Nat) (seq : Option (BitVec 64)) : Dev :=
  { d with parts := d.parts.set p { d.part p with preempt := some { ctx := ctx, slot := slot, seq := seq, htick := none, written := [] } } }

/-- CTXSW .save (R454). -/
def ctxswSaveIssue (f : SFields) (s : State) : Issue :=
  let d := s.dev
  d.privileged true (d.cur.pc.setWidth 64) (fun _ =>
    d.whole f.h (fun _ =>
      let x := vctx d f.h []
      let v := x.src 1 f.a
      let vd := (f.d.extractLsb' 0 8).toNat
      x.readUni [rangeBound x.regs vd 1] [Use.ptr v] [] (fun _ =>
        let slot := v.uni.toNat % 2
        let p := (d.ctx d.curWarp.ctx).part
        let code : Word := if d.slotUsed p slot then 1 else if d.swapping p then 2 else 0
        let d := (d.writeReg vd Mask.all (Result.uni code (Mask.has v.pois 0) Fmt.ui32)).advance
        .retire (if code = 0 then d.startSave p d.curWarp.ctx slot none else d))))

/-- The meaning of CTXSW_SAVE. -/
def execCtxswSave (f : SFields) (s : State) : Host.Outcome State Fault Refusal := s.conclude (ctxswSaveIssue f s)

/-! ## TEST -/

/-- The trap of a value that names a column or an instance outside the issuing partition, in the address layout (R454, R407). -/
def testTrap (act : Mask) (v : Word) (ok : Bool) : Option TrapInfo :=
  check ok { cause := 0x13, einfo := einfoA (v.setWidth 64) (Mask.first act), emask := act }

/-- The columns of the instance that a test.req names (R454). -/
def testCols (v : Word) : List Nat :=
  let dom := bitsOf v.toNat 13 10
  let n := domSize dom
  if 4 ≤ dom ∧ dom ≤ 9 then (List.range n).map (fun i => v.toNat % 1024 / n * n + i) else []

/-- A column's rehearsal is queued, with its tests; 0 means both (R454, R457). -/
def Column.queueRehearsal (k : Column) (tests : BitVec 2) : Column :=
  { k with rehearseQ := some (if tests = 0 then 3 else tests),
           rehearsal := if k.rehearsing then k.rehearsal else (k.rehearsal &&& ~~~(0xF#64)) ||| 1 }

/-- TEST .req (R454). -/
def testReqIssue (f : SFields) (s : State) : Issue :=
  let d := s.dev
  d.privileged true (d.cur.pc.setWidth 64) (fun _ =>
    d.whole f.h (fun _ =>
      let x := vctx d f.h []
      let v := x.src 1 f.a
      let cs := testCols v.uni
      let ok := !cs.isEmpty && cs.all (fun c => d.inPart d.curWarp.ctx c)
      x.readUni [] [Use.ptr v] [testTrap x.act v.uni ok] (fun _ =>
        .retire (cs.foldl (fun (d : Dev) c => d.modCol c (fun k => k.queueRehearsal (v.uni.extractLsb' 16 2))) d).advance)))

/-- The meaning of TEST_REQ. -/
def execTestReq (f : SFields) (s : State) : Host.Outcome State Fault Refusal := s.conclude (testReqIssue f s)

/-- TEST .res (R454, R457). -/
def testResIssue (f : SFields) (s : State) : Issue :=
  let d := s.dev
  d.privileged true (d.cur.pc.setWidth 64) (fun _ =>
    d.whole f.h (fun _ =>
      let x := vctx d f.h []
      let v := x.src 1 f.a
      let vd := (f.d.extractLsb' 0 8).toNat
      let c := v.uni.toNat % 1024
      x.readUni [rangeBound x.regs vd 2] [Use.ptr v] [testTrap x.act v.uni (d.inPart d.curWarp.ctx c)] (fun _ =>
        let r := (d.col c).rehearsal
        let p := Mask.has v.pois 0
        .retire (d.writeRegs vd Mask.all [Result.uni (r.extractLsb' 0 32) p Fmt.ui32,
          Result.uni (r.extractLsb' 32 32) p Fmt.ui32]).advance)))

/-- The meaning of TEST_RES. -/
def execTestRes (f : SFields) (s : State) : Host.Outcome State Fault Refusal := s.conclude (testResIssue f s)

/-- TEST .inj (R454): the next read of the sector at its controller reports an error. -/
def testInjIssue (f : SFields) (s : State) : Issue :=
  let d := s.dev
  d.privileged true (d.cur.pc.setWidth 64) (fun _ =>
    d.whole f.h (fun _ =>
      let x := vctx d f.h []
      let (lo, hi) := x.pair f.a
      let p := ptrOf lo.uni hi.uni
      let ok := check (ownSel d.cur.col p) { cause := 0x13, einfo := einfoA p (Mask.first x.act), emask := x.act }
      x.readUni [rangeBound x.regs f.a.reg.toNat 2] [Use.ptr lo, Use.ptr hi] [ok] (fun _ =>
        match s.translate d.cur.col d.curWarp.ctx (ptrOff p) false d.cur.priv with
        | (.error e, d) => .hold (d.holdFault .load [(e, granOf (ptrOff p))])
        | (.ok e, d) =>
          let key := vkey d.cur.col (e.va (ptrOff p)) / 32
          .retire { d with inject := (key, f.sub.getLsbD 2) :: d.inject.filter (fun y => y.1 != key) }.advance)))

/-- The meaning of TEST_INJ. -/
def execTestInj (f : SFields) (s : State) : Host.Outcome State Fault Refusal := s.conclude (testInjIssue f s)

end Sys2Proof.Machine
end

