-- ==== Sys2Proof/Machine/Saved.lean ====
section
/-! DEFINITION. The bytes of a context image in the green room (R89-R92): the header, the side log (R424), the tile queues (R320, R321), the
barriers, the rings (R286), the warp records with their register directories (R91), the held messages (R290), the pool and the
B-SRAM. The `Image` of State carries the same state for the restore. Of regions whose layout the spec does not give, the entries
in use hold free bytes (log 80). -/

namespace Sys2Proof.Machine

/-! ## Fields -/

/-- A qword laid out from fields: the lowest bit and the width of each, and its value. -/
def fieldsOf (fs : List (Nat × Nat × Nat)) : Nat := (fs.map (fun f => f.2.2 % 2 ^ f.2.1 * 2 ^ f.1)).sum

/-- A piece of an image: its offset and its bytes. -/
abbrev Piece := Nat × List Byte

/-- A qword of an image. -/
def qword (off : Nat) (fs : List (Nat × Nat × Nat)) : Piece := (off, bytesOf 8 (fieldsOf fs))

/-- Free bytes of an entry in use whose layout is not given. -/
def freePiece (base off n : Nat) : Piece := (off, (List.range n).map (fun i => Config.imageByte base (off + i)))

/-! ## The column's regions -/

/-- The header (R90), VALID set. -/
def Image.header (i : Image) : List Piece :=
  [qword 0x000 [(0, 32, 0x5A47524D), (32, 16, 1), (48, 16, 1)], qword 0x008 [(0, 10, i.col), (32, 16, i.ctx), (48, 8, i.part)],
   qword 0x028 [(0, 64, i.htick)], qword 0x030 [(0, 64, i.seq.toNat)], qword 0x038 [(0, 48, i.occ.toNat)],
   qword 0x040 [(0, 64, i.poolReg)], qword 0x048 [(0, 64, i.poolSpad)], qword 0x050 [(0, 64, i.poolAcc)],
   qword 0x058 [(0, 9, i.regions.regs), (9, 16, i.regions.spad), (25, 6, i.regions.acc), (31, 6, i.regions.w), (37, 6, i.regions.spawnw),
     (43, 6, i.regions.n)],
   qword 0x060 [(0, 64, i.obj.toNat)], qword 0x068 [(0, 64, i.flags.toNat)],
   qword 0x070 [(0, 64, i.lease)], qword 0x078 [(0, 64, i.ptRoot.toNat)], qword 0x080 [(0, 64, i.peerTab.toNat)]]

/-- Bytes 8-15 of a launch record (R52). -/
def LaunchRec.obj (r : LaunchRec) : Nat := fieldsOf [(0, 44, r.objBase), (48, 16, r.objLast)]

/-- Bytes 24-31 of a launch record (R52). -/
def LaunchRec.flags (r : LaunchRec) : Nat :=
  fieldsOf [(0, 17, r.pwin), (30, 6, r.prio), (36, 1, r.fixsum.toNat), (40, 8, r.partid), (48, 4, r.nlev)]

/-- AOP and RM of a logged operation (R424). -/
def OpKind.logOp : OpKind → Nat × Nat
  | .ared aop rm => (aop.toNat, rm.toNat)
  | .nmatom aop rm => (aop.toNat, rm.toNat)
  | _ => (0, 0)

/-- A side-log entry (R424), by its place, with the filter entry that it waits on. -/
def Image.logEntry (i : Image) (j : Nat) (e : LogEntry) : List Piece :=
  let a := 0x001000 + 64 * j
  let o := i.ops.find? (fun o => o.id == e.op)
  let fmt := (o.map (fun o => o.fmt.toNat)).getD 0
  let size := if e.kind = 7 then 3 else (o.map (fun o => o.size)).getD 0
  let obj := (o.map (fun o => o.obj)).getD 0
  let op := (o.map (fun o => o.kind.logOp)).getD (0, 0)
  let fslot := (i.filter.findIdx? (fun f => f.gran == e.gran)).getD 0
  -- the bytes of DATA that an 8- or 16-bit store does not use are 0
  let used (w : Word) : Nat := if size < 2 && (e.kind = 1 || e.kind = 2 || e.kind = 4) then w.toNat % 2 ^ (8 * 2 ^ size) else w.toNat
  [(a, ((e.acc.data.take 4).map (fun w => bytesOf 4 (used w))).flatten), qword (a + 0x10) [(0, 44, e.at_.getD e.acc.off), (44, 10, e.acc.tcol)],
   qword (a + 0x18) [(0, 48, e.pc.toNat), (48, 5, e.lane), (53, 6, e.slot)], qword (a + 0x20) [(0, 64, e.itick)],
   qword (a + 0x28) [(0, 4, e.kind), (4, 3, size), (7, 5, fmt), (12, 5, op.1), (17, 2, op.2), (19, 1, (e.acc.pois.any id).toNat),
     (20, 1, e.orph.toNat), (21, 3, e.state), (24, 4, e.fkind), (32, 16, obj), (48, 16, e.ctx)],
   qword (a + 0x30) [(0, 32, e.lseq), (32, 4, fslot)]]

/-- An entry of a tile queue (R320). -/
def tileEntry (q j : Nat) (o : TileOp) : List Piece :=
  let a := 0x005000 + 512 * q + 64 * j
  [(a, bytesOf 12 (((encode o.insn).map (fun w => w.toNat)).getD 0)), (a + 0x0C, bytesOf 4 o.aoff.toNat),
   qword (a + 0x10) [(0, 32, o.ahi.toNat), (32, 32, o.boff.toNat)], qword (a + 0x18) [(0, 32, o.rowsv.toNat), (32, 32, o.asc.toNat)],
   qword (a + 0x20) [(0, 32, o.bsc.toNat), (32, 16, o.step), (48, 6, o.slot), (55, 1, 1), (56, 8, o.gang)],
   qword (a + 0x28) [(0, 64, o.itick)]]

/-- The tile queues with their counts (R320, R321). -/
def Image.tiles (i : Image) : List Piece :=
  let es (q : Nat) (os : List TileOp) : List Piece := (os.zipIdx.map (fun x => tileEntry q x.2 x.1)).flatten
  es 0 i.tileQ[0] ++ es 1 i.tileQ[1] ++
    [qword 0x005D00 [(0, 4, i.tileQ[0].length), (8, 4, i.tileQ[1].length), (16, 1, i.yielded.toNat)]]

/-- The named barriers (R89): barrier b of gang slot g is number g × B + b of the column (R60). -/
def Image.barriers (i : Image) : List Piece :=
  let b := min 64 (128 / max 1 i.regions.n)
  i.bars.map (fun x =>
    qword (0x005400 + 8 * (x.1 / 64 * b + x.1 % 64)) [(0, 16, x.2.arr), (16, 16, x.2.exp), (32, 8, x.2.phase % 2)])

/-- The receive rings (R286). -/
def Image.ringStates (i : Image) : List Piece :=
  (i.rings.map (fun x =>
    [qword (0x005800 + 16 * x.1) [(0, 32, x.2.base), (32, 32, x.2.size)],
     qword (0x005808 + 16 * x.1) [(0, 32, x.2.head.toNat), (32, 32, x.2.tail.toNat)]])).flatten

/-- The entries in use of the regions whose layout is not given: the retirement tracker, the watches, the suspended copies and the state of
domain barriers (R89). -/
def Image.unlaid (i : Image) (base : Nat) : List Piece :=
  i.tracker.map (fun t => freePiece base (0x005900 + 64 * (t.id % 16)) 64) ++
    i.watches.filterMap (fun w => match w.who with
      | .warp s => some (freePiece base (0x005E00 + 8 * s) 8)
      | _ => none) ++
    i.copies.zipIdx.map (fun x => freePiece base (0x006000 + 64 * x.2) 64) ++
    (if i.bards.isEmpty then [] else [freePiece base 0x006400 1024])

/-- The entries of held messages (R290). -/
def Image.messages (i : Image) : List Piece :=
  (i.outbuf.zipIdx.map (fun x =>
    let a := 0x037000 + 576 * x.2
    let m := x.1
    let pois := (m.words.zipIdx.map (fun w => if w.1.2 then 2 ^ w.2 else 0)).sum
    [qword a [(0, 16, 4 * m.words.length), (16, 10, m.dcol), (32, 4, m.ring), (40, 6, m.slot), (48, 1, 1)],
     qword (a + 0x08) [(0, 64, m.itick)], (a + 0x10, bytesOf 16 pois),
     (a + 0x40, (m.words.map (fun w => bytesOf 4 w.1.toNat)).flatten)])).flatten

/-! ## Warp records -/

/-- The state code of a warp record (R91): a warp in BAR or BARD is parked (R73), one that awaits an exchange is in a collective. -/
def Image.warpState (i : Image) (s : Nat) (w : Warp) : Nat :=
  if w.stopped then 4
  else match w.park, w.wait with
    | .none, .translation _ _ _ => 3
    | .none, _ => if i.xchs.any (fun x => x.slot == s && x.wants) then 2 else 0
    | _, _ => 1

/-- Bytes whose codes are not given, written for a parked warp: the park kind, and what it is parked on. -/
def parkPieces (base a : Nat) (w : Warp) : List Piece :=
  if w.park = .none then [] else [freePiece base (a + 7) 1, freePiece base (a + 0x28) 24]

/-- A vector register's shape code, its data bytes and its poison (R65, R91). -/
def RegData.saved : RegData → Nat × List Byte × Nat
  | .uniform v p => (0, bytesOf 4 v.toNat, p.toNat)
  | .affine b s p => (1, bytesOf 4 b.toNat ++ bytesOf 4 s.toNat, p.toNat)
  | .general vs p => (2, (vs.toList.map (fun v : Word => bytesOf 4 v.toNat)).flatten, p.toNat)

/-- A bit for each of the first n numbers that a test selects. -/
def bitsFor (n : Nat) (p : Nat → Bool) : Nat := ((List.range n).map (fun b => if p b then 2 ^ b else 0)).sum

/-- A warp's pending phases of named barriers, and of domain barriers by channel (R91). -/
def Warp.phases (w : Warp) (a : Nat) : List Piece :=
  let bard (ch : Nat) : Option Nat := (w.bardPend.find? (fun x => x.1 % 16 == ch)).map Prod.snd
  [qword (a + 0xE0) [(0, 64, bitsFor 64 (fun b => w.barPend.has b))],
   qword (a + 0xE8) [(0, 64, bitsFor 64 (fun b => w.barPend.getD b 0 % 2 == 1))],
   qword (a + 0xF0) [(0, 16, bitsFor 16 (fun c => (bard c).isSome)), (16, 16, bitsFor 16 (fun c => (bard c).getD 0 % 2 == 1)),
     (32, 3, w.deferred.length), (35, 1, w.ovf.toNat)]]

/-- The stacks and the deferred reports of a warp record (R91), each oldest first. -/
def Warp.stacks (w : Warp) (a : Nat) : List Piece :=
  (w.rstack.reverse.zipIdx.map (fun x =>
    [qword (a + 0x400 + 16 * x.2) [(0, 48, x.1.slot.toNat)], qword (a + 0x408 + 16 * x.2) [(0, 32, x.1.mask.toNat)]])).flatten ++
    w.retTop.reverse.zipIdx.map (fun x => qword (a + 0x600 + 8 * x.2) [(0, 48, x.1.toNat)]) ++
    (w.deferred.zipIdx.map (fun x =>
      [qword (a + 0x700 + 16 * x.2) [(0, 48, x.1.pc.toNat), (48, 8, x.1.cause.toNat), (56, 5, x.1.lane.toNat)],
       qword (a + 0x708 + 16 * x.2) [(0, 8, x.1.kind.toNat)]])).flatten

/-- The index registers of a warp record (R91, R229). -/
def Warp.indexes (w : Warp) (a : Nat) : List Piece :=
  (w.ix.toList.zipIdx.map (fun x =>
    let b := a + 0x100 + 48 * x.2
    [qword b [(0, 16, x.1.base.toNat), (16, 16, x.1.bound.toNat), (32, 16, (x.1.stride.signExtend 16).toNat)],
     (b + 16, x.1.idx.toList)])).flatten

/-- The places in LOADS and in STORES that a held instruction keeps (R422). -/
def Warp.places (w : Warp) : Nat × Nat :=
  match w.wait with
  | .translation _ _ p => ((p.getLsbD 0).toNat, (p.getLsbD 1).toNat)
  | _ => (0, 0)

/-- A warp record (R91). -/
def Image.record (i : Image) (base s : Nat) (w : Warp) : List Piece :=
  let a := 0x007000 + 0x1000 * s
  [qword a [(0, 48, w.pc.toNat), (48, 8, i.warpState s w)], qword (a + 0x08) [(0, 32, w.enabled.toNat), (32, 32, w.retired.toNat)],
   qword (a + 0x10) [(0, 3, w.wlog.toNat), (8, 6, w.rstack.length), (16, 5, w.retDepth), (24, 6, w.prio), (32, 6, w.gang),
     (40, 10, w.overdueCount)],
   qword (a + 0x18) [(0, 32, w.wstat.toNat), (32, 7, w.obs.toNat)],
   qword (a + 0x20) [(0, 6, w.loads + w.places.1), (8, 6, w.stores + w.places.2), (16, 6, w.copies), (24, 6, w.tiles)],
   (a + 0x40, (w.preds.toList.map (fun p : Mask => bytesOf 4 p.toNat)).flatten),
   (a + 0x60, (w.rng.toList.map (fun v : Word => bytesOf 4 v.toNat)).flatten)] ++
    parkPieces base a w ++ w.phases a ++ w.indexes a ++ w.stacks a ++
    (match i.xbuf.get? s with
      | some y => [(a + 0x680, (lanes.map (fun l => bytesOf 4 (y.reg.data.lane l).toNat)).flatten)]
      | none => [])

/-- The bytes that a register writes of its row (R91). -/
def RegData.savedLen (r : RegData) : Nat := r.saved.2.1.length

/-- The register directory of a warp, and its registers' rows of the pool image (R91). -/
def Image.registers (i : Image) (s : Nat) (w : Warp) : List Piece :=
  ((List.range i.regions.regs).map (fun j =>
    let v := w.reg j
    let r := v.data.saved
    [qword (0x007800 + 0x1000 * s + 8 * j) [(0, 2, r.1), (2, 5, v.fmt.toNat), (32, 32, r.2.2)],
     (0x040000 + (s * i.regions.regs + j) * 128, r.2.1)])).flatten

/-! ## The image -/

/-- The register of an occupied slot in whose row a pool byte lies (R91). -/
def Image.rowAt (i : Image) (b : Nat) : Option VReg :=
  let r := b / 128
  if b < i.poolReg then (i.warps.get? (r / i.regions.regs)).map (fun w => w.reg (r % i.regions.regs)) else none

/-- Words of the pool image or of the B-SRAM. -/
def wordPieces (at_ : Nat) (t : Table PoolWord) : List Piece := t.map (fun x => (at_ + 4 * x.1, bytesOf 4 x.2.val.toNat))

/-- The pieces of an image; what lies between them in the regions written is 0 (R89-R92). -/
def Image.pieces (i : Image) (base : Nat) : List Piece :=
  i.header ++ (i.log.zipIdx.map (fun x => i.logEntry x.2 x.1)).flatten ++ i.tiles ++ i.barriers ++ i.ringStates ++ i.unlaid base ++
    i.messages ++ (i.warps.map (fun x => i.record base x.1 x.2 ++ i.registers x.1 x.2)).flatten ++
    wordPieces 0x040000 (i.pool.filter (fun x => (i.rowAt (4 * x.1)).isNone)) ++ wordPieces 0x240000 i.bsram

/-- The offsets of an image that a column writes (R92): of the row of an occupied slot's register, what R91 writes. -/
def Image.writes (i : Image) (off : Nat) : Bool :=
  decide (off < 0x006800) || (decide (0x037000 ≤ off) && decide (off < 0x037900)) ||
    (decide (0x007000 ≤ off) && decide (off < 0x037000) && i.warps.has ((off - 0x007000) / 0x1000) &&
      decide (off % 0x1000 < 0x800 + 8 * i.regions.regs)) ||
    (decide (0x040000 ≤ off) && decide (off < 0x040000 + i.poolAcc) && (match i.rowAt (off - 0x040000) with
      | some v => decide ((off - 0x040000) % 128 < v.data.savedLen)
      | none => true)) || (decide (0x240000 ≤ off) && decide (off < 0x340000))

/-- Pieces written into the n bytes from a key on, those that lie there whole; a piece of zeros changes nothing that has been cleared. -/
def Memory.patch (m : Memory) (a n : Nat) (ps : List Piece) : Memory :=
  ps.foldl (fun (m : Memory) p => if p.1 + p.2.length ≤ n then m.write (a + p.1) p.2 else m) m

/-- An image written into its slot (R92). -/
def Memory.saveImage (m : Memory) (c slot base : Nat) (i : Image) : Memory :=
  let a := slotKey c slot
  let m : Memory := m.filter (fun x => !(decide (a ≤ x.1) && decide (x.1 < a + 0x400000) && i.writes (x.1 - a)))
  m.patch a 0x400000 ((i.pieces base).filter (fun p => p.2.any (· != 0)))

end Sys2Proof.Machine
end

