-- ==== Sys2Proof/Machine/Swap.lean ====
section
/-! DEFINITION. Pre-emption (R88-R94), holds (R95), rehearsal (R456, R457) and understudy promotion (R458). A saved image stands in the
green room as bytes (R89-R92), and in a structure of the same content that a restore takes (log 80). -/

namespace Sys2Proof.Machine

/-! ## Halting -/

/-- The columns of a partition halted: issue stops, and a CUEW that waits there learns of the halt tick (R88, R384). -/
def Dev.halt (d : Dev) (p : Nat) : Dev :=
  (d.part p).columns.foldl (fun (d : Dev) c => d.modCol c (fun k =>
    { k with halted := true, hand := { k.hand with halted := match k.hand.wait with
      | .cuew _ _ _ _ _ _ => true
      | _ => k.hand.halted } })) d

/-- Issue resumes on the columns of a partition, unless a hold or a pre-emption still halts it. -/
def Dev.unhalt (d : Dev) (p : Nat) : Dev :=
  let x := d.part p
  if x.held || x.holdWanted || x.halting then d
  else x.columns.foldl (fun (d : Dev) c => d.modCol c (fun k => { k with halted := false })) d

/-- A partition changed. -/
def Dev.modPart (d : Dev) (p : Nat) (f : Partition → Partition) : Dev :=
  if d.parts.has p then { d with parts := d.parts.set p (f (d.part p)) } else d

/-- An outstanding operation has settled (R88): it has its completion time, or lanes of it stay in the side log; a message that its ring
turned away, and an exchange that waits on partners alone, are saved as they stand. -/
def Column.opSettled (k : Column) (o : MemOp) : Bool :=
  match o.kind with
  | .xch => k.xchs.all (fun x => x.op != o.id || x.sends.isEmpty)
  | .msg => k.outbuf.any (fun m => m.op == o.id && m.away)
  | _ => o.lanes.isEmpty && decide (0 < o.logged)

/-- What was in flight on a column has been treated as the table of R88 says, for the contexts in question. With `drain`, programs still
queued have run as well (R384). -/
def Column.settled (k : Column) (mine : Nat → Bool) (drain : Bool) : Bool :=
  k.ops.all (fun o => !mine o.ctx || k.opSettled o) && k.hand.atomq.all (fun e => !mine e.ctx) &&
    (k.running 0).isEmpty && decide ((k.running 1).length ≤ if k.yielded then 1 else 0) &&
    k.copies.all (fun x => !mine x.ctx || decide (x.stage < 2) || x.held.isSome) &&
    (match k.hand.running with
      | some r => !mine r.ctx
      | none => true) &&
    (!drain || k.hand.runq.all (fun r => !mine r.ctx)) &&
    k.warps.all (fun w => !w.2.stopped || (w.2.tiles == 0 && w.2.copies == 0))

/-- Every column of a partition has settled. -/
def Dev.settled (d : Dev) (p : Nat) (mine : Nat → Bool) (drain : Bool) : Bool :=
  (d.part p).columns.all (fun c => (d.col c).settled mine drain)

/-- The meaning of HALT_TICK (R88): the halt tick of a pending save is now. -/
def execHaltTick (p : Nat) (s : State) : Host.Outcome State Fault Refusal :=
  let d := s.dev
  let x := d.part p
  match x.preempt with
  | none => .next s
  | some q =>
    if q.htick.isSome || x.held || x.holdWanted then .next s
    else .next { s with dev := (d.modPart p (fun x => { x with preempt := some { q with htick := some d.now } })).halt p }

/-! ## The image -/

/-- The slots in use as OCC of the header (R90). -/
def Column.occupied (k : Column) : BitVec 48 := k.warps.foldl (fun m w => m ||| (1#48 <<< w.1)) 0

/-- A watch that a warp of a context has registered. -/
def Watch.ofWarp (w : Watch) (ctx : Nat) : Bool :=
  w.ctx == ctx && (match w.who with
    | .warp _ => true
    | _ => false)

/-- The words of the pool or of the B-SRAM as a context sees them (R202, R300): what a save writes and a restore brings back. -/
def Table.ownOf (t : Table PoolWord) (ctx : Nat) : Table PoolWord :=
  t.mapVals (fun _ p =>
    let own (j : Nat) : Bool := p.owner j == ctx
    ({ val := (List.range 4).foldl (fun w j => if own j then w ||| (p.val &&& (0xFF#32 <<< (8 * j))) else w) 0,
       pois := p.pois && (List.range 4).any own, ctx := ctx } : PoolWord))

/-- The first resident launch of a column (R90): the earliest whose gangs it holds. -/
def Column.firstLaunch (k : Column) : Option Nat := (k.gangs.map (fun g => g.launch)).min?

/-- The image of a context on column c (R89-R92). -/
def Dev.image (d : Dev) (c p : Nat) (q : Preempting) (h : Nat) : Image :=
  let k := d.col c
  let x := d.ctx q.ctx
  let r := k.firstLaunch.map d.launchRec
  { valid := true, col := c, ctx := q.ctx, part := p, htick := h, seq := q.seq.getD 0, occ := k.occupied, poolReg := k.poolReg,
    poolSpad := k.poolSpad, poolAcc := k.poolAcc, obj := BitVec.ofNat 64 ((r.map LaunchRec.obj).getD 0),
    flags := BitVec.ofNat 64 ((r.map LaunchRec.flags).getD 0), lease := x.lease, ptRoot := x.ptRoot, peerTab := x.peerTab,
    filter := k.filter.filter (fun e => e.ctx == q.ctx), bards := d.bards.filter (fun b => b.arrived.any (fun a => a.1 == c)),
    regions := k.regions, warps := k.warps,
    gangs := k.gangs, pool := Table.ownOf (k.pool.filter (fun x => decide (x.1 < k.poolAcc / 4))) q.ctx, bsram := Table.ownOf k.bsram q.ctx,
    undef := k.undef.filter (fun u => u.ctx == q.ctx),
    ops := k.ops.filter (fun o => o.ctx == q.ctx), log := k.log.filter (fun e => e.ctx == q.ctx), tileQ := k.tileQ, yielded := k.yielded,
    bars := k.bars, rings := k.rings, tracker := k.tracker, watches := k.watches.filter (fun w => w.ofWarp q.ctx),
    copies := k.copies.filter (fun x => x.ctx == q.ctx), xchs := k.xchs, xbuf := k.xbuf, outbuf := k.outbuf }

/-- A column without the context that it has saved: its L1 lines and translations are invalidated (R88), its pins end (R212), its filter
entries are not saved (R436); its register rows are pool bytes from now on (R202). -/
def Column.vacate (k : Column) (ctx : Nat) : Column :=
  let k := k.spillAll.dropXlate ctx 0 (2 ^ 28)
  { k with
    warps := [], gangs := [], ops := k.ops.filter (fun o => o.ctx != ctx),
    log := k.log.filter (fun e => e.ctx != ctx), filter := k.filter.filter (fun e => e.ctx != ctx),
    tileQ := Vector.replicate 2 [], yielded := false, bars := [], rings := [], tracker := [],
    watches := k.watches.filter (fun w => !w.ofWarp ctx), copies := k.copies.filter (fun x => x.ctx != ctx), xchs := [], xbuf := [],
    outbuf := [], turned := [], reports := [], l1 := k.l1.filter (fun f => f.ctx != ctx),
    l2 := k.l2Unpin.l2, l2Bypass := k.l2Unpin.l2Bypass }

/-- The sectors of an image slot of a column: the first, and how many (R89). -/
def imageSector (c slot : Nat) : Nat := slotKey c slot / 32

/-- The sectors of an image slot are without poison once it has been written. -/
def Dev.cleanSlot (d : Dev) (c slot : Nat) : Dev :=
  let a := imageSector c slot
  { d with vaultPois := d.vaultPois.filter (fun x => !(decide (a ≤ x) && decide (x < a + 131072))) }

/-- A sector of an image slot is poisoned. -/
def Dev.slotPoisoned (d : Dev) (c slot : Nat) : Bool :=
  let a := imageSector c slot
  d.vaultPois.any (fun x => decide (a ≤ x) && decide (x < a + 131072))

/-- A save is over (R88, R454): the context is saved, and the PREEMPT completes, or the event of a ctxsw.save is written. -/
def Dev.saved (d : Dev) (p : Nat) (q : Preempting) : Dev :=
  let d := (d.modPart p (fun x => { x with preempt := none })).modCtx q.ctx (fun x => { x with state := .saved q.slot })
  let d := d.unhalt p
  match q.seq with
  | some seq => d.complete (.part p) seq 0
  | none => d.event 0x82 q.ctx (BitVec.ofNat 64 q.slot)

/-- The meaning of IMAGE_WRITE_DONE (R88, R92): with the partition halted, a column has written its image and sets VALID; with the last of
them the save is over. -/
def execImageWriteDone (p col : Nat) (s : State) : Host.Outcome State Fault Refusal :=
  let d := s.dev
  let x := d.part p
  match x.preempt with
  | none => .next s
  | some q => match q.htick with
    | none => .next s
    | some h =>
      if x.held || x.holdWanted || !x.columns.contains col || q.written.contains col || !d.settled p (· == q.ctx) true then .next s
      else
        let k := d.col col
        let i := d.image col p q h
        let vault := s.vault.saveImage col q.slot d.free i
        let d : Dev := { d with images := d.images.set (imageKey col q.slot) i, free := d.free + 1 }
        let d := (d.cleanSlot col q.slot).putCol col { k.vacate q.ctx with busyEnd := d.now }
        let q : Preempting := { q with written := q.written ++ [col] }
        let d := d.modPart p (fun x => { x with preempt := some q })
        .next { vault := vault, dev := if x.columns.all (fun c => q.written.contains c) then d.saved p q else d }

/-! ## Restoring -/

/-- The boundaries that a header gives (R59, R90). -/
def Column.rebound (k : Column) (g : Regions) : Column :=
  let reg := (g.n * g.w + g.spawnw) * g.regs * 128
  let sp := reg + g.n * g.spad * 128
  let acc := sp + g.n * g.acc * 16384
  { k with poolReg := reg, poolSpad := sp, poolAcc := acc, l1 := if k.poolAcc = acc then k.l1 else [], regions := g }

/-- A filter entry that a restored log entry rebuilds, joined where the granule has one (R436). `open_` says that the lead wing stage
still knows the granule. -/
def Column.refilter (k : Column) (open_ : Bool) (e : LogEntry) : Column :=
  let acc : AccKind := if e.kind = 5 then .nmatom else .store
  match k.filterOf e.ctx e.gran with
  | some _ =>
    { k with filter := k.filter.map (fun f : FilterEntry =>
        if f.ctx = e.ctx ∧ f.gran = e.gran then { f with acc := f.acc ||| acc.bit } else f) }
  | none =>
    { k with filter := k.filter ++ [{ ctx := e.ctx, gran := e.gran, kind := e.fkind, level := 2, acc := acc.bit, sent := open_,
                                      tick := e.itick }] }

/-- A restored warp: in the pending set, and one that waited for a page tries again (R93, R436). -/
def Warp.restored (w : Warp) (now : Nat) : Warp :=
  { w with active := false, entered := now, wait := match w.wait with
    | .translation _ _ _ => .none
    | x => x }

/-- A column with an image restored (R93): suspended copies and operations that a page held go on, messages are offered again. -/
def Column.restore (k : Column) (i : Image) (now : Nat) : Column :=
  { k.rebound i.regions with
    warps := i.warps.mapVals (fun _ w => w.restored now), gangs := i.gangs,
    -- the restore writes every byte below POOL_ACC and every byte of the B-SRAM for the context (R202)
    pool := i.pool ++ k.pool.filter (fun x => decide ((k.rebound i.regions).poolAcc / 4 ≤ x.1)), bsram := i.bsram,
    undef := k.undef.filter (fun u => u.ctx != i.ctx) ++ i.undef,
    ops := k.ops ++ i.ops, log := k.log ++ i.log, yielded := i.yielded, bars := i.bars, rings := i.rings, tracker := i.tracker,
    tileQ := i.tileQ.map (fun q => q.map (fun o : TileOp => { o with held := none, rescan := true })), watches := k.watches ++ i.watches,
    copies := k.copies ++ i.copies.map (fun x : CopyCmd => { x with held := none }), xchs := i.xchs, xbuf := i.xbuf,
    outbuf := i.outbuf.map (fun m : OutMsg => { m with away := false }) }

/-- The lead wing stage has an entry, or a resolution kept, for a granule. -/
def Dev.granOpen (d : Dev) (ctx gran : Nat) : Bool :=
  d.wings.any (fun w => w.2.ctx == ctx && w.2.gran == gran) || d.resolutions.any (fun r => r.ctx == ctx && r.gran == gran)

/-- One column's image restored, its filter rebuilt, and its watches tested once (R93, R436). -/
def State.restoreCol (s : State) (ctx slot c : Nat) : State :=
  let d := s.dev
  match d.images.get? (imageKey c slot) with
  | none => s
  | some i =>
    let k := (d.col c).restore i d.now
    let k := (i.log.filter (fun e => e.state == 1)).foldl (fun k e => k.refilter (d.granOpen ctx e.gran) e) k
    let d : Dev := { d.putCol c k with images := d.images.del (imageKey c slot) }
    i.watches.foldl (fun (s : State) w => s.testWatches c w.va 4) { vault := s.vault.clearValid c slot, dev := d }

/-- The requests of a context's parked warps ask again (R361): they arrive now, in their old order. -/
def Dev.askAgain (d : Dev) (ctx : Nat) : Dev :=
  (d.replays.vals.filter (fun x => x.ctx == ctx && x.slot.isNone && (match x.owner with
    | .warp _ _ => true
    | .ring _ _ => false))).foldl (fun (d : Dev) x =>
      { d with replays := (d.replays.del x.id).set d.nextReplay { x with id := d.nextReplay }, nextReplay := d.nextReplay + 1 }) d

/-- A context restored from its slot on every column (R93); what the walker held for its pages is tried again. -/
def State.restoreCtx (s : State) (p ctx slot : Nat) : State :=
  let s := (s.dev.part p).columns.foldl (fun (s : State) c => s.restoreCol ctx slot c) s
  let wake (x : Replay) : Replay :=
    if x.ctx = ctx then { x with held := none, nodes := x.nodes.map (fun n : GNode => { n with held := none }) } else x
  let d := s.dev.modCtx ctx (fun x => { x with state := .resident })
  { s with dev := ({ d with replays := d.replays.mapVals (fun _ x => wake x) } : Dev).askAgain ctx }

/-- An image of the partition's slot has a poisoned record (R451). -/
def Dev.imagePoisoned (d : Dev) (p slot : Nat) : Bool := (d.part p).columns.any (fun c => d.slotPoisoned c slot)

/-- The images of a slot of a partition discarded (R78, R90). -/
def State.dropImages (s : State) (p slot : Nat) : State :=
  let cs := (s.dev.part p).columns
  { vault := cs.foldl (fun (m : Memory) c => m.clearValid c slot) s.vault,
    dev := { s.dev with images := cs.foldl (fun (t : Table Image) c => t.del (imageKey c slot)) s.dev.images } }

/-! ## Holds -/

/-- A hold of a partition is asked for: its columns halt (R95). -/
def Dev.wantHold (d : Dev) (p : Nat) : Dev :=
  if (d.part p).held || (d.part p).holdWanted then d
  else (d.modPart p (fun x => { x with holdWanted := true })).halt p

/-- A hold released: issue resumes on every column in the same tick (R95). -/
def Dev.unhold (d : Dev) (p : Nat) : Dev := (d.modPart p (fun x => { x with held := false, holdWanted := false })).unhalt p

/-- The meaning of HOLD (R95): the partition halts, and is held once what was in flight has settled. -/
def execHold (p : Nat) (s : State) : Host.Outcome State Fault Refusal :=
  let d := s.dev
  let x := d.part p
  if x.held then .next s
  else if !x.holdWanted then .next { s with dev := d.wantHold p }
  else if d.settled p (fun _ => true) false then .next { s with dev := d.modPart p (fun x => { x with held := true }) }
  else .next s

/-- The meaning of HOLD_RELEASE (R95); the thermal state keeps its holds (R398). -/
def execHoldRelease (p : Nat) (s : State) : Host.Outcome State Fault Refusal :=
  if s.dev.power = .p3 then .next s else .next { s with dev := s.dev.unhold p }

/-! ## Rehearsal -/

/-- A result word of R457. -/
def resultWord (state unit count block : Nat) : BitVec 64 :=
  BitVec.ofNat 64 (state + unit % 256 * 2 ^ 8 + count % 65536 * 2 ^ 16 + block % 65536 * 2 ^ 48)

/-- The rehearsals that a column has completed. -/
def Column.rehearsals (k : Column) : Nat := (k.rehearsal.extractLsb' 16 16).toNat

/-- The meaning of REHEARSAL_START (R456): the column's slices write back and invalidate their lines, and their pins end. -/
def execRehearsalStart (col : Nat) (s : State) : Host.Outcome State Fault Refusal :=
  let k := s.dev.col col
  if k.rehearseQ.isNone || k.rehearsing || !k.warps.isEmpty then .next s
  else
    .next { s with dev := s.dev.modCol col (fun k =>
      { k.l2Invalidate 0 vaultSize with
        rehearsing := true, rehearseQ := none, gated := false, rehearsal := (k.rehearsal &&& ~~~(0xF#64)) ||| 2 }) }

/-- What a rehearsal leaves (R456-R458): pool, B-SRAM and L1 zero, and the result word; a rehearsal asked for meanwhile is queued again. A column that
fails is to be retired. -/
def Column.rehearsed (k : Column) (unit block : Nat) : Column :=
  let n := min 65535 (k.rehearsals + 1)
  let st := if k.rehearseQ.isSome then 1 else if unit = 0 then 3 else 4
  { k with retiring := k.retiring || unit != 0, pool := [], bsram := [], undef := [], l1 := [], rehearsing := false,
           rehearsal := resultWord st unit n (if unit = 0 then 0 else block) }

/-- The meaning of REHEARSAL_END (R457): unit 0 is a pass; a failure sends a record of kind 0x0D. -/
def execRehearsalEnd (col unit block : Nat) (s : State) : Host.Outcome State Fault Refusal :=
  let d := s.dev
  if !(d.col col).rehearsing then .next s
  else
    let d := d.modCol col (fun k => { k.rehearsed (unit % 256) block with busyEnd := d.now })
    .next { s with dev := if unit % 256 = 0 then d
      else d.recordCol col { kind := 0x0D, unit := unit % 256, block := block % 65536, detail := (d.col col).rehearsal.setWidth 128 } }

/-! ## Understudies -/

/-- A physical column of a die, in the list of understudies. -/
def physKey (die u : Nat) : Nat := die * 512 + u

/-- The partitions that hold a column. -/
def Dev.holders (d : Dev) (c : Nat) : List Nat := (d.parts.filter (fun x => x.2.columns.contains c)).map Prod.fst

/-- A counter of a die lowered by one. -/
def lessOne (v : Vector Nat 4) (die : Nat) : Vector Nat 4 := Vector.ofFn (fun i => if i.val = die then v[i] - 1 else v[i])

/-- Every context of a partition reset with cause 8, its commands completing with STATUS 9, and the partition lost (R458). -/
def State.losePart (s : State) (p : Nat) : State :=
  let cs := s.dev.ctxsOf p
  let d := cs.foldl (fun (d : Dev) c => d.abandon (.part p) c 9 none) s.dev
  let s := cs.foldl (fun (s : State) c => s.contextReset c 8 0 none) { s with dev := d }
  { s with dev := s.dev.modPart p (fun x => { x with lost := true }) }

/-- A column becomes absent, with no understudy left (R458). Its own number is absent until the next bring-up numbers the die's columns anew,
the missing ones highest (R18; DEDUCED, log 114). -/
def State.retireAbsent (s : State) (c : Nat) : State :=
  let d := s.dev
  let d : Dev := { d with absent := d.absent ++ [c], capCols := lessOne d.capCols (dieOf c) }
  let d := d.recordCol c { kind := 0x0F, unit := 0 }
  (d.holders c).foldl (fun (s : State) p => s.losePart p) { s with dev := d }

/-- The sectors of a column's vault whose next read reports an error: the base-die copy reads them (R458, R454). -/
def Dev.readInjected (d : Dev) (c : Nat) : Dev :=
  (d.inject.filter (fun x => x.1 / 2 ^ 39 == c)).foldl (fun (d : Dev) x => d.controllerRead c (x.1 % 2 ^ 39 * 32)) d

/-- What an understudy takes over (R458): everything but the caches. R458's list names neither the rehearsal's result word nor VR_COUNT and
L2_BYPASS: the logical column keeps them (DESIGN CHOICE, log 113). Of a column that cannot be read, the words arrive poisoned. -/
def Column.moved (k : Column) (readable : Bool) : Column :=
  let words (t : Table PoolWord) : Table PoolWord := if readable then t else t.mapVals (fun _ p => { p with pois := true })
  { k.l2Invalidate 0 vaultSize with pool := words k.pool, bsram := words k.bsram, l1 := [], tlb := [], oldPtes := [], code := [], objs := [], hwErrs := 0, retiring := false }

/-- The remap (R458): the logical column stands on an understudy, and the holds end. -/
def Dev.promote (d : Dev) (c u : Nat) (readable : Bool) : Dev :=
  let old := d.phys.getD c (c % 256)
  let d := (d.readInjected c).modCol c (fun k => k.moved readable)
  let d : Dev := { d with phys := d.phys.set c u, understudies := d.understudies.filter (· != physKey (dieOf c) u), spares := lessOne d.spares (dieOf c),
                          banks := d.banks.filter (fun b => b.1 / 32 != c) }
  let d := d.recordCol c { kind := 0x0E, unit := 0, detail := BitVec.ofNat 128 (old + u * 2 ^ 16) }
  if d.power = .p3 then d else (d.holders c).foldl (fun (d : Dev) p => d.unhold p) d

/-- A column's state cannot be read: the resident contexts of its partitions are reset (R458). -/
def State.resetHolders (s : State) (c : Nat) : State :=
  (s.dev.holders c).foldl (fun (s : State) p => match s.dev.residentOf p with
    | some x => s.contextReset x 8 0 none
    | none => s) s

/-- The meaning of COLUMN_RETIREMENT (R458), of a column whose rehearsal has failed or whose errors exceed the limit: the partitions that hold the column are held first; then the understudy takes its place. With
none left the column becomes absent. -/
def execColumnRetirement (col understudy : Nat) (readable : Bool) (s : State) : Host.Outcome State Fault Refusal :=
  let die := dieOf col
  if 1024 ≤ col ∨ s.dev.absent.contains col ∨ !(s.dev.col col).retiring then .next s
  else if s.dev.spares.toList.getD die 0 = 0 then .next (s.retireAbsent col)
  else if !s.dev.understudies.contains (physKey die understudy) then .next s
  else
    let s := if readable then s else s.resetHolders col
    let d := s.dev
    if (d.holders col).all (fun p => (d.part p).held) then .next { s with dev := d.promote col understudy readable }
    else .next { s with dev := (d.holders col).foldl (fun (d : Dev) p => d.wantHold p) d }

end Sys2Proof.Machine
end

