-- ==== Sys2Proof/Machine/Commands.lean ====
section
/-! DEFINITION. The rings (R77-R79, R390): acceptance, the commands of a partition's ring and of the administrative one, and the report of
ATTEST (R396). A command runs as the next accepted entry of its ring. -/

namespace Sys2Proof.Machine

/-! ## Acceptance -/

/-- The stage manager of a die serves its rings: it is ready, and no check of its start has failed (R394). -/
def Dev.smgrServes (d : Dev) (die : Nat) : Bool := d.ready.contains (.smgr die) && !d.bootFail.contains die

/-- A ring accepts entries (R392, R458): for a partition's, every column and stagehand is ready and the partition not lost. -/
def Dev.ringOpen (d : Dev) : RingId → Bool
  | .admin => d.smgrServes 0
  | .part p =>
    let x := d.part p
    d.parts.has p && !x.lost && d.smgrServes (dieOf x.first) &&
      x.columns.all (fun c => d.ready.contains (.cols (dieOf c)) && d.ready.contains (.stage c) && !d.absent.contains c)

/-- The entry at CMD_HEAD. -/
def RingBlock.atHead (b : RingBlock) : CmdEntry := b.cmds.getD (b.cmdHead % 4096) CmdEntry.zero

/-- Entries accepted in index order while their SEQ is the next; any other SEQ stops the ring (R78). -/
def RingBlock.acceptAll : Nat → RingBlock → RingBlock
  | 0, b => b
  | k + 1, b =>
    let e := b.atHead
    if b.stopped || b.cmdHead % 4096 == b.cmdTail % 4096 then b
    else if e.seq = b.seqRx + 1 then
      RingBlock.acceptAll k { b with cmdHead := (b.cmdHead + 1) % 4096, seqRx := e.seq, accepted := b.accepted ++ [e] }
    else { b with stopped := true }

/-- The die whose stage manager keeps a ring. -/
def Dev.ringDie (d : Dev) : RingId → Nat
  | .admin => 0
  | .part p => dieOf (d.part p).first

/-- A ring's next entries accepted where it is open; one that stops at an entry sends a record of kind 0x09 (R78, R459), and one that stood
there already, `was`, sends none. -/
def Dev.accept (d : Dev) (r : RingId) (was : Bool) : Dev :=
  if !d.ringOpen r then d
  else
    let a := d.ring r
    let b := a.acceptAll 4096
    let d := d.putRing r b
    if b.stopped && (!was || b.seqRx != a.seqRx) then
      d.record (d.ringDie r) { kind := 0x09, unit := 0, detail := b.atHead.seq ++ (b.seqRx + 1) }
    else d

/-- Entries written up to an index. -/
def RingBlock.fill (b : RingBlock) (tail : Nat) : List CmdEntry → RingBlock
  | [] => b
  | e :: es => RingBlock.fill { b with cmds := b.cmds.set ((tail + 4096 * (es.length + 1) - (es.length + 1)) % 4096) e } tail es

/-- CMD_TAIL has been written: a ring that is open accepts, a stopped one again (R77, R459). -/
def Dev.doorbell (d : Dev) (r : RingId) : Dev :=
  let b := d.ring r
  if d.ringOpen r then (d.putRing r { b with stopped := false }).accept r b.stopped else d

/-- The meaning of CMD_TAIL_DOORBELL (R77, R78): the host's entries, the last of them before the new tail; a stopped ring tries again (R459). -/
def execCmdTailDoorbell (r : RingId) (entries : List CmdEntry) (tail : Nat) (s : State) : Host.Outcome State Fault Refusal :=
  .next { s with dev := (s.dev.putRing r { (s.dev.ring r).fill (tail % 4096) entries with cmdTail := tail % 4096 }).doorbell r }

/-- CPL_HEAD has been written: completions held back are written while there is room (R79). -/
def Dev.cplRelease (d : Dev) (r : RingId) : Dev := d.putRing r ((d.ring r).release (d.ring r).heldCpl)

/-- The meaning of CPL_HEAD_ADVANCE (R79). -/
def execCplHeadAdvance (r : RingId) (head : Nat) (s : State) : Host.Outcome State Fault Refusal :=
  .next { s with dev := (s.dev.putRing r { s.dev.ring r with cplHead := head % 4096 }).cplRelease r }

/-- The host's write into a ring block (R77): of entries, of CPL_HEAD, and of CMD_TAIL, which is the doorbell. -/
def Dev.ringWrite (d : Dev) (r : RingId) (off : Nat) (bs : List Byte) : Dev :=
  let d := d.putRing r ((d.ring r).setBytes off bs)
  let d := if off < 0x20 ∧ 0x18 < off + bs.length then d.cplRelease r else d
  if off < 8 ∧ bs ≠ [] then d.doorbell r else d

/-- The next accepted entry of a ring, taken to run where its OPC is one of these; a nonzero reserved byte completes it with STATUS 2 (R79). -/
def Dev.command (d : Dev) (r : RingId) (ok : Nat → Bool) (run : CmdEntry → Dev → State) (idle : Dev → State) : State :=
  let d := d.accept r (d.ring r).stopped
  match (d.ring r).accepted with
  | [] => idle d
  | e :: _ =>
    if !ok e.opc.toNat then idle d
    else
      let d := d.putRing r ((d.ring r).begin e)
      if e.rsvd ≠ 0 then idle (d.complete r e.seq 2) else run e d

/-- A context of a partition (R76, R79). -/
def Dev.ctxIn (d : Dev) (ctx p : Nat) : Bool := d.ctxs.has ctx && (d.ctx ctx).part == p

/-- A command that needs a context of the partition: STATUS 3 for another (R79). -/
def State.withCtx (s : State) (p : Nat) (e : CmdEntry) (go : Nat → State) : State :=
  if s.dev.ctxIn e.ctx.toNat p then go e.ctx.toNat else { s with dev := s.dev.complete (.part p) e.seq 3 }

/-- A command that may bring a context (R76): where the number is no context's and the partition has fewer than three, it becomes an empty one
of the partition. The spec gives system software the numbers and no command for it (DESIGN CHOICE, log 110); nor does it say how a context leaves
its partition again: here none does, but with a partition that PREMOVE removes empty (DESIGN CHOICE, log 134). -/
def State.withNewCtx (s : State) (p : Nat) (e : CmdEntry) (go : State → Nat → State) : State :=
  let c := e.ctx.toNat
  let d := s.dev
  let s : State :=
    if !d.ctxs.has c ∧ (d.ctxsOf p).length < 3 then
      { s with dev := { d with ctxs := d.ctxs.set c { d.ctx c with part := p, state := .empty } } }
    else s
  s.withCtx p e (go s)

/-! ## LAUNCH -/

/-- Launches whose record's read is held, after one of them is held at a granule. -/
def RingBlock.holdLaunch (b : RingBlock) (e : CmdEntry) (g : Nat) : RingBlock :=
  if b.waiting.any (fun x => x.1.seq == e.seq) then
    { b with waiting := b.waiting.map (fun x : CmdEntry × Option Nat => if x.1.seq = e.seq then (x.1, some g) else x) }
  else { b with waiting := b.waiting ++ [(e, some g)] }

/-- An empty context becomes resident where no context of its partition is (R79). -/
def Dev.comesIn (d : Dev) (p ctx : Nat) : Dev :=
  if (d.ctx ctx).state = .empty ∧ d.residentOf p = none then { d with ctxs := d.ctxs.set ctx { d.ctx ctx with state := .resident } } else d

/-- A launch's record is read and checked: queued, rejected, or held at a fault (R62). An offset past the offset space is an argument out of its
range (R79). A launch of an empty context makes it resident, if no context is (R79). -/
def State.acceptLaunch (s : State) (p : Nat) (e : CmdEntry) : State :=
  let ctx := e.ctx.toNat
  let c := (s.dev.part p).first
  let r : RingId := .part p
  if 2 ^ 44 ≤ e.arg0.toNat then { s with dev := s.dev.complete r e.seq 2 }
  else
  match s.readLaunch c ctx p e.arg0.toNat with
  | (.taken x, d) =>
    let b := d.ring r
    let d := d.putRing r { b with waiting := b.waiting.filter (fun y => y.1.seq != e.seq) }
    { s with dev := (d.queueLaunch ctx p x (.ring p e.seq)).comesIn p ctx }
  | (.rejected, d) => { s with dev := d.complete r e.seq 1 }
  | (.poisoned, d) => { s with dev := d.complete r e.seq 7 }
  | (.held f g, d) =>
    let d := d.report c ctx g f .copy
    { s with dev := d.putRing r ((d.ring r).holdLaunch e g) }

/-- The meaning of LAUNCH (R62, R78, R80): a launch that a retry has freed is read again first; later ones of the ring wait behind it. -/
def execLaunch (p : Nat) (s : State) : Host.Outcome State Fault Refusal :=
  let idle (d : Dev) : State := { s with dev := d }
  match (s.dev.ring (.part p)).waiting with
  | (e, none) :: _ => .next (s.trial (s.dev.part p).first (.launch p e.seq) (fun s => s.acceptLaunch p e))
  | ws =>
    .next (s.dev.command (.part p) (· == 1) (fun e d =>
      { s with dev := d }.withNewCtx p e (fun s _ =>
        if ws.isEmpty then s.acceptLaunch p e
        else
          let b := s.dev.ring (.part p)
          { s with dev := s.dev.putRing (.part p) { b with waiting := b.waiting ++ [(e, none)] } })) idle)

/-! ## GRAPH -/

/-- The meaning of GRAPH (R78, R358): the walker begins the replay, or it waits for its slot. -/
def execGraph (p : Nat) (s : State) : Host.Outcome State Fault Refusal :=
  let idle (d : Dev) : State := { s with dev := d }
  .next (s.dev.command (.part p) (· == 2) (fun e d =>
    { s with dev := d }.withNewCtx p e (fun s ctx =>
      let d := s.dev
      if !d.partPtr ctx e.arg0 || e.arg1.toNat % 64 != 0 then { s with dev := d.complete (.part p) e.seq 2 }
      else
        let (x, d) := d.askReplay ctx (colOf (d.part p).first e.arg0) (ptrOff e.arg0) (some (ptrOff e.arg1)) (.ring p e.seq)
        { s with dev := d }.beginReplay x)) idle)

/-! ## PREEMPT, RESUME, RESET, DROP, MARK -/

/-- A begun PREEMPT or RESUME that waits for a hold or another swap to end (R94, R95). -/
def Dev.waitingSwap (d : Dev) (p opc : Nat) : Option CmdEntry :=
  let busy := match (d.part p).preempt with
    | some q => q.seq
    | none => none
  (d.ring (.part p)).begun.find? (fun e => e.opc.toNat == opc && some e.seq != busy)

/-- A partition is held, or being held (R95). -/
def Partition.stopping (x : Partition) : Bool := x.held || x.holdWanted

/-- A PREEMPT begins its save, completes with an error, or goes on waiting (R78, R88): for a RESUME of the partition that has begun, too
(R94). -/
def State.preempt (s : State) (p : Nat) (e : CmdEntry) : State :=
  s.withCtx p e (fun ctx =>
    let d := s.dev
    let x := d.part p
    let slot := e.arg0.toNat % 2
    if x.stopping || x.preempt.isSome || (d.waitingSwap p 4).isSome then s
    else if (d.ctx ctx).state ≠ .resident then { s with dev := d.complete (.part p) e.seq 3 }
    else if d.slotUsed p slot then { s with dev := d.complete (.part p) e.seq 4 }
    else { s with dev := d.startSave p ctx slot (some e.seq) })

/-- The meaning of PREEMPT (R88). -/
def execPreempt (p : Nat) (s : State) : Host.Outcome State Fault Refusal :=
  match s.dev.waitingSwap p 3 with
  | some e => .next (s.preempt p e)
  | none => .next (s.dev.command (.part p) (· == 3) (fun e d => { s with dev := d }.preempt p e) (fun d => { s with dev := d }))

/-- A RESUME restores its context, completes with an error, or goes on waiting (R78, R79, R93). An image with a poisoned record resets the
context (R451). -/
def State.resume (s : State) (p : Nat) (e : CmdEntry) : State :=
  s.withCtx p e (fun ctx =>
    let d := s.dev
    let slot := e.arg0.toNat % 2
    if (d.part p).stopping then s
    else if (d.ctx ctx).state ≠ CtxState.saved slot then { s with dev := d.complete (.part p) e.seq 3 }
    else if (d.residentOf p).isSome then { s with dev := d.complete (.part p) e.seq 4 }
    else if d.imagePoisoned p slot then s.contextReset ctx 3 0 none
    else
      let s := s.restoreCtx p ctx slot
      { s with dev := s.dev.complete (.part p) e.seq 0 })

/-- The meaning of RESUME (R93). -/
def execResume (p : Nat) (s : State) : Host.Outcome State Fault Refusal :=
  match s.dev.waitingSwap p 4 with
  | some e => .next (s.resume p e)
  | none => .next (s.dev.command (.part p) (· == 4) (fun e d => { s with dev := d }.resume p e) (fun d => { s with dev := d }))

/-- The meaning of RESET (R452). -/
def execReset (p : Nat) (s : State) : Host.Outcome State Fault Refusal :=
  .next (s.dev.command (.part p) (· == 5) (fun e d =>
    { s with dev := d }.withCtx p e (fun ctx =>
      let t := { s with dev := d }.contextReset ctx 1 0 (some e.seq)
      { t with dev := t.dev.complete (.part p) e.seq 0 })) (fun d => { s with dev := d }))

/-- The meaning of MARK (R78, R79): it completes once every earlier command of the ring has. -/
def execMark (p : Nat) (s : State) : Host.Outcome State Fault Refusal :=
  .next (s.dev.command (.part p) (· == 6) (fun e d =>
    let b := d.ring (.part p)
    let b : RingBlock := { b with marks := b.marks ++ [(e, (b.begun.map (fun x => x.seq)).filter (· != e.seq))] }
    { s with dev := d.putRing (.part p) (RingBlock.settleMarks d (b.marks.length + 1) b) }) (fun d => { s with dev := d }))

/-- A saved context loses its image and becomes empty; its launches that had started end, and their commands complete as abandoned
(R78). -/
def State.dropCtx (s : State) (p ctx slot : Nat) : State :=
  let lost := ((s.dev.part p).columns.map (fun c => match s.dev.images.get? (imageKey c slot) with
    | some i => i.copies.map (fun x => x.owner)
    | none => [])).flatten
  let s := s.dropImages p slot
  let d := s.dev.modCtx ctx (fun x => { x with state := .empty })
  let gone : List Launch := (d.launches.map Prod.snd).filter (fun l => l.ctx == ctx && decide (0 < l.placed))
  let x := d.part p
  let d : Dev :=
    { d with
      launches := d.launches.filter (fun l => !(l.2.ctx == ctx && decide (0 < l.2.placed))),
      bards := d.bards.filter (fun b => gone.all (fun l => l.id != b.launch)) }
  let d := d.modPart p (fun _ => { x with queues := x.queues.mapVals (fun _ q => q.filter (fun id => gone.all (fun l => l.id != id))) })
  let d := gone.foldl (fun (d : Dev) l => match l.origin with
    | .ring r seq => d.complete (.part r) seq 5
    | .node die r j => d.nodeFails (.node die r j) 7 (errWord 0x23 0 6)
    | .loaded => d) d
  let d := lost.foldl (fun (d : Dev) o => d.nodeFails o 7 (errWord 0x14 0 6)) d
  let mine (x : Replay) : Bool := x.ctx == ctx && (match x.owner with
    | .warp _ _ => x.slot.isNone
    | .ring _ _ => false)
  { s with dev := { d with replays := d.replays.filter (fun r => !mine r.2) } }

/-- The meaning of DROP (R78, R79). -/
def execDrop (p : Nat) (s : State) : Host.Outcome State Fault Refusal :=
  .next (s.dev.command (.part p) (· == 7) (fun e d =>
    { s with dev := d }.withCtx p e (fun ctx =>
      let slot := e.arg0.toNat % 2
      if (d.ctx ctx).state ≠ CtxState.saved slot then { s with dev := d.complete (.part p) e.seq 3 }
      else
        let t := { s with dev := d }.dropCtx p ctx slot
        { t with dev := t.dev.complete (.part p) e.seq 0 })) (fun d => { s with dev := d }))

/-- The OPCs of a ring that the spec assigns to commands (R78, R390). -/
def opcAssigned : RingId → Nat → Bool
  | .admin, n => decide (0x10 ≤ n) && decide (n ≤ 0x13)
  | .part _, n => decide (1 ≤ n) && decide (n ≤ 7)

/-- The meaning of UNASSIGNED_OPC (R78, R390): the entry completes at once with STATUS 2. -/
def execUnassignedOpc (r : RingId) (s : State) : Host.Outcome State Fault Refusal :=
  .next (s.dev.command r (fun n => !opcAssigned r n) (fun e d => { s with dev := d.complete r e.seq 2 }) (fun d => { s with dev := d }))

/-! ## The administrative commands -/

/-- The instance of a domain that holds a logical column: its first column, and its columns (R390). -/
def instanceOf (dom c : Nat) : Nat × List Nat :=
  let n := domSize dom
  (c / n * n, (List.range n).map (fun i => c / n * n + i))

/-- The STATUS of a PCREATE (R390). -/
def Dev.pcreateStatus (d : Dev) (e : CmdEntry) : Nat :=
  let a := e.arg0.toNat
  let dom := bitsOf a 11 8
  let cs := (instanceOf dom (bitsOf a 25 16)).2
  if dom < 5 ∨ 9 < dom ∨ e.arg0 &&& ~~~(0x3FF0FFF#64) ≠ 0 ∨ e.arg1 ≠ 0 then 2
  else if d.parts.has (bitsOf a 7 0) || d.parts.any (fun x => x.2.columns.any (fun c => cs.contains c)) ||
      cs.any (fun c => d.absent.contains c || !d.ready.contains (.cols (dieOf c)) || !d.ready.contains (.stage c)) then 4
  else 0

/-- A partition as it is created (R75): under P3 it is held at once (R392). -/
def Dev.createPart (d : Dev) (p dom first : Nat) : Dev :=
  let hot := d.power == .p3
  let x : Partition :=
    { dom := dom, first := first, held := false, holdWanted := false, lost := false, preempt := none, queues := [], rseq := 0 }
  let d : Dev := { d with parts := d.parts.set p x }
  if hot then (d.wantHold p).modPart p (fun x => { x with held := true }) else d

/-- The meaning of PCREATE (R75, R390). -/
def execPcreate (s : State) : Host.Outcome State Fault Refusal :=
  .next (s.dev.command .admin (· == 0x10) (fun e d =>
    let a := e.arg0.toNat
    let st := d.pcreateStatus e
    let dom := bitsOf a 11 8
    let d := if st = 0 then d.createPart (bitsOf a 7 0) dom (instanceOf dom (bitsOf a 25 16)).1 else d
    { s with dev := d.complete .admin e.seq st }) (fun d => { s with dev := d }))

/-- The meaning of PREMOVE (R75, R390). -/
def execPremove (s : State) : Host.Outcome State Fault Refusal :=
  .next (s.dev.command .admin (· == 0x11) (fun e d =>
    let p := e.arg0.toNat % 256
    if !d.parts.has p || !(d.ctxsOf p).isEmpty then { s with dev := d.complete .admin e.seq 3 }
    else
      let d := d.unhold p
      { s with dev := Dev.complete { d with parts := d.parts.del p } .admin e.seq 0 }) (fun d => { s with dev := d }))

/-- The meaning of GRANT (R390). -/
def execGrant (s : State) : Host.Outcome State Fault Refusal :=
  .next (s.dev.command .admin (· == 0x12) (fun e d =>
    let p := bitsOf e.arg0.toNat 15 8
    let ctx := e.ctx.toNat
    if !d.parts.has p || !d.ctxIn ctx p then { s with dev := d.complete .admin e.seq 3 }
    else
      let d := d.modCtx ctx (fun x => { x with fixRight := e.arg0.getLsbD 0 })
      { s with dev := d.complete .admin e.seq 0 }) (fun d => { s with dev := d }))

/-! ## ATTEST -/

/-- The signed bytes of a report (R396). -/
def Dev.report_ (d : Dev) (nonce : List Byte) : List Byte :=
  nonce ++ identityBlock.take 8 ++ shake256 d.flashFw 32 ++ shake256 d.flashCfg 32 ++ d.readyMap ++ bytesOf 8 d.capColsReg.toNat ++
    bytesOf 8 d.now

/-- The meaning of ATTEST (R396): the report is written to the host, and the command completes; an address that cannot be reached gives
STATUS 8. -/
def execAttest (s : State) : Host.Outcome State Fault Refusal :=
  .next (s.dev.command .admin (· == 0x13) (fun e d =>
    match { s with dev := d }.fabricRead e.arg0.toNat 32 with
    | (none, d) => { s with dev := d.complete .admin e.seq 8 }
    | (some nonce, d) =>
      let (ok, d) := d.choose
      let body := d.report_ nonce
      let bs := body ++ (List.range 3309).map (Config.signatureByte keySeed body) ++ Config.certificate
      if ok && d.linked then { s with dev := (d.send (.hostWrite e.arg1.toNat bs) 1).complete .admin e.seq 0 }
      else { s with dev := d.complete .admin e.seq 8 }) (fun d => { s with dev := d }))

end Sys2Proof.Machine
end

