-- ==== Sys2Proof/Machine/Control.lean ====
section
/-! DEFINITION. The control instructions (R155-R165): branches with the reconvergence stack, calls, loops, the end and the creation of
warps, and the traps that a program asks for. -/

namespace Sys2Proof.Machine

/-- The slot at a displacement from the instruction (R113, R155). -/
def Dev.at_ (d : Dev) {n : Nat} (disp : BitVec n) : BitVec 48 := d.cur.pc + disp.signExtend 48

/-- NOP: nothing but the PC (R126). -/
def nopIssue (s : State) : Issue := .retire s.dev.advance

/-- The meaning of NOP. -/
def execNop (_ : CFields) (s : State) : Host.Outcome State Fault Refusal := s.conclude (nopIssue s)

/-- The entries that a divergent BRA pushes, top first (R157). -/
def braPush (pc j : BitVec 48) (e t : Mask) : List StackEntry :=
  (if pc + 1 = j then [] else [{ slot := pc + 1, mask := e &&& ~~~t }]) ++ [{ slot := j, mask := e }]

/-- BRA after both targets were checked (R157). -/
def braGo (d : Dev) (e t : Mask) (tgt j : BitVec 48) : Issue :=
  let w := d.curWarp
  let pushed := braPush d.cur.pc j e t
  if t = e then .retire (d.jump tgt)
  else if t = 0 then .retire d.advance
  else if 32 < w.rstack.length + pushed.length then .trap { cause := 0x16 }
  else .retire (d.modCurWarp (fun w => { w with rstack := pushed ++ w.rstack, enabled := t, pc := tgt }))

/-- BRA (R157). Its targets are checked before its stack (log 124). -/
def braIssue (f : CFields) (s : State) : Issue :=
  let w := s.dev.curWarp
  let tgt := s.dev.at_ f.tgt
  let j := s.dev.at_ f.rcv
  s.transfer tgt (fun d => { s with dev := d }.transfer j (fun d => braGo d w.e (w.act f.h) tgt j))

/-- The meaning of BRA. -/
def execBra (f : CFields) (s : State) : Host.Outcome State Fault Refusal := s.conclude (braIssue f s)

/-- BRX (R159). -/
def brxIssue (f : CFields) (s : State) : Issue :=
  let d := s.dev
  let r := f.ur.toNat
  d.whole f.h (fun _ => d.withUni (r + 1) [d.uniUse 4 r 0 0, d.uniUse 4 (r + 1) 0 0] [] (fun _ =>
    let pc := (d.uniVal (r + 1)).extractLsb' 0 16 ++ d.uniVal r
    s.transfer pc (fun d => .retire (d.jump pc))))

/-- The meaning of BRX. -/
def execBrx (f : CFields) (s : State) : Host.Outcome State Fault Refusal := s.conclude (brxIssue f s)

/-- A CALL's push (R160): with sixteen entries in the warp the lowest goes to the window by two stores. -/
def State.pushRet (s : State) (ret tgt : BitVec 48) : Dev :=
  let d := s.dev
  let w := d.curWarp
  let n := w.retDepth
  let d :=
    if n < 16 then d
    else
      let j := n - 16
      let wd := d.pwin / 4
      let e := w.retTop.getLastD 0
      s.windowStores 0 d.cur.priv [(wd - 30 + 2 * j, e.setWidth 32), (wd - 29 + 2 * j, (e.extractLsb' 32 16).setWidth 32)]
  d.modCurWarp (fun w => { w with
    retTop := ret :: (if n < 16 then w.retTop else w.retTop.dropLast), retDepth := n + 1, pc := tgt })

/-- CALL (R160). Its target is checked before its stack: R408 lists the stack trap and does not list 0x06, the branch-target trap
(DESIGN CHOICE, log 124; so for BRA's targets). -/
def callIssue (f : CFields) (s : State) : Issue :=
  let d := s.dev
  let w := d.curWarp
  let tgt := d.at_ f.tgt
  d.whole f.h (fun _ => s.transfer tgt (fun d =>
    if w.retDepth = 31 ∨ (16 ≤ w.retDepth ∧ d.pwin < 120) then .trap { cause := 0x16, einfo := 1 }
    else if !w.retLoads.isEmpty then .hold d
    else if 16 ≤ w.retDepth ∧ (d.curCol.logFree < 2 ∨ 61 < w.stores) then .hold d
    else .retire ({ s with dev := d }.pushRet (d.cur.pc + 1) tgt)))

/-- The meaning of CALL. -/
def execCall (f : CFields) (s : State) : Host.Outcome State Fault Refusal := s.conclude (callIssue f s)

/-- The load of one word of a return-stack entry from lane 0 of the window (R160). -/
def retLoad (d : Dev) (word : Nat) (high : Bool) : MemOp :=
  d.newOp (.ret high) Fmt.ui32 2 [{ laneWant 0 d.cur.col (winWord d.pwin d.cur.slot word 0) 4 0 with dst := [0] }]

/-- A RET's pop, and the loads that refill the warp's part (R160). -/
def State.popRet (s : State) : Issue :=
  let d := s.dev
  let w := d.curWarp
  let n := w.retDepth
  let pop (d : Dev) (loads : List (Option Word)) : Issue :=
    .retire (d.modCurWarp (fun w => { w with
      retTop := w.retTop.drop 1, retDepth := n - 1, retLoads := loads, pc := w.retTop.headD 0 }))
  if n ≤ 16 then pop d []
  else if 61 < w.loads then .hold d
  else
    let j := n - 17
    let wd := d.pwin / 4
    let (d, ok) := s.startLoad (retLoad d (wd - 30 + 2 * j) false) .load false d.cur.priv
    if !ok then .hold d
    else
      let (d2, ok) := { s with dev := d }.startLoad (retLoad d (wd - 29 + 2 * j) true) .load false d.cur.priv
      if ok then pop d2 [none, none]
      else .hold (s.startLoad (retLoad s.dev (wd - 29 + 2 * j) true) .load false d.cur.priv).1

/-- RET (R160). -/
def retIssue (f : CFields) (s : State) : Issue :=
  let d := s.dev
  d.whole f.h (fun _ =>
    if d.curWarp.retDepth = 0 then .trap { cause := 0x16, einfo := 3 }
    else if !d.curWarp.retLoads.isEmpty then .hold d
    else s.popRet)

/-- The meaning of RET. -/
def execRet (f : CFields) (s : State) : Host.Outcome State Fault Refusal := s.conclude (retIssue f s)

/-- LOOP (R161). Its counter is checked, poison last, before its target is (DESIGN CHOICE, log 124). -/
def loopIssue (f : CFields) (s : State) : Issue :=
  let d := s.dev
  let r := f.ur.toNat
  let tgt := d.at_ f.tgt
  d.whole f.h (fun _ => d.withUni r [d.uniUse 4 r 0 0] [] (fun _ =>
    s.transfer tgt (fun d =>
      let c := d.uniVal r - 1
      let d := d.writeReg r Mask.all (Result.uni c false (d.seen.reg r).fmt)
      .retire (if c = 0 then d.advance else d.jump tgt))))

/-- The meaning of LOOP. -/
def execLoop (f : CFields) (s : State) : Host.Outcome State Fault Refusal := s.conclude (loopIssue f s)

/-- The pops of JOIN: entries whose lanes have all retired are dropped (R158). -/
def joinPop (retired : Mask) : List StackEntry → Option (BitVec 48 × Mask × List StackEntry)
  | [] => none
  | x :: xs => if x.mask &&& ~~~retired = 0 then joinPop retired xs else some (x.slot, x.mask &&& ~~~retired, xs)

/-- JOIN at slot pc (R158). -/
def Warp.join (w : Warp) (pc : BitVec 48) : Warp :=
  match joinPop w.retired w.rstack with
  | none => { w.flag 8 with rstack := [], pc := pc + 1 }
  | some (t, m, rest) => { w with rstack := rest, enabled := m, pc := if t = pc then pc + 1 else t }

/-- JOIN (R158). -/
def joinIssue (s : State) : Issue := .retire (s.dev.modCurWarp (fun w => w.join s.dev.cur.pc))

/-- The meaning of JOIN. -/
def execJoin (_ : CFields) (s : State) : Host.Outcome State Fault Refusal := s.conclude (joinIssue s)

/-- The issuing warp ends, unless it must wait (R70). -/
def Dev.tail (d : Dev) : Issue :=
  if d.curCol.endHeld d.now d.cur.slot then .hold d
  else .retire (d.modCurCol (fun k => k.endWarp d.now d.cur.slot))

/-- EXIT (R71). -/
def exitIssue (f : CFields) (s : State) : Issue :=
  let d := s.dev
  let w := d.curWarp
  let m := w.act f.h
  if m = 0 then .retire d.advance
  else if w.retired ||| m = Mask.all then d.tail
  else .retire (d.modCurWarp (fun w => { w with retired := w.retired ||| m })).advance

/-- The meaning of EXIT. -/
def execExit (f : CFields) (s : State) : Host.Outcome State Fault Refusal := s.conclude (exitIssue f s)

/-- TAIL (R70). -/
def tailIssue (f : CFields) (s : State) : Issue := s.dev.whole f.h (fun _ => s.dev.tail)

/-- The meaning of TAIL. -/
def execTail (f : CFields) (s : State) : Host.Outcome State Fault Refusal := s.conclude (tailIssue f s)

/-- The free slots of the SPAWN reserve (R69, R83). -/
def Column.spawnSlots (k : Column) : List Nat :=
  ((List.range k.regions.spawnw).map (fun i => k.regions.n * k.regions.w + i)).filter (fun s => !k.warps.has s)

/-- The new warp of a SPAWN: the parent's copy of eight registers over a warp's start state (R69). -/
def spawnWarp (d : Dev) (slot va : Nat) (pc : BitVec 48) (j : Nat) : Warp :=
  let p := d.seen
  let w := newWarp d.curRec d.cur.col slot j d.now p.ctx p.launch p.gang p.group p.coords pc p.prio true d.cur.priv
  { w with regs := (List.range 8).foldl (fun t i => Table.set t i (p.reg (va + i))) w.regs }

/-- SPAWN's effect: a warp in a free reserve slot and pd true, or pd false (R69). -/
def Dev.spawn (d : Dev) (va pd : Nat) (pc : BitVec 48) : Dev :=
  match d.pick d.curCol.spawnSlots with
  | some (slot, d) =>
    if va + 7 < d.curCol.regions.regs then
      let d2 := d.startWarp d.cur.col slot d.curWarp.launch (spawnWarp d slot va pc)
      (d2.modCurWarp (fun w => w.setPred pd Mask.all Mask.all)).advance
    else (d.modCurWarp (fun w => w.setPred pd Mask.all 0)).advance
  | none => (d.modCurWarp (fun w => w.setPred pd Mask.all 0)).advance

/-- SPAWN (R69, R164): it waits for the registers that it copies (R235). -/
def spawnIssue (f : CFields) (s : State) : Issue :=
  let d := s.dev
  let pc := d.at_ f.tgt
  let rs := (List.range 8).map (fun i => f.ur.toNat + i)
  d.whole f.h (fun _ =>
    if d.curCol.busy d.cur.slot rs then .hold (d.holdRegs rs)
    else s.transfer pc (fun d => .retire (d.spawn f.ur.toNat (f.sub.toNat % 8) pc)))

/-- The meaning of SPAWN. -/
def execSpawn (f : CFields) (s : State) : Host.Outcome State Fault Refusal := s.conclude (spawnIssue f s)

/-- YIELD (R163): the warp becomes a ready pending one, or, where no ready pending warp exists, is ranked last once. -/
def yieldIssue (f : CFields) (s : State) : Issue :=
  let d := s.dev
  d.whole f.h (fun _ =>
    if d.pendingReady d.cur.col d.cur.slot then
      .retire (d.modCurWarp (fun w => { w with active := false, entered := d.now })).advance
    else .retire (d.modCurWarp (fun w => { w with yld := true })).advance)

/-- The meaning of YIELD. -/
def execYield (f : CFields) (s : State) : Host.Outcome State Fault Refusal := s.conclude (yieldIssue f s)

/-- WAIT (R162). -/
def waitIssue (f : CFields) (s : State) : Issue :=
  let d := s.dev
  let w := d.curWarp
  let lim (i : Nat) : Nat := (f.tgt.extractLsb' (6 * i) 6).toNat
  d.whole f.h (fun _ =>
    if w.loads ≤ lim 0 ∧ w.stores ≤ lim 1 ∧ w.copies ≤ lim 2 ∧ w.tiles ≤ lim 3 then .retire d.advance
    else .hold (d.leave (.counters (lim 0) (lim 1) (lim 2) (lim 3))))

/-- The meaning of WAIT. -/
def execWait (f : CFields) (s : State) : Host.Outcome State Fault Refusal := s.conclude (waitIssue f s)

/-- The trap of TRAP, SVC and BRK where their guard selects a lane (R156, R165). -/
def askTrap (d : Dev) (f : CFields) (cause : Nat) (next : Bool) : Issue :=
  let m := d.curWarp.act f.h
  if m = 0 then .retire d.advance
  else .trap { cause := cause, einfo := f.sub.setWidth 64, emask := m, next := next }

/-- The meaning of TRAP. -/
def execTrap (f : CFields) (s : State) : Host.Outcome State Fault Refusal := s.conclude (askTrap s.dev f 0x20 true)

/-- The meaning of SVC. -/
def execSvc (f : CFields) (s : State) : Host.Outcome State Fault Refusal := s.conclude (askTrap s.dev f 0x21 true)

/-- BRK (R165, R406): it stops the warp for an attached debugger, else it traps. -/
def brkIssue (f : CFields) (s : State) : Issue :=
  let d := s.dev
  if d.debugger && d.curWarp.act f.h != 0 then
    .retire ((d.modCurWarp (fun w => { w with stopped := true, active := false })).reportStop d.cur.col d.cur.slot)
  else askTrap d f 0x22 false

/-- The meaning of BRK. -/
def execBrk (f : CFields) (s : State) : Host.Outcome State Fault Refusal := s.conclude (brkIssue f s)

end Sys2Proof.Machine
end

