-- ==== Sys2Proof/Machine/Convert.lean ====
section
/-! DEFINITION. The conversions (R180-R185): formats, blocks, group-quantised values, packing and tags, with stochastic rounding (R143). -/

namespace Sys2Proof.Machine

/-- The generator after n steps (R142). -/
def rngAfter (g : Word) : Nat → Word
  | 0 => g
  | n + 1 => rngStep (rngAfter g n)

/-- The draw of element i of a lane's conversion: each element takes one, in ascending order (R143). -/
def drawAt (w : Warp) (l i : Nat) : Nat := rngDraw (rngAfter (lane w.rng l) (i + 1))

/-- The generators of the active lanes after n draws each (R143). -/
def Warp.drawn (w : Warp) (act : Mask) (n : Nat) : Warp :=
  { w with rng := tab (fun l => if Mask.has act l then rngAfter (lane w.rng l) n else lane w.rng l) }

/-- The lane whose draws a single result takes: its own, or, under U, those of a freely chosen active lane (R68, R143; log 12). -/
def VCtx.drawLane (x : VCtx) (u : Bool) (l : Nat) : Nat :=
  if u then
    let ls := Mask.list x.act
    ls.getD ((x.d.draw).1.toNat % max 1 ls.length) 0
  else l

/-- The shape of a conversion: with .sr each lane draws its own value, but for the single result under U (R66, R68). -/
def srShape (sr u : Bool) (r : Result) : Result := if sr && !u then { r with shape := .general } else r

/-- What a conversion leaves beside its registers: the generators, the free choice's number, and NANLOST (R141, R143). -/
def VCtx.converted (x : VCtx) (sr u lost : Bool) (n : Nat) (d : Dev) : Dev :=
  let d := if sr && u then (d.draw).2 else d
  d.modCurWarp (fun w => (if sr then w.drawn x.act n else w).nanLost lost)

/-- One converted element, and whether a NaN was lost (R181, R143). -/
def convOne (s t : BitVec 5) (rm : BitVec 2) (sat : Bool) (draw : Option Nat) (w : Word) (i : Nat) : Nat × Bool :=
  if isIntFmt s && isIntFmt t && !sat then (intCode t (elemInt s w i), false)
  else match draw with
    | none => convertElem t rm sat (elemVal s w i)
    | some r => srElem t sat r (elemVal s w i)

/-- A converted lane (R180): from `a` under s into TY, other elements kept from `old` where n(s) < n(TY), with zero between FP6
elements (R133). -/
def cvtLane (s t : BitVec 5) (rm : BitVec 2) (sat : Bool) (pos : Nat) (draw : Nat → Option Nat) (a old : Word) : Word × Bool :=
  let ns := elems s
  let nt := elems t
  if nt ≤ ns then
    (List.range nt).foldl (fun (p : Word × Bool) i =>
      let c := convOne s t rm sat (draw i) a (pos * nt + i)
      (insCode t p.1 i c.1, p.2 || c.2)) (0, false)
  else
    (List.range ns).foldl (fun (p : Word × Bool) i =>
      let c := convOne s t rm sat (draw i) a i
      (insCode t p.1 (pos * ns + i) c.1, p.2 || c.2)) (padded t old, false)

/-- CVT (R180, R181). -/
def cvtIssue (f : VFields) (s : State) : Issue :=
  let x := vIn f s 1
  let t := f.h.ty
  let sf : BitVec 5 := f.bc.extractLsb' 16 5
  let sr := f.subBit 0
  let keep := decide (elems sf < elems t)
  let a := x.src 1 f.a
  let old := x.old f.d
  let draw (l i : Nat) : Option Nat := if sr then some (drawAt x.w (x.drawLane f.h.u l) i) else none
  let val (l : Nat) := cvtLane sf t f.h.rm f.h.s (f.subBits 3 1) (draw l) (lane a.vals l) (lane old.vals l)
  let srcs := if keep then [a, old] else [a]
  let us := Use.of a sf :: (if keep then [Use.of old t] else [])
  let lost := (Mask.list x.act).any (fun l => (val l).2)
  x.finish f us none [] (srShape sr f.h.u (laneResult .plain srcs t (fun l => (val l).1)))
    (x.converted sr f.h.u lost (min (elems sf) (elems t)))

/-- The meaning of CVT. -/
def execCvt (f : VFields) (s : State) : Host.Outcome State Fault Refusal := s.conclude (cvtIssue f s)

/-! ## Blocks -/

/-- The element registers of a block (R136). -/
def blockRegs (t : BitVec 5) : Nat := 24 / elems t

/-- The wide registers of a block: 24 of F32, or 12 of BF16X2 (R182). -/
def wideRegs (bf : Bool) : Nat := if bf then 12 else 24

/-- The wide format (R182). -/
def wideFmt (bf : Bool) : BitVec 5 := if bf then Fmt.bf16x2 else Fmt.f32

/-- Value m of lane l among registers of a format (R182). -/
def rangeVal (t : BitVec 5) (rs : List Src) (l m : Nat) : FVal :=
  match rs[m / elems t]? with
  | some r => elemVal t (lane r.vals l) (m % elems t)
  | none => .fin false 0 1

/-- The write of CVTB's companion register, direct or indirect (R182, R230). -/
def VCtx.writeB (x : VCtx) (d : Dev) (o : Operand) (r : Result) : Dev :=
  if o.ind then d.modCurCol (fun k => k.writeLanes d.cur.slot (tab (regAt x.w x.act x.pre o)) x.act r)
  else d.writeReg o.reg.toNat x.act r

/-- CVTB .enc (R182, R137): its kept bytes are those that each lane's own companion register holds. -/
def encIssue (f : VFields) (s : State) : Issue :=
  let x : VCtx := vctx s.dev f.h [f.b]
  let t := f.h.ty
  let bf := f.subBit 4
  let sr := f.subBit 1
  let va := f.a.reg.toNat
  let k := blockRegs t
  let ins := (List.range (wideRegs bf)).map (fun i => x.reg 1 (va + i) f.a)
  let old := { x.oldOf f.b with code := 2 }
  let vals (l : Nat) := (List.range 24).map (rangeVal (wideFmt bf) ins l)
  let sc (l : Nat) := blockScale t (vals l)
  let draw (l i : Nat) : Option Nat := if sr then some (drawAt x.w (x.drawLane f.h.u l) i) else none
  let code (l i : Nat) := blockElem t f.h.rm (draw l i) (sc l) ((vals l).getD i (.fin false 0 1))
  let elemsOf (r : Nat) : Result := srShape sr f.h.u { laneResult .plain ins t (fun l =>
    (List.range (elems t)).foldl (fun w e => insCode t w e (code l (r * elems t + e))) 0) with
      shape := resultShape .plain (old :: ins) true }
  let scale : Result := laneResult .plain (old :: ins) Fmt.e8m0x4 (fun l =>
    setByte (lane old.vals l) (f.subBits 3 2) (BitVec.ofNat 8 (sc l)))
  let us := ins.map (fun i => Use.of i (wideFmt bf)) ++ [Use.of old Fmt.e8m0x4]
  let rs := (List.range k).map elemsOf
  if x.notReady us then .hold (x.d.holdRegs (x.waits us))
  else match x.checks f.h.u [boundCheck x.regs (dstReg f.d + k - 1), boundCheck x.regs (va + wideRegs bf - 1), old.boundCheck x.regs]
      none us none [] with
    | some t => .trap t
    | none =>
      if f.b.ind && x.windowsFull then .hold x.d
      else
        let d := x.converted sr f.h.u false 24 x.d
        -- a companion register among the element registers gets one of the two results (log 13)
        let inside := (Mask.list x.act).any (fun l => decide (dstReg f.d ≤ lane old.regs l) && decide (lane old.regs l < dstReg f.d + k))
        let (b, d) := if inside then d.choose else (true, d)
        let d := if b then x.writeB (d.writeRegs (dstReg f.d) x.act rs) f.b scale
          else (x.writeB d f.b scale).writeRegs (dstReg f.d) x.act rs
        .retire ((x.step d).hint f.hint).advance

/-- CVTB .dec (R182, R135). -/
def decIssue (f : VFields) (s : State) : Issue :=
  let x : VCtx := vctx s.dev f.h [f.b]
  let t := f.h.ty
  let bf := f.subBit 4
  let va := f.a.reg.toNat
  let k := blockRegs t
  let wt := wideFmt bf
  let ins := (List.range k).map (fun i => x.reg 1 (va + i) f.a)
  let vc := x.src 2 f.b
  let sc (l : Nat) := e8m0Value ((lane vc.vals l).toNat / 2 ^ (8 * f.subBits 3 2) % 256)
  let val (l m : Nat) := FVal.mul (sc l) (rangeVal t ins l m)
  let res (r : Nat) : Result :=
    let from_ := (ins[r * elems wt / elems t]?).toList
    { laneResult .plain (vc :: from_) wt (fun l =>
        (List.range (elems wt)).foldl (fun w e => insCode wt w e ((floatFmt wt).round f.h.rm f.h.s (val l (r * elems wt + e)))) 0) with
      shape := resultShape .plain (vc :: ins) true }
  let us := ins.map (fun i => Use.of i t) ++ [Use.of vc Fmt.e8m0x4]
  x.finishRange f [boundCheck x.regs (dstReg f.d + wideRegs bf - 1), boundCheck x.regs (va + k - 1), vc.boundCheck x.regs] us []
    ((List.range (wideRegs bf)).map res) noPost

/-- The meaning of CVTB. -/
def execCvtb (f : VFields) (s : State) : Host.Outcome State Fault Refusal :=
  s.conclude (if f.subBit 0 then decIssue f s else encIssue f s)

/-! ## Group-quantised values -/

/-- The scale and the zero point of a control register (R183). -/
def groupScale (b : Word) : FVal := FloatFmt.fp16.value (b.toNat % 2 ^ 16)
/-- The zero point z (R183). -/
def groupZero (b : Word) : Int := signedOf 8 (b.toNat / 2 ^ 16)

/-- QNT's element, and whether a NaN was lost (R183): an infinite quotient is clamped as R140 says. -/
def qntElem (t : BitVec 5) (rm : BitVec 2) (draw : Option Nat) (x : FVal) (b : Word) : Nat × Bool :=
  match FVal.div x (groupScale b) with
  | .nan => (0, true)
  | .inf s => (intCode t (if s then intMin t else intMax t), false)
  | .fin s n d =>
    let k : Int := match draw with
      | none => roundInt rm (.fin s n d)
      | some r =>
        let m : Mag := { n := n, d := d, root := false }
        let i : Int := (m.floorAt 0).1 + (if srAway m 0 r then 1 else 0)
        if s then -i else i
    (intCode t (clampInt t (k + groupZero b)), false)

/-- QNT (R183). -/
def qntIssue (f : VFields) (s : State) : Issue :=
  let x := vIn f s 2
  let t := f.h.ty
  let sr := f.subBit 0
  let a := x.src 1 f.a
  let b := x.src 2 f.b
  let old := x.old f.d
  let draw (l : Nat) : Option Nat := if sr then some (drawAt x.w (x.drawLane f.h.u l) 0) else none
  let val (l : Nat) := qntElem t f.h.rm (draw l) (elemVal Fmt.f32 (lane a.vals l) 0) (lane b.vals l)
  let lost := (Mask.list x.act).any (fun l => (val l).2)
  x.finish f [Use.of a Fmt.f32, Use.of b Fmt.ui32, Use.of old t] none []
    (srShape sr f.h.u (laneResult .plain [a, b, old] t (fun l => insCode t (lane old.vals l) (f.subBits 3 1) (val l).1)))
    (x.converted sr f.h.u lost 1)

/-- The meaning of QNT. -/
def execQnt (f : VFields) (s : State) : Host.Outcome State Fault Refusal := s.conclude (qntIssue f s)

/-- DQNT (R183). -/
def dqntIssue (f : VFields) (s : State) : Issue :=
  let x := vIn f s 2
  let t := if f.subBit 4 then Fmt.i4x8 else Fmt.i8x4
  let a := x.src 1 f.a
  let b := x.src 2 f.b
  let val (l : Nat) : FVal :=
    FVal.mul (groupScale (lane b.vals l)) (FVal.ofInt (elemInt t (lane a.vals l) (f.subBits 3 1) - groupZero (lane b.vals l)))
  x.finish f [Use.of a t, Use.of b Fmt.ui32] none []
    (laneResult .plain [a, b] Fmt.f32 (fun l => BitVec.ofNat 32 (FloatFmt.fp32.round f.h.rm f.h.s (val l)))) noPost

/-- The meaning of DQNT. -/
def execDqnt (f : VFields) (s : State) : Host.Outcome State Fault Refusal := s.conclude (dqntIssue f s)

/-! ## Packing and tags -/

/-- The element codes of a half placed from element `to_` on (R184). -/
def halfInto (t : BitVec 5) (hi : Bool) (to_ : Nat) (w src : Word) : Word :=
  let h := elems t / 2
  (List.range h).foldl (fun y i => insCode t y (to_ + i) (elemCode t src (i + if hi then h else 0))) w

/-- PACK (R184). -/
def packIssue (f : VFields) (s : State) : Issue :=
  let x := vIn f s 2
  let t := f.h.ty
  let a := x.src 1 f.a
  let b := x.src 2 f.b
  x.finish f [Use.of a t, Use.of b t] none []
    (laneResult .plain [a, b] t (fun l =>
      halfInto t (f.subBit 0) (elems t / 2) (halfInto t (f.subBit 0) 0 0 (lane a.vals l)) (lane b.vals l))) noPost

/-- The meaning of PACK. -/
def execPack (f : VFields) (s : State) : Host.Outcome State Fault Refusal := s.conclude (packIssue f s)

/-- UNPK (R184). -/
def unpkIssue (f : VFields) (s : State) : Issue :=
  let x := vIn f s 1
  let t := f.h.ty
  let a := x.src 1 f.a
  x.finish f [Use.of a t] none [] (laneResult .plain [a] t (fun l => halfInto t (f.subBit 0) 0 0 (lane a.vals l))) noPost

/-- The meaning of UNPK. -/
def execUnpk (f : VFields) (s : State) : Host.Outcome State Fault Refusal := s.conclude (unpkIssue f s)

/-- RETAG (R185): an affine source stays affine under I32, UI32 and RAW. -/
def retagIssue (f : VFields) (s : State) : Issue :=
  let x := vIn f s 1
  let t := f.h.ty
  let a := x.src 1 f.a
  x.finish f [Use.any a] none []
    (laneResult .copy [a] t (fun l => padded t (lane a.vals l))) noPost

/-- The meaning of RETAG. -/
def execRetag (f : VFields) (s : State) : Host.Outcome State Fault Refusal := s.conclude (retagIssue f s)

end Sys2Proof.Machine
end

