-- ==== Sys2Proof/Machine/CrossLane.lean ====
section
/-! DEFINITION. The cross-lane instructions (R187-R201): tiles, shuffles and pushes, butterflies, votes, matches, reductions and
scans. -/

namespace Sys2Proof.Machine

/-- The tile width (R187). -/
def Warp.tileW (w : Warp) : Nat := 2 ^ w.wlog.toNat

/-- The first lane of the tile of lane l (R187). -/
def tileBase (wd l : Nat) : Nat := l - l % wd

/-- The active set of the tile of lane l, ascending (R187). -/
def tileSet (wd : Nat) (act : Mask) (l : Nat) : List Nat := (Mask.list act).filter (fun m => m / wd == l / wd)

/-- The tile-relative mask of lanes (R196). -/
def tileMask (wd l : Nat) (ms : List Nat) : Word := ms.foldl (fun x m => x ||| (1#32 <<< (m - tileBase wd l))) 0

/-- The shape of a result that one tile of 32 lanes makes equal in all (R191). -/
def tileShape (w : Warp) : Shape := if w.wlog = 5 then .uniform else .general

/-- An optional predicate written in the active lanes; the poison it drops is recorded (R189, R441). -/
def optPred (x : VCtx) (p : Nat) (bits pois : Mask) (d : Dev) : Dev :=
  if p = 0 then d else (d.predPoison pois).modCurWarp (fun w => w.setPred p x.act bits)

/-- A result written into some of the active lanes; the register becomes general with the result's tag even where none of them is
written (R67, R191). -/
def Dev.writeSome (d : Dev) (r : Nat) (act m : Mask) (x : Result) : Dev :=
  if act = 0 then d
  else if m = 0 then d.modCurWarp (fun w => { w with regs := w.regs.set r ((w.reg r).mixed 0 x) })
  else d.writeReg r m x

/-- The meaning of SETPART (R188). -/
def execSetpart (f : VFields) (s : State) : Host.Outcome State Fault Refusal :=
  s.conclude ((s.dev.whole f.h (fun _ =>
    .retire (s.dev.modCurWarp (fun w => { w with wlog := f.imm.extractLsb' 0 3 })).advance)).hinted f.hint)

/-- LGET's source lane, and whether it lies in the tile (R193). -/
def lgetSrc (mode wd l : Nat) (s : Word) : Nat × Bool :=
  let b := tileBase wd l
  let t := l - b
  let c := s.toNat % 32
  match mode with
  | 0 => (b + c % wd, true)
  | 1 => (b + (t + 32 - c) % wd, true)
  | 2 =>
    let e := signedOf 6 s.toNat
    let u : Int := t - e
    if 0 ≤ u ∧ u < wd then (b + u.toNat, true) else (l, false)
  | _ => (b + (t ^^^ (c % wd)), true)

/-- LGET (R193). Its fill register is read after C's crossbar pattern, as R117 reads every source, although R193 writes vf and not
vf' (DEDUCED, log 126). -/
def lgetIssue (f : VFields) (s : State) : Issue :=
  let x : VCtx := vctx s.dev f.h []
  let mode := f.subBits 1 0
  let wd := x.w.tileW
  let a := x.src 1 f.a
  let b := x.srcB f Fmt.raw
  let fills := mode == 2 && !f.vi
  let v := if fills then x.src 3 f.c else a
  let at_ (l : Nat) := lgetSrc mode wd l (lane b.vals l)
  let pick (l : Nat) : Src := if (at_ l).2 then a else v
  let us := [Use.any a] ++ (if f.vi then [] else [Use.any b]) ++ (if fills then [{ Use.any v with eq := some a.tag }] else [])
  let pois := Mask.of (fun l => Mask.has (pick l).pois (at_ l).1 || Mask.has b.pois l)
  x.finish f us none [] (Result.gen (fun l => padded a.tag (lane (pick l).vals (at_ l).1)) pois a.tag)
    (optPred x (f.subBits 6 4) (Mask.of (fun l => (at_ l).2)) (if mode = 2 then b.pois &&& x.act else 0))

/-- The meaning of LGET. -/
def execLget (f : VFields) (s : State) : Host.Outcome State Fault Refusal := s.conclude (lgetIssue f s)

/-- LPUT (R194): the pushes of the active lanes, the highest lane to each destination. -/
def lputIssue (f : VFields) (s : State) : Issue :=
  let x : VCtx := vctx s.dev f.h []
  let wd := x.w.tileW
  let a := x.src 1 f.a
  let b := x.srcB f Fmt.raw
  let dst (l : Nat) : Nat := tileBase wd l + (lane b.vals l).toNat % 32 % wd
  let push (m : Nat) : List Nat := (Mask.list x.act).filter (fun l => dst l == m)
  let top (m : Nat) : Nat := (push m).getLastD 0
  let got := Mask.of (fun m => Mask.has x.act m && !(push m).isEmpty)
  let coll := lanes.any (fun m => decide (2 ≤ (push m).length))
  let r := Result.gen (fun m => padded a.tag (lane a.vals (top m))) (Mask.of (fun m => Mask.has a.pois (top m) || Mask.has b.pois (top m))) a.tag
  let us := [Use.any a] ++ (if f.vi then [] else [Use.any b])
  if x.notReady us then .hold (x.d.holdRegs (x.waits us))
  else match x.checks false (dstBound x.regs f.d :: x.bounds us) none us none [] with
    | some t => .trap t
    | none =>
      let d := optPred x (f.subBits 6 4) got (b.pois &&& x.act) x.d
      let d := if coll then d.modCurWarp (fun w => w.flag 4) else d
      .retire ((d.writeSome (dstReg f.d) x.act got r).hint f.hint).advance

/-- The meaning of LPUT. -/
def execLput (f : VFields) (s : State) : Host.Outcome State Fault Refusal := s.conclude (lputIssue f s)

/-- Which register lane l sends (R195). -/
def bflySends (pred : Option Mask) (wd d l : Nat) : Bool :=
  match pred with
  | some p => Mask.has p l
  | none => (l % wd).testBit (Nat.log2 d)

/-- BFLY (R195). Where d mod w is 0 its register bounds and tags are still checked, before it retires with no effect: R195 does not
say which comes first (DESIGN CHOICE, log 107). -/
def bflyIssue (f : VFields) (s : State) : Issue :=
  let x : VCtx := vctx s.dev f.h []
  let wd := x.w.tileW
  let ra := f.a.reg.toNat
  let rb := f.b.reg.toNat
  let a := x.src 1 f.a
  let b := x.src 2 f.b
  let dist := f.subBits 4 0 % wd
  let pc := if f.subBit 5 then some (x.w.pred (f.c.bits.toNat % 8)) else none
  let c (l : Nat) : Bool := bflySends pc wd dist l
  let q (l : Nat) : Nat := tileBase wd l + ((l % wd) ^^^ dist)
  let sent (l : Nat) : Src := if c l then a else b
  let r := Result.gen (fun l => padded a.tag (lane (sent (q l)).vals (q l))) (Mask.of (fun l => Mask.has (sent (q l)).pois (q l))) a.tag
  let us := [Use.any a, { Use.any b with eq := some a.tag }]
  if x.notReady us then .hold (x.d.holdRegs (x.waits us))
  else match x.checks false (x.bounds us) none us none [] with
    | some t => .trap t
    | none =>
      let ma := Mask.of (fun l => Mask.has x.act l && (ra == rb || c l))
      let d :=
        if dist = 0 then x.d
        else
          let d := x.d.writeSome ra x.act ma r
          if ra = rb then d else d.writeSome rb x.act (x.act &&& ~~~ma) r
      .retire (d.hint f.hint).advance

/-- The meaning of BFLY. -/
def execBfly (f : VFields) (s : State) : Host.Outcome State Fault Refusal := s.conclude (bflyIssue f s)

/-- POLL's predicate in a lane whose tile has the active set `ms` (R196). -/
def pollBit (mode : Nat) (pa : Mask) (ms : List Nat) : Bool :=
  match mode with
  | 0 => ms.all (Mask.has pa)
  | 1 => ms.any (Mask.has pa)
  | 2 => ms.all (Mask.has pa) || !ms.any (Mask.has pa)
  | _ => !ms.any (Mask.has pa)

/-- POLL's value in lane l (R196). -/
def pollWord (mode wd l : Nat) (pa : Mask) (ms : List Nat) : Word :=
  let on := ms.filter (Mask.has pa)
  match mode with
  | 4 => tileMask wd l on
  | 5 => BitVec.ofNat 32 on.length
  | _ => BitVec.ofNat 32 (on.filter (fun m => decide (m < l))).length

/-- POLL (R196). -/
def pollIssue (f : VFields) (s : State) : Issue :=
  let x : VCtx := vctx s.dev f.h []
  let wd := x.w.tileW
  let mode := f.subBits 2 0
  let pa := x.w.pred (f.a.bits.toNat % 8)
  let ms (l : Nat) := tileSet wd x.act l
  if mode < 4 then x.finishPred f [] none (Mask.of (fun l => pollBit mode pa (ms l)))
  else
    let r : Result := {
      vals := tab (fun l => pollWord mode wd l pa (ms l)), pois := 0, fmt := Fmt.ui32,
      shape := if mode = 6 then .general else tileShape x.w }
    x.finish f [] none [] r noPost

/-- The meaning of POLL. -/
def execPoll (f : VFields) (s : State) : Host.Outcome State Fault Refusal := s.conclude (pollIssue f s)

/-- MATCH's value in lane l (R198). -/
def matchWord (mode wd l : Nat) (v : Nat → Word) (ms : List Nat) : Word :=
  let same := ms.filter (fun m => v m == v l)
  match mode with
  | 0 => tileMask wd l same
  | 1 => BitVec.ofNat 32 (same.headD 0 - tileBase wd l)
  | 2 => BitVec.ofNat 32 ((ms.map v).eraseDups).length
  | _ => if ms.all (fun m => v m == v l) then tileMask wd l ms else 0

/-- MATCH (R198). -/
def matchIssue (f : VFields) (s : State) : Issue :=
  let x : VCtx := vctx s.dev f.h []
  let wd := x.w.tileW
  let mode := f.subBits 1 0
  let a := x.src 1 f.a
  let v (l : Nat) := lane a.vals l
  let ms (l : Nat) := tileSet wd x.act l
  let pois := Mask.of (fun l => (ms l).any (Mask.has a.pois))
  let r : Result := {
    vals := tab (fun l => matchWord mode wd l v (ms l)), pois := pois, fmt := Fmt.ui32,
    shape := if mode = 2 then tileShape x.w else .general }
  x.finish f [Use.any a] none [] r
    (if mode = 3 then optPred x (f.subBits 4 2) (Mask.of (fun l => (ms l).all (fun m => v m == v l))) (pois &&& x.act) else noPost)

/-- The meaning of MATCH. -/
def execMatch (f : VFields) (s : State) : Host.Outcome State Fault Refusal := s.conclude (matchIssue f s)

/-- The identity of a combine (R199). -/
def combineId (op : Nat) (ty : BitVec 5) : Word :=
  match op with
  | 0 => if ty = Fmt.f32 then 0x80000000 else 0
  | 1 => if ty = Fmt.f32 then 0x7F800000 else if ty = Fmt.i32 then 0x7FFFFFFF else 0xFFFFFFFF
  | 2 => if ty = Fmt.f32 then 0xFF800000 else if ty = Fmt.i32 then 0x80000000 else 0
  | 3 => 0xFFFFFFFF
  | _ => 0

/-- The combine of two terms for the operations other than add (R199). -/
def combineTwo (op : Nat) (ty : BitVec 5) (a b : Word) : Word :=
  match op with
  | 1 | 2 =>
    if ty = Fmt.f32 then BitVec.ofNat 32 (minMaxCode ty (op == 2) false a.toNat b.toNat)
    else
      let lt := decide (elemInt ty a 0 < elemInt ty b 0)
      if lt == (op == 1) then a else b
  | 3 => a &&& b
  | 4 => a ||| b
  | _ => a ^^^ b

/-- A combined F32 NaN is canonical (R199). -/
def canonF32 (ty : BitVec 5) (w : Word) : Word :=
  if ty = Fmt.f32 && (FloatFmt.fp32.value w.toNat).isNan then BitVec.ofNat 32 FloatFmt.fp32.nanCode else w

/-- The combine of terms in ascending lane order (R199). The identity stands for no terms only: an F32 minimum or maximum whose terms
are all NaN is the canonical NaN and not the infinity that the identity would leave (DEDUCED, log 128). -/
def combine (op : Nat) (ty : BitVec 5) (sat : Bool) (xs : List Word) : Word :=
  match op, xs with
  | _, [] => combineId op ty
  | 0, _ =>
    if ty = Fmt.f32 then BitVec.ofNat 32 (fixedSum (.fin true 0 1) (xs.map (fun x => FloatFmt.fp32.value x.toNat)))
    else intLane ty sat (fun _ => (xs.map (fun x => elemInt ty x 0)).sum)
  | _, x :: rest => canonF32 ty (rest.foldl (combineTwo op ty) x)

/-- REDC (R200). -/
def redcIssue (f : VFields) (s : State) : Issue :=
  let x : VCtx := vctx s.dev f.h []
  let wd := x.w.tileW
  let t := f.h.ty
  let a := x.src 1 f.a
  let ms (l : Nat) := tileSet wd x.act l
  let r : Result := {
    vals := tab (fun l => combine (f.subBits 2 0) t f.h.s ((ms l).map (lane a.vals))),
    pois := Mask.of (fun l => (ms l).any (Mask.has a.pois)), fmt := t, shape := tileShape x.w }
  x.finish f [logicUse t a] none [] r noPost

/-- The meaning of REDC. -/
def execRedc (f : VFields) (s : State) : Host.Outcome State Fault Refusal := s.conclude (redcIssue f s)

/-- The lanes that SCAN combines at lane l: the active lanes from the last restart on, with or without itself (R201). -/
def scanTerms (ps : Mask) (excl : Bool) (ms : List Nat) (l : Nat) : List Nat :=
  let upTo := ms.filter (fun m => decide (m ≤ l))
  let start := ((upTo.filter (Mask.has ps)).getLast?).getD 0
  upTo.filter (fun m => decide (start ≤ m) && (!excl || m != l))

/-- SCAN (R201). -/
def scanIssue (f : VFields) (s : State) : Issue :=
  let x : VCtx := vctx s.dev f.h []
  let wd := x.w.tileW
  let t := f.h.ty
  let a := x.src 1 f.a
  let ps : Mask := if f.subBits 6 4 = 0 then 0 else x.w.pred (f.subBits 6 4)
  let terms (l : Nat) := scanTerms ps (f.subBit 3) (tileSet wd x.act l) l
  x.finish f [logicUse t a] none []
    (Result.gen (fun l => combine (f.subBits 2 0) t f.h.s ((terms l).map (lane a.vals)))
      (Mask.of (fun l => (terms l).any (Mask.has a.pois))) t) noPost

/-- The meaning of SCAN. -/
def execScan (f : VFields) (s : State) : Host.Outcome State Fault Refusal := s.conclude (scanIssue f s)

/-- ELECT (R197). -/
def electIssue (f : VFields) (s : State) : Issue :=
  let x : VCtx := vctx s.dev f.h []
  let wd := x.w.tileW
  let one (l : Nat) : Bool :=
    let ms := tileSet wd x.act l
    (if f.subBit 0 then ms.getLast? else ms.head?) == some l
  x.finishPred f [] none (Mask.of one)

/-- The meaning of ELECT. -/
def execElect (f : VFields) (s : State) : Host.Outcome State Fault Refusal := s.conclude (electIssue f s)

end Sys2Proof.Machine
end

