-- ==== Sys2Proof/Machine/Faults.lean ====
section
/-! DEFINITION. Translation faults on their way to the stage manager and back (R38, R426-R433), the migration of a page (R434, R435),
deferred traps (R400), and the arrival of a fetched line (R101). -/

namespace Sys2Proof.Machine

/-! ## Walks and lines -/

/-- The meaning of TABLE_WALK_COMPLETE (R38, R39, R426): the translation enters the column's cache, or the fault its filter. An open
filter entry of the granule answers for the walk (R425). -/
def execTableWalkComplete (col ctx off : Nat) (write priv : Bool) (s : State) : Host.Outcome State Fault Refusal :=
  let o := off % 2 ^ 44
  if !s.dev.inPart ctx col then .next s
  else
    match s.translate col ctx o write priv with
    | (.ok _, d) => .next { s with dev := d }
    | (.error f, d) => .next { s with dev := d.report col ctx (granOf o) f (if write then .store else .load) }

/-- The meaning of FETCH_LINE_ARRIVAL (R96, R101): the line of a warp's PC enters the column's buffer; a fault holds the warp. -/
def execFetchLineArrival (col slot : Nat) (s : State) : Host.Outcome State Fault Refusal :=
  let w := s.dev.warp col slot
  if !(s.dev.col col).warps.has slot || !pcInRange w.pc || (s.dev.col col).halted then .next s
  else
    match s.fetchLine col w.ctx (pcLine w.pc) with
    | (.ok _, d) => .next { s with dev := d }
    | (.error f, d) =>
      let g := granOf (pcLine w.pc)
      let d := d.report col w.ctx g f .fetch
      if w.park != .none || w.stopped then .next { s with dev := d }
      else
        .next { s with dev := d.modWarp col slot (fun w => { w with wait := .translation [g] true 0, active := false, entered := d.now }) }

/-! ## The wing stages -/

/-- The wing of a column (R20). -/
def wingOf (c : Nat) : Nat := c / 64

/-- The lead wing stage of a partition (R427). -/
def Dev.leadWing (d : Dev) (p : Nat) : Nat := wingOf (d.part p).first

/-- Entry e of a wing stage is that of a granule and kind of a context (R427). -/
def WingEntry.isFor (e : WingEntry) (p ctx gran kind : Nat) : Bool := e.part == p && e.ctx == ctx && e.gran == gran && e.kind == kind

/-- A fault reaches a wing stage (R427): it joins the entry of its granule and kind, or opens one, if one of the 64 is free. -/
def Dev.stageTakes (d : Dev) (wing : Nat) (e : WingEntry) : Option Dev :=
  let same (w : Nat × WingEntry) : Bool := w.1 == wing && w.2.isFor e.part e.ctx e.gran e.kind
  if d.wings.any same then
    some { d with wings := d.wings.map (fun w => if same w then (w.1, { w.2 with acc := w.2.acc ||| e.acc, waiters := w.2.waiters + e.waiters }) else w) }
  else if 64 ≤ (d.wings.filter (fun w => w.1 == wing)).length then none
  else some { d with wings := d.wings ++ [(wing, e)] }

/-- The entries of a column's own stage that its lead has not been sent yet (R427). -/
def Dev.unsent (d : Dev) (p ctx gran : Nat) (w : Nat × WingEntry) : Bool :=
  w.1 != d.leadWing p && w.2.part == p && w.2.ctx == ctx && w.2.gran == gran && !w.2.fwd

/-- A wing stage that is not the lead forwards the first fault of a granule to it (R427). -/
def Dev.forward (d : Dev) (p col ctx gran : Nat) : Dev :=
  match d.wings.find? (fun w => w.1 == wingOf col && d.unsent p ctx gran w) with
  | none => d
  | some (n, e) =>
    match d.stageTakes (d.leadWing p) { e with arrived := d.now } with
    | none => d
    | some d => { d with wings := d.wings.map (fun w => if w.1 = n ∧ w.2.isFor p ctx gran e.kind then (w.1, { w.2 with fwd := true }) else w) }

/-- The meaning of WING_STAGE_FAULT_ARRIVAL (R426, R427): one of the sixteen open filter entries of a column reaches the stage of the column's own
wing; that one's first fault of the granule reaches, by a further such event, the lead wing stage of the partition. -/
def execWingStageFaultArrival (col ctx gran : Nat) (s : State) : Host.Outcome State Fault Refusal :=
  let d := s.dev
  let p := (d.ctx ctx).part
  match ((d.col col).filter.take 16).find? (fun f => f.ctx == ctx && f.gran == gran && !f.sent) with
  | none => .next { s with dev := d.forward p col ctx gran }
  | some f =>
    let e : WingEntry := { part := p, ctx := ctx, gran := gran, kind := f.kind, level := f.level, acc := f.acc, waiters := d.waiters col ctx gran,
                           fcol := col, tick := f.tick, arrived := d.now, rseq := none }
    match d.stageTakes (wingOf col) e with
    | none => .next s
    | some d => .next { s with dev := d.modCol col (fun k => k.modFilter ctx gran (fun x => { x with sent := true })) }

/-- A column's fault of an entry of the lead has reached it, from the column itself or through the stage of its wing (R427). -/
def Dev.atLead (d : Dev) (p : Nat) (e : WingEntry) (c : Nat) (f : FilterEntry) : Bool :=
  f.sent && (wingOf c == d.leadWing p || d.wings.any (fun w => w.1 == wingOf c && w.2.isFor p e.ctx e.gran e.kind && w.2.fwd))

/-- The union of access types and the waiter count of an entry of the lead wing stage as they stand now, over the columns of the partition whose
faults have joined it (R426-R428). -/
def Dev.joined (d : Dev) (p : Nat) (e : WingEntry) : BitVec 8 × Nat :=
  (d.part p).columns.foldl (fun (x : BitVec 8 × Nat) c =>
    match (d.col c).filter.find? (fun f => f.ctx == e.ctx && f.gran == e.gran && f.kind == e.kind && d.atLead p e c f) with
    | some f => (x.1 ||| f.acc, x.2 + d.waiters c e.ctx e.gran)
    | none => x) (e.acc, 0)

/-- The 32 bytes of a fault record (R428). -/
def FaultRecord.bytes (r : FaultRecord) : List Byte :=
  bytesOf 8 (min r.waiters 65535 + r.level % 4 * 2 ^ 26 + r.kind % 16 * 2 ^ 28 + r.acc.toNat * 2 ^ 32 + r.part % 256 * 2 ^ 40 + r.ctx % 65536 * 2 ^ 48) ++
    bytesOf 8 (r.gran % 2 ^ 28 * 2 ^ 16 + r.fcol % 1024 * 2 ^ 54) ++ bytesOf 8 r.rseq ++ bytesOf 8 r.tick

/-- The meaning of FAULT_RECORD_SEND (R427, R428): 64 ticks after its first fault an entry's record goes from the lead to the stage manager, with the
next RSEQ of the partition and the waiters of that tick. -/
def execFaultRecordSend (p ctx gran : Nat) (s : State) : Host.Outcome State Fault Refusal :=
  let d := s.dev
  let due (w : Nat × WingEntry) : Bool :=
    w.1 == d.leadWing p && w.2.part == p && w.2.ctx == ctx && w.2.gran == gran && w.2.rseq.isNone && decide (w.2.arrived + 64 ≤ d.now)
  match d.wings.find? due with
  | none => .next s
  | some (_, e) =>
    let n := (d.part p).rseq + 1
    let (acc, waiters) := d.joined p e
    let r : FaultRecord := { part := p, rseq := n, ctx := ctx, gran := gran, kind := e.kind, level := e.level, acc := acc,
                             waiters := min waiters 65535, fcol := e.fcol, tick := e.tick }
    let d := d.modPart p (fun x => { x with rseq := n })
    .next { s with dev := { d with
      faults := d.faults ++ [r],
      wings := d.wings.map (fun w => if due w && w.2.kind == e.kind then (w.1, { w.2 with rseq := some n }) else w) } }

/-! ## The replay of the side log -/

/-- A lane of an operation has left the side log with a completion time, or, refused, without one. -/
def Column.unlog (k : Column) (e : LogEntry) (o : MemOp) (t : Nat) : Column :=
  let k : Column := { k with log := k.log.filter (fun x => x.lseq != e.lseq) }
  let o : MemOp := { o with logged := o.logged - 1, time := max o.time t }
  match o.kind with
  | .nmatom _ _ => if o.logged = 0 then k.delOp o.id else k.setOp o
  | _ => k.setOp o

/-- What comes of an entry's replay: it is performed; it waits for an earlier own access of its warp to its bytes, which is outstanding (R222); or it
faults. -/
inductive Replayed where
  | performed (s : State)
  | blocked
  | fails (f : Flt) (gran : Nat) (d : Dev)

/-- A logged lane translated and performed as its kind would have been at issue (R431), under the privilege of its instruction (R401). -/
def State.replayEntry (s : State) (c : Nat) (e : LogEntry) : Replayed :=
  match (s.dev.col c).op? e.op with
  | none => .performed { s with dev := s.dev.modCol c (fun k => { k with log := k.log.filter (fun x => x.lseq != e.lseq) }) }
  | some o =>
    if ({ s.dev.col c with log := [] } : Column).overtakes o [e.acc] then .blocked
    else match s.resolve c e.ctx o.cpol (o.kind != .gpatch) o.priv e.acc with
    | (.error (f, g), d) => .fails f g d
    | (.ok b, d) =>
      let s : State := { s with dev := d }
      match o.kind with
      | .nmatom aop rm =>
        let x := nmEntry o aop rm d.now (e.orph || o.entry.isSome) b
        .performed { s with dev := d.modCol c (fun k =>
          ({ k with hand := { k.hand with atomq := k.hand.atomq ++ [x] }, gated := false } : Column).unlog e o 0) }
      | .gpatch =>
        match s.patchTo c o b with
        | (.error (f, g), d) => .fails f g d
        | (.ok q, d) =>
          let (t, n) := { s with dev := d }.patch c o b q
          .performed { t with dev := t.dev.modCol c (fun k => k.unlog e o n) }
      | _ =>
        let ps := b.pieces o.six false
        -- an ST or STU replay updates a usable line of the L1 (R205)
        let d := if o.kind = .store ∨ o.kind = .ustore then d.modCol c (fun k => k.l1Send d.now { o with lanes := ps }) else d
        let (t, n, _) := { s with dev := d }.perform c o ps
        .performed { t with dev := t.dev.modCol c (fun k => k.unlog e ((k.op? o.id).getD o) n) }

/-- How far the replay of a granule's entries has come: through them all; up to one that is not to be performed yet; up to one that faults in the
granule again. -/
inductive LogEnd where
  | over
  | blocked
  | fails (f : Flt)

/-- An entry whose replay meets a fault of another granule, as a GPATCH's block does, waits there from now on (R423, R426). -/
def Dev.relog (d : Dev) (c : Nat) (e : LogEntry) (f : Flt) (gran : Nat) : Dev :=
  (d.report c e.ctx gran f (if e.kind = 5 then .nmatom else .store)).modCol c (fun k => { k with log := k.log.map (fun x : LogEntry =>
    if x.lseq = e.lseq then { x with gran := gran, fkind := f.kind } else x) })

/-- The waiting entries of a granule replayed in order, up to the first that faults again there: those after it wait with it (R430, R431). -/
def State.replayLog (s : State) (c gran : Nat) : List LogEntry → State × LogEnd
  | [] => (s, .over)
  | e :: rest =>
    match s.replayEntry c e with
    | .performed t => State.replayLog t c gran rest
    | .blocked => (s, .blocked)
    | .fails f g d =>
      if g = gran then ({ s with dev := d }, .fails f)
      else State.replayLog { s with dev := d.relog c e f g } c gran rest

/-! ## Engines -/

/-- What held an engine at a granule is lifted. -/
def lift (gran : Nat) (g : Option Nat) : Option Nat := if g = some gran then none else g

/-- A node that a granule of column c held goes on (R433). -/
def GNode.wake (n : GNode) (home c gran : Nat) : GNode := if n.hcol.getD home = c then { n with held := lift gran n.held } else n

/-- The engine commands that a granule held go on (R433). -/
def Dev.wakeEngines (d : Dev) (c ctx gran : Nat) : Dev :=
  let d := d.modCol c (fun k => { k with
    copies := k.copies.map (fun x : CopyCmd => if x.ctx = ctx then { x with held := lift gran x.held } else x),
    tileQ := k.tileQ.map (fun q => q.map (fun o : TileOp => if o.ctx = ctx then { o with held := lift gran o.held } else o)) })
  let wake (x : Replay) : Replay :=
    if x.ctx ≠ ctx then x
    else { x with held := if x.home = c then lift gran x.held else x.held, nodes := x.nodes.map (fun n : GNode => n.wake x.home c gran) }
  let d : Dev := { d with replays := d.replays.mapVals (fun _ x => wake x) }
  match d.partAt c with
  | none => d
  | some p =>
    let b := d.ring (.part p)
    d.putRing (.part p) { b with waiting := b.waiting.map (fun x : CmdEntry × Option Nat =>
      if x.1.ctx.toNat = ctx then (x.1, lift gran x.2) else x) }

/-- A copy is refused its page (R433, R449): it fails, or, at its completion word, ends without it. -/
def CopyCmd.refused (x : CopyCmd) (kind : Nat) : CopyCmd :=
  if x.stage < 2 then { x.fails 2 kind with held := none } else { x with stage := 3, err := errWord 0x14 kind 2, held := none }

/-- A replay that the walker holds is refused its page: it fails as a malformed object does (R358, R433). -/
def Dev.refuseReplay (d : Dev) (x : Replay) (kind : Nat) : Dev :=
  let d := d.engineFailed x.home 0x23 0 x.ctx 0 (errWord 0x23 kind 2) 0
  match x.slot with
  | none => Dev.replayTold { d with replays := d.replays.del x.id } x (.bad 6)
  | some _ => d.replayEnds { x with failed := some (x.failed.getD 6) }

/-- A node that the walker holds is refused its page: its replay fails (R433, R450); a launch's record is rejected (R62). -/
def Dev.refuseNode (d : Dev) (x : Replay) (j : Nat) (n : GNode) (kind : Nat) : Dev :=
  let d := d.modNode x.id j (fun n => { n with started := true, held := none, hcol := none, poll := none })
  d.nodeFails (.node (dieOf x.home) x.id j) (if n.kind = 1 then 7 else 6) (errWord 0x23 kind 2)

/-- The engine commands that a granule held fail (R433). -/
def Dev.failEngines (d : Dev) (c ctx gran kind : Nat) : Dev :=
  let at_ (g : Option Nat) : Bool := g == some gran
  let at_' (g : Nat) : Bool := g == gran
  let d := d.modCol c (fun k => { k with copies := k.copies.map (fun x : CopyCmd => if x.ctx = ctx ∧ at_ x.held then x.refused kind else x) })
  let d := [0, 1].foldl (fun (d : Dev) q => match (d.col c).queue q with
    | o :: _ => if o.ctx = ctx ∧ at_ o.held then d.tileFail c q o kind else d
    | [] => d) d
  let d := ((d.homeReplays c ctx).filter (fun x => at_ x.held)).foldl (fun (d : Dev) x => d.refuseReplay x kind) d
  let d := (d.heldNodes c ctx at_').foldl (fun (d : Dev) n => match n.1.nodes[n.2]? with
    | some g => d.refuseNode n.1 n.2 g kind
    | none => d) d
  let ls := d.heldLaunches c ctx (· == gran)
  match d.partAt c with
  | none => d
  | some p => ls.foldl (fun (d : Dev) e => d.complete (.part p) e.seq 1) d

/-! ## Resolutions -/

/-- A refused log entry: its lane is never performed, and a warp that has not ended receives deferred trap 0x1C (R432). -/
def Dev.refuseEntry (d : Dev) (c kind : Nat) (e : LogEntry) : Dev :=
  match (d.col c).op? e.op with
  | none => d.modCol c (fun k => { k with log := k.log.filter (fun x => x.lseq != e.lseq) })
  | some o =>
    let nm := match o.kind with
      | .nmatom _ _ => true
      | _ => false
    let d := d.modCol c (fun k => k.unlog e o 0)
    if e.orph || o.entry.isSome then d
    else d.modWarp c o.slot (fun w =>
      let w := w.defer { pc := e.pc, cause := 0x1C, lane := BitVec.ofNat 5 e.lane, kind := BitVec.ofNat 8 kind }
      if nm then { w with nmPending := w.nmPending - 1 } else w)

/-- A retry at a column (R425, R430, R431): the log entries of the granule are replayed, and every held access is to run again. With no waiter left
the entry closes; where a log entry faults again it stays open, and the granule is reported anew. The answer says whether the retry is over here: it
is not while a log entry may not be performed yet (log 119). -/
def State.retryAt (s : State) (c ctx gran : Nat) : State × Bool :=
  match (s.dev.col c).filterOf ctx gran with
  | none => (s, true)
  | some f =>
    let entry (d : Dev) (g : FilterEntry → FilterEntry) : Dev := d.modCol c (fun k => k.modFilter ctx gran g)
    let d := entry s.dev (fun e => { e with lifted := true })
    let (s, end_) := { s with dev := d }.replayLog c gran ((d.col c).logOf ctx gran)
    let d := entry s.dev (fun e => { e with lifted := false })
    match end_ with
    | .blocked => ({ s with dev := d }, false)
    | .over =>
      let held := (d.held_ c ctx gran ++ f.rerun).eraseDups
      if held.isEmpty then ({ s with dev := d.modCol c (fun k => k.closeFilter ctx gran) }, true)
      else ({ s with dev := (entry d (fun e => { e with sent := true, again := false, rerun := held })).wakeEngines c ctx gran }, true)
    | .fails x =>
      let held := (d.held_ c ctx gran ++ f.rerun).eraseDups
      ({ s with dev := (entry d (fun e => { e with kind := x.kind, level := x.level, sent := false, again := true, tick := d.now,
                                                   rerun := held })).wakeEngines c ctx gran }, true)

/-- A refusal at a column (R432): a held instruction resets the context; else the engines fail and the log entries are refused. -/
def State.refuseAt (s : State) (c ctx gran kind : Nat) : State :=
  let k := s.dev.col c
  if (k.filterOf ctx gran).isNone then s
  else if !(k.heldWarps ctx gran).isEmpty then s.contextReset ctx 4 0 none
  else
    let d := s.dev.modCol c (fun k => k.closeFilter ctx gran)
    let d := d.failEngines c ctx gran kind
    { s with dev := (k.logOf ctx gran).foldl (fun (d : Dev) e => d.refuseEntry c kind e) d }

/-- The verdict as it takes effect: a retry of a malformed walk is a refusal (R430). -/
def effective (v : Verdict) (kind : Nat) : Verdict :=
  match v with
  | .retry => if kind = 5 then .refuse 3 else .retry
  | .refuse n => .refuse n

/-- A column holds nothing of a context: it is not resident, or a running save has written the column's image already (R88, R94). -/
def Dev.away (d : Dev) (ctx c : Nat) : Bool :=
  (d.ctx ctx).state != .resident || (match (d.part (d.ctx ctx).part).preempt with
    | some q => q.ctx == ctx && q.written.contains c
    | none => false)

/-- The stage manager ends a record with a resolution (R430), which the lead wing stage fans out to the columns that have the granule
open, or keeps while the context is saved (R436). A refusal sends a record of kind 0x13. -/
def Dev.resolveRecord (d : Dev) (r : FaultRecord) (v : Verdict) : Dev :=
  let v := effective v r.kind
  let cols := (d.ctxCols r.ctx).filter (fun c => ((d.col c).filterOf r.ctx r.gran).isSome || d.away r.ctx c)
  let x : Resolution := { part := r.part, rseq := r.rseq, ctx := r.ctx, gran := r.gran, verdict := v, cols := cols }
  let d : Dev :=
    { d with
      faults := d.faults.filter (fun f => !(f.part == r.part && f.rseq == r.rseq)),
      wings := d.wings.filter (fun w => !(w.2.part == r.part && (w.2.rseq == some r.rseq ||
        (w.2.fwd && w.1 != d.leadWing r.part && w.2.isFor r.part r.ctx r.gran r.kind)))),
      resolutions := if cols.isEmpty then d.resolutions else d.resolutions ++ [x] }
  match v with
  | .retry => d
  | .refuse kind =>
    d.record (dieOf (d.part r.part).first) { kind := 0x13, unit := 0, ctx := some r.ctx, detail := BitVec.ofNat 128 (r.rseq + kind % 256 * 2 ^ 64) }

/-- A resolution reaches a column (R430, R436), once its context is resident. -/
def State.deliver (s : State) (x : Resolution) (c : Nat) : State :=
  let left := x.cols.filter (· != c)
  let same (y : Resolution) : Bool := y.part == x.part && y.rseq == x.rseq && y.ctx == x.ctx && y.gran == x.gran
  let d : Dev := { s.dev with resolutions := if left.isEmpty then s.dev.resolutions.filter (fun y => !same y)
    else s.dev.resolutions.map (fun y : Resolution => if same y then { y with cols := left } else y) }
  match x.verdict with
  | .retry =>
    let (t, over_) := { s with dev := d }.retryAt c x.ctx x.gran
    if over_ then t else { t with dev := { t.dev with resolutions := s.dev.resolutions } }
  | .refuse kind => { s with dev := d }.refuseAt c x.ctx x.gran kind

/-- The atomic queue of a column takes the NMATOM entries that a replay would put into it. -/
def Column.queueRoom (k : Column) (ctx gran : Nat) : Bool :=
  decide (k.hand.atomq.length + ((k.logOf ctx gran).filter (fun e => e.kind == 5)).length ≤ 256)

/-- The meaning of FAULT_RESOLUTION (R430-R433): the stage manager gives its verdict on a record, if it has not, and the resolution reaches
a column. -/
def execFaultResolution (p rseq col : Nat) (v : Verdict) (s : State) : Host.Outcome State Fault Refusal :=
  let d := match s.dev.faults.find? (fun f => f.part == p && f.rseq == rseq) with
    | some r => s.dev.resolveRecord r v
    | none => s.dev
  match d.resolutions.find? (fun x => x.part == p && x.rseq == rseq && x.cols.contains col) with
  | none => .next { s with dev := d }
  | some x =>
    if d.away x.ctx col ∨ !(d.col col).queueRoom x.ctx x.gran then .next { s with dev := d }
    else .next ({ s with dev := d }.deliver x col)

/-! ## Deferred traps -/

/-- What a deferred trap reports (R400, R407): the failed instruction, its lane and its refusal kind. -/
def Deferred.info (r : Deferred) : TrapInfo :=
  { cause := r.cause.toNat, emask := 1#32 <<< r.lane.toNat,
    einfo := BitVec.ofNat 64 (r.pc.toNat + r.lane.toNat * 2 ^ 48 + r.kind.toNat * 2 ^ 56) }

/-- A deferred trap taken by a warp at the PC that it was about to issue (R400, R402). -/
def State.takeDeferred (s : State) (c slot : Nat) (r : Deferred) : State :=
  let w := s.dev.warp c slot
  let cur : Cur := { col := c, slot := slot, pc := w.pc, paired := false, second := false, priv := false }
  { s with dev := { s.dev with cur := cur } }.trapEntry r.info true

/-- The meaning of DEFERRED_TRAP (R400): taken at an opportunity at which another warp issues, where the column found the warp ready, and its
next line, once fetched, is unprivileged (R405). A release that the warp waits for is over first (R420). -/
def execDeferredTrap (col slot : Nat) (s : State) : Host.Outcome State Fault Refusal :=
  let d := s.dev
  let w := d.warp col slot
  match w.deferred with
  | [] => .next s
  | r :: _ =>
    if !w.active || !(d.col col).readied.contains slot || !d.waitOver col slot || w.atRelease || (d.col col).halted || !pcInRange w.pc then
      .next s
    else
      match s.fetchLine col w.ctx (pcLine w.pc) with
      | (.error f, d) => .next { s with dev := d.report col w.ctx (granOf (pcLine w.pc)) f .fetch }
      | (.ok x, d) => if x.sys then .next { s with dev := d } else .next ({ s with dev := d }.takeDeferred col slot r)

/-! ## Migration -/

/-- The address of the leaf that translates a granule in a column's tables (R34). -/
def State.leafAddr (s : State) (c gran : Nat) : Nat → Nat → Nat → Option Nat
  | 0, _, _ => none
  | n + 1, level, table =>
    let idx := if level = 0 then gran / 2 ^ 14 % 2 ^ 14 else if level = 1 then gran / 2 ^ 5 % 2 ^ 9 else gran % 2 ^ 5
    let addr := table + 8 * idx
    let e := s.ptEntry c addr
    if bitsOf e 0 0 = 0 || entryBad level e then none
    else if bitsOf e 3 2 = 0 then State.leafAddr s c gran n (level + 1) (bitsOf e 39 16 * 256)
    else some addr

/-- An 8-byte word of a column's own vault written at its home slice by the stage manager (R207, R298). -/
def State.stageWrite (s : State) (c va n : Nat) : State :=
  let a : LaneAcc := { laneWant 0 c va 8 0 with va := va, cut := 8, pois := [false] }
  let bs := bytesOf 8 n
  let (d, _) := ({ s with dev := s.dev.poisonSectors [a] }.ahead [(a, bs)]).writeLines [a]
  ({ s with dev := d } : State).putLane a bs

/-- A leaf of one table copy changed (R434). -/
def State.setLeaf (s : State) (c ctx gran : Nat) (f : Nat → Nat) : State :=
  match s.leafAddr c gran 3 0 (bitsOf (s.dev.ctx ctx).ptRoot.toNat 23 0 * 256) with
  | none => s
  | some a => s.stageWrite c a (f (s.ptEntry c a))

/-- A leaf with its MIG field replaced (R37). -/
def leafMig (mig e : Nat) : Nat := e - bitsOf e 7 6 * 64 + mig * 64

/-- A leaf with its frame replaced, and MIG 00. -/
def leafFrame (frame e : Nat) : Nat := leafMig 0 e - bitsOf e 39 16 * 65536 + frame * 65536

/-- The page of a granule: its first granule, and how many it has. -/
def TlbEntry.page (e : TlbEntry) (gran : Nat) : Nat × Nat := if e.big then (gran / 32 * 32, 32) else (gran, 1)

/-- A page's TLBI in every column of the context's partition (R39, R434). -/
def Dev.dropPage (d : Dev) (ctx base n : Nat) : Dev :=
  (d.ctxCols ctx).foldl (fun (d : Dev) c => d.modCol c (fun k => k.dropXlate ctx base n)) d

/-- A watch on the bytes [lo, hi) of its column's vault whose page begins to migrate: a warp's returns with status 3 (R297). -/
def Watch.migrate (s : State) (c lo hi : Nat) (w : Watch) : Watch :=
  if w.fired.isNone && decide (lo ≤ w.va) && decide (w.va < hi) then
    { w with fired := some (BitVec.ofNat 32 (s.vault.num (vkey c w.va) 4), 3), pois := s.dev.poisoned (vkey c w.va) }
  else w

/-- A watch of the walker's or a stagehand's: it goes on by reading its cue (R355, R384). -/
def Dev.repoll (d : Dev) (w : Watch) : Dev :=
  match w.who with
  | .warp _ => d
  | .node _ r j => d.modNode r j (fun n => { n with poll := some d.now })
  | .hand => d.modHand w.wcol (fun h => { h with wait := match h.wait with
    | .cuew r tc off t dl _ => .cuew r tc off t dl (some d.now)
    | x => x })

/-- The watches of one column on a page that begins to migrate. -/
def State.migrateWatches (s : State) (c ctx lo hi : Nat) : State :=
  let on (w : Watch) : Bool := w.fired.isNone && decide (lo ≤ w.va) && decide (w.va < hi)
  let k := s.dev.col c
  let d := (k.watches.filter (fun w => on w && !w.ofWarp w.ctx)).foldl Dev.repoll s.dev
  let d := d.modCol c (fun k => { k with
    watches := (k.watches.filter (fun w => !(on w && !w.ofWarp w.ctx))).map (Watch.migrate s c lo hi) })
  { s with dev := { d with images := d.images.mapVals (fun key i =>
      if key / 2 = c ∧ i.ctx = ctx then { i with watches := i.watches.map (Watch.migrate s c lo hi) } else i) } }

/-- Step 1 of a migration (R434): MIG = 01 in every table copy, the translations dropped, the watches returned. -/
def State.migrateStart (s : State) (ctx base n old : Nat) : State :=
  let cs := s.dev.ctxCols ctx
  let s := cs.foldl (fun (s : State) c => (s.setLeaf c ctx base (leafMig 1)).migrateWatches c ctx (old * 65536) ((old + n) * 65536)) s
  { s with dev := s.dev.dropPage ctx base n }

/-- Step 2 of a migration has not ended on a column (R434, R435): an outstanding access of the page, a claim or an atomic-queue entry that
covers it, or an engine held there, but by kinds 3 and 4: those go on by step 6 alone (DEDUCED, log 96). -/
def Dev.pageBusy (d : Dev) (c ctx base n old : Nat) : Bool :=
  let k := d.col c
  let lo := old * 65536
  let hi := (old + n) * 65536
  let inPage (g : Nat) : Bool := decide (base ≤ g) && decide (g < base + n)
  let byOther (g : Nat) : Bool := inPage g && (match k.filterOf ctx g with
    | some f => f.kind != 3 && f.kind != 4
    | none => true)
  k.ops.any (fun o => o.ctx == ctx && o.lanes.any (fun a => inPage (granOf a.off) || inPage (granOf (a.off + a.size - 1)))) ||
    k.hand.claims.any (fun x => decide (x.off < hi) && decide (lo < x.off + x.len)) ||
    k.hand.atomq.any (fun e => decide (lo ≤ e.va) && decide (e.va < hi)) || !(d.heldEngines c ctx byOther).isEmpty

/-- The bytes of [a, a + n) of the vaults copied to b on. -/
def Memory.copy (m : Memory) (a b n : Nat) : Memory :=
  let src := m.filter (fun x => decide (a ≤ x.1) && decide (x.1 < a + n))
  src.foldl (fun (m : Memory) x => m.put (b + (x.1 - a)) x.2) (m.filter (fun x => !(decide (b ≤ x.1) && decide (x.1 < b + n))))

/-- The poison of the sectors from a on copied to those from b on. -/
def copyPois (ps : List Nat) (a b n : Nat) : List Nat :=
  ps.filter (fun x => !(decide (b ≤ x) && decide (x < b + n))) ++
    (ps.filter (fun x => decide (a ≤ x) && decide (x < a + n))).map (fun x => b + (x - a))

/-- The older values of a frame's words, as far as a fetch or a load may still see them, stand under the new frame too (R42, R102). -/
def moveWords (ws : List OldWord) (old new n : Nat) : List OldWord :=
  ws ++ (ws.filter (fun w => decide (old * 16384 ≤ w.word) && decide (w.word < (old + n) * 16384))).map (fun w =>
    { w with word := w.word - old * 16384 + new * 16384 })

/-- The lines of a frame of `len` bytes read at their home slices by a copy engine, in order (R207, R348). -/
def State.readFrame (s : State) (c a len : Nat) (zc : Bool) : Dev :=
  (List.range (len / 128)).foldl (fun (d : Dev) i => ({ s with dev := d }.homeRead c (a + 128 * i) 0 zc none (lineSectors (a + 128 * i))).1) s.dev

/-- The same lines written whole. -/
def State.writeFrame (s : State) (c a len : Nat) (zc : Bool) : Dev :=
  (List.range (len / 128)).foldl (fun (d : Dev) i =>
    let va := a + 128 * i
    let d := ({ s with dev := d }.homeWrite c va 0 zc false (lineSectors va)).1
    ({ s with dev := d } : State).l2Written c va) s.dev

/-- Step 3 of a migration on one column (R434): the old frame's dirty lines are written back, and its lines leave the L2, pinned ones too. -/
def State.frameOut (s : State) (c old n : Nat) : State :=
  { s with dev := s.dev.modCol c (fun k => k.l2Invalidate (old * 65536) ((old + n) * 65536)) }

/-- Step 4 of a migration on one column (R434): the column's copy engine reads the old frame and writes the new one at the home slices, the bytes
with their poison. -/
def State.moveFrame (s : State) (c old new n : Nat) (zc : Bool) : State :=
  let len := n * 65536
  let a := vkey c (old * 65536)
  let b := vkey c (new * 65536)
  let d := s.readFrame c (old * 65536) len zc
  let d : Dev := { d.modCol c (fun k => { k with was := moveWords k.was old new n, past := moveWords k.past old new n }) with
    vaultPois := copyPois d.vaultPois (a / 32) (b / 32) (len / 32) }
  let s : State := { vault := s.vault.copy a b len, dev := d }
  { s with dev := s.writeFrame c (new * 65536) len zc }.testWatches c (new * 65536) len

/-- Step 6 of a migration: every record of kind 3 or 4 for the page is resolved with a retry (R434). -/
def Dev.migrated (d : Dev) (p ctx base n : Nat) : Dev :=
  (d.faults.filter (fun f => f.part == p && f.ctx == ctx && decide (base ≤ f.gran) && decide (f.gran < base + n) &&
    (f.kind == 3 || f.kind == 4))).foldl (fun (d : Dev) f => d.resolveRecord f .retry) d

/-- Steps 3 to 6 of a migration (R434). -/
def State.migrateEnd (s : State) (p ctx base n old new : Nat) (zc : Bool) : State :=
  let cs := s.dev.ctxCols ctx
  let s := cs.foldl (fun (s : State) c => (s.frameOut c old n).moveFrame c old new n zc) s
  let s := cs.foldl (fun (s : State) c => s.setLeaf c ctx base (leafFrame new)) s
  { s with dev := (s.dev.dropPage ctx base n).migrated p ctx base n }

/-- A page leaves the device (R434): its lines leave the L2, and it stands at MIG = 10; its contents stay in the old frame, where system software
fetches them and from where the same steps bring the page back (DESIGN CHOICE, log 96). Its records wait for that. -/
def State.migrateAway (s : State) (ctx base n old : Nat) : State :=
  let cs := s.dev.ctxCols ctx
  let s := cs.foldl (fun (s : State) c => (s.frameOut c old n).setLeaf c ctx base (leafMig 2)) s
  { s with dev := s.dev.dropPage ctx base n }

/-- A frame that a page can move to (R33, R37). -/
def frameOk (new n : Nat) : Bool := new % n == 0 && decide (new + n ≤ 24576)

/-- No frame of a vault: the page is to leave the device. -/
def noFrame (new : Nat) : Bool := decide (24576 ≤ new)

/-- The leaf of a granule in a column's tables, whatever it forbids: its translation. -/
def State.leafOf (s : State) (c ctx gran : Nat) : Option TlbEntry :=
  match s.walk c ctx (gran * 65536) with
  | .ok e => some e
  | .error _ => none

/-- The meaning of MIGRATION (R434): the page of a granule begins to migrate, from its frame or, at MIG = 10, back to the device; with nothing left of
step 2, it moves to its new frame, or, where that is none of the vault's, leaves the device. -/
def execMigration (p ctx page frame : Nat) (s : State) : Host.Outcome State Fault Refusal :=
  let d := s.dev
  if !d.ctxIn ctx p then .next s
  else
    match s.leafOf (d.part p).first ctx page with
    | none => .next s
    | some e =>
      let (base, n) := e.page page
      let old := e.frame - (page - base)
      if !(frameOk frame n || (noFrame frame && e.mig != 2)) then .next s
      else if e.mig ≠ 1 then .next (s.migrateStart ctx base n old)
      else if (d.ctxCols ctx).any (fun c => d.pageBusy c ctx base n old) then .next s
      else if noFrame frame then .next (s.migrateAway ctx base n old)
      else .next (s.migrateEnd p ctx base n old frame e.zc)

end Sys2Proof.Machine
end

