-- ==== Sys2Proof/Machine/Host.lean ====
section
/-! DEFINITION. Bring-up (R391-R394), the host's accesses to column memory (R389), power and thermal states (R398), Twimor (R397), failures
of functions (R392), and the debugger (R406). -/

namespace Sys2Proof.Machine

/-! ## Bring-up -/

/-- MAGIC of a configuration record (R393). -/
def recordMagic (bs : List Byte) : Nat := numOf (bs.take 4)
/-- VER of a configuration record (R393). -/
def recordVer (bs : List Byte) : Nat := numOf ((bs.drop 4).take 4)
/-- LEN of a configuration record (R393). -/
def recordLen (bs : List Byte) : Nat := numOf ((bs.drop 8).take 4)

/-- A configuration record passes its check (R393, R394): its marker, its length, the signature over its bytes, and a version that is not below
the least. -/
def recordOk (bs : List Byte) (least : Nat) : Bool :=
  let n := recordLen bs
  recordMagic bs == 0x5A434647 && decide (3321 ≤ n) && decide (n ≤ bs.length) &&
    Config.recordSigned (bs.take (n - 3309)) ((bs.drop (n - 3309)).take 3309) && decide (least ≤ recordVer bs)

/-- The firmware and the configuration record in flash as a power-on finds them: what Twimor has written since takes effect (R397). -/
def Dev.loadFlash (d : Dev) : Dev :=
  { d with flashFw := d.stagedFw.getD d.flashFw, flashCfg := d.stagedCfg.getD d.flashCfg, stagedFw := none, stagedCfg := none }

/-- The logical columns of a die that are not absent. -/
def Dev.dieCols (d : Dev) (die : Nat) : List Nat := ((List.range 256).map (fun i => die * 256 + i)).filter (fun c => !d.absent.contains c)

/-- The physical columns of a die that the record gives a role, and that pass their rehearsal (R13, R456). -/
def healthyCols (record : List Byte) (die : Nat) (bad : List BadColumn) : List Nat :=
  (List.range 272).filter (fun u => decide (Config.recordRole record die u ≤ 256) && bad.all (fun b => b.phys != u))

/-- The physical columns of the logical numbers from n on, in order (R13, R15, R18): that of the record, or, where it has failed, the next understudy;
with none left the number is left out, so that the missing numbers are the highest. -/
def columnMap (record : List Byte) (die : Nat) (ok : List Nat) : List Nat → List Nat → List Nat × List Nat
  | [], spare => ([], spare)
  | n :: ns, spare =>
    match ok.find? (fun u => Config.recordRole record die u == n), spare with
    | some u, _ => let r := columnMap record die ok ns spare; (u :: r.1, r.2)
    | none, x :: xs => let r := columnMap record die ok ns xs; (x :: r.1, r.2)
    | none, [] => columnMap record die ok ns []

/-- A counter of a die. -/
def setDie (v : Vector Nat 4) (die n : Nat) : Vector Nat 4 := Vector.ofFn (fun i => if i.val = die then n else v[i])

/-- The logical number that the record gives a physical column of a die, if it gives it one (R13). -/
def numberOf (record : List Byte) (die u : Nat) : Option Nat :=
  let n := Config.recordRole record die u
  if n < 256 then some (die * 256 + n) else none

/-- The understudies that take the numbers which no healthy column of the record has, in order (R15, R457, R458). -/
def takenOver (record : List Byte) (die : Nat) (ok : List Nat) : List (Nat × Nat) :=
  (((List.range 256).filter (fun n => ok.all (fun u => Config.recordRole record die u != n))).map (fun n => die * 256 + n)).zip
    (ok.filter (fun u => Config.recordRole record die u == 256))

/-- A physical column has failed its rehearsal at power-on (R457): the failure's record, about the logical column that it was to be, if any; and where no
understudy takes the number, that of a column retired without one (R458). -/
def Dev.failedAtStart (d : Dev) (die : Nat) (taken : List (Nat × Nat)) (b : BadColumn) : Dev :=
  let r : RecordInfo := { kind := 0x0D, unit := b.unit % 256, block := b.block % 65536, detail := (resultWord 4 b.unit 0 b.block).setWidth 128 }
  match numberOf d.flashCfg die b.phys with
  | none => d.record die r
  | some c =>
    let d := d.recordCol c r
    if taken.any (fun x => x.1 == c) then d else d.recordCol c { kind := 0x0F, unit := 0 }

/-- The record of an understudy that has taken a failed column's number (R458). -/
def Dev.replacedAtStart (d : Dev) (die : Nat) (taken : List (Nat × Nat)) (b : BadColumn) : Dev :=
  match taken.find? (fun x => numberOf d.flashCfg die b.phys == some x.1) with
  | some (c, u) => d.recordCol c { kind := 0x0E, unit := 0, detail := BitVec.ofNat 128 (b.phys + u * 2 ^ 16) }
  | none => d

/-- The house clock starts at 0 (R394): what is counted from a tick before goes on being counted from there. -/
def Dev.clockStart (d : Dev) : Dev :=
  let back (t : Option Int) : Option Int := t.map (fun x => x - d.now)
  { d with now := 0, hotSince := back d.hotSince, ports := d.ports.mapVals (fun _ p => { p with failing := back p.failing }) }

/-- Step 3 of bring-up (R394): the house clock, which starts at 0 with the first die that comes this far (log 6), the columns of the record's map,
rehearsed, and CAP_COLS (R19); a column that fails its rehearsal is recorded and retired (R457, R458). -/
def Dev.startColumns (d : Dev) (die : Nat) (bad : List BadColumn) : Dev :=
  let d := if d.boot.toList.all (fun n => decide (n ≤ 2)) then d.clockStart else d
  let rec_ := d.flashCfg
  let ok := healthyCols rec_ die bad
  let (l, spare) := columnMap rec_ die ok (List.range 256) (ok.filter (fun u => Config.recordRole rec_ die u == 256))
  let taken := takenOver rec_ die ok
  let phys (d : Dev) (xs : List (Nat × Nat)) : Table Nat := xs.foldl (fun t x => Table.set t x.1 x.2) (d.phys.filter (fun x => dieOf x.1 != die))
  let made := (List.range 272).filterMap (fun u => (numberOf rec_ die u).map (fun c => (c, u)))
  let d := bad.foldl (fun (d : Dev) b => d.failedAtStart die taken b) { d with phys := phys d made }
  let d : Dev :=
    { d with
      phys := phys d (l.zipIdx.map (fun u => (die * 256 + u.2, u.1))),
      understudies := d.understudies.filter (fun u => u / 512 != die) ++ spare.map (physKey die),
      capCols := setDie d.capCols die l.length, spares := setDie d.spares die spare.length,
      absent := d.absent.filter (fun c => dieOf c != die) ++ (List.range (256 - l.length)).map (fun i => die * 256 + l.length + i) }
  let d := bad.foldl (fun (d : Dev) b => d.replacedAtStart die taken b) d
  let d := (d.dieCols die).foldl (fun (d : Dev) c => d.modCol c (fun k => { k with rehearsal := resultWord 3 0 0 0 })) d
  d.setReady (.cols die) true

/-- The steps of bring-up (R394): the firmware's check and SMGR; the record's check; the columns; the stagehands; on die 0 the house sequencer. A
failed check leaves the die unready, and its cause is reported over Twimor. -/
def Dev.bootStep (d : Dev) (die : Nat) (bad : List BadColumn) : Nat → Dev
  | 0 =>
    let d := if (List.range 4).all (fun i => d.boot.toList.getD i 0 == 0 && !d.bootFail.contains i) then d.loadFlash else d
    if Config.firmwareSigned d.flashFw then d.setReady (.smgr die) true
    else { d with bootFail := d.bootFail ++ [die], replies := d.replies ++ [.cause die 1] }
  | 1 =>
    if recordOk d.flashCfg d.minVer then { d with minVer := recordVer d.flashCfg }
    else { d with bootFail := d.bootFail ++ [die], replies := d.replies ++ [.cause die 2] }
  | 2 => d.startColumns die bad
  | 3 => (d.dieCols die).foldl (fun (d : Dev) c => d.setReady (.stage c) true) d
  | 4 => if die = 0 then d.setReady .seqr true else d
  | _ => d

/-- The meaning of POWER_ON (R393, R394): the next step of a die, with the physical columns that fail their rehearsal; dies proceed
independently, and a die whose check failed goes no further. -/
def execPowerOn (step : BringUp) (s : State) : Host.Outcome State Fault Refusal :=
  let d := s.dev
  let die := step.die
  let n := d.boot.toList.getD die 5
  if 4 ≤ die ∨ 5 ≤ n ∨ d.bootFail.contains die then .next s
  else
    let d := d.bootStep die step.bad n
    .next { s with dev := { d with boot := if d.bootFail.contains die then d.boot else setDie d.boot die (n + 1) } }

/-- The meaning of FUNCTION_FAILURE (R392, R462): a function's readiness bit clears; a failed house sequencer sends a record. -/
def execFunctionFailure (f : ReadyFn) (s : State) : Host.Outcome State Fault Refusal :=
  let d := s.dev
  if !d.ready.contains f then .next s
  else match f with
    | .cols _ | .smgr _ | .stage _ => .next { s with dev := d.setReady f false }
    | .seqr => .next { s with dev := (d.record 0 { kind := 0x14, unit := 0x21 }).setReady f false }
    | .port _ | .hold => .next s

/-! ## The host's accesses -/

/-- The meaning of HOST_MEMORY_READ (R388, R389): the bytes of a fabric address, or an error reply; a port that is not ready brings no request. -/
def execHostMemoryRead (port addr len : Nat) (s : State) : Host.Outcome State Fault Refusal :=
  if !s.dev.portOpen port then .next s
  else match s.fabricRead addr len with
    | (some bs, d) => .next { s with dev := d.send (.data addr bs) 2 }
    | (none, d) => .next { s with dev := d.send (.refused addr) 2 }

/-- A write of the host's whose acknowledgement waits for its GWCT (R389). -/
def Dev.ackLater (d : Dev) (c addr t : Nat) : Dev :=
  { d.modCol c (fun k => { k with nextOp := k.nextOp + 1 }) with
    acks := d.acks ++ [{ col := c, op := (d.col c).nextOp, addr := addr, at_ := t }] }

/-- The meaning of HOST_MEMORY_WRITE (R77, R388, R389): column memory is written, and acknowledged by GWCT_RETURN once Now() has reached the
write's GWCT; a ring block takes its bytes and answers at once; the rest is refused. -/
def execHostMemoryWrite (port addr : Nat) (bytes : List Byte) (s : State) : Host.Outcome State Fault Refusal :=
  let refuse : State := { s with dev := s.dev.send (.refused addr) 2 }
  if !s.dev.portOpen port then .next s
  else match fabricPlace addr bytes.length with
    | some (.column c off) =>
      if !s.dev.hostOk c off bytes.length then .next refuse
      else
        let (s, t) := s.hostWrites c (bytes.length / 32 + 2) off bytes
        .next { s with dev := s.dev.ackLater c addr t }
    | some (.ring r off) => .next { s with dev := (s.dev.ringWrite r off bytes).send (.ack addr) 2 }
    | _ => .next refuse

/-! ## Power and temperature -/

/-- A reading of some die's junction is at or above a limit. -/
def hotJunction (j : Vector Nat 4) (limit : Nat) : Bool := j.toList.any (fun x => decide (limit ≤ x))

/-- The meaning of POWER_LIMIT_STATE (R26, R398): over a limit the issue rate falls by an eighth, to one eighth at least; with both clear it
is full again. The power is in watts, averaged over 1 ms, the temperature in degrees for each die. -/
def execPowerLimitState (power : Nat) (junction : Vector Nat 4) (s : State) : Host.Outcome State Fault Refusal :=
  let d : Dev := { s.dev with watts := power, junction := junction }
  let high := decide (3400 < power) || hotJunction junction 105
  let st (x : PowerState) : PowerState := if d.power = .p3 then .p3 else x
  .next { s with dev := if high then { d with rate := max 1 (d.rate - 1), power := st .p1 } else { d with rate := 8, power := st .p0 } }

/-- A column has no resident warp, and none of its engines runs (R398). -/
def Column.idle (k : Column) : Bool :=
  k.warps.isEmpty && k.ops.isEmpty && k.copies.isEmpty && k.tileQ.toList.all List.isEmpty && k.hand.running.isNone &&
    k.hand.runq.isEmpty && k.hand.atomq.isEmpty && !k.rehearsing

/-- The meaning of CLOCK_GATE_IDLE (R398): a column without a resident warp or a running engine for 1 ms, 1,050,000 ticks, has its clocks
gated. -/
def execClockGateIdle (col : Nat) (s : State) : Host.Outcome State Fault Refusal :=
  let k := s.dev.col col
  if k.idle && decide (max k.busyEnd (k.lastIssue.getD 0) + 1050000 ≤ s.dev.now) then
    .next { s with dev := s.dev.modCol col (fun k => { k with gated := true }) }
  else .next s

/-- Readings of the sensors (R398): `hotSince` keeps the tick since when the inlet reads above 45 degrees. -/
def Dev.readings (d : Dev) (junction : Vector Nat 4) (inlet : Nat) : Dev :=
  { d with junction := junction, inlet := inlet, hotSince := if inlet ≤ 45 then none else some (d.hotSince.getD d.now) }

/-- The inlet has read above 45 degrees for 1 s, 1,050,000,000 ticks (R398). -/
def Dev.inletHot (d : Dev) : Bool :=
  match d.hotSince with
  | some t => decide (t + 1050000000 ≤ d.now)
  | none => false

/-- The meaning of THERMAL_HOLD_ENTRY (R398): with a junction at 115 degrees, or the inlet above 45 for 1 s, every partition is held and HOLD
set. -/
def execThermalHoldEntry (junction : Vector Nat 4) (inlet : Nat) (s : State) : Host.Outcome State Fault Refusal :=
  let d := s.dev.readings junction inlet
  if d.power = .p3 ∨ !(hotJunction junction 115 || d.inletHot) then .next { s with dev := d }
  else
    let d := (d.parts.map Prod.fst).foldl (fun (d : Dev) p => d.wantHold p) { d with power := .p3 }
    .next { s with dev := d.setReady .hold true }

/-- The meaning of THERMAL_HOLD_EXIT (R398): with every junction below 95 degrees and the inlet at 45 or below, the holds are released and HOLD
cleared. -/
def execThermalHoldExit (junction : Vector Nat 4) (inlet : Nat) (s : State) : Host.Outcome State Fault Refusal :=
  let d := s.dev.readings junction inlet
  if d.power ≠ .p3 ∨ hotJunction junction 95 ∨ 45 < inlet then .next { s with dev := d }
  else
    let d : Dev := { d with power := if d.rate < 8 then .p1 else .p0 }
    let d := (d.parts.map Prod.fst).foldl (fun (d : Dev) p => d.unhold p) d
    .next { s with dev := d.setReady .hold false }

/-! ## Twimor -/

/-- Twimor is served (R394, R397): by the stage manager of die 0, or of the lowest-numbered die whose SMGR step has completed; a die whose check
failed serves it, too. -/
def Dev.twimorDie (d : Dev) : Option Nat :=
  match (List.range 4).find? (fun i => d.ready.contains (.smgr i)) with
  | some i => some i
  | none => (List.range 4).find? (fun i => d.bootFail.contains i)

/-- Twimor is served. -/
def Dev.twimorOn (d : Dev) : Bool := d.twimorDie.isSome

/-- Bytes answered over Twimor, where it is served. -/
def Dev.twimor (d : Dev) (bs : List Byte) : Dev := if d.twimorOn then { d with replies := d.replies ++ [.twimor bs] } else d

/-- The meaning of TWIMOR_IDENTITY_READ (R388, R391, R397). -/
def execTwimorIdentityRead (s : State) : Host.Outcome State Fault Refusal :=
  .next { s with dev := s.dev.twimor (identityBlock ++ s.dev.readyMap) }

/-- The meaning of TWIMOR_SENSOR_READ (R397, R398): the junction temperature of each die, the inlet temperature and the module's power, as
16-bit numbers (log 3). -/
def execTwimorSensorRead (s : State) : Host.Outcome State Fault Refusal :=
  let d := s.dev
  .next { s with dev := d.twimor ((d.junction.toList.map (bytesOf 2)).flatten ++ bytesOf 2 d.inlet ++ bytesOf 2 d.watts) }

/-- The 64 bytes of an error record of a die (R460). -/
def ErrorRecord.bytes (e : ErrorRecord) (die : Nat) : List Byte :=
  let c := e.col.getD 0
  let loc := if e.col.isSome then c % 256 * 2 ^ 22 + e.phys * 2 ^ 11 + 2 ^ 10 else 0
  let ids := match e.ctx with
    | some (x, p) => x % 65536 * 2 ^ 48 + p % 256 * 2 ^ 40 + 2 ^ 39
    | none => 0
  bytesOf 8 e.eseq ++ bytesOf 8 e.tick ++
    bytesOf 8 (e.kind % 256 * 2 ^ 56 + e.unit % 256 * 2 ^ 48 + e.block % 65536 * 2 ^ 32 + die % 4 * 2 ^ 30 + loc) ++ bytesOf 8 ids ++
    bytesOf 8 e.synd.toNat ++ bytesOf 8 (e.slot % 64 * 2 ^ 53 + e.lane % 32 * 2 ^ 48 + e.pc.toNat) ++ bytesOf 16 e.detail.toNat

/-- The meaning of TWIMOR_ERROR_RECORD_READ (R397, R460): the stored records of a die, oldest first. -/
def execTwimorErrorRecordRead (die : Nat) (s : State) : Host.Outcome State Fault Refusal :=
  .next { s with dev := s.dev.twimor (((s.dev.errors.getD die []).map (fun e => e.bytes die)).flatten) }

/-- The 8 bytes of a lane's counters (R463). -/
def LaneCounter.bytes (l : LaneCounter) : List Byte := bytesOf 8 (l.corr % 2 ^ 40 + l.retry % 2 ^ 16 * 2 ^ 40 + l.margin % 2 ^ 8 * 2 ^ 56)

/-- The 8 bytes of a bank's counters (R463). -/
def BankCounter.bytes (b : BankCounter) : List Byte := bytesOf 8 (b.csec % 2 ^ 32 + b.rrow % 2 ^ 16 * 2 ^ 32 + b.scrub % 2 ^ 16 * 2 ^ 48)

/-- What is read from outside (R463, R90): over Twimor the counters of a port's lane, which die 0 keeps, and of a bank of a die's vault; and the header
of an image slot, by an attached debugger through the stage manager of the column's die (log 135). -/
def State.answer (s : State) (a : Ask) : State :=
  let d := s.dev
  match a with
  | .laneCounters die port lane =>
    if die = 0 ∧ port < 24 ∧ lane < 8 then
      { s with dev := d.twimor ((d.port port).lanes.toList.getD lane { margin := 0, retry := 0, corr := 0 }).bytes }
    else s
  | .bankCounters die vault bank =>
    if die < 4 ∧ vault < 256 ∧ bank < 32 then
      { s with dev := d.twimor (d.banks.getD ((die * 256 + vault) * 32 + bank) { csec := 0, rrow := 0, scrub := 0, rows := [] }).bytes }
    else s
  | .imageHeader col slot =>
    if d.debugger && decide (col < 1024) && decide (slot < 2) && d.ready.contains (.smgr (dieOf col)) then
      { s with dev := { d with replies := d.replies ++ [.header (s.vault.bytes (slotKey col slot) 0x88)] } }
    else s

/-- The meaning of TWIMOR_IMAGE_WRITE (R397): the image takes effect at the next power-on. -/
def execTwimorImageWrite (part : FlashPart) (die : Nat) (bytes : List Byte) (s : State) : Host.Outcome State Fault Refusal :=
  let d := s.dev
  if d.twimorDie ≠ some die then .next s
  else .next { s with dev := match part with
    | .config => { d with stagedCfg := some bytes }
    | .firmware => { d with stagedFw := some bytes } }

/-- The meaning of TWIMOR_MODULE_RESET (R397): the module is as after reset; the flash and what the outside sees of it stay, and memory reads
as after reset (log 1). -/
def execTwimorModuleReset (s : State) : Host.Outcome State Fault Refusal :=
  let d := s.dev
  if !d.twimorOn then .next s
  else .next { vault := [], dev := { Dev.start with
    agenda := d.agenda, cur := d.cur, free := d.free, flashCfg := d.flashCfg, flashFw := d.flashFw, stagedCfg := d.stagedCfg,
    stagedFw := d.stagedFw, minVer := d.minVer, debugger := d.debugger, replies := d.replies, junction := d.junction, inlet := d.inlet,
    watts := d.watts } }

/-! ## The debugger -/

/-- The meaning of DEBUGGER_ATTACH (R406). -/
def execDebuggerAttach (on : Bool) (s : State) : Host.Outcome State Fault Refusal := .next { s with dev := { s.dev with debugger := on } }

/-- The meaning of DEBUGGER_RESUME (R406): a stopped warp goes on at its BRK or after it. -/
def execDebuggerResume (col slot : Nat) (after : Bool) (s : State) : Host.Outcome State Fault Refusal :=
  let d := s.dev
  if !d.debugger || !(d.warp col slot).stopped then .next s
  else
    .next { s with dev := d.modWarp col slot (fun w => { w with
      stopped := false, entered := d.now, pc := if after then w.pc + 1 else w.pc }) }

end Sys2Proof.Machine
end

