-- ==== Sys2Proof/Machine/Index.lean ====
section
/-! DEFINITION. The index-register instructions (R237-R241). -/

namespace Sys2Proof.Machine

/-- Whether the guard selects part of E only (R156, R238). -/
def convergence (w : Warp) (h : Head) : Option TrapInfo := check (w.noneE h || w.allE h) { cause := 0x0A }

/-- The index register that IXSET's packed value gives (R238). -/
def packedIx (old : IxReg) (p : Word) (z : Bool) : IxReg :=
  { base := p.extractLsb' 0 8, bound := p.extractLsb' 8 9, stride := p.extractLsb' 24 8,
    idx := if z then Vector.replicate 32 0 else old.idx }

/-- The bound of IXSET's window (R60, R238). -/
def windowBound (regs : Nat) (p : Word) : Option TrapInfo :=
  let hi := p.toNat % 256 + p.toNat / 256 % 512
  check (decide (hi ≤ regs)) { cause := 0x0E, einfo := einfoB (hi - 1) regs }

/-- IXSET (R238): a guard that selects no lane of E retires it with no effect. -/
def ixsetIssue (f : VFields) (s : State) : Issue :=
  let x : VCtx := vctx s.dev f.h []
  let a := if f.vi then Src.const 1 f.imm Fmt.ui32 else x.src 1 f.a
  let p := lane a.vals 0
  let u := Use.ptr a
  if x.w.noneE f.h then .retire (x.d.hint f.hint).advance
  else if x.notReady [u] then .hold (x.d.holdRegs (x.waits [u]))
  else match firstTrap [a.boundCheck x.regs, a.uniCheck, u.tagCheck, windowBound x.regs p, convergence x.w f.h, a.poisCheck Mask.all] with
    | some t => .trap t
    | none =>
      .retire ((x.d.modCurWarp (fun w => w.setIx (f.d.toNat % 16) (packedIx (w.ixr (f.d.toNat % 16)) p (f.subBit 0)))).hint
        f.hint).advance

/-- The meaning of IXSET. -/
def execIxset (f : VFields) (s : State) : Host.Outcome State Fault Refusal := s.conclude (ixsetIssue f s)

/-- The indices of the active lanes replaced. -/
def Warp.setIdx (w : Warp) (i : Nat) (act : Mask) (g : Nat → BitVec 8) : Warp :=
  let r := w.ixr i
  w.setIx i { r with idx := tab (fun l => if Mask.has act l then g l else lane r.idx l) }

/-- An instruction that moves the indices of an index register by a source (R239, R241). -/
def idxIssue (f : VFields) (x : VCtx) (src : Option Src) (own : List (Option TrapInfo)) (consumes : Bool) (g : Nat → BitVec 8) : Issue :=
  let us := (src.map Use.ptr).toList
  if x.notReady us then .hold (x.d.holdRegs (x.waits us))
  else match firstTrap (x.bounds us ++ us.map Use.tagCheck ++ own ++
      (if consumes then us.map (fun u => u.src.poisCheck x.act) else [])) with
    | some t => .trap t
    | none => .retire ((x.d.modCurWarp (fun w => w.setIdx (f.d.toNat % 16) x.act g)).hint f.hint).advance

/-- IXLD (R239). -/
def ixldIssue (f : VFields) (s : State) : Issue :=
  let x : VCtx := vctx s.dev f.h []
  let src := if f.vi then none else some (x.src 1 f.a)
  let v (l : Nat) : BitVec 8 := match src with
    | some a => (lane a.vals l).extractLsb' 0 8
    | none => f.imm.extractLsb' 0 8
  let old := (x.w.ixr (f.d.toNat % 16)).idx
  idxIssue f x src [] true (fun l => if f.subBit 0 then lane old l + v l else v l)

/-- The meaning of IXLD. -/
def execIxld (f : VFields) (s : State) : Host.Outcome State Fault Refusal := s.conclude (ixldIssue f s)

/-- IXMOV's value in lane l (R240). -/
def ixmovWord (mode : Nat) (r : IxReg) (l : Nat) : Word :=
  match mode with
  | 0 => (lane r.idx l).setWidth 32
  | 1 => r.base.setWidth 32 + (lane r.idx l).setWidth 32
  | _ => r.stride ++ 0#7 ++ r.bound ++ r.base

/-- IXMOV (R240). -/
def ixmovIssue (f : VFields) (s : State) : Issue :=
  let x : VCtx := vctx s.dev f.h []
  let mode := f.subBits 1 0
  let r := x.w.ixr (f.a.bits.toNat % 16)
  x.finish f [] none []
    { vals := tab (ixmovWord mode r), pois := 0, fmt := Fmt.ui32, shape := if mode = 2 then .uniform else .general } noPost

/-- The meaning of IXMOV. -/
def execIxmov (f : VFields) (s : State) : Host.Outcome State Fault Refusal := s.conclude (ixmovIssue f s)

/-- IXADV (R241). -/
def ixadvIssue (f : VFields) (s : State) : Issue :=
  let x : VCtx := vctx s.dev f.h []
  let i := f.d.toNat % 16
  let r := x.w.ixr i
  let src := if f.vi || f.subBit 1 then none else some (x.src 2 f.b)
  let step (l : Nat) : Int :=
    match src with
    | some b => signedOf 8 (lane b.vals l).toNat
    | none => if f.vi then signedOf 8 f.imm.toNat else r.stride.toInt
  let wrap := f.subBit 0
  let first := Mask.first x.act
  let own := [check (!wrap || r.bound != 0)
    { cause := 0x0D, einfo := einfoO 0 0 first 0 0 i (lane r.idx first).toNat, emask := x.act }]
  idxIssue f x src own false (fun l =>
    let v : Int := (lane r.idx l).toNat + step l
    BitVec.ofInt 8 (if wrap then v % (r.bound.toNat : Int) else v))

/-- The meaning of IXADV. -/
def execIxadv (f : VFields) (s : State) : Host.Outcome State Fault Refusal := s.conclude (ixadvIssue f s)

end Sys2Proof.Machine
end

