-- ==== Sys2Proof/Machine/Returns.lean ====
section
/-! DEFINITION. What comes back to a column's warps after issue: loads and stores performed at the slices (R216, R223, R244-R247), replayed
results (R147), tickets (R261), releases (R252), barrier phases (R266-R269), and the warps' moves between the active and the pending
set (R83-R87). -/

namespace Sys2Proof.Machine

/-! ## Loads, stores, atomics -/

/-- The sectors of one line of a prefetch (R227): dropped where the line would bypass its set or is left to the vault, else brought into L2,
and into L1 unless the policy is L2 only. A sector that the L1 holds already is requested all the same, and its lease granted anew (DESIGN
CHOICE, log 133). -/
def State.prefLine (s : State) (c ctx : Nat) (l2only : Bool) (a : LaneAcc) (secs : List (Nat × Nat)) : Dev :=
  let d := s.dev
  let k := d.col c
  match secs with
  | [] => d
  | x :: _ =>
    if k.aside x.2 || (!k.l2Valid x.2 && s.l2Refuses c x.2 a.zc) then d
    else
      let lease := if l2only || a.pol == 1 then none else some (if a.stable then 0 else (d.ctx ctx).lease)
      let (d, got) := s.homeRead c x.2 a.pol a.zc lease (secs.map Prod.snd)
      match got with
      | some e => d.modCol c (fun k => k.l1Fill d.now ctx (secs.map (fun y =>
          let p := k.overlaid ctx y.1 (s.vault.bytes (vkey c y.2) 32, d.poisoned (vkey c y.2))
          (y.1, p.1, p.2))) e a.stable (a.pol == 2))
      | none => d

/-- One request of a prefetch (R227). -/
def State.prefReq (s : State) (c : Nat) (o : MemOp) (l2only : Bool) (req : Nat) : Dev :=
  let ls := o.lanes.filter (fun a => a.req == req)
  let d := (byLine (sectorsOf ls)).foldl (fun d secs => match ls.find? (fun a => a.sectors.any (fun x => secs.contains x)) with
    | some a => { s with dev := d }.prefLine c o.ctx l2only a secs
    | none => d) s.dev
  let o := { o with lanes := o.lanes.filter (fun a => a.req != req) }
  d.modCol c (fun k => if o.lanes.isEmpty then k.delOp o.id else k.setOp o)

/-- The meaning of LOAD_DATA_RETURN (R204, R216, R223, R225): one request of a load or a prefetch, or an LDS. -/
def execLoadDataReturn (col op req : Nat) (s : State) : Host.Outcome State Fault Refusal :=
  match (s.dev.col col).op? op with
  | none => .next s
  | some o => match o.kind with
    | .load | .uload | .loadT | .xget | .ret _ => .next { s with dev := s.loadReq col o req }
    | .pref l2 => .next { s with dev := s.prefReq col o l2 req }
    | .lds => .next { s with dev := s.dev.modCol col (fun k => k.spadDone s.dev.now o) }
    | _ => .next s

/-- Another ATSC with an earlier ticket still has a lane to perform in a slice of column c that this one reaches (R261). -/
def Dev.ticketBehind (d : Dev) (ticket : Nat) (ls : List LaneAcc) : Bool :=
  d.cols.any (fun k => k.2.ops.any (fun p => match p.kind with
    | .atsc _ (some t) => decide (t < ticket) && p.lanes.any (fun a => ls.any (fun b => a.tcol == b.tcol && sliceOf a.va == sliceOf b.va))
    | _ => false))

/-- The meaning of STORE_PERFORMED (R209, R223, R225, R245, R259): one request of a store-class operation or an atomic at its slice, or an STS. -/
def execStorePerformed (col op req : Nat) (s : State) : Host.Outcome State Fault Refusal :=
  match (s.dev.col col).op? op with
  | none => .next s
  | some o => match o.kind with
    | .store | .ustore | .xput | .atom _ _ | .ared _ _ | .cue | .gpatch | .cctl _ => .next (s.storeReq col o req)
    | .sts => .next { s with dev := s.dev.modCol col (fun k => k.spadDone s.dev.now o) }
    | .atsc _ (some t) =>
      if s.dev.ticketBehind t (o.lanes.filter (fun a => a.req == req)) then .next s else .next (s.storeReq col o req)
    | _ => .next s

/-- A stagehand program's completion word has its completion time, and Now() has reached it: CPYS falls (R374). The stop of a warp for the debugger
has not waited for it (R455). -/
def Dev.programGone (d : Dev) (c : Nat) (o : MemOp) : Dev :=
  let d := d.modCol c (fun k => k.delOp o.id)
  if o.entry.isSome then d else d.modWarp c o.slot (fun w => { w with copies := w.copies - 1 })

/-- The host's writes of a column's number whose GWCT Now() has reached are acknowledged (R389). -/
def Dev.hostAcked (d : Dev) (c op : Nat) : Dev :=
  let due (a : HostAck) : Bool := a.col == c && a.op == op && decide (a.at_ ≤ d.now)
  (d.acks.filter due).foldl (fun (d : Dev) a => d.send (.ack a.addr) 2) { d with acks := d.acks.filter (fun a => !due a) }

/-- The meaning of GWCT_RETURN (R221, R245, R251, R389): an operation whose requests all have their completion times leaves, and STORES falls;
for a program's completion word CPYS falls (R374). For a number of a host's write, the host is told. -/
def execGwctReturn (col op : Nat) (s : State) : Host.Outcome State Fault Refusal :=
  match (s.dev.col col).op? op with
  | none => .next { s with dev := s.dev.hostAcked col op }
  | some o =>
    if o.kind.isStore && o.kind != .msg && o.lanes.isEmpty && o.logged == 0 && o.resv.isEmpty then
      .next { s with dev := s.dev.modCol col (fun k => k.storeDone o) }
    else if o.kind == .copy && decide (o.time ≤ s.dev.now) then .next { s with dev := s.dev.programGone col o }
    else .next s

/-- The meaning of LEASE_EXPIRY (R204): a line whose lease has ended leaves the L1. -/
def execLeaseExpiry (col ctx line : Nat) (s : State) : Host.Outcome State Fault Refusal :=
  .next { s with dev := s.dev.modCol col (fun k => k.l1Drop ctx (fun o l => o == line * 128 && !l.usable s.dev.now)) }

/-- The meaning of RELEASE_WAIT_END (R252): the release that a warp waits for has completed. -/
def execReleaseWaitEnd (col slot : Nat) (s : State) : Host.Outcome State Fault Refusal :=
  match (s.dev.warp col slot).wait with
  | .release m =>
    if (s.dev.col col).released slot m s.dev.now then .next { s with dev := s.dev.modWarp col slot (fun w => { w with relDone := true }) }
    else .next s
  | _ => .next s

/-- The meaning of SUBNORMAL_REPLAY_DONE (R147): a replayed instruction's results are written, more than 16 ticks after its issue. -/
def execSubnormalReplayDone (col op : Nat) (s : State) : Host.Outcome State Fault Refusal :=
  match (s.dev.col col).op? op with
  | none => .next s
  | some o =>
    if o.kind = .replay ∧ o.itick + 16 < s.dev.now then .next { s with dev := s.dev.modCol col (fun k => (k.commit o).delOp op) } else .next s

/-- The ATSC requests that wait for a ticket, by column and operation. -/
def Dev.ticketless (d : Dev) : List (Nat × MemOp) :=
  (d.cols.map (fun k => (k.2.ops.filter (fun o => match o.kind with
    | .atsc _ none => true
    | _ => false)).map (fun o => (k.1, o)))).flatten

/-- The meaning of SEQUENCER_TICKET (R23, R261, R392): the house sequencer, once ready, gives the next ticket to a request that has reached
it; which one that is is a free choice. -/
def execSequencerTicket (s : State) : Host.Outcome State Fault Refusal :=
  let d := s.dev
  let l := d.ticketless
  if l.isEmpty || !d.ready.contains .seqr then .next s
  else
    let (w, d) := d.draw
    match l[w.toNat % l.length]? with
    | none => .next s
    | some (c, o) => match o.kind with
      | .atsc aop _ =>
        .next { s with dev := { d.modCol c (fun k => k.setOp { o with kind := .atsc aop (some d.tickets) }) with tickets := d.tickets + 1 } }
      | _ => .next s

/-! ## Barrier phases -/

/-- The warps of a gang, by slot. -/
def Column.gangWarps (k : Column) (gang : Nat) : List (Nat × Warp) := k.warps.filter (fun w => w.2.gang == gang)

/-- Every warp parked on a completed phase of barrier b of a gang wakes (R266). -/
def Column.barWakeAll (k : Column) (gang b : Nat) : Column :=
  let now := (k.bar gang b).phase
  (k.gangWarps gang).foldl (fun k w => match w.2.park with
    | .bar x p => if x = b ∧ p < now then k.barWake w.1 b else k
    | _ => k) k

/-- A warp parked at a full phase arrives in the next one, or is refused there by the barrier trap (R266). -/
def State.barLate (s : State) (c slot b count form : Nat) (m : BitVec 7) : State :=
  let d := s.dev
  let w := d.warp c slot
  let x := (d.col c).bar w.gang b
  if x.full then s
  else match x.refuse b count with
    | some t =>
      let d := d.modWarp c slot (fun w => { w with park := .none })
      let cur : Cur := { col := c, slot := slot, pc := w.pc, paired := false, second := false, priv := w.privMode }
      { s with dev := { d with cur := cur } }.trapEntry t false
    | none =>
      { s with dev := d.modCol c (fun k =>
        let k := k.barArrive slot b count m
        if form = 1 then k.unpark slot false else k.putWarp slot { k.warp slot with park := .bar b x.phase }) }

/-- The warps of a gang parked at a full phase of barrier b, in slot order (R266). -/
def State.barLateAll (s : State) (c gang b : Nat) : State :=
  ((s.dev.col c).gangWarps gang).foldl (fun s w => match w.2.park with
    | .barFull x count form m => if x = b then s.barLate c w.1 b count form m else s
    | _ => s) s

/-- The meaning of BARRIER_PHASE_COMPLETE (R266, R267, R349). -/
def execBarrierPhaseComplete (col gang bar : Nat) (s : State) : Host.Outcome State Fault Refusal :=
  let d := s.dev
  let k := d.col col
  let x := k.bar gang bar
  if x.full && k.trackerClear d.now x.mask (fun t => t.gang == gang) then
    let y : Barrier := { arr := x.engines, exp := 0, phase := x.phase + 1, mask := 0, engines := 0 }
    .next ({ s with dev := d.modCol col (fun k => (k.putBar gang bar y).barWakeAll gang bar) }.barLateAll col gang bar)
  else .next s

/-- The tracker entries of a unit's ended participants meet R267 on every column of the launch (R269). -/
def Dev.unitClear (d : Dev) (x : BardState) : Bool :=
  let r := d.launchRec x.launch
  (d.launchCols x.launch).all (fun c => (d.col c).trackerClear d.now x.mask (fun t =>
    t.launch == x.launch && !t.spawned && r.unitNo (x.unit % 8) t.coords == x.unit))

/-- The warps of a launch on its columns. -/
def Dev.launchWarps (d : Dev) (launch : Nat) : List (Nat × Nat) :=
  ((d.launchCols launch).map (fun c => ((d.col c).warps.filter (fun w => w.2.launch == launch)).map (fun w => (c, w.1)))).flatten

/-- A warp at a channel whose phase has completed wakes, and one parked at the full phase arrives in the next (R266, R269). -/
def Dev.bardNext (d : Dev) (x : BardState) (c slot : Nat) : Dev :=
  let w := d.warp c slot
  match w.park with
  | .bard u ch p => if u = x.unit ∧ ch = x.channel ∧ p < x.phase then d.modCol c (fun k => k.bardWake slot u ch) else d
  | .bardFull u ch form m =>
    if u = x.unit ∧ ch = x.channel ∧ !d.bardFull (d.bard x.launch u ch) then
      (d.bardArrive c slot u ch m).modCol c (fun k =>
        if form = 1 then k.unpark slot false else k.putWarp slot { k.warp slot with park := .bard u ch x.phase })
    else d
  | _ => d

/-- A context's warps stand on their columns: it is resident, and no column has written its image (R88). -/
def Dev.standing (d : Dev) (ctx : Nat) : Bool :=
  let x := d.ctx ctx
  x.state == .resident && (match (d.part x.part).preempt with
    | some q => q.ctx != ctx || q.written.isEmpty
    | none => true)

/-- The meaning of BARD_PHASE_COMPLETE (R269): its participants wake together, so that a phase of a saved context completes after the restore. -/
def execBardPhaseComplete (launch unit channel : Nat) (s : State) : Host.Outcome State Fault Refusal :=
  let d := s.dev
  let x := d.bard launch unit channel
  if d.launches.has launch && d.standing ((d.launches.get? launch).map (fun l => l.ctx) |>.getD 0) && d.bardFull x && d.unitClear x && !x.arrived.isEmpty then
    let y : BardState := { x with phase := x.phase + 1, arrived := [], mask := 0 }
    .next { s with dev := (d.launchWarps launch).foldl (fun d w => d.bardNext y w.1 w.2) (d.putBard y) }
  else .next s

/-! ## The active and the pending set -/

/-- A list of comparisons, the first that decides counting: each says that the first warp stands before the second, or after it. -/
def firstDiff : List (Nat × Nat) → Bool
  | [] => false
  | (x, y) :: r => if x = y then firstDiff r else decide (x < y)

/-- The part of a rank that overdue warps have first: not overdue, and the tick since which (R83, R87). -/
def Warp.late (w : Warp) : Nat × Nat :=
  match w.overdueAt with
  | some t => (0, t)
  | none => (1, 0)

/-- A warp ranks before another of the pending set (R83). -/
def pendingBefore (a b : Nat × Warp) : Bool :=
  firstDiff [(a.2.late.1, b.2.late.1), (a.2.late.2, b.2.late.2), (b.2.prio, a.2.prio), (a.2.entered, b.2.entered), (a.1, b.1)]

/-- The tick that an active warp's rank counts from (R83). -/
def Warp.since (w : Warp) : Nat := max w.lastIssue w.entered

/-- A warp ranks before another of the active set (R83, R108): one that asked for it by YLD stands below the others of its priority. -/
def activeBefore (a b : Nat × Warp) : Bool :=
  firstDiff [(a.2.late.1, b.2.late.1), (a.2.late.2, b.2.late.2), (b.2.prio, a.2.prio), (a.2.yld.toNat, b.2.yld.toNat),
    (a.2.since, b.2.since), (a.1, b.1)]

/-- The first of a list in an order. -/
def firstOf (le : (Nat × Warp) → (Nat × Warp) → Bool) : List (Nat × Warp) → Option (Nat × Warp)
  | [] => none
  | x :: xs => match firstOf le xs with
    | none => some x
    | some y => if le x y then some x else some y

/-- The highest-ranked ready warp of the pending set (R83, R86). -/
def Dev.candidate (d : Dev) (c : Nat) : Option (Nat × Warp) := firstOf pendingBefore ((d.col c).warps.filter (d.pendingOk c))

/-- The lowest-ranked warp of the active set that is not overdue (R87). -/
def Column.lowest (k : Column) : Option (Nat × Warp) :=
  firstOf (fun a b => activeBefore b a) (k.warps.filter (fun w => w.2.active && w.2.overdueAt.isNone))

/-- A warp enters the active set. -/
def Column.activate (k : Column) (s now : Nat) : Column :=
  { k.putWarp s { k.warp s with active := true, wait := .none, entered := now, enteredOpp := k.opps } with lastEnter := some now }

/-- One warp of a column enters the active set in a tick (R86, R87): the highest-ranked ready pending one, where there is room, or, where it is
overdue, in the place of the lowest-ranked active warp that is not. -/
def Dev.enterOne (d : Dev) (c : Nat) : Dev :=
  let k := d.col c
  if k.lastEnter = some d.now then d
  else
    match d.candidate c with
    | none => d
    | some (slot, w) =>
      if (k.warps.filter (fun x => x.2.active)).length < 8 then d.modCol c (fun k => k.activate slot d.now)
      else if w.overdueAt.isSome then
        match k.lowest with
        | some (t, _) =>
          d.modCol c (fun k => (k.putWarp t { k.warp t with active := false, entered := d.now }).activate slot d.now)
        | none => d
      else d

/-- The meaning of WARP_ENTER_ACTIVE (R86, R87): a warp enters between two opportunities. -/
def execWarpEnterActive (col : Nat) (s : State) : Host.Outcome State Fault Refusal := .next { s with dev := s.dev.enterOne col }

/-- A warp that has been ready and not issued at 320 opportunities is overdue until it issues (R87). -/
def Warp.overdue (w : Warp) (now : Nat) : Warp :=
  if 320 ≤ w.overdueCount ∧ w.overdueAt = none then { w with overdueAt := some now } else w

/-- The meaning of WARP_OVERDUE (R87); an opportunity that brings the count to 320 has made the warp overdue already. -/
def execWarpOverdue (col slot : Nat) (s : State) : Host.Outcome State Fault Refusal :=
  if (s.dev.col col).warps.has slot then .next { s with dev := s.dev.modWarp col slot (fun w => w.overdue s.dev.now) } else .next s

end Sys2Proof.Machine
end

