-- ==== Sys2Proof/Machine/Dispatch.lean ====
section
/-! DEFINITION. What each instruction, command and event does: one arm per constructor, each a call of its meaning. -/

namespace Sys2Proof.Machine

def exec (i : Instr) (s : State) : Host.Outcome State Fault Refusal :=
  match i with
  | .nop f => Sys2Proof.Machine.execNop f s
  | .bra f => Sys2Proof.Machine.execBra f s
  | .brx f => Sys2Proof.Machine.execBrx f s
  | .call f => Sys2Proof.Machine.execCall f s
  | .ret f => Sys2Proof.Machine.execRet f s
  | .loop f => Sys2Proof.Machine.execLoop f s
  | .join f => Sys2Proof.Machine.execJoin f s
  | .exit f => Sys2Proof.Machine.execExit f s
  | .tail f => Sys2Proof.Machine.execTail f s
  | .spawn f => Sys2Proof.Machine.execSpawn f s
  | .yield f => Sys2Proof.Machine.execYield f s
  | .wait f => Sys2Proof.Machine.execWait f s
  | .trap f => Sys2Proof.Machine.execTrap f s
  | .svc f => Sys2Proof.Machine.execSvc f s
  | .brk f => Sys2Proof.Machine.execBrk f s
  | .iadd f => Sys2Proof.Machine.execIadd f s
  | .isub f => Sys2Proof.Machine.execIsub f s
  | .imul f => Sys2Proof.Machine.execImul f s
  | .imulh f => Sys2Proof.Machine.execImulh f s
  | .imad f => Sys2Proof.Machine.execImad f s
  | .imin f => Sys2Proof.Machine.execImin f s
  | .imax f => Sys2Proof.Machine.execImax f s
  | .iabs f => Sys2Proof.Machine.execIabs f s
  | .idot4 f => Sys2Proof.Machine.execIdot4 f s
  | .icmp f => Sys2Proof.Machine.execIcmp f s
  | .sel f => Sys2Proof.Machine.execSel f s
  | .mov f => Sys2Proof.Machine.execMov f s
  | .movs f => Sys2Proof.Machine.execMovs f s
  | .plop f => Sys2Proof.Machine.execPlop f s
  | .and f => Sys2Proof.Machine.execAnd f s
  | .or f => Sys2Proof.Machine.execOr f s
  | .xor f => Sys2Proof.Machine.execXor f s
  | .andn f => Sys2Proof.Machine.execAndn f s
  | .shl f => Sys2Proof.Machine.execShl f s
  | .shr f => Sys2Proof.Machine.execShr f s
  | .sar f => Sys2Proof.Machine.execSar f s
  | .rot f => Sys2Proof.Machine.execRot f s
  | .popc f => Sys2Proof.Machine.execPopc f s
  | .clz f => Sys2Proof.Machine.execClz f s
  | .brev f => Sys2Proof.Machine.execBrev f s
  | .bfx f => Sys2Proof.Machine.execBfx f s
  | .bfi f => Sys2Proof.Machine.execBfi f s
  | .bswz f => Sys2Proof.Machine.execBswz f s
  | .tern f => Sys2Proof.Machine.execTern f s
  | .lea f => Sys2Proof.Machine.execLea f s
  | .cadr f => Sys2Proof.Machine.execCadr f s
  | .cget f => Sys2Proof.Machine.execCget f s
  | .tidx f => Sys2Proof.Machine.execTidx f s
  | .fadd f => Sys2Proof.Machine.execFadd f s
  | .fsub f => Sys2Proof.Machine.execFsub f s
  | .fmul f => Sys2Proof.Machine.execFmul f s
  | .ffma f => Sys2Proof.Machine.execFfma f s
  | .fmin f => Sys2Proof.Machine.execFmin f s
  | .fmax f => Sys2Proof.Machine.execFmax f s
  | .fcmp f => Sys2Proof.Machine.execFcmp f s
  | .fclass f => Sys2Proof.Machine.execFclass f s
  | .fdot2 f => Sys2Proof.Machine.execFdot2 f s
  | .fdiv f => Sys2Proof.Machine.execFdiv f s
  | .fsqrt f => Sys2Proof.Machine.execFsqrt f s
  | .frcp f => Sys2Proof.Machine.execFrcp f s
  | .frsq f => Sys2Proof.Machine.execFrsq f s
  | .fex2 f => Sys2Proof.Machine.execFex2 f s
  | .flg2 f => Sys2Proof.Machine.execFlg2 f s
  | .fsin f => Sys2Proof.Machine.execFsin f s
  | .fcos f => Sys2Proof.Machine.execFcos f s
  | .ftanh f => Sys2Proof.Machine.execFtanh f s
  | .cvt f => Sys2Proof.Machine.execCvt f s
  | .cvtb f => Sys2Proof.Machine.execCvtb f s
  | .qnt f => Sys2Proof.Machine.execQnt f s
  | .dqnt f => Sys2Proof.Machine.execDqnt f s
  | .pack f => Sys2Proof.Machine.execPack f s
  | .unpk f => Sys2Proof.Machine.execUnpk f s
  | .retag f => Sys2Proof.Machine.execRetag f s
  | .setpart f => Sys2Proof.Machine.execSetpart f s
  | .lget f => Sys2Proof.Machine.execLget f s
  | .lput f => Sys2Proof.Machine.execLput f s
  | .bfly f => Sys2Proof.Machine.execBfly f s
  | .poll f => Sys2Proof.Machine.execPoll f s
  | .match_ f => Sys2Proof.Machine.execMatch f s
  | .redc f => Sys2Proof.Machine.execRedc f s
  | .scan f => Sys2Proof.Machine.execScan f s
  | .elect f => Sys2Proof.Machine.execElect f s
  | .ixset f => Sys2Proof.Machine.execIxset f s
  | .ixld f => Sys2Proof.Machine.execIxld f s
  | .ixmov f => Sys2Proof.Machine.execIxmov f s
  | .ixadv f => Sys2Proof.Machine.execIxadv f s
  | .ld f => Sys2Proof.Machine.execLd f s
  | .ldu f => Sys2Proof.Machine.execLdu f s
  | .ldt f => Sys2Proof.Machine.execLdt f s
  | .st f => Sys2Proof.Machine.execSt f s
  | .stu f => Sys2Proof.Machine.execStu f s
  | .lds f => Sys2Proof.Machine.execLds f s
  | .sts f => Sys2Proof.Machine.execSts f s
  | .pref f => Sys2Proof.Machine.execPref f s
  | .cctlClean f => Sys2Proof.Machine.execCctlClean f s
  | .cctlFlush f => Sys2Proof.Machine.execCctlFlush f s
  | .cctlPin f => Sys2Proof.Machine.execCctlPin f s
  | .cctlUnpin f => Sys2Proof.Machine.execCctlUnpin f s
  | .cctlDrop f => Sys2Proof.Machine.execCctlDrop f s
  | .cctlDropall f => Sys2Proof.Machine.execCctlDropall f s
  | .atom f => Sys2Proof.Machine.execAtom f s
  | .ared f => Sys2Proof.Machine.execAred f s
  | .atsc f => Sys2Proof.Machine.execAtsc f s
  | .fence f => Sys2Proof.Machine.execFence f s
  | .bar f => Sys2Proof.Machine.execBar f s
  | .bard f => Sys2Proof.Machine.execBard f s
  | .ofence f => Sys2Proof.Machine.execOfence f s
  | .nmatom f => Sys2Proof.Machine.execNmatom f s
  | .nmfence f => Sys2Proof.Machine.execNmfence f s
  | .xch f => Sys2Proof.Machine.execXch f s
  | .xget f => Sys2Proof.Machine.execXget f s
  | .xput f => Sys2Proof.Machine.execXput f s
  | .msg f => Sys2Proof.Machine.execMsg f s
  | .rwait f => Sys2Proof.Machine.execRwait f s
  | .radv f => Sys2Proof.Machine.execRadv f s
  | .rbind f => Sys2Proof.Machine.execRbind f s
  | .watch f => Sys2Proof.Machine.execWatch f s
  | .mldb f => Sys2Proof.Machine.execMldb f s
  | .mma f => Sys2Proof.Machine.execMma f s
  | .mmab f => Sys2Proof.Machine.execMmab f s
  | .mmas f => Sys2Proof.Machine.execMmas f s
  | .mclr f => Sys2Proof.Machine.execMclr f s
  | .mdrain f => Sys2Proof.Machine.execMdrain f s
  | .pjadj f => Sys2Proof.Machine.execPjadj f s
  | .mlda f => Sys2Proof.Machine.execMlda f s
  | .cpy f => Sys2Proof.Machine.execCpy f s
  | .glaunch f => Sys2Proof.Machine.execGlaunch f s
  | .gpatch f => Sys2Proof.Machine.execGpatch f s
  | .cue f => Sys2Proof.Machine.execCue f s
  | .nmrun f => Sys2Proof.Machine.execNmrun f s
  | .sread f => Sys2Proof.Machine.execSread f s
  | .swrite f => Sys2Proof.Machine.execSwrite f s
  | .swriteRng f => Sys2Proof.Machine.execSwriteRng f s
  | .swriteLease f => Sys2Proof.Machine.execSwriteLease f s
  | .eret f => Sys2Proof.Machine.execEret f s
  | .tlbi f => Sys2Proof.Machine.execTlbi f s
  | .ctxswReset f => Sys2Proof.Machine.execCtxswReset f s
  | .ctxswSave f => Sys2Proof.Machine.execCtxswSave f s
  | .testReq f => Sys2Proof.Machine.execTestReq f s
  | .testRes f => Sys2Proof.Machine.execTestRes f s
  | .testInj f => Sys2Proof.Machine.execTestInj f s
  | .hadd f => Sys2Proof.Machine.execHadd f s
  | .hsub f => Sys2Proof.Machine.execHsub f s
  | .hmul f => Sys2Proof.Machine.execHmul f s
  | .hlogic f => Sys2Proof.Machine.execHlogic f s
  | .hshift f => Sys2Proof.Machine.execHshift f s
  | .hli f => Sys2Proof.Machine.execHli f s
  | .hclk f => Sys2Proof.Machine.execHclk f s
  | .hbr f => Sys2Proof.Machine.execHbr f s
  | .hloop f => Sys2Proof.Machine.execHloop f s
  | .vld f => Sys2Proof.Machine.execVld f s
  | .vst f => Sys2Proof.Machine.execVst f s
  | .qadd f => Sys2Proof.Machine.execQadd f s
  | .qsub f => Sys2Proof.Machine.execQsub f s
  | .qmul f => Sys2Proof.Machine.execQmul f s
  | .qfma f => Sys2Proof.Machine.execQfma f s
  | .qmuls f => Sys2Proof.Machine.execQmuls f s
  | .qminmax f => Sys2Proof.Machine.execQminmax f s
  | .qrsq f => Sys2Proof.Machine.execQrsq f s
  | .qbc f => Sys2Proof.Machine.execQbc f s
  | .qsum f => Sys2Proof.Machine.execQsum f s
  | .qinsQext f => Sys2Proof.Machine.execQinsQext f s
  | .ropen f => Sys2Proof.Machine.execRopen f s
  | .racc f => Sys2Proof.Machine.execRacc f s
  | .rwr f => Sys2Proof.Machine.execRwr f s
  | .rclr f => Sys2Proof.Machine.execRclr f s
  | .claim f => Sys2Proof.Machine.execClaim f s
  | .unclm f => Sys2Proof.Machine.execUnclm f s
  | .signal f => Sys2Proof.Machine.execSignal f s
  | .cuew f => Sys2Proof.Machine.execCuew f s
  | .aqsvc f => Sys2Proof.Machine.execAqsvc f s
  | .end_ f => Sys2Proof.Machine.execEnd f s
  | .launch p => Sys2Proof.Machine.execLaunch p s
  | .graph p => Sys2Proof.Machine.execGraph p s
  | .preempt p => Sys2Proof.Machine.execPreempt p s
  | .resume p => Sys2Proof.Machine.execResume p s
  | .reset p => Sys2Proof.Machine.execReset p s
  | .mark p => Sys2Proof.Machine.execMark p s
  | .drop p => Sys2Proof.Machine.execDrop p s
  | .unassignedOpc r => Sys2Proof.Machine.execUnassignedOpc r s
  | .pcreate => Sys2Proof.Machine.execPcreate s
  | .premove => Sys2Proof.Machine.execPremove s
  | .grant => Sys2Proof.Machine.execGrant s
  | .attest => Sys2Proof.Machine.execAttest s
  | .cmdTailDoorbell r entries tail => Sys2Proof.Machine.execCmdTailDoorbell r entries tail s
  | .cplHeadAdvance r head => Sys2Proof.Machine.execCplHeadAdvance r head s
  | .placementGroupStart p => Sys2Proof.Machine.execPlacementGroupStart p s
  | .warpEnterActive col => Sys2Proof.Machine.execWarpEnterActive col s
  | .warpOverdue col slot => Sys2Proof.Machine.execWarpOverdue col slot s
  | .loadDataReturn col op req => Sys2Proof.Machine.execLoadDataReturn col op req s
  | .storePerformed col op req => Sys2Proof.Machine.execStorePerformed col op req s
  | .gwctReturn col op => Sys2Proof.Machine.execGwctReturn col op s
  | .leaseExpiry col ctx line => Sys2Proof.Machine.execLeaseExpiry col ctx line s
  | .releaseWaitEnd col slot => Sys2Proof.Machine.execReleaseWaitEnd col slot s
  | .subnormalReplayDone col op => Sys2Proof.Machine.execSubnormalReplayDone col op s
  | .sequencerTicket => Sys2Proof.Machine.execSequencerTicket s
  | .retirementTrackerFree col entry => Sys2Proof.Machine.execRetirementTrackerFree col entry s
  | .launchEndOnColumn col launch => Sys2Proof.Machine.execLaunchEndOnColumn col launch s
  | .barrierPhaseComplete col gang bar => Sys2Proof.Machine.execBarrierPhaseComplete col gang bar s
  | .bardPhaseComplete launch unit channel => Sys2Proof.Machine.execBardPhaseComplete launch unit channel s
  | .xchSendArrival col slot => Sys2Proof.Machine.execXchSendArrival col slot s
  | .msgDelivery col entry => Sys2Proof.Machine.execMsgDelivery col entry s
  | .msgCompletionReturn col op => Sys2Proof.Machine.execMsgCompletionReturn col op s
  | .ringChangeReport col dst ring => Sys2Proof.Machine.execRingChangeReport col dst ring s
  | .rwaitWake col slot => Sys2Proof.Machine.execRwaitWake col slot s
  | .rwaitTimeout col slot => Sys2Proof.Machine.execRwaitTimeout col slot s
  | .watchWake col slot => Sys2Proof.Machine.execWatchWake col slot s
  | .watchTimeout col slot => Sys2Proof.Machine.execWatchTimeout col slot s
  | .tileOpStart col queue => Sys2Proof.Machine.execTileOpStart col queue s
  | .tileOpComplete col queue => Sys2Proof.Machine.execTileOpComplete col queue s
  | .copyStart col op => Sys2Proof.Machine.execCopyStart col op s
  | .copyComplete col op => Sys2Proof.Machine.execCopyComplete col op s
  | .graphReplayStart die => Sys2Proof.Machine.execGraphReplayStart die s
  | .graphNodeStart die replay node => Sys2Proof.Machine.execGraphNodeStart die replay node s
  | .graphNodeFinish die replay node => Sys2Proof.Machine.execGraphNodeFinish die replay node s
  | .cueWaitPoll die replay node => Sys2Proof.Machine.execCueWaitPoll die replay node s
  | .stagehandProgramStart col => Sys2Proof.Machine.execStagehandProgramStart col s
  | .claimComplete col => Sys2Proof.Machine.execClaimComplete col s
  | .cuewWake col => Sys2Proof.Machine.execCuewWake col s
  | .atomicQueueServe col => Sys2Proof.Machine.execAtomicQueueServe col s
  | .bankWindow col bank => Sys2Proof.Machine.execBankWindow col bank s
  | .tableWalkComplete col ctx off write priv => Sys2Proof.Machine.execTableWalkComplete col ctx off write priv s
  | .wingStageFaultArrival col ctx gran => Sys2Proof.Machine.execWingStageFaultArrival col ctx gran s
  | .faultRecordSend p ctx gran => Sys2Proof.Machine.execFaultRecordSend p ctx gran s
  | .faultResolution p rseq col v => Sys2Proof.Machine.execFaultResolution p rseq col v s
  | .deferredTrap col slot => Sys2Proof.Machine.execDeferredTrap col slot s
  | .migration p ctx page frame => Sys2Proof.Machine.execMigration p ctx page frame s
  | .fetchLineArrival col slot => Sys2Proof.Machine.execFetchLineArrival col slot s
  | .haltTick p => Sys2Proof.Machine.execHaltTick p s
  | .imageWriteDone p col => Sys2Proof.Machine.execImageWriteDone p col s
  | .hold p => Sys2Proof.Machine.execHold p s
  | .holdRelease p => Sys2Proof.Machine.execHoldRelease p s
  | .rehearsalStart col => Sys2Proof.Machine.execRehearsalStart col s
  | .rehearsalEnd col unit block => Sys2Proof.Machine.execRehearsalEnd col unit block s
  | .columnRetirement col understudy readable => Sys2Proof.Machine.execColumnRetirement col understudy readable s
  | .powerOn step => Sys2Proof.Machine.execPowerOn step s
  | .portTrained port margins => Sys2Proof.Machine.execPortTrained port margins s
  | .flitReceive port wire => Sys2Proof.Machine.execFlitReceive port wire s
  | .retryRequestReceive port ack => Sys2Proof.Machine.execRetryRequestReceive port ack s
  | .portRetrain port margins => Sys2Proof.Machine.execPortRetrain port margins s
  | .hostMemoryRead port addr len => Sys2Proof.Machine.execHostMemoryRead port addr len s
  | .hostMemoryWrite port addr bytes => Sys2Proof.Machine.execHostMemoryWrite port addr bytes s
  | .powerLimitState power junction => Sys2Proof.Machine.execPowerLimitState power junction s
  | .clockGateIdle col => Sys2Proof.Machine.execClockGateIdle col s
  | .thermalHoldEntry junction inlet => Sys2Proof.Machine.execThermalHoldEntry junction inlet s
  | .thermalHoldExit junction inlet => Sys2Proof.Machine.execThermalHoldExit junction inlet s
  | .twimorIdentityRead => Sys2Proof.Machine.execTwimorIdentityRead s
  | .twimorSensorRead => Sys2Proof.Machine.execTwimorSensorRead s
  | .twimorErrorRecordRead die => Sys2Proof.Machine.execTwimorErrorRecordRead die s
  | .twimorImageWrite part die bytes => Sys2Proof.Machine.execTwimorImageWrite part die bytes s
  | .twimorModuleReset => Sys2Proof.Machine.execTwimorModuleReset s
  | .functionFailure f => Sys2Proof.Machine.execFunctionFailure f s
  | .debuggerResume col slot after => Sys2Proof.Machine.execDebuggerResume col slot after s
  | .debuggerAttach on => Sys2Proof.Machine.execDebuggerAttach on s

end Sys2Proof.Machine
end

