-- ==== Sys2Proof/Machine/Pairing.lean ====
section
/-! DEFINITION. The rules of a paired issue word (R122, R123, R186): the registers and predicates that each instruction reads and
writes, and the conditions under which two may issue together. -/

namespace Sys2Proof

/-- The majors that may pair (R122). -/
def pairMajor (m : Nat) : Bool :=
  (decide (0x10 ≤ m) && decide (m ≤ 0x33)) || (decide (0x40 ≤ m) && decide (m ≤ 0x4C)) ||
    (decide (0x50 ≤ m) && decide (m ≤ 0x56)) || (decide (0x60 ≤ m) && decide (m ≤ 0x66))

/-- The long class (R122). -/
def longMajor (m : Nat) : Bool := m == 0x4B || m == 0x4C || (decide (0x50 ≤ m) && decide (m ≤ 0x56))

/-- Registers r to r + n − 1. -/
def regRun (r n : Nat) : List Nat := (List.range n).map (fun i => r + i)

/-- How many registers a range operand of an instruction spans (R152, R168, R172, R173). -/
def rangeSpan (i : Instr) (f : VFields) : Nat :=
  match i with
  | .movs _ => f.subBits 2 0 + 1
  | _ => 2

/-- The source registers that an operand field names (R122); immediates and special sources are none. -/
def FieldUse.regs (k : FieldUse) (span : Nat) (o : Operand) : List Nat :=
  match k with
  | .src | .direct => if o.ind || o.isSpecial then [] else [o.reg.toNat]
  | .range => if o.ind || o.isSpecial then [] else regRun o.reg.toNat span
  | _ => []

/-- The instruction reads the prior value of its destination: a three-source VI form (R152), a CVT that keeps elements (R180), and
QNT (R183). -/
def readsOld (i : Instr) (f : VFields) (r : VRule) : Bool :=
  (r.vi && f.vi && r.c == .src) ||
    (match i with
      | .cvt _ => decide (elems (f.bc.extractLsb' 16 5) < elems f.h.ty)
      | .qnt _ => true
      | _ => false)

/-- The source registers of an instruction, each once (R122). -/
def pairSources (i : Instr) (f : VFields) (r : VRule) : List Nat :=
  (((r.fields f).map (fun x => x.1.regs (rangeSpan i f) x.2)).flatten ++
    (if readsOld i f r then [dstReg f.d] else [])).eraseDups

/-- The registers an instruction writes (R122, R186). -/
def pairDests (i : Instr) (f : VFields) (r : VRule) : List Nat :=
  match r.d with
  | .src | .direct => [dstReg f.d]
  | .range => regRun (dstReg f.d) (rangeSpan i f)
  | _ => []

/-- The predicates an instruction reads, its guard among them (R104, R168, R169). -/
def pairPredSources (i : Instr) (f : VFields) (r : VRule) : List Nat :=
  f.h.gp.toNat ::
    (((r.fields f).filter (fun x => x.1 == .pred)).map (fun x => x.2.bits.toNat % 8) ++
      (match i with
        | .sel _ => [f.subBits 2 0]
        | .plop _ => [f.c.bits.toNat % 8]
        | _ => []))

/-- The predicates an instruction writes. -/
def pairPredDests (f : VFields) (r : VRule) : List Nat := if r.d == .dpred then [f.d.toNat % 8] else []

/-- An operand or the destination is indirect (R122). -/
def hasIndirect (f : VFields) (r : VRule) : Bool :=
  ((r.fields f).any (fun x => x.1 != .free && x.2.ind)) || (r.d != .zero && f.d.getLsbD 8)

/-- CVTB's sources exceed the limit in every form (R186). -/
def isCvtb : Instr → Bool
  | .cvtb _ => true
  | _ => false

/-- Two lists have no member in common. -/
def disjoint (xs ys : List Nat) : Bool := xs.all (fun x => !ys.contains x)

/-- An issue word of two instructions is legal (R122). -/
def pairOk (i j : Instr) : Bool :=
  match i.major, j.major, vRule i, vRule j with
  | some mi, some mj, some (f, r), some (g, q) =>
    let si := pairSources i f r
    let sj := pairSources j g q
    let src := (si ++ sj).eraseDups
    let di := pairDests i f r
    let dj := pairDests j g q
    let pi := pairPredSources i f r
    let pj := pairPredSources j g q
    let qi := pairPredDests f r
    let qj := pairPredDests g q
    pairMajor mi.toNat && pairMajor mj.toNat && !hasIndirect f r && !hasIndirect g q &&
      !(longMajor mi.toNat && longMajor mj.toNat) && !(f.h.u && g.h.u) && !isCvtb i && !isCvtb j &&
      (List.range 4).all (fun b => decide ((src.filter (fun x => x % 4 == b)).length ≤ 2)) && decide (src.length ≤ 4) &&
      disjoint di sj && disjoint dj si && disjoint qi pj && disjoint qj pi && disjoint di dj && disjoint qi qj
  | _, _, _, _ => false

end Sys2Proof
end

