-- ==== Sys2Proof/Machine/Schedule.lean ====
section
/-! DEFINITION. How an instruction comes to issue: the fetch of a warp's word and its checks in the order of R124, single words and pairs
(R97-R101, R122, R123, R401, R417), deferred traps (R400), the choice of a warp at an issue opportunity (R73, R83-R87, R108), and
the stagehand's fetch (R366). Which column, stagehand or event has its turn next is the environment's schedule, held in the state
(log 6). -/

namespace Sys2Proof.Machine

/-- The state that an outcome leaves; no meaning of this model stops. -/
def nextOr (s : State) : Host.Outcome State Fault Refusal → State
  | .next t => t
  | _ => s

/-! ## One word -/

/-- The issuing state of a warp's slot: the PC of its next word, alone, under the warp's privilege (R401). The filter entries that wait for the warp's
access do not hold it (R425). -/
def State.issuing (s : State) (c slot : Nat) : State :=
  let w := s.dev.warp c slot
  { s with dev := { s.dev.modCol c (fun k => k.liftFor (.warp slot)) with cur := { col := c, slot := slot, pc := w.pc, paired := false, second := false, priv := w.privMode } } }

/-- The place of the issuing instruction in its word. -/
def State.place (s : State) (paired second : Bool) : State :=
  { s with dev := { s.dev with cur := { s.dev.cur with paired := paired, second := second } } }

/-- The trap of a word that is no instruction (R124, R407); an SREAD or SWRITE without an assigned register gives the register's number. -/
def decodeTrap (e : DecodeErr) (w : Insn) : TrapInfo :=
  match e with
  | .opcode => { cause := 0x01 }
  | .sub =>
    let op := (w.extractLsb' 88 8).toNat
    { cause := 0x02, einfo := if op = 0xE0 ∨ op = 0xE1 then (w.extractLsb' 60 12).setWidth 64 else 0 }
  | .reserved => { cause := 0x03 }
  | .combination => { cause := 0x04 }

/-- A word of one instruction: decoded and run, or its decoding's trap. -/
def State.runOne (s : State) (w : Insn) : State :=
  match decode w with
  | .ok i => nextOr s (exec i s)
  | .error e => s.trapEntry (decodeTrap e w) false

/-- An error that stands before the pairing check (R124). -/
def isEarly (e : DecodeErr) : Bool := decide (e.step < 7)

/-- The second instruction of a pair decoded and run. -/
def State.runSecond (s : State) (w : Insn) : State := (s.place true true).runOne w

/-- A word of two instructions (R122-R124): steps 4 to 6 of the first, then of the second, the pairing, then steps 8 to 10 of the first, then of
the second. Where one traps or is held the word has no effect. The second of two conversions with .sr draws after the first: R122
does not exclude the pair, and no rule says whether it sees that step of the generators (DESIGN CHOICE, log 108). -/
def State.runPair (s : State) (v w : Insn) : State :=
  let s := s.place true false
  match (staticErr v).filter isEarly, (staticErr w).filter isEarly with
  | some e, _ => s.trapEntry (decodeTrap e v) false
  | none, some e => (s.place true true).trapEntry (decodeTrap e w) false
  | none, none =>
    match candidate v, candidate w with
    | some i, some j =>
      if !pairOk i j then s.trapEntry { cause := 0x05 } false
      else
        let a := s.runOne v
        if a.dev.issued != .retired then a
        else
          let b := s.runSecond w
          if b.dev.issued != .retired then b else a.runSecond w
    | _, _ => s

/-- The instruction of slot j of a line run, with its neighbour where the line joins them (R97, R100). -/
def State.runLine (s : State) (b : BitVec 512) (j : Nat) : State :=
  if lineBad b then (s.place (linePair b j) false).trapEntry { cause := 0x03 } false
  else if linePair b j then s.runPair (lineInsn b j) (lineInsn b (j + 1))
  else s.runOne (lineInsn b j)

/-- The privilege of a fetched page, in the word and in the warp (R401, R405). -/
def State.setPriv (s : State) (sys : Bool) : State :=
  { s with dev := { s.dev with cur := { s.dev.cur with priv := sys } }.modCurWarp (fun w => { w with privMode := sys }) }

/-- The fetched word of the issuing warp: fetch privilege, parity, then the word; or, where the warp is ready in an unprivileged page with a
deferred report, its deferred trap instead (R400, R417, R420). -/
def State.runFetched (s : State) (x : Fetched) : State :=
  let w := s.dev.curWarp
  if x.sys && !w.privMode then s.trapEntry { cause := 0x09, einfo := w.pc.setWidth 64 } false
  else
    let s := s.setPriv x.sys
    let t := match x.line with
      | none => s.trapEntry { cause := 0x07, einfo := (pcStart w.pc).setWidth 64 } false
      | some b => s.runLine b (pcSlot w.pc)
    match w.deferred with
    | [] => t
    | r :: _ => if x.sys || w.atRelease || t.dev.issued == .held then t else s.takeDeferred s.dev.cur.col s.dev.cur.slot r

/-- A warp's next word tried: it issues, traps, or is held (R73, R98, R101). -/
def State.tryIssue (s : State) (c slot : Nat) : State :=
  let s := s.issuing c slot
  let w := s.dev.curWarp
  if !pcInRange w.pc then s.trapEntry { cause := 0x08, einfo := w.pc.setWidth 64 } false
  else
    match s.fetchLine c w.ctx (pcLine w.pc) with
    | (.error f, d) => { s with dev := (d.holdFault .fetch [(f, granOf (pcLine w.pc))]).held }
    | (.ok x, d) => { s with dev := d }.runFetched x

/-! ## An issue opportunity -/

/-- A warp of the active set that the column may look at: not parked or stopped, not in a STALL, and past the first opportunity after it
entered (R73, R86, R108); `opp` is the number of the opportunity. -/
def Dev.mayTry (now opp : Nat) (w : Warp) : Bool :=
  w.active && w.park == .none && !w.stopped && decide (w.stallUntil ≤ now) && decide (w.enteredOpp + 2 ≤ opp)

/-- Warps put in the order of their ranks. -/
def rankInsert (x : Nat × Warp) : List (Nat × Warp) → List (Nat × Warp)
  | [] => [x]
  | y :: ys => if activeBefore x y then x :: y :: ys else y :: rankInsert x ys

/-- The warps that a column may look at, the highest-ranked first (R83). -/
def Dev.ranked (d : Dev) (c : Nat) : List Nat :=
  (((d.col c).warps.filter (fun x => Dev.mayTry d.now (d.col c).opps x.2)).foldr rankInsert []).map Prod.fst

/-- The first warp of a list whose word is not held (R84), with the warps after it. -/
def State.tryWarps (s : State) (c : Nat) : List Nat → State × State × Option (Nat × List Nat)
  | [] => (s, s, none)
  | x :: xs =>
    let t := s.tryIssue c x
    if t.dev.issued == .held then State.tryWarps { t with dev := t.dev.modCol c (fun k => k.unlift (.warp x)) } c xs else (s, t, some (x, xs))

/-- What the trial of a word that is held leaves: its warp's waits and reports (R85); nothing issues, and a pending warp keeps its place. -/
def State.met (s t : State) (c slot : Nat) : State :=
  let w := s.dev.warp c slot
  let d := { t.dev.modCol c (fun k => k.unlift (.warp slot)) with cur := s.dev.cur, issued := s.dev.issued }
  { t with dev := if w.active then d else d.modWarp c slot (fun v => { v with entered := w.entered }) }

/-- The words of several warps tried: what the held ones leave, and the warps that are ready (R73, R85). -/
def State.lookAt (s : State) (c : Nat) : List Nat → State × List Nat
  | [] => (s, [])
  | x :: xs =>
    let t := s.tryIssue c x
    if t.dev.issued == .held then State.lookAt (s.met t c x) c xs
    else
      let (u, r) := State.lookAt s c xs
      (u, x :: r)

/-- The counts of R87 after an opportunity, with the warps that become overdue, and the tick of the last issue (R83). -/
def Column.counted (k : Column) (now : Nat) (who : Option Nat) (over_ : List Nat) : Column :=
  { k with
    lastIssue := if who.isSome then some now else k.lastIssue,
    warps := k.warps.mapVals (fun x w =>
      if who = some x then { w with lastIssue := now, overdueCount := 0, overdueAt := none }
      else if over_.contains x then Warp.overdue { w with overdueCount := w.overdueCount + 1 } now else w) }

/-- One tick passes. -/
def Dev.tick (d : Dev) (n : Nat) : Dev := { d with now := d.now + n }

/-- The tick of a column's next opportunity: each column issues at most one word per tick. -/
def Dev.fresh (d : Dev) (c : Nat) : Dev := if (d.col c).lastIssue = some d.now then d.tick 1 else d

/-- The column issues at this tick: not halted, not rehearsed, and within the issue rate (R73, R398). -/
def Dev.opens (d : Dev) (c : Nat) : Bool := !(d.col c).halted && !(d.col c).rehearsing && decide (d.now % 8 < d.rate)

/-- The pending warps whose words a column tries at an opportunity: their dependences have resolved (R85, R86). -/
def Dev.pendingTried (d : Dev) (c : Nat) : List Nat :=
  ((d.col c).warps.filter (fun x => !x.2.active && d.waitOver c x.1 && decide (x.2.stallUntil ≤ d.now))).map Prod.fst

/-- An opportunity begins: it is counted, and the pending warps that are ready are found (R73). -/
def State.openTurn (s : State) (c : Nat) : State :=
  let d := s.dev.modCol c (fun k => { k with opps := k.opps + 1, readied := [] })
  let (s, r) := { s with dev := d }.lookAt c (d.pendingTried c)
  { s with dev := s.dev.modCol c (fun k => { k with readied := r }) }

/-- YLD counts at one opportunity (R108). -/
def Column.clearYld (k : Column) : Column := { k with warps := k.warps.mapVals (fun _ w => { w with yld := false }) }

/-- A warp has issued: an access of its that a fault held has run again (R425). -/
def State.issuedBy (s : State) (c : Nat) (who : Option Nat) : State :=
  match who with
  | some x => { s with dev := (s.dev.modCol c (fun k => k.unlift (.warp x))).ranAgain c (.warp x) }
  | none => s

/-- The end of an opportunity, `who` having issued and `over_` having been ready (R87): the warps `rest` ranked after the issuing one that are not ready
meet their waits (R85), the counts are made, and a warp enters the active set (R86). With no issue the tick passes. -/
def State.issueDone (s : State) (c : Nat) (who : Option Nat) (over_ rest : List Nat) : State :=
  let s := s.issuedBy c who
  let s := (s.lookAt c (rest.filter (fun x => !over_.contains x))).1
  let d := (s.dev.modCol c (fun k => { k.counted s.dev.now who over_ with readied := over_ })).enterOne c
  { s with dev := if who.isSome then d else d.tick 1 }

/-- A column's issue opportunity (R73, R83-R87). -/
def State.issueTurn (s : State) (c : Nat) : State :=
  let d := s.dev.fresh c
  if !d.opens c then { s with dev := d.tick 1 }
  else
    let s := { s with dev := d }.openTurn c
    let pend := (s.dev.col c).readied
    match { s with dev := s.dev.modCol c Column.clearYld }.tryWarps c (s.dev.ranked c) with
    | (_, t, none) => t.issueDone c none pend []
    | (b, t, some (x, rest)) => t.issueDone c (some x) ((b.lookAt c rest).2 ++ pend) rest

/-! ## A stagehand's instruction -/

/-- A row operation, which waits while an ordinary access holds its bank (R381). -/
def isRowOp : Instr → Option HFields
  | .ropen f => some f
  | .racc f => some f
  | .rwr f => some f
  | _ => none

/-- The bank of a row operation is held by ordinary accesses, and not kept for the stagehand after a window (R381). -/
def BankTimes.rowWaits (b : BankTimes) (now bank : Nat) : Bool := decide (now < b.busy.getD bank 0) && b.kept.get? bank != some none

/-- The least ticks of an instruction (R366). -/
def handTicks : Instr → Nat
  | .qadd _ | .qsub _ | .qmul _ | .qfma _ | .qmuls _ | .qminmax _ => 2
  | .qrsq _ | .qsum _ => 4
  | _ => 1

/-- The next instruction starts no sooner than an instruction's ticks after its start (R366). -/
def Hand.busyFor (h : Hand) (now n : Nat) : Hand := { h with banks := { h.banks with free := max h.banks.free (now + n) } }

/-- A stagehand's next instruction: fetched, decoded and run (R366), or held at its bank. -/
def State.handRun (s : State) (c : Nat) : State :=
  let h := (s.dev.col c).hand
  let s := { s with dev := { s.dev with cur := { s.dev.cur with col := c } } }
  if h.ilen ≤ h.pc then s.handFault c 1
  else
    match decodeHand (h.prog.getD h.pc 0) with
    | .error _ => s.handFault c 1
    | .ok i =>
      let go (_ : Unit) : State :=
        let t := nextOr s (exec i s)
        { t with dev := t.dev.modHand c (fun h => h.busyFor s.dev.now (handTicks i)) }
      match isRowOp i with
      | some f => if h.banks.rowWaits s.dev.now (bankOf (h.addr f)) then s else go ()
      | none => go ()

/-- A stagehand's turn: nothing without a program, while its last instruction or a window at its bank goes on (R366, R381). -/
def State.handTurn (s : State) (c : Nat) : State :=
  let s : State := { s with dev := s.dev.resumeHand c }
  let h := (s.dev.col c).hand
  let t := match h.running, h.wait with
    | none, _ => s
    | some _, .none => if h.banks.ready s.dev.now then s.handRun c else s
    | some _, .aqsvc => if h.banks.ready s.dev.now then s.handRun c else s
    | some _, _ => s
  { t with dev := t.dev.tick 1 }

/-! ## Placing a word -/

/-- Where `withFetchWord` puts its root table, its level-1 table and its 2 MiB page (log 19). -/
def placedRoot : Nat := 0x100000
/-- The level-1 table. -/
def placedTable : Nat := 0x200000
/-- The page of the code. -/
def placedPage : Nat := 0x400000

/-- A line with one instruction in slot 0, which is a target (R97). -/
def placedLine (w : Insn) : BitVec 512 :=
  let b : BitVec 512 := w.setWidth 512
  b ||| (1#512 <<< 480) ||| ((linePar b).setWidth 512 <<< 496)

/-- Page tables that map the first 2 MiB, and the line of a word at offset 0. -/
def Memory.placed (m : Memory) (w : Insn) : Memory :=
  ((m.write (vkey 0 placedRoot) (bytesOf 8 (1 + placedTable / 256 * 65536))).write (vkey 0 placedTable)
    (bytesOf 8 (0b1011 + placedPage / 65536 * 65536))).write (vkey 0 placedPage) (bytesOf 64 (placedLine w).toNat)

/-- The boundaries of a column that has none: one gang of 8 warps with all 256 registers. -/
def Column.bounded (k : Column) : Column :=
  if k.regions.n ≠ 0 then k
  else { k with
    regions := { n := 1, w := 8, regs := 256, spad := 128, acc := 8, spawnw := 0 }, poolReg := 262144, poolSpad := 278528,
    poolAcc := 409600 }

/-- Column 0 with one fresh warp, in slot 0, at PC 0, and nothing fetched, cached or waiting. -/
def Column.placed (k : Column) (now : Nat) : Column :=
  { k.bounded with
    warps := [(0, { Warp.start with active := true, entered := now })], tlb := [], filter := [], code := [], past := [],
    opps := max 1 k.opps, halted := false, rehearsing := false }

/-- The context and the partition of a placed word. -/
def Dev.placed (d : Dev) : Dev :=
  { d with
    ctxs := d.ctxs.set 0 { d.ctx 0 with part := 0, state := .resident, ptRoot := BitVec.ofNat 64 (placedRoot / 256) },
    parts := d.parts.set 0 { d.part 0 with dom := 4, first := 0, held := false, holdWanted := false, lost := false, preempt := none } }

/-- A column word placed at the PC of the warp that issues next (log 19). -/
def State.placeWord (s : State) (w : Insn) : State :=
  let d := s.dev.placed.tick 2
  { vault := s.vault.placed w,
    dev := { d.modCol 0 (fun k => k.placed s.dev.now) with
      vaultPois := [], absent := d.absent.filter (fun x => x != 0), rate := 8, now := (d.now + 7) / 8 * 8, agenda := [.issue 0] } }

/-- A stagehand word placed at the PC of column 0's stagehand, whose program runs and waits for nothing. -/
def State.placeHand (s : State) (w : HandInsn) : State :=
  let r : RunDesc := { q := Vector.replicate 6 0, owner := .warp 0 0 none, ctx := 0, pois := false }
  { s with dev := { s.dev.modHand 0 (fun h => { h with
      running := some (h.running.getD r), wait := .none, ilen := h.pc + 1, prog := h.prog.set h.pc w,
      banks := { h.banks with free := 0, run := none, busy := [] } }) with agenda := [.hand 0] } }

end Sys2Proof.Machine
end

