-- ==== Sys2Proof/Machine/Step.lean ====
section
/-! DEFINITION. The step: the environment's next turn, which is time passing, a column's issue opportunity, a stagehand's instruction, an
event, an error that a store finds, or a read from outside (log 6, 120, 135). -/

namespace Sys2Proof.Machine

/-- One step of the machine. An instruction of a column or of a stagehand has its effect at its own turn only, never as an event. -/
def step (s : State) : Host.Outcome State Fault Refusal :=
  match s.dev.agenda with
  | [] => .next { s with dev := s.dev.tick 1 }
  | t :: rest =>
    let s : State := { s with dev := { s.dev with agenda := rest } }
    match t with
    | .tick n => .next { s with dev := s.dev.tick n }
    | .issue c => .next (s.issueTurn c)
    | .hand c => .next (s.handTurn c)
    | .event i => if i.isColumn || i.hand.isSome then .next s else exec i s
    | .error e => .next (s.hwError e)
    | .ask a => .next (s.answer a)

/-- The state with an instruction of the opcode table placed where the next step fetches (log 19): a stagehand word where the row has 1 to 64
bits, else a column word. -/
def State.withFetchWord (s : State) (nbits w : Nat) : State :=
  if 1 ≤ nbits ∧ nbits ≤ 64 then s.placeHand (BitVec.ofNat 64 w) else s.placeWord (BitVec.ofNat 96 w)

end Sys2Proof.Machine
end

