-- ==== Sys2Proof/Safety.lean ====
section
/-! DEFINITION. What counts as a safe run, and the terms in which claims are stated: the invariant of the vaults' bytes, what an instruction
that acts on its own warp leaves alone, and what "an instruction has retired" means. -/

namespace Sys2Proof.Machine

/-- The invariant of every step: the vaults' bytes keep their canonical form, so that equal memories are equal data. -/
abbrev State.Inv (s : State) : Prop := s.vault.wf = true

/-- A byte of the vaults as the claims read it: by logical column and vault address. -/
def State.byteAt (s : State) (c a : Nat) : Byte := s.vault.byte (vkey c a)

/-- Lane l of register r of the issuing warp. -/
def State.reg (s : State) (r l : Nat) : Word := s.dev.curWarp.laneOf r l

/-- The format tag of register r of the issuing warp. -/
def State.tag (s : State) (r : Nat) : BitVec 5 := (s.dev.curWarp.reg r).fmt

/-- Register r of the issuing warp as an instruction reads it: lanes that a tile operation in flight writes are undefined (R263). -/
def State.readReg (s : State) (r : Nat) : VReg := s.dev.seen.reg r

/-- Lane l of register r as an instruction reads it. -/
def State.reads (s : State) (r l : Nat) : Word := s.dev.seen.laneOf r l

/-- The poison of lane l of register r of the issuing warp. -/
def State.regPois (s : State) (r l : Nat) : Bool := (s.dev.curWarp.reg r).data.pois l

/-- What a column holds beside its warps, apart from the marks that a register write leaves on operations in flight (R235, R263). -/
def Column.rest (k : Column) : Column :=
  { k with
    warps := [], ops := k.ops.map (fun o => { o with killed := [] }),
    tileQ := k.tileQ.map (fun q => q.map (fun o => { o with spoiled := false, killed := [] })) }

/-- The device apart from its columns and the mark of the last issue. -/
def Dev.rest (d : Dev) : Dev := { d with cols := [], issued := .retired }

/-- Nothing outside the issuing warp has changed: no byte of a vault, no other warp, and nothing else of the device. -/
structure OnlyWarp (s t : State) : Prop where
  vault : t.vault = s.vault
  dev   : t.dev.rest = s.dev.rest
  cols  : ∀ c, c ≠ s.dev.cur.col → t.dev.col c = s.dev.col c
  col   : (t.dev.col s.dev.cur.col).rest = (s.dev.col s.dev.cur.col).rest
  warps : ∀ y, y ≠ s.dev.cur.slot → t.dev.warp s.dev.cur.col y = s.dev.warp s.dev.cur.col y

/-- A warp apart from what a V-format instruction with a register destination writes: registers, index registers, the PC and the hints. -/
def Warp.rest (w : Warp) : Warp := { w with regs := [], ix := Vector.replicate 16 IxReg.start, pc := 0, stallUntil := 0, yld := false }

/-- The PC after the instruction that issued (R98). -/
def State.nextPc (s : State) : BitVec 48 := s.dev.cur.pc + (if s.dev.cur.second then 2 else 1)

/-- An instruction has retired with these register results: in every active lane the destination that the lane names holds its value under the
tag and its poison; every other lane of every register is as before; the index registers have stepped; the PC has moved on; nothing else has changed. -/
structure Retires (x : VCtx) (s t : State) (dst : Nat → Nat → Option Nat) (tag : Nat → BitVec 5) (val : Nat → Nat → Word)
    (pois : Nat → Nat → Bool) : Prop where
  issued : t.dev.issued = .retired
  only   : OnlyWarp s t
  wrote  : ∀ j l r, l < 32 → dst j l = some r → t.reg r l = val j l ∧ t.regPois r l = pois j l ∧ t.tag r = tag j
  kept   : ∀ r l, l < 32 → (∀ j, dst j l ≠ some r) → t.reg r l = s.reg r l ∧ t.regPois r l = s.regPois r l
  tags   : ∀ r, (∀ j l, l < 32 → dst j l ≠ some r) → t.tag r = s.tag r
  pc     : t.dev.curWarp.pc = s.nextPc
  ix     : t.dev.curWarp.ix = (s.dev.curWarp.stepFields x.act x.pre x.fields).ix
  rest   : t.dev.curWarp.rest = s.dev.curWarp.rest

/-- The destination of an instruction with one result: in an active lane the register that the lane names. -/
def VCtx.oneDst (x : VCtx) (d : BitVec 9) (j l : Nat) : Option Nat :=
  if j = 0 ∧ Mask.has x.act l then some (x.dstOf d l) else none

/-- The destinations of an instruction that writes n registers from its destination on. -/
def VCtx.rangeDst (x : VCtx) (d : BitVec 9) (n j l : Nat) : Option Nat :=
  if j < n ∧ Mask.has x.act l then some (dstReg d + j) else none

/-- An instruction has retired with a predicate result: in the active lanes predicate p holds the bits (p0 stays all ones); nothing else has
changed but the index registers, the PC and the hints. -/
structure SetsPred (x : VCtx) (s t : State) (p : Nat) (bits : Nat → Bool) : Prop where
  issued : t.dev.issued = .retired
  only   : OnlyWarp s t
  wrote  : ∀ l, l < 32 → 1 ≤ p → p ≤ 7 → Mask.has (t.dev.curWarp.pred p) l =
    if Mask.has x.act l then bits l else Mask.has (s.dev.curWarp.pred p) l
  kept   : ∀ q, q ≠ p → t.dev.curWarp.pred q = s.dev.curWarp.pred q
  regs   : t.dev.curWarp.regs = s.dev.curWarp.regs
  pc     : t.dev.curWarp.pc = s.nextPc
  ix     : t.dev.curWarp.ix = (s.dev.curWarp.stepFields x.act x.pre x.fields).ix
  rest   : { t.dev.curWarp with preds := s.dev.curWarp.preds }.rest = s.dev.curWarp.rest

/-- An instruction with these sources may issue: none of its registers is reserved, no check of R408 fails, and it makes no fifth indirect
reservation (R235). -/
abbrev VCtx.Ready (x : VCtx) (f : VFields) (us : List Use) (preds : Option TrapInfo) : Prop :=
  x.notReady us = false ∧ x.checks f.h.u (dstBound x.regs f.d :: x.bounds us) (x.dstWin f.d) us preds [] = none ∧
    x.fifthWindow f.d = false

/-- The same for an instruction that writes a range of registers, whose bounds are given. -/
abbrev VCtx.ReadyRange (x : VCtx) (f : VFields) (bounds : List (Option TrapInfo)) (us : List Use) : Prop :=
  x.notReady us = false ∧ x.checks f.h.u bounds none us none [] = none

/-- The same for an instruction with a predicate destination. -/
abbrev VCtx.ReadyPred (x : VCtx) (f : VFields) (us : List Use) (preds : Option TrapInfo) : Prop :=
  x.notReady us = false ∧ x.checks f.h.u (x.bounds us) none us preds [] = none

/-- The same for an instruction that reads uniform operands. -/
abbrev VCtx.ReadyUni (x : VCtx) (bounds : List (Option TrapInfo)) (us : List Use) (own : List (Option TrapInfo)) : Prop :=
  x.notReady us = false ∧
    firstTrap (bounds ++ x.bounds us ++ us.map (fun u => u.src.uniCheck) ++ us.map Use.tagCheck ++ own ++
      us.map (fun u => u.src.poisCheck Mask.all)) = none

/-- An instruction that acts for its whole warp has every enabled lane selected (R156). -/
abbrev State.selected (s : State) (h : Head) : Prop := s.dev.curWarp.allE h = true ∧ s.dev.curWarp.noneE h = false

/-- A column's L2 line of a vault address, where the L2 has its tag (R208). -/
def Column.l2At (k : Column) (va : Nat) : Option L2Line := (k.l2Tag (va / 512)).map (fun t => t.line (va / 128))

/-- The line of a vault address is pinned in L2 (R212). -/
def Column.pinnedAt (k : Column) (va : Nat) : Bool := (k.l2At va).any L2Line.pinned

/-- A memory instruction's record index names no record, or one that the column holds or fetches (R46, R48). -/
def State.hasRecord (s : State) (idx : Nat) (d : Dev) (r : Option (Option TRec)) : Prop :=
  (idx = 0 ∧ d = s.dev ∧ r = none) ∨
    (idx ≠ 0 ∧ ∃ t, s.tensor s.dev.cur.col s.dev.curWarp.ctx s.dev.curRec idx = (.ok t, d) ∧ r = some t)

/-- The issue of a memory instruction has retired: no byte of a vault, no register and no predicate has changed. -/
structure Issues (s u : State) : Prop where
  issued : u.dev.issued = .retired
  vault  : u.vault = s.vault
  pc     : u.dev.curWarp.pc = s.nextPc
  regs   : u.dev.curWarp.regs = s.dev.curWarp.regs
  preds  : u.dev.curWarp.preds = s.dev.curWarp.preds

/-- The bytes that a lane of a load reads now: those of a usable L1 line that has their sector, unless the policy passes the L1 by, else the vault's
(R204, R206). -/
def State.loadBytes (s : State) (c ctx : Nat) (a : LaneAcc) : List Byte :=
  (List.range a.size).map (fun i =>
    match if a.pol = 1 then none else (s.dev.col c).l1Hit s.dev.now ctx (a.off + i) with
    | some l => l.byte (a.off + i)
    | none => s.byteAt a.tcol (a.va + i))

/-- A load's value reaches lane l of register r: the load reserved it, and no later instruction has written it (R235). -/
def MemOp.reaches (o : MemOp) (r l : Nat) : Prop :=
  (o.window = true ∨ ∃ m, (r, m) ∈ o.resv ∧ Mask.has m l = true) ∧ o.dead r l = false

/-- A request of a load may be performed: no earlier own access to its bytes is outstanding (R222), and its time has come (R216). Its lanes `ls`, one of
them `a`, lie in one line (R215). Left out is what the spec leaves open: an element of a stable page (R42), and a word that a stagehand's row operation is
writing (R380); and a fill under stores of the column that are sent and not performed, which it lies under (R246). -/
structure LoadTurn (s : State) (col op req : Nat) (o : MemOp) (ls : List LaneAcc) (a : LaneAcc) : Prop where
  found : (s.dev.col col).op? op = some o
  lanes : o.lanes.filter (fun b => b.req == req) = ls
  has   : a ∈ ls
  turn  : (s.dev.col col).overtakes o ls = false
  due   : o.missed = true ∨ o.itick + 16 + o.reqs / 2 ≤ s.dev.now
  line  : ∀ b ∈ ls, b.tcol = a.tcol ∧ b.pol = a.pol ∧ b.stable = false ∧ b.off / 128 = a.off / 128 ∧ b.va / 128 = a.va / 128 ∧
    b.va % 128 = b.off % 128 ∧ 1 ≤ b.size ∧ b.off % 128 + b.size ≤ 128 ∧ b.size ≤ b.cut ∧ b.lane < 32
  held  : ∀ off x, off / 128 = a.off / 128 → (s.dev.col col).l1Hit s.dev.now o.ctx off = some x → x.stable = false
  olds  : (s.dev.col a.tcol).hand.banks.olds = []
  sent  : a.pol = 1 ∨ a.pol = 3 ∨ (s.dev.col col).sent o.ctx = []

/-- What a load-class operation leaves outstanding, given what the search of its lanes found: those that missed are still to be performed,
those that hit have their values (R204, R216, R221). -/
def MemOp.sought (o : MemOp) (id : Nat) (ls : List LaneAcc) (hits : List LaneWrite) : MemOp :=
  { o with
    id := id, lanes := ls, done := o.spread hits, reqs := o.requests,
    missed := !ls.isEmpty || (o.kind == .loadT && decide (32 < o.requests)) }

/-- A release that an instruction makes first, if it makes one, has ended (R252, R256). -/
abbrev Dev.releaseOver (d : Dev) (on : Bool) (m : BitVec 7) : Prop :=
  on = true → d.curWarp.relDone = true ∨ d.curCol.released d.cur.slot m d.now = true

/-- The device after that release. -/
def Dev.afterRelease (d : Dev) (on : Bool) : Dev :=
  if on then d.modCurWarp (fun w => { w with relDone := false, wait := .none }) else d

/-- A register that may be read: it is not reserved, below the bound, and its tag is RAW or among those given. -/
abbrev State.readable (s : State) (r : Nat) (tags : List (BitVec 5)) : Prop :=
  s.dev.curCol.busy s.dev.cur.slot [r] = false ∧ r < s.dev.curCol.regions.regs ∧
    ((s.readReg r).fmt = Fmt.raw ∨ (s.readReg r).fmt ∈ tags)

/-- A register that may be read as a uniform value: also uniform, and free of poison. -/
abbrev State.uniform (s : State) (r : Nat) (tags : List (BitVec 5)) : Prop :=
  s.readable r tags ∧ (s.readReg r).data.shape = .uniform ∧ ∀ l, l < 32 → (s.readReg r).data.pois l = false

/-- An optional register: register 0 names none. -/
abbrev State.optional (s : State) (r : BitVec 8) : Prop := r = 0 ∨ s.uniform r.toNat [Fmt.ui32, Fmt.i32]

/-- The value of a uniform register; register 0 names none, and gives v. -/
def State.valueOr (s : State) (r : BitVec 8) (v : Word) : Word := if r = 0 then v else s.reads r.toNat 0

/-- The issue of a tile operation with all lanes enabled and selected, room in queue q and in TILES, and no acquire of its warp to wait for (R306,
R316, R317). -/
abbrev State.tileOpen (s : State) (h : Head) (q : Nat) : Prop :=
  s.dev.curWarp.act h = Mask.all ∧ (h.gn && h.gp == 0) = false ∧ s.dev.curCol.acquiring s.dev.cur.slot = false ∧
    (s.dev.curCol.queue q).length < 8 ∧ s.dev.curWarp.tiles < 63

/-- A tile operation has entered queue q behind the others, and TILES has risen; a drain's output registers are undefined from now on. -/
structure Queued (s u : State) (i : Instr) (q : Nat) (a b asc bsc rows : Word) : Prop where
  issued : u.dev.issued = .retired
  vault  : u.vault = s.vault
  pc     : u.dev.curWarp.pc = s.nextPc
  preds  : u.dev.curWarp.preds = s.dev.curWarp.preds
  tiles  : u.dev.curWarp.tiles = s.dev.curWarp.tiles + 1
  length : (u.dev.curCol.queue q).length = (s.dev.curCol.queue q).length + 1
  last   : ∃ o, (u.dev.curCol.queue q).getLast? = some o ∧ o.insn = i ∧ o.slot = s.dev.cur.slot ∧ o.itick = s.dev.now ∧
    o.started = none ∧ o.aoff = a ∧ o.boff = b ∧ o.asc = asc ∧ o.bsc = bsc ∧ o.rowsv = rows

/-- A tile operation of which R263 and R319 leave nothing undefined, and whose operands stand as they were when it read them. -/
structure TileOp.Plain (o : TileOp) : Prop where
  clash   : o.clash = []
  bclash  : o.bclash = []
  vague   : o.vague = []
  spoiled : o.spoiled = false
  kept    : o.kept = []
  regs    : o.keptRegs = []
  killed  : o.killed = []

/-- The code of the element of w bits at a bit of the pool words from a byte on (R303). -/
def Column.poolCode (k : Column) (ctx byte bit w : Nat) : Nat :=
  (k.poolWord ctx (byte / 4 + bit / 32)).1.toNat / 2 ^ (bit % 32) % 2 ^ w

/-- The code of element (r, n) of a B operand whose first B-line begins at a byte of the B-SRAM (R301). -/
def Column.bsCode (k : Column) (ctx byte w r n : Nat) : Nat :=
  (k.bsWord ctx (byte / 4 + r * w / 32 * 64 + n)).1.toNat / 2 ^ (r * w % 32) % 2 ^ w

/-- Element (i, r) of the A operand of a product, under its block's scale where a scale register is named (R303, R308). -/
def TileOp.aVal (o : TileOp) (k : Column) (f : TFields) (i r : Nat) : FVal :=
  let v := codeVal (fmtOf f.af) (k.poolCode o.ctx (k.spadBase o.gang + o.aoff.toNat) ((i * f.k + r) * TFields.aw f) (TFields.aw f))
  if f.mode = 0 ∧ f.abm ≠ 0 then
    FVal.mul (e8m0Value (k.poolCode o.ctx (k.spadBase o.gang + o.asc.toNat) (8 * (i * (f.k / 24) + r / 24)) 8)) v
  else v

/-- Element (r, n) of the B operand of a product that begins at a B-line of its operand, under its block's scale (R301, R308). -/
def TileOp.bVal (o : TileOp) (k : Column) (f : TFields) (line r n : Nat) : FVal :=
  let at_ (off : Nat) : Nat := k.bsGangBase o.gang + off
  let v := codeVal (fmtOf f.bf) (k.bsCode o.ctx (at_ o.boff.toNat + 256 * line) (TFields.bw f) r n)
  if f.mode = 0 ∧ f.bbm ≠ 0 then FVal.mul (e8m0Value (k.bsCode o.ctx (at_ (o.bsc.toNat % 2 ^ 20)) 8 (r / 24) n)) v else v

/-- Element j of row i of the tiles that a drain reads (R322). -/
def TileOp.rowWord (o : TileOp) (k : Column) (i j : Nat) : Word :=
  (k.poolWord o.ctx ((k.tileRange (o.tiles.getD (j / 64) 0)).1 / 4 + 64 * i + j % 64)).1

/-- A row after its rounding: the codes of its N elements, its support set, and its support size. -/
structure RowDone.Gives (r : RowDone) (n : Nat) (code : Nat → Nat) (held : Nat → Bool) : Prop where
  length : r.codes.length = n
  codes  : ∀ j, j < n → r.codes.getD j 0 = code j
  sup    : ∀ j, j < n → r.sup.getD j false = held j
  size   : r.size = ((List.range n).filter held).length

/-- The state with the running stagehand's registers replaced. -/
def State.putHand (s : State) (h : Hand) : State := { s with dev := s.dev.modHand s.dev.cur.col (fun _ => h) }

/-- The state once the running stagehand has asked for the translation of an offset. -/
def State.xlated (s : State) (off : Nat) (write : Bool) : State := { s with dev := (s.handXlate s.dev.cur.col s.hand.ctx off write).2 }

/-- Two stagehands differ at most in the times of their banks and in the rows that they have open. -/
def Hand.Same (g h : Hand) : Prop := { g with banks := h.banks, openRow := h.openRow } = h

/-- No retry has let a waiter of a column run again (R430): its turn is not a trial under an open filter entry. -/
def State.untried (s : State) (c : Nat) (w : Waiter) : Prop := (s.dev.col c).filter.any (fun e => e.rerun.contains w) = false

/-- The replay of a graph is told that its node runs, and from which tick on it may finish, where that is known (R355). -/
def Dev.runsNode (d : Dev) (r j : Nat) (ready : Option Nat) : Dev :=
  d.modNode r j (fun n => { n with started := true, ready := ready, held := none, hcol := none, waited := false })

/-- The next accepted entry of a ring, whose reserved byte is zero, and the device as it begins to run (R78, R79). -/
abbrev Dev.takes (d : Dev) (r : RingId) (e : CmdEntry) (t : Dev) : Prop :=
  let a := d.accept r (d.ring r).stopped
  (a.ring r).accepted.head? = some e ∧ e.rsvd = 0 ∧ t = a.putRing r ((a.ring r).begin e)

/-- A step of an instruction that retires with register results. -/
def Completes (i : Instr) (x : VCtx) (s base : State) (dst : Nat → Nat → Option Nat) (tag : Nat → BitVec 5) (val : Nat → Nat → Word)
    (pois : Nat → Nat → Bool) : Prop :=
  ∃ t, exec i s = .next t ∧ Retires x base t dst tag val pois

/-- The shape of register r of the issuing warp (R65). -/
def State.shape (s : State) (r : Nat) : Shape := (s.dev.curWarp.reg r).data.shape

/-- A floating-point instruction has been replayed (R147): its warp waits outside the active set, SUBREP has counted it, no register has changed,
and an operation holds, for every active lane, the value and the poison that are still to be written under the tag. -/
def Replays (i : Instr) (f : VFields) (x : VCtx) (s : State) (tag : BitVec 5) (val : Nat → Word) (pois : Nat → Bool) : Prop :=
  ∃ u, exec i s = .next u ∧ u.vault = s.vault ∧ u.dev.curWarp.regs = s.dev.curWarp.regs ∧ u.dev.curWarp.wait = .replay ∧
    u.dev.curWarp.active = false ∧ u.dev.curWarp.pc = s.nextPc ∧
    u.dev.curWarp.wstat.toNat / 2 ^ 16 = min 0xFFFF (s.dev.curWarp.wstat.toNat / 2 ^ 16 + 1) ∧
    ∃ o ∈ u.dev.curCol.ops, o.kind = .replay ∧ o.slot = s.dev.cur.slot ∧ o.fmt = tag ∧
      ∀ l, l < 32 → Mask.has x.act l = true →
        ∃ w ∈ o.done, w.reg = x.dstOf f.d l ∧ w.lane = l ∧ w.val = val l ∧ w.pois = pois l

/-- Some source's value in lane l is poisoned. -/
def anyPois (ss : List Src) (l : Nat) : Bool := ss.any (fun s => Mask.has s.pois l)

end Sys2Proof.Machine
end

