-- ==== Sys2Proof/Certificates/Slice0/Obligations.lean ====
section
/-! DEFINITION. The statements for the provers, family by family. Values are those of the spec's rules; what a statement calls ready is that no
register that the instruction reads is reserved and no check of R408 fails. -/

open Sys2Proof Sys2Proof.Machine

/-! ## Integer, address and logic instructions (R158-R174) -/

/-- R166: a two-source integer instruction writes, element by element, the wrapped or (S) clamped exact result. R166: IMAD, IDOT4 and IABS. R65,
R66: the shape of what the integer and logic instructions of two sources, MOV and RETAG write: general where a lane is not active or the destination
is indirect; else uniform from uniform sources, affine where the table of R66 says so, and general from any others. -/
def Obligations.IntegerArithmetic : Prop :=
  (∀ (f : VFields) (s : State),
    let x := vIn f s 2
    let t := f.h.ty
    let a := x.src 1 f.a
    let b := x.srcB f t
    ∀ p ∈ [(Instr.iadd f, fun m n : Int => m + n), (.isub f, fun m n => m - n), (.imul f, fun m n => m * n),
        (.imulh f, fun m n => m * n / 2 ^ 32), (.imin f, fun m n => min m n), (.imax f, fun m n => max m n)],
      p.1.wf = true → x.Ready f [Use.of a t, Use.of b t] none →
        Completes p.1 x s s (x.oneDst f.d) (fun _ => t)
          (fun _ l => intLane t f.h.s (fun i => p.2 (elemInt t (lane a.vals l) i) (elemInt t (lane b.vals l) i)))
          (fun _ l => anyPois [a, b] l)) ∧
  (∀ (f : VFields) (s : State),
    let x := vIn f s 3
    let y := vIn f s 1
    let t := f.h.ty
    let a := x.src 1 f.a
    let b := x.srcB f t
    let c := x.srcC f
    let e := y.src 1 f.a
    ((Instr.imad f).wf = true → x.Ready f [Use.of a t, Use.of b t, Use.of c t] none →
      Completes (.imad f) x s s (x.oneDst f.d) (fun _ => t)
        (fun _ l => intLane t f.h.s (fun i =>
          elemInt t (lane a.vals l) i * elemInt t (lane b.vals l) i + elemInt t (lane c.vals l) i))
        (fun _ l => anyPois [a, b, c] l)) ∧
    ((Instr.idot4 f).wf = true → x.Ready f [Use.of a t, Use.of b t, Use.of c Fmt.i32] none →
      Completes (.idot4 f) x s s (x.oneDst f.d) (fun _ => Fmt.i32)
        (fun _ l => intLane Fmt.i32 f.h.s (fun _ => (lane c.vals l).toInt +
          (elemInt t (lane a.vals l) 0 * elemInt t (lane b.vals l) 0 + elemInt t (lane a.vals l) 1 * elemInt t (lane b.vals l) 1 +
            elemInt t (lane a.vals l) 2 * elemInt t (lane b.vals l) 2 + elemInt t (lane a.vals l) 3 * elemInt t (lane b.vals l) 3)))
        (fun _ l => anyPois [a, b, c] l)) ∧
    ((Instr.iabs f).wf = true → y.Ready f [Use.of e t] none →
      Completes (.iabs f) y s s (y.oneDst f.d) (fun _ => t)
        (fun _ l => intLane t f.h.s (fun i => |elemInt t (lane e.vals l) i|))
        (fun _ l => anyPois [e] l))) ∧
  (∀ (f : VFields) (s : State),
    let x := vIn f s 2
    let y := vIn f s 1
    let z : VCtx := vctx s.dev f.h (dstOperand f.d :: (if f.vi then [] else [f.a]))
    let t := f.h.ty
    let a := x.src 1 f.a
    let b := x.srcB f t
    let k := lane b.vals 0
    let e := y.src 1 f.a
    let m := if f.vi then Src.const 2 f.imm t else z.src 1 f.a
    let lines := f.h.s = false ∧ affineTag t = true
    let two := [Use.of a t, Use.of b t]
    let logic := [logicUse t a, logicUse t b]
    (∀ p ∈ [(Instr.iadd f, two), (.isub f, two), (.imul f, two), (.imulh f, two), (.imin f, two), (.imax f, two), (.and f, logic),
        (.or f, logic), (.xor f, logic), (.andn f, logic), (.shl f, logic), (.shr f, logic), (.sar f, logic), (.rot f, logic)],
      p.1.wf = true → x.Ready f p.2 none →
        ∃ u, exec p.1 s = .next u ∧
          ((x.act ≠ Mask.all ∨ f.d.getLsbD 8 = true) → ∀ l, l < 32 → Mask.has x.act l = true → u.shape (x.dstOf f.d l) = .general) ∧
          (x.act = Mask.all → f.d.getLsbD 8 = false →
            (a.shape = .uniform → b.shape = .uniform → u.shape (dstReg f.d) = .uniform) ∧
            (a.shape = .general ∨ b.shape = .general → u.shape (dstReg f.d) = .general) ∧
            (lines → ∀ v w i j, a.line = some (v, i) → b.line = some (w, j) →
              (p.1 = .iadd f → u.shape (dstReg f.d) = (if i + j = 0 then .uniform else .affine (v + w) (i + j))) ∧
              (p.1 = .isub f → u.shape (dstReg f.d) = (if i - j = 0 then .uniform else .affine (v - w) (i - j))) ∧
              (p.1 = .imul f → b.shape = .uniform → u.shape (dstReg f.d) = (if i * k = 0 then .uniform else .affine (v * k) (i * k))) ∧
              (p.1 = .shl f → b.shape = .uniform → u.shape (dstReg f.d) =
                (if shlWord i (shiftAmount k) = 0 then .uniform
                 else .affine (shlWord v (shiftAmount k)) (shlWord i (shiftAmount k))))) ∧
            (¬ (a.shape = .uniform ∧ b.shape = .uniform) → p.1 ∉ [Instr.iadd f, .isub f, .imul f, .shl f] →
              u.shape (dstReg f.d) = .general))) ∧
    (∀ p ∈ [(Instr.retag f, y, e, [Use.any e], t),
        (.mov f, z, m, [if t = Fmt.raw then { src := m, want := none, one := true } else Use.of m t], if t = Fmt.raw then m.tag else t)],
      p.1.wf = true → p.2.1.Ready f p.2.2.2.1 none → p.2.1.act = Mask.all → f.d.getLsbD 8 = false →
        ∃ u, exec p.1 s = .next u ∧ (p.2.2.1.shape = .uniform → u.shape (dstReg f.d) = .uniform) ∧
          (p.2.2.1.shape = .general → u.shape (dstReg f.d) = .general) ∧
          ∀ v i, p.2.2.1.shape = .affine v i → i ≠ 0 →
            u.shape (dstReg f.d) = (if affineTag p.2.2.2.2 then .affine v i else .general)))

/-- R167, R168, R178: the comparisons and PLOP set their predicate in the active lanes; a poisoned source leaves a record (R441). R169: SEL, MOV and
MOVS copy values with their poison; under a RAW type the tag comes from the source, and all three leave zero between FP6 elements (R133). -/
def Obligations.ComparisonsAndMoves : Prop :=
  (∀ (f : VFields) (s : State),
    let x := vIn f s 2
    let y := vIn f s 0
    let t := f.h.ty
    let a := x.src 1 f.a
    let b := x.srcB f t
    let base : State := { s with dev := s.dev.predPoison (Mask.of (anyPois [a, b]) &&& x.act) }
    let pa := s.dev.curWarp.pred (f.a.bits.toNat % 8)
    let pb := s.dev.curWarp.pred (f.b.bits.toNat % 8)
    let pc := s.dev.curWarp.pred (f.c.bits.toNat % 8)
    let bit (m : Mask) (l : Nat) : Nat := if Mask.has m l then 1 else 0
    ((Instr.icmp f).wf = true → x.ReadyPred f [Use.of a t, Use.of b t] none →
      ∃ u, exec (.icmp f) s = .next u ∧ SetsPred x base u (f.d.toNat % 8) (fun l => pairsBit (f.subBit 3) (elems t) (fun i =>
        intCmp (f.subBits 2 0) (elemInt t (lane a.vals l) i) (elemInt t (lane b.vals l) i)))) ∧
    ((Instr.fcmp f).wf = true → x.ReadyPred f [Use.of a t, Use.of b t] none →
      ∃ u, exec (.fcmp f) s = .next u ∧ SetsPred x base u (f.d.toNat % 8) (fun l => pairsBit (f.subBit 3) (elems t) (fun i =>
        floatCmp (f.subBits 2 0) (elemVal t (lane a.vals l) i) (elemVal t (lane b.vals l) i)))) ∧
    ((Instr.plop f).wf = true → y.ReadyPred f [] (predCheck [pa, pb, pc]) →
      ∃ u, exec (.plop f) s = .next u ∧ SetsPred y s u (f.d.toNat % 8) (fun l =>
        (f.bc.extractLsb' 8 8).getLsbD (4 * bit pa l + 2 * bit pb l + bit pc l)))) ∧
  (∀ (f : VFields) (s : State),
    let x := vIn f s 2
    let raw := f.h.ty == Fmt.raw
    let a := x.src 1 f.a
    let t := if raw then a.tag else f.h.ty
    let b := x.srcB f t
    let p := selPred s.dev.curWarp f
    let y : VCtx := vctx s.dev f.h (dstOperand f.d :: (if f.vi then [] else [f.a]))
    let m := if f.vi then Src.const 2 f.imm f.h.ty else y.src 1 f.a
    let z := vIn f s 0
    let n := f.subBits 2 0 + 1
    let va := f.a.reg.toNat
    ((Instr.sel f).wf = true →
      x.Ready f [if raw then { src := a, want := none, one := true } else Use.of a t,
        if raw then { src := b, want := none, one := true, eq := some t } else Use.of b t] (predCheck [p]) →
      Completes (.sel f) x s s (x.oneDst f.d) (fun _ => t)
        (fun _ l => padded t (if Mask.has p l then lane a.vals l else lane b.vals l))
        (fun _ l => if Mask.has p l then Mask.has a.pois l else Mask.has b.pois l)) ∧
    ((Instr.mov f).wf = true → y.Ready f [if raw then { src := m, want := none, one := true } else Use.of m f.h.ty] none →
      Completes (.mov f) y s s (y.oneDst f.d) (fun _ => if raw then m.tag else f.h.ty)
        (fun _ l => padded (if raw then m.tag else f.h.ty) (lane m.vals l))
        (fun _ l => Mask.has m.pois l)) ∧
    ((Instr.movs f).wf = true →
      z.ReadyRange f [boundCheck z.regs (dstReg f.d + n - 1), boundCheck z.regs (va + n - 1)]
        ((List.range n).map (fun i => Use.any (z.reg 1 (va + i) f.a))) →
      Completes (.movs f) z s s (z.rangeDst f.d n) (fun j => (s.readReg (va + j)).fmt)
        (fun j l => padded (s.readReg (va + j)).fmt (lane (z.reg 1 (va + j) f.a).vals l))
        (fun j l => Mask.has (z.reg 1 (va + j) f.a).pois l)))

/-- R170, R171: a two-source logic, shift or extract instruction works on whole lanes. R171: BFX and BFI, whose sources carry their
type's tag. R170, R171: the one-source and three-source logic and byte instructions. -/
def Obligations.LogicInstructions : Prop :=
  (∀ (f : VFields) (s : State),
    let x := vIn f s 2
    let t := f.h.ty
    let a := x.src 1 f.a
    let b := x.srcB f t
    ∀ p ∈ [(Instr.and f, fun m n : Word => m &&& n), (.or f, fun m n => m ||| n), (.xor f, fun m n => m ^^^ n),
        (.andn f, fun m n => m &&& ~~~n), (.shl f, fun m n => if 32 ≤ n.toNat % 64 then 0 else m <<< (n.toNat % 64)),
        (.shr f, fun m n => if 32 ≤ n.toNat % 64 then 0 else m >>> (n.toNat % 64)),
        (.sar f, fun m n => m.sshiftRight (min (n.toNat % 64) 31)), (.rot f, fun m n => m.rotateLeft (n.toNat % 32))],
      p.1.wf = true → x.Ready f [logicUse t a, logicUse t b] none →
        Completes p.1 x s s (x.oneDst f.d) (fun _ => t) (fun _ l => p.2 (lane a.vals l) (lane b.vals l)) (fun _ l => anyPois [a, b] l)) ∧
  (∀ (f : VFields) (s : State),
    let x := vIn f s 2
    let t := f.h.ty
    let a := x.src 1 f.a
    let b := x.srcB f t
    (Instr.bfx f).wf = true → x.Ready f [Use.of a t, Use.of b t] none →
      Completes (.bfx f) x s s (x.oneDst f.d) (fun _ => t) (fun _ l => bfxWord (t == Fmt.i32) (lane a.vals l) (lane b.vals l))
        (fun _ l => anyPois [a, b] l)) ∧
  (∀ (f : VFields) (s : State),
    let x := vIn f s 1
    let t := f.h.ty
    let e := x.src 1 f.a
    let y := vIn f s 3
    let z : VCtx := vctx s.dev f.h [dstOperand f.d, f.a, f.b, f.c]
    let a := y.src 1 f.a
    let b := y.srcB f t
    let c := y.srcC f
    let m := z.src 1 f.a
    let n := z.src 2 f.b
    let o := z.src 3 f.c
    (∀ p ∈ [(Instr.popc f, Fmt.ui32, fun w : Word => BitVec.ofNat 32 ((List.range 32).filter (fun i => w.getLsbD i)).length),
        (.clz f, Fmt.ui32, fun w => BitVec.ofNat 32 (if w = 0 then 32 else 31 - Nat.log2 w.toNat)), (.brev f, t, fun w => w.reverse)],
      p.1.wf = true → x.Ready f [logicUse t e] none →
        Completes p.1 x s s (x.oneDst f.d) (fun _ => p.2.1) (fun _ l => p.2.2 (lane e.vals l)) (fun _ l => anyPois [e] l)) ∧
    ((Instr.bfi f).wf = true → y.Ready f [Use.of a t, Use.of b t, Use.of c t] none →
      Completes (.bfi f) y s s (y.oneDst f.d) (fun _ => t) (fun _ l => bfiWord (lane a.vals l) (lane b.vals l) (lane c.vals l))
        (fun _ l => anyPois [a, b, c] l)) ∧
    (∀ p ∈ [(Instr.bswz f, bswzWord), (.tern f, ternWord f.sub)],
      p.1.wf = true → z.Ready f [Use.any m, Use.any n, Use.any o] none →
        Completes p.1 z s s (z.oneDst f.d) (fun _ => Fmt.raw) (fun _ l => p.2 (lane m.vals l) (lane n.vals l) (lane o.vals l))
          (fun _ l => anyPois [m, n, o] l)))

/-- R172, R173: LEA and CADR write a pointer pair; CGET reads a selector, or makes the pointer that names the own column. R174: TIDX writes a
coordinate or an extent of a launch level; under U a coordinate that differs between lanes is a free value (log 11), and an extent counts as one
value for all lanes (log 125). -/
def Obligations.PointersAndCoordinates : Prop :=
  (∀ (f : VFields) (s : State),
    let x := vIn f s 2
    let y := vIn f s 1
    let va := f.a.reg.toNat
    let lo := x.reg 1 va f.a
    let hi := x.reg 1 (va + 1) f.a
    let b := x.srcB f Fmt.ui32
    let p (l : Nat) : BitVec 64 := lane hi.vals l ++ lane lo.vals l
    let half (q : BitVec 64) (j : Nat) : Word := q.extractLsb' (32 * j) 32
    (∀ q ∈ [(Instr.lea f, fun l => leaPtr (f.subBits 2 0) (f.subBit 3) (p l) (lane b.vals l)),
        (.cadr f, fun l => (lane b.vals l).extractLsb' 0 11 ++ 0#9 ++ (p l).extractLsb' 0 44)],
      q.1.wf = true →
      x.ReadyRange f [boundCheck x.regs (dstReg f.d + 1), boundCheck x.regs (va + 1), b.boundCheck x.regs]
        [Use.ptr lo, Use.ptr hi, Use.ptr b] →
        Completes q.1 x s s (x.rangeDst f.d 2) (fun _ => Fmt.ui32) (fun j l => half (q.2 l) j) (fun _ l => anyPois [lo, hi, b] l)) ∧
    ((Instr.cget f).wf = true → f.sub = 0 → y.notReady [Use.ptr lo, Use.ptr hi] = false →
      y.checks f.h.u [dstBound y.regs f.d, boundCheck y.regs (va + 1)] (y.dstWin f.d) [Use.ptr lo, Use.ptr hi] none [] = none →
      y.fifthWindow f.d = false →
      Completes (.cget f) y s s (y.oneDst f.d) (fun _ => Fmt.ui32) (fun _ l => (lane hi.vals l) >>> 21)
        (fun _ l => anyPois [lo, hi] l)) ∧
    ((Instr.cget f).wf = true → f.sub = 1 →
      y.ReadyRange f [boundCheck y.regs (dstReg f.d + 1), boundCheck y.regs (va + 1)] [Use.ptr lo, Use.ptr hi] →
      Completes (.cget f) y s s (y.rangeDst f.d 2) (fun _ => Fmt.ui32)
        (fun j l => half ((p l) ||| (0x7FF#64 <<< 53)) j) (fun _ l => anyPois [lo, hi] l))) ∧
  (∀ (f : VFields) (s : State),
    let x : VCtx := vctx s.dev f.h [dstOperand f.d]
    let v := tidxVal s.dev.curRec s.dev.curWarp.coords (f.subBits 2 0) (f.subBit 3)
    let own := f.h.u = true ∧ v.2 ≠ .uniform
    (Instr.tidx f).wf = true → x.Ready f [] none →
      Completes (.tidx f) x s (if own then { s with dev := (s.dev.draw).2 } else s) (x.oneDst f.d) (fun _ => Fmt.ui32)
        (fun _ l => if own then (s.dev.draw).1 else BitVec.ofNat 32 (v.1 l)) (fun _ _ => false))

/-! ## Floating point and conversions (R175-R188) -/

/-- R176, R177: a two-source floating-point instruction without a subnormal operand or result writes the exactly computed value, rounded once; FMIN
and FMAX pick an element. R176: FFMA and FDOT2 round once, without a subnormal operand or result; FSQRT rounds the exact root. -/
def Obligations.FloatArithmetic : Prop :=
  (∀ (f : VFields) (s : State),
    let x := vIn f s 2
    let t := f.h.ty
    let a := x.src 1 f.a
    let b := x.srcB f t
    let av (l i : Nat) := elemVal t (lane a.vals l) i
    let bv (l i : Nat) := elemVal t (lane b.vals l) i
    (∀ p ∈ [(Instr.fadd f, true, fun m n : FVal => FVal.add f.h.rm m n), (.fsub f, true, fun m n => FVal.add f.h.rm m n.negate),
        (.fmul f, true, FVal.mul), (.fdiv f, false, FVal.div)],
      p.1.wf = true → x.Ready f [Use.of a t, Use.of b t] none →
      (p.2.1 = true →
        replayMask x.act [{ src := a, fmt := t }, { src := b, fmt := t }] t (fun l i => p.2.2 (av l i) (bv l i)) = 0) →
        Completes p.1 x s s (x.oneDst f.d) (fun _ => t) (fun _ l => floatLane t f.h.rm f.h.s (fun i => p.2.2 (av l i) (bv l i)))
          (fun _ l => anyPois [a, b] l)) ∧
    (∀ p ∈ [(Instr.fmin f, false), (.fmax f, true)],
      p.1.wf = true → x.Ready f [Use.of a t, Use.of b t] none →
        Completes p.1 x s s (x.oneDst f.d) (fun _ => t)
          (fun _ l => (List.range (elems t)).foldl (fun w i =>
            insCode t w i (minMaxCode t p.2 (f.subBit 0) (elemCode t (lane a.vals l) i) (elemCode t (lane b.vals l) i))) 0)
          (fun _ l => anyPois [a, b] l))) ∧
  (∀ (f : VFields) (s : State),
    let x := vIn f s 3
    let y := vIn f s 1
    let t := f.h.ty
    let a := x.src 1 f.a
    let b := x.srcB f t
    let c := x.srcC f
    let e := y.src 1 f.a
    let av (l i : Nat) := elemVal t (lane a.vals l) i
    let bv (l i : Nat) := elemVal t (lane b.vals l) i
    (∀ p ∈ [(Instr.ffma f, t, fun l i => FVal.add f.h.rm (FVal.mul (av l i) (bv l i)) (elemVal t (lane c.vals l) i)),
        (.fdot2 f, Fmt.f32, fun l _ =>
          FVal.sum f.h.rm [elemVal Fmt.f32 (lane c.vals l) 0, FVal.mul (av l 0) (bv l 0), FVal.mul (av l 1) (bv l 1)])],
      p.1.wf = true → x.Ready f [Use.of a t, Use.of b t, Use.of c p.2.1] none →
      replayMask x.act [{ src := a, fmt := t }, { src := b, fmt := t }, { src := c, fmt := p.2.1 }] p.2.1 p.2.2 = 0 →
        Completes p.1 x s s (x.oneDst f.d) (fun _ => p.2.1) (fun _ l => floatLane p.2.1 f.h.rm f.h.s (p.2.2 l))
          (fun _ l => anyPois [a, b, c] l)) ∧
    ((Instr.fsqrt f).wf = true → y.Ready f [Use.of e t] none →
      Completes (.fsqrt f) y s s (y.oneDst f.d) (fun _ => t)
        (fun _ l => (List.range (elems t)).foldl (fun w i =>
          insCode t w i ((floatFmt t).roundSqrt f.h.rm f.h.s (elemVal t (lane e.vals l) i))) 0)
        (fun _ l => anyPois [e] l)))

/-- R147: an FADD, FSUB, FMUL, FFMA or FDOT2 with a subnormal operand or result in an active lane is replayed: SUBREP counts it, its destination
lanes are reserved, and its warp leaves the active set until the result is written. R147: a replayed instruction's results are written more than 16
ticks after its issue: every lane that it names and that no later instruction has written takes its value and poison; the register takes the tag,
unless a later instruction has written it. A result of uniform sources (`uni`) holds one value. -/
def Obligations.SubnormalReplay : Prop :=
  (∀ (f : VFields) (s : State),
    let x := vIn f s 2
    let t := f.h.ty
    let a := x.src 1 f.a
    let b := x.srcB f t
    let av (l i : Nat) := elemVal t (lane a.vals l) i
    let bv (l i : Nat) := elemVal t (lane b.vals l) i
    ∀ p ∈ [(Instr.fadd f, fun m n : FVal => FVal.add f.h.rm m n), (.fsub f, fun m n => FVal.add f.h.rm m n.negate), (.fmul f, FVal.mul)],
      p.1.wf = true → x.Ready f [Use.of a t, Use.of b t] none →
      replayMask x.act [{ src := a, fmt := t }, { src := b, fmt := t }] t (fun l i => p.2 (av l i) (bv l i)) ≠ 0 →
        Replays p.1 f x s t (fun l => floatLane t f.h.rm f.h.s (fun i => p.2 (av l i) (bv l i))) (anyPois [a, b])) ∧
  (∀ (f : VFields) (s : State),
    let x := vIn f s 3
    let t := f.h.ty
    let a := x.src 1 f.a
    let b := x.srcB f t
    let c := x.srcC f
    let av (l i : Nat) := elemVal t (lane a.vals l) i
    let bv (l i : Nat) := elemVal t (lane b.vals l) i
    ∀ p ∈ [(Instr.ffma f, t, fun l i => FVal.add f.h.rm (FVal.mul (av l i) (bv l i)) (elemVal t (lane c.vals l) i)),
        (.fdot2 f, Fmt.f32, fun l _ =>
          FVal.sum f.h.rm [elemVal Fmt.f32 (lane c.vals l) 0, FVal.mul (av l 0) (bv l 0), FVal.mul (av l 1) (bv l 1)])],
      p.1.wf = true → x.Ready f [Use.of a t, Use.of b t, Use.of c p.2.1] none →
      replayMask x.act [{ src := a, fmt := t }, { src := b, fmt := t }, { src := c, fmt := p.2.1 }] p.2.1 p.2.2 ≠ 0 →
        Replays p.1 f x s p.2.1 (fun l => floatLane p.2.1 f.h.rm f.h.s (p.2.2 l)) (anyPois [a, b, c])) ∧
  (∀ (c op : Nat) (s : State) (o : MemOp),
    let w := s.dev.warp c o.slot
    (s.dev.col c).op? op = some o → o.kind = .replay →
    (s.dev.now ≤ o.itick + 16 → exec (.subnormalReplayDone c op) s = .next s) ∧
    (o.itick + 16 < s.dev.now →
      (∀ x ∈ o.done, x.lane < 32 ∧ ∀ y ∈ o.done, y.reg = x.reg → y.lane = x.lane → y = x) →
      (o.uni = true → ∀ x ∈ o.done, ∀ y ∈ o.done, y.val = x.val ∧ y.pois = x.pois) →
      ∃ u, exec (.subnormalReplayDone c op) s = .next u ∧ u.vault = s.vault ∧ (u.dev.col c).op? op = none ∧
        ∀ x ∈ o.done,
          let v := u.dev.warp c o.slot
          (o.dead x.reg x.lane = false → v.laneOf x.reg x.lane = x.val ∧ (v.reg x.reg).data.pois x.lane = x.pois ∧
            (v.reg x.reg).fmt = if o.killed.any (fun k => k.1 == x.reg) then (w.reg x.reg).fmt else o.fmt) ∧
          (o.dead x.reg x.lane = true → v.laneOf x.reg x.lane = w.laneOf x.reg x.lane)))

/-- R178, R179: FCLASS and the special functions. The special functions' values are free within the bound of R179 (log 9); the model's choices there are
that a packed operand keeps the exact results (log 122) and that an underflow is rounded to nearest (log 123). -/
def Obligations.SpecialFunctionsAndClass : Prop :=
  ∀ (f : VFields) (s : State),
    let x := vIn f s 1
    let t := f.h.ty
    let a := x.src 1 f.a
    (∀ p ∈ [(Instr.frcp f, Config.Sfu.rcp), (.frsq f, .rsq), (.fex2 f, .ex2), (.flg2 f, .lg2), (.fsin f, .sin), (.fcos f, .cos),
        (.ftanh f, .tanh)],
      p.1.wf = true → x.Ready f [Use.of a t] none →
        Completes p.1 x s s (x.oneDst f.d) (fun _ => t)
          (fun _ l => (List.range (elems t)).foldl (fun w i => insCode t w i (sfuCode p.2 t (elemCode t (lane a.vals l) i))) 0)
          (fun _ l => anyPois [a] l)) ∧
    ((Instr.fclass f).wf = true → x.Ready f [Use.of a t] none →
      Completes (.fclass f) x s s (x.oneDst f.d) (fun _ => Fmt.ui32) (fun _ l => classWord t (lane a.vals l)) (fun _ l => anyPois [a] l))

/-- R180, R181, R183: CVT and QNT convert under their rounding, draw from the generators under .sr, and set NANLOST where a NaN is lost. R183-R185:
DQNT, PACK, UNPK and RETAG. The model's choices: the generator that draws under U with .sr (log 12), a conversion to an integer under .sr (log 26),
and QNT under the scale 0 (log 27). -/
def Obligations.Conversions : Prop :=
  (∀ (f : VFields) (s : State),
    let x := vIn f s 1
    let y := vIn f s 2
    let t := f.h.ty
    let sf : BitVec 5 := f.bc.extractLsb' 16 5
    let sr := f.subBit 0
    let keep := decide (elems sf < elems t)
    let a := x.src 1 f.a
    let old := x.old f.d
    let c (l : Nat) := cvtLane sf t f.h.rm f.h.s (f.subBits 3 1)
      (fun i => if sr then some (drawAt x.w (x.drawLane f.h.u l) i) else none) (lane a.vals l) (lane old.vals l)
    let m := y.src 1 f.a
    let n := y.src 2 f.b
    let o := y.old f.d
    let q (l : Nat) := qntElem t f.h.rm (if sr then some (drawAt y.w (y.drawLane f.h.u l) 0) else none)
      (elemVal Fmt.f32 (lane m.vals l) 0) (lane n.vals l)
    ((Instr.cvt f).wf = true → x.Ready f (Use.of a sf :: (if keep then [Use.of old t] else [])) none →
      Completes (.cvt f) x s
        { s with dev := x.converted sr f.h.u ((Mask.list x.act).any (fun l => (c l).2)) (min (elems sf) (elems t)) s.dev }
        (x.oneDst f.d) (fun _ => t) (fun _ l => (c l).1) (fun _ l => anyPois (if keep then [a, old] else [a]) l)) ∧
    ((Instr.qnt f).wf = true → y.Ready f [Use.of m Fmt.f32, Use.of n Fmt.ui32, Use.of o t] none →
      Completes (.qnt f) y s
        { s with dev := y.converted sr f.h.u ((Mask.list y.act).any (fun l => (q l).2)) 1 s.dev }
        (y.oneDst f.d) (fun _ => t) (fun _ l => insCode t (lane o.vals l) (f.subBits 3 1) (q l).1) (fun _ l => anyPois [m, n, o] l))) ∧
  (∀ (f : VFields) (s : State),
    let x := vIn f s 2
    let y := vIn f s 1
    let t := f.h.ty
    let a := x.src 1 f.a
    let b := x.src 2 f.b
    let e := y.src 1 f.a
    let it := if f.subBit 4 then Fmt.i4x8 else Fmt.i8x4
    let h := elems t / 2
    let code (w : Word) (i : Nat) : Nat := elemCode t w (i + if f.subBit 0 then h else 0)
    ((Instr.dqnt f).wf = true → x.Ready f [Use.of a it, Use.of b Fmt.ui32] none →
      Completes (.dqnt f) x s s (x.oneDst f.d) (fun _ => Fmt.f32)
        (fun _ l => BitVec.ofNat 32 (FloatFmt.fp32.round f.h.rm f.h.s (FVal.mul (groupScale (lane b.vals l))
          (FVal.ofInt (elemInt it (lane a.vals l) (f.subBits 3 1) - groupZero (lane b.vals l))))))
        (fun _ l => anyPois [a, b] l)) ∧
    ((Instr.pack f).wf = true → x.Ready f [Use.of a t, Use.of b t] none →
      ∃ u, exec (.pack f) s = .next u ∧ ∃ v, Retires x s u (x.oneDst f.d) (fun _ => t) (fun _ => v) (fun _ l => anyPois [a, b] l) ∧
        ∀ l i, i < h → elemCode t (v l) i = code (lane a.vals l) i ∧ elemCode t (v l) (h + i) = code (lane b.vals l) i) ∧
    ((Instr.unpk f).wf = true → y.Ready f [Use.of e t] none →
      ∃ u, exec (.unpk f) s = .next u ∧ ∃ v, Retires y s u (y.oneDst f.d) (fun _ => t) (fun _ => v) (fun _ l => anyPois [e] l) ∧
        ∀ l i, i < h → elemCode t (v l) i = code (lane e.vals l) i ∧ elemCode t (v l) (h + i) = 0) ∧
    ((Instr.retag f).wf = true → y.Ready f [Use.any e] none →
      Completes (.retag f) y s s (y.oneDst f.d) (fun _ => t)
        (fun _ l => if t = Fmt.e2m3x4 ∨ t = Fmt.e3m2x4 then lane e.vals l &&& 0x3F3F3F3F#32 else lane e.vals l)
        (fun _ l => anyPois [e] l)))

/-- R182, R230: CVTB. Decoding writes the 24 values of a block, each scaled and rounded; encoding writes the block's elements, and their scale into
the companion register that each lane names, which lies outside the elements' range (where it does not, log 13); under .sr each lane draws in
element order (R143). The model's choices: the generator that draws under U (log 12), the crossbar pattern of the companion field (log 105), and the
scale of a block with no finite value (log 121). -/
def Obligations.BlockConversions : Prop :=
  ∀ (f : VFields) (s : State),
    let x : VCtx := vctx s.dev f.h [f.b]
    let t := f.h.ty
    let wt := wideFmt (f.subBit 4)
    let nw := wideRegs (f.subBit 4)
    let k := blockRegs t
    let sr := f.subBit 1
    let va := f.a.reg.toNat
    let small := (List.range k).map (fun i => x.reg 1 (va + i) f.a)
    let wide := (List.range nw).map (fun i => x.reg 1 (va + i) f.a)
    let comp := x.src 2 f.b
    let sc (l : Nat) := e8m0Value ((lane comp.vals l).toNat / 2 ^ (8 * f.subBits 3 2) % 256)
    let old := { x.oldOf f.b with code := 2 }
    let vc (l : Nat) := if f.b.ind then regAt x.w x.act x.pre f.b l else f.b.reg.toNat
    let vals (l : Nat) := (List.range 24).map (rangeVal wt wide l)
    let draw (l i : Nat) := if sr then some (drawAt x.w (x.drawLane f.h.u l) i) else none
    let elem (l i : Nat) := blockElem t f.h.rm (draw l i) (blockScale t (vals l)) ((vals l).getD i (.fin false 0 1))
    ((Instr.cvtb f).wf = true → f.subBit 0 = true →
      x.ReadyRange f [boundCheck x.regs (dstReg f.d + nw - 1), boundCheck x.regs (va + k - 1), comp.boundCheck x.regs]
        (small.map (fun i => Use.of i t) ++ [Use.of comp Fmt.e8m0x4]) →
      Completes (.cvtb f) x s s (x.rangeDst f.d nw) (fun _ => wt)
        (fun j l => (List.range (elems wt)).foldl (fun w e => insCode wt w e ((floatFmt wt).round f.h.rm f.h.s
          (FVal.mul (sc l) (rangeVal t small l (j * elems wt + e))))) 0)
        (fun j l => anyPois (comp :: (small[j * elems wt / elems t]?).toList) l)) ∧
    ((Instr.cvtb f).wf = true → f.subBit 0 = false → (f.b.ind = true → x.windowsFull = false) →
      (∀ l, l < 32 → Mask.has x.act l = true → vc l < dstReg f.d ∨ dstReg f.d + k ≤ vc l) →
      x.ReadyRange f [boundCheck x.regs (dstReg f.d + k - 1), boundCheck x.regs (va + nw - 1), old.boundCheck x.regs]
        (wide.map (fun i => Use.of i wt) ++ [Use.of old Fmt.e8m0x4]) →
      Completes (.cvtb f) x s { s with dev := x.converted sr f.h.u false 24 s.dev }
        (fun j l => if Mask.has x.act l then (if j < k then some (dstReg f.d + j) else if j = k then some (vc l) else none) else none)
        (fun j => if j < k then t else Fmt.e8m0x4)
        (fun j l => if j < k then (List.range (elems t)).foldl (fun w e => insCode t w e (elem l (j * elems t + e))) 0
          else setByte (lane old.vals l) (f.subBits 3 2) (BitVec.ofNat 8 (blockScale t (vals l))))
        (fun j l => anyPois (if j < k then wide else old :: wide) l))

/-! ## Lanes, index registers and control flow (R126-R134, R189-R202) -/

/-- R193, R194: LGET and LPUT inside the tiles of a warp. R195: a butterfly exchanges two registers between partner lanes; distance 0 changes
nothing. A moved FP6 word has zero between its elements (R133). The model's choices: LGET's result is poisoned by its index operand too (log 28), and
its fill register passes C's crossbar pattern (log 126). That a poisoned index leaves a record where the predicate is written is R441. -/
def Obligations.LaneMoves : Prop :=
  (∀ (f : VFields) (s : State),
    let x : VCtx := vctx s.dev f.h []
    let wd := x.w.tileW
    let mode := f.subBits 1 0
    let p := f.subBits 6 4
    let a := x.src 1 f.a
    let b := x.srcB f Fmt.raw
    let fills := mode == 2 && !f.vi
    let v := if fills then x.src 3 f.c else a
    let g (l : Nat) := lgetSrc mode wd l (lane b.vals l)
    let dst (l : Nat) : Nat := tileBase wd l + (lane b.vals l).toNat % 32 % wd
    let push (m : Nat) : List Nat := (Mask.list x.act).filter (fun l => dst l == m)
    let ub := if f.vi then [] else [Use.any b]
    ((Instr.lget f).wf = true →
      x.Ready f ([Use.any a] ++ ub ++ (if fills then [{ Use.any v with eq := some a.tag }] else [])) none →
      Completes (.lget f) x s
        { s with dev := optPred x p (Mask.of (fun l => (g l).2)) (if mode = 2 then b.pois &&& x.act else 0) s.dev }
        (x.oneDst f.d) (fun _ => a.tag) (fun _ l => padded a.tag (if (g l).2 then lane a.vals (g l).1 else lane v.vals (g l).1))
        (fun _ l => Mask.has (if (g l).2 then a else v).pois (g l).1 || Mask.has b.pois l)) ∧
    ((Instr.lput f).wf = true →
      x.notReady ([Use.any a] ++ ub) = false →
      x.checks false (dstBound x.regs f.d :: x.bounds ([Use.any a] ++ ub)) none ([Use.any a] ++ ub) none [] = none →
      ∃ u, exec (.lput f) s = .next u ∧ u.dev.issued = .retired ∧ u.vault = s.vault ∧ u.dev.curWarp.pc = s.nextPc ∧
        (∀ m, m < 32 → u.reg (dstReg f.d) m =
          if Mask.has x.act m ∧ push m ≠ [] then padded a.tag (lane a.vals ((push m).getLastD 0)) else s.reg (dstReg f.d) m) ∧
        (∀ r, r ≠ dstReg f.d → u.dev.curWarp.reg r = s.dev.curWarp.reg r) ∧
        (∀ m, m < 32 → 1 ≤ p → Mask.has (u.dev.curWarp.pred p) m =
          if Mask.has x.act m then !(push m).isEmpty else Mask.has (s.dev.curWarp.pred p) m) ∧
        u.dev.curWarp.wstat = s.dev.curWarp.wstat ||| (if (List.range 32).any (fun m => decide (2 ≤ (push m).length)) then 4 else 0) ∧
        { u.dev.curWarp with preds := s.dev.curWarp.preds, wstat := s.dev.curWarp.wstat }.rest = s.dev.curWarp.rest)) ∧
  (∀ (f : VFields) (s : State),
    let x : VCtx := vctx s.dev f.h []
    let wd := x.w.tileW
    let ra := f.a.reg.toNat
    let rb := f.b.reg.toNat
    let d := f.subBits 4 0 % wd
    let sel (l : Nat) : Bool :=
      if f.subBit 5 then Mask.has (s.dev.curWarp.pred (f.c.bits.toNat % 8)) l else (l % wd).testBit (Nat.log2 d)
    let q (l : Nat) : Nat := tileBase wd l + ((l % wd) ^^^ d)
    let us := [Use.any (x.src 1 f.a), { Use.any (x.src 2 f.b) with eq := some (x.src 1 f.a).tag }]
    (Instr.bfly f).wf = true → x.notReady us = false →
    x.checks false (x.bounds us) none us none [] = none →
      ∃ u, exec (.bfly f) s = .next u ∧ u.dev.issued = .retired ∧ OnlyWarp s u ∧ u.dev.curWarp.pc = s.nextPc ∧
        u.dev.curWarp.rest = s.dev.curWarp.rest ∧ (d = 0 → u.dev.curWarp.regs = s.dev.curWarp.regs) ∧
        (d ≠ 0 → ∀ r l, l < 32 → u.reg r l =
          if Mask.has x.act l ∧ r = (if ra = rb ∨ sel l then ra else rb) then padded (s.readReg ra).fmt (s.reads (if sel (q l) then ra else rb) (q l))
          else s.reg r l))

/-- R188, R196-R198: SETPART, the votes, MATCH and ELECT over the active set of each tile. R199-R201: REDC combines the active lanes of each tile,
SCAN the active lanes up to each lane from the last restart on. The model's choice: a minimum or maximum whose terms are all NaN is the canonical NaN
(log 128). -/
def Obligations.VotesAndReductions : Prop :=
  (∀ (f : VFields) (s : State),
    let x : VCtx := vctx s.dev f.h []
    let wd := x.w.tileW
    let ms (l : Nat) := tileSet wd x.act l
    let pa := s.dev.curWarp.pred (f.a.bits.toNat % 8)
    let a := x.src 1 f.a
    let v (l : Nat) := lane a.vals l
    let mm := f.subBits 1 0
    let all := Mask.of (fun l => (ms l).all (fun m => v m == v l))
    let marked : State := { s with dev := optPred x (f.subBits 4 2) all (Mask.of (fun l => (ms l).any (Mask.has a.pois)) &&& x.act) s.dev }
    ((Instr.setpart f).wf = true → s.selected f.h →
      exec (.setpart f) s = .next { s with dev := {
        ((s.dev.modCurWarp (fun w => { w with wlog := f.imm.extractLsb' 0 3 })).hint f.hint).advance with issued := .retired } }) ∧
    ((Instr.poll f).wf = true → f.subBits 2 0 < 4 → x.ReadyPred f [] none →
      ∃ u, exec (.poll f) s = .next u ∧ SetsPred x s u (f.d.toNat % 8) (fun l => pollBit (f.subBits 2 0) pa (ms l))) ∧
    ((Instr.poll f).wf = true → 4 ≤ f.subBits 2 0 → x.Ready f [] none →
      Completes (.poll f) x s s (x.oneDst f.d) (fun _ => Fmt.ui32) (fun _ l => pollWord (f.subBits 2 0) wd l pa (ms l))
        (fun _ _ => false)) ∧
    ((Instr.match_ f).wf = true → x.Ready f [Use.any a] none →
      Completes (.match_ f) x s
        (if mm = 3 then marked else s)
        (x.oneDst f.d) (fun _ => Fmt.ui32) (fun _ l => matchWord mm wd l v (ms l)) (fun _ l => (ms l).any (Mask.has a.pois))) ∧
    ((Instr.elect f).wf = true → x.ReadyPred f [] none →
      ∃ u, exec (.elect f) s = .next u ∧ SetsPred x s u (f.d.toNat % 8) (fun l =>
        (if f.subBit 0 then (ms l).getLast? else (ms l).head?) == some l))) ∧
  (∀ (f : VFields) (s : State),
    let x : VCtx := vctx s.dev f.h []
    let wd := x.w.tileW
    let t := f.h.ty
    let a := x.src 1 f.a
    let ms (l : Nat) := tileSet wd x.act l
    let ps : Mask := if f.subBits 6 4 = 0 then 0 else s.dev.curWarp.pred (f.subBits 6 4)
    let terms (l : Nat) := scanTerms ps (f.subBit 3) (ms l) l
    ((Instr.redc f).wf = true → x.Ready f [logicUse t a] none →
      Completes (.redc f) x s s (x.oneDst f.d) (fun _ => t) (fun _ l => combine (f.subBits 2 0) t f.h.s ((ms l).map (lane a.vals)))
        (fun _ l => (ms l).any (Mask.has a.pois))) ∧
    ((Instr.scan f).wf = true → x.Ready f [logicUse t a] none →
      Completes (.scan f) x s s (x.oneDst f.d) (fun _ => t) (fun _ l => combine (f.subBits 2 0) t f.h.s ((terms l).map (lane a.vals)))
        (fun _ l => (terms l).any (Mask.has a.pois))))

/-- R238-R241: the index-register instructions; each changes one index register, or writes one register from it. -/
def Obligations.IndexRegisters : Prop :=
  ∀ (f : VFields) (s : State),
    let x : VCtx := vctx s.dev f.h []
    let w := s.dev.curWarp
    let i := f.d.toNat % 16
    let r := w.ixr i
    let src := if f.vi then Src.const 1 f.imm Fmt.ui32 else x.src 1 f.a
    let step := x.src 2 f.b
    let delta (l : Nat) : Int :=
      if f.vi then signedOf 8 f.imm.toNat else if f.subBit 1 then r.stride.toInt else signedOf 8 (lane step.vals l).toNat
    let moved (u : State) (new : IxReg) : Prop :=
      u.dev.issued = .retired ∧ OnlyWarp s u ∧ u.dev.curWarp.pc = s.nextPc ∧ u.dev.curWarp.regs = w.regs ∧
        u.dev.curWarp.rest = w.rest ∧ u.dev.curWarp.ixr i = new ∧ ∀ j, j < 16 → j ≠ i → u.dev.curWarp.ixr j = w.ixr j
    ((Instr.ixset f).wf = true → s.selected f.h → x.notReady [Use.ptr src] = false →
      firstTrap [src.boundCheck x.regs, src.uniCheck, (Use.ptr src).tagCheck, windowBound x.regs (lane src.vals 0),
        src.poisCheck Mask.all] = none →
      ∃ u, exec (.ixset f) s = .next u ∧ moved u {
        base := (lane src.vals 0).extractLsb' 0 8, bound := (lane src.vals 0).extractLsb' 8 9,
        stride := (lane src.vals 0).extractLsb' 24 8, idx := if f.subBit 0 then Vector.replicate 32 0 else r.idx }) ∧
    ((Instr.ixld f).wf = true → (f.vi = true ∨ (x.notReady [Use.ptr src] = false ∧
        firstTrap [src.boundCheck x.regs, (Use.ptr src).tagCheck, src.poisCheck x.act] = none)) →
      ∃ u, exec (.ixld f) s = .next u ∧ moved u { r with idx := tab (fun l =>
        if Mask.has x.act l then
          (if f.subBit 0 then lane r.idx l + (lane src.vals l).extractLsb' 0 8 else (lane src.vals l).extractLsb' 0 8)
        else lane r.idx l) }) ∧
    ((Instr.ixmov f).wf = true → x.Ready f [] none →
      Completes (.ixmov f) x s s (x.oneDst f.d) (fun _ => Fmt.ui32)
        (fun _ l => ixmovWord (f.subBits 1 0) (w.ixr (f.a.bits.toNat % 16)) l) (fun _ _ => false)) ∧
    ((Instr.ixadv f).wf = true → (f.subBit 0 = true → r.bound ≠ 0) →
      (f.vi = true ∨ f.subBit 1 = true ∨ (x.notReady [Use.ptr step] = false ∧
        firstTrap [step.boundCheck x.regs, (Use.ptr step).tagCheck] = none)) →
      ∃ u, exec (.ixadv f) s = .next u ∧ moved u { r with idx := tab (fun l =>
        if Mask.has x.act l then
          BitVec.ofInt 8 (if f.subBit 0 then ((lane r.idx l).toNat + delta l) % (r.bound.toNat : Int) else (lane r.idx l).toNat + delta l)
        else lane r.idx l) })

/-- R126: NOP has no effect beyond advancing the PC; the all-zero word is its one encoding; it does not pair. -/
def Obligations.NopOnlyAdvances : Prop :=
  (∀ (f : CFields) (s : State),
    exec (.nop f) s = .next { s with dev := { s.dev.modCurWarp (fun w => { w with pc := s.nextPc }) with issued := .retired } }) ∧
  (∀ (w : Insn) (f : CFields), decode w = .ok (.nop f) → w = 0 ∧ 
    f = { h := { ty := 0, u := false, s := false, rm := 0, gn := false, gp := 0 }, tgt := 0, rcv := 0, ur := 0, sub := 0 }) ∧
  (∃ f, decode 0 = .ok (.nop f)) ∧ pairMajor 0x00 = false

/-- R157: BRA, with its target and its reconvergence slot checked: all enabled lanes take it, none does, or both sides wait on the stack; pushes
that would take the stack above 32 entries raise the stack trap. R156, R159-R161: the transfers without a stack of lanes. BRX takes its target from a
uniform pair; CALL pushes the slot after it; RET pops it; LOOP counts its uniform register down in all lanes and jumps while it is not zero. R160: a
CALL at a depth of 16 or more first stores the lowest entry of the warp into the private window by two stores, a RET at a depth above 16 loads an
entry back by two loads, and with both words the entry stands below the warp's others; the stack trap is raised at the depths 31 and 0, and where the
window is too small. R158: JOIN pops the first stack entry that has a live lane, and goes on to
its slot, or past itself where that is its own; with no such entry the stack is emptied, WSTAT[3] is set and the warp goes on. -/
def Obligations.Branches : Prop :=
  (∀ (f : CFields) (s : State),
    let w := s.dev.curWarp
    let tgt := s.dev.cur.pc + f.tgt.signExtend 48
    let j := s.dev.cur.pc + f.rcv.signExtend 48
    let taken := w.act f.h
    let first := s.checkTarget s.dev.cur.col w.ctx s.dev.cur.priv tgt
    let pushed : List StackEntry :=
      (if s.dev.cur.pc + 1 = j then [] else [{ slot := s.dev.cur.pc + 1, mask := w.e &&& ~~~taken }]) ++ [{ slot := j, mask := w.e }]
    let onlyPc (pc : BitVec 48) : Prop :=
      ∃ u, exec (.bra f) s = .next u ∧ u.dev.issued = .retired ∧ u.vault = s.vault ∧ u.dev.curWarp = { w with pc := pc }
    first.1 = .ok → ({ s with dev := first.2 }.checkTarget s.dev.cur.col w.ctx s.dev.cur.priv j).1 = .ok →
      (taken = w.e → onlyPc tgt) ∧ (taken ≠ w.e → taken = 0 → onlyPc s.nextPc) ∧
      (taken ≠ w.e → taken ≠ 0 → w.rstack.length + pushed.length ≤ 32 →
        ∃ u, exec (.bra f) s = .next u ∧ u.dev.issued = .retired ∧ u.vault = s.vault ∧
          u.dev.curWarp = { w with rstack := pushed ++ w.rstack, enabled := taken, pc := tgt }) ∧
      (taken ≠ w.e → taken ≠ 0 → 32 < w.rstack.length + pushed.length →
        exec (.bra f) s = .next (s.trapEntry { cause := 0x16 } false))) ∧
  (∀ (f : CFields) (s : State),
    let w := s.dev.curWarp
    let r := f.ur.toNat
    let pc := (s.reads (r + 1) 0).extractLsb' 0 16 ++ s.reads r 0
    let tgt := s.dev.cur.pc + f.tgt.signExtend 48
    let use (r : Nat) : Use := s.dev.uniUse 4 r 0 0
    let ok (pc : BitVec 48) : Prop := (s.checkTarget s.dev.cur.col w.ctx s.dev.cur.priv pc).1 = .ok
    let next (i : Instr) (v : Warp) : Prop :=
      ∃ u, exec i s = .next u ∧ u.dev.issued = .retired ∧ u.vault = s.vault ∧ u.dev.curWarp = v
    s.selected f.h →
      (s.dev.curCol.busy s.dev.cur.slot [r, r + 1] = false → s.dev.uniTrap (r + 1) [use r, use (r + 1)] [] = none → ok pc →
        next (.brx f) { w with pc := pc }) ∧
      (ok tgt → w.retDepth < 16 → w.retLoads = [] →
        next (.call f) { w with retTop := (s.dev.cur.pc + 1) :: w.retTop, retDepth := w.retDepth + 1, pc := tgt }) ∧
      (0 < w.retDepth → w.retDepth ≤ 16 → w.retLoads = [] →
        next (.ret f) { w with retTop := w.retTop.drop 1, retDepth := w.retDepth - 1, pc := w.retTop.headD 0 }) ∧
      (s.dev.curCol.busy s.dev.cur.slot [r] = false → s.dev.uniTrap r [use r] [] = none → ok tgt →
        ∃ u, exec (.loop f) s = .next u ∧ u.dev.issued = .retired ∧ u.vault = s.vault ∧
          (∀ l, l < 32 → u.reg r l = s.reads r 0 - 1) ∧ u.tag r = (s.readReg r).fmt ∧
          (∀ q, q ≠ r → u.dev.curWarp.reg q = w.reg q) ∧
          u.dev.curWarp.pc = (if s.reads r 0 = 1 then s.nextPc else tgt) ∧ u.dev.curWarp.rest = { w with stallUntil := 0 }.rest)) ∧
  (∀ (f : CFields) (s : State),
    let w := s.dev.curWarp
    let n := w.retDepth
    let z := s.dev.pwin
    let tgt := s.dev.cur.pc + f.tgt.signExtend 48
    let ok : Prop := (s.checkTarget s.dev.cur.col w.ctx s.dev.cur.priv tgt).1 = .ok
    let entry (j h : Nat) : Nat := winWord z s.dev.cur.slot (z / 4 - 30 + 2 * j + h) 0 % 2 ^ 44
    let word (h : Nat) : Word := if h = 0 then (w.retTop.getLastD 0).extractLsb' 0 32 else ((w.retTop.getLastD 0).extractLsb' 32 16).setWidth 32
    let load (d : Dev) (h : Nat) : MemOp := retLoad d (z / 4 - 30 + 2 * (n - 17) + h) (h == 1)
    let one := s.startLoad (load s.dev 0) .load false s.dev.cur.priv
    let two := { s with dev := one.1 }.startLoad (load one.1 1) .load false s.dev.cur.priv
    s.selected f.h →
      (ok → (n = 31 ∨ 16 ≤ n ∧ z < 120) → exec (.call f) s = .next (s.trapEntry { cause := 0x16, einfo := 1 } false)) ∧
      (n = 0 → exec (.ret f) s = .next (s.trapEntry { cause := 0x16, einfo := 3 } false)) ∧
      (ok → 16 ≤ n → n < 31 → 120 ≤ z → w.retLoads = [] → 2 ≤ s.dev.curCol.logFree → w.stores ≤ 61 →
        ∃ u, exec (.call f) s = .next u ∧ u.dev.issued = .retired ∧ u.vault = s.vault ∧
          u.dev.curWarp =
            { w with retTop := (s.dev.cur.pc + 1) :: w.retTop.dropLast, retDepth := n + 1, pc := tgt, stores := w.stores + 2 } ∧
          ∀ h, h < 2 →
            (∃ o ∈ u.dev.curCol.ops, o.kind = .store ∧ o.slot = s.dev.cur.slot ∧
              ∃ a ∈ o.lanes, a.lane = 0 ∧ a.off = entry (n - 16) h ∧ a.size = 4 ∧ a.data = [word h]) ∨
            ∃ e ∈ u.dev.curCol.log, e.slot = s.dev.cur.slot ∧ e.acc.lane = 0 ∧ e.acc.off = entry (n - 16) h ∧ e.acc.data = [word h]) ∧
      (16 < n → n ≤ 31 → w.retLoads = [] → w.loads ≤ 61 → one.2 = true → two.2 = true →
        ∃ u, exec (.ret f) s = .next u ∧ u.dev.issued = .retired ∧ u.vault = s.vault ∧
          u.dev.curWarp.pc = w.retTop.headD 0 ∧ u.dev.curWarp.retTop = w.retTop.drop 1 ∧ u.dev.curWarp.retDepth = n - 1 ∧
          u.dev.curWarp.loads = w.loads + 2 ∧ u.dev.curWarp.retLoads = [none, none] ∧ u.dev.curWarp.regs = w.regs ∧
          ∀ h, h < 2 → ∃ o ∈ u.dev.curCol.ops, o.kind = .ret (h == 1) ∧ o.slot = s.dev.cur.slot)) ∧
  (∀ (w : Warp) (lo hi : Word), w.retLoads = [none, none] →
    ((w.retLoaded false lo).retLoaded true hi).retTop = w.retTop ++ [hi.extractLsb' 0 16 ++ lo] ∧
    ((w.retLoaded true hi).retLoaded false lo).retTop = w.retTop ++ [hi.extractLsb' 0 16 ++ lo] ∧
    ((w.retLoaded true hi).retLoaded false lo).retLoads = [] ∧ ((w.retLoaded false lo).retLoaded true hi).retLoads = []) ∧
  (∀ (f : CFields) (s : State) (dead rest : List StackEntry) (x : StackEntry),
    let w := s.dev.curWarp
    let next (v : Warp) : Prop :=
      exec (.join f) s = .next { s with dev := { s.dev.modCurWarp (fun _ => v) with issued := .retired } }
    (∀ y ∈ dead, y.mask &&& ~~~w.retired = 0) →
      (w.rstack = dead ++ x :: rest → x.mask &&& ~~~w.retired ≠ 0 →
        next { w with rstack := rest, enabled := x.mask &&& ~~~w.retired,
                      pc := if x.slot = s.dev.cur.pc then s.dev.cur.pc + 1 else x.slot }) ∧
      (w.rstack = dead → next { w with rstack := [], wstat := w.wstat ||| 8, pc := s.dev.cur.pc + 1 }))

/-- R70, R71, R156: EXIT retires the lanes that it selects; with the last of them, and at TAIL, the warp leaves its slot, unless a load or a tile
operation of it is outstanding, or it needs a retirement tracker entry and all sixteen are in use. R69, R164: SPAWN starts a warp in a free slot of the reserve with a copy of eight registers, and its predicate says
so; with no such slot the predicate becomes false. -/
def Obligations.WarpsEndAndStart : Prop :=
  (∀ (f : CFields) (s : State),
    let c := s.dev.cur.col
    let m := s.dev.curWarp.act f.h
    let all := s.dev.curWarp.retired ||| m
    let ended (i : Instr) : Prop :=
      ∃ u, exec i s = .next u ∧ u.dev.issued = .retired ∧ u.vault = s.vault ∧ (u.dev.col c).warps.has s.dev.cur.slot = false ∧
        ∀ y, y ≠ s.dev.cur.slot → u.dev.warp c y = s.dev.warp c y
    (all ≠ Mask.all → exec (.exit f) s = .next { s with dev := {
      s.dev.modCurWarp (fun w => { w with retired := all, pc := s.nextPc }) with issued := .retired } }) ∧
    (m ≠ 0 → all = Mask.all → s.dev.curCol.endHeld s.dev.now s.dev.cur.slot = false → ended (.exit f)) ∧
    (s.selected f.h → s.dev.curCol.endHeld s.dev.now s.dev.cur.slot = false → ended (.tail f)) ∧
    (s.selected f.h → s.dev.curCol.endHeld s.dev.now s.dev.cur.slot = true →
      exec (.tail f) s = .next { s with dev := { s.dev with issued := .held } })) ∧
  (∀ (f : CFields) (s : State),
    let c := s.dev.cur.col
    let w := s.dev.curWarp
    let r := f.ur.toNat
    let p := f.sub.toNat % 8
    let pc := s.dev.cur.pc + f.tgt.signExtend 48
    let retired (u : State) (on : Mask) : Prop :=
      u.dev.issued = .retired ∧ u.vault = s.vault ∧ u.dev.curWarp = { w.setPred p Mask.all on with pc := s.nextPc }
    s.selected f.h → s.dev.curCol.busy s.dev.cur.slot ((List.range 8).map (fun i => r + i)) = false →
    s.dev.curCol.warps.has s.dev.cur.slot = true → (s.checkTarget c w.ctx s.dev.cur.priv pc).1 = .ok →
      (s.dev.curCol.spawnSlots = [] ∨ s.dev.curCol.regions.regs ≤ r + 7 → ∃ u, exec (.spawn f) s = .next u ∧ retired u 0) ∧
      (s.dev.curCol.spawnSlots ≠ [] → r + 7 < s.dev.curCol.regions.regs →
        ∃ slot ∈ s.dev.curCol.spawnSlots, ∃ u, exec (.spawn f) s = .next u ∧ retired u Mask.all ∧ (u.dev.col c).warps.has slot = true ∧
          (u.dev.warp c slot).pc = pc ∧ (u.dev.warp c slot).coords = w.coords ∧ (u.dev.warp c slot).spawned = true ∧
          (∀ i, i < 8 → (u.dev.warp c slot).reg i = s.readReg (r + i)) ∧
          ∀ y, y ≠ slot → y ≠ s.dev.cur.slot → u.dev.warp c y = s.dev.warp c y))

/-- R162, R163: YIELD gives way to a ready pending warp, or is ranked last once; WAIT goes on when the four counters are within its limits, and else
leaves the active set until they are. -/
def Obligations.YieldAndWait : Prop :=
  ∀ (f : CFields) (s : State),
    let w := s.dev.curWarp
    let lim (i : Nat) : Nat := (f.tgt.extractLsb' (6 * i) 6).toNat
    let within : Prop := w.loads ≤ lim 0 ∧ w.stores ≤ lim 1 ∧ w.copies ≤ lim 2 ∧ w.tiles ≤ lim 3
    let next (i : Instr) (v : Warp) (how : Issued) : Prop :=
      exec i s = .next { s with dev := { s.dev.modCurWarp (fun _ => v) with issued := how } }
    let ready := s.dev.pendingReady s.dev.cur.col s.dev.cur.slot
    s.selected f.h →
      (ready = true → next (.yield f) { w with active := false, entered := s.dev.now, pc := s.nextPc } .retired) ∧
      (ready = false → next (.yield f) { w with yld := true, pc := s.nextPc } .retired) ∧
      (within → next (.wait f) { w with pc := s.nextPc } .retired) ∧
      (¬ within → ∃ u, exec (.wait f) s = .next u ∧ u.dev.issued = .held ∧ u.vault = s.vault ∧ u.dev.curWarp.pc = w.pc ∧
        u.dev.curWarp.regs = w.regs ∧ u.dev.curWarp.active = false ∧ u.dev.curWarp.wait = .counters (lim 0) (lim 1) (lim 2) (lim 3))

/-! ## Traps (R400-R405) -/

/-- R402, R403, R461: a trap taken from unprivileged code, with a window and a vector line that allow it: the PC goes to the cause's vector line in
privileged mode, six stores of lane 1 put the frame into the private window, and nothing else of the warp changes but what waits on it. -/
def Obligations.TrapEntryFrame : Prop :=
  ∀ (s : State) (t : TrapInfo) (defer : Bool) (x : Fetched),
    let w := s.dev.curWarp
    let z := s.dev.pwin
    let epc := if t.next then s.dev.cur.pc + 1 else s.dev.cur.pc
    let u := s.trapEntry t defer
    s.dev.cur.priv = false → 24 ≤ z → s.dev.curCol.log.length ≤ 250 → w.stores ≤ 57 →
    (s.fetchLine s.dev.cur.col w.ctx (vectorOff t.cause)).1 = .ok x → x.sys = true → (∀ b, x.line = some b → lineTgt b 0 = true) →
      u.dev.issued = .trapped ∧ u.vault = s.vault ∧
      u.dev.curWarp = { w with
        pc := vectorPc t.cause, privMode := true, ovf := false, wait := .none, relDone := false, stores := w.stores + 6,
        deferred := if defer then w.deferred.drop 1 else w.deferred } ∧
      (∀ y, y ≠ s.dev.cur.slot → u.dev.warp s.dev.cur.col y = s.dev.warp s.dev.cur.col y) ∧
      ∀ i, i < 6 →
        let off := winWord z s.dev.cur.slot (z / 4 - 6 + i) 1 % 2 ^ 44
        let word := (frameWords t epc s.dev.cur.paired s.dev.cur.second defer w.ovf).getD i 0
        (∃ o ∈ u.dev.curCol.ops, o.kind = .store ∧ o.slot = s.dev.cur.slot ∧
          ∃ a ∈ o.lanes, a.lane = 1 ∧ a.off = off ∧ a.size = 4 ∧ a.data = [word]) ∨
        ∃ e ∈ u.dev.curCol.log, e.slot = s.dev.cur.slot ∧ e.acc.lane = 1 ∧ e.acc.off = off ∧ e.acc.data = [word]

/-- R405: ERET, in privileged mode, takes the PC from a uniform pair and changes nothing else; it checks no target. -/
def Obligations.EretReturns : Prop :=
  ∀ (g : SFields) (s : State),
    let x : VCtx := vctx s.dev g.h []
    let p := x.pair g.a
    s.dev.cur.priv = true → s.selected g.h →
    x.ReadyUni [rangeBound x.regs g.a.reg.toNat 2] [Use.ptr p.1, Use.ptr p.2] [] →
      exec (.eret g) s = .next { s with dev := { s.dev.modCurWarp (fun w => { w with
        pc := (lane p.2.vals 0).extractLsb' 0 16 ++ lane p.1.vals 0 }) with issued := .retired } }

/-- R156, R165, R406: TRAP, SVC and BRK (no debugger attached) take their trap with their number where their guard selects a lane; TRAP and SVC save
the slot after themselves. An attached debugger stops the warp at BRK instead. R404: a trap while the warp runs privileged code resets its context:
on the warp's column no operation, logged store or translation of the context is left. R401: in unprivileged code the privileged instructions, and
the accesses to the privileged special registers, take trap 0x09 (R407); that EINFO holds the PC for ERET, TLBI, CTXSW and TEST is the model's choice
(log 67). -/
def Obligations.TrapsTaken : Prop :=
  (∀ (f : CFields) (s : State),
    let m := s.dev.curWarp.act f.h
    (m ≠ 0 → ∀ p ∈ [(Instr.trap f, 0x20, true), (.svc f, 0x21, true), (.brk f, 0x22, false)],
      (p.1 = .brk f → s.dev.debugger = false) →
        exec p.1 s = .next (s.trapEntry { cause := p.2.1, einfo := f.sub.setWidth 64, emask := m, next := p.2.2 } false)) ∧
    (m ≠ 0 → s.dev.debugger = true → ∃ u, exec (.brk f) s = .next u ∧ u.dev.issued = .retired ∧ u.vault = s.vault ∧
      u.dev.curWarp = { s.dev.curWarp with stopped := true, active := false }) ∧
    (m = 0 → ∀ i ∈ [Instr.trap f, .svc f, .brk f],
      exec i s = .next { s with dev := { s.dev.modCurWarp (fun w => { w with pc := s.nextPc }) with issued := .retired } })) ∧
  (∀ (f : CFields) (s : State),
    let ctx := s.dev.curWarp.ctx
    let c := s.dev.cur.col
    s.dev.cur.priv = true → s.dev.curWarp.act f.h ≠ 0 → (s.dev.ctx ctx).state = .resident → s.dev.ctxs.has ctx = true →
    c ∈ (s.dev.part (s.dev.ctx ctx).part).columns →
      ∃ u, exec (.trap f) s = .next u ∧ u.dev.issued = .trapped ∧ (u.dev.ctx ctx).state = .empty ∧
        (u.dev.col c).warps = [] ∧ (∀ o ∈ (u.dev.col c).ops, o.ctx ≠ ctx) ∧ ∀ e ∈ (u.dev.col c).log, e.ctx ≠ ctx) ∧
  (∀ (f : SFields) (s : State), s.dev.cur.priv = false →
    (∀ i ∈ [Instr.eret f, .tlbi f, .ctxswReset f, .ctxswSave f, .testReq f, .testRes f, .testInj f],
      exec i s = .next (s.trapEntry { cause := 0x09, einfo := s.dev.cur.pc.setWidth 64 } false)) ∧
    (srPrivRead f.sr.toNat = true → exec (.sread f) s = .next (s.trapEntry { cause := 0x09, einfo := f.sr.setWidth 64 } false)) ∧
    (srPrivWrite f.sr.toNat = true → exec (.swrite f) s = .next (s.trapEntry { cause := 0x09, einfo := f.sr.setWidth 64 } false)) ∧
    exec (.swriteLease f) s = .next (s.trapEntry { cause := 0x09, einfo := 5 } false))

/-! ## Memory (R203-R271) -/

/-- R104, R121, R224: a memory instruction that no lane executes, and whose registers pass the checks that concern no lane, only advances the PC; that
it reads no tensor record is the model's choice (log 21). R227, R228: PREF and the cache-control operations that no check refuses retire without a
change of memory or of a register. PREF enters the requests of the lanes that translate, under no counter; they write no register, and under the L2-only
policy nothing of the L1. .drop and .dropall take lines out of the L1. .unpin takes the pin from the L2 lines that it names: no line gains one, and
other sets stay as they were. .clean, .flush and .pin are outstanding until their lines are done: .clean leaves a line clean, .flush also invalidates one
that is not pinned, and .pin pins it, allocating it first where it is absent; a set that is all pinned is bypassed, and counted. -/
def Obligations.CacheControlAndNoLanes : Prop :=
  (∀ (f : MFields) (s : State), s.dev.curWarp.act f.h = 0 →
    let x := vctx s.dev f.h []
    let y := vctx s.dev f.h [dstOperand f.dat]
    let k := accessRegs f.size.toNat
    let lo := rangeSrc x.w 1 f.adr 0
    let hi := rangeSrc x.w 1 f.adr 1
    let ad := [Use.ptr lo, Use.ptr hi]
    let spad := y.spadAdr f.adr
    let dat := y.datSrcs f.dat k
    let data := dat.map (if f.obj == 0 || f.h.ty != 0 then storeUse (f.obj != 0) f.size.toNat f.h.ty else Use.any)
    let pair := rangeBound x.regs f.adr.reg.toNat 2
    let own := atomData x f
    let old := [rangeBound x.regs (dstReg f.dat) (atomRegs f), pair]
    (∀ p ∈ [(Instr.ld f, [y.datBound f.dat k, pair], ad), (.ldu f, [y.datBound f.dat k, pair, lo.uniCheck, hi.uniCheck], ad),
        (.ldt f, [rangeBound x.regs (dstReg f.dat) k, pair, lo.uniCheck, hi.uniCheck], ad),
        (.st f, [y.datBound f.dat k, pair], data ++ ad),
        (.stu f, [y.datBound f.dat k, pair] ++ dat.map Src.uniCheck ++ [lo.uniCheck, hi.uniCheck], data ++ ad),
        (.lds f, [y.datBound f.dat k, spad.boundCheck x.regs], [Use.ptr spad]),
        (.sts f, [y.datBound f.dat k, spad.boundCheck x.regs], dat.map (storeUse false f.size.toNat f.h.ty) ++ [Use.ptr spad]),
        (.pref f, [pair], ad), (.cctlClean f, [pair], ad), (.cctlFlush f, [pair], ad), (.cctlPin f, [pair], ad),
        (.cctlUnpin f, [pair], ad), (.cctlDrop f, [pair], ad), (.cctlDropall f, [], []),
        (.atom f, old, own.map (fun q => Use.of q f.h.ty) ++ ad), (.ared f, old, own.map (fun q => Use.of q f.h.ty) ++ ad),
        (.nmatom f, old, own.map (fun q => Use.of q f.h.ty) ++ ad)],
      x.notReady p.2.2 = false → firstTrap (p.2.1 ++ p.2.2.map Use.tagCheck) = none →
        exec p.1 s = .next { s with dev := { s.dev.modCurWarp (fun w => { w with pc := s.nextPc }) with issued := .retired } })) ∧
  (∀ (f : MFields) (s : State) (d : Dev) (r : Option (Option TRec)),
    let x := vctx s.dev f.h []
    let c := s.dev.cur.col
    let lo := rangeSrc x.w 1 f.adr 0
    let hi := rangeSrc x.w 1 f.adr 1
    let us := [Use.ptr lo, Use.ptr hi]
    let offs := (Mask.list x.act).map (fun l => (l, laneOff lo hi f.offset l / 128 * 128))
    let lines := ((offs.map Prod.snd).eraseDups).map (fun o => (((offs.find? (fun p => p.2 == o)).map Prod.fst).getD 0, o))
    let n := match r with
      | some (some t) => laneBytes 0 (fp6 t.fmt)
      | _ => 1
    let ready : Prop := x.act ≠ 0 ∧ x.notReady us = false ∧ s.dev.curCol.acquiring s.dev.cur.slot = false ∧
      firstTrap ([rangeBound x.regs f.adr.reg.toNat 2] ++ us.map Use.tagCheck ++ [selCheck c x.act lo hi, poisJoin [lo, hi] x.act]) = none
    (s.hasRecord f.obj.toNat d r → ready →
      firstTrap [recCheck c x.act lo hi f.offset f.obj.toNat n TRec.rd r, alignCheck x.act lo hi f.offset n r] = none →
      let ls := (Mask.list x.act).map (fun l => laneWant l c (laneOff lo hi f.offset l) n (reqOf (lineShaped lo hi) (laneOff lo hi f.offset l)))
      let got := { s with dev := d }.seekPref c x.w.ctx f.cpol s.dev.cur.priv ls
      let o : MemOp := { got.1.newOp (.pref (f.cpol == 1)) 0 0 got.2 with id := s.dev.curCol.nextOp, slot := 48, reach := 0 }
      ∃ u, exec (.pref f) s = .next u ∧ Issues s u ∧ u.dev.curWarp.loads = s.dev.curWarp.loads ∧
        u.dev.curWarp.stores = s.dev.curWarp.stores ∧ u.dev.curCol.ops = s.dev.curCol.ops ++ (if got.2 = [] then [] else [o])) ∧
    (∀ p ∈ [(Instr.cctlClean f, 0), (.cctlFlush f, 1), (.cctlPin f, 2)],
      let o : MemOp := { s.dev.newOp (.cctl p.2) 0 0 (cctlLanes c lines) with cpol := 1, reach := if p.2 = 2 then 0 else 0x7F }
      let got := s.seekLanes c o false s.dev.cur.priv o.lanes
      ready → s.dev.curWarp.stores < 63 → got.2.2.2 = [] →
        ∃ u, exec p.1 s = .next u ∧ Issues s u ∧ u.dev.curWarp.stores = s.dev.curWarp.stores + 1 ∧
          u.dev.curCol.ops = s.dev.curCol.ops ++ [o.sought s.dev.curCol.nextOp got.2.1 []]) ∧
    (let o : MemOp := { s.dev.newOp (.cctl 3) 0 0 [] with cpol := 1 }
      let got := s.seekLanes c o false s.dev.cur.priv (cctlLanes c lines)
      ready → got.2.2.2 = [] →
        ∃ u, exec (.cctlUnpin f) s = .next u ∧ Issues s u ∧ u.dev.curCol.ops = s.dev.curCol.ops ∧
          (∀ a ∈ got.2.1, u.dev.curCol.pinnedAt a.va = false) ∧
          (∀ va, u.dev.curCol.pinnedAt va = true → got.1.curCol.pinnedAt va = true) ∧
          ∀ va, (∀ a ∈ got.2.1, sameSet (va / 512) (a.va / 512) = false) → u.dev.curCol.l2At va = got.1.curCol.l2At va) ∧
    (ready → ∃ u, exec (.cctlDrop f) s = .next u ∧ Issues s u ∧
      u.dev.curCol.l1 = (s.dev.curCol.l1Drop x.w.ctx (fun o l => (lines.map Prod.snd).contains o && !l.stable)).l1) ∧
    (x.act ≠ 0 → s.dev.curCol.acquiring s.dev.cur.slot = false → ∃ u, exec (.cctlDropall f) s = .next u ∧ Issues s u ∧
      u.dev.curCol.l1 = (s.dev.curCol.l1Drop x.w.ctx (fun _ _ => true)).l1)) ∧
  (∀ (col op req : Nat) (s : State) (o : MemOp) (l2 : Bool),
    (s.dev.col col).op? op = some o → o.kind = .pref l2 →
      ∃ u, exec (.loadDataReturn col op req) s = .next u ∧ u.vault = s.vault ∧ (∀ y, u.dev.warp col y = s.dev.warp col y) ∧
        ((l2 = true ∨ ∀ a ∈ o.lanes, a.pol = 1) → (u.dev.col col).l1 = (s.dev.col col).l1)) ∧
  (∀ (col op req : Nat) (s : State) (o : MemOp) (p : BitVec 3) (a : LaneAcc),
    let k := s.dev.col a.tcol
    let t := (k.l2Tag (a.va / 512)).getD { sb := a.va / 512, lines := Vector.replicate 4 L2Line.none }
    let pins := t.setLine (a.va / 128) { t.line (a.va / 128) with pinned := true }
    (s.dev.col col).op? op = some o → o.kind = .cctl p → o.lanes.filter (fun b => b.req == req) = [a] →
    (s.dev.col col).overtakes o [a] = false →
      ∃ u, exec (.storePerformed col op req) s = .next u ∧ u.vault = s.vault ∧
        let v := u.dev.col a.tcol
        (p = 0 → v.l2At a.va = (k.l2At a.va).map (fun l => { l with dirty := false })) ∧
        (p = 1 → v.l2At a.va = (k.l2At a.va).map (fun l => if l.pinned then { l with dirty := false } else l.drop)) ∧
        (p.toNat ≤ 1 → ∀ va, va / 128 ≠ a.va / 128 → v.l2At va = k.l2At va) ∧
        (p = 2 → k.pinnedAt a.va = true → v.l2 = k.l2) ∧
        (p = 2 → k.pinnedAt a.va = false → k.aside a.va = false →
          (k.l2Full (a.va / 512) true = true → v.l2 = k.l2 ∧ v.l2Bypass = k.l2Bypass + 1) ∧
          (k.l2Full (a.va / 512) true = false → v.pinnedAt a.va = true ∨ v.l2Bypass ≠ k.l2Bypass) ∧
          (k.l2Full (a.va / 512) true = false → k.l2Valid a.va = true → pins.fitsIn (k.freeSlots (a.va / 512)).length = true →
            v.pinnedAt a.va = true)))

/-- R217-R224, R235: a load that no check refuses and whose lanes translate becomes an outstanding operation, counted in LOADS; it reserves its
destination lanes, and changes no register when it issues. R226: LDT, under a record of rank 2 to 5 that grants reads on this column, reads the
elements of a tile with the lanes along the first index; it is one outstanding load. -/
def Obligations.LoadsStart : Prop :=
  (∀ (f : MFields) (s : State) (d : Dev) (r : Option (Option TRec)),
    let x0 := vctx s.dev f.h [dstOperand f.dat]
    let x : VCtx := { x0 with d := d }
    let c := s.dev.cur.col
    let lo := rangeSrc x0.w 1 f.adr 0
    let hi := rangeSrc x0.w 1 f.adr 1
    let us := [Use.ptr lo, Use.ptr hi]
    let k := accessRegs f.size.toNat
    let t := accFmt f.h.ty r
    let rec6 := f.obj != 0 && fp6 t
    let n := laneBytes f.size.toNat rec6
    let win := f.dat.getLsbD 8
    s.hasRecord f.obj.toNat d r → x0.act ≠ 0 → x0.notReady us = false → s.dev.curCol.acquiring s.dev.cur.slot = false →
    s.dev.curWarp.loads < 63 → x.fifthWindow f.dat = false →
    ∀ p ∈ [(Instr.ld f, false), (.ldu f, true)],
      firstTrap ([recTy f.h.ty r, if win then none else rangeBound x.regs (dstReg f.dat) k, rangeBound x.regs f.adr.reg.toNat 2,
        uniIf p.2 lo, uniIf p.2 hi] ++ us.map Use.tagCheck ++ [x.dstWin f.dat, selCheck c x.act lo hi,
        recCheck c x.act lo hi f.offset f.obj.toNat n TRec.rd r, alignCheck x.act lo hi f.offset n r, poisJoin [lo, hi] x.act]) = none →
      let single := !win && (p.2 || (uniPair lo hi && x.act == Mask.all))
      let ls := (if single then [Mask.first x.act] else Mask.list x.act).map (fun l =>
        { laneWant l c (laneOff lo hi f.offset l) n (reqOf (lineShaped lo hi) (laneOff lo hi f.offset l)) with
          dst := x.datRegs f.dat k l, lined := lineShaped lo hi })
      let o : MemOp := { d.newOp (if p.2 then .uload else .load) t f.size.toNat ls with
        resv := x.reserve f.dat k, window := win, uni := single, obj := f.obj.toNat, cpol := f.cpol, acq := f.ord == 1 }
      let got := { s with dev := d }.seekLanes c o false s.dev.cur.priv ls
      got.2.2.2 = [] →
        ∃ u, exec p.1 s = .next u ∧ Issues s u ∧ u.dev.curWarp.loads = s.dev.curWarp.loads + 1 ∧
          u.dev.curCol.ops = s.dev.curCol.ops ++ [o.sought s.dev.curCol.nextOp got.2.1 got.2.2.1]) ∧
  (∀ (f : MFields) (s : State) (d : Dev) (t : TRec),
    let x0 := vctx s.dev f.h []
    let x : VCtx := { x0 with d := d }
    let c := s.dev.cur.col
    let k := accessRegs f.size.toNat
    let is := (List.range t.rank).map (rangeSrc x0.w 1 f.adr)
    let us := is.map Use.ptr
    let dst := if t.grp = 1 then Fmt.bf16x2 else t.fmt
    let i (j : Nat) : Nat := match is[j]? with
      | some q => (lane q.vals 0).toNat
      | none => 0
    let ls := ((Mask.list x.act).map (fun l => ((List.range k).map (fun j => ((List.range (elems dst)).map (fun e =>
      ldtElem t c l (dstReg f.dat + j) e [i 0 + l, i 1 + j * elems dst + e, i 2, i 3, i 4])).flatten)).flatten)).flatten
    let o : MemOp := { d.newOp .loadT dst f.size.toNat ls with
      resv := x.reserve f.dat k, obj := f.obj.toNat + (if t.grp = 1 then 65536 * t.fmt.toNat else 0), cpol := f.cpol,
      rm := f.h.rm, sat := f.h.s }
    let got := { s with dev := d }.seekLanes c o false s.dev.cur.priv ls
    f.obj ≠ 0 → s.hasRecord f.obj.toNat d (some (some t)) → x0.act ≠ 0 → t.rank ≠ 1 → t.grp ≤ 1 →
    (if t.grp = 1 then f.h.ty = Fmt.bf16x2 else f.h.ty = 0 ∨ f.h.ty = t.fmt) → t.rd = true → t.onColumn c = true →
    x.notReady us = false → s.dev.curCol.acquiring s.dev.cur.slot = false → s.dev.curWarp.loads < 63 →
    firstTrap ([rangeBound x.regs (dstReg f.dat) k, rangeBound x.regs f.adr.reg.toNat t.rank] ++ us.map (fun q => q.src.uniCheck) ++
      us.map Use.tagCheck ++ [poisJoin is x.act]) = none → got.2.2.2 = [] →
      ∃ u, exec (.ldt f) s = .next u ∧ Issues s u ∧ u.dev.curWarp.loads = s.dev.curWarp.loads + 1 ∧
        u.dev.curCol.ops = s.dev.curCol.ops ++ [o.sought s.dev.curCol.nextOp got.2.1 got.2.2.1])

/-- R217-R224, R256, R423: a store that no check refuses becomes an outstanding operation, counted in STORES; its lanes that do not translate enter
the side log. No byte of memory changes when it issues. -/
def Obligations.StoresStart : Prop :=
  ∀ (f : MFields) (s : State) (d : Dev) (r : Option (Option TRec)),
    let x0 := vctx s.dev f.h [dstOperand f.dat]
    let x : VCtx := { x0 with d := d }
    let c := s.dev.cur.col
    let lo := rangeSrc x0.w 1 f.adr 0
    let hi := rangeSrc x0.w 1 f.adr 1
    let k := accessRegs f.size.toNat
    let dat := x0.datSrcs f.dat k
    let ad := [Use.ptr lo, Use.ptr hi]
    let t := accFmt f.h.ty r
    let rec6 := f.obj != 0 && fp6 t
    let n := laneBytes f.size.toNat rec6
    let us := (match r with
      | some none => []
      | _ => dat.map (storeUse r.isSome f.size.toNat t)) ++ ad
    let rule := match r with
      | some (some q) => q.rule f.obj.toNat
      | _ => none
    let e := d.afterRelease (f.ord == 2)
    s.hasRecord f.obj.toNat d r → x0.act ≠ 0 → x0.notReady (dat.map Use.any ++ ad) = false →
    s.dev.curCol.acquiring s.dev.cur.slot = false → d.releaseOver (f.ord == 2) (s.dev.curWarp.obsMask f.obs) →
    ∀ p ∈ [(Instr.st f, false), (.stu f, true)],
      firstTrap ([recTy f.h.ty r, if f.dat.getLsbD 8 then none else rangeBound x.regs (dstReg f.dat) k,
        rangeBound x.regs f.adr.reg.toNat 2] ++ dat.map (uniIf p.2) ++ [uniIf p.2 lo, uniIf p.2 hi] ++ us.map Use.tagCheck ++
        [x.dstWin f.dat, selCheck c x.act lo hi, recCheck c x.act lo hi f.offset f.obj.toNat n TRec.wr r,
        alignCheck x.act lo hi f.offset n r, poisJoin [lo, hi] x.act]) = none →
      let act := if p.2 then [Mask.first x.act] else Mask.list x.act
      d.curCol.storeRoom s.dev.cur.slot act.length = true →
      let ls := act.map (fun l =>
        { laneWant (if p.2 then 0 else l) c (laneOff lo hi f.offset l) n
            (reqOf (lineShaped lo hi) (laneOff lo hi f.offset l)) with
          lined := lineShaped lo hi, data := dat.map (fun q => lane q.vals l), pois := dat.map (fun q => Mask.has q.pois l), rng := rule })
      let o : MemOp := { d.newOp (if p.2 then .ustore else .store) t f.size.toNat ls with obj := f.obj.toNat, cpol := f.cpol }
      let got := { s with dev := e }.placeLanes c o .store s.dev.cur.priv ls
      ∃ u, exec p.1 s = .next u ∧ Issues s u ∧ u.dev.curWarp.stores = s.dev.curWarp.stores + 1 ∧
        u.dev.curCol.ops = s.dev.curCol.ops ++ [{ o with id := s.dev.curCol.nextOp, lanes := got.2.1, logged := got.2.2 }]

/-- R209, R223, R245: a request of a store, performed: its lanes' bytes are written in order into their columns' vaults, and no other byte of memory
changes; of an FP6 access that meets two sectors each piece writes its own bytes (that it is split so is the model's choice, log 14). A request
waits for an earlier own access to the same bytes (R222), and for a store that the L1 has taken before it (R247). No case of this is a column whose
stagehand's row operation is writing words (R370, R380), nor a value-range rule (R446). -/
def Obligations.StorePerformedWrites : Prop :=
  ∀ (col op req : Nat) (s : State) (o : MemOp),
    let ls := o.lanes.filter (fun a => a.req == req)
    let all (a : LaneAcc) := storeBytes o.size (o.obj != 0 && fp6 o.fmt) a.data
    let bytes (a : LaneAcc) := match a.part with
      | none => all a
      | some p => ((all a).drop p).take a.size
    s.Inv → (s.dev.col col).op? op = some o → (o.kind = .store ∨ o.kind = .ustore) → (∀ a ∈ ls, a.rng = none ∧ (s.dev.col a.tcol).hand.banks.olds = []) →
    (s.dev.col col).overtakes o ls = false → (s.dev.col col).behind s.dev.now o ls = false →
      ∃ u, exec (.storePerformed col op req) s = .next u ∧
        u.vault = ls.foldl (fun m a => (m.write (vkey a.tcol a.va) ((bytes a).take a.cut)).write (vkey a.tcol a.va2) ((bytes a).drop a.cut))
          s.vault ∧
        ∀ k, (∀ a ∈ ls, (k < vkey a.tcol a.va ∨ vkey a.tcol a.va + a.cut ≤ k) ∧
            (k < vkey a.tcol a.va2 ∨ vkey a.tcol a.va2 + ((bytes a).length - a.cut) ≤ k)) →
          u.vault.byte k = s.vault.byte k

/-- R204, R223, R235: the last request of a load that bypasses the L1 (CPOL 01), returned: every register lane that the load reserved and nothing
has overwritten takes its bytes as they stand in the vault, LOADS falls, and no byte of memory changes. Left open by the spec, and no case of
this: an element of a stable page (R42), or a word that a stagehand's row operation is writing (R380). R204, R206, R224, R235: the same of a request of a
load under any policy, from a usable L1 line where it hits, through a window or not, an LDU's one value for all its lanes: an earlier request keeps its
values, the last writes the registers; a miss fills the L1 under a lease, and an acquire drops the context's lines (R253). R134, R220: a load through an
FP6 record takes three bytes for each register. R226: an LDT's register has its elements' codes, decoded under their scales for a BX record, and zero
where no element is read. -/
def Obligations.LoadReturnsBytes : Prop :=
  (∀ (col op req : Nat) (s : State) (o : MemOp) (a : LaneAcc) (j r : Nat),
    let w := s.dev.warp col o.slot
    let ls := o.lanes.filter (fun a => a.req == req)
    (s.dev.col col).op? op = some o → (o.kind = .load ∨ o.kind = .uload) → o.uni = false → o.window = false → o.obj = 0 → o.entry = none →
    o.size ≤ 4 → o.done = [] → o.lanes = ls → (s.dev.col col).overtakes o ls = false →
    (o.missed = true ∨ o.itick + 16 + o.reqs / 2 ≤ s.dev.now) →
    (∀ b ∈ ls, b.pol = 1 ∧ b.stable = false ∧ (s.dev.col b.tcol).hand.banks.olds = [] ∧ b.size = accessBytes o.size ∧ b.size ≤ b.cut ∧ b.dst.length = accessRegs o.size ∧ b.dst.Nodup ∧
      b.va % 32 = b.off % 32 ∧ (∀ c ∈ ls, b.lane = c.lane → b = c) ∧ b.lane < 32 ∧ b.off % b.size = 0 ∧
      ∀ c ∈ ls, b.off / 32 = c.off / 32 → b.tcol = c.tcol ∧ b.va / 32 = c.va / 32) →
    a ∈ ls → a.dst[j]? = some r → r < 256 → (∃ m, (r, m) ∈ o.resv ∧ Mask.has m a.lane = true) → o.dead r a.lane = false →
      ∃ u, exec (.loadDataReturn col op req) s = .next u ∧ u.vault = s.vault ∧ (u.dev.warp col o.slot).loads = w.loads - 1 ∧
        (u.dev.warp col o.slot).laneOf r a.lane =
          padded o.fmt ((loadWords o.size false (o.fmt == Fmt.i32) (s.vault.bytes (vkey a.tcol a.va) a.size)).getD j 0)) ∧
  (∀ (col op req : Nat) (s : State) (o : MemOp) (ls : List LaneAcc) (a : LaneAcc),
    let w := s.dev.warp col o.slot
    let home := s.dev.col a.tcol
    let lease := (s.dev.ctx o.ctx).lease
    let value (b : LaneAcc) (j : Nat) : Word := padded o.fmt ((loadWords o.size false (o.fmt == Fmt.i32) (s.loadBytes col o.ctx b)).getD j 0)
    LoadTurn s col op req o ls a → (o.kind = .load ∨ o.kind = .uload) → o.six = false → o.size ≤ 4 →
    (o.uni = true → ls = [a] ∧ o.lanes = ls ∧ o.done = []) →
    (∀ b ∈ ls, b.size = accessBytes o.size ∧ b.dst.length = accessRegs o.size ∧ b.dst.Nodup ∧ (∀ c ∈ ls, b.lane = c.lane → b = c)) →
      (o.lanes ≠ ls → ∃ u, exec (.loadDataReturn col op req) s = .next u ∧ u.vault = s.vault ∧ (∀ y, u.dev.warp col y = s.dev.warp col y) ∧
        ∃ p, (u.dev.col col).op? op = some p ∧ p.lanes = o.lanes.filter (fun b => b.req != req) ∧
          ∀ b ∈ ls, ∀ j r, b.dst[j]? = some r → r < 256 → o.reaches r b.lane →
            ∃ x ∈ p.done, x.reg = r ∧ x.lane = b.lane ∧ x.val = value b j) ∧
      (o.lanes = ls → (∀ x ∈ o.done, x.lane < 32 ∧ (∀ b ∈ ls, b.lane ≠ x.lane) ∧ ∀ y ∈ o.done, y.reg = x.reg → y.lane = x.lane → y = x) →
        ∃ u, exec (.loadDataReturn col op req) s = .next u ∧ u.vault = s.vault ∧ (u.dev.col col).op? op = none ∧
          (u.dev.warp col o.slot).loads = w.loads - 1 ∧
          (∀ b ∈ ls, ∀ j r l, b.dst[j]? = some r → r < 256 → l < 32 → (o.uni = false → l = b.lane) → o.reaches r l →
            (u.dev.warp col o.slot).laneOf r l = value b j) ∧
          (∀ x ∈ o.done, o.dead x.reg x.lane = false → (u.dev.warp col o.slot).laneOf x.reg x.lane = x.val) ∧
          (o.acq = true → ∀ off x, (u.dev.col col).l1Hit s.dev.now o.ctx off = some x → x.stable = true) ∧
          (o.acq = false → (a.pol = 0 ∨ a.pol = 2) → (s.dev.col col).l1Hit s.dev.now o.ctx a.off = none → 0 < lease →
            (∀ va, va / 128 = a.va / 128 → home.aside va = false) → (home.l2At a.va).any (fun l => l.valid && l.zc == a.zc) = true →
            ∃ x, (u.dev.col col).l1Hit s.dev.now o.ctx a.off = some x ∧ x.expiry ≤ s.dev.now + lease ∧
              ∀ i, i < a.size → a.off % 32 + i < 32 → x.byte (a.off + i) = s.byteAt a.tcol (a.va + i)))) ∧
  (∀ (col op req : Nat) (s : State) (o : MemOp) (ls : List LaneAcc) (a : LaneAcc),
    LoadTurn s col op req o ls a → (o.kind = .load ∨ o.kind = .uload) → o.six = true → 2 ≤ o.size → o.size ≤ 4 → o.done = [] → o.lanes = ls →
    (o.uni = true → ls = [a]) →
    (∀ b ∈ ls, b.part = some 0 ∧ b.size = 3 * accessRegs o.size ∧ b.dst.length = accessRegs o.size ∧ b.dst.Nodup ∧ (∀ r ∈ b.dst, r < 256) ∧
      ∀ c ∈ ls, b.lane = c.lane → b = c) →
      ∃ u, exec (.loadDataReturn col op req) s = .next u ∧ u.vault = s.vault ∧
        ∀ b ∈ ls, ∀ j r l, b.dst[j]? = some r → l < 32 → (o.uni = false → l = b.lane) → o.reaches r l →
          (u.dev.warp col o.slot).laneOf r l = padded o.fmt (unpackFp6 (numOf (((s.loadBytes col o.ctx b).drop (3 * j)).take 3)))) ∧
  (∀ (col op req : Nat) (s : State) (o : MemOp) (ls : List LaneAcc) (a : LaneAcc) (r l : Nat),
    let src : BitVec 5 := BitVec.ofNat 5 (o.obj / 65536)
    let bits (b : LaneAcc) : Nat := numOf (s.loadBytes col o.ctx b) / 2 ^ b.dst.getD 2 0 % 2 ^ b.dst.getD 3 0
    let named (b : LaneAcc) (k : Nat) : Prop := b ∈ ls ∧ b.lane = l ∧ ∃ p n, b.dst = [r, k, p, n]
    LoadTurn s col op req o ls a → o.kind = .loadT → o.uni = false → o.window = false → o.done = [] → o.lanes = ls → r < 256 → l < 32 →
    (o.resv.map Prod.fst).Nodup → o.reaches r l → (∀ b ∈ ls, ∃ k p n, b.dst = [b.dst.headD 0, k, p, n] ∧ 1 ≤ k ∧ k ≤ 32 ∧ b.dst.headD 0 < 256) →
    (∀ b ∈ ls, ∀ c ∈ ls, b.lane = c.lane → b.dst.headD 0 = c.dst.headD 0 → b.dst.getD 1 0 = c.dst.getD 1 0 → b = c) →
      ∃ u, exec (.loadDataReturn col op req) s = .next u ∧ u.vault = s.vault ∧ ∀ e, e < elems o.fmt →
        let got := elemCode o.fmt ((u.dev.warp col o.slot).laneOf r l) e
        ((∀ b, ¬ named b (e + 1)) → got = 0) ∧
        ∀ b, named b (e + 1) →
          (o.obj < 65536 → bits b < 2 ^ elemBits o.fmt → got = bits b) ∧
          (65536 ≤ o.obj → o.fmt = Fmt.bf16x2 → ∀ c, named c (e + 17) →
            got = FloatFmt.bf16.round o.rm o.sat (FVal.mul ((floatFmt src).value (bits b)) (e8m0Value (bits c)))))

/-- R221, R225: a scratchpad access that no check refuses becomes outstanding, counted in LOADS or STORES; LDS reserves its lanes. No register and no
byte of the scratchpad changes when it issues. Performed, LDS writes its registers from the gang's scratchpad, and STS writes the scratchpad's bytes in
lane order; the counter falls; neither touches a vault. When that may be at the earliest, and that a column's scratchpad accesses are performed in the
order of their issue, is the model's choice (log 23). Bytes that a tile operation in flight writes are undefined until it completes (R263), and no case
of this. -/
def Obligations.ScratchpadAccesses : Prop :=
  (∀ (f : MFields) (s : State),
    let x := vctx s.dev f.h [dstOperand f.dat]
    let col := s.dev.curCol
    let a := x.spadAdr f.adr
    let k := accessRegs f.size.toNat
    let n := accessBytes f.size.toNat
    let off := spadOff a f.offset
    let base := col.spadBase x.w.gang
    let dat := x.datSrcs f.dat k
    let us := dat.map (storeUse false f.size.toNat f.h.ty) ++ [Use.ptr a]
    let bound := x.datBound f.dat k
    let mine := [x.dstWin f.dat, spadBound col x.act off n, spadAlign x.act off n, a.poisCheck x.act]
    let loads := (Mask.list x.act).map (fun l => { spadAcc l (base + off l) n with dst := x.datRegs f.dat k l })
    let stores := (Mask.list x.act).map (fun l =>
      { spadAcc l (base + off l) n with data := dat.map (fun q => lane q.vals l), pois := dat.map (fun q => Mask.has q.pois l) })
    let op (kind : OpKind) (ls : List LaneAcc) : MemOp :=
      { s.dev.newOp kind f.h.ty f.size.toNat ls with id := col.nextOp, reqs := spadDepth ((Mask.list x.act).map off) n }
    x.act ≠ 0 → col.acquiring s.dev.cur.slot = false →
      (x.notReady [Use.ptr a] = false → firstTrap ([bound, a.boundCheck x.regs, (Use.ptr a).tagCheck] ++ mine) = none → x.w.loads < 63 →
        x.fifthWindow f.dat = false →
        ∃ u, exec (.lds f) s = .next u ∧ Issues s u ∧ u.dev.curCol.pool = col.pool ∧ u.dev.curWarp.loads = x.w.loads + 1 ∧
          u.dev.curWarp.stores = x.w.stores ∧ u.dev.curCol.ops = col.ops ++ [{ op .lds loads with
            resv := x.reserve f.dat k, window := f.dat.getLsbD 8, uni := a.shape == .uniform, reach := 0 }]) ∧
      (x.notReady us = false → firstTrap ([bound, a.boundCheck x.regs] ++ us.map Use.tagCheck ++ mine) = none → x.w.stores < 63 →
        ∃ u, exec (.sts f) s = .next u ∧ Issues s u ∧ u.dev.curCol.pool = col.pool ∧ u.dev.curWarp.loads = x.w.loads ∧
          u.dev.curWarp.stores = x.w.stores + 1 ∧ u.dev.curCol.ops = col.ops ++ [{ op .sts stores with reach := 0x0C }])) ∧
  (∀ (col op req : Nat) (s : State) (o : MemOp),
    let k := s.dev.col col
    let w := s.dev.warp col o.slot
    k.op? op = some o → o.itick + 6 + (o.reqs + 1) / 2 ≤ s.dev.now → (∀ p ∈ k.ops, (p.kind = .lds ∨ p.kind = .sts) → o.id ≤ p.id) →
    o.size ≤ 4 → (∀ a ∈ o.lanes, a.size = accessBytes o.size ∧ a.lane < 32) →
      (o.kind = .lds → (∀ a ∈ o.lanes, a.dst.length = accessRegs o.size ∧ a.dst.Nodup ∧ ∀ b ∈ o.lanes, b.lane = a.lane → b = a) →
        (o.uni = true → ∀ a ∈ o.lanes, ∀ b ∈ o.lanes, a.va = b.va ∧ a.dst = b.dst) →
        ∃ u, exec (.loadDataReturn col op req) s = .next u ∧ u.vault = s.vault ∧ (u.dev.col col).op? op = none ∧
          (u.dev.col col).pool = k.pool ∧ (u.dev.warp col o.slot).loads = w.loads - 1 ∧
          ∀ a ∈ o.lanes, ∀ j r, a.dst[j]? = some r → o.dead r a.lane = false →
            (u.dev.warp col o.slot).laneOf r a.lane =
              padded o.fmt ((loadWords o.size false (o.fmt == Fmt.i32) (k.poolBytes o.ctx a.va a.size).1).getD j 0)) ∧
      (o.kind = .sts → o.entry = none → (∀ a ∈ o.lanes, a.data.length = accessRegs o.size ∧ a.pois.length = accessRegs o.size) →
        (∀ a ∈ o.lanes, ∀ q ∈ k.queue 0 ++ k.queue 1, shared q.writes [(a.va / 4 * 4, (a.va + a.size + 3) / 4 * 4)] = []) →
        ∃ u, exec (.storePerformed col op req) s = .next u ∧ u.vault = s.vault ∧ (u.dev.col col).op? op = none ∧
          (u.dev.warp col o.slot).stores = w.stores - 1 ∧ (∀ y, y ≠ o.slot → u.dev.warp col y = s.dev.warp col y) ∧
          (∀ i, (∀ a ∈ o.lanes, 4 * i + 4 ≤ a.va ∨ a.va + a.size ≤ 4 * i) →
            (u.dev.col col).poolWord o.ctx i = k.poolWord o.ctx i) ∧
          ∀ pre a post, o.lanes = pre ++ a :: post → (∀ b ∈ post, a.va + a.size ≤ b.va ∨ b.va + b.size ≤ a.va) →
            ((u.dev.col col).poolBytes o.ctx a.va a.size).1 = storeBytes o.size false a.data))

/-- R257-R262, R377: an atomic that no check refuses starts after its release: ATOM and ATSC as one load and one store outstanding, ARED as a store,
NMATOM as entries of the column's atomic queue. Memory changes only when their lanes are performed. -/
def Obligations.AtomicsStart : Prop :=
  ∀ (f : MFields) (s : State) (d : Dev) (r : Option (Option TRec)),
    let x := vctx s.dev f.h []
    let c := s.dev.cur.col
    let w := s.dev.curWarp
    let lo := rangeSrc x.w 1 f.adr 0
    let hi := rangeSrc x.w 1 f.adr 1
    let dat := atomData x f
    let us := dat.map (fun q => Use.of q f.h.ty) ++ [Use.ptr lo, Use.ptr hi]
    let ls := atomLaneList x f lo hi dat c
    let m := w.obsMask f.obs
    let checked (right : TRec → Bool) : Prop := x.act ≠ 0 ∧ x.notReady us = false ∧ s.hasRecord f.obj.toNat d r ∧
      s.dev.curCol.acquiring s.dev.cur.slot = false ∧
      firstTrap ([atomTy f.h.ty r, rangeBound x.regs (dstReg f.dat) (atomRegs f), rangeBound x.regs f.adr.reg.toNat 2] ++
        us.map Use.tagCheck ++ [selCheck c x.act lo hi, recCheck c x.act lo hi f.offset f.obj.toNat 4 right r,
        alignCheck x.act lo hi f.offset 4 none, poisJoin [lo, hi] x.act]) = none
    let op (e : Dev) (kind : OpKind) (acq : Bool) : MemOp :=
      { e.newOp kind f.h.ty 2 ls with resv := [(dstReg f.dat, x.act)], obj := f.obj.toNat, rm := f.h.rm, acq := acq }
    let starts (i : Instr) (rel acq : Bool) (kind : OpKind) : Prop :=
      let e := d.afterRelease rel
      let got := { s with dev := e }.seekLanes c (op e kind acq) true s.dev.cur.priv ls
      checked TRec.rw → w.loads < 63 → w.stores < 63 → d.releaseOver rel m → got.2.2.2 = [] →
        ∃ u, exec i s = .next u ∧ Issues s u ∧ u.dev.curWarp.loads = w.loads + 1 ∧ u.dev.curWarp.stores = w.stores + 1 ∧
          u.dev.curCol.ops = s.dev.curCol.ops ++ [(op e kind acq).sought s.dev.curCol.nextOp got.2.1 []]
    starts (.atom f) (f.ord.getLsbD 1) (f.ord.getLsbD 0) (.atom f.aop f.h.rm) ∧
    (s.selected f.h → s.dev.curCol.atscBusy s.dev.cur.slot = false → starts (.atsc f) true true (.atsc f.aop none)) ∧
    (let e := d.afterRelease (f.ord == 2)
      let o : MemOp := { e.newOp (.ared f.aop f.h.rm) f.h.ty 2 ls with obj := f.obj.toNat, rm := f.h.rm }
      let got := { s with dev := e }.placeLanes c o .store s.dev.cur.priv ls
      checked TRec.wr → s.dev.curCol.storeRoom s.dev.cur.slot ls.length = true → d.releaseOver (f.ord == 2) m →
        ∃ u, exec (.ared f) s = .next u ∧ Issues s u ∧ u.dev.curWarp.stores = w.stores + 1 ∧
          u.dev.curCol.ops = s.dev.curCol.ops ++ [{ o with id := s.dev.curCol.nextOp, lanes := got.2.1, logged := got.2.2 }]) ∧
    (let o : MemOp := { d.newOp (.nmatom f.aop f.h.rm) f.h.ty 2 [] with obj := f.obj.toNat, cpol := 1, rm := f.h.rm, reach := 0 }
      let got := { s with dev := d }.placeLanes c o .nmatom s.dev.cur.priv ls
      checked (fun t => t.nm && t.wr) → s.dev.curCol.hand.atomq.length + ls.length ≤ 256 → ls.length ≤ s.dev.curCol.logFree →
        ∃ u, exec (.nmatom f) s = .next u ∧ Issues s u ∧ u.dev.curWarp.nmPending = w.nmPending + ls.length ∧
          u.dev.curCol.hand.atomq = s.dev.curCol.hand.atomq ++ got.2.1.map (nmEntry o f.aop f.h.rm s.dev.now false))

/-- R258, R259: the lanes of an atomic are performed at their slice in ascending order, each on the value that the one before left: a lane that
writes changes its own four bytes, and returns the value before it. No case of this is a column whose stagehand's row operation is writing
words (R370, R380). -/
def Obligations.AtomicLanePerformed : Prop :=
  ∀ (s : State) (aop ty : BitVec 5) (rm : BitVec 2) (a : LaneAcc),
    let key := vkey a.tcol a.va
    let old := BitVec.ofNat 32 (s.vault.num key 4)
    let got := s.atomLane aop ty rm a
    s.Inv → 4 ≤ a.cut → (s.dev.col a.tcol).hand.banks.olds = [] →
      got.2.1 = old ∧ got.2.2.2 = (atomNew aop ty rm old (a.data.getD 0 0) (a.data.getD 1 0)).isSome ∧
      (∀ v, atomNew aop ty rm old (a.data.getD 0 0) (a.data.getD 1 0) = some v → BitVec.ofNat 32 (got.1.vault.num key 4) = v) ∧
      (atomNew aop ty rm old (a.data.getD 0 0) (a.data.getD 1 0) = none → got.1 = s) ∧
      ∀ k, k < key ∨ key + 4 ≤ k → got.1.vault.byte k = s.vault.byte k

/-- R252-R255, R264, R379: a fence retires once what it orders has ended, an acquire then dropping the context's lines of the L1; until then it is
held, with nothing changed but what its warp waits for. -/
def Obligations.FencesWait : Prop :=
  ∀ (f : MFields) (g : XFields) (s : State),
    let w := s.dev.curWarp
    let only (i : Instr) : Prop :=
      exec i s = .next { s with dev := { s.dev.modCurWarp (fun w => { w with pc := s.nextPc }) with issued := .retired } }
    let held (i : Instr) : Prop := exec i s = .next { s with dev := { s.dev with issued := .held } }
    (s.selected f.h → s.dev.releaseOver (f.ord.getLsbD 1) (w.obsMask f.obs) → (f.ord.getLsbD 0 = true → w.loads = 0) →
      ∃ u, exec (.fence f) s = .next u ∧ Issues s u ∧
        u.dev.curCol.l1 = if f.ord.getLsbD 0 then (s.dev.curCol.acquire w.ctx).l1 else s.dev.curCol.l1) ∧
    (s.selected f.h → ¬ s.dev.releaseOver (f.ord.getLsbD 1) (w.obsMask f.obs) →
      exec (.fence f) s = .next { s with dev := {
        s.dev.modCurWarp (fun w => { w with wait := .release (w.obsMask f.obs) }) with issued := .held } }) ∧
    (s.selected f.h → f.ord.getLsbD 1 = false → f.ord.getLsbD 0 = true → w.loads ≠ 0 → held (.fence f)) ∧
    (s.selected g.h → s.dev.curCol.ordered s.dev.cur.slot = true → only (.ofence g)) ∧
    (s.selected g.h → s.dev.curCol.ordered s.dev.cur.slot = false → held (.ofence g)) ∧
    (s.selected f.h → w.nmPending = 0 → (w.obsMask f.obs = 0 ∨ w.nmTime ≤ s.dev.now) → only (.nmfence f)) ∧
    (s.selected f.h → ¬ (w.nmPending = 0 ∧ (w.obsMask f.obs = 0 ∨ w.nmTime ≤ s.dev.now)) → held (.nmfence f))

/-- R266: BAR after its checks and its release: .arrive counts the warp in the barrier's phase and goes on; .sync counts it and parks it until the
phase completes; .wait parks until the warp's own pending phase has completed, or goes on with an acquire where it has. R268, R269: BARD, in a
domain that the launch has, takes part in the channel of the warp's own unit as BAR does in a named barrier. The model's choice (log 33): the arrival that
fills a phase leaves it full, to be completed by a later event, and phases are numbered, their lowest bit the spec's. -/
def Obligations.BarrierArrivals : Prop :=
  (∀ (f : XFields) (s : State),
    let x := vctx s.dev f.h []
    let w := s.dev.curWarp
    let b := f.num.toNat
    let us := if f.sub.getLsbD 2 then [Use.ptr (x.src 1 f.a)] else []
    let count := if f.sub.getLsbD 2 then (lane (x.src 1 f.a).vals 0).toNat else s.dev.curCol.regions.w
    let k := s.dev.curCol.bar w.gang b
    let p := w.barPend.getD b k.phase
    let m := w.obsMask (f.pp.extractLsb' 0 7)
    let form := f.sub.toNat % 4
    let retired (u : State) : Prop :=
      exec (.bar f) s = .next u ∧ u.dev.issued = .retired ∧ u.vault = s.vault ∧ u.dev.curWarp.regs = w.regs
    s.selected f.h →
    x.ReadyUni [] us [check (decide (b < s.dev.curCol.barCount)) { cause := 0x12, einfo := einfoB b s.dev.curCol.barCount },
      check (decide (1 ≤ count) && decide (count ≤ 48)) { cause := 0x17, einfo := einfoBar b k.exp count }] →
      (form ≠ 2 → s.dev.releaseOver true m → k.full = false → (k.exp = 0 ∨ k.exp = count) → k.arr + 1 ≤ count →
        ∃ u, retired u ∧ u.dev.curCol.bar w.gang b = { k with arr := k.arr + 1, exp := count, mask := m } ∧
          u.dev.curWarp.barPend.getD b 0 = k.phase ∧
          (form = 1 → u.dev.curWarp.pc = s.nextPc) ∧
          (form ≠ 1 → u.dev.curWarp.pc = w.pc ∧ u.dev.curWarp.park = .bar b k.phase ∧ u.dev.curWarp.active = false)) ∧
      (form ≠ 2 → s.dev.releaseOver true m → k.full = true →
        ∃ u, retired u ∧ u.dev.curWarp.pc = w.pc ∧ u.dev.curWarp.park = .barFull b count form m) ∧
      (form = 2 → k.phase ≤ p → ∃ u, retired u ∧ u.dev.curWarp.pc = w.pc ∧ u.dev.curWarp.park = .bar b p) ∧
      (form = 2 → p < k.phase → ∃ u, retired u ∧ u.dev.curWarp.pc = w.pc + 1 ∧ u.dev.curWarp.barPend.get? b = none ∧
        u.dev.curCol.l1 = (s.dev.curCol.acquire w.ctx).l1)) ∧
  (∀ (f : XFields) (s : State),
    let w := s.dev.curWarp
    let r := s.dev.curRec
    let i := (r.levelOf f.dom.toNat).getD 0
    let unit := r.unitNo i w.coords
    let ch := f.num.toNat
    let k := s.dev.bard w.launch unit ch
    let p := w.bardPend.getD (bardKey unit ch) k.phase
    let scope := match r.levels[i]? with
      | some l => l.scope
      | none => 0
    let m := if f.pp.extractLsb' 0 7 = 0 then scope else f.pp.extractLsb' 0 7
    let retired (u : State) : Prop :=
      exec (.bard f) s = .next u ∧ u.dev.issued = .retired ∧ u.vault = s.vault ∧ u.dev.curWarp.regs = w.regs
    w.spawned = false → r.bardOk f.dom.toNat = true → s.selected f.h →
      (f.sub ≠ 2 → s.dev.releaseOver true m → s.dev.bardFull k = false →
        ∃ u, retired u ∧ (u.dev.bard w.launch unit ch).arrived = k.arrived ++ [(s.dev.cur.col, s.dev.cur.slot)] ∧
          (u.dev.bard w.launch unit ch).phase = k.phase ∧
          (f.sub = 1 → u.dev.curWarp.pc = s.nextPc) ∧
          (f.sub ≠ 1 → u.dev.curWarp.pc = w.pc ∧ u.dev.curWarp.park = .bard unit ch k.phase)) ∧
      (f.sub ≠ 2 → s.dev.releaseOver true m → s.dev.bardFull k = true → ∃ u, retired u ∧
        u.dev.curWarp.park = .bardFull unit ch f.sub.toNat m) ∧
      (f.sub = 2 → k.phase ≤ p → ∃ u, retired u ∧ u.dev.curWarp.pc = w.pc ∧ u.dev.curWarp.park = .bard unit ch p) ∧
      (f.sub = 2 → p < k.phase → ∃ u, retired u ∧ u.dev.curWarp.pc = w.pc + 1))

/-! ## Crossing columns (R272-R299) -/

/-- R278-R280: XCH, in a launch that covers its domain, sends its source to the members that the pattern names and awaits its own data: its
destination's selected lanes are reserved, and LOADS counts it. R283, R284: XGET and XPUT that no check refuses are one outstanding load or store
whose lanes access the partner column. The model's choices: XCH's lane-selection predicate is read at issue (log 37), and its exchange index counts every
XCH of the warp, over all domains (log 115). -/
def Obligations.ExchangesStart : Prop :=
  (∀ (f : XFields) (s : State) (i : Nat),
    let x := vctx s.dev f.h []
    let c := s.dev.cur.col
    let w := s.dev.curWarp
    let a := x.src 1 f.a
    let sel := w.pred f.lsp.toNat
    s.dev.curRec.covers f.dom.toNat = some i → w.spawned = false → s.selected f.h → x.notReady [Use.any a] = false →
    firstTrap [rangeBound x.regs (dstReg f.d) 1, a.boundCheck x.regs] = none → s.dev.curCol.acquiring s.dev.cur.slot = false →
    s.dev.curCol.xchs.any (fun o => o.slot == s.dev.cur.slot) = false → w.loads < 63 →
      ∃ u, exec (.xch f) s = .next u ∧ Issues s u ∧ u.dev.curWarp.loads = w.loads + 1 ∧ u.dev.curWarp.xchCount = w.xchCount + 1 ∧
        (∃ o ∈ u.dev.curCol.ops, o.kind = .xch ∧ o.id = s.dev.curCol.nextOp ∧ o.resv = [(dstReg f.d, sel)]) ∧
        ∃ e, u.dev.curCol.xchs = s.dev.curCol.xchs ++ [e] ∧ e.slot = s.dev.cur.slot ∧ e.idx = w.xchCount ∧ e.lsp = sel ∧ e.vd = dstReg f.d ∧ e.wants = true ∧
          e.sends = (targetsOf f.dom.toNat f.pk.toNat f.pp.toNat (c % domCols f.dom.toNat)).map (memberCol c f.dom.toNat) ∧
          e.reg = Result.whole { vals := tab (fun l => padded a.tag (lane a.vals l)), pois := a.pois, fmt := a.tag, shape := a.shape }) ∧
  (∀ (f : XFields) (s : State),
    let x := vctx s.dev f.h []
    let d := s.dev
    let lo := rangeSrc x.w 1 f.a 0
    let hi := rangeSrc x.w 1 f.a 1
    let k := accessRegs f.sub.toNat
    let n := accessBytes f.sub.toNat
    let dat := (List.range k).map (fun j => Src.direct x.w 0 (dstReg f.d + j) 0 0)
    let ad := [Use.ptr lo, Use.ptr hi]
    let dom := f.dom.toNat
    let m := d.cur.col % domCols dom
    let from_ := memberCol d.cur.col dom (sourceOf dom f.pk.toNat f.pp.toNat m)
    let into := memberCol d.cur.col dom ((targetsOf dom f.pk.toNat f.pp.toNat m).headD 0)
    let checked (us : List Use) (c : Nat) : Prop := x.act ≠ 0 ∧ x.notReady us = false ∧ d.curCol.acquiring d.cur.slot = false ∧
      firstTrap ([rangeBound x.regs (dstReg f.d) k, rangeBound x.regs f.a.reg.toNat 2] ++ us.map Use.tagCheck ++
        [selfCheck x.act lo hi, partnerCheck d x.act lo hi c, alignCheck x.act lo hi 0 n none, poisJoin [lo, hi] x.act]) = none
    let single := uniPair lo hi && x.act == Mask.all
    let acc (c l : Nat) : LaneAcc := laneWant l c (laneOff lo hi 0 l) n (reqOf (lineShaped lo hi) (laneOff lo hi 0 l))
    let gets := (if single then [Mask.first x.act] else Mask.list x.act).map (fun l => { acc from_ l with dst := x.datRegs f.d k l })
    let puts := (Mask.list x.act).map (fun l =>
      { acc into l with data := dat.map (fun q => lane q.vals l), pois := dat.map (fun q => Mask.has q.pois l) })
    let g : MemOp := { d.newOp .xget f.h.ty f.sub.toNat gets with resv := x.reserve f.d k, uni := single, cpol := 1 }
    let p : MemOp := d.newOp .xput f.h.ty f.sub.toNat puts
    (checked ad from_ → d.curWarp.loads < 63 → (s.seekLanes d.cur.col g false d.cur.priv gets).2.2.2 = [] →
      ∃ u, exec (.xget f) s = .next u ∧ Issues s u ∧ u.dev.curWarp.loads = d.curWarp.loads + 1 ∧
        u.dev.curCol.ops = d.curCol.ops ++ [g.sought d.curCol.nextOp (s.seekLanes d.cur.col g false d.cur.priv gets).2.1 []]) ∧
    (checked (dat.map (storeUse false f.sub.toNat f.h.ty) ++ ad) into → d.curCol.storeRoom d.cur.slot puts.length = true →
      ∃ u, exec (.xput f) s = .next u ∧ Issues s u ∧ u.dev.curWarp.stores = d.curWarp.stores + 1 ∧
        u.dev.curCol.ops = d.curCol.ops ++ [{ p with
          id := d.curCol.nextOp, lanes := (s.placeLanes d.cur.col p .store d.cur.priv puts).2.1,
          logged := (s.placeLanes d.cur.col p .store d.cur.priv puts).2.2 }]) ∧
    (x.act = 0 → ∀ q ∈ [(Instr.xget f, ad), (.xput f, dat.map (storeUse false f.sub.toNat f.h.ty) ++ ad)],
      x.notReady q.2 = false →
      firstTrap ([rangeBound x.regs (dstReg f.d) k, rangeBound x.regs f.a.reg.toNat 2] ++ q.2.map Use.tagCheck) = none →
      exec q.1 s = .next { s with dev := { s.dev.modCurWarp (fun w => { w with pc := s.nextPc }) with issued := .retired } }))

/-- R289, R292: MSG puts its payload words into the outbound buffer, one outstanding store; with no room there it waits outside the active set.
R287, R293, R294: RBIND binds a ring of the gang's scratchpad, empty; RADV moves HEAD on; RWAIT returns TAIL and HEAD once enough bytes have
arrived, or at once under .now, and else parks. That it writes all 32 lanes of both registers is the model's choice (log 39). -/
def Obligations.MessagesAndRings : Prop :=
  (∀ (f : XFields) (s : State),
    let d := s.dev
    let x := vctx d f.h []
    let lo := rangeSrc x.w 1 f.a 0
    let hi := rangeSrc x.w 1 f.a 1
    let words := 8 * (f.sub.toNat % 16 + 1)
    let k := (words + 31) / 32
    let p := ptrOf (lane lo.vals 0) (lane hi.vals 0)
    let rel := f.sub.getLsbD 4
    s.selected f.h → x.notReady ((List.range k).map (fun j => Use.any (Src.direct x.w 0 (dstReg f.d + j) 0 0))) = false →
    ptrRsv p = 0 → d.inPart d.curWarp.ctx (ptrSel p) = true → f.num.toNat < 16 →
    x.ReadyUni [rangeBound x.regs (dstReg f.d) k, rangeBound x.regs f.a.reg.toNat 2] [Use.ptr lo, Use.ptr hi] [] →
    d.curCol.acquiring d.cur.slot = false → d.releaseOver rel (d.curWarp.obsMask (f.pp.extractLsb' 0 7)) →
      (d.curCol.outbuf.length < 4 → d.curWarp.stores < 63 →
        ∃ u, exec (.msg f) s = .next u ∧ Issues s u ∧ u.dev.curWarp.stores = d.curWarp.stores + 1 ∧
          u.dev.curCol.outbuf = d.curCol.outbuf ++ [{
            op := d.curCol.nextOp, slot := d.cur.slot, dcol := ptrSel p, ring := f.num.toNat,
            words := msgWords x.w (dstReg f.d) words, itick := d.now, away := false }]) ∧
      (4 ≤ d.curCol.outbuf.length → ∃ u, exec (.msg f) s = .next u ∧ u.dev.issued = .held ∧ u.vault = s.vault ∧
        u.dev.curWarp.wait = .interface ∧ u.dev.curWarp.active = false ∧ u.dev.curWarp.pc = d.curWarp.pc)) ∧
  (∀ (f : XFields) (s : State),
    let d := s.dev
    let x := vctx d f.h []
    let u := Use.ptr (x.src 1 f.a)
    let v := (lane u.src.vals 0).toNat
    let n := f.num.toNat
    let k := d.curCol
    let r := k.ring n
    let g := d.curWarp.gang
    let z := f.pp.toNat % 16
    let vd := dstReg f.d
    s.selected f.h → n < 16 → k.acquiring d.cur.slot = false →
      (x.ReadyUni [] [u] [] → z ≠ 0 → v + 2 ^ z ≤ k.spadBytes → v % 32 = 0 → (r.size = 0 ∨ r.gang = g) →
        ∃ t, exec (.rbind f) s = .next t ∧ Issues s t ∧
          t.dev.curCol.ring n = { base := k.spadBase g + v, size := 2 ^ z, head := 0, tail := 0, gang := g }) ∧
      (x.ReadyUni [] [u] [] → z = 0 → (r.size = 0 ∨ r.gang = g) →
        ∃ t, exec (.rbind f) s = .next t ∧ Issues s t ∧ (t.dev.curCol.ring n).size = 0) ∧
      (x.ReadyUni [] [u] [] → r.size ≠ 0 → r.gang = g → v % 32 = 0 → v ≤ r.bytes →
        ∃ t, exec (.radv f) s = .next t ∧ Issues s t ∧
          t.dev.curCol.ring n = { r with head := r.head + BitVec.ofNat 32 v }) ∧
      (x.ReadyUni [rangeBound x.regs vd 2] [u] [] → r.size ≠ 0 → r.gang = g → v ≤ r.size →
        ((f.sub.getLsbD 0 = true ∨ v ≤ r.bytes) →
          ∃ t, exec (.rwait f) s = .next t ∧ t.dev.issued = .retired ∧ t.vault = s.vault ∧ t.dev.curWarp.pc = d.curWarp.pc + 1 ∧
            (∀ l, l < 32 → t.reg vd l = r.tail ∧ t.reg (vd + 1) l = r.head) ∧ t.dev.curCol.rings = k.rings) ∧
        (f.sub.getLsbD 0 = false → r.bytes < v →
          ∃ t, exec (.rwait f) s = .next t ∧ t.dev.issued = .retired ∧ t.vault = s.vault ∧ t.dev.curWarp.regs = d.curWarp.regs ∧
            t.dev.curWarp.pc = d.curWarp.pc ∧ t.dev.curWarp.active = false ∧
            t.dev.curWarp.park = .rwait n v (if f.pp = 0 then none else some (d.now + 256 * f.pp.toNat)) vd (f.sub.getLsbD 1))))

/-- R296, R297: WATCH returns the word and status 0 where the word satisfies its comparison, status 1 where the slice's table is full, and else
registers and parks. That it writes all 32 lanes of both registers is the model's choice (log 39). -/
def Obligations.WatchReturnsOrParks : Prop :=
  ∀ (f : MFields) (s : State) (b : LaneAcc) (e : Dev),
    let d := s.dev
    let x := vctx d f.h []
    let c := d.cur.col
    let vd := dstReg f.dat
    let v := Src.direct x.w 0 vd 0 0
    let t := Src.direct x.w 0 (vd + 1) 0 0
    let lo := rangeSrc x.w 1 f.adr 0
    let hi := rangeSrc x.w 1 f.adr 1
    let a := laneWant 0 c (laneOff lo hi f.offset 0) 4 0
    let now := ({ s with dev := e }.sliceWord b).1
    let back (status : Word) : Prop :=
      ∃ u, exec (.watch f) s = .next u ∧ u.dev.issued = .retired ∧ u.vault = s.vault ∧ u.dev.curWarp.pc = d.curWarp.pc + 1 ∧
        ∀ l, l < 32 → u.reg vd l = now ∧ u.reg (vd + 1) l = status
    s.selected f.h →
    x.ReadyUni [rangeBound x.regs vd 2, rangeBound x.regs f.adr.reg.toNat 2] [Use.ptr v, Use.ptr t, Use.ptr lo, Use.ptr hi]
      [selCheck c x.act lo hi, alignCheck x.act lo hi f.offset 4 none] →
    d.curCol.acquiring d.cur.slot = false →
    d.curCol.overtakes { d.newOp .load 0 2 [] with id := d.curCol.nextOp } [a] = false →
    s.resolve c d.curWarp.ctx 1 false d.cur.priv a = (.ok b, e) →
      (cmpOk f.size now (lane v.vals 0) = true → back 0) ∧
      (cmpOk f.size now (lane v.vals 0) = false → 64 ≤ d.curCol.watchCount b.va → back 1) ∧
      (cmpOk f.size now (lane v.vals 0) = false → d.curCol.watchCount b.va < 64 →
        ∃ u, exec (.watch f) s = .next u ∧ u.dev.issued = .retired ∧ u.vault = s.vault ∧ u.dev.curWarp.pc = d.curWarp.pc ∧
          u.dev.curWarp.regs = d.curWarp.regs ∧ u.dev.curWarp.active = false ∧
          u.dev.curWarp.park = .watch vd (if lane t.vals 0 = 0 then none else some (d.now + (lane t.vals 0).toNat)) (f.ord == 1) ∧
          u.dev.curCol.watches = d.curCol.watches ++
            [{ va := b.va, cmp := f.size, value := lane v.vals 0, who := .warp d.cur.slot, wcol := c, ctx := d.curWarp.ctx, fired := none }])

/-- R279-R281, R286, R291-R293, R297: what arrives at a column: a send that its member awaits, or that waits for it in the slot's buffer (one of a
later exchange does not enter the buffer, unless the member waits in an exchange in which no send is addressed to it, R281), a message at a ring with room or without, its
completion, a report of a changed ring, and the ends of parked waits. The model's choices: a woken RWAIT or WATCH writes all 32 lanes (log 39), and the
index that orders exchanges counts every XCH of a warp, over all domains (log 115). -/
def Obligations.ExchangeEvents : Prop :=
  ∀ (s : State) (c slot : Nat),
    let k := s.dev.col c
    let w := s.dev.warp c slot
    (∀ (y : XSend) (x : XchOp) (o : MemOp), k.xbuf.get? slot = some y → k.xchs.find? (fun x => x.slot == slot && x.wants) = some x →
      k.op? x.op = some o → o.slot = slot → o.killed = [] → o.window = false → x.lsp = Mask.all →
        ∃ u, exec (.xchSendArrival c slot) s = .next u ∧ u.vault = s.vault ∧ (u.dev.warp c slot).reg x.vd = y.reg ∧
          (u.dev.warp c slot).loads = w.loads - 1 ∧ (u.dev.col c).xbuf.get? slot = none) ∧
    (k.xbuf.get? slot = none →
      (∀ (p : Nat × XchOp), (s.dev.xchPending c).find? (fun p => s.dev.member p.2 c == some slot && decide (p.2.idx ≤ k.xchNext slot)) = some p →
        ∃ u, exec (.xchSendArrival c slot) s = .next u ∧ u.vault = s.vault ∧ (u.dev.warp c slot).loads = w.loads ∧
          (u.dev.col c).xbuf.get? slot = some { dom := p.2.dom, pk := p.2.pk, pp := p.2.pp, reg := p.2.reg }) ∧
      (∀ (x : XchOp) (p : Nat × XchOp), let mine := (s.dev.xchPending c).filter (fun q => s.dev.member q.2 c == some slot)
        k.xchs.find? (fun x => x.slot == slot && x.wants) = some x → s.dev.xchUnfed c x = true → (∀ q ∈ mine, k.xchNext slot < q.2.idx) →
        mine.find? (fun q => mine.all (fun r => decide (q.2.idx ≤ r.2.idx))) = some p →
        ∃ u, exec (.xchSendArrival c slot) s = .next u ∧ u.vault = s.vault ∧ (u.dev.warp c slot).loads = w.loads ∧
          (u.dev.col c).xbuf.get? slot = some { dom := p.2.dom, pk := p.2.pk, pp := p.2.pp, reg := p.2.reg }) ∧
      ((∀ p ∈ s.dev.xchPending c, s.dev.member p.2 c ≠ none ∧ (s.dev.member p.2 c = some slot → k.xchNext slot < p.2.idx)) →
        (∀ x, k.xchs.find? (fun x => x.slot == slot && x.wants) = some x → s.dev.xchUnfed c x = false) →
        exec (.xchSendArrival c slot) s = .next s)) ∧
    (∀ (entry : Nat) (m : OutMsg), k.outbuf[entry]? = some m → m.away = false →
      (k.outbuf.take entry).any (fun e => e.dcol == m.dcol && e.ring == m.ring) = false →
        let r := (s.dev.col m.dcol).ring m.ring
        (r.takes (4 * m.words.length) = true → ∃ u, exec (.msgDelivery c entry) s = .next u ∧ u.vault = s.vault ∧
          (u.dev.col m.dcol).ring m.ring = { r with tail := r.tail + BitVec.ofNat 32 (32 + 4 * m.words.length) }) ∧
        (r.takes (4 * m.words.length) = false → ∃ u, exec (.msgDelivery c entry) s = .next u ∧ u.vault = s.vault ∧
          (u.dev.col m.dcol).rings = (s.dev.col m.dcol).rings ∧ (c, m.ring) ∈ (u.dev.col m.dcol).turned ∧
          (u.dev.col c).outbuf = k.outbuf.set entry { m with away := true })) ∧
    (∀ (op : Nat) (o : MemOp), k.op? op = some o → o.kind = .msg → o.mark = true → o.entry = none →
      ∃ u, exec (.msgCompletionReturn c op) s = .next u ∧ u.vault = s.vault ∧ (u.dev.col c).op? op = none ∧
        (u.dev.warp c o.slot).stores = (s.dev.warp c o.slot).stores - 1) ∧
    (∀ (dst ring : Nat), (s.dev.col dst).reports.contains (c, ring) = true →
      ∃ u, exec (.ringChangeReport c dst ring) s = .next u ∧ u.vault = s.vault ∧
        ∀ m ∈ (u.dev.col c).outbuf, m.dcol = dst → m.ring = ring → m.away = false) ∧
    (∀ (n t vd : Nat) (dl : Option Nat) (acq : Bool), w.park = .rwait n t dl vd acq →
      let woken (u : State) : Prop := u.vault = s.vault ∧ (u.dev.warp c slot).park = .none ∧ (u.dev.warp c slot).pc = w.pc + 1 ∧
        ∀ l, l < 32 → (u.dev.warp c slot).laneOf vd l = (k.ring n).tail ∧ (u.dev.warp c slot).laneOf (vd + 1) l = (k.ring n).head
      (t ≤ (k.ring n).bytes → ∃ u, exec (.rwaitWake c slot) s = .next u ∧ woken u) ∧
      (∀ e, dl = some e → e ≤ s.dev.now → ∃ u, exec (.rwaitTimeout c slot) s = .next u ∧ woken u)) ∧
    (∀ (vd : Nat) (dl : Option Nat) (acq : Bool) (x : Watch), w.park = .watch vd dl acq → k.watchOf slot = some x →
      let woken (u : State) (v : Word) (status : Nat) : Prop := u.vault = s.vault ∧ (u.dev.warp c slot).park = .none ∧
        (u.dev.warp c slot).pc = w.pc + 1 ∧ (u.dev.col c).watchOf slot = none ∧
        ∀ l, l < 32 → (u.dev.warp c slot).laneOf vd l = v ∧ (u.dev.warp c slot).laneOf (vd + 1) l = BitVec.ofNat 32 status
      (∀ v st, x.fired = some (v, st) → ∃ u, exec (.watchWake c slot) s = .next u ∧ woken u v st) ∧
      (∀ e, dl = some e → e ≤ s.dev.now → x.fired = none →
        ∃ u, exec (.watchTimeout c slot) s = .next u ∧ woken u (BitVec.ofNat 32 (numOf (s.seen c s.dev.free x.va 4))) 2))

/-- R204, R221, R245, R252, R261, R266, R269: what ends on a column without a value: an operation with all its completion times leaves STORES, a
lease runs out, a release ends, the sequencer gives the next ticket, and a full barrier phase completes and empties (R269: one of a context whose image is being written does not). R83, R86, R87: the
highest-ranked ready pending warp enters the active set, one in a tick, while it holds fewer than eight warps, or, overdue, in the place of the
lowest-ranked active one that is not; a warp whose count has reached 320 is overdue from
then on. -/
def Obligations.CompletionEvents : Prop :=
  (∀ (s : State) (c : Nat),
    let k := s.dev.col c
    (∀ (op : Nat) (o : MemOp), k.op? op = some o → o.kind.isStore = true → o.kind ≠ .msg → o.lanes = [] → o.logged = 0 → o.resv = [] →
      o.entry = none → ∃ u, exec (.gwctReturn c op) s = .next u ∧ u.vault = s.vault ∧ (u.dev.col c).op? op = none ∧
        (u.dev.warp c o.slot).stores = (s.dev.warp c o.slot).stores - 1 ∧
        (u.dev.warp c o.slot).relTimes = timesWith (s.dev.warp c o.slot).relTimes o.reach o.time) ∧
    (∀ (ctx line : Nat), exec (.leaseExpiry c ctx line) s = .next { s with dev := s.dev.modCol c (fun k =>
      k.l1Drop ctx (fun o l => o == line * 128 && !l.usable s.dev.now)) }) ∧
    (∀ (slot : Nat) (m : BitVec 7), (s.dev.warp c slot).wait = .release m → k.released slot m s.dev.now = true →
      exec (.releaseWaitEnd c slot) s = .next { s with dev := s.dev.modWarp c slot (fun w => { w with relDone := true }) }) ∧
    (s.dev.ticketless ≠ [] → .seqr ∈ s.dev.ready → ∃ u, exec .sequencerTicket s = .next u ∧ u.vault = s.vault ∧
      u.dev.tickets = s.dev.tickets + 1) ∧
    (∀ gang b : Nat, (k.bar gang b).full = true → k.trackerClear s.dev.now (k.bar gang b).mask (fun t => t.gang == gang) = true →
      (∀ w ∈ k.warps, w.2.gang = gang → ∀ n form m, w.2.park ≠ .barFull b n form m) →
        ∃ u, exec (.barrierPhaseComplete c gang b) s = .next u ∧ u.vault = s.vault ∧
          (u.dev.col c).bar gang b =
            { arr := (k.bar gang b).engines, exp := 0, phase := (k.bar gang b).phase + 1, mask := 0, engines := 0 }) ∧
    (∀ launch unit channel : Nat, let x := s.dev.bard launch unit channel
      s.dev.launches.has launch = true → s.dev.standing (((s.dev.launches.get? launch).map (fun l => l.ctx)).getD 0) = true → s.dev.bardFull x = true → s.dev.unitClear x = true → x.arrived ≠ [] →
      (∀ p ∈ s.dev.launchWarps launch, ∀ form m, (s.dev.warp p.1 p.2).park ≠ .bardFull x.unit x.channel form m) →
        ∃ u, exec (.bardPhaseComplete launch unit channel) s = .next u ∧ u.vault = s.vault ∧
          u.dev.bard x.launch x.unit x.channel = { x with phase := x.phase + 1, arrived := [], mask := 0 })) ∧
  (∀ (s : State) (c slot : Nat) (w : Warp),
    let k := s.dev.col c
    let up (k : Column) : Column := { k.putWarp slot { k.warp slot with
      active := true, wait := .none, entered := s.dev.now, enteredOpp := k.opps } with lastEnter := some s.dev.now }
    (k.lastEnter ≠ some s.dev.now → s.dev.candidate c = some (slot, w) →
      ((k.warps.filter (fun x => x.2.active)).length < 8 →
        exec (.warpEnterActive c) s = .next { s with dev := s.dev.modCol c up }) ∧
      (∀ (t : Nat) (v : Warp), 8 ≤ (k.warps.filter (fun x => x.2.active)).length → w.overdueAt ≠ none → k.lowest = some (t, v) →
        exec (.warpEnterActive c) s = .next { s with dev := s.dev.modCol c (fun k =>
          up (k.putWarp t { k.warp t with active := false, entered := s.dev.now })) })) ∧
    (k.lastEnter = some s.dev.now ∨ s.dev.candidate c = none → exec (.warpEnterActive c) s = .next s) ∧
    (320 ≤ (s.dev.warp c slot).overdueCount → (s.dev.warp c slot).overdueAt = none → (s.dev.col c).warps.has slot = true →
      exec (.warpOverdue c slot) s = .next { s with dev := s.dev.modWarp c slot (fun v => { v with overdueAt := some s.dev.now }) }))

/-- R235: an instruction with an indirect destination that would be its warp's fifth indirect reservation waits, with nothing changed, until one of the
four has ended. Stated of the two-source integer and logic instructions, of MOV and of LDS. -/
def Obligations.FifthWindowWaits : Prop :=
  (∀ (f : VFields) (s : State),
    let x := vIn f s 2
    let t := f.h.ty
    let a := x.src 1 f.a
    let b := x.srcB f t
    let y : VCtx := vctx s.dev f.h (dstOperand f.d :: (if f.vi then [] else [f.a]))
    let m := if f.vi then Src.const 2 f.imm t else y.src 1 f.a
    let waits (i : Instr) (x : VCtx) (us : List Use) : Prop := i.wf = true → x.fifthWindow f.d = true → x.notReady us = false →
      x.checks f.h.u (dstBound x.regs f.d :: x.bounds us) (x.dstWin f.d) us none [] = none →
        exec i s = .next { s with dev := { s.dev with issued := .held } }
    (∀ i ∈ [Instr.iadd f, .isub f, .imul f, .imulh f, .imin f, .imax f], waits i x [Use.of a t, Use.of b t]) ∧
    (∀ i ∈ [Instr.and f, .or f, .xor f, .andn f, .shl f, .shr f, .sar f, .rot f], waits i x [logicUse t a, logicUse t b]) ∧
    waits (.bfx f) x [Use.of a t, Use.of b t] ∧
    waits (.mov f) y [if t == Fmt.raw then { src := m, want := none, one := true } else Use.of m t]) ∧
  (∀ (f : MFields) (s : State),
    let x := vctx s.dev f.h [dstOperand f.dat]
    let col := s.dev.curCol
    let a := x.spadAdr f.adr
    let n := accessBytes f.size.toNat
    let off := spadOff a f.offset
    x.act ≠ 0 → col.acquiring s.dev.cur.slot = false → (Instr.lds f).wf = true → x.fifthWindow f.dat = true → x.notReady [Use.ptr a] = false →
    firstTrap [x.datBound f.dat (accessRegs f.size.toNat), a.boundCheck x.regs, (Use.ptr a).tagCheck, x.dstWin f.dat, spadBound col x.act off n,
      spadAlign x.act off n, a.poisCheck x.act] = none →
      exec (.lds f) s = .next { s with dev := { s.dev with issued := .held } })

/-! ## The matrix unit (R300-R343) -/

/-- R305-R312, R316, R317: MMA, MMAB and MMAS with their registers readable and their tile, operands and scales inside their bounds and aligned
enter their tile queue with the values that they read. R313-R317: MLDB from scratchpad or from the own column's offsets, MLDA and MCLR enter their
tile queue. R323-R326, R329, R338: MDRAIN and PJADJ with parameters that R325 accepts enter queue 0; no register
changes, but those that they will write read as undefined values until then (R263). -/
def Obligations.TileOperationsEnterQueue : Prop :=
  (∀ (f : TFields) (s : State),
    let k := s.dev.curCol
    let a := s.reads f.areg.toNat 0
    let b := s.reads f.breg.toNat 0
    let rows := s.valueOr f.rows 64
    let sparse := f.mode == 2
    let quant := f.mode == 3
    let asc := if sparse then 0 else s.valueOr f.abm 0
    let bsc := if sparse then 0 else s.valueOr f.bbm 0
    let g := groupOf bsc.toNat
    let m := if f.mode = 1 then 256 else rows.toNat
    let bs := bsc.toNat % 2 ^ 20
    let words (r : BitVec 8) : Prop :=
      r = 0 ∨ ∀ j, j < 2 * ((f.k + 31) / 32) → s.readable (r.toNat + j) [Fmt.ui32]
    s.tileOpen f.h (if f.q then 1 else 0) →
    (f.sum = true → s.dev.curRec.fixsum = true ∧ (s.dev.ctx s.dev.curWarp.ctx).fixRight = true) →
    s.uniform f.areg.toNat [Fmt.ui32, Fmt.i32] → s.uniform f.breg.toNat [Fmt.ui32, Fmt.i32] → s.optional f.rows →
    (if sparse then words f.abm ∧ words f.bbm else s.optional f.abm ∧ s.optional f.bbm) →
    f.td.toNat < k.regions.acc → 1 ≤ rows.toNat → rows.toNat ≤ 64 →
    a.toNat % 32 = 0 → a.toNat + m * f.k * TFields.aw f / 8 ≤ k.spadBytes →
    b.toNat % 256 = 0 → b.toNat + (if f.mode = 1 then 4 else 1) * TFields.bLines f * 256 ≤ k.bsGang →
    (f.abm ≠ 0 → sparse = false → asc.toNat % 32 = 0 ∧ asc.toNat + m * (f.k / 24) ≤ k.spadBytes) →
    (f.bbm ≠ 0 → sparse = false → bs % 256 = 0 ∧
      bs + (if quant then (if g = 0 then 0 else f.k / g) else (f.k / 24 + 3) / 4) * 256 ≤ k.bsGang ∧
      (if quant then g ≠ 0 ∧ bsc.toNat / 2 ^ 22 = 0 ∧ f.k % g = 0 else bsc.toNat / 2 ^ 20 = 0)) →
      ∀ i ∈ [Instr.mma f, .mmab f, .mmas f],
        ∃ u, exec i s = .next u ∧ Queued s u i (if f.q then 1 else 0) a b asc bsc rows ∧ u.dev.curWarp.regs = s.dev.curWarp.regs) ∧
  (∀ (f : TFields) (s : State),
    let k := s.dev.curCol
    let q := if f.q then 1 else 0
    let a := s.reads f.areg.toNat 0
    let hi := s.reads (f.areg.toNat + 1) 0
    let b := s.reads f.breg.toNat 0
    let p := ptrOf a hi
    let n := TFields.srcBytes f
    let rows := s.valueOr f.rows 64
    let ints := [Fmt.ui32, Fmt.i32]
    s.tileOpen f.h q →
      (s.uniform f.areg.toNat ints → s.uniform f.breg.toNat ints →
        (if f.mode.getLsbD 1 then s.uniform (f.areg.toNat + 1) ints ∧ ownSel s.dev.cur.col p = true ∧
            (f.mode = 2 → ptrOff p % 32 = 0) ∧ ptrOff p / 2 ^ 21 = (ptrOff p + n - 1) / 2 ^ 21
          else a.toNat + n ≤ k.spadBytes ∧ (f.mode = 0 → a.toNat % 32 = 0)) →
        b.toNat % 256 = 0 → b.toNat + TFields.bLines f * 256 ≤ k.bsGang →
        ∃ u, exec (.mldb f) s = .next u ∧ Queued s u (.mldb f) q a b 0 0 64 ∧ u.dev.curWarp.regs = s.dev.curWarp.regs) ∧
      (s.uniform f.areg.toNat ints → s.optional f.rows → f.td.toNat < k.regions.acc → 1 ≤ rows.toNat → rows.toNat ≤ 64 →
        a.toNat % 32 = 0 → a.toNat + rows.toNat * 256 ≤ k.spadBytes →
        ∃ u, exec (.mlda f) s = .next u ∧ Queued s u (.mlda f) q a 0 0 0 rows ∧ u.dev.curWarp.regs = s.dev.curWarp.regs) ∧
      (f.k8.toNat % 32 < k.regions.acc →
        ∃ u, exec (.mclr f) s = .next u ∧ Queued s u (.mclr f) q 0 0 0 0 64 ∧ u.dev.curWarp.regs = s.dev.curWarp.regs)) ∧
  (∀ (f : PFields) (s : State),
    let k := s.dev.curCol
    let v (j : Nat) : Word := if f.par = 0 then 0 else s.reads (f.par.toNat + j) 0
    let geo := if f.par = 0 then PFields.fullGeo f else v 2
    let m := geoM geo
    let n := geoN geo
    let c := PFields.counts f m n
    let regs := k.regions.regs
    let spad : Prop := f.dk = true ∧ f.selp ≠ 7
    let dst : Word := if f.dk && f.selp != 7 then s.reads f.dst.toNat 0 else 0
    let ints := [Fmt.ui32, Fmt.i32]
    let common (yes : Bool) : Prop :=
      s.tileOpen f.h 0 ∧ f.tl.toNat < k.regions.acc ∧ PFields.geoOk f geo = true ∧
      (f.par ≠ 0 → s.uniform f.par.toNat [Fmt.f32] ∧ s.uniform (f.par.toNat + 1) (if yes then ints else [Fmt.f32]) ∧
        s.uniform (f.par.toNat + 2) ints) ∧
      (spad → s.uniform f.dst.toNat ints ∧ dst.toNat % 32 = 0 ∧ dst.toNat + PFields.outBytes f m n ≤ k.spadBytes ∧ n % 8 = 0) ∧
      (f.dk = false → f.selp ≠ 7 → f.dst.toNat + c.1 ≤ regs) ∧ (f.sup ≠ 0 → f.sup.toNat + c.2.1 ≤ regs) ∧
      (f.stw ≠ 0 → f.stw.toNat + c.2.2 ≤ regs)
    let outputs (adj : Bool) (u : State) : Prop :=
      u.dev.curWarp.regs = s.dev.curWarp.regs ∧
      (∀ r, (∀ x ∈ PFields.regsOut f adj m n, x.1 ≠ r) → (∀ rs ∈ PFields.ranges f adj m n, r ∉ rs) → u.readReg r = s.readReg r) ∧
      ∀ x ∈ PFields.regsOut f adj m n, ∀ l, l < 32 → Mask.has x.2.1 l = true → ∃ v, u.reads x.1 l = Config.freeWord v
    (common false → ((f.selp = 1 ∨ f.selp = 2 ∨ f.selp = 3) → posFinite (v 0) = true) → (f.selp = 4 → boxBad (v 0) (v 1) = false) →
      (f.selp = 7 → finite (v 0) = true) →
      ∃ u, exec (.mdrain f) s = .next u ∧ Queued s u (.mdrain f) 0 dst (v 0) (v 1) 0 geo ∧
        outputs false u) ∧
    (common (f.selp == 3) → ((f.selp = 2 ∨ f.selp = 3) → posFinite (v 0) = true) →
      (f.selp = 3 → (v 1).toNat % 32 = 0 ∧ (v 1).toNat + m * n * 4 ≤ k.spadBytes) →
      (∀ r ∈ PFields.stwIn f m n, s.dev.curCol.busy s.dev.cur.slot [r] = false ∧ r < regs) →
      ∃ u, exec (.pjadj f) s = .next u ∧ Queued s u (.pjadj f) 0 dst (v 0) (v 1) 0 geo ∧
        outputs true u))

/-- R307-R318, R326-R339: a tile queue's head that nothing holds back starts; once its ticks have passed it completes: it leaves its queue, TILES
falls, and MCLR's tiles hold 0, an MMA's, MMAB's or MMAS's tile its products, MLDA's the scratchpad's rows, MLDB's B-lines the elements of its source.
R307-R312: an output element is its tile's element plus the products of its row and column: FixedSum, a value of the bound of R148 (which one is free, log
8), or integer steps. R313: the memory form of MLDB writes a B-line from the sectors that it reads. R326-R330: MDRAIN and PJADJ write the codes of their
rows into registers or the scratchpad, the support sizes, the bitmaps or row values, and nothing else, and set NANLOST. R331-R339: what a row gives under
each selector. Values that R263, R319 or R329 leave undefined are no case of this. -/
def Obligations.TileOperationsRun : Prop :=
  (∀ (s : State) (c q : Nat) (o : TileOp) (t : Nat),
    let k := s.dev.col c
    let done (u : State) : Prop := u.vault = s.vault ∧ (u.dev.col c).queue q = [] ∧
      (u.dev.warp c o.slot).tiles = (s.dev.warp c o.slot).tiles - 1
    let holds (u : State) (t : Nat) (rows : List (List (Word × Bool))) : Prop :=
      ∀ i, i < rows.flatten.length →
        (u.dev.col c).poolWord o.ctx ((k.tileRange t).1 / 4 + i) = rows.flatten.getD i (0, false)
    k.queue q = [o] → k.queue (1 - q) = [] → q < 2 → o.clash = [] → o.bclash = [] → o.spoiled = false → k.yielded = false → k.halted = false →
      (o.started = none → o.held = none → o.itick + 4 ≤ s.dev.now →
        ∃ u, exec (.tileOpStart c q) s = .next u ∧ u.vault = s.vault ∧ (u.dev.col c).queue q = [o.starts s.dev.now]) ∧
      (o.started = some t → o.fromMem = false → t + o.busy k + o.x ≤ s.dev.now + 1 →
        ∃ u, exec (.tileOpComplete c q) s = .next u ∧
          (∀ f, o.insn = .mclr f → done u ∧ (o.tiles.Nodup → ∀ t ∈ o.tiles, holds u t [List.replicate 4096 (0, false)])) ∧
          (∀ f, o.insn = .mma f ∨ o.insn = .mmab f ∨ o.insn = .mmas f → done u ∧ holds u (o.tiles.headD 0) (o.product k f)) ∧
          (∀ f, o.insn = .mlda f → done u ∧ (o.kept = [] → ∀ i, i < o.rowsv.toNat * 64 →
            (u.dev.col c).poolWord o.ctx ((k.tileRange (o.tiles.headD 0)).1 / 4 + i) =
              k.poolWord o.ctx ((k.spadBase o.gang + o.aoff.toNat) / 4 + i))) ∧
          (∀ f, o.insn = .mldb f → done u ∧ (o.kept = [] → ∀ r n, r < f.k → n < 64 →
            let w := TFields.bw f
            let bit := (if f.mode.getLsbD 0 then n * f.k + r else r * 64 + n) * w
            let byte := k.spadBase o.gang + o.aoff.toNat + bit / 8
            (u.dev.col c).bsCode o.ctx (k.bsGangBase o.gang + o.boff.toNat) w r n =
              numOf (k.poolBytes o.ctx byte ((bit % 8 + w + 7) / 8)).1 / 2 ^ (bit % 8) % 2 ^ elemBits (fmtOf f.bf))))) ∧
  (∀ (k : Column) (o : TileOp) (f : TFields) (i n : Nat),
    let out := (((o.product k f).getD i []).getD n (0, false)).1
    let tile := (k.poolWord o.ctx ((k.tileRange (o.tiles.headD 0)).1 / 4 + 64 * i + n)).1
    let c := f32Val tile
    let kpt := (TFields.rates f).1
    let p := (TFields.rates f).2.1
    let ks := List.range f.k
    let row := if f.mode = 1 then (4 * (i / 16) + n / 16) * 16 + i % 16 else i
    let line := if f.mode = 1 then i / 16 * TFields.bLines f else 0
    let av (r : Nat) : FVal := o.aVal k f row r
    let bv (r : Nat) : FVal := o.bVal k f line r n
    let x (r : Nat) : FVal := FVal.mul (av r) (bv r)
    let whole (r : Nat) : Int := (av r).frac.1 * (bv r).frac.1
    let ints (steps : Nat) (xs : List Int) : Word := BitVec.ofNat 32 (wrapInt 32 (intSteps f.h.s steps (xs.length + 1) tile.toInt xs))
    let free (steps : Nat) (xs : List FVal) : Prop := ∃ cand, out = BitVec.ofNat 32 (freeSum cand steps c xs)
    let g := groupOf o.bsc.toNat
    let group (j : Nat) : Word := (k.bsWord o.ctx ((k.bsGangBase o.gang + o.bsc.toNat % 2 ^ 20) / 4 + j * 64 + n)).1
    let within (j : Nat) (xs : Nat → FVal) : FVal := FVal.sum 0 ((List.range g).map (fun r => xs (j * g + r)))
    let bit (reg i r : Nat) : Bool := reg == 0 || (((k.warp o.slot).reg (reg + 2 * (r / 32) + i / 32)).data.lane (i % 32)).getLsbD (r % 32)
    let on (r : Nat) : Bool := bit f.abm.toNat i r && bit f.bbm.toNat n r
    let l := ks.filter (fun r => (List.range o.rowsv.toNat).any (fun i => bit f.abm.toNat i r) &&
      (List.range 64).any (fun n => bit f.bbm.toNat n r))
    o.kept = [] → o.keptRegs = [] → o.vague = [] → i < (if f.mode = 1 then 64 else o.rowsv.toNat) → n < 64 →
      (f.mode.toNat ≤ 1 → (f.mode = 0 → f.abm ≠ 0 ∨ f.bbm ≠ 0 → f.k % 24 = 0) →
        (f.h.ty = Fmt.f32 → f.sum = true → out = BitVec.ofNat 32 (fixedSum c (ks.map x))) ∧
        (f.h.ty = Fmt.f32 → f.sum = false → free (f.k / kpt) (ks.map x)) ∧
        (f.h.ty = Fmt.i32 → out = ints kpt (ks.map whole))) ∧
      (f.mode = 3 → f.h.ty = Fmt.f32 → g ≠ 0 → f.k % g = 0 →
        (f.sum = true → out = BitVec.ofNat 32 (fixedSum c (ks.map (fun r =>
          FVal.mul (av r) (FVal.mul (groupScale (group (r / g))) (FVal.ofInt ((bv r).frac.1 - groupZero (group (r / g))))))))) ∧
        (f.sum = false → free (f.k / kpt) ((List.range (f.k / g)).map (fun j =>
          FVal.mul (groupScale (group j)) (FVal.add 0 (within j x) (FVal.mul (FVal.ofInt (-groupZero (group j))) (within j av))))))) ∧
      (f.mode = 2 →
        (f.h.ty = Fmt.f32 → f.sum = true → out = BitVec.ofNat 32 (fixedSum c (ks.map (fun r => if on r then x r else FVal.zero)))) ∧
        (f.h.ty = Fmt.f32 → f.sum = false → free ((l.length + p - 1) / p) ((l.filter on).map x)) ∧
        (f.h.ty = Fmt.i32 → f.sum = false → out = ints p (l.map (fun r => if on r then whole r else 0))))) ∧
  (∀ (s : State) (c q : Nat) (o : TileOp) (f : TFields) (t : Nat) (ss : List (Nat × List Byte × Bool)) (d : Dev),
    let k := s.dev.col c
    let a := ptrOff (ptrOf o.aoff o.ahi)
    let e := 32 / TFields.bw f
    let w := TFields.srcBits f
    let bit (j n : Nat) : Nat := mldbBit f (o.line * e + j) n
    let secs := ((((List.range e).map (fun j => (List.range 64).map (bit j))).flatten.map (fun b =>
      [(a + b / 8) / 32 * 32, (a + (b + w - 1) / 8) / 32 * 32])).flatten).eraseDups
    let byte (y : Nat) : Nat := match ss.find? (fun x => x.1 == y / 32 * 32) with
      | some x => (x.2.1.getD (y % 32) 0).toNat
      | none => 0
    let code (b : Nat) : Nat :=
      (byte (a + b / 8) + (if (b + w - 1) / 8 = b / 8 then 0 else 256 * byte (a + (b + w - 1) / 8))) / 2 ^ (b % 8) % 2 ^ w
    k.queue q = [o] → q < 2 → k.yielded = false → o.insn = .mldb f → f.mode.getLsbD 1 = true → o.started = some t → o.Plain →
    k.filter.any (fun x => x.rerun.contains (.tile q)) = false →
      (∀ n, o.wrote = some n → n + 4 ≤ s.dev.now → ∃ u, exec (.tileOpComplete c q) s = .next u ∧ u.vault = s.vault ∧
        (u.dev.col c).queue q = [] ∧ (u.dev.warp c o.slot).tiles = (s.dev.warp c o.slot).tiles - 1) ∧
      (o.wrote = none → t < s.dev.now → o.line < TFields.bLines f → s.homeSectors c o.ctx o.priv secs = (.ok ss, d) →
        ∃ u, exec (.tileOpComplete c q) s = .next u ∧ u.vault = s.vault ∧
          (u.dev.col c).queue q =
            [{ o with line := o.line + 1, wrote := if TFields.bLines f ≤ o.line + 1 then some s.dev.now else none }] ∧
          ∀ j n, j < e → n < 64 →
            ((u.dev.col c).bsWord o.ctx ((k.bsGangBase o.gang + o.boff.toNat) / 4 + o.line * 64 + n)).1.toNat /
              2 ^ (TFields.bw f * j) % 2 ^ TFields.bw f = code (bit j n) % 2 ^ elemBits (fmtOf f.bf))) ∧
  (∀ (s : State) (c : Nat) (o : TileOp) (f : PFields) (adj : Bool) (t : Nat),
    let k := s.dev.col c
    let w := s.dev.warp c o.slot
    let m := geoM o.rowsv
    let n := geoN o.rowsv
    let row (i : Nat) : RowDone := o.row k f adj i
    let of := fmtOf f.of
    let e := elems of
    let rs := (n + e - 1) / e
    k.queue 0 = [o] → k.queue 1 = [] → k.yielded = false → o.Plain → o.insn = (if adj then .pjadj f else .mdrain f) → o.started = some t →
    t + o.busy k + o.x ≤ s.dev.now + 1 → PFields.doubled f adj m n = [] → m ≤ 64 → 1 ≤ n →
      ∃ u, exec (.tileOpComplete c 0) s = .next u ∧ u.vault = s.vault ∧ (u.dev.col c).queue 0 = [] ∧
        let v := u.dev.warp c o.slot
        v.tiles = w.tiles - 1 ∧ v.wstat = w.wstat ||| (if (List.range m).any (fun i => (row i).lost) then 1 else 0) ∧
        (f.selp ≠ 7 → f.dk = false → ∀ i j, i < m → j < rs * e →
          (v.reg (f.dst.toNat + i / 32 * rs + j / e)).fmt = of ∧
          elemCode of (v.laneOf (f.dst.toNat + i / 32 * rs + j / e) (i % 32)) (j % e) = if j < n then (row i).codes.getD j 0 else 0) ∧
        (f.selp ≠ 7 → f.dk = true → n % 8 = 0 → ∀ i j, i < m → j < n →
          elemCode of ((u.dev.col c).poolWord o.ctx ((k.spadBase o.gang + o.aoff.toNat) / 4 + (i * n + j) / e)).1 ((i * n + j) % e) =
            (row i).codes.getD j 0) ∧
        (adj = false → f.sup ≠ 0 → ∀ i, i < m → v.laneOf (f.sup.toNat + i / 32) (i % 32) = BitVec.ofNat 32 (row i).size) ∧
        (adj = false → f.stw ≠ 0 → f.selp ≠ 3 → f.selp ≠ 7 → ∀ i j, i < m → j < (n + 31) / 32 * 32 →
          (v.laneOf (f.stw.toNat + 2 * (j / 32) + i / 32) (i % 32)).getLsbD (j % 32) = (decide (j < n) && (row i).sup.getD j false)) ∧
        (adj = false → f.stw ≠ 0 → (f.selp = 3 ∨ f.selp = 7) → ∀ i, i < m → v.laneOf (f.stw.toNat + i / 32) (i % 32) = (row i).word) ∧
        ∀ r l, l < 32 → (∀ x ∈ PFields.regsOut f adj m n, x.1 = r → Mask.has x.2.1 l = false) → v.laneOf r l = w.laneOf r l) ∧
  (∀ (k : Column) (o : TileOp) (f : PFields) (i : Nat),
    let n := geoN o.rowsv
    let js := List.range n
    let w (j : Nat) : Word := o.rowWord k i j
    let x (j : Nat) : FVal := f32Val (w j)
    let z := f32Val o.boff
    let hi := f32Val o.asc
    let r := o.row k f false i
    let of := fmtOf f.of
    let rm := if f.selp = 0 then f.h.rm else 0
    let round (y : FVal) : Nat := (convertElem of rm f.h.s y).1
    let out (y : FVal) : Nat := plusZero of (round y)
    let count (set : Nat → Bool) : Nat := (js.filter set).length
    let one (n : Nat) : FVal := .fin false n 1
    let nonzero (code : Nat → Nat) (j : Nat) : Bool := decide (code j % 2 ^ (elemBits of - 1) ≠ 0) || (isIntFmt of && code j != 0)
    let some_ (p : FVal → Bool) : Bool := js.any (fun j => p (x j))
    let finite (j : Nat) : Bool := !(x j).isInf
    o.kept = [] → 1 ≤ n → (f.selp = 0 ∨ f.h.rm = 0) →
      (f.selp = 0 → f.h.ty = Fmt.i32 → of = Fmt.i32 → r.Gives n (fun j => (w j).toNat) (nonzero (fun j => (w j).toNat))) ∧
      (f.selp = 0 → f.h.ty = Fmt.i32 → of ≠ Fmt.i32 →
        r.Gives n (fun j => out (FVal.ofInt (w j).toInt)) (nonzero (fun j => out (FVal.ofInt (w j).toInt)))) ∧
      (f.h.ty ≠ Fmt.i32 →
        (f.selp = 0 → r.Gives n (fun j => out (x j)) (nonzero (fun j => out (x j)))) ∧
        (f.selp = 4 → r.Gives n
          (fun j => out (if (x j).isNan then .nan else if FVal.less (x j) z then z else if FVal.less hi (x j) then hi else x j))
          (fun j => FVal.less z (x j) && FVal.less (x j) hi)) ∧
        (f.selp = 7 → r.size = count (fun j => FVal.less z (x j)) ∧
          r.word = if some_ FVal.isNan then 0x7FC00000#32
            else roundF32 0 (sumF32 ((js.filter (fun j => FVal.less z (x j))).map (fun j => (x j).minus z)))) ∧
        (some_ FVal.isNan = true → f.selp ∈ [1#3, 2, 3, 5, 6] →
          r.Gives n (fun _ => out .nan) (fun _ => false) ∧ (f.selp = 3 → r.word = 0x7FC00000#32)) ∧
        (some_ FVal.isNan = false →
          (f.selp = 1 →
            let top := ((js.filter finite).map (fun j => keyOf (w j).toNat)).foldl max 0
            let down := roundF32 2 (FVal.add 2 (f32Val (BitVec.ofNat 32 (ofKey top))) z.negate)
            let low := if down = 0xFF800000#32 then 0xFF7FFFFF#32 else down
            let tau := FloatFmt.fp32.value (ofKey (bisect (js.map x) z 33 (keyOf low.toNat) top).1)
            let inS (j : Nat) : Bool := FVal.less tau (x j)
            let taus := f32Val (roundF32 0 (FVal.div ((sumF32 ((js.filter inS).map x)).minus z) (one (count inS))))
            (some_ (· == .inf false) = true → r.Gives n
              (fun j => out (if x j = .inf false then FVal.div z (one (count (fun j => x j == .inf false))) else FVal.zero))
              (fun j => x j == .inf false)) ∧
            (some_ (· == .inf false) = false → js.any finite = false → r.Gives n (fun _ => out (FVal.div z (one n))) (fun _ => true)) ∧
            (some_ (· == .inf false) = false → js.any finite = true →
              r.Gives n (fun j => out (if inS j then ((x j).minus taus).relu else FVal.zero)) inS)) ∧
          (f.selp = 2 →
            let sum := sumF32 (js.map (fun j => (x j).abs))
            let u := simplex z (js.map (fun j => w j &&& 0x7FFFFFFF#32))
            (FVal.less z sum = false → r.Gives n (fun j => round (x j)) (fun j => !(x j).isZero)) ∧
            (FVal.less z sum = true → r.Gives n
              (fun j => let y := u.1.getD j FVal.zero; round (if (x j).neg then y.negate else y)) (fun j => u.2.1.getD j false))) ∧
          (f.selp = 3 →
            let k := count (fun j => (x j).isInf)
            let norm : Word := BitVec.ofNat 32 (FloatFmt.fp32.roundSqrt 0 false
              (FloatFmt.fp32.value (fixedSum FVal.zero (js.map (fun j => FVal.mul (x j) (x j))))))
            let scale := f32Val (roundF32 0 (FVal.div z (f32Val norm)))
            (0 < k → r.word = 0x7F800000#32 ∧ r.Gives n
              (fun j => if (x j).isInf then (RowElem.code f 0 (.root (x j).neg (FVal.div (FVal.mul z z) (one k)))).1
                else round (.fin (x j).neg 0 1)) (fun j => (x j).isInf)) ∧
            (k = 0 → r.word = norm ∧ r.Gives n
              (fun j => round (if FVal.less z (f32Val norm) then FVal.mul (x j) scale else x j)) (fun j => !(x j).isZero))) ∧
          ((f.selp = 5 ∨ f.selp = 6) → ∃ bs : List Block, (bs.map Block.len).sum = n ∧
            (∀ pre b post, bs = pre ++ b :: post →
              b.first = (pre.map Block.len).sum ∧ 1 ≤ b.len ∧ (b.len = 1 → b.mean = x b.first) ∧
              (1 < b.len → b.mean = f32Val (roundF32 0 (FVal.div
                (sumF32 ((List.range b.len).map (fun j => x (b.first + j)))) (one b.len)))) ∧
              ∀ q rest, post = q :: rest → (if f.selp = 6 then FVal.less b.mean q.mean else FVal.less q.mean b.mean) = false) ∧
            r.size = bs.length ∧ ∀ b ∈ bs, ∀ j, j < b.len →
              r.codes.getD (b.first + j) 0 = out b.mean ∧ r.sup.getD (b.first + j) false = decide (j = 0))))) ∧
  (∀ (k : Column) (o : TileOp) (f : PFields) (i : Nat),
    let n := geoN o.rowsv
    let js := List.range n
    let g (j : Nat) : FVal := f32Val (o.rowWord k i j)
    let stw (r : Nat) : Word := ((k.warp o.slot).reg r).data.lane (i % 32)
    let bit (j : Nat) : Bool := (stw (f.stw.toNat + 2 * (j / 32) + i / 32)).getLsbD (j % 32)
    let y (j : Nat) : FVal := f32Val (k.poolWord o.ctx ((k.spadBase o.gang + o.asc.toNat) / 4 + i * n + j)).1
    let z := f32Val o.boff
    let norm := f32Val (stw (f.stw.toNat + i / 32))
    let mean (xs : List FVal) : FVal := f32Val (roundF32 0 (FVal.div (sumF32 xs) (.fin false xs.length 1)))
    let start (j : Nat) : Nat := ((List.range (j + 1)).filter (fun a => a == 0 || bit a)).getLastD 0
    let scale := f32Val (roundF32 0 (FVal.div z norm))
    let q := f32Val (roundF32 0 (FVal.div (sumF32 (js.map (fun j => FVal.mul (y j) (g j)))) (FVal.mul z z)))
    let gives (v : Nat → FVal) : Prop := (o.row k f true i).codes.length = n ∧
      ∀ j, j < n → (o.row k f true i).codes.getD j 0 = plusZero (fmtOf f.of) (convertElem (fmtOf f.of) 0 f.h.s (v j)).1
    o.kept = [] → o.keptRegs = [] → 1 ≤ n →
      (f.selp = 4 → gives (fun j => if bit j then g j else FVal.zero)) ∧
      (f.selp = 1 → js.any bit = false → gives (fun _ => FVal.zero)) ∧
      (f.selp = 1 → js.any bit = true → gives (fun j => if bit j then (g j).minus (mean ((js.filter bit).map g)) else FVal.zero)) ∧
      ((f.selp = 5 ∨ f.selp = 6) → gives (fun j => mean ((js.filter (fun a => start a == start j)).map g))) ∧
      (f.selp = 3 → norm.isNan = true → gives (fun _ => .nan)) ∧
      (f.selp = 3 → norm.isNan = false → FVal.less z norm = false → gives g) ∧
      (f.selp = 3 → norm.isNan = false → FVal.less z norm = true →
        gives (fun j => FVal.mul scale ((g j).minus (FVal.mul (y j) q)))))

/-! ## Engines, graphs and system instructions (R344-R361, R372-R373, R405, R416, R454) -/

/-- R344-R347: a CPY whose descriptor is legal, whose records fit and whose sides lie inside their bounds enters the column's copy engine, and CPYS
of its warp rises. -/
def Obligations.CopyEntersEngine : Prop :=
  ∀ (f : VFields) (s : State) (d e : Dev) (a b : Option (Option TRec)),
    let w := s.dev.curWarp
    let k := s.dev.curCol
    let va := f.a.reg.toNat
    let x := CopyDesc.ofWords (fun i => lane (rangeSrc s.dev.seen 1 f.a i).vals 0)
    let us := (List.range 8).map (fun i => Use.ptr (rangeSrc s.dev.seen 1 f.a i))
    let recs := match a, b with
      | some (some p), some (some q) => some (p, q)
      | _, _ => none
    s.selected f.h → k.busy s.dev.cur.slot ((List.range 8).map (fun i => va + i)) = false →
    firstTrap ([rangeBound k.regions.regs va 8] ++ us.map (fun u => u.src.uniCheck) ++ us.map Use.tagCheck ++
      us.map (fun u => u.src.poisCheck Mask.all)) = none →
    x.legal = true → s.hasRecord (if x.form = 0 then 0 else x.sobj) d a →
    { s with dev := d }.hasRecord (if x.form = 0 then 0 else x.dobj) e b →
    (x.form ≠ 0 → ∃ p q, a = some (some p) ∧ b = some (some q) ∧ copyRecords s.dev.cur.col x p q = true) →
    firstTrap (copyBounds k x recs) = none → s.dev.copySels w.ctx x = (true, true, true) → (x.ck = 0 → ptrOff x.cw % 8 = 0) →
    k.acquiring s.dev.cur.slot = false → k.copies.length < 16 → w.copies < 63 →
      ∃ u, exec (.cpy f) s = .next u ∧ Issues s u ∧ u.dev.curWarp.copies = w.copies + 1 ∧
        u.dev.curCol.copies = k.copies ++ [s.dev.copyCmd x (recs.map Prod.fst) (recs.map Prod.snd)]

/-- R352, R359, R360: CUE and GPATCH with pointers into the partition are one outstanding store each, of the home column's word or of a graph's
staging block. R358, R361: GLAUNCH writes its result in all lanes: the slot that its replay took, 2 where the object is refused, and under .try 1
where no slot is free; without .try its warp parks until one is. R372, R373: NMRUN reads its descriptor of 48 bytes at the home slices and puts it
into the run queue of its column's stagehand; CPYS rises. The model's choices: GLAUNCH writes 2 for a poisoned object too (log 61), and GPATCH translates
its graph's header for reading when it issues (log 63). -/
def Obligations.GraphAndProgramInstructions : Prop :=
  (∀ (f : VFields) (s : State),
    let d := s.dev
    let x := vctx d f.h []
    let lo := rangeSrc x.w 1 f.a 0
    let hi := rangeSrc x.w 1 f.a 1
    let p := ptrOf (lane lo.vals 0) (lane hi.vals 0)
    let v := x.src 2 f.b
    let v0 := rangeSrc x.w 2 f.b 0
    let v1 := rangeSrc x.w 2 f.b 1
    let q := x.src 3 f.c
    let rel := f.sub.getLsbD 0
    let e := d.afterRelease rel
    let cue : MemOp := e.newOp .cue Fmt.ui32 2
      [{ laneWant 0 (colOf d.cur.col p) (ptrOff p) 4 0 with data := [lane v.vals 0], pois := [false] }]
    let patch : MemOp := d.newOp .gpatch Fmt.ui32 3 [{ laneWant 0 (colOf d.cur.col p) (ptrOff p) 8 0 with
      data := [lane v0.vals 0, lane v1.vals 0, lane q.vals 0], pois := [false, false, false] }]
    let starts (i : Instr) (e : Dev) (o : MemOp) : Prop :=
      let got := { s with dev := e }.placeLanes d.cur.col o .store d.cur.priv o.lanes
      ∃ u, exec i s = .next u ∧ Issues s u ∧ u.dev.curWarp.stores = d.curWarp.stores + 1 ∧
        u.dev.curCol.ops = d.curCol.ops ++ [{ o with id := d.curCol.nextOp, lanes := got.2.1, logged := got.2.2 }]
    s.selected f.h → d.partPtr d.curWarp.ctx p = true → d.curCol.acquiring d.cur.slot = false →
    d.curCol.storeRoom d.cur.slot 1 = true →
      (ptrOff p % 4 = 0 → x.ReadyUni [rangeBound x.regs f.a.reg.toNat 2] [Use.ptr lo, Use.ptr hi, Use.ptr v] [] →
        d.releaseOver rel d.curWarp.obs → starts (.cue f) e cue) ∧
      (ptrOff p % 64 = 0 →
        x.ReadyUni [rangeBound x.regs f.a.reg.toNat 2, rangeBound x.regs f.b.reg.toNat 2]
          [Use.ptr lo, Use.ptr hi, Use.ptr v0, Use.ptr v1, Use.ptr q] [] → starts (.gpatch f) d patch)) ∧
  (∀ (f : VFields) (s : State),
    let d := s.dev
    let x := vctx d f.h []
    let lo := rangeSrc x.w 1 f.a 0
    let hi := rangeSrc x.w 1 f.a 1
    let p := ptrOf (lane lo.vals 0) (lane hi.vals 0)
    let vd := dstReg f.d
    let asked := d.askReplay d.curWarp.ctx (colOf d.cur.col p) (ptrOff p) none (.warp d.cur.col d.cur.slot)
    let tried := { s with dev := asked.2 }.tryReplay asked.1
    let writes (v : Word) : Prop :=
      ∃ u, exec (.glaunch f) s = .next u ∧ u.dev.issued = .retired ∧ u.dev.curWarp.pc = s.nextPc ∧
        (∀ l, l < 32 → u.reg vd l = v ∧ u.regPois vd l = false) ∧ u.tag vd = Fmt.ui32 ∧
        ∀ r, r ≠ vd → u.dev.curWarp.reg r = d.curWarp.reg r
    s.selected f.h → d.partPtr d.curWarp.ctx p = true → ptrOff p % 64 = 0 → d.curCol.acquiring d.cur.slot = false →
    d.curCol.patching d.cur.slot = false →
    x.ReadyUni [boundCheck x.regs vd, rangeBound x.regs f.a.reg.toNat 2] [Use.ptr lo, Use.ptr hi] [] →
      (∀ slot, tried.1 = .begun slot → writes (BitVec.ofNat 32 (slot * 256))) ∧ (∀ st, tried.1 = .bad st → writes 2) ∧
      (tried.1 = .busy → f.sub.getLsbD 0 = true → writes 1) ∧
      (tried.1 = .busy → f.sub.getLsbD 0 = false → ∃ u, exec (.glaunch f) s = .next u ∧ u.dev.issued = .retired ∧ u.vault = s.vault ∧
        u.dev.curWarp = { d.curWarp with
          park := .glaunch vd, active := false, entered := d.now, stallUntil := u.dev.curWarp.stallUntil, yld := u.dev.curWarp.yld })) ∧
  (∀ (f : VFields) (s : State) (bs : List (Byte × Bool)) (e : Dev),
    let d := s.dev
    let x := vctx d f.h []
    let lo := rangeSrc x.w 1 f.a 0
    let hi := rangeSrc x.w 1 f.a 1
    let p := ptrOf (lane lo.vals 0) (lane hi.vals 0)
    let qs := wordsOf (bs.map Prod.fst) 6
    s.selected f.h → ownSel d.cur.col p = true → ptrOff p % 64 = 0 →
    x.ReadyUni [rangeBound x.regs f.a.reg.toNat 2] [Use.ptr lo, Use.ptr hi] [] → d.curCol.acquiring d.cur.slot = false →
    d.curCol.hand.runq.length < 8 → d.curWarp.copies < 63 →
    s.engineReads d.cur.col d.cur.col d.curWarp.ctx d.cur.priv 3 (ptrOff p) 48 = (.ok bs, e) →
      ∃ u, exec (.nmrun f) s = .next u ∧ Issues s u ∧ u.dev.curWarp.copies = d.curWarp.copies + 1 ∧
        u.dev.curCol.hand.runq = d.curCol.hand.runq ++ [{
          q := Vector.ofFn (fun i => BitVec.ofNat 64 (qs.getD i.val 0)), owner := .warp d.cur.col d.cur.slot none, ctx := d.curWarp.ctx,
          pois := bs.any Prod.snd }])

/-- R31, R36, R64, R144, R416: SREAD writes a special register into the active lanes of one register, or of two for a register of 64 bits. R31, R36,
R144, R145, R214, R250, R416: SWRITE of a register of one value, of the generators, and of the lease. A register that cannot be written is left
alone. The model's choice (log 66): PT_ROOT and PEER_TAB take bits [23:0] of the low word of the source. -/
def Obligations.SpecialRegisters : Prop :=
  (∀ (f : SFields) (s : State),
    let d := s.dev
    let n := f.sr.toNat
    let vd := (f.d.extractLsb' 0 8).toNat
    let act := d.curWarp.act f.h
    (srPrivRead n = true → d.cur.priv = true) → boundCheck d.curCol.regions.regs (if srWide n then vd + 1 else vd) = none →
      ∃ u, exec (.sread f) s = .next u ∧ u.dev.issued = .retired ∧ OnlyWarp s u ∧ u.dev.curWarp.pc = s.nextPc ∧
        (∀ l, l < 32 → Mask.has act l = true → u.tag vd = srTag n ∧ u.regPois vd l = false ∧
          u.reg vd l = (if n = 0 then BitVec.ofNat 32 l else if n = 8 then lane d.curWarp.rng l else (d.srValue n).extractLsb' 0 32) ∧
          (srWide n = true → u.reg (vd + 1) l = (d.srValue n).extractLsb' 32 32 ∧ u.tag (vd + 1) = Fmt.ui32)) ∧
        (∀ r l, l < 32 → (Mask.has act l = false ∨ (r ≠ vd ∧ (srWide n = false ∨ r ≠ vd + 1))) → u.reg r l = s.reg r l) ∧
        u.dev.curWarp.rest = d.curWarp.rest) ∧
  (∀ (f : SFields) (s : State),
    let d := s.dev
    let n := f.sr.toNat
    let x := vctx d f.h []
    let v := x.src 1 f.a
    let val := lane v.vals 0
    let next (i : Instr) (e : Dev) : Prop :=
      exec i s = .next { s with dev := { e.modCurWarp (fun w => { w with pc := s.nextPc }) with issued := .retired } }
    s.selected f.h →
      ((srPrivWrite n = true → d.cur.priv = true) → srWritable n = false → next (.swrite f) d) ∧
      (x.ReadyUni [] [Use.ptr v] [] →
        (n = 4 → next (.swrite f) (d.modCurWarp (fun w => { w with wstat := val &&& 0xFFFF000D#32 }))) ∧
        (n = 7 → next (.swrite f) (d.modCurWarp (fun w => { w with obs := val.extractLsb' 0 7 }))) ∧
        (n = 0x110 → d.cur.priv = true →
          next (.swrite f) (d.modCtx d.curWarp.ctx (fun c => { c with ptRoot := (val.extractLsb' 0 24).setWidth 64 }))) ∧
        (n = 0x111 → d.cur.priv = true →
          next (.swrite f) (d.modCtx d.curWarp.ctx (fun c => { c with peerTab := (val.extractLsb' 0 24).setWidth 64 }))) ∧
        (d.cur.priv = true → next (.swriteLease f) (d.modCtx d.curWarp.ctx (fun c => { c with
          lease := min 65536 (max 256 (val.toNat % 2 ^ 17)) })))) ∧
      (x.notReady [Use.ptr v] = false → firstTrap (x.bounds [Use.ptr v] ++ [(Use.ptr v).tagCheck, v.poisCheck x.act]) = none →
        next (.swriteRng f) (d.modCurWarp (fun w => { w with rng := tab (fun l =>
          if Mask.has x.act l then (if lane v.vals l = 0 then 0x2545F491#32 else lane v.vals l) else lane w.rng l) }))))

/-- R39, R435, R416: TLBI, with no outstanding access that used an old translation, drops the named translations of the context on every column of
its partition. R454: CTXSW.save writes its code in all lanes, and with code 0 a save of the context into the named slot is pending; CTXSW.reset
resets the context. R454, R457: TEST.req queues a rehearsal on every column of the instance that it names; TEST.res reads a column's result;
TEST.inj marks a sector whose next read at its controller reports an error. The model's choices: TEST.req and TEST.res complete whatever the unused bits
of their operand hold (log 68), and CTXSW.save's code 2 covers any PREEMPT or RESUME that has begun (log 69). -/
def Obligations.SystemInstructions : Prop :=
  (∀ (f : SFields) (s : State),
    let d := s.dev
    let x := vctx d f.h []
    let p := x.pair f.a
    let ctx := d.curWarp.ctx
    let off := if f.sub.getLsbD 0 then none else some (ptrOff (ptrOf (lane p.1.vals 0) (lane p.2.vals 0)))
    d.cur.priv = true → s.selected f.h →
    (f.sub.getLsbD 0 = true ∨ x.ReadyUni [rangeBound x.regs f.a.reg.toNat 2] [Use.ptr p.1, Use.ptr p.2] []) →
    (∀ c ∈ d.ctxCols ctx, s.stale c ctx off = false) →
      ∃ u, exec (.tlbi f) s = .next u ∧ Issues s u ∧
        (∀ c ∈ d.ctxCols ctx, ∀ e ∈ (u.dev.col c).tlb, e.ctx = ctx → e.covers off = false) ∧
        ∀ c, c ∉ d.ctxCols ctx → (u.dev.col c).tlb = (d.col c).tlb) ∧
  (∀ (f : SFields) (s : State),
    let d := s.dev
    let x := vctx d f.h []
    let v := x.src 1 f.a
    let vd := (f.d.extractLsb' 0 8).toNat
    let slot := (lane v.vals 0).toNat % 2
    let ctx := d.curWarp.ctx
    let p := (d.ctx ctx).part
    let code : Word := if d.slotUsed p slot then 1 else if d.swapping p then 2 else 0
    d.cur.priv = true → s.selected f.h →
      (x.ReadyUni [rangeBound x.regs vd 1] [Use.ptr v] [] →
        ∃ u, exec (.ctxswSave f) s = .next u ∧ u.dev.issued = .retired ∧ u.vault = s.vault ∧ u.dev.curWarp.pc = s.nextPc ∧
          (∀ l, l < 32 → u.reg vd l = code) ∧ (∀ r, r ≠ vd → u.dev.curWarp.reg r = d.curWarp.reg r) ∧
          (code = 0 → (u.dev.part p).preempt = some { ctx := ctx, slot := slot, seq := none, htick := none, written := [] }) ∧
          (code ≠ 0 → u.dev.parts = d.parts)) ∧
      (x.ReadyUni [] [Use.ptr v] [] → (d.ctx ctx).state = .resident → d.ctxs.has ctx = true → d.cur.col ∈ (d.part p).columns →
        ∃ u, exec (.ctxswReset f) s = .next u ∧ u.dev.issued = .retired ∧ (u.dev.ctx ctx).state = .empty ∧
          (u.dev.col d.cur.col).warps = [] ∧ ∀ o ∈ (u.dev.col d.cur.col).ops, o.ctx ≠ ctx)) ∧
  (∀ (f : SFields) (s : State) (t : TlbEntry) (e : Dev),
    let d := s.dev
    let x := vctx d f.h []
    let v := x.src 1 f.a
    let val := lane v.vals 0
    let vd := (f.d.extractLsb' 0 8).toNat
    let c := val.toNat % 1024
    let pr := x.pair f.a
    let p := ptrOf (lane pr.1.vals 0) (lane pr.2.vals 0)
    let key := vkey d.cur.col (t.va (ptrOff p)) / 32
    d.cur.priv = true → s.selected f.h →
      (x.ReadyUni [] [Use.ptr v] [] → testCols val ≠ [] → (∀ c ∈ testCols val, d.inPart d.curWarp.ctx c = true) →
        ∃ u, exec (.testReq f) s = .next u ∧ Issues s u ∧
          (∀ c ∈ testCols val, (u.dev.col c).rehearseQ = some (if val.extractLsb' 16 2 = 0 then 3 else val.extractLsb' 16 2)) ∧
          ∀ c, c ∉ testCols val → (u.dev.col c).rehearseQ = (d.col c).rehearseQ) ∧
      (x.ReadyUni [rangeBound x.regs vd 2] [Use.ptr v] [] → d.inPart d.curWarp.ctx c = true →
        ∃ u, exec (.testRes f) s = .next u ∧ u.dev.issued = .retired ∧ OnlyWarp s u ∧ u.dev.curWarp.pc = s.nextPc ∧
          ∀ l, l < 32 → u.reg vd l = (d.col c).rehearsal.extractLsb' 0 32 ∧ u.reg (vd + 1) l = (d.col c).rehearsal.extractLsb' 32 32) ∧
      (x.ReadyUni [rangeBound x.regs f.a.reg.toNat 2] [Use.ptr pr.1, Use.ptr pr.2] [] → ownSel d.cur.col p = true →
        s.translate d.cur.col d.curWarp.ctx (ptrOff p) false d.cur.priv = (.ok t, e) →
        ∃ u, exec (.testInj f) s = .next u ∧ Issues s u ∧ u.dev.inject = (key, f.sub.getLsbD 2) :: d.inject.filter (fun y => y.1 != key)))

/-! ## The stagehand (R362-R384) -/

/-- R362, R365: each scalar instruction of the stagehand writes its value into H(D) and moves to the next instruction, and changes nothing else; h0
reads as 0, and a write to it is discarded. R365, R366: HBR branches where its condition holds, and HLOOP counts H(D) down and branches while it is
not 0; a displacement counts instructions from the branch. That a target is taken in the 13 bits of the PC is the model's choice. R365: each vector
instruction of the stagehand writes its value into the 16 lanes of Q(D), or QSUM's and QEXT's into H(D), rounded under RM = X[1:0] with saturation
where X[2] is set, and changes nothing else. The reciprocal square root is the model's function of log 9. -/
def Obligations.HandRegisters : Prop :=
  (∀ (f : HFields) (s : State),
    let h := s.hand
    let a := h.hreg f.s
    let b := h.hreg f.t
    let imm := f.imm.signExtend 64
    let n := ((b + imm).extractLsb' 0 6).toNat
    let puts (i : Instr) (v : BitVec 64) : Prop := exec i s = .next (s.putHand { h.setH f.d v with pc := h.pc + 1 })
    h.hreg 0 = 0 ∧ (∀ v, h.setH 0 v = h) ∧ (∀ r v, r ≠ 0 → (h.setH r v).hreg r = v ∧ ∀ q, q ≠ r → (h.setH r v).hreg q = h.hreg q) ∧
    puts (.hadd f) (a + b + imm) ∧ puts (.hsub f) (a - b) ∧ puts (.hmul f) (a * b) ∧
    (f.x = 0 → puts (.hlogic f) (a &&& b) ∧ puts (.hshift f) (a <<< n) ∧ puts (.hli f) imm) ∧
    (f.x = 1 → puts (.hlogic f) (a ||| b) ∧ puts (.hshift f) (a >>> n) ∧
      puts (.hli f) (BitVec.ofNat 64 (f.imm.toNat * 2 ^ 32 + (h.hreg f.d).toNat % 2 ^ 32))) ∧
    (f.x = 2 → puts (.hlogic f) (a ^^^ b) ∧ puts (.hshift f) (a.sshiftRight n)) ∧
    puts (.hclk f) (BitVec.ofNat 64 s.dev.now)) ∧
  (∀ (f : HFields) (s : State),
    let h := s.hand
    let a := h.hreg f.s
    let b := h.hreg f.t
    let target := (((h.pc : Int) + f.imm.toInt) % 8192).toNat
    let taken : Prop := (f.x = 0 ∧ a = b) ∨ (f.x = 1 ∧ a ≠ b) ∨ (f.x = 2 ∧ a.toInt < b.toInt) ∨ (f.x = 3 ∧ b.toInt ≤ a.toInt) ∨
      (f.x = 4 ∧ a.toNat < b.toNat) ∨ (f.x = 5 ∧ b.toNat ≤ a.toNat) ∨ f.x = 6
    let v := h.hreg f.d - 1
    (taken → exec (.hbr f) s = .next (s.putHand { h with pc := target })) ∧
    (f.x ≤ 6 → ¬ taken → exec (.hbr f) s = .next (s.putHand { h with pc := h.pc + 1 })) ∧
    (f.d ≠ 0 → v ≠ 0 → exec (.hloop f) s = .next (s.putHand { h.setH f.d v with pc := target })) ∧
    (f.d ≠ 0 → v = 0 → exec (.hloop f) s = .next (s.putHand { h.setH f.d v with pc := h.pc + 1 })) ∧
    (f.d = 0 → exec (.hloop f) s = .next (s.putHand { h with pc := h.pc + 1 }))) ∧
  (∀ (f : HFields) (s : State),
    let h := s.hand
    let rm := f.x.extractLsb' 0 2
    let av (i : Nat) : FVal := f32Val (qLane (h.qreg f.s) i)
    let bv (i : Nat) : FVal := f32Val (qLane (h.qreg f.t) i)
    let dv (i : Nat) : FVal := f32Val (qLane (h.qreg f.d) i)
    let hv := f32Val ((h.hreg f.t).extractLsb' 0 32)
    let lo := (h.hreg f.s).extractLsb' 0 32
    let round (v : FVal) : Word := BitVec.ofNat 32 (FloatFmt.fp32.round rm (f.x.getLsbD 2) v)
    let puts (i : Instr) (g : Nat → Word) : Prop :=
      ∃ q : Vector Word 16, (∀ l, l < 16 → qLane q l = g l) ∧ exec i s = .next (s.putHand { h.setQ f.d q with pc := h.pc + 1 })
    let putsH (i : Instr) (v : BitVec 64) : Prop := exec i s = .next (s.putHand { h.setH f.d v with pc := h.pc + 1 })
    puts (.qadd f) (fun i => round (FVal.add rm (av i) (bv i))) ∧
    puts (.qsub f) (fun i => round (FVal.add rm (av i) (bv i).negate)) ∧
    puts (.qmul f) (fun i => round (FVal.mul (av i) (bv i))) ∧
    puts (.qfma f) (fun i => round (FVal.add rm (FVal.mul (av i) (bv i)) (dv i))) ∧
    puts (.qmuls f) (fun i => round (FVal.mul (av i) hv)) ∧
    puts (.qminmax f) (fun i =>
      BitVec.ofNat 32 (minMaxCode Fmt.f32 (f.x == 1) false (qLane (h.qreg f.s) i).toNat (qLane (h.qreg f.t) i).toNat)) ∧
    puts (.qrsq f) (fun i => BitVec.ofNat 32 (sfuCode .rsq Fmt.f32 (qLane (h.qreg f.s) i).toNat)) ∧
    puts (.qbc f) (fun _ => lo) ∧
    putsH (.qsum f) (BitVec.ofNat 64 (fixedSum FVal.zero ((List.range 16).map av))) ∧
    (f.x = 0 → puts (.qinsQext f) (fun l => if l = f.imm.toNat % 16 then lo else qLane (h.qreg f.d) l)) ∧
    (f.x ≠ 0 → putsH (.qinsQext f) ((qLane (h.qreg f.s) (f.imm.toNat % 16)).setWidth 64)))

/-- R363, R365, R367, R368: the stagehand's accesses to its column. A translation changes nothing of the stagehand but the times of its banks and the
rows that are open. A load reads the vault's bytes; a store, and a write of an accumulator into its
row, change those bytes inside a claim and no other; an accumulation adds the row's words, each times a factor, in its bank's accumulator. A row
operation leaves its row open, and a load or a store of a claimed row leaves it closed. R363,
R365-R367, R369, R374, R383: a stagehand instruction that is misaligned, whose page may not be accessed, that writes outside a claim, or that names
an invalid claim or pointer is a stagehand fault of the detail that R449 gives. The model's choices here: that a write into a row of a bank without an
accumulator, while another bank has one, is the fault of detail 5 (log 71); the order of an instruction's checks (log 74); and that the bytes of a
write are in memory from the start of the instruction (log 117). -/
def Obligations.HandMemory : Prop :=
  (∀ (f : HFields) (s : State) (e : TlbEntry),
    let c := s.dev.cur.col
    let h := s.hand
    let off := h.addr f
    let n := if f.x = 0 then 64 else if f.x = 1 then 8 else 4
    let va := e.va off
    let base := off / 1024 * 1024
    let row := e.va base
    let bank := row / 1024 % 32
    let own := va / 1024 % 32
    let x := (h.hreg f.t).extractLsb' 0 32
    let shows (u : State) (g : Hand) : Prop := { u.hand with banks := g.banks } = g
    let same (u : State) (a n : Nat) : Prop := ∀ b, ¬ (vkey c a ≤ b ∧ b < vkey c a + n) → u.vault.byte b = s.vault.byte b
    let may (off : Nat) (w : Bool) : Prop := (s.handXlate c h.ctx off w).1 = some e
    let opened (g : Hand) (work : List Nat) : Hand := g.beginRow s.dev.now bank (row / 1024) work
    (∀ o w, (s.xlated o w).hand.Same h ∧ (s.xlated o w).vault = s.vault) ∧
    (off % n = 0 → may off false → ((s.xlated off false).handLine c va n e.zc).poisonedIn c va n = false →
      ∃ u, exec (.vld f) s = .next u ∧ u.vault = s.vault ∧
        shows u { h.loaded f (s.vault.bytes (vkey c va) n) with pc := h.pc + 1, openRow := u.hand.openRow } ∧
        (((s.xlated off false).dev.col c).claimed va = true → u.hand.openRow = (s.xlated off false).hand.openRow.del own)) ∧
    (s.Inv → off % n = 0 → may off true → h.holds va n = true →
      let g := (s.xlated off true).hand
      ∃ u, exec (.vst f) s = .next u ∧
        shows u { h with
          pc := h.pc + 1, writeTime := (g.ordinary s.dev.now own).banks.busy.getD own 0 + 4, openRow := g.openRow.del own } ∧
        same u va n ∧ u.vault.bytes (vkey c va) n = h.stored f) ∧
    (may base false → h.holds row 1024 = true →
      let t := s.xlated base false
      (∃ u, exec (.ropen f) s = .next u ∧ u.vault = s.vault ∧ u.hand = { opened t.hand [] with pc := h.pc + 1 }) ∧
      (∀ a, h.acc.get? bank = some a → ((t.putHand (opened t.hand [32])).dev.rowRead c row).poisonedIn c row 1024 = false →
        ∃ u, exec (.racc f) s = .next u ∧ u.vault = s.vault ∧
          ∃ v, u.hand = { opened t.hand [32] with acc := h.acc.set bank v, pc := h.pc + 1 } ∧
            ∀ i, (hi : i < 256) → v[i] = raccLane a[i] (BitVec.ofNat 32 (s.vault.num (vkey c (row + 4 * i)) 4)) x)) ∧
    (s.Inv → may base true → h.holds row 1024 = true → ∀ a, h.acc.get? bank = some a →
      let g := (s.xlated base true).hand
      ∃ u, exec (.rwr f) s = .next u ∧ same u row 1024 ∧
        (∀ i, (hi : i < 256) → u.vault.num (vkey c (row + 4 * i)) 4 = a[i].toNat) ∧
        shows u { opened g [32] with
          acc := if f.x = 1 then h.acc.set bank (Vector.replicate 256 0) else h.acc, pc := h.pc + 1,
          writeTime := (opened g [32]).banks.free + 4 }) ∧
    (may off false →
      let t := s.xlated off false
      exec (.rclr f) s = .next (t.putHand { t.hand with
        acc := h.acc.set (off / 1024 % 32) (Vector.replicate 256 0), pc := h.pc + 1 }))) ∧
  (∀ (f : HFields) (s : State),
    let c := s.dev.cur.col
    let h := s.hand
    let off := h.addr f
    let base := off / 1024 * 1024
    let n := if f.x = 0 then 64 else if f.x = 1 then 8 else 4
    let p := h.hreg f.s
    let fault (i : Instr) (t : State) (k : Nat) : Prop := exec i s = .next (t.handFault c k)
    let may (off : Nat) (w : Bool) : Option TlbEntry := (s.handXlate c h.ctx off w).1
    (off % n ≠ 0 → fault (.vld f) s 2 ∧ fault (.vst f) s 2) ∧
    (off % n = 0 → may off false = none → fault (.vld f) (s.xlated off false) 3) ∧
    (off % n = 0 → may off true = none → fault (.vst f) (s.xlated off true) 3) ∧
    (may off false = none → fault (.rclr f) (s.xlated off false) 3) ∧
    (∀ e, off % n = 0 → may off true = some e → h.holds (e.va off) n = false → fault (.vst f) (s.xlated off true) 4) ∧
    (may base false = none → fault (.ropen f) (s.xlated base false) 3 ∧ fault (.racc f) (s.xlated base false) 3) ∧
    (may base true = none → fault (.rwr f) (s.xlated base true) 3) ∧
    (∀ e, may base false = some e → h.holds (e.va base) 1024 = false →
      fault (.ropen f) (s.xlated base false) 4 ∧ fault (.racc f) (s.xlated base false) 4) ∧
    (∀ e, may base true = some e → h.holds (e.va base) 1024 = false → fault (.rwr f) (s.xlated base true) 4) ∧
    (∀ e, may base true = some e → h.holds (e.va base) 1024 = true → h.acc ≠ [] →
      h.acc.has (off / 1024 % 32) = false → fault (.rwr f) (s.xlated base true) 5) ∧
    (((h.hreg f.t).toNat = 0 ∨ 2 ^ 22 < (h.hreg f.t).toNat ∨ ∃ x ∈ h.claims, x.slot = f.x.toNat % 4) → fault (.claim f) s 6) ∧
    ((s.dev.partPtr h.ctx p = false ∨ ptrOff p % 8 ≠ 0) → fault (.signal f) s 7) ∧
    (s.dev.partPtr h.ctx p = true → ptrOff p % 8 = 0 → may (ptrOff p) true = none → fault (.signal f) (s.xlated (ptrOff p) true) 3) ∧
    ((s.dev.partPtr h.ctx p = false ∨ ptrOff p % 4 ≠ 0) → fault (.cuew f) s 7) ∧
    (s.dev.partPtr h.ctx p = true → ptrOff p % 4 = 0 → may (ptrOff p) false = none → fault (.cuew f) (s.xlated (ptrOff p) false) 3))

/-- R369, R371, R376, R384: a claim drops its lines from L2 and waits until it is complete; it ends at UNCLM. A wait on a cue ends at once where the
word that it reads at its slice has reached the cue, else its entry is registered; a wait on the atomic queue ends where the queue is empty. R349,
R365, R374: SIGNAL adds 1 to COUNT of the word that its pointer names, and changes no other byte; END ends the program, with its claims and, where it
names no completion word, at once, and leaves open the rows that are open (R368). The model's choice (log 117): a word that a row operation is
writing, whose read is freely the old or the new value, is left to that choice in the wait on a cue, and shut out from SIGNAL's clause.
-/
def Obligations.HandClaimsAndWaits : Prop :=
  (∀ (f : HFields) (s : State) (ps : List Claim) (e : TlbEntry),
    let c := s.dev.cur.col
    let h := s.hand
    let lo := (h.hreg f.s).toNat % 2 ^ 44
    let n := (h.hreg f.t).toNat
    let slot := f.x.toNat % 4
    let p := h.hreg f.s
    let tc := colOf c p
    let va := e.va (ptrOff p)
    let t := (h.hreg f.t).extractLsb' 0 32
    let read := (s.xlated (ptrOff p) false).sliceWord (cueLane tc (ptrOff p) e)
    let k := read.2.2.col tc
    let dl := if f.imm = 0 then none else some (s.dev.now + 256 * f.imm.toNat)
    (1 ≤ n → n ≤ 2 ^ 22 → (∀ x ∈ h.claims, x.slot ≠ slot) →
      (s.claimParts c h.ctx slot (lo / 1024 * 1024) ((lo + n + 1023) / 1024 * 1024)).1 = some ps →
      ∃ u, exec (.claim f) s = .next u ∧ u.vault = s.vault ∧ u.hand.Same { h with claims := h.claims ++ ps, wait := .claim } ∧
        ∀ x ∈ ps, ∀ a, x.off ≤ a → a < x.off + x.len → (u.dev.col c).l2Valid a = false) ∧
    (∃ u, exec (.unclm f) s = .next u ∧ u.vault = s.vault ∧ u.hand.pc = h.pc + 1 ∧ u.hand.h = h.h ∧ u.hand.q = h.q ∧
      u.hand.claims = h.claims.filter (fun x => x.slot != slot)) ∧
    (s.dev.partPtr h.ctx p = true → ptrOff p % 4 = 0 → (s.handXlate c h.ctx (ptrOff p) false).1 = some e →
      ((s.dev.col tc).hand.banks.olds = [] → read.1 = BitVec.ofNat 32 (s.vault.num (vkey tc va) 4)) ∧
      (cmpOk 6 read.1 t = true → ∃ u, exec (.cuew f) s = .next u ∧ u.vault = s.vault ∧
        u.hand.Same { h.setH f.d 0 with pc := h.pc + 1, wait := .none, halted := false }) ∧
      (cmpOk 6 read.1 t = false → ∃ u, exec (.cuew f) s = .next u ∧ u.vault = s.vault ∧
        u.hand.Same { h with wait := .cuew f.d tc (ptrOff p) t dl (if k.watchCount va < 64 then none else some s.dev.now) } ∧
        (k.watchCount va < 64 → (u.dev.col tc).watches =
          k.watches ++ [{ va := va, cmp := 6, value := t, who := .hand, wcol := c, ctx := h.ctx, fired := none }]))) ∧
    (h.atomq = [] → exec (.aqsvc f) s = .next (s.putHand { h with pc := h.pc + 1, wait := .none })) ∧
    (h.atomq ≠ [] → exec (.aqsvc f) s = .next (s.putHand { h with wait := .aqsvc }))) ∧
  (∀ (f : HFields) (s : State) (e : TlbEntry) (r : RunDesc),
    let c := s.dev.cur.col
    let h := s.hand
    let p := h.hreg f.s
    let tc := colOf c p
    let word := e.va (ptrOff p)
    let key := vkey tc word
    let upd := (s.xlated (ptrOff p) true).wordAt c tc h.ctx (ptrOff p) e none
    (s.Inv → s.dev.partPtr h.ctx p = true → ptrOff p % 8 = 0 → (s.handXlate c h.ctx (ptrOff p) true).1 = some e →
      (∀ i, i < 2 → (s.dev.col tc).hand.oldWords s.dev.now (word / 4 + i) = []) →
      ∃ u, exec (.signal f) s = .next u ∧ u.hand.Same { h with pc := h.pc + 1, writeTime := max h.writeTime upd.2 } ∧
      (∀ b, ¬ (key ≤ b ∧ b < key + 8) → u.vault.byte b = s.vault.byte b) ∧
      u.vault.num key 4 = (s.vault.num key 4 + 1) % 2 ^ 32 ∧ u.vault.num (key + 4) 4 = s.vault.num (key + 4) 4) ∧
    (h.running = some r → r.q[2] = 0 → ∃ v, exec (.end_ f) s = .next v ∧ v.vault = s.vault ∧ v.hand.running = none ∧ v.hand.claims = [] ∧
      v.hand.wait = .none ∧ v.hand.openRow = h.openRow ∧ v.hand.banks.run = none))

/-- R369, R374, R384: a program starts with its registers as its descriptor gives them; a claim completes once the leases on its lines are over; a
wait on a cue ends with 0 where the cue is reached, with 1 at its timeout, and with 2 after a halt tick. R376, R377, R379, R381: the head of the
atomic queue is performed on the word in the vault, under a claim, and counted for its warp; an ordinary request at a bank where the stagehand works
suspends it at the end of its phase, or of the phase that it keeps the bank for, the bank is precharged, and a window of 64 ticks at most opens; none
opens without a request, while one is open there, or while the stagehand keeps the bank. -/
def Obligations.HandEvents : Prop :=
  (∀ (c : Nat) (s : State) (r : RunDesc) (rest : List RunDesc) (ws : Table (BitVec 64)) (d : Dev),
    let k := s.dev.col c
    let h := k.hand
    let taken : State := { s with dev := s.dev.modCol c (fun k => { k with gated := false, hand := { k.hand with
      runq := k.hand.runq.drop 1, running := some r, wait := .none, pc := r.entry, acc := [], halted := false } }) }
    (h.runq = r :: rest → s.dev.handFree c r = true → r.pois = false → taken.dev.runOk r = true →
      taken.loadImage c r.ctx r.ilen r.img = (some (ws, false), d) →
      ∃ u, exec (.stagehandProgramStart c) s = .next u ∧ u.vault = s.vault ∧ (u.dev.col c).gated = false ∧
        let g := (u.dev.col c).hand
        g.running = some r ∧ g.pc = r.entry ∧ g.prog = ws ∧ g.ilen = r.ilen ∧ g.wait = .none ∧ g.runq = rest ∧ g.acc = [] ∧
        g.hreg 1 = r.q[3] ∧ g.hreg 2 = r.q[4] ∧ g.hreg 3 = r.q[5] ∧ (∀ i : BitVec 5, 4 ≤ i.toNat → g.hreg i = 0) ∧
        ∀ i l, qLane (g.qreg i) l = 0) ∧
    (h.wait = .claim → (∀ x ∈ h.claims, x.done = false → k.leasesOver s.dev.now x.off (x.off + x.len) = true) →
      ∃ u, exec (.claimComplete c) s = .next u ∧ u.vault = s.vault ∧
        (u.dev.col c).hand = { h with claims := h.claims.map (fun x => { x with done := true }), wait := .none, pc := h.pc + 1 }) ∧
    (∀ q tc off t dl poll, h.wait = .cuew q tc off t dl poll →
      let seen := (s.cueSeen c tc off t poll).1
      let ends (v : BitVec 64) : Prop := ∃ u, exec (.cuewWake c) s = .next u ∧ u.vault = s.vault ∧
        (u.dev.col c).hand.Same { h.setH q v with pc := h.pc + 1, wait := .none, halted := false }
      (seen = true → ends 0) ∧
      (seen = false → ∀ n, dl = some n → n ≤ s.dev.now → ends 1) ∧
      (seen = false → (∀ n, dl = some n → s.dev.now < n) → h.halted = true → ends 2))) ∧
  (∀ (c bank : Nat) (s : State) (e : NmEntry) (rest : List NmEntry) (v : Word),
    let k := (s.dev.resumeHand c).col c
    let h := (s.dev.col c).hand
    let key := vkey c e.va
    let old := BitVec.ofNat 32 (s.vault.num key 4)
    (s.Inv → k.hand.atomq = e :: rest → k.hand.serves s.dev.now = true → k.claimed e.va = true → e.new old = some v → e.orph = false →
      ∃ u, exec (.atomicQueueServe c) s = .next u ∧ (u.dev.col c).hand.atomq = rest ∧ BitVec.ofNat 32 (u.vault.num key 4) = v ∧
        (∀ b, b < key ∨ key + 4 ≤ b → u.vault.byte b = s.vault.byte b) ∧
        (u.dev.warp c e.slot).nmPending = (s.dev.warp c e.slot).nmPending - 1 ∧
        (u.dev.warp c e.slot).nmTime = max (s.dev.warp c e.slot).nmTime (s.dev.now + 4)) ∧
    (∀ r n, s.dev.bankWanted c bank = true → h.banks.run = some r → r.bank = bank → s.dev.now < r.over →
      h.banks.windows.get? bank = none → h.banks.kept.get? bank ≠ some none →
      (r.ends.filter (fun t => decide (s.dev.now < t))).find? (fun t => decide (((h.banks.kept.get? bank).bind id).getD 0 ≤ t)) = some n →
      ∃ u, exec (.bankWindow c bank) s = .next u ∧ u.vault = s.vault ∧
        let g := (u.dev.col c).hand
        g.openRow = h.openRow.del bank ∧ g.banks.windows.get? bank = some (n + 8 + 64) ∧
        g.banks.run.map RowRun.ends = some ((r.ends.filter (fun t => decide (s.dev.now < t))).filter (fun t => decide (t ≤ n)))) ∧
    ((s.dev.bankWanted c bank = false ∨ h.banks.holds s.dev.now bank = false ∨ (h.banks.windows.get? bank).isSome = true ∨
        h.banks.kept.get? bank = some none) →
      ∃ u, exec (.bankWindow c bank) s = .next u ∧ u.vault = s.vault ∧ (u.dev.col c).hand = h))

/-! ## Rings, launches, copies, graphs and faults -/

/-- R77-R79, R390: the host's next entry in order is accepted, and one out of order stops the ring; completions held back are written where there is
room; a command of an unassigned OPC, or with a nonzero reserved byte, completes with STATUS 2; MARK completes once every earlier command has. The model's
choice (log 57): MARK acts on no context, and does not check the one that it names. -/
def Obligations.RingsAcceptAndComplete : Prop :=
  ∀ (r : RingId) (s : State) (e : CmdEntry) (t : Dev) (head p : Nat) (c : Completion),
    let b := s.dev.ring r
    let tail := (b.cmdHead + 1) % 4096
    (s.dev.ringOpen r = true → b.cmdHead < 4096 → b.cmdTail = b.cmdHead →
      ∃ u, exec (.cmdTailDoorbell r [e] tail) s = .next u ∧ u.vault = s.vault ∧ (u.dev.ring r).cmdTail = tail ∧
        (e.seq = b.seqRx + 1 → (u.dev.ring r).accepted = b.accepted ++ [e] ∧ (u.dev.ring r).seqRx = e.seq ∧
          (u.dev.ring r).cmdHead = tail ∧ (u.dev.ring r).stopped = false) ∧
        (e.seq ≠ b.seqRx + 1 → (u.dev.ring r).accepted = b.accepted ∧ (u.dev.ring r).cmdHead = b.cmdHead ∧
          (u.dev.ring r).stopped = true)) ∧
    (b.heldCpl = [] → exec (.cplHeadAdvance r head) s = .next { s with dev := s.dev.putRing r { b with cplHead := head % 4096 } }) ∧
    (b.heldCpl = [c] → (b.cplTail + 1) % 4096 ≠ head % 4096 → exec (.cplHeadAdvance r head) s = .next { s with dev := s.dev.putRing r { b with
      cplHead := head % 4096, heldCpl := [], cplTail := (b.cplTail + 1) % 4096, cseqTx := b.cseqTx + 1,
      cpls := b.cpls.set (b.cplTail % 4096) { c with cseq := b.cseqTx + 1 } } }) ∧
    (s.dev.takes r e t → opcAssigned r e.opc.toNat = false →
      exec (.unassignedOpc r) s = .next { s with dev := t.complete r e.seq 2 }) ∧
    (let a := s.dev.accept (.part p) (s.dev.ring (.part p)).stopped;
      (a.ring (.part p)).accepted.head? = some e → e.rsvd ≠ 0 →
      ∀ x ∈ [(2, Instr.graph p), (5, .reset p), (6, .mark p), (7, .drop p)], e.opc.toNat = x.1 →
        exec x.2 s = .next { s with dev := (a.putRing (.part p) ((a.ring (.part p)).begin e)).complete (.part p) e.seq 2 }) ∧
    (s.dev.takes (.part p) e t → e.opc = 6 →
      let b := t.ring (.part p)
      let others := (b.begun.map (fun x => x.seq)).filter (fun x => x != e.seq)
      ∃ u, exec (.mark p) s = .next u ∧ u.vault = s.vault ∧
        (others = [] → b.marks = [] → u.dev.ring (.part p) = ({ b with
          begun := b.begun.filter (fun x => x.seq != e.seq) } : RingBlock).pushCpl (cplOf t e.seq 6 e.ctx.toNat 0)) ∧
        (others ≠ [] → (∀ m ∈ b.marks, m.2 ≠ []) → u.dev.ring (.part p) = { b with marks := b.marks ++ [(e, others)] }))

/-- R62, R78, R79, R88, R93, R358, R452: the commands of a partition's ring that name a context of the partition. LAUNCH reads its record and queues
the launch, or completes with STATUS 1 where the record is rejected; GRAPH asks for a replay, which begins, waits, or completes with its STATUS;
PREEMPT begins the save of a resident context into a free slot, else completes with STATUS 3 or 4; RESUME restores a saved context's warps from its
image and frees the slot; RESET and DROP empty the context. The model's choices: LAUNCH with ARG0 from 2^44 on is an argument out of its range, STATUS 2
(log 57); DROP discards the launches that had started (log 79); and PREEMPT and RESUME wait for holds and for one another, and check the state when
they run (log 83). -/
def Obligations.PartitionCommands : Prop :=
  ∀ (p : Nat) (s : State) (e : CmdEntry) (t : Dev),
    let ctx := e.ctx.toNat
    let slot := e.arg0.toNat % 2
    let base : State := { s with dev := t }
    let x := t.part p
    s.dev.takes (.part p) e t → t.ctxIn ctx p = true →
    let only (v : State) : Prop := ∀ b, (∀ c ∈ x.columns, ¬ (slotKey c slot ≤ b ∧ b < slotKey c slot + 8)) → v.vault.byte b = s.vault.byte b
    (∀ l d, e.opc = 1 → (s.dev.ring (.part p)).waiting = [] → e.arg0.toNat < 2 ^ 44 →
      base.readLaunch x.first ctx p e.arg0.toNat = (.taken l, d) →
      ∃ u, exec (.launch p) s = .next u ∧ u.vault = s.vault ∧ u.dev.launches.get? d.nextLaunch = some {
          id := d.nextLaunch, ctx := ctx, part := p, rec_ := l, origin := .ring p e.seq, placed := 0, cols := [], ended := [] } ∧
        (u.dev.part p).queues.getD l.prio [] = (d.part p).queues.getD l.prio [] ++ [d.nextLaunch]) ∧
    (∀ d, e.opc = 1 → (s.dev.ring (.part p)).waiting = [] → e.arg0.toNat < 2 ^ 44 →
      base.readLaunch x.first ctx p e.arg0.toNat = (.rejected, d) →
      exec (.launch p) s = .next { s with dev := d.complete (.part p) e.seq 1 }) ∧
    (e.opc = 1 → (s.dev.ring (.part p)).waiting = [] → 2 ^ 44 ≤ e.arg0.toNat →
      exec (.launch p) s = .next { s with dev := t.complete (.part p) e.seq 2 }) ∧
    (e.opc = 2 → t.partPtr ctx e.arg0 = true → e.arg1.toNat % 64 = 0 →
      let asked := t.askReplay ctx (colOf x.first e.arg0) (ptrOff e.arg0) (some (ptrOff e.arg1)) (.ring p e.seq)
      let tried := { s with dev := asked.2 }.tryReplay asked.1
      (∀ k, tried.1 = .begun k → exec (.graph p) s = .next tried.2) ∧
      (tried.1 = .busy ∨ tried.1 = .held → exec (.graph p) s = .next tried.2) ∧
      ∀ st, tried.1 = .bad st → exec (.graph p) s = .next { tried.2 with dev := tried.2.dev.complete (.part p) e.seq st }) ∧
    (e.opc = 3 → s.dev.waitingSwap p 3 = none → t.waitingSwap p 4 = none → x.stopping = false → x.preempt = none →
      ((t.ctx ctx).state = .resident → t.slotUsed p slot = false → exec (.preempt p) s = .next { s with dev := { t with
        parts := t.parts.set p { x with preempt := some { ctx := ctx, slot := slot, seq := some e.seq, htick := none, written := [] } } } }) ∧
      ((t.ctx ctx).state = .resident → t.slotUsed p slot = true →
        exec (.preempt p) s = .next { s with dev := t.complete (.part p) e.seq 4 }) ∧
      ((t.ctx ctx).state ≠ .resident → exec (.preempt p) s = .next { s with dev := t.complete (.part p) e.seq 3 })) ∧
    (e.opc = 4 → s.dev.waitingSwap p 4 = none → x.stopping = false → (t.ctx ctx).state = .saved slot → t.residentOf p = none →
      t.imagePoisoned p slot = false →
      ∃ v : State, exec (.resume p) s = .next { v with dev := v.dev.complete (.part p) e.seq 0 } ∧ (v.dev.ctx ctx).state = .resident ∧
        (s.Inv → only v) ∧ ∀ c ∈ x.columns, ∀ i, t.images.get? (imageKey c slot) = some i →
          (v.dev.col c).warps = i.warps.mapVals (fun _ w => w.restored t.now)) ∧
    (e.opc = 5 → ∃ v : State, exec (.reset p) s = .next { v with dev := v.dev.complete (.part p) e.seq 0 } ∧ (v.dev.ctx ctx).state = .empty ∧
        (∀ l ∈ v.dev.launches, l.2.ctx ≠ ctx) ∧ ((t.ctx ctx).state = .resident → ∀ c ∈ x.columns, (v.dev.col c).warps = [])) ∧
    (e.opc = 7 → (t.ctx ctx).state = .saved slot →
      ∃ v : State, exec (.drop p) s = .next { v with dev := v.dev.complete (.part p) e.seq 0 } ∧ (s.Inv → only v) ∧
        (v.dev.ctx ctx).state = .empty ∧ ∀ l ∈ v.dev.launches, ¬ (l.2.ctx = ctx ∧ 0 < l.2.placed))

/-- R75, R390, R396: the administrative commands: a partition is created or removed, the fixed-summation right is given, and a report is written to
the host. The model's choices (log 86): ATTEST reads its nonce over the fabric's own address map, and whether its report reaches the host is free. -/
def Obligations.AdministrativeCommands : Prop :=
  ∀ (s : State) (e : CmdEntry) (t : Dev),
    let a := e.arg0.toNat
    let p := a / 256 % 256
    let done (d : Dev) (status : Nat) : State := { s with dev := d.complete .admin e.seq status }
    s.dev.takes .admin e t →
    (e.opc = 0x10 → t.pcreateStatus e = 0 → t.power ≠ .p3 →
      let dom := a / 256 % 16
      exec .pcreate s = .next (done { t with parts := t.parts.set (a % 256) {
        dom := dom, first := a / 65536 % 1024 / domSize dom * domSize dom, held := false, holdWanted := false, lost := false, preempt := none,
        queues := [], rseq := 0 } } 0)) ∧
    (e.opc = 0x10 → t.pcreateStatus e ≠ 0 → exec .pcreate s = .next (done t (t.pcreateStatus e))) ∧
    (e.opc = 0x11 → t.parts.has (a % 256) = true → t.ctxsOf (a % 256) = [] →
      exec .premove s = .next (done { t.unhold (a % 256) with parts := (t.unhold (a % 256)).parts.del (a % 256) } 0)) ∧
    (e.opc = 0x11 → (t.parts.has (a % 256) = false ∨ t.ctxsOf (a % 256) ≠ []) → exec .premove s = .next (done t 3)) ∧
    (e.opc = 0x12 → t.parts.has p = true → t.ctxIn e.ctx.toNat p = true →
      exec .grant s = .next (done { t with ctxs := t.ctxs.set e.ctx.toNat { t.ctx e.ctx.toNat with fixRight := e.arg0.getLsbD 0 } } 0)) ∧
    (e.opc = 0x12 → (t.parts.has p = false ∨ t.ctxIn e.ctx.toNat p = false) → exec .grant s = .next (done t 3)) ∧
    (∀ nonce d, e.opc = 0x13 → { s with dev := t }.fabricRead a 32 = (some nonce, d) →
      let body := d.choose.2.report_ nonce
      exec .attest s = .next (if d.choose.1 && d.choose.2.linked then done (d.choose.2.send (.hostWrite e.arg1.toNat
        (body ++ (List.range 3309).map (Config.signatureByte keySeed body) ++ Config.certificate)) 1) 0 else done d.choose.2 8)) ∧
    (∀ d, e.opc = 0x13 → { s with dev := t }.fabricRead a 32 = (none, d) → exec .attest s = .next (done d 8))

/-- R70, R72, R81, R82: a placement group starts on one of the free instances, its gang on the column that the layout gives it; a launch ends on a
column once all its groups are placed and nothing of it is left there, and as a whole with its last column; a tracker entry frees once its times have passed. -/
def Obligations.LaunchesStartAndEnd : Prop :=
  ∀ (s : State) (p id c off : Nat) (l : Launch) (below : List Nat) (t : Tracker),
    let d := s.dev
    let r := l.rec_
    let ended := d.modCol c (fun k => k.kernelEnd l.ctx id)
    let l2 : Launch := { l with ended := l.ended ++ [c] }
    let last := decide (r.groups ≤ l2.placed) && l2.cols.all (fun x => l2.ended.contains x)
    let now : Dev := { ended with launches := ended.launches.set id l2 }
    ((d.part p).held = false → (d.part p).holdWanted = false → (d.part p).halting = false → (d.part p).lost = false →
      (d.residentOf p).isSome = true → (d.part p).heads.find? (fun i => d.launchState i == .resident) = some id →
      d.launches.get? id = some l → l.id = id → d.instances (d.part p) r ≠ [] → r.layout = [(below, off)] → 1 ≤ r.gangs →
      (∀ c0 ∈ d.instances (d.part p) r, (d.col (c0 + off)).warps = [] ∨ (d.col (c0 + off)).freeGangs ≠ []) →
      ∃ c0 ∈ d.instances (d.part p) r, ∃ u, exec (.placementGroupStart p) s = .next u ∧ u.vault = s.vault ∧
        (u.dev.launches.get? id).map (fun x => x.placed) = some (l.placed + 1) ∧
        ∃ g ∈ (u.dev.col (c0 + off)).gangs, g.launch = id ∧ g.ctx = l.ctx ∧ g.group = l.placed ∧ g.coords = r.gangCoords l.placed below) ∧
    (d.launches.get? id = some l → d.launchState id = .resident → r.groups ≤ l.placed → c ∈ l.cols → c ∉ l.ended →
      (d.col c).launchIdle id = true →
      exec (.launchEndOnColumn c id) s = .next { s with dev := if last then now.launchOver l2 else now }) ∧
    (d.launches.get? id = some l → ((d.col c).launchIdle id = false ∨ l.placed < r.groups) → exec (.launchEndOnColumn c id) s = .next s) ∧
    ((d.col c).tracker.find? (fun x => x.id == t.id) = some t → (d.col c).entryBusy t.id = false → (∀ x ∈ t.times.toList, x ≤ d.now) →
      exec (.retirementTrackerFree c t.id) s = .next { s with dev := d.modCol c (fun k => { k with
        tracker := k.tracker.filter (fun x => x.id != t.id) }) }) ∧
    ((d.col c).tracker.find? (fun x => x.id == t.id) = some t → (∃ x ∈ t.times.toList, d.now < x) →
      exec (.retirementTrackerFree c t.id) s = .next s)

/-- R345, R347, R349: a queued copy starts where fewer than sixteen run; a running one moves its next piece, at most to its next boundary of 4 KiB:
linear bytes sector by sector, those that lie within one sector at once (the model's choice, log 54), and a tensor's elements one by one, each the
bits of its source element put into its destination's; it waits for its completion, which, by a barrier arrival or at its completion time, takes it
from the engine, and CPYS falls. R355, R357, R358: a waiting replay begins in a free slot; a node starts by its kind once its count is 0: an empty
node at once, a launch by joining its queue, a copy or a stagehand program by entering the queue of its executing column, a cue addition and a signal
by their update of the word, a wait on a cue at once where it is reached, else by its watch entry; one whose body breaks its kind's rules fails. A
node finishes once its effect is complete, its successors' counts falling; a cue-wait node whose table was full reads its cue every 256 ticks. -/
def Obligations.CopiesAndGraphsRun : Prop :=
  (∀ (s u : State) (c id n v : Nat) (x : CopyCmd) (bs : List (Byte × Bool)) (d e : Dev),
    let k := s.dev.col c
    let a := ptrOff x.desc.src
    let b := ptrOff x.desc.dst
    k.copy? id = some x → k.halted = false → x.held = none → s.untried c (.copy id) →
    (x.stage = 0 → (k.copies.filter (fun y => y.stage != 0)).length < 16 →
      exec (.copyStart c id) s = .next { s with dev := s.dev.modCol c (fun k => k.setCopy { x with stage := 1 }) }) ∧
    (x.stage = 1 → x.desc.form = 0 → x.srec = none → x.drec = none → x.desc.oneSpace c = false → x.pos = 0 → x.late = false →
      x.desc.len.toNat = n → 1 ≤ n → a % 32 + n ≤ 32 → b % 32 + n ≤ 32 → s.copyRead c x a n = (.ok bs, d) →
      { s with dev := d }.copyWrite c x n b bs = (.ok v, u) →
      exec (.copyStart c id) s = .next { u with dev := u.dev.modCol c (fun k => k.setCopy { x.taint b bs with
        pos := n, time := max x.time v, stage := 2 }) }) ∧
    (x.stage = 1 → x.desc.form = 0 →
      let r := s.linearMove c (min x.desc.len.toNat ((x.pos / 4096 + 1) * 4096)) 4096 x
      exec (.copyStart c id) s = .next (r.1.afterPiece c r.2.1 r.2.2)) ∧
    (∀ p q, x.stage = 1 → x.desc.form ≠ 0 → x.srec = some p → x.drec = some q →
      let r := s.tensorMove c (min (boxSize (copyBox x.desc p q)) x.boundary) p q (copyBox x.desc p q) 8193 x
      exec (.copyStart c id) s = .next (r.1.afterPiece c r.2.1 r.2.2)) ∧
    (x.stage = 2 → x.desc.ck = 0 → s.finishWord c x.ctx x.desc.cw (if x.err = 0 then none else some x.err) = (.ok (u, v), e) →
      exec (.copyComplete c id) s = .next { u with dev := u.dev.modCol c (fun k => k.setCopy { x with stage := 3, time := max x.time v }) }) ∧
    (x.stage = 2 → x.desc.ck ≠ 0 →
      exec (.copyComplete c id) s = .next { s with dev := s.dev.modCol c (fun k => k.setCopy { x with stage := 3 }) }) ∧
    (x.stage = 3 → x.time ≤ s.dev.now → ∀ y, x.owner = .warp c y none → (s.dev.warp c y).stopped = false →
      ∃ w, exec (.copyComplete c id) s = .next w ∧ w.vault = s.vault ∧ (w.dev.warp c y).copies = (s.dev.warp c y).copies - 1 ∧
        (w.dev.col c).copies = k.copies.filter (fun z => z.id != x.id)) ∧
    (x.stage = 3 → s.dev.now < x.time → exec (.copyComplete c id) s = .next s)) ∧
  (∀ (s u : State) (c lim fuel v : Nat) (x y : CopyCmd) (p q : TRec) (box : List Nat) (bs old : List (Byte × Bool)) (d e : Dev),
    let a := ptrOff x.desc.src + x.pos
    let b := ptrOff x.desc.dst + x.pos
    let m := min (lim - x.pos) (min (32 - a % 32) (32 - b % 32))
    let ij := copyIndex x.desc box x.pos
    let w := memBits p.fmt
    let sb := p.bitFrom (ptrOff x.desc.src) ij.1
    let db := q.bitFrom (ptrOff x.desc.dst) ij.2
    let code := numOf (bs.map Prod.fst) / 2 ^ (sb % 8) % 2 ^ w
    let new := old.zipIdx.map (fun z => (mergeByte z.1.1 code (db % 8) w z.2, bs.any Prod.snd || z.1.2))
    (lim ≤ x.pos → s.linearMove c lim fuel x = (s, x, none) ∧ s.tensorMove c lim p q box fuel x = (s, x, none)) ∧
    (x.pos < lim → x.desc.oneSpace c = false →
      (s.copyRead c x a m = (.ok bs, d) → { s with dev := d }.copyWrite c x (x.pos + m) b bs = (.ok v, u) →
        s.linearMove c lim (fuel + 1) x = u.linearMove c lim fuel { x.taint b bs with pos := x.pos + m, time := max x.time v }) ∧
      (x.rest = [] → q.rule 0 = none → s.copyReads c x (sb / 8) ((sb % 8 + w + 7) / 8) = (.ok bs, d) →
        { s with dev := d }.oldBytes c x (db % 8) w (db / 8) (List.range ((db % 8 + w + 7) / 8)) = (.ok old, e) →
        { s with dev := e }.copyWrites c x (db / 8) new = (u, y, none) →
        s.tensorMove c lim p q box (fuel + 1) x = u.tensorMove c lim p q box fuel { y with pos := y.pos + 1 }))) ∧
  (∀ (s v : State) (die r j : Nat) (x : Replay) (n : GNode) (qs : List (BitVec 64)) (a : LaneAcc) (d e : Dev),
    let q (i : Nat) : BitVec 64 := qs.getD i 0
    let p := homePtr x.home (q 0)
    let me : Owner := .node (dieOf x.home) r j
    let t : State := { s with dev := d }
    (∀ k, (s.dev.waitingReplays die).find? (fun y => (s.dev.slotFor y).isSome) = some x → s.untried x.home (.replay x.id) →
      s.tryReplay x = (.begun k, v) →
      exec (.graphReplayStart die) s = .next { v with dev := v.dev.replayTold x (.begun k) }) ∧
    ((s.dev.waitingReplays die).find? (fun y => (s.dev.slotFor y).isSome) = none → exec (.graphReplayStart die) s = .next s) ∧
    (s.dev.replays.get? r = some x → x.id = r → x.node? j = some n → dieOf x.home = die → s.untried (n.hcol.getD x.home) (.node r j) →
      (s.dev.nodeMay x j n = true → s.nodeBody x n = (.ok qs, d) →
        let starts (u : State) : Prop := exec (.graphNodeStart die r j) s = .next u
        let bad : Prop := starts { s with dev := d.nodeBad x j 4 } ∧ (d.replays.get? r = some x →
          ∃ y, (d.nodeBad x j 4).replays.get? r = some y ∧ y.failed = some 7 ∧ ∃ m, y.node? j = some m ∧ m.started = true ∧ m.ready = some d.now)
        let on (sel : BitVec 11) : Nat := if sel = 0x7FF then x.home else sel.toNat
        let own (n : Nat) : Prop := d.partPtr x.ctx p = true ∧ ptrOff p % n = 0
        let adds (m w : Nat) : Prop := ∃ u, starts u ∧ (∃ tick, u.dev.replays.get? r = (d.runsNode r j (some tick)).replays.get? r) ∧
          (∀ b, ¬ (vkey a.tcol a.va ≤ b ∧ b < vkey a.tcol a.va + m) → u.vault.byte b = s.vault.byte b) ∧
          u.vault.num (vkey a.tcol a.va) 4 = (s.vault.num (vkey a.tcol a.va) 4 + w) % 2 ^ 32 ∧
          (m = 8 → u.vault.num (vkey a.tcol a.va + 4) 4 = s.vault.num (vkey a.tcol a.va + 4) 4)
        (n.kind = 0 → (∀ i, i < 6 → q i = 0) → starts { s with dev := d.runsNode r j (some d.now) }) ∧
        (n.kind = 0 → (∃ i, i < 6 ∧ q i ≠ 0) → bad) ∧
        (n.kind = 1 → d.partPtr x.ctx p = false → bad) ∧
        (∀ l, n.kind = 1 → d.partPtr x.ctx p = true → t.readLaunch (ptrSel p) x.ctx x.part (ptrOff p) = (.taken l, e) →
          starts { s with dev := (e.runsNode r j none).queueLaunch x.ctx x.part l (.node (dieOf x.home) r j) }) ∧
        (n.kind = 2 →
          let c := on ((q 4).extractLsb' 0 11)
          let desc := nodeDesc x.home q
          let cmd (d : Dev) (recs : Option (TRec × TRec)) : Dev := (d.runsNode r j none).modCol c (fun k => { k with
            gated := false, nextOp := k.nextOp + 1, copies := k.copies ++ [{
              id := k.nextOp, owner := me, ctx := x.ctx, gang := 0, launch := 0, priv := false, desc := desc, srec := recs.map Prod.fst,
              drec := recs.map Prod.snd, stage := 0, pos := 0, time := 0, err := 0, late := false, held := none }] })
          let base := (d.ctx x.ctx).objBase
          let last := (d.ctx x.ctx).objLast
          let rec_ (d : Dev) (i : Nat) : Except (Flt × Nat) (Option TRec) × Dev :=
            { s with dev := d }.tensorAt c x.ctx base last i
          (d.inPart x.ctx c = false ∨ d.nodeCopyOk x.ctx desc = false → bad) ∧
          (d.inPart x.ctx c = true → d.nodeCopyOk x.ctx desc = true →
            (desc.form = 0 → starts { s with dev := cmd d none }) ∧
            (desc.form ≠ 0 → (desc.sobj = 0 ∨ desc.dobj = 0) → bad) ∧
            (∀ f g, desc.form ≠ 0 → desc.sobj ≠ 0 → desc.dobj ≠ 0 → rec_ d desc.sobj = (.ok (some f), e) → (rec_ e desc.dobj).1 = .ok (some g) →
              copyRecords c desc f g = true → starts { s with dev := cmd (rec_ e desc.dobj).2 (some (f, g)) }))) ∧
        (n.kind = 3 →
          let c := on ((q 1).extractLsb' 16 11)
          (d.inPart x.ctx c = false → bad) ∧
          (d.inPart x.ctx c = true → 8 ≤ (d.col c).hand.runq.length → starts { s with dev := d }) ∧
          (d.inPart x.ctx c = true → (d.col c).hand.runq.length < 8 →
            ∃ g : RunDesc, starts { s with dev := (d.runsNode r j none).modCol c (fun k => { k with
                gated := false, hand := { k.hand with runq := k.hand.runq ++ [g] } }) } ∧
              g.owner = me ∧ g.ctx = x.ctx ∧ g.pois = false ∧ g.q[0] = q 0 ∧ g.q[1] = q 1 ||| 0x7FF0000 ∧
              g.q[2] = (if q 2 = 0 then 0 else homePtr x.home (q 2)) ∧ g.q[3] = q 3 ∧ g.q[4] = q 4 ∧ g.q[5] = q 5)) ∧
        (n.kind = 4 → ¬ own 4 → bad) ∧
        (n.kind = 4 → own 4 → t.cueAt x p true = (.ok a, e) → s.Inv → (s.dev.col a.tcol).hand.banks.olds = [] →
          adds 4 ((q 1).toNat % 2 ^ 32)) ∧
        (n.kind = 5 → ¬ own 4 → bad) ∧
        (n.kind = 5 → own 4 → t.cueAt x p false = (.ok a, e) →
          let v := (q 1).extractLsb' 0 32
          let read := { s with dev := e }.cueReached a v
          let told := read.2.modNode r j (fun n => { n with cue := some (p, v) })
          (read.1 = true → starts { s with dev := told.runsNode r j (some told.now) }) ∧
          (read.1 = false → (told.col a.tcol).watchCount a.va < 64 →
            starts { s with dev := (told.runsNode r j none).modCol a.tcol (fun k => { k with watches := k.watches ++ [{
              va := a.va, cmp := 6, value := v, who := .node (dieOf x.home) r j, wcol := x.home, ctx := x.ctx, fired := none }] }) }) ∧
          (read.1 = false → 64 ≤ (told.col a.tcol).watchCount a.va →
            starts { s with dev := (told.runsNode r j none).modNode r j (fun n => { n with poll := some told.now }) })) ∧
        (n.kind = 6 → ¬ own 8 → bad) ∧
        (n.kind = 6 → own 8 → ∀ y, t.translate x.home x.ctx (ptrOff p) true false = (.ok y, e) → a.tcol = colOf x.home p → a.va = y.va (ptrOff p) →
          s.Inv → (s.dev.col a.tcol).hand.banks.olds = [] → adds 8 1)) ∧
      (x.slot ≠ none → x.held = none → s.dev.nodeDone r j n = true → (x.finish j n).over = false →
        exec (.graphNodeFinish die r j) s = .next { s with dev := { s.dev.dropNodeWatch r j with
          replays := (s.dev.dropNodeWatch r j).replays.set r (x.finish j n) } }) ∧
      (∀ t p v, n.poll = some t → n.held = none → n.ready = none → n.cue = some (p, v) → t + 256 ≤ s.dev.now →
        s.cueAt x p false = (.ok a, e) →
        let read := { s with dev := e }.cueReached a v
        exec (.cueWaitPoll die r j) s = .next { s with dev := read.2.modNode r j (fun n => { n with
          ready := (if read.1 then some read.2.now else none), poll := (if read.1 then none else some read.2.now) }) })))

/-- R38, R101, R425-R428, R430, R432: a walk ends in a cached translation or at the fault filter; a line arrives or holds its warp; a fault reaches
the stage of its column's wing and from there the lead's, which after 64 ticks sends its record, with the waiters of that tick, to the stage manager;
a retry closes the granule's filter entry, or keeps it open until the held accesses have run again, and a refusal of a held instruction resets its
context. R400, R405, R434, R435: a deferred trap is taken where its warp was ready at the last opportunity and its next line is unprivileged; a page
that begins to migrate loses its translations on every column of the partition, and it moves to its frame once nothing of step 2 is left. The model's
choices here: that a stage keeps one entry for a granule and kind (log 90); the two migration events, the frame outside the vaults by which a page
leaves the device for MIG = 10, and its way back by the same steps (log 96); and the entry kept open with those that are to run again (log 119). -/
def Obligations.FaultsReachAndReturn : Prop :=
  (∀ (s : State) (c ctx off gran p y : Nat) (write priv : Bool) (f : FilterEntry) (w : WingEntry) (r : FaultRecord),
    let d := s.dev
    let k := d.col c
    let lead := wingOf (d.part p).first
    let n := d.waiters c ctx gran
    let own := wingOf c
    let isFor (z : WingEntry) (kind : Nat) : Bool := z.part == p && z.ctx == ctx && z.gran == gran && z.kind == kind
    let at_ (wing kind : Nat) (z : Nat × WingEntry) : Bool := z.1 == wing && isFor z.2 kind
    let fresh : WingEntry := { part := p, ctx := ctx, gran := gran, kind := f.kind, level := f.level, acc := f.acc, waiters := n, fcol := c,
                               tick := f.tick, arrived := d.now, rseq := none }
    let mark (z : Nat × WingEntry) : Nat × WingEntry := if z.1 = own ∧ isFor z.2 w.kind then (z.1, { z.2 with fwd := true }) else z
    let held := (d.held_ c r.ctx r.gran ++ f.rerun).eraseDups
    let due (z : Nat × WingEntry) : Bool :=
      z.1 == lead && z.2.part == p && z.2.ctx == ctx && z.2.gran == gran && z.2.rseq.isNone && decide (z.2.arrived + 64 ≤ d.now)
    let line := s.fetchLine c (d.warp c y).ctx (pcLine (d.warp c y).pc)
    (∀ e t, d.inPart ctx c = true → s.translate c ctx (off % 2 ^ 44) write priv = (.ok e, t) →
      exec (.tableWalkComplete c ctx off write priv) s = .next { s with dev := t } ∧
        (s.olderXlates c ctx (off % 2 ^ 44) = [] → e ∈ (t.col c).cached ctx (granOf (off % 2 ^ 44)))) ∧
    (∀ e t, d.inPart ctx c = true → s.translate c ctx (off % 2 ^ 44) write priv = (.error e, t) →
      exec (.tableWalkComplete c ctx off write priv) s = .next
        { s with dev := t.report c ctx (granOf (off % 2 ^ 44)) e (if write then .store else .load) }) ∧
    (k.warps.has y = true → pcInRange (d.warp c y).pc = true → k.halted = false →
      (∀ x t, line = (.ok x, t) → exec (.fetchLineArrival c y) s = .next { s with dev := t }) ∧
      ∀ e t, line = (.error e, t) → (d.warp c y).park = .none → (d.warp c y).stopped = false →
        ∃ u, exec (.fetchLineArrival c y) s = .next u ∧ u.vault = s.vault ∧ u.dev.warp c y = { d.warp c y with
          wait := .translation [granOf (pcLine (d.warp c y).pc)] true 0, active := false, entered := d.now }) ∧
    ((d.ctx ctx).part = p → (k.filter.take 16).find? (fun f => f.ctx == ctx && f.gran == gran && !f.sent) = some f →
      let takes (ws : List (Nat × WingEntry)) : Prop := ∃ u, exec (.wingStageFaultArrival c ctx gran) s = .next u ∧ u.vault = s.vault ∧
        u.dev.wings = ws ∧ ∀ g ∈ (u.dev.col c).filter, g.ctx = ctx → g.gran = gran → g.sent = true
      (d.wings.any (at_ own f.kind) = false → (d.wings.filter (fun z => z.1 == own)).length < 64 → takes (d.wings ++ [(own, fresh)])) ∧
      (d.wings.any (at_ own f.kind) = false → 64 ≤ (d.wings.filter (fun z => z.1 == own)).length →
        exec (.wingStageFaultArrival c ctx gran) s = .next s) ∧
      (d.wings.any (at_ own f.kind) = true → takes (d.wings.map (fun z =>
        if at_ own f.kind z then (z.1, { z.2 with acc := z.2.acc ||| f.acc, waiters := z.2.waiters + n }) else z)))) ∧
    ((d.ctx ctx).part = p → (k.filter.take 16).find? (fun f => f.ctx == ctx && f.gran == gran && !f.sent) = none → own ≠ lead →
      d.wings.find? (fun z => z.1 == own && z.2.part == p && z.2.ctx == ctx && z.2.gran == gran && !z.2.fwd) = some (own, w) →
      let forwards (ws : List (Nat × WingEntry)) : Prop :=
        exec (.wingStageFaultArrival c ctx gran) s = .next { s with dev := { d with wings := ws.map mark } }
      (d.wings.any (at_ lead w.kind) = false → (d.wings.filter (fun z => z.1 == lead)).length < 64 →
        forwards (d.wings ++ [(lead, { w with arrived := d.now })])) ∧
      (d.wings.any (at_ lead w.kind) = true → forwards (d.wings.map (fun z =>
        if at_ lead w.kind z then (z.1, { z.2 with acc := z.2.acc ||| w.acc, waiters := z.2.waiters + w.waiters }) else z)))) ∧
    (d.wings.find? due = some (lead, w) → d.parts.has p = true →
      ∃ u, exec (.faultRecordSend p ctx gran) s = .next u ∧ u.vault = s.vault ∧ (u.dev.part p).rseq = (d.part p).rseq + 1 ∧
        u.dev.faults = d.faults ++ [{
          part := p, rseq := (d.part p).rseq + 1, ctx := ctx, gran := gran, kind := w.kind, level := w.level, acc := (d.joined p w).1,
          waiters := min (d.joined p w).2 65535, fcol := w.fcol, tick := w.tick }]) ∧
    (d.faults.find? (fun z => z.part == p && z.rseq == r.rseq) = some r → r.part = p → d.away r.ctx c = false → c ∈ d.ctxCols r.ctx →
      k.filterOf r.ctx r.gran = some f → (∀ z ∈ d.resolutions, ¬ (z.part = p ∧ z.rseq = r.rseq)) →
      k.queueRoom r.ctx r.gran = true →
      (r.kind ≠ 5 → k.logOf r.ctx r.gran = [] → ∃ u, exec (.faultResolution p r.rseq c .retry) s = .next u ∧ u.vault = s.vault ∧
        (∀ z ∈ u.dev.faults, ¬ (z.part = p ∧ z.rseq = r.rseq)) ∧
        ((held = [] → (u.dev.col c).filterOf r.ctx r.gran = none) ∧
          (held ≠ [] → ∃ g, (u.dev.col c).filterOf r.ctx r.gran = some g ∧ g.rerun = held ∧
            ∀ x ∈ (u.dev.col c).copies, x.ctx = r.ctx → x.held ≠ some r.gran))) ∧
      (r.kind = 5 → exec (.faultResolution p r.rseq c .retry) s = exec (.faultResolution p r.rseq c (.refuse 3)) s) ∧
      (∀ m, k.heldWarps r.ctx r.gran ≠ [] → d.ctxs.has r.ctx = true →
        ∃ u, exec (.faultResolution p r.rseq c (.refuse m)) s = .next u ∧ (u.dev.ctx r.ctx).state = .empty))) ∧
  (∀ (s : State) (c y p ctx page frame : Nat) (x : Deferred) (rest : List Deferred) (t : Dev) (e : TlbEntry) (g : Fetched),
    let d := s.dev
    let w := d.warp c y
    let base := (e.page page).1
    let n := (e.page page).2
    let old := e.frame - (page - base)
    (w.deferred = x :: rest → w.active = true → y ∈ (d.col c).readied → d.waitOver c y = true → w.atRelease = false →
      (d.col c).halted = false → pcInRange w.pc = true → s.fetchLine c w.ctx (pcLine w.pc) = (.ok g, t) →
      (g.sys = false → exec (.deferredTrap c y) s = .next ({ s with dev := { t with cur := {
        col := c, slot := y, pc := (t.warp c y).pc, paired := false, second := false, priv := false } } }.trapEntry x.info true)) ∧
      (g.sys = true → exec (.deferredTrap c y) s = .next { s with dev := t })) ∧
    (d.ctxIn ctx p = true → s.leafOf (d.part p).first ctx page = some e →
      let fits : Prop := frame % n = 0 ∧ frame + n ≤ 24576
      (¬ fits → (frame < 24576 ∨ e.mig = 2) → exec (.migration p ctx page frame) s = .next s) ∧
      (e.mig ≠ 1 → fits ∨ 24576 ≤ frame ∧ e.mig ≠ 2 → ∃ u, exec (.migration p ctx page frame) s = .next u ∧ ∀ c ∈ d.ctxCols ctx, ∀ z ∈ (u.dev.col c).tlb, z.ctx = ctx →
        ¬ (base ≤ z.gran ∧ z.gran < base + n)) ∧
      (e.mig = 1 → fits ∨ 24576 ≤ frame → (∃ c ∈ d.ctxCols ctx, d.pageBusy c ctx base n old = true) → exec (.migration p ctx page frame) s = .next s) ∧
      (e.mig = 1 → (∀ c ∈ d.ctxCols ctx, d.pageBusy c ctx base n old = false) →
        (fits → exec (.migration p ctx page frame) s = .next (s.migrateEnd p ctx base n old frame e.zc)) ∧
        (24576 ≤ frame → exec (.migration p ctx page frame) s = .next (s.migrateAway ctx base n old)))))

/-- R88, R95, R398: a pending save takes its halt tick, and its images are written once what was in flight has settled; a hold halts its partition,
and is released with issue on every column. The model's choice (log 80): beside its bytes, of which those of regions without a layout are free, a saved image
stands as a structure, from which the restore takes it. -/
def Obligations.HaltsAndHolds : Prop :=
  ∀ (s : State) (p c h : Nat) (q : Preempting),
    let d := s.dev
    let x := d.part p
    d.parts.has p = true →
    (x.preempt = some q → x.held = false → x.holdWanted = false →
      (q.htick = none → ∃ u, exec (.haltTick p) s = .next u ∧ u.vault = s.vault ∧
        (u.dev.part p).preempt = some { q with htick := some d.now } ∧ ∀ c ∈ x.columns, (u.dev.col c).halted = true) ∧
      (q.htick = some h → c ∈ x.columns → c ∉ q.written → d.settled p (fun z => z == q.ctx) true = true →
        ∃ u, exec (.imageWriteDone p c) s = .next u ∧ u.vault = s.vault.saveImage c q.slot d.free (d.image c p q h) ∧
          (s.Inv → ∀ b, ¬ (slotKey c q.slot ≤ b ∧ b < slotKey c q.slot + 0x400000) → u.vault.byte b = s.vault.byte b) ∧
          u.dev.images.get? (imageKey c q.slot) = some (d.image c p q h) ∧ (u.dev.col c).warps = [] ∧
          ((∀ z ∈ x.columns, z = c ∨ z ∈ q.written) → (u.dev.ctx q.ctx).state = .saved q.slot ∧ (u.dev.part p).preempt = none) ∧
          ((∃ z ∈ x.columns, z ≠ c ∧ z ∉ q.written) → (u.dev.part p).preempt = some { q with written := q.written ++ [c] }))) ∧
    (x.held = false → x.holdWanted = false → ∃ u, exec (.hold p) s = .next u ∧ u.vault = s.vault ∧ (u.dev.part p).holdWanted = true ∧
      ∀ c ∈ x.columns, (u.dev.col c).halted = true) ∧
    (x.held = false → x.holdWanted = true → d.settled p (fun _ => true) false = true →
      exec (.hold p) s = .next { s with dev := { d with parts := d.parts.set p { x with held := true } } }) ∧
    (d.power = .p3 → exec (.holdRelease p) s = .next s) ∧
    (d.power ≠ .p3 → x.halting = false → ∃ u, exec (.holdRelease p) s = .next u ∧ u.vault = s.vault ∧ (u.dev.part p).held = false ∧
      (u.dev.part p).holdWanted = false ∧ ∀ c ∈ x.columns, (u.dev.col c).halted = false)

/-- R456-R458: a rehearsal starts on a column without warps, and leaves pool, B-SRAM and L1 zero and its result word; a column that fails it is to be
retired: its understudy takes its place once its partitions are held, and a column without one becomes absent. R438, R451: an uncorrectable
error in a scratchpad or tile word, in the B-SRAM or in control state of a context, when it is found (log 120). -/
def Obligations.RehearsalAndRetirement : Prop :=
  ∀ (s : State) (c unit block un i x n : Nat) (tests : BitVec 2) (rest : List Turn),
    let d := s.dev
    let k := d.col c
    (k.rehearseQ = some tests → k.rehearsing = false → k.warps = [] → ∃ u, exec (.rehearsalStart c) s = .next u ∧ u.vault = s.vault ∧
      (u.dev.col c).rehearsing = true ∧ (u.dev.col c).rehearseQ = none ∧ (u.dev.col c).rehearsal.extractLsb' 0 4 = 2#4 ∧
      ∀ a, a < vaultSize → (u.dev.col c).l2Valid a = false) ∧
    (k.rehearsing = true → ∃ u, exec (.rehearsalEnd c unit block) s = .next u ∧ u.vault = s.vault ∧ (u.dev.col c).rehearsing = false ∧
      (u.dev.col c).pool = [] ∧ (u.dev.col c).bsram = [] ∧ (u.dev.col c).l1 = [] ∧ (unit % 256 ≠ 0 → (u.dev.col c).retiring = true) ∧
      (u.dev.col c).rehearsal = resultWord (if k.rehearseQ.isSome then 1 else if unit % 256 = 0 then 3 else 4) (unit % 256)
        (min 65535 ((k.rehearsal.extractLsb' 16 16).toNat + 1)) (if unit % 256 = 0 then 0 else block)) ∧
    (k.retiring = false → exec (.columnRetirement c un true) s = .next s) ∧
    (k.retiring = true → c < 1024 → c ∉ d.absent → d.spares.toList.getD (dieOf c) 0 = 0 →
      ∃ u, exec (.columnRetirement c un true) s = .next u ∧ c ∈ u.dev.absent) ∧
    (k.retiring = true → c < 1024 → c ∉ d.absent → d.spares.toList.getD (dieOf c) 0 ≠ 0 → physKey (dieOf c) un ∈ d.understudies →
      ((∀ p ∈ d.holders c, (d.part p).held = true) → ∃ u, exec (.columnRetirement c un true) s = .next u ∧ u.vault = s.vault ∧
        u.dev.phys.get? c = some un ∧ u.dev.absent = d.absent ∧ (u.dev.col c).l1 = [] ∧ (u.dev.col c).tlb = []) ∧
      ((∃ p ∈ d.holders c, (d.part p).held = false) → exec (.columnRetirement c un true) s = .next
        { s with dev := (d.holders c).foldl (fun d p => d.wantHold p) d })) ∧
    (let counted (u : State) : Prop := u.vault = s.vault ∧ (u.dev.col c).hwErrs = k.hwErrs + 1 ∧
        (u.dev.col c).retiring = (k.retiring || decide (Config.retirementLimit < k.hwErrs + 1));
      (k.poolReg ≤ 4 * i → 4 * i < k.poolAcc → d.agenda = .error (.pool c i) :: rest →
        ∃ u, step s = .next u ∧ counted u ∧ ((u.dev.col c).pool.get? i).map PoolWord.pois = some true) ∧
      (i < 262144 → d.agenda = .error (.bsram c i) :: rest →
        ∃ u, step s = .next u ∧ counted u ∧ ((u.dev.col c).bsram.get? i).map PoolWord.pois = some true) ∧
      ((d.ctx x).state = .resident → d.ctxs.has x = true → d.inPart x c = true → d.agenda = .error (.control c x unit block n) :: rest →
        ∃ u, step s = .next u ∧ (u.dev.ctx x).state = .empty))

/-- R392-R394, R397, R398, R406: bring-up, step by step, the failure of a function, the power and thermal states, and the debugger. The signatures
are free (log 4), so that each check is stated both ways. The model's choices here (log 87): that the dies come up one by one from one firmware image
and one record, and that a column's rehearsal result after step 3 is STATE 3 with COUNT 0. -/
def Obligations.BringUpAndPower : Prop :=
  ∀ (s : State) (die c y power inlet : Nat) (junction : Vector Nat 4) (bad : List BadColumn) (f : ReadyFn) (on after : Bool),
    let d := s.dev
    let step := d.boot.toList.getD die 5
    let cold := (List.range 4).all (fun i => d.boot.toList.getD i 0 == 0 && !d.bootFail.contains i)
    let loaded := if cold then d.loadFlash else d
    let st (x : PowerState) : PowerState := if d.power = .p3 then .p3 else x
    (die < 4 → step < 5 → die ∉ d.bootFail → ∃ u, exec (.powerOn { die := die, bad := bad }) s = .next u ∧ u.vault = s.vault ∧
      (u.dev.boot.toList.getD die 5 = if die ∈ u.dev.bootFail then step else step + 1) ∧
      (step = 0 → if Config.firmwareSigned loaded.flashFw then .smgr die ∈ u.dev.ready ∧ u.dev.bootFail = d.bootFail
        else u.dev.ready = d.ready ∧ u.dev.bootFail = d.bootFail ++ [die]) ∧
      (step = 1 → u.dev.ready = d.ready ∧ if recordOk d.flashCfg d.minVer then u.dev.minVer = recordVer d.flashCfg
        else u.dev.bootFail = d.bootFail ++ [die]) ∧
      (step = 2 → .cols die ∈ u.dev.ready ∧ ∀ c ∈ u.dev.dieCols die, (u.dev.col c).rehearsal = resultWord 3 0 0 0) ∧
      (step = 3 → ∀ c ∈ d.dieCols die, .stage c ∈ u.dev.ready) ∧ (step = 4 → die = 0 → .seqr ∈ u.dev.ready)) ∧
    ((5 ≤ step ∨ die ∈ d.bootFail) → exec (.powerOn { die := die, bad := bad }) s = .next s) ∧
    (d.ready.contains f = true → (f = .cols die ∨ f = .smgr die ∨ f = .stage c) →
      exec (.functionFailure f) s = .next { s with dev := d.setReady f false }) ∧
    ((3400 < power ∨ hotJunction junction 105 = true) → exec (.powerLimitState power junction) s = .next { s with dev := { d with
      watts := power, junction := junction, rate := max 1 (d.rate - 1), power := st .p1 } }) ∧
    (power ≤ 3400 → hotJunction junction 105 = false → exec (.powerLimitState power junction) s = .next { s with dev := { d with
      watts := power, junction := junction, rate := 8, power := st .p0 } }) ∧
    ((d.col c).idle = true → max (d.col c).busyEnd ((d.col c).lastIssue.getD 0) + 1050000 ≤ d.now →
      exec (.clockGateIdle c) s = .next { s with dev := d.modCol c (fun k => { k with gated := true }) }) ∧
    ((d.col c).idle = false → exec (.clockGateIdle c) s = .next s) ∧
    (d.power ≠ .p3 → (hotJunction junction 115 = true ∨ (45 < inlet ∧ ∃ t, d.hotSince = some t ∧ t + 1050000000 ≤ d.now)) → ∃ u, exec (.thermalHoldEntry junction inlet) s = .next u ∧ u.vault = s.vault ∧
      u.dev.power = .p3 ∧ .hold ∈ u.dev.ready ∧
      ∀ p, d.parts.has p = true → (u.dev.part p).held = true ∨ (u.dev.part p).holdWanted = true) ∧
    (d.power = .p3 → hotJunction junction 95 = false → inlet ≤ 45 → ∃ u, exec (.thermalHoldExit junction inlet) s = .next u ∧ u.vault = s.vault ∧
      u.dev.power ≠ .p3 ∧ .hold ∉ u.dev.ready ∧
      ∀ p, d.parts.has p = true → (u.dev.part p).held = false ∧ (u.dev.part p).holdWanted = false) ∧
    exec (.debuggerAttach on) s = .next { s with dev := { d with debugger := on } } ∧
    (d.debugger = true → (d.warp c y).stopped = true → exec (.debuggerResume c y after) s = .next
      { s with dev := d.modWarp c y (fun w => { w with stopped := false, entered := d.now, pc := if after then w.pc + 1 else w.pc }) })

/-- R77, R90, R385-R389, R397, R461, R463: the fabric ports' flits and margins, the host's reads and writes of column memory and of ring blocks,
Twimor with the counters of lanes and banks, and the header of an image slot that a debugger reads. A word that a
stagehand's row operation is writing may be read as it was (R380), and is no case of this. The model's choices here: the layout of the sensors' reply
(log 3); what a module reset keeps (log 103); that an access of a ring block is refused as a whole or ignored (log 111); and how the counters and
headers are asked for (log 135). -/
def Obligations.PortsHostAndTwimor : Prop :=
  ∀ (s : State) (i c q off n die : Nat) (margins : List Nat) (wire : List Byte) (ack : BitVec 16) (bytes : List Byte) (rest : List Turn),
    let d := s.dev
    let p := d.port i
    let fl := flitOfWire wire
    let mem := 0x40000000000000 + c * 2 ^ 44 + off
    let ring := 0x100000000 + q * 0x100000 + off
    let refused (u : State) (addr : Nat) : Prop := u.vault = s.vault ∧ u.dev.replies = d.replies ++ [.refused addr]
    let measured (u : State) : Prop := ∀ l : Fin 8, (u.dev.port i).lanes[l] = { p.lanes[l] with margin := min (margins.getD l 0) 255 }
    (i < 24 → d.ready.contains (.port i) = false →
      ∃ u, exec (.portTrained i margins) s = .next u ∧ u.vault = s.vault ∧ .port i ∈ u.dev.ready ∧ measured u) ∧
    (d.ready.contains (.port i) = true →
      (wireOk wire = true → fl.fseq = p.rxSeq + 1 → (fl.typ = 1 ∨ fl.typ = 2) → ∃ u, exec (.flitReceive i wire) s = .next u ∧ u.vault = s.vault ∧
        (u.dev.port i).delivered = p.delivered ++ [fl] ∧ (u.dev.port i).rxSeq = fl.fseq ∧ (u.dev.port i).retryReq = false ∧
        (u.dev.port i).credits = p.credits + fl.cred.toNat) ∧
      ((wireOk wire = false ∨ fl.fseq ≠ p.rxSeq + 1) → ∃ u, exec (.flitReceive i wire) s = .next u ∧ u.vault = s.vault ∧
        (u.dev.port i).delivered = p.delivered ∧ (u.dev.port i).rxSeq = p.rxSeq ∧ (u.dev.port i).retryReq = true ∧
        (p.buffer.length < 512 → p.queue = [] → ∃ r, (u.dev.port i).sent = p.sent ++ [r] ∧ r.typ = 3 ∧ r.ack = p.rxSeq)) ∧
      (∃ u, exec (.retryRequestReceive i ack) s = .next u ∧ u.vault = s.vault ∧
        (u.dev.port i).sent = (p.acked ack).sent ++ (p.acked ack).buffer ∧ (u.dev.port i).buffer = (p.acked ack).buffer) ∧
      (p.lost d.now = true →
        (∃ u, exec (.portRetrain i (some margins)) s = .next u ∧ u.vault = s.vault ∧ (u.dev.port i).sent = p.sent ++ p.buffer ∧
          (u.dev.port i).failing = none ∧ u.dev.ready = d.ready ∧ measured u) ∧
        (∃ u, exec (.portRetrain i none) s = .next u ∧ u.vault = s.vault ∧ .port i ∉ u.dev.ready)) ∧
      (p.lost d.now = false → ∀ b, exec (.portRetrain i b) s = .next s)) ∧
    (i < 24 → d.ready.contains (.port i) = true → c < 1024 → c ∉ d.absent → off < 2 ^ 44 →
      (off + n ≤ vaultUsable → (d.col c).hand.banks.olds = [] → ∃ u, exec (.hostMemoryRead i mem n) s = .next u ∧ u.vault = s.vault ∧
        u.dev.replies = d.replies ++ [.data mem (s.vault.bytes (vkey c off) n)]) ∧
      (off + bytes.length ≤ vaultUsable → bytes ≠ [] → (d.col c).hand.banks.olds = [] →
        ∃ u a, exec (.hostMemoryWrite i mem bytes) s = .next u ∧ u.vault = s.vault.write (vkey c off) bytes ∧ u.dev.replies = d.replies ∧
          u.dev.acks = d.acks ++ [a] ∧ a.col = c ∧ a.addr = mem ∧ d.now + 4 ≤ a.at_) ∧
      (vaultUsable < off + n → ∃ u, exec (.hostMemoryRead i mem n) s = .next u ∧ refused u mem) ∧
      (vaultUsable < off + bytes.length → ∃ u, exec (.hostMemoryWrite i mem bytes) s = .next u ∧ refused u mem)) ∧
    (d.ready.contains (.port i) = false → ∀ a, exec (.hostMemoryRead i a n) s = .next s ∧ exec (.hostMemoryWrite i a bytes) s = .next s) ∧
    (i < 24 → d.ready.contains (.port i) = true → q < 256 →
      (off + n ≤ 0x61000 → ∃ u, exec (.hostMemoryRead i ring n) s = .next u ∧ u.vault = s.vault ∧
        u.dev.replies = d.replies ++ [.data ring ((List.range n).map (fun i => (d.ring (.part q)).byte (off + i)))]) ∧
      (off + bytes.length ≤ 0x61000 → exec (.hostMemoryWrite i ring bytes) s = .next
        { s with dev := (d.ringWrite (.part q) off bytes).send (.ack ring) 2 })) ∧
    (d.twimorOn = true →
      (let told (bs : List Byte) : State := { s with dev := { d with replies := d.replies ++ [.twimor bs] } };
        exec .twimorIdentityRead s = .next (told (identityBlock ++ d.readyMap)) ∧
        exec .twimorSensorRead s = .next (told ((d.junction.toList.map (bytesOf 2)).flatten ++ bytesOf 2 d.inlet ++ bytesOf 2 d.watts)) ∧
        exec (.twimorErrorRecordRead die) s = .next (told (((d.errors.getD die []).map (fun e => e.bytes die)).flatten)) ∧
        (∀ l : Fin 8, i < 24 → let z := p.lanes[l]
          s.answer (.laneCounters 0 i l) = told (bytesOf 8 (z.corr % 2 ^ 40 + z.retry % 2 ^ 16 * 2 ^ 40 + z.margin % 2 ^ 8 * 2 ^ 56))) ∧
        (∀ z, die < 4 → c < 256 → q < 32 → d.banks.get? ((die * 256 + c) * 32 + q) = some z →
          s.answer (.bankCounters die c q) = told (bytesOf 8 (z.csec % 2 ^ 32 + z.rrow % 2 ^ 16 * 2 ^ 32 + z.scrub % 2 ^ 16 * 2 ^ 48)))) ∧
      (d.twimorDie = some die → exec (.twimorImageWrite .config die bytes) s = .next { s with dev := { d with stagedCfg := some bytes } } ∧
        exec (.twimorImageWrite .firmware die bytes) s = .next { s with dev := { d with stagedFw := some bytes } }) ∧
      (∃ u, exec .twimorModuleReset s = .next u ∧ u.vault = State.reset.vault ∧ u.dev.cols = State.reset.dev.cols ∧
        u.dev.ready = State.reset.dev.ready ∧ u.dev.boot = State.reset.dev.boot ∧ u.dev.flashCfg = d.flashCfg ∧
        u.dev.flashFw = d.flashFw)) ∧
    (d.twimorOn = false → exec .twimorIdentityRead s = .next s ∧ exec .twimorSensorRead s = .next s ∧
      exec (.twimorErrorRecordRead die) s = .next s ∧ exec .twimorModuleReset s = .next s ∧ ∀ l, s.answer (.laneCounters die i l) = s ∧
        s.answer (.bankCounters die c l) = s) ∧
    (∀ a, d.agenda = .ask a :: rest → step s = .next ({ s with dev := { d with agenda := rest } }.answer a)) ∧
    (d.debugger = true → c < 1024 → q < 2 → d.ready.contains (.smgr (dieOf c)) = true → s.answer (.imageHeader c q) =
      { s with dev := { d with replies := d.replies ++ [.header (s.vault.bytes (slotKey c q) 0x88)] } })

/-! ## The step, the encoding and the invariant -/

/-- R73, R83, R97, R98, R100, R123, R366: a turn of a column runs the instruction, or the joined pair, that its highest-ranked warp's line holds at
its PC, decoded; a turn of a stagehand runs its program's instruction, and a tick passes; an event, an error
that a store finds (R438), or a question from outside (R463), has its effect. Which turn is next is the environment's schedule (log 6, 120). -/
def Obligations.StepRunsDecodedInstruction : Prop :=
  ∀ (s : State) (t : Turn) (rest : List Turn), s.dev.agenda = t :: rest →
    let s1 : State := { s with dev := { s.dev with agenda := rest } }
    (∀ c slot others, t = .issue c → (s1.dev.fresh c).opens c = true →
      let o := ({ s1 with dev := s1.dev.fresh c } : State).openTurn c
      let s2 : State := { o with dev := o.dev.modCol c Column.clearYld }
      let s3 := s2.issuing c slot
      let pc := s3.dev.curWarp.pc
      o.dev.ranked c = slot :: others → ∀ x d b, pcInRange pc = true → s3.fetchLine c s3.dev.curWarp.ctx (pcLine pc) = (.ok x, d) → x.line = some b → lineBad b = false →
        (x.sys = true → d.curWarp.privMode = true) → d.curWarp.deferred = [] →
        let s4 := ({ s3 with dev := d } : State).setPriv x.sys
        let j := pcSlot d.curWarp.pc
        let over_ := (s2.lookAt c others).2 ++ (o.dev.col c).readied
        (∀ i u, linePair b j = false → decode (lineInsn b j) = .ok i → exec i s4 = .next u → u.dev.issued ≠ .held →
          step s = .next (u.issueDone c (some slot) over_ others)) ∧
        (∀ i k a e u, linePair b j = true → decode (lineInsn b j) = .ok i → decode (lineInsn b (j + 1)) = .ok k → pairOk i k = true →
          exec i (s4.place true false) = .next a → a.dev.issued = .retired →
          exec k ((s4.place true false).place true true) = .next e → e.dev.issued = .retired →
          exec k (a.place true true) = .next u → u.dev.issued ≠ .held → step s = .next (u.issueDone c (some slot) over_ others))) ∧
    (∀ c i u, t = .hand c →
      let r : State := { s1 with dev := s1.dev.resumeHand c }
      let h := (r.dev.col c).hand
      h.running ≠ none → (h.wait = .none ∨ h.wait = .aqsvc) → h.banks.ready r.dev.now = true → h.pc < h.ilen →
      decodeHand (h.prog.getD h.pc 0) = .ok i → (∀ f, isRowOp i = some f → h.banks.rowWaits r.dev.now (h.addr f / 1024 % 32) = false) →
      exec i { r with dev := { r.dev with cur := { r.dev.cur with col := c } } } = .next u →
        step s = .next { u with dev := (u.dev.modHand c (fun g => g.busyFor r.dev.now (handTicks i))).tick 1 }) ∧
    (∀ i, t = .event i → i.isColumn = false → i.hand = none → step s = exec i s1) ∧
    (∀ n, t = .tick n → step s = .next { s1 with dev := { s1.dev with now := s1.dev.now + n } }) ∧
    (∀ e, t = .error e → step s = .next (s1.hwError e)) ∧
    (∀ a, t = .ask a → step s = .next (s1.answer a))

/-- R103-R114, R124, R125, R364-R366: the well-formed column and stagehand instructions and the words that are instructions answer one another:
decoding the encoding of a well-formed instruction gives it back, and only such words decode. -/
def Obligations.DecodeAndEncodeAgree : Prop :=
  (∀ (i : Instr) (w : Insn), decode w = .ok i ↔ (i.wf = true ∧ encode i = some w)) ∧
  (∀ (i : Instr) (w : HandInsn), decodeHand w = .ok i ↔ (i.wf = true ∧ encodeHand i = some w))

/-- R107, R113, R125, R255, R364, R379: words that the spec writes out decode to the instructions that they stand for. -/
def Obligations.DecodeWords : Prop :=
  let h : Head := { ty := 0, u := false, s := false, rm := 0, gn := false, gp := 0 }
  let zero : Operand := { ind := false, reg := 0, pat := 0, k := 0 }
  decode 0x010001000000030000040000 = .ok (.bra { h := { h with gp := 1 }, tgt := 3, rcv := 4, ur := 0, sub := 0 }) ∧
  decode 0x10400004820000000000C000 = .ok (.iadd { h := { h with ty := 0x10 }, d := 9, a := { zero with reg := 8 }, bc := 1, sub := 0x80, hint := 0 }) ∧
  decode 0x40040102014001A800000000 = .ok (.fadd {
    h := { h with ty := 1, gp := 1 }, d := 4, a := { zero with reg := 5 }, bc := 0x03500000, sub := 0, hint := 0 }) ∧
  decode 0xA30000000000000000000103 = .ok (.fence { h := h, dat := 0, adr := zero, obj := 0, off := 0, size := 0, cpol := 0, ord := 2, obs := 3 }) ∧
  decode 0xA80000000000000000000041 = .ok (.nmfence { h := h, dat := 0, adr := zero, obj := 0, off := 0, size := 0, cpol := 0, ord := 0, obs := 0x41 }) ∧
  decodeHand 0xA404280000000000 = .ok (.racc { d := 0, s := 4, t := 5, x := 0, imm := 0 }) ∧
  decodeHand 0x24800000FFFFFFFD = .ok (.hloop { d := 4, s := 0, t := 0, x := 0, imm := 0xFFFFFFFD }) ∧
  decode 0x0C0000000000000000000000 = .error .opcode

/-- R388: the vaults' bytes keep their canonical form in every step, so that equal memories are equal data. The form is the model's own (log 1). -/
def Obligations.StepKeepsVaultCanonical : Prop := ∀ s t : State, s.Inv → step s = .next t → t.Inv

/-- The vaults' bytes have their canonical form at reset, and nothing is listed (log 1). -/
def Obligations.ResetIsCanonical : Prop := State.reset.Inv ∧ State.reset.vault = []
end

