-- ==== Sys2Proof/Laws/Encoding.lean ====
section
/-! SUPPORT. The formats, word and body: each body read from its word gives the fields back, and the fields of a clean word give the word
back (R103-R114, R116, R364). -/

set_option linter.unusedSimpArgs false

namespace Sys2Proof

/-! ## Fields of an appended word -/

theorem extract_high {n m : Nat} (a : BitVec n) (b : BitVec m) (s l : Nat) (h : m ≤ s) :
    (a ++ b).extractLsb' s l = a.extractLsb' (s - m) l := BitVec.extractLsb'_append_eq_of_le h

theorem extract_low {n m : Nat} (a : BitVec n) (b : BitVec m) (s l : Nat) (h : s + l ≤ m) :
    (a ++ b).extractLsb' s l = b.extractLsb' s l := BitVec.extractLsb'_append_eq_of_add_le h

theorem bit_high {n m : Nat} (a : BitVec n) (b : BitVec m) (s : Nat) (h : m ≤ s) : (a ++ b).getLsbD s = a.getLsbD (s - m) := by
  rw [BitVec.getLsbD_append, if_neg (by omega)]

theorem bit_low {n m : Nat} (a : BitVec n) (b : BitVec m) (s : Nat) (h : s < m) : (a ++ b).getLsbD s = b.getLsbD s := by
  rw [BitVec.getLsbD_append, if_pos h]

theorem bit_ofBool (b : Bool) : (BitVec.ofBool b).getLsbD 0 = b := by cases b <;> rfl

theorem extract_zero {n : Nat} (s l : Nat) : (0#n).extractLsb' s l = 0#l := by
  apply BitVec.eq_of_getLsbD_eq
  intro i hi
  simp

/-- Neighbouring fields of a word joined. -/
theorem extract_join {W : Nat} (w : BitVec W) (a b n m : Nat) (h : a = b + m) :
    w.extractLsb' a n ++ w.extractLsb' b m = w.extractLsb' b (n + m) := by
  subst h
  apply BitVec.eq_of_getLsbD_eq
  intro i hi
  rw [BitVec.getLsbD_append]
  simp only [BitVec.getLsbD_extractLsb']
  split
  · rename_i h; simp [h, hi]
  · rename_i h
    have : i - m < n := by omega
    simp only [this, hi, decide_true, Bool.true_and]
    congr 1; omega

/-- One bit of a word as a field. -/
theorem ofBool_bit {W : Nat} (w : BitVec W) (i : Nat) : BitVec.ofBool (w.getLsbD i) = w.extractLsb' i 1 := by
  apply BitVec.eq_of_getLsbD_eq
  intro j hj
  have : j = 0 := by omega
  subst this
  simp

/-! ## Operands and heads -/

@[simp] theorem Operand.ofBits_bits (a : Operand) : Operand.ofBits a.bits = a := by
  simp (disch := omega) only [Operand.ofBits, Operand.bits, extract_high, extract_low, bit_high, bit_ofBool, Nat.reduceSub,
    BitVec.extractLsb'_eq_self]

@[simp] theorem Operand.bits_ofBits (b : BitVec 16) : (Operand.ofBits b).bits = b := by
  simp (disch := omega) only [Operand.ofBits, Operand.bits, ofBool_bit, extract_join]
  exact BitVec.extractLsb'_eq_self

/-! ## The word of a body -/

theorem cWord_major (op : BitVec 8) (f : CFields) : (cWord op f).extractLsb' 88 8 = op := by
  simp (disch := omega) only [cWord, headWord, extract_high, Nat.reduceSub, BitVec.extractLsb'_eq_self]

theorem cWord_head (op : BitVec 8) (f : CFields) : headOf (cWord op f) = f.h := by
  simp (disch := omega) only [headOf, cWord, headWord, extract_high, extract_low, bit_high, bit_low, bit_ofBool, Nat.reduceSub,
    BitVec.extractLsb'_eq_self, Operand.ofBits_bits]

@[simp] theorem cBody_cWord (op : BitVec 8) (f : CFields) : cBody (cWord op f) = f := by
  have h := cWord_head op f
  simp (disch := omega) only [cBody, h]
  simp (disch := omega) only [cWord, headWord, extract_high, extract_low, bit_high, bit_low, bit_ofBool, Nat.reduceSub,
    BitVec.extractLsb'_eq_self, Operand.ofBits_bits]

theorem cWord_reserved (op : BitVec 8) (f : CFields) :
    (cWord op f).getLsbD 87 = false ∧ (cWord op f).extractLsb' 76 2 = 0 := by
  refine ⟨?_, ?_⟩
  · simp (disch := omega) only [cWord, headWord, bit_high, bit_low, Nat.reduceSub]
    rfl
  · simp (disch := omega) only [cWord, headWord, extract_high, extract_low, Nat.reduceSub, BitVec.extractLsb'_eq_self]
    rfl

/-- A word whose reserved bits are zero is the word of its body. -/
theorem cWord_cBody (w : Insn) (h87 : w.getLsbD 87 = false) (h76 : w.extractLsb' 76 2 = 0) :
    cWord (w.extractLsb' 88 8) (cBody w) = w := by
  have z : 0#1 = w.extractLsb' 87 1 := by rw [← ofBool_bit, h87]; rfl
  have y : 0#2 = w.extractLsb' 76 2 := h76.symm
  simp (disch := omega) only [cWord, headWord, cBody, headOf, z, y, ofBool_bit, Operand.bits_ofBits, extract_join]
  exact BitVec.extractLsb'_eq_self

theorem vWord_major (op : BitVec 8) (f : VFields) : (vWord op f).extractLsb' 88 8 = op := by
  simp (disch := omega) only [vWord, headWord, extract_high, Nat.reduceSub, BitVec.extractLsb'_eq_self]

theorem vWord_head (op : BitVec 8) (f : VFields) : headOf (vWord op f) = f.h := by
  simp (disch := omega) only [headOf, vWord, headWord, extract_high, extract_low, bit_high, bit_low, bit_ofBool, Nat.reduceSub,
    BitVec.extractLsb'_eq_self, Operand.ofBits_bits]

@[simp] theorem vBody_vWord (op : BitVec 8) (f : VFields) : vBody (vWord op f) = f := by
  have h := vWord_head op f
  simp (disch := omega) only [vBody, h]
  simp (disch := omega) only [vWord, headWord, extract_high, extract_low, bit_high, bit_low, bit_ofBool, Nat.reduceSub,
    BitVec.extractLsb'_eq_self, Operand.ofBits_bits]

theorem vWord_reserved (op : BitVec 8) (f : VFields) :
    (vWord op f).getLsbD 87 = false ∧ (vWord op f).extractLsb' 76 2 = 0 := by
  refine ⟨?_, ?_⟩
  · simp (disch := omega) only [vWord, headWord, bit_high, bit_low, Nat.reduceSub]
    rfl
  · simp (disch := omega) only [vWord, headWord, extract_high, extract_low, Nat.reduceSub, BitVec.extractLsb'_eq_self]
    rfl

/-- A word whose reserved bits are zero is the word of its body. -/
theorem vWord_vBody (w : Insn) (h87 : w.getLsbD 87 = false) (h76 : w.extractLsb' 76 2 = 0) :
    vWord (w.extractLsb' 88 8) (vBody w) = w := by
  have z : 0#1 = w.extractLsb' 87 1 := by rw [← ofBool_bit, h87]; rfl
  have y : 0#2 = w.extractLsb' 76 2 := h76.symm
  simp (disch := omega) only [vWord, headWord, vBody, headOf, z, y, ofBool_bit, Operand.bits_ofBits, extract_join]
  exact BitVec.extractLsb'_eq_self

theorem mWord_major (op : BitVec 8) (f : MFields) : (mWord op f).extractLsb' 88 8 = op := by
  simp (disch := omega) only [mWord, headWord, extract_high, Nat.reduceSub, BitVec.extractLsb'_eq_self]

theorem mWord_head (op : BitVec 8) (f : MFields) : headOf (mWord op f) = f.h := by
  simp (disch := omega) only [headOf, mWord, headWord, extract_high, extract_low, bit_high, bit_low, bit_ofBool, Nat.reduceSub,
    BitVec.extractLsb'_eq_self, Operand.ofBits_bits]

@[simp] theorem mBody_mWord (op : BitVec 8) (f : MFields) : mBody (mWord op f) = f := by
  have h := mWord_head op f
  simp (disch := omega) only [mBody, h]
  simp (disch := omega) only [mWord, headWord, extract_high, extract_low, bit_high, bit_low, bit_ofBool, Nat.reduceSub,
    BitVec.extractLsb'_eq_self, Operand.ofBits_bits]

theorem mWord_reserved (op : BitVec 8) (f : MFields) :
    (mWord op f).getLsbD 87 = false ∧ (mWord op f).extractLsb' 76 2 = 0 := by
  refine ⟨?_, ?_⟩
  · simp (disch := omega) only [mWord, headWord, bit_high, bit_low, Nat.reduceSub]
    rfl
  · simp (disch := omega) only [mWord, headWord, extract_high, extract_low, Nat.reduceSub, BitVec.extractLsb'_eq_self]
    rfl

/-- A word whose reserved bits are zero is the word of its body. -/
theorem mWord_mBody (w : Insn) (h87 : w.getLsbD 87 = false) (h76 : w.extractLsb' 76 2 = 0) :
    mWord (w.extractLsb' 88 8) (mBody w) = w := by
  have z : 0#1 = w.extractLsb' 87 1 := by rw [← ofBool_bit, h87]; rfl
  have y : 0#2 = w.extractLsb' 76 2 := h76.symm
  simp (disch := omega) only [mWord, headWord, mBody, headOf, z, y, ofBool_bit, Operand.bits_ofBits, extract_join]
  exact BitVec.extractLsb'_eq_self

theorem xWord_major (op : BitVec 8) (f : XFields) : (xWord op f).extractLsb' 88 8 = op := by
  simp (disch := omega) only [xWord, headWord, extract_high, Nat.reduceSub, BitVec.extractLsb'_eq_self]

theorem xWord_head (op : BitVec 8) (f : XFields) : headOf (xWord op f) = f.h := by
  simp (disch := omega) only [headOf, xWord, headWord, extract_high, extract_low, bit_high, bit_low, bit_ofBool, Nat.reduceSub,
    BitVec.extractLsb'_eq_self, Operand.ofBits_bits]

@[simp] theorem xBody_xWord (op : BitVec 8) (f : XFields) : xBody (xWord op f) = f := by
  have h := xWord_head op f
  simp (disch := omega) only [xBody, h]
  simp (disch := omega) only [xWord, headWord, extract_high, extract_low, bit_high, bit_low, bit_ofBool, Nat.reduceSub,
    BitVec.extractLsb'_eq_self, Operand.ofBits_bits]

theorem xWord_reserved (op : BitVec 8) (f : XFields) :
    (xWord op f).getLsbD 87 = false ∧ (xWord op f).extractLsb' 76 2 = 0 ∧ (xWord op f).extractLsb' 0 13 = 0 := by
  refine ⟨?_, ?_, ?_⟩
  · simp (disch := omega) only [xWord, headWord, bit_high, bit_low, Nat.reduceSub]
    rfl
  · simp (disch := omega) only [xWord, headWord, extract_high, extract_low, Nat.reduceSub, BitVec.extractLsb'_eq_self]
    rfl
  · simp (disch := omega) only [xWord, extract_low, BitVec.extractLsb'_eq_self]
    rfl

/-- A word whose reserved bits are zero is the word of its body. -/
theorem xWord_xBody (w : Insn) (h87 : w.getLsbD 87 = false) (h76 : w.extractLsb' 76 2 = 0) (h0 : w.extractLsb' 0 13 = 0) :
    xWord (w.extractLsb' 88 8) (xBody w) = w := by
  have z : 0#1 = w.extractLsb' 87 1 := by rw [← ofBool_bit, h87]; rfl
  have y : 0#2 = w.extractLsb' 76 2 := h76.symm
  have x : 0#13 = w.extractLsb' 0 13 := h0.symm
  simp (disch := omega) only [xWord, headWord, xBody, headOf, z, y, x, ofBool_bit, Operand.bits_ofBits, extract_join]
  exact BitVec.extractLsb'_eq_self

theorem tWord_major (op : BitVec 8) (f : TFields) : (tWord op f).extractLsb' 88 8 = op := by
  simp (disch := omega) only [tWord, headWord, extract_high, Nat.reduceSub, BitVec.extractLsb'_eq_self]

theorem tWord_head (op : BitVec 8) (f : TFields) : headOf (tWord op f) = f.h := by
  simp (disch := omega) only [headOf, tWord, headWord, extract_high, extract_low, bit_high, bit_low, bit_ofBool, Nat.reduceSub,
    BitVec.extractLsb'_eq_self, Operand.ofBits_bits]

@[simp] theorem tBody_tWord (op : BitVec 8) (f : TFields) : tBody (tWord op f) = f := by
  have h := tWord_head op f
  simp (disch := omega) only [tBody, h]
  simp (disch := omega) only [tWord, headWord, extract_high, extract_low, bit_high, bit_low, bit_ofBool, Nat.reduceSub,
    BitVec.extractLsb'_eq_self, Operand.ofBits_bits]

theorem tWord_reserved (op : BitVec 8) (f : TFields) :
    (tWord op f).getLsbD 87 = false ∧ (tWord op f).extractLsb' 76 2 = 0 ∧ (tWord op f).extractLsb' 0 3 = 0 := by
  refine ⟨?_, ?_, ?_⟩
  · simp (disch := omega) only [tWord, headWord, bit_high, bit_low, Nat.reduceSub]
    rfl
  · simp (disch := omega) only [tWord, headWord, extract_high, extract_low, Nat.reduceSub, BitVec.extractLsb'_eq_self]
    rfl
  · simp (disch := omega) only [tWord, extract_low, BitVec.extractLsb'_eq_self]
    rfl

/-- A word whose reserved bits are zero is the word of its body. -/
theorem tWord_tBody (w : Insn) (h87 : w.getLsbD 87 = false) (h76 : w.extractLsb' 76 2 = 0) (h0 : w.extractLsb' 0 3 = 0) :
    tWord (w.extractLsb' 88 8) (tBody w) = w := by
  have z : 0#1 = w.extractLsb' 87 1 := by rw [← ofBool_bit, h87]; rfl
  have y : 0#2 = w.extractLsb' 76 2 := h76.symm
  have x : 0#3 = w.extractLsb' 0 3 := h0.symm
  simp (disch := omega) only [tWord, headWord, tBody, headOf, z, y, x, ofBool_bit, Operand.bits_ofBits, extract_join]
  exact BitVec.extractLsb'_eq_self

theorem pWord_major (op : BitVec 8) (f : PFields) : (pWord op f).extractLsb' 88 8 = op := by
  simp (disch := omega) only [pWord, headWord, extract_high, Nat.reduceSub, BitVec.extractLsb'_eq_self]

theorem pWord_head (op : BitVec 8) (f : PFields) : headOf (pWord op f) = f.h := by
  simp (disch := omega) only [headOf, pWord, headWord, extract_high, extract_low, bit_high, bit_low, bit_ofBool, Nat.reduceSub,
    BitVec.extractLsb'_eq_self, Operand.ofBits_bits]

@[simp] theorem pBody_pWord (op : BitVec 8) (f : PFields) : pBody (pWord op f) = f := by
  have h := pWord_head op f
  simp (disch := omega) only [pBody, h]
  simp (disch := omega) only [pWord, headWord, extract_high, extract_low, bit_high, bit_low, bit_ofBool, Nat.reduceSub,
    BitVec.extractLsb'_eq_self, Operand.ofBits_bits]

theorem pWord_reserved (op : BitVec 8) (f : PFields) :
    (pWord op f).getLsbD 87 = false ∧ (pWord op f).extractLsb' 76 2 = 0 ∧ (pWord op f).extractLsb' 0 20 = 0 := by
  refine ⟨?_, ?_, ?_⟩
  · simp (disch := omega) only [pWord, headWord, bit_high, bit_low, Nat.reduceSub]
    rfl
  · simp (disch := omega) only [pWord, headWord, extract_high, extract_low, Nat.reduceSub, BitVec.extractLsb'_eq_self]
    rfl
  · simp (disch := omega) only [pWord, extract_low, BitVec.extractLsb'_eq_self]
    rfl

/-- A word whose reserved bits are zero is the word of its body. -/
theorem pWord_pBody (w : Insn) (h87 : w.getLsbD 87 = false) (h76 : w.extractLsb' 76 2 = 0) (h0 : w.extractLsb' 0 20 = 0) :
    pWord (w.extractLsb' 88 8) (pBody w) = w := by
  have z : 0#1 = w.extractLsb' 87 1 := by rw [← ofBool_bit, h87]; rfl
  have y : 0#2 = w.extractLsb' 76 2 := h76.symm
  have x : 0#20 = w.extractLsb' 0 20 := h0.symm
  simp (disch := omega) only [pWord, headWord, pBody, headOf, z, y, x, ofBool_bit, Operand.bits_ofBits, extract_join]
  exact BitVec.extractLsb'_eq_self

theorem sWord_major (op : BitVec 8) (f : SFields) : (sWord op f).extractLsb' 88 8 = op := by
  simp (disch := omega) only [sWord, headWord, extract_high, Nat.reduceSub, BitVec.extractLsb'_eq_self]

theorem sWord_head (op : BitVec 8) (f : SFields) : headOf (sWord op f) = f.h := by
  simp (disch := omega) only [headOf, sWord, headWord, extract_high, extract_low, bit_high, bit_low, bit_ofBool, Nat.reduceSub,
    BitVec.extractLsb'_eq_self, Operand.ofBits_bits]

@[simp] theorem sBody_sWord (op : BitVec 8) (f : SFields) : sBody (sWord op f) = f := by
  have h := sWord_head op f
  simp (disch := omega) only [sBody, h]
  simp (disch := omega) only [sWord, headWord, extract_high, extract_low, bit_high, bit_low, bit_ofBool, Nat.reduceSub,
    BitVec.extractLsb'_eq_self, Operand.ofBits_bits]

theorem sWord_reserved (op : BitVec 8) (f : SFields) :
    (sWord op f).getLsbD 87 = false ∧ (sWord op f).extractLsb' 76 2 = 0 ∧ (sWord op f).extractLsb' 0 27 = 0 := by
  refine ⟨?_, ?_, ?_⟩
  · simp (disch := omega) only [sWord, headWord, bit_high, bit_low, Nat.reduceSub]
    rfl
  · simp (disch := omega) only [sWord, headWord, extract_high, extract_low, Nat.reduceSub, BitVec.extractLsb'_eq_self]
    rfl
  · simp (disch := omega) only [sWord, extract_low, BitVec.extractLsb'_eq_self]
    rfl

/-- A word whose reserved bits are zero is the word of its body. -/
theorem sWord_sBody (w : Insn) (h87 : w.getLsbD 87 = false) (h76 : w.extractLsb' 76 2 = 0) (h0 : w.extractLsb' 0 27 = 0) :
    sWord (w.extractLsb' 88 8) (sBody w) = w := by
  have z : 0#1 = w.extractLsb' 87 1 := by rw [← ofBool_bit, h87]; rfl
  have y : 0#2 = w.extractLsb' 76 2 := h76.symm
  have x : 0#27 = w.extractLsb' 0 27 := h0.symm
  simp (disch := omega) only [sWord, headWord, sBody, headOf, z, y, x, ofBool_bit, Operand.bits_ofBits, extract_join]
  exact BitVec.extractLsb'_eq_self

/-! ## The stagehand's word -/

theorem handWord_major (op : BitVec 6) (f : HFields) : (handWord op f).extractLsb' 58 6 = op := by
  simp (disch := omega) only [handWord, extract_high, Nat.reduceSub, BitVec.extractLsb'_eq_self]

theorem handWord_reserved (op : BitVec 6) (f : HFields) : (handWord op f).extractLsb' 32 8 = 0 := by
  simp (disch := omega) only [handWord, extract_high, extract_low, Nat.reduceSub, BitVec.extractLsb'_eq_self]
  rfl

@[simp] theorem hBody_handWord (op : BitVec 6) (f : HFields) : hBody (handWord op f) = f := by
  simp (disch := omega) only [hBody, handWord, extract_high, extract_low, Nat.reduceSub, BitVec.extractLsb'_eq_self]

theorem handWord_hBody (w : HandInsn) (h : w.extractLsb' 32 8 = 0) : handWord (w.extractLsb' 58 6) (hBody w) = w := by
  have z : 0#8 = w.extractLsb' 32 8 := h.symm
  simp (disch := omega) only [handWord, hBody, z, extract_join]
  exact BitVec.extractLsb'_eq_self

end Sys2Proof
end

