-- ==== Sys2Proof/Laws/Table.lean ====
section
/-! SUPPORT. What a read of a table gives after each of its updates. No law asks for a sorted table. -/

namespace Sys2Proof.Machine

variable {α : Type}

@[simp] theorem Table.get?_set_same (t : Table α) (k : Nat) (v : α) : (t.set k v).get? k = some v := by
  induction t with
  | nil => simp [Table.set, Table.get?]
  | cons p t ih =>
    obtain ⟨j, w⟩ := p
    unfold Table.set
    split
    · simp [Table.get?]
    · split
      · simp [Table.get?]
      · rename_i h1 h2
        simpa [Table.get?, h1, h2] using ih

theorem Table.get?_set_ne (t : Table α) {k n : Nat} (v : α) (h : n ≠ k) : (t.set k v).get? n = t.get? n := by
  induction t with
  | nil => simp [Table.set, Table.get?, Ne.symm h]
  | cons p t ih =>
    obtain ⟨j, w⟩ := p
    unfold Table.set
    split
    · rename_i h1
      subst h1
      simp [Table.get?, Ne.symm h]
    · split
      · rename_i h1 h2
        by_cases h3 : n < k
        · have h4 : n < j := Nat.lt_trans h3 h2
          simp [Table.get?, Ne.symm h, h3, h4, Nat.ne_of_gt h4]
        · simp [Table.get?, Ne.symm h, h3]
      · simp only [Table.get?]
        rw [ih]

theorem Table.get?_set (t : Table α) (k n : Nat) (v : α) : (t.set k v).get? n = if n = k then some v else t.get? n := by
  by_cases h : n = k
  · subst h; simp
  · simp [h, Table.get?_set_ne t v h]

@[simp] theorem Table.getD_set_same (t : Table α) (k : Nat) (v d : α) : (t.set k v).getD k d = v := by simp [Table.getD]

theorem Table.getD_set_ne (t : Table α) {k n : Nat} (v d : α) (h : n ≠ k) : (t.set k v).getD n d = t.getD n d := by
  simp [Table.getD, Table.get?_set_ne t v h]

theorem Table.getD_set (t : Table α) (k n : Nat) (v d : α) : (t.set k v).getD n d = if n = k then v else t.getD n d := by
  by_cases h : n = k
  · subst h; simp
  · simp [h, Table.getD_set_ne t v d h]

@[simp] theorem Table.has_set_same (t : Table α) (k : Nat) (v : α) : (t.set k v).has k = true := by simp [Table.has]

theorem Table.get?_mapVals (t : Table α) (f : Nat → α → α) (k : Nat) : (t.mapVals f).get? k = (t.get? k).map (f k) := by
  induction t with
  | nil => rfl
  | cons p t ih =>
    obtain ⟨j, w⟩ := p
    simp only [Table.mapVals, List.map_cons, Table.get?] at ih ⊢
    split
    · rename_i h; subst h; rfl
    · split
      · rfl
      · exact ih

theorem Table.getD_mapVals (t : Table α) (f : Nat → α → α) (k : Nat) (d : α) (h : f k d = d) :
    (t.mapVals f).getD k d = f k (t.getD k d) := by
  simp only [Table.getD, Table.get?_mapVals]
  cases t.get? k <;> simp [h]

@[simp] theorem Table.has_mapVals (t : Table α) (f : Nat → α → α) (k : Nat) : (t.mapVals f).has k = t.has k := by
  simp [Table.has, Table.get?_mapVals]

theorem Table.get?_filter_above (t : Table α) {k n : Nat} (h : k < n) :
    Table.get? (t.filter (fun x => decide (k < x.1))) n = t.get? n := by
  induction t with
  | nil => rfl
  | cons p t ih =>
    obtain ⟨j, w⟩ := p
    by_cases hj : k < j
    · simp [List.filter, hj, Table.get?, ih]
    · have h1 : j ≠ n := by omega
      have h2 : ¬ n < j := by omega
      simp [List.filter, hj, Table.get?, ih, h1, h2]

theorem Table.get?_filter_below (t : Table α) {k n : Nat} (h : n ≤ k) :
    Table.get? (t.filter (fun x => decide (k < x.1))) n = none := by
  induction t with
  | nil => rfl
  | cons p t ih =>
    obtain ⟨j, w⟩ := p
    by_cases hj : k < j
    · have h1 : j ≠ n := by omega
      have h2 : n < j := by omega
      simp [List.filter, hj, Table.get?, h1, h2]
    · simp [List.filter, hj, ih]

theorem Table.get?_del (t : Table α) (k n : Nat) : (t.del k).get? n = if n = k then none else t.get? n := by
  induction t with
  | nil => simp [Table.del, Table.get?]
  | cons p t ih =>
    obtain ⟨j, w⟩ := p
    unfold Table.del
    split
    · rename_i h1
      subst h1
      rcases Nat.lt_trichotomy n j with h | h | h
      · simp [Table.get?_filter_below t (Nat.le_of_lt h), Table.get?, h, Nat.ne_of_gt h]
      · subst h; simp [Table.get?_filter_below t (Nat.le_refl n)]
      · simp [Table.get?_filter_above t h, Table.get?, Nat.ne_of_gt h, Nat.ne_of_lt h, Nat.lt_asymm h]
    · split
      · rename_i h1 h2
        by_cases hn : n = k
        · subst hn; simp [Table.get?, h1, h2]
        · simp [hn]
      · rename_i h1 h2
        simp only [Table.get?]
        rw [ih]
        by_cases hn : n = k
        · subst hn; simp [h1, h2]
        · simp [hn]

end Sys2Proof.Machine
end

