-- ==== Sys2Proof/Laws/State.lean ====
section
/-! SUPPORT. What each field of the state is after each update of a column or a warp: one lemma per field per update, so that no later
proof unfolds a record update. -/

namespace Sys2Proof.Machine

variable (d : Dev) (c x : Nat) (f : Column → Column) (g : Warp → Warp) (k : Column) (w : Warp)

/-! ## putCol -/

@[simp] theorem Dev.putCol_now : (d.putCol c k).now = d.now := rfl
@[simp] theorem Dev.putCol_agenda : (d.putCol c k).agenda = d.agenda := rfl
@[simp] theorem Dev.putCol_cur : (d.putCol c k).cur = d.cur := rfl
@[simp] theorem Dev.putCol_issued : (d.putCol c k).issued = d.issued := rfl
@[simp] theorem Dev.putCol_free : (d.putCol c k).free = d.free := rfl
@[simp] theorem Dev.putCol_vaultPois : (d.putCol c k).vaultPois = d.vaultPois := rfl
@[simp] theorem Dev.putCol_inject : (d.putCol c k).inject = d.inject := rfl
@[simp] theorem Dev.putCol_ready : (d.putCol c k).ready = d.ready := rfl
@[simp] theorem Dev.putCol_capCols : (d.putCol c k).capCols = d.capCols := rfl
@[simp] theorem Dev.putCol_spares : (d.putCol c k).spares = d.spares := rfl
@[simp] theorem Dev.putCol_absent : (d.putCol c k).absent = d.absent := rfl
@[simp] theorem Dev.putCol_phys : (d.putCol c k).phys = d.phys := rfl
@[simp] theorem Dev.putCol_understudies : (d.putCol c k).understudies = d.understudies := rfl
@[simp] theorem Dev.putCol_boot : (d.putCol c k).boot = d.boot := rfl
@[simp] theorem Dev.putCol_bootFail : (d.putCol c k).bootFail = d.bootFail := rfl
@[simp] theorem Dev.putCol_readyEvents : (d.putCol c k).readyEvents = d.readyEvents := rfl
@[simp] theorem Dev.putCol_acks : (d.putCol c k).acks = d.acks := rfl
@[simp] theorem Dev.putCol_parts : (d.putCol c k).parts = d.parts := rfl
@[simp] theorem Dev.putCol_ctxs : (d.putCol c k).ctxs = d.ctxs := rfl
@[simp] theorem Dev.putCol_rings : (d.putCol c k).rings = d.rings := rfl
@[simp] theorem Dev.putCol_adminRing : (d.putCol c k).adminRing = d.adminRing := rfl
@[simp] theorem Dev.putCol_launches : (d.putCol c k).launches = d.launches := rfl
@[simp] theorem Dev.putCol_nextLaunch : (d.putCol c k).nextLaunch = d.nextLaunch := rfl
@[simp] theorem Dev.putCol_images : (d.putCol c k).images = d.images := rfl
@[simp] theorem Dev.putCol_bards : (d.putCol c k).bards = d.bards := rfl
@[simp] theorem Dev.putCol_tickets : (d.putCol c k).tickets = d.tickets := rfl
@[simp] theorem Dev.putCol_replays : (d.putCol c k).replays = d.replays := rfl
@[simp] theorem Dev.putCol_nextReplay : (d.putCol c k).nextReplay = d.nextReplay := rfl
@[simp] theorem Dev.putCol_wings : (d.putCol c k).wings = d.wings := rfl
@[simp] theorem Dev.putCol_resolutions : (d.putCol c k).resolutions = d.resolutions := rfl
@[simp] theorem Dev.putCol_faults : (d.putCol c k).faults = d.faults := rfl
@[simp] theorem Dev.putCol_errors : (d.putCol c k).errors = d.errors := rfl
@[simp] theorem Dev.putCol_eseq : (d.putCol c k).eseq = d.eseq := rfl
@[simp] theorem Dev.putCol_ports : (d.putCol c k).ports = d.ports := rfl
@[simp] theorem Dev.putCol_banks : (d.putCol c k).banks = d.banks := rfl
@[simp] theorem Dev.putCol_power : (d.putCol c k).power = d.power := rfl
@[simp] theorem Dev.putCol_rate : (d.putCol c k).rate = d.rate := rfl
@[simp] theorem Dev.putCol_junction : (d.putCol c k).junction = d.junction := rfl
@[simp] theorem Dev.putCol_inlet : (d.putCol c k).inlet = d.inlet := rfl
@[simp] theorem Dev.putCol_watts : (d.putCol c k).watts = d.watts := rfl
@[simp] theorem Dev.putCol_hotSince : (d.putCol c k).hotSince = d.hotSince := rfl
@[simp] theorem Dev.putCol_flashCfg : (d.putCol c k).flashCfg = d.flashCfg := rfl
@[simp] theorem Dev.putCol_flashFw : (d.putCol c k).flashFw = d.flashFw := rfl
@[simp] theorem Dev.putCol_stagedCfg : (d.putCol c k).stagedCfg = d.stagedCfg := rfl
@[simp] theorem Dev.putCol_stagedFw : (d.putCol c k).stagedFw = d.stagedFw := rfl
@[simp] theorem Dev.putCol_minVer : (d.putCol c k).minVer = d.minVer := rfl
@[simp] theorem Dev.putCol_debugger : (d.putCol c k).debugger = d.debugger := rfl
@[simp] theorem Dev.putCol_replies : (d.putCol c k).replies = d.replies := rfl

/-! ## modCol -/

@[simp] theorem Dev.modCol_now : (d.modCol c f).now = d.now := rfl
@[simp] theorem Dev.modCol_agenda : (d.modCol c f).agenda = d.agenda := rfl
@[simp] theorem Dev.modCol_cur : (d.modCol c f).cur = d.cur := rfl
@[simp] theorem Dev.modCol_issued : (d.modCol c f).issued = d.issued := rfl
@[simp] theorem Dev.modCol_free : (d.modCol c f).free = d.free := rfl
@[simp] theorem Dev.modCol_vaultPois : (d.modCol c f).vaultPois = d.vaultPois := rfl
@[simp] theorem Dev.modCol_inject : (d.modCol c f).inject = d.inject := rfl
@[simp] theorem Dev.modCol_ready : (d.modCol c f).ready = d.ready := rfl
@[simp] theorem Dev.modCol_capCols : (d.modCol c f).capCols = d.capCols := rfl
@[simp] theorem Dev.modCol_spares : (d.modCol c f).spares = d.spares := rfl
@[simp] theorem Dev.modCol_absent : (d.modCol c f).absent = d.absent := rfl
@[simp] theorem Dev.modCol_phys : (d.modCol c f).phys = d.phys := rfl
@[simp] theorem Dev.modCol_understudies : (d.modCol c f).understudies = d.understudies := rfl
@[simp] theorem Dev.modCol_boot : (d.modCol c f).boot = d.boot := rfl
@[simp] theorem Dev.modCol_bootFail : (d.modCol c f).bootFail = d.bootFail := rfl
@[simp] theorem Dev.modCol_readyEvents : (d.modCol c f).readyEvents = d.readyEvents := rfl
@[simp] theorem Dev.modCol_acks : (d.modCol c f).acks = d.acks := rfl
@[simp] theorem Dev.modCol_parts : (d.modCol c f).parts = d.parts := rfl
@[simp] theorem Dev.modCol_ctxs : (d.modCol c f).ctxs = d.ctxs := rfl
@[simp] theorem Dev.modCol_rings : (d.modCol c f).rings = d.rings := rfl
@[simp] theorem Dev.modCol_adminRing : (d.modCol c f).adminRing = d.adminRing := rfl
@[simp] theorem Dev.modCol_launches : (d.modCol c f).launches = d.launches := rfl
@[simp] theorem Dev.modCol_nextLaunch : (d.modCol c f).nextLaunch = d.nextLaunch := rfl
@[simp] theorem Dev.modCol_images : (d.modCol c f).images = d.images := rfl
@[simp] theorem Dev.modCol_bards : (d.modCol c f).bards = d.bards := rfl
@[simp] theorem Dev.modCol_tickets : (d.modCol c f).tickets = d.tickets := rfl
@[simp] theorem Dev.modCol_replays : (d.modCol c f).replays = d.replays := rfl
@[simp] theorem Dev.modCol_nextReplay : (d.modCol c f).nextReplay = d.nextReplay := rfl
@[simp] theorem Dev.modCol_wings : (d.modCol c f).wings = d.wings := rfl
@[simp] theorem Dev.modCol_resolutions : (d.modCol c f).resolutions = d.resolutions := rfl
@[simp] theorem Dev.modCol_faults : (d.modCol c f).faults = d.faults := rfl
@[simp] theorem Dev.modCol_errors : (d.modCol c f).errors = d.errors := rfl
@[simp] theorem Dev.modCol_eseq : (d.modCol c f).eseq = d.eseq := rfl
@[simp] theorem Dev.modCol_ports : (d.modCol c f).ports = d.ports := rfl
@[simp] theorem Dev.modCol_banks : (d.modCol c f).banks = d.banks := rfl
@[simp] theorem Dev.modCol_power : (d.modCol c f).power = d.power := rfl
@[simp] theorem Dev.modCol_rate : (d.modCol c f).rate = d.rate := rfl
@[simp] theorem Dev.modCol_junction : (d.modCol c f).junction = d.junction := rfl
@[simp] theorem Dev.modCol_inlet : (d.modCol c f).inlet = d.inlet := rfl
@[simp] theorem Dev.modCol_watts : (d.modCol c f).watts = d.watts := rfl
@[simp] theorem Dev.modCol_hotSince : (d.modCol c f).hotSince = d.hotSince := rfl
@[simp] theorem Dev.modCol_flashCfg : (d.modCol c f).flashCfg = d.flashCfg := rfl
@[simp] theorem Dev.modCol_flashFw : (d.modCol c f).flashFw = d.flashFw := rfl
@[simp] theorem Dev.modCol_stagedCfg : (d.modCol c f).stagedCfg = d.stagedCfg := rfl
@[simp] theorem Dev.modCol_stagedFw : (d.modCol c f).stagedFw = d.stagedFw := rfl
@[simp] theorem Dev.modCol_minVer : (d.modCol c f).minVer = d.minVer := rfl
@[simp] theorem Dev.modCol_debugger : (d.modCol c f).debugger = d.debugger := rfl
@[simp] theorem Dev.modCol_replies : (d.modCol c f).replies = d.replies := rfl

/-! ## putWarp -/

@[simp] theorem Dev.putWarp_now : (d.putWarp c x w).now = d.now := rfl
@[simp] theorem Dev.putWarp_agenda : (d.putWarp c x w).agenda = d.agenda := rfl
@[simp] theorem Dev.putWarp_cur : (d.putWarp c x w).cur = d.cur := rfl
@[simp] theorem Dev.putWarp_issued : (d.putWarp c x w).issued = d.issued := rfl
@[simp] theorem Dev.putWarp_free : (d.putWarp c x w).free = d.free := rfl
@[simp] theorem Dev.putWarp_vaultPois : (d.putWarp c x w).vaultPois = d.vaultPois := rfl
@[simp] theorem Dev.putWarp_inject : (d.putWarp c x w).inject = d.inject := rfl
@[simp] theorem Dev.putWarp_ready : (d.putWarp c x w).ready = d.ready := rfl
@[simp] theorem Dev.putWarp_capCols : (d.putWarp c x w).capCols = d.capCols := rfl
@[simp] theorem Dev.putWarp_spares : (d.putWarp c x w).spares = d.spares := rfl
@[simp] theorem Dev.putWarp_absent : (d.putWarp c x w).absent = d.absent := rfl
@[simp] theorem Dev.putWarp_phys : (d.putWarp c x w).phys = d.phys := rfl
@[simp] theorem Dev.putWarp_understudies : (d.putWarp c x w).understudies = d.understudies := rfl
@[simp] theorem Dev.putWarp_boot : (d.putWarp c x w).boot = d.boot := rfl
@[simp] theorem Dev.putWarp_bootFail : (d.putWarp c x w).bootFail = d.bootFail := rfl
@[simp] theorem Dev.putWarp_readyEvents : (d.putWarp c x w).readyEvents = d.readyEvents := rfl
@[simp] theorem Dev.putWarp_acks : (d.putWarp c x w).acks = d.acks := rfl
@[simp] theorem Dev.putWarp_parts : (d.putWarp c x w).parts = d.parts := rfl
@[simp] theorem Dev.putWarp_ctxs : (d.putWarp c x w).ctxs = d.ctxs := rfl
@[simp] theorem Dev.putWarp_rings : (d.putWarp c x w).rings = d.rings := rfl
@[simp] theorem Dev.putWarp_adminRing : (d.putWarp c x w).adminRing = d.adminRing := rfl
@[simp] theorem Dev.putWarp_launches : (d.putWarp c x w).launches = d.launches := rfl
@[simp] theorem Dev.putWarp_nextLaunch : (d.putWarp c x w).nextLaunch = d.nextLaunch := rfl
@[simp] theorem Dev.putWarp_images : (d.putWarp c x w).images = d.images := rfl
@[simp] theorem Dev.putWarp_bards : (d.putWarp c x w).bards = d.bards := rfl
@[simp] theorem Dev.putWarp_tickets : (d.putWarp c x w).tickets = d.tickets := rfl
@[simp] theorem Dev.putWarp_replays : (d.putWarp c x w).replays = d.replays := rfl
@[simp] theorem Dev.putWarp_nextReplay : (d.putWarp c x w).nextReplay = d.nextReplay := rfl
@[simp] theorem Dev.putWarp_wings : (d.putWarp c x w).wings = d.wings := rfl
@[simp] theorem Dev.putWarp_resolutions : (d.putWarp c x w).resolutions = d.resolutions := rfl
@[simp] theorem Dev.putWarp_faults : (d.putWarp c x w).faults = d.faults := rfl
@[simp] theorem Dev.putWarp_errors : (d.putWarp c x w).errors = d.errors := rfl
@[simp] theorem Dev.putWarp_eseq : (d.putWarp c x w).eseq = d.eseq := rfl
@[simp] theorem Dev.putWarp_ports : (d.putWarp c x w).ports = d.ports := rfl
@[simp] theorem Dev.putWarp_banks : (d.putWarp c x w).banks = d.banks := rfl
@[simp] theorem Dev.putWarp_power : (d.putWarp c x w).power = d.power := rfl
@[simp] theorem Dev.putWarp_rate : (d.putWarp c x w).rate = d.rate := rfl
@[simp] theorem Dev.putWarp_junction : (d.putWarp c x w).junction = d.junction := rfl
@[simp] theorem Dev.putWarp_inlet : (d.putWarp c x w).inlet = d.inlet := rfl
@[simp] theorem Dev.putWarp_watts : (d.putWarp c x w).watts = d.watts := rfl
@[simp] theorem Dev.putWarp_hotSince : (d.putWarp c x w).hotSince = d.hotSince := rfl
@[simp] theorem Dev.putWarp_flashCfg : (d.putWarp c x w).flashCfg = d.flashCfg := rfl
@[simp] theorem Dev.putWarp_flashFw : (d.putWarp c x w).flashFw = d.flashFw := rfl
@[simp] theorem Dev.putWarp_stagedCfg : (d.putWarp c x w).stagedCfg = d.stagedCfg := rfl
@[simp] theorem Dev.putWarp_stagedFw : (d.putWarp c x w).stagedFw = d.stagedFw := rfl
@[simp] theorem Dev.putWarp_minVer : (d.putWarp c x w).minVer = d.minVer := rfl
@[simp] theorem Dev.putWarp_debugger : (d.putWarp c x w).debugger = d.debugger := rfl
@[simp] theorem Dev.putWarp_replies : (d.putWarp c x w).replies = d.replies := rfl

/-! ## modWarp -/

@[simp] theorem Dev.modWarp_now : (d.modWarp c x g).now = d.now := rfl
@[simp] theorem Dev.modWarp_agenda : (d.modWarp c x g).agenda = d.agenda := rfl
@[simp] theorem Dev.modWarp_cur : (d.modWarp c x g).cur = d.cur := rfl
@[simp] theorem Dev.modWarp_issued : (d.modWarp c x g).issued = d.issued := rfl
@[simp] theorem Dev.modWarp_free : (d.modWarp c x g).free = d.free := rfl
@[simp] theorem Dev.modWarp_vaultPois : (d.modWarp c x g).vaultPois = d.vaultPois := rfl
@[simp] theorem Dev.modWarp_inject : (d.modWarp c x g).inject = d.inject := rfl
@[simp] theorem Dev.modWarp_ready : (d.modWarp c x g).ready = d.ready := rfl
@[simp] theorem Dev.modWarp_capCols : (d.modWarp c x g).capCols = d.capCols := rfl
@[simp] theorem Dev.modWarp_spares : (d.modWarp c x g).spares = d.spares := rfl
@[simp] theorem Dev.modWarp_absent : (d.modWarp c x g).absent = d.absent := rfl
@[simp] theorem Dev.modWarp_phys : (d.modWarp c x g).phys = d.phys := rfl
@[simp] theorem Dev.modWarp_understudies : (d.modWarp c x g).understudies = d.understudies := rfl
@[simp] theorem Dev.modWarp_boot : (d.modWarp c x g).boot = d.boot := rfl
@[simp] theorem Dev.modWarp_bootFail : (d.modWarp c x g).bootFail = d.bootFail := rfl
@[simp] theorem Dev.modWarp_readyEvents : (d.modWarp c x g).readyEvents = d.readyEvents := rfl
@[simp] theorem Dev.modWarp_acks : (d.modWarp c x g).acks = d.acks := rfl
@[simp] theorem Dev.modWarp_parts : (d.modWarp c x g).parts = d.parts := rfl
@[simp] theorem Dev.modWarp_ctxs : (d.modWarp c x g).ctxs = d.ctxs := rfl
@[simp] theorem Dev.modWarp_rings : (d.modWarp c x g).rings = d.rings := rfl
@[simp] theorem Dev.modWarp_adminRing : (d.modWarp c x g).adminRing = d.adminRing := rfl
@[simp] theorem Dev.modWarp_launches : (d.modWarp c x g).launches = d.launches := rfl
@[simp] theorem Dev.modWarp_nextLaunch : (d.modWarp c x g).nextLaunch = d.nextLaunch := rfl
@[simp] theorem Dev.modWarp_images : (d.modWarp c x g).images = d.images := rfl
@[simp] theorem Dev.modWarp_bards : (d.modWarp c x g).bards = d.bards := rfl
@[simp] theorem Dev.modWarp_tickets : (d.modWarp c x g).tickets = d.tickets := rfl
@[simp] theorem Dev.modWarp_replays : (d.modWarp c x g).replays = d.replays := rfl
@[simp] theorem Dev.modWarp_nextReplay : (d.modWarp c x g).nextReplay = d.nextReplay := rfl
@[simp] theorem Dev.modWarp_wings : (d.modWarp c x g).wings = d.wings := rfl
@[simp] theorem Dev.modWarp_resolutions : (d.modWarp c x g).resolutions = d.resolutions := rfl
@[simp] theorem Dev.modWarp_faults : (d.modWarp c x g).faults = d.faults := rfl
@[simp] theorem Dev.modWarp_errors : (d.modWarp c x g).errors = d.errors := rfl
@[simp] theorem Dev.modWarp_eseq : (d.modWarp c x g).eseq = d.eseq := rfl
@[simp] theorem Dev.modWarp_ports : (d.modWarp c x g).ports = d.ports := rfl
@[simp] theorem Dev.modWarp_banks : (d.modWarp c x g).banks = d.banks := rfl
@[simp] theorem Dev.modWarp_power : (d.modWarp c x g).power = d.power := rfl
@[simp] theorem Dev.modWarp_rate : (d.modWarp c x g).rate = d.rate := rfl
@[simp] theorem Dev.modWarp_junction : (d.modWarp c x g).junction = d.junction := rfl
@[simp] theorem Dev.modWarp_inlet : (d.modWarp c x g).inlet = d.inlet := rfl
@[simp] theorem Dev.modWarp_watts : (d.modWarp c x g).watts = d.watts := rfl
@[simp] theorem Dev.modWarp_hotSince : (d.modWarp c x g).hotSince = d.hotSince := rfl
@[simp] theorem Dev.modWarp_flashCfg : (d.modWarp c x g).flashCfg = d.flashCfg := rfl
@[simp] theorem Dev.modWarp_flashFw : (d.modWarp c x g).flashFw = d.flashFw := rfl
@[simp] theorem Dev.modWarp_stagedCfg : (d.modWarp c x g).stagedCfg = d.stagedCfg := rfl
@[simp] theorem Dev.modWarp_stagedFw : (d.modWarp c x g).stagedFw = d.stagedFw := rfl
@[simp] theorem Dev.modWarp_minVer : (d.modWarp c x g).minVer = d.minVer := rfl
@[simp] theorem Dev.modWarp_debugger : (d.modWarp c x g).debugger = d.debugger := rfl
@[simp] theorem Dev.modWarp_replies : (d.modWarp c x g).replies = d.replies := rfl

/-! ## modCurWarp -/

@[simp] theorem Dev.modCurWarp_now : (d.modCurWarp g).now = d.now := rfl
@[simp] theorem Dev.modCurWarp_agenda : (d.modCurWarp g).agenda = d.agenda := rfl
@[simp] theorem Dev.modCurWarp_cur : (d.modCurWarp g).cur = d.cur := rfl
@[simp] theorem Dev.modCurWarp_issued : (d.modCurWarp g).issued = d.issued := rfl
@[simp] theorem Dev.modCurWarp_free : (d.modCurWarp g).free = d.free := rfl
@[simp] theorem Dev.modCurWarp_vaultPois : (d.modCurWarp g).vaultPois = d.vaultPois := rfl
@[simp] theorem Dev.modCurWarp_inject : (d.modCurWarp g).inject = d.inject := rfl
@[simp] theorem Dev.modCurWarp_ready : (d.modCurWarp g).ready = d.ready := rfl
@[simp] theorem Dev.modCurWarp_capCols : (d.modCurWarp g).capCols = d.capCols := rfl
@[simp] theorem Dev.modCurWarp_spares : (d.modCurWarp g).spares = d.spares := rfl
@[simp] theorem Dev.modCurWarp_absent : (d.modCurWarp g).absent = d.absent := rfl
@[simp] theorem Dev.modCurWarp_phys : (d.modCurWarp g).phys = d.phys := rfl
@[simp] theorem Dev.modCurWarp_understudies : (d.modCurWarp g).understudies = d.understudies := rfl
@[simp] theorem Dev.modCurWarp_boot : (d.modCurWarp g).boot = d.boot := rfl
@[simp] theorem Dev.modCurWarp_bootFail : (d.modCurWarp g).bootFail = d.bootFail := rfl
@[simp] theorem Dev.modCurWarp_readyEvents : (d.modCurWarp g).readyEvents = d.readyEvents := rfl
@[simp] theorem Dev.modCurWarp_acks : (d.modCurWarp g).acks = d.acks := rfl
@[simp] theorem Dev.modCurWarp_parts : (d.modCurWarp g).parts = d.parts := rfl
@[simp] theorem Dev.modCurWarp_ctxs : (d.modCurWarp g).ctxs = d.ctxs := rfl
@[simp] theorem Dev.modCurWarp_rings : (d.modCurWarp g).rings = d.rings := rfl
@[simp] theorem Dev.modCurWarp_adminRing : (d.modCurWarp g).adminRing = d.adminRing := rfl
@[simp] theorem Dev.modCurWarp_launches : (d.modCurWarp g).launches = d.launches := rfl
@[simp] theorem Dev.modCurWarp_nextLaunch : (d.modCurWarp g).nextLaunch = d.nextLaunch := rfl
@[simp] theorem Dev.modCurWarp_images : (d.modCurWarp g).images = d.images := rfl
@[simp] theorem Dev.modCurWarp_bards : (d.modCurWarp g).bards = d.bards := rfl
@[simp] theorem Dev.modCurWarp_tickets : (d.modCurWarp g).tickets = d.tickets := rfl
@[simp] theorem Dev.modCurWarp_replays : (d.modCurWarp g).replays = d.replays := rfl
@[simp] theorem Dev.modCurWarp_nextReplay : (d.modCurWarp g).nextReplay = d.nextReplay := rfl
@[simp] theorem Dev.modCurWarp_wings : (d.modCurWarp g).wings = d.wings := rfl
@[simp] theorem Dev.modCurWarp_resolutions : (d.modCurWarp g).resolutions = d.resolutions := rfl
@[simp] theorem Dev.modCurWarp_faults : (d.modCurWarp g).faults = d.faults := rfl
@[simp] theorem Dev.modCurWarp_errors : (d.modCurWarp g).errors = d.errors := rfl
@[simp] theorem Dev.modCurWarp_eseq : (d.modCurWarp g).eseq = d.eseq := rfl
@[simp] theorem Dev.modCurWarp_ports : (d.modCurWarp g).ports = d.ports := rfl
@[simp] theorem Dev.modCurWarp_banks : (d.modCurWarp g).banks = d.banks := rfl
@[simp] theorem Dev.modCurWarp_power : (d.modCurWarp g).power = d.power := rfl
@[simp] theorem Dev.modCurWarp_rate : (d.modCurWarp g).rate = d.rate := rfl
@[simp] theorem Dev.modCurWarp_junction : (d.modCurWarp g).junction = d.junction := rfl
@[simp] theorem Dev.modCurWarp_inlet : (d.modCurWarp g).inlet = d.inlet := rfl
@[simp] theorem Dev.modCurWarp_watts : (d.modCurWarp g).watts = d.watts := rfl
@[simp] theorem Dev.modCurWarp_hotSince : (d.modCurWarp g).hotSince = d.hotSince := rfl
@[simp] theorem Dev.modCurWarp_flashCfg : (d.modCurWarp g).flashCfg = d.flashCfg := rfl
@[simp] theorem Dev.modCurWarp_flashFw : (d.modCurWarp g).flashFw = d.flashFw := rfl
@[simp] theorem Dev.modCurWarp_stagedCfg : (d.modCurWarp g).stagedCfg = d.stagedCfg := rfl
@[simp] theorem Dev.modCurWarp_stagedFw : (d.modCurWarp g).stagedFw = d.stagedFw := rfl
@[simp] theorem Dev.modCurWarp_minVer : (d.modCurWarp g).minVer = d.minVer := rfl
@[simp] theorem Dev.modCurWarp_debugger : (d.modCurWarp g).debugger = d.debugger := rfl
@[simp] theorem Dev.modCurWarp_replies : (d.modCurWarp g).replies = d.replies := rfl

/-! ## modCurCol -/

@[simp] theorem Dev.modCurCol_now : (d.modCurCol f).now = d.now := rfl
@[simp] theorem Dev.modCurCol_agenda : (d.modCurCol f).agenda = d.agenda := rfl
@[simp] theorem Dev.modCurCol_cur : (d.modCurCol f).cur = d.cur := rfl
@[simp] theorem Dev.modCurCol_issued : (d.modCurCol f).issued = d.issued := rfl
@[simp] theorem Dev.modCurCol_free : (d.modCurCol f).free = d.free := rfl
@[simp] theorem Dev.modCurCol_vaultPois : (d.modCurCol f).vaultPois = d.vaultPois := rfl
@[simp] theorem Dev.modCurCol_inject : (d.modCurCol f).inject = d.inject := rfl
@[simp] theorem Dev.modCurCol_ready : (d.modCurCol f).ready = d.ready := rfl
@[simp] theorem Dev.modCurCol_capCols : (d.modCurCol f).capCols = d.capCols := rfl
@[simp] theorem Dev.modCurCol_spares : (d.modCurCol f).spares = d.spares := rfl
@[simp] theorem Dev.modCurCol_absent : (d.modCurCol f).absent = d.absent := rfl
@[simp] theorem Dev.modCurCol_phys : (d.modCurCol f).phys = d.phys := rfl
@[simp] theorem Dev.modCurCol_understudies : (d.modCurCol f).understudies = d.understudies := rfl
@[simp] theorem Dev.modCurCol_boot : (d.modCurCol f).boot = d.boot := rfl
@[simp] theorem Dev.modCurCol_bootFail : (d.modCurCol f).bootFail = d.bootFail := rfl
@[simp] theorem Dev.modCurCol_readyEvents : (d.modCurCol f).readyEvents = d.readyEvents := rfl
@[simp] theorem Dev.modCurCol_acks : (d.modCurCol f).acks = d.acks := rfl
@[simp] theorem Dev.modCurCol_parts : (d.modCurCol f).parts = d.parts := rfl
@[simp] theorem Dev.modCurCol_ctxs : (d.modCurCol f).ctxs = d.ctxs := rfl
@[simp] theorem Dev.modCurCol_rings : (d.modCurCol f).rings = d.rings := rfl
@[simp] theorem Dev.modCurCol_adminRing : (d.modCurCol f).adminRing = d.adminRing := rfl
@[simp] theorem Dev.modCurCol_launches : (d.modCurCol f).launches = d.launches := rfl
@[simp] theorem Dev.modCurCol_nextLaunch : (d.modCurCol f).nextLaunch = d.nextLaunch := rfl
@[simp] theorem Dev.modCurCol_images : (d.modCurCol f).images = d.images := rfl
@[simp] theorem Dev.modCurCol_bards : (d.modCurCol f).bards = d.bards := rfl
@[simp] theorem Dev.modCurCol_tickets : (d.modCurCol f).tickets = d.tickets := rfl
@[simp] theorem Dev.modCurCol_replays : (d.modCurCol f).replays = d.replays := rfl
@[simp] theorem Dev.modCurCol_nextReplay : (d.modCurCol f).nextReplay = d.nextReplay := rfl
@[simp] theorem Dev.modCurCol_wings : (d.modCurCol f).wings = d.wings := rfl
@[simp] theorem Dev.modCurCol_resolutions : (d.modCurCol f).resolutions = d.resolutions := rfl
@[simp] theorem Dev.modCurCol_faults : (d.modCurCol f).faults = d.faults := rfl
@[simp] theorem Dev.modCurCol_errors : (d.modCurCol f).errors = d.errors := rfl
@[simp] theorem Dev.modCurCol_eseq : (d.modCurCol f).eseq = d.eseq := rfl
@[simp] theorem Dev.modCurCol_ports : (d.modCurCol f).ports = d.ports := rfl
@[simp] theorem Dev.modCurCol_banks : (d.modCurCol f).banks = d.banks := rfl
@[simp] theorem Dev.modCurCol_power : (d.modCurCol f).power = d.power := rfl
@[simp] theorem Dev.modCurCol_rate : (d.modCurCol f).rate = d.rate := rfl
@[simp] theorem Dev.modCurCol_junction : (d.modCurCol f).junction = d.junction := rfl
@[simp] theorem Dev.modCurCol_inlet : (d.modCurCol f).inlet = d.inlet := rfl
@[simp] theorem Dev.modCurCol_watts : (d.modCurCol f).watts = d.watts := rfl
@[simp] theorem Dev.modCurCol_hotSince : (d.modCurCol f).hotSince = d.hotSince := rfl
@[simp] theorem Dev.modCurCol_flashCfg : (d.modCurCol f).flashCfg = d.flashCfg := rfl
@[simp] theorem Dev.modCurCol_flashFw : (d.modCurCol f).flashFw = d.flashFw := rfl
@[simp] theorem Dev.modCurCol_stagedCfg : (d.modCurCol f).stagedCfg = d.stagedCfg := rfl
@[simp] theorem Dev.modCurCol_stagedFw : (d.modCurCol f).stagedFw = d.stagedFw := rfl
@[simp] theorem Dev.modCurCol_minVer : (d.modCurCol f).minVer = d.minVer := rfl
@[simp] theorem Dev.modCurCol_debugger : (d.modCurCol f).debugger = d.debugger := rfl
@[simp] theorem Dev.modCurCol_replies : (d.modCurCol f).replies = d.replies := rfl

/-! ## A warp put into a column -/

@[simp] theorem Column.putWarp_poolReg : (k.putWarp x w).poolReg = k.poolReg := rfl
@[simp] theorem Column.putWarp_poolSpad : (k.putWarp x w).poolSpad = k.poolSpad := rfl
@[simp] theorem Column.putWarp_poolAcc : (k.putWarp x w).poolAcc = k.poolAcc := rfl
@[simp] theorem Column.putWarp_regions : (k.putWarp x w).regions = k.regions := rfl
@[simp] theorem Column.putWarp_gangs : (k.putWarp x w).gangs = k.gangs := rfl
@[simp] theorem Column.putWarp_pool : (k.putWarp x w).pool = k.pool := rfl
@[simp] theorem Column.putWarp_bsram : (k.putWarp x w).bsram = k.bsram := rfl
@[simp] theorem Column.putWarp_undef : (k.putWarp x w).undef = k.undef := rfl
@[simp] theorem Column.putWarp_bars : (k.putWarp x w).bars = k.bars := rfl
@[simp] theorem Column.putWarp_l1 : (k.putWarp x w).l1 = k.l1 := rfl
@[simp] theorem Column.putWarp_l2 : (k.putWarp x w).l2 = k.l2 := rfl
@[simp] theorem Column.putWarp_horizon : (k.putWarp x w).horizon = k.horizon := rfl
@[simp] theorem Column.putWarp_l2Bypass : (k.putWarp x w).l2Bypass = k.l2Bypass := rfl
@[simp] theorem Column.putWarp_vrCount : (k.putWarp x w).vrCount = k.vrCount := rfl
@[simp] theorem Column.putWarp_watches : (k.putWarp x w).watches = k.watches := rfl
@[simp] theorem Column.putWarp_tlb : (k.putWarp x w).tlb = k.tlb := rfl
@[simp] theorem Column.putWarp_code : (k.putWarp x w).code = k.code := rfl
@[simp] theorem Column.putWarp_objs : (k.putWarp x w).objs = k.objs := rfl
@[simp] theorem Column.putWarp_ops : (k.putWarp x w).ops = k.ops := rfl
@[simp] theorem Column.putWarp_nextOp : (k.putWarp x w).nextOp = k.nextOp := rfl
@[simp] theorem Column.putWarp_log : (k.putWarp x w).log = k.log := rfl
@[simp] theorem Column.putWarp_lseq : (k.putWarp x w).lseq = k.lseq := rfl
@[simp] theorem Column.putWarp_filter : (k.putWarp x w).filter = k.filter := rfl
@[simp] theorem Column.putWarp_tracker : (k.putWarp x w).tracker = k.tracker := rfl
@[simp] theorem Column.putWarp_rings : (k.putWarp x w).rings = k.rings := rfl
@[simp] theorem Column.putWarp_outbuf : (k.putWarp x w).outbuf = k.outbuf := rfl
@[simp] theorem Column.putWarp_turned : (k.putWarp x w).turned = k.turned := rfl
@[simp] theorem Column.putWarp_reports : (k.putWarp x w).reports = k.reports := rfl
@[simp] theorem Column.putWarp_xchs : (k.putWarp x w).xchs = k.xchs := rfl
@[simp] theorem Column.putWarp_xbuf : (k.putWarp x w).xbuf = k.xbuf := rfl
@[simp] theorem Column.putWarp_tileQ : (k.putWarp x w).tileQ = k.tileQ := rfl
@[simp] theorem Column.putWarp_yielded : (k.putWarp x w).yielded = k.yielded := rfl
@[simp] theorem Column.putWarp_copies : (k.putWarp x w).copies = k.copies := rfl
@[simp] theorem Column.putWarp_hand : (k.putWarp x w).hand = k.hand := rfl
@[simp] theorem Column.putWarp_started : (k.putWarp x w).started = k.started := rfl
@[simp] theorem Column.putWarp_rehearsal : (k.putWarp x w).rehearsal = k.rehearsal := rfl
@[simp] theorem Column.putWarp_rehearsing : (k.putWarp x w).rehearsing = k.rehearsing := rfl
@[simp] theorem Column.putWarp_rehearseQ : (k.putWarp x w).rehearseQ = k.rehearseQ := rfl
@[simp] theorem Column.putWarp_halted : (k.putWarp x w).halted = k.halted := rfl
@[simp] theorem Column.putWarp_gated : (k.putWarp x w).gated = k.gated := rfl
@[simp] theorem Column.putWarp_lastIssue : (k.putWarp x w).lastIssue = k.lastIssue := rfl
@[simp] theorem Column.putWarp_stableSent : (k.putWarp x w).stableSent = k.stableSent := rfl
@[simp] theorem Column.putWarp_rangeSent : (k.putWarp x w).rangeSent = k.rangeSent := rfl
@[simp] theorem Column.putWarp_busyEnd : (k.putWarp x w).busyEnd = k.busyEnd := rfl
@[simp] theorem Column.putWarp_was : (k.putWarp x w).was = k.was := rfl
@[simp] theorem Column.putWarp_oldPtes : (k.putWarp x w).oldPtes = k.oldPtes := rfl
@[simp] theorem Column.putWarp_past : (k.putWarp x w).past = k.past := rfl
@[simp] theorem Column.putWarp_opps : (k.putWarp x w).opps = k.opps := rfl
@[simp] theorem Column.putWarp_lastEnter : (k.putWarp x w).lastEnter = k.lastEnter := rfl
@[simp] theorem Column.putWarp_readied : (k.putWarp x w).readied = k.readied := rfl
@[simp] theorem Column.putWarp_hwErrs : (k.putWarp x w).hwErrs = k.hwErrs := rfl
@[simp] theorem Column.putWarp_retiring : (k.putWarp x w).retiring = k.retiring := rfl

/-! ## Reads of columns and warps -/

@[simp] theorem Dev.col_putCol : (d.putCol c k).col c = k := by simp [Dev.putCol, Dev.col]

theorem Dev.col_putCol_ne {e : Nat} (h : e ≠ c) : (d.putCol c k).col e = d.col e := by
  simp [Dev.putCol, Dev.col, Table.getD_set_ne _ _ _ h]

@[simp] theorem Dev.col_modCol : (d.modCol c f).col c = f (d.col c) := by simp [Dev.modCol]

theorem Dev.col_modCol_ne {e : Nat} (h : e ≠ c) : (d.modCol c f).col e = d.col e := by simp [Dev.modCol, Dev.col_putCol_ne _ _ _ h]

@[simp] theorem Column.warp_putWarp : (k.putWarp x w).warp x = w := by simp [Column.putWarp, Column.warp]

theorem Column.warp_putWarp_ne {y : Nat} (h : y ≠ x) : (k.putWarp x w).warp y = k.warp y := by
  simp [Column.putWarp, Column.warp, Table.getD_set_ne _ _ _ h]

@[simp] theorem Dev.warp_putWarp : (d.putWarp c x w).warp c x = w := by simp [Dev.putWarp, Dev.warp]

@[simp] theorem Dev.warp_modWarp : (d.modWarp c x g).warp c x = g (d.warp c x) := by simp [Dev.modWarp]

theorem Dev.warp_modWarp_ne {e y : Nat} (h : e ≠ c ∨ y ≠ x) : (d.modWarp c x g).warp e y = d.warp e y := by
  by_cases he : e = c
  · subst he
    have hy : y ≠ x := by simpa using h
    simp [Dev.modWarp, Dev.putWarp, Dev.warp, Column.warp_putWarp_ne _ _ _ hy]
  · simp [Dev.modWarp, Dev.putWarp, Dev.warp, Dev.col_modCol_ne _ _ _ he]

@[simp] theorem Dev.curWarp_modCurWarp : (d.modCurWarp g).curWarp = g d.curWarp := by simp [Dev.modCurWarp, Dev.curWarp]

@[simp] theorem Dev.curCol_modCurCol : (d.modCurCol f).curCol = f d.curCol := by simp [Dev.modCurCol, Dev.curCol]

end Sys2Proof.Machine
end

