-- ==== Sys2Proof/Laws/Fetch.lean ====
section
/-! SUPPORT. What a read at a home slice, a translation, a fetch and a target check leave alone: the issuing instruction's place, the clock,
and every warp (R37, R99, R101, R204). -/

namespace Sys2Proof.Machine

/-- A column without its caches of lines, code and translations, and without the times of its banks. -/
def Column.kept (k : Column) : Column :=
  { k with
    l2 := [], horizon := Vector.replicate 4 0, l2Bypass := 0, tlb := [], code := [],
    hand := { k.hand with openRow := [], banks := { free := 0, busy := [], run := none, windows := [], kept := [], olds := [] } } }

/-- The device without its columns, the free counter, and what an error found in a vault leaves: poison, counts and records. -/
def Dev.kept (d : Dev) : Dev :=
  { d with
    cols := [], free := 0, vaultPois := [], inject := [], errors := [], eseq := Vector.replicate 4 0, banks := [],
    adminRing := RingBlock.start }

/-- Two devices differ at most in caches, the free counter, and what an error found in a vault leaves. -/
structure SameWarps (d e : Dev) : Prop where
  dev  : e.kept = d.kept
  cols : ∀ c, (e.col c).kept = (d.col c).kept

theorem SameWarps.refl (d : Dev) : SameWarps d d := ⟨rfl, fun _ => rfl⟩

theorem SameWarps.trans {d e f : Dev} (h : SameWarps d e) (g : SameWarps e f) : SameWarps d f :=
  ⟨g.dev.trans h.dev, fun c => (g.cols c).trans (h.cols c)⟩

theorem SameWarps.cur {d e : Dev} (h : SameWarps d e) : e.cur = d.cur := (congrArg Dev.cur h.dev :)
theorem SameWarps.now {d e : Dev} (h : SameWarps d e) : e.now = d.now := (congrArg Dev.now h.dev :)
theorem SameWarps.agenda {d e : Dev} (h : SameWarps d e) : e.agenda = d.agenda := (congrArg Dev.agenda h.dev :)
theorem SameWarps.launches {d e : Dev} (h : SameWarps d e) : e.launches = d.launches := (congrArg Dev.launches h.dev :)
theorem SameWarps.warps {d e : Dev} (h : SameWarps d e) (c : Nat) : (e.col c).warps = (d.col c).warps := (congrArg Column.warps (h.cols c) :)
theorem SameWarps.regions {d e : Dev} (h : SameWarps d e) (c : Nat) : (e.col c).regions = (d.col c).regions := (congrArg Column.regions (h.cols c) :)
theorem SameWarps.ops {d e : Dev} (h : SameWarps d e) (c : Nat) : (e.col c).ops = (d.col c).ops := (congrArg Column.ops (h.cols c) :)
theorem SameWarps.log {d e : Dev} (h : SameWarps d e) (c : Nat) : (e.col c).log = (d.col c).log := (congrArg Column.log (h.cols c) :)

theorem SameWarps.warp {d e : Dev} (h : SameWarps d e) (c x : Nat) : e.warp c x = d.warp c x := by
  simp only [Dev.warp, Column.warp, h.warps c]

theorem SameWarps.curWarp {d e : Dev} (h : SameWarps d e) : e.curWarp = d.curWarp := by
  simp only [Dev.curWarp, h.cur, h.warp]

theorem SameWarps.curRec {d e : Dev} (h : SameWarps d e) : e.curRec = d.curRec := by
  simp only [Dev.curRec, Dev.launchRec, h.curWarp, h.launches]

theorem SameWarps.ofCol (d : Dev) (c : Nat) (k : Column) (h : k.kept = (d.col c).kept) : SameWarps d (d.putCol c k) := by
  refine ⟨rfl, fun e => ?_⟩
  by_cases he : e = c
  · subst he; simp [h]
  · simp [Dev.col_putCol_ne _ _ _ he]

theorem SameWarps.modCol (d : Dev) (c : Nat) (f : Column → Column) (h : (f (d.col c)).kept = (d.col c).kept) :
    SameWarps d (d.modCol c f) := SameWarps.ofCol d c _ h

theorem SameWarps.choose (d : Dev) : SameWarps d d.choose.2 := ⟨rfl, fun _ => rfl⟩

theorem SameWarps.record (d : Dev) (die : Nat) (r : RecordInfo) : SameWarps d (d.record die r) := by
  unfold Dev.record; exact ⟨rfl, fun _ => rfl⟩

theorem SameWarps.recordCol (d : Dev) (c : Nat) (r : RecordInfo) : SameWarps d (d.recordCol c r) := by
  unfold Dev.recordCol; exact SameWarps.record _ _ _

theorem SameWarps.reaches (d : Dev) (col : Option Nat) (die unit block n old new : Nat) :
    SameWarps d (d.reaches col die unit block n old new) := by
  unfold Dev.reaches; split
  · exact SameWarps.record _ _ _
  · exact SameWarps.refl d

theorem SameWarps.corrected (d : Dev) (c va : Nat) : SameWarps d (d.corrected c va) := by
  unfold Dev.corrected
  simp only
  refine SameWarps.trans ?_ (SameWarps.reaches _ _ _ _ _ _ _ _)
  refine SameWarps.trans ?_ (SameWarps.reaches _ _ _ _ _ _ _ _)
  refine SameWarps.trans ?_ (SameWarps.reaches _ _ _ _ _ _ _ _)
  exact ⟨rfl, fun _ => rfl⟩

/-- A stagehand without the state of its banks. -/
def Hand.kept (h : Hand) : Hand := { h with openRow := [], banks := { free := 0, busy := [], run := none, windows := [], kept := [], olds := [] } }

theorem Hand.kept_resume (h : Hand) (now : Nat) (b : Bool) : (h.resume now b).kept = h.kept := by
  unfold Hand.resume
  dsimp only
  repeat' split
  all_goals rfl

theorem Hand.kept_ordinary (h : Hand) (now bank : Nat) : (h.ordinary now bank).kept = h.kept := by
  unfold Hand.ordinary
  dsimp only
  split
  · split
    · exact Hand.kept_resume _ _ _
    · rfl
  · rfl

theorem SameWarps.bankShut (d : Dev) (c va : Nat) : SameWarps d (d.bankShut c va) := by
  refine SameWarps.modCol d c (fun k => { k with hand := k.hand.ordinary d.now (bankOf va) }) ?_
  have h := Hand.kept_ordinary (d.col c).hand d.now (bankOf va)
  unfold Hand.kept at h
  unfold Column.kept
  dsimp only
  rw [h]

theorem SameWarps.bankRead (d : Dev) (c va : Nat) : SameWarps d (d.bankRead c va) := by
  unfold Dev.bankRead
  simp only
  split
  · exact SameWarps.refl d
  · split
    · refine SameWarps.trans ?_ (SameWarps.corrected _ c va)
      exact ⟨rfl, fun _ => rfl⟩
    · refine SameWarps.trans ?_ (SameWarps.recordCol _ c _)
      exact ⟨rfl, fun _ => rfl⟩

theorem SameWarps.controllerRead (d : Dev) (c va : Nat) : SameWarps d (d.controllerRead c va) :=
  (SameWarps.bankShut d c va).trans (SameWarps.bankRead _ c va)

theorem SameWarps.bankReads (c : Nat) (secs : List Nat) (d : Dev) : SameWarps d (secs.foldl (fun d a => d.bankRead c a) d) := by
  induction secs generalizing d with
  | nil => exact SameWarps.refl d
  | cons a secs ih => exact (SameWarps.bankRead d c a).trans (ih _)

theorem SameWarps.controllerReads (d : Dev) (c : Nat) (secs : List Nat) : SameWarps d (d.controllerReads c secs) := by
  unfold Dev.controllerReads
  split
  · exact SameWarps.refl d
  · exact (SameWarps.bankShut d c _).trans (SameWarps.bankReads c _ _)

theorem Column.kept_l2Evict (k : Column) (sb : Nat) : (k.l2Evict sb).kept = k.kept := by unfold Column.l2Evict; split <;> rfl

theorem Column.kept_l2Repack (sb n : Nat) (k : Column) : (Column.l2Repack sb n k).kept = k.kept := by
  induction n generalizing k with
  | zero => rfl
  | succ n ih =>
    unfold Column.l2Repack
    split
    · rfl
    · dsimp only
      split
      · rfl
      · split
        · rw [ih, Column.kept_l2Evict]
        · rfl

theorem Column.kept_l2Enter (k : Column) (va : Nat) (l : L2Line) (last : Bool) : (k.l2Enter va l last).kept = k.kept := by
  unfold Column.l2Enter
  dsimp only
  rw [Column.kept_l2Repack]
  split
  · split
    · exact Column.kept_l2Evict _ _
    · rfl
  · rfl

theorem Column.kept_l2Use (k : Column) (va : Nat) : (k.l2Use va).kept = k.kept := by unfold Column.l2Use; split <;> rfl

theorem Column.kept_l2Zc (k : Column) (va : Nat) (zc : Bool) : (k.l2Zc va zc).kept = k.kept := by
  unfold Column.l2Zc Column.l2Change
  split
  · rfl
  · rw [Column.kept_l2Repack]; rfl

theorem SameWarps.l2Bring (s : State) (c va : Nat) (zc last : Bool) (secs : List Nat) : SameWarps s.dev (s.l2Bring c va zc last secs) := by
  unfold State.l2Bring
  dsimp only
  split
  · exact SameWarps.modCol _ _ (fun k => { k with l2Bypass := k.l2Bypass + 1 }) rfl
  · exact (SameWarps.controllerReads _ _ _).trans (SameWarps.modCol _ _ _ (Column.kept_l2Enter _ _ _ _))

theorem SameWarps.homeRead (s : State) (c va pol : Nat) (zc : Bool) (lease : Option Nat) (secs : List Nat) :
    SameWarps s.dev (s.homeRead c va pol zc lease secs).1 := by
  unfold State.homeRead
  simp only
  split
  · exact SameWarps.controllerReads _ _ _
  · generalize hd : (if (!(s.dev.col c).l2Valid va) = true then s.l2Bring c va zc (pol == 2) (lineSectors va)
      else s.dev.modCol c (fun k => (k.l2Use va).l2Zc va zc)) = d
    have h1 : SameWarps s.dev d := by
      subst hd; split
      · exact SameWarps.l2Bring _ _ _ _ _ _
      · exact SameWarps.modCol _ _ (fun k => (k.l2Use va).l2Zc va zc) ((Column.kept_l2Zc _ _ _).trans (Column.kept_l2Use _ _))
    split
    · split
      · exact h1.trans (SameWarps.controllerReads _ _ _)
      · exact h1
    · split
      · exact h1
      · split
        · exact h1
        · exact h1.trans (SameWarps.modCol _ _ (fun k => k.l2Mod va _) rfl)

theorem SameWarps.homeSector (s : State) (c va : Nat) (zc : Bool) : SameWarps s.dev (s.homeSector c va zc) :=
  SameWarps.homeRead s c va 0 zc none _

theorem SameWarps.walkReading (c ctx gran n : Nat) (s : State) (level table : Nat) :
    SameWarps s.dev (s.walkReading c ctx gran n level table).2 := by
  induction n generalizing s level table with
  | zero => exact SameWarps.refl _
  | succ n ih =>
    unfold State.walkReading
    dsimp only
    generalize table + 8 * (if level = 0 then gran / 2 ^ 14 % 2 ^ 14 else if level = 1 then gran / 2 ^ 5 % 2 ^ 9 else gran % 2 ^ 5) = addr
    have h := SameWarps.homeSector s c addr false
    repeat' split
    all_goals first
      | exact h
      | exact h.trans (ih { s with dev := s.homeSector c addr false } _ _)

theorem SameWarps.pickOf {α : Type} (d : Dev) (x : α) (xs : List α) : SameWarps d (d.pickOf x xs).2 := by
  unfold Dev.pickOf
  split
  · exact SameWarps.refl d
  · exact ⟨rfl, fun _ => rfl⟩

theorem Column.kept_cache (k : Column) (e : TlbEntry) : (k.cache e).kept = k.kept := by unfold Column.cache; split <;> rfl

theorem SameWarps.useWalk (s : State) (c ctx off : Nat) : SameWarps s.dev (s.useWalk c ctx off).2 := by
  have h := SameWarps.walkReading c ctx (granOf off) 3 s 0 (bitsOf (s.dev.ctx ctx).ptRoot.toNat 23 0 * 256)
  unfold State.useWalk
  split
  · rename_i heq; rw [heq] at h; exact h.trans (SameWarps.modCol _ _ (fun k => k.cache _) (Column.kept_cache _ _))
  · rename_i heq; rw [heq] at h; exact h

theorem SameWarps.lookup (s : State) (c ctx off : Nat) : SameWarps s.dev (s.lookup c ctx off).2 := by
  unfold State.lookup
  split
  · exact SameWarps.useWalk _ _ _ _
  · dsimp only
    generalize hp : Dev.pickOf _ _ _ = p
    have h : SameWarps s.dev p.2 := by rw [← hp]; exact SameWarps.pickOf _ _ _
    obtain ⟨x, d⟩ := p
    cases x with
    | some e => exact h
    | none => exact h.trans (SameWarps.useWalk { s with dev := d } _ _ _)

theorem SameWarps.translate (s : State) (c ctx off : Nat) (write priv : Bool) :
    SameWarps s.dev (s.translate c ctx off write priv).2 := by
  unfold State.translate
  split
  · exact SameWarps.refl _
  · have h := SameWarps.lookup s c ctx off
    split
    · rename_i heq; rw [heq] at h; exact h
    · rename_i heq; rw [heq] at h
      split <;> exact h

theorem SameWarps.mixLine (new : BitVec 512) (old : Nat → List Word) (n : Nat) (d : Dev) : SameWarps d (mixLine new old n d).2 := by
  induction n with
  | zero => exact SameWarps.refl d
  | succ n ih => exact ih.trans (SameWarps.pickOf (Machine.mixLine new old n d).2 (new.extractLsb' (32 * n) 32) (old n))

theorem SameWarps.fetchBits (k : Column) (ctx off va : Nat) (new : BitVec 512) (d : Dev) : SameWarps d (k.fetchBits ctx off va new d).2 :=
  SameWarps.mixLine _ _ _ _

theorem Column.kept_keepLine (k : Column) (ctx off : Nat) (bits : BitVec 512) (sys : Bool) : (k.keepLine ctx off bits sys).kept = k.kept := by
  unfold Column.keepLine; split <;> rfl

theorem SameWarps.fetchLine (s : State) (c ctx off : Nat) : SameWarps s.dev (s.fetchLine c ctx off).2 := by
  unfold State.fetchLine
  have h := SameWarps.translate s c ctx off false true
  split
  · rename_i heq; rw [heq] at h; exact h
  · rename_i e d heq
    rw [heq] at h
    dsimp only
    have h1 := h.trans (SameWarps.homeRead { s with dev := d } c (e.va off) 0 e.zc none [e.va off, e.va off + 32])
    generalize ({ s with dev := d } : State).homeRead c (e.va off) 0 e.zc none [e.va off, e.va off + 32] = p at h1 ⊢
    have h2 : ∀ (k : Column) (n : BitVec 512) (d : Dev), SameWarps s.dev d → SameWarps s.dev (k.fetchBits ctx off (e.va off) n d).2 :=
      fun k n d hd => hd.trans (SameWarps.fetchBits _ _ _ _ _ _)
    have h3 : ∀ (d : Dev) (b : BitVec 512), SameWarps s.dev d → SameWarps s.dev (d.modCol c (fun k => k.keepLine ctx off b e.sys)) :=
      fun d b hd => hd.trans (SameWarps.modCol _ _ _ (Column.kept_keepLine _ _ _ _ _))
    split
    · exact h2 _ _ _ h1
    · split
      · exact h3 _ _ (h2 _ _ _ h1)
      · split
        · exact h3 _ _ (h2 _ _ _ (h2 _ _ _ h1))
        · exact h2 _ _ _ (h2 _ _ _ h1)

theorem SameWarps.checkTarget (s : State) (c ctx : Nat) (priv : Bool) (pc : BitVec 48) :
    SameWarps s.dev (s.checkTarget c ctx priv pc).2 := by
  unfold State.checkTarget
  split
  · exact SameWarps.refl _
  · have h := SameWarps.fetchLine s c ctx (pcLine pc)
    split
    · rename_i heq; rw [heq] at h; exact h
    · rename_i heq; rw [heq] at h
      split
      · exact h
      · split <;> exact h

end Sys2Proof.Machine
end

