-- ==== Sys2Proof/Laws/Registers.lean ====
section
/-! SUPPORT. Lane masks, lane vectors, and what the write of a result leaves in a warp's registers (R66, R67, R234). -/

namespace Sys2Proof

@[simp] theorem lane_tab {α : Type} (f : Nat → α) {l : Nat} (h : l < 32) : lane (tab f) l = f l := by
  simp [lane, tab, Nat.mod_eq_of_lt h]

@[simp] theorem Mask.has_all {l : Nat} (h : l < 32) : Mask.has Mask.all l = true := by simp [Mask.has, h]

@[simp] theorem Mask.has_zero (l : Nat) : Mask.has 0#32 l = false := by simp [Mask.has]

theorem Mask.has_ge (m : Mask) {l : Nat} (h : 32 ≤ l) : Mask.has m l = false := by simp [Mask.has, BitVec.getLsbD_of_ge _ _ h]

theorem Mask.fold_has (p : Nat → Bool) (ls : List Nat) (m : Mask) (l : Nat) (h : l < 32) :
    (ls.foldl (fun m l => if p l then m ||| (1#32 <<< l) else m) m).getLsbD l = (m.getLsbD l || (ls.contains l && p l)) := by
  induction ls generalizing m with
  | nil => simp
  | cons a ls ih =>
    rw [List.foldl_cons, ih]
    by_cases hp : p a
    · by_cases hl : l = a
      · subst hl; simp [hp, h]
      · have : (1#32 <<< a).getLsbD l = false := by
          simp [BitVec.getLsbD_shiftLeft]
          intro _ h2
          omega
        simp [hp, this, hl]
    · by_cases hl : l = a
      · subst hl; simp [hp]
      · simp [hp, hl]

@[simp] theorem Mask.has_of (p : Nat → Bool) {l : Nat} (h : l < 32) : Mask.has (Mask.of p) l = p l := by
  have h0 : lanes.contains l = true := by simp [lanes, h]
  unfold Mask.has Mask.of
  rw [Mask.fold_has p lanes 0 l h, h0]
  simp

@[simp] theorem Mask.has_and (a b : Mask) (l : Nat) : Mask.has (a &&& b) l = (Mask.has a l && Mask.has b l) := by simp [Mask.has]
@[simp] theorem Mask.has_or (a b : Mask) (l : Nat) : Mask.has (a ||| b) l = (Mask.has a l || Mask.has b l) := by simp [Mask.has]
@[simp] theorem Mask.has_not (a : Mask) {l : Nat} (h : l < 32) : Mask.has (~~~a) l = !Mask.has a l := by simp [Mask.has, h]

theorem Mask.mem_list (m : Mask) (l : Nat) : l ∈ Mask.list m ↔ l < 32 ∧ Mask.has m l = true := by
  simp [Mask.list, lanes]

theorem Mask.ext_has {a b : Mask} (h : ∀ l, l < 32 → Mask.has a l = Mask.has b l) : a = b := by
  apply BitVec.eq_of_getLsbD_eq
  intro i hi
  exact h i hi

namespace Machine

/-- A result whose whole write reads, lane by lane, as its values and its poison (R65, R66). -/
def Result.Good (x : Result) : Prop := ∀ l, l < 32 → x.whole.data.lane l = lane x.vals l ∧ x.whole.data.pois l = Mask.has x.pois l

theorem Result.good_general (x : Result) (h : x.shape = .general) : x.Good := by
  intro l hl; simp [Result.whole, h, RegData.lane, RegData.pois, Nat.mod_eq_of_lt hl]

theorem Result.good_uniform (x : Result) (h : x.shape = .uniform)
    (hv : ∀ l, l < 32 → lane x.vals l = lane x.vals 0 ∧ Mask.has x.pois l = Mask.has x.pois 0) : x.Good := by
  intro l hl; simp [Result.whole, h, RegData.lane, RegData.pois, hv l hl]

theorem Result.good_affine (x : Result) {b s : Word} (h : x.shape = .affine b s)
    (hv : ∀ l, l < 32 → lane x.vals l = b + BitVec.ofNat 32 l * s ∧ Mask.has x.pois l = Mask.has x.pois 0) : x.Good := by
  intro l hl
  simp only [Result.whole, h]
  split
  · rename_i hs; simp [RegData.lane, RegData.pois, hv l hl, hv 0 (by decide), hs]
  · split
    · simp [RegData.lane, RegData.pois, hv l hl]
    · simp [RegData.lane, RegData.pois, Nat.mod_eq_of_lt hl]

theorem Result.whole_fmt (x : Result) : x.whole.fmt = x.fmt := by
  unfold Result.whole; split
  · rfl
  · split
    · rfl
    · split <;> rfl
  · rfl

/-- Lane l of register r after a result is written: the result's value in the lanes of m, else as before. -/
theorem Warp.write_lane (w : Warp) (r : Nat) (m : Mask) (x : Result) (ind : Bool) (hx : x.Good) {l : Nat} (hl : l < 32) :
    ((w.write r m x ind).reg r).data.lane l = if Mask.has m l then lane x.vals l else (w.reg r).data.lane l := by
  unfold Warp.write
  split
  · rename_i h; subst h; simp [Mask.has]
  · split
    · rename_i h
      simp [Warp.reg, h.1, (hx l hl).1, Mask.has_all hl]
    · simp [Warp.reg, VReg.mixed, RegData.lane, hl]

/-- The poison of lane l of register r after a result is written. -/
theorem Warp.write_pois (w : Warp) (r : Nat) (m : Mask) (x : Result) (ind : Bool) (hx : x.Good) {l : Nat} (hl : l < 32) :
    ((w.write r m x ind).reg r).data.pois l = if Mask.has m l then Mask.has x.pois l else (w.reg r).data.pois l := by
  unfold Warp.write
  split
  · rename_i h; subst h; simp [Mask.has]
  · split
    · rename_i h
      simp [Warp.reg, h.1, (hx l hl).2, Mask.has_all hl]
    · by_cases hm : Mask.has m l <;>
        simp [Warp.reg, VReg.mixed, RegData.poisMask, hl, hm, Nat.mod_eq_of_lt hl, RegData.pois]

theorem Warp.write_fmt (w : Warp) (r : Nat) (m : Mask) (x : Result) (ind : Bool) (hm : m ≠ 0) :
    ((w.write r m x ind).reg r).fmt = x.fmt := by
  unfold Warp.write
  rw [if_neg hm]
  split <;> simp [Warp.reg, VReg.mixed, Result.whole_fmt]

theorem Warp.write_reg_ne (w : Warp) {r n : Nat} (m : Mask) (x : Result) (ind : Bool) (h : n ≠ r) :
    (w.write r m x ind).reg n = w.reg n := by
  unfold Warp.write
  split
  · rfl
  · split <;> simp [Warp.reg, Table.getD_set_ne _ _ _ h]

/-- A write changes nothing of a warp but its registers. -/
theorem Warp.write_frame (w : Warp) (r : Nat) (m : Mask) (x : Result) (ind : Bool) :
    { w.write r m x ind with regs := w.regs } = w := by
  unfold Warp.write
  split
  · rfl
  · split <;> rfl

end Machine
end Sys2Proof
end

