-- ==== Sys2Proof/Laws/Finish.lean ====
section
/-! SUPPORT. What a register write does to the machine (R66, R67, R234, R235), and the finish of a V-format instruction: everything that it
changes, said once. -/

namespace Sys2Proof.Machine

/-! ## One register -/

theorem Column.warp_spoilReg (k : Column) (s r y : Nat) (m : Mask) : (k.spoilReg s r m).warp y = k.warp y := rfl

theorem Column.warp_writeReg (k : Column) (s r : Nat) (m : Mask) (x : Result) (ind : Bool) :
    (k.writeReg s r m x ind).warp s = (k.warp s).write r m x ind := by
  unfold Column.writeReg
  split
  · rename_i h; subst h; simp [Warp.write]
  · exact Column.warp_putWarp _ _ _

theorem Column.warp_writeReg_ne (k : Column) {s y : Nat} (r : Nat) (m : Mask) (x : Result) (ind : Bool) (h : y ≠ s) :
    (k.writeReg s r m x ind).warp y = k.warp y := by
  unfold Column.writeReg
  split
  · rfl
  · exact Column.warp_putWarp_ne _ _ _ h

theorem MemOp.kill_killed (o : MemOp) (r : Nat) (m : Mask) : { o.kill r m with killed := [] } = { o with killed := [] } := by
  unfold MemOp.kill; split <;> rfl

/-- A register write leaves of its column everything but its warp and the marks on operations in flight. -/
theorem Column.rest_writeReg (k : Column) (s r : Nat) (m : Mask) (x : Result) (ind : Bool) :
    (k.writeReg s r m x ind).rest = k.rest := by
  unfold Column.writeReg
  split
  · rfl
  · simp only [Column.rest, Column.putWarp, Column.spoilReg, List.map_map, Vector.map_map]
    congr 1
    · apply List.map_congr_left
      intro o _
      simp only [Function.comp]
      split
      · exact MemOp.kill_killed o r m
      · rfl
    · congr 1
      funext q
      simp only [Function.comp, List.map_map]
      apply List.map_congr_left
      intro o _
      simp only [Function.comp]
      split
      · unfold TileOp.met; rfl
      · rfl

/-! ## A register named by the lane -/

/-- The lanes of m that name register r. -/
def namers (regs : Vector Nat 32) (m : Mask) (r : Nat) : Mask := Mask.of (fun l => Mask.has m l && lane regs l == r)

/-- What a run of writes of one result into distinct registers leaves. -/
structure Lanes (k k' : Column) (s : Nat) (x : Result) (hit : Nat → Nat → Prop) : Prop where
  wrote : ∀ r l, l < 32 → hit r l → ((k'.warp s).reg r).data.lane l = lane x.vals l ∧
    ((k'.warp s).reg r).data.pois l = Mask.has x.pois l
  kept  : ∀ r l, l < 32 → ¬ hit r l → ((k'.warp s).reg r).data.lane l = ((k.warp s).reg r).data.lane l ∧
    ((k'.warp s).reg r).data.pois l = ((k.warp s).reg r).data.pois l
  tagged : ∀ r l, l < 32 → hit r l → ((k'.warp s).reg r).fmt = x.fmt
  untagged : ∀ r, (∀ l, l < 32 → ¬ hit r l) → ((k'.warp s).reg r).fmt = ((k.warp s).reg r).fmt
  warp  : { k'.warp s with regs := (k.warp s).regs } = k.warp s
  rest  : k'.rest = k.rest
  others : ∀ y, y ≠ s → k'.warp y = k.warp y

theorem Column.writeReg_lanes (k : Column) (s r : Nat) (m : Mask) (x : Result) (ind : Bool) (hx : x.Good) :
    Lanes k (k.writeReg s r m x ind) s x (fun n l => n = r ∧ Mask.has m l = true) where
  wrote := by
    rintro n l hl ⟨rfl, hm⟩
    rw [Column.warp_writeReg, Warp.write_lane _ _ _ _ _ hx hl, Warp.write_pois _ _ _ _ _ hx hl, if_pos hm, if_pos hm]
    exact ⟨rfl, rfl⟩
  kept := by
    intro n l hl hn
    rw [Column.warp_writeReg]
    by_cases h : n = r
    · subst h
      have hm : ¬ (Mask.has m l = true) := fun h => hn ⟨rfl, h⟩
      rw [Warp.write_lane _ _ _ _ _ hx hl, Warp.write_pois _ _ _ _ _ hx hl, if_neg hm, if_neg hm]
      exact ⟨rfl, rfl⟩
    · rw [Warp.write_reg_ne _ _ _ _ h]
      exact ⟨rfl, rfl⟩
  tagged := by
    rintro n l hl ⟨rfl, hm⟩
    rw [Column.warp_writeReg, Warp.write_fmt]
    rintro rfl
    simp at hm
  untagged := by
    intro n hn
    rw [Column.warp_writeReg]
    by_cases h : n = r
    · subst h
      have : m = 0 := by
        apply Mask.ext_has
        intro l hl
        have := hn l hl
        simpa using this
      subst this
      simp [Warp.write]
    · rw [Warp.write_reg_ne _ _ _ _ h]
  warp := by rw [Column.warp_writeReg]; exact Warp.write_frame _ _ _ _ _
  rest := Column.rest_writeReg _ _ _ _ _ _
  others := fun y hy => Column.warp_writeReg_ne _ _ _ _ _ hy

theorem Lanes.refl (k : Column) (s : Nat) (x : Result) : Lanes k k s x (fun _ _ => False) where
  wrote := by intro _ _ _ h; exact h.elim
  kept := by intros; exact ⟨rfl, rfl⟩
  tagged := by intro _ _ _ h; exact h.elim
  untagged := by intros; rfl
  warp := rfl
  rest := rfl
  others := by intros; rfl

/-- Two runs one after the other, of the same result. -/
theorem Lanes.trans {k k1 k2 : Column} {s : Nat} {x : Result} {p q : Nat → Nat → Prop} (h : Lanes k k1 s x p) (g : Lanes k1 k2 s x q) :
    Lanes k k2 s x (fun r l => p r l ∨ q r l) where
  wrote := by
    intro r l hl h1
    by_cases hq : q r l
    · exact g.wrote r l hl hq
    · have hp : p r l := h1.resolve_right hq
      rw [(g.kept r l hl hq).1, (g.kept r l hl hq).2]
      exact h.wrote r l hl hp
  kept := by
    intro r l hl hn
    have h1 := g.kept r l hl (fun h => hn (.inr h))
    have h2 := h.kept r l hl (fun h => hn (.inl h))
    exact ⟨h1.1.trans h2.1, h1.2.trans h2.2⟩
  tagged := by
    intro r l hl h1
    by_cases hq : ∃ n, n < 32 ∧ q r n
    · obtain ⟨n, hn, hq⟩ := hq
      exact g.tagged r n hn hq
    · have h2 : ∀ n, n < 32 → ¬ q r n := fun n hn hh => hq ⟨n, hn, hh⟩
      rw [g.untagged r h2]
      exact h.tagged r l hl (h1.resolve_right (h2 l hl))
  untagged := by
    intro r hn
    rw [g.untagged r (fun l hl hh => hn l hl (.inr hh)), h.untagged r (fun l hl hh => hn l hl (.inl hh))]
  warp := by
    have h1 := h.warp
    have h2 := g.warp
    calc { k2.warp s with regs := (k.warp s).regs }
        = { ({ k2.warp s with regs := (k1.warp s).regs } : Warp) with regs := (k.warp s).regs } := rfl
      _ = { k1.warp s with regs := (k.warp s).regs } := by rw [h2]
      _ = k.warp s := h1
  rest := g.rest.trans h.rest
  others := fun y hy => (g.others y hy).trans (h.others y hy)

theorem Lanes.congr {k k' : Column} {s : Nat} {x : Result} {p q : Nat → Nat → Prop} (h : Lanes k k' s x p)
    (e : ∀ r l, l < 32 → (p r l ↔ q r l)) : Lanes k k' s x q where
  wrote := fun r l hl hq => h.wrote r l hl ((e r l hl).2 hq)
  kept := fun r l hl hq => h.kept r l hl (fun hp => hq ((e r l hl).1 hp))
  tagged := fun r l hl hq => h.tagged r l hl ((e r l hl).2 hq)
  untagged := fun r hq => h.untagged r (fun l hl hp => hq l hl ((e r l hl).1 hp))
  warp := h.warp
  rest := h.rest
  others := h.others

theorem Column.fold_lanes (s : Nat) (x : Result) (hx : x.Good) (ms : Nat → Mask) (rs : List Nat) (k : Column) :
    Lanes k (rs.foldl (fun k r => k.writeReg s r (ms r) x true) k) s x (fun r l => r ∈ rs ∧ Mask.has (ms r) l = true) := by
  induction rs generalizing k with
  | nil => exact (Lanes.refl k s x).congr (by simp)
  | cons a rs ih =>
    refine ((Column.writeReg_lanes k s a (ms a) x true hx).trans (ih _)).congr ?_
    intro r l _
    constructor
    · rintro (⟨rfl, h⟩ | ⟨h, h'⟩)
      · exact ⟨List.mem_cons_self, h⟩
      · exact ⟨List.mem_cons_of_mem _ h, h'⟩
    · rintro ⟨h, h'⟩
      rcases List.mem_cons.1 h with rfl | h
      · exact .inl ⟨rfl, h'⟩
      · exact .inr ⟨h, h'⟩

/-- A write to the register that each lane names (R234). -/
theorem Column.writeLanes_lanes (k : Column) (s : Nat) (regs : Vector Nat 32) (m : Mask) (x : Result) (hx : x.Good) :
    Lanes k (k.writeLanes s regs m x) s x (fun r l => Mask.has m l = true ∧ lane regs l = r) := by
  refine (Column.fold_lanes s x hx (namers regs m) _ k).congr ?_
  intro r l hl
  simp only [namers, Mask.has_of _ hl, Bool.and_eq_true, beq_iff_eq]
  constructor
  · exact fun h => h.2
  · intro h
    refine ⟨?_, h⟩
    rw [List.mem_eraseDups]
    exact List.mem_map.2 ⟨l, (Mask.mem_list m l).2 ⟨hl, h.1⟩, h.2⟩

/-! ## The device -/

theorem OnlyWarp.refl (s : State) : OnlyWarp s s :=
  { vault := rfl, dev := rfl, cols := fun _ _ => rfl, col := rfl, warps := fun _ _ => rfl }

theorem OnlyWarp.cur {s t : State} (h : OnlyWarp s t) : t.dev.cur = s.dev.cur := by
  have h1 : t.dev.rest.cur = s.dev.rest.cur := by rw [h.dev]
  exact h1

theorem OnlyWarp.trans {s t u : State} (h : OnlyWarp s t) (g : OnlyWarp t u) : OnlyWarp s u where
  vault := g.vault.trans h.vault
  dev := g.dev.trans h.dev
  cols := fun c hc => (g.cols c (by rw [h.cur]; exact hc)).trans (h.cols c hc)
  col := by have := g.col; rw [h.cur] at this; exact this.trans h.col
  warps := fun y hy => by
    have := g.warps y (by rw [h.cur]; exact hy)
    rw [h.cur] at this
    exact this.trans (h.warps y hy)

/-- A change of the issuing column that leaves all but the issuing warp as it was. -/
theorem OnlyWarp.ofCol (s : State) (f : Column → Column) (hr : (f s.dev.curCol).rest = s.dev.curCol.rest)
    (hw : ∀ y, y ≠ s.dev.cur.slot → (f s.dev.curCol).warp y = s.dev.curCol.warp y) :
    OnlyWarp s { s with dev := s.dev.modCurCol f } where
  vault := rfl
  dev := rfl
  cols := fun c hc => Dev.col_modCol_ne _ _ _ hc
  col := by simp [Dev.modCurCol]; exact hr
  warps := fun y hy => by simp [Dev.modCurCol, Dev.warp]; exact hw y hy

theorem OnlyWarp.ofWarp (s : State) (g : Warp → Warp) : OnlyWarp s { s with dev := s.dev.modCurWarp g } where
  vault := rfl
  dev := rfl
  cols := fun c hc => Dev.col_modCol_ne _ _ _ hc
  col := by simp [Dev.modCurWarp, Dev.modWarp, Dev.putWarp, Column.rest, Column.putWarp]
  warps := fun y hy => Dev.warp_modWarp_ne _ _ _ _ (.inr hy)

theorem OnlyWarp.ofIssued (s : State) (x : Issued) : OnlyWarp s { s with dev := { s.dev with issued := x } } :=
  { vault := rfl, dev := rfl, cols := fun _ _ => rfl, col := rfl, warps := fun _ _ => rfl }

/-- What an instruction with one result writes into its warp's registers: a run of lane writes. -/
theorem VCtx.writeDst_lanes (x : VCtx) (d : Dev) (dst : BitVec 9) (r : Result) (hr : r.Good) :
    ∃ f : Column → Column, x.writeDst d dst r = d.modCurCol f ∧
      ∀ k : Column, Lanes k (f k) d.cur.slot r (fun n l => Mask.has x.act l = true ∧ x.dstOf dst l = n) := by
  unfold VCtx.writeDst VCtx.dstOf
  split
  · rename_i h
    refine ⟨_, rfl, fun k => (Column.writeLanes_lanes k _ _ _ r hr).congr ?_⟩
    intro n l hl
    rw [lane_tab _ hl]
  · refine ⟨_, rfl, fun k => (Column.writeReg_lanes k _ _ _ r false hr).congr ?_⟩
    intro n l hl
    exact ⟨fun h => ⟨h.2, h.1.symm⟩, fun h => ⟨h.2.symm, h.1⟩⟩

theorem Warp.stepFields_frame (w : Warp) (act : Mask) (pre : List Nat) (fs : List Operand) :
    { w.stepFields act pre fs with ix := w.ix } = w := by
  suffices h : ∀ (fs : List Operand) (v : Warp), { v.stepFields act pre fs with ix := v.ix } = v from h fs w
  intro fs
  induction fs with
  | nil => intro v; rfl
  | cons o fs ih =>
    intro v
    have h1 := ih (v.stepField act pre o)
    have h2 : { v.stepField act pre o with ix := v.ix } = v := by
      unfold Warp.stepField; split <;> rfl
    calc { v.stepFields act pre (o :: fs) with ix := v.ix }
        = { ({ (v.stepField act pre o).stepFields act pre fs with ix := (v.stepField act pre o).ix } : Warp) with ix := v.ix } := rfl
      _ = { v.stepField act pre o with ix := v.ix } := by rw [h1]
      _ = v := h2

theorem Warp.stepFields_ix (w v : Warp) (act : Mask) (pre : List Nat) (fs : List Operand) (h : w.ix = v.ix) :
    (w.stepFields act pre fs).ix = (v.stepFields act pre fs).ix := by
  suffices g : ∀ (fs : List Operand) (w v : Warp), w.ix = v.ix → (w.stepFields act pre fs).ix = (v.stepFields act pre fs).ix from
    g fs w v h
  have one : ∀ (o : Operand) (w v : Warp), w.ix = v.ix → (w.stepField act pre o).ix = (v.stepField act pre o).ix := by
    intro o w v h
    unfold Warp.stepField
    split
    · simp only [Warp.setIx, Warp.ixr, idxAt, h]
    · exact h
  intro fs
  induction fs with
  | nil => intro w v h; exact h
  | cons o fs ih => intro w v h; exact ih _ _ (one o w v h)

/-- The finish of an instruction after its checks: what it leaves of a column that its results have been written to. -/
theorem VCtx.finish_warp (x : VCtx) (d : Dev) (f : VFields) :
    (((x.step d).hint f.hint).advance).curWarp =
      { d.curWarp.stepFields x.act x.pre x.fields with
        stallUntil := max (d.curWarp.stepFields x.act x.pre x.fields).stallUntil (d.now + (f.hint.extractLsb' 0 6).toNat + 1),
        yld := (d.curWarp.stepFields x.act x.pre x.fields).yld || f.hint.getLsbD 6,
        pc := d.cur.pc + (if d.cur.second then 2 else 1) } := by
  simp [Dev.advance, Dev.hint, VCtx.step]

/-- The finish of an instruction with one result, where nothing holds or traps it: everything that it changes. -/
theorem VCtx.finish_retires (s : State) (x : VCtx) (hx : x.d = s.dev) (f : VFields) (us : List Use) (preds : Option TrapInfo)
    (own : List (Option TrapInfo)) (r : Result) (hr : r.Good) (hn : x.notReady us = false)
    (hc : x.checks f.h.u (dstBound x.regs f.d :: x.bounds us) (x.dstWin f.d) us preds own = none) (h5 : x.fifthWindow f.d = false) :
    ∃ t, s.conclude (x.finish f us preds own r noPost) = .next t ∧
      Retires x s t (x.oneDst f.d) (fun _ => r.fmt) (fun _ l => lane r.vals l) (fun _ l => Mask.has r.pois l) := by
  obtain ⟨g, hg, hk⟩ := VCtx.writeDst_lanes x s.dev f.d r hr
  have hl := hk s.dev.curCol
  have hstep := Warp.stepFields_frame ((s.dev.modCurCol g).curWarp) x.act x.pre x.fields
  have hw : (s.dev.modCurCol g).curWarp = (g s.dev.curCol).warp s.dev.cur.slot := by
    simp [Dev.curWarp, Dev.warp, Dev.modCurCol, Dev.curCol]
  have hfin : s.conclude (x.finish f us preds own r noPost) =
      .next { s with dev := { ((x.step (s.dev.modCurCol g)).hint f.hint).advance with issued := .retired } } := by
    simp only [VCtx.finish, hn, hc, h5, noPost, hx, hg, State.conclude, Bool.false_eq_true, if_false]
  refine ⟨_, hfin, ?_⟩
  have hcur : ({ ((x.step (s.dev.modCurCol g)).hint f.hint).advance with issued := Issued.retired } : Dev).curWarp =
      (((x.step (s.dev.modCurCol g)).hint f.hint).advance).curWarp := rfl
  have hfw := VCtx.finish_warp x (s.dev.modCurCol g) f
  generalize hv : (s.dev.modCurCol g).curWarp.stepFields x.act x.pre x.fields = v at hstep hfw
  have hregs : v.regs = ((g s.dev.curCol).warp s.dev.cur.slot).regs := by
    have := congrArg Warp.regs hstep
    rw [← hw]; exact this
  have hreg : ∀ n, (({ ((x.step (s.dev.modCurCol g)).hint f.hint).advance with issued := Issued.retired } : Dev).curWarp).reg n =
      ((g s.dev.curCol).warp s.dev.cur.slot).reg n := by
    intro n
    rw [hcur, hfw]
    simp only [Warp.reg, hregs]
  refine { issued := rfl, only := ?_, wrote := ?_, kept := ?_, tags := ?_, pc := ?_, ix := ?_, rest := ?_ }
  · refine (OnlyWarp.ofCol s g hl.rest hl.others).trans ?_
    refine (OnlyWarp.ofWarp _ (fun w => w.stepFields x.act x.pre x.fields)).trans ?_
    refine (OnlyWarp.ofWarp _ (fun w => { w with stallUntil := max w.stallUntil (s.dev.now + (f.hint.extractLsb' 0 6).toNat + 1), yld := w.yld || f.hint.getLsbD 6 })).trans ?_
    refine (OnlyWarp.ofWarp _ (fun w => { w with pc := s.dev.cur.pc + (if s.dev.cur.second then 2 else 1) })).trans ?_
    exact OnlyWarp.ofIssued _ .retired
  · intro j l r' h32 hd
    unfold VCtx.oneDst at hd
    split at hd
    · rename_i hjl
      have hd : x.dstOf f.d l = r' := by simpa using hd
      have h1 := hl.wrote r' l h32 ⟨hjl.2, hd⟩
      have h2 := hl.tagged r' l h32 ⟨hjl.2, hd⟩
      simp only [State.reg, State.regPois, State.tag, Warp.laneOf, hreg]
      exact ⟨h1.1, h1.2, h2⟩
    · simp at hd
  · intro n l h32 hd
    have hnot : ¬ (Mask.has x.act l = true ∧ x.dstOf f.d l = n) := by
      rintro ⟨h1, h2⟩
      exact hd 0 (by simp [VCtx.oneDst, h1, h2])
    have h1 := hl.kept n l h32 hnot
    simp only [State.reg, State.regPois, Warp.laneOf, hreg]
    exact h1
  · intro n hd
    have hnot : ∀ l, l < 32 → ¬ (Mask.has x.act l = true ∧ x.dstOf f.d l = n) := by
      rintro l h32 ⟨h1, h2⟩
      exact hd 0 l h32 (by simp [VCtx.oneDst, h1, h2])
    simp only [State.tag, hreg]
    exact hl.untagged n hnot
  · rw [hcur, hfw]; rfl
  · rw [hcur, hfw]
    simp only [← hv]
    apply Warp.stepFields_ix
    rw [hw]
    have h1 := congrArg Warp.ix hl.warp
    exact h1
  · rw [hcur, hfw]
    have h1 := congrArg Warp.rest hstep
    have h2 := congrArg Warp.rest hl.warp
    rw [hw] at h1
    exact h1.trans h2

end Sys2Proof.Machine
end

