-- ==== Sys2Proof/Laws/Memory.lean ====
section
/-! SUPPORT. The vaults' bytes: what each memory operation reads as afterwards, and that each keeps the canonical form. -/

namespace Sys2Proof.Machine

/-! ## The canonical form -/

theorem Memory.above_none_of_some {lo : Nat} {m : Memory} (h : Memory.above (some lo) m = true) : Memory.above none m = true := by
  cases m with
  | nil => rfl
  | cons p m => obtain ⟨k, b⟩ := p; simp_all [Memory.above]

theorem Memory.above_weaken {lo hi : Nat} {m : Memory} (h : Memory.above (some hi) m = true) (le : lo ≤ hi) :
    Memory.above (some lo) m = true := by
  cases m with
  | nil => rfl
  | cons p m =>
    obtain ⟨k, b⟩ := p
    simp only [Memory.above, Bool.and_eq_true, decide_eq_true_eq] at h ⊢
    exact ⟨⟨by omega, h.1.2⟩, h.2⟩

theorem Memory.above_put {lo : Nat} {m : Memory} (h : Memory.above (some lo) m = true) {a : Nat} (ha : lo < a) (b : Byte) :
    Memory.above (some lo) (m.put a b) = true := by
  induction m generalizing lo with
  | nil => unfold Memory.put; split <;> simp_all [Memory.above]
  | cons p m ih =>
    obtain ⟨k, c⟩ := p
    simp only [Memory.above, Bool.and_eq_true, decide_eq_true_eq] at h
    obtain ⟨⟨h1, h2⟩, h3⟩ := h
    unfold Memory.put
    split
    · rename_i hk
      subst hk
      split
      · exact Memory.above_weaken h3 (by omega)
      · simp_all [Memory.above]
    · split
      · split <;> simp_all [Memory.above]
      · have : k < a := by omega
        simp only [Memory.above, Bool.and_eq_true, decide_eq_true_eq]
        exact ⟨⟨h1, h2⟩, ih h3 this⟩

/-- Writing one byte keeps the canonical form. -/
theorem Memory.wf_put {m : Memory} (h : m.wf = true) (a : Nat) (b : Byte) : (m.put a b).wf = true := by
  cases m with
  | nil => unfold Memory.put; split <;> simp_all [Memory.wf, Memory.above]
  | cons p m =>
    obtain ⟨k, c⟩ := p
    simp only [Memory.wf, Memory.above, Bool.and_eq_true, Bool.true_and] at h
    unfold Memory.put
    split
    · rename_i hk
      subst hk
      split
      · exact Memory.above_none_of_some h.2
      · simp_all [Memory.wf, Memory.above]
    · split
      · split <;> simp_all [Memory.wf, Memory.above]
      · have hk : k < a := by omega
        simp only [Memory.wf, Memory.above, Bool.and_eq_true, Bool.true_and]
        exact ⟨h.1, Memory.above_put h.2 hk b⟩

/-- Writing bytes keeps the canonical form. -/
theorem Memory.wf_write {m : Memory} (h : m.wf = true) (a : Nat) (bs : List Byte) : (m.write a bs).wf = true := by
  induction bs generalizing m a with
  | nil => exact h
  | cons b bs ih => exact ih (Memory.wf_put h a b) (a + 1)

theorem Memory.above_filter {lo : Nat} {m : Memory} (h : Memory.above (some lo) m = true) (p : Host.Cell → Bool) :
    Memory.above (some lo) (m.filter p) = true := by
  induction m generalizing lo with
  | nil => rfl
  | cons x m ih =>
    obtain ⟨k, c⟩ := x
    simp only [Memory.above, Bool.and_eq_true, decide_eq_true_eq] at h
    by_cases hp : p (k, c) = true
    · rw [List.filter_cons_of_pos hp]
      simp only [Memory.above, Bool.and_eq_true, decide_eq_true_eq]
      exact ⟨h.1, ih h.2⟩
    · rw [List.filter_cons_of_neg hp]
      exact ih (Memory.above_weaken h.2 (by omega))

/-- Dropping entries keeps the canonical form. -/
theorem Memory.wf_filter {m : Memory} (h : m.wf = true) (p : Host.Cell → Bool) :
    Memory.wf (m.filter p) = true := by
  cases m with
  | nil => rfl
  | cons x m =>
    obtain ⟨k, c⟩ := x
    simp only [Memory.wf, Memory.above, Bool.and_eq_true, Bool.true_and] at h ⊢
    by_cases hp : p (k, c) = true
    · rw [List.filter_cons_of_pos hp]
      simp only [Memory.above, Bool.and_eq_true, Bool.true_and]
      exact ⟨h.1, Memory.above_filter h.2 p⟩
    · rw [List.filter_cons_of_neg hp]
      exact Memory.above_none_of_some (Memory.above_filter h.2 p)

/-- Copying a page's bytes keeps the canonical form. -/
theorem Memory.wf_copy {m : Memory} (h : m.wf = true) (a b n : Nat) : (m.copy a b n).wf = true := by
  unfold Memory.copy
  generalize m.filter (fun x => decide (a ≤ x.1) && decide (x.1 < a + n)) = src
  have h0 := Memory.wf_filter h (fun x => !(decide (b ≤ x.1) && decide (x.1 < b + n)))
  generalize m.filter (fun x => !(decide (b ≤ x.1) && decide (x.1 < b + n))) = m0 at h0
  induction src generalizing m0 with
  | nil => exact h0
  | cons x src ih => exact ih _ (Memory.wf_put h0 _ _)

/-- Writing the pieces of an image keeps the canonical form. -/
theorem Memory.wf_patch {m : Memory} (h : m.wf = true) (a n : Nat) (ps : List Piece) : (m.patch a n ps).wf = true := by
  unfold Memory.patch
  induction ps generalizing m with
  | nil => exact h
  | cons p ps ih =>
    apply ih
    dsimp only
    split
    · exact Memory.wf_write h _ _
    · exact h

/-- Saving an image keeps the canonical form. -/
theorem Memory.wf_saveImage {m : Memory} (h : m.wf = true) (c slot base : Nat) (i : Image) : (m.saveImage c slot base i).wf = true :=
  Memory.wf_patch (Memory.wf_filter h _) _ _ _

/-- Clearing VALID keeps the canonical form. -/
theorem Memory.wf_clearValid {m : Memory} (h : m.wf = true) (c slot : Nat) : (m.clearValid c slot).wf = true := Memory.wf_write h _ _

/-! ## Reads -/

theorem Memory.byte_of_above {lo : Nat} {m : Memory} (h : Memory.above (some lo) m = true) {a : Nat} (ha : a ≤ lo) :
    m.byte a = Memory.unlisted a := by
  cases m with
  | nil => rfl
  | cons p m =>
    obtain ⟨k, c⟩ := p
    simp only [Memory.above, Bool.and_eq_true, decide_eq_true_eq] at h
    have h1 : a < k := by omega
    simp [Memory.byte, h1, Nat.ne_of_gt h1]

/-- A byte read after one byte is written, in a memory of canonical form. -/
theorem Memory.byte_put {m : Memory} (h : m.wf = true) (a : Nat) (b : Byte) (n : Nat) :
    (m.put a b).byte n = if n = a then b else m.byte n := by
  induction m with
  | nil =>
    unfold Memory.put
    by_cases hb : b = Memory.unlisted a <;> by_cases hn : n = a <;> simp_all [Memory.byte]
    intro hh; exact absurd hh.symm hn
  | cons p m ih =>
    obtain ⟨k, c⟩ := p
    have hm : Memory.wf m = true := by
      simp only [Memory.wf, Memory.above, Bool.and_eq_true, Bool.true_and] at h
      exact Memory.above_none_of_some h.2
    have hk : Memory.above (some k) m = true := by
      simp only [Memory.wf, Memory.above, Bool.and_eq_true, Bool.true_and] at h
      exact h.2
    have ih := ih hm
    unfold Memory.put
    split
    · rename_i hka
      subst hka
      by_cases hb : b = Memory.unlisted k
      · simp only [hb, if_true]
        by_cases hn : n = k
        · subst hn; simp [Memory.byte_of_above hk (Nat.le_refl _)]
        · by_cases hlt : n < k
          · simp [hn, Memory.byte, Ne.symm hn, hlt, Memory.byte_of_above hk (Nat.le_of_lt hlt)]
          · simp [hn, Memory.byte, Ne.symm hn, hlt]
      · simp only [hb, if_false]
        by_cases hn : n = k
        · subst hn; simp [Memory.byte]
        · simp [hn, Memory.byte, Ne.symm hn]
    · rename_i hka
      split
      · rename_i hak
        by_cases hb : b = Memory.unlisted a
        · simp only [hb, if_true]
          by_cases hn : n = a
          · subst hn; simp [Memory.byte, hka, hak]
          · simp [hn]
        · simp only [hb, if_false]
          by_cases hn : n = a
          · subst hn; simp [Memory.byte]
          · by_cases hlt : n < a
            · have : n < k := Nat.lt_trans hlt hak
              simp [hn, Memory.byte, Ne.symm hn, hlt, this, Nat.ne_of_gt this]
            · simp [hn, Memory.byte, Ne.symm hn, hlt]
      · rename_i hak
        by_cases hn : n = k
        · subst hn; simp [Memory.byte, hka]
        · by_cases hlt : n < k
          · have : n ≠ a := by omega
            simp [Memory.byte, Ne.symm hn, hlt, this]
          · simp only [Memory.byte, Ne.symm hn, hlt, if_false]
            exact ih

/-- A byte read after bytes are written: inside the written range the byte written there, elsewhere the byte before. -/
theorem Memory.byte_write {m : Memory} (h : m.wf = true) (a : Nat) (bs : List Byte) (n : Nat) :
    (m.write a bs).byte n = if a ≤ n ∧ n < a + bs.length then bs.getD (n - a) 0 else m.byte n := by
  induction bs generalizing m a with
  | nil =>
    have : ¬(a ≤ n ∧ n < a + ([] : List Byte).length) := by simp
    rw [if_neg this]; rfl
  | cons b bs ih =>
    rw [Memory.write, ih (Memory.wf_put h a b), Memory.byte_put h]
    simp only [List.length_cons]
    by_cases h1 : n = a
    · subst h1
      simp [show ¬(n + 1 ≤ n) by omega]
    · by_cases h2 : a + 1 ≤ n ∧ n < a + 1 + bs.length
      · have h3 : a ≤ n ∧ n < a + (bs.length + 1) := by omega
        have h4 : n - a = (n - (a + 1)) + 1 := by omega
        simp [h2, h3, h4]
      · have h3 : ¬(a ≤ n ∧ n < a + (bs.length + 1)) := by omega
        rw [if_neg h2, if_neg h3, if_neg h1]

/-- The pieces of an image change no byte outside its slot. -/
theorem Memory.byte_patch {m : Memory} (h : m.wf = true) (a n : Nat) (ps : List Piece) {b : Nat} (hb : b < a ∨ a + n ≤ b) :
    (m.patch a n ps).byte b = m.byte b := by
  unfold Memory.patch
  induction ps generalizing m with
  | nil => rfl
  | cons p ps ih =>
    rw [List.foldl_cons]
    split
    · rename_i hp
      rw [ih (Memory.wf_write h _ _), Memory.byte_write h, if_neg (by omega)]
    · exact ih h

end Sys2Proof.Machine
end

