-- ==== Sys2Proof/Laws/PerInstr.lean ====
section
/-! SUPPORT. Families of statements about every instruction, one lemma per constructor. -/

namespace Sys2Proof.Laws

/-- The word of an instruction, where it has one, carries its major opcode in bits [95:88] (R103, R125). -/
def Major.Statement (i : Instr) : Prop := ∀ w, encode i = some w → i.major = some (w.extractLsb' 88 8)

theorem Major.nop (f : CFields) : Major.Statement (.nop f) :=
  fun _ h => by cases h; exact congrArg some (cWord_major _ _).symm
theorem Major.bra (f : CFields) : Major.Statement (.bra f) :=
  fun _ h => by cases h; exact congrArg some (cWord_major _ _).symm
theorem Major.brx (f : CFields) : Major.Statement (.brx f) :=
  fun _ h => by cases h; exact congrArg some (cWord_major _ _).symm
theorem Major.call (f : CFields) : Major.Statement (.call f) :=
  fun _ h => by cases h; exact congrArg some (cWord_major _ _).symm
theorem Major.ret (f : CFields) : Major.Statement (.ret f) :=
  fun _ h => by cases h; exact congrArg some (cWord_major _ _).symm
theorem Major.loop (f : CFields) : Major.Statement (.loop f) :=
  fun _ h => by cases h; exact congrArg some (cWord_major _ _).symm
theorem Major.join (f : CFields) : Major.Statement (.join f) :=
  fun _ h => by cases h; exact congrArg some (cWord_major _ _).symm
theorem Major.exit (f : CFields) : Major.Statement (.exit f) :=
  fun _ h => by cases h; exact congrArg some (cWord_major _ _).symm
theorem Major.tail (f : CFields) : Major.Statement (.tail f) :=
  fun _ h => by cases h; exact congrArg some (cWord_major _ _).symm
theorem Major.spawn (f : CFields) : Major.Statement (.spawn f) :=
  fun _ h => by cases h; exact congrArg some (cWord_major _ _).symm
theorem Major.yield (f : CFields) : Major.Statement (.yield f) :=
  fun _ h => by cases h; exact congrArg some (cWord_major _ _).symm
theorem Major.wait (f : CFields) : Major.Statement (.wait f) :=
  fun _ h => by cases h; exact congrArg some (cWord_major _ _).symm
theorem Major.trap (f : CFields) : Major.Statement (.trap f) :=
  fun _ h => by cases h; exact congrArg some (cWord_major _ _).symm
theorem Major.svc (f : CFields) : Major.Statement (.svc f) :=
  fun _ h => by cases h; exact congrArg some (cWord_major _ _).symm
theorem Major.brk (f : CFields) : Major.Statement (.brk f) :=
  fun _ h => by cases h; exact congrArg some (cWord_major _ _).symm
theorem Major.iadd (f : VFields) : Major.Statement (.iadd f) :=
  fun _ h => by cases h; exact congrArg some (vWord_major _ _).symm
theorem Major.isub (f : VFields) : Major.Statement (.isub f) :=
  fun _ h => by cases h; exact congrArg some (vWord_major _ _).symm
theorem Major.imul (f : VFields) : Major.Statement (.imul f) :=
  fun _ h => by cases h; exact congrArg some (vWord_major _ _).symm
theorem Major.imulh (f : VFields) : Major.Statement (.imulh f) :=
  fun _ h => by cases h; exact congrArg some (vWord_major _ _).symm
theorem Major.imad (f : VFields) : Major.Statement (.imad f) :=
  fun _ h => by cases h; exact congrArg some (vWord_major _ _).symm
theorem Major.imin (f : VFields) : Major.Statement (.imin f) :=
  fun _ h => by cases h; exact congrArg some (vWord_major _ _).symm
theorem Major.imax (f : VFields) : Major.Statement (.imax f) :=
  fun _ h => by cases h; exact congrArg some (vWord_major _ _).symm
theorem Major.iabs (f : VFields) : Major.Statement (.iabs f) :=
  fun _ h => by cases h; exact congrArg some (vWord_major _ _).symm
theorem Major.idot4 (f : VFields) : Major.Statement (.idot4 f) :=
  fun _ h => by cases h; exact congrArg some (vWord_major _ _).symm
theorem Major.icmp (f : VFields) : Major.Statement (.icmp f) :=
  fun _ h => by cases h; exact congrArg some (vWord_major _ _).symm
theorem Major.sel (f : VFields) : Major.Statement (.sel f) :=
  fun _ h => by cases h; exact congrArg some (vWord_major _ _).symm
theorem Major.mov (f : VFields) : Major.Statement (.mov f) :=
  fun _ h => by cases h; exact congrArg some (vWord_major _ _).symm
theorem Major.movs (f : VFields) : Major.Statement (.movs f) :=
  fun _ h => by cases h; exact congrArg some (vWord_major _ _).symm
theorem Major.plop (f : VFields) : Major.Statement (.plop f) :=
  fun _ h => by cases h; exact congrArg some (vWord_major _ _).symm
theorem Major.and (f : VFields) : Major.Statement (.and f) :=
  fun _ h => by cases h; exact congrArg some (vWord_major _ _).symm
theorem Major.or (f : VFields) : Major.Statement (.or f) :=
  fun _ h => by cases h; exact congrArg some (vWord_major _ _).symm
theorem Major.xor (f : VFields) : Major.Statement (.xor f) :=
  fun _ h => by cases h; exact congrArg some (vWord_major _ _).symm
theorem Major.andn (f : VFields) : Major.Statement (.andn f) :=
  fun _ h => by cases h; exact congrArg some (vWord_major _ _).symm
theorem Major.shl (f : VFields) : Major.Statement (.shl f) :=
  fun _ h => by cases h; exact congrArg some (vWord_major _ _).symm
theorem Major.shr (f : VFields) : Major.Statement (.shr f) :=
  fun _ h => by cases h; exact congrArg some (vWord_major _ _).symm
theorem Major.sar (f : VFields) : Major.Statement (.sar f) :=
  fun _ h => by cases h; exact congrArg some (vWord_major _ _).symm
theorem Major.rot (f : VFields) : Major.Statement (.rot f) :=
  fun _ h => by cases h; exact congrArg some (vWord_major _ _).symm
theorem Major.popc (f : VFields) : Major.Statement (.popc f) :=
  fun _ h => by cases h; exact congrArg some (vWord_major _ _).symm
theorem Major.clz (f : VFields) : Major.Statement (.clz f) :=
  fun _ h => by cases h; exact congrArg some (vWord_major _ _).symm
theorem Major.brev (f : VFields) : Major.Statement (.brev f) :=
  fun _ h => by cases h; exact congrArg some (vWord_major _ _).symm
theorem Major.bfx (f : VFields) : Major.Statement (.bfx f) :=
  fun _ h => by cases h; exact congrArg some (vWord_major _ _).symm
theorem Major.bfi (f : VFields) : Major.Statement (.bfi f) :=
  fun _ h => by cases h; exact congrArg some (vWord_major _ _).symm
theorem Major.bswz (f : VFields) : Major.Statement (.bswz f) :=
  fun _ h => by cases h; exact congrArg some (vWord_major _ _).symm
theorem Major.tern (f : VFields) : Major.Statement (.tern f) :=
  fun _ h => by cases h; exact congrArg some (vWord_major _ _).symm
theorem Major.lea (f : VFields) : Major.Statement (.lea f) :=
  fun _ h => by cases h; exact congrArg some (vWord_major _ _).symm
theorem Major.cadr (f : VFields) : Major.Statement (.cadr f) :=
  fun _ h => by cases h; exact congrArg some (vWord_major _ _).symm
theorem Major.cget (f : VFields) : Major.Statement (.cget f) :=
  fun _ h => by cases h; exact congrArg some (vWord_major _ _).symm
theorem Major.tidx (f : VFields) : Major.Statement (.tidx f) :=
  fun _ h => by cases h; exact congrArg some (vWord_major _ _).symm
theorem Major.fadd (f : VFields) : Major.Statement (.fadd f) :=
  fun _ h => by cases h; exact congrArg some (vWord_major _ _).symm
theorem Major.fsub (f : VFields) : Major.Statement (.fsub f) :=
  fun _ h => by cases h; exact congrArg some (vWord_major _ _).symm
theorem Major.fmul (f : VFields) : Major.Statement (.fmul f) :=
  fun _ h => by cases h; exact congrArg some (vWord_major _ _).symm
theorem Major.ffma (f : VFields) : Major.Statement (.ffma f) :=
  fun _ h => by cases h; exact congrArg some (vWord_major _ _).symm
theorem Major.fmin (f : VFields) : Major.Statement (.fmin f) :=
  fun _ h => by cases h; exact congrArg some (vWord_major _ _).symm
theorem Major.fmax (f : VFields) : Major.Statement (.fmax f) :=
  fun _ h => by cases h; exact congrArg some (vWord_major _ _).symm
theorem Major.fcmp (f : VFields) : Major.Statement (.fcmp f) :=
  fun _ h => by cases h; exact congrArg some (vWord_major _ _).symm
theorem Major.fclass (f : VFields) : Major.Statement (.fclass f) :=
  fun _ h => by cases h; exact congrArg some (vWord_major _ _).symm
theorem Major.fdot2 (f : VFields) : Major.Statement (.fdot2 f) :=
  fun _ h => by cases h; exact congrArg some (vWord_major _ _).symm
theorem Major.fdiv (f : VFields) : Major.Statement (.fdiv f) :=
  fun _ h => by cases h; exact congrArg some (vWord_major _ _).symm
theorem Major.fsqrt (f : VFields) : Major.Statement (.fsqrt f) :=
  fun _ h => by cases h; exact congrArg some (vWord_major _ _).symm
theorem Major.frcp (f : VFields) : Major.Statement (.frcp f) :=
  fun _ h => by cases h; exact congrArg some (vWord_major _ _).symm
theorem Major.frsq (f : VFields) : Major.Statement (.frsq f) :=
  fun _ h => by cases h; exact congrArg some (vWord_major _ _).symm
theorem Major.fex2 (f : VFields) : Major.Statement (.fex2 f) :=
  fun _ h => by cases h; exact congrArg some (vWord_major _ _).symm
theorem Major.flg2 (f : VFields) : Major.Statement (.flg2 f) :=
  fun _ h => by cases h; exact congrArg some (vWord_major _ _).symm
theorem Major.fsin (f : VFields) : Major.Statement (.fsin f) :=
  fun _ h => by cases h; exact congrArg some (vWord_major _ _).symm
theorem Major.fcos (f : VFields) : Major.Statement (.fcos f) :=
  fun _ h => by cases h; exact congrArg some (vWord_major _ _).symm
theorem Major.ftanh (f : VFields) : Major.Statement (.ftanh f) :=
  fun _ h => by cases h; exact congrArg some (vWord_major _ _).symm
theorem Major.cvt (f : VFields) : Major.Statement (.cvt f) :=
  fun _ h => by cases h; exact congrArg some (vWord_major _ _).symm
theorem Major.cvtb (f : VFields) : Major.Statement (.cvtb f) :=
  fun _ h => by cases h; exact congrArg some (vWord_major _ _).symm
theorem Major.qnt (f : VFields) : Major.Statement (.qnt f) :=
  fun _ h => by cases h; exact congrArg some (vWord_major _ _).symm
theorem Major.dqnt (f : VFields) : Major.Statement (.dqnt f) :=
  fun _ h => by cases h; exact congrArg some (vWord_major _ _).symm
theorem Major.pack (f : VFields) : Major.Statement (.pack f) :=
  fun _ h => by cases h; exact congrArg some (vWord_major _ _).symm
theorem Major.unpk (f : VFields) : Major.Statement (.unpk f) :=
  fun _ h => by cases h; exact congrArg some (vWord_major _ _).symm
theorem Major.retag (f : VFields) : Major.Statement (.retag f) :=
  fun _ h => by cases h; exact congrArg some (vWord_major _ _).symm
theorem Major.setpart (f : VFields) : Major.Statement (.setpart f) :=
  fun _ h => by cases h; exact congrArg some (vWord_major _ _).symm
theorem Major.lget (f : VFields) : Major.Statement (.lget f) :=
  fun _ h => by cases h; exact congrArg some (vWord_major _ _).symm
theorem Major.lput (f : VFields) : Major.Statement (.lput f) :=
  fun _ h => by cases h; exact congrArg some (vWord_major _ _).symm
theorem Major.bfly (f : VFields) : Major.Statement (.bfly f) :=
  fun _ h => by cases h; exact congrArg some (vWord_major _ _).symm
theorem Major.poll (f : VFields) : Major.Statement (.poll f) :=
  fun _ h => by cases h; exact congrArg some (vWord_major _ _).symm
theorem Major.match_ (f : VFields) : Major.Statement (.match_ f) :=
  fun _ h => by cases h; exact congrArg some (vWord_major _ _).symm
theorem Major.redc (f : VFields) : Major.Statement (.redc f) :=
  fun _ h => by cases h; exact congrArg some (vWord_major _ _).symm
theorem Major.scan (f : VFields) : Major.Statement (.scan f) :=
  fun _ h => by cases h; exact congrArg some (vWord_major _ _).symm
theorem Major.elect (f : VFields) : Major.Statement (.elect f) :=
  fun _ h => by cases h; exact congrArg some (vWord_major _ _).symm
theorem Major.ixset (f : VFields) : Major.Statement (.ixset f) :=
  fun _ h => by cases h; exact congrArg some (vWord_major _ _).symm
theorem Major.ixld (f : VFields) : Major.Statement (.ixld f) :=
  fun _ h => by cases h; exact congrArg some (vWord_major _ _).symm
theorem Major.ixmov (f : VFields) : Major.Statement (.ixmov f) :=
  fun _ h => by cases h; exact congrArg some (vWord_major _ _).symm
theorem Major.ixadv (f : VFields) : Major.Statement (.ixadv f) :=
  fun _ h => by cases h; exact congrArg some (vWord_major _ _).symm
theorem Major.ld (f : MFields) : Major.Statement (.ld f) :=
  fun _ h => by cases h; exact congrArg some (mWord_major _ _).symm
theorem Major.ldu (f : MFields) : Major.Statement (.ldu f) :=
  fun _ h => by cases h; exact congrArg some (mWord_major _ _).symm
theorem Major.ldt (f : MFields) : Major.Statement (.ldt f) :=
  fun _ h => by cases h; exact congrArg some (mWord_major _ _).symm
theorem Major.st (f : MFields) : Major.Statement (.st f) :=
  fun _ h => by cases h; exact congrArg some (mWord_major _ _).symm
theorem Major.stu (f : MFields) : Major.Statement (.stu f) :=
  fun _ h => by cases h; exact congrArg some (mWord_major _ _).symm
theorem Major.lds (f : MFields) : Major.Statement (.lds f) :=
  fun _ h => by cases h; exact congrArg some (mWord_major _ _).symm
theorem Major.sts (f : MFields) : Major.Statement (.sts f) :=
  fun _ h => by cases h; exact congrArg some (mWord_major _ _).symm
theorem Major.pref (f : MFields) : Major.Statement (.pref f) :=
  fun _ h => by cases h; exact congrArg some (mWord_major _ _).symm
theorem Major.cctlClean (f : MFields) : Major.Statement (.cctlClean f) :=
  fun _ h => by cases h; exact congrArg some (mWord_major _ _).symm
theorem Major.cctlFlush (f : MFields) : Major.Statement (.cctlFlush f) :=
  fun _ h => by cases h; exact congrArg some (mWord_major _ _).symm
theorem Major.cctlPin (f : MFields) : Major.Statement (.cctlPin f) :=
  fun _ h => by cases h; exact congrArg some (mWord_major _ _).symm
theorem Major.cctlUnpin (f : MFields) : Major.Statement (.cctlUnpin f) :=
  fun _ h => by cases h; exact congrArg some (mWord_major _ _).symm
theorem Major.cctlDrop (f : MFields) : Major.Statement (.cctlDrop f) :=
  fun _ h => by cases h; exact congrArg some (mWord_major _ _).symm
theorem Major.cctlDropall (f : MFields) : Major.Statement (.cctlDropall f) :=
  fun _ h => by cases h; exact congrArg some (mWord_major _ _).symm
theorem Major.atom (f : MFields) : Major.Statement (.atom f) :=
  fun _ h => by cases h; exact congrArg some (mWord_major _ _).symm
theorem Major.ared (f : MFields) : Major.Statement (.ared f) :=
  fun _ h => by cases h; exact congrArg some (mWord_major _ _).symm
theorem Major.atsc (f : MFields) : Major.Statement (.atsc f) :=
  fun _ h => by cases h; exact congrArg some (mWord_major _ _).symm
theorem Major.fence (f : MFields) : Major.Statement (.fence f) :=
  fun _ h => by cases h; exact congrArg some (mWord_major _ _).symm
theorem Major.bar (f : XFields) : Major.Statement (.bar f) :=
  fun _ h => by cases h; exact congrArg some (xWord_major _ _).symm
theorem Major.bard (f : XFields) : Major.Statement (.bard f) :=
  fun _ h => by cases h; exact congrArg some (xWord_major _ _).symm
theorem Major.ofence (f : XFields) : Major.Statement (.ofence f) :=
  fun _ h => by cases h; exact congrArg some (xWord_major _ _).symm
theorem Major.nmatom (f : MFields) : Major.Statement (.nmatom f) :=
  fun _ h => by cases h; exact congrArg some (mWord_major _ _).symm
theorem Major.nmfence (f : MFields) : Major.Statement (.nmfence f) :=
  fun _ h => by cases h; exact congrArg some (mWord_major _ _).symm
theorem Major.xch (f : XFields) : Major.Statement (.xch f) :=
  fun _ h => by cases h; exact congrArg some (xWord_major _ _).symm
theorem Major.xget (f : XFields) : Major.Statement (.xget f) :=
  fun _ h => by cases h; exact congrArg some (xWord_major _ _).symm
theorem Major.xput (f : XFields) : Major.Statement (.xput f) :=
  fun _ h => by cases h; exact congrArg some (xWord_major _ _).symm
theorem Major.msg (f : XFields) : Major.Statement (.msg f) :=
  fun _ h => by cases h; exact congrArg some (xWord_major _ _).symm
theorem Major.rwait (f : XFields) : Major.Statement (.rwait f) :=
  fun _ h => by cases h; exact congrArg some (xWord_major _ _).symm
theorem Major.radv (f : XFields) : Major.Statement (.radv f) :=
  fun _ h => by cases h; exact congrArg some (xWord_major _ _).symm
theorem Major.rbind (f : XFields) : Major.Statement (.rbind f) :=
  fun _ h => by cases h; exact congrArg some (xWord_major _ _).symm
theorem Major.watch (f : MFields) : Major.Statement (.watch f) :=
  fun _ h => by cases h; exact congrArg some (mWord_major _ _).symm
theorem Major.mldb (f : TFields) : Major.Statement (.mldb f) :=
  fun _ h => by cases h; exact congrArg some (tWord_major _ _).symm
theorem Major.mma (f : TFields) : Major.Statement (.mma f) :=
  fun _ h => by cases h; exact congrArg some (tWord_major _ _).symm
theorem Major.mmab (f : TFields) : Major.Statement (.mmab f) :=
  fun _ h => by cases h; exact congrArg some (tWord_major _ _).symm
theorem Major.mmas (f : TFields) : Major.Statement (.mmas f) :=
  fun _ h => by cases h; exact congrArg some (tWord_major _ _).symm
theorem Major.mclr (f : TFields) : Major.Statement (.mclr f) :=
  fun _ h => by cases h; exact congrArg some (tWord_major _ _).symm
theorem Major.mdrain (f : PFields) : Major.Statement (.mdrain f) :=
  fun _ h => by cases h; exact congrArg some (pWord_major _ _).symm
theorem Major.pjadj (f : PFields) : Major.Statement (.pjadj f) :=
  fun _ h => by cases h; exact congrArg some (pWord_major _ _).symm
theorem Major.mlda (f : TFields) : Major.Statement (.mlda f) :=
  fun _ h => by cases h; exact congrArg some (tWord_major _ _).symm
theorem Major.cpy (f : VFields) : Major.Statement (.cpy f) :=
  fun _ h => by cases h; exact congrArg some (vWord_major _ _).symm
theorem Major.glaunch (f : VFields) : Major.Statement (.glaunch f) :=
  fun _ h => by cases h; exact congrArg some (vWord_major _ _).symm
theorem Major.gpatch (f : VFields) : Major.Statement (.gpatch f) :=
  fun _ h => by cases h; exact congrArg some (vWord_major _ _).symm
theorem Major.cue (f : VFields) : Major.Statement (.cue f) :=
  fun _ h => by cases h; exact congrArg some (vWord_major _ _).symm
theorem Major.nmrun (f : VFields) : Major.Statement (.nmrun f) :=
  fun _ h => by cases h; exact congrArg some (vWord_major _ _).symm
theorem Major.sread (f : SFields) : Major.Statement (.sread f) :=
  fun _ h => by cases h; exact congrArg some (sWord_major _ _).symm
theorem Major.swrite (f : SFields) : Major.Statement (.swrite f) :=
  fun _ h => by cases h; exact congrArg some (sWord_major _ _).symm
theorem Major.swriteRng (f : SFields) : Major.Statement (.swriteRng f) :=
  fun _ h => by cases h; exact congrArg some (sWord_major _ _).symm
theorem Major.swriteLease (f : SFields) : Major.Statement (.swriteLease f) :=
  fun _ h => by cases h; exact congrArg some (sWord_major _ _).symm
theorem Major.eret (f : SFields) : Major.Statement (.eret f) :=
  fun _ h => by cases h; exact congrArg some (sWord_major _ _).symm
theorem Major.tlbi (f : SFields) : Major.Statement (.tlbi f) :=
  fun _ h => by cases h; exact congrArg some (sWord_major _ _).symm
theorem Major.ctxswReset (f : SFields) : Major.Statement (.ctxswReset f) :=
  fun _ h => by cases h; exact congrArg some (sWord_major _ _).symm
theorem Major.ctxswSave (f : SFields) : Major.Statement (.ctxswSave f) :=
  fun _ h => by cases h; exact congrArg some (sWord_major _ _).symm
theorem Major.testReq (f : SFields) : Major.Statement (.testReq f) :=
  fun _ h => by cases h; exact congrArg some (sWord_major _ _).symm
theorem Major.testRes (f : SFields) : Major.Statement (.testRes f) :=
  fun _ h => by cases h; exact congrArg some (sWord_major _ _).symm
theorem Major.testInj (f : SFields) : Major.Statement (.testInj f) :=
  fun _ h => by cases h; exact congrArg some (sWord_major _ _).symm
theorem Major.hadd (f : HFields) : Major.Statement (.hadd f) :=
  fun _ h => nomatch h
theorem Major.hsub (f : HFields) : Major.Statement (.hsub f) :=
  fun _ h => nomatch h
theorem Major.hmul (f : HFields) : Major.Statement (.hmul f) :=
  fun _ h => nomatch h
theorem Major.hlogic (f : HFields) : Major.Statement (.hlogic f) :=
  fun _ h => nomatch h
theorem Major.hshift (f : HFields) : Major.Statement (.hshift f) :=
  fun _ h => nomatch h
theorem Major.hli (f : HFields) : Major.Statement (.hli f) :=
  fun _ h => nomatch h
theorem Major.hclk (f : HFields) : Major.Statement (.hclk f) :=
  fun _ h => nomatch h
theorem Major.hbr (f : HFields) : Major.Statement (.hbr f) :=
  fun _ h => nomatch h
theorem Major.hloop (f : HFields) : Major.Statement (.hloop f) :=
  fun _ h => nomatch h
theorem Major.vld (f : HFields) : Major.Statement (.vld f) :=
  fun _ h => nomatch h
theorem Major.vst (f : HFields) : Major.Statement (.vst f) :=
  fun _ h => nomatch h
theorem Major.qadd (f : HFields) : Major.Statement (.qadd f) :=
  fun _ h => nomatch h
theorem Major.qsub (f : HFields) : Major.Statement (.qsub f) :=
  fun _ h => nomatch h
theorem Major.qmul (f : HFields) : Major.Statement (.qmul f) :=
  fun _ h => nomatch h
theorem Major.qfma (f : HFields) : Major.Statement (.qfma f) :=
  fun _ h => nomatch h
theorem Major.qmuls (f : HFields) : Major.Statement (.qmuls f) :=
  fun _ h => nomatch h
theorem Major.qminmax (f : HFields) : Major.Statement (.qminmax f) :=
  fun _ h => nomatch h
theorem Major.qrsq (f : HFields) : Major.Statement (.qrsq f) :=
  fun _ h => nomatch h
theorem Major.qbc (f : HFields) : Major.Statement (.qbc f) :=
  fun _ h => nomatch h
theorem Major.qsum (f : HFields) : Major.Statement (.qsum f) :=
  fun _ h => nomatch h
theorem Major.qinsQext (f : HFields) : Major.Statement (.qinsQext f) :=
  fun _ h => nomatch h
theorem Major.ropen (f : HFields) : Major.Statement (.ropen f) :=
  fun _ h => nomatch h
theorem Major.racc (f : HFields) : Major.Statement (.racc f) :=
  fun _ h => nomatch h
theorem Major.rwr (f : HFields) : Major.Statement (.rwr f) :=
  fun _ h => nomatch h
theorem Major.rclr (f : HFields) : Major.Statement (.rclr f) :=
  fun _ h => nomatch h
theorem Major.claim (f : HFields) : Major.Statement (.claim f) :=
  fun _ h => nomatch h
theorem Major.unclm (f : HFields) : Major.Statement (.unclm f) :=
  fun _ h => nomatch h
theorem Major.signal (f : HFields) : Major.Statement (.signal f) :=
  fun _ h => nomatch h
theorem Major.cuew (f : HFields) : Major.Statement (.cuew f) :=
  fun _ h => nomatch h
theorem Major.aqsvc (f : HFields) : Major.Statement (.aqsvc f) :=
  fun _ h => nomatch h
theorem Major.end_ (f : HFields) : Major.Statement (.end_ f) :=
  fun _ h => nomatch h
theorem Major.launch (p : Nat) : Major.Statement (.launch p) :=
  fun _ h => nomatch h
theorem Major.graph (p : Nat) : Major.Statement (.graph p) :=
  fun _ h => nomatch h
theorem Major.preempt (p : Nat) : Major.Statement (.preempt p) :=
  fun _ h => nomatch h
theorem Major.resume (p : Nat) : Major.Statement (.resume p) :=
  fun _ h => nomatch h
theorem Major.reset (p : Nat) : Major.Statement (.reset p) :=
  fun _ h => nomatch h
theorem Major.mark (p : Nat) : Major.Statement (.mark p) :=
  fun _ h => nomatch h
theorem Major.drop (p : Nat) : Major.Statement (.drop p) :=
  fun _ h => nomatch h
theorem Major.unassignedOpc (r : RingId) : Major.Statement (.unassignedOpc r) :=
  fun _ h => nomatch h
theorem Major.pcreate : Major.Statement (.pcreate) :=
  fun _ h => nomatch h
theorem Major.premove : Major.Statement (.premove) :=
  fun _ h => nomatch h
theorem Major.grant : Major.Statement (.grant) :=
  fun _ h => nomatch h
theorem Major.attest : Major.Statement (.attest) :=
  fun _ h => nomatch h
theorem Major.cmdTailDoorbell (r : RingId) (entries : List CmdEntry) (tail : Nat) : Major.Statement (.cmdTailDoorbell r entries tail) :=
  fun _ h => nomatch h
theorem Major.cplHeadAdvance (r : RingId) (head : Nat) : Major.Statement (.cplHeadAdvance r head) :=
  fun _ h => nomatch h
theorem Major.placementGroupStart (p : Nat) : Major.Statement (.placementGroupStart p) :=
  fun _ h => nomatch h
theorem Major.warpEnterActive (col : Nat) : Major.Statement (.warpEnterActive col) :=
  fun _ h => nomatch h
theorem Major.warpOverdue (col slot : Nat) : Major.Statement (.warpOverdue col slot) :=
  fun _ h => nomatch h
theorem Major.loadDataReturn (col op req : Nat) : Major.Statement (.loadDataReturn col op req) :=
  fun _ h => nomatch h
theorem Major.storePerformed (col op req : Nat) : Major.Statement (.storePerformed col op req) :=
  fun _ h => nomatch h
theorem Major.gwctReturn (col op : Nat) : Major.Statement (.gwctReturn col op) :=
  fun _ h => nomatch h
theorem Major.leaseExpiry (col ctx line : Nat) : Major.Statement (.leaseExpiry col ctx line) :=
  fun _ h => nomatch h
theorem Major.releaseWaitEnd (col slot : Nat) : Major.Statement (.releaseWaitEnd col slot) :=
  fun _ h => nomatch h
theorem Major.subnormalReplayDone (col op : Nat) : Major.Statement (.subnormalReplayDone col op) :=
  fun _ h => nomatch h
theorem Major.sequencerTicket : Major.Statement (.sequencerTicket) :=
  fun _ h => nomatch h
theorem Major.retirementTrackerFree (col entry : Nat) : Major.Statement (.retirementTrackerFree col entry) :=
  fun _ h => nomatch h
theorem Major.launchEndOnColumn (col launch : Nat) : Major.Statement (.launchEndOnColumn col launch) :=
  fun _ h => nomatch h
theorem Major.barrierPhaseComplete (col gang bar : Nat) : Major.Statement (.barrierPhaseComplete col gang bar) :=
  fun _ h => nomatch h
theorem Major.bardPhaseComplete (launch unit channel : Nat) : Major.Statement (.bardPhaseComplete launch unit channel) :=
  fun _ h => nomatch h
theorem Major.xchSendArrival (col slot : Nat) : Major.Statement (.xchSendArrival col slot) :=
  fun _ h => nomatch h
theorem Major.msgDelivery (col entry : Nat) : Major.Statement (.msgDelivery col entry) :=
  fun _ h => nomatch h
theorem Major.msgCompletionReturn (col op : Nat) : Major.Statement (.msgCompletionReturn col op) :=
  fun _ h => nomatch h
theorem Major.ringChangeReport (col dst ring : Nat) : Major.Statement (.ringChangeReport col dst ring) :=
  fun _ h => nomatch h
theorem Major.rwaitWake (col slot : Nat) : Major.Statement (.rwaitWake col slot) :=
  fun _ h => nomatch h
theorem Major.rwaitTimeout (col slot : Nat) : Major.Statement (.rwaitTimeout col slot) :=
  fun _ h => nomatch h
theorem Major.watchWake (col slot : Nat) : Major.Statement (.watchWake col slot) :=
  fun _ h => nomatch h
theorem Major.watchTimeout (col slot : Nat) : Major.Statement (.watchTimeout col slot) :=
  fun _ h => nomatch h
theorem Major.tileOpStart (col queue : Nat) : Major.Statement (.tileOpStart col queue) :=
  fun _ h => nomatch h
theorem Major.tileOpComplete (col queue : Nat) : Major.Statement (.tileOpComplete col queue) :=
  fun _ h => nomatch h
theorem Major.copyStart (col op : Nat) : Major.Statement (.copyStart col op) :=
  fun _ h => nomatch h
theorem Major.copyComplete (col op : Nat) : Major.Statement (.copyComplete col op) :=
  fun _ h => nomatch h
theorem Major.graphReplayStart (die : Nat) : Major.Statement (.graphReplayStart die) :=
  fun _ h => nomatch h
theorem Major.graphNodeStart (die replay node : Nat) : Major.Statement (.graphNodeStart die replay node) :=
  fun _ h => nomatch h
theorem Major.graphNodeFinish (die replay node : Nat) : Major.Statement (.graphNodeFinish die replay node) :=
  fun _ h => nomatch h
theorem Major.cueWaitPoll (die replay node : Nat) : Major.Statement (.cueWaitPoll die replay node) :=
  fun _ h => nomatch h
theorem Major.stagehandProgramStart (col : Nat) : Major.Statement (.stagehandProgramStart col) :=
  fun _ h => nomatch h
theorem Major.claimComplete (col : Nat) : Major.Statement (.claimComplete col) :=
  fun _ h => nomatch h
theorem Major.cuewWake (col : Nat) : Major.Statement (.cuewWake col) :=
  fun _ h => nomatch h
theorem Major.atomicQueueServe (col : Nat) : Major.Statement (.atomicQueueServe col) :=
  fun _ h => nomatch h
theorem Major.bankWindow (col bank : Nat) : Major.Statement (.bankWindow col bank) :=
  fun _ h => nomatch h
theorem Major.tableWalkComplete (col ctx off : Nat) (write priv : Bool) : Major.Statement (.tableWalkComplete col ctx off write priv) :=
  fun _ h => nomatch h
theorem Major.wingStageFaultArrival (col ctx gran : Nat) : Major.Statement (.wingStageFaultArrival col ctx gran) :=
  fun _ h => nomatch h
theorem Major.faultRecordSend (p ctx gran : Nat) : Major.Statement (.faultRecordSend p ctx gran) :=
  fun _ h => nomatch h
theorem Major.faultResolution (p rseq : Nat) (col : Nat) (v : Verdict) : Major.Statement (.faultResolution p rseq col v) :=
  fun _ h => nomatch h
theorem Major.deferredTrap (col slot : Nat) : Major.Statement (.deferredTrap col slot) :=
  fun _ h => nomatch h
theorem Major.migration (p ctx page frame : Nat) : Major.Statement (.migration p ctx page frame) :=
  fun _ h => nomatch h
theorem Major.fetchLineArrival (col slot : Nat) : Major.Statement (.fetchLineArrival col slot) :=
  fun _ h => nomatch h
theorem Major.haltTick (p : Nat) : Major.Statement (.haltTick p) :=
  fun _ h => nomatch h
theorem Major.imageWriteDone (p col : Nat) : Major.Statement (.imageWriteDone p col) :=
  fun _ h => nomatch h
theorem Major.hold (p : Nat) : Major.Statement (.hold p) :=
  fun _ h => nomatch h
theorem Major.holdRelease (p : Nat) : Major.Statement (.holdRelease p) :=
  fun _ h => nomatch h
theorem Major.rehearsalStart (col : Nat) : Major.Statement (.rehearsalStart col) :=
  fun _ h => nomatch h
theorem Major.rehearsalEnd (col unit block : Nat) : Major.Statement (.rehearsalEnd col unit block) :=
  fun _ h => nomatch h
theorem Major.columnRetirement (col understudy : Nat) (readable : Bool) : Major.Statement (.columnRetirement col understudy readable) :=
  fun _ h => nomatch h
theorem Major.powerOn (step : BringUp) : Major.Statement (.powerOn step) :=
  fun _ h => nomatch h
theorem Major.portTrained (port : Nat) (margins : List Nat) : Major.Statement (.portTrained port margins) :=
  fun _ h => nomatch h
theorem Major.flitReceive (port : Nat) (wire : List Byte) : Major.Statement (.flitReceive port wire) :=
  fun _ h => nomatch h
theorem Major.retryRequestReceive (port : Nat) (ack : BitVec 16) : Major.Statement (.retryRequestReceive port ack) :=
  fun _ h => nomatch h
theorem Major.portRetrain (port : Nat) (margins : Option (List Nat)) : Major.Statement (.portRetrain port margins) :=
  fun _ h => nomatch h
theorem Major.hostMemoryRead (port addr len : Nat) : Major.Statement (.hostMemoryRead port addr len) :=
  fun _ h => nomatch h
theorem Major.hostMemoryWrite (port addr : Nat) (bytes : List Byte) : Major.Statement (.hostMemoryWrite port addr bytes) :=
  fun _ h => nomatch h
theorem Major.powerLimitState (power : Nat) (junction : Vector Nat 4) : Major.Statement (.powerLimitState power junction) :=
  fun _ h => nomatch h
theorem Major.clockGateIdle (col : Nat) : Major.Statement (.clockGateIdle col) :=
  fun _ h => nomatch h
theorem Major.thermalHoldEntry (junction : Vector Nat 4) (inlet : Nat) : Major.Statement (.thermalHoldEntry junction inlet) :=
  fun _ h => nomatch h
theorem Major.thermalHoldExit (junction : Vector Nat 4) (inlet : Nat) : Major.Statement (.thermalHoldExit junction inlet) :=
  fun _ h => nomatch h
theorem Major.twimorIdentityRead : Major.Statement (.twimorIdentityRead) :=
  fun _ h => nomatch h
theorem Major.twimorSensorRead : Major.Statement (.twimorSensorRead) :=
  fun _ h => nomatch h
theorem Major.twimorErrorRecordRead (die : Nat) : Major.Statement (.twimorErrorRecordRead die) :=
  fun _ h => nomatch h
theorem Major.twimorImageWrite (part : FlashPart) (die : Nat) (bytes : List Byte) : Major.Statement (.twimorImageWrite part die bytes) :=
  fun _ h => nomatch h
theorem Major.twimorModuleReset : Major.Statement (.twimorModuleReset) :=
  fun _ h => nomatch h
theorem Major.functionFailure (f : ReadyFn) : Major.Statement (.functionFailure f) :=
  fun _ h => nomatch h
theorem Major.debuggerResume (col slot : Nat) (after : Bool) : Major.Statement (.debuggerResume col slot after) :=
  fun _ h => nomatch h
theorem Major.debuggerAttach (on : Bool) : Major.Statement (.debuggerAttach on) :=
  fun _ h => nomatch h

end Sys2Proof.Laws
end

