-- ==== Sys2Proof/Laws/Tiles.lean ====
section
/-! SUPPORT. What the runs and splices of tables read and leave, key by key. No law asks for a sorted table. -/

namespace Sys2Proof.Machine

variable {α : Type}

/-- What a run of consecutive keys reads: each key's value. -/
theorem Table.get?_run (t : Table α) {n i lo : Nat} (h : i < n) : (Table.run n lo t)[i]? = some (t.get? (lo + i)) := by
  induction n generalizing i lo t with
  | zero => omega
  | succ n ih =>
    have skip (t : Table α) (a b : Nat) (hab : a ≤ b) : t.get? b = Table.get? (t.dropWhile (fun x => decide (x.1 < a))) b := by
      induction t with
      | nil => rfl
      | cons p t iht =>
        obtain ⟨j, w⟩ := p
        by_cases hj : j < a
        · have h1 : j ≠ b := by omega
          have h2 : ¬ b < j := by omega
          simp [List.dropWhile, hj, Table.get?, h1, h2, iht]
        · simp [List.dropWhile, hj]
    have first := skip t lo (lo + i) (by omega)
    unfold Table.run
    rw [first]
    have top := List.head?_dropWhile_not (fun x : Nat × α => decide (x.1 < lo)) t
    generalize t.dropWhile (fun x => decide (x.1 < lo)) = u at top
    cases u with
    | nil =>
      cases i with
      | zero => rfl
      | succ i => simpa [Table.get?] using ih [] (i := i) (lo := lo + 1) (by omega)
    | cons p u =>
      obtain ⟨j, w⟩ := p
      by_cases hj : j = lo
      · subst hj
        cases i with
        | zero => simp [Table.get?]
        | succ i =>
          have h1 : j ≠ j + (i + 1) := by omega
          have h2 : ¬ j + (i + 1) < j := by omega
          simpa [Table.get?, Nat.add_assoc, Nat.add_comm 1] using ih u (i := i) (lo := j + 1) (by omega)
      · cases i with
        | zero =>
          have h1 : lo < j := by simp at top; omega
          simp [hj, Table.get?, h1]
        | succ i => simpa [hj, Nat.add_assoc, Nat.add_comm 1] using ih ((j, w) :: u) (i := i) (lo := lo + 1) (by omega)

/-- What a splice of consecutive keys leaves at each of them: its value. -/
theorem Table.get?_splice (t : Table α) (lo : Nat) (vs : List α) {i : Nat} (h : i < vs.length) :
    (t.splice lo vs).get? (lo + i) = vs[i]? := by
  have below (t u : Table α) (k : Nat) (hk : lo ≤ k) :
      Table.get? (t.filter (fun x => decide (x.1 < lo)) ++ u) k = Table.get? u k := by
    induction t with
    | nil => rfl
    | cons p t iht =>
      obtain ⟨j, w⟩ := p
      by_cases hj : j < lo
      · have h1 : j ≠ k := by omega
        have h2 : ¬ k < j := by omega
        simp [List.filter, hj, Table.get?, h1, h2, iht]
      · simp [List.filter, hj, iht]
  have mid (vs : List α) (u : Table α) (b i : Nat) (h : i < vs.length) :
      Table.get? ((vs.zipIdx b).map (fun x => (lo + x.2, x.1)) ++ u) (lo + b + i) = vs[i]? := by
    induction vs generalizing b i with
    | nil => simp at h
    | cons v vs ihv =>
      cases i with
      | zero => simp [Table.get?]
      | succ i =>
        have h1 : ¬ lo + b + (i + 1) < lo + b := by omega
        have := ihv (b + 1) i (by simpa using h)
        simpa [Table.get?, h1, Nat.add_assoc, Nat.add_comm 1] using this
  unfold Table.splice
  rw [List.append_assoc, below _ _ _ (by omega)]
  simpa using mid vs _ 0 i h

end Sys2Proof.Machine
end

