-- ==== Sys2Proof/Tests/Slice0.lean ====
section
/-! SUPPORT. Decoding of words written out from the spec, the static checks, the fixed examples of the spec, and, for every statement
with hypotheses, a state and operands that meet them. -/

namespace Sys2Proof.Tests

set_option Elab.async false

open Sys2Proof Sys2Proof.Machine

/-! ## Small states and operands -/

/-- One fresh warp in slot 0 of column 0, issuing at PC 0, in the bounds and the partition of a placed word. -/
def st : State := { vault := [], dev := State.reset.dev.placed.modCol 0 (fun k => k.placed 0) }

/-- That warp changed. -/
def stw (g : Warp → Warp) : State := { st with dev := st.dev.modCurWarp g }

/-- That column changed. -/
def stc (g : Column → Column) : State := { st with dev := st.dev.modCol 0 g }

/-- Launch 0: one column of one gang of eight warps, with a private window of 32 bytes a lane. -/
def launch0 : Launch :=
  { id := 0, ctx := 0, part := 0, origin := .loaded, placed := 1, cols := [0], ended := [],
    rec_ := {
      entry := 0, objBase := 0, objLast := 0, regs := 256, spad := 128, acc := 8, l1min := 1, spawnw := 0, pwin := 32, prio := 0,
      fixsum := true, partid := 0, nlev := 3, seed := 0, fabidx := 0, args := 0,
      levels := [{ scope := 0, dom := 4, ext := 1 }, { scope := 0, dom := 3, ext := 1 }, { scope := 0, dom := 2, ext := 8 }] } }

/-- The same state with that launch. -/
def withLaunch (s : State) : State := { s with dev := { s.dev with launches := [(0, launch0)] } }

/-- The warp's page privileged. -/
def priv (s : State) : State := { s with dev := { s.dev with cur := { s.dev.cur with priv := true } } }

def hd (t : BitVec 5) : Head := { ty := t, u := false, s := false, rm := 0, gn := false, gp := 0 }
/-- A head that selects no lane: p1 of a fresh warp is empty. -/
def none1 : Head := { hd 0 with gp := 1 }
def rg (n : Nat) : Operand := { ind := false, reg := BitVec.ofNat 8 n, pat := 0, k := 0 }
def zr : Operand := { ind := false, reg := 0, pat := 0, k := 0 }

/-- Destination r4 (or p4), A r1, B r2, C r3; and the same with fewer sources or an immediate. -/
def v3 (t : BitVec 5) (sub : BitVec 8) : VFields := { h := hd t, d := 4, a := rg 1, bc := 0x01000180, sub := sub, hint := 0 }
def v2 (t : BitVec 5) (sub : BitVec 8) : VFields := { v3 t sub with bc := 0x01000000 }
def v1 (t : BitVec 5) (sub : BitVec 8) : VFields := { v3 t sub with bc := 0 }
def v0 (t : BitVec 5) (sub : BitVec 8) : VFields := { v1 t sub with a := zr }
def vi (t : BitVec 5) (sub : BitVec 8) (imm : Word) : VFields := { v1 t (sub ||| 0x80) with bc := imm }
/-- Predicates as sources: A p1, B p2, C p3. -/
def vp (sub : BitVec 8) (bc : Word) : VFields := { v1 0 sub with a := { zr with k := 1 }, bc := bc }

def cf (sub : BitVec 8) : CFields := { h := hd 0, tgt := 0, rcv := 0, ur := 0, sub := sub }
def mf (t : BitVec 5) (size : BitVec 3) : MFields :=
  { h := hd t, dat := 4, adr := rg 8, obj := 0, off := 0, size := size, cpol := 0, ord := 0, obs := 0 }
def xf : XFields := { h := hd 0, d := 4, a := zr, dom := 0, pk := 0, pp := 0, num := 0, lsp := 0, sub := 0 }
def sf (sr : BitVec 12) : SFields := { h := hd 0, sr := sr, d := 4, a := rg 2, sub := 0 }
def hf (x : BitVec 3) (imm : BitVec 32) : HFields := { d := 1, s := 2, t := 3, x := x, imm := imm }

/-! ## Witnesses: integer, floating-point and conversion instructions -/

theorem witness_IntegerArithmetic :
    (let f := v2 Fmt.i32 0
      let x := vIn f st 2
      let us := [Use.of (x.src 1 f.a) f.h.ty, Use.of (x.srcB f f.h.ty) f.h.ty]
      [Instr.iadd f, .isub f, .imul f, .imulh f, .imin f, .imax f].all Instr.wf && decide (x.Ready f us none)) = true ∧
    (let f := v3 Fmt.i32 0
      let x := vIn f st 3
      let us := [Use.of (x.src 1 f.a) f.h.ty, Use.of (x.srcB f f.h.ty) f.h.ty, Use.of (x.srcC f) f.h.ty]
      (Instr.imad f).wf && decide (x.Ready f us none)) = true ∧
    (let f := v3 Fmt.i8x4 0
      let x := vIn f st 3
      let us := [Use.of (x.src 1 f.a) f.h.ty, Use.of (x.srcB f f.h.ty) f.h.ty, Use.of (x.srcC f) Fmt.i32]
      (Instr.idot4 f).wf && decide (x.Ready f us none)) = true ∧
    (let f := v1 Fmt.i32 0
      let x := vIn f st 1
      (Instr.iabs f).wf && decide (x.Ready f [Use.of (x.src 1 f.a) f.h.ty] none)) = true := by decide +kernel

/-- A warp whose r1 is affine, and r2 uniform; the same with a general r2. -/
def stLine : State := stw (fun w => { w with regs := [(1, { fmt := 0, data := .affine 5 4 false }), (2, { fmt := 0, data := .uniform 3 false })] })
def stMixed : State := stw (fun w => { w with
  regs := [(1, { fmt := 0, data := .affine 5 4 false }), (2, { fmt := 0, data := .general (Vector.replicate 32 7) 0 })] })

theorem witness_IntegerArithmetic_shapes :
    (let ok (s : State) (h : Head) : Bool :=
        let f := { v2 Fmt.ui32 0 with h := h }
        let x := vIn f s 2
        let two := [Use.of (x.src 1 f.a) f.h.ty, Use.of (x.srcB f f.h.ty) f.h.ty]
        let logic := [logicUse f.h.ty (x.src 1 f.a), logicUse f.h.ty (x.srcB f f.h.ty)]
        [Instr.iadd f, .isub f, .imul f, .imin f, .imax f, .and f, .or f, .xor f, .andn f, .shl f, .shr f, .sar f, .rot f].all
          Instr.wf && decide (x.Ready f two none ∧ x.Ready f logic none)
      let at_ (s : State) (r : Nat) := (vIn (v2 Fmt.ui32 0) s 2).reg 1 r (rg r)
      let full (s : State) := (vIn (v2 Fmt.ui32 0) s 2).act
      let few := { hd Fmt.ui32 with gp := 1 }
      [st, stLine, stMixed].all (fun s => ok s (hd Fmt.ui32)) && ok stLine few && decide (affineTag Fmt.ui32 = true ∧
        (full st = Mask.all ∧ full stLine = Mask.all ∧ full stMixed = Mask.all) ∧
        (vIn { v2 Fmt.ui32 0 with h := few } stLine 2).act ≠ Mask.all ∧ (v2 Fmt.ui32 0).d.getLsbD 8 = false ∧
        ((at_ st 1).shape = .uniform ∧ (at_ st 2).shape = .uniform) ∧ (at_ stMixed 2).shape = .general ∧
        (at_ stLine 1).line = some (5, 4) ∧ (at_ stLine 2).line = some (3, 0) ∧ (at_ stLine 2).shape = .uniform)) = true ∧
    (let f := v1 Fmt.ui32 0
      let ok (s : State) : Bool :=
        let y := vIn f s 1
        let z : VCtx := vctx s.dev f.h [dstOperand f.d, f.a]
        decide (y.Ready f [Use.any (y.src 1 f.a)] none ∧ z.Ready f [Use.of (z.src 1 f.a) f.h.ty] none ∧ y.act = Mask.all ∧ z.act = Mask.all)
      [st, stLine].all ok && decide (((vIn f stLine 1).src 1 f.a).shape = .affine 5 4 ∧ ((vIn f st 1).src 1 f.a).shape = .uniform) &&
        [Instr.retag f, .mov f].all Instr.wf) = true := by decide +kernel

theorem witness_ComparisonsAndMoves :
    (let f := v2 Fmt.i32 0
      let x := vIn f st 2
      (Instr.icmp f).wf && decide (x.ReadyPred f [Use.of (x.src 1 f.a) f.h.ty, Use.of (x.srcB f f.h.ty) f.h.ty] none)) = true ∧
    (let f := v2 Fmt.f32 0
      let x := vIn f st 2
      (Instr.fcmp f).wf && decide (x.ReadyPred f [Use.of (x.src 1 f.a) f.h.ty, Use.of (x.srcB f f.h.ty) f.h.ty] none)) = true ∧
    (let f := vp 0 0x00028003
      let p (o : Operand) := st.dev.curWarp.pred (o.bits.toNat % 8)
      (Instr.plop f).wf && decide ((vIn f st 0).ReadyPred f [] (predCheck [p f.a, p f.b, p f.c]))) = true ∧
    (let f := v3 Fmt.raw 0
      let x := vIn f st 2
      let a := x.src 1 f.a
      let b := x.srcB f a.tag
      (Instr.sel { f with bc := 0x01000000 }).wf && decide (x.Ready f [{ src := a, want := none, one := true },
        { src := b, want := none, one := true, eq := some a.tag }] (predCheck [selPred st.dev.curWarp f]))) = true ∧
    (let f := v1 Fmt.raw 0
      let y : VCtx := vctx st.dev f.h [dstOperand f.d, f.a]
      (Instr.mov f).wf && decide (y.Ready f [{ src := y.src 1 f.a, want := none, one := true }] none)) = true ∧
    (let f := v1 0 1
      let z := vIn f st 0
      let n := f.subBits 2 0 + 1
      (Instr.movs f).wf && decide (z.ReadyRange f [boundCheck z.regs (dstReg f.d + n - 1), boundCheck z.regs (1 + n - 1)]
        ((List.range n).map (fun i => Use.any (z.reg 1 (1 + i) f.a))))) = true := by decide +kernel

theorem witness_LogicInstructions :
    (let f := v2 Fmt.ui32 0
      let x := vIn f st 2
      [Instr.and f, .or f, .xor f, .andn f, .shl f, .shr f, .sar f, .rot f, .bfx f].all Instr.wf &&
        decide (x.Ready f [logicUse f.h.ty (x.src 1 f.a), logicUse f.h.ty (x.srcB f f.h.ty)] none)) = true ∧
    (let f := v1 Fmt.ui32 0
      let x := vIn f st 1
      [Instr.popc f, .clz f, .brev f].all Instr.wf && decide (x.Ready f [logicUse f.h.ty (x.src 1 f.a)] none)) = true ∧
    (let f := v3 Fmt.ui32 0
      let y := vIn f st 3
      (Instr.bfi f).wf && decide (y.Ready f
        [logicUse f.h.ty (y.src 1 f.a), logicUse f.h.ty (y.srcB f f.h.ty), logicUse f.h.ty (y.srcC f)] none)) = true ∧
    (let f := v3 0 0
      let z : VCtx := vctx st.dev f.h [dstOperand f.d, f.a, f.b, f.c]
      [Instr.bswz f, .tern { f with sub := 0xCA }].all Instr.wf &&
        decide (z.Ready f [Use.any (z.src 1 f.a), Use.any (z.src 2 f.b), Use.any (z.src 3 f.c)] none)) = true := by decide +kernel

theorem witness_PointersAndCoordinates :
    (let f := v2 Fmt.ui32 0
      let x := vIn f st 2
      let b := x.srcB f Fmt.ui32
      [Instr.lea f, .cadr f].all Instr.wf && decide (x.ReadyRange f [boundCheck x.regs (dstReg f.d + 1), boundCheck x.regs 2,
        b.boundCheck x.regs] [Use.ptr (x.reg 1 1 f.a), Use.ptr (x.reg 1 2 f.a), Use.ptr b])) = true ∧
    (let f := v1 Fmt.ui32 0
      let y := vIn f st 1
      let us := [Use.ptr (y.reg 1 1 f.a), Use.ptr (y.reg 1 2 f.a)]
      (Instr.cget f).wf && !y.notReady us &&
        !y.fifthWindow f.d && decide (y.checks f.h.u [dstBound y.regs f.d, boundCheck y.regs 2] (y.dstWin f.d) us none [] = none)) = true ∧
    (let f := v1 Fmt.ui32 1
      let y := vIn f st 1
      (Instr.cget f).wf && decide (y.ReadyRange f [boundCheck y.regs (dstReg f.d + 1), boundCheck y.regs 2]
        [Use.ptr (y.reg 1 1 f.a), Use.ptr (y.reg 1 2 f.a)])) = true ∧
    (let f := v0 Fmt.ui32 0
      let x : VCtx := vctx st.dev f.h [dstOperand f.d]
      (Instr.tidx f).wf && !f.h.u && decide (x.Ready f [] none)) = true := by decide +kernel

theorem witness_FloatArithmetic :
    (let f := v2 Fmt.f32 0
      let x := vIn f st 2
      let t := f.h.ty
      let a := x.src 1 f.a
      let b := x.srcB f t
      let av (l i : Nat) := elemVal t (lane a.vals l) i
      let bv (l i : Nat) := elemVal t (lane b.vals l) i
      let dry (g : FVal → FVal → FVal) : Bool :=
        replayMask x.act [{ src := a, fmt := t }, { src := b, fmt := t }] t (fun l i => g (av l i) (bv l i)) == 0
      [Instr.fadd f, .fsub f, .fmul f, .fdiv f, .fmin f, .fmax f].all Instr.wf && decide (x.Ready f [Use.of a t, Use.of b t] none) &&
        dry (FVal.add f.h.rm) && dry (fun m n => FVal.add f.h.rm m n.negate) && dry FVal.mul) = true ∧
    (let f := v3 Fmt.f32 0
      let x := vIn f st 3
      let t := f.h.ty
      let a := x.src 1 f.a
      let b := x.srcB f t
      let c := x.srcC f
      (Instr.ffma f).wf && decide (x.Ready f [Use.of a t, Use.of b t, Use.of c t] none) &&
        replayMask x.act [{ src := a, fmt := t }, { src := b, fmt := t }, { src := c, fmt := t }] t (fun l i => FVal.add f.h.rm
          (FVal.mul (elemVal t (lane a.vals l) i) (elemVal t (lane b.vals l) i)) (elemVal t (lane c.vals l) i)) == 0) = true ∧
    (let f := v3 Fmt.f16x2 0
      let x := vIn f st 3
      let t := f.h.ty
      let a := x.src 1 f.a
      let b := x.srcB f t
      let c := x.srcC f
      let av (l i : Nat) := elemVal t (lane a.vals l) i
      let bv (l i : Nat) := elemVal t (lane b.vals l) i
      (Instr.fdot2 f).wf && decide (x.Ready f [Use.of a t, Use.of b t, Use.of c Fmt.f32] none) &&
        replayMask x.act [{ src := a, fmt := t }, { src := b, fmt := t }, { src := c, fmt := Fmt.f32 }] Fmt.f32 (fun l _ =>
          FVal.sum f.h.rm [elemVal Fmt.f32 (lane c.vals l) 0, FVal.mul (av l 0) (bv l 0), FVal.mul (av l 1) (bv l 1)]) == 0) = true ∧
    (let f := v1 Fmt.f32 0
      let y := vIn f st 1
      (Instr.fsqrt f).wf && decide (y.Ready f [Use.of (y.src 1 f.a) f.h.ty] none)) = true := by decide +kernel

/-- A warp whose r1 holds the least subnormal FP32 number in every lane. -/
def stSub : State := stw (fun w => { w with regs := [(1, { fmt := Fmt.f32, data := .uniform 1 false })] })

theorem witness_SubnormalReplay :
    (let f := v2 Fmt.f32 0
      let x := vIn f stSub 2
      let t := f.h.ty
      let a := x.src 1 f.a
      let b := x.srcB f t
      let wet (g : FVal → FVal → FVal) : Bool := replayMask x.act [{ src := a, fmt := t }, { src := b, fmt := t }] t
        (fun l i => g (elemVal t (lane a.vals l) i) (elemVal t (lane b.vals l) i)) != 0
      [Instr.fadd f, .fsub f, .fmul f].all Instr.wf && decide (x.Ready f [Use.of a t, Use.of b t] none) &&
        wet (FVal.add f.h.rm) && wet (fun m n => FVal.add f.h.rm m n.negate) && wet FVal.mul) = true ∧
    (let f := v3 Fmt.f32 0
      let x := vIn f stSub 3
      let t := f.h.ty
      let a := x.src 1 f.a
      let b := x.srcB f t
      let c := x.srcC f
      (Instr.ffma f).wf && decide (x.Ready f [Use.of a t, Use.of b t, Use.of c t] none) &&
        replayMask x.act [{ src := a, fmt := t }, { src := b, fmt := t }, { src := c, fmt := t }] t (fun l i => FVal.add f.h.rm
          (FVal.mul (elemVal t (lane a.vals l) i) (elemVal t (lane b.vals l) i)) (elemVal t (lane c.vals l) i)) != 0) = true ∧
    (let f := v3 Fmt.f16x2 0
      let s := stw (fun w => { w with regs := [(1, { fmt := Fmt.f16x2, data := .uniform 1 false })] })
      let x := vIn f s 3
      let t := f.h.ty
      let a := x.src 1 f.a
      let b := x.srcB f t
      let c := x.srcC f
      let av (l i : Nat) := elemVal t (lane a.vals l) i
      let bv (l i : Nat) := elemVal t (lane b.vals l) i
      (Instr.fdot2 f).wf && decide (x.Ready f [Use.of a t, Use.of b t, Use.of c Fmt.f32] none) &&
        replayMask x.act [{ src := a, fmt := t }, { src := b, fmt := t }, { src := c, fmt := Fmt.f32 }] Fmt.f32 (fun l _ =>
          FVal.sum f.h.rm [elemVal Fmt.f32 (lane c.vals l) 0, FVal.mul (av l 0) (bv l 0), FVal.mul (av l 1) (bv l 1)]) != 0) = true ∧
    (let o : MemOp := { st.dev.newOp .replay Fmt.f32 2 [] with done := [{ reg := 4, lane := 31, val := 1, pois := false }] }
      let s := stc (fun k => { k with ops := [o] })
      let late : State := { s with dev := { s.dev with now := 17 } }
      (s.dev.col 0).op? 0 = some o ∧ o.kind = .replay ∧ s.dev.now ≤ o.itick + 16 ∧ (late.dev.col 0).op? 0 = some o ∧
        o.itick + 16 < late.dev.now ∧ o.killed = [] ∧ o.window = false ∧ o.uni = false ∧
        (∀ x ∈ o.done, x.lane < 32 ∧ ∀ y ∈ o.done, y.reg = x.reg → y.lane = x.lane → y = x) ∧
        o.dead 4 31 = false ∧ { o with killed := [(4, Mask.all)] }.dead 4 31 = true) := by
  refine ⟨by decide +kernel, by decide +kernel, by decide +kernel, ?_⟩
  dsimp only
  decide +kernel

theorem witness_SpecialFunctionsAndClass :
    (let f := v1 Fmt.f32 0
      let x := vIn f st 1
      [Instr.frcp f, .frsq f, .fex2 f, .flg2 f, .fsin f, .fcos f, .ftanh f, .fclass f].all Instr.wf &&
        decide (x.Ready f [Use.of (x.src 1 f.a) f.h.ty] none)) = true := by decide +kernel

theorem witness_Conversions :
    (let f := { v1 Fmt.f16x2 0 with bc := 0x00010000 }
      let x := vIn f st 1
      let a := x.src 1 f.a
      let old := x.old f.d
      (Instr.cvt f).wf && decide (x.Ready f [Use.of a Fmt.f32, Use.of old f.h.ty] none)) = true ∧
    (let f := v2 Fmt.i8x4 6
      let y := vIn f st 2
      (Instr.qnt f).wf && decide (y.Ready f [Use.of (y.src 1 f.a) Fmt.f32, Use.of (y.src 2 f.b) Fmt.ui32, Use.of (y.old f.d) f.h.ty]
        none)) = true ∧
    (let f := v2 Fmt.f32 0x1E
      let x := vIn f st 2
      (Instr.dqnt f).wf && decide (x.Ready f [Use.of (x.src 1 f.a) Fmt.i4x8, Use.of (x.src 2 f.b) Fmt.ui32] none)) = true ∧
    (let f := v2 Fmt.i8x4 1
      let x := vIn f st 2
      (Instr.pack f).wf && decide (x.Ready f [Use.of (x.src 1 f.a) f.h.ty, Use.of (x.src 2 f.b) f.h.ty] none)) = true ∧
    (let f := v1 Fmt.i8x4 1
      let y := vIn f st 1
      (Instr.unpk f).wf && decide (y.Ready f [Use.of (y.src 1 f.a) f.h.ty] none)) = true ∧
    (let f := v1 Fmt.e2m3x4 0
      let y := vIn f st 1
      (Instr.retag f).wf && decide (y.Ready f [Use.any (y.src 1 f.a)] none)) = true := by decide +kernel

theorem witness_BlockConversions :
    (let f := { v1 4 1 with d := 8, bc := 0x03000000 }
      let x : VCtx := vctx st.dev f.h [f.b]
      let k := blockRegs f.h.ty
      let comp := x.src 2 f.b
      (Instr.cvtb f).wf && f.subBit 0 &&
        decide (x.ReadyRange f [boundCheck x.regs (dstReg f.d + wideRegs false - 1), boundCheck x.regs (1 + k - 1), comp.boundCheck x.regs]
          ((List.range k).map (fun i => Use.of (x.reg 1 (1 + i) f.a) f.h.ty) ++ [Use.of comp Fmt.e8m0x4]))) = true ∧
    (let ok (s : State) (f : VFields) : Bool :=
        let x : VCtx := vctx s.dev f.h [f.b]
        let k := blockRegs f.h.ty
        let nw := wideRegs false
        let old := { x.oldOf f.b with code := 2 }
        let vc (l : Nat) := if f.b.ind then regAt x.w x.act x.pre f.b l else f.b.reg.toNat
        (Instr.cvtb f).wf && !f.subBit 0 && !x.windowsFull && (List.range 32).all (fun l => decide (vc l < dstReg f.d ∨ dstReg f.d + k ≤ vc l)) &&
          decide (x.ReadyRange f [boundCheck x.regs (dstReg f.d + k - 1), boundCheck x.regs (1 + nw - 1), old.boundCheck x.regs]
            ((List.range nw).map (fun i => Use.of (x.reg 1 (1 + i) f.a) (wideFmt false)) ++ [Use.of old Fmt.e8m0x4]))
      let s := stw (fun w => { w with ix := w.ix.set 0 { IxReg.start with bound := 8 } })
      ok st { v1 4 0 with d := 64, bc := 0x03000000 } && ok s { v1 4 0 with d := 64, bc := 0x80000000 }) = true := by
  decide +kernel

/-! ## Witnesses: lanes, index registers, control flow and traps -/

/-- The memory of a placed word: offset 0 is mapped to a line whose slot 0 is a target. -/
def mapped : Memory := Memory.placed [] 0
def stm : State := { st with vault := mapped }

theorem witness_LaneMoves :
    (let f := { v3 0 0 with bc := 0x01000000 }
      let x : VCtx := vctx st.dev f.h []
      (Instr.lget f).wf && decide (x.Ready f [Use.any (x.src 1 f.a), Use.any (x.srcB f Fmt.raw)] none)) = true ∧
    (let f := v3 0 2
      let x : VCtx := vctx st.dev f.h []
      let a := x.src 1 f.a
      (Instr.lget f).wf && decide (x.Ready f [Use.any a, Use.any (x.srcB f Fmt.raw), { Use.any (x.src 3 f.c) with eq := some a.tag }]
        none)) = true ∧
    (let f := vi 0 0x10 31
      let x : VCtx := vctx st.dev f.h []
      let us := [Use.any (x.src 1 f.a)]
      (Instr.lput f).wf && !x.notReady us && decide (x.checks false (dstBound x.regs f.d :: x.bounds us) none us none [] = none)) = true ∧
    (let f := { v2 0 1 with d := 0 }
      let x : VCtx := vctx st.dev f.h []
      let us := [Use.any (x.src 1 f.a), { Use.any (x.src 2 f.b) with eq := some (x.src 1 f.a).tag }]
      (Instr.bfly f).wf && !x.notReady us && decide (x.checks false (x.bounds us) none us none [] = none)) = true := by decide +kernel

theorem witness_VotesAndReductions :
    ((Instr.setpart { vi 0 0 5 with d := 0, a := zr }).wf && decide (st.selected (hd 0))) = true ∧
    (let f := vp 3 0;
      (Instr.poll f).wf && decide (f.subBits 2 0 < 4 ∧ (vctx st.dev f.h []).ReadyPred f [] none)) = true ∧
    (let f := vp 4 0;
      (Instr.poll f).wf && decide (4 ≤ f.subBits 2 0 ∧ (vctx st.dev f.h []).Ready f [] none)) = true ∧
    (let f := v1 0 3
      let x : VCtx := vctx st.dev f.h []
      (Instr.match_ f).wf && decide (x.Ready f [Use.any (x.src 1 f.a)] none)) = true ∧
    (let f := v0 0 1;
      (Instr.elect f).wf && decide ((vctx st.dev f.h []).ReadyPred f [] none)) = true ∧
    (let f := v1 Fmt.i32 0
      let x : VCtx := vctx st.dev f.h []
      [Instr.redc f, .scan f].all Instr.wf && decide (x.Ready f [logicUse f.h.ty (x.src 1 f.a)] none)) = true := by decide +kernel

theorem witness_IndexRegisters :
    (let f := vi 0 1 0x04020110
      let src := Src.const 1 f.imm Fmt.ui32
      let x : VCtx := vctx st.dev f.h []
      (Instr.ixset { f with a := zr, bc := 0x04000110 }).wf && decide (st.selected f.h) && !x.notReady [Use.ptr src]) = true ∧
    (let f := v1 0 1
      let x : VCtx := vctx st.dev f.h []
      let src := x.src 1 f.a
      (Instr.ixset f).wf && decide (st.selected f.h) && !x.notReady [Use.ptr src] && decide (firstTrap [src.boundCheck x.regs, src.uniCheck,
        (Use.ptr src).tagCheck, windowBound x.regs (lane src.vals 0), src.poisCheck Mask.all] = none)) = true ∧
    (let f := v1 0 0
      let x : VCtx := vctx st.dev f.h []
      let src := x.src 1 f.a
      (Instr.ixld f).wf && !x.notReady [Use.ptr src] &&
        decide (firstTrap [src.boundCheck x.regs, (Use.ptr src).tagCheck, src.poisCheck x.act] = none)) = true ∧
    (let f := { v0 Fmt.ui32 2 with a := { zr with k := 15 } };
      (Instr.ixmov f).wf && decide ((vctx st.dev f.h []).Ready f [] none)) = true ∧
    (let f := { v0 0 0 with bc := 0x01000000 }
      let x : VCtx := vctx st.dev f.h []
      let step := x.src 2 f.b
      (Instr.ixadv f).wf && !f.subBit 0 && !x.notReady [Use.ptr step] &&
        decide (firstTrap [step.boundCheck x.regs, (Use.ptr step).tagCheck] = none)) = true ∧
    (let f := { v0 0 3 with d := 4 }
      let s := stw (fun w => { w with ix := w.ix.set 4 { IxReg.start with bound := 7, stride := 0xFF } })
      (Instr.ixadv f).wf && f.subBit 0 && f.subBit 1 && decide ((s.dev.curWarp.ixr 4).bound ≠ 0)) = true := by decide +kernel

/-- p1 selects lane 0 only. -/
def stp : State := { stm with dev := (stw (fun w => { w with preds := w.preds.set 0 1 })).dev }

theorem witness_Branches :
    (let ok (s : State) : Bool := (s.checkTarget 0 0 false 0).1 == .ok &&
        ({ s with dev := (s.checkTarget 0 0 false 0).2 }.checkTarget 0 0 false 0).1 == .ok
      let w (s : State) := s.dev.curWarp
      ok stm && (w stm).act (hd 0) == (w stm).e && (w stm).act none1 == 0 && (w stm).e != 0 &&
        ok stp && (w stp).act none1 != 0 && (w stp).act none1 != (w stp).e && decide ((w stp).rstack.length + 2 ≤ 32)) = true ∧
    (let use (r : Nat) : Use := stm.dev.uniUse 4 r 0 0;
      decide (stm.selected (hd 0)) && !stm.dev.curCol.busy 0 [254, 255] && decide (stm.dev.uniTrap 255 [use 254, use 255] [] = none) &&
        decide (stm.dev.uniTrap 255 [use 255] [] = none) && decide (stm.dev.curWarp.retDepth < 16 ∧ stm.dev.curWarp.retLoads = [])) = true ∧
    (let s := stw (fun w => { w with retTop := [7], retDepth := 16 });
      decide (s.selected (hd 0) ∧ 0 < s.dev.curWarp.retDepth ∧ s.dev.curWarp.retDepth ≤ 16 ∧ s.dev.curWarp.retLoads = [])) = true ∧
    (let x : StackEntry := { slot := 9, mask := Mask.all }
      let dead : List StackEntry := [{ slot := 3, mask := 0 }]
      let s := stw (fun w => { w with rstack := dead ++ [x] })
      decide ((∀ y ∈ dead, y.mask &&& ~~~s.dev.curWarp.retired = 0) ∧ s.dev.curWarp.rstack = dead ++ x :: [] ∧
        x.mask &&& ~~~s.dev.curWarp.retired ≠ 0)) = true := by decide +kernel

/-- Launch 0 with a private window of 128 bytes a lane, whose first page is mapped; the return stack is n deep. -/
def stRet (n : Nat) : State :=
  let off := winWord 128 0 0 0
  let root := Memory.write mapped (vkey 0 placedRoot + off / 2 ^ 30 * 8) (bytesOf 8 (1 + placedTable / 256 * 65536))
  { st with
    vault := root
    dev := { (st.dev.modCurWarp (fun w => { w with retTop := List.replicate (min n 16) 7, retDepth := n })) with
      launches := [(0, { launch0 with rec_ := { launch0.rec_ with pwin := 128 } })] } }

theorem witness_Branches_stacks :
    (let ok (s : State) : Bool := (s.checkTarget 0 0 false 0).1 == .ok && decide (s.selected (hd 0) ∧ s.dev.curWarp.retLoads = [])
      let s : State := { stp with dev := stp.dev.modCurWarp (fun w => { w with rstack := List.replicate 31 { slot := 3, mask := 1 } }) }
      let w := s.dev.curWarp
      (s.checkTarget 0 0 false 0).1 == .ok && ({ s with dev := (s.checkTarget 0 0 false 0).2 }.checkTarget 0 0 false 0).1 == .ok &&
        decide (w.act none1 ≠ w.e ∧ w.act none1 ≠ 0 ∧ 32 < w.rstack.length + 2) && ok (stRet 31) && ok (stRet 16) && ok (stRet 0) && ok stm &&
        decide ((stRet 31).dev.curWarp.retDepth = 31 ∧ stm.dev.pwin < 120 ∧ (stRet 0).dev.curWarp.retDepth = 0 ∧
          (stRet 16).dev.curWarp.retDepth = 16 ∧ 120 ≤ (stRet 16).dev.pwin ∧ 2 ≤ (stRet 16).dev.curCol.logFree ∧
          (stRet 16).dev.curWarp.stores ≤ 61)) = true ∧
    (let s := stRet 17
      let load (d : Dev) (h : Nat) : MemOp := retLoad d (s.dev.pwin / 4 - 30 + h) (h == 1)
      let one := s.startLoad (load s.dev 0) .load false s.dev.cur.priv
      let two := { s with dev := one.1 }.startLoad (load one.1 1) .load false s.dev.cur.priv
      decide (s.selected (hd 0) ∧ s.dev.curWarp.retDepth = 17 ∧ s.dev.curWarp.retLoads = [] ∧ s.dev.curWarp.loads ≤ 61) && one.2 && two.2) =
      true ∧ ({ Warp.start with retLoads := [none, none] }).retLoads = [none, none] := by
  refine ⟨by decide +kernel, by decide +kernel, rfl⟩

theorem witness_WarpsEndAndStart :
    (let w := st.dev.curWarp;
      decide (w.act none1 = 0 ∧ (w.retired ||| w.act none1) ≠ Mask.all ∧ w.act (hd 0) ≠ 0 ∧ (w.retired ||| w.act (hd 0)) = Mask.all ∧
        st.dev.curCol.endHeld 0 0 = false ∧ st.dev.now = 0 ∧ st.selected (hd 0) ∧ (stw (fun w => { w with tiles := 1 })).dev.curCol.endHeld 0 0 = true ∧
        (stw (fun w => { w with tiles := 1 })).selected (hd 0))) = true ∧
    (let s : State := { stm with dev := stm.dev.modCol 0 (fun k => { k with regions := { k.regions with w := 7, spawnw := 1 } }) };
      decide (stm.selected (hd 0) ∧ stm.dev.curCol.busy 0 ((List.range 8).map (fun i => 248 + i)) = false ∧
        stm.dev.curCol.warps.has 0 = true ∧ (stm.checkTarget 0 0 false 0).1 = .ok ∧ stm.dev.curCol.spawnSlots = [] ∧
        s.selected (hd 0) ∧ s.dev.curCol.busy 0 ((List.range 8).map (fun i => 248 + i)) = false ∧ s.dev.curCol.warps.has 0 = true ∧
        (s.checkTarget 0 0 false 0).1 = .ok ∧ s.dev.curCol.spawnSlots ≠ [] ∧ 248 + 7 < s.dev.curCol.regions.regs)) = true := by
  decide +kernel

theorem witness_YieldAndWait :
    (let s := stw (fun w => { w with loads := 1 })
      let t := stc (fun k => { k with warps := k.warps.set 1 { Warp.start with active := false }, readied := [1] })
      decide (st.selected (hd 0) ∧ st.dev.pendingReady 0 0 = false ∧ st.dev.curWarp.loads ≤ 0 ∧ s.selected (hd 0) ∧
        ¬ s.dev.curWarp.loads ≤ 0 ∧ t.selected (hd 0) ∧ t.dev.pendingReady 0 0 = true)) = true := by decide +kernel

theorem witness_TrapEntryFrame :
    (let b : BitVec 512 := 1#512 <<< 480
      let line : BitVec 512 := b ||| ((linePar b).setWidth 512 <<< 496)
      let off := vectorOff 0x20
      let root : Memory := Memory.write [] (vkey 0 placedRoot + off / 2 ^ 30 * 8) (bytesOf 8 (1 + placedTable / 256 * 65536))
      let page : Memory := Memory.write root (vkey 0 placedTable) (bytesOf 8 (0x10B + placedPage / 65536 * 65536))
      let s : State := withLaunch { st with vault := Memory.write page (vkey 0 placedPage + off % 2 ^ 21) (bytesOf 64 line.toNat) }
      decide (s.dev.cur.priv = false ∧ 24 ≤ s.dev.pwin ∧ s.dev.curCol.log.length ≤ 250 ∧ s.dev.curWarp.stores ≤ 57) &&
        (match (s.fetchLine 0 0 off).1 with
          | .ok x => x.sys && (match x.line with
            | some b => lineTgt b 0
            | none => true)
          | .error _ => false)) = true := by decide +kernel

theorem witness_EretReturns :
    (let g := { sf 0 with d := 0 }
      let s := priv st
      let x : VCtx := vctx s.dev g.h []
      let p := x.pair g.a
      decide (s.dev.cur.priv = true ∧ s.selected g.h ∧ x.ReadyUni [rangeBound x.regs g.a.reg.toNat 2] [Use.ptr p.1, Use.ptr p.2] [])) =
      true := by decide +kernel

theorem witness_TrapsTaken :
    (let s : State := { st with dev := { st.dev with debugger := true } };
      decide (st.dev.curWarp.act (hd 0) ≠ 0 ∧ st.dev.debugger = false ∧ s.dev.curWarp.act (hd 0) ≠ 0 ∧ s.dev.debugger = true ∧
        st.dev.curWarp.act none1 = 0 ∧ st.dev.cur.priv = false)) = true ∧
    (let s := priv st;
      decide (s.dev.cur.priv = true ∧ s.dev.curWarp.act (hd 0) ≠ 0 ∧ (s.dev.ctx 0).state = .resident ∧ s.dev.ctxs.has 0 = true ∧
        0 ∈ (s.dev.part (s.dev.ctx 0).part).columns)) = true ∧
    (srPrivRead 0x110 && srPrivWrite 0x110) = true := by decide +kernel

/-! ## Witnesses: memory -/

theorem witness_CacheControlAndNoLanes :
    (let f := mf 0 0
      let x := vctx stm.dev f.h []
      let lo := rangeSrc x.w 1 f.adr 0
      let hi := rangeSrc x.w 1 f.adr 1
      let us := [Use.ptr lo, Use.ptr hi]
      let offs := (Mask.list x.act).map (fun l => (l, laneOff lo hi f.offset l / 128 * 128))
      let lines := ((offs.map Prod.snd).eraseDups).map (fun o => (((offs.find? (fun p => p.2 == o)).map Prod.fst).getD 0, o))
      let got (op : BitVec 3) := stm.seekLanes 0 { stm.dev.newOp (.cctl op) 0 0 (cctlLanes 0 lines) with cpol := 1 } false false
        (cctlLanes 0 lines)
      stm.dev.curWarp.act none1 == 0 && x.act != 0 && !x.notReady us && !stm.dev.curCol.acquiring 0 &&
        decide (firstTrap ([rangeBound x.regs f.adr.reg.toNat 2] ++ us.map Use.tagCheck ++ [selCheck 0 x.act lo hi, poisJoin [lo, hi] x.act]) =
          none) &&
        decide (firstTrap [recCheck 0 x.act lo hi f.offset f.obj.toNat 1 TRec.rd none, alignCheck x.act lo hi f.offset 1 none] = none) &&
        decide (stm.dev.curWarp.stores < 63) && (got 0).2.2.2.isEmpty && (got 1).2.2.2.isEmpty && (got 2).2.2.2.isEmpty &&
        (got 3).2.2.2.isEmpty) = true := by decide +kernel

/-- A record of rank 2 with reads granted on column 0, UI32, 32 by 4, at offset 0x8000; it stands at index 1. -/
def recNum : Nat :=
  0x8000 + 2 * 2 ^ 44 + 2 ^ 47 + 0x11 * 2 ^ 48 + 3 * 2 ^ 56 + 1 * 2 ^ 117 + 32 * 2 ^ 128 + 4 * 2 ^ 160 + 32 * 2 ^ 288
def str : State :=
  withLaunch { stm with vault := Memory.write mapped (vkey 0 (placedPage + 64)) (bytesOf 64 recNum) }
def launch1 : Launch := { launch0 with rec_ := { launch0.rec_ with objLast := 1 } }
def stRec : State := { str with dev := { str.dev with launches := [(0, launch1)] } }

theorem witness_LoadsStart :
    (let f := mf Fmt.ui32 2
      let x := vctx stm.dev f.h [dstOperand f.dat]
      let lo := rangeSrc x.w 1 f.adr 0
      let hi := rangeSrc x.w 1 f.adr 1
      let us := [Use.ptr lo, Use.ptr hi]
      let checks (uni : Bool) := firstTrap ([recTy f.h.ty none, rangeBound x.regs (dstReg f.dat) 1, rangeBound x.regs f.adr.reg.toNat 2,
        uniIf uni lo, uniIf uni hi] ++ us.map Use.tagCheck ++ [x.dstWin f.dat, selCheck 0 x.act lo hi,
        recCheck 0 x.act lo hi f.offset f.obj.toNat 4 TRec.rd none, alignCheck x.act lo hi f.offset 4 none, poisJoin [lo, hi] x.act])
      let ls := [{ laneWant 0 0 (laneOff lo hi f.offset 0) 4 (reqOf (lineShaped lo hi) (laneOff lo hi f.offset 0)) with
        dst := x.datRegs f.dat 1 0, lined := lineShaped lo hi }]
      let o (k : OpKind) : MemOp := { stm.dev.newOp k Fmt.ui32 2 ls with resv := x.reserve f.dat 1, uni := true }
      decide (f.obj = 0 ∧ x.act ≠ 0) && !x.notReady us && !stm.dev.curCol.acquiring 0 && decide (stm.dev.curWarp.loads < 63) &&
        !f.dat.getLsbD 8 && !x.fifthWindow f.dat && decide (checks false = none ∧ checks true = none) && uniPair lo hi &&
        (stm.seekLanes 0 (o .load) false false ls).2.2.2.isEmpty && (stm.seekLanes 0 (o .uload) false false ls).2.2.2.isEmpty) = true ∧
    (let f : MFields := { mf Fmt.ui32 2 with obj := 1 };
      match stRec.tensor 0 0 stRec.dev.curRec 1 with
      | (.ok (some t), d) =>
        let x : VCtx := { vctx stRec.dev f.h [] with d := d }
        let us := ((List.range t.rank).map (rangeSrc x.w 1 f.adr)).map Use.ptr
        let ls := ((Mask.list x.act).map (fun l => ((List.range 1).map (fun j => ((List.range 1).map (fun e =>
          ldtElem t 0 l (dstReg f.dat + j) e [l, j + e, 0, 0, 0])).flatten)).flatten)).flatten
        let o : MemOp := { d.newOp .loadT t.fmt 2 ls with resv := x.reserve f.dat 1, obj := 1 }
        decide (f.obj ≠ 0 ∧ x.act ≠ 0 ∧ t.rank ≠ 1 ∧ t.grp ≤ 1 ∧ f.h.ty = t.fmt ∧ t.grp ≠ 1 ∧ t.rd = true ∧ t.onColumn 0 = true) &&
          !(vctx stRec.dev f.h []).notReady us && !stRec.dev.curCol.acquiring 0 && decide (stRec.dev.curWarp.loads < 63) &&
          decide (firstTrap ([rangeBound x.regs (dstReg f.dat) 1, rangeBound x.regs f.adr.reg.toNat t.rank] ++
            us.map (fun q => q.src.uniCheck) ++ us.map Use.tagCheck ++ [poisJoin (us.map Use.src) x.act]) = none) &&
          (State.seekLanes { stRec with dev := d } 0 o false false ls).2.2.2.isEmpty
      | _ => false) = true := by decide +kernel

theorem witness_StoresStart :
    (let f : MFields := { mf Fmt.ui32 2 with ord := 2 }
      let x := vctx stm.dev f.h [dstOperand f.dat]
      let lo := rangeSrc x.w 1 f.adr 0
      let hi := rangeSrc x.w 1 f.adr 1
      let dat := x.datSrcs f.dat 1
      let ad := [Use.ptr lo, Use.ptr hi]
      let us := dat.map (storeUse false 2 (accFmt f.h.ty none)) ++ ad
      let checks (uni : Bool) := firstTrap ([recTy f.h.ty none, rangeBound x.regs (dstReg f.dat) 1, rangeBound x.regs f.adr.reg.toNat 2] ++
        dat.map (uniIf uni) ++ [uniIf uni lo, uniIf uni hi] ++ us.map Use.tagCheck ++ [x.dstWin f.dat, selCheck 0 x.act lo hi,
        recCheck 0 x.act lo hi f.offset 0 4 TRec.wr none, alignCheck x.act lo hi f.offset 4 none, poisJoin [lo, hi] x.act])
      decide (f.obj = 0 ∧ x.act ≠ 0) && !x.notReady (dat.map Use.any ++ ad) && !stm.dev.curCol.acquiring 0 &&
        decide (stm.dev.releaseOver true (stm.dev.curWarp.obsMask f.obs)) && decide (checks false = none ∧ checks true = none) &&
        stm.dev.curCol.storeRoom 0 32) = true := by decide +kernel

/-- One lane's access of four bytes at the mapped page's offset 0x100. -/
def acc0 : LaneAcc :=
  { laneWant 3 0 0x100 4 8 with va := placedPage + 0x100, pol := 1, dst := [4], data := [5], pois := [false] }

theorem witness_StorePerformedWrites :
    (let o : MemOp := stm.dev.newOp .store Fmt.ui32 2 [acc0]
      let s : State := { stm with dev := stm.dev.modCol 0 (fun k => { k with ops := [o] }) }
      let ls := o.lanes.filter (fun a => a.req == 8)
      decide (s.Inv ∧ (s.dev.col 0).op? 0 = some o ∧ o.kind = .store ∧ ls = [acc0] ∧ ∀ a ∈ ls, a.rng = none ∧ (s.dev.col a.tcol).hand.banks.olds = []) &&
        !(s.dev.col 0).overtakes o ls) = true := by decide +kernel

theorem witness_LoadReturnsBytes :
    (let o : MemOp := { stm.dev.newOp .load Fmt.ui32 2 [acc0] with resv := [(4, Mask.all)], missed := true }
      let s : State := { stm with dev := stm.dev.modCol 0 (fun k => { k with ops := [o] }) }
      let ls := o.lanes.filter (fun a => a.req == 8)
      decide ((s.dev.col 0).op? 0 = some o ∧ o.kind = .load ∧ o.uni = false ∧ o.window = false ∧ o.obj = 0 ∧ o.entry = none ∧ o.size ≤ 4 ∧
        o.done = [] ∧ o.lanes = ls) && !(s.dev.col 0).overtakes o ls &&
        decide (o.missed = true) && ls.all (fun b => decide (b.pol = 1 ∧ b.stable = false ∧ (s.dev.col b.tcol).hand.banks.olds = [] ∧ b.size = accessBytes o.size ∧ b.size ≤ b.cut ∧ b.dst.length = accessRegs o.size ∧ b.dst.Nodup ∧
          b.va % 32 = b.off % 32 ∧ b.lane < 32 ∧ b.off % b.size = 0 ∧ (∀ c ∈ ls, b.lane = c.lane → b = c) ∧
          ∀ c ∈ ls, b.off / 32 = c.off / 32 → b.tcol = c.tcol ∧ b.va / 32 = c.va / 32)) &&
        ls.contains acc0 && acc0.dst[0]? == some 4 && o.resv.contains (4, Mask.all) && Mask.has Mask.all acc0.lane && !o.dead 4 acc0.lane) =
      true := by decide +kernel

/-- A tag with its first line valid, clean and pinned or not. -/
def tag0 (sb : Nat) (pin : Bool) : L2Tag :=
  { sb := sb, lines := Vector.replicate 4 { valid := true, dirty := false, pinned := pin, zc := false, expiry := 0 } }

theorem witness_CacheControlAndNoLanes_lines :
    (let at_ (p : BitVec 3) (ts : List L2Tag) : State := { stm with dev := stm.dev.modCol 0 (fun k => { k with
        l2 := ts, ops := [stm.dev.newOp (.cctl p) 0 0 [acc0]] }) }
      let ok (p : BitVec 3) (s : State) : Bool :=
        let o := stm.dev.newOp (.cctl p) 0 0 [acc0]
        decide ((s.dev.col 0).op? 0 = some o ∧ o.kind = .cctl p ∧ o.lanes.filter (fun b => b.req == 8) = [acc0] ∧
          (s.dev.col 0).overtakes o [acc0] = false)
      let sb := acc0.va / 512
      let one (b : Bool) : List L2Tag := [tag0 sb b]
      let full := at_ 2 ((List.range 16).map (fun i => tag0 (sb + 2048 * (i + 1)) true))
      let free := at_ 2 (one false)
      let pins := (tag0 sb false).setLine (acc0.va / 128) { (tag0 sb false).line (acc0.va / 128) with pinned := true }
      let k := (at_ 2 (one true)).dev.col 0
      ([0, 1, 2].all (fun p => ok p (at_ p []) && ok p (at_ p (one false)) && ok p (at_ p (one true)))) && ok 2 full && decide (
        k.pinnedAt acc0.va = true ∧ (full.dev.col 0).pinnedAt acc0.va = false ∧ (full.dev.col 0).aside acc0.va = false ∧
        (full.dev.col 0).l2Full sb true = true ∧ (free.dev.col 0).pinnedAt acc0.va = false ∧ (free.dev.col 0).aside acc0.va = false ∧
        (free.dev.col 0).l2Full sb true = false ∧ (free.dev.col 0).l2Valid acc0.va = true ∧
        (free.dev.col 0).l2Tag sb = some (tag0 sb false) ∧ pins.fitsIn ((free.dev.col 0).freeSlots sb).length = true)) = true ∧
    (let o (l2 : Bool) : MemOp := stm.dev.newOp (.pref l2) 0 0 [acc0]
      let s (l2 : Bool) : State := { stm with dev := stm.dev.modCol 0 (fun k => { k with ops := [o l2] }) }
      decide (((s true).dev.col 0).op? 0 = some (o true) ∧ ((s false).dev.col 0).op? 0 = some (o false) ∧ acc0.pol = 1)) = true := by
  refine ⟨by decide +kernel, by decide +kernel⟩

/-- A load, alone outstanding on column 0, whose L2 holds the line that it reads; the context has a lease. -/
def stLoad (o : MemOp) : State :=
  let d := stm.dev.modCol 0 (fun k => { k with ops := [o], l2 := [tag0 (acc0.va / 512) false] })
  { stm with dev := d.modCtx 0 (fun c => { c with lease := 9 }) }

def accL (req : Nat) (dst : List Nat) : LaneAcc := { acc0 with pol := 0, req := req, dst := dst }
def opL (kind : OpKind) (ls : List LaneAcc) : MemOp :=
  { stm.dev.newOp kind Fmt.ui32 2 ls with resv := [(4, Mask.all)], missed := true }

/-- The turn of request 8 of a load whose lanes of it the L1 does not hold. -/
theorem loadTurn_of (o : MemOp) (ls : List LaneAcc) (a : LaneAcc) (h : (decide (((stLoad o).dev.col 0).op? 0 = some o ∧
    o.lanes.filter (fun b => b.req == 8) = ls ∧ a ∈ ls ∧ ((stLoad o).dev.col 0).overtakes o ls = false ∧ o.missed = true ∧
    (∀ b ∈ ls, b.tcol = a.tcol ∧ b.pol = a.pol ∧ b.stable = false ∧ b.off / 128 = a.off / 128 ∧ b.va / 128 = a.va / 128 ∧
      b.va % 128 = b.off % 128 ∧ 1 ≤ b.size ∧ b.off % 128 + b.size ≤ 128 ∧ b.size ≤ b.cut ∧ b.lane < 32) ∧
    ((stLoad o).dev.col a.tcol).hand.banks.olds = [] ∧ ((stLoad o).dev.col 0).sent o.ctx = [] ∧ ((stLoad o).dev.col 0).l1 = [])) = true) :
    LoadTurn (stLoad o) 0 0 8 o ls a := by
  obtain ⟨h1, h2, h3, h4, h5, h6, h7, h8, h9⟩ := of_decide_eq_true h
  exact ⟨h1, h2, h3, h4, .inl h5, h6, fun off x _ hx => by simp [Column.l1Hit, Column.l1Frame, h9] at hx, h7, .inr (.inr h8)⟩

theorem witness_LoadReturnsBytes_turns :
    (let a : LaneAcc := accL 8 [4]
      let b : LaneAcc := { accL 9 [4] with lane := 4, off := a.off + 128, va := a.va + 128 }
      let c : LaneAcc := { a with size := 3, part := some 0 }
      let two : MemOp := opL .load [a, b]
      let uni : MemOp := { opL .uload [a] with uni := true }
      let acq : MemOp := { opL .load [a] with acq := true }
      let six : MemOp := { opL .load [c] with fmt := Fmt.e2m3x4, obj := 1 }
      let turn (o : MemOp) (ls : List LaneAcc) (a : LaneAcc) : Prop := LoadTurn (stLoad o) 0 0 8 o ls a
      turn (opL .load [a]) [a] a ∧ turn two [a] a ∧ turn uni [a] a ∧ turn acq [a] a ∧ turn six [c] c ∧ (opL .load [a]).reaches 4 3 ∧
        (two.lanes ≠ [a] ∧ two.six = false ∧ a.size = accessBytes 2 ∧ a.dst.length = accessRegs 2 ∧ a.dst.Nodup ∧ a.dst = [4] ∧
          six.six = true ∧ c.size = 3 * accessRegs six.size ∧ acq.acq = true ∧ two.acq = false) ∧
        (let s := stLoad two;
          decide (0 < (s.dev.ctx 0).lease) && !(s.dev.col 0).claimed a.va && !(s.dev.col 0).rehearsing &&
          ((s.dev.col 0).l2At a.va).any (fun l => l.valid && l.zc == a.zc) && ((s.dev.col 0).l1Hit 0 0 a.off).isNone) = true) := by
  dsimp only
  refine ⟨?_, ?_, ?_, ?_, ?_, ⟨.inr ⟨Mask.all, by decide +kernel, by decide +kernel⟩, by decide +kernel⟩, by decide +kernel, by decide +kernel⟩ <;> exact loadTurn_of _ _ _ (by decide +kernel)

theorem witness_LoadReturnsBytes_tiles :
    (let b := accL 8 [4, 1, 0, 8]
      let c : LaneAcc := { accL 8 [4, 17, 0, 8] with va := acc0.va + 1, off := acc0.off + 1 }
      let plain : MemOp := { opL .loadT [b] with fmt := Fmt.i8x4, obj := 1 }
      let bx : MemOp := { opL .loadT [b, c] with fmt := Fmt.bf16x2, obj := 65536 * Fmt.e4m3x4.toNat + 1 }
      let bits (o : MemOp) (b : LaneAcc) : Nat := numOf ((stLoad o).loadBytes 0 0 b) / 2 ^ b.dst.getD 2 0 % 2 ^ b.dst.getD 3 0
      LoadTurn (stLoad plain) 0 0 8 plain [b] b ∧ LoadTurn (stLoad bx) 0 0 8 bx [b, c] b ∧ plain.reaches 4 3 ∧
        decide ((plain.resv.map Prod.fst).Nodup ∧ plain.kind = .loadT ∧ plain.uni = false ∧ plain.window = false ∧ plain.done = [] ∧
          plain.obj < 65536 ∧ bits plain b < 2 ^ elemBits plain.fmt ∧ 65536 ≤ bx.obj ∧ bx.fmt = Fmt.bf16x2 ∧
          (∀ b' ∈ [b, c], ∀ c' ∈ [b, c], b'.lane = c'.lane → b'.dst.headD 0 = c'.dst.headD 0 → b'.dst.getD 1 0 = c'.dst.getD 1 0 → b' = c')) =
          true) := by
  dsimp only
  refine ⟨?_, ?_, ⟨.inr ⟨Mask.all, by decide +kernel, by decide +kernel⟩, by decide +kernel⟩, by decide +kernel⟩ <;> exact loadTurn_of _ _ _ (by decide +kernel)

theorem witness_ScratchpadAccesses :
    (let f := mf Fmt.ui32 2
      let x := vctx st.dev f.h [dstOperand f.dat]
      let a := x.spadAdr f.adr
      let dat := x.datSrcs f.dat 1
      let us := dat.map (storeUse false 2 f.h.ty) ++ [Use.ptr a]
      let off := spadOff a f.offset
      let mine := [x.dstWin f.dat, spadBound st.dev.curCol x.act off 4, spadAlign x.act off 4, a.poisCheck x.act]
      (Instr.lds f).wf && decide (x.act ≠ 0) && !st.dev.curCol.acquiring 0 && !x.notReady [Use.ptr a] && !x.notReady us && !x.fifthWindow f.dat &&
        decide (st.dev.curCol.queue 0 ++ st.dev.curCol.queue 1 = [] ∧
          firstTrap ([x.datBound f.dat 1, a.boundCheck x.regs, (Use.ptr a).tagCheck] ++ mine) = none ∧
          firstTrap ([x.datBound f.dat 1, a.boundCheck x.regs] ++ us.map Use.tagCheck ++ mine) = none ∧
          x.w.loads < 63 ∧ x.w.stores < 63)) = true := by decide +kernel

theorem witness_ScratchpadAccesses_performed :
    (let a : LaneAcc := { spadAcc 3 0 4 with dst := [4], data := [5], pois := [false] }
      let op (kind : OpKind) : MemOp := { st.dev.newOp kind Fmt.ui32 2 [a] with reqs := 1 }
      [OpKind.lds, .sts].all (fun kind =>
        let o := op kind
        let s : State := { st with dev := { (st.dev.modCol 0 (fun k => { k with ops := [o] })) with now := 7 } }
        decide ((s.dev.col 0).op? 0 = some o ∧ o.kind = kind ∧ o.itick + 6 + (o.reqs + 1) / 2 ≤ s.dev.now ∧
          (∀ p ∈ (s.dev.col 0).ops, (p.kind = .lds ∨ p.kind = .sts) → o.id ≤ p.id) ∧ o.size ≤ 4 ∧ o.lanes = [a] ∧ a.size = accessBytes 2 ∧
          a.lane < 32 ∧ a.dst.length = accessRegs 2 ∧ a.dst.Nodup ∧ a.dst[0]? = some 4 ∧ o.dead 4 3 = false ∧ o.uni = false ∧ o.entry = none ∧
          a.data.length = accessRegs 2 ∧ a.pois.length = accessRegs 2 ∧ (s.dev.col 0).queue 0 ++ (s.dev.col 0).queue 1 = []))) = true := by
  decide +kernel

/-- The checks of an atomic of UI32 without a record, with r8 and r9 as its pointer. -/
def atomOk (f : MFields) (s : State) : Bool :=
  let x := vctx s.dev f.h []
  let lo := rangeSrc x.w 1 f.adr 0
  let hi := rangeSrc x.w 1 f.adr 1
  let us := (atomData x f).map (fun q => Use.of q f.h.ty) ++ [Use.ptr lo, Use.ptr hi]
  decide (f.obj = 0 ∧ x.act ≠ 0) && !x.notReady us && !s.dev.curCol.acquiring 0 && decide (
    firstTrap ([atomTy f.h.ty none, rangeBound x.regs (dstReg f.dat) (atomRegs f), rangeBound x.regs f.adr.reg.toNat 2] ++
      us.map Use.tagCheck ++ [selCheck 0 x.act lo hi, recCheck 0 x.act lo hi f.offset 0 4 TRec.rw none,
      alignCheck x.act lo hi f.offset 4 none, poisJoin [lo, hi] x.act]) = none)

theorem witness_AtomicsStart :
    (let f : MFields := { mf Fmt.ui32 0 with ord := 3 }
      let x := vctx stm.dev f.h []
      let ls := atomLaneList x f (rangeSrc x.w 1 f.adr 0) (rangeSrc x.w 1 f.adr 1) (atomData x f) 0
      let o (k : OpKind) : MemOp := { stm.dev.newOp k f.h.ty 2 ls with resv := [(4, x.act)], cpol := 1, acq := true }
      atomOk f stm && decide (stm.dev.curWarp.loads < 63 ∧ stm.dev.curWarp.stores < 63 ∧
        stm.dev.releaseOver true (stm.dev.curWarp.obsMask f.obs) ∧ stm.selected f.h) && !stm.dev.curCol.atscBusy 0 &&
        (stm.seekLanes 0 (o (.atom f.aop 0)) true false ls).2.2.2.isEmpty &&
        (stm.seekLanes 0 (o (.atsc f.aop none)) true false ls).2.2.2.isEmpty && stm.dev.curCol.storeRoom 0 ls.length &&
        decide (stm.dev.curCol.hand.atomq.length + ls.length ≤ 256 ∧ ls.length ≤ stm.dev.curCol.logFree)) = true := by decide +kernel

theorem witness_AtomicLanePerformed : stm.Inv ∧ 4 ≤ acc0.cut ∧ (stm.dev.col acc0.tcol).hand.banks.olds = [] := by decide +kernel

theorem witness_FencesWait :
    (let s : State := { stm with dev := stm.dev.modCol 0 (fun k => { k with ops := [stm.dev.newOp .store Fmt.ui32 2 [acc0]] }) };
      decide (stm.selected (hd 0) ∧ stm.dev.releaseOver true 0x7F ∧ stm.dev.curWarp.loads = 0 ∧ s.selected (hd 0) ∧
        ¬ s.dev.releaseOver true 0x7F ∧ stm.dev.curCol.ordered 0 = true ∧ (stw (fun w => { w with loads := 1 })).dev.curCol.ordered 0 = false ∧
        stm.dev.curWarp.nmPending = 0 ∧ stm.dev.curWarp.nmTime ≤ stm.dev.now ∧
        (stw (fun w => { w with nmPending := 1 })).selected (hd 0) ∧ (stw (fun w => { w with nmPending := 1 })).dev.curWarp.nmPending ≠ 0)) =
      true := by decide +kernel

theorem witness_BarrierArrivals :
    (let f := xf
      let x := vctx st.dev f.h []
      let k := st.dev.curCol.bar 0 0
      let full := stc (fun k => { k with bars := k.bars.set 0 { arr := 8, exp := 8, phase := 0, mask := 0, engines := 0 } })
      let ph (n : Nat) : Column := { (stw (fun w => { w with barPend := [(0, 0)] })).dev.curCol with
        bars := [(0, { arr := 0, exp := 0, phase := n, mask := 0, engines := 0 })] }
      let waits (n : Nat) : State := stc (fun _ => ph n)
      decide (st.selected f.h ∧ x.ReadyUni [] [] [check (decide (0 < st.dev.curCol.barCount)) { cause := 0x12, einfo := 0 },
          check (decide (1 ≤ 8) && decide (8 ≤ 48)) { cause := 0x17, einfo := 0 }] ∧ st.dev.curCol.regions.w = 8 ∧
        st.dev.releaseOver true 0x7F ∧ k.full = false ∧ k.exp = 0 ∧ k.arr + 1 ≤ 8 ∧ full.selected f.h ∧ (full.dev.curCol.bar 0 0).full = true ∧
        full.dev.releaseOver true 0x7F ∧ (waits 0).selected f.h ∧ (waits 0).dev.curWarp.barPend.getD 0 0 = 0 ∧
        ((waits 0).dev.curCol.bar 0 0).phase = 0 ∧ (waits 1).selected f.h ∧ ((waits 1).dev.curCol.bar 0 0).phase = 1 ∧
        (waits 1).dev.curWarp.barPend.getD 0 1 = 0)) = true ∧
    (let s := withLaunch (stw (fun w => { w with coords := [0, 0, 0] }))
      let r := s.dev.curRec
      let b (n : Nat) (a : List (Nat × Nat)) : State := { s with dev := { s.dev with
        bards := [{ launch := 0, unit := r.unitNo 0 [0, 0, 0], channel := 0, phase := n, arrived := a, mask := 0 }] } }
      let full := b 0 ((List.range 8).map (fun j => (0, j)))
      let waits : State := { b 1 [] with dev := (b 1 []).dev.modCurWarp (fun w => { w with
        bardPend := [(bardKey (r.unitNo 0 [0, 0, 0]) 0, 0)] }) }
      decide (s.dev.curWarp.spawned = false ∧ r.levelOf 4 = some 0 ∧ r.bardOk 4 = true ∧ s.selected (hd 0) ∧ s.dev.releaseOver true 0x7F ∧
        s.dev.bardFull (s.dev.bard 0 (r.unitNo 0 [0, 0, 0]) 0) = false ∧ full.selected (hd 0) ∧ full.dev.releaseOver true 0x7F ∧
        full.dev.bardFull (full.dev.bard 0 (r.unitNo 0 [0, 0, 0]) 0) = true ∧ waits.selected (hd 0) ∧
        waits.dev.curWarp.bardPend.getD (bardKey (r.unitNo 0 [0, 0, 0]) 0) 1 = 0 ∧
        (waits.dev.bard 0 (r.unitNo 0 [0, 0, 0]) 0).phase = 1)) = true := by decide +kernel

/-! ## Witnesses: crossing columns, the matrix unit, engines, graphs and system instructions -/

/-- Launch 0 over a domain of four columns, and a partition of four present columns. -/
def launch4 : Launch := { launch0 with rec_ := { launch0.rec_ with
  nlev := 4, levels := [{ scope := 0, dom := 5, ext := 1 }, { scope := 0, dom := 4, ext := 4 }, { scope := 0, dom := 3, ext := 1 },
    { scope := 0, dom := 2, ext := 8 }] } }
def st4 : State := { stm with dev := { stm.dev with
  launches := [(0, launch4)], parts := stm.dev.parts.set 0 { stm.dev.part 0 with dom := 5 }, absent := [] } }

theorem witness_ExchangesStart :
    (let f : XFields := { xf with a := rg 1, dom := 5, pk := 1, pp := 1 }
      let x := vctx st4.dev f.h []
      let a := x.src 1 f.a
      decide (st4.dev.curRec.covers 5 = some 0 ∧ st4.dev.curWarp.spawned = false ∧ st4.selected f.h ∧
          firstTrap [rangeBound x.regs (dstReg f.d) 1, a.boundCheck x.regs] = none ∧ st4.dev.curWarp.loads < 63) &&
        !x.notReady [Use.any a] && !st4.dev.curCol.acquiring 0 && !st4.dev.curCol.xchs.any (fun o => o.slot == 0)) = true ∧
    (let f : XFields := { xf with a := rg 8, dom := 5, pk := 1, pp := 1, sub := 2 }
      let s : State := { st4 with dev := st4.dev.modCurWarp (fun w => { w with regs := [(9, { fmt := 0, data := .uniform 0xFFE00000 false })] }) }
      let x := vctx s.dev f.h []
      let lo := rangeSrc x.w 1 f.a 0
      let hi := rangeSrc x.w 1 f.a 1
      let dat := [Src.direct x.w 0 (dstReg f.d) 0 0]
      let ad := [Use.ptr lo, Use.ptr hi]
      let checks (us : List Use) := firstTrap ([rangeBound x.regs (dstReg f.d) 1, rangeBound x.regs f.a.reg.toNat 2] ++
        us.map Use.tagCheck ++ [selfCheck x.act lo hi, partnerCheck s.dev x.act lo hi 1, alignCheck x.act lo hi 0 4 none,
        poisJoin [lo, hi] x.act])
      let gets := [{ laneWant 0 1 (laneOff lo hi 0 0) 4 (reqOf (lineShaped lo hi) (laneOff lo hi 0 0)) with dst := x.datRegs f.d 1 0 }]
      let g : MemOp := { s.dev.newOp .xget 0 2 gets with resv := x.reserve f.d 1, uni := true, cpol := 1 }
      decide (x.act ≠ 0 ∧ checks ad = none ∧ checks (dat.map (storeUse false 2 f.h.ty) ++ ad) = none ∧ s.dev.curWarp.loads < 63) &&
        memberCol 0 5 (sourceOf 5 1 1 0) == 1 && memberCol 0 5 ((targetsOf 5 1 1 0).headD 0) == 1 && uniPair lo hi &&
        !x.notReady (dat.map (storeUse false 2 f.h.ty) ++ ad) && !s.dev.curCol.acquiring 0 && s.dev.curCol.storeRoom 0 32 &&
        (s.seekLanes 0 g false false gets).2.2.2.isEmpty) = true := by decide +kernel

/-- A bound ring of 64 bytes with 32 bytes in it. -/
def ring0 : Ring := { base := 0, size := 64, head := 0, tail := 32, gang := 0 }

theorem witness_MessagesAndRings :
    (let f : XFields := { xf with a := rg 8 }
      let x := vctx stm.dev f.h []
      let lo := rangeSrc x.w 1 f.a 0
      let hi := rangeSrc x.w 1 f.a 1
      let m : OutMsg := { op := 0, slot := 0, dcol := 0, ring := 0, words := [], itick := 0, away := false }
      let full : State := { stm with dev := stm.dev.modCol 0 (fun k => { k with outbuf := [m, m, m, m] }) }
      decide (stm.selected f.h ∧ ptrRsv (ptrOf 0 0) = 0 ∧ stm.dev.inPart 0 (ptrSel (ptrOf 0 0)) = true ∧ f.num.toNat < 16 ∧
          x.ReadyUni [rangeBound x.regs (dstReg f.d) 1, rangeBound x.regs f.a.reg.toNat 2] [Use.ptr lo, Use.ptr hi] [] ∧
          lane lo.vals 0 = 0 ∧ lane hi.vals 0 = 0 ∧ stm.dev.releaseOver false 0 ∧ stm.dev.curCol.outbuf.length < 4 ∧
          stm.dev.curWarp.stores < 63 ∧ 4 ≤ full.dev.curCol.outbuf.length ∧ full.selected f.h) &&
        !x.notReady [Use.any (Src.direct x.w 0 (dstReg f.d) 0 0)] && !stm.dev.curCol.acquiring 0 && !full.dev.curCol.acquiring 0) = true ∧
    (let f : XFields := { xf with a := rg 1 }
      let x := vctx st.dev f.h []
      let u := Use.ptr (x.src 1 f.a)
      let s := stc (fun k => { k with rings := [(0, ring0)] })
      let t : State := { s with dev := s.dev.modCurWarp (fun w => { w with regs := [(1, { fmt := 0, data := .uniform 64 false })] }) }
      let y := vctx t.dev f.h []
      let v := Use.ptr (y.src 1 f.a)
      decide (st.selected f.h ∧ x.ReadyUni [] [u] [] ∧ (lane u.src.vals 0).toNat + 2 ^ 10 ≤ st.dev.curCol.spadBytes ∧
        (st.dev.curCol.ring 0).size = 0 ∧ s.selected f.h ∧ (s.dev.curCol.ring 0).size ≠ 0 ∧ (s.dev.curCol.ring 0).gang = s.dev.curWarp.gang ∧
        0 ≤ (s.dev.curCol.ring 0).bytes ∧ x.ReadyUni [rangeBound x.regs 4 2] [u] [] ∧ s.dev.curCol.acquiring 0 = false ∧ t.selected f.h ∧
        y.ReadyUni [rangeBound y.regs 4 2] [v] [] ∧ (lane v.src.vals 0).toNat = 64 ∧ 64 ≤ (t.dev.curCol.ring 0).size ∧
        (t.dev.curCol.ring 0).bytes < 64 ∧ t.dev.curCol.acquiring 0 = false)) = true := by decide +kernel

theorem witness_WatchReturnsOrParks :
    (let f := mf 0 0
      let x := vctx stm.dev f.h []
      let lo := rangeSrc x.w 1 f.adr 0
      let hi := rangeSrc x.w 1 f.adr 1
      let us := [Use.ptr (Src.direct x.w 0 4 0 0), Use.ptr (Src.direct x.w 0 5 0 0), Use.ptr lo, Use.ptr hi]
      let a := laneWant 0 0 (laneOff lo hi f.offset 0) 4 0
      let now := BitVec.ofNat 32 (numOf (stm.seen 0 stm.dev.free placedPage 4))
      decide (stm.selected f.h ∧ x.ReadyUni [rangeBound x.regs 4 2, rangeBound x.regs f.adr.reg.toNat 2] us
          [selCheck 0 x.act lo hi, alignCheck x.act lo hi f.offset 4 none]) && !stm.dev.curCol.acquiring 0 &&
        !stm.dev.curCol.overtakes { stm.dev.newOp .load 0 2 [] with id := stm.dev.curCol.nextOp } [a] &&
        (match (stm.resolve 0 0 1 false false a).1 with
          | .ok b => b.va == placedPage && stm.dev.curCol.watchCount b.va == 0
          | .error _ => false) && cmpOk 0 now 0 && !cmpOk 1 now 0) = true := by decide +kernel

theorem witness_ExchangeEvents :
    (let y : XSend := { dom := 5, pk := 1, pp := 1, reg := VReg.start }
      let x : XchOp := { slot := 0, op := 0, idx := 0, vd := 4, lsp := Mask.all, dom := 5, pk := 1, pp := 1, reg := VReg.start, wants := true,
                         sends := [], launch := 0, level := 0, coords := [] }
      let far (n : Nat) : XchOp := { x with idx := n, wants := false, sends := [0] }
      let sent (n : Nat) : State := { st4 with dev := st4.dev.modCol 1 (fun k => { k with xchs := [far n] }) }
      let o := st.dev.newOp .xch 0 2 []
      let s := stc (fun k => { k with xbuf := [(0, y)], xchs := [x], ops := [o] })
      let m : OutMsg := { op := 0, slot := 0, dcol := 0, ring := 0, words := List.replicate 8 (0, false), itick := 0, away := false }
      let r : State := stc (fun k => { k with outbuf := [m], rings := [(0, { ring0 with tail := 0 })] })
      let n : State := stc (fun k => { k with outbuf := [m] })
      let c : MemOp := { st.dev.newOp .msg 0 2 [] with mark := true }
      let p (d : Option Nat) : State := { (stw (fun w => { w with park := .rwait 0 32 d 4 false })) with
        dev := (stw (fun w => { w with park := .rwait 0 32 d 4 false })).dev.modCol 0 (fun k => { k with rings := [(0, ring0)] }) }
      let wt (z : Option (Word × Nat)) : Watch := { va := 0, cmp := 0, value := 0, who := .warp 0, wcol := 0, ctx := 0, fired := z }
      let parked := stw (fun w => { w with park := .watch 4 (some 0) false })
      let q (z : Option (Word × Nat)) : State := { st with dev := parked.dev.modCol 0 (fun k => { k with watches := [wt z] }) }
      decide ((sent 0).dev.col 0 |>.xbuf.get? 0 |>.isNone) && decide (
        ((sent 0).dev.xchPending 0).find? (fun p => (sent 0).dev.member p.2 0 == some 0 && decide (p.2.idx ≤ ((sent 0).dev.col 0).xchNext 0)) =
          some (1, far 0) ∧ (sent 1).dev.xchPending 0 = [(1, far 1)] ∧ (sent 1).dev.member (far 1) 0 = some 0 ∧
          ((sent 1).dev.col 0).xchNext 0 < (far 1).idx) &&
      decide ((s.dev.col 0).xbuf.get? 0 = some y ∧ (s.dev.col 0).xchs.find? (fun x => x.slot == 0 && x.wants) = some x ∧
        (s.dev.col 0).op? x.op = some o ∧ o.slot = 0 ∧ o.killed = [] ∧ o.window = false ∧ x.lsp = Mask.all ∧
        (r.dev.col 0).outbuf[0]? = some m ∧ m.away = false ∧ ((r.dev.col 0).ring 0).takes 32 = true ∧
        (n.dev.col 0).outbuf[0]? = some m ∧ ((n.dev.col 0).ring 0).takes 32 = false ∧ c.kind = .msg ∧ c.mark = true ∧ c.entry = none ∧
        (((p none).dev.warp 0 0).park = .rwait 0 32 none 4 false ∧ 32 ≤ (((p none).dev.col 0).ring 0).bytes) ∧
        (((p (some 0)).dev.warp 0 0).park = .rwait 0 32 (some 0) 4 false ∧ 0 ≤ (p (some 0)).dev.now) ∧
        ((q none).dev.warp 0 0).park = .watch 4 (some 0) false ∧ ((q none).dev.col 0).watchOf 0 = some (wt none) ∧
        ((q (some (7, 0))).dev.col 0).watchOf 0 = some (wt (some (7, 0))) ∧
        ((stc (fun k => { k with reports := [(0, 3)] })).dev.col 0).reports.contains (0, 3) = true)) = true := by decide +kernel

/-- Column 0 awaits its own exchange 0, in which nobody sends to it: columns 1 to 3 have gone past it; column 1's next exchange has a send to it. -/
def stUnfed : State :=
  let own : XchOp := { slot := 0, op := 0, idx := 0, vd := 4, lsp := Mask.all, dom := 5, pk := 1, pp := 1, reg := VReg.start, wants := true,
                       sends := [], launch := 0, level := 0, coords := [] }
  let far : XchOp := { own with idx := 1, wants := false, sends := [0] }
  let past : Table Warp := [(0, { Warp.start with xchCount := 2 })]
  let d := st4.dev.modCol 0 (fun k => { k with xchs := [own], warps := [(0, { Warp.start with xchCount := 1 })] })
  let d := d.modCol 1 (fun k => { k with xchs := [far], warps := past })
  { st4 with dev := (d.modCol 2 (fun k => { k with warps := past })).modCol 3 (fun k => { k with warps := past }) }

theorem witness_ExchangeEvents_unfed :
    (let s := stUnfed
      let k := s.dev.col 0
      let mine := (s.dev.xchPending 0).filter (fun q => s.dev.member q.2 0 == some 0)
      let quiet : State := { s with dev := s.dev.modCol 1 (fun k => { k with xchs := [] }) }
      let idle : State := { quiet with dev := quiet.dev.modCol 0 (fun k => { k with xchs := [] }) }
      (match k.xchs.find? (fun x => x.slot == 0 && x.wants) with
        | some x => s.dev.xchUnfed 0 x
        | none => false) &&
        decide (k.xbuf.get? 0 = none ∧ (∀ q ∈ mine, k.xchNext 0 < q.2.idx) ∧ idle.dev.xchPending 0 = []) &&
        (mine.find? (fun q => mine.all (fun r => decide (q.2.idx ≤ r.2.idx)))).isSome &&
        ((idle.dev.col 0).xchs.find? (fun x => x.slot == 0 && x.wants)).isNone) = true := by decide +kernel

theorem witness_CompletionEvents :
    (let o := st.dev.newOp .store 0 2 []
      let s := stc (fun k => { k with ops := [o] })
      let rel := stw (fun w => { w with wait := .release 0x7F })
      let t : State := { st with dev := { (stc (fun k => { k with ops := [st.dev.newOp (.atsc 0 none) 0 2 []] })).dev with ready := [.seqr] } }
      let b := stc (fun k => { k with bars := [(0, { arr := 8, exp := 8, phase := 0, mask := 0x7F, engines := 1 })] })
      let x : BardState := { launch := 0, unit := (withLaunch st).dev.curRec.unitNo 0 [0, 0, 0], channel := 0, phase := 0,
                             arrived := (List.range 8).map (fun j => (0, j)), mask := 0 }
      let c : State := { st with dev := { (withLaunch st).dev with bards := [x] } }
      let eight := (List.range 8).map (fun i => (i, { Warp.start with active := true }))
      let off : Warp := { Warp.start with active := false, overdueAt := some 0 }
      let e : State := stc (fun k => { k with warps := [(0, off)], readied := [0] })
      let v : State := stc (fun k => { k with warps := eight ++ [(8, off)], readied := [8] })
      decide (v.dev.candidate 0 = some (8, off) ∧ 8 ≤ ((v.dev.col 0).warps.filter (fun x => x.2.active)).length ∧ off.overdueAt ≠ none ∧
        (v.dev.col 0).lowest.isSome = true ∧ (v.dev.col 0).lastEnter ≠ some v.dev.now ∧ (st.dev.candidate 0) = none) &&
      decide ((e.dev.col 0).lastEnter ≠ some e.dev.now ∧ (s.dev.col 0).op? 0 = some o ∧ o.kind.isStore = true ∧ o.kind ≠ .msg ∧ o.lanes = [] ∧ o.logged = 0 ∧ o.resv = [] ∧ o.entry = none ∧
        (rel.dev.warp 0 0).wait = .release 0x7F ∧ (rel.dev.col 0).released 0 0x7F 0 = true ∧ t.dev.ticketless ≠ [] ∧ .seqr ∈ t.dev.ready ∧
        ((b.dev.col 0).bar 0 0).full = true ∧ (b.dev.col 0).trackerClear 0 0x7F (fun t => t.gang == 0) = true ∧
        (∀ w ∈ (b.dev.col 0).warps, w.2.park = .none) ∧ c.dev.launches.has 0 = true ∧ c.dev.bardFull (c.dev.bard 0 x.unit 0) = true ∧
        c.dev.unitClear (c.dev.bard 0 x.unit 0) = true ∧ (c.dev.bard 0 x.unit 0).arrived ≠ [] ∧
        (∀ p ∈ c.dev.launchWarps 0, (c.dev.warp p.1 p.2).park = .none) ∧ e.dev.candidate 0 = some (0, off) ∧
        ((e.dev.col 0).warps.filter (fun x => x.2.active)).length < 8 ∧
        320 ≤ ((stw (fun w => { w with overdueCount := 320 })).dev.warp 0 0).overdueCount ∧
        ((stw (fun w => { w with overdueCount := 320 })).dev.warp 0 0).overdueAt = none ∧ (st.dev.col 0).warps.has 0 = true)) = true := by
  decide +kernel

/-- Column 0 with four indirect reservations outstanding, and index register 0 over a window of eight registers. -/
def stWin : State :=
  { st with dev := (st.dev.modCurWarp (fun w => { w with ix := w.ix.set 0 { IxReg.start with bound := 8 } })).modCol 0 (fun k => { k with
    ops := List.replicate 4 { st.dev.newOp .load 0 2 [] with window := true } }) }

theorem witness_FifthWindowWaits :
    (let ok (f : VFields) (x : VCtx) (us : List Use) (i : Instr) : Bool := i.wf && x.fifthWindow f.d && !x.notReady us &&
        decide (x.checks f.h.u (dstBound x.regs f.d :: x.bounds us) (x.dstWin f.d) us none [] = none)
      let f : VFields := { v2 Fmt.i32 0 with d := 0x100 }
      let x := vIn f stWin 2
      let g : VFields := { v2 Fmt.ui32 0 with d := 0x100 }
      let y := vIn g stWin 2
      let m : VFields := { v1 0 0 with d := 0x100 }
      let z : VCtx := vctx stWin.dev m.h [dstOperand m.d, m.a]
      [Instr.iadd f, .isub f, .imul f, .imulh f, .imin f, .imax f].all (ok f x [Use.of (x.src 1 f.a) f.h.ty, Use.of (x.srcB f f.h.ty) f.h.ty]) &&
        [Instr.and g, .or g, .xor g, .andn g, .shl g, .shr g, .sar g, .rot g, .bfx g].all
          (ok g y [logicUse g.h.ty (y.src 1 g.a), logicUse g.h.ty (y.srcB g g.h.ty)]) &&
        ok m z [{ src := z.src 1 m.a, want := none, one := true }] (.mov m)) = true ∧
    (let f : MFields := { mf Fmt.ui32 2 with dat := 0x100 }
      let x := vctx stWin.dev f.h [dstOperand f.dat]
      let a := x.spadAdr f.adr
      let off := spadOff a f.offset
      (Instr.lds f).wf && x.fifthWindow f.dat && !x.notReady [Use.ptr a] && !stWin.dev.curCol.acquiring 0 && decide (x.act ≠ 0) &&
        decide (firstTrap [x.datBound f.dat (accessRegs f.size.toNat), a.boundCheck x.regs, (Use.ptr a).tagCheck, x.dstWin f.dat,
          spadBound stWin.dev.curCol x.act off 4, spadAlign x.act off 4, a.poisCheck x.act] = none)) = true := by decide +kernel

def tf : TFields :=
  { h := hd Fmt.f32, td := 7, areg := 1, breg := 2, k8 := 0, mode := 0, abm := 0, bbm := 0, af := 2, bf := 2, sum := false, q := false,
    rows := 0 }
/-- The boundaries of a column with room for one tile, its operands and its lines. -/
def stt : State := stc (fun k => { k with regions := { n := 1, w := 8, regs := 256, spad := 128, acc := 8, spawnw := 0 } })
def pf : PFields := { h := hd Fmt.f32, tf := 0, tl := 7, dst := 16, selp := 0, par := 10, sup := 0, stw := 0, of := 1, dk := false }

theorem witness_TileOperationsEnterQueue :
    (let f := tf
      let k := stt.dev.curCol
      let ints := [Fmt.ui32, Fmt.i32]
      decide (stt.tileOpen f.h 0 ∧ stt.tileOpen f.h 1 ∧ stt.uniform 1 ints ∧ stt.uniform 2 ints ∧ stt.uniform 3 ints ∧ stt.optional f.rows ∧
        stt.optional f.abm ∧ f.td.toNat < k.regions.acc ∧ stt.reg 1 0 = 0 ∧ stt.reg 2 0 = 0 ∧ 64 * f.k * TFields.aw f / 8 ≤ k.spadBytes ∧
        TFields.bLines f * 256 ≤ k.bsGang ∧ 4 * TFields.bLines f * 256 ≤ k.bsGang ∧ 256 * f.k * TFields.aw f / 8 ≤ k.spadBytes)) = true ∧
    (let s : State := withLaunch { stt with dev := stt.dev.modCtx 0 (fun c => { c with fixRight := true }) };
      decide (s.dev.curRec.fixsum = true ∧ (s.dev.ctx 0).fixRight = true ∧ s.tileOpen (hd Fmt.f32) 0)) = true ∧
    (let f : TFields := { tf with mode := 2, abm := 3, bbm := 3 };
      decide (stt.readable 3 [Fmt.ui32] ∧ stt.readable 4 [Fmt.ui32] ∧ 2 * ((f.k + 31) / 32) = 2)) = true ∧
    (let f : TFields := { tf with mode := 3, bf := 0x14, k8 := 11, bbm := 5 }
      let s : State := { stt with dev := stt.dev.modCurWarp (fun w => { w with regs := [(5, { fmt := 0, data := .uniform 0x100000 false })] }) }
      let b := (s.dev.curWarp.laneOf 5 0).toNat
      decide (s.optional f.bbm ∧ groupOf b ≠ 0 ∧ b / 2 ^ 22 = 0 ∧ f.k % groupOf b = 0 ∧ b % 2 ^ 20 = 0 ∧
        f.k / groupOf b * 256 ≤ s.dev.curCol.bsGang)) = true ∧
    (let f : TFields := { tf with mode := 1 };
      decide (TFields.srcBytes f ≤ stt.dev.curCol.spadBytes ∧ ownSel 0 (ptrOf 0 0) = true ∧ (TFields.srcBytes f - 1) / 2 ^ 21 = 0 ∧
        64 * 256 ≤ stt.dev.curCol.spadBytes)) = true ∧
    (let f := pf
      let s : State := { stt with dev := stt.dev.modCurWarp (fun w => { w with regs := [(12, { fmt := 0, data := .uniform 0x10001 false })] }) }
      let geo := s.dev.curWarp.laneOf 12 0
      let c := PFields.counts f (geoM geo) (geoN geo)
      decide (s.tileOpen f.h 0 ∧ f.tl.toNat < s.dev.curCol.regions.acc ∧ f.par = 10 ∧ s.uniform 10 [Fmt.f32] ∧ s.uniform 11 [Fmt.f32] ∧
        s.uniform 12 [Fmt.ui32, Fmt.i32] ∧ PFields.geoOk f geo = true ∧ f.dst.toNat + c.1 ≤ 256 ∧ f.selp = 0 ∧
        ∀ r ∈ PFields.stwIn f (geoM geo) (geoN geo), s.dev.curCol.busy 0 [r] = false ∧ r < 256)) = true := by
  decide +kernel

/-- A tile operation as it enters its queue. -/
def tileOp (i : Instr) : TileOp :=
  { insn := i, slot := 0, gang := 0, ctx := 0, priv := false, aoff := 0, ahi := 0, boff := 0, asc := 0, bsc := 0, rowsv := 64, step := 0,
    itick := 0, started := none, held := none, line := 0, wrote := none, tiles := [7], reads := [], writes := [], bread := [],
    bwrite := [], rregs := [], wregs := [], clash := [], vague := [], bclash := [], spoiled := false, kept := [], keptRegs := [], killed := [], rescan := false, base := 0 }

theorem witness_TileOperationsRun :
    ([Instr.mclr tf, .mma tf, .mmab tf, .mmas tf, .mlda tf].all (fun i =>
      let o : TileOp := { tileOp i with started := some 4 }
      let s (o : TileOp) (n : Nat) : State := { stt with dev := { (stt.dev.modCol 0 (fun k => { k with tileQ := k.tileQ.set 0 [o] })) with
        now := n } }
      decide (((s o 5000).dev.col 0).queue 0 = [o] ∧ ((s o 5000).dev.col 0).queue 1 = [] ∧ o.clash = [] ∧ o.bclash = [] ∧ o.spoiled = false ∧
        ((s o 5000).dev.col 0).yielded = false ∧ ((s o 5000).dev.col 0).halted = false ∧ o.fromMem = false ∧
        4 + o.busy ((s o 5000).dev.col 0) + o.x ≤ 5000 + 1 ∧ (tileOp i).started = none ∧ (tileOp i).held = none ∧
        ((s (tileOp i) 4).dev.col 0).queue 0 = [tileOp i] ∧ (tileOp i).itick + 4 ≤ 4))) = true := by decide +kernel

/-- A drain of one row of two elements, whose FP32 words stand in tile 7. -/
def drainOp (i : Instr) : TileOp := { tileOp i with started := some 4, rowsv := 0x20001, boff := 0x3F800000, asc := 0x40000000 }
def stDrain (i : Instr) (a b : Word) : State :=
  { stt with dev := { (stt.dev.modCol 0 (fun k =>
      let w := (k.tileRange 7).1 / 4
      { (k.putPool 0 w a false).putPool 0 (w + 1) b false with tileQ := k.tileQ.set 0 [drainOp i] })) with now := 5000 } }

theorem witness_TileOperationsRun_products :
    (let o := tileOp (.mma tf)
      let g : TFields := { tf with mode := 3, bf := 0x14, k8 := 11, bbm := 5 }
      decide (o.kept = [] ∧ o.keptRegs = [] ∧ o.vague = [] ∧ 63 < o.rowsv.toNat ∧ tf.mode.toNat ≤ 1 ∧ tf.h.ty = Fmt.f32 ∧
        groupOf 0x100000 ≠ 0 ∧ g.k % groupOf 0x100000 = 0 ∧ g.mode = 3 ∧ g.h.ty = Fmt.f32)) = true ∧
    (let f : TFields := { tf with mode := 2 }
      let o (n : Option Nat) : TileOp := { tileOp (.mldb f) with started := some 4, wrote := n }
      let s (n : Option Nat) : State := { stm with dev := { (stt.dev.modCol 0 (fun k => { k with tileQ := k.tileQ.set 0 [o n] })) with now := 9 } }
      let e := 32 / TFields.bw f
      let w := TFields.srcBits f
      let secs := ((((List.range e).map (fun j => (List.range 64).map (mldbBit f j))).flatten.map (fun b =>
        [b / 8 / 32 * 32, (b + w - 1) / 8 / 32 * 32])).flatten).eraseDups
      decide (((s none).dev.col 0).queue 0 = [o none] ∧ ((s none).dev.col 0).yielded = false ∧ f.mode.getLsbD 1 = true ∧
        ((s none).dev.col 0).filter.any (fun x => x.rerun.contains (.tile 0)) = false ∧ ((s (some 5)).dev.col 0).queue 0 = [o (some 5)] ∧
        5 + 4 ≤ (s (some 5)).dev.now ∧ 4 < (s none).dev.now ∧ (o none).line < TFields.bLines f ∧ ptrOff (ptrOf (o none).aoff (o none).ahi) = 0) &&
        (match ((s none).homeSectors 0 0 false secs).1 with
        | .ok _ => true
        | .error _ => false)) = true ∧ (tileOp (.mldb { tf with mode := 2 })).Plain := by
  refine ⟨by decide +kernel, by decide +kernel, ⟨rfl, rfl, rfl, rfl, rfl, rfl, rfl⟩⟩

theorem witness_TileOperationsRun_drains :
    ([(pf, false), ({ pf with selp := 1 }, true), ({ pf with dk := true, sup := 20, stw := 30 }, false),
      ({ pf with selp := 3, stw := 30 }, false)].all (fun p =>
      let i : Instr := if p.2 then .pjadj p.1 else .mdrain p.1
      let o := drainOp i
      let s := stDrain i 0x3F800000 0x40000000
      let k := s.dev.col 0
      decide (k.queue 0 = [o] ∧ k.queue 1 = [] ∧ k.yielded = false ∧ o.started = some 4 ∧ 4 + o.busy k + o.x ≤ s.dev.now + 1 ∧
        PFields.doubled p.1 p.2 (geoM o.rowsv) (geoN o.rowsv) = [] ∧ geoM o.rowsv ≤ 64 ∧ 1 ≤ geoN o.rowsv))) = true ∧
    (drainOp (.mdrain pf)).Plain := by
  refine ⟨by decide +kernel, ⟨rfl, rfl, rfl, rfl, rfl, rfl, rfl⟩⟩

theorem witness_TileOperationsRun_rows :
    (let x (a b : Word) (j : Nat) : FVal := f32Val ((drainOp (.mdrain pf)).rowWord ((stDrain (.mdrain pf) a b).dev.col 0) 0 j)
      let some_ (a b : Word) (p : FVal → Bool) : Bool := (List.range 2).any (fun j => p (x a b j))
      let z := f32Val (drainOp (.mdrain pf)).boff
      let sum (a b : Word) := sumF32 ((List.range 2).map (fun j => (x a b j).abs))
      decide (pf.h.rm = 0 ∧ pf.h.ty ≠ Fmt.i32 ∧ geoN (drainOp (.mdrain pf)).rowsv = 2) &&
        some_ 0x7FC00000 0 FVal.isNan &&
        some_ 0x7F800000 0 (· == .inf false) && !some_ 0x7F800000 0 FVal.isNan &&
        !some_ 0xFF800000 0xFF800000 FVal.isNan && !some_ 0xFF800000 0xFF800000 (· == .inf false) &&
        !some_ 0xFF800000 0xFF800000 (fun v => !v.isInf) &&
        !some_ 0x3F800000 0x40000000 FVal.isNan && !some_ 0x3F800000 0x40000000 FVal.isInf && FVal.less z (sum 0x3F800000 0x40000000) &&
        !FVal.less z (sum 0x3F000000 0x3F000000)) = true ∧
    (let k (norm : Word) (m : Word) : Column := { st.dev.col 0 with warps := [(0, { Warp.start with
        regs := [(30, { fmt := Fmt.f32, data := .uniform norm false }), (31, { fmt := Fmt.ui32, data := .uniform m false })] })] }
      let o := drainOp (.pjadj { pf with selp := 3, stw := 30 })
      let stw (k : Column) (r : Nat) : Word := ((k.warp o.slot).reg r).data.lane 0
      let z := f32Val o.boff
      let bit (m : Word) (j : Nat) : Bool := (stw (k 0 m) 31).getLsbD j
      decide (o.kept = [] ∧ o.keptRegs = [] ∧ 1 ≤ geoN o.rowsv ∧ (f32Val (stw (k 0x7FC00000 0) 30)).isNan = true ∧
        (f32Val (stw (k 0x3F800000 0) 30)).isNan = false ∧ FVal.less z (f32Val (stw (k 0x3F800000 0) 30)) = false ∧
        FVal.less z (f32Val (stw (k 0x40000000 0) 30)) = true ∧ (List.range 2).any (bit 0) = false ∧ (List.range 2).any (bit 2) = true)) =
      true := by
  refine ⟨by decide +kernel, by decide +kernel⟩

theorem witness_CopyEntersEngine :
    (let f : VFields := { v1 0 0 with a := rg 8, d := 0 }
      let w := st.dev.curWarp
      let x := CopyDesc.ofWords (fun i => lane (rangeSrc w 1 f.a i).vals 0)
      let us := (List.range 8).map (fun i => Use.ptr (rangeSrc w 1 f.a i))
      decide (st.selected f.h ∧ st.dev.curCol.busy 0 ((List.range 8).map (fun i => 8 + i)) = false ∧
        firstTrap ([rangeBound 256 8 8] ++ us.map (fun u => u.src.uniCheck) ++ us.map Use.tagCheck ++
          us.map (fun u => u.src.poisCheck Mask.all)) = none ∧ x.legal = true ∧ x.form = 0 ∧
        firstTrap (copyBounds st.dev.curCol x none) = none ∧ st.dev.copySels 0 x = (true, true, true) ∧ x.ck = 0 ∧ ptrOff x.cw % 8 = 0 ∧
        st.dev.curCol.acquiring 0 = false ∧ st.dev.curCol.copies.length < 16 ∧ w.copies < 63)) = true := by decide +kernel

/-- The mapped page with a graph of one empty node at offset 0x1000, whose pointer is in r8 and r9. -/
def stg : State :=
  let put (m : Memory) (o n : Nat) : Memory := Memory.write m (vkey 0 (placedPage + o)) (bytesOf 8 n)
  { stm with
    vault := put (put (put (put (put (put mapped 0x1000 (1 + 2 ^ 32)) 0x1008 0x2000) 0x1010 0x3000) 0x1018 0x4000) 0x1020 0x5000) 0x1028 0x6000,
    dev := stm.dev.modCurWarp (fun w => { w with regs := [(8, { fmt := 0, data := .uniform 0x1000 false })] }) }

theorem witness_GraphAndProgramInstructions :
    (let f : VFields := { v3 0 0 with d := 0, a := rg 8 }
      let x := vctx stm.dev f.h []
      let u (n : Nat) := Use.ptr (rangeSrc x.w 2 (rg n) 0)
      let ad := [Use.ptr (rangeSrc x.w 1 f.a 0), Use.ptr (rangeSrc x.w 1 f.a 1)]
      decide (stm.selected f.h ∧ stm.dev.partPtr 0 (ptrOf 0 0) = true ∧ stm.dev.curCol.acquiring 0 = false ∧
        stm.dev.curCol.storeRoom 0 1 = true ∧ x.ReadyUni [rangeBound x.regs 8 2] (ad ++ [u 2]) [] ∧
        x.ReadyUni [rangeBound x.regs 8 2, rangeBound x.regs 2 2] (ad ++ [u 2, u 3, u 3]) [] ∧ stm.dev.releaseOver true 0x7F)) = true ∧
    (let f : VFields := { v1 0 1 with a := rg 8 }
      let busy : State := { stg with dev := (stg.dev.askReplay 0 0 0x1000 none (.warp 0 1)).2 }
      let try_ (s : State) (o : Nat) := ({ s with dev := (s.dev.askReplay 0 0 o none (.warp 0 0)).2 } : State).tryReplay
        (s.dev.askReplay 0 0 o none (.warp 0 0)).1
      let x := vctx stg.dev f.h []
      decide (stg.selected f.h ∧ stg.dev.partPtr 0 (ptrOf 0x1000 0) = true ∧ stg.dev.curCol.acquiring 0 = false ∧
        stg.dev.curCol.patching 0 = false ∧ x.ReadyUni [boundCheck x.regs 4, rangeBound x.regs 8 2]
          [Use.ptr (rangeSrc x.w 1 f.a 0), Use.ptr (rangeSrc x.w 1 f.a 1)] []) &&
        (match (try_ stg 0x1000).1 with
          | .begun k => k == 0
          | _ => false) &&
        (match (try_ stg 0).1 with
          | .bad s => s == 6
          | _ => false) &&
        (match (try_ busy 0x1000).1 with
          | .busy => true
          | _ => false)) = true ∧
    (let f : VFields := { v1 0 0 with a := rg 8, d := 0 }
      let x := vctx stm.dev f.h []
      decide (stm.selected f.h ∧ ownSel 0 (ptrOf 0 0) = true ∧ x.ReadyUni [rangeBound x.regs 8 2]
          [Use.ptr (rangeSrc x.w 1 f.a 0), Use.ptr (rangeSrc x.w 1 f.a 1)] [] ∧ stm.dev.curCol.acquiring 0 = false ∧
          stm.dev.curCol.hand.runq.length < 8 ∧ stm.dev.curWarp.copies < 63) &&
        (match (stm.engineReads 0 0 0 false 3 0 48).1 with
          | .ok _ => true
          | .error _ => false)) = true := by decide +kernel

theorem witness_SpecialRegisters :
    (let x := vctx st.dev (hd 0) []
      let v := x.src 1 (rg 2)
      decide (srPrivRead 5 = false ∧ boundCheck st.dev.curCol.regions.regs 5 = none ∧ st.selected (hd 0) ∧ srPrivWrite 0 = false ∧
        srWritable 0 = false ∧ x.ReadyUni [] [Use.ptr v] [] ∧ (priv st).dev.cur.priv = true ∧ x.notReady [Use.ptr v] = false ∧
        firstTrap (x.bounds [Use.ptr v] ++ [(Use.ptr v).tagCheck, v.poisCheck x.act]) = none)) = true := by decide +kernel

theorem witness_SystemInstructions :
    (let s := priv stm
      let f := sf 0
      let x := vctx s.dev f.h []
      let v := x.src 1 f.a
      let p := x.pair f.a
      let q : Preempting := { ctx := 0, slot := 0, seq := none, htick := none, written := [] }
      let swap : State := { s with dev := { s.dev with parts := s.dev.parts.set 0 { s.dev.part 0 with preempt := some q } } }
      decide (s.dev.cur.priv = true ∧ s.selected f.h ∧ x.ReadyUni [rangeBound x.regs 2 2] [Use.ptr p.1, Use.ptr p.2] [] ∧
          (∀ c ∈ s.dev.ctxCols 0, s.stale c 0 none = false) ∧ x.ReadyUni [rangeBound x.regs 4 1] [Use.ptr v] [] ∧
          s.dev.slotUsed 0 0 = false ∧ s.dev.swapping 0 = false ∧ swap.dev.swapping 0 = true ∧ swap.selected f.h ∧
          x.ReadyUni [] [Use.ptr v] [] ∧ (s.dev.ctx 0).state = .resident ∧ s.dev.ctxs.has 0 = true ∧ 0 ∈ (s.dev.part 0).columns ∧
          x.ReadyUni [rangeBound x.regs 4 2] [Use.ptr v] [] ∧ s.dev.inPart 0 0 = true ∧ ownSel 0 (ptrOf 0 0) = true ∧
          testCols 0x1000 = [0] ∧ lane v.vals 0 = 0) &&
        (match (s.translate 0 0 0 false true).1 with
          | .ok _ => true
          | .error _ => false)) = true := by decide +kernel

/-! ## Witnesses: the stagehand -/

/-- Column 0's stagehand running a program under a claim of the row at the mapped page's start, with that bank's accumulator clear. -/
def run0 : RunDesc := { q := Vector.replicate 6 0, owner := .warp 0 0 none, ctx := 0, pois := false }
def sth (g : Hand → Hand) : State := { stm with dev := stm.dev.modHand 0 (fun h => g { h with
  running := some run0, ilen := 1, claims := [{ slot := 0, off := placedPage, len := 1024, done := true }],
  acc := [(placedPage / 1024 % 32, Vector.replicate 256 0)] }) }

theorem witness_HandMemory :
    (let s := sth id
      let f := hf 1 0
      let g := hf 1 1
      let far := hf 1 1024
      let h := s.hand
      let e (w : Bool) := (s.handXlate 0 h.ctx 0 w).1
      let low : State := { sth id with vault := [] }
      let bank := placedPage / 1024 % 32
      let other := (sth (fun h => { h with acc := [((bank + 1) % 32, Vector.replicate 256 0)] })).hand
      let t := s.xlated 0 false
      let row := (t.putHand (t.hand.beginRow s.dev.now bank (placedPage / 1024) [32])).dev.rowRead 0 placedPage
      decide ((t.dev.col 0).claimed placedPage = true ∧ other.acc ≠ [] ∧ other.acc.has bank = false ∧ other.holds placedPage 1024 = true ∧
          h.addr f = 0 ∧ (e false).isSome = true ∧ (e true).isSome = true ∧ h.holds placedPage 8 = true ∧ h.holds placedPage 1024 = true ∧
          s.Inv ∧ h.addr g % 8 ≠ 0 ∧ (low.handXlate 0 h.ctx 0 false).1 = none ∧ (low.handXlate 0 h.ctx 0 true).1 = none ∧ h.addr far = 1024 ∧
          (s.handXlate 0 h.ctx 1024 true).1.isSome = true ∧ h.holds (placedPage + 1024) 8 = false ∧ h.holds (placedPage + 1024) 1024 = false ∧
          (h.hreg f.t).toNat = 0 ∧ s.dev.partPtr h.ctx (1#64 <<< 53) = false ∧ low.dev.partPtr h.ctx (low.hand.hreg f.s) = true ∧
          ptrOff (low.hand.hreg f.s) = 0) &&
        (match e false, e true, h.acc.get? (placedPage / 1024 % 32) with
          | some x, some y, some _ => x.va 0 == placedPage && y.va 0 == placedPage && !(t.handLine 0 placedPage 8 x.zc).poisonedIn 0 placedPage 8 &&
            !row.poisonedIn 0 placedPage 1024
          | _, _, _ => false)) = true := by decide +kernel

theorem witness_HandClaimsAndWaits :
    (let s : State := { sth id with dev := (sth (fun h => { h with claims := [], h := h.h.set 3 1 })).dev }
      let f := hf 0 0
      let h := s.hand
      let nm : NmEntry := { slot := 0, wid := 0, ctx := 0, off := 0, va := placedPage, aop := 0, ty := Fmt.ui32, rm := 0, val := 1, val2 := 0,
                            pois := false, tick := 0, orph := false }
      let read (e : TlbEntry) := (s.xlated 0 false).sliceWord (cueLane 0 0 e)
      decide (1 ≤ (h.hreg f.t).toNat ∧ (h.hreg f.t).toNat ≤ 2 ^ 22 ∧ (∀ x ∈ h.claims, x.slot ≠ f.x.toNat % 4) ∧
        (s.claimParts 0 h.ctx 0 0 1024).1.isSome = true ∧ s.dev.partPtr h.ctx (h.hreg f.s) = true ∧ ptrOff (h.hreg f.s) = 0 ∧
        colOf 0 (h.hreg f.s) = 0 ∧ (s.dev.col 0).hand.banks.olds = [] ∧ h.atomq = [] ∧
        ((sth (fun h => { h with atomq := [nm] })).hand).atomq ≠ [] ∧ s.Inv ∧ h.running = some run0 ∧ run0.q[2] = 0) &&
      (match (s.handXlate 0 h.ctx 0 false).1, (s.handXlate 0 h.ctx 0 true).1 with
        | some e, some x => decide (cmpOk 6 (read e).1 ((h.hreg 0).extractLsb' 0 32) = true ∧ cmpOk 6 (read e).1 ((h.hreg f.t).extractLsb' 0 32) = false ∧
            ((read e).2.2.col 0).watchCount placedPage < 64 ∧ (s.dev.col 0).hand.oldWords s.dev.now (x.va 0 / 4) = [])
        | _, _ => false)) = true := by decide +kernel

theorem witness_HandEvents :
    (let r : RunDesc := { run0 with q := (Vector.replicate 6 0).set 1 0x7FF0000 }
      let p : State := { stm with dev := { (stm.dev.modHand 0 (fun h => { h with runq := [r] })) with ready := [.stage 0] } }
      let taken : State := { p with dev := p.dev.modCol 0 (fun k => { k with gated := false, hand := { k.hand with
        runq := k.hand.runq.drop 1, running := some r, wait := .none, pc := r.entry, acc := [], halted := false } }) }
      let c0 := sth (fun h => { h with wait := .claim, claims := [{ slot := 0, off := placedPage, len := 1024, done := false }] })
      let cl : State := { c0 with dev := { c0.dev with now := 4 } }
      let cw (n : Nat) (halted : Bool) := sth (fun h => { h with wait := .cuew 1 0 0 0 (some n) none, halted := halted })
      let nm : NmEntry := { slot := 0, wid := 0, ctx := 0, off := 0, va := placedPage, aop := 0, ty := Fmt.ui32, rm := 0, val := 1, val2 := 0,
                            pois := false, tick := 0, orph := false }
      let fired : Watch := { va := 0, cmp := 6, value := 0, who := .hand, wcol := 0, ctx := 0, fired := some (0, 0) }
      let seen : State := { stm with dev := (cw 0 false).dev.modCol 0 (fun k => { k with watches := [fired] }) }
      let q : State := { stm with dev := stm.dev.modHand 0 (fun h => { h with
        atomq := [nm], claims := [{ slot := 0, off := placedPage, len := 1024, done := true }] }) }
      decide ((p.dev.col 0).hand.runq = [r] ∧ p.dev.handFree 0 r = true ∧ r.pois = false ∧ taken.dev.runOk r = true ∧ r.ilen = 1 ∧
          (cl.dev.col 0).hand.wait = .claim ∧ cl.dev.now = 4 ∧ (cl.dev.col 0).leasesOver 4 placedPage (placedPage + 1024) = true ∧
          ((cw 0 false).dev.col 0).hand.wait = .cuew 1 0 0 0 (some 0) none ∧ q.Inv ∧
          ((q.dev.resumeHand 0).col 0).hand.atomq = [nm] ∧ ((q.dev.resumeHand 0).col 0).hand.serves 0 = true ∧
          ((q.dev.resumeHand 0).col 0).claimed nm.va = true ∧ (nm.new 0).isSome = true ∧ nm.orph = false) &&
        (match (taken.loadImage 0 0 1 0).1 with
          | some (_, b) => !b
          | none => false) &&
        (seen.cueSeen 0 0 0 0 none).1 && !((cw 0 true).cueSeen 0 0 0 1 none).1) = true := by decide +kernel

/-- A row operation at bank 5 whose phases end at ticks 16 and 48, and a load that asks for that bank. -/
theorem witness_HandEvents_windows :
    (let b : BankTimes := { stm.hand.banks with run := some { bank := 5, row := some 5, ends := [16, 48], rest := [] } }
      let a : LaneAcc := { laneWant 0 0 5120 4 0 with va := 5120, cut := 4 }
      let o : MemOp := { stm.dev.newOp .load 0 2 [a] with slot := 0 }
      let at_ (b : BankTimes) : Dev := stm.dev.modCol 0 (fun k => { k with ops := [o], hand := { k.hand with banks := b } })
      let d := at_ b
      let k : BankTimes := { b with kept := [(5, some 20)] }
      let n (b : BankTimes) := ([16, 48].filter (fun t => decide (0 < t))).find? (fun t => decide (((b.kept.get? 5).bind id).getD 0 ≤ t))
      d.bankWanted 0 5 && !d.bankWanted 0 4 && !b.holds 0 4 && b.holds 0 5 && !(b.windows.has 5) && n b == some 16 && n k == some 48 &&
        (({ b with windows := [(5, 64)] } : BankTimes).windows.get? 5).isSome &&
        ({ b with kept := [(5, none)] } : BankTimes).kept.get? 5 == some none) = true := by decide +kernel

/-! ## Witnesses: rings, launches, copies, graphs, faults, swaps and the device -/

/-- Every function of die 0 that a witness needs is ready, and no column is absent. -/
def up (s : State) : State := { s with dev := { s.dev with ready := [.port 0, .smgr 0, .cols 0, .seqr, .stage 0, .stage 1, .stage 2, .stage 3, .stage 4, .stage 5, .stage 6, .stage 7], absent := [] } }
def cmd (opc : BitVec 8) (arg0 : BitVec 64) : CmdEntry := { seq := 1, opc := opc, ctx := 0, arg0 := arg0, arg1 := 0, rsvd := 0 }
/-- A ring with one accepted entry. -/
def inRing (s : State) (r : RingId) (e : CmdEntry) : State := { s with dev := s.dev.putRing r { RingBlock.start with accepted := [e] } }
/-- The device as that entry begins to run. -/
def begun (s : State) (r : RingId) (e : CmdEntry) : Dev :=
  let a := s.dev.accept r (s.dev.ring r).stopped
  a.putRing r ((a.ring r).begin e)
def first (s : State) (r : RingId) : Option CmdEntry := ((s.dev.accept r (s.dev.ring r).stopped).ring r).accepted.head?

theorem witness_RingsAcceptAndComplete :
    (let s := up stm
      let e := cmd 6 0
      let bad := { e with rsvd := 1 }
      let c : Completion := { cseq := 0, seq := 1, status := 0, opc := 6, ctx := 0, info := 0 }
      let h : State := { s with dev := s.dev.putRing (.part 0) { RingBlock.start with heldCpl := [c] } }
      let t := begun (inRing s (.part 0) e) (.part 0) e
      let two : State := { s with dev := s.dev.putRing (.part 0) { RingBlock.start with accepted := [e], begun := [{ e with seq := 9 }] } }
      let v := begun two (.part 0) e
      decide (s.dev.ringOpen (.part 0) = true ∧ (s.dev.ring (.part 0)).cmdHead < 4096 ∧
        (s.dev.ring (.part 0)).cmdTail = (s.dev.ring (.part 0)).cmdHead ∧ (s.dev.ring (.part 0)).heldCpl = [] ∧
        (h.dev.ring (.part 0)).heldCpl = [c] ∧ ((h.dev.ring (.part 0)).cplTail + 1) % 4096 ≠ 0 ∧
        first (inRing s (.part 0) (cmd 0x7F 0)) (.part 0) = some (cmd 0x7F 0) ∧ opcAssigned (.part 0) 0x7F = false ∧
        first (inRing s (.part 0) bad) (.part 0) = some bad ∧ bad.rsvd ≠ 0 ∧ first (inRing s (.part 0) e) (.part 0) = some e ∧
        e.opc = 6 ∧ ((t.ring (.part 0)).begun.map (fun x => x.seq)).filter (fun x => x != e.seq) = [] ∧ (t.ring (.part 0)).marks = [] ∧
        ((v.ring (.part 0)).begun.map (fun x => x.seq)).filter (fun x => x != e.seq) ≠ [])) = true := by decide +kernel

/-- The mapped page with the record of launch 0 at offset 0x100. -/
def stLaunch : State :=
  let put (m : Memory) (o n : Nat) : Memory := Memory.write m (vkey 0 (placedPage + o)) (bytesOf 8 n)
  up { stm with vault := put (put (put (put (put mapped 0x110 (256 + 128 * 2 ^ 24 + 8 * 2 ^ 42 + 2 ^ 48)) 0x118 (3 * 2 ^ 48))
    0x130 (4 * 2 ^ 32 + 1)) 0x138 (3 * 2 ^ 32 + 1)) 0x140 (2 * 2 ^ 32 + 8) }

theorem witness_PartitionCommands :
    (let s := stLaunch
      let ok (s : State) (e : CmdEntry) : Bool :=
        decide (first (inRing s (.part 0) e) (.part 0) = some e ∧ (begun (inRing s (.part 0) e) (.part 0) e).ctxIn 0 0 = true)
      let base (e : CmdEntry) : State := { s with dev := begun (inRing s (.part 0) e) (.part 0) e }
      let saved : State := { s with dev := { s.dev with ctxs := s.dev.ctxs.set 0 { s.dev.ctx 0 with state := .saved 0 } } }
      let img : Image := s.dev.image 0 0 { ctx := 0, slot := 0, seq := none, htick := none, written := [] } 0
      let full : State := { s with dev := { s.dev with images := [(imageKey 0 0, img)] } }
      let t := begun (inRing saved (.part 0) (cmd 4 0)) (.part 0) (cmd 4 0)
      let g := up stg
      let tried (o : BitVec 64) : ReplayTry :=
        let t := begun (inRing g (.part 0) (cmd 2 o)) (.part 0) (cmd 2 o)
        let asked := t.askReplay 0 0 (ptrOff o) (some 0) (.ring 0 1)
        (({ g with dev := asked.2 } : State).tryReplay asked.1).1
      (match ((base (cmd 1 0x100)).readLaunch 0 0 0 0x100).1 with
        | .taken _ => true
        | _ => false) &&
      (match ((base (cmd 1 0)).readLaunch 0 0 0 0).1 with
        | .rejected => true
        | _ => false) &&
      (match tried 0x1000 with
        | .begun k => k == 0
        | _ => false) &&
      (match tried 0 with
        | .bad st => st == 6
        | _ => false) &&
      ok s (cmd 1 0x100) && ok s (cmd 1 0) && ok s (cmd 1 0x100000000000) && ok g (cmd 2 0x1000) && ok g (cmd 2 0) && ok s (cmd 3 0) && ok full (cmd 3 0) && ok saved (cmd 3 0) && ok saved (cmd 4 0) &&
      ok s (cmd 5 0) && ok saved (cmd 7 0) && decide ((s.dev.ring (.part 0)).waiting = [] ∧ g.dev.partPtr 0 0x1000 = true ∧
        s.dev.waitingSwap 0 3 = none ∧ (s.dev.part 0).stopping = false ∧ (s.dev.part 0).preempt = none ∧ (s.dev.ctx 0).state = .resident ∧
        s.dev.slotUsed 0 0 = false ∧ full.dev.slotUsed 0 0 = true ∧ (saved.dev.ctx 0).state ≠ .resident ∧ saved.dev.waitingSwap 0 4 = none ∧
        (base (cmd 3 0)).dev.waitingSwap 0 4 = none ∧ (t.part 0).stopping = false ∧ (t.ctx 0).state = .saved 0 ∧ t.residentOf 0 = none ∧ t.imagePoisoned 0 0 = false)) = true := by
  decide +kernel

theorem witness_AdministrativeCommands :
    (let s := up stm
      let ok (e : CmdEntry) : Bool := decide (first (inRing s .admin e) .admin = some e)
      let t (e : CmdEntry) : Dev := begun (inRing s .admin e) .admin e
      let make := cmd 0x10 (0x40501)
      let bare : State := { s with dev := { s.dev with ctxs := [] } }
      let reads (a : BitVec 64) : Bool := (({ s with dev := t (cmd 0x13 a) } : State).fabricRead a.toNat 32).1.isSome
      ok make && ok (cmd 0x11 0) && ok (cmd 0x11 9) && ok (cmd 0x12 1) && ok (cmd 0x12 0x900) && ok (cmd 0x13 0) &&
        decide (first (inRing bare .admin (cmd 0x11 0)) .admin = some (cmd 0x11 0) ∧ (t make).pcreateStatus make = 0 ∧ (t make).power ≠ .p3 ∧
          (t (cmd 0x10 0)).pcreateStatus (cmd 0x10 0) ≠ 0 ∧ bare.dev.parts.has 0 = true ∧ bare.dev.ctxsOf 0 = [] ∧ s.dev.parts.has 9 = false ∧
          s.dev.parts.has 0 = true ∧ s.dev.ctxIn 0 0 = true ∧ s.dev.ctxIn 0 9 = false) && reads 0 && !reads 0x400FFFFFFFFF00) = true := by
  decide +kernel

theorem witness_LaunchesStartAndEnd :
    (let l : Launch := { launch0 with placed := 0, cols := [] }
      let s : State := up { stm with dev := { (stm.dev.modCol 0 (fun k => { k with warps := [] })) with
        launches := [(0, l)], parts := stm.dev.parts.set 0 { stm.dev.part 0 with queues := [(0, [0])] } } }
      let e : State := { s with dev := { s.dev with launches := [(0, launch0)] } }
      let b := withLaunch st
      let t : Tracker := { id := 0, slot := 0, gang := 0, launch := 0, coords := [], spawned := false, times := Vector.replicate 7 0 }
      let k : State := stc (fun k => { k with tracker := [t] })
      let later : Tracker := { t with times := Vector.replicate 7 1 }
      let n : State := stc (fun k => { k with tracker := [later] })
      decide (launch0.rec_.groups ≤ launch0.placed ∧ l.placed < l.rec_.groups ∧ (s.dev.part 0).held = false ∧ (s.dev.part 0).holdWanted = false ∧
        (s.dev.part 0).halting = false ∧ (s.dev.part 0).lost = false ∧
        (s.dev.residentOf 0).isSome = true ∧ (s.dev.part 0).heads.find? (fun i => s.dev.launchState i == .resident) = some 0 ∧
        s.dev.launches.get? 0 = some l ∧ l.id = 0 ∧ s.dev.instances (s.dev.part 0) l.rec_ = [0] ∧ l.rec_.layout = [([0], 0)] ∧
        1 ≤ l.rec_.gangs ∧ (s.dev.col 0).warps = [] ∧ e.dev.launches.get? 0 = some launch0 ∧ e.dev.launchState 0 = .resident ∧
        0 ∈ launch0.cols ∧ 0 ∉ launch0.ended ∧ (e.dev.col 0).launchIdle 0 = true ∧ b.dev.launches.get? 0 = some launch0 ∧
        (b.dev.col 0).launchIdle 0 = false ∧ (k.dev.col 0).tracker.find? (fun x => x.id == t.id) = some t ∧
        (k.dev.col 0).entryBusy t.id = false ∧ (∀ x ∈ t.times.toList, x ≤ k.dev.now) ∧
        (n.dev.col 0).tracker.find? (fun x => x.id == later.id) = some later ∧ ∃ x ∈ later.times.toList, n.dev.now < x)) = true := by
  decide +kernel

/-- A linear copy of 8 bytes from the mapped page to the gang's scratchpad, in a stage of its life. -/
def copy0 (stage time : Nat) (ck : Nat) : CopyCmd :=
  { id := 0, owner := .warp 0 0 none, ctx := 0, gang := 0, launch := 0, priv := false,
    desc := { src := 0x7FF#64 <<< 53, dst := 0x7FF#64 <<< 53, len := 8,
              ctl := BitVec.ofNat 32 ck, cw := 0 }, srec := none, drec := none, stage := stage, pos := 0, time := time,
    err := 0, late := false, held := none }

theorem witness_CopiesAndGraphsRun :
    (let with_ (x : CopyCmd) : State := { stm with dev := stm.dev.modCol 0 (fun k => { k with copies := [x] }) }
      let spad : CopyCmd := { copy0 1 0 0 with desc := { (copy0 1 0 0).desc with ctl := 0x10, src := 0 } }
      let spad2 : CopyCmd := { copy0 1 0 0 with desc := { (copy0 1 0 0).desc with ctl := 0x8, src := 0 } }
      let x := if spad.desc.dk = 1 then spad else spad2
      let s := with_ x
      let node : GNode := { kind := 0, pidx := List.replicate 6 255, body := List.replicate 6 0, succ := [1], count := 0, started := false,
                            finished := false, ready := none, held := none, poll := none }
      let r : Replay := { id := 0, ctx := 0, part := 0, home := 0, obj := 0x1000, pbOff := none, owner := .warp 0 0, slot := some 0, pb := 0x5000,
                          nodes := [node, { node with count := 1 }], prev := none, failed := none, held := none }
      let g (n : GNode) : State := { stLaunch with dev := { stLaunch.dev with replays := [(0, { r with nodes := [n, { node with count := 1 }] })] } }
      let body (n : GNode) : Option (List (BitVec 64)) := match ((g n).nodeBody r n).1 with
        | .ok qs => some qs
        | .error _ => none
      let launches : GNode := { node with kind := 1, body := [0x100, 0, 0, 0, 0, 0] }
      let waits : GNode := { node with kind := 5 }
      let asked := stg.dev.askReplay 0 0 0x1000 none (.warp 0 0)
      let w : State := { stg with dev := asked.2 }
      decide ((stm.dev.col 0).filter = [] ∧ ((with_ (copy0 0 0 0)).dev.col 0).copy? 0 = some (copy0 0 0 0) ∧ (copy0 0 0 0).stage = 0 ∧ (s.dev.col 0).copy? 0 = some x ∧
          x.desc.form = 0 ∧ x.desc.oneSpace 0 = false ∧ x.pos = 0 ∧ x.late = false ∧ x.desc.len.toNat = 8 ∧ ptrOff x.desc.src % 32 + 8 ≤ 32 ∧
          ptrOff x.desc.dst % 32 + 8 ≤ 32 ∧ (copy0 2 0 0).desc.ck = 0 ∧ (copy0 3 5 0).stage = 3 ∧ 0 < (copy0 3 5 0).time ∧
          (stm.dev.warp 0 0).stopped = false ∧ (s.dev.col 0).halted = false ∧
          ((w.dev.waitingReplays 0).find? (fun y => (w.dev.slotFor y).isSome)) = some asked.1 ∧
          (stm.dev.waitingReplays 0).find? (fun y => (stm.dev.slotFor y).isSome) = none ∧
          (g node).dev.replays.get? 0 = some r ∧ r.node? 0 = some node ∧ (g node).dev.nodeMay r 0 node = true ∧ body node = some (List.replicate 6 0) ∧
          body launches = some [0x100, 0, 0, 0, 0, 0] ∧ body waits = some (List.replicate 6 0) ∧ (g waits).dev.partPtr 0 0 = true ∧
          (g { node with started := true, ready := some 0 }).dev.nodeDone 0 0 { node with started := true, ready := some 0 } = true ∧
          (r.finish 0 node).over = false) &&
        (match (w.tryReplay asked.1).1 with
          | .begun k => k == 0
          | _ => false) &&
        (match (s.copyRead 0 x 0 8).1 with
          | .ok bs => (match (s.copyWrite 0 x 8 0 bs).1 with
            | .ok _ => true
            | .error _ => false)
          | .error _ => false) &&
        (match ((with_ (copy0 2 0 0)).finishWord 0 0 0 none).1 with
          | .ok _ => true
          | .error _ => false) &&
        (match ((g launches).readLaunch 0 0 0 0x100).1 with
          | .taken _ => true
          | _ => false) &&
        (match ((g waits).cueAt r 0 false).1 with
          | .ok a => ((g waits).cueReached a 0).1
          | .error _ => false)) = true := by decide +kernel

/-- A record of four words of memory from offset 0x200 on, held by column 0, as a number; and index 1's entry at offset 0x40. -/
def copyRec : List Nat := [0x200 + 2 ^ 44 + 2 ^ 47 + 0x10 * 2 ^ 48 + 0xB * 2 ^ 56, 2 ^ 53, 4, 0, 0, 0, 0, 0]
def stCopy : State :=
  { stLaunch with
    vault := copyRec.zipIdx.foldl (fun (m : Memory) x => m.write (vkey 0 (placedPage + 0x40 + 8 * x.2)) (bytesOf 8 x.1)) stLaunch.vault,
    dev := { stLaunch.dev with ctxs := stLaunch.dev.ctxs.set 0 { stLaunch.dev.ctx 0 with objBase := 0, objLast := 1 } } }

theorem witness_CopiesAndGraphsRun_moves :
    (let f := TRec.ofNum (numOf (copyRec.map (bytesOf 8)).flatten)
      let x : CopyCmd := { copy0 1 0 0 with desc := { (copy0 1 0 0).desc with ctl := 0x11, src := 0, dst := 0 }, srec := some f, drec := some { f with base := 0 } }
      let s : State := { stCopy with dev := stCopy.dev.modCol 0 (fun k => { k with copies := [x] }) }
      let far : CopyCmd := { copy0 1 0 0 with desc := { (copy0 1 0 0).desc with ctl := 0x10, src := 0, len := 80 } }
      decide (x.desc.form = 1 ∧ far.desc.form = 0 ∧ far.pos < 80 ∧ far.desc.oneSpace 0 = false ∧ x.pos < 4 ∧ x.desc.oneSpace 0 = false ∧ x.rest = [] ∧
        f.rule 0 = none ∧ boxSize (copyBox x.desc f f) = 4) &&
      (match (s.copyReads 0 x 0x200 4).1, (s.oldBytes 0 x 0 32 0 (List.range 4)).1 with
        | .ok bs, .ok old => old.length == 4 && bs.length == 4 && (s.copyWrites 0 x 0 bs).2.2.isNone
        | _, _ => false) &&
      (match (s.copyRead 0 far 0 32).1 with
        | .ok bs => (match (s.copyWrite 0 far 32 0 bs).1 with
          | .ok _ => true
          | .error _ => false)
        | .error _ => false)) = true := by decide +kernel

theorem witness_CopiesAndGraphsRun_nodes :
    (let node (kind : Nat) (body : List (BitVec 64)) : GNode := {
        kind := kind, pidx := List.replicate 6 255, body := body, succ := [], count := 0, started := false, finished := false, ready := none, held := none, poll := none }
      let g (n : GNode) : State × Replay :=
        let r : Replay := { id := 0, ctx := 0, part := 0, home := 0, obj := 0x1000, pbOff := none, owner := .warp 0 0, slot := some 0, pb := 0x5000,
                            nodes := [n], prev := none, failed := none, held := none }
        ({ stCopy with dev := { stCopy.dev with replays := [(0, r)] } }, r)
      let starts (n : GNode) : Bool := (g n).1.dev.nodeMay (g n).2 0 n && (match ((g n).1.nodeBody (g n).2 n).1 with
        | .ok qs => qs == n.body
        | .error _ => false)
      let far : BitVec 64 := 1#64 <<< 53
      let copy : List (BitVec 64) := [0, 64, 8, 0, 0, 0]
      let tensor : List (BitVec 64) := [0, 64, 0x0000000100010001, 0, 0, 0]
      let d := stCopy.dev
      let desc (b : List (BitVec 64)) : CopyDesc := nodeDesc 0 (fun i => b.getD i 0)
      let full : State := { stCopy with dev := stCopy.dev.modHand 0 (fun h => { h with runq := List.replicate 8 run0 }) }
      let cue : LaneAcc := { laneWant 0 0 0 4 0 with va := placedPage, cut := 4 }
      let more : State := { stCopy with dev := stCopy.dev.modCol 0 (fun k => { k with
        watches := List.replicate 64 { va := placedPage, cmp := 6, value := 0, who := .hand, wcol := 0, ctx := 0, fired := none } }) }
      starts (node 0 [1, 0, 0, 0, 0, 0]) && starts (node 1 [far, 0, 0, 0, 0, 0]) && starts (node 2 copy) && starts (node 2 tensor) && starts (node 3 (List.replicate 6 0)) &&
        starts (node 4 (List.replicate 6 0)) && starts (node 5 (List.replicate 6 0)) && starts (node 6 (List.replicate 6 0)) &&
        decide (stCopy.Inv ∧ d.partPtr 0 far = false ∧ d.partPtr 0 0 = true ∧ ptrOff 0 % 8 = 0 ∧ d.inPart 0 0 = true ∧ d.inPart 0 1023 = false ∧
          d.nodeCopyOk 0 (desc copy) = true ∧ d.nodeCopyOk 0 (desc []) = true ∧ (desc copy).form = 0 ∧
          d.nodeCopyOk 0 { desc copy with ctl := 4 } = false ∧ d.nodeCopyOk 0 (desc tensor) = true ∧ (desc tensor).form = 1 ∧ (desc tensor).sobj = 1 ∧ (desc tensor).dobj = 1 ∧
          (d.col 0).hand.runq.length < 8 ∧ 8 ≤ (full.dev.col 0).hand.runq.length ∧ (d.col 0).hand.banks.olds = [] ∧
          (stCopy.cueReached cue 0).1 = true ∧ (stCopy.cueReached cue 1).1 = false ∧ (d.col 0).watchCount placedPage < 64 ∧
          64 ≤ (more.dev.col 0).watchCount placedPage) &&
        (match (stCopy.tensorAt 0 0 0 1 1).1 with
          | .ok (some f) => copyRecords 0 (desc tensor) f f
          | _ => false) &&
        (match (stCopy.cueAt (g (node 4 [])).2 0 true).1, (stCopy.cueAt (g (node 5 [])).2 0 false).1, (stCopy.translate 0 0 0 true false).1 with
          | .ok a, .ok _, .ok e => a.va == placedPage && e.va 0 == placedPage && a.tcol == 0
          | _, _, _ => false)) = true := by decide +kernel

theorem witness_FaultsReachAndReturn :
    (let s := up stm
      let f : FilterEntry := { ctx := 0, gran := 7, kind := 0, level := 2, acc := 1, sent := false, tick := 0 }
      let a : State := { s with dev := s.dev.modCol 0 (fun k => { k with filter := [f] }) }
      let w : WingEntry := { part := 0, ctx := 0, gran := 7, kind := 0, level := 2, acc := 1, waiters := 1, fcol := 0, tick := 0, arrived := 0, rseq := none }
      let b : State := { a with dev := { a.dev with wings := [(0, w)], now := 64 } }
      let at_ (wing : Nat) (z : Nat × WingEntry) : Bool := z.1 == wing && (z.2.part == 0 && z.2.ctx == 0 && z.2.gran == 7 && z.2.kind == f.kind)
      let many : List (Nat × WingEntry) := List.replicate 64 (0, { w with gran := 9 })
      let unsent (z : Nat × WingEntry) : Bool := z.1 == wingOf 64 && z.2.part == 0 && z.2.ctx == 0 && z.2.gran == 7 && !z.2.fwd
      let r : FaultRecord := { part := 0, rseq := 1, ctx := 0, gran := 7, kind := 0, level := 2, acc := 1, waiters := 1, fcol := 0, tick := 0 }
      let c : State := { a with dev := { a.dev with faults := [r] } }
      let h : State := { c with dev := c.dev.modCurWarp (fun w => { w with wait := .translation [7] false 0, active := false }) }
      let x : Deferred := { pc := 0, cause := 4, lane := 0, kind := 0 }
      let d : State := { s with dev := { ((s.dev.modCurWarp (fun w => { w with deferred := [x] })).modCol 0 (fun k => { k with readied := [0] })) with now := 2 } }
      let walk (s : State) (o : Nat) : Bool := match (s.translate 0 0 o false false).1 with
        | .ok _ => true
        | .error _ => false
      let word (n : Nat) : List Byte := bytesOf 8 (0b1011 + n * 64 + placedPage / 65536 * 65536)
      let mig (n : Nat) : State := { s with vault := Memory.write s.vault (vkey 0 placedTable) (word n) }
      let busy : State := { mig 1 with dev := s.dev.modCol 0 (fun k => { k with ops := [s.dev.newOp .load 0 2 [laneWant 0 0 0 4 0]] }) }
      let leaf (n : Nat) : Option Nat := ((mig n).leafOf 0 0 0).map (fun e => e.mig.toNat)
      decide (s.dev.inPart 0 0 = true ∧ (s.dev.col 0).warps.has 0 = true ∧ pcInRange (s.dev.warp 0 0).pc = true ∧ (s.dev.col 0).halted = false ∧
        (s.dev.warp 0 0).park = .none ∧ (s.dev.warp 0 0).stopped = false ∧ ((a.dev.col 0).filter.take 16).find? (fun f => f.ctx == 0 && f.gran == 7 && !f.sent) =
        some f ∧ a.dev.wings = [] ∧ (b.dev.wings.any (at_ 0)) = true ∧ (many.any (at_ 0)) = false ∧ 64 ≤ (many.filter (fun z => z.1 == 0)).length ∧
        b.dev.wings.find? (fun z => z.1 == wingOf (b.dev.part 0).first && z.2.part == 0 && z.2.ctx == 0 && z.2.gran == 7 && z.2.rseq.isNone &&
          decide (z.2.arrived + 64 ≤ b.dev.now)) = some (0, w) ∧
        (s.dev.ctx 0).part = 0 ∧ ((s.dev.col 64).filter.take 16).find? (fun f => f.ctx == 0 && f.gran == 7 && !f.sent) = none ∧
        wingOf 64 ≠ wingOf (s.dev.part 0).first ∧ [(1, w)].find? unsent = some (1, w) ∧ [(1, w), (0, w)].find? unsent = some (1, w) ∧
        [(1, w)].any (at_ 0) = false ∧ [(1, w), (0, w)].any (at_ 0) = true ∧
        b.dev.parts.has 0 = true ∧ c.dev.faults.find? (fun z => z.part == 0 && z.rseq == 1) = some r ∧ c.dev.away 0 0 = false ∧
        0 ∈ c.dev.ctxCols 0 ∧ (c.dev.col 0).filterOf 0 7 = some f ∧ (c.dev.held_ 0 0 7 ++ f.rerun).eraseDups = [] ∧
        (h.dev.held_ 0 0 7 ++ f.rerun).eraseDups ≠ [] ∧ { r with kind := 5 }.kind = 5 ∧ c.dev.resolutions = [] ∧ (c.dev.col 0).queueRoom 0 7 = true ∧ r.kind ≠ 5 ∧
        (c.dev.col 0).logOf 0 7 = [] ∧ (h.dev.col 0).heldWarps 0 7 ≠ [] ∧ h.dev.ctxs.has 0 = true ∧ (d.dev.warp 0 0).deferred = [x] ∧
        (d.dev.warp 0 0).active = true ∧ d.dev.waitOver 0 0 = true ∧ 0 ∈ (d.dev.col 0).readied ∧ (d.dev.warp 0 0).atRelease = false ∧
        s.dev.ctxIn 0 0 = true ∧ leaf 0 = some 0 ∧ leaf 1 = some 1 ∧ leaf 2 = some 2 ∧ 32 % 32 = 0 ∧ 32 + 32 ≤ 24576 ∧ 1 % 32 ≠ 0 ∧
        s.olderXlates 0 0 0 = [] ∧
        busy.dev.pageBusy 0 0 0 32 (placedPage / 65536) = true ∧ (mig 1).dev.pageBusy 0 0 0 32 (placedPage / 65536) = false) &&
      walk s 0 && !walk s (2 ^ 30) && (match (d.fetchLine 0 0 0).1 with
        | .ok g => !g.sys
        | .error _ => false) && (match (({ s with vault := [] } : State).fetchLine 0 0 0).1 with
        | .ok _ => false
        | .error _ => true)) = true := by decide +kernel

theorem witness_HaltsAndHolds :
    (let q : Preempting := { ctx := 0, slot := 0, seq := none, htick := none, written := [] }
      let s (q : Option Preempting) (want : Bool) : State := { stm with dev := { stm.dev with
        parts := stm.dev.parts.set 0 { stm.dev.part 0 with preempt := q, holdWanted := want } } }
      let wait : State := s (some { q with htick := some 0 }) false
      decide ((s (some q) false).dev.parts.has 0 = true ∧ ((s (some q) false).dev.part 0).preempt = some q ∧ ((s (some q) false).dev.part 0).held = false ∧
        q.htick = none ∧ (wait.dev.part 0).preempt = some { q with htick := some 0 } ∧ 0 ∈ (wait.dev.part 0).columns ∧ 0 ∉ q.written ∧
        wait.dev.settled 0 (fun z => z == q.ctx) true = true ∧ (∀ z ∈ (wait.dev.part 0).columns, z = 0 ∨ z ∈ q.written) ∧
        ((s none false).dev.part 0).holdWanted = false ∧ ((s none true).dev.part 0).holdWanted = true ∧
        (s none true).dev.settled 0 (fun _ => true) false = true ∧ stm.dev.power ≠ .p3 ∧ ((s none true).dev.part 0).halting = false)) = true := by
  decide +kernel

theorem witness_RehearsalAndRetirement :
    (let s : State := { st with dev := st.dev.modCol 1 (fun k => { k with rehearseQ := some 3 }) }
      let t : State := { st with dev := st.dev.modCol 1 (fun k => { k with rehearsing := true }) }
      let n : State := { st with dev := { st.dev.modCol 0 (fun k => { k with retiring := true }) with absent := [], spares := Vector.replicate 4 1 } }
      let h : State := { n with dev := { n.dev with parts := n.dev.parts.set 0 { n.dev.part 0 with held := true } } }
      let u : State := { n with dev := { n.dev with understudies := [physKey (dieOf 0) 256] } }
      let z : State := { n with dev := { n.dev with spares := Vector.replicate 4 0 } }
      let k := st.dev.col 0
      let e (x : HwError) : State := { st with dev := { st.dev with agenda := [.error x] } }
      decide ((e (.pool 0 (k.poolReg / 4))).dev.agenda = [.error (.pool 0 (k.poolReg / 4))] ∧ (e (.bsram 0 0)).dev.agenda = [.error (.bsram 0 0)] ∧
        (e (.control 0 0 5 0 0)).dev.agenda = [.error (.control 0 0 5 0 0)] ∧ (st.dev.col 0).retiring = false ∧ (n.dev.col 0).retiring = true ∧ (z.dev.col 0).retiring = true ∧ (u.dev.col 0).retiring = true ∧
        k.poolReg ≤ 4 * (k.poolReg / 4) ∧ 4 * (k.poolReg / 4) < k.poolAcc ∧ (st.dev.ctx 0).state = .resident ∧ st.dev.ctxs.has 0 = true ∧
        st.dev.inPart 0 0 = true ∧
        (s.dev.col 1).rehearseQ = some 3 ∧ (s.dev.col 1).rehearsing = false ∧ (s.dev.col 1).warps = [] ∧ (t.dev.col 1).rehearsing = true ∧
        0 ∉ z.dev.absent ∧ z.dev.spares.toList.getD (dieOf 0) 0 = 0 ∧ 0 ∉ n.dev.absent ∧ n.dev.spares.toList.getD (dieOf 0) 0 ≠ 0 ∧
        physKey (dieOf 0) 256 ∈ u.dev.understudies ∧ u.dev.absent = n.dev.absent ∧ u.dev.spares = n.dev.spares ∧ u.dev.parts = n.dev.parts ∧
        (∃ p ∈ n.dev.holders 0, (n.dev.part p).held = false) ∧
        (∀ p ∈ h.dev.holders 0, (h.dev.part p).held = true))) = true := by decide +kernel

theorem witness_BringUpAndPower :
    (let s := up stm
      let hot : State := { s with dev := { s.dev with power := .p3 } }
      let idle : State := { s with dev := { (s.dev.modCol 1 (fun k => { k with warps := [] })) with now := 1050000 } }
      let dbg : State := { s with dev := { (s.dev.modCurWarp (fun w => { w with stopped := true })) with debugger := true } }
      let r := State.reset.dev
      decide (r.boot.toList.getD 0 5 = 0 ∧ r.bootFail = [] ∧ (setDie r.boot 0 1).toList.getD 0 5 = 1 ∧ (setDie r.boot 0 2).toList.getD 0 5 = 2 ∧
        (setDie r.boot 0 4).toList.getD 0 5 = 4 ∧ hotJunction (Vector.replicate 4 0) 95 = false ∧ hotJunction (Vector.replicate 4 0) 105 = false ∧
        hotJunction ((Vector.replicate 4 0).set 3 115) 115 = true) && decide (s.dev.ready.contains (.smgr 0) = true ∧ s.dev.power ≠ .p3 ∧ hot.dev.power = .p3 ∧
        (idle.dev.col 1).idle = true ∧ max (idle.dev.col 1).busyEnd ((idle.dev.col 1).lastIssue.getD 0) + 1050000 ≤ idle.dev.now ∧ (s.dev.col 0).idle = false ∧
        dbg.dev.debugger = true ∧ (dbg.dev.warp 0 0).stopped = true)) = true := by decide +kernel

/-- The bytes of an empty flit of a direction with its CRC. -/
def wire (n : BitVec 16) : List Byte :=
  let f : Flit := { fseq := n, ack := 0, typ := 1, cred := 0, pay := [], crc := 0 }
  flitWire { f with crc := crc64 (flitBytes f) }

/-- The check value that R386 gives for the CRC. -/
theorem test_crc : crc64 [0x31, 0x32, 0x33, 0x34, 0x35, 0x36, 0x37, 0x38, 0x39] = 0x62EC59E3F1A4F00A := by decide +kernel

/-- The first bytes of FIPS 202's SHAKE256 of the empty message. -/
theorem test_shake256 : shake256 [] 8 = [0x46, 0xB9, 0xDD, 0x2B, 0x0B, 0xA8, 0x8D, 0x13] := by decide +kernel

set_option maxRecDepth 20000 in
theorem witness_PortsHostAndTwimor :
    (let s := up stm
      let p := s.dev.port 0
      let lost : Port := { p with failing := some 0 }
      decide (s.dev.ready.contains (.port 1) = false ∧ s.dev.ready.contains (.port 0) = true ∧ wireOk (wire 0) = true ∧ wireOk [] = false ∧
        (flitOfWire (wire 0)).fseq = p.rxSeq + 1 ∧ (flitOfWire (wire 0)).typ = 1 ∧ (flitOfWire (wire 5)).fseq ≠ p.rxSeq + 1 ∧
        p.buffer.length < 512 ∧ p.queue = [] ∧ lost.lost 1050000 = true ∧ p.lost 0 = false ∧ s.dev.twimorDie = some 0 ∧ 0 ∉ s.dev.absent ∧
        (s.dev.col 0).hand.banks.olds = [] ∧ 0 + 1 ≤ vaultUsable ∧ vaultUsable < vaultUsable + 1 ∧ 0 + 8 ≤ 0x61000 ∧ s.dev.twimorOn = true ∧
        State.reset.dev.twimorOn = false)) = true := by decide +kernel

/-- A fault record, laid out by hand from R428. -/
def fault0 : FaultRecord :=
  { part := 5, rseq := 7, ctx := 0x1234, gran := 0xABCDEF, kind := 1, level := 2, acc := 2, waiters := 3, fcol := 0x155, tick := 9 }

theorem test_fault_record : fault0.bytes = [3, 0, 0, 0x18, 2, 5, 0x34, 0x12, 0, 0, 0xEF, 0xCD, 0xAB, 0, 0x40, 0x55, 7, 0, 0, 0, 0, 0, 0, 0,
    9, 0, 0, 0, 0, 0, 0, 0] := by
  decide +kernel

theorem witness_PortsHostAndTwimor_asked :
    (let s := up stm
      let z : BankCounter := { csec := 1, rrow := 2, scrub := 3, rows := [] }
      let t : State := { s with dev := { s.dev with banks := [(5, z)], debugger := true, agenda := [.ask (.laneCounters 0 0 7)] } }
      decide (t.dev.banks.get? ((0 * 256 + 0) * 32 + 5) = some z ∧ t.dev.twimorOn = true ∧ t.dev.debugger = true ∧
        t.dev.ready.contains (.smgr (dieOf 0)) = true ∧ t.dev.agenda = .ask (.laneCounters 0 0 7) :: [])) = true := by decide +kernel

theorem witness_StepRunsDecodedInstruction :
    (let s := State.reset.withFetchWord 96 0x10400004820000000000C000
      let d := s.dev.fresh 0
      let o := ({ s with dev := d } : State).openTurn 0
      let s2 : State := { o with dev := o.dev.modCol 0 Column.clearYld }
      let s3 := s2.issuing 0 0
      let h := State.reset.withFetchWord 64 0xA404280000000000
      decide (s.dev.agenda = [.issue 0] ∧ d.opens 0 = true ∧ o.dev.ranked 0 = [0] ∧ s3.dev.curWarp.deferred = [] ∧ h.dev.agenda = [.hand 0] ∧
          (h.dev.col 0).hand.running.isSome = true ∧ (h.dev.col 0).hand.wait = .none ∧ (h.dev.col 0).hand.pc < (h.dev.col 0).hand.ilen ∧
          ((h.dev.resumeHand 0).col 0).hand.banks.ready h.dev.now = true) &&
        (match (s3.fetchLine 0 0 0).1 with
          | .ok x => !x.sys && (match x.line with
            | some b => !lineBad b && !linePair b 0 && (match decode (lineInsn b 0) with
              | .ok _ => true
              | .error _ => false)
            | none => false)
          | .error _ => false) &&
        (match decodeHand ((h.dev.col 0).hand.prog.getD 0 0) with
          | .ok i => (isRowOp i).isSome && !((h.dev.resumeHand 0).col 0).hand.banks.rowWaits h.dev.now 0
          | .error _ => false)) = true := by decide +kernel

theorem witness_StepKeepsVaultCanonical : State.reset.Inv ∧ ∃ t, step State.reset = .next t := ⟨by decide +kernel, _, rfl⟩

/-! ## Decoding: one word of each column and stagehand instruction, written out field by field from R103-R119 and R364 -/

/-- What a column word decodes to. -/
def dec (w : Insn) : Option Instr := match decode w with
  | .ok i => some i
  | .error _ => none

/-- What a stagehand word decodes to. -/
def decHand (w : HandInsn) : Option Instr := match decodeHand w with
  | .ok i => some i
  | .error _ => none

theorem test_decode_control : ([
    (0x000000000000000000000000, .nop { h := { hd 0 with gp := 0 }, tgt := 0x0, rcv := 0x0, ur := 0, sub := 0 }),
    (0x010003FFFFFFFB1234560000, .bra { h := { hd 0 with gp := 3 }, tgt := 0xFFFFFFFB, rcv := 0x123456, ur := 0, sub := 0 }),
    (0x02000000000000000000C900, .brx { h := { hd 0 with gp := 0 }, tgt := 0x0, rcv := 0x0, ur := 201, sub := 0 }),
    (0x03000089ABCDEF0000000000, .call { h := { hd 0 with gp := 0 }, tgt := 0x89ABCDEF, rcv := 0x0, ur := 0, sub := 0 }),
    (0x040000000000000000000000, .ret { h := { hd 0 with gp := 0 }, tgt := 0x0, rcv := 0x0, ur := 0, sub := 0 }),
    (0x050000FFFFFFF00000000700, .loop { h := { hd 0 with gp := 0 }, tgt := 0xFFFFFFF0, rcv := 0x0, ur := 7, sub := 0 }),
    (0x060000000000000000000000, .join { h := { hd 0 with gp := 0 }, tgt := 0x0, rcv := 0x0, ur := 0, sub := 0 }),
    (0x070002000000000000000000, .exit { h := { hd 0 with gp := 2 }, tgt := 0x0, rcv := 0x0, ur := 0, sub := 0 }),
    (0x080000000000000000000000, .tail { h := { hd 0 with gp := 0 }, tgt := 0x0, rcv := 0x0, ur := 0, sub := 0 }),
    (0x090000000000050000001003, .spawn { h := { hd 0 with gp := 0 }, tgt := 0x5, rcv := 0x0, ur := 16, sub := 3 }),
    (0x0A0000000000000000000000, .yield { h := { hd 0 with gp := 0 }, tgt := 0x0, rcv := 0x0, ur := 0, sub := 0 }),
    (0x0B000000FC10830000000000, .wait { h := { hd 0 with gp := 0 }, tgt := 0xFC1083, rcv := 0x0, ur := 0, sub := 0 }),
    (0x0D000000000000000000005A, .trap { h := { hd 0 with gp := 0 }, tgt := 0x0, rcv := 0x0, ur := 0, sub := 90 }),
    (0x0E00000000000000000000FF, .svc { h := { hd 0 with gp := 0 }, tgt := 0x0, rcv := 0x0, ur := 0, sub := 255 }),
    (0x0F0000000000000000000001, .brk { h := { hd 0 with gp := 0 }, tgt := 0x0, rcv := 0x0, ur := 0, sub := 1 })] : List (Insn × Instr)).all (fun p => dec p.1 == some p.2) = true := by decide +kernel

theorem test_decode_integer : ([
    (0x104000020040008000000000, .iadd (v2 0x10 0x0)),
    (0x114000020040008000000000, .isub (v2 0x10 0x0)),
    (0x124000020040008000000000, .imul (v2 0x10 0x0)),
    (0x134000020040008000000000, .imulh (v2 0x10 0x0)),
    (0x144000020040008000C00000, .imad (v3 0x10 0x0)),
    (0x155000020040008000000000, .imin (v2 0x14 0x0)),
    (0x16400002004040000000C000, .imax (vi 0x10 0x0 0x80000001)),
    (0x174000020040000000000000, .iabs (v1 0x10 0x0)),
    (0x1A4000020040008000000680, .icmp (v2 0x10 0xD)),
    (0x1B0000020040008000000080, .sel (v2 0x0 0x1)),
    (0x1C0000020040000000000000, .mov (v1 0x0 0x0)),
    (0x1D0000020040000000000380, .movs (v1 0x0 0x7)),
    (0x1F5400020040008000C00000, .idot4 (v3 0x15 0x0)),
    (0x1E0000020000800165018000, .plop (vp 0 0x2CA03)),
    (0x204400020040008000000000, .and (v2 0x11 0x0)),
    (0x214400020040008000000000, .or (v2 0x11 0x0)),
    (0x224400020040008000000000, .xor (v2 0x11 0x0)),
    (0x234400020040008000000000, .andn (v2 0x11 0x0)),
    (0x254400020040008000000000, .shl (v2 0x11 0x0)),
    (0x264400020040008000000000, .shr (v2 0x11 0x0)),
    (0x274400020040008000000000, .sar (v2 0x11 0x0)),
    (0x284400020040008000000000, .rot (v2 0x11 0x0)),
    (0x294400020040000000000000, .popc (v1 0x11 0x0)),
    (0x2A4400020040000000000000, .clz (v1 0x11 0x0)),
    (0x2B4400020040000000000000, .brev (v1 0x11 0x0)),
    (0x2C4000020040008000000000, .bfx (v2 0x10 0x0)),
    (0x2D0000020040008000C00000, .bfi (v3 0x0 0x0)),
    (0x2E0000020040008000C00000, .bswz (v3 0x0 0x0)),
    (0x2F0000020040008000C07400, .tern (v3 0x0 0xE8)),
    (0x304400020040008000000500, .lea (v2 0x11 0xA)),
    (0x314400020040000001FFC000, .cadr (vi 0x11 0x0 0x3FF)),
    (0x324400020040000000000080, .cget (v1 0x11 0x1)),
    (0x334400020000000000000580, .tidx (v0 0x11 0xB))] : List (Insn × Instr)).all (fun p => dec p.1 == some p.2) = true := by decide +kernel

theorem test_decode_float : ([
    (0x400400020040008000000000, .fadd (v2 0x1 0x0)),
    (0x410400020040008000000000, .fsub (v2 0x1 0x0)),
    (0x420400020040008000000000, .fmul (v2 0x1 0x0)),
    (0x430400020040008000C00000, .ffma (v3 0x1 0x0)),
    (0x440400020040008000000080, .fmin (v2 0x1 0x1)),
    (0x450800020040008000000000, .fmax (v2 0x2 0x0)),
    (0x470400020040008000000780, .fcmp (v2 0x1 0xF)),
    (0x480400020040000000000000, .fclass (v1 0x1 0x0)),
    (0x490800020040008000C00000, .fdot2 (v3 0x2 0x0)),
    (0x4B0400020040008000000000, .fdiv (v2 0x1 0x0)),
    (0x4C0400020040000000000000, .fsqrt (v1 0x1 0x0)),
    (0x500400020040000000000000, .frcp (v1 0x1 0x0)),
    (0x510400020040000000000000, .frsq (v1 0x1 0x0)),
    (0x520400020040000000000000, .fex2 (v1 0x1 0x0)),
    (0x530400020040000000000000, .flg2 (v1 0x1 0x0)),
    (0x540400020040000000000000, .fsin (v1 0x1 0x0)),
    (0x550400020040000000000000, .fcos (v1 0x1 0x0)),
    (0x560400020040000000000000, .ftanh (v1 0x1 0x0)),
    (0x600980020040000080000000, .cvt { v1 2 0 with h := { hd 2 with s := true, rm := 2 }, bc := 0x10000 }),
    (0x611000020040008000000280, .cvtb (v2 0x4 0x5)),
    (0x625000020040008000000300, .qnt (v2 0x14 0x6)),
    (0x630400020040008000000F00, .dqnt (v2 0x1 0x1E)),
    (0x645000020040008000000080, .pack (v2 0x14 0x1)),
    (0x655000020040000000000080, .unpk (v1 0x14 0x1)),
    (0x661000020040000000000000, .retag (v1 0x4 0x0))] : List (Insn × Instr)).all (fun p => dec p.1 == some p.2) = true := by decide +kernel

theorem test_decode_lanes : ([
    (0x70000000000000000001C000, .setpart { vi 0 0 3 with d := 0, a := zr }),
    (0x710000020040008000C00100, .lget (v3 0x0 0x2)),
    (0x7200000200400000000FC800, .lput (vi 0x0 0x10 0x1F)),
    (0x730000000040008000019100, .bfly { v2 0 0x22 with d := 0, bc := 0x01000003 }),
    (0x740000020000800000000300, .poll (vp 6 0)),
    (0x750000020040000000000980, .match_ (v1 0x0 0x13)),
    (0x764000020040000000000100, .redc (v1 0x10 0x2)),
    (0x774000020040000000000C00, .scan (v1 0x10 0x18)),
    (0x780000020000000000000080, .elect (v0 0x0 0x1)),
    (0x800000020040000000000080, .ixset (v1 0x0 0x1)),
    (0x81000002000000000055C080, .ixld { vi 0 1 0xAB with a := zr }),
    (0x824400020007800000000100, .ixmov { v0 0x11 2 with a := { zr with k := 15 } }),
    (0x830000020000008000000080, .ixadv { v0 0 1 with bc := 0x01000000 })] : List (Insn × Instr)).all (fun p => dec p.1 == some p.2) = true := by decide +kernel

theorem test_decode_memory : ([
    (0x90440002020000007FF84800, .ld { h := hd 0x11, dat := 4, adr := rg 8, obj := 0, off := 0xFFF0, size := 4, cpol := 2, ord := 0, obs := 0x0 }),
    (0x9104000202000100800020C1, .ldu { h := hd 0x1, dat := 4, adr := rg 8, obj := 513, off := 0x0, size := 2, cpol := 0, ord := 1, obs := 0x41 }),
    (0x920800020200000380003000, .ldt { h := hd 0x2, dat := 4, adr := rg 8, obj := 7, off := 0x0, size := 3, cpol := 0, ord := 0, obs := 0x0 }),
    (0x934400020200000000003D00, .st { h := hd 0x11, dat := 4, adr := rg 8, obj := 0, off := 0x0, size := 3, cpol := 3, ord := 2, obs := 0x0 }),
    (0x94440002020000003FFFA000, .stu { h := hd 0x11, dat := 4, adr := rg 8, obj := 0, off := 0x7FFF, size := 2, cpol := 0, ord := 0, obs := 0x0 }),
    (0x954400020200000000024000, .lds { h := hd 0x11, dat := 4, adr := rg 8, obj := 0, off := 0x4, size := 4, cpol := 0, ord := 0, obs := 0x0 }),
    (0x964000020200000000018000, .sts { h := hd 0x10, dat := 4, adr := rg 8, obj := 0, off := 0x3, size := 0, cpol := 0, ord := 0, obs := 0x0 }),
    (0x970000000200000000400400, .pref { h := hd 0x0, dat := 0, adr := rg 8, obj := 0, off := 0x80, size := 0, cpol := 1, ord := 0, obs := 0x0 }),
    (0x980000000200000000200000, .cctlClean { h := hd 0x0, dat := 0, adr := rg 8, obj := 0, off := 0x40, size := 0, cpol := 0, ord := 0, obs := 0x0 }),
    (0x980000008200000000200000, .cctlFlush { h := hd 0x0, dat := 1, adr := rg 8, obj := 0, off := 0x40, size := 0, cpol := 0, ord := 0, obs := 0x0 }),
    (0x980000010200000000200000, .cctlPin { h := hd 0x0, dat := 2, adr := rg 8, obj := 0, off := 0x40, size := 0, cpol := 0, ord := 0, obs := 0x0 }),
    (0x980000018200000000200000, .cctlUnpin { h := hd 0x0, dat := 3, adr := rg 8, obj := 0, off := 0x40, size := 0, cpol := 0, ord := 0, obs := 0x0 }),
    (0x980000020200000000200000, .cctlDrop { h := hd 0x0, dat := 4, adr := rg 8, obj := 0, off := 0x40, size := 0, cpol := 0, ord := 0, obs := 0x0 }),
    (0x980000028000000000000000, .cctlDropall { h := hd 0x0, dat := 5, adr := zr, obj := 0, off := 0x0, size := 0, cpol := 0, ord := 0, obs := 0x0 }),
    (0xA04400020200000000061D85, .atom { h := hd 0x11, dat := 4, adr := rg 8, obj := 0, off := 0xC, size := 1, cpol := 3, ord := 3, obs := 0x5 }),
    (0xA10400020200000000060100, .ared { h := hd 0x1, dat := 4, adr := rg 8, obj := 0, off := 0xC, size := 0, cpol := 0, ord := 2, obs := 0x0 }),
    (0xA24000020200000000061A7F, .atsc { h := hd 0x10, dat := 4, adr := rg 8, obj := 0, off := 0xC, size := 1, cpol := 2, ord := 4, obs := 0x7F }),
    (0xA74400020200000000062000, .nmatom { h := hd 0x11, dat := 4, adr := rg 8, obj := 0, off := 0xC, size := 2, cpol := 0, ord := 0, obs := 0x0 }),
    (0xA30000000000000000000195, .fence { h := hd 0x0, dat := 0, adr := zr, obj := 0, off := 0x0, size := 0, cpol := 0, ord := 3, obs := 0x15 }),
    (0xA80000000000000000000003, .nmfence { h := hd 0x0, dat := 0, adr := zr, obj := 0, off := 0x0, size := 0, cpol := 0, ord := 0, obs := 0x3 })] : List (Insn × Instr)).all (fun p => dec p.1 == some p.2) = true := by decide +kernel

theorem test_decode_exchange : ([
    (0xA4000000018000057F00A000, .bar { h := hd 0x0, d := 0, a := rg 6, dom := 0, pk := 0, pp := 21, num := 63, lsp := 0, sub := 5 }),
    (0xA500000000004800CF004000, .bard { h := hd 0x0, d := 0, a := zr, dom := 9, pk := 0, pp := 3, num := 15, lsp := 0, sub := 2 }),
    (0xA60000000000000000000000, .ofence { h := hd 0x0, d := 0, a := zr, dom := 0, pk := 0, pp := 0, num := 0, lsp := 0, sub := 0 }),
    (0xB000000100C03202C0A00000, .xch { h := hd 0x0, d := 2, a := rg 3, dom := 6, pk := 2, pp := 11, num := 0, lsp := 5, sub := 0 }),
    (0xB144000101004BFFC0008000, .xget { h := hd 0x11, d := 2, a := rg 4, dom := 9, pk := 3, pp := 1023, num := 0, lsp := 0, sub := 4 }),
    (0xB244000101002900C0004000, .xput { h := hd 0x11, d := 2, a := rg 4, dom := 5, pk := 1, pp := 3, num := 0, lsp := 0, sub := 2 }),
    (0xB3000006020000104F03E000, .msg { h := hd 0x0, d := 12, a := rg 8, dom := 0, pk := 0, pp := 65, num := 15, lsp := 0, sub := 31 }),
    (0xB4000002024000FA03006000, .rwait { h := hd 0x0, d := 4, a := rg 9, dom := 0, pk := 0, pp := 1000, num := 3, lsp := 0, sub := 3 }),
    (0xB50000000240000007000000, .radv { h := hd 0x0, d := 0, a := rg 9, dom := 0, pk := 0, pp := 0, num := 7, lsp := 0, sub := 0 }),
    (0xB60000000240000302000000, .rbind { h := hd 0x0, d := 0, a := rg 9, dom := 0, pk := 0, pp := 12, num := 2, lsp := 0, sub := 0 }),
    (0xB7000002020000007FFE5080, .watch { h := hd 0x0, dat := 4, adr := rg 8, obj := 0, off := 0xFFFC, size := 5, cpol := 0, ord := 1, obs := 0x0 })] : List (Insn × Instr)).all (fun p => dec p.1 == some p.2) = true := by decide +kernel

theorem test_decode_matrix : ([
    (0xC0000000182E460000010800, .mldb { h := hd 0x0, td := 0, areg := 3, breg := 5, k8 := 200, mode := 3, abm := 0, bbm := 0, af := 0, bf := 8, sum := false, q := true, rows := 0 }),
    (0xC10400F850585E001A22D870, .mma { h := hd 0x1, td := 31, areg := 10, breg := 11, k8 := 11, mode := 3, abm := 0, bbm := 13, af := 4, bf := 22, sum := true, q := true, rows := 14 }),
    (0xC2400028505FFA0000BAC800, .mmab { h := hd 0x10, td := 5, areg := 10, breg := 11, k8 := 255, mode := 1, abm := 0, bbm := 0, af := 23, bf := 22, sum := false, q := true, rows := 0 }),
    (0xC30400305059FC2830187038, .mmas { h := hd 0x1, td := 6, areg := 10, breg := 11, k8 := 63, mode := 2, abm := 20, bbm := 24, af := 3, bf := 3, sum := true, q := false, rows := 7 }),
    (0xC40000180000F80000000800, .mclr { h := hd 0x0, td := 3, areg := 0, breg := 0, k8 := 31, mode := 0, abm := 0, bbm := 0, af := 0, bf := 0, sum := false, q := true, rows := 0 }),
    (0xC70000F04800000000000040, .mlda { h := hd 0x0, td := 30, areg := 9, breg := 0, k8 := 0, mode := 0, abm := 0, bbm := 0, af := 0, bf := 0, sum := false, q := false, rows := 8 }),
    (0xC504000983E0A0C0D1100000, .mdrain { h := hd 0x1, tf := 1, tl := 6, dst := 15, selp := 4, par := 20, sup := 24, stw := 26, of := 8, dk := true }),
    (0xC6040001D918400048400000, .pjadj { h := hd 0x1, tf := 0, tl := 7, dst := 100, selp := 3, par := 8, sup := 0, stw := 9, of := 2, dk := false })] : List (Insn × Instr)).all (fun p => dec p.1 == some p.2) = true := by decide +kernel

theorem test_decode_engines : ([
    (0xD00000000040000000000000, .cpy { v1 0 0 with d := 0 }),
    (0xD10000020040000000000080, .glaunch (v1 0x0 0x1)),
    (0xD20000000040008000C00000, .gpatch { v3 0 0 with d := 0 }),
    (0xD30000000040008000000080, .cue { v2 0 1 with d := 0 }),
    (0xD40000000040000000000000, .nmrun { v1 0 0 with d := 0 }),
    (0xE00000110640000000000000, .sread { h := hd 0, sr := 0x110, d := 200, a := zr, sub := 0 }),
    (0xE10000004000840000000000, .swrite { h := hd 0, sr := 0x4, d := 0, a := rg 33, sub := 0 }),
    (0xE10000008000840000000000, .swriteRng { h := hd 0, sr := 0x8, d := 0, a := rg 33, sub := 0 }),
    (0xE10000005000840000000000, .swriteLease { h := hd 0, sr := 0x5, d := 0, a := rg 33, sub := 0 }),
    (0xE20000000001900000000000, .eret { h := hd 0, sr := 0x0, d := 0, a := rg 100, sub := 0 }),
    (0xE30000000000000008000000, .tlbi { h := hd 0, sr := 0x0, d := 0, a := zr, sub := 1 }),
    (0xE40000000000080000000000, .ctxswReset { h := hd 0, sr := 0x0, d := 0, a := rg 2, sub := 0 }),
    (0xE40000000038080008000000, .ctxswSave { h := hd 0, sr := 0x0, d := 7, a := rg 2, sub := 1 }),
    (0xE50000000000080000000000, .testReq { h := hd 0, sr := 0x0, d := 0, a := rg 2, sub := 0 }),
    (0xE50000000040080008000000, .testRes { h := hd 0, sr := 0x0, d := 8, a := rg 2, sub := 1 }),
    (0xE50000000000080030000000, .testInj { h := hd 0, sr := 0x0, d := 0, a := rg 2, sub := 6 })] : List (Insn × Instr)).all (fun p => dec p.1 == some p.2) = true := by decide +kernel

theorem test_decode_stagehand : ([
    (0x07FEE800FFFFFFFF, .hadd { d := 31, s := 30, t := 29, x := 0, imm := 0xFFFFFFFF }),
    (0x0822180000000000, .hsub { d := 1, s := 2, t := 3, x := 0, imm := 0x0 }),
    (0x0C22180000000000, .hmul { d := 1, s := 2, t := 3, x := 0, imm := 0x0 }),
    (0x10221A0000000000, .hlogic { d := 1, s := 2, t := 3, x := 2, imm := 0x0 }),
    (0x1422190000000007, .hshift { d := 1, s := 2, t := 3, x := 1, imm := 0x7 }),
    (0x19200100DEADBEEF, .hli { d := 9, s := 0, t := 0, x := 1, imm := 0xDEADBEEF }),
    (0x1CA0000000000000, .hclk { d := 5, s := 0, t := 0, x := 0, imm := 0x0 }),
    (0x20011500FFFFFFF0, .hbr { d := 0, s := 1, t := 2, x := 5, imm := 0xFFFFFFF0 }),
    (0x24800000FFFFFFFD, .hloop { d := 4, s := 0, t := 0, x := 0, imm := 0xFFFFFFFD }),
    (0x4124020000000010, .vld { d := 9, s := 4, t := 0, x := 2, imm := 0x10 }),
    (0x45E4000000000040, .vst { d := 15, s := 4, t := 0, x := 0, imm := 0x40 }),
    (0x60227F0000000000, .qadd { d := 1, s := 2, t := 15, x := 7, imm := 0x0 }),
    (0x64227F0000000000, .qsub { d := 1, s := 2, t := 15, x := 7, imm := 0x0 }),
    (0x68227F0000000000, .qmul { d := 1, s := 2, t := 15, x := 7, imm := 0x0 }),
    (0x6C227F0000000000, .qfma { d := 1, s := 2, t := 15, x := 7, imm := 0x0 }),
    (0x7022FC0000000000, .qmuls { d := 1, s := 2, t := 31, x := 4, imm := 0x0 }),
    (0x7422190000000000, .qminmax { d := 1, s := 2, t := 3, x := 1, imm := 0x0 }),
    (0x782F000000000000, .qrsq { d := 1, s := 15, t := 0, x := 0, imm := 0x0 }),
    (0x7C3F000000000000, .qbc { d := 1, s := 31, t := 0, x := 0, imm := 0x0 }),
    (0x83EF000000000000, .qsum { d := 31, s := 15, t := 0, x := 0, imm := 0x0 }),
    (0x862301000000000F, .qinsQext { d := 17, s := 3, t := 0, x := 1, imm := 0xF }),
    (0xA004000000000400, .ropen { d := 0, s := 4, t := 0, x := 0, imm := 0x400 }),
    (0xA404280000000000, .racc { d := 0, s := 4, t := 5, x := 0, imm := 0x0 }),
    (0xA804010000000008, .rwr { d := 0, s := 4, t := 0, x := 1, imm := 0x8 }),
    (0xAC04000000000000, .rclr { d := 0, s := 4, t := 0, x := 0, imm := 0x0 }),
    (0xC0042B0000000000, .claim { d := 0, s := 4, t := 5, x := 3, imm := 0x0 }),
    (0xC400020000000000, .unclm { d := 0, s := 0, t := 0, x := 2, imm := 0x0 }),
    (0xE006000000000000, .signal { d := 0, s := 6, t := 0, x := 0, imm := 0x0 }),
    (0xE4E8480000000003, .cuew { d := 7, s := 8, t := 9, x := 0, imm := 0x3 }),
    (0xF000000000000000, .aqsvc { d := 0, s := 0, t := 0, x := 0, imm := 0x0 }),
    (0xFC00000000000000, .end_ { d := 0, s := 0, t := 0, x := 0, imm := 0x0 })] : List (HandInsn × Instr)).all (fun p => decHand p.1 == some p.2) = true := by decide +kernel

/-! The words that the spec itself gives, with indirect operands and hints among them (R103-R125). -/

theorem test_decode_spec_words : ([
    (0x900400860100000000402000, .ld { h := hd 1, dat := 0x10C, adr := rg 4, obj := 0, off := 0x80, size := 2, cpol := 0, ord := 0, obs := 0 }),
    (0x900400020180000880042000, .ld { h := hd 1, dat := 4, adr := rg 6, obj := 0x11, off := 8, size := 2, cpol := 0, ord := 0, obs := 0 }),
    (0xA40000000000000003000000, .bar { xf with d := 0, num := 3 }),
    (0xA500000000003000C2000000, .bard { xf with d := 0, dom := 6, pp := 3, num := 2 }),
    (0xB000000100A1290080200000, .xch { xf with d := 2, a := { rg 2 with pat := 2, k := 2 }, dom := 5, pk := 1, pp := 2, lsp := 1 }),
    (0xA70400190E00000000000000, .nmatom { mf 1 0 with dat := 50, adr := rg 56 })] : List (Insn × Instr)).all
      (fun p => dec p.1 == some p.2) = true := by decide +kernel

/-- A word that fails each check, by the step of R124 that names it: unassigned opcode, unassigned SUB, reserved bits, combination. -/
def err (w : Insn) : Option DecodeErr := match decode w with
  | .ok _ => none
  | .error e => some e

theorem test_decode_refuses :
    err 0x0C0000000000000000000000 = some .opcode ∧ err 0x104000000000000000000080 = some .sub ∧
    err 0x104010000000000000000000 = some .reserved ∧ err 0x100000000000000000000000 = some .combination ∧
    decHand 0xC800000000000000 = none ∧ decHand 0x0400000100000000 = none := by decide +kernel

/-! ## Ill-formed terms: one that each check refuses -/

theorem test_ill_formed_sub : (Instr.iadd (v2 Fmt.i32 1)).wf = false := by decide +kernel
theorem test_ill_formed_reserved : (Instr.iadd (v3 Fmt.i32 0)).wf = false := by decide +kernel
theorem test_ill_formed_combination : (Instr.iadd (v2 Fmt.f32 0)).wf = false := by decide +kernel
theorem test_ill_formed_hand : (Instr.hclk (hf 1 0)).wf = false := by decide +kernel

/-! ## Encoding: the encoder gives the spec's own words -/

theorem test_encode_iadd : encode (.iadd { v1 0x10 0x80 with d := 9, a := rg 8, bc := 1 }) = some 0x10400004820000000000C000 := by decide +kernel
theorem test_encode_racc : encodeHand (.racc { d := 0, s := 4, t := 5, x := 0, imm := 0 }) = some 0xA404280000000000 := by decide +kernel

/-! ## The package's two entry points for the host -/

theorem test_table_word : decodeTableWord 96 0x10400004820000000000C000 = dec 0x10400004820000000000C000 ∧
    decodeTableWord 64 0xA404280000000000 = decHand 0xA404280000000000 := by decide +kernel

end Sys2Proof.Tests
end

section
/-! Proofs about the encoding: what a word that decodes is (R103, R124, R125), and the statement about NOP (R126). -/

namespace Sys2Proof

/-! ## The candidate of a word carries its major opcode (R125) -/

theorem cctlOf_major (f : MFields) : (cctlOf f).major = some 0x98 := by
  unfold cctlOf
  repeat' split
  all_goals rfl

theorem swriteOf_major (f : SFields) : (swriteOf f).major = some 0xE1 := by
  unfold swriteOf
  repeat' split
  all_goals rfl

theorem ctxsw_major (f : SFields) : (if f.sub = 0 then Instr.ctxswReset f else .ctxswSave f).major = some 0xE4 := by
  split
  all_goals rfl

theorem testOf_major (f : SFields) : (testOf f).major = some 0xE5 := by
  unfold testOf
  repeat' split
  all_goals rfl

/-- One arm of the opcode map: the arm's number is the major opcode of the instruction it answers. -/
theorem major_of_arm {i j : Instr} {op : BitVec 8} {n : Nat} (h : some j = some i) (hop : op.toNat = n)
    (hj : j.major = some (BitVec.ofNat 8 n)) : i.major = some op := by
  obtain rfl := Option.some.inj h
  rw [hj, ← hop, BitVec.ofNat_toNat, BitVec.setWidth_eq]

/-- The candidate of a word has the word's major opcode. The arms that choose by further bits stand first. -/
theorem candidate_major {w : Insn} {i : Instr} (h : candidate w = some i) : i.major = some (w.extractLsb' 88 8) := by
  unfold candidate at h
  split at h
  case h_95 hop => exact major_of_arm h hop (cctlOf_major _)
  case h_127 hop => exact major_of_arm h hop (swriteOf_major _)
  case h_130 hop => exact major_of_arm h hop (ctxsw_major _)
  case h_131 hop => exact major_of_arm h hop (testOf_major _)
  case h_132 => cases h
  all_goals exact major_of_arm h ‹_› rfl

/-! ## What decoding accepts (R124) -/

/-- A chain of checks reports nothing when its first check passes and the rest reports nothing. -/
theorem check_eq_none_iff {e : DecodeErr} {p : Prop} [Decidable p] {rest : Option DecodeErr} :
    (if p then some e else rest) = none ↔ ¬p ∧ rest = none := by
  by_cases hp : p <;> simp [hp]

/-- A word with a candidate fails none of the checks 4, 5, 6 and 8 when the candidate's bits pass each. -/
theorem staticErr_eq_none_iff {w : Insn} {i : Instr} (h : candidate w = some i) :
    staticErr w = none ↔ i.checks.sub = true ∧ rawClean w = true ∧ i.checks.rsv = true ∧ i.checks.comb = true := by
  simp [staticErr, h, check_eq_none_iff, and_assoc]

theorem candidate_of_staticErr {w : Insn} (h : staticErr w = none) : ∃ i, candidate w = some i := by
  cases hc : candidate w with
  | none => simp [staticErr, hc] at h
  | some i => exact ⟨i, rfl⟩

/-- Decoding answers the candidate of a word that passes every static check, and no other instruction. -/
theorem decode_eq_ok_iff {w : Insn} {i : Instr} :
    decode w = .ok i ↔
      candidate w = some i ∧ i.checks.sub = true ∧ rawClean w = true ∧ i.checks.rsv = true ∧ i.checks.comb = true := by
  cases hs : staticErr w with
  | some e =>
    refine ⟨fun h => by simp [decode, hs] at h, fun ⟨hc, hok⟩ => ?_⟩
    rw [(staticErr_eq_none_iff hc).mpr hok] at hs
    cases hs
  | none =>
    obtain ⟨j, hj⟩ := candidate_of_staticErr hs
    have hok := (staticErr_eq_none_iff hj).mp hs
    simp only [decode, hs, hj, Except.ok.injEq, Option.some.injEq]
    exact ⟨fun h => h ▸ ⟨rfl, hok⟩, And.left⟩

/-- The reserved bits that every format shares, TY[5] and [77:76] (R105). -/
theorem rawClean_head {w : Insn} (h : rawClean w = true) : w.getLsbD 87 = false ∧ w.extractLsb' 76 2 = 0 := by
  simp only [rawClean, Bool.and_eq_true, Bool.not_eq_true', beq_iff_eq] at h
  exact h.1

/-! ## NOP (R126) -/

/-- The fields of the one NOP: an unguarded head, and zero in every field. -/
def nopFields : CFields :=
  { h := { ty := 0, u := false, s := false, rm := 0, gn := false, gp := 0 }, tgt := 0, rcv := 0, ur := 0, sub := 0 }

theorem Head.eq_zero_of_plain {h : Head} (hp : h.plain = true) (hg : h.noGuard = true) :
    h = { ty := 0, u := false, s := false, rm := 0, gn := false, gp := 0 } := by
  obtain ⟨ty, u, s, rm, gn, gp⟩ := h
  simp_all [Head.plain, Head.noGuard]

theorem nop_fields_of_checks {f : CFields} (hr : (Instr.nop f).checks.rsv = true) (hc : (Instr.nop f).checks.comb = true) :
    f = nopFields := by
  obtain ⟨h, tgt, rcv, ur, sub⟩ := f
  simp only [Instr.checks, cChecks, Bool.false_or, Bool.and_eq_true, beq_iff_eq] at hr hc
  obtain ⟨⟨⟨rfl, rfl⟩, rfl⟩, rfl⟩ := hr
  obtain rfl := Head.eq_zero_of_plain hc.1 hc.2
  rfl

theorem cWord_nopFields : cWord 0x00 nopFields = 0 := by decide

/-- A word whose candidate is a NOP has the major 0x00 and its fields are the C body's. -/
theorem candidate_eq_nop {w : Insn} {f : CFields} (h : candidate w = some (.nop f)) :
    w.extractLsb' 88 8 = 0x00 ∧ cBody w = f := by
  have hop : w.extractLsb' 88 8 = 0x00 := (Option.some.inj (candidate_major h)).symm
  have hw : candidate w = some (.nop (cBody w)) := by simp [candidate, hop]
  exact ⟨hop, Instr.nop.inj (Option.some.inj (hw.symm.trans h))⟩

/-- A word decodes to NOP when it is the all-zero word, and then all of NOP's fields are zero. -/
theorem decode_eq_nop_iff {w : Insn} {f : CFields} : decode w = .ok (.nop f) ↔ w = 0 ∧ f = nopFields := by
  constructor
  · intro h
    obtain ⟨hcand, -, hraw, hrsv, hcomb⟩ := decode_eq_ok_iff.mp h
    obtain ⟨hop, hbody⟩ := candidate_eq_nop hcand
    obtain ⟨h87, h76⟩ := rawClean_head hraw
    have hf : f = nopFields := nop_fields_of_checks hrsv hcomb
    refine ⟨?_, hf⟩
    calc w = cWord (w.extractLsb' 88 8) (cBody w) := (cWord_cBody w h87 h76).symm
      _ = cWord 0x00 nopFields := by rw [hop, hbody, hf]
      _ = 0 := cWord_nopFields
  · rintro ⟨rfl, rfl⟩
    exact decode_eq_ok_iff.mpr (by decide)

namespace Machine

theorem exec_nop_eq_conclude (f : CFields) (s : State) : exec (.nop f) s = s.conclude (nopIssue s) := rfl

theorem State.conclude_retire (s : State) (d : Dev) :
    s.conclude (.retire d) = .next { s with dev := { d with issued := .retired } } := rfl

/-- Advancing moves the PC of the issuing warp alone, to the next instruction (R98). -/
theorem State.advance_eq (s : State) : s.dev.advance = s.dev.modCurWarp (fun w => { w with pc := s.nextPc }) := rfl

/-- NOP retires, whatever its fields and its guard, and changes nothing but the PC of its warp. -/
theorem exec_nop (f : CFields) (s : State) :
    exec (.nop f) s =
      .next { s with dev := { s.dev.modCurWarp (fun w => { w with pc := s.nextPc }) with issued := .retired } } := by
  rw [exec_nop_eq_conclude, nopIssue, State.conclude_retire, State.advance_eq]

/-- The majors that pair begin at 0x10 (R122). -/
theorem not_pairMajor_of_lt {m : Nat} (h : m < 0x10) : pairMajor m = false := by
  simp only [pairMajor, Bool.or_eq_false_iff, Bool.and_eq_false_iff, decide_eq_false_iff_not]
  omega

/-- Settles O13: the effect is `exec_nop`, and a word with NOP's major that passes the checks of R124 is the word of its zero fields. -/
theorem nopOnlyAdvances : Obligations.NopOnlyAdvances :=
  ⟨exec_nop, fun _ _ h => decode_eq_nop_iff.mp h, ⟨nopFields, decode_eq_nop_iff.mpr ⟨rfl, rfl⟩⟩,
    not_pairMajor_of_lt (by decide)⟩

end Machine
end Sys2Proof
end

section
/-! Proofs about the control instructions: the loads by which a RET refills the return stack (R160), and the statement about branches
(R156-R161). -/

namespace Sys2Proof.Machine

/-! ## RET at a depth above 16 (R160) -/

theorem exec_ret_eq_conclude (f : CFields) (s : State) : exec (.ret f) s = s.conclude (retIssue f s) := rfl

theorem State.conclude_hold (s : State) (d : Dev) :
    s.conclude (.hold d) = .next { s with dev := { d with issued := .held } } := rfl

/-- An instruction of the whole warp acts where its guard selects every lane of E, and E has lanes (R156). -/
theorem State.whole_of_selected {s : State} {h : Head} (hs : s.selected h) (go : Unit → Issue) : s.dev.whole h go = go () := by
  obtain ⟨hall, hnone⟩ := hs
  simp [Dev.whole, hall, hnone]

/-- RET pops where the stack has an entry and no entry is still being loaded. -/
theorem retIssue_eq_popRet {f : CFields} {s : State} (hs : s.selected f.h) (hn : s.dev.curWarp.retDepth ≠ 0)
    (hl : s.dev.curWarp.retLoads = []) : retIssue f s = s.popRet := by
  simp [retIssue, State.whole_of_selected hs, hn, hl]

/-- One of RET's two loads, of a word of the window, started. -/
def State.refill (s : State) (word : Nat) (high : Bool) : Dev × Bool :=
  s.startLoad (retLoad s.dev word high) .load false s.dev.cur.priv

/-- In a window of fewer than 120 bytes a lane the words from Wd - 30 and from Wd - 29 on are both counted from word 0: RET's two loads name one
word. A RET whose second load of that word does not start is held. -/
theorem State.popRet_held {s : State} (hn : 16 < s.dev.curWarp.retDepth) (hloads : s.dev.curWarp.loads ≤ 61) (hz : s.dev.pwin < 120)
    (hrepeat : (State.refill { s with dev := (s.refill (2 * (s.dev.curWarp.retDepth - 17)) false).1 }
      (2 * (s.dev.curWarp.retDepth - 17)) true).2 = false) : ∃ d, s.popRet = .hold d := by
  have h30 : s.dev.pwin / 4 - 30 = 0 := by omega
  have h29 : s.dev.pwin / 4 - 29 = 0 := by omega
  simp only [State.refill] at hrepeat
  simp only [State.popRet, h30, h29, Nat.zero_add, Nat.not_le.mpr hn, Nat.not_lt.mpr hloads, if_false, hrepeat, Bool.false_eq_true]
  split
  · exact ⟨_, rfl⟩
  · exact ⟨_, rfl⟩

/-! ## A RET whose loads name one word -/

/-- The L1 frame of the first superblock of the private windows, all of it present and stable: loads of it that hit need no translation (R437). -/
def windowFrame : L1Frame :=
  { ctx := 0, sb := 0xFF000000000 / 512, lines := Vector.replicate 4 { L1Line.none with present := 0xF, stable := true } }

/-- A store of slot 0 to word 0 of its window, still to be performed. -/
def windowStore : MemOp := Dev.start.newOp .store Fmt.ui32 2 [laneWant 0 0 (winWord 0 0 0 0) 4 0]

/-- A column whose warp has a return stack of depth 17. The store bears the number of the next operation, so that it counts as an earlier access
(R222) for the second load that is issued and not for the first. -/
def deepColumn : Column :=
  { Column.start with
    warps := [(0, { Warp.start with retTop := List.replicate 16 0, retDepth := 17 })],
    l1 := [windowFrame], ops := [windowStore], nextOp := windowStore.id }

/-- That column's warp issues; it has no launch, so that its private window has no bytes, and no page is mapped. -/
def deepState : State := { vault := [], dev := { Dev.start with cols := [(0, deepColumn)] } }

theorem deepState_selected : deepState.selected nopFields.h := by decide

theorem deepState_retLoads : deepState.dev.curWarp.retLoads = [] := rfl

theorem deepState_loads : deepState.dev.curWarp.loads ≤ 61 := by decide

/-- The first load of word 0 hits the L1. For the second the store is an earlier access to the word (R222): it must be translated, and no page is
mapped. -/
theorem deepState_repeat_refused : (State.refill { deepState with dev := (deepState.refill 0 false).1 } 0 true).2 = false := by
  decide +kernel

theorem deepState_popRet_held : ∃ d, deepState.popRet = .hold d :=
  State.popRet_held (by decide) deepState_loads (by decide) deepState_repeat_refused

theorem exec_ret_deepState : ∃ d : Dev, exec (.ret nopFields) deepState = .next { deepState with dev := { d with issued := .held } } := by
  obtain ⟨d, hd⟩ := deepState_popRet_held
  refine ⟨d, ?_⟩
  rw [exec_ret_eq_conclude, retIssue_eq_popRet deepState_selected (by decide) deepState_retLoads, hd, State.conclude_hold]

/-- Refutes O14, in its clause of a RET at a depth above 16, which lacks the premise 120 ≤ Z of the clause of CALL. It supposes that the loads
of the words Wd - 30 + 2 (d - 17) and of the next one start; with fewer than 120 bytes a lane RET loads the first of them twice. In `deepState`
both words' loads start, the second load of the first word does not, and RET is held. -/
theorem not_branches : ¬ Obligations.Branches := by
  rintro ⟨-, -, hstack, -, -⟩
  obtain ⟨-, -, -, hret⟩ := hstack nopFields deepState deepState_selected
  have hfirst : (deepState.refill 0 false).2 = true := by decide +kernel
  have hnext : (State.refill { deepState with dev := (deepState.refill 0 false).1 } 1 true).2 = true := by decide +kernel
  obtain ⟨u, hu, hretired, -⟩ :=
    hret (by decide) (by decide) deepState_retLoads deepState_loads hfirst hnext
  obtain ⟨d, hd⟩ := exec_ret_deepState
  obtain rfl := Host.Outcome.next.inj (hu.symm.trans hd)
  cases hretired

end Sys2Proof.Machine
end

section
/-! Proofs about the cross-lane instructions: the finishes of V-format instructions after a change of the device and with a predicate
destination (R167, R441), the tile that is the whole warp (R187, R191), and the statement about SETPART, POLL, MATCH, ELECT, REDC and SCAN
(R188, R196-R201). -/

namespace Sys2Proof.Machine

/-! ## Successive changes of the issuing warp -/

theorem Table.set_set {α : Type} (t : Table α) (k : Nat) (v w : α) : (t.set k v).set k w = t.set k w := by
  induction t with
  | nil => simp [Table.set]
  | cons p t ih =>
    obtain ⟨j, u⟩ := p
    rcases Nat.lt_trichotomy j k with h | rfl | h
    · simp [Table.set, Nat.ne_of_lt h, Nat.lt_asymm h, ih]
    · simp [Table.set]
    · simp [Table.set, Nat.ne_of_gt h, h]

theorem Dev.modCurWarp_modCurWarp (d : Dev) (g h : Warp → Warp) :
    (d.modCurWarp g).modCurWarp h = d.modCurWarp (fun w => h (g w)) := by
  simp [Dev.modCurWarp, Dev.modWarp, Dev.putWarp, Dev.modCol, Dev.putCol, Dev.warp, Dev.col, Column.putWarp, Column.warp, Table.set_set]

/-- The hints and the PC are of different fields of the warp: their order does not matter. -/
theorem Dev.hint_advance (d : Dev) (h : BitVec 7) : d.advance.hint h = (d.hint h).advance := by
  simp only [Dev.advance, Dev.hint, Dev.modCurWarp_now, Dev.modCurWarp_cur, Dev.modCurWarp_modCurWarp]
  rfl

/-! ## Predicates -/

theorem Warp.pred_setPred_same (w : Warp) {p : Nat} (m bits : Mask) (h1 : 1 ≤ p) (h7 : p ≤ 7) :
    (w.setPred p m bits).pred p = (w.pred p &&& ~~~m) ||| (bits &&& m) := by
  simp [Warp.setPred, Warp.pred, h1, h7]

theorem Warp.pred_setPred_ne (w : Warp) {p q : Nat} (m bits : Mask) (h : q ≠ p) : (w.setPred p m bits).pred q = w.pred q := by
  by_cases hp : 1 ≤ p ∧ p ≤ 7
  · by_cases hq : 1 ≤ q ∧ q ≤ 7
    · have hne : p - 1 ≠ q - 1 := by omega
      simp [Warp.setPred, Warp.pred, hp, hq, Vector.getElem_set_ne _ _ hne]
    · simp [Warp.pred, hq]
  · simp [Warp.setPred, hp]

theorem Warp.setPred_frame (w : Warp) (p : Nat) (m bits : Mask) : { w.setPred p m bits with preds := w.preds } = w := by
  unfold Warp.setPred
  split <;> rfl

theorem Warp.has_pred_setPred (w : Warp) {p l : Nat} (m bits : Mask) (h1 : 1 ≤ p) (h7 : p ≤ 7) (hl : l < 32) :
    Mask.has ((w.setPred p m bits).pred p) l = if Mask.has m l then Mask.has bits l else Mask.has (w.pred p) l := by
  rw [Warp.pred_setPred_same w m bits h1 h7]
  cases hm : Mask.has m l <;> simp [hl, hm]

@[simp] theorem Warp.setPred_regs (w : Warp) (p : Nat) (m bits : Mask) : (w.setPred p m bits).regs = w.regs := by
  have h := congrArg Warp.regs (Warp.setPred_frame w p m bits)
  exact h

@[simp] theorem Warp.setPred_ix (w : Warp) (p : Nat) (m bits : Mask) : (w.setPred p m bits).ix = w.ix := by
  have h := congrArg Warp.ix (Warp.setPred_frame w p m bits)
  exact h

@[simp] theorem Warp.stepFields_regs (w : Warp) (act : Mask) (pre : List Nat) (fs : List Operand) :
    (w.stepFields act pre fs).regs = w.regs := by
  have h := congrArg Warp.regs (Warp.stepFields_frame w act pre fs)
  exact h

@[simp] theorem Warp.stepFields_preds (w : Warp) (act : Mask) (pre : List Nat) (fs : List Operand) :
    (w.stepFields act pre fs).preds = w.preds := by
  have h := congrArg Warp.preds (Warp.stepFields_frame w act pre fs)
  exact h

/-- The step of the index registers and the write of a predicate leave all else of a warp. -/
theorem Warp.stepFields_setPred_rest (w : Warp) (p : Nat) (m bits act : Mask) (pre : List Nat) (fs : List Operand) :
    { (w.setPred p m bits).stepFields act pre fs with preds := w.preds }.rest = w.rest := by
  have hstep := congrArg (fun v : Warp => { v with preds := w.preds }.rest) (Warp.stepFields_frame (w.setPred p m bits) act pre fs)
  have hset := congrArg Warp.rest (Warp.setPred_frame w p m bits)
  exact hstep.trans hset

/-! ## What the issue checks read of the device -/

/-- Two devices that the issue checks of one instruction do not tell apart: the same warp of the same column issues, under the same
bounds and beside the same outstanding operations. -/
structure Dev.SameIssue (d e : Dev) : Prop where
  cur     : e.cur = d.cur
  regions : e.curCol.regions = d.curCol.regions
  ops     : e.curCol.ops = d.curCol.ops

theorem Dev.SameIssue.refl (d : Dev) : d.SameIssue d := ⟨rfl, rfl, rfl⟩

theorem Dev.SameIssue.trans {d e g : Dev} (h : d.SameIssue e) (k : e.SameIssue g) : d.SameIssue g :=
  ⟨k.cur.trans h.cur, k.regions.trans h.regions, k.ops.trans h.ops⟩

theorem Dev.SameIssue.modCurWarp (d : Dev) (g : Warp → Warp) : d.SameIssue (d.modCurWarp g) := by
  constructor <;> simp [Dev.curCol, Dev.modCurWarp, Dev.modWarp, Dev.putWarp]

@[simp] theorem Dev.predPoison_zero (d : Dev) : d.predPoison 0#32 = d := by simp [Dev.predPoison]

/-- An error record changes nothing of the columns. -/
theorem Dev.SameIssue.predPoison (d : Dev) (m : Mask) : d.SameIssue (d.predPoison m) := by
  unfold Dev.predPoison
  split
  · exact Dev.SameIssue.refl d
  · exact ⟨rfl, rfl, rfl⟩

theorem Dev.SameIssue.optPred (x : VCtx) (p : Nat) (bits pois : Mask) (d : Dev) : d.SameIssue (optPred x p bits pois d) := by
  unfold Machine.optPred
  split
  · exact Dev.SameIssue.refl d
  · exact (Dev.SameIssue.predPoison d pois).trans (Dev.SameIssue.modCurWarp _ _)

/-- The reading context of an instruction, of another device. -/
def VCtx.onDev (x : VCtx) (e : Dev) : VCtx := { x with d := e }

/-- An instruction that may issue may issue from such another device. -/
theorem VCtx.Ready.onDev {x : VCtx} {f : VFields} {us : List Use} {preds : Option TrapInfo} {e : Dev} (h : x.Ready f us preds)
    (he : x.d.SameIssue e) : (x.onDev e).Ready f us preds := by
  obtain ⟨hcur, hregions, hops⟩ := he
  obtain ⟨hready, hchecks, hfifth⟩ := h
  have hregs : (x.onDev e).regs = x.regs := congrArg Regions.regs hregions
  have hbounds : (x.onDev e).bounds us = x.bounds us := by simp only [VCtx.bounds, hregs]
  have hbusy : (x.onDev e).notReady us = x.notReady us := by
    simp only [VCtx.notReady, VCtx.waits, VCtx.onDev, Column.busy, Column.reserved, hcur, hops]
  have hwindows : e.curCol.windows e.cur.slot = x.d.curCol.windows x.d.cur.slot := by simp only [Column.windows, hcur, hops]
  have hfull : (x.onDev e).windowsFull = x.windowsFull := congrArg (fun n => decide (4 ≤ n)) hwindows
  refine ⟨hbusy.trans hready, ?_, ?_⟩
  · rw [hregs, hbounds]
    exact hchecks
  · rw [VCtx.fifthWindow, hfull]
    exact hfifth

/-! ## The finishes -/

/-- A result gives these values and this poison to the lanes, under this tag. -/
structure Result.Holds (r : Result) (fmt : BitVec 5) (val : Nat → Word) (pois : Nat → Bool) : Prop where
  vals : r.vals = tab val
  pois : r.pois = Mask.of pois
  fmt  : r.fmt = fmt

theorem VCtx.finish_of_ready {x : VCtx} {f : VFields} {us : List Use} {preds : Option TrapInfo} (h : x.Ready f us preds) (r : Result)
    (post : Dev → Dev) :
    x.finish f us preds [] r post = .retire ((x.step (x.writeDst (post x.d) f.d r)).hint f.hint).advance := by
  obtain ⟨hready, hchecks, hfifth⟩ := h
  simp only [VCtx.finish, hready, hchecks, hfifth, Bool.false_eq_true, if_false]

theorem VCtx.finishPred_of_ready {x : VCtx} {f : VFields} {us : List Use} {preds : Option TrapInfo} (h : x.ReadyPred f us preds)
    (bits : Mask) :
    x.finishPred f us preds bits = .retire ((x.step ((x.d.predPoison (poisOf (us.map Use.src) &&& x.act)).modCurWarp
      (fun w => w.setPred (f.d.toNat % 8) x.act bits))).hint f.hint).advance := by
  obtain ⟨hready, hchecks⟩ := h
  simp only [VCtx.finishPred, hready, hchecks, Bool.false_eq_true, if_false]

/-- An instruction that may issue and ends in `finish` completes with its result, from the device that `post` leaves. -/
theorem VCtx.completes_of_finish {i : Instr} {s : State} {x : VCtx} {f : VFields} {us : List Use} {preds : Option TrapInfo} {r : Result}
    {post : Dev → Dev} {fmt : BitVec 5} {val : Nat → Word} {pois : Nat → Bool}
    (hi : exec i s = s.conclude (x.finish f us preds [] r post)) (hx : x.d = s.dev) (hpost : s.dev.SameIssue (post s.dev))
    (hready : x.Ready f us preds) (hr : r.Holds fmt val pois) (hgood : r.Holds fmt val pois → r.Good) :
    Completes i x s { s with dev := post s.dev } (x.oneDst f.d) (fun _ => fmt) (fun _ => val) (fun _ => pois) := by
  have hgood := hgood hr
  obtain ⟨hvals, hpois, hfmt⟩ := hr
  let base : State := { s with dev := post s.dev }
  have hbase : (x.onDev base.dev).Ready f us preds := hready.onDev (hx ▸ hpost)
  obtain ⟨hn, hc, h5⟩ := hbase
  obtain ⟨t, ht, h⟩ := VCtx.finish_retires base (x.onDev base.dev) rfl f us preds [] r hgood hn hc h5
  have hsame : s.conclude (x.finish f us preds [] r post) = base.conclude ((x.onDev base.dev).finish f us preds [] r noPost) := by
    rw [VCtx.finish_of_ready hready, VCtx.finish_of_ready ⟨hn, hc, h5⟩, hx]
    rfl
  refine ⟨t, (hi.trans hsame).trans ht, ?_⟩
  refine { issued := h.issued, only := h.only, kept := h.kept, tags := h.tags, pc := h.pc, ix := h.ix, rest := h.rest, wrote := ?_ }
  intro j l n hl hd
  rw [← lane_tab val hl, ← Mask.has_of pois hl, ← hvals, ← hpois, ← hfmt]
  exact h.wrote j l n hl hd

/-- The index registers step, the hints and the PC move on: nothing but the issuing warp changes. -/
theorem VCtx.onlyWarp_retired (x : VCtx) (s : State) (h : BitVec 7) :
    OnlyWarp s { s with dev := { ((x.step s.dev).hint h).advance with issued := .retired } } :=
  (((OnlyWarp.ofWarp s _).trans (OnlyWarp.ofWarp _ _)).trans (OnlyWarp.ofWarp _ _)).trans (OnlyWarp.ofIssued _ .retired)

/-- An instruction that may issue and ends in `finishPred` sets its predicate, the poison of its sources recorded. -/
theorem VCtx.finishPred_setsPred {s : State} {x : VCtx} (hx : x.d = s.dev) {f : VFields} {us : List Use} {preds : Option TrapInfo}
    (hready : x.ReadyPred f us preds) (bits : Nat → Bool) :
    ∃ u, s.conclude (x.finishPred f us preds (Mask.of bits)) = .next u ∧
      SetsPred x { s with dev := s.dev.predPoison (poisOf (us.map Use.src) &&& x.act) } u (f.d.toNat % 8) bits := by
  rw [VCtx.finishPred_of_ready hready, State.conclude_retire, hx]
  generalize s.dev.predPoison (poisOf (us.map Use.src) &&& x.act) = d
  generalize f.d.toNat % 8 = p
  let g : Warp → Warp := fun w => w.setPred p x.act (Mask.of bits)
  have hwarp := VCtx.finish_warp x (d.modCurWarp g) f
  rw [Dev.curWarp_modCurWarp] at hwarp
  have hpred (q : Nat) : (((x.step (d.modCurWarp g)).hint f.hint).advance).curWarp.pred q = (g d.curWarp).pred q := by
    rw [hwarp]
    simp only [Warp.pred, Warp.stepFields_preds]
  refine ⟨_, rfl, { issued := rfl, only := ?_, wrote := ?_, kept := ?_, regs := ?_, pc := ?_, ix := ?_, rest := ?_ }⟩
  · exact (OnlyWarp.ofWarp { s with dev := d } g).trans (VCtx.onlyWarp_retired x _ f.hint)
  · intro l hl h1 h7
    exact (congrArg (Mask.has · l) (hpred p)).trans (by simp [g, Warp.has_pred_setPred _ _ _ h1 h7 hl, hl])
  · intro q hq
    exact (hpred q).trans (Warp.pred_setPred_ne _ _ _ hq)
  · exact (congrArg Warp.regs hwarp).trans (by simp [g])
  · exact congrArg Warp.pc hwarp
  · exact (congrArg Warp.ix hwarp).trans (Warp.stepFields_ix _ _ _ _ _ (Warp.setPred_ix _ _ _ _))
  · exact (congrArg (fun w : Warp => { w with preds := d.curWarp.preds }.rest) hwarp).trans
      (Warp.stepFields_setPred_rest _ _ _ _ _ _ _)

/-! ## The tile that is the whole warp -/

theorem tileBase_whole {l : Nat} (hl : l < 32) : tileBase 32 l = 0 := by simp [tileBase, Nat.mod_eq_of_lt hl]

theorem tileSet_whole (act : Mask) {l : Nat} (hl : l < 32) : tileSet 32 act l = Mask.list act := by
  refine List.filter_eq_self.mpr fun m hm => ?_
  obtain ⟨h32, -⟩ := (Mask.mem_list act m).mp hm
  simp [Nat.div_eq_of_lt h32, Nat.div_eq_of_lt hl]

theorem Warp.tileW_whole {w : Warp} (h : w.wlog = 5) : w.tileW = 32 := by simp [Warp.tileW, h]

/-- A function of a lane's tile: it takes one value where one tile is the whole warp. -/
def Tilewise {α : Type} (w : Warp) (g : Nat → α) : Prop := w.wlog = 5 → ∀ l, l < 32 → g l = g 0

theorem tilewise_tileSet {α : Type} (w : Warp) (act : Mask) (g : List Nat → α) : Tilewise w (fun l => g (tileSet w.tileW act l)) := by
  intro h l hl
  simp only [Warp.tileW_whole h, tileSet_whole act hl, tileSet_whole act (Nat.zero_lt_succ 31)]

theorem tilewise_tileMask (w : Warp) (act : Mask) (g : List Nat → List Nat) :
    Tilewise w (fun l => tileMask w.tileW l (g (tileSet w.tileW act l))) := by
  intro h l hl
  simp only [Warp.tileW_whole h, tileSet_whole act hl, tileSet_whole act (Nat.zero_lt_succ 31), tileMask, tileBase_whole hl,
    tileBase_whole (Nat.zero_lt_succ 31)]

/-- A result that holds one value in each tile may have the shape of one (R191). -/
theorem Result.Holds.good_of_tileShape {r : Result} {w : Warp} {fmt : BitVec 5} {val : Nat → Word} {pois : Nat → Bool}
    (hr : r.Holds fmt val pois) (h : r.shape = tileShape w) (hv : Tilewise w val) (hp : Tilewise w pois) : r.Good := by
  obtain ⟨hvals, hpois, -⟩ := hr
  by_cases h5 : w.wlog = 5
  · refine Result.good_uniform _ (h.trans (if_pos h5)) fun l hl => ?_
    have h0 : 0 < 32 := Nat.zero_lt_succ 31
    rw [hvals, hpois, lane_tab _ hl, lane_tab _ h0, Mask.has_of _ hl, Mask.has_of _ h0]
    exact ⟨hv h5 l hl, hp h5 l hl⟩
  · exact Result.good_general _ (h.trans (if_neg h5))

/-! ## SETPART -/

theorem exec_setpart_of_selected {f : VFields} {s : State} (hs : s.selected f.h) :
    exec (.setpart f) s = .next { s with dev := {
      ((s.dev.modCurWarp (fun w => { w with wlog := f.imm.extractLsb' 0 3 })).hint f.hint).advance with issued := .retired } } := by
  have h : exec (.setpart f) s = s.conclude ((s.dev.whole f.h (fun _ =>
    .retire (s.dev.modCurWarp (fun w => { w with wlog := f.imm.extractLsb' 0 3 })).advance)).hinted f.hint) := rfl
  rw [h, State.whole_of_selected hs, Issue.hinted, State.conclude_retire, Dev.hint_advance]

/-! ## POLL and ELECT -/

/-- POLL's mode 7 is an unassigned SUB code (R189). -/
theorem pollMode_le_of_wf {f : VFields} (h : (Instr.poll f).wf = true) : f.subBits 2 0 ≤ 6 := by
  have hchecks : ((Instr.poll f).checks.sub && (Instr.poll f).checks.rsv && (Instr.poll f).checks.comb) = true := h
  simp only [Bool.and_eq_true] at hchecks
  have hsub : v3Sub (fun s => decide (s.toNat ≤ 6)) f.sub = true := hchecks.1.1
  obtain ⟨-, hle⟩ : f.sub.getLsbD 7 = false ∧ f.sub.toNat ≤ 6 := by simpa [v3Sub] using hsub
  simp only [VFields.subBits, BitVec.extractLsb'_toNat, Nat.shiftRight_zero]
  exact (Nat.mod_le _ _).trans hle

/-- An instruction without sources that ends in `finishPred` sets its predicate from the state as it was. -/
theorem setsPred_of_finishPred {i : Instr} {s : State} {x : VCtx} {f : VFields} {bits : Nat → Bool}
    (hi : exec i s = s.conclude (x.finishPred f [] none (Mask.of bits))) (hx : x.d = s.dev) (hready : x.ReadyPred f [] none) :
    ∃ u, exec i s = .next u ∧ SetsPred x s u (f.d.toNat % 8) bits := by
  obtain ⟨u, hu, h⟩ := VCtx.finishPred_setsPred hx hready bits
  refine ⟨u, hi.trans hu, ?_⟩
  simpa [poisOf] using h

theorem poll_setsPred {f : VFields} {s : State} (hmode : f.subBits 2 0 < 4) :
    let x : VCtx := vctx s.dev f.h []
    x.ReadyPred f [] none →
      ∃ u, exec (.poll f) s = .next u ∧ SetsPred x s u (f.d.toNat % 8) (fun l =>
        pollBit (f.subBits 2 0) (s.dev.curWarp.pred (f.a.bits.toNat % 8)) (tileSet x.w.tileW x.act l)) :=
  setsPred_of_finishPred (congrArg s.conclude (if_pos hmode)) rfl

/-- POLL's mask and its count hold one value in each tile; its rank does not. -/
theorem tilewise_pollWord {mode : Nat} (h4 : mode = 4 ∨ mode = 5) (w : Warp) (act pa : Mask) :
    Tilewise w (fun l => pollWord mode w.tileW l pa (tileSet w.tileW act l)) := by
  rcases h4 with rfl | rfl
  · exact tilewise_tileMask w act (List.filter (Mask.has pa))
  · exact tilewise_tileSet w act (fun ms => BitVec.ofNat 32 (ms.filter (Mask.has pa)).length)

theorem exec_poll_of_word {f : VFields} (s : State) (hmode : 4 ≤ f.subBits 2 0) :
    let x : VCtx := vctx s.dev f.h []
    exec (.poll f) s = s.conclude (x.finish f [] none [] {
      vals := tab (fun l => pollWord (f.subBits 2 0) x.w.tileW l (s.dev.curWarp.pred (f.a.bits.toNat % 8)) (tileSet x.w.tileW x.act l)),
      pois := 0, fmt := Fmt.ui32, shape := if f.subBits 2 0 = 6 then .general else tileShape x.w } noPost) :=
  congrArg s.conclude (if_neg (Nat.not_lt.mpr hmode))

theorem poll_completes {f : VFields} {s : State} (hwf : (Instr.poll f).wf = true) (hmode : 4 ≤ f.subBits 2 0) :
    let x : VCtx := vctx s.dev f.h []
    x.Ready f [] none →
      Completes (.poll f) x s s (x.oneDst f.d) (fun _ => Fmt.ui32) (fun _ l =>
        pollWord (f.subBits 2 0) x.w.tileW l (s.dev.curWarp.pred (f.a.bits.toNat % 8)) (tileSet x.w.tileW x.act l))
        (fun _ _ => false) := by
  intro x hready
  refine VCtx.completes_of_finish (exec_poll_of_word s hmode) rfl (.refl _) hready ⟨rfl, rfl, rfl⟩ fun hr => ?_
  by_cases h6 : f.subBits 2 0 = 6
  · exact Result.good_general _ (if_pos h6)
  · have h45 : f.subBits 2 0 = 4 ∨ f.subBits 2 0 = 5 := by have := pollMode_le_of_wf hwf; omega
    exact hr.good_of_tileShape (if_neg h6) (tilewise_pollWord h45 _ _ _) (fun _ _ _ => rfl)

theorem elect_setsPred {f : VFields} {s : State} :
    let x : VCtx := vctx s.dev f.h []
    x.ReadyPred f [] none →
      ∃ u, exec (.elect f) s = .next u ∧ SetsPred x s u (f.d.toNat % 8) (fun l =>
        (if f.subBit 0 then (tileSet x.w.tileW x.act l).getLast? else (tileSet x.w.tileW x.act l).head?) == some l) :=
  setsPred_of_finishPred rfl rfl

/-! ## MATCH -/

/-- What MATCH does to the device before its result is written: in mode .all it writes the optional predicate (R198). -/
def matchPost (f : VFields) (s : State) : Dev → Dev :=
  let x : VCtx := vctx s.dev f.h []
  let a := x.src 1 f.a
  let ms (l : Nat) := tileSet x.w.tileW x.act l
  if f.subBits 1 0 = 3 then
    optPred x (f.subBits 4 2) (Mask.of (fun l => (ms l).all (fun m => lane a.vals m == lane a.vals l)))
      (Mask.of (fun l => (ms l).any (Mask.has a.pois)) &&& x.act)
  else noPost

theorem matchPost_of_all {f : VFields} {s : State} (h : f.subBits 1 0 = 3) :
    let x : VCtx := vctx s.dev f.h []
    let a := x.src 1 f.a
    let ms (l : Nat) := tileSet x.w.tileW x.act l
    matchPost f s = optPred x (f.subBits 4 2) (Mask.of (fun l => (ms l).all (fun m => lane a.vals m == lane a.vals l)))
      (Mask.of (fun l => (ms l).any (Mask.has a.pois)) &&& x.act) :=
  if_pos h

theorem matchPost_of_not_all {f : VFields} {s : State} (h : f.subBits 1 0 ≠ 3) : matchPost f s = noPost := if_neg h

theorem sameIssue_matchPost (f : VFields) (s : State) (d : Dev) : d.SameIssue (matchPost f s d) := by
  by_cases h : f.subBits 1 0 = 3
  · rw [matchPost_of_all h]
    exact .optPred _ _ _ _ d
  · rw [matchPost_of_not_all h]
    exact .refl d

theorem match_completes {f : VFields} {s : State} :
    let x : VCtx := vctx s.dev f.h []
    let a := x.src 1 f.a
    let ms (l : Nat) := tileSet x.w.tileW x.act l
    x.Ready f [Use.any a] none →
      Completes (.match_ f) x s { s with dev := matchPost f s s.dev } (x.oneDst f.d) (fun _ => Fmt.ui32)
        (fun _ l => matchWord (f.subBits 1 0) x.w.tileW l (lane a.vals) (ms l)) (fun _ l => (ms l).any (Mask.has a.pois)) := by
  intro x a ms hready
  have hi : exec (.match_ f) s = s.conclude (x.finish f [Use.any a] none [] _ (matchPost f s)) := rfl
  refine VCtx.completes_of_finish hi rfl (sameIssue_matchPost f s s.dev) hready ⟨rfl, rfl, rfl⟩ fun hr => ?_
  by_cases h2 : f.subBits 1 0 = 2
  · refine hr.good_of_tileShape (if_pos h2) ?_ (tilewise_tileSet _ x.act (fun ms => ms.any (Mask.has a.pois)))
    rw [h2]
    exact tilewise_tileSet _ _ (fun ms => BitVec.ofNat 32 (ms.map (lane a.vals)).eraseDups.length)
  · exact Result.good_general _ (if_neg h2)

/-! ## REDC and SCAN -/

theorem redc_completes {f : VFields} {s : State} :
    let x : VCtx := vctx s.dev f.h []
    let a := x.src 1 f.a
    let ms (l : Nat) := tileSet x.w.tileW x.act l
    x.Ready f [logicUse f.h.ty a] none →
      Completes (.redc f) x s s (x.oneDst f.d) (fun _ => f.h.ty)
        (fun _ l => combine (f.subBits 2 0) f.h.ty f.h.s ((ms l).map (lane a.vals))) (fun _ l => (ms l).any (Mask.has a.pois)) := by
  intro x a ms hready
  have hi : exec (.redc f) s = s.conclude (x.finish f [logicUse f.h.ty a] none [] _ noPost) := rfl
  refine VCtx.completes_of_finish hi rfl (.refl _) hready ⟨rfl, rfl, rfl⟩ fun hr => ?_
  exact hr.good_of_tileShape rfl (tilewise_tileSet _ _ (fun ms => combine (f.subBits 2 0) f.h.ty f.h.s (ms.map (lane a.vals))))
    (tilewise_tileSet _ x.act (fun ms => ms.any (Mask.has a.pois)))

theorem scan_completes {f : VFields} {s : State} :
    let x : VCtx := vctx s.dev f.h []
    let a := x.src 1 f.a
    let ps : Mask := if f.subBits 6 4 = 0 then 0 else s.dev.curWarp.pred (f.subBits 6 4)
    let terms (l : Nat) := scanTerms ps (f.subBit 3) (tileSet x.w.tileW x.act l) l
    x.Ready f [logicUse f.h.ty a] none →
      Completes (.scan f) x s s (x.oneDst f.d) (fun _ => f.h.ty)
        (fun _ l => combine (f.subBits 2 0) f.h.ty f.h.s ((terms l).map (lane a.vals))) (fun _ l => (terms l).any (Mask.has a.pois)) := by
  intro x a ps terms hready
  have hi : exec (.scan f) s = s.conclude (x.finish f [logicUse f.h.ty a] none [] _ noPost) := rfl
  exact VCtx.completes_of_finish hi rfl (.refl _) hready ⟨rfl, rfl, rfl⟩ fun _ => Result.good_general _ rfl

/-- Settles O11: SETPART, POLL and ELECT by their finishes; MATCH, REDC and SCAN by `VCtx.completes_of_finish`, where a result that is
written as uniform holds one value because one tile is the whole warp. -/
theorem votesAndReductions : Obligations.VotesAndReductions := by
  refine ⟨fun f s => ⟨fun _ => exec_setpart_of_selected, fun _ => poll_setsPred, poll_completes, fun _ hready => ?_,
    fun _ => elect_setsPred⟩, fun f s => ⟨fun _ => redc_completes, fun _ => scan_completes⟩⟩
  have h := match_completes hready
  by_cases h3 : f.subBits 1 0 = 3
  · rw [matchPost_of_all h3] at h
    rw [if_pos h3]
    exact h
  · rw [matchPost_of_not_all h3] at h
    rw [if_neg h3]
    exact h

end Sys2Proof.Machine
end

section
/-! Proofs about the index-register instructions: an index register read after one is replaced, the retirement that replaces one and changes
nothing else, and the statement about IXSET, IXLD, IXMOV and IXADV (R238-R241). -/

namespace Sys2Proof.Machine

/-! ## Index registers -/

theorem Warp.ixr_setIx_same (w : Warp) (i : Nat) (x : IxReg) : (w.setIx i x).ixr i = x := by simp [Warp.setIx, Warp.ixr]

theorem Warp.ixr_setIx_ne (w : Warp) {i j : Nat} (x : IxReg) (hi : i < 16) (hj : j < 16) (h : j ≠ i) : (w.setIx i x).ixr j = w.ixr j := by
  have hmod : i % 16 ≠ j % 16 := by omega
  simp [Warp.setIx, Warp.ixr, Vector.getElem_set_ne _ _ hmod]

@[simp] theorem Warp.setIx_regs (w : Warp) (i : Nat) (x : IxReg) : (w.setIx i x).regs = w.regs := rfl

@[simp] theorem Warp.setIx_rest (w : Warp) (i : Nat) (x : IxReg) : (w.setIx i x).rest = w.rest := rfl

/-! ## Sources and checks -/

@[simp] theorem Src.lane_vals_const (code : Nat) (v : Word) (tag : BitVec 5) (l : Nat) : lane (Src.const code v tag).vals l = v := by
  simp [Src.const, lane, tab]

theorem firstTrap_eq_none_iff {ts : List (Option TrapInfo)} : firstTrap ts = none ↔ ∀ t ∈ ts, t = none := by
  induction ts with
  | nil => simp [firstTrap]
  | cons t ts ih => cases t <;> simp [firstTrap, ih]

theorem VCtx.notReady_nil (x : VCtx) : x.notReady [] = false := rfl

/-- The warp as an instruction reads it has the warp's masks: an operation in flight writes registers only (R263). -/
theorem Dev.seen_allE (d : Dev) (h : Head) : d.seen.allE h = d.curWarp.allE h := rfl

theorem Dev.seen_noneE (d : Dev) (h : Head) : d.seen.noneE h = d.curWarp.noneE h := rfl

/-- A guard that selects every lane of E passes IXSET's check (R238). -/
theorem convergence_of_allE {w : Warp} {h : Head} (hall : w.allE h = true) : convergence w h = none := by simp [convergence, check, hall]

/-! ## An index register replaced -/

/-- An instruction has retired and index register i of its warp holds `new`: nothing else has changed but the PC and the hints. -/
def State.SetsIx (s u : State) (i : Nat) (new : IxReg) : Prop :=
  u.dev.issued = .retired ∧ OnlyWarp s u ∧ u.dev.curWarp.pc = s.nextPc ∧ u.dev.curWarp.regs = s.dev.curWarp.regs ∧
    u.dev.curWarp.rest = s.dev.curWarp.rest ∧ u.dev.curWarp.ixr i = new ∧
    ∀ j, j < 16 → j ≠ i → u.dev.curWarp.ixr j = s.dev.curWarp.ixr j

/-- The hints and the PC are all that a retirement changes of its warp by itself (R98, R108). -/
theorem Dev.curWarp_hint_advance (d : Dev) (h : BitVec 7) :
    ((d.hint h).advance).curWarp =
      { d.curWarp with
        stallUntil := max d.curWarp.stallUntil (d.now + (h.extractLsb' 0 6).toNat + 1), yld := d.curWarp.yld || h.getLsbD 6,
        pc := d.cur.pc + (if d.cur.second then 2 else 1) } := by
  simp [Dev.advance, Dev.hint]

/-- The retirement of an instruction that replaces index register i of its warp. -/
def Dev.retireIx (d : Dev) (i : Nat) (new : Warp → IxReg) (h : BitVec 7) : Issue :=
  .retire ((d.modCurWarp (fun w => w.setIx i (new w))).hint h).advance

theorem State.conclude_retireIx (s : State) {i : Nat} (new : Warp → IxReg) (h : BitVec 7) (hi : i < 16) :
    ∃ u, s.conclude (s.dev.retireIx i new h) = .next u ∧ s.SetsIx u i (new s.dev.curWarp) := by
  have hwarp := Dev.curWarp_hint_advance (s.dev.modCurWarp (fun w => w.setIx i (new w))) h
  rw [Dev.curWarp_modCurWarp] at hwarp
  refine ⟨_, rfl, rfl, ?_, ?_, ?_, ?_, ?_, fun j hj hne => ?_⟩
  · exact (((OnlyWarp.ofWarp s _).trans (OnlyWarp.ofWarp _ _)).trans (OnlyWarp.ofWarp _ _)).trans (OnlyWarp.ofIssued _ .retired)
  · exact congrArg Warp.pc hwarp
  · exact (congrArg Warp.regs hwarp).trans (Warp.setIx_regs s.dev.curWarp i (new s.dev.curWarp))
  · exact (congrArg Warp.rest hwarp).trans (Warp.setIx_rest s.dev.curWarp i (new s.dev.curWarp))
  · exact (congrArg (Warp.ixr · i) hwarp).trans (Warp.ixr_setIx_same _ _ _)
  · exact (congrArg (Warp.ixr · j) hwarp).trans (Warp.ixr_setIx_ne _ _ hi hj hne)

/-! ## IXSET -/

/-- The source of IXSET and IXLD: va in V3 form, the immediate in VI form (R238, R239). -/
def VCtx.ixSrc (x : VCtx) (f : VFields) : Src := if f.vi then Src.const 1 f.imm Fmt.ui32 else x.src 1 f.a

theorem ixset_setsIx {f : VFields} {s : State} (hs : s.selected f.h) :
    let x : VCtx := vctx s.dev f.h []
    let a := x.ixSrc f
    let i := f.d.toNat % 16
    x.notReady [Use.ptr a] = false →
      firstTrap [a.boundCheck x.regs, a.uniCheck, (Use.ptr a).tagCheck, windowBound x.regs (lane a.vals 0), a.poisCheck Mask.all] = none →
      ∃ u, exec (.ixset f) s = .next u ∧ s.SetsIx u i (packedIx (s.dev.curWarp.ixr i) (lane a.vals 0) (f.subBit 0)) := by
  intro x a i hready hchecks
  obtain ⟨hall, hnone⟩ := hs
  have hconv : convergence x.w f.h = none := convergence_of_allE ((Dev.seen_allE _ _).trans hall)
  have hchecks : firstTrap [a.boundCheck x.regs, a.uniCheck, (Use.ptr a).tagCheck, windowBound x.regs (lane a.vals 0),
      convergence x.w f.h, a.poisCheck Mask.all] = none := by
    simp only [firstTrap_eq_none_iff, List.forall_mem_cons] at hchecks ⊢
    obtain ⟨hbound, huni, htag, hwindow, hpois⟩ := hchecks
    exact ⟨hbound, huni, htag, hwindow, hconv, hpois⟩
  have hissue : ixsetIssue f s = s.dev.retireIx i (fun w => packedIx (w.ixr i) (lane a.vals 0) (f.subBit 0)) f.hint := by
    have hsome : x.w.noneE f.h = false := (Dev.seen_noneE _ _).trans hnone
    simp only [x, a, VCtx.ixSrc] at hsome hready hchecks
    simp only [ixsetIssue, hsome, hready, hchecks, Bool.false_eq_true, if_false]
    rfl
  have hi : exec (.ixset f) s = s.conclude (ixsetIssue f s) := rfl
  rw [hi, hissue]
  exact s.conclude_retireIx _ _ (Nat.mod_lt _ (by decide))

/-! ## IXLD and IXADV -/

/-- The index register with the indices of the active lanes replaced. -/
def IxReg.moved (r : IxReg) (act : Mask) (g : Nat → BitVec 8) : IxReg :=
  { r with idx := tab (fun l => if Mask.has act l then g l else lane r.idx l) }

theorem idxIssue_of_ready {f : VFields} {x : VCtx} {src : Option Src} {own : List (Option TrapInfo)} {consumes : Bool} {g : Nat → BitVec 8} :
    let us := (src.map Use.ptr).toList
    x.notReady us = false →
      firstTrap (x.bounds us ++ us.map Use.tagCheck ++ own ++ (if consumes then us.map (fun u => u.src.poisCheck x.act) else [])) = none →
      idxIssue f x src own consumes g = x.d.retireIx (f.d.toNat % 16) (fun w => (w.ixr (f.d.toNat % 16)).moved x.act g) f.hint := by
  intro us hready hpass
  simp only [us] at hready hpass
  simp only [idxIssue, hready, hpass, Bool.false_eq_true, if_false]
  rfl

/-- An instruction that moves indices replaces its index register where it reads no register (`bare`), or one that is ready and passes its
checks, and its own checks pass. -/
theorem idx_setsIx {i : Instr} {f : VFields} {s : State} {x : VCtx} {bare : Bool} {a : Src} {own : List (Option TrapInfo)}
    {consumes : Bool} {g : Nat → BitVec 8}
    (hi : exec i s = s.conclude (idxIssue f x (if bare then none else some a) own consumes g)) (hx : x.d = s.dev)
    (hown : firstTrap own = none)
    (h : bare = true ∨ (x.notReady [Use.ptr a] = false ∧
      firstTrap ([a.boundCheck x.regs, (Use.ptr a).tagCheck] ++ (if consumes then [a.poisCheck x.act] else [])) = none)) :
    ∃ u, exec i s = .next u ∧ s.SetsIx u (f.d.toNat % 16) ((s.dev.curWarp.ixr (f.d.toNat % 16)).moved x.act g) := by
  have hissue : idxIssue f x (if bare then none else some a) own consumes g =
      s.dev.retireIx (f.d.toNat % 16) (fun w => (w.ixr (f.d.toNat % 16)).moved x.act g) f.hint := by
    rw [← hx]
    cases bare with
    | true =>
      refine idxIssue_of_ready x.notReady_nil ?_
      simpa [VCtx.bounds] using hown
    | false =>
      obtain ⟨hready, hchecks⟩ := h.resolve_left Bool.false_ne_true
      refine idxIssue_of_ready hready ?_
      change firstTrap ([a.boundCheck x.regs, (Use.ptr a).tagCheck] ++ own ++ if consumes then [a.poisCheck x.act] else []) = none
      simp only [firstTrap_eq_none_iff, List.forall_mem_append] at hchecks hown ⊢
      obtain ⟨hread, hpois⟩ := hchecks
      exact ⟨⟨hread, hown⟩, hpois⟩
  rw [hi, hissue]
  exact s.conclude_retireIx _ _ (Nat.mod_lt _ (by decide))

/-- IXLD's index in lane l: the low byte of its source, or with .add that many on from the old index (R239). -/
def IxReg.loaded (r : IxReg) (add : Bool) (v : Vector Word 32) (l : Nat) : BitVec 8 :=
  if add then lane r.idx l + (lane v l).extractLsb' 0 8 else (lane v l).extractLsb' 0 8

/-- IXLD reads a register in V3 form only. -/
theorem exec_ixld (f : VFields) (s : State) :
    let x : VCtx := vctx s.dev f.h []
    let r := s.dev.curWarp.ixr (f.d.toNat % 16)
    let a := x.ixSrc f
    exec (.ixld f) s = s.conclude (idxIssue f x (if f.vi then none else some a) [] true (r.loaded (f.subBit 0) a.vals)) := by
  intro x r a
  change s.conclude (ixldIssue f s) = _
  simp only [ixldIssue, a, VCtx.ixSrc]
  cases f.vi with
  | true =>
    have hloaded : r.loaded (f.subBit 0) (Src.const 1 f.imm Fmt.ui32).vals =
        fun l => if f.subBit 0 then lane r.idx l + f.imm.extractLsb' 0 8 else f.imm.extractLsb' 0 8 := by
      funext l
      simp only [IxReg.loaded, Src.lane_vals_const]
    simp only [if_true, hloaded]
    rfl
  | false => rfl

theorem ixld_setsIx {f : VFields} {s : State} :
    let x : VCtx := vctx s.dev f.h []
    let r := s.dev.curWarp.ixr (f.d.toNat % 16)
    let a := x.ixSrc f
    (f.vi = true ∨ (x.notReady [Use.ptr a] = false ∧ firstTrap [a.boundCheck x.regs, (Use.ptr a).tagCheck, a.poisCheck x.act] = none)) →
      ∃ u, exec (.ixld f) s = .next u ∧ s.SetsIx u (f.d.toNat % 16) (r.moved x.act (r.loaded (f.subBit 0) a.vals)) :=
  idx_setsIx (exec_ixld f s) rfl rfl

/-- IXADV's step in lane l (R241). -/
def VCtx.ixStep (x : VCtx) (f : VFields) (r : IxReg) (l : Nat) : Int :=
  if f.vi then signedOf 8 f.imm.toNat else if f.subBit 1 then r.stride.toInt else signedOf 8 (lane (x.src 2 f.b).vals l).toNat

/-- IXADV's index in lane l: modulo 256, or with .wrap modulo the bound (R241). -/
def IxReg.advanced (r : IxReg) (wrap : Bool) (delta : Nat → Int) (l : Nat) : BitVec 8 :=
  BitVec.ofInt 8 (if wrap then ((lane r.idx l).toNat + delta l) % (r.bound.toNat : Int) else (lane r.idx l).toNat + delta l)

/-- IXADV's own check: an index register whose bound is 0 does not wrap (R241). -/
def wrapCheck (f : VFields) (x : VCtx) (r : IxReg) : Option TrapInfo :=
  let first := Mask.first x.act
  check (!f.subBit 0 || r.bound != 0)
    { cause := 0x0D, einfo := einfoO 0 0 first 0 0 (f.d.toNat % 16) (lane r.idx first).toNat, emask := x.act }

theorem wrapCheck_of_bound {f : VFields} {x : VCtx} {r : IxReg} (h : f.subBit 0 = true → r.bound ≠ 0) : wrapCheck f x r = none := by
  simpa [wrapCheck, check] using h

/-- IXADV reads a register in V3 form without .str only. -/
theorem exec_ixadv (f : VFields) (s : State) :
    let x : VCtx := vctx s.dev f.h []
    let r := s.dev.curWarp.ixr (f.d.toNat % 16)
    exec (.ixadv f) s = s.conclude (idxIssue f x (if f.vi || f.subBit 1 then none else some (x.src 2 f.b)) [wrapCheck f x r] false
      (r.advanced (f.subBit 0) (x.ixStep f r))) := by
  intro x r
  change s.conclude (ixadvIssue f s) = _
  unfold ixadvIssue VCtx.ixStep
  cases f.vi with
  | true => rfl
  | false => cases f.subBit 1 <;> rfl

theorem ixadv_setsIx {f : VFields} {s : State} :
    let x : VCtx := vctx s.dev f.h []
    let r := s.dev.curWarp.ixr (f.d.toNat % 16)
    let b := x.src 2 f.b
    (f.subBit 0 = true → r.bound ≠ 0) →
      (f.vi = true ∨ f.subBit 1 = true ∨
        (x.notReady [Use.ptr b] = false ∧ firstTrap [b.boundCheck x.regs, (Use.ptr b).tagCheck] = none)) →
      ∃ u, exec (.ixadv f) s = .next u ∧ s.SetsIx u (f.d.toNat % 16) (r.moved x.act (r.advanced (f.subBit 0) (x.ixStep f r))) := by
  intro x r b hbound h
  have hown : firstTrap [wrapCheck f x r] = none := by simpa [firstTrap_eq_none_iff] using wrapCheck_of_bound hbound
  refine idx_setsIx (exec_ixadv f s) rfl hown ?_
  rwa [Bool.or_eq_true, or_assoc]

/-! ## IXMOV -/

/-- The packed value of an index register is one value for the warp, so that .cfg may write it as uniform (R240). -/
theorem ixmov_completes {f : VFields} {s : State} :
    let x : VCtx := vctx s.dev f.h []
    x.Ready f [] none →
      Completes (.ixmov f) x s s (x.oneDst f.d) (fun _ => Fmt.ui32)
        (fun _ l => ixmovWord (f.subBits 1 0) (s.dev.curWarp.ixr (f.a.bits.toNat % 16)) l) (fun _ _ => false) := by
  intro x hready
  have hi : exec (.ixmov f) s = s.conclude (x.finish f [] none [] _ noPost) := rfl
  refine VCtx.completes_of_finish hi rfl (.refl _) hready ⟨rfl, rfl, rfl⟩ fun _ => ?_
  by_cases h2 : f.subBits 1 0 = 2
  · refine Result.good_uniform _ (if_pos h2) fun l hl => ?_
    simp [hl, h2, ixmovWord]
  · exact Result.good_general _ (if_neg h2)

/-- Settles O12: IXSET, IXLD and IXADV replace one index register, each by its own value; IXMOV is a V-format instruction with one result. -/
theorem indexRegisters : Obligations.IndexRegisters := fun _ _ =>
  ⟨fun _ => ixset_setsIx, fun _ => ixld_setsIx, fun _ => ixmov_completes, fun _ => ixadv_setsIx⟩

end Sys2Proof.Machine
end

section
/-! Proofs about the encoding: the words that the encoder gives are those that decode (R103-R114, R124, R125, R364-R366). -/

namespace Sys2Proof

/-! ## The reserved bits of a word (R105, R110-R112, R114) -/

/-- How many low bits of a word its major opcode leaves reserved. -/
def lowReserved (n : Nat) : Nat :=
  if (0xA4 ≤ n ∧ n ≤ 0xA6) ∨ (0xB0 ≤ n ∧ n ≤ 0xB6) then 13
  else if (0xC0 ≤ n ∧ n ≤ 0xC4) ∨ n = 0xC7 then 3
  else if n = 0xC5 ∨ n = 0xC6 then 20
  else if 0xE0 ≤ n ∧ n ≤ 0xE5 then 27
  else 0

theorem extract_none {n : Nat} (w : BitVec n) : w.extractLsb' 0 0 = 0 := BitVec.eq_of_zero_length rfl

theorem rawClean_iff {w : Insn} : rawClean w = true ↔ w.getLsbD 87 = false ∧ w.extractLsb' 76 2 = 0 ∧
    ∀ k, lowReserved (w.extractLsb' 88 8).toNat = k → w.extractLsb' 0 k = 0 := by
  simp only [rawClean, lowReserved, Bool.and_eq_true, Bool.not_eq_true', beq_iff_eq, and_assoc]
  generalize (w.extractLsb' 88 8).toNat = n
  split_ifs <;> simp

theorem rawClean_word {w : Insn} {op : BitVec 8} {k : Nat} (hmajor : w.extractLsb' 88 8 = op) (hk : lowReserved op.toNat = k)
    (h87 : w.getLsbD 87 = false) (h76 : w.extractLsb' 76 2 = 0) (hlow : w.extractLsb' 0 k = 0) : rawClean w = true := by
  refine rawClean_iff.mpr ⟨h87, h76, fun m hm => ?_⟩
  rw [← hm, hmajor, hk]
  exact hlow

/-! ## From an instruction to its word -/

/-- A word is read as this instruction: its opcode and body name it, and its reserved bits are zero. -/
def Reads (w : Insn) (i : Instr) : Prop := candidate w = some i ∧ rawClean w = true

section
variable {op : BitVec 8} {w : Insn}

theorem reads_cWord {f : CFields} {g : CFields → Instr} (h : some (cWord op f) = some w) (hk : lowReserved op.toNat = 0)
    (hc : ∀ w : Insn, w.extractLsb' 88 8 = op → candidate w = some (g (cBody w))) : Reads w (g f) := by
  obtain rfl := Option.some.inj h
  obtain ⟨h87, h76⟩ := cWord_reserved op f
  exact ⟨(hc _ (cWord_major op f)).trans (by rw [cBody_cWord]), rawClean_word (cWord_major op f) hk h87 h76 (extract_none _)⟩

theorem reads_vWord {f : VFields} {g : VFields → Instr} (h : some (vWord op f) = some w) (hk : lowReserved op.toNat = 0)
    (hc : ∀ w : Insn, w.extractLsb' 88 8 = op → candidate w = some (g (vBody w))) : Reads w (g f) := by
  obtain rfl := Option.some.inj h
  obtain ⟨h87, h76⟩ := vWord_reserved op f
  exact ⟨(hc _ (vWord_major op f)).trans (by rw [vBody_vWord]), rawClean_word (vWord_major op f) hk h87 h76 (extract_none _)⟩

theorem reads_mWord {f : MFields} {g : MFields → Instr} (h : some (mWord op f) = some w) (hk : lowReserved op.toNat = 0)
    (hc : ∀ w : Insn, w.extractLsb' 88 8 = op → candidate w = some (g (mBody w))) : Reads w (g f) := by
  obtain rfl := Option.some.inj h
  obtain ⟨h87, h76⟩ := mWord_reserved op f
  exact ⟨(hc _ (mWord_major op f)).trans (by rw [mBody_mWord]), rawClean_word (mWord_major op f) hk h87 h76 (extract_none _)⟩

theorem reads_xWord {f : XFields} {g : XFields → Instr} (h : some (xWord op f) = some w) (hk : lowReserved op.toNat = 13)
    (hc : ∀ w : Insn, w.extractLsb' 88 8 = op → candidate w = some (g (xBody w))) : Reads w (g f) := by
  obtain rfl := Option.some.inj h
  obtain ⟨h87, h76, hlow⟩ := xWord_reserved op f
  exact ⟨(hc _ (xWord_major op f)).trans (by rw [xBody_xWord]), rawClean_word (xWord_major op f) hk h87 h76 hlow⟩

theorem reads_tWord {f : TFields} {g : TFields → Instr} (h : some (tWord op f) = some w) (hk : lowReserved op.toNat = 3)
    (hc : ∀ w : Insn, w.extractLsb' 88 8 = op → candidate w = some (g (tBody w))) : Reads w (g f) := by
  obtain rfl := Option.some.inj h
  obtain ⟨h87, h76, hlow⟩ := tWord_reserved op f
  exact ⟨(hc _ (tWord_major op f)).trans (by rw [tBody_tWord]), rawClean_word (tWord_major op f) hk h87 h76 hlow⟩

theorem reads_pWord {f : PFields} {g : PFields → Instr} (h : some (pWord op f) = some w) (hk : lowReserved op.toNat = 20)
    (hc : ∀ w : Insn, w.extractLsb' 88 8 = op → candidate w = some (g (pBody w))) : Reads w (g f) := by
  obtain rfl := Option.some.inj h
  obtain ⟨h87, h76, hlow⟩ := pWord_reserved op f
  exact ⟨(hc _ (pWord_major op f)).trans (by rw [pBody_pWord]), rawClean_word (pWord_major op f) hk h87 h76 hlow⟩

theorem reads_sWord {f : SFields} {g : SFields → Instr} (h : some (sWord op f) = some w) (hk : lowReserved op.toNat = 27)
    (hc : ∀ w : Insn, w.extractLsb' 88 8 = op → candidate w = some (g (sBody w))) : Reads w (g f) := by
  obtain rfl := Option.some.inj h
  obtain ⟨h87, h76, hlow⟩ := sWord_reserved op f
  exact ⟨(hc _ (sWord_major op f)).trans (by rw [sBody_sWord]), rawClean_word (sWord_major op f) hk h87 h76 hlow⟩


end

/-! ## From a word to its instruction -/

section
variable {n : Nat} {w : Insn} {i j : Instr}

theorem ofNat_major {op : BitVec 8} (hop : op.toNat = n) : BitVec.ofNat 8 n = op := by
  rw [← hop, BitVec.ofNat_toNat, BitVec.setWidth_eq]

theorem encode_of_cBody (hw : rawClean w = true) (hop : (w.extractLsb' 88 8).toNat = n) (h : some j = some i)
    (hj : encode j = some (cWord (BitVec.ofNat 8 n) (cBody w))) : encode i = some w := by
  obtain ⟨h87, h76, -⟩ := rawClean_iff.mp hw
  rw [← Option.some.inj h, hj, ofNat_major hop, cWord_cBody w h87 h76]

theorem encode_of_vBody (hw : rawClean w = true) (hop : (w.extractLsb' 88 8).toNat = n) (h : some j = some i)
    (hj : encode j = some (vWord (BitVec.ofNat 8 n) (vBody w))) : encode i = some w := by
  obtain ⟨h87, h76, -⟩ := rawClean_iff.mp hw
  rw [← Option.some.inj h, hj, ofNat_major hop, vWord_vBody w h87 h76]

theorem encode_of_mBody (hw : rawClean w = true) (hop : (w.extractLsb' 88 8).toNat = n) (h : some j = some i)
    (hj : encode j = some (mWord (BitVec.ofNat 8 n) (mBody w))) : encode i = some w := by
  obtain ⟨h87, h76, -⟩ := rawClean_iff.mp hw
  rw [← Option.some.inj h, hj, ofNat_major hop, mWord_mBody w h87 h76]

theorem encode_of_xBody (hw : rawClean w = true) (hop : (w.extractLsb' 88 8).toNat = n) (hk : lowReserved n = 13) (h : some j = some i)
    (hj : encode j = some (xWord (BitVec.ofNat 8 n) (xBody w))) : encode i = some w := by
  obtain ⟨h87, h76, hlow⟩ := rawClean_iff.mp hw
  rw [← Option.some.inj h, hj, ofNat_major hop, xWord_xBody w h87 h76 (hlow _ (hop ▸ hk))]

theorem encode_of_tBody (hw : rawClean w = true) (hop : (w.extractLsb' 88 8).toNat = n) (hk : lowReserved n = 3) (h : some j = some i)
    (hj : encode j = some (tWord (BitVec.ofNat 8 n) (tBody w))) : encode i = some w := by
  obtain ⟨h87, h76, hlow⟩ := rawClean_iff.mp hw
  rw [← Option.some.inj h, hj, ofNat_major hop, tWord_tBody w h87 h76 (hlow _ (hop ▸ hk))]

theorem encode_of_pBody (hw : rawClean w = true) (hop : (w.extractLsb' 88 8).toNat = n) (hk : lowReserved n = 20) (h : some j = some i)
    (hj : encode j = some (pWord (BitVec.ofNat 8 n) (pBody w))) : encode i = some w := by
  obtain ⟨h87, h76, hlow⟩ := rawClean_iff.mp hw
  rw [← Option.some.inj h, hj, ofNat_major hop, pWord_pBody w h87 h76 (hlow _ (hop ▸ hk))]

theorem encode_of_sBody (hw : rawClean w = true) (hop : (w.extractLsb' 88 8).toNat = n) (hk : lowReserved n = 27) (h : some j = some i)
    (hj : encode j = some (sWord (BitVec.ofNat 8 n) (sBody w))) : encode i = some w := by
  obtain ⟨h87, h76, hlow⟩ := rawClean_iff.mp hw
  rw [← Option.some.inj h, hj, ofNat_major hop, sWord_sBody w h87 h76 (hlow _ (hop ▸ hk))]


end

theorem encode_cctlOf (f : MFields) : encode (cctlOf f) = some (mWord 0x98 f) := by
  unfold cctlOf
  split_ifs <;> rfl

theorem encode_swriteOf (f : SFields) : encode (swriteOf f) = some (sWord 0xE1 f) := by
  unfold swriteOf
  split_ifs <;> rfl

theorem encode_ctxsw (f : SFields) : encode (if f.sub = 0 then .ctxswReset f else .ctxswSave f) = some (sWord 0xE4 f) := by
  split_ifs <;> rfl

theorem encode_testOf (f : SFields) : encode (testOf f) = some (sWord 0xE5 f) := by
  unfold testOf
  split_ifs <;> rfl

/-- A word that is read as an instruction is the word of that instruction. The arms that choose by further bits stand first. -/
theorem Reads.encode {w : Insn} {i : Instr} (h : Reads w i) : encode i = some w := by
  obtain ⟨hc, hw⟩ := h
  unfold candidate at hc
  split at hc
  case h_95 hop => exact encode_of_mBody hw hop hc (encode_cctlOf _)
  case h_127 hop => exact encode_of_sBody hw hop rfl hc (encode_swriteOf _)
  case h_130 hop => exact encode_of_sBody hw hop rfl hc (encode_ctxsw _)
  case h_131 hop => exact encode_of_sBody hw hop rfl hc (encode_testOf _)
  case h_132 => cases hc
  iterate 15 next hop => exact encode_of_cBody hw hop hc rfl
  iterate 71 next hop => exact encode_of_vBody hw hop hc rfl
  iterate 8 next hop => exact encode_of_mBody hw hop hc rfl
  iterate 4 next hop => exact encode_of_mBody hw hop hc rfl
  iterate 3 next hop => exact encode_of_xBody hw hop rfl hc rfl
  iterate 2 next hop => exact encode_of_mBody hw hop hc rfl
  iterate 7 next hop => exact encode_of_xBody hw hop rfl hc rfl
  iterate 1 next hop => exact encode_of_mBody hw hop hc rfl
  iterate 5 next hop => exact encode_of_tBody hw hop rfl hc rfl
  iterate 2 next hop => exact encode_of_pBody hw hop rfl hc rfl
  iterate 1 next hop => exact encode_of_tBody hw hop rfl hc rfl
  iterate 5 next hop => exact encode_of_vBody hw hop hc rfl
  all_goals exact encode_of_sBody hw ‹_› rfl hc rfl

/-! ## Instructions that share a major opcode (R144, R214, R228, R454) -/

theorem cctl_sub {f : MFields} {op : BitVec 9} (h : (cctlChecks f op).sub = true) : f.dat &&& 7#9 = op := by
  simp only [cctlChecks, Bool.and_eq_true, beq_iff_eq] at h
  exact h.2

theorem swriteOf_eq_swrite {f : SFields} (h : (Instr.swrite f).checks.sub = true) : swriteOf f = .swrite f := by
  have hsr : (f.sub == 0 && srAssigned f.sr && f.sr != 8 && f.sr != 5) = true := h
  simp only [Bool.and_eq_true, bne_iff_ne] at hsr
  obtain ⟨⟨-, h8⟩, h5⟩ := hsr
  rw [swriteOf, if_neg h8, if_neg h5]

theorem swriteOf_eq_swriteRng {f : SFields} (h : (Instr.swriteRng f).checks.sub = true) : swriteOf f = .swriteRng f := by
  have hsr : (f.sub == 0 && f.sr == 8) = true := h
  simp only [Bool.and_eq_true, beq_iff_eq] at hsr
  simp [swriteOf, hsr]

theorem swriteOf_eq_swriteLease {f : SFields} (h : (Instr.swriteLease f).checks.sub = true) : swriteOf f = .swriteLease f := by
  have hsr : (f.sub == 0 && f.sr == 5) = true := h
  simp only [Bool.and_eq_true, beq_iff_eq] at hsr
  simp [swriteOf, hsr]

theorem testOf_eq_testInj {f : SFields} (h : (Instr.testInj f).checks.sub = true) : testOf f = .testInj f := by
  have hsub : (f.sub == 2 || f.sub == 6) = true := h
  simp only [Bool.or_eq_true, beq_iff_eq] at hsub
  rcases hsub with hsub | hsub <;> simp [testOf, hsub]

/-- The cache-control operation of a word, where its fields name it. -/
theorem reads_cctl {w : Insn} {f : MFields} {i : Instr} (h : some (mWord 0x98 f) = some w) (hi : cctlOf f = i) : Reads w i := by
  subst hi
  exact reads_mWord h rfl fun w hw => by unfold candidate; generalize w.extractLsb' 88 8 = o at hw ⊢; subst hw; rfl

theorem reads_swrite {w : Insn} {f : SFields} {i : Instr} (h : some (sWord 0xE1 f) = some w) (hi : swriteOf f = i) : Reads w i := by
  subst hi
  exact reads_sWord h rfl fun w hw => by unfold candidate; generalize w.extractLsb' 88 8 = o at hw ⊢; subst hw; rfl

theorem reads_ctxsw {w : Insn} {f : SFields} {i : Instr} (h : some (sWord 0xE4 f) = some w)
    (hi : (if f.sub = 0 then Instr.ctxswReset f else .ctxswSave f) = i) : Reads w i := by
  subst hi
  exact reads_sWord (g := fun f => if f.sub = 0 then Instr.ctxswReset f else .ctxswSave f) h rfl fun w hw => by unfold candidate; generalize w.extractLsb' 88 8 = o at hw ⊢; subst hw; rfl

theorem reads_test {w : Insn} {f : SFields} {i : Instr} (h : some (sWord 0xE5 f) = some w) (hi : testOf f = i) : Reads w i := by
  subst hi
  exact reads_sWord h rfl fun w hw => by unfold candidate; generalize w.extractLsb' 88 8 = o at hw ⊢; subst hw; rfl

/-- The word of an instruction is read as it, where its SUB code is one of its opcode's. -/
theorem reads_of_encode {i : Instr} {w : Insn} (h : encode i = some w) (hsub : i.checks.sub = true) : Reads w i := by
  unfold encode at h
  split at h
  case h_95 f => exact reads_cctl h (by simp [cctlOf, cctl_sub hsub])
  case h_96 f => exact reads_cctl h (by simp [cctlOf, cctl_sub hsub])
  case h_97 f => exact reads_cctl h (by simp [cctlOf, cctl_sub hsub])
  case h_98 f => exact reads_cctl h (by simp [cctlOf, cctl_sub hsub])
  case h_99 f => exact reads_cctl h (by simp [cctlOf, cctl_sub hsub])
  case h_100 f => exact reads_cctl h (by simp [cctlOf, cctl_sub hsub])
  iterate 15 next f => exact reads_cWord h rfl fun w hw => by unfold candidate; generalize w.extractLsb' 88 8 = o at hw ⊢; subst hw; rfl
  iterate 71 next f => exact reads_vWord h rfl fun w hw => by unfold candidate; generalize w.extractLsb' 88 8 = o at hw ⊢; subst hw; rfl
  iterate 8 next f => exact reads_mWord h rfl fun w hw => by unfold candidate; generalize w.extractLsb' 88 8 = o at hw ⊢; subst hw; rfl
  iterate 4 next f => exact reads_mWord h rfl fun w hw => by unfold candidate; generalize w.extractLsb' 88 8 = o at hw ⊢; subst hw; rfl
  iterate 3 next f => exact reads_xWord h rfl fun w hw => by unfold candidate; generalize w.extractLsb' 88 8 = o at hw ⊢; subst hw; rfl
  iterate 2 next f => exact reads_mWord h rfl fun w hw => by unfold candidate; generalize w.extractLsb' 88 8 = o at hw ⊢; subst hw; rfl
  iterate 7 next f => exact reads_xWord h rfl fun w hw => by unfold candidate; generalize w.extractLsb' 88 8 = o at hw ⊢; subst hw; rfl
  iterate 1 next f => exact reads_mWord h rfl fun w hw => by unfold candidate; generalize w.extractLsb' 88 8 = o at hw ⊢; subst hw; rfl
  iterate 5 next f => exact reads_tWord h rfl fun w hw => by unfold candidate; generalize w.extractLsb' 88 8 = o at hw ⊢; subst hw; rfl
  iterate 2 next f => exact reads_pWord h rfl fun w hw => by unfold candidate; generalize w.extractLsb' 88 8 = o at hw ⊢; subst hw; rfl
  iterate 1 next f => exact reads_tWord h rfl fun w hw => by unfold candidate; generalize w.extractLsb' 88 8 = o at hw ⊢; subst hw; rfl
  iterate 5 next f => exact reads_vWord h rfl fun w hw => by unfold candidate; generalize w.extractLsb' 88 8 = o at hw ⊢; subst hw; rfl
  iterate 1 next f => exact reads_sWord h rfl fun w hw => by unfold candidate; generalize w.extractLsb' 88 8 = o at hw ⊢; subst hw; rfl
  case h_132 f => exact reads_swrite h (swriteOf_eq_swrite hsub)
  case h_133 f => exact reads_swrite h (swriteOf_eq_swriteRng hsub)
  case h_134 f => exact reads_swrite h (swriteOf_eq_swriteLease hsub)
  iterate 2 next f => exact reads_sWord h rfl fun w hw => by unfold candidate; generalize w.extractLsb' 88 8 = o at hw ⊢; subst hw; rfl
  case h_137 f => exact reads_ctxsw h (if_pos (eq_of_beq hsub))
  case h_138 f => exact reads_ctxsw h (by simp [show f.sub = 1 from eq_of_beq hsub])
  case h_139 f => exact reads_test h (if_pos (eq_of_beq hsub))
  case h_140 f => exact reads_test h (by simp [testOf, show f.sub = 1 from eq_of_beq hsub])
  case h_141 f => exact reads_test h (testOf_eq_testInj hsub)
  case h_142 => cases h

/-- An instruction with a major opcode is no stagehand instruction. -/
theorem hRule_of_major {i : Instr} {op : BitVec 8} (h : i.major = some op) : hRule i = none := by
  unfold hRule
  split
  case h_32 => rfl
  all_goals cases h

theorem wf_column_iff {i : Instr} {op : BitVec 8} (h : i.major = some op) :
    i.wf = true ↔ i.checks.sub = true ∧ i.checks.rsv = true ∧ i.checks.comb = true := by
  have hcol : i.isColumn = true := by rw [Instr.isColumn, h]; rfl
  simp [Instr.wf, hRule_of_major h, hcol, and_assoc]

/-- What has a word has a major opcode. -/
theorem major_of_encode {i : Instr} {w : Insn} (h : encode i = some w) : ∃ op, i.major = some op := by
  unfold encode at h
  split at h
  case h_142 => cases h
  all_goals exact ⟨_, rfl⟩

/-- A column word decodes to an instruction when that instruction is well formed and the word is its encoding. -/
theorem decode_iff_encode (i : Instr) (w : Insn) : decode w = .ok i ↔ i.wf = true ∧ encode i = some w := by
  rw [decode_eq_ok_iff]
  constructor
  · rintro ⟨hc, hsub, hw, hrsv, hcomb⟩
    exact ⟨(wf_column_iff (candidate_major hc)).mpr ⟨hsub, hrsv, hcomb⟩, Reads.encode ⟨hc, hw⟩⟩
  · rintro ⟨hwf, he⟩
    obtain ⟨op, hop⟩ := major_of_encode he
    obtain ⟨hsub, hrsv, hcomb⟩ := (wf_column_iff hop).mp hwf
    obtain ⟨hc, hw⟩ := reads_of_encode he hsub
    exact ⟨hc, hsub, hw, hrsv, hcomb⟩

/-! ## The stagehand (R364-R366) -/

/-- One arm of the stagehand's opcode map: the arm's number is the opcode of the instruction it answers. -/
theorem hand_of_arm {i j : Instr} {op : BitVec 6} {f : HFields} {n : Nat} (h : some j = some i) (hop : op.toNat = n)
    (hj : j.hand = some (BitVec.ofNat 6 n, f)) : i.hand = some (op, f) := by
  obtain rfl := Option.some.inj h
  rw [hj, ← hop, BitVec.ofNat_toNat, BitVec.setWidth_eq]

/-- The opcode and the fields of a stagehand word name its instruction, and no other. -/
theorem handCandidate_eq_some_iff {w : HandInsn} {i : Instr} :
    handCandidate w = some i ↔ i.hand = some (w.extractLsb' 58 6, hBody w) := by
  constructor
  · intro h
    unfold handCandidate at h
    split at h
    case h_32 => cases h
    all_goals exact hand_of_arm h ‹_› rfl
  · intro h
    unfold Instr.hand at h
    split at h
    case h_32 => cases h
    all_goals
      obtain ⟨hop, rfl⟩ := Prod.mk.inj (Option.some.inj h)
      unfold handCandidate
      rw [← hop]
      rfl

/-- The stagehand instructions are those with a row in R365, for the same fields. -/
theorem hRule_of_hand {i : Instr} {op : BitVec 6} {f : HFields} (h : i.hand = some (op, f)) : ∃ r, hRule i = some (f, r) := by
  unfold Instr.hand at h
  split at h
  case h_32 => cases h
  all_goals
    obtain ⟨-, rfl⟩ := Prod.mk.inj (Option.some.inj h)
    exact ⟨_, rfl⟩

theorem decodeHand_eq_ok_iff {w : HandInsn} {i : Instr} :
    decodeHand w = .ok i ↔ i.hand = some (w.extractLsb' 58 6, hBody w) ∧ w.extractLsb' 32 8 = 0 ∧ i.wf = true := by
  rw [← handCandidate_eq_some_iff]
  cases hc : handCandidate w with
  | none => simp [decodeHand, hc]
  | some j =>
    obtain ⟨r, hr⟩ := hRule_of_hand (handCandidate_eq_some_iff.mp hc)
    have hwf : j.wf = r.ok (hBody w) := by rw [Instr.wf, hr]
    simp only [decodeHand, hc, hr, Bool.and_eq_true, beq_iff_eq, Option.some.injEq]
    constructor
    · intro h
      split at h
      · rename_i hok
        cases h
        exact ⟨rfl, hok.1, hwf.trans hok.2⟩
      · cases h
    · rintro ⟨rfl, hres, hok⟩
      rw [if_pos ⟨hres, hwf.symm.trans hok⟩]

theorem encodeHand_eq_some_iff {i : Instr} {w : HandInsn} :
    encodeHand i = some w ↔ i.hand = some (w.extractLsb' 58 6, hBody w) ∧ w.extractLsb' 32 8 = 0 := by
  rw [encodeHand, Option.map_eq_some_iff]
  constructor
  · rintro ⟨⟨op, f⟩, hi, rfl⟩
    exact ⟨by rw [handWord_major, hBody_handWord, hi], handWord_reserved op f⟩
  · rintro ⟨hi, hres⟩
    exact ⟨_, hi, handWord_hBody w hres⟩

/-- Settles O57: column words by their candidate, whose reserved bits are zero; stagehand words by their opcode and fields. -/
theorem decodeAndEncodeAgree : Obligations.DecodeAndEncodeAgree := by
  refine ⟨decode_iff_encode, fun i w => ?_⟩
  rw [decodeHand_eq_ok_iff, encodeHand_eq_some_iff]
  constructor
  · exact fun ⟨hi, hres, hwf⟩ => ⟨hwf, hi, hres⟩
  · exact fun ⟨hwf, hi, hres⟩ => ⟨hi, hres, hwf⟩

/-! ## Words that the spec writes out -/

/-- Settles O58: each word is the encoding of its instruction, which is well formed; the last has an unassigned major opcode. -/
theorem decodeWords : Obligations.DecodeWords := by
  refine ⟨?_, ?_, ?_, ?_, ?_, ?_, ?_, by decide⟩
  iterate 5 exact (decode_iff_encode _ _).mpr (by decide)
  all_goals exact (decodeAndEncodeAgree.2 _ _).mpr (by decide)

end Sys2Proof
end

section
/-! Proofs about every instruction that issues: it retires, is held or traps with the state as it was, or makes a state whose vaults' bytes
keep their canonical form. One lemma per issue, in the order of the model. -/

namespace Sys2Proof.Machine

/-- Where the issue makes a state of its own, the bytes of its vaults are in canonical form. -/
def Issue.keeps : Issue → Bool
  | .made t => t.vault.wf
  | _ => true

@[simp] theorem Issue.keeps_retire (d : Dev) : (Issue.retire d).keeps = true := rfl
@[simp] theorem Issue.keeps_hold (d : Dev) : (Issue.hold d).keeps = true := rfl
@[simp] theorem Issue.keeps_trap (t : TrapInfo) : (Issue.trap t).keeps = true := rfl
@[simp] theorem Issue.keeps_hinted (h : BitVec 7) (i : Issue) : (i.hinted h).keeps = i.keeps := by cases i <;> rfl

theorem keeps_ite (p : Prop) [Decidable p] (i j : Issue) (hi : i.keeps = true) (hj : j.keeps = true) :
    Issue.keeps (if p then i else j) = true := by
  split
  · exact hi
  · exact hj

/-- The shape of an issue's checks: the first trap ends it, else it goes on. -/
theorem keeps_checked (o : Option TrapInfo) (i : Issue) (hi : i.keeps = true) :
    Issue.keeps (match o with | some t => .trap t | none => i) = true := by
  cases o with
  | none => exact hi
  | some t => rfl

@[simp] theorem keeps_VCtx_finish (x : VCtx) (f : VFields) (us : List Use) (preds : Option TrapInfo)
    (own : List (Option TrapInfo)) (r : Result) (post : Dev → Dev) :
    Issue.keeps (VCtx.finish x f us preds own r post) = true := by
  unfold VCtx.finish
  repeat' split
  all_goals simp

@[simp] theorem keeps_VCtx_finishRange (x : VCtx) (f : VFields) (bounds : List (Option TrapInfo)) (us : List Use)
    (own : List (Option TrapInfo)) (rs : List Result) (post : Dev → Dev) :
    Issue.keeps (VCtx.finishRange x f bounds us own rs post) = true := by
  unfold VCtx.finishRange
  repeat' split
  all_goals simp

@[simp] theorem keeps_VCtx_finishPred (x : VCtx) (f : VFields) (us : List Use) (preds : Option TrapInfo) (bits : Mask) :
    Issue.keeps (VCtx.finishPred x f us preds bits) = true := by
  unfold VCtx.finishPred
  repeat' split
  all_goals simp

@[simp] theorem keeps_Dev_whole (d : Dev) (h : Head) (go : Unit → Issue) (hgo : ∀ a0, (go a0).keeps = true) :
    Issue.keeps (Dev.whole d h go) = true := by
  simp [Dev.whole, hgo, apply_ite Issue.keeps]

@[simp] theorem keeps_State_transfer (s : State) (pc : BitVec 48) (go : Dev → Issue) (hgo : ∀ a0, (go a0).keeps = true) :
    Issue.keeps (State.transfer s pc go) = true := by
  unfold State.transfer
  split
  all_goals simp [hgo]

@[simp] theorem keeps_Dev_withUni (d : Dev) (hi : Nat) (us : List Use) (own : List (Option TrapInfo)) (go : Unit → Issue)
    (hgo : ∀ a0, (go a0).keeps = true) :
    Issue.keeps (Dev.withUni d hi us own go) = true := by
  unfold Dev.withUni
  repeat' split
  all_goals simp [hgo, apply_ite Issue.keeps]

@[simp] theorem keeps_Dev_release (d : Dev) (m : BitVec 7) (go : Dev → Issue) (hgo : ∀ a0, (go a0).keeps = true) :
    Issue.keeps (Dev.release d m go) = true := by
  simp [Dev.release, hgo, apply_ite Issue.keeps]

@[simp] theorem keeps_intTwo (f : VFields) (s : State) (rule : ShapeRule) (g : Int → Int → Int) :
    Issue.keeps (intTwo f s rule g) = true := by
  simp [intTwo]

@[simp] theorem keeps_imadIssue (f : VFields) (s : State) : Issue.keeps (imadIssue f s) = true := by
  simp [imadIssue]

@[simp] theorem keeps_iabsIssue (f : VFields) (s : State) : Issue.keeps (iabsIssue f s) = true := by
  simp [iabsIssue]

@[simp] theorem keeps_idot4Issue (f : VFields) (s : State) : Issue.keeps (idot4Issue f s) = true := by
  simp [idot4Issue]

@[simp] theorem keeps_icmpIssue (f : VFields) (s : State) : Issue.keeps (icmpIssue f s) = true := by
  simp [icmpIssue]

@[simp] theorem keeps_plopIssue (f : VFields) (s : State) : Issue.keeps (plopIssue f s) = true := by
  simp [plopIssue]

@[simp] theorem keeps_selIssue (f : VFields) (s : State) : Issue.keeps (selIssue f s) = true := by
  simp [selIssue]

@[simp] theorem keeps_movIssue (f : VFields) (s : State) : Issue.keeps (movIssue f s) = true := by
  simp [movIssue]

@[simp] theorem keeps_movsIssue (f : VFields) (s : State) : Issue.keeps (movsIssue f s) = true := by
  simp [movsIssue]

@[simp] theorem keeps_twoWords (f : VFields) (s : State) (use : BitVec 5 → Src → Use) (rule : ShapeRule) (g : Word → Word → Word) :
    Issue.keeps (twoWords f s use rule g) = true := by
  simp [twoWords]

@[simp] theorem keeps_logicTwo (f : VFields) (s : State) (rule : ShapeRule) (g : Word → Word → Word) :
    Issue.keeps (logicTwo f s rule g) = true := by
  simp [logicTwo]

@[simp] theorem keeps_logicOne (f : VFields) (s : State) (tag : BitVec 5) (g : Word → Word) :
    Issue.keeps (logicOne f s tag g) = true := by
  simp [logicOne]

@[simp] theorem keeps_fieldThree (f : VFields) (s : State) (g : Word → Word → Word → Word) : Issue.keeps (fieldThree f s g) = true := by
  simp [fieldThree]

@[simp] theorem keeps_rawThree (f : VFields) (s : State) (g : Word → Word → Word → Word) : Issue.keeps (rawThree f s g) = true := by
  simp [rawThree]

@[simp] theorem keeps_floatIssue (f : VFields) (x : VCtx) (ins : List FloatIn) (t : BitVec 5) (mayReplay : Bool) (g : Exact)
    (fin : Nat → Word) :
    Issue.keeps (floatIssue f x ins t mayReplay g fin) = true := by
  unfold floatIssue
  dsimp only
  repeat' split
  all_goals simp

@[simp] theorem keeps_floatTwo (f : VFields) (s : State) (mayReplay : Bool) (op : FVal → FVal → FVal) :
    Issue.keeps (floatTwo f s mayReplay op) = true := by
  simp [floatTwo]

@[simp] theorem keeps_ffmaIssue (f : VFields) (s : State) : Issue.keeps (ffmaIssue f s) = true := by
  simp [ffmaIssue]

@[simp] theorem keeps_fdot2Issue (f : VFields) (s : State) : Issue.keeps (fdot2Issue f s) = true := by
  simp [fdot2Issue]

@[simp] theorem keeps_fsqrtIssue (f : VFields) (s : State) : Issue.keeps (fsqrtIssue f s) = true := by
  simp [fsqrtIssue]

@[simp] theorem keeps_minMaxIssue (f : VFields) (s : State) (max_ : Bool) : Issue.keeps (minMaxIssue f s max_) = true := by
  simp [minMaxIssue]

@[simp] theorem keeps_fcmpIssue (f : VFields) (s : State) : Issue.keeps (fcmpIssue f s) = true := by
  simp [fcmpIssue]

@[simp] theorem keeps_fclassIssue (f : VFields) (s : State) : Issue.keeps (fclassIssue f s) = true := by
  simp [fclassIssue]

@[simp] theorem keeps_sfuIssue (f : VFields) (s : State) (fn : Config.Sfu) : Issue.keeps (sfuIssue f s fn) = true := by
  simp [sfuIssue]

@[simp] theorem keeps_State_withRecord (s : State) (idx : Nat) (acc : AccKind) (go : Dev → Option (Option TRec) → Issue)
    (hgo : ∀ a0 a1, (go a0 a1).keeps = true) :
    Issue.keeps (State.withRecord s idx acc go) = true := by
  unfold State.withRecord
  repeat' split
  all_goals simp [hgo]

@[simp] theorem keeps_Dev_afterAcquire (d : Dev) (go : Unit → Issue) (hgo : ∀ a0, (go a0).keeps = true) :
    Issue.keeps (Dev.afterAcquire d go) = true := by
  simp [Dev.afterAcquire, hgo, apply_ite Issue.keeps]

@[simp] theorem keeps_VCtx_idle (x : VCtx) (checks : List (Option TrapInfo)) (us : List Use) :
    Issue.keeps (VCtx.idle x checks us) = true := by
  unfold VCtx.idle
  repeat' split
  all_goals simp

@[simp] theorem keeps_ldIssue (f : MFields) (s : State) (u : Bool) : Issue.keeps (ldIssue f s u) = true := by
  unfold ldIssue
  dsimp only
  repeat'
    (first | refine keeps_State_withRecord _ _ _ _ fun _ _ => ?_ | refine keeps_Dev_afterAcquire _ _ fun _ => ?_ | split)
  all_goals simp

@[simp] theorem keeps_stIssue (f : MFields) (s : State) (u : Bool) : Issue.keeps (stIssue f s u) = true := by
  unfold stIssue
  dsimp only
  repeat'
    (first | refine keeps_Dev_release _ _ _ fun _ => ?_ | refine keeps_State_withRecord _ _ _ _ fun _ _ => ?_
           | refine keeps_Dev_afterAcquire _ _ fun _ => ?_ | split)
  all_goals simp

@[simp] theorem keeps_ldsIssue (f : MFields) (s : State) : Issue.keeps (ldsIssue f s) = true := by
  unfold ldsIssue
  dsimp only
  repeat' (first | refine keeps_Dev_afterAcquire _ _ fun _ => ?_ | split)
  all_goals simp

@[simp] theorem keeps_stsIssue (f : MFields) (s : State) : Issue.keeps (stsIssue f s) = true := by
  unfold stsIssue
  dsimp only
  repeat' (first | refine keeps_Dev_afterAcquire _ _ fun _ => ?_ | split)
  all_goals simp

@[simp] theorem keeps_ldtIssue (f : MFields) (s : State) : Issue.keeps (ldtIssue f s) = true := by
  unfold ldtIssue
  refine keeps_ite _ _ _ (keeps_VCtx_idle _ _ _) (keeps_State_withRecord _ _ _ _ fun _ _ => ?_)
  refine keeps_ite _ _ _ rfl (keeps_checked _ _ (keeps_Dev_afterAcquire _ _ fun _ => ?_))
  exact keeps_ite _ _ _ rfl (keeps_ite _ _ _ rfl rfl)

@[simp] theorem keeps_prefIssue (f : MFields) (s : State) : Issue.keeps (prefIssue f s) = true := by
  unfold prefIssue
  dsimp only
  repeat'
    (first | refine keeps_State_withRecord _ _ _ _ fun _ _ => ?_ | refine keeps_Dev_afterAcquire _ _ fun _ => ?_ | split)
  all_goals simp

@[simp] theorem keeps_cctlAt (f : MFields) (s : State) (go : VCtx → List (Nat × Nat) → Issue) (hgo : ∀ a0 a1, (go a0 a1).keeps = true) :
    Issue.keeps (cctlAt f s go) = true := by
  unfold cctlAt
  dsimp only
  repeat' split
  all_goals simp [hgo]

@[simp] theorem keeps_cctlStore (f : MFields) (s : State) (op : BitVec 3) : Issue.keeps (cctlStore f s op) = true := by
  simp [cctlStore, apply_ite Issue.keeps]

@[simp] theorem keeps_unpinIssue (f : MFields) (s : State) : Issue.keeps (unpinIssue f s) = true := by
  simp [unpinIssue, apply_ite Issue.keeps]

@[simp] theorem keeps_dropIssue (f : MFields) (s : State) : Issue.keeps (dropIssue f s) = true := by
  unfold dropIssue
  repeat' (first | refine keeps_cctlAt _ _ _ fun _ _ => ?_ | split)
  all_goals simp

@[simp] theorem keeps_dropallIssue (f : MFields) (s : State) : Issue.keeps (dropallIssue f s) = true := by
  unfold dropallIssue
  dsimp only
  repeat' (first | refine keeps_Dev_afterAcquire _ _ fun _ => ?_ | split)
  all_goals simp

@[simp] theorem keeps_atomIssue (f : MFields) (s : State) (acc : AccKind) (right : TRec → Bool)
    (go : VCtx → Dev → List LaneAcc → Issue) (hgo : ∀ a0 a1 a2, (go a0 a1 a2).keeps = true) :
    Issue.keeps (atomIssue f s acc right go) = true := by
  unfold atomIssue
  dsimp only
  repeat'
    (first | refine keeps_State_withRecord _ _ _ _ fun _ _ => ?_ | refine keeps_Dev_afterAcquire _ _ fun _ => ?_ | split)
  all_goals simp [hgo]

@[simp] theorem keeps_atomStart (s : State) (f : MFields) (kind : OpKind) (acq : Bool) (act : Mask) (ls : List LaneAcc) (d : Dev) :
    Issue.keeps (atomStart s f kind acq act ls d) = true := by
  simp [atomStart, apply_ite Issue.keeps]

@[simp] theorem keeps_fenceIssue (f : MFields) (s : State) : Issue.keeps (fenceIssue f s) = true := by
  simp [fenceIssue, apply_ite Issue.keeps]

@[simp] theorem keeps_afterCheck (t : Option TrapInfo) (d : Dev) : Issue.keeps (afterCheck t d) = true := by
  unfold afterCheck
  split
  all_goals simp

@[simp] theorem keeps_barGo (d : Dev) (b count form : Nat) (m : BitVec 7) (pois : Option TrapInfo) :
    Issue.keeps (barGo d b count form m pois) = true := by
  unfold barGo
  dsimp only
  repeat' (first | refine keeps_Dev_release _ _ _ fun _ => ?_ | split)
  all_goals simp

@[simp] theorem keeps_barIssue (f : XFields) (s : State) : Issue.keeps (barIssue f s) = true := by
  unfold barIssue
  dsimp only
  repeat' (first | refine keeps_Dev_whole _ _ _ fun _ => ?_ | split)
  all_goals simp

@[simp] theorem keeps_bardIssue (f : XFields) (s : State) : Issue.keeps (bardIssue f s) = true := by
  simp [bardIssue, apply_ite Issue.keeps]

@[simp] theorem keeps_VCtx_readUni (x : VCtx) (bounds : List (Option TrapInfo)) (us : List Use) (own : List (Option TrapInfo))
    (go : Unit → Issue) (hgo : ∀ a0, (go a0).keeps = true) :
    Issue.keeps (VCtx.readUni x bounds us own go) = true := by
  unfold VCtx.readUni
  repeat' split
  all_goals simp [hgo]

@[simp] theorem keeps_VCtx_withUni (x : VCtx) (bounds : List (Option TrapInfo)) (us : List Use) (own : List (Option TrapInfo))
    (go : Unit → Issue) (hgo : ∀ a0, (go a0).keeps = true) :
    Issue.keeps (VCtx.withUni x bounds us own go) = true := by
  simp [VCtx.withUni, hgo]

@[simp] theorem keeps_xchIssue (f : XFields) (s : State) : Issue.keeps (xchIssue f s) = true := by
  unfold xchIssue
  dsimp only
  repeat' (first | refine keeps_Dev_whole _ _ _ fun _ => ?_ | refine keeps_Dev_afterAcquire _ _ fun _ => ?_ | split)
  all_goals simp

@[simp] theorem keeps_xmemIssue (f : XFields) (s : State) (put : Bool) (go : VCtx → Src → Src → List Src → Nat → Issue)
    (hgo : ∀ a0 a1 a2 a3 a4, (go a0 a1 a2 a3 a4).keeps = true) :
    Issue.keeps (xmemIssue f s put go) = true := by
  unfold xmemIssue
  dsimp only
  repeat' split
  all_goals simp [hgo]

@[simp] theorem keeps_xgetIssue (f : XFields) (s : State) : Issue.keeps (xgetIssue f s) = true := by
  simp [xgetIssue, apply_ite Issue.keeps]

@[simp] theorem keeps_xputIssue (f : XFields) (s : State) : Issue.keeps (xputIssue f s) = true := by
  simp [xputIssue, apply_ite Issue.keeps]

@[simp] theorem keeps_rbindIssue (f : XFields) (s : State) : Issue.keeps (rbindIssue f s) = true := by
  unfold rbindIssue
  dsimp only
  repeat'
    (first | refine keeps_Dev_whole _ _ _ fun _ => ?_ | refine keeps_Dev_withUni _ _ _ _ _ fun _ => ?_
           | refine keeps_Dev_afterAcquire _ _ fun _ => ?_ | refine keeps_VCtx_withUni _ _ _ _ _ fun _ => ?_ | split)
  all_goals simp

@[simp] theorem keeps_rwaitIssue (f : XFields) (s : State) : Issue.keeps (rwaitIssue f s) = true := by
  unfold rwaitIssue
  dsimp only
  repeat'
    (first | refine keeps_Dev_whole _ _ _ fun _ => ?_ | refine keeps_Dev_withUni _ _ _ _ _ fun _ => ?_
           | refine keeps_Dev_afterAcquire _ _ fun _ => ?_ | refine keeps_VCtx_withUni _ _ _ _ _ fun _ => ?_ | split)
  all_goals simp

@[simp] theorem keeps_radvIssue (f : XFields) (s : State) : Issue.keeps (radvIssue f s) = true := by
  unfold radvIssue
  dsimp only
  repeat'
    (first | refine keeps_Dev_whole _ _ _ fun _ => ?_ | refine keeps_Dev_withUni _ _ _ _ _ fun _ => ?_
           | refine keeps_Dev_afterAcquire _ _ fun _ => ?_ | refine keeps_VCtx_withUni _ _ _ _ _ fun _ => ?_ | split)
  all_goals simp

@[simp] theorem keeps_msgIssue (f : XFields) (s : State) : Issue.keeps (msgIssue f s) = true := by
  unfold msgIssue
  dsimp only
  repeat'
    (first | refine keeps_Dev_whole _ _ _ fun _ => ?_ | refine keeps_Dev_withUni _ _ _ _ _ fun _ => ?_
           | refine keeps_Dev_release _ _ _ fun _ => ?_ | refine keeps_Dev_afterAcquire _ _ fun _ => ?_
           | refine keeps_VCtx_withUni _ _ _ _ _ fun _ => ?_ | split)
  all_goals simp

@[simp] theorem keeps_watchIssue (f : MFields) (s : State) : Issue.keeps (watchIssue f s) = true := by
  unfold watchIssue
  dsimp only
  repeat'
    (first | refine keeps_Dev_whole _ _ _ fun _ => ?_ | refine keeps_Dev_withUni _ _ _ _ _ fun _ => ?_
           | refine keeps_Dev_afterAcquire _ _ fun _ => ?_ | refine keeps_VCtx_withUni _ _ _ _ _ fun _ => ?_ | split)
  all_goals simp

@[simp] theorem keeps_ptrIssue (f : VFields) (s : State) (g : BitVec 64 → Word → BitVec 64) : Issue.keeps (ptrIssue f s g) = true := by
  simp [ptrIssue]

@[simp] theorem keeps_cgetIssue (f : VFields) (s : State) : Issue.keeps (cgetIssue f s) = true := by
  unfold cgetIssue
  dsimp only
  repeat' split
  all_goals simp

@[simp] theorem keeps_tidxIssue (f : VFields) (s : State) : Issue.keeps (tidxIssue f s) = true := by
  simp [tidxIssue]

@[simp] theorem keeps_Dev_wholeWarp (d : Dev) (h : Head) (go : Unit → Issue) (hgo : ∀ a0, (go a0).keeps = true) :
    Issue.keeps (Dev.wholeWarp d h go) = true := by
  simp [Dev.wholeWarp, hgo, apply_ite Issue.keeps]

@[simp] theorem keeps_State_tileIssue (s : State) (h : Head) (q : Nat) (us : List TileUse) (bounds own : List (Option TrapInfo))
    (o : TileOp) :
    Issue.keeps (State.tileIssue s h q us bounds own o) = true := by
  unfold State.tileIssue
  dsimp only
  repeat'
    (first | refine keeps_Dev_afterAcquire _ _ fun _ => ?_ | refine keeps_Dev_wholeWarp _ _ _ fun _ => ?_ | split)
  all_goals simp

@[simp] theorem keeps_Dev_sumRight (d : Dev) (sum : Bool) (go : Unit → Issue) (hgo : ∀ a0, (go a0).keeps = true) :
    Issue.keeps (Dev.sumRight d sum go) = true := by
  simp [Dev.sumRight, hgo, apply_ite Issue.keeps]

@[simp] theorem keeps_mmaIssue (i : Instr) (f : TFields) (s : State) : Issue.keeps (mmaIssue i f s) = true := by
  simp [mmaIssue]

@[simp] theorem keeps_mldbIssue (f : TFields) (s : State) : Issue.keeps (mldbIssue f s) = true := by
  simp [mldbIssue]

@[simp] theorem keeps_mclrIssue (f : TFields) (s : State) : Issue.keeps (mclrIssue f s) = true := by
  simp [mclrIssue]

@[simp] theorem keeps_mldaIssue (f : TFields) (s : State) : Issue.keeps (mldaIssue f s) = true := by
  simp [mldaIssue]

@[simp] theorem keeps_drainIssue (i : Instr) (f : PFields) (adj : Bool) (s : State) : Issue.keeps (drainIssue i f adj s) = true := by
  simp [drainIssue]

@[simp] theorem keeps_cpyIssue (f : VFields) (s : State) : Issue.keeps (cpyIssue f s) = true := by
  unfold cpyIssue
  refine keeps_Dev_whole _ _ _ fun _ => keeps_ite _ _ _ rfl (keeps_checked _ _ ?_)
  refine keeps_State_withRecord _ _ _ _ fun _ _ => keeps_State_withRecord _ _ _ _ fun _ _ => ?_
  exact keeps_checked _ _ (keeps_Dev_afterAcquire _ _ fun _ => keeps_ite _ _ _ rfl rfl)

@[simp] theorem keeps_cueIssue (f : VFields) (s : State) : Issue.keeps (cueIssue f s) = true := by
  unfold cueIssue
  dsimp only
  repeat'
    (first | refine keeps_Dev_whole _ _ _ fun _ => ?_ | refine keeps_Dev_withUni _ _ _ _ _ fun _ => ?_
           | refine keeps_Dev_release _ _ _ fun _ => ?_ | refine keeps_Dev_afterAcquire _ _ fun _ => ?_
           | refine keeps_VCtx_withUni _ _ _ _ _ fun _ => ?_ | split)
  all_goals simp

@[simp] theorem keeps_gpatchIssue (f : VFields) (s : State) : Issue.keeps (gpatchIssue f s) = true := by
  unfold gpatchIssue
  dsimp only
  repeat'
    (first | refine keeps_Dev_whole _ _ _ fun _ => ?_ | refine keeps_Dev_withUni _ _ _ _ _ fun _ => ?_
           | refine keeps_Dev_afterAcquire _ _ fun _ => ?_ | refine keeps_VCtx_withUni _ _ _ _ _ fun _ => ?_ | split)
  all_goals simp

@[simp] theorem keeps_State_nmrunGo (s : State) (p : BitVec 64) : Issue.keeps (State.nmrunGo s p) = true := by
  unfold State.nmrunGo
  dsimp only
  repeat' split
  all_goals simp

@[simp] theorem keeps_nmrunIssue (f : VFields) (s : State) : Issue.keeps (nmrunIssue f s) = true := by
  unfold nmrunIssue
  dsimp only
  repeat'
    (first | refine keeps_Dev_whole _ _ _ fun _ => ?_ | refine keeps_Dev_withUni _ _ _ _ _ fun _ => ?_
           | refine keeps_Dev_afterAcquire _ _ fun _ => ?_ | refine keeps_VCtx_withUni _ _ _ _ _ fun _ => ?_ | split)
  all_goals simp

@[simp] theorem keeps_Dev_privileged (d : Dev) (needs : Bool) (einfo : BitVec 64) (go : Unit → Issue) (hgo : ∀ a0, (go a0).keeps = true) :
    Issue.keeps (Dev.privileged d needs einfo go) = true := by
  simp [Dev.privileged, hgo, apply_ite Issue.keeps]

@[simp] theorem keeps_sreadIssue (f : SFields) (s : State) : Issue.keeps (sreadIssue f s) = true := by
  unfold sreadIssue
  dsimp only
  repeat' (first | refine keeps_Dev_privileged _ _ _ _ fun _ => ?_ | split)
  all_goals simp

@[simp] theorem keeps_swriteIssue (f : SFields) (s : State) : Issue.keeps (swriteIssue f s) = true := by
  unfold swriteIssue
  dsimp only
  repeat'
    (first | refine keeps_Dev_whole _ _ _ fun _ => ?_ | refine keeps_Dev_withUni _ _ _ _ _ fun _ => ?_
           | refine keeps_VCtx_withUni _ _ _ _ _ fun _ => ?_ | refine keeps_Dev_privileged _ _ _ _ fun _ => ?_ | split)
  all_goals simp

@[simp] theorem keeps_swriteRngIssue (f : SFields) (s : State) : Issue.keeps (swriteRngIssue f s) = true := by
  unfold swriteRngIssue
  dsimp only
  repeat' (first | refine keeps_Dev_whole _ _ _ fun _ => ?_ | split)
  all_goals simp

@[simp] theorem keeps_eretIssue (f : SFields) (s : State) : Issue.keeps (eretIssue f s) = true := by
  unfold eretIssue
  dsimp only
  repeat'
    (first | refine keeps_Dev_whole _ _ _ fun _ => ?_ | refine keeps_Dev_withUni _ _ _ _ _ fun _ => ?_
           | refine keeps_VCtx_withUni _ _ _ _ _ fun _ => ?_ | refine keeps_Dev_privileged _ _ _ _ fun _ => ?_ | split)
  all_goals simp

@[simp] theorem keeps_tlbiIssue (f : SFields) (s : State) : Issue.keeps (tlbiIssue f s) = true := by
  unfold tlbiIssue
  dsimp only
  repeat'
    (first | refine keeps_Dev_whole _ _ _ fun _ => ?_ | refine keeps_Dev_withUni _ _ _ _ _ fun _ => ?_
           | refine keeps_VCtx_withUni _ _ _ _ _ fun _ => ?_ | refine keeps_Dev_privileged _ _ _ _ fun _ => ?_ | split)
  all_goals simp

@[simp] theorem keeps_ctxswSaveIssue (f : SFields) (s : State) : Issue.keeps (ctxswSaveIssue f s) = true := by
  unfold ctxswSaveIssue
  dsimp only
  repeat'
    (first | refine keeps_Dev_whole _ _ _ fun _ => ?_ | refine keeps_VCtx_readUni _ _ _ _ _ fun _ => ?_
           | refine keeps_Dev_privileged _ _ _ _ fun _ => ?_ | split)
  all_goals simp

@[simp] theorem keeps_testReqIssue (f : SFields) (s : State) : Issue.keeps (testReqIssue f s) = true := by
  unfold testReqIssue
  dsimp only
  repeat'
    (first | refine keeps_Dev_whole _ _ _ fun _ => ?_ | refine keeps_VCtx_readUni _ _ _ _ _ fun _ => ?_
           | refine keeps_Dev_privileged _ _ _ _ fun _ => ?_ | split)
  all_goals simp

@[simp] theorem keeps_testResIssue (f : SFields) (s : State) : Issue.keeps (testResIssue f s) = true := by
  unfold testResIssue
  dsimp only
  repeat'
    (first | refine keeps_Dev_whole _ _ _ fun _ => ?_ | refine keeps_VCtx_readUni _ _ _ _ _ fun _ => ?_
           | refine keeps_Dev_privileged _ _ _ _ fun _ => ?_ | split)
  all_goals simp

@[simp] theorem keeps_testInjIssue (f : SFields) (s : State) : Issue.keeps (testInjIssue f s) = true := by
  unfold testInjIssue
  dsimp only
  repeat'
    (first | refine keeps_Dev_whole _ _ _ fun _ => ?_ | refine keeps_VCtx_readUni _ _ _ _ _ fun _ => ?_
           | refine keeps_Dev_privileged _ _ _ _ fun _ => ?_ | split)
  all_goals simp

@[simp] theorem keeps_nopIssue (s : State) : Issue.keeps (nopIssue s) = true := by
  simp [nopIssue]

@[simp] theorem keeps_braGo (d : Dev) (e t : Mask) (tgt j : BitVec 48) : Issue.keeps (braGo d e t tgt j) = true := by
  simp [braGo, apply_ite Issue.keeps]

@[simp] theorem keeps_braIssue (f : CFields) (s : State) : Issue.keeps (braIssue f s) = true := by
  simp [braIssue]

@[simp] theorem keeps_brxIssue (f : CFields) (s : State) : Issue.keeps (brxIssue f s) = true := by
  unfold brxIssue
  dsimp only
  repeat'
    (first | refine keeps_Dev_whole _ _ _ fun _ => ?_ | refine keeps_State_transfer _ _ _ fun _ => ?_
           | refine keeps_Dev_withUni _ _ _ _ _ fun _ => ?_ | refine keeps_VCtx_withUni _ _ _ _ _ fun _ => ?_ | split)
  all_goals simp

@[simp] theorem keeps_callIssue (f : CFields) (s : State) : Issue.keeps (callIssue f s) = true := by
  simp [callIssue, apply_ite Issue.keeps]

@[simp] theorem keeps_State_popRet (s : State) : Issue.keeps (State.popRet s) = true := by
  simp [State.popRet, apply_ite Issue.keeps]

@[simp] theorem keeps_retIssue (f : CFields) (s : State) : Issue.keeps (retIssue f s) = true := by
  simp [retIssue, apply_ite Issue.keeps]

@[simp] theorem keeps_loopIssue (f : CFields) (s : State) : Issue.keeps (loopIssue f s) = true := by
  unfold loopIssue
  dsimp only
  repeat'
    (first | refine keeps_Dev_whole _ _ _ fun _ => ?_ | refine keeps_State_transfer _ _ _ fun _ => ?_
           | refine keeps_Dev_withUni _ _ _ _ _ fun _ => ?_ | refine keeps_VCtx_withUni _ _ _ _ _ fun _ => ?_ | split)
  all_goals simp

@[simp] theorem keeps_joinIssue (s : State) : Issue.keeps (joinIssue s) = true := by
  simp [joinIssue]

@[simp] theorem keeps_Dev_tail (d : Dev) : Issue.keeps (Dev.tail d) = true := by
  simp [Dev.tail, apply_ite Issue.keeps]

@[simp] theorem keeps_exitIssue (f : CFields) (s : State) : Issue.keeps (exitIssue f s) = true := by
  simp [exitIssue, apply_ite Issue.keeps]

@[simp] theorem keeps_tailIssue (f : CFields) (s : State) : Issue.keeps (tailIssue f s) = true := by
  simp [tailIssue]

@[simp] theorem keeps_spawnIssue (f : CFields) (s : State) : Issue.keeps (spawnIssue f s) = true := by
  unfold spawnIssue
  dsimp only
  repeat' (first | refine keeps_Dev_whole _ _ _ fun _ => ?_ | refine keeps_State_transfer _ _ _ fun _ => ?_ | split)
  all_goals simp

@[simp] theorem keeps_yieldIssue (f : CFields) (s : State) : Issue.keeps (yieldIssue f s) = true := by
  simp [yieldIssue, apply_ite Issue.keeps]

@[simp] theorem keeps_waitIssue (f : CFields) (s : State) : Issue.keeps (waitIssue f s) = true := by
  simp [waitIssue, apply_ite Issue.keeps]

@[simp] theorem keeps_askTrap (d : Dev) (f : CFields) (cause : Nat) (next : Bool) : Issue.keeps (askTrap d f cause next) = true := by
  simp [askTrap, apply_ite Issue.keeps]

@[simp] theorem keeps_brkIssue (f : CFields) (s : State) : Issue.keeps (brkIssue f s) = true := by
  simp [brkIssue, apply_ite Issue.keeps]

@[simp] theorem keeps_cvtIssue (f : VFields) (s : State) : Issue.keeps (cvtIssue f s) = true := by
  simp [cvtIssue]

@[simp] theorem keeps_encIssue (f : VFields) (s : State) : Issue.keeps (encIssue f s) = true := by
  unfold encIssue
  exact keeps_ite _ _ _ rfl (keeps_checked _ _ (keeps_ite _ _ _ rfl rfl))

@[simp] theorem keeps_decIssue (f : VFields) (s : State) : Issue.keeps (decIssue f s) = true := by
  simp [decIssue]

@[simp] theorem keeps_qntIssue (f : VFields) (s : State) : Issue.keeps (qntIssue f s) = true := by
  simp [qntIssue]

@[simp] theorem keeps_dqntIssue (f : VFields) (s : State) : Issue.keeps (dqntIssue f s) = true := by
  simp [dqntIssue]

@[simp] theorem keeps_packIssue (f : VFields) (s : State) : Issue.keeps (packIssue f s) = true := by
  simp [packIssue]

@[simp] theorem keeps_unpkIssue (f : VFields) (s : State) : Issue.keeps (unpkIssue f s) = true := by
  simp [unpkIssue]

@[simp] theorem keeps_retagIssue (f : VFields) (s : State) : Issue.keeps (retagIssue f s) = true := by
  simp [retagIssue]

@[simp] theorem keeps_lgetIssue (f : VFields) (s : State) : Issue.keeps (lgetIssue f s) = true := by
  simp [lgetIssue]

@[simp] theorem keeps_lputIssue (f : VFields) (s : State) : Issue.keeps (lputIssue f s) = true := by
  unfold lputIssue
  dsimp only
  repeat' split
  all_goals simp

@[simp] theorem keeps_bflyIssue (f : VFields) (s : State) : Issue.keeps (bflyIssue f s) = true := by
  unfold bflyIssue
  dsimp only
  repeat' split
  all_goals simp

@[simp] theorem keeps_pollIssue (f : VFields) (s : State) : Issue.keeps (pollIssue f s) = true := by
  simp [pollIssue, apply_ite Issue.keeps]

@[simp] theorem keeps_matchIssue (f : VFields) (s : State) : Issue.keeps (matchIssue f s) = true := by
  simp [matchIssue]

@[simp] theorem keeps_redcIssue (f : VFields) (s : State) : Issue.keeps (redcIssue f s) = true := by
  simp [redcIssue]

@[simp] theorem keeps_scanIssue (f : VFields) (s : State) : Issue.keeps (scanIssue f s) = true := by
  simp [scanIssue]

@[simp] theorem keeps_electIssue (f : VFields) (s : State) : Issue.keeps (electIssue f s) = true := by
  simp [electIssue]

@[simp] theorem keeps_ixsetIssue (f : VFields) (s : State) : Issue.keeps (ixsetIssue f s) = true := by
  unfold ixsetIssue
  dsimp only
  repeat' split
  all_goals simp

@[simp] theorem keeps_idxIssue (f : VFields) (x : VCtx) (src : Option Src) (own : List (Option TrapInfo)) (consumes : Bool)
    (g : Nat → BitVec 8) :
    Issue.keeps (idxIssue f x src own consumes g) = true := by
  unfold idxIssue
  dsimp only
  repeat' split
  all_goals simp

@[simp] theorem keeps_ixldIssue (f : VFields) (s : State) : Issue.keeps (ixldIssue f s) = true := by
  simp [ixldIssue]

@[simp] theorem keeps_ixmovIssue (f : VFields) (s : State) : Issue.keeps (ixmovIssue f s) = true := by
  simp [ixmovIssue]

@[simp] theorem keeps_ixadvIssue (f : VFields) (s : State) : Issue.keeps (ixadvIssue f s) = true := by
  simp [ixadvIssue]

end Sys2Proof.Machine
end

section
/-! Proofs about the vaults' bytes: every function of the model that makes a state keeps them in canonical form, so every step does (O59). -/

namespace Sys2Proof.Machine

/-- Where the outcome is a next state, its vaults' bytes are canonical. -/
def KeepsInv (o : Host.Outcome State Fault Refusal) : Prop := ∀ t, o = .next t → t.vault.wf = true

@[simp] theorem keepsInv_next (t : State) : KeepsInv (.next t) ↔ t.vault.wf = true := by simp [KeepsInv]

@[simp] theorem foldl_wf {α : Type} (f : State → α → State) (l : List α) (s : State) (hs : s.vault.wf = true)
    (hf : ∀ s a, s.vault.wf = true → (f s a).vault.wf = true) : (l.foldl f s).vault.wf = true := by
  induction l generalizing s with
  | nil => exact hs
  | cons a l ih => exact ih _ (hf s a hs)

@[simp] theorem foldl_vault_wf {α : Type} (f : Memory → α → Memory) (l : List α) (m : Memory) (hm : m.wf = true)
    (hf : ∀ m a, m.wf = true → (f m a).wf = true) : (l.foldl f m).wf = true := by
  induction l generalizing m with
  | nil => exact hm
  | cons a l ih => exact ih _ (hf m a hm)

@[simp] theorem trial_inv (s : State) (c : Nat) (w : Waiter) (run : State → State) (hs : s.vault.wf = true)
    (hrun : ∀ a0, a0.vault.wf = true → (run a0).vault.wf = true) :
    (State.trial s c w run).vault.wf = true := by
  unfold State.trial
  split
  all_goals simp [hs, hrun]

@[simp] theorem stableMark_inv (s : State) (c : Nat) (a : LaneAcc) (ctx : Nat) (hs : s.vault.wf = true) :
    (State.stableMark s c a ctx).vault.wf = true := by
  unfold State.stableMark
  dsimp only
  repeat' split
  all_goals simp [hs]

@[simp] theorem testWatches_inv (s : State) (c va n : Nat) (hs : s.vault.wf = true) :
    (State.testWatches s c va n).vault.wf = true := by simp [State.testWatches, hs]

@[simp] theorem putLane_inv (s : State) (a : LaneAcc) (bs : List Byte) (hs : s.vault.wf = true) :
    (State.putLane s a bs).vault.wf = true := by
  unfold State.putLane
  grind [testWatches_inv, Memory.wf_write]

@[simp] theorem rangeEffect_inv (s : State) (c : Nat) (o : MemOp) (a : LaneAcc) (n : Nat) (bits : Word) (hs : s.vault.wf = true) :
    (State.rangeEffect s c o a n bits).vault.wf = true := by
  unfold State.rangeEffect
  repeat' split
  all_goals simp [hs]

@[simp] theorem ownWrite_inv (s : State) (c : Nat) (o : MemOp) (a : LaneAcc) (bs : List Byte) (hs : s.vault.wf = true) :
    (State.ownWrite s c o a bs).vault.wf = true := by
  unfold State.ownWrite
  split
  all_goals simp [hs]

@[simp] theorem storeLane_inv (s : State) (c : Nat) (o : MemOp) (a : LaneAcc) (hs : s.vault.wf = true) :
    (State.storeLane s c o a).vault.wf = true := rangeEffect_inv _ _ _ _ _ _ (ownWrite_inv _ _ _ _ _ (putLane_inv _ _ _ hs))

@[simp] theorem atomLane_inv (s : State) (aop ty : BitVec 5) (rm : BitVec 2) (a : LaneAcc) (hs : s.vault.wf = true) :
    (State.atomLane s aop ty rm a).1.vault.wf = true := by
  unfold State.atomLane
  dsimp only
  repeat' split
  all_goals simp [hs]

@[simp] theorem atomLanes_inv (s : State) (aop ty : BitVec 5) (rm : BitVec 2) (b0 : List LaneAcc) (hs : s.vault.wf = true) :
    (State.atomLanes s aop ty rm b0).1.vault.wf = true := by
  induction b0 generalizing s with
  | nil => exact hs
  | cons a rest ih => exact ih _ (atomLane_inv _ _ _ _ _ hs)

@[simp] theorem wordAt_inv (s : State) (c tc ctx off : Nat) (e : TlbEntry) (err : Option Word) (hs : s.vault.wf = true) :
    (State.wordAt s c tc ctx off e err).1.vault.wf = true := by
  unfold State.wordAt
  split
  all_goals simp [hs]

theorem wordAt_inv_to (s : State) (c tc ctx off : Nat) (e : TlbEntry) (err : Option Word) (hs : s.vault.wf = true) {t : State} {r}
    (eq : State.wordAt s c tc ctx off e err = (t, r)) :
    t.vault.wf = true := by
  simpa [eq] using wordAt_inv s c tc ctx off e err hs

@[simp] theorem wordDone_inv (s : State) (c tc ctx off : Nat) (err : Option Word) (hs : s.vault.wf = true) :
    ∀ t n d, State.wordDone s c tc ctx off err = (.ok (t, n), d) → t.vault.wf = true := by
  intro t n d eq
  unfold State.wordDone at eq
  split at eq
  · simp at eq
  · simp only [Prod.mk.injEq, Except.ok.injEq] at eq
    obtain ⟨h, -⟩ := eq
    exact wordAt_inv_to _ _ _ _ _ _ _ (by exact hs) h

@[simp] theorem cctlLine_inv (s : State) (op : BitVec 3) (a : LaneAcc) (hs : s.vault.wf = true) :
    (State.cctlLine s op a).1.vault.wf = true := by
  unfold State.cctlLine
  dsimp only
  repeat' split
  all_goals simp [hs]

@[simp] theorem patch_inv (s : State) (c : Nat) (o : MemOp) (a : LaneAcc) (b : Option LaneAcc) (hs : s.vault.wf = true) :
    (State.patch s c o a b).1.vault.wf = true := by
  unfold State.patch
  split
  all_goals simp [hs]

@[simp] theorem performAtom_inv (s : State) (c : Nat) (o : MemOp) (aop ty : BitVec 5) (rm : BitVec 2) (ls : List LaneAcc)
    (hs : s.vault.wf = true) :
    (State.performAtom s c o aop ty rm ls).1.vault.wf = true := by
  unfold State.performAtom
  dsimp only
  repeat' split
  all_goals simp [hs]

theorem cctlLines_inv (op : BitVec 3) (ls : List LaneAcc) (p : State × Nat) (hp : p.1.vault.wf = true) :
    (ls.foldl (fun (p : State × Nat) a => let q := p.1.cctlLine op a; (q.1, max p.2 q.2)) p).1.vault.wf = true := by
  induction ls generalizing p with
  | nil => exact hp
  | cons a rest ih => exact ih _ (cctlLine_inv _ _ _ hp)

@[simp] theorem perform_inv (s : State) (c : Nat) (o : MemOp) (ls : List LaneAcc) (hs : s.vault.wf = true) :
    (State.perform s c o ls).1.vault.wf = true := by
  unfold State.perform
  dsimp only
  split
  · simp [hs]
  · simp [hs]
  · simp [hs]
  · simp [hs]
  · split
    · split <;> simp [hs]
    · exact hs
  · exact cctlLines_inv _ _ _ hs
  · have stores (t : State) (ht : t.vault.wf = true) : (ls.foldl (fun s a => s.storeLane c o a) t).vault.wf = true :=
      foldl_wf _ _ _ ht fun s a h => storeLane_inv _ _ _ _ h
    have marks : ((ls.filter (fun a => a.stable)).foldl (fun s a => s.stableMark c a o.ctx) s).vault.wf = true :=
      foldl_wf _ _ _ hs fun s a h => stableMark_inv _ _ _ _ h
    split <;> simp [stores, marks, hs]

@[simp] theorem storeReq_inv (s : State) (c : Nat) (o : MemOp) (req : Nat) (hs : s.vault.wf = true) :
    (State.storeReq s c o req).vault.wf = true := by
  unfold State.storeReq
  dsimp only
  repeat' split
  all_goals simp [hs]

@[simp] theorem testClaims_inv (s : State) (c : Nat) (cs : List Claim) (hs : s.vault.wf = true) :
    (State.testClaims s c cs).vault.wf = true := foldl_wf _ _ _ hs fun _ _ h => testWatches_inv _ _ _ _ h

@[simp] theorem failWords_inv (s : State) (ctx : Nat) (b0 : List (Nat × Nat × Nat × Word)) (hs : s.vault.wf = true) :
    (State.failWords s ctx b0).vault.wf = true := by
  induction b0 generalizing s with
  | nil => exact hs
  | cons w rest ih =>
    obtain ⟨c, tc, off, e⟩ := w
    unfold State.failWords
    apply ih
    split
    next h => exact wordDone_inv _ _ _ _ _ _ hs _ _ _ h
    next h => exact hs

@[simp] theorem contextReset_inv (s : State) (ctx cause code : Nat) (keep : Option (BitVec 64)) (hs : s.vault.wf = true) :
    (State.contextReset s ctx cause code keep).vault.wf = true := by
  have clear : (s.clearImages ctx).wf = true := foldl_vault_wf _ _ _ hs fun m i h => Memory.wf_clearValid h _ _
  exact foldl_wf _ _ _ (failWords_inv _ _ _ clear) fun _ _ h => testClaims_inv _ _ _ h

@[simp] theorem trapEntry_inv (s : State) (t : TrapInfo) (defer : Bool) (hs : s.vault.wf = true) :
    (State.trapEntry s t defer).vault.wf = true := by
  unfold State.trapEntry
  dsimp only
  repeat' split
  all_goals simp [hs]


@[simp] theorem conclude_inv (s : State) (b0 : Issue) (hs : s.vault.wf = true) (keeps : b0.keeps = true) :
    KeepsInv (State.conclude s b0) := by
  cases b0 with
  | retire d => simpa [State.conclude] using hs
  | hold d => simpa [State.conclude] using hs
  | made t => simpa [State.conclude, Issue.keeps] using keeps
  | trap t => simp [State.conclude, hs]

@[simp] theorem execXchSendArrival_inv (col slot : Nat) (s : State) (hs : s.vault.wf = true) :
    KeepsInv (execXchSendArrival col slot s) := by
  unfold execXchSendArrival
  dsimp only
  repeat' split
  all_goals simp [hs]

@[simp] theorem execRwaitWake_inv (col slot : Nat) (s : State) (hs : s.vault.wf = true) : KeepsInv (execRwaitWake col slot s) := by
  unfold execRwaitWake
  repeat' split
  all_goals simp [hs]

@[simp] theorem execRwaitTimeout_inv (col slot : Nat) (s : State) (hs : s.vault.wf = true) : KeepsInv (execRwaitTimeout col slot s) := by
  unfold execRwaitTimeout
  repeat' split
  all_goals simp [hs]

@[simp] theorem execMsgDelivery_inv (col entry : Nat) (s : State) (hs : s.vault.wf = true) : KeepsInv (execMsgDelivery col entry s) := by
  unfold execMsgDelivery
  dsimp only
  repeat' split
  all_goals simp [hs]

@[simp] theorem execMsgCompletionReturn_inv (col op : Nat) (s : State) (hs : s.vault.wf = true) :
    KeepsInv (execMsgCompletionReturn col op s) := by
  unfold execMsgCompletionReturn
  repeat' split
  all_goals simp [hs]

@[simp] theorem execRingChangeReport_inv (col dst ring : Nat) (s : State) (hs : s.vault.wf = true) :
    KeepsInv (execRingChangeReport col dst ring s) := by
  unfold execRingChangeReport
  dsimp only
  repeat' split
  all_goals simp [hs]

@[simp] theorem execWatchWake_inv (col slot : Nat) (s : State) (hs : s.vault.wf = true) : KeepsInv (execWatchWake col slot s) := by
  unfold execWatchWake
  dsimp only
  repeat' split
  all_goals simp [hs]

@[simp] theorem execWatchTimeout_inv (col slot : Nat) (s : State) (hs : s.vault.wf = true) : KeepsInv (execWatchTimeout col slot s) := by
  unfold execWatchTimeout
  dsimp only
  repeat' split
  all_goals simp [hs]

@[simp] theorem execTileOpStart_inv (col queue : Nat) (s : State) (hs : s.vault.wf = true) :
    KeepsInv (execTileOpStart col queue s) := by simp [execTileOpStart, hs]

@[simp] theorem execTileOpComplete_inv (col queue : Nat) (s : State) (hs : s.vault.wf = true) :
    KeepsInv (execTileOpComplete col queue s) := by simp [execTileOpComplete, hs]

@[simp] theorem engineWrite_inv (s : State) (c tc ctx off : Nat) (priv : Bool) (bs : List (Byte × Bool)) (clean : Unit → Bool)
    (hs : s.vault.wf = true) :
    (State.engineWrite s c tc ctx off priv bs clean).2.vault.wf = true := by
  unfold State.engineWrite
  dsimp only
  repeat' split
  all_goals simp [hs]

theorem engineWrite_inv_to (s : State) (c tc ctx off : Nat) (priv : Bool) (bs : List (Byte × Bool)) (clean : Unit → Bool)
    (hs : s.vault.wf = true) {t : State} {r} (eq : State.engineWrite s c tc ctx off priv bs clean = (r, t)) :
    t.vault.wf = true := by
  simpa [eq] using engineWrite_inv s c tc ctx off priv bs clean hs

@[simp] theorem engineWrites_inv (s : State) (c tc ctx : Nat) (priv : Bool) (b0 : Nat) (b1 : Nat) (b2 : List (Byte × Bool))
    (hs : s.vault.wf = true) :
    (State.engineWrites s c tc ctx priv b0 b1 b2).2.vault.wf = true := by
  induction b0 generalizing s b1 b2 with
  | zero => exact hs
  | succ k ih =>
    unfold State.engineWrites
    split
    · exact hs
    · dsimp only
      split
      next h => exact engineWrite_inv_to _ _ _ _ _ _ _ _ hs h
      next h =>
        have write := engineWrite_inv_to _ _ _ _ _ _ _ _ hs h
        split
        next h => simpa [h] using ih _ (b1 + (32 - b1 % 32)) (b2.drop (32 - b1 % 32)) write
        next h => simpa [h] using ih _ (b1 + (32 - b1 % 32)) (b2.drop (32 - b1 % 32)) write

theorem engineWrites_inv_to (s : State) (c tc ctx : Nat) (priv : Bool) (b0 : Nat) (b1 : Nat) (b2 : List (Byte × Bool))
    (hs : s.vault.wf = true) {t : State} {r} (eq : State.engineWrites s c tc ctx priv b0 b1 b2 = (r, t)) :
    t.vault.wf = true := by
  simpa [eq] using engineWrites_inv s c tc ctx priv b0 b1 b2 hs

@[simp] theorem execFlitReceive_inv (port : Nat) (wire : List Byte) (s : State) (hs : s.vault.wf = true) :
    KeepsInv (execFlitReceive port wire s) := by
  unfold execFlitReceive
  dsimp only
  repeat' split
  all_goals simp [hs]

@[simp] theorem execRetryRequestReceive_inv (port : Nat) (ack : BitVec 16) (s : State) (hs : s.vault.wf = true) :
    KeepsInv (execRetryRequestReceive port ack s) := by
  unfold execRetryRequestReceive
  split
  all_goals simp [hs]

@[simp] theorem execPortTrained_inv (port : Nat) (margins : List Nat) (s : State) (hs : s.vault.wf = true) :
    KeepsInv (execPortTrained port margins s) := by
  unfold execPortTrained
  split
  all_goals simp [hs]

@[simp] theorem execPortRetrain_inv (port : Nat) (margins : Option (List Nat)) (s : State) (hs : s.vault.wf = true) :
    KeepsInv (execPortRetrain port margins s) := by
  unfold execPortRetrain
  dsimp only
  repeat' split
  all_goals simp [hs]

@[simp] theorem copyWrite_inv (s : State) (c : Nat) (x : CopyCmd) (n a : Nat) (bs : List (Byte × Bool)) (hs : s.vault.wf = true) :
    (State.copyWrite s c x n a bs).2.vault.wf = true := by
  unfold State.copyWrite
  dsimp only
  repeat' split
  all_goals simp [hs]

theorem copyWrite_inv_to (s : State) (c : Nat) (x : CopyCmd) (n a : Nat) (bs : List (Byte × Bool)) (hs : s.vault.wf = true)
    {t : State} {r} (eq : State.copyWrite s c x n a bs = (r, t)) :
    t.vault.wf = true := by
  simpa [eq] using copyWrite_inv s c x n a bs hs

@[simp] theorem linearMove_inv (s : State) (c lim : Nat) (b0 : Nat) (b1 : CopyCmd) (hs : s.vault.wf = true) :
    (State.linearMove s c lim b0 b1).1.vault.wf = true := by
  induction b0 generalizing s b1 with
  | zero => exact hs
  | succ n ih =>
    unfold State.linearMove
    split
    · exact hs
    · dsimp only
      split
      · exact hs
      · split
        next h => exact copyWrite_inv_to _ _ _ _ _ _ (by exact hs) h
        next h => exact ih _ _ (copyWrite_inv_to _ _ _ _ _ _ (by exact hs) h)

@[simp] theorem copyWrites_inv (s : State) (c : Nat) (x : CopyCmd) (b0 : Nat) (b1 : List (Byte × Bool)) (hs : s.vault.wf = true) :
    (State.copyWrites s c x b0 b1).1.vault.wf = true := by
  induction b1 generalizing s x b0 with
  | nil => exact hs
  | cons b bs ih =>
    unfold State.copyWrites
    split
    next h => exact copyWrite_inv_to _ _ _ _ _ _ hs h
    next h => exact ih _ _ _ (copyWrite_inv_to _ _ _ _ _ _ hs h)

@[simp] theorem putElem_inv (s : State) (c : Nat) (x : CopyCmd) (a : Nat) (bs : List (Byte × Bool)) (hs : s.vault.wf = true) :
    (State.putElem s c x a bs).1.vault.wf = true := by
  have writes := copyWrites_inv s c x a bs hs
  unfold State.putElem
  split
  next h => rwa [h] at writes
  next h => exact writes

@[simp] theorem moveElem_inv (s : State) (c : Nat) (x : CopyCmd) (p q : TRec) (box : List Nat) (hs : s.vault.wf = true) :
    (State.moveElem s c x p q box).1.vault.wf = true := by
  unfold State.moveElem
  dsimp only
  split
  · exact putElem_inv _ _ _ _ _ hs
  · split
    · exact hs
    · split
      · exact hs
      · exact putElem_inv _ _ _ _ _ hs

@[simp] theorem tensorMove_inv (s : State) (c lim : Nat) (p q : TRec) (box : List Nat) (b0 : Nat) (b1 : CopyCmd)
    (hs : s.vault.wf = true) :
    (State.tensorMove s c lim p q box b0 b1).1.vault.wf = true := by
  induction b0 generalizing s b1 with
  | zero => exact hs
  | succ n ih =>
    unfold State.tensorMove
    split
    · exact hs
    · have elem := moveElem_inv s c b1 p q box hs
      split
      next h => exact ih _ _ (by rwa [h] at elem)
      next h => exact elem

@[simp] theorem copyPiece_inv (s : State) (c : Nat) (x : CopyCmd) (hs : s.vault.wf = true) :
    (State.copyPiece s c x).1.vault.wf = true := by
  unfold State.copyPiece
  repeat' split
  all_goals simp [hs]

@[simp] theorem afterPiece_inv (s : State) (c : Nat) (x : CopyCmd) (e : Option Stop) (hs : s.vault.wf = true) :
    (State.afterPiece s c x e).vault.wf = true := by
  unfold State.afterPiece
  split
  all_goals simp [hs]

@[simp] theorem copyRun_inv (s : State) (c id : Nat) (hs : s.vault.wf = true) : (State.copyRun s c id).vault.wf = true := by
  unfold State.copyRun
  dsimp only
  split
  · exact hs
  · have piece (x : CopyCmd) := trial_inv s c (.copy id)
      (fun s => (s.copyPiece c x).1.afterPiece c (s.copyPiece c x).2.1 (s.copyPiece c x).2.2) hs
      fun t ht => afterPiece_inv _ _ _ _ (copyPiece_inv _ _ _ ht)
    repeat' split
    all_goals simp [hs, piece]

@[simp] theorem execCopyStart_inv (col op : Nat) (s : State) (hs : s.vault.wf = true) :
    KeepsInv (execCopyStart col op s) := by simp [execCopyStart, hs]

@[simp] theorem finishWord_inv (s : State) (c ctx : Nat) (p : BitVec 64) (err : Option Word) (hs : s.vault.wf = true) :
    ∀ t n d, State.finishWord s c ctx p err = (.ok (t, n), d) → t.vault.wf = true := by
  intro t n d eq
  unfold State.finishWord at eq
  split at eq
  next h =>
    cases eq
    exact wordDone_inv _ _ _ _ _ _ hs _ _ _ h
  next h => simp at eq

@[simp] theorem copyEndRun_inv (s : State) (c id : Nat) (hs : s.vault.wf = true) : (State.copyEndRun s c id).vault.wf = true := by
  unfold State.copyEndRun
  split
  · exact hs
  · split
    · split
      · refine trial_inv _ _ _ _ hs fun t ht => ?_
        split
        next h =>
          have word := finishWord_inv _ _ _ _ _ ht _ _ _ h
          exact word
        next h => exact ht
      · exact hs
    · split <;> exact hs

@[simp] theorem execCopyComplete_inv (col op : Nat) (s : State) (hs : s.vault.wf = true) :
    KeepsInv (execCopyComplete col op s) := by simp [execCopyComplete, hs]

@[simp] theorem execPlacementGroupStart_inv (p : Nat) (s : State) (hs : s.vault.wf = true) :
    KeepsInv (execPlacementGroupStart p s) := by simp [execPlacementGroupStart, hs]

@[simp] theorem execLaunchEndOnColumn_inv (col launch : Nat) (s : State) (hs : s.vault.wf = true) :
    KeepsInv (execLaunchEndOnColumn col launch s) := by
  unfold execLaunchEndOnColumn
  dsimp only
  repeat' split
  all_goals simp [hs]

@[simp] theorem execRetirementTrackerFree_inv (col entry : Nat) (s : State) (hs : s.vault.wf = true) :
    KeepsInv (execRetirementTrackerFree col entry s) := by
  unfold execRetirementTrackerFree
  dsimp only
  repeat' split
  all_goals simp [hs]

@[simp] theorem takeSlot_inv (s : State) (x : Replay) (h : GHead) (k : Nat) (hs : s.vault.wf = true) :
    (State.takeSlot s x h k).2.vault.wf = true := by
  unfold State.takeSlot
  dsimp only
  split
  · exact hs
  · split
    next h => exact engineWrites_inv_to _ _ _ _ _ _ _ _ (by exact hs) h
    next h =>
      have first := engineWrites_inv_to _ _ _ _ _ _ _ _ (by exact hs) h
      split
      next h => exact engineWrites_inv_to _ _ _ _ _ _ _ _ first h
      next h => exact engineWrites_inv_to _ _ _ _ _ _ _ _ first h

theorem takeSlot_inv_to (s : State) (x : Replay) (h : GHead) (k : Nat) (hs : s.vault.wf = true) {t : State} {r}
    (eq : State.takeSlot s x h k = (r, t)) :
    t.vault.wf = true := by
  simpa [eq] using takeSlot_inv s x h k hs

@[simp] theorem tryReplay_inv (s : State) (x : Replay) (hs : s.vault.wf = true) : (State.tryReplay s x).2.vault.wf = true := by
  unfold State.tryReplay
  split
  · exact hs
  · split
    · exact hs
    · exact hs
    · split
      all_goals
        next h =>
          have taken := takeSlot_inv_to _ _ _ _ (by exact hs) h
          exact taken

@[simp] theorem glaunchGo_inv (s : State) (vd : Nat) (once : Bool) (p : BitVec 64) (hs : s.vault.wf = true) :
    (State.glaunchGo s vd once p).vault.wf = true := by
  unfold State.glaunchGo
  dsimp only
  repeat' split
  all_goals simp [hs]

@[simp] theorem beginReplay_inv (s : State) (x : Replay) (hs : s.vault.wf = true) : (State.beginReplay s x).vault.wf = true := by
  unfold State.beginReplay
  dsimp only
  repeat' split
  all_goals simp [hs]

@[simp] theorem execGraphReplayStart_inv (die : Nat) (s : State) (hs : s.vault.wf = true) : KeepsInv (execGraphReplayStart die s) := by
  unfold execGraphReplayStart
  split
  · simpa using trial_inv _ _ _ _ hs fun t ht => beginReplay_inv _ _ ht
  · simp [hs]

@[simp] theorem launchNode_inv (s : State) (x : Replay) (j : Nat) (p : BitVec 64) (hs : s.vault.wf = true) :
    (State.launchNode s x j p).vault.wf = true := by
  unfold State.launchNode
  repeat' split
  all_goals simp [hs]

@[simp] theorem copyNode_inv (s : State) (x : Replay) (j : Nat) (q : Nat → BitVec 64) (hs : s.vault.wf = true) :
    (State.copyNode s x j q).vault.wf = true := by
  unfold State.copyNode
  dsimp only
  repeat' split
  all_goals simp [hs]

@[simp] theorem cueAddNode_inv (s : State) (x : Replay) (j : Nat) (p : BitVec 64) (v : Word) (hs : s.vault.wf = true) :
    (State.cueAddNode s x j p v).vault.wf = true := by
  unfold State.cueAddNode
  dsimp only
  repeat' split
  all_goals simp [hs]

@[simp] theorem cueWaitNode_inv (s : State) (x : Replay) (j : Nat) (p : BitVec 64) (t : Word) (hs : s.vault.wf = true) :
    (State.cueWaitNode s x j p t).vault.wf = true := by
  unfold State.cueWaitNode
  dsimp only
  repeat' split
  all_goals simp [hs]

@[simp] theorem signalNode_inv (s : State) (x : Replay) (j : Nat) (p : BitVec 64) (hs : s.vault.wf = true) :
    (State.signalNode s x j p).vault.wf = true := by
  unfold State.signalNode
  split
  next h => exact hs
  next h =>
    have word := wordDone_inv _ _ _ _ _ _ hs _ _ _ h
    exact word

@[simp] theorem startNode_inv (s : State) (x : Replay) (j kind : Nat) (q : Nat → BitVec 64) (hs : s.vault.wf = true) :
    (State.startNode s x j kind q).vault.wf = true := by
  unfold State.startNode
  dsimp only
  repeat' split
  all_goals simp [hs]

@[simp] theorem execGraphNodeStart_inv (die replay node : Nat) (s : State) (hs : s.vault.wf = true) :
    KeepsInv (execGraphNodeStart die replay node s) := by
  unfold execGraphNodeStart
  split
  · simp [hs]
  · split
    · simp [hs]
    · split
      · simp [hs]
      · refine (keepsInv_next _).2 (trial_inv _ _ _ _ hs fun t ht => ?_)
        split <;> simp [ht]

@[simp] theorem endReplay_inv (s : State) (x : Replay) (hs : s.vault.wf = true) : (State.endReplay s x).vault.wf = true := by
  unfold State.endReplay
  dsimp only
  split
  · exact hs
  · exact hs
  · split
    all_goals
      next h =>
        have word := engineWrites_inv_to _ _ _ _ _ _ _ _ (by exact hs) h
        exact word

@[simp] theorem execGraphNodeFinish_inv (die replay node : Nat) (s : State) (hs : s.vault.wf = true) :
    KeepsInv (execGraphNodeFinish die replay node s) := by
  unfold execGraphNodeFinish
  dsimp only
  repeat' split
  all_goals simp_all

@[simp] theorem pollNode_inv (s : State) (x : Replay) (j : Nat) (n : GNode) (hs : s.vault.wf = true) :
    (State.pollNode s x j n).vault.wf = true := by
  unfold State.pollNode
  repeat' split
  all_goals simp [hs]

@[simp] theorem execCueWaitPoll_inv (die replay node : Nat) (s : State) (hs : s.vault.wf = true) :
    KeepsInv (execCueWaitPoll die replay node s) := by
  unfold execCueWaitPoll
  split
  · simp [hs]
  · split
    · simp [hs]
    · split
      · simp [hs]
      · split
        · simp [hs]
        · exact (keepsInv_next _).2 (trial_inv _ _ _ _ hs fun t ht => pollNode_inv _ _ _ _ ht)

@[simp] theorem handDo_inv (s : State) (f : Hand → Hand) (hs : s.vault.wf = true) :
    KeepsInv (State.handDo s f) := by simp [State.handDo, hs]

@[simp] theorem execHadd_inv (f : HFields) (s : State) (hs : s.vault.wf = true) : KeepsInv (execHadd f s) := by simp [execHadd, hs]

@[simp] theorem execHsub_inv (f : HFields) (s : State) (hs : s.vault.wf = true) : KeepsInv (execHsub f s) := by simp [execHsub, hs]

@[simp] theorem execHmul_inv (f : HFields) (s : State) (hs : s.vault.wf = true) : KeepsInv (execHmul f s) := by simp [execHmul, hs]

@[simp] theorem execHlogic_inv (f : HFields) (s : State) (hs : s.vault.wf = true) : KeepsInv (execHlogic f s) := by simp [execHlogic, hs]

@[simp] theorem execHshift_inv (f : HFields) (s : State) (hs : s.vault.wf = true) : KeepsInv (execHshift f s) := by simp [execHshift, hs]

@[simp] theorem execHli_inv (f : HFields) (s : State) (hs : s.vault.wf = true) : KeepsInv (execHli f s) := by simp [execHli, hs]

@[simp] theorem execHclk_inv (f : HFields) (s : State) (hs : s.vault.wf = true) : KeepsInv (execHclk f s) := by simp [execHclk, hs]

@[simp] theorem execHbr_inv (f : HFields) (s : State) (hs : s.vault.wf = true) : KeepsInv (execHbr f s) := by simp [execHbr, hs]

@[simp] theorem execHloop_inv (f : HFields) (s : State) (hs : s.vault.wf = true) : KeepsInv (execHloop f s) := by simp [execHloop, hs]

@[simp] theorem qTwo_inv (f : HFields) (s : State) (op : FVal → FVal → FVal) (hs : s.vault.wf = true) :
    KeepsInv (qTwo f s op) := by simp [qTwo, hs]

@[simp] theorem execQadd_inv (f : HFields) (s : State) (hs : s.vault.wf = true) : KeepsInv (execQadd f s) := by simp [execQadd, hs]

@[simp] theorem execQsub_inv (f : HFields) (s : State) (hs : s.vault.wf = true) : KeepsInv (execQsub f s) := by simp [execQsub, hs]

@[simp] theorem execQmul_inv (f : HFields) (s : State) (hs : s.vault.wf = true) : KeepsInv (execQmul f s) := by simp [execQmul, hs]

@[simp] theorem execQfma_inv (f : HFields) (s : State) (hs : s.vault.wf = true) : KeepsInv (execQfma f s) := by simp [execQfma, hs]

@[simp] theorem execQmuls_inv (f : HFields) (s : State) (hs : s.vault.wf = true) : KeepsInv (execQmuls f s) := by simp [execQmuls, hs]

@[simp] theorem execQminmax_inv (f : HFields) (s : State) (hs : s.vault.wf = true) :
    KeepsInv (execQminmax f s) := by simp [execQminmax, hs]

@[simp] theorem execQrsq_inv (f : HFields) (s : State) (hs : s.vault.wf = true) : KeepsInv (execQrsq f s) := by simp [execQrsq, hs]

@[simp] theorem execQbc_inv (f : HFields) (s : State) (hs : s.vault.wf = true) : KeepsInv (execQbc f s) := by simp [execQbc, hs]

@[simp] theorem execQsum_inv (f : HFields) (s : State) (hs : s.vault.wf = true) : KeepsInv (execQsum f s) := by simp [execQsum, hs]

@[simp] theorem execQinsQext_inv (f : HFields) (s : State) (hs : s.vault.wf = true) :
    KeepsInv (execQinsQext f s) := by simp [execQinsQext, hs]

@[simp] theorem endClaims_inv (s : State) (c : Nat) (p : Claim → Bool) (hs : s.vault.wf = true) :
    (State.endClaims s c p).vault.wf = true := by simp [State.endClaims, hs]

@[simp] theorem programWord_inv (s : State) (c : Nat) (r : RunDesc) (err : Word) (word : Bool) (hs : s.vault.wf = true) :
    (State.programWord s c r err word).vault.wf = true := by
  unfold State.programWord
  dsimp only
  repeat' split
  all_goals simp [hs]

@[simp] theorem endProgram_inv (s : State) (c : Nat) (err : Word) (word : Bool) (hs : s.vault.wf = true) :
    (State.endProgram s c err word).vault.wf = true := by
  unfold State.endProgram
  split
  all_goals simp [hs]

@[simp] theorem failProgram_inv (s : State) (c code : Nat) (word : Bool) (hs : s.vault.wf = true) :
    (State.failProgram s c code word).vault.wf = true := by
  unfold State.failProgram
  split
  all_goals simp [hs]

@[simp] theorem handFault_inv (s : State) (c detail : Nat) (hs : s.vault.wf = true) : (State.handFault s c detail).vault.wf = true := by
  unfold State.handFault
  split
  all_goals simp [hs]

@[simp] theorem execEnd_inv (f0 : HFields) (s : State) (hs : s.vault.wf = true) : KeepsInv (execEnd f0 s) := by simp [execEnd, hs]

@[simp] theorem handCheck_inv (s : State) (cs : List (Bool × Nat)) (go : Unit → State) (hs : s.vault.wf = true)
    (hgo : ∀ a0, (go a0).vault.wf = true) :
    (State.handCheck s cs go).vault.wf = true := by
  unfold State.handCheck
  split
  all_goals simp [hs, hgo]

@[simp] theorem handAt_inv (s : State) (cs : List (Bool × Nat)) (off : Nat) (write : Bool) (go : TlbEntry → State → State)
    (hs : s.vault.wf = true) (hgo : ∀ a0 a1, a1.vault.wf = true → (go a0 a1).vault.wf = true) :
    KeepsInv (State.handAt s cs off write go) := by
  unfold State.handAt
  split
  all_goals simp [hs, hgo]

@[simp] theorem execVld_inv (f : HFields) (s : State) (hs : s.vault.wf = true) : KeepsInv (execVld f s) := by
  unfold execVld
  dsimp only
  refine handAt_inv _ _ _ _ _ hs fun e t ht => ?_
  split <;> simp [ht]

@[simp] theorem handWrite_inv (s : State) (c va : Nat) (bs : List Byte) (till : Nat) (hs : s.vault.wf = true) :
    (State.handWrite s c va bs till).vault.wf = true := by
  unfold State.handWrite
  dsimp only
  repeat' split
  all_goals simp [hs, Memory.wf_write]

@[simp] theorem execVst_inv (f : HFields) (s : State) (hs : s.vault.wf = true) : KeepsInv (execVst f s) := by
  unfold execVst
  exact handAt_inv _ _ _ _ _ hs fun e t ht => handCheck_inv _ _ _ ht fun _ => by simp [ht]

@[simp] theorem rowOp_inv (f : HFields) (s : State) (write : Bool) (work : List Nat) (own : Nat → Bool) (go : Nat → State → State)
    (hs : s.vault.wf = true) (hgo : ∀ a0 a1, a1.vault.wf = true → (go a0 a1).vault.wf = true) :
    KeepsInv (State.rowOp f s write work own go) := by
  unfold State.rowOp
  exact handAt_inv _ _ _ _ _ hs fun e t ht => handCheck_inv _ _ _ ht fun _ => hgo _ _ ht

@[simp] theorem execRopen_inv (f : HFields) (s : State) (hs : s.vault.wf = true) : KeepsInv (execRopen f s) := by simp [execRopen, hs]

@[simp] theorem execRacc_inv (f : HFields) (s : State) (hs : s.vault.wf = true) : KeepsInv (execRacc f s) := by
  unfold execRacc
  dsimp only
  refine rowOp_inv _ _ _ _ _ _ hs fun va t ht => ?_
  split <;> simp [ht]

@[simp] theorem execRwr_inv (f : HFields) (s : State) (hs : s.vault.wf = true) : KeepsInv (execRwr f s) := by
  unfold execRwr
  exact rowOp_inv _ _ _ _ _ _ hs fun va t ht => by simp [ht]

@[simp] theorem execRclr_inv (f : HFields) (s : State) (hs : s.vault.wf = true) : KeepsInv (execRclr f s) := by simp [execRclr, hs]

@[simp] theorem execClaim_inv (f : HFields) (s : State) (hs : s.vault.wf = true) : KeepsInv (execClaim f s) := by
  unfold execClaim
  dsimp only
  repeat' split
  all_goals simp [hs]

@[simp] theorem execClaimComplete_inv (col : Nat) (s : State) (hs : s.vault.wf = true) : KeepsInv (execClaimComplete col s) := by
  unfold execClaimComplete
  dsimp only
  repeat' split
  all_goals simp [hs]

@[simp] theorem execUnclm_inv (f : HFields) (s : State) (hs : s.vault.wf = true) : KeepsInv (execUnclm f s) := by simp [execUnclm, hs]

@[simp] theorem execSignal_inv (f : HFields) (s : State) (hs : s.vault.wf = true) : KeepsInv (execSignal f s) := by
  unfold execSignal
  exact handAt_inv _ _ _ _ _ hs fun e t ht => by simp [ht]

@[simp] theorem execCuew_inv (f : HFields) (s : State) (hs : s.vault.wf = true) : KeepsInv (execCuew f s) := by
  unfold execCuew
  dsimp only
  refine handAt_inv _ _ _ _ _ hs fun e t ht => ?_
  split
  · exact ht
  · split <;> exact ht

@[simp] theorem execCuewWake_inv (col : Nat) (s : State) (hs : s.vault.wf = true) : KeepsInv (execCuewWake col s) := by
  unfold execCuewWake
  dsimp only
  repeat' split
  all_goals simp [hs]

@[simp] theorem execAqsvc_inv (f0 : HFields) (s : State) (hs : s.vault.wf = true) : KeepsInv (execAqsvc f0 s) := by simp [execAqsvc, hs]

@[simp] theorem startProgram_inv (s : State) (c : Nat) (r : RunDesc) (hs : s.vault.wf = true) :
    (State.startProgram s c r).vault.wf = true := by
  unfold State.startProgram
  dsimp only
  repeat' split
  all_goals simp [hs]

@[simp] theorem execStagehandProgramStart_inv (col : Nat) (s : State) (hs : s.vault.wf = true) :
    KeepsInv (execStagehandProgramStart col s) := by
  unfold execStagehandProgramStart
  repeat' split
  all_goals simp [hs]

@[simp] theorem nmPerform_inv (s : State) (c : Nat) (e : NmEntry) (hs : s.vault.wf = true) : (State.nmPerform s c e).vault.wf = true := by
  unfold State.nmPerform
  dsimp only
  repeat' split
  all_goals simp [hs, Memory.wf_write]

@[simp] theorem nmServe_inv (s : State) (c : Nat) (e : NmEntry) (rest : List NmEntry) (hs : s.vault.wf = true) :
    (State.nmServe s c e rest).vault.wf = true := by
  unfold State.nmServe
  dsimp only
  repeat' split
  all_goals simp [hs]

@[simp] theorem execBankWindow_inv (col bank : Nat) (s : State) (hs : s.vault.wf = true) : KeepsInv (execBankWindow col bank s) := by
  unfold execBankWindow
  split
  all_goals simp [hs]

@[simp] theorem execAtomicQueueServe_inv (col : Nat) (s : State) (hs : s.vault.wf = true) : KeepsInv (execAtomicQueueServe col s) := by
  unfold execAtomicQueueServe
  dsimp only
  repeat' split
  all_goals simp [hs]

@[simp] theorem slotError_inv (s : State) (c va : Nat) (hs : s.vault.wf = true) : (State.slotError s c va).vault.wf = true := by
  unfold State.slotError
  dsimp only
  repeat' split
  all_goals simp [hs]

@[simp] theorem controlError_inv (s : State) (c ctx unit block structure_ : Nat) (hs : s.vault.wf = true) :
    (State.controlError s c ctx unit block structure_).vault.wf = true := by
  unfold State.controlError
  split
  all_goals simp [hs]

@[simp] theorem hopError_inv (s : State) (die stage : Nat) (ctxs : List Nat) (hs : s.vault.wf = true) :
    (State.hopError s die stage ctxs).vault.wf = true := foldl_wf _ _ _ hs fun _ _ ht => contextReset_inv _ _ _ _ _ ht

@[simp] theorem hwError_inv (s : State) (e : HwError) (hs : s.vault.wf = true) : (State.hwError s e).vault.wf = true := by
  unfold State.hwError
  split
  all_goals simp [hs]

@[simp] theorem hostWrites_inv (s : State) (c : Nat) (b0 : Nat) (b1 : Nat) (b2 : List Byte) (hs : s.vault.wf = true) :
    (State.hostWrites s c b0 b1 b2).1.vault.wf = true := by
  induction b0 generalizing s b1 b2 with
  | zero => exact hs
  | succ k ih =>
    unfold State.hostWrites
    split
    · exact hs
    · exact ih _ _ _ (putLane_inv _ _ _ hs)

@[simp] theorem execHaltTick_inv (p : Nat) (s : State) (hs : s.vault.wf = true) : KeepsInv (execHaltTick p s) := by
  unfold execHaltTick
  dsimp only
  repeat' split
  all_goals simp [hs]

@[simp] theorem execImageWriteDone_inv (p col : Nat) (s : State) (hs : s.vault.wf = true) : KeepsInv (execImageWriteDone p col s) := by
  unfold execImageWriteDone
  dsimp only
  repeat' split
  all_goals simp [hs, Memory.wf_saveImage]

@[simp] theorem restoreCol_inv (s : State) (ctx slot c : Nat) (hs : s.vault.wf = true) :
    (State.restoreCol s ctx slot c).vault.wf = true := by
  unfold State.restoreCol
  dsimp only
  split
  · exact hs
  · exact foldl_wf _ _ _ (Memory.wf_clearValid hs _ _) fun _ _ ht => testWatches_inv _ _ _ _ ht

@[simp] theorem restoreCtx_inv (s : State) (p ctx slot : Nat) (hs : s.vault.wf = true) :
    (State.restoreCtx s p ctx slot).vault.wf = true := foldl_wf _ _ s hs fun _ _ ht => restoreCol_inv _ _ _ _ ht

@[simp] theorem dropImages_inv (s : State) (p slot : Nat) (hs : s.vault.wf = true) :
    (State.dropImages s p slot).vault.wf = true := foldl_vault_wf _ _ _ hs fun _ _ h => Memory.wf_clearValid h _ _

@[simp] theorem execHold_inv (p : Nat) (s : State) (hs : s.vault.wf = true) : KeepsInv (execHold p s) := by
  unfold execHold
  dsimp only
  repeat' split
  all_goals simp [hs]

@[simp] theorem execHoldRelease_inv (p : Nat) (s : State) (hs : s.vault.wf = true) : KeepsInv (execHoldRelease p s) := by
  unfold execHoldRelease
  split
  all_goals simp [hs]

@[simp] theorem execRehearsalStart_inv (col : Nat) (s : State) (hs : s.vault.wf = true) : KeepsInv (execRehearsalStart col s) := by
  unfold execRehearsalStart
  dsimp only
  repeat' split
  all_goals simp [hs]

@[simp] theorem execRehearsalEnd_inv (col unit block : Nat) (s : State) (hs : s.vault.wf = true) :
    KeepsInv (execRehearsalEnd col unit block s) := by
  unfold execRehearsalEnd
  dsimp only
  repeat' split
  all_goals simp [hs]

@[simp] theorem losePart_inv (s : State) (p : Nat) (hs : s.vault.wf = true) :
    (State.losePart s p).vault.wf = true := foldl_wf _ _ { s with dev := _ } hs fun _ _ ht => contextReset_inv _ _ _ _ _ ht

@[simp] theorem retireAbsent_inv (s : State) (c : Nat) (hs : s.vault.wf = true) :
    (State.retireAbsent s c).vault.wf = true := foldl_wf _ _ _ hs fun _ _ ht => losePart_inv _ _ ht

@[simp] theorem resetHolders_inv (s : State) (c : Nat) (hs : s.vault.wf = true) : (State.resetHolders s c).vault.wf = true := by
  refine foldl_wf _ _ _ hs fun _ _ ht => ?_
  split
  · exact contextReset_inv _ _ _ _ _ ht
  · exact ht

@[simp] theorem execColumnRetirement_inv (col understudy : Nat) (readable : Bool) (s : State) (hs : s.vault.wf = true) :
    KeepsInv (execColumnRetirement col understudy readable s) := by
  unfold execColumnRetirement
  dsimp only
  repeat' split
  all_goals simp [hs]

@[simp] theorem execCmdTailDoorbell_inv (r : RingId) (entries : List CmdEntry) (tail : Nat) (s : State) (hs : s.vault.wf = true) :
    KeepsInv (execCmdTailDoorbell r entries tail s) := by simp [execCmdTailDoorbell, hs]

@[simp] theorem execCplHeadAdvance_inv (r : RingId) (head : Nat) (s : State) (hs : s.vault.wf = true) :
    KeepsInv (execCplHeadAdvance r head s) := by simp [execCplHeadAdvance, hs]

@[simp] theorem command_inv (d : Dev) (r : RingId) (ok : Nat → Bool) (run : CmdEntry → Dev → State) (idle : Dev → State)
    (hrun : ∀ a0 a1, (run a0 a1).vault.wf = true) (hidle : ∀ a0, (idle a0).vault.wf = true) :
    (Dev.command d r ok run idle).vault.wf = true := by
  unfold Dev.command
  dsimp only
  repeat' split
  all_goals simp [hrun, hidle]

@[simp] theorem withCtx_inv (s : State) (p : Nat) (e : CmdEntry) (go : Nat → State) (hs : s.vault.wf = true)
    (hgo : ∀ a0, (go a0).vault.wf = true) :
    (State.withCtx s p e go).vault.wf = true := by
  unfold State.withCtx
  split
  all_goals simp [hs, hgo]

@[simp] theorem withNewCtx_inv (s : State) (p : Nat) (e : CmdEntry) (go : State → Nat → State) (hs : s.vault.wf = true)
    (hgo : ∀ a0 a1, a0.vault.wf = true → (go a0 a1).vault.wf = true) :
    (State.withNewCtx s p e go).vault.wf = true := by
  unfold State.withNewCtx
  dsimp only
  repeat' split
  all_goals simp [hs, hgo]

@[simp] theorem acceptLaunch_inv (s : State) (p : Nat) (e : CmdEntry) (hs : s.vault.wf = true) :
    (State.acceptLaunch s p e).vault.wf = true := by
  unfold State.acceptLaunch
  dsimp only
  repeat' split
  all_goals simp [hs]

@[simp] theorem execLaunch_inv (p : Nat) (s : State) (hs : s.vault.wf = true) : KeepsInv (execLaunch p s) := by
  unfold execLaunch
  dsimp only
  split
  · exact (keepsInv_next _).2 (trial_inv _ _ _ _ hs fun t ht => acceptLaunch_inv _ _ _ ht)
  · refine (keepsInv_next _).2 (command_inv _ _ _ _ _ (fun e d => withNewCtx_inv _ _ _ _ hs fun _ _ ht => ?_) fun d => hs)
    split <;> simp [ht]

@[simp] theorem execGraph_inv (p : Nat) (s : State) (hs : s.vault.wf = true) : KeepsInv (execGraph p s) := by
  refine (keepsInv_next _).2 (command_inv _ _ _ _ _ (fun e d => withNewCtx_inv _ _ _ _ hs fun _ _ ht => ?_) fun d => hs)
  dsimp only
  split <;> simp [ht]

@[simp] theorem preempt_inv (s : State) (p : Nat) (e : CmdEntry) (hs : s.vault.wf = true) : (State.preempt s p e).vault.wf = true := by
  refine withCtx_inv _ _ _ _ hs fun ctx => ?_
  dsimp only
  repeat' split
  all_goals exact hs

@[simp] theorem execPreempt_inv (p : Nat) (s : State) (hs : s.vault.wf = true) : KeepsInv (execPreempt p s) := by
  unfold execPreempt
  split
  all_goals simp [hs]

@[simp] theorem resume_inv (s : State) (p : Nat) (e : CmdEntry) (hs : s.vault.wf = true) : (State.resume s p e).vault.wf = true := by
  refine withCtx_inv _ _ _ _ hs fun ctx => ?_
  dsimp only
  repeat' split
  all_goals simp [hs]

@[simp] theorem execResume_inv (p : Nat) (s : State) (hs : s.vault.wf = true) : KeepsInv (execResume p s) := by
  unfold execResume
  split
  all_goals simp [hs]

@[simp] theorem execReset_inv (p : Nat) (s : State) (hs : s.vault.wf = true) : KeepsInv (execReset p s) := (keepsInv_next _).2
    (command_inv _ _ _ _ _ (fun _ _ => withCtx_inv _ _ _ _ hs fun _ => contextReset_inv _ _ _ _ _ hs) fun _ => hs)

@[simp] theorem execMark_inv (p : Nat) (s : State) (hs : s.vault.wf = true) : KeepsInv (execMark p s) := by simp [execMark, hs]

@[simp] theorem dropCtx_inv (s : State) (p ctx slot : Nat) (hs : s.vault.wf = true) :
    (State.dropCtx s p ctx slot).vault.wf = true := by simp [State.dropCtx, hs]

@[simp] theorem execDrop_inv (p : Nat) (s : State) (hs : s.vault.wf = true) : KeepsInv (execDrop p s) := by
  refine (keepsInv_next _).2 (command_inv _ _ _ _ _ (fun e d => withCtx_inv _ _ _ _ hs fun ctx => ?_) fun _ => hs)
  dsimp only
  split <;> simp [hs]

@[simp] theorem execUnassignedOpc_inv (r : RingId) (s : State) (hs : s.vault.wf = true) :
    KeepsInv (execUnassignedOpc r s) := by simp [execUnassignedOpc, hs]

@[simp] theorem execPcreate_inv (s : State) (hs : s.vault.wf = true) : KeepsInv (execPcreate s) := by simp [execPcreate, hs]

@[simp] theorem execPremove_inv (s : State) (hs : s.vault.wf = true) : KeepsInv (execPremove s) := by
  refine (keepsInv_next _).2 (command_inv _ _ _ _ _ (fun e d => ?_) fun _ => hs)
  dsimp only
  split <;> exact hs

@[simp] theorem execGrant_inv (s : State) (hs : s.vault.wf = true) : KeepsInv (execGrant s) := by
  refine (keepsInv_next _).2 (command_inv _ _ _ _ _ (fun e d => ?_) fun _ => hs)
  dsimp only
  split <;> exact hs

@[simp] theorem execAttest_inv (s : State) (hs : s.vault.wf = true) : KeepsInv (execAttest s) := by
  refine (keepsInv_next _).2 (command_inv _ _ _ _ _ (fun e d => ?_) fun _ => hs)
  dsimp only
  repeat' split
  all_goals exact hs

@[simp] theorem execTableWalkComplete_inv (col ctx off : Nat) (write priv : Bool) (s : State) (hs : s.vault.wf = true) :
    KeepsInv (execTableWalkComplete col ctx off write priv s) := by
  unfold execTableWalkComplete
  dsimp only
  repeat' split
  all_goals simp [hs]

@[simp] theorem execFetchLineArrival_inv (col slot : Nat) (s : State) (hs : s.vault.wf = true) :
    KeepsInv (execFetchLineArrival col slot s) := by
  unfold execFetchLineArrival
  dsimp only
  repeat' split
  all_goals simp [hs]

@[simp] theorem execWingStageFaultArrival_inv (col ctx gran : Nat) (s : State) (hs : s.vault.wf = true) :
    KeepsInv (execWingStageFaultArrival col ctx gran s) := by
  unfold execWingStageFaultArrival
  dsimp only
  repeat' split
  all_goals simp [hs]

@[simp] theorem execFaultRecordSend_inv (p ctx gran : Nat) (s : State) (hs : s.vault.wf = true) :
    KeepsInv (execFaultRecordSend p ctx gran s) := by
  unfold execFaultRecordSend
  dsimp only
  repeat' split
  all_goals simp [hs]

/-- A replayed entry that is performed leaves the vaults' bytes canonical. -/
theorem replayEntry_inv {s t : State} {c : Nat} {e : LogEntry} (hs : s.vault.wf = true) (eq : s.replayEntry c e = .performed t) :
    t.vault.wf = true := by
  unfold State.replayEntry at eq
  dsimp only at eq
  repeat' split at eq
  all_goals simp at eq
  all_goals subst eq
  all_goals simp [hs]

@[simp] theorem replayLog_inv (s : State) (c gran : Nat) (b0 : List LogEntry) (hs : s.vault.wf = true) :
    (State.replayLog s c gran b0).1.vault.wf = true := by
  induction b0 generalizing s with
  | nil => exact hs
  | cons e rest ih =>
    unfold State.replayLog
    split
    next h => exact ih _ (replayEntry_inv hs h)
    next h => exact hs
    next h =>
      split
      · exact hs
      · exact ih _ hs

@[simp] theorem retryAt_inv (s : State) (c ctx gran : Nat) (hs : s.vault.wf = true) : (State.retryAt s c ctx gran).1.vault.wf = true := by
  unfold State.retryAt
  dsimp only
  repeat' split
  all_goals simp [hs]

@[simp] theorem refuseAt_inv (s : State) (c ctx gran kind : Nat) (hs : s.vault.wf = true) :
    (State.refuseAt s c ctx gran kind).vault.wf = true := by
  unfold State.refuseAt
  dsimp only
  repeat' split
  all_goals simp [hs]

@[simp] theorem deliver_inv (s : State) (x : Resolution) (c : Nat) (hs : s.vault.wf = true) : (State.deliver s x c).vault.wf = true := by
  unfold State.deliver
  dsimp only
  repeat' split
  all_goals simp [hs]

@[simp] theorem execFaultResolution_inv (p rseq col : Nat) (v : Verdict) (s : State) (hs : s.vault.wf = true) :
    KeepsInv (execFaultResolution p rseq col v s) := by
  unfold execFaultResolution
  dsimp only
  repeat' split
  all_goals simp [hs]

@[simp] theorem takeDeferred_inv (s : State) (c slot : Nat) (r : Deferred) (hs : s.vault.wf = true) :
    (State.takeDeferred s c slot r).vault.wf = true := by simp [State.takeDeferred, hs]

@[simp] theorem execDeferredTrap_inv (col slot : Nat) (s : State) (hs : s.vault.wf = true) : KeepsInv (execDeferredTrap col slot s) := by
  unfold execDeferredTrap
  dsimp only
  repeat' split
  all_goals simp [hs]

@[simp] theorem stageWrite_inv (s : State) (c va n : Nat) (hs : s.vault.wf = true) :
    (State.stageWrite s c va n).vault.wf = true := by simp [State.stageWrite, hs]

@[simp] theorem setLeaf_inv (s : State) (c ctx gran : Nat) (f : Nat → Nat) (hs : s.vault.wf = true) :
    (State.setLeaf s c ctx gran f).vault.wf = true := by
  unfold State.setLeaf
  split
  all_goals simp [hs]

@[simp] theorem migrateWatches_inv (s : State) (c ctx lo hi : Nat) (hs : s.vault.wf = true) :
    (State.migrateWatches s c ctx lo hi).vault.wf = true := by simp [State.migrateWatches, hs]

@[simp] theorem migrateStart_inv (s : State) (ctx base n old : Nat) (hs : s.vault.wf = true) :
    (State.migrateStart s ctx base n old).vault.wf = true := foldl_wf _ _ s hs fun _ _ ht => migrateWatches_inv _ _ _ _ _ (setLeaf_inv _ _ _ _ _ ht)

@[simp] theorem frameOut_inv (s : State) (c old n : Nat) (hs : s.vault.wf = true) :
    (State.frameOut s c old n).vault.wf = true := by simp [State.frameOut, hs]

@[simp] theorem moveFrame_inv (s : State) (c old new n : Nat) (zc : Bool) (hs : s.vault.wf = true) :
    (State.moveFrame s c old new n zc).vault.wf = true := by
  unfold State.moveFrame
  dsimp only
  repeat' split
  all_goals simp [hs, Memory.wf_copy]

@[simp] theorem migrateEnd_inv (s : State) (p ctx base n old new : Nat) (zc : Bool) (hs : s.vault.wf = true) :
    (State.migrateEnd s p ctx base n old new zc).vault.wf = true := by
  unfold State.migrateEnd
  dsimp only
  refine foldl_wf _ _ _ (foldl_wf _ _ _ hs fun _ _ ht => ?_) fun t c ht => setLeaf_inv _ _ _ _ _ ht
  exact moveFrame_inv _ _ _ _ _ _ (frameOut_inv _ _ _ _ ht)

@[simp] theorem migrateAway_inv (s : State) (ctx base n old : Nat) (hs : s.vault.wf = true) :
    (State.migrateAway s ctx base n old).vault.wf = true := foldl_wf _ _ s hs fun _ _ ht => setLeaf_inv _ _ _ _ _ (frameOut_inv _ _ _ _ ht)

@[simp] theorem execMigration_inv (p ctx page frame : Nat) (s : State) (hs : s.vault.wf = true) :
    KeepsInv (execMigration p ctx page frame s) := by
  unfold execMigration
  dsimp only
  repeat' split
  all_goals simp [hs]

@[simp] theorem execPowerOn_inv (step : BringUp) (s : State) (hs : s.vault.wf = true) : KeepsInv (execPowerOn step s) := by
  unfold execPowerOn
  dsimp only
  repeat' split
  all_goals simp [hs]

@[simp] theorem execFunctionFailure_inv (f : ReadyFn) (s : State) (hs : s.vault.wf = true) : KeepsInv (execFunctionFailure f s) := by
  unfold execFunctionFailure
  dsimp only
  repeat' split
  all_goals simp [hs]

@[simp] theorem execHostMemoryRead_inv (port addr len : Nat) (s : State) (hs : s.vault.wf = true) :
    KeepsInv (execHostMemoryRead port addr len s) := by
  unfold execHostMemoryRead
  repeat' split
  all_goals simp [hs]

@[simp] theorem execHostMemoryWrite_inv (port addr : Nat) (bytes : List Byte) (s : State) (hs : s.vault.wf = true) :
    KeepsInv (execHostMemoryWrite port addr bytes s) := by
  unfold execHostMemoryWrite
  dsimp only
  repeat' split
  all_goals simp [hs]

@[simp] theorem execPowerLimitState_inv (power : Nat) (junction : Vector Nat 4) (s : State) (hs : s.vault.wf = true) :
    KeepsInv (execPowerLimitState power junction s) := by simp [execPowerLimitState, hs]

@[simp] theorem execClockGateIdle_inv (col : Nat) (s : State) (hs : s.vault.wf = true) : KeepsInv (execClockGateIdle col s) := by
  unfold execClockGateIdle
  dsimp only
  repeat' split
  all_goals simp [hs]

@[simp] theorem execThermalHoldEntry_inv (junction : Vector Nat 4) (inlet : Nat) (s : State) (hs : s.vault.wf = true) :
    KeepsInv (execThermalHoldEntry junction inlet s) := by
  unfold execThermalHoldEntry
  dsimp only
  repeat' split
  all_goals simp [hs]

@[simp] theorem execThermalHoldExit_inv (junction : Vector Nat 4) (inlet : Nat) (s : State) (hs : s.vault.wf = true) :
    KeepsInv (execThermalHoldExit junction inlet s) := by
  unfold execThermalHoldExit
  dsimp only
  repeat' split
  all_goals simp [hs]

@[simp] theorem execTwimorIdentityRead_inv (s : State) (hs : s.vault.wf = true) :
    KeepsInv (execTwimorIdentityRead s) := by simp [execTwimorIdentityRead, hs]

@[simp] theorem execTwimorSensorRead_inv (s : State) (hs : s.vault.wf = true) :
    KeepsInv (execTwimorSensorRead s) := by simp [execTwimorSensorRead, hs]

@[simp] theorem execTwimorErrorRecordRead_inv (die : Nat) (s : State) (hs : s.vault.wf = true) :
    KeepsInv (execTwimorErrorRecordRead die s) := by simp [execTwimorErrorRecordRead, hs]

@[simp] theorem answer_inv (s : State) (a : Ask) (hs : s.vault.wf = true) : (State.answer s a).vault.wf = true := by
  unfold State.answer
  dsimp only
  repeat' split
  all_goals simp [hs]

@[simp] theorem execTwimorImageWrite_inv (part : FlashPart) (die : Nat) (bytes : List Byte) (s : State) (hs : s.vault.wf = true) :
    KeepsInv (execTwimorImageWrite part die bytes s) := by
  unfold execTwimorImageWrite
  dsimp only
  repeat' split
  all_goals simp [hs]

@[simp] theorem execTwimorModuleReset_inv (s : State) (hs : s.vault.wf = true) : KeepsInv (execTwimorModuleReset s) := by
  unfold execTwimorModuleReset
  dsimp only
  split
  · simp [hs]
  · simp [Memory.wf, Memory.above]

@[simp] theorem execDebuggerAttach_inv (on : Bool) (s : State) (hs : s.vault.wf = true) :
    KeepsInv (execDebuggerAttach on s) := by simp [execDebuggerAttach, hs]

@[simp] theorem execDebuggerResume_inv (col slot : Nat) (after : Bool) (s : State) (hs : s.vault.wf = true) :
    KeepsInv (execDebuggerResume col slot after s) := by
  unfold execDebuggerResume
  dsimp only
  repeat' split
  all_goals simp [hs]

@[simp] theorem execLoadDataReturn_inv (col op req : Nat) (s : State) (hs : s.vault.wf = true) :
    KeepsInv (execLoadDataReturn col op req s) := by
  unfold execLoadDataReturn
  repeat' split
  all_goals simp [hs]

@[simp] theorem execStorePerformed_inv (col op req : Nat) (s : State) (hs : s.vault.wf = true) :
    KeepsInv (execStorePerformed col op req s) := by
  unfold execStorePerformed
  repeat' split
  all_goals simp [hs]

@[simp] theorem execGwctReturn_inv (col op : Nat) (s : State) (hs : s.vault.wf = true) : KeepsInv (execGwctReturn col op s) := by
  unfold execGwctReturn
  repeat' split
  all_goals simp [hs]

@[simp] theorem execLeaseExpiry_inv (col ctx line : Nat) (s : State) (hs : s.vault.wf = true) :
    KeepsInv (execLeaseExpiry col ctx line s) := by simp [execLeaseExpiry, hs]

@[simp] theorem execReleaseWaitEnd_inv (col slot : Nat) (s : State) (hs : s.vault.wf = true) :
    KeepsInv (execReleaseWaitEnd col slot s) := by
  unfold execReleaseWaitEnd
  repeat' split
  all_goals simp [hs]

@[simp] theorem execSubnormalReplayDone_inv (col op : Nat) (s : State) (hs : s.vault.wf = true) :
    KeepsInv (execSubnormalReplayDone col op s) := by
  unfold execSubnormalReplayDone
  repeat' split
  all_goals simp [hs]

@[simp] theorem execSequencerTicket_inv (s : State) (hs : s.vault.wf = true) : KeepsInv (execSequencerTicket s) := by
  unfold execSequencerTicket
  dsimp only
  repeat' split
  all_goals simp [hs]

@[simp] theorem barLate_inv (s : State) (c slot b count form : Nat) (m : BitVec 7) (hs : s.vault.wf = true) :
    (State.barLate s c slot b count form m).vault.wf = true := by
  unfold State.barLate
  dsimp only
  repeat' split
  all_goals simp [hs]

@[simp] theorem barLateAll_inv (s : State) (c gang b : Nat) (hs : s.vault.wf = true) : (State.barLateAll s c gang b).vault.wf = true := by
  refine foldl_wf _ _ _ hs fun _ _ ht => ?_
  split
  · split <;> simp [ht]
  · exact ht

@[simp] theorem execBarrierPhaseComplete_inv (col gang bar : Nat) (s : State) (hs : s.vault.wf = true) :
    KeepsInv (execBarrierPhaseComplete col gang bar s) := by
  unfold execBarrierPhaseComplete
  dsimp only
  repeat' split
  all_goals simp [hs]

@[simp] theorem execBardPhaseComplete_inv (launch unit channel : Nat) (s : State) (hs : s.vault.wf = true) :
    KeepsInv (execBardPhaseComplete launch unit channel s) := by
  unfold execBardPhaseComplete
  dsimp only
  repeat' split
  all_goals simp [hs]

@[simp] theorem execWarpEnterActive_inv (col : Nat) (s : State) (hs : s.vault.wf = true) :
    KeepsInv (execWarpEnterActive col s) := by simp [execWarpEnterActive, hs]

@[simp] theorem execWarpOverdue_inv (col slot : Nat) (s : State) (hs : s.vault.wf = true) : KeepsInv (execWarpOverdue col slot s) := by
  unfold execWarpOverdue
  split
  all_goals simp [hs]

@[simp] theorem keeps_glaunchIssue (f : VFields) (s : State) (hs : s.vault.wf = true) : (glaunchIssue f s).keeps = true := by
  refine keeps_Dev_whole _ _ _ fun _ => keeps_VCtx_withUni _ _ _ _ _ fun _ => keeps_Dev_afterAcquire _ _ fun _ => ?_
  exact keeps_ite _ _ _ rfl (glaunchGo_inv _ _ _ _ hs)

@[simp] theorem keeps_ctxswResetIssue (f : SFields) (s : State) (hs : s.vault.wf = true) : (ctxswResetIssue f s).keeps = true := by
  refine keeps_Dev_privileged _ _ _ _ fun _ => keeps_Dev_whole _ _ _ fun _ => keeps_VCtx_readUni _ _ _ _ _ fun _ => ?_
  exact contextReset_inv _ _ _ _ _ hs

theorem execSetpart_inv (f : VFields) (s : State) (hs : s.vault.wf = true) : KeepsInv (execSetpart f s) :=
  conclude_inv _ _ hs ((Issue.keeps_hinted _ _).trans (keeps_Dev_whole _ _ _ fun _ => rfl))

theorem execAred_inv (f : MFields) (s : State) (hs : s.vault.wf = true) : KeepsInv (execAred f s) :=
  conclude_inv _ _ hs (keeps_atomIssue _ _ _ _ _ fun _ _ _ =>
    keeps_ite _ _ _ rfl (keeps_ite _ _ _ (keeps_Dev_release _ _ _ fun _ => rfl) rfl))

theorem execAtsc_inv (f : MFields) (s : State) (hs : s.vault.wf = true) : KeepsInv (execAtsc f s) :=
  conclude_inv _ _ hs (keeps_Dev_whole _ _ _ fun _ => keeps_atomIssue _ _ _ _ _ fun _ _ _ =>
    keeps_ite _ _ _ rfl (keeps_Dev_release _ _ _ fun _ => keeps_atomStart ..))

@[simp] theorem exec_inv (i : Instr) (s : State) (hs : s.vault.wf = true) : KeepsInv (exec i s) := by
  cases i
  iterate 73 next f => simp only [exec]; exact conclude_inv _ _ hs (by simp [hs, apply_ite Issue.keeps])
  next f => exact execSetpart_inv f s hs
  iterate 27 next f => simp only [exec]; exact conclude_inv _ _ hs (by simp [apply_ite Issue.keeps])
  next f => exact execAred_inv f s hs
  next f => exact execAtsc_inv f s hs
  iterate 38 next f => simp only [exec]; exact conclude_inv _ _ hs (by simp [hs, apply_ite Issue.keeps])
  all_goals simp [exec, hs]

@[simp] theorem nextOr_inv (s : State) (b0 : Host.Outcome State Fault Refusal) (hs : s.vault.wf = true) (h0 : KeepsInv b0) :
    (nextOr s b0).vault.wf = true := by
  unfold nextOr
  split
  · simpa using h0
  · exact hs

@[simp] theorem issuing_inv (s : State) (c slot : Nat) (hs : s.vault.wf = true) :
    (State.issuing s c slot).vault.wf = true := by simp [State.issuing, hs]

@[simp] theorem place_inv (s : State) (paired second : Bool) (hs : s.vault.wf = true) :
    (State.place s paired second).vault.wf = true := by simp [State.place, hs]

@[simp] theorem runOne_inv (s : State) (w : Insn) (hs : s.vault.wf = true) : (State.runOne s w).vault.wf = true := by
  unfold State.runOne
  split
  all_goals simp [hs]

@[simp] theorem runSecond_inv (s : State) (w : Insn) (hs : s.vault.wf = true) :
    (State.runSecond s w).vault.wf = true := by simp [State.runSecond, hs]

@[simp] theorem runPair_inv (s : State) (v w : Insn) (hs : s.vault.wf = true) : (State.runPair s v w).vault.wf = true := by
  have placed := place_inv s true false hs
  unfold State.runPair
  dsimp only
  split
  · simp [placed]
  · simp [placed]
  · split
    · repeat' split
      all_goals simp [placed]
    · exact placed

@[simp] theorem runLine_inv (s : State) (b : BitVec 512) (j : Nat) (hs : s.vault.wf = true) : (State.runLine s b j).vault.wf = true := by
  unfold State.runLine
  repeat' split
  all_goals simp [hs]

@[simp] theorem setPriv_inv (s : State) (sys : Bool) (hs : s.vault.wf = true) :
    (State.setPriv s sys).vault.wf = true := by simp [State.setPriv, hs]

@[simp] theorem runFetched_inv (s : State) (x : Fetched) (hs : s.vault.wf = true) : (State.runFetched s x).vault.wf = true := by
  unfold State.runFetched
  dsimp only
  repeat' split
  all_goals simp [hs]

@[simp] theorem tryIssue_inv (s : State) (c slot : Nat) (hs : s.vault.wf = true) : (State.tryIssue s c slot).vault.wf = true := by
  unfold State.tryIssue
  dsimp only
  repeat' split
  all_goals simp [hs]


@[simp] theorem tryWarps_inv (s : State) (c : Nat) (b0 : List Nat) (hs : s.vault.wf = true) :
    (State.tryWarps s c b0).1.vault.wf = true ∧ (State.tryWarps s c b0).2.1.vault.wf = true := by
  induction b0 generalizing s with
  | nil => exact ⟨hs, hs⟩
  | cons x xs ih =>
    unfold State.tryWarps
    dsimp only
    split
    · exact ih _ (tryIssue_inv _ _ _ hs)
    · exact ⟨hs, tryIssue_inv _ _ _ hs⟩

@[simp] theorem met_inv (s t : State) (c slot : Nat) (hs : s.vault.wf = true) (ht : t.vault.wf = true) :
    (State.met s t c slot).vault.wf = true := by simp [State.met, hs, ht]

@[simp] theorem lookAt_inv (s : State) (c : Nat) (b0 : List Nat) (hs : s.vault.wf = true) : (State.lookAt s c b0).1.vault.wf = true := by
  induction b0 generalizing s with
  | nil => exact hs
  | cons x xs ih =>
    unfold State.lookAt
    dsimp only
    split
    · exact ih _ (met_inv _ _ _ _ hs (tryIssue_inv _ _ _ hs))
    · exact ih _ hs

@[simp] theorem openTurn_inv (s : State) (c : Nat) (hs : s.vault.wf = true) :
    (State.openTurn s c).vault.wf = true := by simp [State.openTurn, hs]

@[simp] theorem issuedBy_inv (s : State) (c : Nat) (who : Option Nat) (hs : s.vault.wf = true) :
    (State.issuedBy s c who).vault.wf = true := by
  unfold State.issuedBy
  split
  all_goals simp [hs]

@[simp] theorem issueDone_inv (s : State) (c : Nat) (who : Option Nat) (over_ rest : List Nat) (hs : s.vault.wf = true) :
    (State.issueDone s c who over_ rest).vault.wf = true := by simp [State.issueDone, hs]

theorem tryWarps_inv_of_eq {s t u : State} {c : Nat} {xs : List Nat} {r} (hs : s.vault.wf = true) (eq : s.tryWarps c xs = (t, u, r)) :
    u.vault.wf = true := by
  simpa [eq] using (tryWarps_inv s c xs hs).2

@[simp] theorem issueTurn_inv (s : State) (c : Nat) (hs : s.vault.wf = true) : (State.issueTurn s c).vault.wf = true := by
  unfold State.issueTurn
  dsimp only
  split
  · exact hs
  · split
    next h => exact issueDone_inv _ _ _ _ _ (tryWarps_inv_of_eq (by exact openTurn_inv _ _ hs) h)
    next h => exact issueDone_inv _ _ _ _ _ (tryWarps_inv_of_eq (by exact openTurn_inv _ _ hs) h)

@[simp] theorem handRun_inv (s : State) (c : Nat) (hs : s.vault.wf = true) : (State.handRun s c).vault.wf = true := by
  unfold State.handRun
  dsimp only
  repeat' split
  all_goals simp [hs]

@[simp] theorem handTurn_inv (s : State) (c : Nat) (hs : s.vault.wf = true) : (State.handTurn s c).vault.wf = true := by
  unfold State.handTurn
  dsimp only
  repeat' split
  all_goals simp [hs]

@[simp] theorem step_inv (s : State) (hs : s.vault.wf = true) : KeepsInv (step s) := by
  unfold step
  repeat' split
  all_goals simp [hs]

end Sys2Proof.Machine
end

section
namespace Sys2Proof

open Sys2Proof.Machine

/-- Settles O59: every function that a step runs keeps the form (`step_inv`), since each writes the vaults by `Memory.write`, `copy`,
`saveImage` or `clearValid` alone. -/
theorem stepKeepsVaultCanonical : Obligations.StepKeepsVaultCanonical := by
  unfold Obligations.StepKeepsVaultCanonical
  exact fun s t h eq => step_inv s h t eq

/-- Settles O60: nothing is listed at reset, and the empty list is canonical. -/
theorem resetIsCanonical : Obligations.ResetIsCanonical := by
  unfold Obligations.ResetIsCanonical
  exact ⟨rfl, rfl⟩

end Sys2Proof
end

section
/-! Proofs about what V-format instructions read and write: that each source's lanes agree with its shape (R65), that a result made lane by
lane from sources does too (R66), and the completion of the instructions that write one. -/

namespace Sys2Proof.Machine

/-! ## Sources agree with their shapes -/

/-- The lanes of a source read as its shape says (R65): one value and one poison of a uniform source, a line of an affine one. -/
structure Src.Shaped (s : Src) : Prop where
  uniform : s.shape = .uniform → ∀ l, l < 32 → lane s.vals l = lane s.vals 0 ∧ Mask.has s.pois l = Mask.has s.pois 0
  affine  : ∀ b t, s.shape = .affine b t → ∀ l, l < 32 → lane s.vals l = b + BitVec.ofNat 32 l * t ∧ Mask.has s.pois l = Mask.has s.pois 0

@[simp] theorem Src.shaped_const (code : Nat) (v : Word) (tag : BitVec 5) : (Src.const code v tag).Shaped where
  uniform := by intro _ l hl; simp [Src.const, hl]
  affine := by simp [Src.const]

theorem Src.shaped_special (d : Dev) (code : Nat) (k : BitVec 5) : (Src.special d code k).Shaped := by
  unfold Src.special
  split
  · refine ⟨by simp, fun b t h l hl => ?_⟩
    cases h
    simp [Src.const, hl]
  · split <;> exact Src.shaped_const _ _ _

theorem srcLane_own (wlog : Nat) (k : BitVec 5) (l : Nat) : srcLane wlog 0 k l = l := by simp [srcLane]

theorem srcLane_broadcast (wlog : Nat) (k : BitVec 5) (l : Nat) : srcLane wlog 3 k l = k.toNat := by simp [srcLane]

theorem Src.shaped_direct (w : Warp) (code r : Nat) (pat : BitVec 2) (k : BitVec 5) : (Src.direct w code r pat k).Shaped := by
  have h0 : 0 < 32 := Nat.zero_lt_succ 31
  constructor
  · intro h l hl
    simp only [Src.direct, patShape] at h ⊢
    simp only [lane_tab _ hl, lane_tab _ h0, Mask.has_of _ hl, Mask.has_of _ h0]
    by_cases h3 : pat = 3
    · subst h3
      simp only [srcLane_broadcast, and_self]
    · have hu : (w.reg r).data.shape = .uniform := by
        by_cases hp : pat = 0
        · rwa [if_neg h3, if_pos hp] at h
        · rw [if_neg h3, if_neg hp] at h
          split at h
          · assumption
          · cases h
      cases hd : (w.reg r).data with
      | uniform v p => simp [RegData.lane, RegData.pois]
      | affine b s p => simp [hd, RegData.shape] at hu
      | general vs p => simp [hd, RegData.shape] at hu
  · intro b t h l hl
    simp only [Src.direct, patShape] at h ⊢
    by_cases h3 : pat = 3
    · simp [h3] at h
    · by_cases hp : pat = 0
      · subst hp
        simp only [lane_tab _ hl, Mask.has_of _ hl, Mask.has_of _ h0, srcLane_own]
        cases hd : (w.reg r).data with
        | uniform v p => simp [hd, RegData.shape] at h
        | affine b s p =>
          simp only [hd, RegData.shape, h3, if_false, if_true, Shape.affine.injEq] at h
          obtain ⟨rfl, rfl⟩ := h
          exact ⟨rfl, rfl⟩
        | general vs p => simp [hd, RegData.shape] at h
      · simp only [h3, hp, if_false] at h
        split at h <;> cases h

theorem Src.shaped_indirect (w : Warp) (act : Mask) (pre : List Nat) (code : Nat) (o : Operand) (pat : BitVec 2) (k : BitVec 5) (chk : Mask) :
    (Src.indirect w act pre code o pat k chk).Shaped := by
  constructor
  · intro h l hl
    have h3 : pat = 3 := by
      simp only [Src.indirect] at h
      split at h
      · assumption
      · cases h
    subst h3
    simp only [Src.indirect, lane_tab _ hl, lane_tab _ (Nat.zero_lt_succ 31), Mask.has_of _ hl, Mask.has_of _ (Nat.zero_lt_succ 31),
      srcLane_broadcast, and_self]
  · intro b t h
    simp only [Src.indirect] at h
    split at h <;> cases h

theorem VCtx.shaped_src (x : VCtx) (code : Nat) (o : Operand) : (x.src code o).Shaped := by
  unfold VCtx.src
  split
  · exact Src.shaped_indirect _ _ _ _ _ _ _ _
  · split
    · exact Src.shaped_special _ _ _
    · exact Src.shaped_direct _ _ _ _ _

theorem VCtx.shaped_old (x : VCtx) (d : BitVec 9) : (x.old d).Shaped := by
  unfold VCtx.old
  split
  · exact Src.shaped_indirect _ _ _ _ _ _ _ _
  · exact Src.shaped_direct _ _ _ _ _

theorem VCtx.shaped_oldOf (x : VCtx) (o : Operand) : (x.oldOf o).Shaped := by
  unfold VCtx.oldOf
  split
  · exact Src.shaped_indirect _ _ _ _ _ _ _ _
  · exact Src.shaped_direct _ _ _ _ _

theorem VCtx.shaped_reg (x : VCtx) (code r : Nat) (o : Operand) : (x.reg code r o).Shaped := Src.shaped_direct _ _ _ _ _

theorem VCtx.shaped_srcB (x : VCtx) (f : VFields) (tag : BitVec 5) : (x.srcB f tag).Shaped := by
  unfold VCtx.srcB
  split
  · exact Src.shaped_const _ _ _
  · exact x.shaped_src _ _

theorem VCtx.shaped_srcC (x : VCtx) (f : VFields) : (x.srcC f).Shaped := by
  unfold VCtx.srcC
  split
  · exact x.shaped_old _
  · exact x.shaped_src _ _

/-- Every source of a list agrees with its shape. -/
def AllShaped (ss : List Src) : Prop := ∀ s ∈ ss, s.Shaped

@[simp] theorem allShaped_nil : AllShaped [] := by simp [AllShaped]

@[simp] theorem allShaped_cons (s : Src) (ss : List Src) : AllShaped (s :: ss) ↔ s.Shaped ∧ AllShaped ss := by simp [AllShaped]

/-! ## Results made from sources -/

/-- The poison of a list of sources, lane by lane. -/
theorem has_poisOf (ss : List Src) (l : Nat) : Mask.has (poisOf ss) l = anyPois ss l := by
  have h (m : Mask) : Mask.has (ss.foldl (fun m s => m ||| s.pois) m) l = (Mask.has m l || anyPois ss l) := by
    induction ss generalizing m with
    | nil => simp [anyPois]
    | cons s ss ih => simp [ih, anyPois, Bool.or_assoc]
  simpa [poisOf] using h 0

theorem poisOf_eq (ss : List Src) : poisOf ss = Mask.of (anyPois ss) :=
  Mask.ext_has fun l hl => by rw [has_poisOf, Mask.has_of _ hl]

theorem laneResult_holds (rule : ShapeRule) (ss : List Src) (fmt : BitVec 5) (f : Nat → Word) :
    (laneResult rule ss fmt f).Holds fmt f (anyPois ss) := ⟨rfl, poisOf_eq ss, rfl⟩

/-- A lane function of sources: where the sources read in a lane what they read in lane 0, so does it. -/
def Lanewise {α : Type} (ss : List Src) (f : Nat → α) : Prop :=
  ∀ l, l < 32 → (∀ s ∈ ss, lane s.vals l = lane s.vals 0) → f l = f 0

/-- One poison for all lanes. -/
theorem anyPois_const {ss : List Src} {l : Nat} (h : ∀ s ∈ ss, Mask.has s.pois l = Mask.has s.pois 0) : anyPois ss l = anyPois ss 0 := by
  simp only [anyPois]
  induction ss with
  | nil => rfl
  | cons s ss ih =>
    simp only [List.forall_mem_cons] at h
    simp only [List.any_cons, h.1, ih h.2]

/-- Where all sources are uniform, so are their poison and every function of their lanes. -/
theorem AllShaped.const {ss : List Src} {f : Nat → Word} (hs : AllShaped ss) (hf : Lanewise ss f)
    (hu : ∀ s ∈ ss, s.shape = .uniform) {l : Nat} (hl : l < 32) : f l = f 0 ∧ anyPois ss l = anyPois ss 0 :=
  ⟨hf l hl fun s h => ((hs s h).uniform (hu s h) l hl).1, anyPois_const fun s h => ((hs s h).uniform (hu s h) l hl).2⟩

/-- A result that is uniform only where its sources are, and general else (R66). -/
theorem Result.Holds.good_of_uniform {r : Result} {ss : List Src} {fmt : BitVec 5} {f : Nat → Word} (hr : r.Holds fmt f (anyPois ss))
    (hs : AllShaped ss) (hf : Lanewise ss f) (hshape : r.shape = .uniform ∧ (∀ s ∈ ss, s.shape = .uniform) ∨ r.shape = .general) : r.Good := by
  obtain ⟨hvals, hpois, -⟩ := hr
  rcases hshape with ⟨h, hu⟩ | h
  · refine Result.good_uniform _ h fun l hl => ?_
    have h0 : 0 < 32 := Nat.zero_lt_succ 31
    rw [hvals, hpois, lane_tab _ hl, lane_tab _ h0, Mask.has_of _ hl, Mask.has_of _ h0]
    exact hs.const hf hu hl
  · exact Result.good_general _ h

theorem resultShape_of_uniform {ss : List Src} (rule : ShapeRule) (h : ∀ s ∈ ss, s.shape = .uniform) : resultShape rule ss true = .uniform := by
  have hall : (ss.all (fun s => s.shape == .uniform) && true) = true := by simpa using h
  unfold resultShape
  rw [if_pos hall]

/-- Without a rule of R66's table the result is uniform or general. -/
theorem resultShape_plain (ss : List Src) (p : Bool) :
    resultShape .plain ss p = .uniform ∧ (∀ s ∈ ss, s.shape = .uniform) ∧ p = true ∨ resultShape .plain ss p = .general := by
  by_cases h : (∀ s ∈ ss, s.shape = .uniform) ∧ p = true
  · exact .inl ⟨by simpa [resultShape] using h, h⟩
  · right
    have : (ss.all (fun s => s.shape == .uniform) && p) = false := by
      rw [Bool.eq_false_iff]
      simpa using h
    simp [resultShape, this]

theorem laneResult_plain_good {ss : List Src} {f : Nat → Word} (fmt : BitVec 5) (hs : AllShaped ss) (hf : Lanewise ss f) :
    (laneResult .plain ss fmt f).Good := by
  refine (laneResult_holds _ _ _ _).good_of_uniform hs hf ?_
  exact (resultShape_plain ss true).imp_left fun ⟨h, hu, _⟩ => ⟨h, hu⟩

/-- A result of a rule that makes lines of lines agrees with its shape where its values are those lines. -/
theorem laneResult_line_good {rule : ShapeRule} {ss : List Src} {f : Nat → Word} {fmt : BitVec 5} (hs : AllShaped ss) (hf : Lanewise ss f)
    (hgen : (∀ s ∈ ss, s.shape = .uniform) ∨ resultShape rule ss true = .general ∨
      ∃ b t, resultShape rule ss true = .affine b t ∧ (∀ s ∈ ss, s.shape ≠ .general) ∧ (t = 0 → ∀ l, l < 32 → f l = f 0) ∧
        (affineTag fmt = true → ∀ l, l < 32 → f l = b + BitVec.ofNat 32 l * t)) :
    (laneResult rule ss fmt f).Good := by
  rcases hgen with hu | hg | ⟨b, t, ha, hline, hzero, hval⟩
  · exact (laneResult_holds _ _ _ _).good_of_uniform hs hf (.inl ⟨resultShape_of_uniform rule hu, hu⟩)
  · exact Result.good_general _ hg
  · have hpois (l : Nat) (hl : l < 32) : Mask.has (poisOf ss) l = Mask.has (poisOf ss) 0 := by
      rw [has_poisOf, has_poisOf]
      refine anyPois_const fun s h => ?_
      cases hsh : s.shape with
      | uniform => exact ((hs s h).uniform hsh l hl).2
      | affine b t => exact ((hs s h).affine b t hsh l hl).2
      | general => exact absurd hsh (hline s h)
    have h0 : 0 < 32 := Nat.zero_lt_succ 31
    intro l hl
    have hw : (laneResult rule ss fmt f).whole = if t = 0 then { fmt := fmt, data := .uniform (f 0) (Mask.has (poisOf ss) 0) }
        else if affineTag fmt = true then { fmt := fmt, data := .affine b t (Mask.has (poisOf ss) 0) }
        else { fmt := fmt, data := .general (tab f) (poisOf ss) } := by
      simp only [Result.whole, laneResult, ha, lane_tab _ h0]
    have hvals : lane (laneResult rule ss fmt f).vals l = f l := lane_tab f hl
    rw [hw, hvals]
    change _ ∧ _ = Mask.has (poisOf ss) l
    rw [hpois l hl]
    by_cases ht : t = 0
    · rw [if_pos ht]
      exact ⟨(hzero ht l hl).symm, rfl⟩
    · rw [if_neg ht]
      by_cases hfmt : affineTag fmt = true
      · rw [if_pos hfmt]
        exact ⟨(hval hfmt l hl).symm, rfl⟩
      · rw [if_neg hfmt]
        exact ⟨lane_tab f hl, (congrArg (Mask.has (poisOf ss)) (Nat.mod_eq_of_lt hl)).trans (hpois l hl)⟩

/-! ## Completion -/

/-- An instruction that may issue and ends in `finish` with a result made from sources completes with it. -/
theorem completes_of_laneResult {i : Instr} {s : State} {x : VCtx} {f : VFields} {us : List Use} {preds : Option TrapInfo} {rule : ShapeRule}
    {ss : List Src} {fmt : BitVec 5} {val : Nat → Word}
    (hi : exec i s = s.conclude (x.finish f us preds [] (laneResult rule ss fmt val) noPost)) (hx : x.d = s.dev)
    (hready : x.Ready f us preds) (hgood : (laneResult rule ss fmt val).Good) :
    Completes i x s s (x.oneDst f.d) (fun _ => fmt) (fun _ => val) (fun _ => anyPois ss) :=
  VCtx.completes_of_finish hi hx (.refl _) hready (laneResult_holds _ _ _ _) fun _ => hgood

theorem completes_of_plain {i : Instr} {s : State} {x : VCtx} {f : VFields} {us : List Use} {preds : Option TrapInfo}
    {ss : List Src} {fmt : BitVec 5} {val : Nat → Word}
    (hi : exec i s = s.conclude (x.finish f us preds [] (laneResult .plain ss fmt val) noPost)) (hx : x.d = s.dev)
    (hready : x.Ready f us preds) (hs : AllShaped ss) (hf : Lanewise ss val) :
    Completes i x s s (x.oneDst f.d) (fun _ => fmt) (fun _ => val) (fun _ => anyPois ss) :=
  completes_of_laneResult hi hx hready (laneResult_plain_good fmt hs hf)

/-- Functions of the lanes of up to three sources. -/
theorem lanewise_one {α : Type} {a : Src} {f : Nat → α} (g : Word → α) (h : ∀ l, f l = g (lane a.vals l)) : Lanewise [a] f := by
  intro l _ hc
  rw [h, h, hc a (by simp)]

theorem lanewise_two {α : Type} {a b : Src} {f : Nat → α} (g : Word → Word → α) (h : ∀ l, f l = g (lane a.vals l) (lane b.vals l)) :
    Lanewise [a, b] f := by
  intro l _ hc
  rw [h, h, hc a (by simp), hc b (by simp)]

theorem lanewise_three {α : Type} {a b c : Src} {f : Nat → α} (g : Word → Word → Word → α)
    (h : ∀ l, f l = g (lane a.vals l) (lane b.vals l) (lane c.vals l)) : Lanewise [a, b, c] f := by
  intro l _ hc
  rw [h, h, hc a (by simp), hc b (by simp), hc c (by simp)]

end Sys2Proof.Machine
end

section
/-! Proofs about the integer and logic instructions (R65, R66, R166, R170, R171): the lines that sums, differences, products and shifts of lines
are, and the statements about integer arithmetic and about logic. -/

namespace Sys2Proof.Machine

/-! ## Words of one element -/

theorem affineTag_cases {t : BitVec 5} (h : affineTag t = true) : t = Fmt.i32 ∨ t = Fmt.ui32 ∨ t = Fmt.raw := by
  simpa [affineTag, or_assoc] using h

/-- A word of one element holds the low 32 bits of its integer. -/
theorem intLane_of_affineTag {t : BitVec 5} (h : affineTag t = true) (g : Nat → Int) : intLane t false g = BitVec.ofInt 32 (g 0) := by
  have hone : elems t = 1 ∧ pitch t = 32 ∧ elemBits t = 32 := by
    rcases affineTag_cases h with rfl | rfl | rfl <;> decide
  obtain ⟨helems, hpitch, hbits⟩ := hone
  apply BitVec.eq_of_toNat_eq
  simp [intLane, insCode, intCode, wrapInt, helems, hpitch, hbits, BitVec.toNat_ofInt]
  omega

/-- Its integer, signed or unsigned, is the word modulo 2^32. -/
theorem ofInt_elemInt {t : BitVec 5} (h : affineTag t = true) (w : Word) : BitVec.ofInt 32 (elemInt t w 0) = w := by
  apply BitVec.eq_of_toNat_eq
  have hw := w.isLt
  rcases affineTag_cases h with rfl | rfl | rfl
  · have hp : pitch Fmt.i32 = 32 ∧ elemBits Fmt.i32 = 32 ∧ isSignedFmt Fmt.i32 = true := by decide
    simp only [elemInt, elemCode, hp, signedOf, BitVec.toNat_ofInt]
    split <;> omega
  · have hp : pitch Fmt.ui32 = 32 ∧ elemBits Fmt.ui32 = 32 ∧ isSignedFmt Fmt.ui32 = false := by decide
    simp only [elemInt, elemCode, hp, BitVec.toNat_ofInt]
    simp
    omega
  · have hp : pitch Fmt.raw = 32 ∧ elemBits Fmt.raw = 32 ∧ isSignedFmt Fmt.raw = false := by decide
    simp only [elemInt, elemCode, hp, BitVec.toNat_ofInt]
    simp
    omega

/-! ## Lines of lines (R66) -/

theorem Src.Shaped.line {s : Src} {v i : Word} (hs : s.Shaped) (h : s.line = some (v, i)) {l : Nat} (hl : l < 32) :
    lane s.vals l = v + BitVec.ofNat 32 l * i := by
  unfold Src.line at h
  split at h
  next hsh =>
    cases h
    simpa using (hs.uniform hsh l hl).1
  next hsh =>
    cases h
    exact (hs.affine _ _ hsh l hl).1
  next => cases h

theorem Src.line_of_uniform {s : Src} (h : s.shape = .uniform) : s.line = some (lane s.vals 0, 0) := by simp [Src.line, h]

theorem Src.line_eq_none_iff (s : Src) : s.line = none ↔ s.shape = .general := by
  unfold Src.line
  split <;> simp_all

/-- The line that a rule of R66 makes of two lines. -/
def twoLine (rule : ShapeRule) (a b : Src) : Option (Word × Word) :=
  a.line.bind fun p => b.line.bind fun q =>
    match rule with
    | .add => some (p.1 + q.1, p.2 + q.2)
    | .sub => some (p.1 - q.1, p.2 - q.2)
    | .shl => if b.shape = .uniform then some (shlWord p.1 (shiftAmount q.1), shlWord p.2 (shiftAmount q.1)) else none
    | .mul =>
      if b.shape = .uniform then some (p.1 * q.1, p.2 * q.1) else if a.shape = .uniform then some (q.1 * p.1, q.2 * p.1) else none
    | .plain | .copy => none

/-- The shape of a result of two sources of which one is not uniform. -/
theorem resultShape_two (rule : ShapeRule) (a b : Src) (h : ¬ (a.shape = .uniform ∧ b.shape = .uniform)) :
    resultShape rule [a, b] true = (twoLine rule a b).elim .general (fun p => .affine p.1 p.2) := by
  cases ha : a.shape <;> cases hb : b.shape <;> cases rule <;> simp_all [resultShape, twoLine, Src.line, shiftAmount]

/-- A line is made of sources that have lines. -/
theorem shape_ne_general_of_twoLine {rule : ShapeRule} {a b : Src} {p : Word × Word} (h : twoLine rule a b = some p) :
    a.shape ≠ .general ∧ b.shape ≠ .general := by
  simp only [ne_eq, ← Src.line_eq_none_iff]
  constructor <;> intro hn <;> simp [twoLine, hn] at h

/-- A result of two sources agrees with its shape where its values are on the line that its rule makes. -/
theorem laneResult_two_good {rule : ShapeRule} {a b : Src} {f : Nat → Word} {fmt : BitVec 5} (hs : AllShaped [a, b])
    (hf : Lanewise [a, b] f) (hval : ∀ p, twoLine rule a b = some p → ∀ l, l < 32 → f l = p.1 + BitVec.ofNat 32 l * p.2) :
    (laneResult rule [a, b] fmt f).Good := by
  refine laneResult_line_good hs hf ?_
  by_cases hu : a.shape = .uniform ∧ b.shape = .uniform
  · exact .inl (by simpa using hu)
  · rw [resultShape_two rule a b hu]
    cases h : twoLine rule a b with
    | none => exact .inr (.inl rfl)
    | some p =>
      refine .inr (.inr ⟨p.1, p.2, rfl, ?_, ?_, ?_⟩)
      · simpa using shape_ne_general_of_twoLine h
      · intro hzero l hl
        simp [hval p h l hl, hval p h 0 (Nat.zero_lt_succ 31), hzero]
      · exact fun _ => hval p h

theorem twoLine_add {a b : Src} {p : Word × Word} (ha : a.Shaped) (hb : b.Shaped) (h : twoLine .add a b = some p) {l : Nat} (hl : l < 32) :
    lane a.vals l + lane b.vals l = p.1 + BitVec.ofNat 32 l * p.2 := by
  simp only [twoLine, Option.bind_eq_some_iff, Option.some.injEq] at h
  obtain ⟨⟨v, i⟩, hav, ⟨w, j⟩, hbw, rfl⟩ := h
  rw [ha.line hav hl, hb.line hbw hl]
  ring

theorem twoLine_sub {a b : Src} {p : Word × Word} (ha : a.Shaped) (hb : b.Shaped) (h : twoLine .sub a b = some p) {l : Nat} (hl : l < 32) :
    lane a.vals l - lane b.vals l = p.1 + BitVec.ofNat 32 l * p.2 := by
  simp only [twoLine, Option.bind_eq_some_iff, Option.some.injEq] at h
  obtain ⟨⟨v, i⟩, hav, ⟨w, j⟩, hbw, rfl⟩ := h
  rw [ha.line hav hl, hb.line hbw hl]
  ring

/-- A uniform source's line has stride 0. -/
theorem Src.line_uniform_stride {s : Src} {v i : Word} (hsh : s.shape = .uniform) (h : s.line = some (v, i)) : i = 0 := by
  rw [Src.line_of_uniform hsh] at h
  cases h
  rfl

theorem twoLine_mul {a b : Src} {p : Word × Word} (ha : a.Shaped) (hb : b.Shaped) (h : twoLine .mul a b = some p) {l : Nat} (hl : l < 32) :
    lane a.vals l * lane b.vals l = p.1 + BitVec.ofNat 32 l * p.2 := by
  simp only [twoLine, Option.bind_eq_some_iff] at h
  obtain ⟨⟨v, i⟩, hav, ⟨w, j⟩, hbw, h⟩ := h
  rw [ha.line hav hl, hb.line hbw hl]
  split at h
  next hu =>
    cases h
    rw [Src.line_uniform_stride hu hbw]
    ring
  next =>
    split at h
    next hu =>
      cases h
      rw [Src.line_uniform_stride hu hav]
      ring
    next => cases h

theorem shlWord_line (v i : Word) (k : Nat) (l : Nat) :
    shlWord (v + BitVec.ofNat 32 l * i) k = shlWord v k + BitVec.ofNat 32 l * shlWord i k := by
  unfold shlWord
  split
  · simp
  · simp only [BitVec.shiftLeft_eq_mul_twoPow]
    ring

theorem twoLine_shl {a b : Src} {p : Word × Word} (ha : a.Shaped) (hb : b.Shaped) (h : twoLine .shl a b = some p) {l : Nat} (hl : l < 32) :
    shlWord (lane a.vals l) (shiftAmount (lane b.vals l)) = p.1 + BitVec.ofNat 32 l * p.2 := by
  simp only [twoLine, Option.bind_eq_some_iff] at h
  obtain ⟨⟨v, i⟩, hav, ⟨w, j⟩, hbw, h⟩ := h
  split at h
  next hu =>
    cases h
    rw [hb.line hbw hl, Src.line_uniform_stride hu hbw, ha.line hav hl, mul_zero, add_zero, shlWord_line]
  next => cases h

theorem twoLine_plain (a b : Src) : twoLine .plain a b = none := by
  unfold twoLine
  cases a.line <;> cases b.line <;> rfl

/-! ## Integer instructions of two sources -/

/-- The rule by which an integer instruction's shape goes: only words of one element that wrap follow lines. -/
def intRule (f : VFields) (rule : ShapeRule) : ShapeRule := if f.h.s || !affineTag f.h.ty then .plain else rule

theorem exec_intTwo_eq (f : VFields) (s : State) (rule : ShapeRule) (g : Int → Int → Int) :
    let x := vIn f s 2
    let t := f.h.ty
    let a := x.src 1 f.a
    let b := x.srcB f t
    intTwo f s rule g = x.finish f [Use.of a t, Use.of b t] none [] (laneResult (intRule f rule) [a, b] t
      (fun l => intLane t f.h.s (fun i => g (elemInt t (lane a.vals l) i) (elemInt t (lane b.vals l) i)))) noPost := rfl

/-- An integer function that a rule of R66 follows: on words it is the word operation whose lines are lines. -/
def Follows (rule : ShapeRule) (g : Int → Int → Int) : Prop :=
  ∀ a b : Src, a.Shaped → b.Shaped → ∀ t, affineTag t = true → ∀ p, twoLine rule a b = some p → ∀ l, l < 32 →
    BitVec.ofInt 32 (g (elemInt t (lane a.vals l) 0) (elemInt t (lane b.vals l) 0)) = p.1 + BitVec.ofNat 32 l * p.2

theorem follows_plain (g : Int → Int → Int) : Follows .plain g := by
  intro a b _ _ _ _ p h
  rw [twoLine_plain] at h
  cases h

theorem follows_add : Follows .add (fun m n => m + n) := by
  intro a b ha hb t ht p h l hl
  rw [BitVec.ofInt_add, ofInt_elemInt ht, ofInt_elemInt ht, twoLine_add ha hb h hl]

theorem follows_sub : Follows .sub (fun m n => m - n) := by
  intro a b ha hb t ht p h l hl
  change BitVec.ofInt 32 (_ - _) = _
  rw [Int.sub_eq_add_neg, BitVec.ofInt_add, BitVec.ofInt_neg, ofInt_elemInt ht, ofInt_elemInt ht, ← twoLine_sub ha hb h hl, sub_eq_add_neg]

theorem follows_mul : Follows .mul (fun m n => m * n) := by
  intro a b ha hb t ht p h l hl
  rw [BitVec.ofInt_mul, ofInt_elemInt ht, ofInt_elemInt ht, twoLine_mul ha hb h hl]

theorem intTwo_good {rule : ShapeRule} {g : Int → Int → Int} (hg : Follows rule g) (f : VFields) {a b : Src} (ha : a.Shaped) (hb : b.Shaped) :
    (laneResult (intRule f rule) [a, b] f.h.ty
      (fun l => intLane f.h.ty f.h.s (fun i => g (elemInt f.h.ty (lane a.vals l) i) (elemInt f.h.ty (lane b.vals l) i)))).Good := by
  refine laneResult_two_good (by simp [ha, hb])
    (lanewise_two (fun v w => intLane f.h.ty f.h.s (fun i => g (elemInt f.h.ty v i) (elemInt f.h.ty w i))) fun _ => rfl) ?_
  intro p h l hl
  unfold intRule at h
  split at h
  · rw [twoLine_plain] at h
    cases h
  next hcond =>
    obtain ⟨hs, ht⟩ : f.h.s = false ∧ affineTag f.h.ty = true := by simpa using hcond
    rw [hs, intLane_of_affineTag ht]
    exact hg a b ha hb f.h.ty ht p h l hl

theorem intTwo_completes {i : Instr} {f : VFields} {s : State} {rule : ShapeRule} {g : Int → Int → Int}
    (hi : exec i s = s.conclude (intTwo f s rule g)) (hg : Follows rule g) :
    let x := vIn f s 2
    let t := f.h.ty
    let a := x.src 1 f.a
    let b := x.srcB f t
    x.Ready f [Use.of a t, Use.of b t] none →
      Completes i x s s (x.oneDst f.d) (fun _ => t)
        (fun _ l => intLane t f.h.s (fun i => g (elemInt t (lane a.vals l) i) (elemInt t (lane b.vals l) i)))
        (fun _ l => anyPois [a, b] l) :=
  fun hready => completes_of_laneResult hi rfl hready (intTwo_good hg f (VCtx.shaped_src _ _ _) (VCtx.shaped_srcB _ _ _))

/-! ## The shape that a result leaves -/

theorem Mask.ne_zero_of_has {m : Mask} {l : Nat} (h : Mask.has m l = true) : m ≠ 0 := by
  intro h0
  simp [h0] at h

/-- The shape of register r of a warp. -/
def Warp.shapeOf (w : Warp) (r : Nat) : Shape := (w.reg r).data.shape

/-- A write of some lanes, or through an index register, leaves its register general (R66, R234). -/
theorem Warp.shapeOf_write_general (w : Warp) (r : Nat) {m : Mask} (x : Result) {ind : Bool} (h0 : m ≠ 0) (h : m ≠ Mask.all ∨ ind = true) :
    (w.write r m x ind).shapeOf r = .general := by
  have hn : ¬ (m = Mask.all ∧ ind = false) := by
    rintro ⟨hm, hi⟩
    rcases h with h | h
    · exact h hm
    · rw [hi] at h
      cases h
  unfold Warp.write
  rw [if_neg h0, if_neg hn]
  simp [Warp.shapeOf, Warp.reg, VReg.mixed, RegData.shape]

/-- A write through an index register leaves a general register general. -/
theorem Warp.shapeOf_write_ind (w : Warp) (r n : Nat) (m : Mask) (x : Result) (h : w.shapeOf n = .general) :
    (w.write r m x true).shapeOf n = .general := by
  by_cases h0 : m = 0
  · simpa [Warp.write, h0] using h
  · by_cases hn : n = r
    · subst hn
      exact w.shapeOf_write_general n x h0 (.inr rfl)
    · rwa [Warp.shapeOf, w.write_reg_ne m x true hn]

/-- A whole write gives its register the shape of the result (R66). -/
theorem Warp.shapeOf_write_whole (w : Warp) (r : Nat) (x : Result) : (w.write r Mask.all x false).shapeOf r = x.whole.data.shape := by
  have h0 : Mask.all ≠ 0 := by decide
  unfold Warp.write
  rw [if_neg h0, if_pos ⟨rfl, rfl⟩]
  simp [Warp.shapeOf, Warp.reg]

/-- Every register that a write through an index register names becomes general. -/
theorem Column.shapeOf_writeLanes (k : Column) (s : Nat) (regs : Vector Nat 32) {m : Mask} (x : Result) {l : Nat} (hl : l < 32)
    (hm : Mask.has m l = true) : ((k.writeLanes s regs m x).warp s).shapeOf (lane regs l) = .general := by
  have run (rs : List Nat) (k : Column) (h : lane regs l ∈ rs ∨ (k.warp s).shapeOf (lane regs l) = .general) :
      ((rs.foldl (fun k r => k.writeReg s r (namers regs m r) x true) k).warp s).shapeOf (lane regs l) = .general := by
    induction rs generalizing k with
    | nil => exact h.resolve_left (by simp)
    | cons r rs ih =>
      refine ih _ ?_
      rw [Column.warp_writeReg]
      by_cases hr : lane regs l = r
      · right
        rw [← hr]
        refine Warp.shapeOf_write_general _ _ _ ?_ (.inr rfl)
        exact Mask.ne_zero_of_has (show Mask.has (namers regs m (lane regs l)) l = true by simp [namers, hl, hm])
      · refine h.imp (fun hmem => ?_) fun hgen => Warp.shapeOf_write_ind _ _ _ _ _ hgen
        exact (List.mem_cons.mp hmem).resolve_left hr
  refine run _ k (.inl ?_)
  rw [List.mem_eraseDups, List.mem_map]
  exact ⟨l, (Mask.mem_list m l).mpr ⟨hl, hm⟩, rfl⟩

/-- An instruction that may issue and ends in `finish` leaves the registers as the write of its result does. -/
theorem VCtx.finish_shape {s : State} {x : VCtx} (hx : x.d = s.dev) {f : VFields} {us : List Use} {preds : Option TrapInfo}
    (h : x.Ready f us preds) (r : Result) :
    ∃ u, s.conclude (x.finish f us preds [] r noPost) = .next u ∧
      ∀ n, u.shape n = (x.writeDst s.dev f.d r).curWarp.shapeOf n := by
  rw [VCtx.finish_of_ready h, State.conclude_retire, hx]
  refine ⟨_, rfl, fun n => ?_⟩
  have hregs := congrArg Warp.regs (VCtx.finish_warp x (x.writeDst s.dev f.d r) f)
  have hshape (v w : Warp) (hv : v.regs = w.regs) : v.shapeOf n = w.shapeOf n := by simp [Warp.shapeOf, Warp.reg, hv]
  exact hshape _ _ (hregs.trans (Warp.stepFields_regs _ _ _ _))

/-- Where a lane is not active or the destination is indirect, what the instruction writes becomes general. -/
theorem VCtx.shapeOf_writeDst_part (x : VCtx) (d : Dev) {dst : BitVec 9} (r : Result) (h : x.act ≠ Mask.all ∨ dst.getLsbD 8 = true) {l : Nat}
    (hl : l < 32) (ha : Mask.has x.act l = true) : (x.writeDst d dst r).curWarp.shapeOf (x.dstOf dst l) = .general := by
  have h0 := Mask.ne_zero_of_has ha
  unfold VCtx.writeDst VCtx.dstOf
  split
  · have hgen := Column.shapeOf_writeLanes d.curCol d.cur.slot (tab (regAt x.w x.act x.pre (dstOperand dst))) r hl ha
    rw [lane_tab _ hl] at hgen
    simpa [Dev.curWarp, Dev.warp, Dev.modCurCol, Dev.curCol] using hgen
  next hdir =>
    have hgen := Warp.shapeOf_write_general (d.curCol.warp d.cur.slot) (dstReg dst) r (ind := false) h0 (.inl (h.resolve_right hdir))
    simpa [Dev.curWarp, Dev.warp, Dev.modCurCol, Dev.writeReg, Dev.curCol, Column.warp_writeReg] using hgen

/-- A direct destination of all lanes takes the result's shape. -/
theorem VCtx.shapeOf_writeDst_whole (x : VCtx) (d : Dev) {dst : BitVec 9} (r : Result) (ha : x.act = Mask.all) (hd : dst.getLsbD 8 = false) :
    (x.writeDst d dst r).curWarp.shapeOf (dstReg dst) = r.whole.data.shape := by
  have hwhole := Warp.shapeOf_write_whole (d.curCol.warp d.cur.slot) (dstReg dst) r
  rw [← hwhole, VCtx.writeDst, if_neg (by rw [hd]; decide), ha]
  simp [Dev.curWarp, Dev.warp, Dev.modCurCol, Dev.writeReg, Dev.curCol, Column.warp_writeReg]

/-- The shape of a whole write (R65, R66). -/
theorem Result.whole_shape (r : Result) :
    r.whole.data.shape = match r.shape with
      | .uniform => .uniform
      | .affine b t => if t = 0 then .uniform else if affineTag r.fmt then .affine b t else .general
      | .general => .general := by
  unfold Result.whole
  cases r.shape with
  | uniform => rfl
  | general => rfl
  | affine b t =>
    dsimp only
    split
    · rfl
    · split <;> rfl

end Sys2Proof.Machine
end

section
/-! Proofs about the shapes that the table of R66 gives, and the statement about integer arithmetic (R65, R66, R166). -/

namespace Sys2Proof.Machine

/-! ## Shapes of results of two sources -/

/-- The shape of a whole result of two sources under a rule of R66, for a tag. -/
def twoShape (rule : ShapeRule) (a b : Src) (t : BitVec 5) : Shape :=
  if a.shape = .uniform ∧ b.shape = .uniform then .uniform
  else (twoLine rule a b).elim .general (fun p => if p.2 = 0 then .uniform else if affineTag t then .affine p.1 p.2 else .general)

theorem whole_shape_laneResult_two (rule : ShapeRule) (a b : Src) (t : BitVec 5) (f : Nat → Word) :
    (laneResult rule [a, b] t f).whole.data.shape = twoShape rule a b t := by
  have hshape : (laneResult rule [a, b] t f).shape = resultShape rule [a, b] true := rfl
  have hfmt : (laneResult rule [a, b] t f).fmt = t := rfl
  rw [Result.whole_shape, hshape, hfmt]
  unfold twoShape
  by_cases hu : a.shape = .uniform ∧ b.shape = .uniform
  · rw [if_pos hu, resultShape_of_uniform rule (by simpa using hu)]
  · rw [if_neg hu, resultShape_two rule a b hu]
    cases twoLine rule a b <;> rfl

theorem twoShape_uniform (rule : ShapeRule) {a b : Src} (t : BitVec 5) (ha : a.shape = .uniform) (hb : b.shape = .uniform) :
    twoShape rule a b t = .uniform := if_pos ⟨ha, hb⟩

theorem twoShape_of_none {rule : ShapeRule} {a b : Src} (t : BitVec 5) (hu : ¬ (a.shape = .uniform ∧ b.shape = .uniform))
    (h : twoLine rule a b = none) : twoShape rule a b t = .general := by
  rw [twoShape, if_neg hu, h]
  rfl

theorem twoShape_general (rule : ShapeRule) {a b : Src} (t : BitVec 5) (h : a.shape = .general ∨ b.shape = .general) :
    twoShape rule a b t = .general := by
  have hnone : twoLine rule a b = none := by
    cases hl : twoLine rule a b with
    | none => rfl
    | some p =>
      obtain ⟨hna, hnb⟩ := shape_ne_general_of_twoLine hl
      exact (h.elim hna hnb).elim
  refine twoShape_of_none t ?_ hnone
  rintro ⟨ha, hb⟩
  rcases h with h | h
  · rw [h] at ha
    cases ha
  · rw [h] at hb
    cases hb

/-- Two uniform sources make lines of stride 0. -/
theorem twoLine_stride_of_uniform {rule : ShapeRule} {a b : Src} {p : Word × Word} (ha : a.shape = .uniform) (hb : b.shape = .uniform)
    (h : twoLine rule a b = some p) : p.2 = 0 := by
  unfold twoLine at h
  rw [Src.line_of_uniform ha, Src.line_of_uniform hb] at h
  cases rule <;> simp [hb] at h <;> subst h <;> simp [shlWord]

/-- The line that a rule makes is the shape of the result, uniform where its stride is 0. -/
theorem twoShape_of_line {rule : ShapeRule} {a b : Src} {t : BitVec 5} {v i : Word} (ht : affineTag t = true)
    (h : twoLine rule a b = some (v, i)) : twoShape rule a b t = if i = 0 then .uniform else .affine v i := by
  unfold twoShape
  split
  next hu => rw [if_pos (twoLine_stride_of_uniform hu.1 hu.2 h)]
  next =>
    rw [h]
    rfl

/-! ## The table of R66, instruction by instruction -/

/-- An instruction of two sources that may issue leaves its destination general, or of the shape that its rule gives. -/
theorem finish_twoShape {i : Instr} {s : State} {x : VCtx} {f : VFields} {us : List Use} {rule : ShapeRule} {a b : Src} {t : BitVec 5}
    {val : Nat → Word} (hi : exec i s = s.conclude (x.finish f us none [] (laneResult rule [a, b] t val) noPost)) (hx : x.d = s.dev)
    (hready : x.Ready f us none) :
    ∃ u, exec i s = .next u ∧
      ((x.act ≠ Mask.all ∨ f.d.getLsbD 8 = true) → ∀ l, l < 32 → Mask.has x.act l = true → u.shape (x.dstOf f.d l) = .general) ∧
      (x.act = Mask.all → f.d.getLsbD 8 = false → u.shape (dstReg f.d) = twoShape rule a b t) := by
  obtain ⟨u, hu, hshape⟩ := VCtx.finish_shape hx hready (laneResult rule [a, b] t val)
  refine ⟨u, hi.trans hu, fun h l hl ha => ?_, fun ha hd => ?_⟩
  · rw [hshape, VCtx.shapeOf_writeDst_part _ _ _ h hl ha]
  · rw [hshape, VCtx.shapeOf_writeDst_whole _ _ _ ha hd, whole_shape_laneResult_two]

/-- What the table says of an instruction `i` of two sources, of which `u` is the shape of a whole result. -/
def Tabled (i : Instr) (f : VFields) (a b : Src) (u : Shape) : Prop :=
  let lines := f.h.s = false ∧ affineTag f.h.ty = true
  let k := lane b.vals 0
  (a.shape = .uniform → b.shape = .uniform → u = .uniform) ∧
    (a.shape = .general ∨ b.shape = .general → u = .general) ∧
    (lines → ∀ v w p q, a.line = some (v, p) → b.line = some (w, q) →
      (i = .iadd f → u = (if p + q = 0 then .uniform else .affine (v + w) (p + q))) ∧
      (i = .isub f → u = (if p - q = 0 then .uniform else .affine (v - w) (p - q))) ∧
      (i = .imul f → b.shape = .uniform → u = (if p * k = 0 then .uniform else .affine (v * k) (p * k))) ∧
      (i = .shl f → b.shape = .uniform → u =
        (if shlWord p (shiftAmount k) = 0 then .uniform else .affine (shlWord v (shiftAmount k)) (shlWord p (shiftAmount k))))) ∧
    (¬ (a.shape = .uniform ∧ b.shape = .uniform) → i ∉ [Instr.iadd f, .isub f, .imul f, .shl f] → u = .general)

/-- The rules by which the instructions of two sources follow lines. -/
structure RuleOf (i : Instr) (f : VFields) (rule : ShapeRule) : Prop where
  add   : i = .iadd f → f.h.s = false ∧ affineTag f.h.ty = true → rule = .add
  sub   : i = .isub f → f.h.s = false ∧ affineTag f.h.ty = true → rule = .sub
  mul   : i = .imul f → f.h.s = false ∧ affineTag f.h.ty = true → rule = .mul
  shl   : i = .shl f → rule = .shl
  plain : i ∉ [Instr.iadd f, .isub f, .imul f, .shl f] → rule = .plain

theorem tabled_twoShape {i : Instr} {f : VFields} {rule : ShapeRule} (h : RuleOf i f rule) (a b : Src) :
    Tabled i f a b (twoShape rule a b f.h.ty) := by
  refine ⟨twoShape_uniform rule _, twoShape_general rule _, fun hlines v w p q ha hb => ⟨fun hi => ?_, fun hi => ?_, fun hi hu => ?_, fun hi hu => ?_⟩,
    fun hu hi => ?_⟩
  · rw [h.add hi hlines]
    exact twoShape_of_line hlines.2 (by simp [twoLine, ha, hb])
  · rw [h.sub hi hlines]
    exact twoShape_of_line hlines.2 (by simp [twoLine, ha, hb])
  · rw [h.mul hi hlines]
    exact twoShape_of_line hlines.2 (by simp [twoLine, ha, Src.line_of_uniform hu, hu])
  · rw [h.shl hi]
    exact twoShape_of_line hlines.2 (by simp [twoLine, ha, Src.line_of_uniform hu, hu])
  · rw [h.plain hi]
    exact twoShape_of_none _ hu (twoLine_plain a b)

/-- The shapes that an instruction of two sources leaves, all of R66 for it. -/
theorem finish_tabled {i : Instr} {s : State} {x : VCtx} {f : VFields} {us : List Use} {rule : ShapeRule} {a b : Src} {val : Nat → Word}
    (hi : exec i s = s.conclude (x.finish f us none [] (laneResult rule [a, b] f.h.ty val) noPost)) (hx : x.d = s.dev)
    (hrule : RuleOf i f rule) (hready : x.Ready f us none) :
    ∃ u, exec i s = .next u ∧
      ((x.act ≠ Mask.all ∨ f.d.getLsbD 8 = true) → ∀ l, l < 32 → Mask.has x.act l = true → u.shape (x.dstOf f.d l) = .general) ∧
      (x.act = Mask.all → f.d.getLsbD 8 = false → Tabled i f a b (u.shape (dstReg f.d))) := by
  obtain ⟨u, hu, hpart, hwhole⟩ := finish_twoShape hi hx hready
  refine ⟨u, hu, hpart, fun ha hd => ?_⟩
  rw [hwhole ha hd]
  exact tabled_twoShape hrule a b

theorem intRule_of_lines {f : VFields} (rule : ShapeRule) (h : f.h.s = false ∧ affineTag f.h.ty = true) : intRule f rule = rule := by
  simp [intRule, h]

theorem intRule_plain (f : VFields) : intRule f .plain = .plain := ite_self _

theorem ruleOf_iadd (f : VFields) : RuleOf (.iadd f) f (intRule f .add) :=
  ⟨fun _ => intRule_of_lines _, nofun, nofun, nofun, fun h => absurd (by simp) h⟩

theorem ruleOf_isub (f : VFields) : RuleOf (.isub f) f (intRule f .sub) :=
  ⟨nofun, fun _ => intRule_of_lines _, nofun, nofun, fun h => absurd (by simp) h⟩

theorem ruleOf_imul (f : VFields) : RuleOf (.imul f) f (intRule f .mul) :=
  ⟨nofun, nofun, fun _ => intRule_of_lines _, nofun, fun h => absurd (by simp) h⟩

theorem ruleOf_shl (f : VFields) : RuleOf (.shl f) f .shl :=
  ⟨nofun, nofun, nofun, fun _ => rfl, fun h => absurd (by simp) h⟩

theorem ruleOf_plain {i : Instr} {f : VFields} (h : i ∉ [Instr.iadd f, .isub f, .imul f, .shl f]) : RuleOf i f .plain := by
  simp only [List.mem_cons, List.not_mem_nil, or_false, not_or] at h
  obtain ⟨hadd, hsub, hmul, hshl⟩ := h
  exact ⟨fun hi => absurd hi hadd, fun hi => absurd hi hsub, fun hi => absurd hi hmul, fun hi => absurd hi hshl, fun _ => rfl⟩

theorem ruleOf_intPlain {i : Instr} {f : VFields} (h : i ∉ [Instr.iadd f, .isub f, .imul f, .shl f]) : RuleOf i f (intRule f .plain) := by
  rw [intRule_plain]
  exact ruleOf_plain h

/-! ## Copies -/

theorem resultShape_copy (a : Src) : resultShape .copy [a] true = a.shape := by
  cases h : a.shape <;> simp [resultShape, h]

/-- A copy of all lanes into a direct destination keeps the shape of its source, of a line only under a tag that carries lines (R66). -/
theorem finish_copyShape {i : Instr} {s : State} {x : VCtx} {f : VFields} {us : List Use} {a : Src} {t : BitVec 5}
    {val : Nat → Word} (hi : exec i s = s.conclude (x.finish f us none [] (laneResult .copy [a] t val) noPost)) (hx : x.d = s.dev)
    (hready : x.Ready f us none) (hact : x.act = Mask.all) (hd : f.d.getLsbD 8 = false) :
    ∃ u, exec i s = .next u ∧ (a.shape = .uniform → u.shape (dstReg f.d) = .uniform) ∧
      (a.shape = .general → u.shape (dstReg f.d) = .general) ∧
      ∀ v i, a.shape = .affine v i → i ≠ 0 → u.shape (dstReg f.d) = (if affineTag t then .affine v i else .general) := by
  obtain ⟨u, hu, hshape⟩ := VCtx.finish_shape hx hready (laneResult .copy [a] t val)
  refine ⟨u, hi.trans hu, ?_⟩
  have hcopy : (laneResult .copy [a] t val).shape = a.shape := resultShape_copy a
  have hfmt : (laneResult .copy [a] t val).fmt = t := rfl
  rw [hshape, VCtx.shapeOf_writeDst_whole _ _ _ hact hd, Result.whole_shape, hcopy, hfmt]
  exact ⟨fun h => by rw [h], fun h => by rw [h], fun v i h hi => by rw [h]; exact if_neg hi⟩

theorem padded_of_affineTag {t : BitVec 5} (h : affineTag t = true) (w : Word) : padded t w = w := by
  rcases affineTag_cases h with rfl | rfl | rfl <;> rfl

/-- A copy of a source's lanes, padded for its tag, agrees with the source's shape. -/
theorem laneResult_copy_good {a : Src} (ha : a.Shaped) (t : BitVec 5) :
    (laneResult .copy [a] t (fun l => padded t (lane a.vals l))).Good := by
  refine laneResult_line_good (by simp [ha]) (lanewise_one (padded t) fun _ => rfl) ?_
  rw [resultShape_copy]
  cases h : a.shape with
  | uniform => exact .inl (by simpa using h)
  | general => exact .inr (.inl rfl)
  | affine b i =>
    refine .inr (.inr ⟨b, i, rfl, by simp [h], fun hi l hl => ?_, fun ht l hl => ?_⟩)
    · rw [((ha.affine b i h) l hl).1, ((ha.affine b i h) 0 (Nat.zero_lt_succ 31)).1, hi]
      simp
    · rw [padded_of_affineTag ht, ((ha.affine b i h) l hl).1]

/-! ## The statement about integer arithmetic -/

theorem exec_imulh_eq (f : VFields) (s : State) : exec (.imulh f) s = s.conclude (intTwo f s .plain (fun m n => m * n / 2 ^ 32)) := by
  have h : (fun m n : Int => m * n / ((2 ^ 32 : Nat) : Int)) = fun m n => m * n / 2 ^ 32 := by
    funext m n
    norm_num
  exact congrArg (fun g => s.conclude (intTwo f s .plain g)) h

/-- MOV's source: its register, or the immediate. -/
def VCtx.movSrc (x : VCtx) (f : VFields) : Src := if f.vi then Src.const 2 f.imm f.h.ty else x.src 1 f.a

theorem VCtx.shaped_movSrc (x : VCtx) (f : VFields) : (x.movSrc f).Shaped := by
  unfold VCtx.movSrc
  split
  · exact Src.shaped_const _ _ _
  · exact x.shaped_src _ _

/-- The tag of what MOV writes: its type, or under RAW that of its source. -/
def copyTag (f : VFields) (a : Src) : BitVec 5 := if f.h.ty == Fmt.raw then a.tag else f.h.ty

/-- How MOV reads its source: under its type, or under RAW with any one tag. -/
def copyUse (f : VFields) (a : Src) : Use :=
  if f.h.ty == Fmt.raw then { src := a, want := none, one := true } else Use.of a (copyTag f a)

theorem copyTag_eq (f : VFields) (a : Src) : copyTag f a = if f.h.ty = Fmt.raw then a.tag else f.h.ty := by
  simp only [copyTag, beq_iff_eq]

theorem copyUse_eq (f : VFields) (a : Src) :
    copyUse f a = if f.h.ty = Fmt.raw then { src := a, want := none, one := true } else Use.of a f.h.ty := by
  by_cases h : f.h.ty = Fmt.raw <;> simp [copyUse, copyTag, h]

theorem exec_mov_eq (f : VFields) (s : State) :
    let x : VCtx := vctx s.dev f.h (dstOperand f.d :: (if f.vi then [] else [f.a]))
    let a := x.movSrc f
    exec (.mov f) s = s.conclude (x.finish f [copyUse f a] none []
      (laneResult .copy [a] (copyTag f a) (fun l => padded (copyTag f a) (lane a.vals l))) noPost) := rfl

theorem imad_completes {f : VFields} {s : State} :
    let x := vIn f s 3
    let t := f.h.ty
    let a := x.src 1 f.a
    let b := x.srcB f t
    let c := x.srcC f
    x.Ready f [Use.of a t, Use.of b t, Use.of c t] none →
      Completes (.imad f) x s s (x.oneDst f.d) (fun _ => t)
        (fun _ l => intLane t f.h.s (fun i =>
          elemInt t (lane a.vals l) i * elemInt t (lane b.vals l) i + elemInt t (lane c.vals l) i))
        (fun _ l => anyPois [a, b, c] l) := by
  intro x t a b c hready
  refine completes_of_plain rfl rfl hready (by simp [a, b, c, VCtx.shaped_src, VCtx.shaped_srcB, VCtx.shaped_srcC]) ?_
  exact lanewise_three (fun u v w => intLane t f.h.s (fun i => elemInt t u i * elemInt t v i + elemInt t w i)) fun _ => rfl

theorem iabs_completes {f : VFields} {s : State} :
    let x := vIn f s 1
    let t := f.h.ty
    let a := x.src 1 f.a
    x.Ready f [Use.of a t] none →
      Completes (.iabs f) x s s (x.oneDst f.d) (fun _ => t) (fun _ l => intLane t f.h.s (fun i => |elemInt t (lane a.vals l) i|))
        (fun _ l => anyPois [a] l) := by
  intro x t a hready
  have habs : (fun l => intLane t f.h.s (fun i => |elemInt t (lane a.vals l) i|)) =
      fun l => intLane t f.h.s (fun i => ((elemInt t (lane a.vals l) i).natAbs : Int)) := by
    simp only [Int.abs_eq_natAbs]
  rw [habs]
  refine completes_of_plain rfl rfl hready (by simp [a, VCtx.shaped_src]) ?_
  exact lanewise_one (fun u => intLane t f.h.s (fun i => ((elemInt t u i).natAbs : Int))) fun _ => rfl

theorem elemInt_i32 (w : Word) : elemInt Fmt.i32 w 0 = w.toInt := by
  have hp : pitch Fmt.i32 = 32 ∧ elemBits Fmt.i32 = 32 ∧ isSignedFmt Fmt.i32 = true := by decide
  have hw := w.isLt
  simp only [elemInt, elemCode, hp, signedOf, BitVec.toInt_eq_toNat_cond]
  norm_num
  rw [Nat.mod_eq_of_lt hw]
  split <;> split <;> omega

theorem idot4_completes {f : VFields} {s : State} :
    let x := vIn f s 3
    let t := f.h.ty
    let a := x.src 1 f.a
    let b := x.srcB f t
    let c := x.srcC f
    x.Ready f [Use.of a t, Use.of b t, Use.of c Fmt.i32] none →
      Completes (.idot4 f) x s s (x.oneDst f.d) (fun _ => Fmt.i32)
        (fun _ l => intLane Fmt.i32 f.h.s (fun _ => (lane c.vals l).toInt +
          (elemInt t (lane a.vals l) 0 * elemInt t (lane b.vals l) 0 + elemInt t (lane a.vals l) 1 * elemInt t (lane b.vals l) 1 +
            elemInt t (lane a.vals l) 2 * elemInt t (lane b.vals l) 2 + elemInt t (lane a.vals l) 3 * elemInt t (lane b.vals l) 3)))
        (fun _ l => anyPois [a, b, c] l) := by
  intro x t a b c hready
  have hsum (u v w : Word) : w.toInt + (elemInt t u 0 * elemInt t v 0 + elemInt t u 1 * elemInt t v 1 + elemInt t u 2 * elemInt t v 2 +
      elemInt t u 3 * elemInt t v 3) = elemInt Fmt.i32 w 0 + ((List.range 4).map (fun i => elemInt t u i * elemInt t v i)).sum := by
    rw [elemInt_i32]
    simp [List.range_succ]
    ring
  simp only [hsum]
  refine completes_of_plain rfl rfl hready (by simp [a, b, c, VCtx.shaped_src, VCtx.shaped_srcB, VCtx.shaped_srcC]) ?_
  exact lanewise_three (fun u v w => intLane Fmt.i32 f.h.s (fun _ =>
    elemInt Fmt.i32 w 0 + ((List.range 4).map (fun i => elemInt t u i * elemInt t v i)).sum)) fun _ => rfl

end Sys2Proof.Machine
end

section
namespace Sys2Proof

open Sys2Proof.Machine

/-- Settles O1: the values are `intTwo_completes` and its like for IMAD, IDOT4 and IABS; the shapes are `finish_tabled`, each instruction with
its rule of R66. -/
theorem integerArithmetic : Obligations.IntegerArithmetic := by
  unfold Obligations.IntegerArithmetic
  refine ⟨fun f s => ?_, fun f s => ⟨fun _ => imad_completes, fun _ => idot4_completes, fun _ => iabs_completes⟩, fun f s => ⟨?_, ?_⟩⟩
  · intro x t a b p hp _
    simp only [List.mem_cons, List.not_mem_nil, or_false] at hp
    rcases hp with rfl | rfl | rfl | rfl | rfl | rfl
    · exact intTwo_completes rfl follows_add
    · exact intTwo_completes rfl follows_sub
    · exact intTwo_completes rfl follows_mul
    · exact intTwo_completes (exec_imulh_eq f s) (follows_plain _)
    · exact intTwo_completes rfl (follows_plain _)
    · exact intTwo_completes rfl (follows_plain _)
  · intro p hp _ hready
    simp only [List.mem_cons, List.not_mem_nil, or_false] at hp
    rcases hp with rfl | rfl | rfl | rfl | rfl | rfl | rfl | rfl | rfl | rfl | rfl | rfl | rfl | rfl
    · exact finish_tabled rfl rfl (ruleOf_iadd f) hready
    · exact finish_tabled rfl rfl (ruleOf_isub f) hready
    · exact finish_tabled rfl rfl (ruleOf_imul f) hready
    iterate 3 exact finish_tabled rfl rfl (ruleOf_intPlain (by simp)) hready
    iterate 4 exact finish_tabled rfl rfl (ruleOf_plain (by simp)) hready
    · exact finish_tabled rfl rfl (ruleOf_shl f) hready
    iterate 3 exact finish_tabled rfl rfl (ruleOf_plain (by simp)) hready
  · intro p hp _ hready hact hd
    simp only [List.mem_cons, List.not_mem_nil, or_false] at hp
    rcases hp with rfl | rfl
    · exact finish_copyShape rfl rfl hready hact hd
    · simp only [← copyUse_eq, ← copyTag_eq] at hready ⊢
      exact finish_copyShape (exec_mov_eq f s) rfl hready hact hd

end Sys2Proof
end

section
/-! Proofs about the logic, shift, byte and field instructions (R170, R171). -/

namespace Sys2Proof.Machine

/-- A logic instruction of two sources whose shape goes by no rule, or by SHL's where it is a shift. -/
theorem logicTwo_completes {i : Instr} {f : VFields} {s : State} {rule : ShapeRule} {g : Word → Word → Word}
    (hi : exec i s = s.conclude (logicTwo f s rule g))
    (hg : ∀ a b : Src, a.Shaped → b.Shaped → ∀ p, twoLine rule a b = some p → ∀ l, l < 32 →
      g (lane a.vals l) (lane b.vals l) = p.1 + BitVec.ofNat 32 l * p.2) :
    let x := vIn f s 2
    let t := f.h.ty
    let a := x.src 1 f.a
    let b := x.srcB f t
    x.Ready f [logicUse t a, logicUse t b] none →
      Completes i x s s (x.oneDst f.d) (fun _ => t) (fun _ l => g (lane a.vals l) (lane b.vals l)) (fun _ l => anyPois [a, b] l) := by
  intro x t a b hready
  have ha : a.Shaped := x.shaped_src _ _
  have hb : b.Shaped := x.shaped_srcB _ _
  exact completes_of_laneResult hi rfl hready
    (laneResult_two_good (by simp [ha, hb]) (lanewise_two g fun _ => rfl) (hg a b ha hb))

theorem logicTwo_completes_plain {i : Instr} {f : VFields} {s : State} {g : Word → Word → Word}
    (hi : exec i s = s.conclude (logicTwo f s .plain g)) :
    let x := vIn f s 2
    let t := f.h.ty
    let a := x.src 1 f.a
    let b := x.srcB f t
    x.Ready f [logicUse t a, logicUse t b] none →
      Completes i x s s (x.oneDst f.d) (fun _ => t) (fun _ l => g (lane a.vals l) (lane b.vals l)) (fun _ l => anyPois [a, b] l) :=
  logicTwo_completes hi fun a b _ _ p h => absurd h (by simp [twoLine_plain])

theorem logicOne_completes {i : Instr} {f : VFields} {s : State} {tag : BitVec 5} {g : Word → Word}
    (hi : exec i s = s.conclude (logicOne f s tag g)) :
    let x := vIn f s 1
    let e := x.src 1 f.a
    x.Ready f [logicUse f.h.ty e] none →
      Completes i x s s (x.oneDst f.d) (fun _ => tag) (fun _ l => g (lane e.vals l)) (fun _ l => anyPois [e] l) :=
  fun hready => completes_of_plain hi rfl hready (by simp [VCtx.shaped_src]) (lanewise_one g fun _ => rfl)

theorem bfx_completes {f : VFields} {s : State} :
    let x := vIn f s 2
    let t := f.h.ty
    let a := x.src 1 f.a
    let b := x.srcB f t
    x.Ready f [Use.of a t, Use.of b t] none →
      Completes (.bfx f) x s s (x.oneDst f.d) (fun _ => t) (fun _ l => bfxWord (t == Fmt.i32) (lane a.vals l) (lane b.vals l))
        (fun _ l => anyPois [a, b] l) :=
  fun hready => completes_of_plain rfl rfl hready (by simp [VCtx.shaped_src, VCtx.shaped_srcB])
    (lanewise_two (bfxWord (f.h.ty == Fmt.i32)) fun _ => rfl)

theorem bfi_completes {f : VFields} {s : State} :
    let x := vIn f s 3
    let t := f.h.ty
    let a := x.src 1 f.a
    let b := x.srcB f t
    let c := x.srcC f
    x.Ready f [Use.of a t, Use.of b t, Use.of c t] none →
      Completes (.bfi f) x s s (x.oneDst f.d) (fun _ => t) (fun _ l => bfiWord (lane a.vals l) (lane b.vals l) (lane c.vals l))
        (fun _ l => anyPois [a, b, c] l) :=
  fun hready => completes_of_plain rfl rfl hready (by simp [VCtx.shaped_src, VCtx.shaped_srcB, VCtx.shaped_srcC])
    (lanewise_three bfiWord fun _ => rfl)

theorem rawThree_completes {i : Instr} {f : VFields} {s : State} {g : Word → Word → Word → Word}
    (hi : exec i s = s.conclude (rawThree f s g)) :
    let x : VCtx := vctx s.dev f.h [dstOperand f.d, f.a, f.b, f.c]
    let a := x.src 1 f.a
    let b := x.src 2 f.b
    let c := x.src 3 f.c
    x.Ready f [Use.any a, Use.any b, Use.any c] none →
      Completes i x s s (x.oneDst f.d) (fun _ => Fmt.raw) (fun _ l => g (lane a.vals l) (lane b.vals l) (lane c.vals l))
        (fun _ l => anyPois [a, b, c] l) :=
  fun hready => completes_of_plain hi rfl hready (by simp [VCtx.shaped_src]) (lanewise_three g fun _ => rfl)

/-- BREV moves bit i to bit 31 - i, which is the reverse. -/
theorem brevWord_eq_reverse (w : Word) : brevWord w = w.reverse := by
  refine Mask.ext_has fun l hl => ?_
  rw [brevWord, Mask.has_of _ hl, Mask.has, BitVec.getLsbD_reverse, BitVec.getMsbD_eq_getLsbD]
  simp [hl]

theorem exec_brev_eq (f : VFields) (s : State) : exec (.brev f) s = s.conclude (logicOne f s f.h.ty (fun w => w.reverse)) :=
  congrArg (fun g => s.conclude (logicOne f s f.h.ty g)) (funext brevWord_eq_reverse)

end Sys2Proof.Machine
end

section
namespace Sys2Proof

open Sys2Proof.Machine

/-- Settles O3: each instruction is a lane function of its sources; only SHL's shape follows lines (`twoLine_shl`). -/
theorem logicInstructions : Obligations.LogicInstructions := by
  unfold Obligations.LogicInstructions
  refine ⟨fun f s => ?_, fun f s _ => bfx_completes, fun f s => ⟨?_, fun _ => bfi_completes, ?_⟩⟩
  · intro x t a b p hp _
    simp only [List.mem_cons, List.not_mem_nil, or_false] at hp
    rcases hp with rfl | rfl | rfl | rfl | rfl | rfl | rfl | rfl
    iterate 4 exact logicTwo_completes_plain rfl
    · exact logicTwo_completes rfl fun _ _ ha hb _ h _ hl => twoLine_shl ha hb h hl
    iterate 3 exact logicTwo_completes_plain rfl
  · intro p hp _
    simp only [List.mem_cons, List.not_mem_nil, or_false] at hp
    rcases hp with rfl | rfl | rfl
    · exact logicOne_completes rfl
    · exact logicOne_completes rfl
    · exact logicOne_completes (exec_brev_eq f s)
  · intro p hp _
    simp only [List.mem_cons, List.not_mem_nil, or_false] at hp
    rcases hp with rfl | rfl
    · exact rawThree_completes rfl
    · exact rawThree_completes rfl

end Sys2Proof
end

section
/-! Proofs about instructions with several results: what a run of register writes leaves of its column, the finish of an instruction that writes a
range of registers, and its completion (R66, R217). -/

namespace Sys2Proof.Machine

/-! ## Runs of writes -/

/-- What a run of writes into distinct registers leaves of a column: result j reaches lane l of register r where `hit j r l`. -/
structure Writes (k k' : Column) (s : Nat) (hit : Nat → Nat → Nat → Prop) (tag : Nat → BitVec 5) (val : Nat → Nat → Word)
    (pois : Nat → Nat → Bool) : Prop where
  wrote    : ∀ j r l, l < 32 → hit j r l → ((k'.warp s).reg r).data.lane l = val j l ∧ ((k'.warp s).reg r).data.pois l = pois j l ∧
    ((k'.warp s).reg r).fmt = tag j
  kept     : ∀ r l, l < 32 → (∀ j, ¬ hit j r l) → ((k'.warp s).reg r).data.lane l = ((k.warp s).reg r).data.lane l ∧
    ((k'.warp s).reg r).data.pois l = ((k.warp s).reg r).data.pois l
  untagged : ∀ r, (∀ j l, l < 32 → ¬ hit j r l) → ((k'.warp s).reg r).fmt = ((k.warp s).reg r).fmt
  warp     : { k'.warp s with regs := (k.warp s).regs } = k.warp s
  rest     : k'.rest = k.rest
  others   : ∀ y, y ≠ s → k'.warp y = k.warp y

section
variable {k k1 k2 : Column} {s : Nat} {tag : Nat → BitVec 5} {val : Nat → Nat → Word} {pois : Nat → Nat → Bool}

theorem Writes.refl (k : Column) (s : Nat) : Writes k k s (fun _ _ _ => False) tag val pois where
  wrote := fun _ _ _ _ h => h.elim
  kept := fun _ _ _ _ => ⟨rfl, rfl⟩
  untagged := fun _ _ => rfl
  warp := rfl
  rest := rfl
  others := fun _ _ => rfl

/-- The writes of one result are a run. -/
theorem Lanes.writes {x : Result} {p : Nat → Nat → Prop} {j : Nat} (h : Lanes k k1 s x p) (hx : x.Holds (tag j) (val j) (pois j)) :
    Writes k k1 s (fun i r l => i = j ∧ p r l) tag val pois where
  wrote := by
    rintro i r l hl ⟨rfl, hp⟩
    obtain ⟨hval, hpois⟩ := h.wrote r l hl hp
    rw [hval, hpois, hx.vals, hx.pois, lane_tab _ hl, Mask.has_of _ hl, h.tagged r l hl hp, hx.fmt]
    exact ⟨rfl, rfl, rfl⟩
  kept := fun r l hl hn => h.kept r l hl fun hp => hn j ⟨rfl, hp⟩
  untagged := fun r hn => h.untagged r fun l hl hp => hn j l hl ⟨rfl, hp⟩
  warp := h.warp
  rest := h.rest
  others := h.others

/-- Two runs whose registers are distinct are one run. -/
theorem Writes.trans {p q : Nat → Nat → Nat → Prop} (h : Writes k k1 s p tag val pois) (g : Writes k1 k2 s q tag val pois)
    (hpq : ∀ i j r l m, p i r l → ¬ q j r m) : Writes k k2 s (fun j r l => p j r l ∨ q j r l) tag val pois where
  wrote := by
    rintro j r l hl (hp | hq)
    · obtain ⟨hval, hpois⟩ := g.kept r l hl fun i => hpq j i r l l hp
      rw [hval, hpois, g.untagged r fun i m _ => hpq j i r l m hp]
      exact h.wrote j r l hl hp
    · exact g.wrote j r l hl hq
  kept := by
    intro r l hl hn
    obtain ⟨hval, hpois⟩ := g.kept r l hl fun j hq => hn j (.inr hq)
    rw [hval, hpois]
    exact h.kept r l hl fun j hp => hn j (.inl hp)
  untagged := by
    intro r hn
    rw [g.untagged r fun j l hl hq => hn j l hl (.inr hq)]
    exact h.untagged r fun j l hl hp => hn j l hl (.inl hp)
  warp := by
    have hg := congrArg (fun w : Warp => { w with regs := (k.warp s).regs }) g.warp
    exact hg.trans h.warp
  rest := g.rest.trans h.rest
  others := fun y hy => (g.others y hy).trans (h.others y hy)

theorem Writes.congr {p q : Nat → Nat → Nat → Prop} (h : Writes k k1 s p tag val pois) (e : ∀ j r l, l < 32 → (p j r l ↔ q j r l)) :
    Writes k k1 s q tag val pois where
  wrote := fun j r l hl hq => h.wrote j r l hl ((e j r l hl).mpr hq)
  kept := fun r l hl hn => h.kept r l hl fun j hp => hn j ((e j r l hl).mp hp)
  untagged := fun r hn => h.untagged r fun j l hl hp => hn j l hl ((e j r l hl).mp hp)
  warp := h.warp
  rest := h.rest
  others := h.others

/-- Results written into the registers from r on. -/
def Column.writeRange (k : Column) (s r : Nat) (m : Mask) : List Result → Column
  | [] => k
  | x :: xs => Column.writeRange (k.writeReg s r m x false) s (r + 1) m xs

theorem Column.writeRange_writes (s r : Nat) (m : Mask) (xs : List Result) (i : Nat) (k : Column)
    (hx : ∀ n (hn : n < xs.length), xs[n].Holds (tag (i + n)) (val (i + n)) (pois (i + n)) ∧ xs[n].Good) :
    Writes k (k.writeRange s (r + i) m xs) s (fun j n l => i ≤ j ∧ j < i + xs.length ∧ n = r + j ∧ Mask.has m l = true) tag val pois := by
  induction xs generalizing i k with
  | nil => exact (Writes.refl k s).congr fun j n l _ => ⟨False.elim, by simp; omega⟩
  | cons x xs ih =>
    obtain ⟨hholds, hgood⟩ := hx 0 (Nat.zero_lt_succ _)
    have head := (Column.writeReg_lanes k s (r + i) m x false hgood).writes (j := i) hholds
    have tail := ih (i + 1) (k.writeReg s (r + i) m x false) fun n hn => by
      have h := hx (n + 1) (Nat.succ_lt_succ hn)
      rwa [show i + (n + 1) = i + 1 + n by omega] at h
    refine (head.trans tail ?_).congr ?_
    · rintro a b n l l' ⟨-, rfl, -⟩ ⟨hge, -, heq, -⟩
      omega
    · intro j n l _
      simp only [List.length_cons]
      constructor
      · rintro (⟨rfl, rfl, hm⟩ | ⟨hge, hlt, rfl, hm⟩)
        · exact ⟨le_rfl, by omega, rfl, hm⟩
        · exact ⟨by omega, by omega, rfl, hm⟩
      · rintro ⟨hge, hlt, rfl, hm⟩
        rcases Nat.eq_or_lt_of_le hge with rfl | hgt
        · exact .inl ⟨rfl, rfl, hm⟩
        · exact .inr ⟨hgt, by omega, rfl, hm⟩

theorem Dev.modCurCol_modCurCol (d : Dev) (f g : Column → Column) : (d.modCurCol f).modCurCol g = d.modCurCol (fun k => g (f k)) := by
  simp [Dev.modCurCol, Dev.modCol, Dev.putCol, Dev.col, Table.set_set]

theorem Dev.writeRegs_cons (d : Dev) (r : Nat) (m : Mask) (x : Result) (xs : List Result) :
    d.writeRegs r m (x :: xs) = d.modCurCol (fun k => k.writeRange d.cur.slot r m (x :: xs)) := by
  induction xs generalizing d r x with
  | nil => rfl
  | cons y ys ih =>
    change (d.writeReg r m x).writeRegs (r + 1) m (y :: ys) = _
    rw [ih]
    exact Dev.modCurCol_modCurCol _ _ _

/-- A nonempty list of results written from a register on is a run of writes. -/
theorem Dev.writeRegs_eq (d : Dev) (r : Nat) (m : Mask) {xs : List Result} (h : xs ≠ []) :
    d.writeRegs r m xs = d.modCurCol (fun k => k.writeRange d.cur.slot r m xs) := by
  cases xs with
  | nil => exact absurd rfl h
  | cons x xs => exact d.writeRegs_cons r m x xs

/-! ## Retirement -/

/-- An instruction that makes a run of writes and then finishes has retired with their results. -/
theorem Writes.retires {s : State} {x : VCtx} {g : Column → Column} {hit : Nat → Nat → Nat → Prop} {dst : Nat → Nat → Option Nat}
    (h : Writes s.dev.curCol (g s.dev.curCol) s.dev.cur.slot hit tag val pois)
    (hdst : ∀ j l r, l < 32 → (dst j l = some r ↔ hit j r l)) (f : VFields) :
    Retires x s { s with dev := { ((x.step (s.dev.modCurCol g)).hint f.hint).advance with issued := .retired } } dst tag val pois := by
  have hwarp := x.finish_warp (s.dev.modCurCol g) f
  rw [show (s.dev.modCurCol g).curWarp = (g s.dev.curCol).warp s.dev.cur.slot by simp [Dev.curWarp, Dev.warp, Dev.modCurCol, Dev.curCol]]
    at hwarp
  have hreg (n : Nat) : ((((x.step (s.dev.modCurCol g)).hint f.hint).advance)).curWarp.reg n = ((g s.dev.curCol).warp s.dev.cur.slot).reg n := by
    rw [hwarp]
    simp only [Warp.reg, Warp.stepFields_regs]
  refine { issued := rfl, only := ?_, wrote := ?_, kept := ?_, tags := ?_, pc := congrArg Warp.pc hwarp, ix := ?_, rest := ?_ }
  · exact (OnlyWarp.ofCol s g h.rest h.others).trans (VCtx.onlyWarp_retired x _ f.hint)
  · intro j l r hl hd
    obtain ⟨hval, hpois, htag⟩ := h.wrote j r l hl ((hdst j l r hl).mp hd)
    rw [← hreg] at hval hpois htag
    exact ⟨hval, hpois, htag⟩
  · intro r l hl hd
    have hkept := h.kept r l hl fun j hp => hd j ((hdst j l r hl).mpr hp)
    rw [← hreg] at hkept
    exact hkept
  · intro r hd
    have htag := h.untagged r fun j l hl hp => hd j l hl ((hdst j l r hl).mpr hp)
    rw [← hreg] at htag
    exact htag
  · have hix := congrArg Warp.ix h.warp
    exact (congrArg Warp.ix hwarp).trans (Warp.stepFields_ix _ _ _ _ _ hix)
  · have hstep := congrArg Warp.rest (Warp.stepFields_frame ((g s.dev.curCol).warp s.dev.cur.slot) x.act x.pre x.fields)
    have hrest := congrArg Warp.rest h.warp
    exact (congrArg Warp.rest hwarp).trans (hstep.trans hrest)

/-! ## Ranges -/

theorem VCtx.finishRange_of_ready {x : VCtx} {f : VFields} {bounds : List (Option TrapInfo)} {us : List Use} (h : x.ReadyRange f bounds us)
    (rs : List Result) (post : Dev → Dev) :
    x.finishRange f bounds us [] rs post = .retire ((x.step ((post x.d).writeRegs (dstReg f.d) x.act rs)).hint f.hint).advance := by
  obtain ⟨hready, hchecks⟩ := h
  simp only [VCtx.finishRange, hready, hchecks, Bool.false_eq_true, if_false]

/-- An instruction that may issue and ends in `finishRange` completes with its results, from the device that `post` leaves. -/
theorem completes_of_finishRange {i : Instr} {s : State} {x : VCtx} {f : VFields} {bounds : List (Option TrapInfo)} {us : List Use} {n : Nat}
    {res : Nat → Result} {post : Dev → Dev} (hi : exec i s = s.conclude (x.finishRange f bounds us [] ((List.range n).map res) post))
    (hx : x.d = s.dev) (hready : x.ReadyRange f bounds us) (hn : 0 < n)
    (hres : ∀ j, j < n → (res j).Holds (tag j) (val j) (pois j) ∧ (res j).Good) :
    Completes i x s { s with dev := post s.dev } (x.rangeDst f.d n) tag val pois := by
  have hne : (List.range n).map res ≠ [] := by
    rw [Ne, List.map_eq_nil_iff, List.range_eq_nil]
    omega
  rw [VCtx.finishRange_of_ready hready, State.conclude_retire, hx, Dev.writeRegs_eq _ _ _ hne] at hi
  refine ⟨_, hi, ?_⟩
  let base : State := { s with dev := post s.dev }
  have run := Column.writeRange_writes (tag := tag) (val := val) (pois := pois) base.dev.cur.slot (dstReg f.d) x.act ((List.range n).map res) 0
    base.dev.curCol (by simpa using hres)
  refine Writes.retires (s := base) (g := fun k => k.writeRange base.dev.cur.slot (dstReg f.d) x.act ((List.range n).map res)) run ?_ f
  intro j l r _
  simp only [VCtx.rangeDst, List.length_map, List.length_range, Nat.zero_add, Nat.zero_le, true_and]
  constructor
  · intro h
    split at h
    next hc => exact ⟨hc.1, (Option.some.inj h).symm, hc.2⟩
    next => cases h
  · rintro ⟨hj, rfl, ha⟩
    rw [if_pos ⟨hj, ha⟩]

end

end Sys2Proof.Machine
end

section
/-! Proofs about the comparisons, PLOP and the moves (R133, R167-R169, R178). -/

namespace Sys2Proof.Machine

/-! ## Comparisons -/

/-- An instruction with a predicate destination sets it, from the device with the record of its sources' poison (R441). -/
theorem compare_setsPred {i : Instr} {s : State} {x : VCtx} {f : VFields} {us : List Use} {preds : Option TrapInfo} {bits : Nat → Bool}
    (hi : exec i s = s.conclude (x.finishPred f us preds (Mask.of bits))) (hx : x.d = s.dev) (hready : x.ReadyPred f us preds) :
    ∃ u, exec i s = .next u ∧
      SetsPred x { s with dev := s.dev.predPoison (Mask.of (anyPois (us.map Use.src)) &&& x.act) } u (f.d.toNat % 8) bits := by
  obtain ⟨u, hu, h⟩ := VCtx.finishPred_setsPred hx hready bits
  rw [poisOf_eq] at h
  exact ⟨u, hi.trans hu, h⟩

/-- PLOP's table is the upper half of field C. -/
theorem plopTable_eq (f : VFields) : f.c.bits.extractLsb' 8 8 = f.bc.extractLsb' 8 8 := by
  rw [VFields.c, Operand.bits_ofBits]
  ext i hi
  simp only [BitVec.getElem_extractLsb', BitVec.getLsbD_extractLsb']
  simp only [Nat.zero_add, Bool.and_eq_right_iff_imp, decide_eq_true_eq]
  omega

/-- PLOP has no sources but predicates, which carry no poison. -/
theorem plop_setsPred {f : VFields} {s : State} :
    let y := vIn f s 0
    let p (o : Operand) : Mask := s.dev.curWarp.pred (o.bits.toNat % 8)
    let bit (m : Mask) (l : Nat) : Nat := if Mask.has m l then 1 else 0
    y.ReadyPred f [] (predCheck [p f.a, p f.b, p f.c]) →
      ∃ u, exec (.plop f) s = .next u ∧ SetsPred y s u (f.d.toNat % 8) (fun l =>
        (f.bc.extractLsb' 8 8).getLsbD (4 * bit (p f.a) l + 2 * bit (p f.b) l + bit (p f.c) l)) := by
  intro y p bit hready
  obtain ⟨u, hu, h⟩ := compare_setsPred (i := .plop f) rfl rfl hready
  refine ⟨u, hu, ?_⟩
  have hnone : s.dev.predPoison (Mask.of (anyPois []) &&& y.act) = s.dev := by
    rw [← poisOf_eq]
    simp [poisOf]
  rw [List.map_nil, hnone, plopTable_eq] at h
  exact h

/-! ## SEL -/

theorem has_of_predUniform {m : Mask} (h : predUniform m = true) {l : Nat} (hl : l < 32) : Mask.has m l = Mask.has m 0 := by
  simp only [predUniform, Bool.or_eq_true, beq_iff_eq] at h
  rcases h with rfl | rfl
  · simp [Mask.has]
  · rw [Mask.has_all hl, Mask.has_all (Nat.zero_lt_succ 31)]

/-- SEL's result: each lane has the value and the poison of the source that the predicate selects. -/
def selResult (t : BitVec 5) (p : Mask) (a b : Src) : Result :=
  { vals := tab (fun l => padded t (if Mask.has p l then lane a.vals l else lane b.vals l)),
    pois := (a.pois &&& p) ||| (b.pois &&& ~~~p), fmt := t, shape := resultShape .plain [a, b] (predUniform p) }

theorem selResult_holds (t : BitVec 5) (p : Mask) (a b : Src) :
    (selResult t p a b).Holds t (fun l => padded t (if Mask.has p l then lane a.vals l else lane b.vals l))
      (fun l => if Mask.has p l then Mask.has a.pois l else Mask.has b.pois l) := by
  refine ⟨rfl, Mask.ext_has fun l hl => ?_, rfl⟩
  rw [Mask.has_of _ hl]
  cases hp : Mask.has p l <;> simp [selResult, hp, hl]

theorem selResult_good (t : BitVec 5) (p : Mask) {a b : Src} (ha : a.Shaped) (hb : b.Shaped) : (selResult t p a b).Good := by
  obtain ⟨hvals, hpois, -⟩ := selResult_holds t p a b
  rcases resultShape_plain [a, b] (predUniform p) with ⟨hshape, hu, hp⟩ | hshape
  · refine Result.good_uniform _ hshape fun l hl => ?_
    have h0 : 0 < 32 := Nat.zero_lt_succ 31
    have hua := ha.uniform (hu a (by simp)) l hl
    have hub := hb.uniform (hu b (by simp)) l hl
    rw [hvals, hpois, lane_tab _ hl, lane_tab _ h0, Mask.has_of _ hl, Mask.has_of _ h0, has_of_predUniform hp hl, hua.1, hua.2, hub.1, hub.2]
    exact ⟨rfl, rfl⟩
  · exact Result.good_general _ hshape

theorem sel_completes {f : VFields} {s : State} :
    let x := vIn f s 2
    let raw := f.h.ty == Fmt.raw
    let a := x.src 1 f.a
    let t := if raw then a.tag else f.h.ty
    let b := x.srcB f t
    let p := selPred s.dev.curWarp f
    x.Ready f [if raw then { src := a, want := none, one := true } else Use.of a t,
        if raw then { src := b, want := none, one := true, eq := some t } else Use.of b t] (predCheck [p]) →
      Completes (.sel f) x s s (x.oneDst f.d) (fun _ => t)
        (fun _ l => padded t (if Mask.has p l then lane a.vals l else lane b.vals l))
        (fun _ l => if Mask.has p l then Mask.has a.pois l else Mask.has b.pois l) := by
  intro x raw a t b p hready
  have hi : exec (.sel f) s = s.conclude (x.finish f _ (predCheck [p]) [] (selResult t p a b) noPost) := rfl
  exact VCtx.completes_of_finish hi rfl (.refl _) hready (selResult_holds t p a b)
    fun _ => selResult_good t p (x.shaped_src _ _) (x.shaped_srcB _ _)

/-! ## MOV and MOVS -/

theorem anyPois_one (a : Src) (l : Nat) : anyPois [a] l = Mask.has a.pois l := by simp [anyPois]

theorem mov_completes {f : VFields} {s : State} :
    let x : VCtx := vctx s.dev f.h (dstOperand f.d :: (if f.vi then [] else [f.a]))
    let a := x.movSrc f
    x.Ready f [copyUse f a] none →
      Completes (.mov f) x s s (x.oneDst f.d) (fun _ => copyTag f a) (fun _ l => padded (copyTag f a) (lane a.vals l))
        (fun _ l => Mask.has a.pois l) := by
  intro x a hready
  simp only [← anyPois_one]
  exact completes_of_laneResult (exec_mov_eq f s) rfl hready (laneResult_copy_good (x.shaped_movSrc f) _)

/-- The tag of a direct source is that of its register. -/
theorem VCtx.tag_reg (x : VCtx) (code r : Nat) (o : Operand) : (x.reg code r o).tag = (x.w.reg r).fmt := by
  have h0 : Mask.first Mask.all = 0 := by decide
  simp only [Src.tag, VCtx.reg, Src.direct, h0]
  exact lane_tab _ (Nat.zero_lt_succ 31)

/-- A copy of a source under its own tag. -/
def copyResult (a : Src) : Result := laneResult .copy [a] a.tag (fun l => padded a.tag (lane a.vals l))

theorem exec_movs_eq (f : VFields) (s : State) :
    let x := vIn f s 0
    let n := f.subBits 2 0 + 1
    let va := f.a.reg.toNat
    exec (.movs f) s = s.conclude (x.finishRange f [boundCheck x.regs (dstReg f.d + n - 1), boundCheck x.regs (va + n - 1)]
      ((List.range n).map (fun i => Use.any (x.reg 1 (va + i) f.a))) []
      ((List.range n).map (fun i => copyResult (x.reg 1 (va + i) f.a))) noPost) := by
  intro x n va
  change s.conclude (movsIssue f s) = _
  unfold movsIssue
  simp only [List.map_map]
  rfl

theorem movs_completes {f : VFields} {s : State} :
    let x := vIn f s 0
    let n := f.subBits 2 0 + 1
    let va := f.a.reg.toNat
    x.ReadyRange f [boundCheck x.regs (dstReg f.d + n - 1), boundCheck x.regs (va + n - 1)]
        ((List.range n).map (fun i => Use.any (x.reg 1 (va + i) f.a))) →
      Completes (.movs f) x s s (x.rangeDst f.d n) (fun j => (s.readReg (va + j)).fmt)
        (fun j l => padded (s.readReg (va + j)).fmt (lane (x.reg 1 (va + j) f.a).vals l))
        (fun j l => Mask.has (x.reg 1 (va + j) f.a).pois l) := by
  intro x n va hready
  refine completes_of_finishRange (exec_movs_eq f s) rfl hready (Nat.zero_lt_succ _) fun j _ => ?_
  have htag : (x.reg 1 (va + j) f.a).tag = (s.readReg (va + j)).fmt := x.tag_reg _ _ _
  simp only [← htag, ← anyPois_one]
  exact ⟨laneResult_holds _ _ _ _, laneResult_copy_good (x.shaped_reg _ _ _) _⟩

end Sys2Proof.Machine
end

section
namespace Sys2Proof

open Sys2Proof.Machine

/-- Settles O2: comparisons end in `finishPred`, SEL and MOV in `finish`, MOVS in `finishRange`. -/
theorem comparisonsAndMoves : Obligations.ComparisonsAndMoves := by
  unfold Obligations.ComparisonsAndMoves
  refine ⟨fun f s => ⟨fun _ => compare_setsPred rfl rfl, fun _ => compare_setsPred rfl rfl, fun _ => plop_setsPred⟩,
    fun f s => ⟨fun _ => sel_completes, fun _ hready => ?_, fun _ => movs_completes⟩⟩
  have hready : (vctx s.dev f.h (dstOperand f.d :: (if f.vi then [] else [f.a]))).Ready f
      [copyUse f ((vctx s.dev f.h (dstOperand f.d :: (if f.vi then [] else [f.a]))).movSrc f)] none := by
    rw [copyUse_eq]
    simp only [beq_iff_eq] at hready
    exact hready
  exact mov_completes hready

end Sys2Proof
end

section
/-! Proofs about LEA, CADR, CGET and TIDX (R172-R174). -/

namespace Sys2Proof.Machine

/-! ## Pointer pairs -/

/-- Half j of a pointer. -/
def ptrHalf (q : BitVec 64) (j : Nat) : Word := q.extractLsb' (32 * j) 32

/-- The result that holds half j of a pointer made lane by lane from sources. -/
def halfResult (ss : List Src) (q : Nat → BitVec 64) (j : Nat) : Result := laneResult .plain ss Fmt.ui32 (fun l => ptrHalf (q l) j)

/-- An instruction that writes a pointer pair completes with its halves. -/
theorem completes_of_pair {i : Instr} {s : State} {x : VCtx} {f : VFields} {bounds : List (Option TrapInfo)} {us : List Use} {ss : List Src}
    {q : Nat → BitVec 64} (hi : exec i s = s.conclude (x.finishRange f bounds us [] ((List.range 2).map (halfResult ss q)) noPost))
    (hx : x.d = s.dev) (hready : x.ReadyRange f bounds us) (hs : AllShaped ss) (hq : Lanewise ss q) :
    Completes i x s s (x.rangeDst f.d 2) (fun _ => Fmt.ui32) (fun j l => ptrHalf (q l) j) (fun _ l => anyPois ss l) :=
  completes_of_finishRange hi hx hready (by decide) fun j _ =>
    ⟨laneResult_holds _ _ _ _, laneResult_plain_good _ hs fun l hl h => congrArg (ptrHalf · j) (hq l hl h)⟩

theorem ptrHalf_zero (q : BitVec 64) : ptrHalf q 0 = q.setWidth 32 := by
  exact BitVec.eq_of_toNat_eq (by simp [ptrHalf])

theorem ptr_completes {i : Instr} {f : VFields} {s : State} {g : BitVec 64 → Word → BitVec 64} (hi : exec i s = s.conclude (ptrIssue f s g)) :
    let x := vIn f s 2
    let va := f.a.reg.toNat
    let lo := x.reg 1 va f.a
    let hi := x.reg 1 (va + 1) f.a
    let b := x.srcB f Fmt.ui32
    x.ReadyRange f [boundCheck x.regs (dstReg f.d + 1), boundCheck x.regs (va + 1), b.boundCheck x.regs]
        [Use.ptr lo, Use.ptr hi, Use.ptr b] →
      Completes i x s s (x.rangeDst f.d 2) (fun _ => Fmt.ui32)
        (fun j l => ptrHalf (g (lane hi.vals l ++ lane lo.vals l) (lane b.vals l)) j) (fun _ l => anyPois [lo, hi, b] l) := by
  intro x va lo hw b hready
  have hlist : (List.range 2).map (halfResult [lo, hw, b] (fun l => g (lane hw.vals l ++ lane lo.vals l) (lane b.vals l))) =
      [laneResult .plain [lo, hw, b] Fmt.ui32 (fun l => (g (lane hw.vals l ++ lane lo.vals l) (lane b.vals l)).setWidth 32),
       laneResult .plain [lo, hw, b] Fmt.ui32 (fun l => (g (lane hw.vals l ++ lane lo.vals l) (lane b.vals l)).extractLsb' 32 32)] := by
    simp only [← ptrHalf_zero]
    rfl
  refine completes_of_pair (hi.trans ?_) rfl hready (by simp [lo, hw, b, VCtx.shaped_reg, VCtx.shaped_srcB])
    (lanewise_three (fun u v w => g (v ++ u) w) fun _ => rfl)
  rw [hlist]
  rfl

/-! ## CGET -/

/-- An instruction that ends in the write of one result and the finish completes with it. -/
theorem completes_of_write {i : Instr} {s : State} {x : VCtx} {f : VFields} {r : Result} {fmt : BitVec 5} {val : Nat → Word}
    {pois : Nat → Bool} (hi : exec i s = s.conclude (.retire ((x.step (x.writeDst s.dev f.d r)).hint f.hint).advance))
    (hr : r.Holds fmt val pois) (hgood : r.Good) :
    Completes i x s s (x.oneDst f.d) (fun _ => fmt) (fun _ => val) (fun _ => pois) := by
  obtain ⟨g, hg, hlanes⟩ := x.writeDst_lanes s.dev f.d r hgood
  rw [hg, State.conclude_retire] at hi
  refine ⟨_, hi, ?_⟩
  have run := (hlanes s.dev.curCol).writes (tag := fun _ => fmt) (val := fun _ => val) (pois := fun _ => pois) (j := 0) hr
  refine run.retires ?_ f
  intro j l r _
  unfold VCtx.oneDst
  constructor
  · intro h
    split at h
    next hc => exact ⟨hc.1, hc.2, Option.some.inj h⟩
    next => cases h
  · rintro ⟨rfl, ha, rfl⟩
    rw [if_pos ⟨rfl, ha⟩]

theorem cget_selector_completes {f : VFields} {s : State} (hsub : f.sub = 0) :
    let x := vIn f s 1
    let va := f.a.reg.toNat
    let lo := x.reg 1 va f.a
    let hi := x.reg 1 (va + 1) f.a
    x.notReady [Use.ptr lo, Use.ptr hi] = false →
      x.checks f.h.u [dstBound x.regs f.d, boundCheck x.regs (va + 1)] (x.dstWin f.d) [Use.ptr lo, Use.ptr hi] none [] = none →
      x.fifthWindow f.d = false →
      Completes (.cget f) x s s (x.oneDst f.d) (fun _ => Fmt.ui32) (fun _ l => (lane hi.vals l) >>> 21) (fun _ l => anyPois [lo, hi] l) := by
  intro x va lo hw hready hchecks hfifth
  have h0 : f.subBits 1 0 = 0 := by simp [VFields.subBits, hsub]
  refine completes_of_write (r := laneResult .plain [lo, hw] Fmt.ui32 (fun l => (lane hw.vals l) >>> 21)) ?_ (laneResult_holds _ _ _ _) ?_
  · change s.conclude (cgetIssue f s) = _
    unfold cgetIssue
    rw [if_pos h0]
    exact congrArg s.conclude ((if_neg (by rw [hready]; decide)).trans (by
      rw [show x.checks f.h.u _ _ _ _ _ = none from hchecks]
      exact if_neg (by rw [hfifth]; decide)))
  · exact laneResult_plain_good _ (by simp [lo, hw, VCtx.shaped_reg]) (lanewise_two (fun _ v => v >>> 21) fun _ => rfl)

/-- A pointer with the self selector set: the halves of R173. -/
theorem ptrHalf_self (lo hi : Word) :
    ptrHalf ((hi ++ lo) ||| (0x7FF#64 <<< 53)) 0 = lo ∧ ptrHalf ((hi ++ lo) ||| (0x7FF#64 <<< 53)) 1 = hi ||| 0xFFE00000#32 := by
  have hlo : (hi ++ lo).extractLsb' 0 32 = lo := by
    ext i h
    rw [BitVec.getElem_extractLsb', Nat.zero_add]
    exact BitVec.getLsbD_append.trans (by simp [h])
  have hhi : (hi ++ lo).extractLsb' 32 32 = hi := by
    ext i h
    rw [BitVec.getElem_extractLsb']
    exact BitVec.getLsbD_append.trans (by simp [h])
  constructor
  · rw [ptrHalf, BitVec.extractLsb'_or, hlo, show (0x7FF#64 <<< 53).extractLsb' (32 * 0) 32 = 0#32 from rfl, BitVec.or_zero]
  · rw [ptrHalf, BitVec.extractLsb'_or, hhi]
    rfl

theorem cget_self_completes {f : VFields} {s : State} (hsub : f.sub = 1) :
    let x := vIn f s 1
    let va := f.a.reg.toNat
    let lo := x.reg 1 va f.a
    let hi := x.reg 1 (va + 1) f.a
    x.ReadyRange f [boundCheck x.regs (dstReg f.d + 1), boundCheck x.regs (va + 1)] [Use.ptr lo, Use.ptr hi] →
      Completes (.cget f) x s s (x.rangeDst f.d 2) (fun _ => Fmt.ui32)
        (fun j l => ptrHalf ((lane hi.vals l ++ lane lo.vals l) ||| (0x7FF#64 <<< 53)) j) (fun _ l => anyPois [lo, hi] l) := by
  intro x va lo hw hready
  have h1 : f.subBits 1 0 ≠ 0 := by simp [VFields.subBits, hsub]
  have hlist : (List.range 2).map (halfResult [lo, hw] (fun l => (lane hw.vals l ++ lane lo.vals l) ||| (0x7FF#64 <<< 53))) =
      [laneResult .plain [lo, hw] Fmt.ui32 (fun l => lane lo.vals l),
       laneResult .plain [lo, hw] Fmt.ui32 (fun l => (lane hw.vals l) ||| 0xFFE00000#32)] := by
    change [laneResult .plain _ _ (fun l => ptrHalf _ 0), laneResult .plain _ _ (fun l => ptrHalf _ 1)] = _
    simp only [ptrHalf_self]
  refine completes_of_pair ?_ rfl hready (by simp [lo, hw, VCtx.shaped_reg]) (lanewise_two (fun u v => (v ++ u) ||| (0x7FF#64 <<< 53)) fun _ => rfl)
  rw [hlist]
  exact congrArg s.conclude (if_neg h1)

/-! ## TIDX -/

/-- The result of TIDX where each lane has its own coordinate. -/
def tidxResult (v : (Nat → Nat) × Shape) : Result := { vals := tab (fun l => BitVec.ofNat 32 (v.1 l)), pois := 0, fmt := Fmt.ui32, shape := v.2 }

/-- A uniform coordinate is one value; coordinates on a line are the lane numbers of a launch over all lanes. -/
theorem tidxResult_good (r : LaunchRec) (coords : List Nat) (i : Nat) (ext : Bool) : (tidxResult (tidxVal r coords i ext)).Good := by
  have huni (g : Nat) : (tidxResult (fun _ => g, .uniform)).Good :=
    Result.good_uniform _ rfl fun l hl => by simp [tidxResult, hl, Mask.has]
  have hgen (g : Nat → Nat) : (tidxResult (g, .general)).Good := Result.good_general _ rfl
  unfold tidxVal
  split
  · exact huni _
  · split_ifs with _ _ hw
    · exact huni _
    · refine Result.good_affine _ (b := 0) (s := 1) rfl fun l hl => ?_
      simp [tidxResult, hl, hw, Mask.has, Nat.mod_eq_of_lt hl]
    · exact hgen _
    · exact hgen _
    · exact huni _
    · exact huni _

theorem Dev.SameIssue.draw (d : Dev) : d.SameIssue (d.draw).2 := ⟨rfl, rfl, rfl⟩

theorem tidx_completes {f : VFields} {s : State} :
    let x : VCtx := vctx s.dev f.h [dstOperand f.d]
    let v := tidxVal s.dev.curRec s.dev.curWarp.coords (f.subBits 2 0) (f.subBit 3)
    let own := f.h.u = true ∧ v.2 ≠ .uniform
    x.Ready f [] none →
      Completes (.tidx f) x s (if own then { s with dev := (s.dev.draw).2 } else s) (x.oneDst f.d) (fun _ => Fmt.ui32)
        (fun _ l => if own then (s.dev.draw).1 else BitVec.ofNat 32 (v.1 l)) (fun _ _ => false) := by
  intro x v own hready
  have hi : exec (.tidx f) s = s.conclude (tidxIssue f s) := rfl
  by_cases h : own
  · have hb : (f.h.u && v.2 != .uniform) = true := by simpa [own] using h
    have hissue : tidxIssue f s = x.finish f [] none [] (.uni (s.dev.draw).1 false Fmt.ui32) (fun d => (d.draw).2) := by
      unfold tidxIssue
      simp only [show (f.h.u && (tidxVal s.dev.curRec (vctx s.dev f.h [dstOperand f.d]).w.coords (f.subBits 2 0) (f.subBit 3)).2 != .uniform) = true from hb, if_true]
      rfl
    simp only [if_pos h]
    exact VCtx.completes_of_finish (hi.trans (congrArg _ hissue)) rfl (.draw _) hready ⟨rfl, rfl, rfl⟩
      fun _ => Result.good_uniform _ rfl fun l hl => by simp [Result.uni, hl, Mask.has]
  · have hb : (f.h.u && v.2 != .uniform) = false := by simpa [own] using h
    have hissue : tidxIssue f s = x.finish f [] none [] (tidxResult v) noPost := by
      unfold tidxIssue
      simp only [show (f.h.u && (tidxVal s.dev.curRec (vctx s.dev f.h [dstOperand f.d]).w.coords (f.subBits 2 0) (f.subBit 3)).2 != .uniform) = false from hb, Bool.false_eq_true, if_false]
      rfl
    simp only [if_neg h]
    exact VCtx.completes_of_finish (hi.trans (congrArg _ hissue)) rfl (.refl _) hready ⟨rfl, rfl, rfl⟩
      fun _ => tidxResult_good _ _ _ _

end Sys2Proof.Machine
end

section
namespace Sys2Proof
open Sys2Proof.Machine

/-- Settles O4: LEA, CADR and CGET to an own pointer write the halves of a pointer, CGET a selector, TIDX its coordinate or a draw. -/
theorem pointersAndCoordinates : Obligations.PointersAndCoordinates := by
  refine ⟨fun f s => ⟨fun p hp _ hready => ?_, fun _ => cget_selector_completes, fun _ => cget_self_completes⟩, fun f s _ => tidx_completes⟩
  simp only [List.mem_cons, List.not_mem_nil, or_false] at hp
  rcases hp with rfl | rfl
  · exact ptr_completes (g := leaPtr (f.subBits 2 0) (f.subBit 3)) rfl hready
  · exact ptr_completes (g := fun p b => b.extractLsb' 0 11 ++ 0#9 ++ p.extractLsb' 0 44) rfl hready

end Sys2Proof
end

section
/-! Proofs about floating-point arithmetic, FCLASS and the special functions (R176-R179): no subnormal stands in the way. -/

namespace Sys2Proof.Machine

/-- A floating-point instruction that need not be replayed completes with its rounded values. -/
theorem floatIssue_completes {i : Instr} {f : VFields} {s : State} {x : VCtx} {ins : List FloatIn} {t : BitVec 5} {mayReplay : Bool} {g : Exact}
    {fin : Nat → Word} (hi : exec i s = s.conclude (floatIssue f x ins t mayReplay g fin)) (hx : x.d = s.dev)
    (hready : x.Ready f (ins.map fun i => Use.of i.src i.fmt) none) (hreplay : mayReplay = true → replayMask x.act ins t g = 0)
    (hs : AllShaped (ins.map FloatIn.src)) (hf : Lanewise (ins.map FloatIn.src) fin) :
    Completes i x s s (x.oneDst f.d) (fun _ => t) (fun _ => fin) (fun _ => anyPois (ins.map FloatIn.src)) := by
  refine completes_of_plain (hi.trans (congrArg _ (if_neg ?_))) hx hready hs hf
  cases mayReplay with
  | false => simp
  | true => simp [hreplay rfl]

theorem floatTwo_completes {i : Instr} {f : VFields} {s : State} {mayReplay : Bool} {op : FVal → FVal → FVal}
    (hi : exec i s = s.conclude (floatTwo f s mayReplay op)) :
    let x := vIn f s 2
    let t := f.h.ty
    let a := x.src 1 f.a
    let b := x.srcB f t
    let g (l i : Nat) : FVal := op (elemVal t (lane a.vals l) i) (elemVal t (lane b.vals l) i)
    x.Ready f [Use.of a t, Use.of b t] none →
      (mayReplay = true → replayMask x.act [{ src := a, fmt := t }, { src := b, fmt := t }] t g = 0) →
      Completes i x s s (x.oneDst f.d) (fun _ => t) (fun _ l => floatLane t f.h.rm f.h.s (g l)) (fun _ l => anyPois [a, b] l) := by
  intro x t a b g hready hreplay
  exact floatIssue_completes hi rfl hready hreplay (by simp [VCtx.shaped_src, VCtx.shaped_srcB])
    (lanewise_two (fun u v => floatLane t f.h.rm f.h.s fun i => op (elemVal t u i) (elemVal t v i)) fun _ => rfl)

theorem minMax_completes {i : Instr} {f : VFields} {s : State} {greater : Bool} (hi : exec i s = s.conclude (minMaxIssue f s greater)) :
    let x := vIn f s 2
    let t := f.h.ty
    let a := x.src 1 f.a
    let b := x.srcB f t
    x.Ready f [Use.of a t, Use.of b t] none →
      Completes i x s s (x.oneDst f.d) (fun _ => t)
        (fun _ l => (List.range (elems t)).foldl (fun w i =>
          insCode t w i (minMaxCode t greater (f.subBit 0) (elemCode t (lane a.vals l) i) (elemCode t (lane b.vals l) i))) 0)
        (fun _ l => anyPois [a, b] l) := by
  intro x t a b hready
  have hi : exec i s = s.conclude (floatIssue f x [{ src := a, fmt := t }, { src := b, fmt := t }] t false (fun _ _ => .nan) _) := hi
  exact floatIssue_completes hi rfl hready (by simp) (by simp [a, b, VCtx.shaped_src, VCtx.shaped_srcB])
    (lanewise_two (fun u v => (List.range (elems t)).foldl (fun w i =>
      insCode t w i (minMaxCode t greater (f.subBit 0) (elemCode t u i) (elemCode t v i))) 0) fun _ => rfl)

theorem ffma_completes {f : VFields} {s : State} :
    let x := vIn f s 3
    let t := f.h.ty
    let a := x.src 1 f.a
    let b := x.srcB f t
    let c := x.srcC f
    let g (l i : Nat) : FVal := FVal.add f.h.rm (FVal.mul (elemVal t (lane a.vals l) i) (elemVal t (lane b.vals l) i)) (elemVal t (lane c.vals l) i)
    x.Ready f [Use.of a t, Use.of b t, Use.of c t] none →
      replayMask x.act [{ src := a, fmt := t }, { src := b, fmt := t }, { src := c, fmt := t }] t g = 0 →
      Completes (.ffma f) x s s (x.oneDst f.d) (fun _ => t) (fun _ l => floatLane t f.h.rm f.h.s (g l)) (fun _ l => anyPois [a, b, c] l) := by
  intro x t a b c g hready hreplay
  have hi : exec (.ffma f) s = s.conclude (ffmaIssue f s) := rfl
  exact floatIssue_completes hi rfl hready (fun _ => hreplay) (by simp [VCtx.shaped_src, VCtx.shaped_srcB, VCtx.shaped_srcC])
    (lanewise_three (fun u v w => floatLane t f.h.rm f.h.s fun i =>
      FVal.add f.h.rm (FVal.mul (elemVal t u i) (elemVal t v i)) (elemVal t w i)) fun _ => rfl)

theorem fdot2_completes {f : VFields} {s : State} :
    let x := vIn f s 3
    let t := f.h.ty
    let a := x.src 1 f.a
    let b := x.srcB f t
    let c := x.srcC f
    let g (l _ : Nat) : FVal := FVal.sum f.h.rm [elemVal Fmt.f32 (lane c.vals l) 0, FVal.mul (elemVal t (lane a.vals l) 0) (elemVal t (lane b.vals l) 0),
      FVal.mul (elemVal t (lane a.vals l) 1) (elemVal t (lane b.vals l) 1)]
    x.Ready f [Use.of a t, Use.of b t, Use.of c Fmt.f32] none →
      replayMask x.act [{ src := a, fmt := t }, { src := b, fmt := t }, { src := c, fmt := Fmt.f32 }] Fmt.f32 g = 0 →
      Completes (.fdot2 f) x s s (x.oneDst f.d) (fun _ => Fmt.f32) (fun _ l => floatLane Fmt.f32 f.h.rm f.h.s (g l))
        (fun _ l => anyPois [a, b, c] l) := by
  intro x t a b c g hready hreplay
  have hi : exec (.fdot2 f) s = s.conclude (fdot2Issue f s) := rfl
  exact floatIssue_completes hi rfl hready (fun _ => hreplay) (by simp [VCtx.shaped_src, VCtx.shaped_srcB, VCtx.shaped_srcC])
    (lanewise_three (fun u v w => floatLane Fmt.f32 f.h.rm f.h.s fun _ =>
      FVal.sum f.h.rm [elemVal Fmt.f32 w 0, FVal.mul (elemVal t u 0) (elemVal t v 0), FVal.mul (elemVal t u 1) (elemVal t v 1)]) fun _ => rfl)

theorem fsqrt_completes {f : VFields} {s : State} :
    let y := vIn f s 1
    let t := f.h.ty
    let e := y.src 1 f.a
    y.Ready f [Use.of e t] none →
      Completes (.fsqrt f) y s s (y.oneDst f.d) (fun _ => t)
        (fun _ l => (List.range (elems t)).foldl (fun w i =>
          insCode t w i ((floatFmt t).roundSqrt f.h.rm f.h.s (elemVal t (lane e.vals l) i))) 0)
        (fun _ l => anyPois [e] l) := by
  intro y t e hready
  have hi : exec (.fsqrt f) s = s.conclude (floatIssue f y [{ src := e, fmt := t }] t false (fun _ _ => .nan) _) := rfl
  exact floatIssue_completes hi rfl hready (by simp) (by simp [e, VCtx.shaped_src])
    (lanewise_one (fun u => (List.range (elems t)).foldl (fun w i => insCode t w i ((floatFmt t).roundSqrt f.h.rm f.h.s (elemVal t u i))) 0)
      fun _ => rfl)

theorem sfu_completes {i : Instr} {f : VFields} {s : State} {fn : Config.Sfu} (hi : exec i s = s.conclude (sfuIssue f s fn)) :
    let x := vIn f s 1
    let t := f.h.ty
    let a := x.src 1 f.a
    x.Ready f [Use.of a t] none →
      Completes i x s s (x.oneDst f.d) (fun _ => t)
        (fun _ l => (List.range (elems t)).foldl (fun w i => insCode t w i (sfuCode fn t (elemCode t (lane a.vals l) i))) 0)
        (fun _ l => anyPois [a] l) := by
  intro x t a hready
  exact completes_of_plain hi rfl hready (by simp [a, VCtx.shaped_src])
    (lanewise_one (fun u => (List.range (elems t)).foldl (fun w i => insCode t w i (sfuCode fn t (elemCode t u i))) 0) fun _ => rfl)

theorem fclass_completes {f : VFields} {s : State} :
    let x := vIn f s 1
    let a := x.src 1 f.a
    x.Ready f [Use.of a f.h.ty] none →
      Completes (.fclass f) x s s (x.oneDst f.d) (fun _ => Fmt.ui32) (fun _ l => classWord f.h.ty (lane a.vals l)) (fun _ l => anyPois [a] l) := by
  intro x a hready
  have hi : exec (.fclass f) s = s.conclude (fclassIssue f s) := rfl
  exact completes_of_plain hi rfl hready (by simp [a, VCtx.shaped_src]) (lanewise_one (classWord f.h.ty) fun _ => rfl)

end Sys2Proof.Machine
end

section
namespace Sys2Proof
open Sys2Proof.Machine

/-- Settles O5: no instruction of the list is replayed, so that each ends in the finish with its rounded values. -/
theorem floatArithmetic : Obligations.FloatArithmetic := by
  refine ⟨fun f s => ⟨fun p hp _ hready hreplay => ?_, fun p hp _ hready => ?_⟩, fun f s => ⟨fun p hp _ hready hreplay => ?_, fun _ => fsqrt_completes⟩⟩
  all_goals simp only [List.mem_cons, List.not_mem_nil, or_false] at hp
  · rcases hp with rfl | rfl | rfl | rfl
    iterate 4 exact floatTwo_completes rfl hready hreplay
  · rcases hp with rfl | rfl
    iterate 2 exact minMax_completes rfl hready
  · rcases hp with rfl | rfl
    · exact ffma_completes hready hreplay
    · exact fdot2_completes hready hreplay

/-- Settles O7: the special functions and FCLASS are functions of one source's lanes. -/
theorem specialFunctionsAndClass : Obligations.SpecialFunctionsAndClass := by
  refine fun f s => ⟨fun p hp _ hready => ?_, fun _ => fclass_completes⟩
  simp only [List.mem_cons, List.not_mem_nil, or_false] at hp
  rcases hp with rfl | rfl | rfl | rfl | rfl | rfl | rfl
  iterate 7 exact sfu_completes rfl hready

end Sys2Proof
end

section
/-! Proofs about replay (R147): a replayed instruction's operation, and the write of an operation's results. -/

namespace Sys2Proof.Machine

/-! ## The operation of a replayed instruction -/

theorem Warp.subrep_regs (w : Warp) : w.subrep.regs = w.regs := by unfold Warp.subrep; split <;> rfl

/-- SUBREP counts up to 0xFFFF. -/
theorem Warp.subrep_count (w : Warp) : w.subrep.wstat.toNat / 2 ^ 16 = min 0xFFFF (w.wstat.toNat / 2 ^ 16 + 1) := by
  have hlt := w.wstat.isLt
  have hext : (w.wstat.extractLsb' 16 16).toNat = w.wstat.toNat / 2 ^ 16 := by
    rw [BitVec.extractLsb'_toNat, Nat.shiftRight_eq_div_pow]
    exact Nat.mod_eq_of_lt (by omega)
  unfold Warp.subrep
  split
  next h =>
    have := congrArg BitVec.toNat h
    simp only [hext, BitVec.toNat_ofNat] at this
    omega
  next h =>
    have hne : w.wstat.toNat / 2 ^ 16 ≠ 0xFFFF := fun hc => h (BitVec.eq_of_toNat_eq (by rw [hext, hc]; rfl))
    simp only [BitVec.toNat_add, BitVec.toNat_ofNat]
    omega

theorem VCtx.replayOp_done {x : VCtx} {f : VFields} {r : Result} {l : Nat} (hl : l < 32) (hact : Mask.has x.act l = true) :
    ({ reg := x.dstOf f.d l, lane := l, val := lane r.vals l, pois := Mask.has r.pois l } : LaneWrite) ∈ (x.replayOp f r).done :=
  List.mem_map_of_mem ((Mask.mem_list x.act l).mpr ⟨hl, hact⟩)

theorem Dev.curCol_modCurWarp (d : Dev) (g : Warp → Warp) : (d.modCurWarp g).curCol = d.curCol.putWarp d.cur.slot (g d.curWarp) := by
  simp [Dev.modCurWarp, Dev.modWarp, Dev.curCol, Dev.putWarp, Dev.curWarp]

/-- The finish of a replayed instruction leaves its warp to wait. -/
theorem VCtx.replay_warp (x : VCtx) (f : VFields) (r : Result) :
    let w := (x.replay f r).curWarp
    w.regs = x.d.curWarp.regs ∧ w.wait = .replay ∧ w.active = false ∧ w.pc = x.d.cur.pc + (if x.d.cur.second then 2 else 1) ∧
      w.wstat = x.d.curWarp.subrep.wstat := by
  intro w
  have hadd : (x.d.modCurCol fun k => k.addOp (x.replayOp f r)).curWarp = x.d.curWarp := by
    simp [Dev.curWarp, Dev.warp, Dev.modCurCol, Column.addOp, Column.warp]
  let waiting : Warp := { x.d.curWarp.subrep with wait := .replay, active := false, entered := x.d.now }
  let stepped : Warp := waiting.stepFields x.act x.pre x.fields
  have hframe : { stepped with ix := waiting.ix } = waiting := Warp.stepFields_frame waiting x.act x.pre x.fields
  have hwait : stepped.wait = .replay := (congrArg Warp.wait hframe :)
  have hactive : stepped.active = false := (congrArg Warp.active hframe :)
  have hwstat : stepped.wstat = waiting.wstat := (congrArg Warp.wstat hframe :)
  have hregs : stepped.regs = waiting.regs := (congrArg Warp.regs hframe :)
  have hw : w = _ := x.finish_warp ((x.d.modCurCol fun k => k.addOp (x.replayOp f r)).modCurWarp fun w =>
    { w.subrep with wait := .replay, active := false, entered := x.d.now }) f
  rw [Dev.curWarp_modCurWarp, hadd] at hw
  rw [hw]
  exact ⟨hregs.trans (Warp.subrep_regs _), hwait, hactive, rfl, hwstat⟩

theorem VCtx.replay_ops (x : VCtx) (f : VFields) (r : Result) :
    (x.replay f r).curCol.ops = x.d.curCol.ops ++ [{ x.replayOp f r with id := x.d.curCol.nextOp }] := by
  simp only [VCtx.replay, Dev.advance, Dev.hint, VCtx.step, Dev.curCol_modCurWarp, Column.putWarp_ops, Dev.curCol_modCurCol]
  rfl

/-- A floating-point instruction that is replayed leaves its results in an operation. -/
theorem floatIssue_replays {i : Instr} {f : VFields} {s : State} {x : VCtx} {ins : List FloatIn} {t : BitVec 5} {g : Exact}
    {fin : Nat → Word} (hi : exec i s = s.conclude (floatIssue f x ins t true g fin)) (hx : x.d = s.dev)
    (hready : x.Ready f (ins.map fun i => Use.of i.src i.fmt) none) (hreplay : replayMask x.act ins t g ≠ 0) :
    Replays i f x s t fin (anyPois (ins.map FloatIn.src)) := by
  obtain ⟨hn, hc, h5⟩ := hready
  let r := laneResult .plain (ins.map FloatIn.src) t fin
  have hissue : floatIssue f x ins t true g fin = .retire (x.replay f r) := by
    unfold floatIssue
    rw [if_pos (by simpa using hreplay), if_neg (by rw [hn]; decide)]
    simp only [hc, h5, Bool.false_eq_true, if_false]
    rfl
  rw [hissue, State.conclude_retire] at hi
  obtain ⟨hregs, hwait, hactive, hpc, hwstat⟩ := x.replay_warp f r
  obtain ⟨hvals, hpois, hfmt⟩ := laneResult_holds .plain (ins.map FloatIn.src) t fin
  rw [hx] at hregs hpc hwstat
  refine ⟨_, hi, rfl, hregs, hwait, hactive, hpc, ?_, { x.replayOp f r with id := x.d.curCol.nextOp }, ?_, rfl, ?_, hfmt, fun l hl ha => ?_⟩
  · exact (congrArg (fun v : Word => v.toNat / 2 ^ 16) hwstat).trans (Warp.subrep_count _)
  · change _ ∈ (x.replay f r).curCol.ops
    rw [x.replay_ops]
    exact List.mem_append_right _ (List.mem_singleton.mpr rfl)
  · rw [← hx]
    rfl
  · refine ⟨_, VCtx.replayOp_done hl ha, rfl, rfl, ?_, ?_⟩
    · rw [hvals, lane_tab _ hl]
    · rw [hpois, Mask.has_of _ hl]

/-! ## The write of an operation's results -/

/-- The write of an operation's results into lane l of register r. -/
def MemOp.laneWrite (o : MemOp) (r l : Nat) : Option LaneWrite :=
  (o.done.filter fun x => x.reg == r && !o.dead r x.lane).find? fun x => x.lane == l

/-- The lanes of register r that an operation writes. -/
def MemOp.written (o : MemOp) (r : Nat) : Mask := Mask.of fun l => (o.laneWrite r l).isSome

/-- The result that an operation writes into register r, whose tag is `old`. -/
def MemOp.result (o : MemOp) (r : Nat) (old : BitVec 5) : Result :=
  { vals := tab fun l => match o.laneWrite r l with
      | some y => y.val
      | none => 0,
    pois := Mask.of fun l => match o.laneWrite r l with
      | some y => y.pois
      | none => false,
    fmt := if o.killed.any fun x => x.1 == r then old else o.fmt,
    shape := if o.uni then .uniform else .general }

/-- Committing a register is one write of the operation's warp. -/
theorem Column.warp_commitReg (k : Column) (o : MemOp) (r : Nat) :
    (k.commitReg o r).warp o.slot = (k.warp o.slot).write r (o.written r) (o.result r ((k.warp o.slot).reg r).fmt) o.window := by
  by_cases h : (o.done.filter fun x => x.reg == r && !o.dead r x.lane).isEmpty = true
  · have hnone : k.commitReg o r = k := if_pos h
    have hzero : o.written r = 0 := by
      simp only [MemOp.written, MemOp.laneWrite, List.isEmpty_iff.mp h]
      decide
    rw [hnone, hzero]
    exact (if_pos rfl).symm
  · have hsome : k.commitReg o r = Column.putWarp _ _ _ := if_neg h
    rw [hsome]
    exact Column.warp_putWarp _ _ _

/-- An operation writes a register lane at most once, and one value where its results are uniform. -/
structure MemOp.Distinct (o : MemOp) : Prop where
  once : ∀ x ∈ o.done, x.lane < 32 ∧ ∀ y ∈ o.done, y.reg = x.reg → y.lane = x.lane → y = x
  uni  : o.uni = true → ∀ x ∈ o.done, ∀ y ∈ o.done, y.val = x.val ∧ y.pois = x.pois

theorem MemOp.laneWrite_mem {o : MemOp} {r l : Nat} {x : LaneWrite} (h : o.laneWrite r l = some x) :
    x ∈ o.done ∧ x.reg = r ∧ x.lane = l ∧ o.dead r l = false := by
  have hmem := List.mem_of_find?_eq_some h
  have hlane : x.lane = l := by simpa using List.find?_some h
  obtain ⟨hdone, hp⟩ := List.mem_filter.mp hmem
  simp only [Bool.and_eq_true, beq_iff_eq, Bool.not_eq_true'] at hp
  exact ⟨hdone, hp.1, hlane, hlane ▸ hp.2⟩

theorem MemOp.Distinct.laneWrite {o : MemOp} (hd : o.Distinct) {x : LaneWrite} (hx : x ∈ o.done) (hlive : o.dead x.reg x.lane = false) :
    o.laneWrite x.reg x.lane = some x := by
  cases h : o.laneWrite x.reg x.lane with
  | none =>
    have hnone := List.find?_eq_none.mp h x (List.mem_filter.mpr ⟨hx, by simp [hlive]⟩)
    simp at hnone
  | some y =>
    obtain ⟨hy, hreg, hlane, -⟩ := MemOp.laneWrite_mem h
    rw [(hd.once x hx).2 y hy hreg hlane]

/-- Only a write of whole registers looks at the shape of what it writes. -/
theorem Warp.write_part (w : Warp) (r : Nat) {m : Mask} (x : Result) (ind : Bool) (h : m ≠ Mask.all) :
    w.write r m x ind = w.write r m { x with shape := .general } ind := by
  have hwhole : ¬ (m = Mask.all ∧ ind = false) := fun hc => h hc.1
  simp only [Warp.write, if_neg hwhole]
  rfl

/-- A uniform result that is written in all lanes holds one value. -/
theorem MemOp.Distinct.result_good {o : MemOp} (hd : o.Distinct) {r : Nat} (old : BitVec 5) (h : o.written r = Mask.all) : (o.result r old).Good := by
  cases hu : o.uni with
  | false => exact Result.good_general _ (by simp [MemOp.result, hu])
  | true =>
    have hsome (l : Nat) (hl : l < 32) : ∃ x, o.laneWrite r l = some x ∧ x ∈ o.done := by
      have := congrArg (Mask.has · l) h
      simp only [MemOp.written, Mask.has_of _ hl, Mask.has_all hl] at this
      obtain ⟨x, hx⟩ := Option.isSome_iff_exists.mp this
      exact ⟨x, hx, (MemOp.laneWrite_mem hx).1⟩
    refine Result.good_uniform _ (by simp [MemOp.result, hu]) fun l hl => ?_
    obtain ⟨x, hx, hxd⟩ := hsome l hl
    obtain ⟨y, hy, hyd⟩ := hsome 0 (by decide)
    simpa [MemOp.result, hl, hx, hy] using hd.uni hu y hyd x hxd

/-- What is written is a result that agrees with its shape. -/
theorem MemOp.Distinct.write_eq {o : MemOp} (hd : o.Distinct) (w : Warp) (r : Nat) (old : BitVec 5) :
    ∃ x : Result, x.Good ∧ x.vals = (o.result r old).vals ∧ x.pois = (o.result r old).pois ∧ x.fmt = (o.result r old).fmt ∧
      w.write r (o.written r) (o.result r old) o.window = w.write r (o.written r) x o.window := by
  by_cases h : o.written r = Mask.all
  · exact ⟨_, hd.result_good old h, rfl, rfl, rfl, rfl⟩
  · exact ⟨{ o.result r old with shape := .general }, Result.good_general _ rfl, rfl, rfl, rfl, w.write_part r _ _ h⟩

/-- A register lane that an operation writes. -/
theorem Column.commitReg_live {k : Column} {o : MemOp} (hd : o.Distinct) {x : LaneWrite} (hx : x ∈ o.done) (hlive : o.dead x.reg x.lane = false) :
    let v := (k.commitReg o x.reg).warp o.slot
    v.laneOf x.reg x.lane = x.val ∧ (v.reg x.reg).data.pois x.lane = x.pois ∧
      (v.reg x.reg).fmt = if o.killed.any fun y => y.1 == x.reg then ((k.warp o.slot).reg x.reg).fmt else o.fmt := by
  intro v
  have hl := (hd.once x hx).1
  have hw := hd.laneWrite hx hlive
  have hhas : Mask.has (o.written x.reg) x.lane = true := by simp [MemOp.written, hl, hw]
  obtain ⟨y, hgood, hvals, hpois, hfmt, hwrite⟩ := hd.write_eq (k.warp o.slot) x.reg ((k.warp o.slot).reg x.reg).fmt
  have hv : v = _ := (k.warp_commitReg o x.reg).trans hwrite
  rw [hv, Warp.laneOf, Warp.write_lane _ _ _ _ _ hgood hl, Warp.write_pois _ _ _ _ _ hgood hl,
    Warp.write_fmt _ _ _ _ _ (Mask.ne_zero_of_has hhas), if_pos hhas, if_pos hhas, hvals, hpois, hfmt]
  simp [MemOp.result, hl, hw]

/-- A register lane that later instructions have overwritten. -/
theorem Column.commitReg_dead {k : Column} {o : MemOp} (hd : o.Distinct) {r l : Nat} (hl : l < 32) (hdead : o.dead r l = true) :
    ((k.commitReg o r).warp o.slot).laneOf r l = (k.warp o.slot).laneOf r l := by
  have hhas : Mask.has (o.written r) l = false := by
    cases h : o.laneWrite r l with
    | none => simp [MemOp.written, hl, h]
    | some y =>
      obtain ⟨-, -, -, hlive⟩ := MemOp.laneWrite_mem h
      rw [hdead] at hlive
      cases hlive
  obtain ⟨y, hgood, -, -, -, hwrite⟩ := hd.write_eq (k.warp o.slot) r ((k.warp o.slot).reg r).fmt
  rw [k.warp_commitReg o r, hwrite, Warp.laneOf, Warp.write_lane _ _ _ _ _ hgood hl, hhas]
  rfl

theorem Column.commitReg_reg_ne (k : Column) (o : MemOp) {r n : Nat} (h : n ≠ r) :
    ((k.commitReg o r).warp o.slot).reg n = (k.warp o.slot).reg n := by
  rw [k.warp_commitReg, Warp.write_reg_ne _ _ _ _ h]

theorem List.nodup_eraseDups {α : Type} [BEq α] [LawfulBEq α] (l : List α) : l.eraseDups.Nodup := by
  induction hn : l.length using Nat.strong_induction_on generalizing l with
  | _ n ih =>
    cases l with
    | nil => simp
    | cons a l =>
      rw [List.eraseDups_cons, List.nodup_cons]
      refine ⟨by simp, ih _ ?_ _ rfl⟩
      have := List.length_filter_le (fun b => !b == a) l
      simp only [List.length_cons] at hn
      omega

/-- A register that registers committed before or after it leave alone. -/
theorem Column.fold_commitReg_notMem (o : MemOp) {n : Nat} (rs : List Nat) (k : Column) (h : n ∉ rs) :
    ((rs.foldl (fun k r => k.commitReg o r) k).warp o.slot).reg n = (k.warp o.slot).reg n := by
  induction rs generalizing k with
  | nil => rfl
  | cons r rs ih =>
    obtain ⟨hne, hrs⟩ : n ≠ r ∧ n ∉ rs := by simpa using h
    rw [List.foldl_cons, ih _ hrs, k.commitReg_reg_ne o hne]

/-- A register is committed once, on a column in which it is as it was. -/
theorem Column.fold_commitReg_mem (o : MemOp) {n : Nat} {rs : List Nat} (hn : rs.Nodup) (k : Column) (h : n ∈ rs) :
    ∃ k1 : Column, (k1.warp o.slot).reg n = (k.warp o.slot).reg n ∧
      ((rs.foldl (fun k r => k.commitReg o r) k).warp o.slot).reg n = ((k1.commitReg o n).warp o.slot).reg n := by
  induction rs generalizing k with
  | nil => cases h
  | cons r rs ih =>
    obtain ⟨hr, hrs⟩ := List.nodup_cons.mp hn
    rw [List.foldl_cons]
    by_cases hnr : n = r
    · subst hnr
      exact ⟨k, rfl, Column.fold_commitReg_notMem o rs _ hr⟩
    · obtain ⟨k1, hk1, hfold⟩ := ih hrs (k.commitReg o r) ((List.mem_cons.mp h).resolve_left hnr)
      exact ⟨k1, hk1.trans (k.commitReg_reg_ne o hnr), hfold⟩

/-- The registers after an operation's results are written. -/
theorem Column.commit_reg (k : Column) (o : MemOp) {x : LaneWrite} (hx : x ∈ o.done) :
    ∃ k1 : Column, (k1.warp o.slot).reg x.reg = (k.warp o.slot).reg x.reg ∧
      ((k.commit o).warp o.slot).reg x.reg = ((k1.commitReg o x.reg).warp o.slot).reg x.reg :=
  Column.fold_commitReg_mem o (List.nodup_eraseDups _) k (List.mem_eraseDups.mpr (List.mem_map_of_mem hx))

/-- What the commit of an operation's results leaves in a register lane that the operation was to write. -/
theorem Column.commit_lane {k : Column} {o : MemOp} (hd : o.Distinct) {x : LaneWrite} (hx : x ∈ o.done) :
    let w := k.warp o.slot
    let v := (k.commit o).warp o.slot
    (o.dead x.reg x.lane = false → v.laneOf x.reg x.lane = x.val ∧ (v.reg x.reg).data.pois x.lane = x.pois ∧
      (v.reg x.reg).fmt = if o.killed.any fun y => y.1 == x.reg then (w.reg x.reg).fmt else o.fmt) ∧
    (o.dead x.reg x.lane = true → v.laneOf x.reg x.lane = w.laneOf x.reg x.lane) := by
  intro w v
  obtain ⟨k1, hk1, hv⟩ := k.commit_reg o hx
  constructor
  · intro hlive
    have h := Column.commitReg_live (k := k1) hd hx hlive
    simp only [Warp.laneOf, ← hv, hk1] at h
    exact h
  · intro hdead
    have h := Column.commitReg_dead (k := k1) hd (hd.once x hx).1 hdead
    simp only [Warp.laneOf, ← hv, hk1] at h
    exact h

/-! ## The end of a replay -/

theorem replayDone_early {c op : Nat} {s : State} {o : MemOp} (hop : (s.dev.col c).op? op = some o) (h : s.dev.now ≤ o.itick + 16) :
    exec (.subnormalReplayDone c op) s = .next s := by
  change execSubnormalReplayDone c op s = _
  simp only [execSubnormalReplayDone, hop]
  exact if_neg fun hc => absurd hc.2 (Nat.not_lt.mpr h)

theorem replayDone_late {c op : Nat} {s : State} {o : MemOp} (hop : (s.dev.col c).op? op = some o) (hk : o.kind = .replay)
    (h : o.itick + 16 < s.dev.now) :
    exec (.subnormalReplayDone c op) s = .next { s with dev := s.dev.modCol c fun k => (k.commit o).delOp op } := by
  change execSubnormalReplayDone c op s = _
  simp only [execSubnormalReplayDone, hop]
  exact if_pos ⟨hk, h⟩

theorem Column.op?_delOp (k : Column) (id : Nat) : (k.delOp id).op? id = none := by
  simp [Column.op?, Column.delOp]

end Sys2Proof.Machine
end

section
namespace Sys2Proof
open Sys2Proof.Machine

/-- Settles O6: the results of a replayed instruction stand in its operation, and the end of the replay commits them. -/
theorem subnormalReplay : Obligations.SubnormalReplay := by
  refine ⟨fun f s p hp _ hready hreplay => ?_, fun f s p hp _ hready hreplay => ?_, fun c op s o hop hk =>
    ⟨replayDone_early hop, fun hlate honce huni => ?_⟩⟩
  · simp only [List.mem_cons, List.not_mem_nil, or_false] at hp
    rcases hp with rfl | rfl | rfl
    iterate 3 exact floatIssue_replays rfl rfl hready hreplay
  · simp only [List.mem_cons, List.not_mem_nil, or_false] at hp
    rcases hp with rfl | rfl
    iterate 2 exact floatIssue_replays rfl rfl hready hreplay
  · have hcol : (s.dev.modCol c fun k => (k.commit o).delOp op).col c = ((s.dev.col c).commit o).delOp op := Dev.col_modCol _ _ _
    refine ⟨_, replayDone_late hop hk hlate, rfl, ?_, fun x hx => ?_⟩
    · rw [hcol]
      exact Column.op?_delOp _ _
    · rw [Dev.warp, hcol]
      exact Column.commit_lane ⟨honce, huni⟩ hx

end Sys2Proof
end

section
/-! Proofs about the conversions (R180-R185): element codes in a word, draws, PACK and UNPK. -/

namespace Sys2Proof.Machine

/-! ## Element codes -/

theorem pitch_pos (t : BitVec 5) : 0 < pitch t := by revert t; decide

theorem elemBits_le_pitch (t : BitVec 5) : elemBits t ≤ pitch t := by revert t; decide

theorem pitch_mul_elems (t : BitVec 5) : pitch t * elems t = 32 := by revert t; decide

/-- Bit k of a code lies in its word at its element's place. -/
theorem testBit_elemCode (t : BitVec 5) (w : Word) (i k : Nat) :
    (elemCode t w i).testBit k = (decide (k < elemBits t) && w.getLsbD (pitch t * i + k)) := by
  rw [elemCode, Nat.testBit_mod_two_pow, ← Nat.shiftRight_eq_div_pow, Nat.testBit_shiftRight]
  rfl

theorem elem_end_le {t : BitVec 5} {i : Nat} (hi : i < elems t) : pitch t * i + pitch t ≤ 32 := by
  rw [← pitch_mul_elems t]
  exact Nat.mul_le_mul_left (pitch t) hi

/-- A bit of a word in which an element has been replaced. -/
theorem getLsbD_insCode {t : BitVec 5} (w : Word) (i c : Nat) {n : Nat} (hn : n < 32) :
    (insCode t w i c).getLsbD n =
      if pitch t * i ≤ n ∧ n < pitch t * i + pitch t then decide (n - pitch t * i < elemBits t) && c.testBit (n - pitch t * i) else w.getLsbD n := by
  have hle := elemBits_le_pitch t
  simp only [insCode, BitVec.getLsbD_or, BitVec.getLsbD_and, BitVec.getLsbD_not, BitVec.getLsbD_ofNat, hn, decide_true, Bool.true_and,
    Nat.testBit_mul_two_pow, Nat.testBit_two_pow_sub_one, Nat.testBit_mod_two_pow]
  by_cases h1 : pitch t * i ≤ n <;> by_cases h2 : n < pitch t * i + pitch t
  · have h3 : n - pitch t * i < pitch t := by omega
    simp [h1, h2, h3]
  · have h3 : ¬ n - pitch t * i < pitch t := by omega
    have h4 : ¬ n - pitch t * i < elemBits t := by omega
    simp [h1, h2, h3, h4]
  all_goals simp [h1]

theorem elemCode_insCode_same {t : BitVec 5} {i : Nat} (hi : i < elems t) (w : Word) (c : Nat) :
    elemCode t (insCode t w i c) i = c % 2 ^ elemBits t := by
  refine Nat.eq_of_testBit_eq fun k => ?_
  rw [testBit_elemCode, Nat.testBit_mod_two_pow]
  by_cases hk : k < elemBits t
  · have hle := elemBits_le_pitch t
    have hend := elem_end_le hi
    rw [getLsbD_insCode w i c (by omega), if_pos ⟨by omega, by omega⟩]
    simp [hk]
  · simp [hk]

theorem elemCode_insCode_ne {t : BitVec 5} {i j : Nat} (hj : j < elems t) (hne : j ≠ i) (w : Word) (c : Nat) :
    elemCode t (insCode t w i c) j = elemCode t w j := by
  refine Nat.eq_of_testBit_eq fun k => ?_
  rw [testBit_elemCode, testBit_elemCode]
  by_cases hk : k < elemBits t
  · have hle := elemBits_le_pitch t
    have hend := elem_end_le hj
    rw [getLsbD_insCode w i c (by omega), if_neg]
    rintro ⟨h1, h2⟩
    rcases Nat.lt_or_gt_of_ne hne with h | h
    · have := Nat.mul_le_mul_left (pitch t) h
      rw [Nat.mul_succ] at this
      omega
    · have := Nat.mul_le_mul_left (pitch t) h
      rw [Nat.mul_succ] at this
      omega
  · simp [hk]

theorem elemCode_zero (t : BitVec 5) (j : Nat) : elemCode t 0#32 j = 0 := by simp [elemCode]

theorem elemCode_lt (t : BitVec 5) (w : Word) (i : Nat) : elemCode t w i < 2 ^ elemBits t := Nat.mod_lt _ (Nat.two_pow_pos _)

/-- Codes put into a run of elements, one after the other. -/
theorem elemCode_fold_insCode {t : BitVec 5} (from_ n : Nat) (c : Nat → Nat) (w : Word) {j : Nat} (hj : j < elems t) :
    elemCode t ((List.range n).foldl (fun y i => insCode t y (from_ + i) (c i)) w) j =
      if from_ ≤ j ∧ j < from_ + n then c (j - from_) % 2 ^ elemBits t else elemCode t w j := by
  induction n with
  | zero =>
    rw [if_neg (by omega)]
    rfl
  | succ n ih =>
    rw [List.range_succ, List.foldl_append, List.foldl_cons, List.foldl_nil]
    by_cases h : j = from_ + n
    · subst h
      rw [elemCode_insCode_same hj, if_pos ⟨by omega, by omega⟩, Nat.add_sub_cancel_left]
    · rw [elemCode_insCode_ne hj h, ih]
      exact if_congr (by omega) rfl rfl

/-! ## PACK and UNPK -/

theorem elemCode_halfInto {t : BitVec 5} (high : Bool) (from_ : Nat) (w a : Word) {j : Nat} (hj : j < elems t) :
    elemCode t (halfInto t high from_ w a) j =
      if from_ ≤ j ∧ j < from_ + elems t / 2 then elemCode t a (j - from_ + if high then elems t / 2 else 0) else elemCode t w j := by
  simp only [halfInto, elemCode_fold_insCode from_ _ _ w hj, Nat.mod_eq_of_lt (elemCode_lt _ _ _)]

theorem pack_completes {f : VFields} {s : State} :
    let x := vIn f s 2
    let t := f.h.ty
    let a := x.src 1 f.a
    let b := x.src 2 f.b
    x.Ready f [Use.of a t, Use.of b t] none →
      Completes (.pack f) x s s (x.oneDst f.d) (fun _ => t)
        (fun _ l => halfInto t (f.subBit 0) (elems t / 2) (halfInto t (f.subBit 0) 0 0 (lane a.vals l)) (lane b.vals l))
        (fun _ l => anyPois [a, b] l) := by
  intro x t a b hready
  have hi : exec (.pack f) s = s.conclude (packIssue f s) := rfl
  exact completes_of_plain hi rfl hready (by simp [a, b, VCtx.shaped_src])
    (lanewise_two (fun u v => halfInto t (f.subBit 0) (elems t / 2) (halfInto t (f.subBit 0) 0 0 u) v) fun _ => rfl)

theorem unpk_completes {f : VFields} {s : State} :
    let y := vIn f s 1
    let t := f.h.ty
    let e := y.src 1 f.a
    y.Ready f [Use.of e t] none →
      Completes (.unpk f) y s s (y.oneDst f.d) (fun _ => t) (fun _ l => halfInto t (f.subBit 0) 0 0 (lane e.vals l)) (fun _ l => anyPois [e] l) := by
  intro y t e hready
  have hi : exec (.unpk f) s = s.conclude (unpkIssue f s) := rfl
  exact completes_of_plain hi rfl hready (by simp [e, VCtx.shaped_src]) (lanewise_one (halfInto t (f.subBit 0) 0 0) fun _ => rfl)

/-- The halves of a packed word. -/
theorem elemCode_pack {t : BitVec 5} (high : Bool) (u v : Word) {i : Nat} (hi : i < elems t / 2) :
    let w := halfInto t high (elems t / 2) (halfInto t high 0 0 u) v
    elemCode t w i = elemCode t u (i + if high then elems t / 2 else 0) ∧
      elemCode t w (elems t / 2 + i) = elemCode t v (i + if high then elems t / 2 else 0) := by
  intro w
  constructor
  · rw [elemCode_halfInto high _ _ _ (by omega), if_neg (by omega), elemCode_halfInto high _ _ _ (by omega), if_pos (by omega), Nat.sub_zero]
  · rw [elemCode_halfInto high _ _ _ (by omega), if_pos (by omega), Nat.add_sub_cancel_left]

/-- The halves of an unpacked word. -/
theorem elemCode_unpk {t : BitVec 5} (high : Bool) (u : Word) {i : Nat} (hi : i < elems t / 2) :
    let w := halfInto t high 0 0 u
    elemCode t w i = elemCode t u (i + if high then elems t / 2 else 0) ∧ elemCode t w (elems t / 2 + i) = 0 := by
  intro w
  constructor
  · rw [elemCode_halfInto high _ _ _ (by omega), if_pos (by omega), Nat.sub_zero]
  · rw [elemCode_halfInto high _ _ _ (by omega), if_neg (by omega)]
    exact elemCode_zero t _

/-! ## DQNT and RETAG -/

theorem dqnt_completes {f : VFields} {s : State} :
    let x := vIn f s 2
    let a := x.src 1 f.a
    let b := x.src 2 f.b
    let it := if f.subBit 4 then Fmt.i4x8 else Fmt.i8x4
    x.Ready f [Use.of a it, Use.of b Fmt.ui32] none →
      Completes (.dqnt f) x s s (x.oneDst f.d) (fun _ => Fmt.f32)
        (fun _ l => BitVec.ofNat 32 (FloatFmt.fp32.round f.h.rm f.h.s (FVal.mul (groupScale (lane b.vals l))
          (FVal.ofInt (elemInt it (lane a.vals l) (f.subBits 3 1) - groupZero (lane b.vals l))))))
        (fun _ l => anyPois [a, b] l) := by
  intro x a b it hready
  have hi : exec (.dqnt f) s = s.conclude (dqntIssue f s) := rfl
  exact completes_of_plain hi rfl hready (by simp [a, b, VCtx.shaped_src])
    (lanewise_two (fun u v => BitVec.ofNat 32 (FloatFmt.fp32.round f.h.rm f.h.s (FVal.mul (groupScale v)
      (FVal.ofInt (elemInt it u (f.subBits 3 1) - groupZero v))))) fun _ => rfl)

theorem retag_completes {f : VFields} {s : State} :
    let y := vIn f s 1
    let e := y.src 1 f.a
    y.Ready f [Use.any e] none →
      Completes (.retag f) y s s (y.oneDst f.d) (fun _ => f.h.ty) (fun _ l => padded f.h.ty (lane e.vals l)) (fun _ l => anyPois [e] l) := by
  intro y e hready
  have hi : exec (.retag f) s = s.conclude (retagIssue f s) := rfl
  exact completes_of_laneResult hi rfl hready (laneResult_copy_good (y.shaped_src 1 f.a) f.h.ty)

/-! ## CVT and QNT -/

theorem Dev.SameIssue.converted (x : VCtx) (sr u lost : Bool) (n : Nat) (d : Dev) : d.SameIssue (x.converted sr u lost n d) := by
  refine Dev.SameIssue.trans ?_ (Dev.SameIssue.modCurWarp _ _)
  split
  · exact .draw d
  · exact .refl d

theorem srShape_holds {r : Result} {fmt : BitVec 5} {val : Nat → Word} {pois : Nat → Bool} (sr u : Bool) (h : r.Holds fmt val pois) :
    (srShape sr u r).Holds fmt val pois := by
  obtain ⟨hvals, hpois, hfmt⟩ := h
  unfold srShape
  split <;> exact ⟨hvals, hpois, hfmt⟩

/-- A conversion's result agrees with its shape: lanes that draw their own values are general. -/
theorem srShape_good {ss : List Src} {fmt : BitVec 5} {val : Nat → Word} {sr u : Bool} (hs : AllShaped ss)
    (hf : (sr = true → u = true) → Lanewise ss val) : (srShape sr u (laneResult .plain ss fmt val)).Good := by
  unfold srShape
  split
  next => exact Result.good_general _ rfl
  next h =>
    refine laneResult_plain_good _ hs (hf fun hsr => ?_)
    simpa [hsr] using h

/-- A conversion that may issue completes with its values, its draws and NANLOST. -/
theorem completes_of_converted {i : Instr} {s : State} {x : VCtx} {f : VFields} {us : List Use} {ss : List Src} {fmt : BitVec 5} {val : Nat → Word}
    {sr lost : Bool} {n : Nat}
    (hi : exec i s = s.conclude (x.finish f us none [] (srShape sr f.h.u (laneResult .plain ss fmt val)) (x.converted sr f.h.u lost n)))
    (hx : x.d = s.dev) (hready : x.Ready f us none) (hs : AllShaped ss) (hf : (sr = true → f.h.u = true) → Lanewise ss val) :
    Completes i x s { s with dev := x.converted sr f.h.u lost n s.dev } (x.oneDst f.d) (fun _ => fmt) (fun _ => val) (fun _ => anyPois ss) :=
  VCtx.completes_of_finish hi hx (.converted _ _ _ _ _ _) hready (srShape_holds _ _ (laneResult_holds _ _ _ _)) fun _ => srShape_good hs hf

/-- The draw of element i in lane l is that of lane 0 where the lanes draw one value, or none. -/
theorem VCtx.draw_eq {x : VCtx} {sr u : Bool} (h : sr = true → u = true) (l i : Nat) :
    (if sr then some (drawAt x.w (x.drawLane u l) i) else none) = if sr then some (drawAt x.w (x.drawLane u 0) i) else none := by
  cases sr with
  | false => rfl
  | true =>
    rw [h rfl]
    rfl

/-- An element count that is not smaller keeps nothing of the old register. -/
theorem cvtLane_old {sf t : BitVec 5} (h : ¬ elems sf < elems t) (rm : BitVec 2) (sat : Bool) (pos : Nat) (draw : Nat → Option Nat) (a o1 o2 : Word) :
    cvtLane sf t rm sat pos draw a o1 = cvtLane sf t rm sat pos draw a o2 := by
  have hle : elems t ≤ elems sf := Nat.not_lt.mp h
  simp only [cvtLane, if_pos hle]

theorem cvt_completes {f : VFields} {s : State} :
    let x := vIn f s 1
    let t := f.h.ty
    let sf : BitVec 5 := f.bc.extractLsb' 16 5
    let sr := f.subBit 0
    let keep := decide (elems sf < elems t)
    let a := x.src 1 f.a
    let old := x.old f.d
    let c (l : Nat) := cvtLane sf t f.h.rm f.h.s (f.subBits 3 1)
      (fun i => if sr then some (drawAt x.w (x.drawLane f.h.u l) i) else none) (lane a.vals l) (lane old.vals l)
    x.Ready f (Use.of a sf :: (if keep then [Use.of old t] else [])) none →
      Completes (.cvt f) x s
        { s with dev := x.converted sr f.h.u ((Mask.list x.act).any (fun l => (c l).2)) (min (elems sf) (elems t)) s.dev }
        (x.oneDst f.d) (fun _ => t) (fun _ l => (c l).1) (fun _ l => anyPois (if keep then [a, old] else [a]) l) := by
  intro x t sf sr keep a old c hready
  have hi : exec (.cvt f) s = s.conclude (cvtIssue f s) := rfl
  refine completes_of_converted hi rfl hready ?_ fun hsr => ?_
  · split <;> simp [a, old, VCtx.shaped_src, VCtx.shaped_old]
  · intro l hl hsame
    have hdraw := x.draw_eq hsr l
    by_cases hk : keep = true
    · rw [if_pos hk] at hsame
      simp only [c, hdraw, hsame a (by simp), hsame old (by simp)]
    · rw [if_neg hk] at hsame
      have hlt : ¬ elems sf < elems t := by simpa [keep] using hk
      simp only [c, hdraw, hsame a (by simp)]
      exact congrArg Prod.fst (cvtLane_old hlt _ _ _ _ _ _ _)

theorem qnt_completes {f : VFields} {s : State} :
    let y := vIn f s 2
    let t := f.h.ty
    let sr := f.subBit 0
    let m := y.src 1 f.a
    let n := y.src 2 f.b
    let o := y.old f.d
    let q (l : Nat) := qntElem t f.h.rm (if sr then some (drawAt y.w (y.drawLane f.h.u l) 0) else none)
      (elemVal Fmt.f32 (lane m.vals l) 0) (lane n.vals l)
    y.Ready f [Use.of m Fmt.f32, Use.of n Fmt.ui32, Use.of o t] none →
      Completes (.qnt f) y s
        { s with dev := y.converted sr f.h.u ((Mask.list y.act).any (fun l => (q l).2)) 1 s.dev }
        (y.oneDst f.d) (fun _ => t) (fun _ l => insCode t (lane o.vals l) (f.subBits 3 1) (q l).1) (fun _ l => anyPois [m, n, o] l) := by
  intro y t sr m n o q hready
  have hi : exec (.qnt f) s = s.conclude (qntIssue f s) := rfl
  refine completes_of_converted hi rfl hready (by simp [m, n, o, VCtx.shaped_src, VCtx.shaped_old]) fun hsr => ?_
  intro l hl hsame
  simp only [q, y.draw_eq hsr l 0, hsame m (by simp), hsame n (by simp), hsame o (by simp)]

end Sys2Proof.Machine
end

section
namespace Sys2Proof
open Sys2Proof.Machine

/-- Settles O8: each conversion is a function of its sources' lanes and, under .sr, of the draws of its lanes. -/
theorem conversions : Obligations.Conversions := by
  refine ⟨fun f s => ⟨fun _ => cvt_completes, fun _ => qnt_completes⟩, fun f s =>
    ⟨fun _ => dqnt_completes, fun _ hready => ?_, fun _ hready => ?_, fun _ => retag_completes⟩⟩
  · obtain ⟨u, hu, h⟩ := pack_completes hready
    exact ⟨u, hu, _, h, fun l i hi => elemCode_pack (f.subBit 0) _ _ hi⟩
  · obtain ⟨u, hu, h⟩ := unpk_completes hready
    exact ⟨u, hu, _, h, fun l i hi => elemCode_unpk (f.subBit 0) _ hi⟩

end Sys2Proof
end

section
/-! Proofs about LGET, LPUT and BFLY (R193-R195): writes to some of the active lanes. -/

namespace Sys2Proof.Machine

/-! ## A result written into some of the active lanes -/

theorem Result.lane_gen (g : Nat → Word) (pois : Mask) (fmt : BitVec 5) {l : Nat} (hl : l < 32) : lane (Result.gen g pois fmt).vals l = g l :=
  lane_tab g hl

/-- What `Dev.writeSome` does to the issuing warp. -/
def Warp.writeSome (w : Warp) (r : Nat) (act m : Mask) (x : Result) : Warp :=
  if act = 0 then w else if m = 0 then { w with regs := w.regs.set r ((w.reg r).mixed 0 x) } else w.write r m x false

theorem Dev.curWarp_modCurCol (d : Dev) (g : Column → Column) : (d.modCurCol g).curWarp = (g d.curCol).warp d.cur.slot := by
  simp [Dev.curWarp, Dev.warp, Dev.modCurCol, Dev.curCol]

theorem Dev.curWarp_writeSome (d : Dev) (r : Nat) (act m : Mask) (x : Result) :
    (d.writeSome r act m x).curWarp = d.curWarp.writeSome r act m x := by
  unfold Dev.writeSome Warp.writeSome
  split
  · rfl
  · split
    · exact Dev.curWarp_modCurWarp _ _
    · exact (d.curWarp_modCurCol _).trans (Column.warp_writeReg _ _ _ _ _ _)

theorem OnlyWarp.writeSome (s : State) (r : Nat) (act m : Mask) (x : Result) : OnlyWarp s { s with dev := s.dev.writeSome r act m x } := by
  unfold Dev.writeSome
  split
  · exact .refl s
  · split
    · exact .ofWarp s _
    · exact .ofCol s _ (Column.rest_writeReg _ _ _ _ _ _) fun y hy => Column.warp_writeReg_ne _ _ _ _ _ hy

theorem Warp.writeSome_frame (w : Warp) (r : Nat) (act m : Mask) (x : Result) : { w.writeSome r act m x with regs := w.regs } = w := by
  unfold Warp.writeSome
  split
  · rfl
  · split
    · rfl
    · exact w.write_frame _ _ _ _

theorem Warp.writeSome_rest (w : Warp) (r : Nat) (act m : Mask) (x : Result) : (w.writeSome r act m x).rest = w.rest :=
  (congrArg Warp.rest (w.writeSome_frame r act m x) :)

theorem Warp.writeSome_preds (w : Warp) (r : Nat) (act m : Mask) (x : Result) : (w.writeSome r act m x).preds = w.preds :=
  (congrArg Warp.preds (w.writeSome_frame r act m x) :)

theorem Warp.writeSome_wstat (w : Warp) (r : Nat) (act m : Mask) (x : Result) : (w.writeSome r act m x).wstat = w.wstat :=
  (congrArg Warp.wstat (w.writeSome_frame r act m x) :)

theorem Warp.pred_congr {v w : Warp} (h : v.preds = w.preds) (p : Nat) : v.pred p = w.pred p := by simp only [Warp.pred, h]

theorem Warp.writeSome_reg_ne (w : Warp) {r n : Nat} (act m : Mask) (x : Result) (h : n ≠ r) : (w.writeSome r act m x).reg n = w.reg n := by
  unfold Warp.writeSome
  split
  · rfl
  · split
    · simp [Warp.reg, Table.getD_set_ne _ _ _ h]
    · exact w.write_reg_ne _ _ _ h

/-- Lane l of the register: what is written in the lanes of m. -/
theorem Warp.writeSome_lane (w : Warp) (r : Nat) {act m : Mask} {x : Result} (hx : x.Good) (hm : ∀ l, Mask.has m l = true → Mask.has act l = true)
    {l : Nat} (hl : l < 32) : (w.writeSome r act m x).laneOf r l = if Mask.has m l then lane x.vals l else w.laneOf r l := by
  unfold Warp.writeSome Warp.laneOf
  split
  next hact =>
    have hnot : ¬ Mask.has m l = true := fun h => by
      have := hm l h
      rw [hact] at this
      simp at this
    rw [if_neg hnot]
  next =>
    split
    next hzero =>
      subst hzero
      simp [Warp.reg, VReg.mixed, RegData.lane, hl]
    next => exact w.write_lane _ _ _ _ hx hl

/-! ## Optional predicates -/

theorem Dev.curWarp_predPoison (d : Dev) (m : Mask) : (d.predPoison m).curWarp = d.curWarp := by
  unfold Dev.predPoison
  split <;> rfl

theorem curWarp_optPred (x : VCtx) (p : Nat) (bits pois : Mask) (d : Dev) :
    (optPred x p bits pois d).curWarp = if p = 0 then d.curWarp else d.curWarp.setPred p x.act bits := by
  unfold optPred
  split
  · rfl
  · rw [Dev.curWarp_modCurWarp, Dev.curWarp_predPoison]

/-! ## LGET -/

theorem lane_vals_ite (c : Bool) (a v : Src) (n : Nat) : lane (if c then a else v).vals n = if c then lane a.vals n else lane v.vals n := by
  cases c <;> rfl

theorem lget_completes {f : VFields} {s : State} :
    let x : VCtx := vctx s.dev f.h []
    let wd := x.w.tileW
    let mode := f.subBits 1 0
    let p := f.subBits 6 4
    let a := x.src 1 f.a
    let b := x.srcB f Fmt.raw
    let fills := mode == 2 && !f.vi
    let v := if fills then x.src 3 f.c else a
    let g (l : Nat) := lgetSrc mode wd l (lane b.vals l)
    let ub := if f.vi then [] else [Use.any b]
    x.Ready f ([Use.any a] ++ ub ++ (if fills then [{ Use.any v with eq := some a.tag }] else [])) none →
      Completes (.lget f) x s
        { s with dev := optPred x p (Mask.of (fun l => (g l).2)) (if mode = 2 then b.pois &&& x.act else 0) s.dev }
        (x.oneDst f.d) (fun _ => a.tag) (fun _ l => padded a.tag (if (g l).2 then lane a.vals (g l).1 else lane v.vals (g l).1))
        (fun _ l => Mask.has (if (g l).2 then a else v).pois (g l).1 || Mask.has b.pois l) := by
  intro x wd mode p a b fills v g ub hready
  let res := Result.gen (fun l => padded a.tag (lane (if (g l).2 then a else v).vals (g l).1))
    (Mask.of fun l => Mask.has (if (g l).2 then a else v).pois (g l).1 || Mask.has b.pois l) a.tag
  have hi : exec (.lget f) s = s.conclude (x.finish f ([Use.any a] ++ ub ++ (if fills then [{ Use.any v with eq := some a.tag }] else [])) none [] res
      (optPred x p (Mask.of (fun l => (g l).2)) (if mode = 2 then b.pois &&& x.act else 0))) := rfl
  have hvals : res.vals = tab (fun l => padded a.tag (if (g l).2 then lane a.vals (g l).1 else lane v.vals (g l).1)) := by
    simp only [res, Result.gen, lane_vals_ite]
  exact VCtx.completes_of_finish hi rfl (.optPred _ _ _ _ _) hready ⟨hvals, rfl, rfl⟩ fun _ => Result.good_general _ rfl

/-! ## LPUT -/

/-- The warp that a retirement without operand fields leaves: the hints and the PC on the warp that the instruction has written. -/
theorem retire_hint_advance (s : State) (d : Dev) (h : BitVec 7) :
    ∃ u, s.conclude (.retire (d.hint h).advance) = .next u ∧ u.dev.issued = .retired ∧ u.vault = s.vault ∧
      u.dev.curWarp.pc = d.cur.pc + (if d.cur.second then 2 else 1) ∧ u.dev.curWarp.regs = d.curWarp.regs ∧
      u.dev.curWarp.preds = d.curWarp.preds ∧ u.dev.curWarp.wstat = d.curWarp.wstat ∧ u.dev.curWarp.rest = d.curWarp.rest ∧
      OnlyWarp { s with dev := d } u := by
  have hw := Dev.curWarp_hint_advance d h
  refine ⟨_, State.conclude_retire s _, rfl, rfl, (congrArg Warp.pc hw :), (congrArg Warp.regs hw :), (congrArg Warp.preds hw :),
    (congrArg Warp.wstat hw :), (congrArg Warp.rest hw :), ?_⟩
  exact ((OnlyWarp.ofWarp { s with dev := d } _).trans (OnlyWarp.ofWarp _ _)).trans (OnlyWarp.ofIssued _ .retired)

theorem Warp.flag_zero (w : Warp) : w.flag 0 = w := by
  have h : w.wstat ||| 0 = w.wstat := BitVec.or_zero
  simp only [Warp.flag, h]

theorem Warp.setPred_wstat (w : Warp) (p : Nat) (m bits : Mask) : (w.setPred p m bits).wstat = w.wstat := (congrArg Warp.wstat (w.setPred_frame p m bits) :)

/-- An instruction whose registers are ready and whose checks pass does what it then does. -/
theorem Issue.of_checks {busy : Bool} {c : Option TrapInfo} {d : Dev} {i : Issue} : busy = false → c = none →
    (if busy then .hold d else match c with
      | some t => .trap t
      | none => i) = i := by
  rintro rfl rfl
  rfl

/-- LPUT's write to its predicate and to WSTAT. -/
def Warp.pushed (w : Warp) (p : Nat) (act got : Mask) (flags : Word) : Warp := (if p = 0 then w else w.setPred p act got).flag flags

theorem Warp.pushed_regs (w : Warp) (p : Nat) (act got : Mask) (flags : Word) : (w.pushed p act got flags).regs = w.regs := by
  unfold Warp.pushed
  split
  · rfl
  · exact w.setPred_regs _ _ _

theorem Warp.pushed_wstat (w : Warp) (p : Nat) (act got : Mask) (flags : Word) : (w.pushed p act got flags).wstat = w.wstat ||| flags := by
  unfold Warp.pushed
  split
  · rfl
  · exact congrArg (· ||| flags) (w.setPred_wstat _ _ _)

theorem Warp.pushed_frame (w : Warp) (p : Nat) (act got : Mask) (flags : Word) :
    { w.pushed p act got flags with preds := w.preds, wstat := w.wstat } = w := by
  unfold Warp.pushed
  split
  · rfl
  · exact (congrArg (fun v : Warp => { v with wstat := w.wstat }) (w.setPred_frame p act got) :)

theorem Warp.has_pred_pushed (w : Warp) {p l : Nat} (act got : Mask) (flags : Word) (h1 : 1 ≤ p) (h7 : p ≤ 7) (hl : l < 32) :
    Mask.has ((w.pushed p act got flags).pred p) l = if Mask.has act l then Mask.has got l else Mask.has (w.pred p) l := by
  unfold Warp.pushed
  rw [if_neg (by omega)]
  exact w.has_pred_setPred act got h1 h7 hl

theorem lput_pushes {f : VFields} {s : State} :
    let x : VCtx := vctx s.dev f.h []
    let wd := x.w.tileW
    let p := f.subBits 6 4
    let a := x.src 1 f.a
    let b := x.srcB f Fmt.raw
    let dst (l : Nat) : Nat := tileBase wd l + (lane b.vals l).toNat % 32 % wd
    let push (m : Nat) : List Nat := (Mask.list x.act).filter (fun l => dst l == m)
    let ub := if f.vi then [] else [Use.any b]
    x.notReady ([Use.any a] ++ ub) = false →
    x.checks false (dstBound x.regs f.d :: x.bounds ([Use.any a] ++ ub)) none ([Use.any a] ++ ub) none [] = none →
      ∃ u, exec (.lput f) s = .next u ∧ u.dev.issued = .retired ∧ u.vault = s.vault ∧ u.dev.curWarp.pc = s.nextPc ∧
        (∀ m, m < 32 → u.reg (dstReg f.d) m =
          if Mask.has x.act m ∧ push m ≠ [] then padded a.tag (lane a.vals ((push m).getLastD 0)) else s.reg (dstReg f.d) m) ∧
        (∀ r, r ≠ dstReg f.d → u.dev.curWarp.reg r = s.dev.curWarp.reg r) ∧
        (∀ m, m < 32 → 1 ≤ p → Mask.has (u.dev.curWarp.pred p) m =
          if Mask.has x.act m then !(push m).isEmpty else Mask.has (s.dev.curWarp.pred p) m) ∧
        u.dev.curWarp.wstat = s.dev.curWarp.wstat ||| (if (List.range 32).any (fun m => decide (2 ≤ (push m).length)) then 4 else 0) ∧
        { u.dev.curWarp with preds := s.dev.curWarp.preds, wstat := s.dev.curWarp.wstat }.rest = s.dev.curWarp.rest := by
  intro x wd p a b dst push ub hready hchecks
  let got := Mask.of (fun m => Mask.has x.act m && !(push m).isEmpty)
  let coll := (List.range 32).any (fun m => decide (2 ≤ (push m).length))
  let flags : Word := if coll then 4 else 0
  let res := Result.gen (fun m => padded a.tag (lane a.vals ((push m).getLastD 0)))
    (Mask.of (fun m => Mask.has a.pois ((push m).getLastD 0) || Mask.has b.pois ((push m).getLastD 0))) a.tag
  let d0 := optPred x p got (b.pois &&& x.act) s.dev
  let d1 := if coll then d0.modCurWarp (fun w => w.flag 4) else d0
  let d := d1.writeSome (dstReg f.d) x.act got res
  have hi : exec (.lput f) s = s.conclude (.retire (d.hint f.hint).advance) := by
    change s.conclude (lputIssue f s) = _
    exact congrArg s.conclude (Issue.of_checks hready hchecks)
  have hw1 : d1.curWarp = s.dev.curWarp.pushed p x.act got flags := by
    have hd0 : d0.curWarp = if p = 0 then s.dev.curWarp else s.dev.curWarp.setPred p x.act got := curWarp_optPred _ _ _ _ _
    simp only [d1, Warp.pushed, flags]
    split
    · rw [Dev.curWarp_modCurWarp, hd0]
    · rw [hd0, Warp.flag_zero]
  have hw : d.curWarp = (s.dev.curWarp.pushed p x.act got flags).writeSome (dstReg f.d) x.act got res := by
    rw [Dev.curWarp_writeSome, hw1]
  have hcur : d.cur = s.dev.cur := by
    have h0 : d0.cur = s.dev.cur := (Dev.SameIssue.optPred x p got (b.pois &&& x.act) s.dev).cur
    have h1 : d1.cur = d0.cur := by simp only [d1]; split <;> rfl
    exact (OnlyWarp.writeSome { s with dev := d1 } (dstReg f.d) x.act got res).cur.trans (h1.trans h0)
  have hgot (m : Nat) (hm : m < 32) : Mask.has got m = true ↔ Mask.has x.act m = true ∧ push m ≠ [] := by
    simp only [got, Mask.has_of _ hm, Bool.and_eq_true, Bool.not_eq_true', List.isEmpty_eq_false_iff]
  have hsub (l : Nat) (h : Mask.has got l = true) : Mask.has x.act l = true := by
    by_cases hl : l < 32
    · exact ((hgot l hl).mp h).1
    · rw [Mask.has_ge got (by omega)] at h
      cases h
  obtain ⟨u, hu, hissued, hvault, hpc, hregs, hpreds, hwstat, hrest, -⟩ := retire_hint_advance s d f.hint
  rw [hw] at hregs hpreds hwstat hrest
  rw [Warp.writeSome_preds] at hpreds
  rw [Warp.writeSome_wstat, Warp.pushed_wstat] at hwstat
  rw [Warp.writeSome_rest] at hrest
  refine ⟨u, hi.trans hu, hissued, hvault, by rw [hpc, hcur]; rfl, fun m hm => ?_, fun r hr => ?_, fun m hm h1 => ?_, ?_, ?_⟩
  · have hlane := (s.dev.curWarp.pushed p x.act got flags).writeSome_lane (dstReg f.d) (Result.good_general res rfl) hsub hm
    have hleft : u.reg (dstReg f.d) m = ((s.dev.curWarp.pushed p x.act got flags).writeSome (dstReg f.d) x.act got res).laneOf (dstReg f.d) m := by
      simp only [State.reg, Warp.laneOf, Warp.reg, hregs]
    have hvals : lane res.vals m = padded a.tag (lane a.vals ((push m).getLastD 0)) := Result.lane_gen _ _ _ hm
    have hold : (s.dev.curWarp.pushed p x.act got flags).laneOf (dstReg f.d) m = s.reg (dstReg f.d) m := by
      simp only [State.reg, Warp.laneOf, Warp.reg, Warp.pushed_regs]
    rw [hleft, hlane, hvals, hold]
    exact if_congr (hgot m hm) rfl rfl
  · have h := (s.dev.curWarp.pushed p x.act got flags).writeSome_reg_ne x.act got res hr
    simp only [Warp.reg, ← hregs, Warp.pushed_regs] at h
    exact h
  · have hp7 : p ≤ 7 := Nat.le_of_lt_succ (f.sub.extractLsb' 4 3).isLt
    rw [Warp.pred_congr hpreds, s.dev.curWarp.has_pred_pushed x.act got flags h1 hp7 hm]
    cases h : Mask.has x.act m <;> simp [got, hm, h]
  · exact hwstat
  · calc { u.dev.curWarp with preds := s.dev.curWarp.preds, wstat := s.dev.curWarp.wstat }.rest
        = { u.dev.curWarp.rest with preds := s.dev.curWarp.preds, wstat := s.dev.curWarp.wstat } := rfl
      _ = { (s.dev.curWarp.pushed p x.act got flags).rest with preds := s.dev.curWarp.preds, wstat := s.dev.curWarp.wstat } := by
        rw [hrest]
      _ = s.dev.curWarp.rest := (congrArg Warp.rest (s.dev.curWarp.pushed_frame p x.act got flags) :)

/-! ## BFLY -/

/-- A well-formed BFLY names two registers in a plain pattern. -/
theorem bfly_operands {f : VFields} (h : (Instr.bfly f).wf = true) :
    (f.a.ind = false ∧ f.a.isSpecial = false ∧ f.a.pat = 0) ∧ f.b.ind = false ∧ f.b.isSpecial = false ∧ f.b.pat = 0 := by
  have hok : ((Instr.bfly f).checks.sub && (Instr.bfly f).checks.rsv && (Instr.bfly f).checks.comb) = true := h
  have hcomb := (Bool.and_eq_true_iff.mp hok).2
  simp only [Instr.checks, vRule, VRule.allowed, VRule.fields, Bool.false_and, Bool.false_eq_true, if_false, List.all_cons, FieldUse.allowed,
    Bool.and_eq_true, Bool.not_eq_true', beq_iff_eq] at hcomb
  obtain ⟨⟨⟨-, ha, hb, -⟩, -⟩, ⟨⟨hap, hbp⟩, has⟩, hbs⟩ := hcomb
  exact ⟨⟨ha, has, hap⟩, hb, hbs, hbp⟩

/-- The exchange partner is a lane. -/
theorem partner_lt (w : Warp) {l d : Nat} (hl : l < 32) (hd : d < 32) : tileBase w.tileW l + ((l % w.tileW) ^^^ (d % w.tileW)) < 32 := by
  unfold tileBase Warp.tileW
  generalize w.wlog.toNat = n
  by_cases hn : 5 ≤ n
  · have h32 : 2 ^ 5 ≤ 2 ^ n := Nat.pow_le_pow_right (by decide) hn
    rw [Nat.mod_eq_of_lt (by omega), Nat.mod_eq_of_lt (by omega), Nat.sub_self, Nat.zero_add]
    exact Nat.xor_lt_two_pow (n := 5) hl hd
  · have hxor : (l % 2 ^ n) ^^^ (d % 2 ^ n) < 2 ^ n := Nat.xor_lt_two_pow (Nat.mod_lt _ (Nat.two_pow_pos n)) (Nat.mod_lt _ (Nat.two_pow_pos n))
    have hbase : l - l % 2 ^ n = 2 ^ n * (l / 2 ^ n) := by
      have := Nat.div_add_mod l (2 ^ n)
      omega
    have hn5 : 2 ^ n * 2 ^ (5 - n) = 32 := by rw [← Nat.pow_add, Nat.add_sub_cancel' (by omega)]
    have hdiv : l / 2 ^ n < 2 ^ (5 - n) := Nat.div_lt_of_lt_mul (by omega)
    have hmul := Nat.mul_le_mul_left (2 ^ n) (Nat.succ_le_of_lt hdiv)
    rw [Nat.mul_succ, hn5] at hmul
    omega

/-- A plain source reads its register's lanes. -/
theorem src_plain {x : VCtx} (code : Nat) {o : Operand} (hi : o.ind = false) (hs : o.isSpecial = false) (hp : o.pat = 0) :
    (x.src code o).tag = (x.w.reg o.reg.toNat).fmt ∧ ∀ l, l < 32 → lane (x.src code o).vals l = x.w.laneOf o.reg.toNat l := by
  have hsrc : x.src code o = x.reg code o.reg.toNat o := by
    simp only [VCtx.src, VCtx.reg, hi, hs, Bool.false_eq_true, if_false]
  have hlane (l : Nat) (hl : l < 32) : lane (x.reg code o.reg.toNat o).vals l = x.w.laneOf o.reg.toNat l := by
    simp only [VCtx.reg, Src.direct, lane_tab _ hl, hp, srcLane_own, Warp.laneOf]
  rw [hsrc]
  exact ⟨x.tag_reg code o.reg.toNat o, hlane⟩

theorem bfly_exchanges {f : VFields} {s : State} (hwf : (Instr.bfly f).wf = true) :
    let x : VCtx := vctx s.dev f.h []
    let wd := x.w.tileW
    let ra := f.a.reg.toNat
    let rb := f.b.reg.toNat
    let d := f.subBits 4 0 % wd
    let sel (l : Nat) : Bool :=
      if f.subBit 5 then Mask.has (s.dev.curWarp.pred (f.c.bits.toNat % 8)) l else (l % wd).testBit (Nat.log2 d)
    let q (l : Nat) : Nat := tileBase wd l + ((l % wd) ^^^ d)
    let us := [Use.any (x.src 1 f.a), { Use.any (x.src 2 f.b) with eq := some (x.src 1 f.a).tag }]
    x.notReady us = false →
    x.checks false (x.bounds us) none us none [] = none →
      ∃ u, exec (.bfly f) s = .next u ∧ u.dev.issued = .retired ∧ OnlyWarp s u ∧ u.dev.curWarp.pc = s.nextPc ∧
        u.dev.curWarp.rest = s.dev.curWarp.rest ∧ (d = 0 → u.dev.curWarp.regs = s.dev.curWarp.regs) ∧
        (d ≠ 0 → ∀ r l, l < 32 → u.reg r l =
          if Mask.has x.act l ∧ r = (if ra = rb ∨ sel l then ra else rb) then padded (s.readReg ra).fmt (s.reads (if sel (q l) then ra else rb) (q l))
          else s.reg r l) := by
  intro x wd ra rb d sel q us hready hchecks
  let a := x.src 1 f.a
  let b := x.src 2 f.b
  let c (l : Nat) : Bool := bflySends (if f.subBit 5 then some (x.w.pred (f.c.bits.toNat % 8)) else none) wd d l
  let sent (l : Nat) : Src := if c l then a else b
  let res := Result.gen (fun l => padded a.tag (lane (sent (q l)).vals (q l))) (Mask.of (fun l => Mask.has (sent (q l)).pois (q l))) a.tag
  let ma := Mask.of (fun l => Mask.has x.act l && (ra == rb || c l))
  let first := s.dev.writeSome ra x.act ma res
  let e := if d = 0 then s.dev else if ra = rb then first else first.writeSome rb x.act (x.act &&& ~~~ma) res
  have hi : exec (.bfly f) s = s.conclude (.retire (e.hint f.hint).advance) := by
    change s.conclude (bflyIssue f s) = _
    exact congrArg s.conclude (Issue.of_checks hready hchecks)
  have hc (l : Nat) : c l = sel l := by
    simp only [c, sel]
    cases f.subBit 5 <;> rfl
  have hmal (l : Nat) (hl : l < 32) : Mask.has ma l = (Mask.has x.act l && (ra == rb || sel l)) := by
    simp only [ma, Mask.has_of _ hl, hc]
  have hma (l : Nat) (h : Mask.has ma l = true) : Mask.has x.act l = true := by
    by_cases hl : l < 32
    · rw [hmal l hl] at h
      exact (Bool.and_eq_true_iff.mp h).1
    · rw [Mask.has_ge ma (by omega)] at h
      cases h
  have honly : OnlyWarp s { s with dev := e } := by
    have h1 : OnlyWarp s { s with dev := first } := .writeSome s ra x.act ma res
    simp only [e]
    split
    · exact .refl s
    · split
      · exact h1
      · exact h1.trans (.writeSome { s with dev := first } _ _ _ _)
  obtain ⟨u, hu, hissued, -, hpc, hregs, -, -, hrest, honly'⟩ := retire_hint_advance s e f.hint
  refine ⟨u, hi.trans hu, hissued, honly.trans honly', by rw [hpc, honly.cur]; rfl, ?_, fun hd => ?_, fun hd r l hl => ?_⟩
  · rw [hrest]
    simp only [e]
    split
    · rfl
    · split
      · rw [Dev.curWarp_writeSome, Warp.writeSome_rest]
      · rw [Dev.curWarp_writeSome, Warp.writeSome_rest, Dev.curWarp_writeSome, Warp.writeSome_rest]
  · rw [hregs]
    simp only [e, if_pos hd]
  · have hleft : u.reg r l = e.curWarp.laneOf r l := by simp only [State.reg, Warp.laneOf, Warp.reg, hregs]
    have hval : lane res.vals l = padded (s.readReg ra).fmt (s.reads (if sel (q l) then ra else rb) (q l)) := by
      obtain ⟨⟨hai, has, hap⟩, hbi, hbs, hbp⟩ := bfly_operands hwf
      obtain ⟨htag, hla⟩ := src_plain (x := x) 1 hai has hap
      obtain ⟨-, hlb⟩ := src_plain (x := x) 2 hbi hbs hbp
      have hq : q l < 32 := partner_lt x.w hl (f.sub.extractLsb' 0 5).isLt
      have hlane : lane (sent (q l)).vals (q l) = s.reads (if sel (q l) then ra else rb) (q l) := by
        simp only [sent, hc]
        split
        · exact hla _ hq
        · exact hlb _ hq
      rw [Result.lane_gen _ _ _ hl, hlane, htag]
      rfl
    have hfirst (n : Nat) : first.curWarp.laneOf n l = if n = ra ∧ Mask.has ma l = true then lane res.vals l else s.reg n l := by
      rw [Dev.curWarp_writeSome]
      by_cases hn : n = ra
      · subst hn
        rw [Warp.writeSome_lane _ _ (Result.good_general _ rfl) hma hl]
        simp only [true_and]
        rfl
      · rw [Warp.laneOf, Warp.writeSome_reg_ne _ _ _ _ hn, if_neg fun h => hn h.1]
        rfl
    have he : e.curWarp.laneOf r l =
        if ra ≠ rb ∧ r = rb ∧ Mask.has (x.act &&& ~~~ma) l = true then lane res.vals l else first.curWarp.laneOf r l := by
      simp only [e, if_neg hd]
      by_cases hab : ra = rb
      · rw [if_pos hab, if_neg fun h => h.1 hab]
      · rw [if_neg hab, Dev.curWarp_writeSome]
        by_cases hr : r = rb
        · subst hr
          rw [Warp.writeSome_lane _ _ (Result.good_general _ rfl) (fun l h => (Bool.and_eq_true_iff.mp ((Mask.has_and _ _ l).symm.trans h)).1) hl]
          simp only [ne_eq, hab, not_false_eq_true, true_and]
        · rw [Warp.laneOf, Warp.writeSome_reg_ne _ _ _ _ hr, if_neg fun h => hr h.2.1]
          rfl
    rw [hleft, he, hfirst, hval, Mask.has_and, Mask.has_not _ hl, hmal l hl]
    cases hact : Mask.has x.act l with
    | false => simp
    | true =>
      by_cases hab : ra = rb
      · simp [hab]
      · cases hs : sel l with
        | false => simp [hab]
        | true => simp [hab]

end Sys2Proof.Machine
end

section
namespace Sys2Proof
open Sys2Proof.Machine

/-- Settles O10: LGET is a general result, LPUT and BFLY write some of the active lanes. -/
theorem laneMoves : Obligations.LaneMoves :=
  ⟨fun _ _ => ⟨fun _ => lget_completes, fun _ => lput_pushes⟩, fun _ _ hwf => bfly_exchanges hwf⟩

end Sys2Proof
end

section
/-! Proofs about CVTB (R182, R230): blocks of 24 scaled elements. -/

namespace Sys2Proof.Machine

/-! ## Results that are uniform only where more sources than they read are -/

/-- A result of some of the sources whose shape is made of all of them agrees with its shape. -/
theorem Result.good_of_subset {r : Result} {ss all : List Src} {fmt : BitVec 5} {f : Nat → Word} (hr : r.Holds fmt f (anyPois ss))
    (hshape : r.shape = resultShape .plain all true ∨ r.shape = .general) (hs : AllShaped all) (hsub : ∀ s ∈ ss, s ∈ all) (hf : Lanewise all f) :
    r.Good := by
  rcases hshape with h | h
  · rcases resultShape_plain all true with ⟨hu, huni, -⟩ | hg
    · refine Result.good_uniform _ (h.trans hu) fun l hl => ?_
      have h0 : 0 < 32 := Nat.zero_lt_succ 31
      rw [hr.vals, hr.pois, lane_tab _ hl, lane_tab _ h0, Mask.has_of _ hl, Mask.has_of _ h0]
      exact ⟨(hs.const hf huni hl).1, anyPois_const fun s h => ((hs s (hsub s h)).uniform (huni s (hsub s h)) l hl).2⟩
    · exact Result.good_general _ (h.trans hg)
  · exact Result.good_general _ h

theorem blockRegs_pos (t : BitVec 5) : 0 < blockRegs t := by revert t; decide

theorem wideRegs_pos (bf : Bool) : 0 < wideRegs bf := by cases bf <;> decide

/-- A value among registers of a format is a function of their lanes. -/
theorem rangeVal_lanewise (t : BitVec 5) {rs all : List Src} (hsub : ∀ s ∈ rs, s ∈ all) {l : Nat} (h : ∀ s ∈ all, lane s.vals l = lane s.vals 0)
    (m : Nat) : rangeVal t rs l m = rangeVal t rs 0 m := by
  unfold rangeVal
  split
  next r hr => rw [h r (hsub r (List.mem_of_getElem? hr))]
  next => rfl

theorem allShaped_regs (x : VCtx) (code : Nat) (o : Operand) (reg : Nat → Nat) (n : Nat) :
    AllShaped ((List.range n).map fun i => x.reg code (reg i) o) := by
  intro s hs
  obtain ⟨i, -, rfl⟩ := List.mem_map.mp hs
  exact x.shaped_reg _ _ _

/-! ## Decoding -/

theorem dec_completes {f : VFields} {s : State} :
    let x : VCtx := vctx s.dev f.h [f.b]
    let t := f.h.ty
    let wt := wideFmt (f.subBit 4)
    let nw := wideRegs (f.subBit 4)
    let k := blockRegs t
    let va := f.a.reg.toNat
    let small := (List.range k).map (fun i => x.reg 1 (va + i) f.a)
    let comp := x.src 2 f.b
    let sc (l : Nat) := e8m0Value ((lane comp.vals l).toNat / 2 ^ (8 * f.subBits 3 2) % 256)
    f.subBit 0 = true →
      x.ReadyRange f [boundCheck x.regs (dstReg f.d + nw - 1), boundCheck x.regs (va + k - 1), comp.boundCheck x.regs]
        (small.map (fun i => Use.of i t) ++ [Use.of comp Fmt.e8m0x4]) →
      Completes (.cvtb f) x s s (x.rangeDst f.d nw) (fun _ => wt)
        (fun j l => (List.range (elems wt)).foldl (fun w e => insCode wt w e ((floatFmt wt).round f.h.rm f.h.s
          (FVal.mul (sc l) (rangeVal t small l (j * elems wt + e))))) 0)
        (fun j l => anyPois (comp :: (small[j * elems wt / elems t]?).toList) l) := by
  intro x t wt nw k va small comp sc hdec hready
  let val (j l : Nat) : Word := (List.range (elems wt)).foldl (fun w e => insCode wt w e ((floatFmt wt).round f.h.rm f.h.s
    (FVal.mul (sc l) (rangeVal t small l (j * elems wt + e))))) 0
  let res (j : Nat) : Result :=
    { laneResult .plain (comp :: (small[j * elems wt / elems t]?).toList) wt (val j) with shape := resultShape .plain (comp :: small) true }
  have hi : exec (.cvtb f) s = s.conclude (x.finishRange f
      [boundCheck x.regs (dstReg f.d + nw - 1), boundCheck x.regs (va + k - 1), comp.boundCheck x.regs]
      (small.map (fun i => Use.of i t) ++ [Use.of comp Fmt.e8m0x4]) [] ((List.range nw).map res) noPost) := congrArg s.conclude (if_pos hdec)
  refine completes_of_finishRange hi rfl hready (wideRegs_pos _) fun j _ => ?_
  obtain ⟨hvals, hpois, hfmt⟩ := laneResult_holds .plain (comp :: (small[j * elems wt / elems t]?).toList) wt (val j)
  have hholds : (res j).Holds wt (val j) (anyPois (comp :: (small[j * elems wt / elems t]?).toList)) := ⟨hvals, hpois, hfmt⟩
  have hshaped : AllShaped (comp :: small) := by
    rw [allShaped_cons]
    exact ⟨x.shaped_src _ _, allShaped_regs x 1 f.a _ k⟩
  refine ⟨hholds, Result.good_of_subset hholds (.inl rfl) hshaped ?_ fun l _ hsame => ?_⟩
  · intro r hr
    rw [List.mem_cons, Option.mem_toList] at hr
    exact List.mem_cons.mpr (hr.imp_right List.mem_of_getElem?)
  · have hrange (m : Nat) := rangeVal_lanewise t (rs := small) (fun r => List.mem_cons_of_mem comp) hsame m
    simp only [val, sc, hrange, hsame comp List.mem_cons_self]

/-! ## Encoding -/

/-- The companion register that lane l names. -/
def VCtx.companion (x : VCtx) (o : Operand) (l : Nat) : Nat := if o.ind then regAt x.w x.act x.pre o l else o.reg.toNat

theorem lane_oldOf_regs (x : VCtx) (o : Operand) {l : Nat} (hl : l < 32) : lane (x.oldOf o).regs l = x.companion o l := by
  unfold VCtx.oldOf VCtx.companion
  split
  · simp only [Src.indirect, lane_tab _ hl]
  · simp only [Src.direct, lane_tab _ hl]

/-- What CVTB writes into the companion register. -/
theorem VCtx.writeB_lanes (x : VCtx) (d : Dev) (o : Operand) {r : Result} (hr : r.Good) :
    ∃ g : Column → Column, x.writeB d o r = d.modCurCol g ∧
      ∀ k, Lanes k (g k) d.cur.slot r (fun n l => Mask.has x.act l = true ∧ x.companion o l = n) := by
  unfold VCtx.writeB VCtx.companion
  split
  · refine ⟨_, rfl, fun k => (Column.writeLanes_lanes k _ _ _ r hr).congr fun n l hl => ?_⟩
    rw [lane_tab _ hl]
  · refine ⟨_, rfl, fun k => (Column.writeReg_lanes k _ _ _ r false hr).congr fun n l _ => ?_⟩
    exact ⟨fun h => ⟨h.2, h.1.symm⟩, fun h => ⟨h.2.symm, h.1⟩⟩

theorem Src.Shaped.withCode {s : Src} (h : s.Shaped) (c : Nat) : Src.Shaped { s with code := c } := ⟨h.uniform, h.affine⟩

/-- The registers of a block, and after them the companion. -/
theorem companion_dst_iff {k n0 j r c : Nat} {act : Bool} :
    (if act then (if j < k then some (n0 + j) else if j = k then some c else none) else none) = some r ↔
      (j < k ∧ r = n0 + j ∧ act = true) ∨ (j = k ∧ act = true ∧ c = r) := by
  cases act with
  | false => simp
  | true =>
    rcases Nat.lt_trichotomy j k with h | rfl | h
    · simp [h, Nat.ne_of_lt h, eq_comm]
    · simp
    · simp [Nat.not_lt.mpr (Nat.le_of_lt h), Nat.ne_of_gt h]

theorem enc_completes {f : VFields} {s : State} :
    let x : VCtx := vctx s.dev f.h [f.b]
    let t := f.h.ty
    let wt := wideFmt (f.subBit 4)
    let nw := wideRegs (f.subBit 4)
    let k := blockRegs t
    let sr := f.subBit 1
    let va := f.a.reg.toNat
    let wide := (List.range nw).map (fun i => x.reg 1 (va + i) f.a)
    let old := { x.oldOf f.b with code := 2 }
    let vc (l : Nat) := if f.b.ind then regAt x.w x.act x.pre f.b l else f.b.reg.toNat
    let vals (l : Nat) := (List.range 24).map (rangeVal wt wide l)
    let draw (l i : Nat) := if sr then some (drawAt x.w (x.drawLane f.h.u l) i) else none
    let elem (l i : Nat) := blockElem t f.h.rm (draw l i) (blockScale t (vals l)) ((vals l).getD i (.fin false 0 1))
    f.subBit 0 = false → (f.b.ind = true → x.windowsFull = false) →
      (∀ l, l < 32 → Mask.has x.act l = true → vc l < dstReg f.d ∨ dstReg f.d + k ≤ vc l) →
      x.ReadyRange f [boundCheck x.regs (dstReg f.d + k - 1), boundCheck x.regs (va + nw - 1), old.boundCheck x.regs]
        (wide.map (fun i => Use.of i wt) ++ [Use.of old Fmt.e8m0x4]) →
      Completes (.cvtb f) x s { s with dev := x.converted sr f.h.u false 24 s.dev }
        (fun j l => if Mask.has x.act l then (if j < k then some (dstReg f.d + j) else if j = k then some (vc l) else none) else none)
        (fun j => if j < k then t else Fmt.e8m0x4)
        (fun j l => if j < k then (List.range (elems t)).foldl (fun w e => insCode t w e (elem l (j * elems t + e))) 0
          else setByte (lane old.vals l) (f.subBits 3 2) (BitVec.ofNat 8 (blockScale t (vals l))))
        (fun j l => anyPois (if j < k then wide else old :: wide) l) := by
  intro x t wt nw k sr va wide old vc vals draw elem henc hwin hout hready
  let word (j l : Nat) : Word := (List.range (elems t)).foldl (fun w e => insCode t w e (elem l (j * elems t + e))) 0
  let byte (l : Nat) : Word := setByte (lane old.vals l) (f.subBits 3 2) (BitVec.ofNat 8 (blockScale t (vals l)))
  let res (j : Nat) : Result := srShape sr f.h.u { laneResult .plain wide t (word j) with shape := resultShape .plain (old :: wide) true }
  let scale : Result := laneResult .plain (old :: wide) Fmt.e8m0x4 byte
  let d := x.converted sr f.h.u false 24 s.dev
  let base : State := { s with dev := d }
  have hshaped : AllShaped (old :: wide) := by
    rw [allShaped_cons]
    exact ⟨(x.shaped_oldOf f.b).withCode 2, allShaped_regs x 1 f.a _ nw⟩
  have hvals {l : Nat} (hsame : ∀ s ∈ old :: wide, lane s.vals l = lane s.vals 0) : vals l = vals 0 :=
    List.map_congr_left fun m _ => rangeVal_lanewise wt (fun r => List.mem_cons_of_mem old) hsame m
  have hres (j : Nat) : (res j).Holds t (word j) (anyPois wide) ∧ (res j).Good := by
    obtain ⟨hv, hp, hf⟩ := laneResult_holds .plain wide t (word j)
    refine ⟨srShape_holds sr f.h.u ⟨hv, hp, hf⟩, ?_⟩
    simp only [res, srShape]
    split
    next => exact Result.good_general _ rfl
    next hown =>
      have hdraw : sr = true → f.h.u = true := fun hsr => by simpa [hsr] using hown
      refine Result.good_of_subset ⟨hv, hp, hf⟩ (.inl rfl) hshaped (fun r => List.mem_cons_of_mem old) fun l _ hsame => ?_
      simp only [word, elem, draw, hvals hsame, x.draw_eq hdraw l]
  have hscale : scale.Good := by
    refine laneResult_plain_good _ hshaped fun l _ hsame => ?_
    simp only [byte, hvals hsame, hsame old List.mem_cons_self]
  have hinside : (Mask.list x.act).any (fun l => decide (dstReg f.d ≤ lane old.regs l) && decide (lane old.regs l < dstReg f.d + k)) = false := by
    rw [List.any_eq_false]
    intro l hl
    obtain ⟨h32, hact⟩ := (Mask.mem_list x.act l).mp hl
    rw [show lane old.regs l = vc l from lane_oldOf_regs x f.b h32]
    have := hout l h32 hact
    simp only [Bool.and_eq_true, decide_eq_true_eq]
    omega
  have hi : exec (.cvtb f) s = s.conclude
      (.retire ((x.step (x.writeB (d.writeRegs (dstReg f.d) x.act ((List.range k).map res)) f.b scale)).hint f.hint).advance) := by
    have hwindow : ¬ (f.b.ind && x.windowsFull) = true := by
      cases h : f.b.ind with
      | false => simp
      | true => simp [hwin h]
    change s.conclude (if f.subBit 0 then decIssue f s else encIssue f s) = _
    rw [henc]
    refine congrArg s.conclude ((Issue.of_checks hready.1 hready.2).trans ((if_neg hwindow).trans ?_))
    rw [show (Mask.list x.act).any _ = false from hinside]
    rfl
  obtain ⟨g, hg, hlanes⟩ := x.writeB_lanes (d.writeRegs (dstReg f.d) x.act ((List.range k).map res)) f.b hscale
  have hne : (List.range k).map res ≠ [] := by
    rw [Ne, List.map_eq_nil_iff, List.range_eq_nil]
    exact Nat.pos_iff_ne_zero.mp (blockRegs_pos t)
  rw [State.conclude_retire, hg, Dev.writeRegs_eq _ _ _ hne, Dev.modCurCol_modCurCol] at hi
  refine ⟨_, hi, ?_⟩
  have helems := Column.writeRange_writes (tag := fun j => if j < k then t else Fmt.e8m0x4) (val := fun j l => if j < k then word j l else byte l)
    (pois := fun j l => anyPois (if j < k then wide else old :: wide) l) d.cur.slot (dstReg f.d) x.act ((List.range k).map res) 0 d.curCol
    fun j hj => by
      have hjk : j < k := by simpa using hj
      simp only [Nat.zero_add, if_pos hjk, List.getElem_map, List.getElem_range]
      exact hres j
  have hslot : (d.writeRegs (dstReg f.d) x.act ((List.range k).map res)).cur.slot = d.cur.slot := by
    rw [Dev.writeRegs_eq _ _ _ hne]
    rfl
  rw [hslot] at hlanes
  have hcomp := (hlanes (d.curCol.writeRange d.cur.slot (dstReg f.d) x.act ((List.range k).map res))).writes (j := k)
    (tag := fun j => if j < k then t else Fmt.e8m0x4) (val := fun j l => if j < k then word j l else byte l)
    (pois := fun j l => anyPois (if j < k then wide else old :: wide) l)
    (by simpa using laneResult_holds .plain (old :: wide) Fmt.e8m0x4 byte)
  have run := helems.trans hcomp ?_
  · refine Writes.retires (s := base) (g := fun q => g (q.writeRange d.cur.slot (dstReg f.d) x.act ((List.range k).map res))) run ?_ f
    intro j l r hl
    simp only [List.length_map, List.length_range, Nat.zero_add, Nat.zero_le, true_and]
    exact companion_dst_iff
  · rintro i j r l m ⟨-, hik, rfl, -⟩ ⟨rfl, hact, hreg⟩
    have hm : m < 32 := by
      by_contra h
      rw [Mask.has_ge x.act (by omega)] at hact
      cases hact
    have hout : x.companion f.b m < dstReg f.d ∨ dstReg f.d + k ≤ x.companion f.b m := hout m hm hact
    simp only [List.length_map, List.length_range] at hik
    omega

end Sys2Proof.Machine
end

section
namespace Sys2Proof
open Sys2Proof.Machine

/-- Settles O9: decoding writes a range of registers, encoding a range and, outside it, each lane's companion register. -/
theorem blockConversions : Obligations.BlockConversions :=
  fun _ _ => ⟨fun _ => dec_completes, fun _ => enc_completes⟩

end Sys2Proof
end

section
/-! Proofs about YIELD, WAIT, ERET, EXIT, TAIL and SPAWN (R69-R71, R156, R162-R164, R405). -/

namespace Sys2Proof.Machine

/-! ## YIELD and WAIT -/

/-- A change of the issuing warp and the advance are one change. -/
theorem State.advance_modCurWarp (s : State) (g : Warp → Warp) :
    (s.dev.modCurWarp g).advance = s.dev.modCurWarp (fun _ => { g s.dev.curWarp with pc := s.nextPc }) :=
  Dev.modCurWarp_modCurWarp s.dev g _

theorem State.advance_eq_const (s : State) : s.dev.advance = s.dev.modCurWarp (fun _ => { s.dev.curWarp with pc := s.nextPc }) := rfl

theorem exec_yield {f : CFields} {s : State} (hs : s.selected f.h) :
    let v : Warp := if s.dev.pendingReady s.dev.cur.col s.dev.cur.slot then { s.dev.curWarp with active := false, entered := s.dev.now, pc := s.nextPc }
      else { s.dev.curWarp with yld := true, pc := s.nextPc }
    exec (.yield f) s = .next { s with dev := { s.dev.modCurWarp (fun _ => v) with issued := .retired } } := by
  intro v
  change s.conclude (yieldIssue f s) = _
  rw [yieldIssue, s.whole_of_selected hs]
  simp only [v]
  split <;> rw [State.advance_modCurWarp, State.conclude_retire]

theorem exec_wait_within {f : CFields} {s : State} (hs : s.selected f.h) {lim : Nat → Nat} (hlim : lim = fun i => (f.tgt.extractLsb' (6 * i) 6).toNat)
    (h : s.dev.curWarp.loads ≤ lim 0 ∧ s.dev.curWarp.stores ≤ lim 1 ∧ s.dev.curWarp.copies ≤ lim 2 ∧ s.dev.curWarp.tiles ≤ lim 3) :
    exec (.wait f) s = .next { s with dev := { s.dev.modCurWarp (fun _ => { s.dev.curWarp with pc := s.nextPc }) with issued := .retired } } := by
  subst hlim
  change s.conclude (waitIssue f s) = _
  rw [waitIssue, s.whole_of_selected hs]
  exact congrArg s.conclude (if_pos h)

theorem exec_wait_beyond {f : CFields} {s : State} (hs : s.selected f.h) {lim : Nat → Nat} (hlim : lim = fun i => (f.tgt.extractLsb' (6 * i) 6).toNat)
    (h : ¬ (s.dev.curWarp.loads ≤ lim 0 ∧ s.dev.curWarp.stores ≤ lim 1 ∧ s.dev.curWarp.copies ≤ lim 2 ∧ s.dev.curWarp.tiles ≤ lim 3)) :
    exec (.wait f) s =
      .next { s with dev := { s.dev.leave (.counters (lim 0) (lim 1) (lim 2) (lim 3)) with issued := .held } } := by
  subst hlim
  change s.conclude (waitIssue f s) = _
  rw [waitIssue, s.whole_of_selected hs]
  exact congrArg s.conclude (if_neg h)

theorem Dev.curWarp_leave (d : Dev) (x : Wait) : (d.leave x).curWarp = { d.curWarp with wait := x, active := false, entered := d.now } :=
  d.curWarp_modCurWarp _

/-! ## ERET -/

theorem Dev.privileged_of_priv {d : Dev} {needs : Bool} (h : d.cur.priv = true) (einfo : BitVec 64) (go : Unit → Issue) :
    d.privileged needs einfo go = go () := by
  simp [Dev.privileged, h]

/-- An instruction whose uniform operands are ready and pass their checks does what it then does. -/
theorem VCtx.readUni_of_ready {x : VCtx} {bounds : List (Option TrapInfo)} {us : List Use} {own : List (Option TrapInfo)} (hn : x.notReady us = false)
    (hc : firstTrap (bounds ++ x.bounds us ++ us.map (fun u => u.src.uniCheck) ++ us.map Use.tagCheck ++ own) = none) (go : Unit → Issue) :
    x.readUni bounds us own go = go () := by
  unfold VCtx.readUni
  simp only [hn, hc, Bool.false_eq_true, if_false]

theorem VCtx.withUni_of_ready {x : VCtx} {bounds : List (Option TrapInfo)} {us : List Use} {own : List (Option TrapInfo)} (h : x.ReadyUni bounds us own)
    (go : Unit → Issue) : x.withUni bounds us own go = go () := by
  obtain ⟨hn, hc⟩ := h
  exact x.readUni_of_ready hn (by simpa only [List.append_assoc] using hc) go

theorem exec_eret {g : SFields} {s : State} (hp : s.dev.cur.priv = true) (hs : s.selected g.h) :
    let x : VCtx := vctx s.dev g.h []
    let p := x.pair g.a
    x.ReadyUni [rangeBound x.regs g.a.reg.toNat 2] [Use.ptr p.1, Use.ptr p.2] [] →
      exec (.eret g) s = .next { s with dev := { s.dev.modCurWarp (fun w => { w with
        pc := (lane p.2.vals 0).extractLsb' 0 16 ++ lane p.1.vals 0 }) with issued := .retired } } := by
  intro x p hready
  change s.conclude (eretIssue g s) = _
  rw [eretIssue, Dev.privileged_of_priv hp, s.whole_of_selected hs]
  exact congrArg s.conclude (VCtx.withUni_of_ready hready _)

/-! ## EXIT and TAIL -/

theorem Warp.modCurWarp_id (d : Dev) (g h : Warp → Warp) (e : g d.curWarp = h d.curWarp) : d.modCurWarp g = d.modCurWarp h := by
  simp only [Dev.modCurWarp, Dev.modWarp]
  exact congrArg _ e

theorem exec_exit_some {f : CFields} {s : State} (h : s.dev.curWarp.retired ||| s.dev.curWarp.act f.h ≠ Mask.all) :
    exec (.exit f) s = .next { s with dev := {
      s.dev.modCurWarp (fun w => { w with retired := s.dev.curWarp.retired ||| s.dev.curWarp.act f.h, pc := s.nextPc }) with issued := .retired } } := by
  change s.conclude (exitIssue f s) = _
  by_cases hm : s.dev.curWarp.act f.h = 0
  · rw [show exitIssue f s = .retire s.dev.advance from if_pos hm, State.conclude_retire, State.advance_eq]
    have hret : s.dev.curWarp.retired ||| s.dev.curWarp.act f.h = s.dev.curWarp.retired := by rw [hm]; exact BitVec.or_zero
    rw [hret, Warp.modCurWarp_id s.dev _ (fun w => { w with retired := s.dev.curWarp.retired, pc := s.nextPc }) rfl]
  · refine (congrArg s.conclude ((if_neg hm).trans (if_neg h))).trans ?_
    rw [State.conclude_retire, State.advance_modCurWarp]
    rfl

theorem exec_exit_all {f : CFields} {s : State} (hm : s.dev.curWarp.act f.h ≠ 0) (h : s.dev.curWarp.retired ||| s.dev.curWarp.act f.h = Mask.all) :
    exec (.exit f) s = s.conclude s.dev.tail := by
  change s.conclude (exitIssue f s) = _
  exact congrArg s.conclude ((if_neg hm).trans (if_pos h))

theorem exec_tail {f : CFields} {s : State} (hs : s.selected f.h) : exec (.tail f) s = s.conclude s.dev.tail := by
  change s.conclude (tailIssue f s) = _
  rw [tailIssue, s.whole_of_selected hs]

/-- The end of a warp takes it, and no other, out of the column. -/
theorem Column.endWarp_warps (k : Column) (now s : Nat) : (k.endWarp now s).warps = k.warps.del s := by
  unfold Column.endWarp
  simp only
  split_ifs <;> rfl

theorem tail_ended {s : State} (h : s.dev.curCol.endHeld s.dev.now s.dev.cur.slot = false) :
    ∃ u, s.conclude s.dev.tail = .next u ∧ u.dev.issued = .retired ∧ u.vault = s.vault ∧
      (u.dev.col s.dev.cur.col).warps.has s.dev.cur.slot = false ∧
      ∀ y, y ≠ s.dev.cur.slot → u.dev.warp s.dev.cur.col y = s.dev.warp s.dev.cur.col y := by
  have htail : s.dev.tail = .retire (s.dev.modCurCol (fun k => k.endWarp s.dev.now s.dev.cur.slot)) := by
    simp only [Dev.tail, h, Bool.false_eq_true, if_false]
  have hcol : (s.dev.modCurCol (fun k => k.endWarp s.dev.now s.dev.cur.slot)).col s.dev.cur.col = s.dev.curCol.endWarp s.dev.now s.dev.cur.slot :=
    s.dev.col_modCol _ _
  refine ⟨_, congrArg s.conclude htail, rfl, rfl, ?_, fun y hy => ?_⟩
  · refine (congrArg (fun k : Column => k.warps.has s.dev.cur.slot) hcol).trans ?_
    simp only [Column.endWarp_warps, Table.has, Table.get?_del, if_pos, Option.isSome_none]
  · refine (congrArg (fun k : Column => k.warp y) hcol).trans ?_
    simp only [Column.warp, Column.endWarp_warps, Table.getD, Table.get?_del, if_neg hy]
    rfl

theorem tail_held {s : State} (h : s.dev.curCol.endHeld s.dev.now s.dev.cur.slot = true) :
    s.conclude s.dev.tail = .next { s with dev := { s.dev with issued := .held } } := by
  simp only [Dev.tail, h, if_true]
  rfl

/-! ## SPAWN -/

theorem Column.kept_seen {k e : Column} (h : e.kept = k.kept) (s : Nat) : e.seen s = k.seen s := by
  have hq : e.tileQ = k.tileQ := (congrArg Column.tileQ h :)
  have hw : e.warps = k.warps := (congrArg Column.warps h :)
  simp only [Column.seen, Column.warp, hq, hw]

theorem SameWarps.seen {d e : Dev} (h : SameWarps d e) : e.seen = d.seen := by
  simp only [Dev.seen, Dev.curCol, h.cur]
  exact Column.kept_seen (h.cols _) _

theorem SameWarps.curCol {d e : Dev} (h : SameWarps d e) : e.curCol.kept = d.curCol.kept := by
  simp only [Dev.curCol, h.cur]
  exact h.cols _

theorem Column.kept_spawnSlots {k e : Column} (h : e.kept = k.kept) : e.spawnSlots = k.spawnSlots := by
  have hr : e.regions = k.regions := (congrArg Column.regions h :)
  have hw : e.warps = k.warps := (congrArg Column.warps h :)
  simp only [Column.spawnSlots, hr, hw]

/-- A pick takes one of the list's elements, and changes nothing but the count of free choices. -/
theorem Dev.pick_spec (d : Dev) {l : List Nat} (h : l ≠ []) :
    ∃ x ∈ l, ∃ n, d.pick l = some (x, { d with free := n }) := by
  match l with
  | [] => exact absurd rfl h
  | [x] => exact ⟨x, List.mem_singleton.mpr rfl, d.free, rfl⟩
  | x :: y :: l =>
    refine ⟨_, ?_, _, rfl⟩
    have hlt : (Config.freeWord d.free).toNat % (l.length + 2) < (x :: y :: l).length := Nat.mod_lt _ (by simp)
    exact List.getD_eq_getElem (x :: y :: l) x hlt ▸ List.getElem_mem hlt

/-- The device after the target of a transfer has been checked, and a free choice made. -/
theorem SameWarps.free (d : Dev) (n : Nat) : SameWarps d { d with free := n } := ⟨rfl, fun _ => rfl⟩

theorem fold_set_getD (g : Nat → VReg) (n : Nat) (t : Table VReg) (i : Nat) (v : VReg) :
    ((List.range n).foldl (fun t i => Table.set t i (g i)) t).getD i v = if i < n then g i else t.getD i v := by
  induction n with
  | zero => simp
  | succ n ih =>
    rw [List.range_succ, List.foldl_append, List.foldl_cons, List.foldl_nil, Table.getD_set, ih]
    rcases Nat.lt_trichotomy i n with h | rfl | h
    · rw [if_neg (by omega), if_pos h, if_pos (by omega)]
    · simp
    · rw [if_neg (by omega), if_neg (by omega), if_neg (by omega)]

theorem spawnWarp_reg (d : Dev) (slot va : Nat) (pc : BitVec 48) (j : Nat) {i : Nat} (hi : i < 8) : (spawnWarp d slot va pc j).reg i = d.seen.reg (va + i) := by
  rw [Warp.reg]
  exact (fold_set_getD (fun i => d.seen.reg (va + i)) 8 _ i _).trans (if_pos hi)

/-- An instruction of the whole warp with a checked target goes on from the device that the check leaves. -/
theorem State.transfer_of_ok {s : State} {pc : BitVec 48} (h : (s.checkTarget s.dev.cur.col s.dev.curWarp.ctx s.dev.cur.priv pc).1 = .ok) :
    ∃ d, SameWarps s.dev d ∧ ∀ go, s.transfer pc go = go d := by
  have hsame := SameWarps.checkTarget s s.dev.cur.col s.dev.curWarp.ctx s.dev.cur.priv pc
  cases hc : s.checkTarget s.dev.cur.col s.dev.curWarp.ctx s.dev.cur.priv pc with
  | mk r d =>
    rw [hc] at h hsame
    subst h
    exact ⟨d, hsame, fun go => by simp only [State.transfer, hc]⟩

/-- A retirement that sets a predicate of the issuing warp, from a device with the same issuing warp. -/
theorem retired_of_cur {s : State} {d : Dev} (hcur : d.cur = s.dev.cur) (hwarp : d.curWarp = s.dev.curWarp) (p : Nat) (on : Mask) :
    let u : State := { s with dev := { (d.modCurWarp (fun w => w.setPred p Mask.all on)).advance with issued := .retired } }
    u.dev.issued = .retired ∧ u.vault = s.vault ∧ u.dev.curWarp = { s.dev.curWarp.setPred p Mask.all on with pc := s.nextPc } := by
  intro u
  refine ⟨rfl, rfl, ?_⟩
  change ((d.modCurWarp (fun w => w.setPred p Mask.all on)).advance).curWarp = _
  rw [({ s with dev := d } : State).advance_modCurWarp, Dev.curWarp_modCurWarp]
  simp only [State.nextPc, hcur, hwarp]

theorem exec_spawn {f : CFields} {s : State} (hs : s.selected f.h)
    (hbusy : s.dev.curCol.busy s.dev.cur.slot ((List.range 8).map (fun i => f.ur.toNat + i)) = false)
    (hok : (s.checkTarget s.dev.cur.col s.dev.curWarp.ctx s.dev.cur.priv (s.dev.cur.pc + f.tgt.signExtend 48)).1 = .ok) :
    ∃ d, SameWarps s.dev d ∧ exec (.spawn f) s =
      s.conclude (.retire (d.spawn f.ur.toNat (f.sub.toNat % 8) (s.dev.cur.pc + f.tgt.signExtend 48))) := by
  obtain ⟨d, hsame, hgo⟩ := State.transfer_of_ok hok
  refine ⟨d, hsame, ?_⟩
  change s.conclude (spawnIssue f s) = _
  rw [spawnIssue, s.whole_of_selected hs]
  refine congrArg s.conclude ((if_neg ?_).trans (hgo _))
  rw [hbusy]
  decide

/-- With no free slot, or with no eight registers to copy, SPAWN's predicate becomes false. -/
theorem Dev.spawn_none {d : Dev} {va pd : Nat} {pc : BitVec 48} (h : d.curCol.spawnSlots = [] ∨ d.curCol.regions.regs ≤ va + 7) :
    ∃ e, SameWarps d e ∧ d.spawn va pd pc = (e.modCurWarp (fun w => w.setPred pd Mask.all 0)).advance := by
  by_cases hnil : d.curCol.spawnSlots = []
  · refine ⟨d, .refl d, ?_⟩
    simp only [Dev.spawn, hnil, Dev.pick]
  · obtain ⟨x, -, n, hx⟩ := d.pick_spec hnil
    refine ⟨{ d with free := n }, .free d n, ?_⟩
    have hlt : ¬ va + 7 < ({ d with free := n } : Dev).curCol.regions.regs := Nat.not_lt.mpr (h.resolve_left hnil)
    simp only [Dev.spawn, hx]
    rw [if_neg hlt]

theorem Dev.spawn_some {d : Dev} {va pd : Nat} {pc : BitVec 48} (hslots : d.curCol.spawnSlots ≠ []) (hregs : va + 7 < d.curCol.regions.regs) :
    ∃ slot ∈ d.curCol.spawnSlots, ∃ n, d.spawn va pd pc = ((({ d with free := n } : Dev).startWarp d.cur.col slot d.curWarp.launch
      (spawnWarp { d with free := n } slot va pc)).modCurWarp (fun w => w.setPred pd Mask.all Mask.all)).advance := by
  obtain ⟨x, hmem, n, hx⟩ := d.pick_spec hslots
  refine ⟨x, hmem, n, ?_⟩
  have hlt : va + 7 < ({ d with free := n } : Dev).curCol.regions.regs := hregs
  simp only [Dev.spawn, hx]
  rw [if_pos hlt]
  rfl

/-- What the start of a warp leaves of the warps of its column. -/
theorem Dev.startWarp_warps (d : Dev) (c slot launch : Nat) (mk : Nat → Warp) :
    ((d.startWarp c slot launch mk).col c).warps.has slot = true ∧ (∃ j, (d.startWarp c slot launch mk).warp c slot = mk j) ∧
      ∀ y, y ≠ slot → (d.startWarp c slot launch mk).warp c y = d.warp c y := by
  let j := (d.col c).started.getD (launch * 64 + slot) 0
  have hw : ((d.startWarp c slot launch mk).col c).warps = (d.col c).warps.set slot (mk j) := congrArg Column.warps (d.col_modCol c _)
  refine ⟨?_, ⟨j, ?_⟩, fun y hy => ?_⟩
  · rw [hw, Table.has_set_same]
  · rw [Dev.warp, Column.warp, hw, Table.getD_set_same]
  · rw [Dev.warp, Column.warp, hw, Table.getD_set_ne _ _ _ hy]
    rfl

/-- The warps of the column after a change of the issuing one. -/
theorem Dev.has_modCurWarp (d : Dev) (g : Warp → Warp) {c y : Nat} (hc : d.cur.col = c) (hy : y ≠ d.cur.slot) :
    ((d.modCurWarp g).col c).warps.has y = (d.col c).warps.has y := by
  subst hc
  have hcol : (d.modCurWarp g).col d.cur.col = (d.col d.cur.col).putWarp d.cur.slot (g d.curWarp) := d.curCol_modCurWarp g
  rw [hcol]
  simp only [Column.putWarp, Table.has, Table.get?_set_ne _ _ hy]

theorem spawn_none {f : CFields} {s : State} (hs : s.selected f.h)
    (hbusy : s.dev.curCol.busy s.dev.cur.slot ((List.range 8).map (fun i => f.ur.toNat + i)) = false)
    (hok : (s.checkTarget s.dev.cur.col s.dev.curWarp.ctx s.dev.cur.priv (s.dev.cur.pc + f.tgt.signExtend 48)).1 = .ok)
    (h : s.dev.curCol.spawnSlots = [] ∨ s.dev.curCol.regions.regs ≤ f.ur.toNat + 7) :
    ∃ u, exec (.spawn f) s = .next u ∧ u.dev.issued = .retired ∧ u.vault = s.vault ∧
      u.dev.curWarp = { s.dev.curWarp.setPred (f.sub.toNat % 8) Mask.all 0 with pc := s.nextPc } := by
  obtain ⟨d, hsame, hi⟩ := exec_spawn hs hbusy hok
  have hregs : d.curCol.regions = s.dev.curCol.regions := (congrArg Column.regions hsame.curCol :)
  rw [← Column.kept_spawnSlots hsame.curCol, ← hregs] at h
  obtain ⟨e, he, hspawn⟩ := Dev.spawn_none (pd := f.sub.toNat % 8) (pc := s.dev.cur.pc + f.tgt.signExtend 48) h
  rw [hspawn, State.conclude_retire] at hi
  obtain ⟨hissued, hvault, hwarp⟩ := retired_of_cur (s := s) (d := e) (hsame.trans he).cur (hsame.trans he).curWarp (f.sub.toNat % 8) 0
  exact ⟨_, hi, hissued, hvault, hwarp⟩

theorem spawn_some {f : CFields} {s : State} (hs : s.selected f.h)
    (hbusy : s.dev.curCol.busy s.dev.cur.slot ((List.range 8).map (fun i => f.ur.toNat + i)) = false)
    (hlive : s.dev.curCol.warps.has s.dev.cur.slot = true)
    (hok : (s.checkTarget s.dev.cur.col s.dev.curWarp.ctx s.dev.cur.priv (s.dev.cur.pc + f.tgt.signExtend 48)).1 = .ok)
    (hslots : s.dev.curCol.spawnSlots ≠ []) (hregs : f.ur.toNat + 7 < s.dev.curCol.regions.regs) :
    ∃ slot ∈ s.dev.curCol.spawnSlots, ∃ u, exec (.spawn f) s = .next u ∧
      (u.dev.issued = .retired ∧ u.vault = s.vault ∧
        u.dev.curWarp = { s.dev.curWarp.setPred (f.sub.toNat % 8) Mask.all Mask.all with pc := s.nextPc }) ∧
      (u.dev.col s.dev.cur.col).warps.has slot = true ∧
      (u.dev.warp s.dev.cur.col slot).pc = s.dev.cur.pc + f.tgt.signExtend 48 ∧ (u.dev.warp s.dev.cur.col slot).coords = s.dev.curWarp.coords ∧
      (u.dev.warp s.dev.cur.col slot).spawned = true ∧
      (∀ i, i < 8 → (u.dev.warp s.dev.cur.col slot).reg i = s.readReg (f.ur.toNat + i)) ∧
      ∀ y, y ≠ slot → y ≠ s.dev.cur.slot → u.dev.warp s.dev.cur.col y = s.dev.warp s.dev.cur.col y := by
  obtain ⟨d, hsame, hi⟩ := exec_spawn hs hbusy hok
  have hreg : d.curCol.regions = s.dev.curCol.regions := (congrArg Column.regions hsame.curCol :)
  have hfree := Column.kept_spawnSlots hsame.curCol
  rw [← hfree] at hslots
  rw [← hreg] at hregs
  obtain ⟨slot, hmem, n, hspawn⟩ := Dev.spawn_some (pd := f.sub.toNat % 8) (pc := s.dev.cur.pc + f.tgt.signExtend 48) hslots hregs
  rw [hspawn, congrArg Cur.col hsame.cur, State.conclude_retire] at hi
  rw [hfree] at hmem
  have hne : slot ≠ s.dev.cur.slot := by
    rintro rfl
    have := (List.mem_filter.mp hmem).2
    rw [hlive] at this
    cases this
  let d1 : Dev := { d with free := n }
  let mk := spawnWarp d1 slot f.ur.toNat (s.dev.cur.pc + f.tgt.signExtend 48)
  let e := d1.startWarp s.dev.cur.col slot d.curWarp.launch mk
  obtain ⟨hhas, ⟨j, hnew⟩, hothers⟩ := d1.startWarp_warps s.dev.cur.col slot d.curWarp.launch mk
  have hcur : e.cur = s.dev.cur := hsame.cur
  have hcurWarp : e.curWarp = s.dev.curWarp := by
    rw [Dev.curWarp, hcur]
    exact (hothers _ hne.symm).trans (hsame.warp _ _)
  let out := (e.modCurWarp (fun w => w.setPred (f.sub.toNat % 8) Mask.all Mask.all)).advance
  have hout (y : Nat) (hy : y ≠ s.dev.cur.slot) : out.warp s.dev.cur.col y = e.warp s.dev.cur.col y := by
    rw [← hcur] at hy ⊢
    exact (Dev.warp_modWarp_ne _ _ _ _ (.inr hy)).trans (Dev.warp_modWarp_ne _ _ _ _ (.inr hy))
  have houtHas : (out.col s.dev.cur.col).warps.has slot = true := by
    have hc : e.cur.col = s.dev.cur.col := congrArg Cur.col hcur
    have hne : slot ≠ e.cur.slot := fun h => hne (h.trans (congrArg Cur.slot hcur))
    exact (Dev.has_modCurWarp (e.modCurWarp _) _ hc hne).trans ((Dev.has_modCurWarp e _ hc hne).trans hhas)
  have hslot : out.warp s.dev.cur.col slot = mk j := (hout slot hne).trans hnew
  obtain ⟨hissued, hvault, hwarp⟩ := retired_of_cur (s := s) hcur hcurWarp (f.sub.toNat % 8) Mask.all
  refine ⟨slot, hmem, _, hi, ⟨hissued, hvault, hwarp⟩, houtHas, (congrArg Warp.pc hslot :), (congrArg Warp.coords hslot :).trans ?_,
    (congrArg Warp.spawned hslot :), fun i hi8 => ?_, fun y hy hyc => ?_⟩
  · have hcoords : (mk j).coords = d.curWarp.coords := rfl
    rw [hcoords, hsame.curWarp]
  · refine (congrArg (Warp.reg · i) hslot).trans ((spawnWarp_reg _ _ _ _ _ hi8).trans ?_)
    exact congrArg (Warp.reg · _) hsame.seen
  · exact (hout y hyc).trans ((hothers y hy).trans (hsame.warp _ _))

end Sys2Proof.Machine
end

section
namespace Sys2Proof
open Sys2Proof.Machine

/-- Settles O15: EXIT and TAIL take the warp out of its column's table, SPAWN puts one in. -/
theorem warpsEndAndStart : Obligations.WarpsEndAndStart := by
  refine ⟨fun f s => ⟨exec_exit_some, fun hm hall hheld => ?_, fun hs hheld => ?_, fun hs hheld => ?_⟩, fun f s hs hbusy hlive hok =>
    ⟨spawn_none hs hbusy hok, spawn_some hs hbusy hlive hok⟩⟩
  · obtain ⟨u, hu, h⟩ := tail_ended hheld
    exact ⟨u, (exec_exit_all hm hall).trans hu, h⟩
  · obtain ⟨u, hu, h⟩ := tail_ended hheld
    exact ⟨u, (exec_tail hs).trans hu, h⟩
  · rw [exec_tail hs]
    exact tail_held hheld

/-- Settles O16: YIELD and WAIT change their own warp alone. -/
theorem yieldAndWait : Obligations.YieldAndWait := by
  refine fun f s hs => ⟨fun hready => ?_, fun hready => ?_, exec_wait_within hs rfl, fun hbeyond => ⟨_, exec_wait_beyond hs rfl hbeyond, ?_⟩⟩
  · have h := exec_yield hs
    rwa [if_pos hready] at h
  · have h := exec_yield hs
    rwa [if_neg (by rw [hready]; decide)] at h
  · refine ⟨rfl, rfl, ?_⟩
    change (s.dev.leave _).curWarp.pc = _ ∧ (s.dev.leave _).curWarp.regs = _ ∧ (s.dev.leave _).curWarp.active = _ ∧ (s.dev.leave _).curWarp.wait = _
    simp only [Dev.curWarp_leave, and_self]

/-- Settles O18: in privileged mode ERET only reads its pair. -/
theorem eretReturns : Obligations.EretReturns := fun _ _ hp hs => exec_eret hp hs

end Sys2Proof
end

section
/-! Proofs about what a write to memory leaves alone (R204, R209, R296): the warps, the operations and the logs of every column. -/

namespace Sys2Proof.Machine

/-! ## Everything but caches and the marks of memory -/

/-- A column without its caches, and without what it keeps beside the bytes of memory: watches, old words and old entries. -/
def Column.core (k : Column) : Column := { k.kept with watches := [], was := [], past := [], oldPtes := [], stableSent := [] }

/-- Two devices differ at most in caches, marks of memory, the free counter and what errors leave. -/
structure SameCore (d e : Dev) : Prop where
  dev  : e.kept = d.kept
  cols : ∀ c, (e.col c).core = (d.col c).core

theorem SameCore.refl (d : Dev) : SameCore d d := ⟨rfl, fun _ => rfl⟩

theorem SameCore.trans {d e g : Dev} (h : SameCore d e) (k : SameCore e g) : SameCore d g :=
  ⟨k.dev.trans h.dev, fun c => (k.cols c).trans (h.cols c)⟩

theorem SameWarps.core {d e : Dev} (h : SameWarps d e) : SameCore d e :=
  ⟨h.dev, fun c => (congrArg (fun k : Column => { k with watches := [], was := [], past := [], oldPtes := [], stableSent := [] }) (h.cols c) :)⟩

theorem SameCore.ctxs {d e : Dev} (h : SameCore d e) : e.ctxs = d.ctxs := (congrArg Dev.ctxs h.dev :)
theorem SameCore.warps {d e : Dev} (h : SameCore d e) (c : Nat) : (e.col c).warps = (d.col c).warps := (congrArg Column.warps (h.cols c) :)
theorem SameCore.ops {d e : Dev} (h : SameCore d e) (c : Nat) : (e.col c).ops = (d.col c).ops := (congrArg Column.ops (h.cols c) :)
theorem SameCore.log {d e : Dev} (h : SameCore d e) (c : Nat) : (e.col c).log = (d.col c).log := (congrArg Column.log (h.cols c) :)

theorem SameCore.modCol (d : Dev) (c : Nat) (f : Column → Column) (h : (f (d.col c)).core = (d.col c).core) : SameCore d (d.modCol c f) := by
  refine ⟨rfl, fun e => ?_⟩
  by_cases he : e = c
  · subst he
    rw [Dev.col_modCol, h]
  · rw [Dev.col_modCol_ne _ _ _ he]

theorem SameCore.ite {d : Dev} {p : Prop} [Decidable p] {s t : State} (hs : SameCore d s.dev) (ht : SameCore d t.dev) :
    SameCore d (if p then s else t).dev := by
  split
  · exact hs
  · exact ht

theorem SameCore.foldl {α : Type} (f : Dev → α → Dev) (h : ∀ d x, SameCore d (f d x)) (l : List α) (d : Dev) : SameCore d (l.foldl f d) := by
  induction l generalizing d with
  | nil => exact .refl d
  | cons x l ih => exact (h d x).trans (ih _)

/-! ## Writes at home slices -/

theorem Column.kept_l2Mod (k : Column) (va : Nat) (f : L2Line → L2Line) : (k.l2Mod va f).kept = k.kept := rfl

theorem Column.kept_l2Change (k : Column) (va : Nat) (f : L2Line → L2Line) : (k.l2Change va f).kept = k.kept := by
  rw [Column.l2Change, Column.kept_l2Repack, Column.kept_l2Mod]

theorem SameWarps.homeWrite (s : State) (c va pol : Nat) (zc stable : Bool) (whole : List Nat) :
    SameWarps s.dev (s.homeWrite c va pol zc stable whole).1 := by
  unfold State.homeWrite
  simp only
  split
  · exact .bankShut _ _ _
  · generalize hd : (if (!(s.dev.col c).l2Valid va) = true then s.l2Bring c va zc (pol == 2) _ else s.dev.modCol c (fun k => (k.l2Use va).l2Zc va zc)) = d
    have h1 : SameWarps s.dev d := by
      subst hd
      split
      · exact .l2Bring _ _ _ _ _ _
      · exact SameWarps.modCol _ _ (fun k => (k.l2Use va).l2Zc va zc) ((Column.kept_l2Zc _ _ _).trans (Column.kept_l2Use _ _))
    split
    · exact h1.trans (.bankShut _ _ _)
    · exact h1.trans (SameWarps.modCol _ _ (fun k => k.l2Mod va _) rfl)

theorem SameWarps.writeLinesAt (s : State) (ls : List LaneAcc) (xs : List (Nat × Nat)) : SameWarps s.dev (s.writeLinesAt ls xs).1 := by
  induction xs generalizing s with
  | nil => exact .refl _
  | cons x xs ih =>
    unfold State.writeLinesAt
    dsimp only
    split
    · exact (SameWarps.homeWrite _ _ _ _ _ _ _).trans (ih { s with dev := _ })
    · exact ih s

theorem SameWarps.writeBack (s : State) (ls : List LaneAcc) : SameWarps s.dev (s.writeBack ls).1 := .writeLinesAt _ _ _

theorem SameWarps.touchLines (s : State) (ls : List LaneAcc) : SameWarps s.dev (s.touchLines ls) := by
  unfold State.touchLines
  generalize linesOf ls = xs
  suffices h : ∀ (d : Dev), SameWarps s.dev d → SameWarps s.dev (xs.foldl _ d) from h _ (.refl _)
  induction xs with
  | nil => exact fun d h => h
  | cons x xs ih =>
    intro d h
    refine ih _ ?_
    dsimp only
    split
    · exact h.trans (SameWarps.homeRead { s with dev := d } _ _ _ _ _ _)
    · exact h

theorem SameWarps.l2Written (s : State) (c va : Nat) : SameWarps s.dev (s.l2Written c va) := by
  unfold State.l2Written
  dsimp only
  by_cases h : (!(s.dev.col c).l2Valid va) = true
  · rw [if_pos h]
    exact .refl _
  · rw [if_neg h]
    refine SameWarps.modCol _ _ _ ?_
    generalize Option.any _ _ = same
    cases same
    · exact Column.kept_l2Change _ _ _
    · rfl

theorem SameWarps.raced (s : State) (c va : Nat) (bs : List Byte) : SameWarps s.dev (s.raced c va bs).2 := by
  unfold State.raced
  dsimp only
  split
  · exact .refl _
  · exact ⟨rfl, fun _ => rfl⟩

/-! ## Marks of memory -/

theorem SameCore.keepPtes (s : State) (c va : Nat) (bs : List Byte) : SameCore s.dev (s.keepPtes c va bs) := by
  unfold State.keepPtes
  dsimp only
  split
  · exact .refl _
  · exact .modCol _ _ _ rfl

theorem SameCore.keepPast (s : State) (c va : Nat) (bs : List Byte) : SameCore s.dev (s.keepPast c va bs) := by
  unfold State.keepPast
  dsimp only
  split
  · exact .refl _
  · exact .modCol _ _ _ rfl

theorem SameCore.keepOld (s : State) (c va : Nat) (bs : List Byte) : SameCore s.dev (s.keepOld c va bs) :=
  (SameCore.keepPtes s c va bs).trans (SameCore.keepPast { s with dev := s.keepPtes c va bs } c va bs)

theorem SameCore.keepWas (s : State) (c ctx va n : Nat) : SameCore s.dev (s.keepWas c ctx va n) := by
  unfold State.keepWas
  exact .modCol _ _ _ rfl

theorem SameCore.testWatches (s : State) (c va n : Nat) : SameCore s.dev (s.testWatches c va n).dev := by
  unfold State.testWatches
  dsimp only
  refine SameCore.modCol _ _ _ ?_
  rfl

theorem SameCore.stableMark (s : State) (c : Nat) (a : LaneAcc) (ctx : Nat) : SameCore s.dev (s.stableMark c a ctx).dev := by
  unfold State.stableMark
  dsimp only
  split
  · exact .refl _
  · have hwas := SameCore.keepWas s a.tcol ctx a.va a.size
    refine .ite hwas (SameCore.trans ?_ (SameWarps.recordCol _ _ _).core)
    refine hwas.trans (SameCore.modCol _ _ _ ?_)
    rfl

/-- One piece of a lane's bytes, written. -/
def State.putPiece (s : State) (c va : Nat) (bs : List Byte) : State :=
  if bs.isEmpty then s
  else
    let (bs, d) := s.raced c va bs
    let s : State := { s with dev := d }
    let s : State := { vault := s.vault.write (vkey c va) bs, dev := s.keepOld c va bs }
    { s with dev := s.l2Written c va }.testWatches c va bs.length

/-- A lane's bytes are written in its two pieces. -/
theorem State.putLane_eq (s : State) (a : LaneAcc) (bs : List Byte) :
    s.putLane a bs = (s.putPiece a.tcol a.va (bs.take a.cut)).putPiece a.tcol a.va2 (bs.drop a.cut) := rfl

theorem SameCore.putPiece (s : State) (c va : Nat) (bs : List Byte) : SameCore s.dev (s.putPiece c va bs).dev := by
  unfold State.putPiece
  split
  · exact .refl _
  · let d := (s.raced c va bs).2
    let own := (s.raced c va bs).1
    let written : State := { vault := s.vault.write (vkey c va) own, dev := ({ s with dev := d } : State).keepOld c va own }
    have h1 : SameCore s.dev d := (SameWarps.raced s c va bs).core
    have h2 : SameCore d written.dev := .keepOld { s with dev := d } c va own
    have h3 : SameCore written.dev (written.l2Written c va) := (SameWarps.l2Written written c va).core
    exact ((h1.trans h2).trans h3).trans (SameCore.testWatches { written with dev := written.l2Written c va } c va own.length)

theorem SameCore.putLane (s : State) (a : LaneAcc) (bs : List Byte) : SameCore s.dev (s.putLane a bs).dev := by
  rw [State.putLane_eq]
  exact (SameCore.putPiece _ _ _ _).trans (.putPiece _ _ _ _)

/-! ## Words of completion -/

theorem SameCore.wordAt (s : State) (c tc ctx off : Nat) (e : TlbEntry) (err : Option Word) : SameCore s.dev (s.wordAt c tc ctx off e err).1.dev := by
  let a : LaneAcc :=
    { lane := 0, tcol := tc, off := off, va := e.va off, cut := 8, va2 := 0, size := 8, req := 0, dst := [], data := [], pois := [],
      rng := none, pol := 0, zc := e.zc, stable := e.stable }
  let touched : State := { s with dev := s.touchLines [a] }
  let marked : State := if e.stable then touched.stableMark c a ctx else touched
  have h1 : SameCore s.dev touched.dev := (SameWarps.touchLines s [a]).core
  have h2 : SameCore touched.dev marked.dev := .ite (.stableMark touched c a ctx) (.refl _)
  have h3 : SameCore marked.dev (marked.writeBack [a]).1 := (SameWarps.writeBack marked [a]).core
  exact ((h1.trans h2).trans h3).trans (SameCore.putLane { marked with dev := (marked.writeBack [a]).1 } a _)

theorem SameCore.wordDone (s : State) (c tc ctx off : Nat) (err : Option Word) :
    match s.wordDone c tc ctx off err with
    | (.ok (t, _), _) => SameCore s.dev t.dev
    | (.error _, d) => SameCore s.dev d := by
  have htr := SameWarps.translate s c ctx off true false
  unfold State.wordDone
  split <;> rename_i heq <;> revert heq
  · split <;> rintro ⟨⟩
    rename_i e d h
    rw [h] at htr
    exact htr.core.trans (.wordAt { s with dev := d } _ _ _ _ _ _)
  · split <;> rintro ⟨⟩
    rename_i f d h
    rw [h] at htr
    exact htr.core

theorem SameCore.failWords (ctx : Nat) (ws : List (Nat × Nat × Nat × Word)) (s : State) : SameCore s.dev (s.failWords ctx ws).dev := by
  induction ws generalizing s with
  | nil => exact .refl _
  | cons w ws ih =>
    obtain ⟨c, tc, off, e⟩ := w
    have h := SameCore.wordDone s c tc ctx off (some e)
    unfold State.failWords
    refine SameCore.trans ?_ (ih _)
    revert h
    generalize s.wordDone c tc ctx off (some e) = r
    obtain ⟨r, d⟩ := r
    cases r with
    | ok _ => exact id
    | error _ => exact id

theorem SameCore.testClaims (s : State) (c : Nat) (cs : List Claim) : SameCore s.dev (s.testClaims c cs).dev := by
  unfold State.testClaims
  induction cs generalizing s with
  | nil => exact .refl _
  | cons x cs ih => exact (SameCore.testWatches _ _ _ _).trans (ih _)

end Sys2Proof.Machine
end

section
/-! Proofs about traps (R156, R165, R400-R407): the instructions that trap, the reset of a context by a nested trap, and privilege. -/

namespace Sys2Proof.Machine

/-! ## TRAP, SVC and BRK -/

theorem askTrap_of_act {d : Dev} {f : CFields} (h : d.curWarp.act f.h ≠ 0) (cause : Nat) (next : Bool) :
    askTrap d f cause next = .trap { cause := cause, einfo := f.sub.setWidth 64, emask := d.curWarp.act f.h, next := next } := if_neg h

theorem askTrap_of_none {d : Dev} {f : CFields} (h : d.curWarp.act f.h = 0) (cause : Nat) (next : Bool) :
    askTrap d f cause next = .retire d.advance := if_pos h

theorem brkIssue_of_none {f : CFields} {s : State} (h : s.dev.curWarp.act f.h = 0) : brkIssue f s = .retire s.dev.advance := by
  have hb : ¬ (s.dev.debugger && s.dev.curWarp.act f.h != 0) = true := by simp [h]
  exact (if_neg hb).trans (askTrap_of_none h _ _)

theorem brkIssue_of_no_debugger {f : CFields} {s : State} (h : s.dev.debugger = false) : brkIssue f s = askTrap s.dev f 0x22 false := by
  have hb : ¬ (s.dev.debugger && s.dev.curWarp.act f.h != 0) = true := by simp [h]
  exact if_neg hb

theorem Dev.curWarp_reportStop (d : Dev) (c s : Nat) : (d.reportStop c s).curWarp = d.curWarp := by
  unfold Dev.reportStop
  dsimp only
  split <;> rfl

theorem brk_stops {f : CFields} {s : State} (h : s.dev.curWarp.act f.h ≠ 0) (hd : s.dev.debugger = true) :
    ∃ u, exec (.brk f) s = .next u ∧ u.dev.issued = .retired ∧ u.vault = s.vault ∧
      u.dev.curWarp = { s.dev.curWarp with stopped := true, active := false } := by
  have hb : (s.dev.debugger && s.dev.curWarp.act f.h != 0) = true := by
    rw [hd, Bool.true_and, bne_iff_ne]
    exact h
  have hi : exec (.brk f) s = s.conclude (.retire ((s.dev.modCurWarp (fun w => { w with stopped := true, active := false })).reportStop
      s.dev.cur.col s.dev.cur.slot)) := congrArg s.conclude (if_pos hb)
  refine ⟨_, hi, rfl, rfl, ?_⟩
  exact (Dev.curWarp_reportStop _ _ _).trans (Dev.curWarp_modCurWarp _ _)

/-! ## The reset of a context -/

/-- What the columns and the contexts of a device are, apart from its rings. -/
theorem Dev.putRing_cols (d : Dev) (r : RingId) (b : RingBlock) : (d.putRing r b).cols = d.cols ∧ (d.putRing r b).ctxs = d.ctxs := by
  cases r <;> exact ⟨rfl, rfl⟩

theorem Dev.complete_cols (d : Dev) (r : RingId) (seq : BitVec 64) (status : Nat) :
    (d.complete r seq status).cols = d.cols ∧ (d.complete r seq status).ctxs = d.ctxs := by
  unfold Dev.complete
  dsimp only
  split
  · exact ⟨rfl, rfl⟩
  · exact d.putRing_cols _ _

theorem Dev.abandon_cols (d : Dev) (r : RingId) (ctx status : Nat) (keep : Option (BitVec 64)) :
    (d.abandon r ctx status keep).cols = d.cols ∧ (d.abandon r ctx status keep).ctxs = d.ctxs := by
  unfold Dev.abandon
  dsimp only
  generalize List.filter _ (Dev.ring _ r).begun = es
  suffices h : ∀ e : Dev, e.cols = d.cols ∧ e.ctxs = d.ctxs →
      (es.foldl (fun d e => d.complete r e.seq status) e).cols = d.cols ∧ (es.foldl (fun d e => d.complete r e.seq status) e).ctxs = d.ctxs from
    h _ (d.putRing_cols _ _)
  induction es with
  | nil => exact fun e h => h
  | cons x es ih =>
    intro e h
    obtain ⟨hc, hx⟩ := e.complete_cols r x.seq status
    exact ih _ ⟨hc.trans h.1, hx.trans h.2⟩

theorem Dev.record_cols (d : Dev) (die : Nat) (r : RecordInfo) : (d.record die r).cols = d.cols ∧ (d.record die r).ctxs = d.ctxs := ⟨rfl, rfl⟩

/-- A column on which nothing of a context is left to run. -/
structure Column.FreeOf (k : Column) (ctx : Nat) : Prop where
  ops : ∀ o ∈ k.ops, o.ctx ≠ ctx
  log : ∀ e ∈ k.log, e.ctx ≠ ctx

/-- The reset of a resident context empties the column. -/
theorem Column.reset_free (k : Column) (ctx base : Nat) : (k.reset ctx true base).warps = [] ∧ (k.reset ctx true base).FreeOf ctx := by
  refine ⟨rfl, fun o ho => ?_, fun e he => ?_⟩
  · simpa using (List.mem_filter.mp ho).2
  · simpa using (List.mem_filter.mp he).2

/-- What each column's change establishes holds of every column that is changed. -/
theorem fold_modCol_of_mem {P : Column → Prop} {F : Dev → Nat → Column → Column} (hF : ∀ d c k, P (F d c k)) {c : Nat} (cs : List Nat) (d : Dev)
    (h : c ∈ cs ∨ P (d.col c)) : P ((cs.foldl (fun d c => d.modCol c (F d c)) d).col c) := by
  induction cs generalizing d with
  | nil => exact h.resolve_left (by simp)
  | cons x cs ih =>
    refine ih _ ?_
    by_cases hx : c = x
    · subst hx
      rw [Dev.col_modCol]
      exact .inr (hF _ _ _)
    · rw [Dev.col_modCol_ne _ _ _ hx]
      exact h.imp_left fun hm => (List.mem_cons.mp hm).resolve_left hx

theorem fold_modCol_ctxs (F : Dev → Nat → Column → Column) (cs : List Nat) (d : Dev) :
    (cs.foldl (fun d c => d.modCol c (F d c)) d).ctxs = d.ctxs := by
  induction cs generalizing d with
  | nil => rfl
  | cons x cs ih => exact ih _

/-- What the reset of a context does to each column of its partition. -/
def resetColumn (ctx : Nat) (here lift : Bool) (d : Dev) (c : Nat) (k : Column) : Column :=
  let k : Column := { k.reset ctx here (d.free + c * 2 ^ 20) with busyEnd := d.now }
  if lift then { k with halted := false } else k

theorem resetColumn_free (ctx : Nat) (lift : Bool) (d : Dev) (c : Nat) (k : Column) :
    (resetColumn ctx true lift d c k).warps = [] ∧ (resetColumn ctx true lift d c k).FreeOf ctx := by
  obtain ⟨hwarps, hops, hlog⟩ := k.reset_free ctx (d.free + c * 2 ^ 20)
  unfold resetColumn
  cases lift <;> exact ⟨hwarps, hops, hlog⟩

/-- The reset of a context: its columns are reset, its state is empty, and then words and watches of memory are written. -/
theorem contextReset_eq (s : State) (ctx cause code : Nat) (keep : Option (BitVec 64)) :
    ∃ (lift : Bool) (d : Dev) (v : Memory) (words : List (Nat × Nat × Nat × Word)) (claims : List (Nat × List Claim)),
      s.contextReset ctx cause code keep =
        claims.foldl (fun (s : State) x => s.testClaims x.1 x.2) (State.failWords { vault := v, dev := d } ctx words) ∧
      d.cols = ((s.dev.part (s.dev.ctx ctx).part).columns.foldl
        (fun d c => d.modCol c (resetColumn ctx ((s.dev.ctx ctx).state == .resident) lift d c)) s.dev).cols ∧
      (s.dev.ctxs.has ctx = true → d.ctxs = s.dev.ctxs.set ctx { s.dev.ctx ctx with state := .empty }) := by
  have hset (cs : Table Context) (h : s.dev.ctxs.has ctx = true) (hcs : cs = s.dev.ctxs) :
      (if cs.has ctx = true then cs.set ctx { s.dev.ctx ctx with state := .empty } else cs) =
        s.dev.ctxs.set ctx { s.dev.ctx ctx with state := .empty } := by
    subst hcs
    exact if_pos h
  refine ⟨(match (s.dev.part (s.dev.ctx ctx).part).preempt with
    | some q => q.ctx == ctx
    | none => false : Bool) && !(s.dev.part (s.dev.ctx ctx).part).held && !(s.dev.part (s.dev.ctx ctx).part).holdWanted, _, _, _, _, rfl, ?_, fun h => ?_⟩
  · exact ((Dev.record_cols _ _ _).1).trans ((Dev.abandon_cols _ _ _ _ _).1)
  · refine ((Dev.record_cols _ _ _).2).trans (((Dev.abandon_cols _ _ _ _ _).2).trans (hset _ h ?_))
    exact fold_modCol_ctxs (resetColumn ctx ((s.dev.ctx ctx).state == .resident) _) _ _

theorem SameCore.testAll (claims : List (Nat × List Claim)) (s : State) :
    SameCore s.dev (claims.foldl (fun (s : State) x => s.testClaims x.1 x.2) s).dev := by
  induction claims generalizing s with
  | nil => exact .refl _
  | cons x claims ih => exact (SameCore.testClaims s x.1 x.2).trans (ih _)

theorem contextReset_free {s : State} {ctx c : Nat} (cause code : Nat) (keep : Option (BitVec 64)) (hres : (s.dev.ctx ctx).state = .resident)
    (hhas : s.dev.ctxs.has ctx = true) (hc : c ∈ (s.dev.part (s.dev.ctx ctx).part).columns) :
    let u := s.contextReset ctx cause code keep
    (u.dev.ctx ctx).state = .empty ∧ (u.dev.col c).warps = [] ∧ (u.dev.col c).FreeOf ctx := by
  intro u
  obtain ⟨lift, d, v, words, claims, hu, hcols, hctxs⟩ := contextReset_eq s ctx cause code keep
  have hsame : SameCore d u.dev := by
    rw [show u = _ from hu]
    exact (SameCore.failWords ctx words { vault := v, dev := d }).trans (SameCore.testAll claims _)
  have hcol : (d.col c).warps = [] ∧ (d.col c).FreeOf ctx := by
    have hd : d.col c = ((s.dev.part (s.dev.ctx ctx).part).columns.foldl
        (fun d c => d.modCol c (resetColumn ctx true lift d c)) s.dev).col c := by
      rw [hres] at hcols
      unfold Dev.col
      rw [hcols]
      rfl
    rw [hd]
    exact fold_modCol_of_mem (P := fun k : Column => k.warps = [] ∧ k.FreeOf ctx) (fun d c k => resetColumn_free ctx lift d c k) _ _ (.inl hc)
  obtain ⟨hwarps, hops, hlog⟩ := hcol
  refine ⟨?_, (hsame.warps c).trans hwarps, ⟨?_, ?_⟩⟩
  · have := hctxs hhas
    unfold Dev.ctx
    rw [hsame.ctxs, this, Table.getD_set_same]
  · rw [hsame.ops]
    exact hops
  · rw [hsame.log]
    exact hlog

/-- A trap from privileged code resets the context of the warp. -/
theorem State.trapEntry_nested (s : State) (t : TrapInfo) (defer : Bool) (h : s.dev.cur.priv = true) :
    let u := s.contextReset s.dev.curWarp.ctx 7 0 none
    s.trapEntry t defer = { u with dev := { u.dev with issued := .trapped } } := if_pos h

/-! ## Privilege -/

theorem privileged_needed {d : Dev} {needs : Bool} (hp : d.cur.priv = false) (hn : needs = true) : (needs && !d.cur.priv) = true := by
  rw [hp, hn]
  rfl

theorem einfo_of_sr (sr : BitVec 12) : BitVec.ofNat 64 sr.toNat = sr.setWidth 64 := BitVec.ofNat_toNat 64 sr

end Sys2Proof.Machine
end

section
namespace Sys2Proof
open Sys2Proof.Machine

/-- Settles O19. -/
theorem trapsTaken : Obligations.TrapsTaken := by
  refine ⟨?_, ?_, fun f s hp => ⟨fun i hi => ?_, fun hn => ?_, fun hn => ?_, ?_⟩⟩
  · intro f s m
    refine ⟨fun hm p hp hdbg => ?_, brk_stops, fun hm i hi => ?_⟩
    · simp only [List.mem_cons, List.not_mem_nil, or_false] at hp
      rcases hp with rfl | rfl | rfl
      · exact congrArg s.conclude (askTrap_of_act hm 0x20 true)
      · exact congrArg s.conclude (askTrap_of_act hm 0x21 true)
      · exact congrArg s.conclude ((brkIssue_of_no_debugger (hdbg rfl)).trans (askTrap_of_act hm 0x22 false))
    · simp only [List.mem_cons, List.not_mem_nil, or_false] at hi
      rcases hi with rfl | rfl | rfl
      · exact congrArg s.conclude (askTrap_of_none hm 0x20 true)
      · exact congrArg s.conclude (askTrap_of_none hm 0x21 true)
      · exact congrArg s.conclude (brkIssue_of_none hm)
  · intro f s ctx c hpriv hm hres hhas hc
    obtain ⟨hempty, hwarps, hfree⟩ := contextReset_free 7 0 none hres hhas hc
    exact ⟨_, (congrArg s.conclude (askTrap_of_act hm 0x20 true)).trans (congrArg _ (s.trapEntry_nested _ false hpriv)), rfl, hempty, hwarps,
      hfree.ops, hfree.log⟩
  · simp only [List.mem_cons, List.not_mem_nil, or_false] at hi
    have hneeds : (true && !s.dev.cur.priv) = true := privileged_needed hp rfl
    rcases hi with rfl | rfl | rfl | rfl | rfl | rfl | rfl
    iterate 7 exact congrArg s.conclude (if_pos hneeds)
  · rw [← einfo_of_sr]
    exact congrArg s.conclude (if_pos (privileged_needed hp hn))
  · rw [← einfo_of_sr]
    exact congrArg s.conclude (if_pos (privileged_needed hp hn))
  · exact congrArg s.conclude (if_pos (privileged_needed hp rfl))

end Sys2Proof
end

section
/-! Proofs about the frame of a trap (R402, R423): the side log's room, of which the operations that keep their entries there take their share. -/

namespace Sys2Proof.Machine

/-! ## A trap entry that waits for room in the side log -/

/-- An outstanding GPATCH of slot 0: each of its lanes keeps an entry of the side log free (R423). -/
def patchOp : MemOp := Dev.start.newOp .gpatch Fmt.ui32 3 [laneWant 0 0 0 8 0]

/-- A column with an empty side log and 251 outstanding GPATCH: five entries of the log are left for others. -/
def patchColumn : Column := { Column.start with warps := [(0, Warp.start)], ops := List.replicate 251 patchOp }

/-- A launch that gives each lane a window of 24 bytes. -/
def windowLaunch : Launch :=
  { id := 0, ctx := 0, part := 0, rec_ := { Dev.start.launchRec 0 with pwin := 24 }, origin := .loaded, placed := 0, cols := [0], ended := [] }

/-- The vector lines' page, for privileged code alone, and the line of cause 0x20, whose first slot is a target. -/
def vectorVault : Memory :=
  ((Memory.write [] (vkey 0 (8 * 0x3F80)) (bytesOf 8 (1 + placedTable / 256 * 65536))).write (vkey 0 placedTable)
    (bytesOf 8 (0b1011 + 2 ^ 8 + placedPage / 65536 * 65536))).write (vkey 0 (placedPage + 64 * 0x20)) (bytesOf 64 (placedLine 0).toNat)

def patchState : State := { vault := vectorVault, dev := { Dev.start with cols := [(0, patchColumn)], launches := [(0, windowLaunch)] } }

theorem patchState_line : ∃ x, (patchState.fetchLine 0 0 (vectorOff 0x20)).1 = .ok x ∧ x.sys = true ∧ ∀ b, x.line = some b → lineTgt b 0 = true := by
  have h : (match (patchState.fetchLine 0 0 (vectorOff 0x20)).1 with
    | .ok x => x.sys && x.line.all (fun b => lineTgt b 0)
    | .error _ => false) = true := by decide +kernel
  split at h
  · rename_i x hx
    simp only [Bool.and_eq_true, Option.all_eq_true] at h
    exact ⟨x, hx, h⟩
  · cases h

theorem patchState_held : (patchState.trapEntry { cause := 0x20 } false).dev.issued = .held := by decide +kernel

end Sys2Proof.Machine
end

section
namespace Sys2Proof
open Sys2Proof.Machine

/-- Refutes O17. The entry of a trap waits where the side log has fewer than six entries free for its stores (R402), and an outstanding GPATCH takes
one of them as well (R423): the premise bounds the entries alone. With 251 such operations and an empty log the warp is held. -/
theorem not_trapEntryFrame : ¬ Obligations.TrapEntryFrame := by
  intro h
  obtain ⟨x, hx, hsys, hmark⟩ := patchState_line
  obtain ⟨htrapped, -⟩ := h patchState { cause := 0x20 } false x rfl (by decide) (by decide) (by decide) hx hsys hmark
  rw [patchState_held] at htrapped
  cases htrapped

end Sys2Proof
end

section
/-! Proofs about the reservations through a window (R235): an instruction that would be a warp's fifth waits. -/

namespace Sys2Proof.Machine

/-- An instruction that ends in a finish is held, with nothing changed, where it would be the fifth indirect reservation. -/
theorem held_of_fifthWindow {i : Instr} {f : VFields} {s : State} {x : VCtx} {us : List Use} {r : Result} {post : Dev → Dev}
    (hi : exec i s = s.conclude (x.finish f us none [] r post)) (hd : x.d = s.dev) (hfifth : x.fifthWindow f.d = true)
    (hready : x.notReady us = false) (hchecks : x.checks f.h.u (dstBound x.regs f.d :: x.bounds us) (x.dstWin f.d) us none [] = none) :
    exec i s = .next { s with dev := { s.dev with issued := .held } } := by
  have hf : x.finish f us none [] r post = .hold s.dev := by
    exact (Issue.of_checks hready hchecks).trans ((if_pos hfifth).trans (congrArg Issue.hold hd))
  rw [hi, hf, State.conclude_hold]

theorem ldsIssue_fifth {f : MFields} {s : State} :
    let x := vctx s.dev f.h [dstOperand f.dat]
    let col := s.dev.curCol
    let a := x.spadAdr f.adr
    let n := accessBytes f.size.toNat
    let off := spadOff a f.offset
    x.act ≠ 0 → col.acquiring s.dev.cur.slot = false → x.fifthWindow f.dat = true → x.notReady [Use.ptr a] = false →
    firstTrap [x.datBound f.dat (accessRegs f.size.toNat), a.boundCheck x.regs, (Use.ptr a).tagCheck, x.dstWin f.dat, spadBound col x.act off n,
      spadAlign x.act off n, a.poisCheck x.act] = none →
      ldsIssue f s = .hold s.dev := by
  intro x col a n off hact hacq hfifth hready hchecks
  have hacq' : ¬ s.dev.curCol.acquiring s.dev.cur.slot = true := by
    rw [hacq]
    exact Bool.false_ne_true
  have hwait : (!x.w.loadRoom || x.fifthWindow f.dat) = true := by rw [hfifth, Bool.or_true]
  exact (if_neg hact).trans ((Issue.of_checks hready hchecks).trans ((if_neg hacq').trans (if_pos hwait)))

end Sys2Proof.Machine
end

section
namespace Sys2Proof
open Sys2Proof.Machine

/-- Settles O35. -/
theorem fifthWindowWaits : Obligations.FifthWindowWaits := by
  refine ⟨?_, ?_⟩
  · intro f s x t a b y m waits
    refine ⟨fun i hi _ hfifth hready hchecks => ?_, fun i hi _ hfifth hready hchecks => ?_, fun _ hfifth hready hchecks => ?_,
      fun _ hfifth hready hchecks => ?_⟩
    · simp only [List.mem_cons, List.not_mem_nil, or_false] at hi
      rcases hi with rfl | rfl | rfl | rfl | rfl | rfl
      iterate 6 exact held_of_fifthWindow rfl rfl hfifth hready hchecks
    · simp only [List.mem_cons, List.not_mem_nil, or_false] at hi
      rcases hi with rfl | rfl | rfl | rfl | rfl | rfl | rfl | rfl
      iterate 8 exact held_of_fifthWindow rfl rfl hfifth hready hchecks
    · exact held_of_fifthWindow rfl rfl hfifth hready hchecks
    · have huse : copyUse f (y.movSrc f) = if t == Fmt.raw then { src := m, want := none, one := true } else Use.of m t := by
        simp only [copyUse_eq, beq_iff_eq]
        rfl
      rw [← huse] at hready hchecks
      exact held_of_fifthWindow (exec_mov_eq f s) rfl hfifth hready hchecks
  · intro f s x col a n off hact hacq _ hfifth hready hchecks
    exact congrArg s.conclude (ldsIssue_fifth hact hacq hfifth hready hchecks)

end Sys2Proof
end

section
/-! Proofs about turns (R73, R83, R97-R100, R123, R366): what an issue opportunity and a stagehand's turn run. -/

namespace Sys2Proof.Machine

/-! ## A column's turn -/

theorem runOne_of_decode {s u : State} {w : Insn} {i : Instr} (hd : decode w = .ok i) (hx : exec i s = .next u) : s.runOne w = u := by
  unfold State.runOne
  rw [hd]
  exact congrArg (nextOr s) hx

/-- A word that decodes passes every check. -/
theorem candidate_of_decode {w : Insn} {i : Instr} (h : decode w = .ok i) : staticErr w = none ∧ candidate w = some i := by
  obtain ⟨hc, hok⟩ := decode_eq_ok_iff.mp h
  exact ⟨(staticErr_eq_none_iff hc).mpr hok, hc⟩

theorem runPair_of_decode {s a e u : State} {v w : Insn} {i k : Instr} (hv : decode v = .ok i) (hw : decode w = .ok k) (hp : pairOk i k = true)
    (ha : exec i (s.place true false) = .next a) (har : a.dev.issued = .retired) (he : exec k ((s.place true false).place true true) = .next e)
    (her : e.dev.issued = .retired) (hu : exec k (a.place true true) = .next u) : s.runPair v w = u := by
  obtain ⟨hsv, hcv⟩ := candidate_of_decode hv
  obtain ⟨hsw, hcw⟩ := candidate_of_decode hw
  have hfirst : (s.place true false).runOne v = a := runOne_of_decode hv ha
  have halone : (s.place true false).runSecond w = e := runOne_of_decode hw he
  have hsecond : a.runSecond w = u := runOne_of_decode hw hu
  unfold State.runPair
  simp [hsv, hsw, hcv, hcw, hp, hfirst, halone, hsecond, har, her]

/-- The word of a line that is fetched: run under the page's privilege. -/
theorem runFetched_of_line {s : State} {x : Fetched} {b : BitVec 512} (hline : x.line = some b) (hpriv : x.sys = true → s.dev.curWarp.privMode = true)
    (hdef : s.dev.curWarp.deferred = []) (hbad : lineBad b = false) :
    s.runFetched x =
      if linePair b (pcSlot s.dev.curWarp.pc) = true then
        (s.setPriv x.sys).runPair (lineInsn b (pcSlot s.dev.curWarp.pc)) (lineInsn b (pcSlot s.dev.curWarp.pc + 1))
      else (s.setPriv x.sys).runOne (lineInsn b (pcSlot s.dev.curWarp.pc)) := by
  have hp : ¬ (x.sys && !s.dev.curWarp.privMode) = true := by
    cases hx : x.sys
    · simp
    · simp [hpriv hx]
  unfold State.runFetched
  simp only [hp, hline, hdef, State.runLine, hbad, Bool.false_eq_true, if_false]

theorem tryIssue_of_fetch {s : State} {c slot : Nat} {x : Fetched} {d : Dev} (hpc : pcInRange (s.issuing c slot).dev.curWarp.pc = true)
    (hf : (s.issuing c slot).fetchLine c (s.issuing c slot).dev.curWarp.ctx (pcLine (s.issuing c slot).dev.curWarp.pc) = (.ok x, d)) :
    s.tryIssue c slot = ({ s.issuing c slot with dev := d } : State).runFetched x := by
  unfold State.tryIssue
  simp only [hpc, hf, Bool.not_true, Bool.false_eq_true, if_false]

/-- An open opportunity whose highest-ranked warp's word issues or traps ends with that word's effect. -/
theorem issueTurn_of_first {s u : State} {c slot : Nat} {others : List Nat} (hopen : (s.dev.fresh c).opens c = true) :
    let o := ({ s with dev := s.dev.fresh c } : State).openTurn c
    let s2 : State := { o with dev := o.dev.modCol c Column.clearYld }
    o.dev.ranked c = slot :: others → s2.tryIssue c slot = u → u.dev.issued ≠ .held →
      s.issueTurn c = u.issueDone c (some slot) ((s2.lookAt c others).2 ++ (o.dev.col c).readied) others := by
  intro o s2 hrank hu hheld
  have hh : (u.dev.issued == Issued.held) = false := by simpa using hheld
  have htry : s2.tryWarps c (o.dev.ranked c) = (s2, u, some (slot, others)) := by
    rw [hrank, State.tryWarps, hu]
    simp only [hh, Bool.false_eq_true, if_false]
  unfold State.issueTurn
  simp only [hopen, Bool.not_true, Bool.false_eq_true, if_false]
  rw [show ({ o with dev := o.dev.modCol c Column.clearYld } : State).tryWarps c (o.dev.ranked c) = _ from htry]

/-! ## A stagehand's turn -/

theorem handRun_of_decode {s u : State} {c : Nat} {i : Instr} (hlen : (s.dev.col c).hand.pc < (s.dev.col c).hand.ilen)
    (hd : decodeHand ((s.dev.col c).hand.prog.getD (s.dev.col c).hand.pc 0) = .ok i)
    (hrow : ∀ f, isRowOp i = some f → (s.dev.col c).hand.banks.rowWaits s.dev.now ((s.dev.col c).hand.addr f / 1024 % 32) = false)
    (hx : exec i { s with dev := { s.dev with cur := { s.dev.cur with col := c } } } = .next u) :
    s.handRun c = { u with dev := u.dev.modHand c (fun g => g.busyFor s.dev.now (handTicks i)) } := by
  unfold State.handRun
  simp only [Nat.not_le.mpr hlen, if_false, hd, hx, nextOr]
  split
  · rename_i f hf
    have hfree : ¬ (s.dev.col c).hand.banks.rowWaits s.dev.now (bankOf ((s.dev.col c).hand.addr f)) = true := by
      rw [bankOf, hrow f hf]
      exact Bool.false_ne_true
    exact if_neg hfree
  · rfl

theorem handTurn_of_decode {s u : State} {c : Nat} {i : Instr} :
    let r : State := { s with dev := s.dev.resumeHand c }
    let h := (r.dev.col c).hand
    h.running ≠ none → (h.wait = .none ∨ h.wait = .aqsvc) → h.banks.ready r.dev.now = true → h.pc < h.ilen →
    decodeHand (h.prog.getD h.pc 0) = .ok i → (∀ f, isRowOp i = some f → h.banks.rowWaits r.dev.now (h.addr f / 1024 % 32) = false) →
    exec i { r with dev := { r.dev with cur := { r.dev.cur with col := c } } } = .next u →
      s.handTurn c = { u with dev := (u.dev.modHand c (fun g => g.busyFor r.dev.now (handTicks i))).tick 1 } := by
  intro r h hrun hwait hready hlen hd hrow hx
  have hgo : r.handRun c = { u with dev := u.dev.modHand c (fun g => g.busyFor r.dev.now (handTicks i)) } :=
    handRun_of_decode hlen hd hrow hx
  obtain ⟨p, hp⟩ := Option.ne_none_iff_exists'.mp hrun
  unfold State.handTurn
  dsimp only
  rw [show (({ s with dev := s.dev.resumeHand c } : State).dev.col c).hand = h from rfl, hp]
  rcases hwait with hw | hw
  · rw [hw]
    dsimp only
    rw [if_pos hready, show State.handRun _ c = _ from hgo]
  · rw [hw]
    dsimp only
    rw [if_pos hready, show State.handRun _ c = _ from hgo]

/-! ## The step -/

/-- A step takes the first turn of the environment's schedule. -/
theorem step_of_agenda (s : State) (t : Turn) (rest : List Turn) :
    let s1 : State := { s with dev := { s.dev with agenda := rest } }
    s.dev.agenda = t :: rest → step s = match t with
      | .tick n => .next { s1 with dev := s1.dev.tick n }
      | .issue c => .next (s1.issueTurn c)
      | .hand c => .next (s1.handTurn c)
      | .event i => if i.isColumn || i.hand.isSome then .next s1 else exec i s1
      | .error e => .next (s1.hwError e)
      | .ask a => .next (s1.answer a) := by
  intro s1 h
  unfold step
  split
  · rename_i hnil
    rw [h] at hnil
    cases hnil
  · rename_i t' rest' hcons
    rw [h] at hcons
    cases hcons
    cases t <;> rfl

end Sys2Proof.Machine
end

section
namespace Sys2Proof
open Sys2Proof.Machine

/-- Settles O56. -/
theorem stepRunsDecodedInstruction : Obligations.StepRunsDecodedInstruction := by
  intro s t rest hag s1
  have hstep := step_of_agenda s t rest hag
  refine ⟨?_, ?_, ?_, ?_, ?_, ?_⟩
  · rintro c slot others rfl hopen o s2 s3 pc hrank x d b hpc hfetch hline hbad hpriv hdef s4 j over_
    have htry : s2.tryIssue c slot = ({ s3 with dev := d } : State).runFetched x := tryIssue_of_fetch hpc hfetch
    have hrun := runFetched_of_line (s := { s3 with dev := d }) hline hpriv hdef hbad
    refine ⟨fun i u hsingle hd hx hu => ?_, fun i k a e u hpair hv hw hp ha har he her hx hu => ?_⟩
    · have hone : s4.runOne (lineInsn b j) = u := runOne_of_decode hd hx
      have hns : ¬ linePair b (pcSlot d.curWarp.pc) = true := by
        rw [show linePair b (pcSlot d.curWarp.pc) = false from hsingle]
        exact Bool.false_ne_true
      rw [if_neg hns] at hrun
      exact hstep.trans (congrArg _ (issueTurn_of_first hopen hrank (htry.trans (hrun.trans hone)) hu))
    · have htwo : s4.runPair (lineInsn b j) (lineInsn b (j + 1)) = u := runPair_of_decode hv hw hp ha har he her hx
      rw [if_pos (show linePair b (pcSlot d.curWarp.pc) = true from hpair)] at hrun
      exact hstep.trans (congrArg _ (issueTurn_of_first hopen hrank (htry.trans (hrun.trans htwo)) hu))
  · rintro c i u rfl r h hrun hwait hready hlen hd hrow hx
    exact hstep.trans (congrArg _ (handTurn_of_decode hrun hwait hready hlen hd hrow hx))
  · rintro i rfl hcol hhand
    have hown : ¬ (i.isColumn || i.hand.isSome) = true := by simp [hcol, hhand]
    exact hstep.trans (if_neg hown)
  · rintro n rfl
    exact hstep
  · rintro e rfl
    exact hstep
  · rintro a rfl
    exact hstep

end Sys2Proof
end

section
/-! Proofs about the stagehand's registers (R362, R365, R366). -/

namespace Sys2Proof.Machine

/-! ## The scalar registers -/

theorem Hand.hreg_zero (h : Hand) : h.hreg 0 = 0 := rfl

theorem Hand.setH_zero (h : Hand) (v : BitVec 64) : h.setH 0 v = h := rfl

theorem Hand.hreg_setH_same (h : Hand) {r : BitVec 5} (v : BitVec 64) (hr : r ≠ 0) : (h.setH r v).hreg r = v := by
  rw [Hand.hreg, if_neg hr, Hand.setH, if_neg hr]
  exact Vector.getElem_set_self r.isLt

theorem Hand.hreg_setH_ne (h : Hand) {r q : BitVec 5} (v : BitVec 64) (hq : q ≠ r) : (h.setH r v).hreg q = h.hreg q := by
  by_cases hr : r = 0
  · rw [hr, Hand.setH_zero]
  · rw [Hand.hreg, Hand.hreg, Hand.setH, if_neg hr]
    split
    · rfl
    · exact Vector.getElem_set_ne r.isLt q.isLt fun e => hq (BitVec.eq_of_toNat_eq e).symm

theorem Hand.setH_pc (h : Hand) (r : BitVec 5) (v : BitVec 64) : (h.setH r v).pc = h.pc := by
  unfold Hand.setH
  split <;> rfl

/-! ## Instructions that change registers alone -/

theorem State.handDo_eq (s : State) (g : Hand → Hand) : s.handDo g = .next (s.putHand (g s.hand).next) := rfl

/-- An instruction that writes a scalar register and no other. -/
theorem handDo_setH {i : Instr} {s : State} {r : BitVec 5} {v : BitVec 64} (g : Hand → BitVec 64)
    (hi : exec i s = s.handDo (fun h => h.setH r (g h))) (hv : g s.hand = v) :
    exec i s = .next (s.putHand { s.hand.setH r v with pc := s.hand.pc + 1 }) := by
  rw [hi, State.handDo_eq, hv, Hand.next, Hand.setH_pc]

theorem qLane_qTab (g : Nat → Word) {l : Nat} (hl : l < 16) : qLane (qTab g) l = g l := by
  simp [qLane, qTab, Nat.mod_eq_of_lt hl]

/-- A vector instruction writes the lanes that its rule gives. -/
theorem handDo_qTab {i : Instr} {s : State} {r : BitVec 5} {v : Nat → Word} (g : Hand → Nat → Word)
    (hi : exec i s = s.handDo (fun h => h.setQ r (qTab (g h)))) (hv : g s.hand = v) :
    ∃ q : Vector Word 16, (∀ l, l < 16 → qLane q l = v l) ∧ exec i s = .next (s.putHand { s.hand.setQ r q with pc := s.hand.pc + 1 }) :=
  ⟨qTab (g s.hand), fun _ hl => hv ▸ qLane_qTab _ hl, hi⟩

/-- HLI's upper half beside the lower half that stands. -/
theorem append_low_half (imm : BitVec 32) (v : BitVec 64) : (imm ++ v.extractLsb' 0 32 : BitVec 64) = BitVec.ofNat 64 (imm.toNat * 2 ^ 32 + v.toNat % 2 ^ 32) := by
  refine BitVec.eq_of_toNat_eq ?_
  have hi := imm.isLt
  rw [BitVec.toNat_append, BitVec.extractLsb'_toNat, BitVec.toNat_ofNat, Nat.shiftRight_zero,
    ← Nat.shiftLeft_add_eq_or_of_lt (Nat.mod_lt _ (by decide)), Nat.shiftLeft_eq]
  omega

/-- HLOGIC, HSHIFT and HLI under each X. -/
theorem hand_scalars (f : HFields) (s : State) :
    let h := s.hand
    let a := h.hreg f.s
    let b := h.hreg f.t
    let imm := f.imm.signExtend 64
    let n := ((b + imm).extractLsb' 0 6).toNat
    let puts (i : Instr) (v : BitVec 64) : Prop := exec i s = .next (s.putHand { h.setH f.d v with pc := h.pc + 1 })
    (f.x = 0 → puts (.hlogic f) (a &&& b) ∧ puts (.hshift f) (a <<< n) ∧ puts (.hli f) imm) ∧
    (f.x = 1 → puts (.hlogic f) (a ||| b) ∧ puts (.hshift f) (a >>> n) ∧
      puts (.hli f) (BitVec.ofNat 64 (f.imm.toNat * 2 ^ 32 + (h.hreg f.d).toNat % 2 ^ 32))) ∧
    (f.x = 2 → puts (.hlogic f) (a ^^^ b) ∧ puts (.hshift f) (a.sshiftRight n)) := by
  intro h a b imm n puts
  have logic : ∀ v, (if f.x = 0 then a &&& b else if f.x = 1 then a ||| b else a ^^^ b) = v → puts (.hlogic f) v :=
    fun v hv => handDo_setH _ rfl hv
  have shift : ∀ v, (if f.x = 0 then a <<< n else if f.x = 1 then a >>> n else a.sshiftRight n) = v → puts (.hshift f) v :=
    fun v hv => handDo_setH _ rfl hv
  have li : ∀ v, (if f.x = 0 then imm else f.imm ++ (h.hreg f.d).extractLsb' 0 32) = v → puts (.hli f) v :=
    fun v hv => handDo_setH _ rfl hv
  refine ⟨fun hx => ⟨logic _ ?_, shift _ ?_, li _ ?_⟩, fun hx => ⟨logic _ ?_, shift _ ?_, li _ ?_⟩, fun hx => ⟨logic _ ?_, shift _ ?_⟩⟩
  all_goals simp [hx, append_low_half]

/-! ## Branches -/

theorem handCond_iff (x : BitVec 3) (a b : BitVec 64) : x ≤ 6 →
    (handCond x a b = true ↔ (x = 0 ∧ a = b) ∨ (x = 1 ∧ a ≠ b) ∨ (x = 2 ∧ a.toInt < b.toInt) ∨ (x = 3 ∧ b.toInt ≤ a.toInt) ∨
      (x = 4 ∧ a.toNat < b.toNat) ∨ (x = 5 ∧ b.toNat ≤ a.toNat) ∨ x = 6) := by
  intro hx
  have hcases : x = 0 ∨ x = 1 ∨ x = 2 ∨ x = 3 ∨ x = 4 ∨ x = 5 ∨ x = 6 := by
    revert x
    decide
  rcases hcases with rfl | rfl | rfl | rfl | rfl | rfl | rfl <;> simp [handCond]

theorem exec_hbr_taken {f : HFields} {s : State} (h : handCond f.x (s.hand.hreg f.s) (s.hand.hreg f.t) = true) :
    exec (.hbr f) s = .next (s.putHand { s.hand with pc := (((s.hand.pc : Int) + f.imm.toInt) % 8192).toNat }) :=
  congrArg (fun h => Host.Outcome.next (s.putHand h)) (if_pos h)

theorem exec_hbr_not_taken {f : HFields} {s : State} (h : ¬ handCond f.x (s.hand.hreg f.s) (s.hand.hreg f.t) = true) :
    exec (.hbr f) s = .next (s.putHand { s.hand with pc := s.hand.pc + 1 }) :=
  congrArg (fun h => Host.Outcome.next (s.putHand h)) (if_neg h)

/-- HLOOP's hand. -/
theorem exec_hloop_eq (f : HFields) (s : State) :
    let g := s.hand.setH f.d (s.hand.hreg f.d - 1)
    exec (.hloop f) s = .next (s.putHand (if g.hreg f.d = 0 then g.next else g.branch f.imm)) := rfl

theorem exec_hloop_of_zero {f : HFields} {s : State} (h : (s.hand.setH f.d (s.hand.hreg f.d - 1)).hreg f.d = 0) :
    exec (.hloop f) s = .next (s.putHand { s.hand.setH f.d (s.hand.hreg f.d - 1) with pc := s.hand.pc + 1 }) := by
  rw [exec_hloop_eq, if_pos h, Hand.next, Hand.setH_pc]

theorem exec_hloop_of_nonzero {f : HFields} {s : State} (h : (s.hand.setH f.d (s.hand.hreg f.d - 1)).hreg f.d ≠ 0) :
    exec (.hloop f) s = .next (s.putHand { s.hand.setH f.d (s.hand.hreg f.d - 1) with
      pc := (((s.hand.pc : Int) + f.imm.toInt) % 8192).toNat }) := by
  rw [exec_hloop_eq, if_neg h, Hand.branch, Hand.setH_pc]

/-! ## Vector instructions -/

theorem exec_qins {f : HFields} {s : State} (hx : f.x = 0) :
    exec (.qinsQext f) s = s.handDo (fun h => h.setQ f.d (qTab (fun l =>
      if l = f.imm.toNat % 16 then (h.hreg f.s).extractLsb' 0 32 else qLane (h.qreg f.d) l))) :=
  congrArg s.handDo (funext fun _ => if_pos hx)

theorem exec_qext {f : HFields} {s : State} (hx : f.x ≠ 0) :
    exec (.qinsQext f) s = s.handDo (fun h => h.setH f.d ((qLane (h.qreg f.s) (f.imm.toNat % 16)).setWidth 64)) :=
  congrArg s.handDo (funext fun _ => if_neg hx)

end Sys2Proof.Machine
end

section
namespace Sys2Proof
open Sys2Proof.Machine

/-- Settles O42. -/
theorem handRegisters : Obligations.HandRegisters := by
  refine ⟨?_, ?_, ?_⟩
  · intro f s h a b imm n puts
    obtain ⟨hx0, hx1, hx2⟩ := hand_scalars f s
    exact ⟨h.hreg_zero, h.setH_zero, fun r v hr => ⟨h.hreg_setH_same v hr, fun q hq => h.hreg_setH_ne v hq⟩, handDo_setH _ rfl rfl,
      handDo_setH _ rfl rfl, handDo_setH _ rfl rfl, hx0, hx1, hx2, handDo_setH _ rfl rfl⟩
  · intro f s h a b target taken v
    refine ⟨fun ht => ?_, fun hx ht => ?_, fun hd hv => ?_, fun hd hv => ?_, fun hd => ?_⟩
    · have hx : f.x ≤ 6 := by
        rcases ht with h | h | h | h | h | h | h
        iterate 6
          rw [h.1]
          decide
        rw [h]
        decide
      exact exec_hbr_taken ((handCond_iff f.x a b hx).mpr ht)
    · exact exec_hbr_not_taken fun hc => ht ((handCond_iff f.x a b hx).mp hc)
    · refine exec_hloop_of_nonzero ?_
      rw [Hand.hreg_setH_same _ _ hd]
      exact hv
    · refine exec_hloop_of_zero ?_
      rw [Hand.hreg_setH_same _ _ hd]
      exact hv
    · have hz : (h.setH f.d (h.hreg f.d - 1)) = h := by rw [hd, Hand.setH_zero]
      have := exec_hloop_of_zero (f := f) (s := s) (by rw [show s.hand.setH f.d (s.hand.hreg f.d - 1) = h from hz, hd]; rfl)
      rw [show s.hand.setH f.d (s.hand.hreg f.d - 1) = h from hz] at this
      exact this
  · intro f s h rm av bv dv hv lo round puts putsH
    refine ⟨?_, ?_, ?_, ?_, ?_, ?_, ?_, ?_, handDo_setH _ rfl rfl, fun hx => handDo_qTab _ (exec_qins hx) rfl,
      fun hx => handDo_setH _ (exec_qext hx) rfl⟩
    iterate 8 exact handDo_qTab _ rfl rfl

end Sys2Proof
end

section
/-! Proofs about releases and fences (R252-R255, R264, R379). -/

namespace Sys2Proof.Machine

/-! ## An issue that retires after a change of the device -/

theorem Dev.curWarp_advance (d : Dev) : d.advance.curWarp = { d.curWarp with pc := d.cur.pc + (if d.cur.second then 2 else 1) } :=
  Dev.curWarp_modCurWarp _ _

theorem Dev.curCol_advance (d : Dev) :
    d.advance.curCol = d.curCol.putWarp d.cur.slot { d.curWarp with pc := d.cur.pc + (if d.cur.second then 2 else 1) } :=
  Dev.curCol_modCurWarp _ _

/-- An issue that changes no register and no predicate, and advances. -/
theorem Issues.of_advance {s : State} {d : Dev} (hcur : d.cur = s.dev.cur) (hregs : d.curWarp.regs = s.dev.curWarp.regs)
    (hpreds : d.curWarp.preds = s.dev.curWarp.preds) : Issues s { s with dev := { d.advance with issued := .retired } } := by
  have hw : ({ d.advance with issued := .retired } : Dev).curWarp = _ := d.curWarp_advance
  refine ⟨rfl, rfl, ?_, ?_, ?_⟩
  · rw [hw, hcur]
    rfl
  · rw [hw]
    exact hregs
  · rw [hw]
    exact hpreds

/-! ## Releases -/

theorem Dev.release_of_over {d : Dev} {m : BitVec 7} (h : d.curWarp.relDone = true ∨ d.curCol.released d.cur.slot m d.now = true)
    (go : Dev → Issue) : d.release m go = go (d.afterRelease true) := by
  refine (if_pos ?_).trans rfl
  rw [Bool.or_eq_true]
  exact h

theorem Dev.release_of_pending {d : Dev} {m : BitVec 7} (h : ¬ (d.curWarp.relDone = true ∨ d.curCol.released d.cur.slot m d.now = true))
    (go : Dev → Issue) : d.release m go = .hold (d.stay (.release m)) := by
  refine if_neg ?_
  rw [Bool.or_eq_true]
  exact h

theorem Dev.afterRelease_cur (d : Dev) (on : Bool) : (d.afterRelease on).cur = d.cur := by cases on <;> rfl

theorem Dev.curWarp_afterRelease (d : Dev) :
    (d.afterRelease true).curWarp = { d.curWarp with relDone := false, wait := .none } :=
  d.curWarp_modCurWarp (fun w => { w with relDone := false, wait := .none })

/-- What a release leaves of the issuing warp. -/
theorem Dev.afterRelease_warp (d : Dev) (on : Bool) :
    (d.afterRelease on).curWarp = { d.curWarp with
      relDone := (d.afterRelease on).curWarp.relDone, wait := (d.afterRelease on).curWarp.wait } := by
  cases on
  · rfl
  · rw [Dev.curWarp_afterRelease]

/-- What a release leaves of the issuing column. -/
theorem Dev.afterRelease_col (d : Dev) (on : Bool) :
    (d.afterRelease on).curCol = { d.curCol with warps := (d.afterRelease on).curCol.warps } := by
  cases on
  · rfl
  · rw [Dev.afterRelease, if_pos rfl, Dev.curCol_modCurWarp]
    rfl

/-! ## Fences -/

/-- The acquire of a fence, where it has one. -/
def Dev.fenceAcquire (d : Dev) (on : Bool) : Dev := if on then d.modCurCol (fun k => k.acquire d.curWarp.ctx) else d

theorem fenceIssue_over {f : MFields} {s : State} (hs : s.selected f.h)
    (hrel : s.dev.releaseOver (f.ord.getLsbD 1) (s.dev.curWarp.obsMask f.obs)) (hloads : f.ord.getLsbD 0 = true → s.dev.curWarp.loads = 0) :
    fenceIssue f s = .retire ((s.dev.afterRelease (f.ord.getLsbD 1)).fenceAcquire (f.ord.getLsbD 0)).advance := by
  have hacq (on : Bool) : (if f.ord.getLsbD 0 = true then
        if (s.dev.afterRelease on).curWarp.loads = 0 then
          Issue.retire ((s.dev.afterRelease on).modCurCol (fun k => k.acquire (s.dev.afterRelease on).curWarp.ctx)).advance
        else .hold (s.dev.afterRelease on)
      else .retire (s.dev.afterRelease on).advance) = .retire ((s.dev.afterRelease on).fenceAcquire (f.ord.getLsbD 0)).advance := by
    by_cases h0 : f.ord.getLsbD 0 = true
    · have hl : (s.dev.afterRelease on).curWarp.loads = 0 := by
        rw [Dev.afterRelease_warp]
        exact hloads h0
      rw [if_pos h0, if_pos hl, Dev.fenceAcquire, if_pos h0]
    · rw [if_neg h0, Dev.fenceAcquire, if_neg h0]
  rw [fenceIssue, s.whole_of_selected hs]
  by_cases h1 : f.ord.getLsbD 1 = true
  · simp only [h1, if_true]
    rw [Dev.release_of_over (hrel h1)]
    exact hacq true
  · simp only [Bool.not_eq_true] at h1
    simp only [h1, Bool.false_eq_true, if_false]
    exact hacq false

theorem fenceIssue_pending {f : MFields} {s : State} (hs : s.selected f.h)
    (hrel : ¬ s.dev.releaseOver (f.ord.getLsbD 1) (s.dev.curWarp.obsMask f.obs)) :
    fenceIssue f s = .hold (s.dev.stay (.release (s.dev.curWarp.obsMask f.obs))) := by
  obtain ⟨h1, hnot⟩ := Classical.not_imp.mp hrel
  rw [fenceIssue, s.whole_of_selected hs]
  simp only [h1, if_true]
  exact Dev.release_of_pending hnot _

theorem fenceIssue_loads {f : MFields} {s : State} (hs : s.selected f.h) (h1 : f.ord.getLsbD 1 = false) (h0 : f.ord.getLsbD 0 = true)
    (hl : s.dev.curWarp.loads ≠ 0) : fenceIssue f s = .hold s.dev := by
  rw [fenceIssue, s.whole_of_selected hs]
  simp only [h1, Bool.false_eq_true, if_false, h0, if_true, hl]

theorem exec_ofence_eq {f : XFields} {s : State} (hs : s.selected f.h) :
    exec (.ofence f) s = s.conclude (if s.dev.curCol.ordered s.dev.cur.slot then .retire s.dev.advance else .hold s.dev) :=
  congrArg s.conclude (s.whole_of_selected hs _)

theorem exec_nmfence_eq {f : MFields} {s : State} (hs : s.selected f.h) :
    exec (.nmfence f) s = s.conclude (if s.dev.curWarp.nmPending = 0 ∧ (s.dev.curWarp.obsMask f.obs = 0 ∨ s.dev.curWarp.nmTime ≤ s.dev.now)
      then .retire s.dev.advance else .hold s.dev) :=
  congrArg s.conclude (s.whole_of_selected hs _)

theorem Dev.fenceAcquire_warp (d : Dev) (on : Bool) : (d.fenceAcquire on).curWarp = d.curWarp := by
  cases on
  · rfl
  · exact d.curWarp_modCurCol (fun k => k.acquire d.curWarp.ctx)

theorem Dev.fenceAcquire_col (d : Dev) (on : Bool) :
    (d.fenceAcquire on).curCol = if on then d.curCol.acquire d.curWarp.ctx else d.curCol := by
  cases on
  · rfl
  · exact d.curCol_modCurCol (fun k => k.acquire d.curWarp.ctx)

theorem exec_fence_over {f : MFields} {s : State} (hs : s.selected f.h)
    (hrel : s.dev.releaseOver (f.ord.getLsbD 1) (s.dev.curWarp.obsMask f.obs)) (hloads : f.ord.getLsbD 0 = true → s.dev.curWarp.loads = 0) :
    ∃ u, exec (.fence f) s = .next u ∧ Issues s u ∧
      u.dev.curCol.l1 = if f.ord.getLsbD 0 then (s.dev.curCol.acquire s.dev.curWarp.ctx).l1 else s.dev.curCol.l1 := by
  generalize hr : s.dev.afterRelease (f.ord.getLsbD 1) = r
  have hwarp := s.dev.afterRelease_warp (f.ord.getLsbD 1)
  have hcol := s.dev.afterRelease_col (f.ord.getLsbD 1)
  have hcur := s.dev.afterRelease_cur (f.ord.getLsbD 1)
  have hi : exec (.fence f) s = _ := congrArg s.conclude (fenceIssue_over hs hrel hloads)
  rw [hr] at hwarp hcol hcur hi
  refine ⟨_, hi, .of_advance ?_ ?_ ?_, ?_⟩
  · cases f.ord.getLsbD 0 <;> exact hcur
  · rw [Dev.fenceAcquire_warp, hwarp]
  · rw [Dev.fenceAcquire_warp, hwarp]
  · change (Dev.advance _).curCol.l1 = _
    rw [Dev.curCol_advance, Dev.fenceAcquire_col]
    cases f.ord.getLsbD 0
    · exact (congrArg Column.l1 hcol :)
    · change (r.curCol.acquire r.curWarp.ctx).l1 = _
      rw [hcol, hwarp]
      rfl

end Sys2Proof.Machine
end

section
namespace Sys2Proof
open Sys2Proof.Machine

/-- Settles O28. -/
theorem fencesWait : Obligations.FencesWait := by
  intro f g s w only held
  refine ⟨exec_fence_over, fun hs hrel => congrArg s.conclude (fenceIssue_pending hs hrel),
    fun hs h1 h0 hl => congrArg s.conclude (fenceIssue_loads hs h1 h0 hl), fun hs ho => ?_, fun hs ho => ?_, fun hs hp ht => ?_, fun hs hn => ?_⟩
  · exact (exec_ofence_eq hs).trans (congrArg s.conclude (if_pos ho))
  · exact (exec_ofence_eq hs).trans (congrArg s.conclude (if_neg (by rw [ho]; exact Bool.false_ne_true)))
  · exact (exec_nmfence_eq hs).trans (congrArg s.conclude (if_pos ⟨hp, ht⟩))
  · exact (exec_nmfence_eq hs).trans (congrArg s.conclude (if_neg hn))

end Sys2Proof
end

section
/-! Proofs about the domain barriers (R268, R269): who counts as living where the issuing slot has no warp. -/

namespace Sys2Proof.Machine

/-! ## A barrier whose phase is full before the release and not after it -/

/-- A launch on column 0 whose levels have one placement group of one warp. -/
def groupLaunch : Launch :=
  { id := 0, ctx := 0, part := 0,
    rec_ := { Dev.start.launchRec 0 with nlev := 2, levels := [{ scope := 0, dom := 3, ext := 1 }, { scope := 0, dom := 2, ext := 1 }] },
    origin := .loaded, placed := 0, cols := [0], ended := [] }

/-- A column without warps, on which that launch's one participant has ended: a channel's phase is full with no arrival. -/
def endedState : State := { vault := [], dev := { Dev.start with cols := [(0, Column.start)], launches := [(0, groupLaunch)] } }

/-- BARD.sync of the launch's domain, without a guard. -/
def syncFields : XFields := { h := nopFields.h, d := 0, a := { ind := false, reg := 0, pat := 0, k := 0 }, dom := 3, pk := 0, pp := 1, num := 0, lsp := 0, sub := 0 }

theorem endedState_full : endedState.dev.bardFull (endedState.dev.bard 0 0 0) = true := by decide +kernel

theorem endedState_arrives : (match exec (.bard syncFields) endedState with
    | .next u => u.dev.curWarp.park
    | _ => .none) = .bard 0 0 0 := by decide +kernel

end Sys2Proof.Machine
end

section
namespace Sys2Proof
open Sys2Proof.Machine

/-- Refutes O29, in its clause of a BARD at a full phase, which lacks the premise that the issuing slot has its warp. The release writes the
issuing warp's record. In `endedState` the slot has none: the channel's one participant has ended, so that its phase is full; the release makes a
record in the slot, which then counts as a participant that lives and has not arrived, and BARD arrives instead. -/
theorem not_barrierArrivals : ¬ Obligations.BarrierArrivals := by
  rintro ⟨-, h⟩
  obtain ⟨-, hfull, -⟩ := h syncFields endedState (by decide) (by decide) (by decide)
  obtain ⟨u, ⟨hu, -⟩, hpark⟩ := hfull (by decide) (by decide) endedState_full
  have harr := endedState_arrives
  rw [hu] at harr
  rw [show u.dev.curWarp.park = _ from harr] at hpark
  cases hpark

end Sys2Proof
end

section
/-! Proofs about receive rings, messages and watches (R286-R297). -/

namespace Sys2Proof.Machine

/-! ## Instructions that read uniform operands, with checks of their own -/

theorem check_of {ok : Bool} (h : ok = true) (t : TrapInfo) : check ok t = none := if_pos h

/-- Checks that pass add nothing to what an instruction needs to be ready. -/
theorem VCtx.ReadyUni.own {x : VCtx} {bounds : List (Option TrapInfo)} {us : List Use} {own : List (Option TrapInfo)} (h : x.ReadyUni bounds us [])
    (hown : ∀ t ∈ own, t = none) : x.ReadyUni bounds us own := by
  obtain ⟨hready, hchecks⟩ := h
  refine ⟨hready, ?_⟩
  rw [firstTrap_eq_none_iff] at hchecks ⊢
  intro t ht
  simp only [List.append_nil, List.mem_append] at hchecks ht
  rcases ht with (((((ht | ht) | ht) | ht) | ht) | ht)
  · exact hchecks t (.inl (.inl (.inl (.inl ht))))
  · exact hchecks t (.inl (.inl (.inl (.inr ht))))
  · exact hchecks t (.inl (.inl (.inr ht)))
  · exact hchecks t (.inl (.inr ht))
  · exact hown t ht
  · exact hchecks t (.inr ht)

theorem Dev.afterAcquire_of_not {d : Dev} (h : d.curCol.acquiring d.cur.slot = false) (go : Unit → Issue) : d.afterAcquire go = go () :=
  if_neg (ne_true_of_eq_false h)

/-! ## An operation enters its column -/

theorem Dev.enter_cur (d : Dev) (c : Nat) (o : MemOp) : (d.enter c o).cur = d.cur := rfl

/-- LOADS and STORES count an operation that enters. -/
def Warp.counts (w : Warp) (o : MemOp) : Warp :=
  { w with loads := w.loads + (if o.kind.isLoad then 1 else 0), stores := w.stores + (if o.kind.isStore then 1 else 0) }

theorem Dev.enter_eq {d : Dev} {o : MemOp} (h : o.slot = d.cur.slot) :
    d.enter d.cur.col o = ({ d with free := d.free + 1 }.modCurCol (fun k => k.addOp o)).modCurWarp (fun w => w.counts o) := by
  unfold Dev.enter
  rw [h]
  rfl

theorem Dev.enter_warp {d : Dev} {o : MemOp} (h : o.slot = d.cur.slot) : (d.enter d.cur.col o).curWarp = d.curWarp.counts o := by
  rw [Dev.enter_eq h, Dev.curWarp_modCurWarp, Dev.curWarp_modCurCol]
  rfl

theorem Dev.enter_col {d : Dev} {o : MemOp} (h : o.slot = d.cur.slot) :
    (d.enter d.cur.col o).curCol = (d.curCol.addOp o).putWarp d.cur.slot (d.curWarp.counts o) := by
  rw [Dev.enter_eq h, Dev.curCol_modCurWarp, Dev.curWarp_modCurCol, Dev.curCol_modCurCol]
  rfl

/-! ## A uniform result of an instruction that may have been parked -/

theorem Result.uni_good (v : Word) (pois : Bool) (fmt : BitVec 5) : (Result.uni v pois fmt).Good :=
  Result.good_uniform _ rfl fun l hl => by
    cases pois <;> simp [Result.uni, hl]

theorem Column.putUni_lane (k : Column) (s r : Nat) (v : Word) (pois : Bool) {l : Nat} (hl : l < 32) :
    ((k.putUni s r v pois).warp s).laneOf r l = v := by
  rw [Warp.laneOf, Column.putUni, Column.warp_writeReg, Warp.write_lane _ _ _ _ _ (Result.uni_good _ _ _) hl, Mask.has_all hl, if_pos rfl]
  simp only [Result.uni, lane_tab _ hl]

theorem Column.putUni_lane_ne (k : Column) (s : Nat) {r n : Nat} (v : Word) (pois : Bool) (h : n ≠ r) (l : Nat) :
    ((k.putUni s r v pois).warp s).laneOf n l = (k.warp s).laneOf n l := by
  rw [Warp.laneOf, Column.putUni, Column.warp_writeReg, Warp.write_reg_ne _ _ _ _ h]
  rfl

theorem Column.putUni_frame (k : Column) (s r : Nat) (v : Word) (pois : Bool) :
    { (k.putUni s r v pois).warp s with regs := (k.warp s).regs } = k.warp s := by
  rw [Column.putUni, Column.warp_writeReg]
  exact Warp.write_frame _ _ _ _ _

theorem Column.putUni_rings (k : Column) (s r : Nat) (v : Word) (pois : Bool) : (k.putUni s r v pois).rings = k.rings :=
  (congrArg Column.rings (k.rest_writeReg s r Mask.all (Result.uni v pois Fmt.ui32) false) :)

/-- A column whose warp goes on with two uniform results. -/
def Column.returnPair (k : Column) (s vd : Nat) (v : Word) (pois : Bool) (v' : Word) (acq : Bool) : Column :=
  ((k.putUni s vd v pois).putUni s (vd + 1) v' false).unpark s acq

theorem Column.warp_unpark (k : Column) (s : Nat) (acq : Bool) :
    (k.unpark s acq).warp s = { k.warp s with park := .none, wait := .none, pc := (k.warp s).pc + 1 } := by
  unfold Column.unpark
  cases acq <;> exact Table.getD_set_same _ _ _ _

theorem Column.returnPair_lanes (k : Column) (s vd : Nat) (v : Word) (pois : Bool) (v' : Word) (acq : Bool) {l : Nat} (hl : l < 32) :
    ((k.returnPair s vd v pois v' acq).warp s).laneOf vd l = v ∧ ((k.returnPair s vd v pois v' acq).warp s).laneOf (vd + 1) l = v' := by
  have hregs : ((k.returnPair s vd v pois v' acq).warp s).regs = (((k.putUni s vd v pois).putUni s (vd + 1) v' false).warp s).regs := by
    rw [Column.returnPair, Column.warp_unpark]
  have hlane (n : Nat) : ((k.returnPair s vd v pois v' acq).warp s).laneOf n l = (((k.putUni s vd v pois).putUni s (vd + 1) v' false).warp s).laneOf n l := by
    simp only [Warp.laneOf, Warp.reg, hregs]
  refine ⟨?_, ?_⟩
  · rw [hlane, Column.putUni_lane_ne _ _ _ _ (Nat.ne_of_lt (Nat.lt_succ_self vd)), Column.putUni_lane _ _ _ _ _ hl]
  · rw [hlane, Column.putUni_lane _ _ _ _ _ hl]

theorem Column.returnPair_pc (k : Column) (s vd : Nat) (v : Word) (pois : Bool) (v' : Word) (acq : Bool) :
    ((k.returnPair s vd v pois v' acq).warp s).pc = (k.warp s).pc + 1 := by
  rw [Column.returnPair, Column.warp_unpark]
  have h1 := (congrArg Warp.pc ((k.putUni s vd v pois).putUni_frame s (vd + 1) v' false) :)
  have h2 := (congrArg Warp.pc (k.putUni_frame s vd v pois) :)
  exact congrArg (· + 1) (h1.trans h2)

theorem Column.returnPair_rings (k : Column) (s vd : Nat) (v : Word) (pois : Bool) (v' : Word) (acq : Bool) :
    (k.returnPair s vd v pois v' acq).rings = k.rings := by
  have h : ((k.putUni s vd v pois).putUni s (vd + 1) v' false).rings = k.rings := by
    rw [Column.putUni_rings, Column.putUni_rings]
  cases acq <;> exact h

/-! ## Parked warps -/

theorem Dev.curWarp_park (d : Dev) (p : Park) : (d.park p).curWarp = { d.curWarp with park := p, active := false, entered := d.now } :=
  d.curWarp_modCurWarp (fun w => { w with park := p, active := false, entered := d.now })

theorem Dev.curCol_park (d : Dev) (p : Park) :
    (d.park p).curCol = d.curCol.putWarp d.cur.slot { d.curWarp with park := p, active := false, entered := d.now } :=
  d.curCol_modCurWarp (fun w => { w with park := p, active := false, entered := d.now })

/-! ## RBIND, RADV and RWAIT -/

theorem ringNumber_of {n : Nat} (h : n < 16) : ringNumber n = none := check_of (decide_eq_true h) _

theorem Column.ringMine_of {k : Column} {gang n : Nat} (hs : (k.ring n).size ≠ 0) (hg : (k.ring n).gang = gang) : k.ringMine gang n = none := by
  unfold Column.ringMine
  rw [if_neg hs]
  exact check_of (beq_iff_eq.mpr hg) _

theorem Column.ring_set (k : Column) (n : Nat) (r : Ring) : ({ k with rings := k.rings.set n r }.ringChanged n).ring n = r :=
  Table.getD_set_same _ _ _ _

/-- An instruction of the whole warp that changes its column beside the warps, and advances. -/
theorem retires_modCurCol {i : Instr} {s : State} {g : Column → Column} (hi : exec i s = s.conclude (.retire (s.dev.modCurCol g).advance))
    (hw : (g s.dev.curCol).warps = s.dev.curCol.warps) :
    ∃ t, exec i s = .next t ∧ Issues s t ∧ ∃ w, t.dev.curCol = (g s.dev.curCol).putWarp s.dev.cur.slot w := by
  have hwarp : (s.dev.modCurCol g).curWarp = s.dev.curWarp := by
    rw [Dev.curWarp_modCurCol, Column.warp, hw]
    rfl
  refine ⟨_, hi, .of_advance rfl (congrArg Warp.regs hwarp) (congrArg Warp.preds hwarp), (s.dev.modCurCol g).advance.curWarp, ?_⟩
  rw [Dev.curWarp_advance]
  refine (Dev.curCol_advance _).trans ?_
  rw [Dev.curCol_modCurCol]
  rfl

section
variable {f : XFields} {s : State}

/-- RBIND of a free ring, or of one of the gang. -/
theorem exec_rbind_eq (hs : s.selected f.h) (hn : f.num.toNat < 16) (hacq : s.dev.curCol.acquiring s.dev.cur.slot = false) :
    let x := vctx s.dev f.h []
    let u := Use.ptr (x.src 1 f.a)
    let v := (lane u.src.vals 0).toNat
    let k := s.dev.curCol
    let n := f.num.toNat
    let z := f.pp.toNat % 16
    x.ReadyUni [] [u] [] → (z = 0 ∨ (v + 2 ^ z ≤ k.spadBytes ∧ v % 32 = 0)) → ((k.ring n).size = 0 ∨ (k.ring n).gang = s.dev.curWarp.gang) →
      exec (.rbind f) s = s.conclude (.retire (s.dev.modCurCol (fun k =>
        if z = 0 ∧ (k.ring n).size = 0 then k else k.rbind s.dev.curWarp.gang n v z)).advance) := by
  intro x u v k n z hready hz hr
  change s.conclude (rbindIssue f s) = _
  rw [rbindIssue, s.whole_of_selected hs]
  refine congrArg s.conclude ((VCtx.withUni_of_ready (hready.own ?_) _).trans (Dev.afterAcquire_of_not hacq _))
  intro t ht
  simp only [List.mem_cons, List.not_mem_nil, or_false] at ht
  rcases ht with rfl | rfl | rfl | rfl
  · exact check_of (Bool.or_eq_true_iff.mpr (hz.imp beq_iff_eq.mpr fun h => decide_eq_true h.1)) _
  · exact check_of (Bool.or_eq_true_iff.mpr (hz.imp beq_iff_eq.mpr fun h => beq_iff_eq.mpr h.2)) _
  · exact ringNumber_of hn
  · exact check_of (Bool.or_eq_true_iff.mpr (hr.imp beq_iff_eq.mpr beq_iff_eq.mpr)) _

theorem Column.rbind_ring (k : Column) (g n v : Nat) {z : Nat} (hz : z ≠ 0) :
    (k.rbind g n v z).ring n = { base := k.spadBase g + v, size := 2 ^ z, head := 0, tail := 0, gang := g } := by
  rw [Column.rbind, if_neg hz, Column.ring_set]

theorem exec_rbind (hs : s.selected f.h) (hn : f.num.toNat < 16) (hacq : s.dev.curCol.acquiring s.dev.cur.slot = false) :
    let x := vctx s.dev f.h []
    let u := Use.ptr (x.src 1 f.a)
    let v := (lane u.src.vals 0).toNat
    let k := s.dev.curCol
    let n := f.num.toNat
    let z := f.pp.toNat % 16
    let g := s.dev.curWarp.gang
    x.ReadyUni [] [u] [] → z ≠ 0 → v + 2 ^ z ≤ k.spadBytes → v % 32 = 0 → ((k.ring n).size = 0 ∨ (k.ring n).gang = g) →
      ∃ t, exec (.rbind f) s = .next t ∧ Issues s t ∧
        t.dev.curCol.ring n = { base := k.spadBase g + v, size := 2 ^ z, head := 0, tail := 0, gang := g } := by
  intro x u v k n z g hready hz hv hv32 hr
  have hi := exec_rbind_eq hs hn hacq hready (.inr ⟨hv, hv32⟩) hr
  obtain ⟨t, ht, hissues, w, hcol⟩ := retires_modCurCol hi (by split <;> rfl)
  refine ⟨t, ht, hissues, ?_⟩
  rw [hcol, if_neg fun h => hz h.1]
  exact k.rbind_ring g n v hz

theorem exec_rbind_zero (hs : s.selected f.h) (hn : f.num.toNat < 16) (hacq : s.dev.curCol.acquiring s.dev.cur.slot = false) :
    let x := vctx s.dev f.h []
    let k := s.dev.curCol
    let n := f.num.toNat
    x.ReadyUni [] [Use.ptr (x.src 1 f.a)] [] → f.pp.toNat % 16 = 0 → ((k.ring n).size = 0 ∨ (k.ring n).gang = s.dev.curWarp.gang) →
      ∃ t, exec (.rbind f) s = .next t ∧ Issues s t ∧ (t.dev.curCol.ring n).size = 0 := by
  intro x k n hready hz hr
  have hi := exec_rbind_eq hs hn hacq hready (.inl hz) hr
  obtain ⟨t, ht, hissues, w, hcol⟩ := retires_modCurCol hi (by split <;> rfl)
  refine ⟨t, ht, hissues, ?_⟩
  rw [hcol]
  split
  · rename_i h
    exact h.2
  · rw [Column.rbind, if_pos hz]
    exact congrArg Ring.size (k.ring_set n { k.ring n with size := 0, gang := s.dev.curWarp.gang })

theorem exec_radv (hs : s.selected f.h) (hn : f.num.toNat < 16) (hacq : s.dev.curCol.acquiring s.dev.cur.slot = false) :
    let x := vctx s.dev f.h []
    let u := Use.ptr (x.src 1 f.a)
    let v := (lane u.src.vals 0).toNat
    let n := f.num.toNat
    let r := s.dev.curCol.ring n
    x.ReadyUni [] [u] [] → r.size ≠ 0 → r.gang = s.dev.curWarp.gang → v % 32 = 0 → v ≤ r.bytes →
      ∃ t, exec (.radv f) s = .next t ∧ Issues s t ∧ t.dev.curCol.ring n = { r with head := r.head + BitVec.ofNat 32 v } := by
  intro x u v n r hready hsize hgang hv hbytes
  have hi : exec (.radv f) s = s.conclude (.retire (s.dev.modCurCol (fun k =>
      ({ k with rings := k.rings.set n { r with head := r.head + BitVec.ofNat 32 v } }).ringChanged n)).advance) := by
    change s.conclude (radvIssue f s) = _
    rw [radvIssue, s.whole_of_selected hs]
    refine congrArg s.conclude ((VCtx.withUni_of_ready (hready.own ?_) _).trans (Dev.afterAcquire_of_not hacq _))
    intro t ht
    simp only [List.mem_cons, List.not_mem_nil, or_false] at ht
    rcases ht with rfl | rfl | rfl
    · exact ringNumber_of hn
    · exact Column.ringMine_of hsize hgang
    · exact check_of (Bool.and_eq_true_iff.mpr ⟨beq_iff_eq.mpr hv, decide_eq_true hbytes⟩) _
  obtain ⟨t, ht, hissues, w, hcol⟩ := retires_modCurCol hi rfl
  refine ⟨t, ht, hissues, ?_⟩
  rw [hcol]
  exact s.dev.curCol.ring_set n _

/-- RWAIT of the gang's own ring. -/
theorem exec_rwait_eq (hs : s.selected f.h) (hn : f.num.toNat < 16) (hacq : s.dev.curCol.acquiring s.dev.cur.slot = false) :
    let d := s.dev
    let x := vctx d f.h []
    let u := Use.ptr (x.src 1 f.a)
    let v := (lane u.src.vals 0).toNat
    let n := f.num.toNat
    let r := d.curCol.ring n
    let vd := dstReg f.d
    x.ReadyUni [rangeBound x.regs vd 2] [u] [] → r.size ≠ 0 → r.gang = d.curWarp.gang → v ≤ r.size →
      exec (.rwait f) s = s.conclude (if f.sub.getLsbD 0 || decide (v ≤ r.bytes) then
          .retire (d.modCurCol (fun k => k.rwaitDone d.cur.slot n vd (f.sub.getLsbD 1)))
        else .retire (d.park (.rwait n v (if f.pp = 0 then none else some (d.now + 256 * f.pp.toNat)) vd (f.sub.getLsbD 1)))) := by
  intro d x u v n r vd hready hsize hgang hv
  change s.conclude (rwaitIssue f s) = _
  rw [rwaitIssue, s.whole_of_selected hs]
  refine congrArg s.conclude ((VCtx.withUni_of_ready (hready.own ?_) _).trans (Dev.afterAcquire_of_not hacq _))
  intro t ht
  simp only [List.mem_cons, List.not_mem_nil, or_false] at ht
  rcases ht with rfl | rfl | rfl
  · exact ringNumber_of hn
  · exact Column.ringMine_of hsize hgang
  · exact check_of (decide_eq_true hv) _

end

/-- An issue that goes on past its instruction with two uniform results. -/
theorem retires_returnPair {i : Instr} {s : State} {d : Dev} {k : Column} {vd : Nat} {v v' : Word} {pois acq : Bool}
    (hi : exec i s = s.conclude (.retire d)) (hcur : d.cur = s.dev.cur) (hk : k.warps = s.dev.curCol.warps)
    (hd : d.curCol = k.returnPair s.dev.cur.slot vd v pois v' acq) :
    ∃ t, exec i s = .next t ∧ t.dev.issued = .retired ∧ t.vault = s.vault ∧ t.dev.curWarp.pc = s.dev.curWarp.pc + 1 ∧
      (∀ l, l < 32 → t.reg vd l = v ∧ t.reg (vd + 1) l = v') ∧ t.dev.curCol.rings = k.rings := by
  have hwarp : d.curWarp = (k.returnPair s.dev.cur.slot vd v pois v' acq).warp s.dev.cur.slot := by
    rw [← hd, ← hcur]
    rfl
  refine ⟨_, hi, rfl, rfl, ?_, fun l hl => ?_, ?_⟩
  · change d.curWarp.pc = _
    rw [hwarp, Column.returnPair_pc, Column.warp, hk]
    rfl
  · change d.curWarp.laneOf vd l = v ∧ d.curWarp.laneOf (vd + 1) l = v'
    rw [hwarp]
    exact k.returnPair_lanes _ _ _ _ _ _ hl
  · change d.curCol.rings = _
    rw [hd, Column.returnPair_rings]

/-! ## MSG -/

/-- MSG of a pointer into the partition at a ring: what it does after its checks and its release. -/
def msgSend (f : XFields) (w : Warp) (p : BitVec 64) (d : Dev) : Issue :=
  if 4 ≤ d.curCol.outbuf.length then .hold (d.leave .interface)
  else if !decide (d.curWarp.stores < 63) then .hold d
  else .retire (d.sendMsg (ptrSel p) f.num.toNat (msgWords w (dstReg f.d) (8 * (f.sub.toNat % 16 + 1)))).advance

section
variable {f : XFields} {s : State}

theorem exec_msg_eq (hs : s.selected f.h) :
    let d := s.dev
    let x := vctx d f.h []
    let lo := rangeSrc x.w 1 f.a 0
    let hi := rangeSrc x.w 1 f.a 1
    let words := 8 * (f.sub.toNat % 16 + 1)
    let k := (words + 31) / 32
    let p := ptrOf (lane lo.vals 0) (lane hi.vals 0)
    x.notReady ((List.range k).map (fun j => Use.any (Src.direct x.w 0 (dstReg f.d + j) 0 0))) = false →
    ptrRsv p = 0 → d.inPart d.curWarp.ctx (ptrSel p) = true → f.num.toNat < 16 →
    x.ReadyUni [rangeBound x.regs (dstReg f.d) k, rangeBound x.regs f.a.reg.toNat 2] [Use.ptr lo, Use.ptr hi] [] →
    d.curCol.acquiring d.cur.slot = false → d.releaseOver (f.sub.getLsbD 4) (d.curWarp.obsMask (f.pp.extractLsb' 0 7)) →
      exec (.msg f) s = s.conclude (msgSend f x.w p (d.afterRelease (f.sub.getLsbD 4))) := by
  intro d x lo hi words k p hpay hrsv hpart hn hready hacq hrel
  change s.conclude (msgIssue f s) = _
  rw [msgIssue, s.whole_of_selected hs]
  have hpay' : ¬ x.notReady ((List.range k).map (fun j => Use.any (Src.direct x.w 0 (dstReg f.d + j) 0 0))) = true := by
    rw [hpay]
    exact Bool.false_ne_true
  have hgo : (if f.sub.getLsbD 4 then d.release (d.curWarp.obsMask (f.pp.extractLsb' 0 7)) (msgSend f x.w p) else msgSend f x.w p d) =
      msgSend f x.w p (d.afterRelease (f.sub.getLsbD 4)) := by
    cases h4 : f.sub.getLsbD 4
    · rfl
    · rw [if_pos rfl]
      exact Dev.release_of_over (hrel h4) _
  refine congrArg s.conclude ((if_neg hpay').trans ((VCtx.withUni_of_ready (hready.own ?_) _).trans ((Dev.afterAcquire_of_not hacq _).trans hgo)))
  intro t ht
  simp only [List.mem_cons, List.not_mem_nil, or_false] at ht
  rcases ht with rfl | rfl
  · refine if_pos (if_pos ?_)
    rw [Bool.and_eq_true_iff]
    exact ⟨decide_eq_true hrsv, hpart⟩
  · exact ringNumber_of hn

theorem Dev.sendMsg_warp (d : Dev) (dcol ring : Nat) (words : List (Word × Bool)) :
    (d.sendMsg dcol ring words).curWarp = { d.curWarp with stores := d.curWarp.stores + 1 } := by
  let o : MemOp := { d.newOp .msg 0 2 [] with reach := 0x02 }
  have henter : (d.enter d.cur.col o).curWarp = d.curWarp.counts o := Dev.enter_warp rfl
  exact ((d.enter d.cur.col o).curWarp_modCurCol _).trans henter

theorem Dev.sendMsg_outbuf (d : Dev) (dcol ring : Nat) (words : List (Word × Bool)) :
    (d.sendMsg dcol ring words).curCol.outbuf = d.curCol.outbuf ++
      [{ op := d.curCol.nextOp, slot := d.cur.slot, dcol := dcol, ring := ring, words := words, itick := d.now, away := false }] := by
  let o : MemOp := { d.newOp .msg 0 2 [] with reach := 0x02 }
  have henter : (d.enter d.cur.col o).curCol = (d.curCol.addOp o).putWarp d.cur.slot (d.curWarp.counts o) := Dev.enter_col rfl
  change ((d.enter d.cur.col o).modCurCol _).curCol.outbuf = _
  rw [Dev.curCol_modCurCol, henter]
  rfl

theorem Dev.afterRelease_now (d : Dev) (on : Bool) : (d.afterRelease on).now = d.now := by cases on <;> rfl

theorem msgSend_room {w : Warp} {p : BitVec 64} {d : Dev} (hout : d.curCol.outbuf.length < 4) (hst : d.curWarp.stores < 63) :
    msgSend f w p d = .retire (d.sendMsg (ptrSel p) f.num.toNat (msgWords w (dstReg f.d) (8 * (f.sub.toNat % 16 + 1)))).advance := by
  unfold msgSend
  rw [if_neg (Nat.not_le.mpr hout), if_neg (by simp [hst])]

/-- MSG with room in the outbound buffer. -/
theorem msg_enters {i : Instr} {on : Bool} {dcol ring : Nat} {words : List (Word × Bool)}
    (hi : exec i s = s.conclude (.retire ((s.dev.afterRelease on).sendMsg dcol ring words).advance)) :
    ∃ u, exec i s = .next u ∧ Issues s u ∧ u.dev.curWarp.stores = s.dev.curWarp.stores + 1 ∧
      u.dev.curCol.outbuf = s.dev.curCol.outbuf ++ [{
        op := s.dev.curCol.nextOp, slot := s.dev.cur.slot, dcol := dcol, ring := ring, words := words, itick := s.dev.now, away := false }] := by
  have hwarp := s.dev.afterRelease_warp on
  have hcol := s.dev.afterRelease_col on
  have hcur := s.dev.afterRelease_cur on
  have hnow := s.dev.afterRelease_now on
  generalize s.dev.afterRelease on = r at hwarp hcol hcur hnow hi
  have hsend := r.sendMsg_warp dcol ring words
  refine ⟨_, hi, .of_advance hcur ?_ ?_, ?_, ?_⟩
  · rw [hsend, hwarp]
  · rw [hsend, hwarp]
  · change (Dev.advance _).curWarp.stores = _
    rw [Dev.curWarp_advance, hsend, hwarp]
  · change (Dev.advance _).curCol.outbuf = _
    rw [Dev.curCol_advance]
    refine (r.sendMsg_outbuf dcol ring words).trans ?_
    rw [hcol, hcur, hnow]

/-- MSG without room waits for its interface. -/
theorem msg_leaves {i : Instr} {on : Bool} (hi : exec i s = s.conclude (.hold ((s.dev.afterRelease on).leave .interface))) :
    ∃ u, exec i s = .next u ∧ u.dev.issued = .held ∧ u.vault = s.vault ∧
      u.dev.curWarp.wait = .interface ∧ u.dev.curWarp.active = false ∧ u.dev.curWarp.pc = s.dev.curWarp.pc := by
  have hwarp := s.dev.afterRelease_warp on
  generalize s.dev.afterRelease on = r at hwarp hi
  have hw : ({ r.leave .interface with issued := .held } : Dev).curWarp = _ := r.curWarp_leave .interface
  refine ⟨_, hi, rfl, rfl, ?_, ?_, ?_⟩
  · rw [hw]
  · rw [hw]
  · rw [hw, hwarp]

end

/-! ## WATCH -/

theorem SameWarps.resolve (s : State) (c ctx : Nat) (cpol : BitVec 2) (write priv : Bool) (a : LaneAcc) :
    SameWarps s.dev (s.resolve c ctx cpol write priv a).2 := by
  have h1 := SameWarps.translate s c ctx a.off write priv
  unfold State.resolve
  generalize s.translate c ctx a.off write priv = r at h1
  obtain ⟨r, d⟩ := r
  cases r with
  | error e => exact h1
  | ok e =>
    dsimp only
    split
    · exact h1
    · have h2 := SameWarps.translate { s with dev := d } c ctx (a.off + (65536 - a.off % 65536)) write priv
      generalize State.translate { s with dev := d } c ctx (a.off + (65536 - a.off % 65536)) write priv = q at h2
      obtain ⟨q, d2⟩ := q
      cases q <;> exact SameWarps.trans h1 h2

theorem SameWarps.sliceWord (s : State) (a : LaneAcc) : SameWarps s.dev (s.sliceWord a).2.2 :=
  (SameWarps.touchLines s [a]).trans (SameWarps.free _ _)

theorem Column.watchDone_eq (k : Column) (s vd : Nat) (v : Word) (pois : Bool) (status : Nat) (acq : Bool) :
    k.watchDone s vd v pois status acq =
      ({ k with watches := k.watches.filter (fun w => w.who != Watcher.warp s) } : Column).returnPair s vd v pois (BitVec.ofNat 32 status) acq := rfl

section
variable {f : MFields} {s : State}

/-- WATCH of a location that translates, with no earlier access of its warp to it outstanding. -/
theorem exec_watch_eq {b : LaneAcc} {e : Dev} (hs : s.selected f.h) :
    let d := s.dev
    let x := vctx d f.h []
    let c := d.cur.col
    let vd := dstReg f.dat
    let v := Src.direct x.w 0 vd 0 0
    let t := Src.direct x.w 0 (vd + 1) 0 0
    let lo := rangeSrc x.w 1 f.adr 0
    let hi := rangeSrc x.w 1 f.adr 1
    let a := laneWant 0 c (laneOff lo hi f.offset 0) 4 0
    x.ReadyUni [rangeBound x.regs vd 2, rangeBound x.regs f.adr.reg.toNat 2] [Use.ptr v, Use.ptr t, Use.ptr lo, Use.ptr hi]
      [selCheck c x.act lo hi, alignCheck x.act lo hi f.offset 4 none] →
    d.curCol.acquiring d.cur.slot = false →
    d.curCol.overtakes { d.newOp .load 0 2 [] with id := d.curCol.nextOp } [a] = false →
    s.resolve c d.curWarp.ctx 1 false d.cur.priv a = (.ok b, e) →
      exec (.watch f) s = s.conclude (.retire (({ s with dev := e } : State).register f b (lane v.vals 0) (lane t.vals 0).toNat)) := by
  intro d x c vd v t lo hi a hready hacq hover hres
  change s.conclude (watchIssue f s) = _
  rw [watchIssue, s.whole_of_selected hs]
  have hover' : ¬ d.curCol.overtakes { d.newOp .load 0 2 [] with id := d.curCol.nextOp } [a] = true := by
    rw [hover]
    exact Bool.false_ne_true
  refine congrArg s.conclude ((VCtx.withUni_of_ready hready _).trans ((Dev.afterAcquire_of_not hacq _).trans ((if_neg hover').trans ?_)))
  rw [show s.resolve s.dev.cur.col s.dev.curWarp.ctx 1 false s.dev.cur.priv _ = _ from hres]
  rfl

/-- The state once the location has been read at its slice. -/
def State.sliced (s : State) (b : LaneAcc) : Dev := (s.sliceWord b).2.2

theorem register_satisfied {b : LaneAcc} {v : Word} {timeout : Nat} (h : cmpOk f.size (s.sliceWord b).1 v = true) :
    s.register f b v timeout = (s.sliced b).modCol s.dev.cur.col (fun k =>
      k.watchDone (s.sliced b).cur.slot (dstReg f.dat) (s.sliceWord b).1 (s.sliceWord b).2.1 0 (f.ord == 1)) := if_pos h

theorem register_full {b : LaneAcc} {v : Word} {timeout : Nat} (h : cmpOk f.size (s.sliceWord b).1 v = false)
    (hfull : 64 ≤ ((s.sliced b).col s.dev.cur.col).watchCount b.va) :
    s.register f b v timeout = (s.sliced b).modCol s.dev.cur.col (fun k =>
      k.watchDone (s.sliced b).cur.slot (dstReg f.dat) (s.sliceWord b).1 (s.sliceWord b).2.1 1 (f.ord == 1)) :=
  (if_neg (ne_true_of_eq_false h)).trans (if_pos hfull)

theorem register_parks {b : LaneAcc} {v : Word} {timeout : Nat} (h : cmpOk f.size (s.sliceWord b).1 v = false)
    (hroom : ((s.sliced b).col s.dev.cur.col).watchCount b.va < 64) :
    s.register f b v timeout = ((s.sliced b).modCol s.dev.cur.col (fun k => { k with watches := k.watches ++
        [{ va := b.va, cmp := f.size, value := v, who := .warp (s.sliced b).cur.slot, wcol := s.dev.cur.col,
           ctx := (s.sliced b).curWarp.ctx, fired := none }] })).park
      (.watch (dstReg f.dat) (if timeout = 0 then none else some ((s.sliced b).now + timeout)) (f.ord == 1)) :=
  (if_neg (ne_true_of_eq_false h)).trans (if_neg (Nat.not_le.mpr hroom))

end

theorem SameWarps.watches {d e : Dev} (h : SameWarps d e) (c : Nat) : (e.col c).watches = (d.col c).watches :=
  (congrArg Column.watches (h.cols c) :)

/-- A WATCH that returns its word. -/
theorem watch_returns {i : Instr} {s : State} {d : Dev} {vd : Nat} {v : Word} {pois acq : Bool} {status : Nat} (hd : SameWarps s.dev d)
    (hi : exec i s = s.conclude (.retire (d.modCol s.dev.cur.col (fun k => k.watchDone d.cur.slot vd v pois status acq)))) :
    ∃ u, exec i s = .next u ∧ u.dev.issued = .retired ∧ u.vault = s.vault ∧ u.dev.curWarp.pc = s.dev.curWarp.pc + 1 ∧
      ∀ l, l < 32 → u.reg vd l = v ∧ u.reg (vd + 1) l = BitVec.ofNat 32 status := by
  let k : Column := { d.curCol with watches := d.curCol.watches.filter (fun w => w.who != Watcher.warp s.dev.cur.slot) }
  have hk : k.warps = s.dev.curCol.warps := by
    change (d.col d.cur.col).warps = _
    rw [hd.warps, hd.cur]
    rfl
  rw [hd.cur] at hi
  have hcol : (d.modCol s.dev.cur.col (fun k => k.watchDone s.dev.cur.slot vd v pois status acq)).curCol =
      k.returnPair s.dev.cur.slot vd v pois (BitVec.ofNat 32 status) acq := by
    rw [← congrArg Cur.col hd.cur]
    exact d.curCol_modCurCol _
  obtain ⟨t, ht, hret, hvault, hpc, hregs, -⟩ := retires_returnPair hi hd.cur hk hcol
  exact ⟨t, ht, hret, hvault, hpc, hregs⟩

/-- A WATCH that registers and parks. -/
theorem watch_parks {i : Instr} {s : State} {d : Dev} {e : Watch} {p : Park} (hd : SameWarps s.dev d)
    (hi : exec i s = s.conclude (.retire ((d.modCol s.dev.cur.col (fun k => { k with watches := k.watches ++ [e] })).park p))) :
    ∃ u, exec i s = .next u ∧ u.dev.issued = .retired ∧ u.vault = s.vault ∧ u.dev.curWarp.pc = s.dev.curWarp.pc ∧
      u.dev.curWarp.regs = s.dev.curWarp.regs ∧ u.dev.curWarp.active = false ∧ u.dev.curWarp.park = p ∧
      u.dev.curCol.watches = s.dev.curCol.watches ++ [e] := by
  rw [← hd.cur] at hi
  have hw : ({ (d.modCurCol (fun k => { k with watches := k.watches ++ [e] })).park p with issued := .retired } : Dev).curWarp = _ :=
    Dev.curWarp_park _ p
  rw [show (d.modCurCol (fun k => { k with watches := k.watches ++ [e] })).curWarp = s.dev.curWarp from
    (d.curWarp_modCurCol _).trans hd.curWarp] at hw
  refine ⟨_, hi, rfl, rfl, ?_, ?_, ?_, ?_, ?_⟩
  · exact (congrArg Warp.pc hw :)
  · exact (congrArg Warp.regs hw :)
  · exact (congrArg Warp.active hw :)
  · exact (congrArg Warp.park hw :)
  · refine (congrArg Column.watches (Dev.curCol_park (d.modCurCol (fun k => { k with watches := k.watches ++ [e] })) p) :).trans ?_
    rw [Dev.curCol_modCurCol]
    change (d.col d.cur.col).watches ++ [e] = _
    rw [hd.watches, hd.cur]
    rfl

end Sys2Proof.Machine
end

section
namespace Sys2Proof
open Sys2Proof.Machine

/-- Settles O31. -/
theorem messagesAndRings : Obligations.MessagesAndRings := by
  refine ⟨?_, ?_⟩
  · intro f s d x lo hi words k p rel hs hpay hrsv hpart hn hready hacq hrel
    have hi := exec_msg_eq hs hpay hrsv hpart hn hready hacq hrel
    have hwarp := s.dev.afterRelease_warp rel
    have hout : (s.dev.afterRelease rel).curCol.outbuf = d.curCol.outbuf := (congrArg Column.outbuf (s.dev.afterRelease_col rel) :)
    refine ⟨fun hroom hst => ?_, fun hfull => ?_⟩
    · rw [show f.sub.getLsbD 4 = rel from rfl, msgSend_room (by rw [hout]; exact hroom) (by rw [hwarp]; exact hst)] at hi
      exact msg_enters hi
    · refine msg_leaves (on := rel) (hi.trans (congrArg s.conclude (if_pos ?_)))
      rw [show (s.dev.afterRelease (f.sub.getLsbD 4)).curCol.outbuf = _ from hout]
      exact hfull
  · intro f s d x u v n k r g z vd hs hn hacq
    refine ⟨exec_rbind hs hn hacq, exec_rbind_zero hs hn hacq, exec_radv hs hn hacq, fun hready hsize hgang hv => ?_⟩
    have hi := exec_rwait_eq hs hn hacq hready hsize hgang hv
    refine ⟨fun hgo => ?_, fun hnow hless => ?_⟩
    · have hc : (f.sub.getLsbD 0 || decide (v ≤ r.bytes)) = true := Bool.or_eq_true_iff.mpr (hgo.imp_right decide_eq_true)
      exact retires_returnPair (k := k) (hi.trans (congrArg s.conclude (if_pos hc))) rfl rfl (d.curCol_modCurCol _)
    · have hc : ¬ (f.sub.getLsbD 0 || decide (v ≤ r.bytes)) = true := by
        rw [hnow, Bool.false_or, decide_eq_true_eq]
        exact Nat.not_le.mpr hless
      have hw := d.curWarp_park (.rwait n v (if f.pp = 0 then none else some (d.now + 256 * f.pp.toNat)) vd (f.sub.getLsbD 1))
      refine ⟨_, hi.trans (congrArg s.conclude (if_neg hc)), rfl, rfl, ?_, ?_, ?_, ?_⟩
      · exact (congrArg Warp.regs hw :)
      · exact (congrArg Warp.pc hw :)
      · exact (congrArg Warp.active hw :)
      · exact (congrArg Warp.park hw :)

/-- Settles O32. -/
theorem watchReturnsOrParks : Obligations.WatchReturnsOrParks := by
  intro f s b e d x c vd v t lo hi a now back hs hready hacq hover hres
  have hexec := exec_watch_eq hs hready hacq hover hres
  let r : State := { s with dev := e }
  have he : SameWarps s.dev e := by
    have h := SameWarps.resolve s c d.curWarp.ctx 1 false d.cur.priv a
    rw [hres] at h
    exact h
  have hsl : SameWarps s.dev (r.sliced b) := he.trans (SameWarps.sliceWord r b)
  have hcol : r.dev.cur.col = s.dev.cur.col := congrArg Cur.col he.cur
  have hcount : ((r.sliced b).col r.dev.cur.col).watchCount b.va = d.curCol.watchCount b.va := by
    rw [hcol, Column.watchCount, hsl.watches]
    rfl
  have hslot : (r.sliced b).cur.slot = s.dev.cur.slot := congrArg Cur.slot hsl.cur
  refine ⟨fun hc => ?_, fun hc hfull => ?_, fun hc hroom => ?_⟩
  · have hreg := register_satisfied (s := r) (b := b) (timeout := (lane t.vals 0).toNat) hc
    exact watch_returns (status := 0) hsl (hexec.trans (congrArg (fun d => s.conclude (.retire d)) (by rw [← hcol]; exact hreg)))
  · have hreg := register_full (s := r) (b := b) (timeout := (lane t.vals 0).toNat) hc (by rw [hcount]; exact hfull)
    exact watch_returns (status := 1) hsl (hexec.trans (congrArg (fun d => s.conclude (.retire d)) (by rw [← hcol]; exact hreg)))
  · have hreg := register_parks (s := r) (b := b) (timeout := (lane t.vals 0).toNat) hc (by rw [hcount]; exact hroom)
    rw [hsl.now, hsl.curWarp, hslot, hcol] at hreg
    have hzero : (if (lane t.vals 0).toNat = 0 then none else some (s.dev.now + (lane t.vals 0).toNat)) =
        if lane t.vals 0 = 0 then none else some (s.dev.now + (lane t.vals 0).toNat) := by
      by_cases h0 : lane t.vals 0 = 0
      · rw [if_pos h0, h0]
        rfl
      · rw [if_neg h0, if_neg (fun h : (lane t.vals 0).toNat = 0 => h0 (BitVec.eq_of_toNat_eq h))]
    rw [hzero] at hreg
    exact watch_parks hsl (hexec.trans (congrArg (fun d => s.conclude (.retire d)) hreg))

end Sys2Proof
end

section
/-! Proofs about what ends on a column without a value (R204, R221, R245, R252, R261, R266, R269), and about the active set (R83, R86, R87). -/

namespace Sys2Proof.Machine

/-! ## Stores, leases and releases -/

theorem Column.op?_id {k : Column} {op : Nat} {o : MemOp} (h : k.op? op = some o) : o.id = op := by
  have := List.find?_some h
  simpa using this

theorem Column.storeDone_warp {k : Column} {o : MemOp} (hentry : o.entry = none) (hstore : o.kind.isStore = true) :
    (k.storeDone o).warp o.slot = { k.warp o.slot with
      relTimes := timesWith (k.warp o.slot).relTimes o.reach o.time, stores := (k.warp o.slot).stores - 1 } := by
  have h1 : k.completeTime o = k.putWarp o.slot { k.warp o.slot with relTimes := timesWith (k.warp o.slot).relTimes o.reach o.time } := by
    unfold Column.completeTime
    rw [hentry]
  have h2 : (o.entry.isNone && o.kind.isStore) = true := by rw [hentry, hstore]; rfl
  have h3 : k.storeDone o = ((k.completeTime o).putWarp o.slot ((k.completeTime o).warp o.slot).unstore).delOp o.id :=
    congrArg (fun k => Column.delOp k o.id) (if_pos h2)
  rw [h3]
  change (Column.putWarp _ _ _).warp o.slot = _
  rw [Column.warp_putWarp, h1, Column.warp_putWarp]
  rfl

theorem Column.storeDone_op? (k : Column) (o : MemOp) : (k.storeDone o).op? o.id = none := Column.op?_delOp _ _

theorem exec_gwctReturn {s : State} {c op : Nat} {o : MemOp} (hop : (s.dev.col c).op? op = some o) (hstore : o.kind.isStore = true)
    (hmsg : o.kind ≠ .msg) (hlanes : o.lanes = []) (hlogged : o.logged = 0) (hresv : o.resv = []) :
    exec (.gwctReturn c op) s = .next { s with dev := s.dev.modCol c (fun k => k.storeDone o) } := by
  have hc : (o.kind.isStore && o.kind != .msg && o.lanes.isEmpty && o.logged == 0 && o.resv.isEmpty) = true := by
    simp [hstore, hmsg, hlanes, hlogged, hresv]
  change execGwctReturn c op s = _
  unfold execGwctReturn
  rw [hop]
  exact if_pos hc

theorem exec_releaseWaitEnd {s : State} {c slot : Nat} {m : BitVec 7} (hw : (s.dev.warp c slot).wait = .release m)
    (hr : (s.dev.col c).released slot m s.dev.now = true) :
    exec (.releaseWaitEnd c slot) s = .next { s with dev := s.dev.modWarp c slot (fun w => { w with relDone := true }) } := by
  change execReleaseWaitEnd c slot s = _
  unfold execReleaseWaitEnd
  rw [hw]
  exact if_pos hr

/-! ## Tickets -/

theorem ticketless_kind {d : Dev} {p : Nat × MemOp} (h : p ∈ d.ticketless) : ∃ aop, p.2.kind = .atsc aop none := by
  unfold Dev.ticketless at h
  obtain ⟨l, hl, hp⟩ := List.mem_flatten.mp h
  obtain ⟨k, -, rfl⟩ := List.mem_map.mp hl
  obtain ⟨o, ho, rfl⟩ := List.mem_map.mp hp
  have hk := (List.mem_filter.mp ho).2
  dsimp only at hk ⊢
  generalize o.kind = kind at hk
  split at hk
  · exact ⟨_, rfl⟩
  · cases hk

theorem exec_sequencerTicket {s : State} (hl : s.dev.ticketless ≠ []) (hr : .seqr ∈ s.dev.ready) :
    ∃ u, exec .sequencerTicket s = .next u ∧ u.vault = s.vault ∧ u.dev.tickets = s.dev.tickets + 1 := by
  have hc : ¬ (s.dev.ticketless.isEmpty || !s.dev.ready.contains .seqr) = true := by simp [hl, hr]
  let i := (Config.freeWord s.dev.free).toNat % s.dev.ticketless.length
  have hi : i < s.dev.ticketless.length := Nat.mod_lt _ (List.length_pos_iff.mpr hl)
  obtain ⟨aop, hk⟩ := ticketless_kind (List.getElem_mem hi)
  have hget : s.dev.ticketless[i]? = some s.dev.ticketless[i] := List.getElem?_eq_getElem hi
  generalize s.dev.ticketless[i] = p at hk hget
  obtain ⟨c, o⟩ := p
  refine ⟨{ s with dev := { s.dev.draw.2.modCol c (fun k => k.setOp { o with kind := .atsc aop (some s.dev.draw.2.tickets) }) with
    tickets := s.dev.draw.2.tickets + 1 } }, ?_, rfl, rfl⟩
  refine (if_neg hc).trans ?_
  dsimp only
  rw [show s.dev.ticketless[(Config.freeWord s.dev.free).toNat % s.dev.ticketless.length]? = _ from hget]
  dsimp only
  rw [show o.kind = _ from hk]
  rfl

/-! ## The phases of named barriers -/

theorem Table.mem_of_mem_set {α : Type} {t : Table α} {k : Nat} {v : α} {p : Nat × α} (h : p ∈ t.set k v) : p ∈ t ∨ p = (k, v) := by
  induction t with
  | nil => exact .inr (by simpa [Table.set] using h)
  | cons q t ih =>
    obtain ⟨j, w⟩ := q
    unfold Table.set at h
    split at h
    · rcases List.mem_cons.mp h with h | h
      · exact .inr h
      · exact .inl (List.mem_cons_of_mem _ h)
    · split at h
      · rcases List.mem_cons.mp h with h | h
        · exact .inr h
        · exact .inl h
      · rcases List.mem_cons.mp h with h | h
        · exact .inl (h ▸ List.mem_cons_self)
        · exact (ih h).imp_left (List.mem_cons_of_mem _)

theorem Column.bar_putBar (k : Column) (gang b : Nat) (x : Barrier) : (k.putBar gang b x).bar gang b = x := Table.getD_set_same _ _ _ _

/-- What the waking of parked warps leaves of a column: its barriers, and every warp that is not parked at a full phase of a barrier. -/
structure Woken (k k' : Column) : Prop where
  bars  : k'.bars = k.bars
  warps : ∀ p ∈ k'.warps, p ∈ k.warps ∨ p.2.park = .none

theorem Woken.refl (k : Column) : Woken k k := ⟨rfl, fun _ h => .inl h⟩

theorem Woken.trans {k k1 k2 : Column} (h : Woken k k1) (g : Woken k1 k2) : Woken k k2 :=
  ⟨g.bars.trans h.bars, fun p hp => (g.warps p hp).elim (h.warps p) .inr⟩

theorem Woken.barWake (k : Column) (s b : Nat) : Woken k (k.barWake s b) := by
  refine ⟨rfl, fun p hp => ?_⟩
  rcases Table.mem_of_mem_set hp with h | rfl
  · exact .inl h
  · exact .inr rfl

theorem Woken.foldl {α : Type} (f : Column → α → Column) (h : ∀ k x, Woken k (f k x)) (l : List α) (k : Column) : Woken k (l.foldl f k) := by
  induction l generalizing k with
  | nil => exact .refl k
  | cons x l ih => exact (h k x).trans (ih _)

theorem Woken.barWakeAll (k : Column) (gang b : Nat) : Woken k (k.barWakeAll gang b) := by
  unfold Column.barWakeAll
  refine .foldl _ (fun k x => ?_) _ _
  split
  · split
    · exact .barWake _ _ _
    · exact .refl _
  · exact .refl _

/-- No warp of a gang is parked at a full phase of a barrier, so that none arrives late. -/
theorem barLateAll_of_none {s : State} {c gang b : Nat}
    (h : ∀ w ∈ (s.dev.col c).warps, w.2.gang = gang → ∀ n form m, w.2.park ≠ .barFull b n form m) : s.barLateAll c gang b = s := by
  unfold State.barLateAll
  have hnone : ∀ w ∈ (s.dev.col c).gangWarps gang, ∀ n form m, w.2.park ≠ .barFull b n form m := fun w hw => by
    obtain ⟨hmem, hg⟩ := List.mem_filter.mp hw
    exact h w hmem (beq_iff_eq.mp hg)
  generalize (s.dev.col c).gangWarps gang = l at hnone
  induction l with
  | nil => rfl
  | cons w l ih =>
    have hw := hnone w List.mem_cons_self
    have ht := ih fun x hx => hnone x (List.mem_cons_of_mem _ hx)
    rw [List.foldl_cons]
    refine Eq.trans (congrArg (fun t => List.foldl _ t l) ?_) ht
    split
    · rename_i x n form m hp
      refine if_neg fun hx => hw n form m ?_
      rw [← hx]
      exact hp
    · rfl

theorem exec_barrierPhaseComplete {s : State} {c gang b : Nat} (hfull : ((s.dev.col c).bar gang b).full = true)
    (hclear : (s.dev.col c).trackerClear s.dev.now ((s.dev.col c).bar gang b).mask (fun t => t.gang == gang) = true)
    (hnone : ∀ w ∈ (s.dev.col c).warps, w.2.gang = gang → ∀ n form m, w.2.park ≠ .barFull b n form m) :
    let k := s.dev.col c
    ∃ u, exec (.barrierPhaseComplete c gang b) s = .next u ∧ u.vault = s.vault ∧
      (u.dev.col c).bar gang b = { arr := (k.bar gang b).engines, exp := 0, phase := (k.bar gang b).phase + 1, mask := 0, engines := 0 } := by
  intro k
  let y : Barrier := { arr := (k.bar gang b).engines, exp := 0, phase := (k.bar gang b).phase + 1, mask := 0, engines := 0 }
  let t : State := { s with dev := s.dev.modCol c (fun k => (k.putBar gang b y).barWakeAll gang b) }
  have hcol : t.dev.col c = (k.putBar gang b y).barWakeAll gang b := Dev.col_modCol _ _ _
  have hwoken : Woken (k.putBar gang b y) (t.dev.col c) := hcol ▸ .barWakeAll _ _ _
  have hlate : t.barLateAll c gang b = t := barLateAll_of_none fun w hw hg n form m hp => by
    rcases hwoken.warps w hw with h | h
    · exact hnone w h hg n form m hp
    · rw [h] at hp
      cases hp
  have hc : (((s.dev.col c).bar gang b).full && (s.dev.col c).trackerClear s.dev.now ((s.dev.col c).bar gang b).mask (fun t => t.gang == gang)) = true := by
    rw [hfull, hclear]
    rfl
  refine ⟨t, (if_pos hc).trans (congrArg _ hlate), rfl, ?_⟩
  rw [Column.bar, hwoken.bars]
  exact k.bar_putBar gang b y

/-! ## The phases of domain barriers -/

theorem Dev.bard_putBard (d : Dev) (x : BardState) : (d.putBard x).bard x.launch x.unit x.channel = x := by
  simp [Dev.bard, Dev.putBard]

theorem Dev.bard_key (d : Dev) (launch unit channel : Nat) :
    (d.bard launch unit channel).launch = launch ∧ (d.bard launch unit channel).unit = unit ∧ (d.bard launch unit channel).channel = channel := by
  unfold Dev.bard
  cases h : d.bards.find? (fun b => b.launch == launch && b.unit == unit && b.channel == channel) with
  | none => exact ⟨rfl, rfl, rfl⟩
  | some x =>
    have := List.find?_some h
    simp only [Bool.and_eq_true, beq_iff_eq] at this
    exact ⟨this.1.1, this.1.2, this.2⟩

/-- What the waking of parked warps leaves of a device: the channels of its domain barriers, and every warp that is not parked. -/
structure Dev.Woken (d e : Dev) : Prop where
  bards : e.bards = d.bards
  warps : ∀ c y, e.warp c y = d.warp c y ∨ (e.warp c y).park = .none

theorem Dev.Woken.refl (d : Dev) : d.Woken d := ⟨rfl, fun _ _ => .inl rfl⟩

theorem Dev.Woken.bardWake (d : Dev) (c slot unit channel : Nat) : d.Woken (d.modCol c (fun k => k.bardWake slot unit channel)) := by
  refine ⟨rfl, fun e y => ?_⟩
  by_cases he : e = c
  · subst he
    rw [Dev.warp, Dev.col_modCol]
    by_cases hy : y = slot
    · subst hy
      exact .inr (congrArg Warp.park (Column.warp_putWarp _ _ _))
    · exact .inl (Table.getD_set_ne _ _ _ hy)
  · rw [Dev.warp, Dev.col_modCol_ne _ _ _ he]
    exact .inl rfl

/-- A warp that is not parked at a full phase of a channel wakes as the phase completes, or nothing changes. -/
theorem Dev.Woken.bardNext {d : Dev} {x : BardState} {c slot : Nat} (h : ∀ form m, (d.warp c slot).park ≠ .bardFull x.unit x.channel form m) :
    d.Woken (d.bardNext x c slot) := by
  unfold Dev.bardNext
  dsimp only
  split
  · split
    · exact .bardWake _ _ _ _ _
    · exact .refl _
  · rename_i u ch form m hp
    split
    · rename_i hc
      obtain ⟨rfl, rfl, -⟩ := hc
      exact absurd hp (h form m)
    · exact .refl _
  · exact .refl _

theorem fold_bardNext_bards (x : BardState) (l : List (Nat × Nat)) (d : Dev)
    (h : ∀ p ∈ l, ∀ form m, (d.warp p.1 p.2).park ≠ .bardFull x.unit x.channel form m) :
    (l.foldl (fun d w => d.bardNext x w.1 w.2) d).bards = d.bards := by
  induction l generalizing d with
  | nil => rfl
  | cons p l ih =>
    have hw := Dev.Woken.bardNext (h p List.mem_cons_self)
    refine (ih _ fun q hq form m hp => ?_).trans hw.bards
    rcases hw.warps q.1 q.2 with e | e
    · rw [e] at hp
      exact h q (List.mem_cons_of_mem _ hq) form m hp
    · rw [e] at hp
      cases hp

theorem Dev.bard_congr {d e : Dev} (h : e.bards = d.bards) (launch unit channel : Nat) : e.bard launch unit channel = d.bard launch unit channel := by
  unfold Dev.bard
  rw [h]

theorem exec_bardPhaseComplete {s : State} {launch unit channel : Nat} :
    let x := s.dev.bard launch unit channel
    s.dev.launches.has launch = true → s.dev.standing (((s.dev.launches.get? launch).map (fun l => l.ctx)).getD 0) = true →
    s.dev.bardFull x = true → s.dev.unitClear x = true → x.arrived ≠ [] →
    (∀ p ∈ s.dev.launchWarps launch, ∀ form m, (s.dev.warp p.1 p.2).park ≠ .bardFull x.unit x.channel form m) →
      ∃ u, exec (.bardPhaseComplete launch unit channel) s = .next u ∧ u.vault = s.vault ∧
        u.dev.bard x.launch x.unit x.channel = { x with phase := x.phase + 1, arrived := [], mask := 0 } := by
  intro x hhas hstand hfull hclear harr hnone
  let y : BardState := { x with phase := x.phase + 1, arrived := [], mask := 0 }
  have hc : (s.dev.launches.has launch && s.dev.standing (((s.dev.launches.get? launch).map (fun l => l.ctx)).getD 0) && s.dev.bardFull x &&
      s.dev.unitClear x && !x.arrived.isEmpty) = true := by
    rw [hhas, hstand, hfull, hclear]
    simpa using harr
  have hb : ((s.dev.launchWarps launch).foldl (fun d w => d.bardNext y w.1 w.2) (s.dev.putBard y)).bards = (s.dev.putBard y).bards :=
    fold_bardNext_bards y _ _ hnone
  refine ⟨_, if_pos hc, rfl, ?_⟩
  refine (Dev.bard_congr hb _ _ _).trans ?_
  exact s.dev.bard_putBard y

/-! ## The active set -/

theorem Dev.enterOne_of_room {d : Dev} {c slot : Nat} {w : Warp} (hlast : (d.col c).lastEnter ≠ some d.now) (hcand : d.candidate c = some (slot, w))
    (hroom : ((d.col c).warps.filter (fun x => x.2.active)).length < 8) : d.enterOne c = d.modCol c (fun k => k.activate slot d.now) := by
  unfold Dev.enterOne
  rw [if_neg hlast, hcand]
  exact if_pos hroom

theorem Dev.enterOne_of_overdue {d : Dev} {c slot t : Nat} {w v : Warp} (hlast : (d.col c).lastEnter ≠ some d.now)
    (hcand : d.candidate c = some (slot, w)) (hfull : 8 ≤ ((d.col c).warps.filter (fun x => x.2.active)).length) (hover : w.overdueAt ≠ none)
    (hlow : (d.col c).lowest = some (t, v)) :
    d.enterOne c = d.modCol c (fun k => (k.putWarp t { k.warp t with active := false, entered := d.now }).activate slot d.now) := by
  unfold Dev.enterOne
  rw [if_neg hlast, hcand]
  refine (if_neg (Nat.not_lt.mpr hfull)).trans ((if_pos (Option.isSome_iff_ne_none.mpr hover)).trans ?_)
  rw [hlow]

theorem Dev.enterOne_of_none {d : Dev} {c : Nat} (h : (d.col c).lastEnter = some d.now ∨ d.candidate c = none) : d.enterOne c = d := by
  by_cases hlast : (d.col c).lastEnter = some d.now
  · exact if_pos hlast
  · refine (if_neg hlast).trans ?_
    rw [h.resolve_left hlast]

theorem exec_warpOverdue {s : State} {c slot : Nat} (hcount : 320 ≤ (s.dev.warp c slot).overdueCount) (hnone : (s.dev.warp c slot).overdueAt = none)
    (hhas : (s.dev.col c).warps.has slot = true) :
    exec (.warpOverdue c slot) s = .next { s with dev := s.dev.modWarp c slot (fun v => { v with overdueAt := some s.dev.now }) } := by
  refine (if_pos hhas).trans ?_
  have h : (s.dev.warp c slot).overdue s.dev.now = { s.dev.warp c slot with overdueAt := some s.dev.now } := if_pos ⟨hcount, hnone⟩
  exact congrArg (fun w => Host.Outcome.next { s with dev := s.dev.putWarp c slot w }) h

end Sys2Proof.Machine
end

section
namespace Sys2Proof
open Sys2Proof.Machine

/-- Settles O34. -/
theorem completionEvents : Obligations.CompletionEvents := by
  refine ⟨?_, ?_⟩
  · intro s c k
    refine ⟨fun op o hop hstore hmsg hlanes hlogged hresv hentry => ?_, fun _ _ => rfl, fun _ _ hw hr => exec_releaseWaitEnd hw hr,
      exec_sequencerTicket, fun _ _ hfull hclear hnone => exec_barrierPhaseComplete hfull hclear hnone,
      fun _ _ _ => exec_bardPhaseComplete⟩
    refine ⟨_, exec_gwctReturn hop hstore hmsg hlanes hlogged hresv, rfl, ?_, ?_, ?_⟩
    · rw [Dev.col_modCol, ← Column.op?_id hop]
      exact k.storeDone_op? o
    · rw [Dev.warp, Dev.col_modCol, Column.storeDone_warp hentry hstore]
      rfl
    · rw [Dev.warp, Dev.col_modCol, Column.storeDone_warp hentry hstore]
      rfl
  · intro s c slot w k up
    refine ⟨fun hlast hcand => ⟨fun hroom => ?_, fun t v hfull hover hlow => ?_⟩, fun h => ?_, exec_warpOverdue⟩
    · exact congrArg (fun d => Host.Outcome.next { s with dev := d }) (Dev.enterOne_of_room hlast hcand hroom)
    · exact congrArg (fun d => Host.Outcome.next { s with dev := d }) (Dev.enterOne_of_overdue hlast hcand hfull hover hlow)
    · exact congrArg (fun d => Host.Outcome.next { s with dev := d }) (Dev.enterOne_of_none h)

end Sys2Proof
end

section
/-! Proofs about what arrives at a column from others (R279-R281, R286, R291-R293, R297). -/

namespace Sys2Proof.Machine

/-! ## A send taken -/

/-- A commit changes registers of its operation's warp, and marks of operations and tile operations. -/
theorem Column.commitReg_frame (k : Column) (o : MemOp) (r : Nat) :
    { (k.commitReg o r).warp o.slot with regs := (k.warp o.slot).regs } = k.warp o.slot ∧ (k.commitReg o r).xbuf = k.xbuf := by
  refine ⟨?_, ?_⟩
  · rw [Column.warp_commitReg]
    exact Warp.write_frame _ _ _ _ _
  · unfold Column.commitReg
    dsimp only
    split <;> rfl

theorem Column.commit_frame (k : Column) (o : MemOp) :
    ((k.commit o).warp o.slot).loads = (k.warp o.slot).loads ∧ (k.commit o).xbuf = k.xbuf := by
  unfold Column.commit
  generalize (o.done.map (fun x => x.reg)).eraseDups = rs
  induction rs generalizing k with
  | nil => exact ⟨rfl, rfl⟩
  | cons r rs ih =>
    obtain ⟨hw, hx⟩ := k.commitReg_frame o r
    obtain ⟨hl, hb⟩ := ih (k.commitReg o r)
    exact ⟨hl.trans (congrArg Warp.loads hw :), hb.trans hx⟩

/-- The operation of an exchange with its data. -/
def MemOp.withData (o : MemOp) (x : XchOp) (reg : VReg) : MemOp :=
  { o with
    fmt := reg.fmt, done := (Mask.list x.lsp).map (fun l => { reg := x.vd, lane := l, val := reg.data.lane l, pois := reg.data.pois l }) }

theorem Column.xchWrite_eq {k : Column} {x : XchOp} {o : MemOp} (reg : VReg) (hop : k.op? x.op = some o) (hall : x.lsp = Mask.all) (hkilled : o.killed = []) :
    let k1 := k.commit (o.withData x reg)
    let k2 := k1.putWarp x.slot { k1.warp x.slot with regs := (k1.warp x.slot).regs.set x.vd reg }
    k.xchWrite x reg = (k2.delOp x.op).putWarp x.slot ((k2.delOp x.op).warp x.slot).unload := by
  intro k1 k2
  have hwhole : (if x.lsp = Mask.all ∧ o.killed = [] then k2 else k1) = k2 := if_pos ⟨hall, hkilled⟩
  unfold Column.xchWrite
  rw [hop]
  exact congrArg (fun k : Column => (k.delOp x.op).putWarp x.slot ((k.delOp x.op).warp x.slot).unload) hwhole

theorem Column.xchWrite_spec {k : Column} {x : XchOp} {o : MemOp} (reg : VReg) (hop : k.op? x.op = some o) (hslot : o.slot = x.slot)
    (hall : x.lsp = Mask.all) (hkilled : o.killed = []) :
    ((k.xchWrite x reg).warp x.slot).reg x.vd = reg ∧ ((k.xchWrite x reg).warp x.slot).loads = (k.warp x.slot).loads - 1 ∧
      (k.xchWrite x reg).xbuf = k.xbuf := by
  obtain ⟨hloads, hxbuf⟩ := k.commit_frame (o.withData x reg)
  rw [show (o.withData x reg).slot = x.slot from hslot] at hloads
  rw [k.xchWrite_eq reg hop hall hkilled]
  refine ⟨?_, ?_, hxbuf⟩
  · rw [Column.warp_putWarp]
    change ((Column.putWarp _ _ _).warp x.slot).reg x.vd = reg
    rw [Column.warp_putWarp]
    exact Table.getD_set_same _ _ _ _
  · rw [Column.warp_putWarp]
    change ((Column.putWarp _ _ _).warp x.slot).loads - 1 = _
    rw [Column.warp_putWarp]
    exact congrArg (· - 1) hloads

theorem Dev.col_recordCol (d : Dev) (c e : Nat) (r : RecordInfo) : (d.recordCol c r).col e = d.col e := rfl

theorem Dev.xchTake_col (d : Dev) (c : Nat) (x : XchOp) (y : XSend) :
    (d.xchTake c x y).col c = (({ d.col c with xbuf := (d.col c).xbuf.del x.slot } : Column).xchWrite x y.reg).putXch { x with wants := false } := by
  unfold Dev.xchTake
  dsimp only
  split
  · rw [Dev.col_modCol]
  · rw [Dev.col_recordCol, Dev.col_modCol]

theorem exec_xchSendArrival_taken {s : State} {c slot : Nat} {y : XSend} {x : XchOp} {o : MemOp} (hbuf : (s.dev.col c).xbuf.get? slot = some y)
    (hfind : (s.dev.col c).xchs.find? (fun x => x.slot == slot && x.wants) = some x) (hop : (s.dev.col c).op? x.op = some o)
    (hslot : o.slot = slot) (hkilled : o.killed = []) (hall : x.lsp = Mask.all) :
    ∃ u, exec (.xchSendArrival c slot) s = .next u ∧ u.vault = s.vault ∧ (u.dev.warp c slot).reg x.vd = y.reg ∧
      (u.dev.warp c slot).loads = (s.dev.warp c slot).loads - 1 ∧ (u.dev.col c).xbuf.get? slot = none := by
  have hx : x.slot = slot := by
    have h := List.find?_some hfind
    simp only [Bool.and_eq_true, beq_iff_eq] at h
    exact h.1
  have hi : exec (.xchSendArrival c slot) s = .next { s with dev := s.dev.xchTake c x y } := by
    change execXchSendArrival c slot s = _
    unfold execXchSendArrival
    dsimp only
    rw [hbuf, hfind]
  obtain ⟨hreg, hloads, hxbuf⟩ := Column.xchWrite_spec (k := { s.dev.col c with xbuf := (s.dev.col c).xbuf.del x.slot }) y.reg hop
    (hslot.trans hx.symm) hall hkilled
  refine ⟨_, hi, rfl, ?_, ?_, ?_⟩
  · rw [Dev.warp, Dev.xchTake_col, ← hx]
    exact hreg
  · rw [Dev.warp, Dev.xchTake_col, ← hx]
    exact hloads
  · rw [Dev.xchTake_col]
    change (Column.xchWrite _ x y.reg).xbuf.get? slot = none
    rw [hxbuf, Table.get?_del, if_pos hx.symm]

/-! ## A send that enters the buffer -/

/-- An acceptance leaves warps and buffers alone. -/
theorem Dev.xchAccept_col (d : Dev) (e t c : Nat) (x : XchOp) :
    ((d.xchAccept e t x).col c).warps = (d.col c).warps ∧ ((d.xchAccept e t x).col c).xbuf = (d.col c).xbuf := by
  unfold Dev.xchAccept
  by_cases hc : c = e
  · subst hc
    rw [Dev.col_modCol]
    exact ⟨rfl, rfl⟩
  · rw [Dev.col_modCol_ne _ _ _ hc]
    exact ⟨rfl, rfl⟩

theorem exec_xchSendArrival_enters {s : State} {c slot : Nat} {p : Nat × XchOp} (hbuf : (s.dev.col c).xbuf.get? slot = none)
    (hnext : s.dev.xchNextSend c slot = some p) :
    ∃ u, exec (.xchSendArrival c slot) s = .next u ∧ u.vault = s.vault ∧ (u.dev.warp c slot).loads = (s.dev.warp c slot).loads ∧
      (u.dev.col c).xbuf.get? slot = some { dom := p.2.dom, pk := p.2.pk, pp := p.2.pp, reg := p.2.reg } := by
  have hi : exec (.xchSendArrival c slot) s = .next { s with dev := (s.dev.modCol c (fun k =>
      { k with xbuf := k.xbuf.set slot { dom := p.2.dom, pk := p.2.pk, pp := p.2.pp, reg := p.2.reg } })).xchAccept p.1 c p.2 } := by
    change execXchSendArrival c slot s = _
    unfold execXchSendArrival
    simp only [hbuf, hnext]
  let d := s.dev.modCol c (fun k => { k with xbuf := k.xbuf.set slot { dom := p.2.dom, pk := p.2.pk, pp := p.2.pp, reg := p.2.reg } })
  obtain ⟨hwarps, hxbuf⟩ := d.xchAccept_col p.1 c c p.2
  have hd : d.col c = { s.dev.col c with xbuf := (s.dev.col c).xbuf.set slot { dom := p.2.dom, pk := p.2.pk, pp := p.2.pp, reg := p.2.reg } } :=
    Dev.col_modCol _ _ _
  rw [hd] at hwarps hxbuf
  refine ⟨_, hi, rfl, ?_, ?_⟩
  · change (Column.warp _ slot).loads = _
    rw [Column.warp, show Column.warps _ = _ from hwarps]
    rfl
  · rw [show Column.xbuf _ = _ from hxbuf, Table.get?_set_same]

theorem find?_xchPending (d : Dev) (c slot : Nat) (q : Nat × XchOp → Bool) :
    ((d.xchPending c).filter (fun p => d.member p.2 c == some slot)).find? q =
      (d.xchPending c).find? (fun p => d.member p.2 c == some slot && q p) := by
  rw [List.find?_filter]
  simp only [Bool.decide_and, Bool.decide_eq_true]

/-- A send of an exchange that the warp has not gone past comes next. -/
theorem xchNextSend_due {d : Dev} {c slot : Nat} {p : Nat × XchOp}
    (h : (d.xchPending c).find? (fun p => d.member p.2 c == some slot && decide (p.2.idx ≤ (d.col c).xchNext slot)) = some p) :
    d.xchNextSend c slot = some p := by
  unfold Dev.xchNextSend
  dsimp only
  rw [find?_xchPending, h]

/-- Where every send to the slot is of a later exchange, none is due. -/
theorem find?_due_none {d : Dev} {c slot : Nat}
    (h : ∀ q ∈ (d.xchPending c).filter (fun q => d.member q.2 c == some slot), (d.col c).xchNext slot < q.2.idx) :
    ((d.xchPending c).filter (fun q => d.member q.2 c == some slot)).find? (fun p => decide (p.2.idx ≤ (d.col c).xchNext slot)) = none := by
  refine List.find?_eq_none.mpr fun q hq => ?_
  rw [decide_eq_true_eq]
  exact Nat.not_le.mpr (h q hq)

theorem xchNextSend_unfed {d : Dev} {c slot : Nat} {x : XchOp} {p : Nat × XchOp}
    (hx : (d.col c).xchs.find? (fun x => x.slot == slot && x.wants) = some x) (hunfed : d.xchUnfed c x = true)
    (hlater : ∀ q ∈ (d.xchPending c).filter (fun q => d.member q.2 c == some slot), (d.col c).xchNext slot < q.2.idx)
    (hp : ((d.xchPending c).filter (fun q => d.member q.2 c == some slot)).find? (fun q =>
      ((d.xchPending c).filter (fun q => d.member q.2 c == some slot)).all (fun r => decide (q.2.idx ≤ r.2.idx))) = some p) :
    d.xchNextSend c slot = some p := by
  unfold Dev.xchNextSend
  dsimp only
  rw [find?_due_none hlater, hx]
  exact (if_pos hunfed).trans hp

theorem xchNextSend_none {d : Dev} {c slot : Nat}
    (hlater : ∀ q ∈ (d.xchPending c).filter (fun q => d.member q.2 c == some slot), (d.col c).xchNext slot < q.2.idx)
    (hfed : ∀ x, (d.col c).xchs.find? (fun x => x.slot == slot && x.wants) = some x → d.xchUnfed c x = false) : d.xchNextSend c slot = none := by
  unfold Dev.xchNextSend
  dsimp only
  rw [find?_due_none hlater]
  cases hx : (d.col c).xchs.find? (fun x => x.slot == slot && x.wants) with
  | none => rfl
  | some x => exact if_neg (ne_true_of_eq_false (hfed x hx))

theorem exec_xchSendArrival_idle {s : State} {c slot : Nat} (hbuf : (s.dev.col c).xbuf.get? slot = none)
    (hpend : ∀ p ∈ s.dev.xchPending c, s.dev.member p.2 c ≠ none ∧ (s.dev.member p.2 c = some slot → (s.dev.col c).xchNext slot < p.2.idx))
    (hfed : ∀ x, (s.dev.col c).xchs.find? (fun x => x.slot == slot && x.wants) = some x → s.dev.xchUnfed c x = false) :
    exec (.xchSendArrival c slot) s = .next s := by
  have hnext : s.dev.xchNextSend c slot = none := xchNextSend_none (fun q hq => by
    obtain ⟨hmem, hslot⟩ := List.mem_filter.mp hq
    exact (hpend q hmem).2 (beq_iff_eq.mp hslot)) hfed
  have hlive : (s.dev.xchPending c).find? (fun p => s.dev.member p.2 c == none) = none := by
    refine List.find?_eq_none.mpr fun q hq => ?_
    rw [beq_iff_eq]
    exact (hpend q hq).1
  change execXchSendArrival c slot s = _
  unfold execXchSendArrival
  simp only [hbuf, hnext, hlive]

/-! ## Messages -/

theorem Column.deliver_ring (k : Column) (n src slot tick : Nat) (words : List (Word × Bool)) :
    (k.deliver n src slot tick words).ring n = { k.ring n with tail := (k.ring n).tail + BitVec.ofNat 32 (32 + 4 * words.length) } :=
  Table.getD_set_same _ _ _ _

/-- A change of a column keeps what it keeps of that column, of every column. -/
theorem Dev.keep_modCol {α : Type} (p : Column → α) (d : Dev) (c e : Nat) {g : Column → Column} (h : p (g (d.col c)) = p (d.col c)) :
    p ((d.modCol c g).col e) = p (d.col e) := by
  by_cases he : e = c
  · subst he
    rw [Dev.col_modCol, h]
  · rw [Dev.col_modCol_ne _ _ _ he]

/-- A delivered message leaves the outbound buffer, its operation marked. -/
def Column.sent! (k : Column) (entry op now : Nat) : Column :=
  let k : Column := { k with outbuf := k.outbuf.eraseIdx entry }
  match k.op? op with
  | some o => k.setOp { o with mark := true, time := now }
  | none => k

theorem Column.sent!_rings (k : Column) (entry op now : Nat) : (k.sent! entry op now).rings = k.rings := by
  unfold Column.sent!
  dsimp only
  split <;> rfl

theorem exec_msgDelivery_taken {s : State} {c entry : Nat} {m : OutMsg} (hm : (s.dev.col c).outbuf[entry]? = some m) (haway : m.away = false)
    (hfirst : ((s.dev.col c).outbuf.take entry).any (fun e => e.dcol == m.dcol && e.ring == m.ring) = false)
    (htakes : ((s.dev.col m.dcol).ring m.ring).takes (4 * m.words.length) = true) :
    let r := (s.dev.col m.dcol).ring m.ring
    ∃ u, exec (.msgDelivery c entry) s = .next u ∧ u.vault = s.vault ∧
      (u.dev.col m.dcol).ring m.ring = { r with tail := r.tail + BitVec.ofNat 32 (32 + 4 * m.words.length) } := by
  intro r
  let d := s.dev.modCol m.dcol (fun k => k.deliver m.ring c m.slot s.dev.now m.words)
  have hi : exec (.msgDelivery c entry) s = .next { s with dev := d.modCol c (fun k => k.sent! entry m.op s.dev.now) } := by
    change execMsgDelivery c entry s = _
    unfold execMsgDelivery
    simp only [hm, haway, hfirst, htakes, Bool.or_self, Bool.false_eq_true, if_false, if_true] <;> rfl
  refine ⟨_, hi, rfl, ?_⟩
  rw [Column.ring, d.keep_modCol Column.rings c m.dcol (Column.sent!_rings _ entry m.op s.dev.now), Dev.col_modCol]
  exact Column.deliver_ring _ _ _ _ _ _

theorem exec_msgDelivery_turned {s : State} {c entry : Nat} {m : OutMsg} (hm : (s.dev.col c).outbuf[entry]? = some m) (haway : m.away = false)
    (hfirst : ((s.dev.col c).outbuf.take entry).any (fun e => e.dcol == m.dcol && e.ring == m.ring) = false)
    (htakes : ((s.dev.col m.dcol).ring m.ring).takes (4 * m.words.length) = false) :
    ∃ u, exec (.msgDelivery c entry) s = .next u ∧ u.vault = s.vault ∧
      (u.dev.col m.dcol).rings = (s.dev.col m.dcol).rings ∧ (c, m.ring) ∈ (u.dev.col m.dcol).turned ∧
      (u.dev.col c).outbuf = (s.dev.col c).outbuf.set entry { m with away := true } := by
  let d := s.dev.modCol m.dcol (fun k => { k with turned := if k.turned.contains (c, m.ring) then k.turned else k.turned ++ [(c, m.ring)] })
  have hi : exec (.msgDelivery c entry) s = .next { s with dev := d.modCol c (fun k =>
      { k with outbuf := k.outbuf.set entry { m with away := true } }) } := by
    change execMsgDelivery c entry s = _
    unfold execMsgDelivery
    simp only [hm, haway, hfirst, htakes, Bool.or_self, Bool.false_eq_true, if_false] <;> rfl
  have hturned : ∀ k : Column, (c, m.ring) ∈ (if k.turned.contains (c, m.ring) then k.turned else k.turned ++ [(c, m.ring)]) := fun k => by
    by_cases h : k.turned.contains (c, m.ring) = true
    · rw [if_pos h]
      exact List.contains_iff_mem.mp h
    · rw [if_neg h]
      exact List.mem_append_right _ List.mem_cons_self
  have hout : (d.col c).outbuf = (s.dev.col c).outbuf := by
    by_cases he : c = m.dcol
    · rw [he, Dev.col_modCol]
    · rw [Dev.col_modCol_ne _ _ _ he]
  refine ⟨_, hi, rfl, ?_, ?_, ?_⟩
  · refine (d.keep_modCol Column.rings c m.dcol (by rfl)).trans ?_
    rw [Dev.col_modCol]
  · have ht := d.keep_modCol Column.turned c m.dcol (g := fun k => { k with outbuf := k.outbuf.set entry { m with away := true } }) rfl
    rw [show Column.turned _ = _ from ht, Dev.col_modCol]
    exact hturned _
  · rw [Dev.col_modCol]
    exact congrArg (fun l => List.set l entry { m with away := true }) hout

theorem exec_msgCompletionReturn {s : State} {c op : Nat} {o : MemOp} (hop : (s.dev.col c).op? op = some o) (hk : o.kind = .msg) (hmark : o.mark = true) :
    exec (.msgCompletionReturn c op) s = .next { s with dev := s.dev.modCol c (fun k => k.storeDone o) } := by
  change execMsgCompletionReturn c op s = _
  unfold execMsgCompletionReturn
  rw [hop]
  exact if_pos ⟨hk, hmark⟩

theorem exec_ringChangeReport {s : State} {c dst ring : Nat} (h : (s.dev.col dst).reports.contains (c, ring) = true) :
    ∃ u, exec (.ringChangeReport c dst ring) s = .next u ∧ u.vault = s.vault ∧
      ∀ m ∈ (u.dev.col c).outbuf, m.dcol = dst → m.ring = ring → m.away = false := by
  refine ⟨_, if_pos h, rfl, ?_⟩
  intro m hm hd hr
  rw [Dev.col_modCol] at hm
  obtain ⟨n, -, rfl⟩ := List.mem_map.mp hm
  by_cases hn : n.dcol = dst ∧ n.ring = ring
  · rw [if_pos hn]
  · rw [if_neg hn] at hd hr
    exact absurd ⟨hd, hr⟩ hn

/-! ## The ends of parked waits -/

theorem Column.returnPair_park (k : Column) (s vd : Nat) (v : Word) (pois : Bool) (v' : Word) (acq : Bool) :
    ((k.returnPair s vd v pois v' acq).warp s).park = .none := by
  rw [Column.returnPair, Column.warp_unpark]

theorem Column.returnPair_watches (k : Column) (s vd : Nat) (v : Word) (pois : Bool) (v' : Word) (acq : Bool) :
    (k.returnPair s vd v pois v' acq).watches = k.watches := by
  have hput (k : Column) (r : Nat) (v : Word) (p : Bool) : (k.putUni s r v p).watches = k.watches :=
    (congrArg Column.watches (k.rest_writeReg s r Mask.all (Result.uni v p Fmt.ui32) false) :)
  have h : ((k.putUni s vd v pois).putUni s (vd + 1) v' false).watches = k.watches := by
    rw [hput, hput]
  cases acq <;> exact h

/-- A warp that wakes with two results. -/
theorem wakes_returnPair {i : Instr} {s : State} {d : Dev} {c slot vd : Nat} {k : Column} {v v' : Word} {pois acq : Bool}
    (hi : exec i s = .next { s with dev := d }) (hd : d.col c = k.returnPair slot vd v pois v' acq) (hk : k.warps = (s.dev.col c).warps) :
    ∃ u, exec i s = .next u ∧ u.vault = s.vault ∧ (u.dev.warp c slot).park = .none ∧ (u.dev.warp c slot).pc = (s.dev.warp c slot).pc + 1 ∧
      (u.dev.col c).watches = k.watches ∧
      ∀ l, l < 32 → (u.dev.warp c slot).laneOf vd l = v ∧ (u.dev.warp c slot).laneOf (vd + 1) l = v' := by
  have hw : d.warp c slot = (k.returnPair slot vd v pois v' acq).warp slot := by
    rw [← hd]
    rfl
  refine ⟨_, hi, rfl, ?_, ?_, ?_, fun l hl => ?_⟩
  · exact (congrArg Warp.park hw).trans (k.returnPair_park _ _ _ _ _ _)
  · refine (congrArg Warp.pc hw).trans ((k.returnPair_pc _ _ _ _ _ _).trans ?_)
    rw [Column.warp, hk]
    rfl
  · exact (congrArg Column.watches hd).trans (k.returnPair_watches _ _ _ _ _ _)
  · rw [show (State.dev _).warp c slot = _ from hw]
    exact k.returnPair_lanes _ _ _ _ _ _ hl

theorem watchOf_returned (k : Column) (slot : Nat) (k' : Column)
    (h : k'.watches = k.watches.filter (fun w => w.who != Watcher.warp slot)) : k'.watchOf slot = none := by
  rw [Column.watchOf, h]
  refine List.find?_eq_none.mpr fun w hw => ?_
  have := (List.mem_filter.mp hw).2
  simpa using this

end Sys2Proof.Machine
end

section
namespace Sys2Proof
open Sys2Proof.Machine

/-- Settles O33. -/
theorem exchangeEvents : Obligations.ExchangeEvents := by
  intro s c slot k w
  refine ⟨fun y x o hbuf hfind hop hslot hkilled _ hall => exec_xchSendArrival_taken hbuf hfind hop hslot hkilled hall,
    fun hbuf => ⟨fun p hp => exec_xchSendArrival_enters hbuf (xchNextSend_due hp), ?_, exec_xchSendArrival_idle hbuf⟩, ?_,
    fun op o hop hk hmark hentry => ?_, fun dst ring => exec_ringChangeReport, ?_, ?_⟩
  · intro x p mine hx hunfed hlater hp
    exact exec_xchSendArrival_enters hbuf (xchNextSend_unfed hx hunfed hlater hp)
  · intro entry m hm haway hfirst r
    exact ⟨exec_msgDelivery_taken hm haway hfirst, exec_msgDelivery_turned hm haway hfirst⟩
  · refine ⟨_, exec_msgCompletionReturn hop hk hmark, rfl, ?_, ?_⟩
    · rw [Dev.col_modCol, ← Column.op?_id hop]
      exact k.storeDone_op? o
    · rw [Dev.warp, Dev.col_modCol, Column.storeDone_warp hentry (by rw [hk]; rfl)]
      rfl
  · intro n t vd dl acq hpark woken
    refine ⟨fun ht => ?_, fun e he hdue => ?_⟩
    · have hi : exec (.rwaitWake c slot) s = .next { s with dev := s.dev.modCol c (fun k => k.rwaitDone slot n vd acq) } := by
        change execRwaitWake c slot s = _
        unfold execRwaitWake
        rw [show (s.dev.warp c slot).park = _ from hpark]
        exact if_pos ht
      obtain ⟨u, hu, hvault, hp, hpc, -, hregs⟩ := wakes_returnPair (k := k) hi (Dev.col_modCol _ _ _) rfl
      exact ⟨u, hu, hvault, hp, hpc, hregs⟩
    · have hi : exec (.rwaitTimeout c slot) s = .next { s with dev := s.dev.modCol c (fun k => k.rwaitDone slot n vd acq) } := by
        change execRwaitTimeout c slot s = _
        unfold execRwaitTimeout
        rw [show (s.dev.warp c slot).park = _ from hpark, he]
        exact if_pos hdue
      obtain ⟨u, hu, hvault, hp, hpc, -, hregs⟩ := wakes_returnPair (k := k) hi (Dev.col_modCol _ _ _) rfl
      exact ⟨u, hu, hvault, hp, hpc, hregs⟩
  · intro vd dl acq x hpark hwatch woken
    refine ⟨fun v st hfired => ?_, fun e he hdue hfired => ?_⟩
    · have hi : exec (.watchWake c slot) s = .next { s with dev := s.dev.modCol c (fun k => k.watchDone slot vd v x.pois st acq) } := by
        change execWatchWake c slot s = _
        unfold execWatchWake
        simp only [show (s.dev.warp c slot).park = _ from hpark, show (s.dev.col c).watchOf slot = _ from hwatch, hfired]
      obtain ⟨u, hu, hvault, hp, hpc, hw, hregs⟩ := wakes_returnPair (k := { k with watches := k.watches.filter (fun w => w.who != Watcher.warp slot) }) hi
        (Dev.col_modCol _ _ _) rfl
      exact ⟨u, hu, hvault, hp, hpc, watchOf_returned k slot _ hw, hregs⟩
    · have hi : exec (.watchTimeout c slot) s = .next { s with dev := { s.dev with free := s.dev.free + 1 }.modCol c (fun k =>
          k.watchDone slot vd (BitVec.ofNat 32 (numOf (s.seen c s.dev.free x.va 4))) (s.dev.poisoned (vkey c x.va)) 2 acq) } := by
        change execWatchTimeout c slot s = _
        unfold execWatchTimeout
        simp only [show (s.dev.warp c slot).park = _ from hpark, show (s.dev.col c).watchOf slot = _ from hwatch, he]
        exact if_pos ⟨hdue, by rw [hfired]; rfl⟩
      obtain ⟨u, hu, hvault, hp, hpc, hw, hregs⟩ := wakes_returnPair (k := { k with watches := k.watches.filter (fun w => w.who != Watcher.warp slot) }) hi
        (Dev.col_modCol _ _ _) rfl
      exact ⟨u, hu, hvault, hp, hpc, watchOf_returned k slot _ hw, hregs⟩

end Sys2Proof
end

section
/-! Proofs about the start of a memory operation (R217-R224, R283): what its lanes' lookups leave alone, and the operation that enters its
column. -/

namespace Sys2Proof.Machine

/-! ## What a lookup leaves alone -/

/-- A column without its caches, the entries of its fault filter and its side log. -/
def Column.asked (k : Column) : Column := { k.kept with l1 := [], filter := [], objs := [], log := [], lseq := 0 }

/-- Two devices differ at most in caches, the fault filter, the side log, the free counter and what errors leave. -/
structure SameOps (d e : Dev) : Prop where
  dev  : e.kept = d.kept
  cols : ∀ c, (e.col c).asked = (d.col c).asked

theorem SameOps.refl (d : Dev) : SameOps d d := ⟨rfl, fun _ => rfl⟩

theorem SameOps.trans {d e g : Dev} (h : SameOps d e) (k : SameOps e g) : SameOps d g :=
  ⟨k.dev.trans h.dev, fun c => (k.cols c).trans (h.cols c)⟩

theorem SameWarps.ops_same {d e : Dev} (h : SameWarps d e) : SameOps d e :=
  ⟨h.dev, fun c => (congrArg (fun k : Column => { k with l1 := [], filter := [], objs := [], log := [], lseq := 0 }) (h.cols c) :)⟩

theorem SameOps.modCol (d : Dev) (c : Nat) (f : Column → Column) (h : (f (d.col c)).asked = (d.col c).asked) : SameOps d (d.modCol c f) := by
  refine ⟨rfl, fun e => ?_⟩
  by_cases he : e = c
  · subst he
    rw [Dev.col_modCol, h]
  · rw [Dev.col_modCol_ne _ _ _ he]

theorem SameOps.cur {d e : Dev} (h : SameOps d e) : e.cur = d.cur := (congrArg Dev.cur h.dev :)
theorem SameOps.now {d e : Dev} (h : SameOps d e) : e.now = d.now := (congrArg Dev.now h.dev :)

theorem SameOps.curCol {d e : Dev} (h : SameOps d e) : e.curCol.asked = d.curCol.asked := by
  rw [Dev.curCol, h.cur]
  exact h.cols _

theorem SameOps.warps {d e : Dev} (h : SameOps d e) : e.curCol.warps = d.curCol.warps := (congrArg Column.warps h.curCol :)
theorem SameOps.ops {d e : Dev} (h : SameOps d e) : e.curCol.ops = d.curCol.ops := (congrArg Column.ops h.curCol :)
theorem SameOps.nextOp {d e : Dev} (h : SameOps d e) : e.curCol.nextOp = d.curCol.nextOp := (congrArg Column.nextOp h.curCol :)
theorem SameOps.atomq {d e : Dev} (h : SameOps d e) : e.curCol.hand.atomq = d.curCol.hand.atomq :=
  (congrArg (fun k : Column => k.hand.atomq) h.curCol :)

theorem SameOps.curWarp {d e : Dev} (h : SameOps d e) : e.curWarp = d.curWarp := by
  change e.curCol.warps.getD e.cur.slot Warp.start = d.curCol.warps.getD d.cur.slot Warp.start
  rw [h.warps, h.cur]

/-! ## The lookups -/

theorem Column.asked_l1Use (k : Column) (ctx : Nat) (as : List LaneAcc) : (k.l1Use ctx as).asked = k.asked := by
  unfold Column.l1Use
  induction as generalizing k with
  | nil => rfl
  | cons a as ih =>
    refine (ih _).trans ?_
    dsimp only
    cases k.l1Frame ctx (a.off / 512) <;> rfl

theorem Column.asked_report (k : Column) (now ctx gran : Nat) (f : Flt) (a : AccKind) : (k.report now ctx gran f a).asked = k.asked := by
  unfold Column.report
  cases k.filterOf ctx gran <;> rfl

theorem Column.asked_logLane (k : Column) (o : MemOp) (id : Nat) (a : LaneAcc) (now gran : Nat) (f : Flt) (acc : AccKind) (at_ : Option Nat) :
    (k.logLane o id a now gran f acc at_).asked = k.asked :=
  Column.asked_report _ _ _ _ _ _

theorem Column.asked_l1Send (k : Column) (now : Nat) (o : MemOp) : (k.l1Send now o).asked = k.asked := by
  have hstore (k : Column) (l : List LaneAcc) : (l.foldl (fun k a => k.l1Store now o.ctx a.off (o.pieceBytes a).1) k).asked = k.asked := by
    induction l generalizing k with
    | nil => rfl
    | cons a l ih => exact (ih _).trans rfl
  unfold Column.l1Send
  refine Eq.trans ?_ (hstore k o.lanes)
  generalize o.lanes.foldl (fun k a => k.l1Store now o.ctx a.off (o.pieceBytes a).1) k = k1
  generalize sectorsOf o.lanes = xs
  dsimp only
  generalize o.lanes = ls
  induction xs generalizing k1 with
  | nil => rfl
  | cons x xs ih => exact (ih _).trans rfl

theorem SameOps.l1Use (d : Dev) (c ctx : Nat) (as : List LaneAcc) : SameOps d (d.modCol c (fun k => k.l1Use ctx as)) :=
  .modCol _ _ _ (Column.asked_l1Use _ _ _)

theorem SameOps.seekLanes (c : Nat) (o : MemOp) (write priv : Bool) (as : List LaneAcc) (s : State) :
    SameOps s.dev (s.seekLanes c o write priv as).1 := by
  induction as generalizing s with
  | nil => exact .refl _
  | cons a as ih =>
    rw [State.seekLanes]
    generalize (if write = true then none else s.stableHit c o (a.pieces o.six (o.kind == OpKind.loadT))) = hit
    cases hit with
    | some ws => exact (SameOps.l1Use s.dev c o.ctx [a]).trans (ih { s with dev := s.dev.modCol c (fun k => k.l1Use o.ctx [a]) })
    | none =>
      have hr := (SameWarps.resolve s c o.ctx o.cpol write priv a).ops_same
      generalize s.resolve c o.ctx o.cpol write priv a = r at hr
      obtain ⟨r, d⟩ := r
      cases r with
      | error f => exact hr.trans (ih { s with dev := d })
      | ok b =>
        let ps := b.pieces o.six (o.kind == .loadT)
        refine hr.trans (SameOps.trans ?_ (ih { s with dev :=
          if ({ s with dev := d }.hitPieces c o ps).2.isEmpty then d else d.modCol c (fun k => k.l1Use o.ctx ps) }))
        dsimp only
        split
        · exact .refl _
        · exact .l1Use _ _ _ _

theorem SameOps.placeLanes (c : Nat) (o : MemOp) (acc : AccKind) (priv : Bool) (as : List LaneAcc) (s : State) :
    SameOps s.dev (s.placeLanes c o acc priv as).1 := by
  induction as generalizing s with
  | nil => exact .refl _
  | cons a as ih =>
    rw [State.placeLanes]
    have hr := (SameWarps.resolve s c o.ctx o.cpol (o.kind != .gpatch) priv a).ops_same
    generalize s.resolve c o.ctx o.cpol (o.kind != .gpatch) priv a = r at hr
    obtain ⟨r, d⟩ := r
    cases r with
    | ok b => exact hr.trans (ih { s with dev := d })
    | error f =>
      exact hr.trans ((SameOps.modCol d c (fun k => k.logLane o k.nextOp a d.now f.2 f.1 acc) (Column.asked_logLane _ _ _ _ _ _ _ _ _)).trans
        (ih { s with dev := d.modCol c (fun k => k.logLane o k.nextOp a d.now f.2 f.1 acc) }))

theorem SameOps.seekPref (c ctx : Nat) (cpol : BitVec 2) (priv : Bool) (as : List LaneAcc) (s : State) :
    SameOps s.dev (s.seekPref c ctx cpol priv as).1 := by
  induction as generalizing s with
  | nil => exact .refl _
  | cons a as ih =>
    rw [State.seekPref]
    have hr := (SameWarps.resolve s c ctx cpol false priv a).ops_same
    generalize s.resolve c ctx cpol false priv a = r at hr
    obtain ⟨r, d⟩ := r
    cases r <;> exact hr.trans (ih { s with dev := d })

/-- An operation that takes nothing from the L1. -/
def MemOp.farOnly (o : MemOp) : Prop := (o.kind.isLoad && !o.kind.isStore && o.kind != .xget) = false

theorem State.hitPieces_far {s : State} {c : Nat} {o : MemOp} (h : o.farOnly) (ps : List LaneAcc) : (s.hitPieces c o ps).2 = [] := by
  unfold State.hitPieces
  have hlook (a : LaneAcc) : (a.pol != 1 && o.kind.isLoad && !o.kind.isStore && o.kind != .xget) = false := by
    rw [Bool.and_assoc, Bool.and_assoc, ← Bool.and_assoc o.kind.isLoad, h, Bool.and_false]
  simp only [hlook, Bool.false_eq_true, if_false, List.map_map, Function.comp_def, Option.getD_none]
  induction ps with
  | nil => rfl
  | cons a ps ih => exact ih

theorem State.stableHit_far {s : State} {c : Nat} {o : MemOp} (h : o.cpol = 1 ∨ o.kind = .xget) (ps : List LaneAcc) : s.stableHit c o ps = none := by
  refine if_pos ?_
  simp only [Bool.or_eq_true, decide_eq_true_eq, beq_iff_eq]
  exact .inl h

theorem State.seekLanes_far {o : MemOp} {write : Bool} (hfar : o.farOnly) (hstable : write = true ∨ o.cpol = 1 ∨ o.kind = .xget) (c : Nat)
    (priv : Bool) (as : List LaneAcc) (s : State) : (s.seekLanes c o write priv as).2.2.1 = [] := by
  induction as generalizing s with
  | nil => rfl
  | cons a as ih =>
    rw [State.seekLanes]
    have hnone : (if write = true then none else s.stableHit c o (a.pieces o.six (o.kind == OpKind.loadT))) = none := by
      rcases hstable with rfl | h
      · rfl
      · rw [State.stableHit_far h, ite_self]
    rw [hnone]
    generalize s.resolve c o.ctx o.cpol write priv a = r
    obtain ⟨r, d⟩ := r
    cases r with
    | error f => exact ih { s with dev := d }
    | ok b =>
      let ps := b.pieces o.six (o.kind == .loadT)
      have hmore := ih { s with
        dev := if ({ s with dev := d }.hitPieces c o ps).2.isEmpty then d else d.modCol c (fun k => k.l1Use o.ctx ps) }
      exact (congrArg (· ++ _) (State.hitPieces_far hfar ps)).trans hmore

/-! ## The operation that enters -/

/-- A load whose lanes are all found is one operation of the column. -/
theorem State.startLoad_found {s : State} {o : MemOp} {acc : AccKind} {write priv : Bool} {c : Nat} (hc : s.dev.cur.col = c) (hdone : o.done = [])
    (h : (s.seekLanes c o write priv o.lanes).2.2.2 = []) :
    s.startLoad o acc write priv = ((s.seekLanes c o write priv o.lanes).1.enter c
      (o.sought o.id (s.seekLanes c o write priv o.lanes).2.1 (s.seekLanes c o write priv o.lanes).2.2.1), true) := by
  subst hc
  unfold State.startLoad
  dsimp only
  generalize s.seekLanes s.dev.cur.col o write priv o.lanes = r at h ⊢
  obtain ⟨d, ls, done, fs⟩ := r
  obtain rfl : fs = [] := h
  dsimp only
  rw [hdone]
  rfl

/-- What goes on with the device that a load leaves. -/
theorem Issue.of_found {r : Dev × Bool} {d : Dev} (h : r = (d, true)) (go : Dev → Issue) :
    (if r.2 then go r.1 else .hold r.1) = go d := by
  rw [h]
  exact if_pos rfl

/-- A device like another but for what a lookup and a release change: the issuing warp's wait. -/
structure Dev.Alike (d e : Dev) : Prop where
  cur   : e.cur = d.cur
  warp  : e.curWarp = { d.curWarp with relDone := e.curWarp.relDone, wait := e.curWarp.wait }
  ops   : e.curCol.ops = d.curCol.ops
  next  : e.curCol.nextOp = d.curCol.nextOp
  atomq : e.curCol.hand.atomq = d.curCol.hand.atomq

theorem SameOps.alike {d e : Dev} (h : SameOps d e) : d.Alike e := ⟨h.cur, by rw [h.curWarp], h.ops, h.nextOp, h.atomq⟩

theorem Dev.Alike.refl (d : Dev) : d.Alike d := ⟨rfl, rfl, rfl, rfl, rfl⟩

theorem Dev.Alike.trans {d e g : Dev} (h : d.Alike e) (k : e.Alike g) : d.Alike g := by
  refine ⟨k.cur.trans h.cur, ?_, k.ops.trans h.ops, k.next.trans h.next, k.atomq.trans h.atomq⟩
  rw [k.warp, h.warp]

theorem Dev.Alike.afterRelease (d : Dev) (on : Bool) : d.Alike (d.afterRelease on) := by
  have hc := d.afterRelease_col on
  refine ⟨d.afterRelease_cur on, d.afterRelease_warp on, ?_, ?_, ?_⟩ <;> rw [hc]

theorem Dev.Alike.loads {d e : Dev} (h : d.Alike e) : e.curWarp.loads = d.curWarp.loads := by rw [h.warp]
theorem Dev.Alike.stores {d e : Dev} (h : d.Alike e) : e.curWarp.stores = d.curWarp.stores := by rw [h.warp]

/-- An instruction's operation stands in its column, counted, and the issuing warp has no register or predicate changed. -/
structure Entered (s : State) (o : MemOp) (d : Dev) : Prop where
  cur    : d.cur = s.dev.cur
  regs   : d.curWarp.regs = s.dev.curWarp.regs
  preds  : d.curWarp.preds = s.dev.curWarp.preds
  loads  : d.curWarp.loads = s.dev.curWarp.loads + (if o.kind.isLoad then 1 else 0)
  stores : d.curWarp.stores = s.dev.curWarp.stores + (if o.kind.isStore then 1 else 0)
  ops    : d.curCol.ops = s.dev.curCol.ops ++ [{ o with id := s.dev.curCol.nextOp }]

theorem Dev.Alike.entered {s : State} {e : Dev} {o : MemOp} (h : s.dev.Alike e) (hslot : o.slot = s.dev.cur.slot) :
    Entered s o (e.enter s.dev.cur.col o) := by
  have hslot' : o.slot = e.cur.slot := by rw [hslot, h.cur]
  rw [← h.cur]
  have hw := Dev.enter_warp hslot'
  refine ⟨h.cur, ?_, ?_, ?_, ?_, ?_⟩
  · rw [hw, h.warp]
    rfl
  · rw [hw, h.warp]
    rfl
  · rw [hw, h.warp]
    rfl
  · rw [hw, h.warp]
    rfl
  · rw [Dev.enter_col hslot']
    change e.curCol.ops ++ [{ o with id := e.curCol.nextOp }] = _
    rw [h.ops, h.next]

theorem Dev.Alike.loadEntered {s : State} {e : Dev} (h : s.dev.Alike e) {o : MemOp} (hslot : o.slot = s.dev.cur.slot) (write priv : Bool) :
    let got := { s with dev := e }.seekLanes s.dev.cur.col o write priv o.lanes
    Entered s (o.sought o.id got.2.1 got.2.2.1) (got.1.enter s.dev.cur.col (o.sought o.id got.2.1 got.2.2.1)) :=
  (h.trans (SameOps.seekLanes s.dev.cur.col o write priv o.lanes { s with dev := e }).alike).entered hslot

theorem Dev.Alike.storeEntered {s : State} {e : Dev} (h : s.dev.Alike e) {o : MemOp} (hslot : o.slot = s.dev.cur.slot) (acc : AccKind) (priv : Bool) :
    let got := { s with dev := e }.placeLanes s.dev.cur.col o acc priv o.lanes
    Entered s { o with lanes := got.2.1, logged := got.2.2 } ({ s with dev := e }.startStore s.dev.cur.col o acc priv) := by
  have hplace := h.trans (SameOps.placeLanes s.dev.cur.col o acc priv o.lanes { s with dev := e }).alike
  unfold State.startStore
  dsimp only
  split
  · exact (hplace.trans (SameOps.modCol _ _ _ (Column.asked_l1Send _ _ _)).alike).entered hslot
  · exact hplace.entered hslot

/-- A change of the issuing column that keeps its warps and operations. -/
theorem Entered.modCurCol {s : State} {o : MemOp} {d : Dev} (h : Entered s o d) (g : Column → Column) (hw : (g d.curCol).warps = d.curCol.warps)
    (ho : (g d.curCol).ops = d.curCol.ops) : Entered s o (d.modCurCol g) := by
  have hwarp : (d.modCurCol g).curWarp = d.curWarp := by
    rw [Dev.curWarp_modCurCol]
    change (g d.curCol).warps.getD _ _ = _
    rw [hw]
    rfl
  refine ⟨h.cur, ?_, ?_, ?_, ?_, ?_⟩
  · rw [hwarp, h.regs]
  · rw [hwarp, h.preds]
  · rw [hwarp, h.loads]
  · rw [hwarp, h.stores]
  · rw [Dev.curCol_modCurCol, ho, h.ops]

/-- The step of the operands' index registers. -/
theorem Entered.step {s : State} {o : MemOp} {d : Dev} (h : Entered s o d) (x : VCtx) : Entered s o (x.step d) := by
  have hwarp : (x.step d).curWarp = d.curWarp.stepFields x.act x.pre x.fields := d.curWarp_modCurWarp _
  have hf := Warp.stepFields_frame d.curWarp x.act x.pre x.fields
  refine ⟨h.cur, ?_, ?_, ?_, ?_, ?_⟩
  · rw [hwarp]
    exact (congrArg Warp.regs hf :).trans h.regs
  · rw [hwarp]
    exact (congrArg Warp.preds hf :).trans h.preds
  · rw [hwarp]
    exact (congrArg Warp.loads hf :).trans h.loads
  · rw [hwarp]
    exact (congrArg Warp.stores hf :).trans h.stores
  · exact (congrArg Column.ops (Dev.curCol_modCurWarp _ _)).trans h.ops

/-- An instruction that retires with its operation entered. -/
theorem Entered.issues {i : Instr} {s : State} {o : MemOp} {d : Dev} (h : Entered s o d) (hi : exec i s = s.conclude (.retire d.advance)) :
    ∃ u, exec i s = .next u ∧ Issues s u ∧ u.dev.curWarp.loads = s.dev.curWarp.loads + (if o.kind.isLoad then 1 else 0) ∧
      u.dev.curWarp.stores = s.dev.curWarp.stores + (if o.kind.isStore then 1 else 0) ∧
      u.dev.curCol.ops = s.dev.curCol.ops ++ [{ o with id := s.dev.curCol.nextOp }] := by
  have hw : ({ d.advance with issued := .retired } : Dev).curWarp = _ := d.curWarp_advance
  have hc : ({ d.advance with issued := .retired } : Dev).curCol = _ := d.curCol_advance
  refine ⟨_, hi, .of_advance h.cur h.regs h.preds, ?_, ?_, ?_⟩
  · rw [hw]
    exact h.loads
  · rw [hw]
    exact h.stores
  · rw [hc]
    exact h.ops

end Sys2Proof.Machine
end

section
/-! Proofs about the start of exchanges (R278-R284): XCH, XGET and XPUT. -/

namespace Sys2Proof.Machine

/-! ## XCH -/

theorem xchIssue_starts {f : XFields} {s : State} {i : Nat} (hcov : s.dev.curRec.covers f.dom.toNat = some i) (hspawn : s.dev.curWarp.spawned = false)
    (hs : s.selected f.h) :
    let x := vctx s.dev f.h []
    let a := x.src 1 f.a
    x.notReady [Use.any a] = false → firstTrap [rangeBound x.regs (dstReg f.d) 1, a.boundCheck x.regs] = none →
    s.dev.curCol.acquiring s.dev.cur.slot = false → s.dev.curCol.xchs.any (fun o => o.slot == s.dev.cur.slot) = false → s.dev.curWarp.loads < 63 →
      xchIssue f s = .retire (s.dev.xchStart f a i).advance := by
  intro x a hready hchecks hacq hnone hloads
  have hroom : ¬ (s.dev.curCol.xchs.any (fun o => o.slot == s.dev.cur.slot) || !s.dev.curWarp.loadRoom) = true := by
    simp [hnone, Warp.loadRoom, hloads]
  unfold xchIssue
  dsimp only
  rw [hcov]
  refine (if_neg (ne_true_of_eq_false hspawn)).trans ?_
  rw [s.whole_of_selected hs]
  exact (Issue.of_checks hready hchecks).trans ((Dev.afterAcquire_of_not hacq _).trans (if_neg hroom))

/-- The operation by which an XCH awaits its data. -/
def xchOp (f : XFields) (d : Dev) (a : Src) : MemOp :=
  { d.newOp .xch a.tag 2 [] with resv := [(dstReg f.d, d.curWarp.pred f.lsp.toNat)], reach := 0 }

/-- The exchange as its column keeps it. -/
def xchEntry (f : XFields) (d : Dev) (a : Src) (level : Nat) : XchOp :=
  { slot := d.cur.slot, op := d.curCol.nextOp, idx := d.curWarp.xchCount, vd := dstReg f.d, lsp := d.curWarp.pred f.lsp.toNat, dom := f.dom,
    pk := f.pk, pp := f.pp,
    reg := Result.whole { vals := tab (fun l => padded a.tag (lane a.vals l)), pois := a.pois, fmt := a.tag, shape := a.shape }, wants := true,
    sends := (targetsOf f.dom.toNat f.pk.toNat f.pp.toNat (d.cur.col % domCols f.dom.toNat)).map (memberCol d.cur.col f.dom.toNat),
    launch := d.curWarp.launch, level := level, coords := d.curWarp.coords }

theorem Dev.xchStart_eq (d : Dev) (f : XFields) (a : Src) (level : Nat) :
    d.xchStart f a level = ((d.enter d.cur.col (xchOp f d a)).modCurCol (fun k => { k with xchs := k.xchs ++ [xchEntry f d a level] })).modCurWarp
      (fun w => { w with xchCount := w.xchCount + 1 }) := rfl

theorem Dev.xchStart_warp (d : Dev) (f : XFields) (a : Src) (level : Nat) :
    (d.xchStart f a level).curWarp = { d.curWarp.counts (xchOp f d a) with xchCount := d.curWarp.xchCount + 1 } := by
  rw [d.xchStart_eq, Dev.curWarp_modCurWarp, Dev.curWarp_modCurCol]
  have hw : (d.enter d.cur.col (xchOp f d a)).curWarp = _ := Dev.enter_warp rfl
  exact congrArg (fun w : Warp => { w with xchCount := w.xchCount + 1 }) hw

theorem Dev.xchStart_col (d : Dev) (f : XFields) (a : Src) (level : Nat) :
    (d.xchStart f a level).curCol.ops = d.curCol.ops ++ [{ xchOp f d a with id := d.curCol.nextOp }] ∧
      (d.xchStart f a level).curCol.xchs = d.curCol.xchs ++ [xchEntry f d a level] := by
  have hc : (d.xchStart f a level).curCol = _ := (congrArg Dev.curCol (d.xchStart_eq f a level)).trans (Dev.curCol_modCurWarp _ _)
  rw [Dev.curCol_modCurCol, Dev.enter_col (o := xchOp f d a) rfl] at hc
  exact ⟨(congrArg Column.ops hc :), (congrArg Column.xchs hc :)⟩

/-! ## XGET and XPUT -/

section
variable {f : XFields} {s : State}

/-- The lanes of an XGET or XPUT whose checks pass, at the column c. -/
theorem xmemIssue_of_checks {put : Bool} {go : VCtx → Src → Src → List Src → Nat → Issue} :
    let x := vctx s.dev f.h []
    let lo := rangeSrc x.w 1 f.a 0
    let hi := rangeSrc x.w 1 f.a 1
    let k := accessRegs f.sub.toNat
    let n := accessBytes f.sub.toNat
    let dat := if put then (List.range k).map (fun j => Src.direct x.w 0 (dstReg f.d + j) 0 0) else []
    let us := dat.map (storeUse false f.sub.toNat f.h.ty) ++ [Use.ptr lo, Use.ptr hi]
    let dom := f.dom.toNat
    let m := s.dev.cur.col % domCols dom
    let c := memberCol s.dev.cur.col dom
      (if put then (targetsOf dom f.pk.toNat f.pp.toNat m).headD 0 else sourceOf dom f.pk.toNat f.pp.toNat m)
    x.act ≠ 0 → x.notReady us = false → s.dev.curCol.acquiring s.dev.cur.slot = false →
    firstTrap ([rangeBound x.regs (dstReg f.d) k, rangeBound x.regs f.a.reg.toNat 2] ++ us.map Use.tagCheck ++
      [selfCheck x.act lo hi, partnerCheck s.dev x.act lo hi c, alignCheck x.act lo hi 0 n none, poisJoin [lo, hi] x.act]) = none →
      xmemIssue f s put go = go x lo hi dat c := by
  intro x lo hi k n dat us dom m c hact hready hacq hchecks
  exact (if_neg hact).trans ((Issue.of_checks hready hchecks).trans (Dev.afterAcquire_of_not hacq _))

theorem xmemIssue_idle {put : Bool} {go : VCtx → Src → Src → List Src → Nat → Issue} :
    let x := vctx s.dev f.h []
    let lo := rangeSrc x.w 1 f.a 0
    let hi := rangeSrc x.w 1 f.a 1
    let k := accessRegs f.sub.toNat
    let dat := if put then (List.range k).map (fun j => Src.direct x.w 0 (dstReg f.d + j) 0 0) else []
    let us := dat.map (storeUse false f.sub.toNat f.h.ty) ++ [Use.ptr lo, Use.ptr hi]
    x.act = 0 → x.notReady us = false →
    firstTrap ([rangeBound x.regs (dstReg f.d) k, rangeBound x.regs f.a.reg.toNat 2] ++ us.map Use.tagCheck) = none →
      xmemIssue f s put go = .retire s.dev.advance := by
  intro x lo hi k dat us hact hready hchecks
  exact (if_pos hact).trans (Issue.of_checks hready hchecks)

end

theorem Column.storeRoom_not {k : Column} {slot n : Nat} (h : k.storeRoom slot n = true) : ¬ (!k.storeRoom slot n) = true := by
  rw [h]
  decide

theorem Warp.loadRoom_not {w : Warp} (h : w.loads < 63) : ¬ (!w.loadRoom) = true := by
  simp [Warp.loadRoom, h]

end Sys2Proof.Machine
end

section
namespace Sys2Proof
open Sys2Proof.Machine

/-- Settles O30. -/
theorem exchangesStart : Obligations.ExchangesStart := by
  refine ⟨?_, ?_⟩
  · intro f s i x c w a sel hcov hspawn hs hready hchecks hacq hnone hloads
    have hi : exec (.xch f) s = s.conclude (.retire (s.dev.xchStart f a i).advance) :=
      congrArg s.conclude (xchIssue_starts hcov hspawn hs hready hchecks hacq hnone hloads)
    have hw := s.dev.xchStart_warp f a i
    obtain ⟨hops, hxchs⟩ := s.dev.xchStart_col f a i
    have huw : ({ (s.dev.xchStart f a i).advance with issued := .retired } : Dev).curWarp = _ := (s.dev.xchStart f a i).curWarp_advance
    have huc : ({ (s.dev.xchStart f a i).advance with issued := .retired } : Dev).curCol = _ := (s.dev.xchStart f a i).curCol_advance
    refine ⟨_, hi, .of_advance rfl ?_ ?_, ?_, ?_, ⟨{ xchOp f s.dev a with id := s.dev.curCol.nextOp }, ?_, rfl, rfl, rfl⟩,
      xchEntry f s.dev a i, ?_, rfl, rfl, rfl, rfl, rfl, rfl, rfl⟩
    · rw [hw]
      rfl
    · rw [hw]
      rfl
    · rw [huw, hw]
      rfl
    · rw [huw, hw]
    · rw [huc]
      change _ ∈ (s.dev.xchStart f a i).curCol.ops
      rw [hops]
      exact List.mem_append_right _ (List.mem_singleton.mpr rfl)
    · rw [huc]
      exact hxchs
  · intro f s x d lo hi k n dat ad dom m from_ into checked single acc gets puts g p
    refine ⟨?_, ?_, ?_⟩
    · rintro ⟨hact, hready, hacq, hchecks⟩ hloads hfound
      have hload := State.startLoad_found (s := s) (o := g) (acc := .load) (write := false) (priv := d.cur.priv) rfl rfl hfound
      have hissue : xgetIssue f s = _ := (xmemIssue_of_checks (put := false) hact hready hacq hchecks).trans ((if_neg (Warp.loadRoom_not hloads)).trans
        (Issue.of_found hload (fun d => .retire d.advance)))
      have hfar := State.seekLanes_far (o := g) (write := false) rfl (.inr (.inl rfl)) d.cur.col d.cur.priv gets s
      obtain ⟨u, hu, hissues, hl, -, hops⟩ := ((Dev.Alike.refl s.dev).loadEntered (o := g) rfl false d.cur.priv).issues (i := .xget f)
        (congrArg s.conclude hissue)
      refine ⟨u, hu, hissues, hl, hops.trans ?_⟩
      exact congrArg (fun hits => d.curCol.ops ++ [g.sought d.curCol.nextOp (s.seekLanes d.cur.col g false d.cur.priv gets).2.1 hits]) hfar
    · rintro ⟨hact, hready, hacq, hchecks⟩ hroom
      have hlen : puts.length = (Mask.list x.act).length := List.length_map _
      rw [hlen] at hroom
      have hissue : xputIssue f s = .retire (s.startStore d.cur.col p .store d.cur.priv).advance :=
        (xmemIssue_of_checks (put := true) hact hready hacq hchecks).trans (if_neg (Column.storeRoom_not hroom))
      obtain ⟨u, hu, hissues, -, hst, hops⟩ := ((Dev.Alike.refl s.dev).storeEntered (o := p) rfl .store d.cur.priv).issues (i := .xput f)
        (congrArg s.conclude hissue)
      exact ⟨u, hu, hissues, hst, hops⟩
    · intro hact q hq hready hchecks
      simp only [List.mem_cons, List.not_mem_nil, or_false] at hq
      rcases hq with rfl | rfl
      · exact congrArg s.conclude (xmemIssue_idle (put := false) hact hready hchecks)
      · exact congrArg s.conclude (xmemIssue_idle (put := true) hact hready hchecks)

end Sys2Proof
end

section
/-! Proofs about the start of loads, stores and atomics (R217-R226, R257-R262, R377): the instruction's tensor record, its lookups, and the
operation that enters its column. -/

namespace Sys2Proof.Machine

/-! ## The tensor record of an instruction -/

theorem SameOps.objValue (d : Dev) (c ctx off new : Nat) :
    SameOps d (d.objValue c ctx off new).2 ∧ ∀ e, ((d.objValue c ctx off new).2.col e).log = (d.col e).log := by
  unfold Dev.objValue
  generalize (d.col c).objs.find? (fun x => x.ctx == ctx && x.off == off) = r
  cases r with
  | none =>
    refine ⟨SameOps.modCol d c (fun k => { k with objs := { ctx := ctx, off := off, val := new } :: k.objs }) rfl, fun e => ?_⟩
    by_cases he : e = c
    · subst he
      dsimp only
      rw [Dev.col_modCol]
    · dsimp only
      rw [Dev.col_modCol_ne _ _ _ he]
  | some o =>
    dsimp only
    split
    · exact ⟨.refl d, fun _ => rfl⟩
    · exact ⟨(SameWarps.choose d).ops_same, (SameWarps.choose d).log⟩

theorem SameOps.tensor (s : State) (c ctx : Nat) (l : LaunchRec) (idx : Nat) :
    SameOps s.dev (s.tensor c ctx l idx).2 ∧ ∀ e, ((s.tensor c ctx l idx).2.col e).log = (s.dev.col e).log := by
  unfold State.tensor State.tensorAt
  split
  · exact ⟨.refl _, fun _ => rfl⟩
  · have ht := SameWarps.translate s c ctx ((l.objBase + 64 * idx) % 2 ^ 44) false true
    dsimp only
    generalize s.translate c ctx ((l.objBase + 64 * idx) % 2 ^ 44) false true = r at ht
    obtain ⟨r, d⟩ := r
    cases r with
    | error f => exact ⟨ht.ops_same, ht.log⟩
    | ok e =>
      let va := e.va ((l.objBase + 64 * idx) % 2 ^ 44)
      have hread := ht.trans (SameWarps.homeRead { s with dev := d } c va 0 e.zc none [va, va + 32])
      dsimp only
      split
      · exact ⟨hread.ops_same, hread.log⟩
      · have hobj := SameOps.objValue ({ s with dev := d }.homeRead c va 0 e.zc none [va, va + 32]).1 c ctx ((l.objBase + 64 * idx) % 2 ^ 44)
          (s.vault.num (vkey c va) 64)
        exact ⟨hread.ops_same.trans hobj.1, fun x => (hobj.2 x).trans (hread.log x)⟩

theorem Issue.of_none {c : Option TrapInfo} {i : Issue} : c = none → (match c with
    | some t => .trap t
    | none => i) = i := by
  rintro rfl
  rfl

section
variable {s : State} {idx : Nat} {d : Dev} {r : Option (Option TRec)}

theorem State.hasRecord.same (h : s.hasRecord idx d r) : SameOps s.dev d ∧ ∀ e, (d.col e).log = (s.dev.col e).log := by
  rcases h with ⟨-, rfl, -⟩ | ⟨-, t, ht, -⟩
  · exact ⟨.refl _, fun _ => rfl⟩
  · have hsame := SameOps.tensor s s.dev.cur.col s.dev.curWarp.ctx s.dev.curRec idx
    rw [ht] at hsame
    exact hsame

theorem State.withRecord_of_has (h : s.hasRecord idx d r) (acc : AccKind) (go : Dev → Option (Option TRec) → Issue) :
    s.withRecord idx acc go = go d r := by
  rcases h with ⟨h0, rfl, rfl⟩ | ⟨h0, t, ht, rfl⟩
  · exact if_pos h0
  · refine (if_neg h0).trans ?_
    rw [ht]

/-- The device with the record read, shown with the issuing turn that it keeps. -/
theorem State.hasRecord.withCur (h : s.hasRecord idx d r) : ∃ e : Dev, d = { e with cur := s.dev.cur } := by
  refine ⟨d, ?_⟩
  rw [← h.same.1.cur]

theorem State.hasRecord.acquiring (h : s.hasRecord idx d r) (hacq : s.dev.curCol.acquiring s.dev.cur.slot = false) :
    d.curCol.acquiring d.cur.slot = false := by
  rw [h.same.1.cur]
  unfold Column.acquiring
  rw [h.same.1.ops]
  exact hacq

theorem State.hasRecord.regs (h : s.hasRecord idx d r) (x : VCtx) (hx : x.d = s.dev := by rfl) : ({ x with d := d } : VCtx).regs = x.regs := by
  change d.curCol.regions.regs = x.d.curCol.regions.regs
  rw [hx]
  exact (congrArg (fun k : Column => k.regions.regs) h.same.1.curCol :)

theorem State.hasRecord.logFree (h : s.hasRecord idx d r) : d.curCol.logFree = s.dev.curCol.logFree := by
  unfold Column.logFree
  rw [h.same.1.ops]
  unfold Dev.curCol
  rw [h.same.2, h.same.1.cur]

theorem State.hasRecord.storeRoom (h : s.hasRecord idx d r) (n : Nat) :
    d.curCol.storeRoom d.cur.slot n = s.dev.curCol.storeRoom s.dev.cur.slot n := by
  unfold Column.storeRoom Column.warp
  rw [h.logFree, h.same.1.warps, h.same.1.cur]

theorem State.hasRecord.curWarp (h : s.hasRecord idx d r) : d.curWarp = s.dev.curWarp := h.same.1.curWarp

end

/-- Where a release is not asked for, or is over, the instruction goes on. -/
theorem Dev.release_if {p : Prop} [Decidable p] {on : Bool} {d : Dev} {m : BitVec 7} (hp : p ↔ on = true) (h : d.releaseOver on m) (go : Dev → Issue) :
    (if p then d.release m go else go d) = go (d.afterRelease on) := by
  cases on with
  | false => exact if_neg (fun x => Bool.false_ne_true (hp.mp x))
  | true => exact (if_pos (hp.mpr rfl)).trans (Dev.release_of_over (h rfl) go)

/-! ## Atomics -/

theorem Entered.dropLanes {s : State} {o : MemOp} {d : Dev} (h : Entered s o d) (ctx : Nat) (ls : List LaneAcc) : Entered s o (d.dropLanes ctx ls) := by
  have hkeep (k : Column) : (ls.foldl (fun k a => if a.tcol = d.cur.col then k.l1DropLine ctx a.off else k) k).asked = k.asked := by
    induction ls generalizing k with
    | nil => rfl
    | cons a ls ih =>
      refine (ih _).trans ?_
      dsimp only
      split <;> rfl
  exact h.modCurCol _ (congrArg Column.warps (hkeep _) :) (congrArg Column.ops (hkeep _) :)

section
variable {f : MFields} {s : State} {d : Dev} {r : Option (Option TRec)}

/-- The operation of an atomic that returns old values. -/
def atomOp (f : MFields) (e : Dev) (act : Mask) (ls : List LaneAcc) (kind : OpKind) (acq : Bool) : MemOp :=
  { e.newOp kind f.h.ty 2 ls with resv := [(dstReg f.dat, act)], obj := f.obj.toNat, rm := f.h.rm, acq := acq }

/-- An atomic whose checks pass goes on with its lanes. -/
theorem atomIssue_of_checks {acc : AccKind} {right : TRec → Bool} (go : VCtx → Dev → List LaneAcc → Issue) :
    let x := vctx s.dev f.h []
    let c := s.dev.cur.col
    let lo := rangeSrc x.w 1 f.adr 0
    let hi := rangeSrc x.w 1 f.adr 1
    let dat := atomData x f
    let us := dat.map (fun q => Use.of q f.h.ty) ++ [Use.ptr lo, Use.ptr hi]
    x.act ≠ 0 ∧ x.notReady us = false ∧ s.hasRecord f.obj.toNat d r ∧ s.dev.curCol.acquiring s.dev.cur.slot = false ∧
      firstTrap ([atomTy f.h.ty r, rangeBound x.regs (dstReg f.dat) (atomRegs f), rangeBound x.regs f.adr.reg.toNat 2] ++
        us.map Use.tagCheck ++ [selCheck c x.act lo hi, recCheck c x.act lo hi f.offset f.obj.toNat 4 right r,
        alignCheck x.act lo hi f.offset 4 none, poisJoin [lo, hi] x.act]) = none →
      atomIssue f s acc right go = go { x with d := d } d (atomLaneList x f lo hi dat c) := by
  rintro x c lo hi dat us ⟨hact, hready, hrec, hacq, hchecks⟩
  rw [← hrec.regs x] at hchecks
  have hacq' := hrec.acquiring hacq
  obtain ⟨e, rfl⟩ := hrec.withCur
  exact (if_neg hact).trans ((if_neg (ne_true_of_eq_false hready)).trans ((State.withRecord_of_has hrec _ _).trans
    ((Issue.of_none hchecks).trans (Dev.afterAcquire_of_not hacq' _))))

/-- An atomic whose lanes translate starts. -/
theorem atomStart_entered {e : Dev} {kind : OpKind} {acq : Bool} {act : Mask} {ls : List LaneAcc} (h : s.dev.Alike e)
    (hfar : (atomOp f e act ls kind acq).farOnly) :
    let o := atomOp f e act ls kind acq
    let got := { s with dev := e }.seekLanes s.dev.cur.col o true s.dev.cur.priv ls
    got.2.2.2 = [] → ∃ d', atomStart s f kind acq act ls e = .retire d'.advance ∧ Entered s (o.sought 0 got.2.1 []) d' := by
  intro o got hfound
  have hload : { s with dev := e }.startLoad o .atomic true e.cur.priv = (got.1.enter s.dev.cur.col (o.sought o.id got.2.1 got.2.2.1), true) := by
    rw [h.cur]
    exact State.startLoad_found (s := { s with dev := e }) (congrArg Cur.col h.cur) rfl hfound
  have hnone : got.2.2.1 = [] := State.seekLanes_far hfar (.inl rfl) _ _ _ _
  have hin := h.loadEntered (o := o) (congrArg Cur.slot h.cur) true s.dev.cur.priv
  refine ⟨_, Issue.of_found hload (fun d => .retire (d.dropLanes d.curWarp.ctx ls).advance), ?_⟩
  rw [← hnone]
  exact hin.dropLanes _ _

/-- What an NMATOM does once its lanes are placed. -/
def nmatomGo (o : MemOp) (aop : BitVec 5) (rm : BitVec 2) (total : Nat) (got : Dev × List LaneAcc × Nat) : Dev :=
  let d := got.1.modCurCol (fun k => { k with hand := { k.hand with
    atomq := k.hand.atomq ++ got.2.1.map (nmEntry o aop rm got.1.now false) } })
  let d := if got.2.2 = 0 then d else d.modCurCol (fun k => k.addOp { o with logged := got.2.2 })
  d.modCurWarp (fun w => { w with nmPending := w.nmPending + total })

theorem nmatomGo_cur (o : MemOp) (aop : BitVec 5) (rm : BitVec 2) (total : Nat) (got : Dev × List LaneAcc × Nat) :
    (nmatomGo o aop rm total got).cur = got.1.cur := by
  unfold nmatomGo
  dsimp only
  split <;> rfl

theorem nmatomGo_spec (o : MemOp) (aop : BitVec 5) (rm : BitVec 2) (total : Nat) (got : Dev × List LaneAcc × Nat) :
    (nmatomGo o aop rm total got).curWarp = { got.1.curWarp with nmPending := got.1.curWarp.nmPending + total } ∧
      (nmatomGo o aop rm total got).curCol.hand.atomq =
        got.1.curCol.hand.atomq ++ got.2.1.map (nmEntry o aop rm got.1.now false) := by
  unfold nmatomGo
  dsimp only
  rw [Dev.curWarp_modCurWarp, Dev.curCol_modCurWarp]
  split
  all_goals
    simp only [Dev.curWarp_modCurCol, Dev.curCol_modCurCol]
    exact ⟨rfl, rfl⟩

/-- The operation under which an NMATOM's lanes are logged. -/
def nmatomOp (f : MFields) (d : Dev) : MemOp :=
  { d.newOp (.nmatom f.aop f.h.rm) f.h.ty 2 [] with obj := f.obj.toNat, cpol := 1, rm := f.h.rm, reach := 0 }

/-- An NMATOM past its checks: it is held where the queue or the side log has no room. -/
def nmatomRest (f : MFields) (s : State) (_ : VCtx) (d : Dev) (ls : List LaneAcc) : Issue :=
  if 256 < d.curCol.hand.atomq.length + ls.length ∨ d.curCol.logFree < ls.length then .hold d
  else .retire (nmatomGo (nmatomOp f d) f.aop f.h.rm ls.length
    ({ s with dev := d }.placeLanes d.cur.col (nmatomOp f d) .nmatom d.cur.priv ls)).advance

/-- An ARED past its checks and its release. -/
def aredGo (f : MFields) (s : State) (ls : List LaneAcc) (d : Dev) : Issue :=
  let o : MemOp := { d.newOp (.ared f.aop f.h.rm) f.h.ty 2 ls with obj := f.obj.toNat, rm := f.h.rm }
  .retire (({ s with dev := d }.startStore d.cur.col o .store d.cur.priv).dropLanes d.curWarp.ctx ls).advance

/-- An ARED past its checks: it is held where the side log has no room. -/
def aredRest (f : MFields) (s : State) (_ : VCtx) (d : Dev) (ls : List LaneAcc) : Issue :=
  if !d.curCol.storeRoom d.cur.slot ls.length then .hold d
  else if f.ord = 2 then d.release (d.curWarp.obsMask f.obs) (aredGo f s ls) else aredGo f s ls d

theorem nmatom_enters {i : Instr} {o : MemOp} {aop : BitVec 5} {rm : BitVec 2} {total : Nat} {got : Dev × List LaneAcc × Nat}
    (hi : exec i s = s.conclude (.retire (nmatomGo o aop rm total got).advance)) (hsame : SameOps s.dev got.1) :
    ∃ u, exec i s = .next u ∧ Issues s u ∧ u.dev.curWarp.nmPending = s.dev.curWarp.nmPending + total ∧
      u.dev.curCol.hand.atomq = s.dev.curCol.hand.atomq ++ got.2.1.map (nmEntry o aop rm s.dev.now false) := by
  obtain ⟨hw, hq⟩ := nmatomGo_spec o aop rm total got
  have huw : ({ (nmatomGo o aop rm total got).advance with issued := .retired } : Dev).curWarp = _ := Dev.curWarp_advance _
  have huc : ({ (nmatomGo o aop rm total got).advance with issued := .retired } : Dev).curCol = _ := Dev.curCol_advance _
  refine ⟨{ s with dev := { (nmatomGo o aop rm total got).advance with issued := .retired } }, hi, .of_advance ((nmatomGo_cur o aop rm total got).trans hsame.cur) ?_ ?_, ?_, ?_⟩
  · rw [hw, hsame.curWarp]
  · rw [hw, hsame.curWarp]
  · rw [huw, hw, hsame.curWarp]
  · rw [huc]
    refine hq.trans ?_
    rw [hsame.atomq, hsame.now]

end

end Sys2Proof.Machine
end

section
namespace Sys2Proof
open Sys2Proof.Machine

/-- Settles O21. -/
theorem loadsStart : Obligations.LoadsStart := by
  refine ⟨?_, ?_⟩
  · intro f s d r x0 x c lo hi us k t rec6 n win hrec hact hready hacq hloads hfifth p hp hchecks single ls o got hfound
    have halike := hrec.same.1.alike
    have hacq' := hrec.acquiring hacq
    have hwarp := hrec.curWarp
    have hroom : ¬ (!d.curWarp.loadRoom || x.fifthWindow f.dat) = true := by
      rw [hwarp, hfifth, Bool.or_false]
      exact Warp.loadRoom_not hloads
    obtain ⟨e, rfl⟩ := hrec.withCur
    have hload := State.startLoad_found (s := { s with dev := { e with cur := s.dev.cur } }) (o := o) (acc := .load) (write := false)
      (priv := s.dev.cur.priv) rfl rfl hfound
    have hissue : ldIssue f s p.2 = _ := (if_neg hact).trans ((if_neg (ne_true_of_eq_false hready)).trans ((State.withRecord_of_has hrec _ _).trans
      ((Issue.of_none hchecks).trans ((Dev.afterAcquire_of_not hacq' _).trans ((if_neg hroom).trans
        (Issue.of_found hload (fun d => .retire (x.step d).advance)))))))
    have hexec : exec p.1 s = s.conclude (ldIssue f s p.2) := by
      simp only [List.mem_cons, List.not_mem_nil, or_false] at hp
      rcases hp with rfl | rfl <;> rfl
    have hkind : o.kind.isLoad = true ∧ o.kind.isStore = false := by
      simp only [List.mem_cons, List.not_mem_nil, or_false] at hp
      rcases hp with rfl | rfl <;> exact ⟨rfl, rfl⟩
    obtain ⟨u, hu, hissues, hl, -, hops⟩ := ((halike.loadEntered (o := o) rfl false s.dev.cur.priv).step x).issues (hexec.trans (congrArg s.conclude hissue))
    refine ⟨u, hu, hissues, hl.trans ?_, hops⟩
    exact congrArg (s.dev.curWarp.loads + ·) (if_pos hkind.1)
  · intro f s d t x0 x c k is us dst i ls o got _ hrec hact hrank hgrp hty hrd hcol hready hacq hloads hchecks hfound
    have halike := hrec.same.1.alike
    have hacq' := hrec.acquiring hacq
    have hroom : ¬ (!d.curWarp.loadRoom) = true := by
      rw [hrec.curWarp]
      exact Warp.loadRoom_not hloads
    obtain ⟨e, rfl⟩ := hrec.withCur
    have hform : (t.rank != 1 && decide (t.grp ≤ 1) && (if t.grp = 1 then f.h.ty == Fmt.bf16x2 else f.h.ty == 0 || f.h.ty == t.fmt)) = true := by
      have hty' : (if t.grp = 1 then f.h.ty == Fmt.bf16x2 else f.h.ty == 0 || f.h.ty == t.fmt) = true := by
        split at hty
        · rw [if_pos ‹_›]
          simpa using hty
        · rw [if_neg ‹_›]
          simpa using hty
      rw [hty', bne_iff_ne.mpr hrank, decide_eq_true hgrp]
      rfl
    have hall : firstTrap ([check (!true || (t.rank != 1 && decide (t.grp ≤ 1) &&
        (if t.grp = 1 then f.h.ty == Fmt.bf16x2 else f.h.ty == 0 || f.h.ty == t.fmt))) { cause := 0x04 },
        rangeBound x.regs (dstReg f.dat) k, rangeBound x.regs f.adr.reg.toNat t.rank] ++ us.map (fun q => q.src.uniCheck) ++
        us.map Use.tagCheck ++ [check (true && t.rd && t.onColumn c)
          { cause := 0x15, einfo := einfoRec f.obj.toNat (selfPtr t.base), emask := x.act }] ++ [poisJoin is x.act]) = none := by
      rw [firstTrap_eq_none_iff] at hchecks ⊢
      intro y hy
      simp only [List.mem_append, List.mem_cons, List.not_mem_nil, or_false] at hy hchecks
      rcases hy with (((((rfl | hy) | hy) | hy) | rfl) | hy)
      · exact check_of hform _
      · exact hchecks y (.inl (.inl (.inl hy)))
      · exact hchecks y (.inl (.inl (.inr hy)))
      · exact hchecks y (.inl (.inr hy))
      · rw [hrd, hcol]
        exact check_of rfl _
      · exact hchecks y (.inr hy)
    have hload := State.startLoad_found (s := { s with dev := { e with cur := s.dev.cur } }) (o := o) (acc := .load) (write := false)
      (priv := s.dev.cur.priv) rfl rfl hfound
    have hissue : ldtIssue f s = _ := (if_neg hact).trans ((State.withRecord_of_has hrec _ _).trans
      ((Issue.of_checks hready hall).trans ((Dev.afterAcquire_of_not hacq' _).trans ((if_neg hroom).trans
        (Issue.of_found hload (fun d => .retire d.advance))))))
    obtain ⟨u, hu, hissues, hl, -, hops⟩ := (halike.loadEntered (o := o) rfl false s.dev.cur.priv).issues (i := .ldt f) (congrArg s.conclude hissue)
    exact ⟨u, hu, hissues, hl, hops⟩

/-- Settles O22. -/
theorem storesStart : Obligations.StoresStart := by
  intro f s d r x0 x c lo hi k dat ad t rec6 n us rule e hrec hact hready hacq hover p hp hchecks act hroom ls o got
  have halike := hrec.same.1.alike.trans (Dev.Alike.afterRelease d (f.ord == 2))
  have hacq' := hrec.acquiring hacq
  rw [← hrec.curWarp] at hover
  obtain ⟨e, rfl⟩ := hrec.withCur
  have hissue : stIssue f s p.2 = _ := (if_neg hact).trans ((if_neg (ne_true_of_eq_false hready)).trans ((State.withRecord_of_has hrec _ _).trans
    ((Issue.of_none hchecks).trans ((Dev.afterAcquire_of_not hacq' _).trans ((if_neg (Column.storeRoom_not hroom)).trans
      (Dev.release_if beq_iff_eq.symm hover (fun d => .retire (x.step ({ s with dev := d }.startStore c o .store d.cur.priv)).advance)))))))
  rw [Dev.afterRelease_cur] at hissue
  have hexec : exec p.1 s = s.conclude (stIssue f s p.2) := by
    simp only [List.mem_cons, List.not_mem_nil, or_false] at hp
    rcases hp with rfl | rfl <;> rfl
  have hkind : o.kind.isStore = true := by
    simp only [List.mem_cons, List.not_mem_nil, or_false] at hp
    rcases hp with rfl | rfl <;> rfl
  obtain ⟨u, hu, hissues, -, hst, hops⟩ := ((halike.storeEntered (o := o) rfl .store s.dev.cur.priv).step x).issues (hexec.trans (congrArg s.conclude hissue))
  exact ⟨u, hu, hissues, hst.trans (congrArg (s.dev.curWarp.stores + ·) (if_pos hkind)), hops⟩

/-- Settles O26. -/
theorem atomicsStart : Obligations.AtomicsStart := by
  intro f s d r x c w lo hi dat us ls m checked op starts
  have hhas {right : TRec → Bool} (h : checked right) : s.hasRecord f.obj.toNat d r := by
    obtain ⟨-, -, hrec, -⟩ := h
    exact hrec
  have hmask {right : TRec → Bool} (h : checked right) : m = d.curWarp.obsMask f.obs := by
    rw [(hhas h).curWarp]
  have hstart {i : Instr} {rel acq : Bool} {kind : OpKind} {free : VCtx → Dev → List LaneAcc → Issue}
      (hexec : exec i s = s.conclude (atomIssue f s .atomic TRec.rw free))
      (hfree : checked TRec.rw → w.loads < 63 → w.stores < 63 → d.releaseOver rel m →
        free { x with d := d } d ls = atomStart s f kind acq x.act ls (d.afterRelease rel))
      (hl : kind.isLoad = true) (hs : kind.isStore = true) : starts i rel acq kind := by
    intro hchecked hloads hstores hover hfound
    have hfar : (atomOp f (d.afterRelease rel) x.act ls kind acq).farOnly := by
      change (kind.isLoad && !kind.isStore && kind != .xget) = false
      rw [hl, hs]
      rfl
    obtain ⟨d', hd', hin⟩ := atomStart_entered ((hhas hchecked).same.1.alike.trans (Dev.Alike.afterRelease d rel)) hfar hfound
    have hissue := (atomIssue_of_checks (acc := .atomic) free hchecked).trans ((hfree hchecked hloads hstores hover).trans hd')
    obtain ⟨u, hu, hissues, hul, hus, hops⟩ := hin.issues (hexec.trans (congrArg s.conclude hissue))
    exact ⟨u, hu, hissues, hul.trans (congrArg (w.loads + ·) (if_pos hl)), hus.trans (congrArg (w.stores + ·) (if_pos hs)), hops⟩
  have hroom (hchecked : checked TRec.rw) (hloads : w.loads < 63) (hstores : w.stores < 63) :
      (!d.curWarp.loadRoom || !decide (d.curWarp.stores < 63)) = false := by
    rw [(hhas hchecked).curWarp, show s.dev.curWarp.loadRoom = true from decide_eq_true hloads, decide_eq_true hstores]
    rfl
  refine ⟨hstart rfl ?_ rfl rfl, fun hsel hbusy => hstart (free := fun x d ls =>
      if d.curCol.atscBusy d.cur.slot || !d.curWarp.loadRoom || !decide (d.curWarp.stores < 63) then .hold d
      else d.release (d.curWarp.obsMask f.obs) (atomStart s f (.atsc f.aop none) true x.act ls))
    (congrArg s.conclude (s.whole_of_selected hsel _)) ?_ rfl rfl, ?_, ?_⟩
  · intro hchecked hloads hstores hover
    rw [hmask hchecked] at hover
    exact (if_neg (ne_true_of_eq_false (hroom hchecked hloads hstores))).trans (Dev.release_if Iff.rfl hover _)
  · intro hchecked hloads hstores hover
    rw [hmask hchecked] at hover
    have hbusy' : (d.curCol.atscBusy d.cur.slot || !d.curWarp.loadRoom || !decide (d.curWarp.stores < 63)) = false := by
      rw [Bool.or_assoc, hroom hchecked hloads hstores, Bool.or_false, (hhas hchecked).same.1.cur]
      unfold Column.atscBusy
      rw [(hhas hchecked).same.1.ops]
      exact hbusy
    exact (if_neg (ne_true_of_eq_false hbusy')).trans (Dev.release_of_over (hover rfl) _)
  · intro e o got hchecked hstore hover
    rw [hmask hchecked] at hover
    have hrec := hhas hchecked
    have halike : s.dev.Alike e := hrec.same.1.alike.trans (Dev.Alike.afterRelease d (f.ord == 2))
    have hin : Entered s { o with lanes := got.2.1, logged := got.2.2 } ({ s with dev := e }.startStore e.cur.col o .store e.cur.priv) := by
      rw [halike.cur]
      exact halike.storeEntered (congrArg Cur.slot halike.cur) .store s.dev.cur.priv
    have hroom' : ¬ (!d.curCol.storeRoom d.cur.slot ls.length) = true := by
      refine Column.storeRoom_not ?_
      rw [hrec.storeRoom]
      exact hstore
    have hissue := (atomIssue_of_checks (acc := .store) (aredRest f s) hchecked).trans ((if_neg hroom').trans
      (Dev.release_if beq_iff_eq.symm hover (aredGo f s ls)))
    obtain ⟨u, hu, hissues, -, hus, hops⟩ := (hin.dropLanes _ _).issues (i := .ared f) (congrArg s.conclude hissue)
    exact ⟨u, hu, hissues, hus, hops⟩
  · intro o got hchecked hlen hlog
    have hrec := hhas hchecked
    have hroom' : ¬ (256 < d.curCol.hand.atomq.length + ls.length ∨ d.curCol.logFree < ls.length) := by
      rw [hrec.same.1.atomq, hrec.logFree]
      omega
    have hsame : SameOps s.dev got.1 := hrec.same.1.trans (SameOps.placeLanes c o .nmatom s.dev.cur.priv ls { s with dev := d })
    obtain ⟨e, rfl⟩ := hrec.withCur
    have hissue := (atomIssue_of_checks (acc := .nmatom) (nmatomRest f s) hchecked).trans (if_neg hroom')
    exact nmatom_enters (congrArg s.conclude hissue) hsame

end Sys2Proof
end

section
/-! Proofs about the special registers (R31, R36, R64, R144, R416): SREAD's values and SWRITE's effects. -/

namespace Sys2Proof.Machine

theorem Dev.privileged_of {d : Dev} {needs : Bool} (h : needs = true → d.cur.priv = true) (einfo : BitVec 64) (go : Unit → Issue) :
    d.privileged needs einfo go = go () := by
  refine if_neg ?_
  rw [Bool.and_eq_true]
  rintro ⟨hn, hp⟩
  rw [h hn] at hp
  cases hp

/-! ## SREAD -/

/-- The values of a special register, lane by lane: those of the warp's lane numbers and generators, or one for all. -/
def Dev.srLane (d : Dev) (n l : Nat) : Word :=
  if n = 0 then BitVec.ofNat 32 l else if n = 8 then lane d.curWarp.rng l else (d.srValue n).extractLsb' 0 32

theorem Dev.srResult_spec (d : Dev) (n : Nat) :
    (d.srResult n).Holds (srTag n) (d.srLane n) (fun _ => false) ∧ (d.srResult n).Good := by
  unfold Dev.srResult Dev.srLane
  by_cases h0 : n = 0
  · subst h0
    rw [if_pos rfl]
    refine ⟨⟨rfl, rfl, rfl⟩, Result.good_affine _ (b := 0) (s := 1) rfl fun l hl => ⟨?_, ?_⟩⟩
    · change lane (tab _) l = _
      rw [lane_tab _ hl]
      simp
    · change Mask.has 0 l = Mask.has 0 0
      simp [Mask.has]
  · simp only [h0, if_false]
    by_cases h8 : n = 8
    · subst h8
      exact ⟨⟨rfl, rfl, rfl⟩, Result.good_general _ rfl⟩
    · simp only [h8, if_false]
      exact ⟨⟨rfl, rfl, rfl⟩, Result.uni_good _ _ _⟩

/-- The results of an SREAD: one, or two for a register of 64 bits. -/
def Dev.srResults (d : Dev) (n : Nat) : List Result :=
  d.srResult n :: (if srWide n then [Result.uni ((d.srValue n).extractLsb' 32 32) false Fmt.ui32] else [])

/-- An SREAD's tag and values of its result j. -/
def srTags (n j : Nat) : BitVec 5 := if j = 0 then srTag n else Fmt.ui32
def Dev.srVals (d : Dev) (n j l : Nat) : Word := if j = 0 then d.srLane n l else (d.srValue n).extractLsb' 32 32

theorem Dev.srResults_spec (d : Dev) (n : Nat) : ∀ i (hi : i < (d.srResults n).length),
    (d.srResults n)[i].Holds (srTags n (0 + i)) (d.srVals n (0 + i)) (fun _ => false) ∧ (d.srResults n)[i].Good := by
  intro i hi
  rw [Nat.zero_add]
  cases i with
  | zero => exact d.srResult_spec n
  | succ i =>
    unfold Dev.srResults at hi ⊢
    by_cases hw : srWide n = true
    · simp only [hw, if_true, List.length_cons, List.length_nil] at hi ⊢
      obtain rfl : i = 0 := by omega
      exact ⟨⟨rfl, rfl, rfl⟩, Result.uni_good _ _ _⟩
    · simp only [hw, List.length_cons] at hi
      simp at hi

theorem exec_sread {f : SFields} {s : State} (hpriv : srPrivRead f.sr.toNat = true → s.dev.cur.priv = true)
    (hbound : boundCheck s.dev.curCol.regions.regs (if srWide f.sr.toNat then (f.d.extractLsb' 0 8).toNat + 1 else (f.d.extractLsb' 0 8).toNat) = none) :
    exec (.sread f) s = s.conclude (.retire (s.dev.modCurCol (fun k => k.writeRange s.dev.cur.slot (f.d.extractLsb' 0 8).toNat
      (s.dev.curWarp.act f.h) (s.dev.srResults f.sr.toNat))).advance) := by
  have hissue : sreadIssue f s = .retire (s.dev.writeRegs (f.d.extractLsb' 0 8).toNat (s.dev.curWarp.act f.h) (s.dev.srResults f.sr.toNat)).advance := by
    rw [sreadIssue, Dev.privileged_of hpriv]
    exact Issue.of_none hbound
  rw [Dev.srResults, Dev.writeRegs_cons] at hissue
  exact congrArg s.conclude hissue

/-- A run of register writes after which the instruction retires. -/
theorem Writes.advances {s : State} {g : Column → Column} {hit : Nat → Nat → Nat → Prop} {tag : Nat → BitVec 5} {val : Nat → Nat → Word}
    {pois : Nat → Nat → Bool} (h : Writes s.dev.curCol (g s.dev.curCol) s.dev.cur.slot hit tag val pois) :
    let u : State := { s with dev := { (s.dev.modCurCol g).advance with issued := .retired } }
    OnlyWarp s u ∧ u.dev.curWarp.pc = s.nextPc ∧ u.dev.curWarp.rest = s.dev.curWarp.rest ∧
      ∀ r, u.dev.curWarp.reg r = ((g s.dev.curCol).warp s.dev.cur.slot).reg r := by
  intro u
  have hw : u.dev.curWarp = { (g s.dev.curCol).warp s.dev.cur.slot with pc := s.nextPc } := by
    refine (Dev.curWarp_advance _).trans ?_
    rw [Dev.curWarp_modCurCol]
    rfl
  refine ⟨(OnlyWarp.ofCol s g h.rest h.others).trans (.trans (.ofWarp _ _) (.ofIssued _ _)), ?_, ?_, fun r => ?_⟩
  · rw [hw]
  · rw [hw]
    exact (congrArg Warp.rest h.warp :)
  · rw [hw]
    rfl

/-! ## SWRITE -/

section
variable {f : SFields} {s : State}

theorem exec_swrite_ignored (hs : s.selected f.h) (hpriv : srPrivWrite f.sr.toNat = true → s.dev.cur.priv = true) (hw : srWritable f.sr.toNat = false) :
    exec (.swrite f) s = s.conclude (.retire s.dev.advance) := by
  change s.conclude (swriteIssue f s) = _
  rw [swriteIssue, Dev.privileged_of hpriv, s.whole_of_selected hs]
  refine congrArg s.conclude (if_pos ?_)
  rw [hw]
  rfl

theorem swriteIssue_writable (hs : s.selected f.h) (hpriv : srPrivWrite f.sr.toNat = true → s.dev.cur.priv = true) (hw : srWritable f.sr.toNat = true) :
    let x := vctx s.dev f.h []
    let v := x.src 1 f.a
    x.ReadyUni [] [Use.ptr v] [] → swriteIssue f s = .retire (s.dev.srWrite f.sr.toNat v.uni).advance := by
  intro x v hready
  rw [swriteIssue, Dev.privileged_of hpriv, s.whole_of_selected hs]
  refine (if_neg ?_).trans (VCtx.withUni_of_ready hready _)
  rw [hw]
  decide

theorem exec_swriteRng (hs : s.selected f.h) :
    let x := vctx s.dev f.h []
    let v := x.src 1 f.a
    x.notReady [Use.ptr v] = false → firstTrap (x.bounds [Use.ptr v] ++ [(Use.ptr v).tagCheck, v.poisCheck x.act]) = none →
      exec (.swriteRng f) s = s.conclude (.retire (s.dev.modCurWarp (fun w => { w with
        rng := tab (fun l => if Mask.has x.act l then rngOf (lane v.vals l) else lane w.rng l) })).advance) := by
  intro x v hready hchecks
  change s.conclude (swriteRngIssue f s) = _
  rw [swriteRngIssue, s.whole_of_selected hs]
  refine congrArg s.conclude (Issue.of_checks hready ?_)
  rw [List.append_assoc]
  exact hchecks

end

end Sys2Proof.Machine
end

section
namespace Sys2Proof
open Sys2Proof.Machine

/-- Settles O40. -/
theorem specialRegisters : Obligations.SpecialRegisters := by
  refine ⟨?_, ?_⟩
  · intro f s d n vd act hpriv hbound
    have run := Column.writeRange_writes (tag := srTags n) (val := d.srVals n) (pois := fun _ _ => false) d.cur.slot vd act (d.srResults n) 0 d.curCol
      (d.srResults_spec n)
    obtain ⟨honly, hpc, hrest, hreg⟩ := Writes.advances (s := s) (g := fun k => k.writeRange s.dev.cur.slot vd act (d.srResults n)) run
    have hlen : (d.srResults n).length = if srWide n then 2 else 1 := by
      unfold Dev.srResults
      split <;> rfl
    refine ⟨_, exec_sread hpriv hbound, rfl, honly, hpc, fun l hl hact => ?_, fun r l hl hr => ?_, hrest⟩
    · have hfirst := run.wrote 0 vd l hl ⟨le_rfl, by rw [hlen]; split <;> decide, rfl, hact⟩
      obtain ⟨hval, hpois, htag⟩ := hfirst
      refine ⟨(congrArg VReg.fmt (hreg vd)).trans htag, ?_, ?_, fun hwide => ?_⟩
      · exact (congrArg (fun v : VReg => v.data.pois l) (hreg vd)).trans hpois
      · exact (congrArg (fun v : VReg => v.data.lane l) (hreg vd)).trans hval
      · obtain ⟨hval1, -, htag1⟩ := run.wrote 1 (vd + 1) l hl ⟨Nat.zero_le _, by rw [hlen, if_pos hwide]; decide, rfl, hact⟩
        exact ⟨(congrArg (fun v : VReg => v.data.lane l) (hreg (vd + 1))).trans hval1, (congrArg VReg.fmt (hreg (vd + 1))).trans htag1⟩
    · refine (congrArg (fun v : VReg => v.data.lane l) (hreg r)).trans (run.kept r l hl ?_).1
      rintro j ⟨-, hj, rfl, hhas⟩
      rw [hlen] at hj
      rcases hr with hr | ⟨hne, hr⟩
      · rw [hr] at hhas
        cases hhas
      · rcases hr with hr | hr
        · rw [hr] at hj
          simp at hj
          omega
        · split at hj <;> omega
  · intro f s d n x v val next hs
    refine ⟨fun hpriv hw => exec_swrite_ignored hs hpriv hw, fun hready => ?_, fun hready hchecks => exec_swriteRng hs hready hchecks⟩
    have hwrite (m : Nat) (hn : n = m) (hpriv : srPrivWrite m = true → d.cur.priv = true) (hw : srWritable m = true) :
        exec (.swrite f) s = s.conclude (.retire (d.srWrite m val).advance) := by
      subst hn
      exact congrArg s.conclude (swriteIssue_writable hs hpriv hw hready)
    refine ⟨fun hn => hwrite 4 hn (fun h => by cases h) (by decide), fun hn => hwrite 7 hn (fun h => by cases h) (by decide), fun hn hp => hwrite 0x110 hn (fun _ => hp) (by decide),
      fun hn hp => hwrite 0x111 hn (fun _ => hp) (by decide), fun hp => ?_⟩
    exact congrArg s.conclude (swriteIssue_writable (f := { f with sr := 5 }) hs (fun _ => hp) rfl hready)

end Sys2Proof
end

section
/-! Proofs about TLBI (R39, R416): the translations that it drops where it names no page. -/

namespace Sys2Proof.Machine

/-- A cached translation of a granule past the last of the 2^28 that the offset space of a column has. -/
def farEntry : TlbEntry :=
  { ctx := 0, gran := 2 ^ 28, frame := 0, w := false, sys := false, mig := 0, cp := 0, zc := false, stable := false, big := false }

/-- Privileged code on a column that caches that translation. -/
def farState : State :=
  { vault := [],
    dev := { Dev.start with
      cur := { Dev.start.cur with priv := true }, cols := [(0, { Column.start with warps := [(0, Warp.start)], tlb := [farEntry] })],
      parts := [(0, { Dev.start.part 0 with dom := 4 })] } }

/-- TLBI of every page. -/
def tlbiAll : SFields := { h := nopFields.h, sr := 0, d := 0, a := { ind := false, reg := 0, pat := 0, k := 0 }, sub := 1 }

theorem farState_keeps : (match exec (.tlbi tlbiAll) farState with
    | .next u => (u.dev.col 0).tlb
    | _ => []) = [farEntry] := by decide +kernel

end Sys2Proof.Machine
end

section
namespace Sys2Proof
open Sys2Proof.Machine

/-- Refutes O41, in its clause of TLBI without an offset. The instruction drops the entries of granules 0 to 2^28 - 1, all that a column's offsets
reach (R416), and the clause wants every entry of the context gone, in any state: `farState` caches one of granule 2^28, which stays. -/
theorem not_systemInstructions : ¬ Obligations.SystemInstructions := by
  rintro ⟨h, -⟩
  obtain ⟨u, hu, -, hgone, -⟩ := h tlbiAll farState rfl (by decide) (.inl rfl) (by decide)
  have hkeeps := farState_keeps
  rw [hu] at hkeeps
  have hlost := hgone 0 (by decide) farEntry (by
    rw [show (u.dev.col 0).tlb = _ from hkeeps]
    exact List.mem_singleton.mpr rfl) rfl
  cases hlost

end Sys2Proof
end

section
/-! Proofs about the rings (R77-R79, R390): acceptance, completions held back, commands that complete at once, and MARK. -/

namespace Sys2Proof.Machine

/-! ## Ring blocks -/

@[simp] theorem Dev.ring_putRing (d : Dev) (r : RingId) (b : RingBlock) : (d.putRing r b).ring r = b := by
  cases r with
  | part p => exact Table.getD_set_same _ _ _ _
  | admin => rfl

theorem Dev.putRing_putRing (d : Dev) (r : RingId) (a b : RingBlock) : (d.putRing r a).putRing r b = d.putRing r b := by
  cases r with
  | part p => exact congrArg (fun t => { d with rings := t }) (Table.set_set _ _ _ _)
  | admin => rfl

theorem Dev.ringOpen_putRing (d : Dev) (r q : RingId) (b : RingBlock) : (d.putRing r b).ringOpen q = d.ringOpen q := by
  cases r <;> cases q <;> rfl

/-- What a record leaves of a ring block: the administrative one may hold one more completion. -/
theorem Dev.ring_record (d : Dev) (die : Nat) (i : RecordInfo) (r : RingId) :
    ((d.record die i).ring r).cmdTail = (d.ring r).cmdTail ∧ ((d.record die i).ring r).cmdHead = (d.ring r).cmdHead ∧
      ((d.record die i).ring r).accepted = (d.ring r).accepted ∧ ((d.record die i).ring r).stopped = (d.ring r).stopped := by
  cases r with
  | part p => exact ⟨rfl, rfl, rfl, rfl⟩
  | admin =>
    have hpush (b : RingBlock) (c : Completion) : (b.pushCpl c).cmdTail = b.cmdTail ∧ (b.pushCpl c).cmdHead = b.cmdHead ∧
        (b.pushCpl c).accepted = b.accepted ∧ (b.pushCpl c).stopped = b.stopped := by
      unfold RingBlock.pushCpl
      split <;> exact ⟨rfl, rfl, rfl, rfl⟩
    exact hpush _ _

/-! ## Acceptance -/

section
variable {b : RingBlock} {e : CmdEntry} {tail : Nat}

/-- A ring block with its next entry written and the doorbell rung. -/
def RingBlock.rung (b : RingBlock) (e : CmdEntry) (tail : Nat) : RingBlock := { b.fill tail [e] with cmdTail := tail, stopped := false }

theorem RingBlock.rung_atHead (htail : tail = (b.cmdHead + 1) % 4096) : (b.rung e tail).atHead = e := by
  have hat : (tail + 4096 * 1 - 1) % 4096 = b.cmdHead % 4096 := by omega
  unfold RingBlock.atHead
  change (b.cmds.set ((tail + 4096 * 1 - 1) % 4096) e).getD (b.cmdHead % 4096) CmdEntry.zero = e
  rw [hat]
  exact Table.getD_set_same _ _ _ _

theorem RingBlock.acceptAll_inOrder (htail : tail = (b.cmdHead + 1) % 4096) (hseq : e.seq = b.seqRx + 1) :
    (b.rung e tail).acceptAll 4096 = { b.rung e tail with cmdHead := tail, seqRx := e.seq, accepted := b.accepted ++ [e] } := by
  have hne : ¬ ((b.rung e tail).stopped || (b.rung e tail).cmdHead % 4096 == (b.rung e tail).cmdTail % 4096) = true := by
    change ¬ (false || b.cmdHead % 4096 == tail % 4096) = true
    simp
    omega
  rw [RingBlock.acceptAll, RingBlock.rung_atHead htail]
  refine (if_neg hne).trans ((if_pos hseq).trans ?_)
  rw [RingBlock.acceptAll]
  refine (if_pos ?_).trans ?_
  · change (false || (b.cmdHead + 1) % 4096 % 4096 == tail % 4096) = true
    rw [← htail]
    simp
  · rw [htail]
    rfl

theorem RingBlock.acceptAll_outOfOrder (htail : tail = (b.cmdHead + 1) % 4096) (hseq : e.seq ≠ b.seqRx + 1) :
    (b.rung e tail).acceptAll 4096 = { b.rung e tail with stopped := true } := by
  have hne : ¬ ((b.rung e tail).stopped || (b.rung e tail).cmdHead % 4096 == (b.rung e tail).cmdTail % 4096) = true := by
    change ¬ (false || b.cmdHead % 4096 == tail % 4096) = true
    simp
    omega
  rw [RingBlock.acceptAll, RingBlock.rung_atHead htail]
  exact (if_neg hne).trans (if_neg hseq)

end

/-- What acceptance leaves of an open ring's block. -/
theorem Dev.accept_ring {d : Dev} {r : RingId} {was : Bool} (hopen : d.ringOpen r = true) :
    let b := (d.ring r).acceptAll 4096
    ((d.accept r was).ring r).cmdTail = b.cmdTail ∧ ((d.accept r was).ring r).cmdHead = b.cmdHead ∧ ((d.accept r was).ring r).accepted = b.accepted ∧
      ((d.accept r was).ring r).stopped = b.stopped ∧ (b.stopped = false → (d.accept r was).ring r = b) := by
  intro b
  unfold Dev.accept
  rw [hopen]
  dsimp only
  split
  · next h => cases h
  · next =>
    split
    · next hstop =>
      obtain ⟨htail, hhead, hacc, hst⟩ := Dev.ring_record (d.putRing r b) ((d.putRing r b).ringDie r)
        { kind := 0x09, unit := 0, detail := b.atHead.seq ++ (b.seqRx + 1) } r
      rw [Dev.ring_putRing] at htail hhead hacc hst
      refine ⟨htail, hhead, hacc, hst, fun h => ?_⟩
      have hb : b.stopped = true := (Bool.and_eq_true_iff.mp hstop).1
      rw [h] at hb
      cases hb
    · rw [Dev.ring_putRing]
      exact ⟨rfl, rfl, rfl, rfl, fun _ => rfl⟩

theorem exec_cmdTailDoorbell {r : RingId} {s : State} {e : CmdEntry} {tail : Nat} (hopen : s.dev.ringOpen r = true) (ht : tail < 4096) :
    exec (.cmdTailDoorbell r [e] tail) s =
      .next { s with dev := (s.dev.putRing r ((s.dev.ring r).rung e tail)).accept r (s.dev.ring r).stopped } := by
  change Host.Outcome.next _ = _
  rw [Nat.mod_eq_of_lt ht]
  unfold Dev.doorbell
  dsimp only
  rw [Dev.ringOpen_putRing, hopen, Dev.ring_putRing, Dev.putRing_putRing]
  rfl

/-! ## Completions -/

theorem exec_cplHeadAdvance (r : RingId) (head : Nat) (s : State) :
    exec (.cplHeadAdvance r head) s =
      .next { s with dev := s.dev.putRing r (.release (s.dev.ring r).heldCpl { s.dev.ring r with cplHead := head % 4096 }) } := by
  change Host.Outcome.next _ = _
  unfold Dev.cplRelease
  rw [Dev.ring_putRing, Dev.putRing_putRing]

/-! ## Commands -/

/-- The next accepted entry of a ring, where its command is one of those that `ok` names, begins and runs. -/
theorem Dev.command_of_head {d : Dev} {r : RingId} {e : CmdEntry} {ok : Nat → Bool} (run : CmdEntry → Dev → State) (idle : Dev → State)
    (hhead : ((d.accept r (d.ring r).stopped).ring r).accepted.head? = some e) (hok : ok e.opc.toNat = true) :
    let a := d.accept r (d.ring r).stopped
    let t := a.putRing r ((a.ring r).begin e)
    d.command r ok run idle = if e.rsvd ≠ 0 then idle (t.complete r e.seq 2) else run e t := by
  intro a t
  unfold Dev.command
  dsimp only
  generalize hl : ((d.accept r (d.ring r).stopped).ring r).accepted = l at hhead
  cases l with
  | nil => cases hhead
  | cons x xs =>
    obtain rfl : x = e := Option.some.inj hhead
    dsimp only
    rw [hok]
    rfl

theorem Dev.command_of_takes {d t : Dev} {r : RingId} {e : CmdEntry} {ok : Nat → Bool} (run : CmdEntry → Dev → State) (idle : Dev → State)
    (htakes : d.takes r e t) (hok : ok e.opc.toNat = true) : d.command r ok run idle = run e t := by
  obtain ⟨hhead, hrsvd, rfl⟩ := htakes
  exact (Dev.command_of_head run idle hhead hok).trans (if_neg (fun h => h hrsvd))

/-! ## MARK -/

/-- The SEQs of the begun commands of a ring but one. -/
def RingBlock.others (b : RingBlock) (e : CmdEntry) : List (BitVec 64) := (b.begun.map (fun x => x.seq)).filter (fun x => x != e.seq)

theorem exec_mark {p : Nat} {s : State} {e : CmdEntry} {t : Dev} (htakes : s.dev.takes (.part p) e t) (hopc : e.opc = 6) :
    let b := t.ring (.part p)
    let marked : RingBlock := { b with marks := b.marks ++ [(e, b.others e)] }
    exec (.mark p) s = .next { s with dev := t.putRing (.part p) (RingBlock.settleMarks t (b.marks.length + 1 + 1) marked) } := by
  intro b marked
  refine congrArg Host.Outcome.next ((Dev.command_of_takes _ _ htakes (by rw [hopc]; rfl)).trans ?_)
  change State.mk _ (t.putRing (.part p) (RingBlock.settleMarks t ((b.marks ++ [(e, b.others e)]).length + 1) _)) = _
  rw [List.length_append]
  rfl

/-- A mark with nothing before it completes. -/
theorem RingBlock.settleMarks_done (d : Dev) (n : Nat) (b : RingBlock) {e : CmdEntry} (hm : b.marks = []) :
    RingBlock.settleMarks d (n + 1 + 1) { b with marks := b.marks ++ [(e, [])] } =
      ({ b with begun := b.begun.filter (fun x => x.seq != e.seq) } : RingBlock).pushCpl (cplOf d e.seq e.opc.toNat e.ctx.toNat 0) := by
  have hempty (k : Nat) (b : RingBlock) (h : b.marks = []) : RingBlock.settleMarks d k b = b := by
    cases k with
    | zero => rfl
    | succ k =>
      rw [RingBlock.settleMarks, h]
      rfl
  rw [RingBlock.settleMarks, hm]
  simp only [List.nil_append, List.find?_cons, List.isEmpty_nil, List.filter_cons, bne_self_eq_false, Bool.false_eq_true, if_false,
    List.filter_nil, List.map_nil]
  have hpush (b : RingBlock) (c : Completion) : (b.pushCpl c).marks = b.marks := by
    unfold RingBlock.pushCpl
    split <;> rfl
  rw [hempty _ _ (hpush _ _), ← hm]

/-- Marks that all have commands before them wait. -/
theorem RingBlock.settleMarks_wait (d : Dev) (n : Nat) {b : RingBlock} (hm : ∀ m ∈ b.marks, m.2 ≠ []) : RingBlock.settleMarks d (n + 1) b = b := by
  have hnone : b.marks.find? (fun m => m.2.isEmpty) = none := by
    rw [List.find?_eq_none]
    intro m hm' h
    exact hm m hm' (List.isEmpty_iff.mp h)
  rw [RingBlock.settleMarks, hnone]

end Sys2Proof.Machine
end

section
namespace Sys2Proof
open Sys2Proof.Machine

/-- Settles O46. -/
theorem ringsAcceptAndComplete : Obligations.RingsAcceptAndComplete := by
  intro r s e t head p c b tail
  refine ⟨fun hopen _ _ => ?_, fun hheld => ?_, fun hheld hroom => ?_, fun htakes hun => ?_, ?_, ?_⟩
  · have ht : tail < 4096 := Nat.mod_lt _ (by decide)
    have hopen' : (s.dev.putRing r (b.rung e tail)).ringOpen r = true := by rw [Dev.ringOpen_putRing, hopen]
    obtain ⟨h1, h2, h3, h4, h5⟩ := Dev.accept_ring (was := b.stopped) hopen'
    rw [Dev.ring_putRing] at h1 h2 h3 h4 h5
    refine ⟨_, exec_cmdTailDoorbell hopen ht, rfl, ?_, fun hseq => ?_, fun hseq => ?_⟩
    · refine h1.trans ?_
      by_cases hseq : e.seq = b.seqRx + 1
      · rw [RingBlock.acceptAll_inOrder rfl hseq]
        rfl
      · rw [RingBlock.acceptAll_outOfOrder rfl hseq]
        rfl
    · rw [RingBlock.acceptAll_inOrder rfl hseq] at h5
      have hblock := h5 rfl
      exact ⟨(congrArg RingBlock.accepted hblock :), (congrArg RingBlock.seqRx hblock :), (congrArg RingBlock.cmdHead hblock :),
        (congrArg RingBlock.stopped hblock :)⟩
    · rw [RingBlock.acceptAll_outOfOrder rfl hseq] at h2 h3 h4
      exact ⟨h3, h2, h4⟩
  · rw [exec_cplHeadAdvance, show (s.dev.ring r).heldCpl = [] from hheld]
    rfl
  · rw [exec_cplHeadAdvance, show (s.dev.ring r).heldCpl = [c] from hheld, RingBlock.release]
    have hnot : ¬ ({ s.dev.ring r with cplHead := head % 4096 } : RingBlock).full = true := fun h =>
      hroom ((beq_iff_eq.mp (show ((b.cplTail + 1) % 4096 == head % 4096 % 4096) = true from h)).trans (Nat.mod_mod _ _))
    rw [if_neg hnot]
    rfl
  · refine congrArg Host.Outcome.next (Dev.command_of_takes _ _ htakes ?_)
    rw [hun]
    rfl
  · intro a hhead hrsvd x hx hopc
    simp only [List.mem_cons, List.not_mem_nil, or_false] at hx
    rcases hx with rfl | rfl | rfl | rfl
    all_goals exact congrArg Host.Outcome.next ((Dev.command_of_head _ _ hhead (by rw [hopc]; rfl)).trans (if_pos hrsvd))
  · intro htakes hopc b others
    refine ⟨_, exec_mark htakes hopc, rfl, fun hothers hmarks => ?_, fun hothers hmarks => ?_⟩
    · rw [Dev.ring_putRing, show RingBlock.others _ e = [] from hothers, RingBlock.settleMarks_done _ _ _ hmarks, hopc]
      rfl
    · rw [Dev.ring_putRing, RingBlock.settleMarks_wait]
      · rfl
      · intro m hm
        rcases List.mem_append.mp hm with hm | hm
        · exact hmarks m hm
        · rw [List.mem_singleton.mp hm]
          exact hothers

end Sys2Proof
end

section
/-! Proofs about the start of placement groups and the end of launches (R70, R72, R81, R82). -/

namespace Sys2Proof.Machine

/-! ## Columns under a run of changes -/

/-- What every step of a run keeps, the run keeps. -/
theorem foldl_keeps {α β : Type} (proj : Dev → β) (F : Dev → α → Dev) (h : ∀ d a, proj (F d a) = proj d) (l : List α) (d : Dev) :
    proj (l.foldl F d) = proj d := by
  induction l generalizing d with
  | nil => rfl
  | cons a l ih => exact (ih _).trans (h _ _)

/-- What a change of a column keeps of that column, it keeps of every one. -/
theorem Dev.modCol_keeps {β : Type} (proj : Column → β) {f : Column → Column} (h : ∀ k, proj (f k) = proj k) (d : Dev) (e c : Nat) :
    proj ((d.modCol e f).col c) = proj (d.col c) := by
  by_cases hc : c = e
  · subst hc
    rw [Dev.col_modCol, h]
  · rw [Dev.col_modCol_ne _ _ _ hc]

/-! ## The start of a group -/

/-- What placement reads of a column: its warps, gangs and regions. -/
def Column.place (k : Column) : Table Warp × List Gang × Regions := (k.warps, k.gangs, k.regions)

theorem Dev.startWarp_gangs (d : Dev) (c slot launch : Nat) (mk : Nat → Warp) (e : Nat) :
    ((d.startWarp c slot launch mk).col e).gangs = (d.col e).gangs := by
  refine Dev.modCol_keeps Column.gangs ?_ d c e
  intro k
  rfl

theorem Dev.acquire_place (d : Dev) (ctx c e : Nat) : ((d.modCol c (fun k => k.acquire ctx)).col e).place = (d.col e).place := by
  refine Dev.modCol_keeps Column.place ?_ d c e
  intro k
  rfl

theorem Dev.startGang_gangs {d : Dev} {c : Nat} (l : Launch) (coords : List Nat) (h : (d.col c).freeGangs ≠ []) :
    ∃ g ∈ ((d.startGang c l coords).col c).gangs, g.launch = l.id ∧ g.ctx = l.ctx ∧ g.group = l.placed ∧ g.coords = coords := by
  obtain ⟨g, -, n, hpick⟩ := Dev.pick_spec d h
  let d1 : Dev := ({ d with free := n } : Dev).modCol c (fun k => { k with
    gangs := k.gangs ++ [{ slot := g, launch := l.id, ctx := l.ctx, group := l.placed, coords := coords }],
    bars := k.bars.filter (fun b => b.1 / 64 != g), rings := k.rings.filter (fun x => x.2.gang != g) })
  let start (d : Dev) (i : Nat) : Dev := d.startWarp c (g * l.rec_.width + i) l.id (fun j =>
    newWarp l.rec_ c (g * l.rec_.width + i) j d.now l.ctx l.id g l.placed (coords ++ [i]) l.rec_.entry l.rec_.prio false false)
  have hgangs : (((List.range l.rec_.width).foldl start d1).col c).gangs = (d1.col c).gangs :=
    foldl_keeps (fun d => (d.col c).gangs) start (fun d i => d.startWarp_gangs _ _ _ _ _) _ _
  unfold Dev.startGang
  rw [hpick]
  dsimp only
  refine ⟨{ slot := g, launch := l.id, ctx := l.ctx, group := l.placed, coords := coords }, ?_, rfl, rfl, rfl, rfl⟩
  have hmem : ({ slot := g, launch := l.id, ctx := l.ctx, group := l.placed, coords := coords } : Gang) ∈ (d1.col c).gangs := by
    rw [Dev.col_modCol]
    exact List.mem_append_right _ (List.mem_singleton.mpr rfl)
  rw [← hgangs] at hmem
  exact hmem

/-- A column that a group of a launch of one gang a column finds free has a gang slot for it. -/
theorem Column.freeGangs_bound {k : Column} {r : LaunchRec} (hgangs : 1 ≤ r.gangs) (h : k.warps = [] ∨ k.freeGangs ≠ []) :
    (if k.warps.isEmpty then { k with gangs := [] }.bound r else k).freeGangs ≠ [] := by
  split
  · have hmem : 0 ∈ ({ k with gangs := [] }.bound r).freeGangs :=
      List.mem_filter.mpr ⟨List.mem_range.mpr hgangs, rfl⟩
    exact List.ne_nil_of_mem hmem
  · next hne =>
    rcases h with h | h
    · rw [h] at hne
      exact absurd rfl hne
    · exact h

/-- The columns of a group of one gang, before it starts. -/
def Dev.groupReady (d : Dev) (l : Launch) (c : Nat) : Dev :=
  let d : Dev := { d with ctxs := d.ctxs.set l.ctx { d.ctx l.ctx with objBase := l.rec_.objBase, objLast := l.rec_.objLast } }
  let d := match l.origin with
    | .node _ _ _ =>
      if l.placed = 0 then (d.part l.part).columns.foldl (fun (d : Dev) c => d.modCol c (fun k => k.acquire l.ctx)) d else d
    | _ => d
  d.modCol c (fun k => if k.warps.isEmpty then { k with gangs := [] }.bound l.rec_ else k)

theorem Dev.groupReady_free {d : Dev} {l : Launch} {c : Nat} (hgangs : 1 ≤ l.rec_.gangs) (h : (d.col c).warps = [] ∨ (d.col c).freeGangs ≠ []) :
    ((d.groupReady l c).col c).freeGangs ≠ [] := by
  let d1 : Dev := { d with ctxs := d.ctxs.set l.ctx { d.ctx l.ctx with objBase := l.rec_.objBase, objLast := l.rec_.objLast } }
  let d2 := (d1.part l.part).columns.foldl (fun (d : Dev) c => d.modCol c (fun k => k.acquire l.ctx)) d1
  have hsame : (d2.col c).place = (d.col c).place :=
    foldl_keeps (fun d => (d.col c).place) (fun d c => d.modCol c (fun k => k.acquire l.ctx))
      (fun d e => d.acquire_place l.ctx e c) (d1.part l.part).columns d1
  have h2 : (d2.col c).warps = [] ∨ (d2.col c).freeGangs ≠ [] := by
    have hwarps : (d2.col c).warps = (d.col c).warps := congrArg Prod.fst hsame
    have hgangs : (d2.col c).gangs = (d.col c).gangs := congrArg (fun x => x.2.1) hsame
    have hregions : (d2.col c).regions = (d.col c).regions := congrArg (fun x => x.2.2) hsame
    rw [hwarps]
    refine h.imp id fun hfree => ?_
    unfold Column.freeGangs
    rw [hgangs, hregions]
    exact hfree
  unfold Dev.groupReady
  dsimp only
  rw [Dev.col_modCol]
  cases l.origin with
  | node die r j =>
    dsimp only
    split
    · exact Column.freeGangs_bound hgangs h2
    · exact Column.freeGangs_bound hgangs h
  | ring p seq => exact Column.freeGangs_bound hgangs h
  | loaded => exact Column.freeGangs_bound hgangs h

theorem Dev.startGroup_one {d : Dev} {l : Launch} {c0 off : Nat} {below : List Nat} (hlay : l.rec_.layout = [(below, off)]) :
    ((d.startGroup l c0).launches.get? l.id).map (fun x => x.placed) = some (l.placed + 1) ∧
      (d.startGroup l c0).col (c0 + off) =
        (((d.groupReady l (c0 + off)).startGang (c0 + off) l (l.rec_.gangCoords l.placed below)).col (c0 + off)) := by
  unfold Dev.startGroup
  dsimp only
  rw [hlay]
  split
  · exact ⟨by rw [Table.get?_set_same]; rfl, rfl⟩
  · exact ⟨by rw [Table.get?_set_same]; rfl, rfl⟩

theorem Dev.placeGroup_starts {d : Dev} {p id : Nat} {l : Launch} (hheld : (d.part p).held = false) (hwant : (d.part p).holdWanted = false)
    (hhalt : (d.part p).halting = false) (hlost : (d.part p).lost = false) (hres : (d.residentOf p).isSome = true)
    (hhead : (d.part p).heads.find? (fun i => d.launchState i == .resident) = some id) (hl : d.launches.get? id = some l)
    (hinst : d.instances (d.part p) l.rec_ ≠ []) :
    ∃ c0 ∈ d.instances (d.part p) l.rec_, ∃ n, d.placeGroup p = { d with free := n }.startGroup l c0 := by
  obtain ⟨c0, hmem, n, hpick⟩ := Dev.pick_spec d hinst
  refine ⟨c0, hmem, n, ?_⟩
  have hgo : ¬ ((d.part p).held || (d.part p).holdWanted || (d.part p).halting || (d.part p).lost) = true := by
    simp [hheld, hwant, hhalt, hlost]
  have hmake : d.makeResident p = d := if_pos hres
  refine (if_neg hgo).trans ?_
  rw [hmake, hhead]
  dsimp only
  rw [hl]
  dsimp only
  rw [hpick]

/-! ## The end of a launch -/

section
variable {s : State} {c id : Nat} {l : Launch}

theorem exec_launchEnd (hl : s.dev.launches.get? id = some l) (hstate : s.dev.launchState id = .resident) (hplaced : l.rec_.groups ≤ l.placed)
    (hc : c ∈ l.cols) (hne : c ∉ l.ended) (hidle : (s.dev.col c).launchIdle id = true) :
    let ended := s.dev.modCol c (fun k => k.kernelEnd l.ctx id)
    let l2 : Launch := { l with ended := l.ended ++ [c] }
    let now : Dev := { ended with launches := ended.launches.set id l2 }
    exec (.launchEndOnColumn c id) s = .next { s with dev := if l2.cols.all (fun x => l2.ended.contains x) then now.launchOver l2 else now } := by
  intro ended l2 now
  have hgo : ¬ (s.dev.launchState id != .resident || decide (l.placed < l.rec_.groups) || !l.cols.contains c || l.ended.contains c ||
      !(s.dev.col c).launchIdle id) = true := by
    simp [hstate, hplaced, hc, hne, hidle]
  change execLaunchEndOnColumn c id s = _
  unfold execLaunchEndOnColumn
  dsimp only
  rw [hl]
  refine (if_neg hgo).trans ?_
  split <;> rfl

theorem exec_launchEnd_not (hl : s.dev.launches.get? id = some l) (h : (s.dev.col c).launchIdle id = false ∨ l.placed < l.rec_.groups) :
    exec (.launchEndOnColumn c id) s = .next s := by
  have hstop : (s.dev.launchState id != .resident || decide (l.placed < l.rec_.groups) || !l.cols.contains c || l.ended.contains c ||
      !(s.dev.col c).launchIdle id) = true := by
    rcases h with h | h <;> simp [h]
  change execLaunchEndOnColumn c id s = _
  unfold execLaunchEndOnColumn
  dsimp only
  rw [hl]
  exact if_pos hstop

theorem exec_trackerFree {t : Tracker} (ht : (s.dev.col c).tracker.find? (fun x => x.id == t.id) = some t) :
    exec (.retirementTrackerFree c t.id) s = if (s.dev.col c).entryUsed s.dev.now t then .next s
      else .next { s with dev := s.dev.modCol c (fun k => { k with tracker := k.tracker.filter (fun x => x.id != t.id) }) } := by
  change execRetirementTrackerFree c t.id s = _
  unfold execRetirementTrackerFree
  dsimp only
  rw [ht]

end

end Sys2Proof.Machine
end

section
namespace Sys2Proof
open Sys2Proof.Machine

/-- Settles O49. -/
theorem launchesStartAndEnd : Obligations.LaunchesStartAndEnd := by
  intro s p id c off l below t d r ended l2 last now
  refine ⟨fun hheld hwant hhalt hlost hres hhead hl hid hinst hlay hgangs hfree => ?_, fun hl hstate hplaced hc hne hidle => ?_,
    fun hl h => exec_launchEnd_not hl h, fun ht hbusy htimes => ?_, fun ht htime => ?_⟩
  · obtain ⟨c0, hmem, n, hgo⟩ := Dev.placeGroup_starts hheld hwant hhalt hlost hres hhead hl hinst
    obtain ⟨hcount, hcol⟩ := Dev.startGroup_one (d := { d with free := n }) (c0 := c0) hlay
    refine ⟨c0, hmem, { s with dev := { d with free := n }.startGroup l c0 }, ?_, rfl, ?_, ?_⟩
    · change Host.Outcome.next { s with dev := s.dev.placeGroup p } = _
      rw [hgo]
    · rw [← hid]
      exact hcount
    · obtain ⟨g, hg, hlaunch, hctx, hgroup, hcoords⟩ := Dev.startGang_gangs l (r.gangCoords l.placed below)
        (Dev.groupReady_free (d := { d with free := n }) (l := l) (c := c0 + off) hgangs (hfree c0 hmem))
      rw [← hcol] at hg
      exact ⟨g, hg, hlaunch.trans hid, hctx, hgroup, hcoords⟩
  · rw [exec_launchEnd hl hstate hplaced hc hne hidle]
    have hlast : last = l2.cols.all (fun x => l2.ended.contains x) := by
      change (decide (l.rec_.groups ≤ l.placed) && _) = _
      rw [decide_eq_true hplaced, Bool.true_and]
    rw [hlast]
  · rw [exec_trackerFree ht]
    refine if_neg ?_
    unfold Column.entryUsed
    rw [show (s.dev.col c).entryBusy t.id = false from hbusy, Bool.false_or, List.any_eq_true]
    rintro ⟨x, hx, hlt⟩
    exact absurd (htimes x hx) (not_le.mpr (of_decide_eq_true hlt))
  · rw [exec_trackerFree ht]
    refine if_pos ?_
    unfold Column.entryUsed
    simp only [Bool.or_eq_true, List.any_eq_true, decide_eq_true_eq]
    exact .inr htime

end Sys2Proof
end

section
/-! Proofs about saves and holds (R88-R95, R398): the halt tick, the writing of images, and holds. -/

namespace Sys2Proof.Machine

/-! ## Partitions and their columns -/

section
variable {d : Dev} {p : Nat}

theorem Dev.modPart_of_has (h : d.parts.has p = true) (f : Partition → Partition) :
    d.modPart p f = { d with parts := d.parts.set p (f (d.part p)) } := if_pos h

theorem Dev.part_modPart (h : d.parts.has p = true) (f : Partition → Partition) : (d.modPart p f).part p = f (d.part p) := by
  rw [Dev.modPart_of_has h]
  exact Table.getD_set_same _ _ _ _

theorem Dev.has_modPart (h : d.parts.has p = true) (f : Partition → Partition) : (d.modPart p f).parts.has p = true := by
  rw [Dev.modPart_of_has h]
  exact Table.has_set_same _ _ _

/-- What a change of columns leaves of the device. -/
theorem Dev.halt_parts (d : Dev) (p : Nat) : (d.halt p).parts = d.parts := by
  refine foldl_keeps Dev.parts _ ?_ _ _
  intro d c
  rfl

theorem Dev.halt_part (d : Dev) (p q : Nat) : (d.halt p).part q = d.part q := by
  unfold Dev.part
  rw [d.halt_parts]

theorem Dev.halt_halted {c : Nat} (h : c ∈ (d.part p).columns) : ((d.halt p).col c).halted = true :=
  fold_modCol_of_mem (P := fun k : Column => k.halted = true) (F := fun _ _ k =>
    { k with halted := true, hand := { k.hand with halted := match k.hand.wait with
      | .cuew _ _ _ _ _ _ => true
      | _ => k.hand.halted } }) (fun _ _ _ => rfl) _ _ (.inl h)

theorem Dev.unhalt_halted {c : Nat} (hheld : (d.part p).held = false) (hwant : (d.part p).holdWanted = false) (hhalt : (d.part p).halting = false)
    (h : c ∈ (d.part p).columns) : ((d.unhalt p).col c).halted = false := by
  unfold Dev.unhalt
  dsimp only
  rw [hheld, hwant, hhalt]
  exact fold_modCol_of_mem (P := fun k : Column => k.halted = false) (F := fun _ _ k => { k with halted := false }) (fun _ _ _ => rfl) _ _ (.inl h)

/-- The device but for its columns. -/
def Dev.colless (d : Dev) : Dev := { d with cols := [] }

theorem Dev.unhalt_frame (d : Dev) (p : Nat) : (d.unhalt p).colless = d.colless ∧ ∀ c, ((d.unhalt p).col c).warps = (d.col c).warps := by
  unfold Dev.unhalt
  dsimp only
  split
  · exact ⟨rfl, fun _ => rfl⟩
  · refine ⟨?_, fun c => ?_⟩
    · refine foldl_keeps Dev.colless _ ?_ _ _
      intro d c
      rfl
    · refine foldl_keeps (fun d => (d.col c).warps) (fun d e => d.modCol e (fun k => { k with halted := false })) (fun d e => ?_) _ _
      refine Dev.modCol_keeps Column.warps ?_ d e c
      intro k
      rfl

end

/-! ## The end of a save -/

/-- What no ring and no completion changes. -/
def Dev.ringless (d : Dev) : Dev := { d with rings := [], adminRing := RingBlock.start }

theorem Dev.complete_ringless (d : Dev) (r : RingId) (seq : BitVec 64) (status : Nat) : (d.complete r seq status).ringless = d.ringless := by
  unfold Dev.complete
  dsimp only
  cases (d.ring r).begun.find? (fun e => e.seq == seq) with
  | none => rfl
  | some e => cases r <;> rfl

/-- The end of a save: the context is saved, and nothing is pending. -/
theorem Dev.saved_spec {d : Dev} {p : Nat} (q : Preempting) (hhas : d.parts.has p = true) :
    ((d.saved p q).ctx q.ctx).state = .saved q.slot ∧ ((d.saved p q).part p).preempt = none ∧ (d.saved p q).images = d.images ∧
      ∀ c, ((d.saved p q).col c).warps = (d.col c).warps := by
  let d1 := (d.modPart p (fun x => { x with preempt := none })).modCtx q.ctx (fun x => { x with state := .saved q.slot })
  have hbase : (d.modPart p (fun x => { x with preempt := none })) = _ := Dev.modPart_of_has hhas _
  obtain ⟨hframe, hwarps⟩ := d1.unhalt_frame p
  have hring : (d.saved p q).ringless = (d1.unhalt p).ringless := by
    unfold Dev.saved
    dsimp only
    cases q.seq with
    | some seq => exact Dev.complete_ringless _ _ _ _
    | none => rfl
  have hctxs : (d.saved p q).ctxs = d1.ctxs := (congrArg Dev.ctxs hring :).trans (congrArg Dev.ctxs hframe :)
  have hparts : (d.saved p q).parts = d1.parts := (congrArg Dev.parts hring :).trans (congrArg Dev.parts hframe :)
  have himages : (d.saved p q).images = d1.images := (congrArg Dev.images hring :).trans (congrArg Dev.images hframe :)
  have hcols : (d.saved p q).cols = (d1.unhalt p).cols := (congrArg Dev.cols hring :)
  refine ⟨?_, ?_, ?_, fun c => ?_⟩
  · unfold Dev.ctx
    rw [hctxs]
    exact (congrArg Context.state (Table.getD_set_same _ _ _ _) :)
  · unfold Dev.part
    rw [hparts]
    change ((d.modPart p (fun x => { x with preempt := none })).part p).preempt = none
    rw [Dev.part_modPart hhas]
  · rw [himages]
    change (d.modPart p (fun x => { x with preempt := none })).images = _
    rw [hbase]
  · unfold Dev.col at hwarps ⊢
    rw [hcols, hwarps]
    change ((d.modPart p (fun x => { x with preempt := none })).cols.getD c Column.start).warps = _
    rw [hbase]

/-! ## Images -/

/-- A byte of a memory of which other entries have been dropped. -/
theorem Memory.byte_filter {m : Memory} {lo : Nat} (h : Memory.above (some lo) m = true) (f : Host.Cell → Bool) {b : Nat} (hf : ∀ c, f (b, c) = true) :
    Memory.byte (m.filter f) b = m.byte b := by
  induction m generalizing lo with
  | nil => rfl
  | cons x m ih =>
    obtain ⟨k, c⟩ := x
    simp only [Memory.above, Bool.and_eq_true, decide_eq_true_eq] at h
    obtain ⟨-, hm⟩ := h
    by_cases hx : f (k, c) = true
    · rw [List.filter_cons_of_pos hx]
      simp only [Memory.byte]
      rw [ih hm]
    · have hne : k ≠ b := fun e => hx (e ▸ hf c)
      rw [List.filter_cons_of_neg hx, ih hm]
      simp only [Memory.byte, hne, if_false]
      split
      · next hlt => exact Memory.byte_of_above hm (Nat.le_of_lt hlt)
      · rfl

theorem Memory.byte_filter_wf {m : Memory} (h : m.wf = true) (f : Host.Cell → Bool) {b : Nat} (hf : ∀ c, f (b, c) = true) :
    Memory.byte (m.filter f) b = m.byte b := by
  cases m with
  | nil => rfl
  | cons x m =>
    obtain ⟨k, c⟩ := x
    simp only [Memory.wf, Memory.above, Bool.and_eq_true, Bool.true_and] at h
    obtain ⟨-, hm⟩ := h
    by_cases hx : f (k, c) = true
    · rw [List.filter_cons_of_pos hx]
      simp only [Memory.byte]
      rw [Memory.byte_filter hm f hf]
    · have hne : k ≠ b := fun e => hx (e ▸ hf c)
      rw [List.filter_cons_of_neg hx, Memory.byte_filter hm f hf]
      simp only [Memory.byte, hne, if_false]
      split
      · next hlt => exact Memory.byte_of_above hm (Nat.le_of_lt hlt)
      · rfl

/-- A saved image changes no byte outside its slot. -/
theorem Memory.byte_saveImage {m : Memory} (h : m.wf = true) (c slot base : Nat) (i : Image) {b : Nat}
    (hb : ¬ (slotKey c slot ≤ b ∧ b < slotKey c slot + 0x400000)) : (m.saveImage c slot base i).byte b = m.byte b := by
  refine (Memory.byte_patch (Memory.wf_filter h _) _ _ _ (by omega)).trans (Memory.byte_filter_wf h _ fun x => ?_)
  by_cases hle : slotKey c slot ≤ b
  · have hlt : ¬ b < slotKey c slot + 0x400000 := fun hlt => hb ⟨hle, hlt⟩
    simp [hlt]
  · simp [hle]

/-- The device once column c has written its image. -/
def Dev.imageWritten (d : Dev) (p c : Nat) (q : Preempting) (i : Image) : Dev :=
  (((({ d with images := d.images.set (imageKey c q.slot) i, free := d.free + 1 } : Dev).cleanSlot c q.slot).putCol c
    { (d.col c).vacate q.ctx with busyEnd := d.now }).modPart p (fun x => { x with preempt := some { q with written := q.written ++ [c] } }))

section
variable {s : State} {p c h : Nat} {q : Preempting}

theorem exec_imageWriteDone (hpre : (s.dev.part p).preempt = some q) (hheld : (s.dev.part p).held = false) (hwant : (s.dev.part p).holdWanted = false)
    (htick : q.htick = some h) (hc : c ∈ (s.dev.part p).columns) (hnew : c ∉ q.written) (hset : s.dev.settled p (fun z => z == q.ctx) true = true) :
    let d := s.dev.imageWritten p c q (s.dev.image c p q h)
    let q2 : Preempting := { q with written := q.written ++ [c] }
    let all := (s.dev.part p).columns.all (fun z => q2.written.contains z)
    exec (.imageWriteDone p c) s =
      .next { vault := s.vault.saveImage c q.slot s.dev.free (s.dev.image c p q h), dev := if all then d.saved p q2 else d } := by
  intro d q2 all
  have hgo : ¬ ((s.dev.part p).held || (s.dev.part p).holdWanted || !(s.dev.part p).columns.contains c || q.written.contains c ||
      !s.dev.settled p (fun z => z == q.ctx) true) = true := by
    simp [hheld, hwant, hc, hnew, hset]
  change execImageWriteDone p c s = _
  unfold execImageWriteDone
  dsimp only
  rw [hpre]
  dsimp only
  rw [htick]
  dsimp only
  rw [if_neg hgo, ← htick]
  rfl

theorem Dev.imageWritten_spec {d : Dev} {i : Image} (hhas : d.parts.has p = true) :
    (d.imageWritten p c q i).images.get? (imageKey c q.slot) = some i ∧ ((d.imageWritten p c q i).col c).warps = [] ∧
      ((d.imageWritten p c q i).part p).preempt = some { q with written := q.written ++ [c] } ∧ (d.imageWritten p c q i).parts.has p = true := by
  let e := ((({ d with images := d.images.set (imageKey c q.slot) i, free := d.free + 1 } : Dev).cleanSlot c q.slot).putCol c
    { (d.col c).vacate q.ctx with busyEnd := d.now })
  have hhas' : e.parts.has p = true := hhas
  have hmod : d.imageWritten p c q i = _ := Dev.modPart_of_has hhas' _
  refine ⟨?_, ?_, ?_, Dev.has_modPart hhas' _⟩
  · rw [hmod]
    exact Table.get?_set_same _ _ _
  · rw [hmod]
    change (e.col c).warps = []
    rw [Dev.col_putCol]
    rfl
  · exact (congrArg Partition.preempt (Dev.part_modPart hhas' _) :)

end

end Sys2Proof.Machine
end

section
namespace Sys2Proof
open Sys2Proof.Machine

/-- Settles O52. -/
theorem haltsAndHolds : Obligations.HaltsAndHolds := by
  intro s p c h q d x hhas
  refine ⟨fun hpre hheld hwant => ⟨fun htick => ?_, fun htick hc hnew hset => ?_⟩, fun hheld hwant => ?_, fun hheld hwant hset => ?_,
    fun hp3 => if_pos hp3, fun hp3 hhalt => ?_⟩
  · let e := d.modPart p (fun x => { x with preempt := some { q with htick := some d.now } })
    have hpart : e.part p = { x with preempt := some { q with htick := some d.now } } := Dev.part_modPart hhas _
    refine ⟨{ s with dev := e.halt p }, ?_, rfl, ?_, fun c hc => Dev.halt_halted ?_⟩
    · have hgo : ¬ (q.htick.isSome || x.held || x.holdWanted) = true := by simp [htick, hheld, hwant]
      change execHaltTick p s = _
      unfold execHaltTick
      dsimp only
      rw [show (s.dev.part p).preempt = _ from hpre]
      exact if_neg hgo
    · rw [Dev.halt_part, hpart]
    · rw [hpart]
      exact hc
  · obtain ⟨himages, hwarps, hpreempt, hhas'⟩ := Dev.imageWritten_spec (c := c) (q := q) (i := d.image c p q h) hhas
    have hexec := exec_imageWriteDone hpre hheld hwant htick hc hnew hset
    let q2 : Preempting := { q with written := q.written ++ [c] }
    obtain ⟨hctx, hnone, himages2, hwarps2⟩ := Dev.saved_spec q2 hhas'
    have hall : x.columns.all (fun z => q2.written.contains z) = true ↔ ∀ z ∈ x.columns, z = c ∨ z ∈ q.written := by
      rw [List.all_eq_true]
      refine forall_congr' fun z => forall_congr' fun _ => ?_
      rw [List.contains_iff_mem, List.mem_append, List.mem_singleton, or_comm]
    refine ⟨_, hexec, rfl, fun hinv b hb => Memory.byte_saveImage hinv _ _ _ _ hb, ?_, ?_, fun hz => ?_, fun hz => ?_⟩
    · dsimp only
      split
      · exact (congrArg (fun t : Table Image => t.get? _) himages2).trans himages
      · exact himages
    · dsimp only
      split
      · exact (hwarps2 c).trans hwarps
      · exact hwarps
    · dsimp only
      rw [if_pos (hall.mpr hz)]
      exact ⟨hctx, hnone⟩
    · obtain ⟨z, hzc, hne, hnot⟩ := hz
      dsimp only
      rw [if_neg fun h => (hall.mp h z hzc).elim hne hnot]
      exact hpreempt
  · let e := d.modPart p (fun x => { x with holdWanted := true })
    have hpart : e.part p = { x with holdWanted := true } := Dev.part_modPart hhas _
    have hgo : ¬ (x.held || x.holdWanted) = true := by simp [hheld, hwant]
    refine ⟨{ s with dev := e.halt p }, ?_, rfl, ?_, fun c hc => Dev.halt_halted ?_⟩
    · refine (if_neg (ne_true_of_eq_false hheld)).trans ((if_pos ?_).trans (congrArg (fun d => Host.Outcome.next { s with dev := d }) (if_neg hgo)))
      change (!x.holdWanted) = true
      rw [hwant]
      rfl
    · rw [Dev.halt_part, hpart]
    · rw [hpart]
      exact hc
  · refine (if_neg (ne_true_of_eq_false hheld)).trans ((if_neg ?_).trans ((if_pos hset).trans ?_))
    · change ¬ (!x.holdWanted) = true
      rw [hwant]
      decide
    · rw [Dev.modPart_of_has hhas]
  · let e := d.modPart p (fun x => { x with held := false, holdWanted := false })
    have hpart : e.part p = { x with held := false, holdWanted := false } := Dev.part_modPart hhas _
    have hparts : (e.unhalt p).part p = e.part p := by
      have hps : (e.unhalt p).parts = e.parts := (congrArg Dev.parts (e.unhalt_frame p).1 :)
      unfold Dev.part
      rw [hps]
    refine ⟨{ s with dev := e.unhalt p }, if_neg hp3, rfl, ?_, ?_, fun c hc => Dev.unhalt_halted ?_ ?_ ?_ ?_⟩
    · exact (congrArg Partition.held (hparts.trans hpart) :)
    · exact (congrArg Partition.holdWanted (hparts.trans hpart) :)
    · rw [hpart]
    · rw [hpart]
    · rw [hpart]
      exact hhalt
    · rw [hpart]
      exact hc

end Sys2Proof
end

section
/-! Proofs about rehearsals, understudies and the errors that a store finds (R438, R451, R456-R458). -/

namespace Sys2Proof.Machine

/-! ## Rehearsal -/

/-- A line of the L2 after an invalidation of its whole range is not valid. -/
theorem Column.l2Valid_l2Invalidate (k : Column) {lo hi a : Nat} (hlo : lo ≤ a / 128 * 128) (hhi : a / 128 * 128 < hi) :
    (k.l2Invalidate lo hi).l2Valid a = false := by
  unfold Column.l2Valid
  cases ht : (k.l2Invalidate lo hi).l2Tag (a / 512) with
  | none => rfl
  | some t =>
    have hsb := List.find?_some (p := fun t : L2Tag => t.sb == a / 512) ht
    obtain ⟨t0, -, rfl⟩ := List.mem_map.mp (List.mem_of_find?_eq_some ht)
    have hsb : t0.sb = a / 512 := by simpa using hsb
    have haddr : t0.sb * 512 + a / 128 % 4 * 128 = a / 128 * 128 := by omega
    have hin : (decide (lo ≤ t0.sb * 512 + a / 128 % 4 * 128) && decide (t0.sb * 512 + a / 128 % 4 * 128 < hi)) = true := by
      rw [haddr, decide_eq_true hlo, decide_eq_true hhi]
      rfl
    refine (congrArg L2Line.valid (Vector.getElem_ofFn (Nat.mod_lt (a / 128) (by decide : 0 < 4))) :).trans ?_
    dsimp only
    rw [if_pos hin]
    rfl

theorem state_of_rehearsing (w : BitVec 64) : ((w &&& ~~~(0xF#64)) ||| 2#64).extractLsb' 0 4 = 2#4 := by
  ext i hi
  have hcase : i = 0 ∨ i = 1 ∨ i = 2 ∨ i = 3 := by omega
  rcases hcase with rfl | rfl | rfl | rfl
  all_goals simp

theorem Dev.recordCol_col (d : Dev) (c e : Nat) (r : RecordInfo) : (d.recordCol c r).col e = d.col e := rfl

/-! ## A column with no understudy -/

theorem Dev.putRing_absent (d : Dev) (r : RingId) (b : RingBlock) : (d.putRing r b).absent = d.absent := by
  cases r <;> rfl

theorem Dev.complete_absent (d : Dev) (r : RingId) (seq : BitVec 64) (status : Nat) : (d.complete r seq status).absent = d.absent :=
  (congrArg Dev.absent (d.complete_ringless r seq status) :)

theorem Dev.abandon_absent (d : Dev) (r : RingId) (ctx status : Nat) (keep : Option (BitVec 64)) : (d.abandon r ctx status keep).absent = d.absent :=
  (foldl_keeps Dev.absent _ (fun d _ => d.complete_absent r _ status) _ _).trans (d.putRing_absent r _)

theorem SameCore.absent {d e : Dev} (h : SameCore d e) : e.absent = d.absent := (congrArg Dev.absent h.dev :)

theorem State.contextReset_absent (s : State) (ctx cause code : Nat) (keep : Option (BitVec 64)) :
    (s.contextReset ctx cause code keep).dev.absent = s.dev.absent := by
  unfold State.contextReset
  dsimp only
  refine ((SameCore.failWords _ _ _).trans (SameCore.testAll _ _)).absent.trans ?_
  refine (Dev.abandon_absent _ _ _ _ _).trans ?_
  exact foldl_keeps Dev.absent (fun d c => d.modCol c _) (fun _ _ => rfl) _ _

theorem State.foldl_keeps {α β : Type} (proj : State → β) (F : State → α → State) (h : ∀ s a, proj (F s a) = proj s) (l : List α) (s : State) :
    proj (l.foldl F s) = proj s := by
  induction l generalizing s with
  | nil => rfl
  | cons a l ih => exact (ih _).trans (h _ _)

theorem State.losePart_absent (s : State) (p : Nat) : (s.losePart p).dev.absent = s.dev.absent := by
  unfold State.losePart
  dsimp only
  have hpart (d : Dev) : (d.modPart p (fun x => { x with lost := true })).absent = d.absent := by
    unfold Dev.modPart
    split <;> rfl
  refine (hpart _).trans ?_
  refine (State.foldl_keeps (fun s => s.dev.absent) _ (fun s c => s.contextReset_absent c 8 0 none) _ _).trans ?_
  exact Machine.foldl_keeps Dev.absent _ (fun d c => d.abandon_absent _ c 9 none) _ _

theorem State.mem_absent_retireAbsent (s : State) (c : Nat) : c ∈ (s.retireAbsent c).dev.absent := by
  have h : (s.retireAbsent c).dev.absent = s.dev.absent ++ [c] :=
    State.foldl_keeps (fun s => s.dev.absent) _ (fun s p => s.losePart_absent p) _ _
  rw [h]
  simp

/-! ## An understudy -/

theorem Dev.modPart_colless (d : Dev) (p : Nat) (f : Partition → Partition) :
    (d.modPart p f).cols = d.cols ∧ { (d.modPart p f).colless with parts := [] } = { d.colless with parts := [] } := by
  unfold Dev.modPart
  split <;> exact ⟨rfl, rfl⟩

/-- The caches of the column that a code, a fetch or a walk fills. -/
def Column.caches (k : Column) : List L1Frame × List TlbEntry := (k.l1, k.tlb)

theorem Dev.unhold_frame (d : Dev) (p c : Nat) :
    { (d.unhold p).colless with parts := [] } = { d.colless with parts := [] } ∧ ((d.unhold p).col c).caches = (d.col c).caches := by
  obtain ⟨hcols, hdev⟩ := d.modPart_colless p (fun x => { x with held := false, holdWanted := false })
  obtain ⟨hframe, -⟩ := (d.modPart p (fun x => { x with held := false, holdWanted := false })).unhalt_frame p
  refine ⟨((congrArg (fun d : Dev => { d with parts := [] }) hframe :)).trans hdev, ?_⟩
  have hcol : ((d.modPart p (fun x => { x with held := false, holdWanted := false })).col c) = d.col c := by
    unfold Dev.col
    rw [hcols]
  unfold Dev.unhold Dev.unhalt
  dsimp only
  split
  · rw [hcol]
  · refine (foldl_keeps (fun d : Dev => (d.col c).caches) (fun d e => d.modCol e (fun k => { k with halted := false })) (fun d e => ?_) _ _).trans
      (congrArg Column.caches hcol)
    refine Dev.modCol_keeps Column.caches ?_ d e c
    intro k
    rfl

/-- The remap: the logical column stands on the understudy, with empty caches. -/
theorem Dev.promote_spec (d : Dev) (c u : Nat) (readable : Bool) :
    (d.promote c u readable).phys.get? c = some u ∧ (d.promote c u readable).absent = d.absent ∧
      ((d.promote c u readable).col c).l1 = [] ∧ ((d.promote c u readable).col c).tlb = [] := by
  let moved := (d.readInjected c).modCol c (fun k => k.moved readable)
  have hread : SameWarps d (d.readInjected c) := by
    unfold Dev.readInjected
    generalize List.filter _ d.inject = xs
    have hall : ∀ e, SameWarps d e → SameWarps d (xs.foldl (fun (d : Dev) x => d.controllerRead c (x.1 % 2 ^ 39 * 32)) e) := by
      induction xs with
      | nil => exact fun e h => h
      | cons x xs ih => exact fun e h => ih _ (h.trans (.controllerRead _ _ _))
    exact hall d (.refl d)
  have hphys : (d.readInjected c).phys = d.phys := (congrArg Dev.phys hread.dev :)
  have habsent : (d.readInjected c).absent = d.absent := (congrArg Dev.absent hread.dev :)
  have hcaches : (moved.col c).caches = ([], []) := congrArg Column.caches (Dev.col_modCol _ c _)
  let old := d.phys.getD c (c % 256)
  let e : Dev := { moved with
    phys := moved.phys.set c u, understudies := moved.understudies.filter (· != physKey (dieOf c) u), spares := lessOne moved.spares (dieOf c),
    banks := moved.banks.filter (fun b => b.1 / 32 != c) }
  let r := e.recordCol c { kind := 0x0E, unit := 0, detail := BitVec.ofNat 128 (old + u * 2 ^ 16) }
  have hr : r.phys = (d.readInjected c).phys.set c u ∧ r.absent = (d.readInjected c).absent ∧ (r.col c).caches = (moved.col c).caches := ⟨rfl, rfl, rfl⟩
  obtain ⟨hrphys, hrabsent, hrcaches⟩ := hr
  have hfinal : (d.promote c u readable).phys = r.phys ∧ (d.promote c u readable).absent = r.absent ∧
      ((d.promote c u readable).col c).caches = (r.col c).caches := by
    change (if r.power = .p3 then r else _).phys = _ ∧ (if r.power = .p3 then r else _).absent = _ ∧ ((if r.power = .p3 then r else _).col c).caches = _
    split
    · exact ⟨rfl, rfl, rfl⟩
    · refine ⟨foldl_keeps Dev.phys _ (fun d p => ?_) _ _, foldl_keeps Dev.absent _ (fun d p => ?_) _ _,
        foldl_keeps (fun d : Dev => (d.col c).caches) _ (fun d p => (d.unhold_frame p c).2) _ _⟩
      · exact (congrArg Dev.phys (d.unhold_frame p c).1 :)
      · exact (congrArg Dev.absent (d.unhold_frame p c).1 :)
  obtain ⟨hfphys, hfabsent, hfcaches⟩ := hfinal
  have hall : ((d.promote c u readable).col c).caches = ([], []) := hfcaches.trans (hrcaches.trans hcaches)
  refine ⟨?_, hfabsent.trans (hrabsent.trans habsent), (congrArg Prod.fst hall :), (congrArg Prod.snd hall :)⟩
  rw [hfphys, hrphys]
  exact Table.get?_set_same _ _ _

section
variable {s : State} {c u : Nat}

/-- Nothing refuses the retirement of a present column that is to be retired. -/
theorem not_refused_of_retiring (hret : (s.dev.col c).retiring = true) (hc : c < 1024) (hpres : c ∉ s.dev.absent) :
    ¬ (1024 ≤ c ∨ s.dev.absent.contains c = true ∨ (!(s.dev.col c).retiring) = true) := by
  rw [hret]
  simp [hpres, hc]

/-- The retirement of a readable column with an understudy: the remap once its partitions are held, else their holds are asked for. -/
theorem exec_columnRetirement (hret : (s.dev.col c).retiring = true) (hc : c < 1024) (hpres : c ∉ s.dev.absent)
    (hspare : s.dev.spares.toList.getD (dieOf c) 0 ≠ 0) (hu : physKey (dieOf c) u ∈ s.dev.understudies) :
    exec (.columnRetirement c u true) s =
      if (s.dev.holders c).all (fun p => (s.dev.part p).held) then .next { s with dev := s.dev.promote c u true }
      else .next { s with dev := (s.dev.holders c).foldl (fun d p => d.wantHold p) s.dev } := by
  have hlisted : ¬ (!s.dev.understudies.contains (physKey (dieOf c) u)) = true := by simp [hu]
  exact (if_neg (not_refused_of_retiring hret hc hpres)).trans ((if_neg hspare).trans (if_neg hlisted))

end

/-! ## Errors of the stores -/

/-- An error outside the vault is counted on its column, which is otherwise as it was. -/
theorem Dev.dataError_col (d : Dev) (c unit block at_ : Nat) : (d.dataError c unit block at_).col c = (d.col c).hwError := Dev.col_modCol _ c _

theorem spoilWord_pois (ctx : Nat) (x : Word × Bool) (e : Option PoolWord) : (spoilWord ctx x e).pois = true := by
  cases e <;> rfl

section
variable {d : Dev} {c i : Nat}

/-- A word of the pool outside the registers becomes poisoned. -/
theorem Dev.poolError_spec (hlo : (d.col c).poolReg ≤ 4 * i) (hhi : 4 * i < (d.col c).poolAcc) :
    ∃ w : PoolWord, w.pois = true ∧ (d.poolError c i).col c = { (d.col c).hwError with pool := (d.col c).pool.set i w } := by
  have hin : ¬ (d.col c).poolAcc ≤ 4 * i := by omega
  have hreg : ¬ (4 * i < (d.col c).poolReg ∧ (d.col c).warps.has (i / 32 / (d.col c).regions.regs) = true) := by omega
  refine ⟨spoilWord (d.ctxOn c) ((d.col c).hwError.blank (d.ctxOn c) i) ((d.col c).hwError.pool.get? i), spoilWord_pois _ _ _, ?_⟩
  unfold Dev.poolError
  dsimp only
  rw [if_neg hin, if_neg hreg, Dev.col_modCol, Dev.dataError_col]
  rfl

/-- A word of the B-SRAM becomes poisoned. -/
theorem Dev.bsramError_spec (hi : i < 262144) :
    ∃ w : PoolWord, w.pois = true ∧ (d.bsramError c i).col c = { (d.col c).hwError with bsram := (d.col c).bsram.set i w } := by
  have hin : ¬ 262144 ≤ i := by omega
  refine ⟨spoilWord (d.ctxOn c) ((d.col c).hwError.blank (d.ctxOn c) (bsBase + i)) ((d.col c).hwError.bsram.get? i), spoilWord_pois _ _ _, ?_⟩
  unfold Dev.bsramError
  rw [if_neg hin, Dev.col_modCol, Dev.dataError_col]
  rfl

end

/-- An error in a control structure of a resident context resets the context. -/
theorem State.controlError_empties {s : State} {c x : Nat} (unit block n : Nat) (hres : (s.dev.ctx x).state = .resident)
    (hhas : s.dev.ctxs.has x = true) (hpart : s.dev.inPart x c = true) : ((s.controlError c x unit block n).dev.ctx x).state = .empty := by
  have hgo : ¬ ((s.dev.ctx x).state != .resident || !s.dev.inPart x c) = true := by simp [hres, hpart]
  have hc : c ∈ (s.dev.part (s.dev.ctx x).part).columns := by
    have h := (Bool.and_eq_true_iff.mp hpart).1
    exact List.contains_iff_mem.mp h
  unfold State.controlError
  rw [if_neg hgo]
  let e : Dev := s.dev.columnError c { kind := 0x02, unit := unit, block := block, ctx := some x, detail := BitVec.ofNat 128 n }
  exact (contextReset_free (s := { s with dev := e }) (ctx := x) (c := c) 3 0 none hres hhas hc).1

/-- The first turn of the agenda, where it is an error that a store finds. -/
theorem step_error {s : State} {e : HwError} {rest : List Turn} (h : s.dev.agenda = .error e :: rest) :
    step s = .next (({ s with dev := { s.dev with agenda := rest } } : State).hwError e) := by
  unfold step
  rw [h]

end Sys2Proof.Machine
end

section
namespace Sys2Proof
open Sys2Proof.Machine

/-- Settles O53. -/
theorem rehearsalAndRetirement : Obligations.RehearsalAndRetirement := by
  intro s c unit block un i x n tests rest d k
  refine ⟨fun hq hnot hwarps => ?_, fun hon => ?_, fun hret => ?_, fun hret hc hpres hsp => ?_, fun hret hc hpres hsp hun => ⟨fun hheld => ?_, fun hheld => ?_⟩,
    fun hlo hhi hag => ?_, fun hi hag => ?_, fun hres hhas hpart hag => ?_⟩
  · have hgo : ¬ (k.rehearseQ.isNone || k.rehearsing || !k.warps.isEmpty) = true := by simp [hq, hnot, hwarps]
    refine ⟨_, if_neg hgo, rfl, ?_⟩
    rw [Dev.col_modCol]
    refine ⟨rfl, rfl, state_of_rehearsing _, fun a ha => ?_⟩
    exact k.l2Valid_l2Invalidate (Nat.zero_le _) (by unfold vaultSize at ha ⊢; omega)
  · have hgo : ¬ (!k.rehearsing) = true := by simp [hon]
    have hexec : exec (.rehearsalEnd c unit block) s = _ := if_neg hgo
    let e := d.modCol c (fun k => { k.rehearsed (unit % 256) block with busyEnd := d.now })
    have hcol : (e.col c) = { k.rehearsed (unit % 256) block with busyEnd := d.now } := Dev.col_modCol _ _ _
    let failure : RecordInfo := { kind := 0x0D, unit := unit % 256, block := block % 65536, detail := (e.col c).rehearsal.setWidth 128 }
    let u : State := { s with dev := if unit % 256 = 0 then e else e.recordCol c failure }
    have hu : u.dev.col c = { k.rehearsed (unit % 256) block with busyEnd := d.now } := by
      refine Eq.trans ?_ hcol
      change Dev.col (if unit % 256 = 0 then e else _) c = _
      split <;> rfl
    refine ⟨u, hexec, rfl, ?_⟩
    rw [hu]
    refine ⟨rfl, rfl, rfl, rfl, fun hfail => ?_, rfl⟩
    change (k.retiring || unit % 256 != 0) = true
    simp [hfail]
  · refine if_pos (.inr (.inr ?_))
    rw [show (s.dev.col c).retiring = false from hret]
    decide
  · refine ⟨_, (if_neg (not_refused_of_retiring hret hc hpres)).trans (if_pos hsp), State.mem_absent_retireAbsent s c⟩
  · have hgo : (d.holders c).all (fun p => (d.part p).held) = true := List.all_eq_true.mpr hheld
    obtain ⟨hphys, habsent, hl1, htlb⟩ := d.promote_spec c un true
    exact ⟨_, (exec_columnRetirement hret hc hpres hsp hun).trans (if_pos hgo), rfl, hphys, habsent, hl1, htlb⟩
  · have hgo : ¬ (d.holders c).all (fun p => (d.part p).held) = true := fun h => by
      obtain ⟨p, hp, hnot⟩ := hheld
      exact ne_true_of_eq_false hnot (List.all_eq_true.mp h p hp)
    exact (exec_columnRetirement hret hc hpres hsp hun).trans (if_neg hgo)
  · obtain ⟨w, hw, hcol⟩ := Dev.poolError_spec (d := { s.dev with agenda := rest }) hlo hhi
    refine ⟨_, step_error hag, ⟨rfl, ?_, ?_⟩, ?_⟩
    · exact (congrArg Column.hwErrs hcol :)
    · exact (congrArg Column.retiring hcol :)
    · refine (congrArg (fun k : Column => (k.pool.get? i).map PoolWord.pois) hcol :).trans ?_
      dsimp only
      rw [Table.get?_set_same]
      exact congrArg some hw
  · obtain ⟨w, hw, hcol⟩ := Dev.bsramError_spec (d := { s.dev with agenda := rest }) (c := c) hi
    refine ⟨_, step_error hag, ⟨rfl, ?_, ?_⟩, ?_⟩
    · exact (congrArg Column.hwErrs hcol :)
    · exact (congrArg Column.retiring hcol :)
    · refine (congrArg (fun k : Column => (k.bsram.get? i).map PoolWord.pois) hcol :).trans ?_
      dsimp only
      rw [Table.get?_set_same]
      exact congrArg some hw
  · exact ⟨_, step_error hag, State.controlError_empties (s := { s with dev := { s.dev with agenda := rest } }) unit block n hres hhas hpart⟩

end Sys2Proof
end

section
/-! Proofs about bring-up, the failures of functions, and the power and thermal states (R392-R394, R398, R406). -/

namespace Sys2Proof.Machine

/-! ## Readiness -/

/-- The device but for its readiness, whose changes are reported to the host. -/
def Dev.readyless (d : Dev) : Dev := { d with ready := [], readyEvents := [], adminRing := RingBlock.start }

theorem Dev.raiseReady_frame (d : Dev) : d.raiseReady.readyless = d.readyless ∧ d.raiseReady.ready = d.ready := by
  unfold Dev.raiseReady
  split
  · exact ⟨foldl_keeps Dev.readyless (fun d w => d.event 0x80 0 w) (fun _ _ => rfl) _ _,
      foldl_keeps Dev.ready (fun d w => d.event 0x80 0 w) (fun _ _ => rfl) _ _⟩
  · exact ⟨rfl, rfl⟩

theorem Dev.setReady_readyless (d : Dev) (f : ReadyFn) (on : Bool) : (d.setReady f on).readyless = d.readyless := by
  unfold Dev.setReady
  split
  · rfl
  · exact (Dev.raiseReady_frame _).1

theorem Dev.setReady_ready (d : Dev) (f : ReadyFn) (on : Bool) :
    (d.setReady f on).ready = if d.ready.contains f == on then d.ready else if on then d.ready ++ [f] else d.ready.filter (· != f) := by
  unfold Dev.setReady
  by_cases h : (d.ready.contains f == on) = true
  · rw [if_pos h, if_pos h]
  · rw [if_neg h, if_neg h]
    exact (Dev.raiseReady_frame _).2

theorem Dev.mem_setReady_true (d : Dev) (f : ReadyFn) : f ∈ (d.setReady f true).ready := by
  rw [d.setReady_ready]
  split
  · next h => simpa using h
  · simp

theorem Dev.mem_setReady_of_mem {d : Dev} {f : ReadyFn} (h : f ∈ d.ready) (g : ReadyFn) : f ∈ (d.setReady g true).ready := by
  rw [d.setReady_ready]
  split
  · exact h
  · exact List.mem_append_left _ h

theorem Dev.not_mem_setReady_false (d : Dev) (f : ReadyFn) : f ∉ (d.setReady f false).ready := by
  rw [d.setReady_ready]
  split
  · next h => simpa using h
  · simp

theorem Dev.setReady_col (d : Dev) (f : ReadyFn) (on : Bool) (c : Nat) : (d.setReady f on).col c = d.col c :=
  (congrArg (fun d : Dev => d.col c) (d.setReady_readyless f on) :)

/-- A fold that makes functions ready makes each of them so. -/
theorem Dev.mem_readyAll (g : Nat → ReadyFn) {c : Nat} (cs : List Nat) (d : Dev) (h : c ∈ cs ∨ g c ∈ d.ready) :
    g c ∈ (cs.foldl (fun (d : Dev) c => d.setReady (g c) true) d).ready := by
  induction cs generalizing d with
  | nil => exact h.resolve_left (by simp)
  | cons x cs ih =>
    refine ih _ ?_
    rcases h with h | h
    · rcases List.mem_cons.mp h with rfl | h
      · exact .inr (d.mem_setReady_true _)
      · exact .inl h
    · exact .inr (Dev.mem_setReady_of_mem h _)

/-! ## The steps of bring-up -/

/-- What bring-up itself keeps of its dies. -/
def Dev.booting (d : Dev) : Vector Nat 4 × List Nat := (d.boot, d.bootFail)

theorem Dev.setReady_booting (d : Dev) (f : ReadyFn) (on : Bool) : (d.setReady f on).booting = d.booting :=
  (congrArg Dev.booting (d.setReady_readyless f on) :)

theorem Dev.failedAtStart_booting (d : Dev) (die : Nat) (taken : List (Nat × Nat)) (b : BadColumn) :
    (d.failedAtStart die taken b).booting = d.booting := by
  unfold Dev.failedAtStart
  dsimp only
  cases numberOf d.flashCfg die b.phys with
  | none => rfl
  | some c =>
    dsimp only
    split <;> rfl

theorem Dev.replacedAtStart_booting (d : Dev) (die : Nat) (taken : List (Nat × Nat)) (b : BadColumn) :
    (d.replacedAtStart die taken b).booting = d.booting := by
  unfold Dev.replacedAtStart
  cases taken.find? (fun x => numberOf d.flashCfg die b.phys == some x.1) <;> rfl

/-- Step 3 of bring-up ends with the columns of the die rehearsed, and ready. -/
theorem Dev.startColumns_eq (d : Dev) (die : Nat) (bad : List BadColumn) :
    ∃ e : Dev, e.booting = d.booting ∧ d.startColumns die bad =
      ((e.dieCols die).foldl (fun (d : Dev) c => d.modCol c (fun k => { k with rehearsal := resultWord 3 0 0 0 })) e).setReady (.cols die) true := by
  have hclock : (if d.boot.toList.all (fun n => decide (n ≤ 2)) then d.clockStart else d).booting = d.booting := by split <;> rfl
  unfold Dev.startColumns
  dsimp only
  generalize (if d.boot.toList.all (fun n => decide (n ≤ 2)) then d.clockStart else d) = d1 at hclock ⊢
  generalize columnMap d1.flashCfg die _ _ _ = r
  obtain ⟨l, spare⟩ := r
  refine ⟨_, ?_, rfl⟩
  refine (foldl_keeps Dev.booting _ (fun d b => d.replacedAtStart_booting die _ b) _ _).trans ?_
  refine (foldl_keeps Dev.booting _ (fun d b => d.failedAtStart_booting die _ b) _ _).trans ?_
  exact hclock

theorem Dev.startColumns_spec (d : Dev) (die : Nat) (bad : List BadColumn) :
    (d.startColumns die bad).booting = d.booting ∧ .cols die ∈ (d.startColumns die bad).ready ∧
      ∀ c ∈ (d.startColumns die bad).dieCols die, ((d.startColumns die bad).col c).rehearsal = resultWord 3 0 0 0 := by
  obtain ⟨e, hboot, heq⟩ := d.startColumns_eq die bad
  let F := fun (d : Dev) c => d.modCol c (fun k => { k with rehearsal := resultWord 3 0 0 0 })
  let r := (e.dieCols die).foldl F e
  have habsent : r.absent = e.absent := foldl_keeps Dev.absent F (fun _ _ => rfl) _ _
  have hbooting : r.booting = e.booting := foldl_keeps Dev.booting F (fun _ _ => rfl) _ _
  have hready : (r.setReady (.cols die) true).absent = r.absent := (congrArg Dev.absent (r.setReady_readyless (.cols die) true) :)
  have hcols : (r.setReady (.cols die) true).dieCols die = e.dieCols die := by
    unfold Dev.dieCols
    rw [hready, habsent]
  rw [heq]
  refine ⟨(r.setReady_booting _ _).trans (hbooting.trans hboot), r.mem_setReady_true _, fun c hc => ?_⟩
  rw [Dev.setReady_col]
  rw [hcols] at hc
  exact fold_modCol_of_mem (P := fun k => k.rehearsal = resultWord 3 0 0 0) (F := fun _ _ k => { k with rehearsal := resultWord 3 0 0 0 })
    (fun _ _ _ => rfl) _ _ (.inl hc)

/-- The device with the flash that a power-on finds, read where no die has begun. -/
def Dev.powered (d : Dev) : Dev := if (List.range 4).all (fun i => d.boot.toList.getD i 0 == 0 && !d.bootFail.contains i) then d.loadFlash else d

theorem Dev.powered_frame (d : Dev) : d.powered.booting = d.booting ∧ d.powered.ready = d.ready := by
  unfold Dev.powered
  split <;> exact ⟨rfl, rfl⟩

section
variable {d : Dev} {die : Nat} {bad : List BadColumn}

theorem Dev.bootStep_firmware (h : Config.firmwareSigned d.powered.flashFw = true) : d.bootStep die bad 0 = d.powered.setReady (.smgr die) true := if_pos h

theorem Dev.bootStep_no_firmware (h : ¬ Config.firmwareSigned d.powered.flashFw = true) :
    d.bootStep die bad 0 = { d.powered with bootFail := d.powered.bootFail ++ [die], replies := d.powered.replies ++ [.cause die 1] } := if_neg h

theorem Dev.bootStep_record (h : recordOk d.flashCfg d.minVer = true) : d.bootStep die bad 1 = { d with minVer := recordVer d.flashCfg } := if_pos h

theorem Dev.bootStep_no_record (h : ¬ recordOk d.flashCfg d.minVer = true) :
    d.bootStep die bad 1 = { d with bootFail := d.bootFail ++ [die], replies := d.replies ++ [.cause die 2] } := if_neg h

theorem Dev.bootStep_hands : d.bootStep die bad 3 = (d.dieCols die).foldl (fun (d : Dev) c => d.setReady (.stage c) true) d := rfl

theorem Dev.bootStep_sequencer : d.bootStep die bad 4 = if die = 0 then d.setReady .seqr true else d := rfl

end

theorem Dev.bootStep_boot (d : Dev) (die : Nat) (bad : List BadColumn) (n : Nat) : (d.bootStep die bad n).boot = d.boot := by
  match n with
  | 0 =>
    have hload : d.powered.boot = d.boot := (congrArg Prod.fst d.powered_frame.1 :)
    by_cases h : Config.firmwareSigned d.powered.flashFw = true
    · rw [Dev.bootStep_firmware h]
      exact (congrArg Prod.fst (Dev.setReady_booting _ _ _) :).trans hload
    · rw [Dev.bootStep_no_firmware h]
      exact hload
  | 1 =>
    by_cases h : recordOk d.flashCfg d.minVer = true
    · rw [Dev.bootStep_record h]
    · rw [Dev.bootStep_no_record h]
  | 2 => exact (congrArg Prod.fst (d.startColumns_spec die bad).1 :)
  | 3 => exact foldl_keeps Dev.boot _ (fun d c => (congrArg Prod.fst (d.setReady_booting (.stage c) true) :)) _ _
  | 4 =>
    rw [Dev.bootStep_sequencer]
    split
    · exact (congrArg Prod.fst (d.setReady_booting _ _) :)
    · rfl
  | n + 5 => rfl

/-- The meaning of POWER_ON, of a die that has not come up and whose checks have passed. -/
theorem exec_powerOn {s : State} {die : Nat} {bad : List BadColumn} (hdie : die < 4) (hstep : s.dev.boot.toList.getD die 5 < 5)
    (hok : die ∉ s.dev.bootFail) :
    let n := s.dev.boot.toList.getD die 5
    let e := s.dev.bootStep die bad n
    exec (.powerOn { die := die, bad := bad }) s =
      .next { s with dev := { e with boot := if e.bootFail.contains die then e.boot else setDie e.boot die (n + 1) } } := by
  refine if_neg ?_
  simp only [List.contains_iff_mem, hok, or_false]
  omega

theorem setDie_getD (v : Vector Nat 4) {die : Nat} (h : die < 4) (n k : Nat) : (setDie v die n).toList.getD die k = n := by
  unfold setDie
  rw [List.getD_eq_getElem _ _ (by simpa using h)]
  simp

/-! ## Holds of every partition -/

/-- A partition is held, or its hold is asked for. -/
def Dev.holding (d : Dev) (p : Nat) : Bool := (d.part p).held || (d.part p).holdWanted

theorem Dev.has_modPart_iff (d : Dev) (p q : Nat) (f : Partition → Partition) : (d.modPart p f).parts.has q = d.parts.has q := by
  unfold Dev.modPart
  split
  · next h =>
    by_cases hq : q = p
    · subst hq
      exact (Table.has_set_same _ _ _).trans h.symm
    · unfold Table.has
      rw [Table.get?_set_ne _ _ hq]
  · rfl

theorem Dev.part_modPart_ne (d : Dev) {p q : Nat} (h : q ≠ p) (f : Partition → Partition) : (d.modPart p f).part q = d.part q := by
  unfold Dev.modPart
  split
  · exact Table.getD_set_ne _ _ _ h
  · rfl

theorem Dev.wantHold_frame (d : Dev) (p : Nat) : (d.wantHold p).power = d.power ∧ ∀ q, (d.wantHold p).parts.has q = d.parts.has q := by
  have hhalt (e : Dev) : (e.halt p).power = e.power := by
    refine foldl_keeps Dev.power _ ?_ _ _
    intro d c
    rfl
  unfold Dev.wantHold
  split
  · exact ⟨rfl, fun _ => rfl⟩
  · refine ⟨(hhalt _).trans (congrArg Dev.power (d.modPart_colless p _).2 :), fun q => ?_⟩
    rw [Dev.halt_parts, Dev.has_modPart_iff]

theorem Dev.wantHold_holding {d : Dev} {p : Nat} (q : Nat) (h : d.holding p = true ∨ q = p ∧ d.parts.has p = true) : (d.wantHold q).holding p = true := by
  unfold Dev.wantHold
  split
  · next hq =>
    rcases h with h | ⟨rfl, -⟩
    · exact h
    · exact hq
  · next hq =>
    unfold Dev.holding
    rw [Dev.halt_part]
    by_cases hpq : p = q
    · subst hpq
      have hhas : d.parts.has p = true := h.elim (fun h => absurd h hq) And.right
      rw [Dev.part_modPart hhas]
      exact Bool.or_true _
    · rw [d.part_modPart_ne hpq]
      exact h.elim id fun h => absurd h.1.symm hpq

theorem Dev.wantHolds_holding {p : Nat} (ps : List Nat) (d : Dev) (hhas : d.parts.has p = true) (h : d.holding p = true ∨ p ∈ ps) :
    (ps.foldl (fun (d : Dev) p => d.wantHold p) d).holding p = true := by
  induction ps generalizing d with
  | nil => exact h.resolve_right (by simp)
  | cons q ps ih =>
    refine ih _ (((d.wantHold_frame q).2 p).trans hhas) ?_
    rcases h with h | h
    · exact .inl (Dev.wantHold_holding q (.inl h))
    · rcases List.mem_cons.mp h with rfl | h
      · exact .inl (Dev.wantHold_holding p (.inr ⟨rfl, hhas⟩))
      · exact .inr h

/-- A partition of the device is one of those that a fold over the table meets. -/
theorem Table.mem_keys_of_has {α : Type} {t : Table α} {k : Nat} (h : t.has k = true) : k ∈ t.map Prod.fst := by
  induction t with
  | nil => cases h
  | cons x t ih =>
    obtain ⟨j, v⟩ := x
    by_cases hj : j = k
    · exact List.mem_cons.mpr (.inl hj.symm)
    · refine List.mem_cons_of_mem _ (ih ?_)
      unfold Table.has at h ⊢
      unfold Table.get? at h
      rw [if_neg hj] at h
      split at h
      · cases h
      · exact h

/-- The inlet has been hot for long enough at a reading that finds it hot again. -/
theorem Dev.inletHot_readings (d : Dev) (junction : Vector Nat 4) {inlet : Nat} {t : Int} (hin : 45 < inlet) (ht : d.hotSince = some t)
    (hle : t + 1050000000 ≤ d.now) : (d.readings junction inlet).inletHot = true := by
  have hsince : (d.readings junction inlet).hotSince = some t := by
    refine (if_neg (by omega)).trans ?_
    rw [ht]
    rfl
  unfold Dev.inletHot
  rw [hsince]
  exact decide_eq_true hle

/-- A partition that is not held, and whose hold is not asked for. -/
def Dev.released (d : Dev) (p : Nat) : Prop := (d.part p).held = false ∧ (d.part p).holdWanted = false

theorem Dev.unhold_parts (d : Dev) (p : Nat) :
    (d.unhold p).parts = (d.modPart p (fun x => { x with held := false, holdWanted := false })).parts :=
  (congrArg Dev.parts (Dev.unhalt_frame _ p).1 :)

theorem Dev.unhold_released {d : Dev} {p : Nat} (q : Nat) (hhas : d.parts.has p = true) (h : d.released p ∨ q = p) : (d.unhold q).released p := by
  have hpart : (d.unhold q).part p = (d.modPart q (fun x => { x with held := false, holdWanted := false })).part p := by
    unfold Dev.part
    rw [d.unhold_parts]
  unfold Dev.released
  rw [hpart]
  by_cases hpq : p = q
  · subst hpq
    rw [Dev.part_modPart hhas]
    exact ⟨rfl, rfl⟩
  · rw [d.part_modPart_ne hpq]
    exact h.resolve_right fun h => hpq h.symm

theorem Dev.unholds_released {p : Nat} (ps : List Nat) (d : Dev) (hhas : d.parts.has p = true) (h : d.released p ∨ p ∈ ps) :
    (ps.foldl (fun (d : Dev) p => d.unhold p) d).released p := by
  induction ps generalizing d with
  | nil => exact h.resolve_right (by simp)
  | cons q ps ih =>
    refine ih _ ?_ ?_
    · rw [d.unhold_parts, Dev.has_modPart_iff]
      exact hhas
    · rcases h with h | h
      · exact .inl (Dev.unhold_released q hhas (.inl h))
      · rcases List.mem_cons.mp h with rfl | h
        · exact .inl (Dev.unhold_released p hhas (.inr rfl))
        · exact .inr h

end Sys2Proof.Machine
end

section
namespace Sys2Proof
open Sys2Proof.Machine

/-- Settles O54. -/
theorem bringUpAndPower : Obligations.BringUpAndPower := by
  intro s die c y power inlet junction bad f on after d n cold loaded st
  refine ⟨fun hdie hstep hok => ?_, fun hno => ?_, fun hready hf => ?_, fun hhigh => ?_, fun hp hj => ?_, fun hidle hlong => ?_, fun hbusy => ?_,
    fun hp3 hhot => ?_, fun hp3 hj hin => ?_, rfl, fun hdbg hstop => ?_⟩
  · let e := d.bootStep die bad n
    let u : State := { s with dev := { e with boot := if e.bootFail.contains die then e.boot else setDie e.boot die (n + 1) } }
    have hu (k : Nat) (hk : n = k) : u.dev.ready = (d.bootStep die bad k).ready ∧ u.dev.bootFail = (d.bootStep die bad k).bootFail := by
      rw [← hk]
      exact ⟨rfl, rfl⟩
    refine ⟨u, exec_powerOn hdie hstep hok, rfl, ?_, fun h0 => ?_, fun h1 => ?_, fun h2 => ?_, fun h3 => ?_, fun h4 hd => ?_⟩
    · have hboot : e.boot = d.boot := Dev.bootStep_boot _ _ _ _
      change (if e.bootFail.contains die = true then e.boot else setDie e.boot die (n + 1)).toList.getD die 5 = if die ∈ e.bootFail then n else n + 1
      simp only [List.contains_iff_mem]
      split
      · rw [hboot]
      · exact setDie_getD _ hdie _ _
    · obtain ⟨hready, hbad⟩ := hu 0 h0
      rw [hready, hbad]
      have hframe : loaded.booting = d.booting ∧ loaded.ready = d.ready := d.powered_frame
      have hfail : loaded.bootFail = d.bootFail := (congrArg Prod.snd hframe.1 :)
      split
      · next hs =>
        rw [Dev.bootStep_firmware hs]
        exact ⟨Dev.mem_setReady_true _ _, (congrArg Prod.snd (Dev.setReady_booting _ _ _) :).trans hfail⟩
      · next hs =>
        rw [Dev.bootStep_no_firmware hs]
        exact ⟨hframe.2, congrArg (· ++ [die]) hfail⟩
    · obtain ⟨hready, hbad⟩ := hu 1 h1
      rw [hready, hbad]
      split
      · next hs =>
        refine ⟨by rw [Dev.bootStep_record hs], ?_⟩
        change e.minVer = _
        rw [show e = d.bootStep die bad 1 from congrArg (d.bootStep die bad) h1, Dev.bootStep_record hs]
      · next hs =>
        rw [Dev.bootStep_no_record hs]
        exact ⟨rfl, rfl⟩
    · obtain ⟨-, hcols, hreh⟩ := d.startColumns_spec die bad
      have he : e = d.startColumns die bad := congrArg (d.bootStep die bad) h2
      rw [← he] at hcols hreh
      exact ⟨hcols, hreh⟩
    · intro c hc
      rw [(hu 3 h3).1, Dev.bootStep_hands]
      exact Dev.mem_readyAll ReadyFn.stage _ d (.inl hc)
    · rw [(hu 4 h4).1, Dev.bootStep_sequencer, if_pos hd]
      exact d.mem_setReady_true _
  · refine if_pos (.inr (hno.imp_right List.contains_iff_mem.mpr))
  · refine (if_neg ?_).trans ?_
    · rw [show s.dev.ready.contains f = true from hready]
      decide
    · rcases hf with rfl | rfl | rfl <;> rfl
  · refine congrArg (fun d => Host.Outcome.next { s with dev := d }) (if_pos ?_)
    simpa using hhigh
  · refine congrArg (fun d => Host.Outcome.next { s with dev := d }) (if_neg ?_)
    simpa [hj] using hp
  · refine if_pos ?_
    rw [hidle, decide_eq_true hlong]
    rfl
  · refine if_neg ?_
    rw [hbusy]
    exact Bool.false_ne_true
  · let e : Dev := { d.readings junction inlet with power := .p3 }
    let r := (e.parts.map Prod.fst).foldl (fun (d : Dev) p => d.wantHold p) e
    have hgo : ¬ (d.power = .p3 ∨ (!(hotJunction junction 115 || (d.readings junction inlet).inletHot)) = true) := by
      refine not_or.mpr ⟨hp3, ?_⟩
      rcases hhot with hj | ⟨hin, t, ht, hle⟩
      · rw [hj, Bool.true_or]
        decide
      · rw [d.inletHot_readings junction hin ht hle, Bool.or_true]
        decide
    have hpower : r.power = .p3 := foldl_keeps Dev.power _ (fun d p => (d.wantHold_frame p).1) _ _
    refine ⟨{ s with dev := r.setReady .hold true }, if_neg hgo, rfl, ?_, Dev.mem_setReady_true _ _, fun p hp => ?_⟩
    · exact (congrArg Dev.power (r.setReady_readyless .hold true) :).trans hpower
    · have hhold : r.holding p = true := Dev.wantHolds_holding _ e hp (.inr (Table.mem_keys_of_has hp))
      have hsame : (r.setReady .hold true).part p = r.part p := (congrArg (fun d : Dev => d.part p) (r.setReady_readyless .hold true) :)
      dsimp only
      rw [hsame]
      exact Bool.or_eq_true_iff.mp hhold
  · let e : Dev := { d.readings junction inlet with power := if d.rate < 8 then .p1 else .p0 }
    let r := (e.parts.map Prod.fst).foldl (fun (d : Dev) p => d.unhold p) e
    have hgo : ¬ (d.power ≠ .p3 ∨ hotJunction junction 95 = true ∨ 45 < inlet) := by
      rw [hj]
      simp [hp3, hin]
    have hpower : r.power = e.power := foldl_keeps Dev.power (fun (d : Dev) p => d.unhold p) (fun d p => (congrArg Dev.power (d.unhold_frame p 0).1 :)) _ _
    have hset : (r.setReady .hold false).power = r.power := (congrArg Dev.power (r.setReady_readyless .hold false) :)
    refine ⟨{ s with dev := r.setReady .hold false }, if_neg hgo, rfl, ?_, Dev.not_mem_setReady_false _ _, fun p hp => ?_⟩
    · change (r.setReady .hold false).power ≠ .p3
      rw [hset, hpower]
      change (if d.rate < 8 then PowerState.p1 else .p0) ≠ .p3
      split <;> decide
    · have hrel : r.released p := Dev.unholds_released _ e hp (.inr (Table.mem_keys_of_has hp))
      have hsame : (r.setReady .hold false).part p = r.part p := (congrArg (fun d : Dev => d.part p) (r.setReady_readyless .hold false) :)
      dsimp only
      rw [hsame]
      exact hrel
  · refine if_neg ?_
    rw [show s.dev.debugger = true from hdbg, show (s.dev.warp c y).stopped = true from hstop]
    decide

end Sys2Proof
end

section
/-! Proofs about the start of a copy (R344-R347): its descriptor, its records, and the engine. -/

namespace Sys2Proof.Machine

/-- What CPY does once its records are read: the checks of its sides, and the entry into the column's engine. -/
def copyRest (x : CopyDesc) (us : List Use) (d : Dev) (recs : Option (TRec × TRec)) (good : Bool) (culprit : Nat) : Issue :=
  let tensor := x.form == 1 || x.form == 2
  let sel := d.copySels d.curWarp.ctx x
  let e := d.curWarp.e
  let pt (ok : Bool) (p : BitVec 64) (t : TrapInfo) : Option TrapInfo := check ok { t with einfo := einfoA p (Mask.first e), emask := e }
  match firstTrap (copyBounds d.curCol x recs ++
      [pt sel.1 x.src { cause := 0x13 }, pt sel.2.1 x.dst { cause := 0x13 }, pt sel.2.2 x.cw { cause := 0x13 },
       check (!tensor || good) { cause := 0x15, einfo := einfoRec culprit x.src, emask := e },
       pt (x.ck != 0 || ptrOff x.cw % 8 == 0) x.cw { cause := 0x14 }, check x.legal { cause := 0x03 }] ++
      us.map (fun u : Use => u.src.poisCheck Mask.all)) with
  | some t => .trap t
  | none => d.afterAcquire (fun _ =>
    if 16 ≤ d.curCol.copies.length ∨ 63 ≤ d.curWarp.copies then .hold d
    else .retire (d.startCopy (d.copyCmd x (recs.map Prod.fst) (recs.map Prod.snd))).advance)

/-- The records of a copy's two sides. -/
def copyPair (a b : Option (Option TRec)) : Option (TRec × TRec) :=
  match a, b with
  | some (some p), some (some q) => some (p, q)
  | _, _ => none

/-- The records of a copy answer its descriptor. -/
def copyGood (c : Nat) (x : CopyDesc) (recs : Option (TRec × TRec)) : Bool :=
  match recs with
  | some (p, q) => copyRecords c x p q
  | none => false

/-- The record that a copy's fault names. -/
def copyCulprit (c : Nat) (x : CopyDesc) (a : Option (Option TRec)) : Nat :=
  match a with
  | some (some p) => if copySrcOk c x p then x.dobj else x.sobj
  | _ => x.sobj

/-- A descriptor that no check refuses is followed by its records. -/
theorem cpyIssue_of_checks {f : VFields} {s : State} (hs : s.selected f.h) :
    let us := (List.range 8).map (fun i => Use.ptr (rangeSrc s.dev.seen 1 f.a i))
    let x := CopyDesc.ofWords (fun i => lane (rangeSrc s.dev.seen 1 f.a i).vals 0)
    let tensor := x.form == 1 || x.form == 2
    s.dev.curCol.busy s.dev.cur.slot ((List.range 8).map (fun i => f.a.reg.toNat + i)) = false →
    firstTrap ([rangeBound s.dev.curCol.regions.regs f.a.reg.toNat 8] ++ us.map (fun u => u.src.uniCheck) ++ us.map Use.tagCheck) = none →
    cpyIssue f s = s.withRecord (if tensor then x.sobj else 0) .copy (fun d a =>
      { s with dev := d }.withRecord (if tensor then x.dobj else 0) .copy (fun d b =>
        copyRest x us d (copyPair a b) (copyGood d.cur.col x (copyPair a b)) (copyCulprit d.cur.col x a))) := by
  intro us x tensor hbusy hfirst
  rw [cpyIssue, s.whole_of_selected hs]
  exact (if_neg (ne_true_of_eq_false hbusy)).trans (Issue.of_none hfirst)

theorem CopyDesc.tensor_index {x : CopyDesc} (h : x.legal = true) (i : Nat) : (if x.form == 1 || x.form == 2 then i else 0) = if x.form = 0 then 0 else i := by
  have hform : x.form ≤ 2 := by
    unfold CopyDesc.legal at h
    simp only [Bool.and_eq_true, decide_eq_true_eq] at h
    exact h.1.2
  have hcase : x.form = 0 ∨ x.form = 1 ∨ x.form = 2 := by omega
  rcases hcase with h | h | h
  all_goals
    rw [h]
    rfl

/-- The warp and the engine of the column once a copy has entered it. -/
theorem Dev.startCopy_advance_hint (d : Dev) (c : CopyCmd) (h : BitVec 7) :
    let e : Dev := ((d.startCopy c).advance).hint h
    e.curWarp.pc = d.cur.pc + (if d.cur.second then 2 else 1) ∧ e.curWarp.regs = d.curWarp.regs ∧ e.curWarp.preds = d.curWarp.preds ∧
      e.curWarp.copies = d.curWarp.copies + 1 ∧ e.curCol.copies = d.curCol.copies ++ [c] := by
  intro e
  have hwarp : (d.modCurCol (fun k => { k with copies := k.copies ++ [c], nextOp := k.nextOp + 1 })).curWarp = d.curWarp := by
    rw [Dev.curWarp_modCurCol]
    rfl
  have hkeep (d : Dev) (g : Warp → Warp) : (d.modCurWarp g).curCol.copies = d.curCol.copies := by
    rw [Dev.curCol_modCurWarp]
    rfl
  have hengine : e.curCol.copies = d.curCol.copies ++ [c] :=
    (hkeep _ _).trans ((hkeep _ _).trans ((hkeep _ _).trans (congrArg Column.copies (Dev.curCol_modCurCol d _) :)))
  simp only [e, Dev.startCopy, Dev.advance, Dev.hint, Dev.curWarp_modCurWarp, hwarp] at hengine ⊢
  exact ⟨rfl, trivial, trivial, trivial, hengine⟩

theorem firstTrap_append {l r : List (Option TrapInfo)} (h : firstTrap l = none) : firstTrap (l ++ r) = firstTrap r := by
  induction l with
  | nil => rfl
  | cons t l ih =>
    cases t with
    | none => exact ih h
    | some t => cases h

theorem copyRest_starts {x : CopyDesc} {us : List Use} {d : Dev} {recs : Option (TRec × TRec)} {good : Bool} {culprit : Nat}
    (hbounds : firstTrap (copyBounds d.curCol x recs) = none) (hsel : d.copySels d.curWarp.ctx x = (true, true, true))
    (hgood : x.form ≠ 0 → good = true) (hcw : x.ck = 0 → ptrOff x.cw % 8 = 0) (hlegal : x.legal = true)
    (hpois : firstTrap (us.map (fun u => u.src.poisCheck Mask.all)) = none) (hacq : d.curCol.acquiring d.cur.slot = false)
    (hroom : d.curCol.copies.length < 16) (hcopies : d.curWarp.copies < 63) :
    copyRest x us d recs good culprit = .retire (d.startCopy (d.copyCmd x (recs.map Prod.fst) (recs.map Prod.snd))).advance := by
  have hno : ¬ (16 ≤ d.curCol.copies.length ∨ 63 ≤ d.curWarp.copies) := by omega
  have htensor : (!(x.form == 1 || x.form == 2) || good) = true := by
    by_cases hf : x.form = 0
    · rw [hf]
      rfl
    · rw [hgood hf, Bool.or_true]
  have hword : (x.ck != 0 || ptrOff x.cw % 8 == 0) = true := by
    by_cases hck : x.ck = 0
    · simp [hcw hck]
    · simp [hck]
  refine Issue.of_none ?_ |>.trans ((Dev.afterAcquire_of_not hacq _).trans (if_neg hno))
  rw [List.append_assoc, firstTrap_append hbounds, hsel, htensor, hword, hlegal]
  exact hpois

end Sys2Proof.Machine
end

section
namespace Sys2Proof
open Sys2Proof.Machine

/-- Settles O38. -/
theorem copyEntersEngine : Obligations.CopyEntersEngine := by
  intro f s d e a b w k va x us recs hs hbusy hfirst hlegal ha hb hrecs hbounds hsels hcw hacq hroom hcopies
  have hsame : SameOps s.dev e := ha.same.1.trans hb.same.1
  have hcol := hsame.curCol
  have hfirst1 := firstTrap_eq_none_iff.mp hfirst
  have hchecks : firstTrap ([rangeBound k.regions.regs va 8] ++ us.map (fun u => u.src.uniCheck) ++ us.map Use.tagCheck) = none :=
    firstTrap_eq_none_iff.mpr fun t ht => hfirst1 t (List.mem_append_left _ ht)
  have hpois : firstTrap (us.map (fun u => u.src.poisCheck Mask.all)) = none :=
    firstTrap_eq_none_iff.mpr fun t ht => hfirst1 t (List.mem_append_right _ ht)
  have hpair : recs = copyPair a b := rfl
  have hissue : cpyIssue f s = copyRest x us e recs (copyGood e.cur.col x recs) (copyCulprit e.cur.col x a) := by
    rw [cpyIssue_of_checks hs hbusy hchecks, CopyDesc.tensor_index hlegal, State.withRecord_of_has ha, CopyDesc.tensor_index hlegal,
      State.withRecord_of_has hb]
    rfl
  have hgood : x.form ≠ 0 → copyGood e.cur.col x recs = true := by
    intro hf
    obtain ⟨p, q, ha', hb', hpq⟩ := hrecs hf
    rw [hpair, ha', hb', hsame.cur]
    exact hpq
  have hw : e.curWarp = w := hsame.curWarp
  have hbounds' : firstTrap (copyBounds e.curCol x recs) = none := (congrArg (fun k : Column => firstTrap (copyBounds k x recs)) hcol :).trans hbounds
  have hsels' : e.copySels e.curWarp.ctx x = (true, true, true) := by
    rw [hw]
    exact (congrArg (fun d : Dev => d.copySels w.ctx x) hsame.dev :).trans hsels
  have hacq' : e.curCol.acquiring e.cur.slot = false := by
    rw [hsame.cur]
    exact (congrArg (fun k : Column => k.acquiring s.dev.cur.slot) hcol :).trans hacq
  have hengine : e.curCol.copies = k.copies := (congrArg Column.copies hcol :)
  have hrest := copyRest_starts (us := us) (culprit := copyCulprit e.cur.col x a) hbounds' hsels' hgood hcw hlegal hpois hacq'
    (by rw [hengine]; exact hroom) (by rw [hw]; exact hcopies)
  have hcmd : ∀ p q, e.copyCmd x p q = s.dev.copyCmd x p q := fun p q => by
    unfold Dev.copyCmd
    rw [hsame.nextOp, hsame.curWarp, hsame.cur]
  let c := s.dev.copyCmd x (recs.map Prod.fst) (recs.map Prod.snd)
  have hexec : exec (.cpy f) s = s.conclude (Issue.hinted f.hint (.retire (e.startCopy c).advance)) := by
    refine (congrArg (fun i : Issue => s.conclude (i.hinted f.hint)) (hissue.trans hrest)).trans ?_
    rw [hcmd]
  obtain ⟨hpc, hregs, hpreds, hcop, heng⟩ := e.startCopy_advance_hint c f.hint
  refine ⟨_, hexec, ⟨rfl, rfl, hpc.trans ?_, hregs.trans ?_, hpreds.trans ?_⟩, hcop.trans ?_, heng.trans ?_⟩
  · rw [hsame.cur]
    rfl
  · rw [hw]
  · rw [hw]
  · rw [hw]
  · rw [hengine]

end Sys2Proof
end

section
/-! Proofs about the issue of tile operations (R305-R317, R323-R329, R338): the registers that one reads, its checks, and its entry into a queue. -/

namespace Sys2Proof.Machine

/-! ## Folds that keep something -/

theorem foldl_proj {σ α β : Type} (proj : σ → β) (F : σ → α → σ) (h : ∀ x a, proj (F x a) = proj x) (l : List α) (x : σ) :
    proj (l.foldl F x) = proj x := by
  induction l generalizing x with
  | nil => rfl
  | cons a l ih => exact (ih _).trans (h _ _)

/-! ## Registers that a tile operation reads -/

/-- Nothing keeps a tile operation from reading a register. -/
structure TileUse.Clear (s : State) (u : TileUse) : Prop where
  free  : s.dev.curCol.busy s.dev.cur.slot u.use.src.waits = false
  tag   : u.use.tagCheck = none
  fixed : u.bitmap = false → u.use.src.uniCheck = none ∧ u.use.src.poisCheck Mask.all = none

theorem checkLanes_zero {m : Mask} (h : m = 0) (t : Nat → TrapInfo) : checkLanes m t = none := if_pos h

theorem Mask.of_eq_zero {p : Nat → Bool} (h : ∀ l, l < 32 → p l = false) : Mask.of p = 0 :=
  Mask.ext_has fun l hl => (Mask.has_of _ hl).trans ((h l hl).trans (Mask.has_zero l).symm)

section
variable {s : State} {r : Nat} {f : BitVec 5} {also : List (BitVec 5)}

theorem tagCheck_of_readable (code : Nat) (h : s.readable r (f :: also)) :
    (Use.tagCheck { src := Src.direct s.dev.seen code r 0 0, want := some f, also := also }) = none := by
  obtain ⟨-, -, htag⟩ := h
  let bad (t : BitVec 5) : Bool := t != Fmt.raw && t != f && !also.contains t
  have hbad : Use.badTags { src := Src.direct s.dev.seen code r 0 0, want := some f, also := also } =
      Mask.of (fun l => Mask.has Mask.all l && bad (lane (tab (fun _ => (s.readReg r).fmt)) l)) := rfl
  refine checkLanes_zero (hbad.trans (Mask.of_eq_zero fun l hl => ?_)) _
  rw [lane_tab _ hl]
  unfold bad
  rcases htag with h | h
  · simp [h]
  · rcases List.mem_cons.mp h with h | h
    · simp [h]
    · simp [h]

theorem uniCheck_of_uniform (code : Nat) (h : (s.readReg r).data.shape = .uniform) : (Src.direct s.dev.seen code r 0 0).uniCheck = none := by
  refine check_of ?_ _
  change (!false && (s.readReg r).data.shape == .uniform) = true
  rw [h]
  rfl

theorem poisCheck_of_clean (code : Nat) (h : ∀ l, l < 32 → (s.readReg r).data.pois l = false) : (Src.direct s.dev.seen code r 0 0).poisCheck Mask.all = none := by
  have hnone : (Src.direct s.dev.seen code r 0 0).pois = 0 := Mask.of_eq_zero fun l hl => h l hl
  refine checkLanes_zero ?_ _
  rw [hnone]
  rfl

/-- A uniform register with a tag that the instruction takes. -/
theorem TileUse.clear_uniform (code : Nat) (h : s.uniform r (f :: also)) :
    TileUse.Clear s { use := { src := Src.direct s.dev.seen code r 0 0, want := some f, also := also } } := by
  obtain ⟨hread, hshape, hpois⟩ := h
  exact ⟨hread.1, tagCheck_of_readable code hread, fun _ => ⟨uniCheck_of_uniform code hshape, poisCheck_of_clean code hpois⟩⟩

theorem TileUse.clear_tileUse (code : Nat) (h : s.uniform r [Fmt.ui32, Fmt.i32]) : TileUse.Clear s (s.dev.tileUse code r) := clear_uniform code h

theorem TileUse.clear_optUse {b : BitVec 8} (h : s.optional b) : ∀ u ∈ s.dev.optUse b, TileUse.Clear s u := by
  intro u hu
  unfold Dev.optUse at hu
  split at hu
  · cases hu
  · next hb =>
    rw [List.mem_singleton.mp hu]
    exact clear_tileUse 4 (h.resolve_left hb)

end

/-! ## The entry into a queue -/

/-- A tile operation that nothing refuses enters its queue. -/
theorem State.tileIssue_enters {s : State} {h : Head} {q : Nat} {us : List TileUse} {bounds own : List (Option TrapInfo)} {o : TileOp}
    (hopen : s.tileOpen h q) (hclear : ∀ u ∈ us, u.Clear s) (hbounds : ∀ t ∈ bounds, t = none) (hown : ∀ t ∈ own, t = none) :
    s.tileIssue h q us bounds own o = .retire (s.dev.enqueue q o).advance := by
  obtain ⟨hact, hguard, hacq, hroom, htiles⟩ := hopen
  have hbusy : s.dev.curCol.busy s.dev.cur.slot (us.map (fun u => u.use.src.waits)).flatten = false := by
    unfold Column.busy
    rw [List.any_flatten, List.any_map]
    refine List.any_eq_false.mpr fun u hu => ?_
    exact ne_true_of_eq_false (hclear u hu).free
  have hchecks : firstTrap (bounds ++ (us.filter (fun u => !u.bitmap)).map (fun u => u.use.src.uniCheck) ++ us.map (fun u => u.use.tagCheck) ++ own ++
      (us.filter (fun u => !u.bitmap)).map (fun u => u.use.src.poisCheck Mask.all)) = none := by
    refine firstTrap_eq_none_iff.mpr fun t ht => ?_
    have hfixed : ∀ u ∈ us.filter (fun u => !u.bitmap), u.use.src.uniCheck = none ∧ u.use.src.poisCheck Mask.all = none := by
      intro u hu
      obtain ⟨hmem, hbit⟩ := List.mem_filter.mp hu
      exact (hclear u hmem).fixed (by simpa using hbit)
    simp only [List.mem_append, List.mem_map] at ht
    rcases ht with (((ht | ⟨u, hu, rfl⟩) | ⟨u, hu, rfl⟩) | ht) | ⟨u, hu, rfl⟩
    · exact hbounds t ht
    · exact (hfixed u hu).1
    · exact (hclear u hu).tag
    · exact hown t ht
    · exact (hfixed u hu).2
  have hq : ¬ 8 ≤ (s.dev.curCol.queue q).length := by omega
  have ht : ¬ 63 ≤ s.dev.curWarp.tiles := by omega
  refine (if_neg (ne_true_of_eq_false hguard)).trans ((if_pos (by rw [hact]; exact beq_self_eq_true _)).trans ?_)
  exact (if_neg (ne_true_of_eq_false hbusy)).trans ((Issue.of_none hchecks).trans ((Dev.afterAcquire_of_not hacq _).trans
    ((if_neg hq).trans (if_neg ht))))

/-- The operation that enters queue q, with what the other queue's operations make undefined. -/
def Dev.queuedOp (d : Dev) (q : Nat) (o : TileOp) : TileOp := (d.curCol.queue (1 - q)).foldl TileOp.hazard { o with base := d.free }

/-- What an operation asks for, which its meeting with others does not change. -/
def TileOp.asked (o : TileOp) : TileOp := { o with clash := [], vague := [], bclash := [], spoiled := false, kept := [], keptRegs := [] }

theorem TileOp.hazard_asked (o p : TileOp) : (o.hazard p).asked = o.asked := rfl

theorem TileOp.keep_asked (k : Column) (o p : TileOp) : (TileOp.keep k o p).asked = p.asked := rfl

theorem Dev.queuedOp_asked (d : Dev) (q : Nat) (o : TileOp) : (d.queuedOp q o).asked = { o.asked with base := d.free } :=
  foldl_proj TileOp.asked TileOp.hazard (fun _ _ => rfl) _ _

/-- The queues once an operation has entered one of them. -/
theorem Dev.enqueue_spec (d : Dev) (q : Nat) (o : TileOp) :
    let op := d.queuedOp q o
    let e := d.enqueue q o
    e.cur = d.cur ∧ e.curWarp = { d.curWarp with tiles := d.curWarp.tiles + 1 } ∧
      e.curCol.tileQ = ((d.curCol.putQueue (1 - q) ((d.curCol.queue (1 - q)).map (fun p => p.hazard op))).putQueue q
        ((d.curCol.queue q ++ [op]).map (TileOp.keep d.curCol op))).tileQ := by
  intro op e
  have hfog (k : Column) (rs : List (Nat × Nat)) : (rs.foldl (fun k r => k.fogRange op r) k).tileQ = k.tileQ ∧
      (rs.foldl (fun k r => k.fogRange op r) k).warps = k.warps :=
    ⟨foldl_proj Column.tileQ (fun (k : Column) r => k.fogRange op r) (fun _ _ => rfl) _ _, foldl_proj Column.warps (fun (k : Column) r => k.fogRange op r) (fun _ _ => rfl) _ _⟩
  let k1 := (d.curCol.putQueue (1 - q) ((d.curCol.queue (1 - q)).map (fun p => p.hazard op))).putQueue q
    ((d.curCol.queue q ++ [op]).map (TileOp.keep d.curCol op))
  let k2 := (op.writes ++ op.clash.map k1.tileRange).foldl (fun k r => k.fogRange op r) k1
  let k3 : Column := { k2 with ops := k2.ops.map (fun p : MemOp => if p.slot = op.slot then op.wregs.foldl (fun p r => p.kill r.1 r.2) p else p) }
  let d1 : Dev := { d.putCol d.cur.col k3 with free := d.free + 2 ^ 22 }
  have he : e = d1.modCurWarp (fun w => { w with tiles := w.tiles + 1 }) := rfl
  have hcol : d1.curCol = k3 := Dev.col_putCol _ _ _
  have hwarp : d1.curWarp = d.curWarp := by
    change (d1.curCol).warp d.cur.slot = _
    rw [hcol]
    exact congrArg (fun t : Table Warp => t.getD d.cur.slot Warp.start) (hfog k1 _).2
  refine ⟨rfl, ?_, ?_⟩
  · rw [he, Dev.curWarp_modCurWarp, hwarp]
  · rw [he, Dev.curCol_modCurWarp, hcol]
    exact (hfog k1 _).1

theorem Column.queue_putQueue_same (k : Column) (q : Nat) (os : List TileOp) : (k.putQueue q os).queue q = os :=
  Vector.getElem_set_self (Nat.mod_lt _ (by decide))

theorem Column.queue_putQueue_ne (k : Column) {p q : Nat} (h : q % 2 ≠ p % 2) (os : List TileOp) : (k.putQueue q os).queue p = k.queue p :=
  Vector.getElem_set_ne (Nat.mod_lt _ (by decide)) (Nat.mod_lt _ (by decide)) h

theorem Column.queue_congr {k l : Column} (h : k.tileQ = l.tileQ) (q : Nat) : k.queue q = l.queue q := by
  unfold Column.queue
  rw [h]

/-- The two queues once an operation has entered queue q. -/
theorem Dev.queue_enqueue (d : Dev) {q : Nat} (hq : q < 2) (o : TileOp) :
    (d.enqueue q o).curCol.queue q = (d.curCol.queue q ++ [d.queuedOp q o]).map (TileOp.keep d.curCol (d.queuedOp q o)) ∧
      (d.enqueue q o).curCol.queue (1 - q) = (d.curCol.queue (1 - q)).map (fun p => p.hazard (d.queuedOp q o)) := by
  obtain ⟨-, -, htile⟩ := d.enqueue_spec q o
  refine ⟨(Column.queue_congr htile q).trans (Column.queue_putQueue_same _ _ _), ?_⟩
  refine (Column.queue_congr htile (1 - q)).trans ((Column.queue_putQueue_ne _ (by omega) _).trans (Column.queue_putQueue_same _ _ _))

/-! ## Registers under operations in flight -/

/-- The registers of a warp under the undefined ones of operations in flight. -/
def fogged (t : Table VReg) (os : List TileOp) : Table VReg :=
  os.foldl (fun t o => o.wregs.foldl (fun t r => t.set r.1 ((t.getD r.1 VReg.start).mixed r.2 (o.fogReg r.1))) t) t

theorem Column.seen_eq (k : Column) (s : Nat) :
    k.seen s = { k.warp s with regs := fogged (k.warp s).regs ((k.tileQ.toList.flatten).filter (fun o => o.slot == s)) } := rfl

theorem fogged_append (t : Table VReg) (a b : List TileOp) : fogged t (a ++ b) = fogged (fogged t a) b := List.foldl_append

/-- One register of an operation's fog. -/
def fogStep (o : TileOp) (t : Table VReg) (r : Nat × Mask) : Table VReg := t.set r.1 ((t.getD r.1 VReg.start).mixed r.2 (o.fogReg r.1))

theorem fogged_cons (t : Table VReg) (o : TileOp) (os : List TileOp) : fogged t (o :: os) = fogged (o.wregs.foldl (fogStep o) t) os := rfl

/-- An operation that does not write a register leaves what is seen of it. -/
theorem fogSteps_other {o : TileOp} {r : Nat} (rs : List (Nat × Mask)) (t : Table VReg) (h : ∀ x ∈ rs, x.1 ≠ r) :
    (rs.foldl (fogStep o) t).getD r VReg.start = t.getD r VReg.start := by
  induction rs generalizing t with
  | nil => rfl
  | cons x rs ih =>
    refine (ih _ fun y hy => h y (List.mem_cons_of_mem _ hy)).trans ?_
    exact Table.getD_set_ne _ _ _ (h x List.mem_cons_self).symm

/-- What is seen of a register depends on that register alone. -/
theorem fogSteps_congr {o : TileOp} {r : Nat} (rs : List (Nat × Mask)) {t u : Table VReg} (h : t.getD r VReg.start = u.getD r VReg.start) :
    (rs.foldl (fogStep o) t).getD r VReg.start = (rs.foldl (fogStep o) u).getD r VReg.start := by
  induction rs generalizing t u with
  | nil => exact h
  | cons x rs ih =>
    refine ih ?_
    unfold fogStep
    by_cases hx : r = x.1
    · subst hx
      rw [Table.getD_set_same, Table.getD_set_same, h]
    · rw [Table.getD_set_ne _ _ _ hx, Table.getD_set_ne _ _ _ hx, h]

theorem fogged_congr {r : Nat} (os : List TileOp) {t u : Table VReg} (h : t.getD r VReg.start = u.getD r VReg.start) :
    (fogged t os).getD r VReg.start = (fogged u os).getD r VReg.start := by
  induction os generalizing t u with
  | nil => exact h
  | cons o os ih => exact ih (fogSteps_congr _ h)

/-- The fog that an operation lays depends only on what it asks for. -/
theorem fogged_map {g : TileOp → TileOp} (hg : ∀ o, (g o).asked = o.asked) (os : List TileOp) (t : Table VReg) : fogged t (os.map g) = fogged t os := by
  induction os generalizing t with
  | nil => rfl
  | cons o os ih =>
    rw [List.map_cons, fogged_cons, fogged_cons, ih]
    have hregs : (g o).wregs = o.wregs := (congrArg TileOp.wregs (hg o) :)
    have hbase : (g o).base = o.base := (congrArg TileOp.base (hg o) :)
    have hstep : fogStep (g o) = fogStep o := by
      unfold fogStep TileOp.fogReg TileOp.fogLane TileOp.fogTag
      rw [hbase]
    rw [hregs, hstep]

/-- A lane of a register that holds a free value. -/
def FogAt (t : Table VReg) (r l : Nat) : Prop := ∃ v, (t.getD r VReg.start).data.lane l = Config.freeWord v

theorem fogStep_lane (o : TileOp) (t : Table VReg) {x : Nat × Mask} {r l : Nat} (hl : l < 32) (h : FogAt t r l ∨ x.1 = r ∧ Mask.has x.2 l = true) :
    FogAt (fogStep o t x) r l := by
  unfold FogAt fogStep
  by_cases hx : r = x.1
  · subst hx
    rw [Table.getD_set_same]
    unfold VReg.mixed
    by_cases hm : Mask.has x.2 l = true
    · exact ⟨_, by simp [RegData.lane, lane_tab _ hl, hm, TileOp.fogReg, Result.gen]; rfl⟩
    · obtain ⟨v, hv⟩ := h.resolve_right fun h => hm h.2
      exact ⟨v, by simpa [RegData.lane, lane_tab _ hl, hm] using hv⟩
  · rw [Table.getD_set_ne _ _ _ hx]
    exact h.resolve_right fun h => hx h.1.symm

theorem fogSteps_lane (o : TileOp) (rs : List (Nat × Mask)) (t : Table VReg) {r l : Nat} (hl : l < 32)
    (h : FogAt t r l ∨ ∃ m, (r, m) ∈ rs ∧ Mask.has m l = true) : FogAt (rs.foldl (fogStep o) t) r l := by
  induction rs generalizing t with
  | nil => exact h.resolve_right (by simp)
  | cons x rs ih =>
    refine ih _ ?_
    rcases h with h | ⟨m, hm, hl'⟩
    · exact .inl (fogStep_lane o t hl (.inl h))
    · rcases List.mem_cons.mp hm with rfl | hm
      · exact .inl (fogStep_lane o t hl (.inr ⟨rfl, hl'⟩))
      · exact .inr ⟨m, hm, hl'⟩

theorem fogged_lane (os : List TileOp) (t : Table VReg) {r l : Nat} (hl : l < 32) (h : FogAt t r l) : FogAt (fogged t os) r l := by
  induction os generalizing t with
  | nil => exact h
  | cons o os ih => exact ih _ (fogSteps_lane o _ t hl (.inl h))

theorem Column.queues_list (k : Column) : k.tileQ.toList = [k.queue 0, k.queue 1] := by
  refine List.ext_getElem (by simp) fun i h1 h2 => ?_
  have hi : i = 0 ∨ i = 1 := by
    simp at h1
    omega
  rcases hi with rfl | rfl <;> rfl

/-- The operations of a warp after changes that leave what the operations ask for. -/
theorem filter_map_asked {g : TileOp → TileOp} (hg : ∀ o, (g o).asked = o.asked) (s : Nat) (os : List TileOp) :
    (os.map g).filter (fun o => o.slot == s) = (os.filter (fun o => o.slot == s)).map g := by
  have hslot (o : TileOp) : (g o).slot = o.slot := (congrArg TileOp.slot (hg o) :)
  rw [List.filter_map]
  refine congrArg (List.map g) (List.filter_congr fun o _ => ?_)
  simp only [Function.comp, hslot]

section
variable {d e : Dev} {o : TileOp}

/-- What the issuing warp sees of its registers once an operation of its own stands in queue 0: those that it writes under its fog. -/
theorem seen_enqueued (hcur : e.cur = d.cur) (hregs : e.curWarp.regs = d.curWarp.regs) (hslot : o.slot = d.cur.slot)
    (hq : e.curCol.tileQ = (d.enqueue 0 o).curCol.tileQ) :
    ∃ a b, (∀ t, fogged t (a ++ b) = fogged t ((d.curCol.tileQ.toList.flatten).filter (fun o => o.slot == d.cur.slot))) ∧
      d.seen.regs = fogged d.curWarp.regs (a ++ b) ∧ e.seen.regs = fogged d.curWarp.regs (a ++ d.queuedOp 0 o :: b) := by
  let k := d.curCol
  let s := d.cur.slot
  let op := d.queuedOp 0 o
  have hop : op.slot = s := (congrArg TileOp.slot (d.queuedOp_asked 0 o) :).trans hslot
  let mine := fun o : TileOp => o.slot == s
  have hold : (k.tileQ.toList.flatten).filter mine = (k.queue 0).filter mine ++ (k.queue 1).filter mine := by
    rw [k.queues_list, List.flatten_cons, List.flatten_cons, List.flatten_nil, List.append_nil, List.filter_append]
  refine ⟨(k.queue 0).filter mine, (k.queue 1).filter mine, fun t => by rw [hold], ?_, ?_⟩
  · rw [Dev.seen, Column.seen_eq, hold]
    rfl
  · obtain ⟨hsame, hother⟩ := d.queue_enqueue (by decide : 0 < 2) o
    have h0 : e.curCol.queue 0 = (k.queue 0 ++ [op]).map (TileOp.keep k op) := by
      exact (Column.queue_congr hq 0).trans hsame
    have h1 : e.curCol.queue 1 = (k.queue 1).map (fun p => p.hazard op) := by
      exact (Column.queue_congr hq 1).trans hother
    have hnew : ((e.curCol.tileQ.toList.flatten).filter mine) =
        ((k.queue 0).filter mine ++ [op]).map (TileOp.keep k op) ++ ((k.queue 1).filter mine).map (fun p => p.hazard op) := by
      rw [e.curCol.queues_list, List.flatten_cons, List.flatten_cons, List.flatten_nil, List.append_nil, List.filter_append, h0, h1,
        filter_map_asked (TileOp.keep_asked k op), filter_map_asked (fun p => TileOp.hazard_asked p op), List.filter_append]
      simp [mine, hop]
    change (e.curCol.seen e.cur.slot).regs = _
    rw [hcur, Column.seen_eq]
    change fogged (e.curCol.warp d.cur.slot).regs ((e.curCol.tileQ.toList.flatten).filter mine) = _
    have hw : (e.curCol.warp d.cur.slot).regs = d.curWarp.regs := by
      rw [← hregs, ← hcur]
      rfl
    rw [hnew, hw, fogged_append, fogged_map (TileOp.keep_asked k op), fogged_map (fun p => TileOp.hazard_asked p op), ← fogged_append, List.append_assoc]
    rfl

end

end Sys2Proof.Machine
end

section
/-! Proofs about the tile operations that no check refuses (R305-R317, R323-R326, R329, R338). -/

namespace Sys2Proof.Machine

/-! ## Checks -/

theorem noTrap_nil : ∀ t ∈ ([] : List (Option TrapInfo)), t = none := fun _ h => by cases h

theorem noTrap_cons {t : Option TrapInfo} {ts : List (Option TrapInfo)} (h : t = none) (hs : ∀ t ∈ ts, t = none) : ∀ x ∈ t :: ts, x = none :=
  List.forall_mem_cons.mpr ⟨h, hs⟩

/-- A check that an instruction makes only where it applies. -/
theorem noTrap_if {b : Bool} {t : Option TrapInfo} (h : b = true → t = none) : (if b then t else none) = none := by
  cases b with
  | false => rfl
  | true => exact h rfl

section
variable {k : Column}

theorem boundCheck_none {regs r : Nat} (h : r < regs) : boundCheck regs r = none := check_of (decide_eq_true h) _

theorem rangeBound_none {regs r n : Nat} (hn : 1 ≤ n) (h : r + n ≤ regs) : rangeBound regs r n = none := boundCheck_none (by omega)

theorem fieldBound_none {r : BitVec 8} {n : Nat} (hn : 1 ≤ n) (h : r.toNat + n ≤ k.regions.regs) (opt : Bool) : k.fieldBound r n opt = none := by
  unfold Column.fieldBound
  split
  · rfl
  · exact rangeBound_none hn h

theorem fieldBound_opt {r : BitVec 8} {n : Nat} (hn : 1 ≤ n) (h : r = 0 ∨ r.toNat + n ≤ k.regions.regs) : k.fieldBound r n true = none := by
  rcases h with rfl | h
  · rfl
  · exact fieldBound_none hn h true

theorem tileBound_none {t : Nat} (h : t < k.regions.acc) : tileBound k t = none := check_of (decide_eq_true h) _

theorem spadRange_none {a n : Nat} (h : a + n ≤ k.spadBytes) : spadRange k a n = none := check_of (decide_eq_true h) _

theorem bsRange_none {b n : Nat} (h : b + n ≤ k.bsGang) : bsRange k b n = none := check_of (decide_eq_true h) _

theorem offAlign_none {a n : Nat} (h : a % n = 0) : offAlign a n = none := check_of (beq_iff_eq.mpr h) _

theorem paramCheck_none {bad : Bool} (h : bad = false) (code : Nat) : paramCheck bad code = none := by
  rw [h]
  rfl

end

theorem optional_bound {s : State} {r : BitVec 8} (h : s.optional r) : r = 0 ∨ r.toNat + 1 ≤ s.dev.curCol.regions.regs :=
  h.imp_right fun h => h.1.2.1

theorem Dev.sumRight_of {d : Dev} {sum : Bool} (h : sum = true → d.curRec.fixsum = true ∧ (d.ctx d.curWarp.ctx).fixRight = true) (go : Unit → Issue) :
    d.sumRight sum go = go () := by
  refine if_neg ?_
  cases sum with
  | false => simp
  | true => simp [h rfl]

/-! ## What the entry leaves -/

/-- An operation as it enters a queue, not started. -/
structure TileOp.Fresh (o : TileOp) (s : State) (i : Instr) (a b asc bsc rows : Word) : Prop where
  insn    : o.insn = i
  slot    : o.slot = s.dev.cur.slot
  itick   : o.itick = s.dev.now
  started : o.started = none
  aoff    : o.aoff = a
  boff    : o.boff = b
  asc     : o.asc = asc
  bsc     : o.bsc = bsc
  rowsv   : o.rowsv = rows

/-- What an operation leaves where it enters its queue. -/
theorem queued_of_enters {s : State} {i : Instr} {q : Nat} {o : TileOp} {a b asc bsc rows : Word} (hq : q < 2)
    (hi : exec i s = s.conclude (.retire (s.dev.enqueue q o).advance)) (ho : o.Fresh s i a b asc bsc rows) :
    ∃ u, exec i s = .next u ∧ Queued s u i q a b asc bsc rows ∧ u.dev.curWarp.regs = s.dev.curWarp.regs ∧ u.dev.cur = s.dev.cur ∧
      u.dev.curCol.tileQ = (s.dev.enqueue q o).curCol.tileQ := by
  let e := s.dev.enqueue q o
  obtain ⟨hcur, hwarp, -⟩ := s.dev.enqueue_spec q o
  obtain ⟨hsame, -⟩ := s.dev.queue_enqueue hq o
  let u : State := { s with dev := { e.advance with issued := .retired } }
  have huw : u.dev.curWarp = { e.curWarp with pc := e.cur.pc + (if e.cur.second then 2 else 1) } := e.curWarp_advance
  have hut : u.dev.curCol.tileQ = e.curCol.tileQ := (congrArg Column.tileQ e.curCol_advance :)
  have huq : u.dev.curCol.queue q = _ := (Column.queue_congr hut q).trans hsame
  let op := s.dev.queuedOp q o
  have hasked : op.asked = { o.asked with base := s.dev.free } := s.dev.queuedOp_asked q o
  refine ⟨u, hi, ⟨rfl, rfl, ?_, ?_, ?_, ?_, TileOp.keep s.dev.curCol op op, ?_, ?_⟩, ?_, hcur, hut⟩
  · rw [huw, hcur]
    rfl
  · rw [huw, hwarp]
  · rw [huw, hwarp]
  · rw [huq]
    simp
  · rw [huq]
    simp [op]
  · have hkeep : (TileOp.keep s.dev.curCol op op).asked = { o.asked with base := s.dev.free } := hasked
    exact ⟨(congrArg TileOp.insn hkeep :).trans ho.insn, (congrArg TileOp.slot hkeep :).trans ho.slot, (congrArg TileOp.itick hkeep :).trans ho.itick,
      (congrArg TileOp.started hkeep :).trans ho.started, (congrArg TileOp.aoff hkeep :).trans ho.aoff, (congrArg TileOp.boff hkeep :).trans ho.boff,
      (congrArg TileOp.asc hkeep :).trans ho.asc, (congrArg TileOp.bsc hkeep :).trans ho.bsc, (congrArg TileOp.rowsv hkeep :).trans ho.rowsv⟩
  · rw [huw, hwarp]

/-- A parameter that a selector checks is refused only where the check applies and fails. -/
theorem guarded_good {on bad : Bool} (h : on = true → bad = false) : (on && bad) = false := by
  cases on with
  | false => rfl
  | true => exact h rfl

theorem guarded_bad {on good : Bool} (h : on = true → good = true) : (on && !good) = false :=
  guarded_good fun hon => by rw [h hon]; rfl

/-! ## The registers of a drain -/

theorem PFields.doubled_subset {f : PFields} {adj : Bool} {m n r : Nat} (h : r ∈ PFields.doubled f adj m n) : r ∈ (PFields.ranges f adj m n).flatten :=
  List.mem_eraseDups.mp (List.mem_filter.mp h).1

/-- A drain's ranges of registers are not empty. -/
theorem PFields.counts_pos (f : PFields) {m n : Nat} (hm : 1 ≤ m) (hn : 1 ≤ n) :
    1 ≤ (PFields.counts f m n).1 ∧ 1 ≤ (PFields.counts f m n).2.1 ∧ 1 ≤ (PFields.counts f m n).2.2 := by
  have he : 1 ≤ elems (fmtOf f.of) := by
    have := pitch_mul_elems (fmtOf f.of)
    by_contra h
    have h0 : elems (fmtOf f.of) = 0 := by omega
    rw [h0] at this
    omega
  have hr : 1 ≤ (m + 31) / 32 := by omega
  have hout : 1 ≤ PFields.outRegs f n := by
    unfold PFields.outRegs
    exact (Nat.one_le_div_iff (by omega)).mpr (by omega)
  refine ⟨Nat.mul_pos hr hout, hr, ?_⟩
  unfold PFields.counts
  dsimp only
  split <;> omega

/-- The geometry's own checks, one by one. -/
theorem PFields.geoOk_iff (f : PFields) (g : Word) : PFields.geoOk f g = true ↔
    1 ≤ geoM g ∧ geoM g ≤ 64 ∧ 1 ≤ geoN g ∧ geoN g ≤ PFields.width f ∧ g &&& 0xF000FF80#32 = 0 ∧ (PFields.toSpad f = true → geoN g % 8 = 0) := by
  unfold PFields.geoOk
  simp only [Bool.and_eq_true, decide_eq_true_eq, beq_iff_eq, Bool.or_eq_true, Bool.not_eq_true', and_assoc]
  cases PFields.toSpad f <;> simp

/-! ## Bitmaps -/

/-- The registers of a bitmap that may be read. -/
theorem TileUse.clear_bitmapUses {s : State} {r : BitVec 8} {k : Nat}
    (h : r = 0 ∨ ∀ j, j < 2 * ((k + 31) / 32) → s.readable (r.toNat + j) [Fmt.ui32]) : ∀ u ∈ s.dev.bitmapUses r.toNat k, TileUse.Clear s u := by
  intro u hu
  unfold Dev.bitmapUses at hu
  split at hu
  · cases hu
  · next hr =>
    obtain ⟨j, hj, rfl⟩ := List.mem_map.mp hu
    have hread := (h.resolve_left fun h0 => hr (by rw [h0]; rfl)) j (List.mem_range.mp hj)
    exact ⟨hread.1, tagCheck_of_readable 4 hread, fun hb => by cases hb⟩

end Sys2Proof.Machine
end

section
namespace Sys2Proof
open Sys2Proof.Machine

/-- Settles O36. -/
theorem tileOperationsEnterQueue : Obligations.TileOperationsEnterQueue := by
  refine ⟨?_, ?_, ?_⟩
  · intro f s k a b rows sparse quant asc bsc g m bs words hopen hsum ha hb hrows hscales htd hr1 hr64 ha32 haspad hb256 hbs hasc hbsc i hi
    have hq : (if f.q then 1 else 0) < 2 := by split <;> decide
    have hsA : (!sparse && f.abm != 0) = true → sparse = false ∧ f.abm ≠ 0 := fun h => by simpa using h
    have hsB : (!sparse && f.bbm != 0) = true → sparse = false ∧ f.bbm ≠ 0 := fun h => by simpa using h
    have hn : 1 ≤ (if sparse then 2 * ((f.k + 31) / 32) else 1) := by
      split
      · unfold TFields.k
        omega
      · exact Nat.le_refl 1
    have hword (x : BitVec 8) (hx : if sparse then words x else s.optional x) :
        x = 0 ∨ x.toNat + (if sparse then 2 * ((f.k + 31) / 32) else 1) ≤ k.regions.regs := by
      split at hx
      · next h =>
        rw [if_pos h] at hn ⊢
        refine hx.imp_right fun hx => ?_
        have : x.toNat + (2 * ((f.k + 31) / 32) - 1) < k.regions.regs := (hx _ (by omega)).2.1
        omega
      · next h =>
        rw [if_neg h]
        exact optional_bound hx
    have hboth : (if sparse then words f.abm else s.optional f.abm) ∧ (if sparse then words f.bbm else s.optional f.bbm) := by
      split at hscales
      · next h =>
        rw [if_pos h, if_pos h]
        exact hscales
      · next h =>
        rw [if_neg h, if_neg h]
        exact hscales
    have hscaleA := hword f.abm hboth.1
    have hscaleB := hword f.bbm hboth.2
    have hclear : ∀ u ∈ (if sparse then s.dev.bitmapUses f.abm.toNat f.k ++ s.dev.bitmapUses f.bbm.toNat f.k
        else s.dev.optUse f.abm ++ s.dev.optUse f.bbm), TileUse.Clear s u := by
      intro u hu
      split at hu
      · next h =>
        rw [if_pos h] at hscales
        exact (List.mem_append.mp hu).elim (TileUse.clear_bitmapUses hscales.1 u) (TileUse.clear_bitmapUses hscales.2 u)
      · next h =>
        rw [if_neg h] at hscales
        exact (List.mem_append.mp hu).elim (TileUse.clear_optUse hscales.1 u) (TileUse.clear_optUse hscales.2 u)
    have hbatch (x y : Nat) : (if f.mode == 1 then x else y) = if f.mode = 1 then x else y := by simp only [beq_iff_eq]
    have hspad : a.toNat + (if f.mode == 1 then 256 else rows.toNat) * f.k * TFields.aw f / 8 ≤ k.spadBytes := by
      rw [hbatch]
      exact haspad
    have hbsram : b.toNat + (if f.mode == 1 then 4 else 1) * TFields.bLines f * 256 ≤ k.bsGang := by
      rw [hbatch]
      exact hbs
    have hscaleSpad (h0 : f.abm ≠ 0) (h1 : sparse = false) :
        asc.toNat + (if f.mode == 1 then 256 else rows.toNat) * (f.k / 24) ≤ k.spadBytes := by
      rw [hbatch]
      exact (hasc h0 h1).2
    have hmma : ∃ o : TileOp, mmaIssue i f s = .retire (s.dev.enqueue (if f.q then 1 else 0) o).advance ∧ o.Fresh s i a b asc bsc rows := by
      unfold mmaIssue
      refine ⟨_, (Dev.sumRight_of hsum _).trans (State.tileIssue_enters hopen ?_ ?_ ?_), ⟨rfl, rfl, rfl, rfl, rfl, rfl, rfl, rfl, rfl⟩⟩
      · intro u hu
        simp only [List.mem_append] at hu
        rcases hu with (hu | hu) | hu
        · simp only [List.mem_cons, List.not_mem_nil, or_false] at hu
          rcases hu with rfl | rfl
          · exact TileUse.clear_tileUse 1 ha
          · exact TileUse.clear_tileUse 2 hb
        · exact hclear u hu
        · exact TileUse.clear_optUse hrows u hu
      · refine noTrap_cons (fieldBound_none (Nat.le_refl 1) ha.1.2.1 false) (noTrap_cons (fieldBound_none (Nat.le_refl 1) hb.1.2.1 false)
          (noTrap_cons (fieldBound_opt hn hscaleA) (noTrap_cons (fieldBound_opt hn hscaleB)
          (noTrap_cons (fieldBound_opt (Nat.le_refl 1) (optional_bound hrows)) noTrap_nil))))
      · refine noTrap_cons (tileBound_none htd) (noTrap_cons (spadRange_none hspad) (noTrap_cons (bsRange_none hbsram)
          (noTrap_cons (noTrap_if fun h => ?_) (noTrap_cons (noTrap_if fun h => ?_) (noTrap_cons (offAlign_none ha32)
          (noTrap_cons (offAlign_none hb256) (noTrap_cons (noTrap_if fun h => ?_) (noTrap_cons (noTrap_if fun h => ?_)
          (noTrap_cons (check_of ?_ _) (noTrap_cons (noTrap_if fun h => ?_) noTrap_nil))))))))))
        · obtain ⟨h1, h0⟩ := hsA h
          exact spadRange_none (hscaleSpad h0 h1)
        · obtain ⟨h1, h0⟩ := hsB h
          exact bsRange_none (hbsc h0 h1).2.1
        · obtain ⟨h1, h0⟩ := hsA h
          exact offAlign_none (hasc h0 h1).1
        · obtain ⟨h1, h0⟩ := hsB h
          exact offAlign_none (hbsc h0 h1).1
        · exact Bool.and_eq_true_iff.mpr ⟨decide_eq_true hr1, decide_eq_true hr64⟩
        · obtain ⟨h1, h0⟩ := hsB h
          refine check_of ?_ _
          have hlast := (hbsc h0 h1).2.2
          change (if quant then g != 0 && bitsOf bsc.toNat 31 22 == 0 && f.k % g == 0 else bitsOf bsc.toNat 31 20 == 0) = true
          have hlt : bsc.toNat < 2 ^ 32 := bsc.isLt
          split at hlast
          · next hquant =>
            obtain ⟨hg, htop, hmod⟩ := hlast
            have hbits : bitsOf bsc.toNat 31 22 = 0 := by
              unfold bitsOf
              rw [htop, Nat.zero_mod]
            simp [hquant, hg, hbits, hmod]
          · next hquant =>
            have hbits : bitsOf bsc.toNat 31 20 = 0 := by
              unfold bitsOf
              rw [hlast, Nat.zero_mod]
            simp [hquant, hbits]
    obtain ⟨o, ho, hfresh⟩ := hmma
    have hexec : exec i s = s.conclude (mmaIssue i f s) := by
      simp only [List.mem_cons, List.not_mem_nil, or_false] at hi
      rcases hi with rfl | rfl | rfl <;> rfl
    obtain ⟨u, hu, hqueued, hregs, -, -⟩ := queued_of_enters hq (hexec.trans (congrArg s.conclude ho)) hfresh
    exact ⟨u, hu, hqueued, hregs⟩
  · intro f s k q a hi b p n rows ints hopen
    have hq : q < 2 := by
      change (if f.q then 1 else 0) < 2
      split <;> decide
    refine ⟨fun ha hb hmem hb256 hbs => ?_, fun ha hrows htd hr1 hr64 ha32 haspad => ?_, fun htd => ?_⟩
    · have hissue : ∃ o : TileOp, mldbIssue f s = .retire (s.dev.enqueue q o).advance ∧ o.Fresh s (.mldb f) a b 0 0 64 := by
        unfold mldbIssue
        refine ⟨_, State.tileIssue_enters hopen ?_ ?_ ?_, ⟨rfl, rfl, rfl, rfl, rfl, rfl, rfl, rfl, rfl⟩⟩
        · intro u hu
          simp only [List.mem_append, List.mem_singleton] at hu
          rcases hu with (rfl | hu) | rfl
          · exact TileUse.clear_tileUse 1 ha
          · split at hu
            · next h =>
              rw [if_pos h] at hmem
              rw [List.mem_singleton.mp hu]
              exact TileUse.clear_tileUse 1 hmem.1
            · cases hu
          · exact TileUse.clear_tileUse 2 hb
        · refine noTrap_cons (fieldBound_none ?_ ?_ false) (noTrap_cons (fieldBound_none (Nat.le_refl 1) hb.1.2.1 false) noTrap_nil)
          · split <;> decide
          · split
            · next h =>
              rw [if_pos h] at hmem
              exact hmem.1.1.2.1
            · exact ha.1.2.1
        · refine noTrap_cons ?_ (noTrap_cons (bsRange_none hbs) (noTrap_cons (noTrap_if fun h => ?_) (noTrap_cons ?_
            (noTrap_cons (offAlign_none hb256) noTrap_nil))))
          · split
            · rfl
            · next h =>
              rw [if_neg h] at hmem
              exact spadRange_none hmem.1
          · rw [if_pos h] at hmem
            refine check_of ?_ _
            rw [if_pos h]
            exact hmem.2.1
          · split
            · next h =>
              rw [if_pos h] at hmem
              obtain ⟨-, -, hal, hpage⟩ := hmem
              refine check_of (Bool.and_eq_true_iff.mpr ⟨?_, ?_⟩) _
              · rw [Bool.or_eq_true]
                by_cases h2 : f.mode = 2
                · exact .inr (beq_iff_eq.mpr (hal h2))
                · exact .inl (bne_iff_ne.mpr h2)
              · exact beq_iff_eq.mpr hpage
            · next h =>
              rw [if_neg h] at hmem
              split
              · next h0 => exact offAlign_none (hmem.2 h0)
              · rfl
      obtain ⟨o, ho, hfresh⟩ := hissue
      obtain ⟨u, hu, hqueued, hregs, -, -⟩ := queued_of_enters (i := .mldb f) hq (congrArg s.conclude ho) hfresh
      exact ⟨u, hu, hqueued, hregs⟩
    · have hissue : ∃ o : TileOp, mldaIssue f s = .retire (s.dev.enqueue q o).advance ∧ o.Fresh s (.mlda f) a 0 0 0 rows := by
        unfold mldaIssue
        refine ⟨_, State.tileIssue_enters hopen ?_ ?_ ?_, ⟨rfl, rfl, rfl, rfl, rfl, rfl, rfl, rfl, rfl⟩⟩
        · intro u hu
          rcases List.mem_cons.mp hu with rfl | hu
          · exact TileUse.clear_tileUse 1 ha
          · exact TileUse.clear_optUse hrows u hu
        · exact noTrap_cons (fieldBound_none (Nat.le_refl 1) ha.1.2.1 false)
            (noTrap_cons (fieldBound_opt (Nat.le_refl 1) (optional_bound hrows)) noTrap_nil)
        · refine noTrap_cons (tileBound_none htd) (noTrap_cons (spadRange_none haspad) (noTrap_cons (offAlign_none ha32)
            (noTrap_cons (check_of ?_ _) noTrap_nil)))
          exact Bool.and_eq_true_iff.mpr ⟨decide_eq_true hr1, decide_eq_true hr64⟩
      obtain ⟨o, ho, hfresh⟩ := hissue
      obtain ⟨u, hu, hqueued, hregs, -, -⟩ := queued_of_enters (i := .mlda f) hq (congrArg s.conclude ho) hfresh
      exact ⟨u, hu, hqueued, hregs⟩
    · have hissue : ∃ o : TileOp, mclrIssue f s = .retire (s.dev.enqueue q o).advance ∧ o.Fresh s (.mclr f) 0 0 0 0 64 := by
        unfold mclrIssue
        exact ⟨_, State.tileIssue_enters hopen (fun _ h => by cases h) noTrap_nil (noTrap_cons (tileBound_none htd) noTrap_nil),
          ⟨rfl, rfl, rfl, rfl, rfl, rfl, rfl, rfl, rfl⟩⟩
      obtain ⟨o, ho, hfresh⟩ := hissue
      obtain ⟨u, hu, hqueued, hregs, -, -⟩ := queued_of_enters (i := .mclr f) hq (congrArg s.conclude ho) hfresh
      exact ⟨u, hu, hqueued, hregs⟩
  · intro f s k v geo m n c regs spad dst ints common outputs
    have hspad : PFields.toSpad f = true ↔ spad := by
      unfold PFields.toSpad
      simp [spad]
    have key (i : Instr) (adj : Bool) (hexec : exec i s = s.conclude (drainIssue i f adj s)) (hcommon : common (adj && f.selp == 3))
        (hball : (f.selp == 1 && !adj || f.selp == 2 || f.selp == 3) = true → posFinite (v 0) = true)
        (hbox : (!adj && f.selp == 4) = true → boxBad (v 0) (v 1) = false) (hfin : (!adj && f.selp == 7) = true → finite (v 0) = true)
        (hyes : (adj && f.selp == 3) = true → (v 1).toNat % 32 = 0 ∧ (v 1).toNat + m * n * 4 ≤ k.spadBytes)
        (hstw : adj = true → ∀ r ∈ PFields.stwIn f m n, s.dev.curCol.busy s.dev.cur.slot [r] = false) :
        ∃ u, exec i s = .next u ∧ Queued s u i 0 dst (v 0) (v 1) 0 geo ∧ outputs adj u := by
      obtain ⟨hopen, htl, hgeo, hpar, hdst, hdst', hsup, hst⟩ := hcommon
      obtain ⟨hm1, hm64, hn1, hnw, hres, h8⟩ := (PFields.geoOk_iff f geo).mp hgeo
      obtain ⟨hc1, hc2, hc3⟩ := PFields.counts_pos f hm1 hn1
      have hissue : ∃ o : TileOp, drainIssue i f adj s = .retire (s.dev.enqueue 0 o).advance ∧ o.Fresh s i dst (v 0) (v 1) 0 geo ∧
          o.wregs = (PFields.regsOut f adj m n).map (fun x => (x.1, x.2.1)) ++ (PFields.doubled f adj m n).map (fun r => (r, Mask.all)) := by
        unfold drainIssue
        refine ⟨_, State.tileIssue_enters hopen ?_ ?_ ?_, ⟨rfl, rfl, rfl, rfl, rfl, rfl, rfl, rfl, rfl⟩, rfl⟩
        · intro x hx
          simp only [List.mem_append] at hx
          rcases hx with (hx | hx) | hx
          · split at hx
            · next h =>
              rw [List.mem_singleton.mp hx]
              exact TileUse.clear_tileUse 0 (hdst (hspad.mp h)).1
            · cases hx
          · split at hx
            · cases hx
            · next h =>
              obtain ⟨h0, h1, h2⟩ := hpar h
              simp only [List.mem_cons, List.not_mem_nil, or_false] at hx
              rcases hx with rfl | rfl | rfl
              · exact TileUse.clear_uniform 4 h0
              · split
                · next hy =>
                  rw [if_pos hy] at h1
                  exact TileUse.clear_tileUse 4 h1
                · next hy =>
                  rw [if_neg hy] at h1
                  exact TileUse.clear_uniform 4 h1
              · exact TileUse.clear_tileUse 4 h2
          · change x ∈ if PFields.geoOk f geo && adj then (PFields.stwIn f m n).map (fun r => TileUse.mk { src := Src.direct s.dev.seen 4 r 0 0, want := none } true)
              else [] at hx
            by_cases h : (PFields.geoOk f geo && adj) = true
            · rw [if_pos h] at hx
              obtain ⟨r, hr, rfl⟩ := List.mem_map.mp hx
              exact ⟨hstw (Bool.and_eq_true_iff.mp h).2 r hr, rfl, fun hb => by cases hb⟩
            · rw [if_neg h] at hx
              cases hx
        · refine noTrap_cons (noTrap_if fun h => ?_) (noTrap_cons (noTrap_if fun h => ?_) (noTrap_cons ?_ (noTrap_cons (noTrap_if fun h => ?_)
            (noTrap_cons (noTrap_if fun h => ?_) noTrap_nil))))
          · exact boundCheck_none (hdst (hspad.mp h)).1.1.2.1
          · have h : (PFields.geoOk f geo && !f.dk && f.selp != 7) = true := h
            simp only [Bool.and_eq_true, Bool.not_eq_true', bne_iff_ne] at h
            exact rangeBound_none hc1 (hdst' h.1.2 h.2)
          · split
            · rfl
            · next h => exact rangeBound_none (by decide) (hpar h).2.2.1.2.1
          · exact rangeBound_none hc2 (hsup (bne_iff_ne.mp (Bool.and_eq_true_iff.mp h).2))
          · exact rangeBound_none hc3 (hst (bne_iff_ne.mp (Bool.and_eq_true_iff.mp h).2))
        · refine noTrap_cons (tileBound_none htl) (noTrap_cons (noTrap_if fun h => ?_) (noTrap_cons (noTrap_if fun h => ?_)
            (noTrap_cons (noTrap_if fun h => ?_) (noTrap_cons (noTrap_if fun h => ?_) (noTrap_cons (paramCheck_none ?_ 1)
            (noTrap_cons (paramCheck_none ?_ 2) (noTrap_cons (paramCheck_none ?_ 3) (noTrap_cons (paramCheck_none ?_ 4)
            (noTrap_cons (paramCheck_none ?_ 5) (noTrap_cons (paramCheck_none ?_ 6) (noTrap_cons (paramCheck_none ?_ 7) noTrap_nil)))))))))))
          · exact spadRange_none (hdst (hspad.mp (Bool.and_eq_true_iff.mp h).2)).2.2.1
          · exact spadRange_none (hyes (Bool.and_eq_true_iff.mp h).2).2
          · exact offAlign_none (hdst (hspad.mp h)).2.1
          · exact offAlign_none (hyes h).1
          · change (m == 0 || decide (64 < m)) = false
            simp only [Bool.or_eq_false_iff, beq_eq_false_iff_ne, decide_eq_false_iff_not]
            exact ⟨Nat.ne_of_gt hm1, Nat.not_lt.mpr hm64⟩
          · change (n == 0 || decide (PFields.width f < n)) = false
            simp only [Bool.or_eq_false_iff, beq_eq_false_iff_ne, decide_eq_false_iff_not]
            exact ⟨Nat.ne_of_gt hn1, Nat.not_lt.mpr hnw⟩
          · change (geo &&& 0xF000FF80#32 != 0) = false
            rw [hres]
            rfl
          · change (PFields.toSpad f && n % 8 != 0) = false
            cases hs : PFields.toSpad f with
            | false => rfl
            | true =>
              have h0 : n % 8 = 0 := h8 hs
              rw [h0]
              rfl
          · exact guarded_bad hball
          · exact guarded_good hbox
          · exact guarded_bad hfin
      obtain ⟨o, ho, hfresh, hwregs⟩ := hissue
      obtain ⟨u, hu, hqueued, hregs, hcur, htile⟩ := queued_of_enters (by decide) (hexec.trans (congrArg s.conclude ho)) hfresh
      obtain ⟨a, b, -, hold, hnew⟩ := seen_enqueued hcur hregs hfresh.slot htile
      have hopw : (s.dev.queuedOp 0 o).wregs = o.wregs := (congrArg TileOp.wregs (s.dev.queuedOp_asked 0 o) :)
      refine ⟨u, hu, hqueued, hregs, fun r hr hrs => ?_, fun x hx l hl hm => ?_⟩
      · have hother : ∀ x ∈ (s.dev.queuedOp 0 o).wregs, x.1 ≠ r := by
          intro x hx
          rw [hopw, hwregs] at hx
          rcases List.mem_append.mp hx with hx | hx
          · obtain ⟨y, hy, rfl⟩ := List.mem_map.mp hx
            exact hr y hy
          · obtain ⟨y, hy, rfl⟩ := List.mem_map.mp hx
            obtain ⟨rs, hrs', hmem⟩ := List.mem_flatten.mp (PFields.doubled_subset hy)
            rintro rfl
            exact hrs rs hrs' hmem
        change u.dev.seen.regs.getD r VReg.start = s.dev.seen.regs.getD r VReg.start
        rw [hold, hnew, fogged_append, fogged_append, fogged_cons]
        exact fogged_congr b (fogSteps_other _ _ hother)
      · have hlane : FogAt u.dev.seen.regs x.1 l := by
          rw [hnew, fogged_append, fogged_cons]
          refine fogged_lane b _ hl (fogSteps_lane _ _ _ hl (.inr ⟨x.2.1, ?_, hm⟩))
          rw [hopw, hwregs]
          exact List.mem_append_left _ (List.mem_map_of_mem hx)
        exact hlane
    refine ⟨fun hc hball hbox hfin => key (.mdrain f) false rfl hc (fun h => hball ?_) (fun h => hbox ?_) (fun h => hfin ?_) (fun h => by cases h)
      (fun h => by cases h), fun hc hball hyes hstw => key (.pjadj f) true rfl hc (fun h => hball ?_) (fun h => by cases h) (fun h => by cases h)
      (fun h => hyes (by simpa using h)) fun _ r hr => (hstw r hr).1⟩
    · simp only [Bool.not_false, Bool.and_true, Bool.or_eq_true, beq_iff_eq, or_assoc] at h
      exact h
    · simpa using h
    · simpa using h
    · simp only [Bool.not_true, Bool.and_false, Bool.false_or, Bool.or_eq_true, beq_iff_eq] at h
      exact h

end Sys2Proof
end

section
/-! Proofs about the administrative commands (R75, R390, R396). -/

namespace Sys2Proof.Machine

section
variable {s : State} {e : CmdEntry} {t : Dev}

theorem exec_pcreate (h : s.dev.takes .admin e t) (hopc : e.opc = 0x10) :
    let a := e.arg0.toNat
    exec .pcreate s = .next { s with dev := (if t.pcreateStatus e = 0
      then t.createPart (a % 256) (a / 256 % 16) (instanceOf (a / 256 % 16) (a / 65536 % 1024)).1 else t).complete .admin e.seq (t.pcreateStatus e) } := by
  intro a
  have hp : bitsOf a 7 0 = a % 256 := by simp [bitsOf]
  refine congrArg Host.Outcome.next ((Dev.command_of_takes _ _ h (by rw [hopc]; rfl)).trans ?_)
  dsimp only
  rw [hp]
  rfl

theorem exec_premove (h : s.dev.takes .admin e t) (hopc : e.opc = 0x11) :
    let p := e.arg0.toNat % 256
    exec .premove s = .next (if !t.parts.has p || !(t.ctxsOf p).isEmpty then { s with dev := t.complete .admin e.seq 3 }
      else { s with dev := Dev.complete { t.unhold p with parts := (t.unhold p).parts.del p } .admin e.seq 0 }) :=
  congrArg Host.Outcome.next (Dev.command_of_takes _ _ h (by rw [hopc]; rfl))

theorem exec_grant (h : s.dev.takes .admin e t) (hopc : e.opc = 0x12) :
    let p := e.arg0.toNat / 256 % 256
    let ctx := e.ctx.toNat
    exec .grant s = .next (if !t.parts.has p || !t.ctxIn ctx p then { s with dev := t.complete .admin e.seq 3 }
      else { s with dev := (t.modCtx ctx (fun x => { x with fixRight := e.arg0.getLsbD 0 })).complete .admin e.seq 0 }) :=
  congrArg Host.Outcome.next (Dev.command_of_takes _ _ h (by rw [hopc]; rfl))

end

end Sys2Proof.Machine
end

section
namespace Sys2Proof
open Sys2Proof.Machine

/-- Settles O48. -/
theorem administrativeCommands : Obligations.AdministrativeCommands := by
  intro s e t a p done htakes
  refine ⟨fun hopc hst hp3 => ?_, fun hopc hst => ?_, fun hopc hhas hnone => ?_, fun hopc hno => ?_, fun hopc hhas hin => ?_, fun hopc hno => ?_,
    fun nonce d hopc hread => ?_, fun d hopc hread => ?_⟩
  · have hcold : ¬ (t.power == .p3) = true := by simpa using hp3
    rw [exec_pcreate htakes hopc, if_pos hst, hst]
    unfold Dev.createPart
    dsimp only
    rw [if_neg hcold]
    rfl
  · rw [exec_pcreate htakes hopc, if_neg hst]
  · rw [exec_premove htakes hopc, hnone, hhas]
    rfl
  · refine (exec_premove htakes hopc).trans (congrArg Host.Outcome.next (if_pos ?_))
    rcases hno with h | h
    · simp only [a] at h
      simp [h]
    · simp only [a] at h
      simp [h]
  · refine (exec_grant htakes hopc).trans (congrArg Host.Outcome.next (if_neg ?_))
    simp only [p, a] at hhas hin
    simp [hhas, hin]
  · refine (exec_grant htakes hopc).trans (congrArg Host.Outcome.next (if_pos ?_))
    simp only [p, a] at hno
    rcases hno with h | h
    · simp [h]
    · simp [h]
  · refine congrArg Host.Outcome.next ((Dev.command_of_takes _ _ htakes (by rw [hopc]; rfl)).trans ?_)
    dsimp only
    rw [hread]
  · refine congrArg Host.Outcome.next ((Dev.command_of_takes _ _ htakes (by rw [hopc]; rfl)).trans ?_)
    dsimp only
    rw [hread]

end Sys2Proof
end

section
/-! Proofs about the commands of a partition's ring that act on a context (R62, R78, R79, R88, R93, R358, R452). -/

namespace Sys2Proof.Machine

/-! ## Commands on a context -/

section
variable {s : State} {p : Nat} {e : CmdEntry}

theorem State.withCtx_of (h : s.dev.ctxIn e.ctx.toNat p = true) (go : Nat → State) : s.withCtx p e go = go e.ctx.toNat := if_pos h

theorem State.withNewCtx_of (h : s.dev.ctxIn e.ctx.toNat p = true) (go : State → Nat → State) : s.withNewCtx p e go = go s e.ctx.toNat := by
  have hhas : s.dev.ctxs.has e.ctx.toNat = true := (Bool.and_eq_true_iff.mp h).1
  have hold : ¬ ((!s.dev.ctxs.has e.ctx.toNat) = true ∧ (s.dev.ctxsOf p).length < 3) := by simp [hhas]
  unfold State.withNewCtx
  dsimp only
  rw [if_neg hold]
  exact State.withCtx_of h _

end

section
variable {s : State} {p : Nat} {e : CmdEntry} {t : Dev}

theorem exec_launch (h : s.dev.takes (.part p) e t) (hin : t.ctxIn e.ctx.toNat p = true) (hopc : e.opc = 1)
    (hwait : (s.dev.ring (.part p)).waiting = []) : exec (.launch p) s = .next ({ s with dev := t }.acceptLaunch p e) := by
  change execLaunch p s = _
  unfold execLaunch
  dsimp only
  rw [hwait]
  refine congrArg Host.Outcome.next ((Dev.command_of_takes _ _ h (by rw [hopc]; rfl)).trans ?_)
  exact State.withNewCtx_of (s := { s with dev := t }) hin _

theorem exec_graph (h : s.dev.takes (.part p) e t) (hin : t.ctxIn e.ctx.toNat p = true) (hopc : e.opc = 2)
    (hptr : t.partPtr e.ctx.toNat e.arg0 = true) (halign : e.arg1.toNat % 64 = 0) :
    let asked := t.askReplay e.ctx.toNat (colOf (t.part p).first e.arg0) (ptrOff e.arg0) (some (ptrOff e.arg1)) (.ring p e.seq)
    exec (.graph p) s = .next ({ s with dev := asked.2 }.beginReplay asked.1) := by
  intro asked
  have hok : ¬ (!t.partPtr e.ctx.toNat e.arg0 || e.arg1.toNat % 64 != 0) = true := by simp [hptr, halign]
  refine congrArg Host.Outcome.next ((Dev.command_of_takes _ _ h (by rw [hopc]; rfl)).trans ?_)
  exact (State.withNewCtx_of (s := { s with dev := t }) hin _).trans (if_neg hok)

end

/-! ## Restores -/

theorem State.testWatches_list (c : Nat) (ws : List Watch) (s : State) :
    (ws.foldl (fun (s : State) w => s.testWatches c w.va 4) s).vault = s.vault ∧ SameCore s.dev (ws.foldl (fun (s : State) w => s.testWatches c w.va 4) s).dev := by
  induction ws generalizing s with
  | nil => exact ⟨rfl, .refl _⟩
  | cons w ws ih =>
    obtain ⟨hv, hd⟩ := ih (s.testWatches c w.va 4)
    exact ⟨hv, (SameCore.testWatches s c w.va 4).trans hd⟩

/-- The restore of a column that has an image in the slot. -/
theorem State.restoreCol_some {s : State} {ctx slot c : Nat} {i : Image} (h : s.dev.images.get? (imageKey c slot) = some i) :
    ∃ k : Column, k.warps = i.warps.mapVals (fun _ w => w.restored s.dev.now) ∧
      s.restoreCol ctx slot c = i.watches.foldl (fun (s : State) w => s.testWatches c w.va 4)
        { vault := s.vault.clearValid c slot, dev := { s.dev.putCol c k with images := s.dev.images.del (imageKey c slot) } } := by
  unfold State.restoreCol
  dsimp only
  rw [h]
  refine ⟨_, ?_, rfl⟩
  refine foldl_proj Column.warps _ (fun k e => ?_) _ _
  unfold Column.refilter
  dsimp only
  cases k.filterOf e.ctx e.gran <;> rfl

theorem State.restoreCol_none {s : State} {ctx slot c : Nat} (h : s.dev.images.get? (imageKey c slot) = none) : s.restoreCol ctx slot c = s := by
  unfold State.restoreCol
  dsimp only
  rw [h]

theorem Memory.byte_clearValid {m : Memory} (h : m.wf = true) (c slot : Nat) {b : Nat} (hb : ¬ (slotKey c slot ≤ b ∧ b < slotKey c slot + 8)) :
    (m.clearValid c slot).byte b = m.byte b := by
  unfold Memory.clearValid
  rw [Memory.byte_write h]
  exact if_neg (by simp; omega)

/-- What the restore of a column leaves: the clock, the contexts, bytes outside the header, and other columns. -/
theorem State.restoreCol_frame (s : State) (ctx slot c : Nat) :
    (s.restoreCol ctx slot c).dev.now = s.dev.now ∧
      (s.vault.wf = true → ∀ b, ¬ (slotKey c slot ≤ b ∧ b < slotKey c slot + 8) → (s.restoreCol ctx slot c).vault.byte b = s.vault.byte b) ∧
      ∀ e, e ≠ c → (s.restoreCol ctx slot c).dev.images.get? (imageKey e slot) = s.dev.images.get? (imageKey e slot) ∧
        ((s.restoreCol ctx slot c).dev.col e).warps = (s.dev.col e).warps := by
  cases h : s.dev.images.get? (imageKey c slot) with
  | none =>
    rw [State.restoreCol_none h]
    exact ⟨rfl, fun _ _ _ => rfl, fun _ _ => ⟨rfl, rfl⟩⟩
  | some i =>
    obtain ⟨k, -, heq⟩ := State.restoreCol_some (ctx := ctx) h
    obtain ⟨hv, hd⟩ := State.testWatches_list c i.watches
      { vault := s.vault.clearValid c slot, dev := { s.dev.putCol c k with images := s.dev.images.del (imageKey c slot) } }
    rw [heq]
    refine ⟨(congrArg Dev.now hd.dev :), fun hwf b hb => ?_, fun e he => ⟨?_, ?_⟩⟩
    · rw [hv]
      exact Memory.byte_clearValid hwf c slot hb
    · have himages := (congrArg Dev.images hd.dev :)
      have hne : imageKey e slot ≠ imageKey c slot := by
        unfold imageKey
        omega
      refine (congrArg (fun t : Table Image => t.get? (imageKey e slot)) himages).trans ?_
      exact (Table.get?_del _ _ _).trans (if_neg hne)
    · refine (hd.warps e).trans ?_
      exact congrArg Column.warps (Dev.col_putCol_ne s.dev c k he)

theorem State.restoreCol_restores {s : State} {ctx slot c : Nat} {i : Image} (h : s.dev.images.get? (imageKey c slot) = some i) :
    ((s.restoreCol ctx slot c).dev.col c).warps = i.warps.mapVals (fun _ w => w.restored s.dev.now) ∧
      (s.restoreCol ctx slot c).dev.images.get? (imageKey c slot) = none := by
  obtain ⟨k, hk, heq⟩ := State.restoreCol_some (ctx := ctx) h
  obtain ⟨-, hd⟩ := State.testWatches_list c i.watches
    { vault := s.vault.clearValid c slot, dev := { s.dev.putCol c k with images := s.dev.images.del (imageKey c slot) } }
  rw [heq]
  refine ⟨?_, ?_⟩
  · refine (hd.warps c).trans (Eq.trans ?_ hk)
    exact congrArg Column.warps (Dev.col_putCol s.dev c k)
  · refine (congrArg (fun t : Table Image => t.get? (imageKey c slot)) (congrArg Dev.images hd.dev :)).trans ?_
    exact (Table.get?_del _ _ _).trans (if_pos rfl)

/-- Column c stands to be restored from its image, or is restored. -/
def State.Restoring (s : State) (slot c : Nat) (i : Image) (now : Nat) : Prop :=
  s.dev.images.get? (imageKey c slot) = some i ∨
    (s.dev.col c).warps = i.warps.mapVals (fun _ w => w.restored now) ∧ s.dev.images.get? (imageKey c slot) = none

/-- All columns of a list restored. -/
def State.restoreAll (s : State) (ctx slot : Nat) (cs : List Nat) : State := cs.foldl (fun s c => s.restoreCol ctx slot c) s

theorem State.restoreAll_bytes {ctx slot b : Nat} (cs : List Nat) (s : State) (h : s.vault.wf = true)
    (hb : ∀ c ∈ cs, ¬ (slotKey c slot ≤ b ∧ b < slotKey c slot + 8)) : (s.restoreAll ctx slot cs).vault.byte b = s.vault.byte b := by
  induction cs generalizing s with
  | nil => rfl
  | cons c cs ih =>
    refine (ih _ (restoreCol_inv s ctx slot c h) fun x hx => hb x (List.mem_cons_of_mem _ hx)).trans ?_
    exact (s.restoreCol_frame ctx slot c).2.1 h b (hb c List.mem_cons_self)

theorem State.restoreAll_warps {ctx slot c : Nat} {i : Image} (cs : List Nat) (s : State) (hc : c ∈ cs ∨ s.dev.images.get? (imageKey c slot) = none)
    (h : s.Restoring slot c i s.dev.now) : ((s.restoreAll ctx slot cs).dev.col c).warps = i.warps.mapVals (fun _ w => w.restored s.dev.now) := by
  induction cs generalizing s with
  | nil =>
    have hnone := hc.resolve_left (by simp)
    refine (h.resolve_left fun h => ?_).1
    rw [hnone] at h
    cases h
  | cons x cs ih =>
    obtain ⟨hnow, -, hother⟩ := s.restoreCol_frame ctx slot x
    refine (ih (s.restoreCol ctx slot x) ?_ ?_).trans (by rw [hnow])
    · by_cases hx : c = x
      · subst hx
        right
        cases h : s.dev.images.get? (imageKey c slot) with
        | none => rw [State.restoreCol_none h, h]
        | some i => exact (State.restoreCol_restores h).2
      · rcases hc with hc | hc
        · exact .inl ((List.mem_cons.mp hc).resolve_left hx)
        · exact .inr ((hother c hx).1.trans hc)
    · rw [hnow]
      by_cases hx : c = x
      · subst hx
        rcases h with h | h
        · exact .inr (State.restoreCol_restores h)
        · rw [State.restoreCol_none h.2]
          exact .inr h
      · unfold State.Restoring
        rw [(hother c hx).1, (hother c hx).2]
        exact h

/-- The context restored: resident, its columns as its images give them. -/
theorem State.restoreCtx_spec (s : State) (p ctx slot : Nat) :
    let cs := (s.dev.part p).columns
    ((s.restoreCtx p ctx slot).dev.ctx ctx).state = .resident ∧ (s.restoreCtx p ctx slot).vault = (s.restoreAll ctx slot cs).vault ∧
      ∀ c, ((s.restoreCtx p ctx slot).dev.col c).warps = ((s.restoreAll ctx slot cs).dev.col c).warps := by
  intro cs
  have hask (d : Dev) : (d.askAgain ctx).ctxs = d.ctxs ∧ (d.askAgain ctx).cols = d.cols := by
    unfold Dev.askAgain
    constructor
    · refine foldl_proj Dev.ctxs _ ?_ _ _
      exact fun _ _ => rfl
    · refine foldl_proj Dev.cols _ ?_ _ _
      exact fun _ _ => rfl
  refine ⟨?_, rfl, fun c => ?_⟩
  · unfold State.restoreCtx
    dsimp only
    unfold Dev.ctx
    rw [(hask _).1]
    exact (congrArg Context.state (Table.getD_set_same _ _ _ _) :)
  · unfold State.restoreCtx
    dsimp only
    unfold Dev.col
    rw [(hask _).2]
    rfl

/-! ## Drops -/

/-- What a node's failure leaves: it is the replay's, and a record. -/
theorem Dev.nodeFails_frame (d : Dev) (o : Owner) (status : Nat) (err : Word) :
    (d.nodeFails o status err).ctxs = d.ctxs ∧ (d.nodeFails o status err).launches = d.launches := by
  have hready (o : Owner) (t : Nat) : (d.nodeReady o t).ctxs = d.ctxs ∧ (d.nodeReady o t).launches = d.launches := by
    cases o with
    | node die r j =>
      unfold Dev.nodeReady Dev.modNode
      dsimp only
      cases d.replays.get? r <;> exact ⟨rfl, rfl⟩
    | _ => exact ⟨rfl, rfl⟩
  have hfails (d : Dev) (r : Nat) : (d.replayFails r status).ctxs = d.ctxs ∧ (d.replayFails r status).launches = d.launches := by
    unfold Dev.replayFails
    cases d.replays.get? r <;> exact ⟨rfl, rfl⟩
  cases o with
  | node die r j =>
    unfold Dev.nodeFails
    dsimp only
    cases d.replays.get? r with
    | none => exact ⟨rfl, rfl⟩
    | some x => exact ⟨(hfails _ r).1.trans (hready (.node die r j) d.now).1, (hfails _ r).2.trans (hready (.node die r j) d.now).2⟩
  | _ => exact ⟨rfl, rfl⟩

theorem Dev.complete_frame (d : Dev) (r : RingId) (seq : BitVec 64) (status : Nat) :
    (d.complete r seq status).ctxs = d.ctxs ∧ (d.complete r seq status).launches = d.launches :=
  ⟨(congrArg Dev.ctxs (d.complete_ringless r seq status) :), (congrArg Dev.launches (d.complete_ringless r seq status) :)⟩

/-- A dropped context: empty, its images discarded, the launches that had started gone. -/
theorem State.dropCtx_spec (s : State) (p ctx slot : Nat) :
    ((s.dropCtx p ctx slot).dev.ctx ctx).state = .empty ∧ (∀ l ∈ (s.dropCtx p ctx slot).dev.launches, ¬ (l.2.ctx = ctx ∧ 0 < l.2.placed)) ∧
      (s.dropCtx p ctx slot).vault = (s.dev.part p).columns.foldl (fun m c => m.clearValid c slot) s.vault := by
  have hpart (d : Dev) (f : Partition → Partition) : (d.modPart p f).ctxs = d.ctxs ∧ (d.modPart p f).launches = d.launches := by
    unfold Dev.modPart
    split <;> exact ⟨rfl, rfl⟩
  have horigin (d : Dev) (l : Launch) : (match l.origin with
      | .ring r seq => d.complete (.part r) seq 5
      | .node die r j => d.nodeFails (.node die r j) 7 (errWord 0x23 0 6)
      | .loaded => d).ctxs = d.ctxs ∧ (match l.origin with
      | .ring r seq => d.complete (.part r) seq 5
      | .node die r j => d.nodeFails (.node die r j) 7 (errWord 0x23 0 6)
      | .loaded => d).launches = d.launches := by
    cases l.origin with
    | ring r seq => exact d.complete_frame _ _ _
    | node die r j => exact d.nodeFails_frame _ _ _
    | loaded => exact ⟨rfl, rfl⟩
  have hframe : (s.dropCtx p ctx slot).dev.ctxs = s.dev.ctxs.set ctx { s.dev.ctx ctx with state := .empty } ∧
      (s.dropCtx p ctx slot).dev.launches = s.dev.launches.filter (fun l => !(l.2.ctx == ctx && decide (0 < l.2.placed))) := by
    unfold State.dropCtx
    dsimp only
    refine ⟨(foldl_proj Dev.ctxs _ (fun d o => (d.nodeFails_frame o 7 (errWord 0x14 0 6)).1) _ _).trans ((foldl_proj Dev.ctxs _ (fun d l => (horigin d l).1) _ _).trans ?_),
      (foldl_proj Dev.launches _ (fun d o => (d.nodeFails_frame o 7 (errWord 0x14 0 6)).2) _ _).trans ((foldl_proj Dev.launches _ (fun d l => (horigin d l).2) _ _).trans ?_)⟩
    · exact (hpart _ _).1
    · exact (hpart _ _).2
  obtain ⟨hctxs, hlaunches⟩ := hframe
  refine ⟨?_, fun l hl => ?_, rfl⟩
  · unfold Dev.ctx
    rw [hctxs]
    exact (congrArg Context.state (Table.getD_set_same _ _ _ _) :)
  · rw [hlaunches] at hl
    simpa [imp_iff_not_or] using (List.mem_filter.mp hl).2

theorem Memory.byte_clearAll {slot b : Nat} (cs : List Nat) (m : Memory) (h : m.wf = true)
    (hb : ∀ c ∈ cs, ¬ (slotKey c slot ≤ b ∧ b < slotKey c slot + 8)) : (cs.foldl (fun (m : Memory) c => m.clearValid c slot) m).byte b = m.byte b := by
  induction cs generalizing m with
  | nil => rfl
  | cons c cs ih =>
    refine (ih _ (Memory.wf_clearValid h c slot) fun x hx => hb x (List.mem_cons_of_mem _ hx)).trans ?_
    exact Memory.byte_clearValid h c slot (hb c List.mem_cons_self)

/-! ## Resets -/

theorem State.contextReset_empty (s : State) {ctx : Nat} (cause code : Nat) (keep : Option (BitVec 64)) (hhas : s.dev.ctxs.has ctx = true) :
    ((s.contextReset ctx cause code keep).dev.ctx ctx).state = .empty := by
  obtain ⟨lift, d, v, words, claims, hu, -, hctxs⟩ := contextReset_eq s ctx cause code keep
  have hsame := (SameCore.failWords ctx words { vault := v, dev := d }).trans (SameCore.testAll claims _)
  rw [hu]
  unfold Dev.ctx
  rw [hsame.ctxs, hctxs hhas, Table.getD_set_same]

theorem SameCore.launches {d e : Dev} (h : SameCore d e) : e.launches = d.launches := (congrArg Dev.launches h.dev :)

/-- A reset takes the context's launches out of the table. -/
theorem State.contextReset_launches (s : State) (ctx cause code : Nat) (keep : Option (BitVec 64)) :
    (s.contextReset ctx cause code keep).dev.launches = s.dev.launches.filter (fun l => l.2.ctx != ctx) := by
  have habandon (d : Dev) (r : RingId) (st : Nat) : (d.abandon r ctx st keep).launches = d.launches := by
    refine (foldl_proj Dev.launches _ (fun d (e : CmdEntry) => (d.complete_frame r e.seq st).2) _ _).trans ?_
    cases r <;> rfl
  unfold State.contextReset
  dsimp only
  refine ((SameCore.failWords _ _ _).trans (SameCore.testAll _ _)).launches.trans ?_
  refine (habandon _ _ _).trans ?_
  refine congrArg (List.filter fun l : Nat × Launch => l.2.ctx != ctx) ?_
  exact Machine.foldl_keeps Dev.launches (fun d c => d.modCol c _) (fun _ _ => rfl) _ _

/-! ## The commands -/

section
variable {s : State} {p : Nat} {e : CmdEntry} {l : LaunchRec} {d : Dev}

theorem State.acceptLaunch_taken (harg : e.arg0.toNat < 2 ^ 44) (hread : s.readLaunch (s.dev.part p).first e.ctx.toNat p e.arg0.toNat = (.taken l, d)) :
    ∃ b : RingBlock, s.acceptLaunch p e =
      { s with dev := ((d.putRing (.part p) b).queueLaunch e.ctx.toNat p l (.ring p e.seq)).comesIn p e.ctx.toNat } := by
  unfold State.acceptLaunch
  dsimp only
  rw [if_neg (Nat.not_le.mpr harg), hread]
  exact ⟨_, rfl⟩

theorem State.acceptLaunch_rejected (harg : e.arg0.toNat < 2 ^ 44) (hread : s.readLaunch (s.dev.part p).first e.ctx.toNat p e.arg0.toNat = (.rejected, d)) :
    s.acceptLaunch p e = { s with dev := d.complete (.part p) e.seq 1 } := by
  unfold State.acceptLaunch
  dsimp only
  rw [if_neg (Nat.not_le.mpr harg), hread]

theorem State.acceptLaunch_far (harg : 2 ^ 44 ≤ e.arg0.toNat) : s.acceptLaunch p e = { s with dev := s.dev.complete (.part p) e.seq 2 } := if_pos harg

/-- What a ring's replay begins with, waits for, or completes with. -/
theorem State.beginReplay_of_ring (s : State) {x : Replay} {seq : BitVec 64} (h : x.owner = .ring p seq) :
    (∀ k, (s.tryReplay x).1 = .begun k → s.beginReplay x = (s.tryReplay x).2) ∧
      ((s.tryReplay x).1 = .busy ∨ (s.tryReplay x).1 = .held → s.beginReplay x = (s.tryReplay x).2) ∧
      ∀ st, (s.tryReplay x).1 = .bad st →
        s.beginReplay x = { (s.tryReplay x).2 with dev := (s.tryReplay x).2.dev.complete (.part p) seq st } := by
  have hbegun (d : Dev) (k : Nat) : d.replayTold x (.begun k) = d := by
    unfold Dev.replayTold
    rw [h]
  have hbad (d : Dev) (st : Nat) : d.replayTold x (.bad st) = d.complete (.part p) seq st := by
    unfold Dev.replayTold
    rw [h]
  unfold State.beginReplay
  generalize s.tryReplay x = r
  obtain ⟨t, u⟩ := r
  refine ⟨?_, ?_, ?_⟩
  · rintro k rfl
    dsimp only
    rw [hbegun]
  · rintro (rfl | rfl) <;> rfl
  · rintro st rfl
    dsimp only
    rw [hbad]

/-- What a queued launch leaves: it stands in the table and in its queue. -/
theorem Dev.queueLaunch_spec (d : Dev) (ctx p : Nat) (l : LaunchRec) (o : Origin) :
    let e := (d.queueLaunch ctx p l o).comesIn p ctx
    e.launches.get? d.nextLaunch = some {
      id := d.nextLaunch, ctx := ctx, part := p, rec_ := l, origin := o, placed := 0, cols := [], ended := [] } ∧
      (e.part p).queues.getD l.prio [] = (d.part p).queues.getD l.prio [] ++ [d.nextLaunch] := by
  intro e
  have hin (d : Dev) : (d.comesIn p ctx).launches = d.launches ∧ (d.comesIn p ctx).parts = d.parts := by
    unfold Dev.comesIn
    split <;> exact ⟨rfl, rfl⟩
  obtain ⟨hl, hp⟩ := hin (d.queueLaunch ctx p l o)
  refine ⟨?_, ?_⟩
  · rw [hl]
    exact Table.get?_set_same _ _ _
  · have hpart : e.part p = { d.part p with queues := (d.part p).queues.set l.prio ((d.part p).queues.getD l.prio [] ++ [d.nextLaunch]) } := by
      unfold Dev.part
      rw [hp]
      exact Table.getD_set_same _ _ _ _
    rw [hpart]
    exact Table.getD_set_same _ _ _ _

end

end Sys2Proof.Machine
end

section
namespace Sys2Proof
open Sys2Proof.Machine

/-- Settles O47. -/
theorem partitionCommands : Obligations.PartitionCommands := by
  intro p s e t ctx slot base x htakes hin only
  have hhas : t.ctxs.has ctx = true := (Bool.and_eq_true_iff.mp hin).1
  have hpart : (t.ctx ctx).part = p := by simpa using (Bool.and_eq_true_iff.mp hin).2
  refine ⟨fun l d hopc hwait harg hread => ?_, fun d hopc hwait harg hread => ?_, fun hopc hwait harg => ?_, fun hopc hptr hal => ?_,
    fun hopc hw3 hw4 hstop hpre => ?_, fun hopc hw4 hstop hsaved hres hclean => ?_, fun hopc => ?_, fun hopc hsaved => ?_⟩
  · obtain ⟨b, hb⟩ := State.acceptLaunch_taken (s := base) harg hread
    obtain ⟨hl, hq⟩ := (d.putRing (.part p) b).queueLaunch_spec ctx p l (.ring p e.seq)
    exact ⟨_, (exec_launch htakes hin hopc hwait).trans (congrArg _ hb), rfl, hl, hq⟩
  · exact (exec_launch htakes hin hopc hwait).trans (congrArg _ (State.acceptLaunch_rejected (s := base) harg hread))
  · exact (exec_launch htakes hin hopc hwait).trans (congrArg _ (State.acceptLaunch_far (s := base) harg))
  · intro asked tried
    have hexec : exec (.graph p) s = .next (({ s with dev := asked.2 } : State).beginReplay asked.1) := exec_graph htakes hin hopc hptr hal
    obtain ⟨hbegun, hwait, hbad⟩ := State.beginReplay_of_ring { s with dev := asked.2 } (x := asked.1) (p := p) (seq := e.seq) rfl
    exact ⟨fun k hk => hexec.trans (congrArg _ (hbegun k hk)), fun h => hexec.trans (congrArg _ (hwait h)), fun st hst => hexec.trans (congrArg _ (hbad st hst))⟩
  · have hexec : exec (.preempt p) s = .next (base.preempt p e) := by
      change execPreempt p s = _
      unfold execPreempt
      rw [hw3]
      exact congrArg Host.Outcome.next (Dev.command_of_takes _ _ htakes (by rw [hopc]; rfl))
    have hgo : ¬ (x.stopping || x.preempt.isSome || (t.waitingSwap p 4).isSome) = true := by simp [hstop, hpre, hw4]
    have hbegin : base.preempt p e = _ := (State.withCtx_of (s := base) hin _).trans (if_neg hgo)
    refine ⟨fun hres hused => ?_, fun hres hused => ?_, fun hres => ?_⟩
    · exact hexec.trans (congrArg Host.Outcome.next (hbegin.trans ((if_neg (not_not_intro hres)).trans (if_neg (ne_true_of_eq_false hused)))))
    · exact hexec.trans (congrArg Host.Outcome.next (hbegin.trans ((if_neg (not_not_intro hres)).trans (if_pos hused))))
    · exact hexec.trans (congrArg Host.Outcome.next (hbegin.trans (if_pos hres)))
  · have hexec : exec (.resume p) s = .next (base.resume p e) := by
      change execResume p s = _
      unfold execResume
      rw [hw4]
      exact congrArg Host.Outcome.next (Dev.command_of_takes _ _ htakes (by rw [hopc]; rfl))
    have hfree : ¬ (t.residentOf p).isSome = true := by simp [hres]
    have hrestore : base.resume p e = { base.restoreCtx p ctx slot with dev := (base.restoreCtx p ctx slot).dev.complete (.part p) e.seq 0 } :=
      (State.withCtx_of (s := base) hin _).trans ((if_neg (ne_true_of_eq_false hstop)).trans ((if_neg (not_not_intro hsaved)).trans
        ((if_neg hfree).trans (if_neg (ne_true_of_eq_false hclean)))))
    obtain ⟨hstate, hvault, hwarps⟩ := base.restoreCtx_spec p ctx slot
    refine ⟨base.restoreCtx p ctx slot, hexec.trans (congrArg _ hrestore), hstate, fun hinv b hb => ?_, fun c hc i hi => ?_⟩
    · rw [hvault]
      exact State.restoreAll_bytes x.columns base hinv hb
    · rw [hwarps]
      exact State.restoreAll_warps x.columns base (.inl hc) (.inl hi)
  · have hreset : exec (.reset p) s = _ :=
      congrArg Host.Outcome.next ((Dev.command_of_takes _ _ htakes (by rw [hopc]; rfl)).trans (State.withCtx_of (s := base) hin _))
    refine ⟨base.contextReset ctx 1 0 (some e.seq), hreset, ?_, ?_, fun hres c hc => ?_⟩
    · exact base.contextReset_empty 1 0 (some e.seq) hhas
    · intro l hl
      rw [base.contextReset_launches] at hl
      simpa using (List.mem_filter.mp hl).2
    · exact (contextReset_free (s := base) 1 0 (some e.seq) hres hhas (by rw [show (base.dev.ctx ctx).part = p from hpart]; exact hc)).2.1
  · have hdrop : exec (.drop p) s = .next { base.dropCtx p ctx slot with dev := (base.dropCtx p ctx slot).dev.complete (.part p) e.seq 0 } :=
      congrArg Host.Outcome.next ((Dev.command_of_takes _ _ htakes (by rw [hopc]; rfl)).trans ((State.withCtx_of (s := base) hin _).trans
        (if_neg (not_not_intro hsaved))))
    obtain ⟨hempty, hlaunches, hvault⟩ := base.dropCtx_spec p ctx slot
    refine ⟨base.dropCtx p ctx slot, hdrop, fun hinv b hb => ?_, hempty, hlaunches⟩
    rw [hvault]
    exact Memory.byte_clearAll x.columns base.vault hinv hb

end Sys2Proof
end

section
/-! Proofs about what the engines beside the warps leave alone (R348, R353-R358): their reads and writes at the home slices, and the walker. -/

namespace Sys2Proof.Machine

/-! ## Reads at the home slices -/

theorem SameWarps.engineRead (s : State) (c tc ctx off n : Nat) (priv : Bool) : SameWarps s.dev (s.engineRead c tc ctx off n priv).2 := by
  have htr := SameWarps.translate s c ctx off false priv
  unfold State.engineRead
  generalize s.translate c ctx off false priv = r at htr
  obtain ⟨r, d⟩ := r
  cases r with
  | error f => exact htr
  | ok e => exact (htr.trans (SameWarps.homeRead { s with dev := d } tc _ 0 e.zc none _)).trans (.free _ _)

theorem SameWarps.engineReads (c tc ctx : Nat) (priv : Bool) (k off n : Nat) (s : State) :
    SameWarps s.dev (s.engineReads c tc ctx priv k off n).2 := by
  induction k generalizing s off n with
  | zero => exact .refl _
  | succ k ih =>
    have hone := SameWarps.engineRead s c tc ctx (off % 2 ^ 44) (min n (32 - off % 32)) priv
    unfold State.engineReads
    split
    · exact .refl _
    · dsimp only
      generalize s.engineRead c tc ctx (off % 2 ^ 44) (min n (32 - off % 32)) priv = r at hone
      obtain ⟨r, d⟩ := r
      cases r with
      | error f => exact hone
      | ok bs =>
        have hrest := hone.trans (ih (off + min n (32 - off % 32)) (n - min n (32 - off % 32)) { s with dev := d })
        dsimp only
        generalize State.engineReads { s with dev := d } c tc ctx priv k (off + min n (32 - off % 32)) (n - min n (32 - off % 32)) = q at hrest
        obtain ⟨q, e⟩ := q
        cases q <;> exact hrest

theorem SameWarps.walkWords (s : State) (c ctx off n : Nat) : SameWarps s.dev (s.walkWords c ctx off n).2 := by
  have h := SameWarps.engineReads c c ctx false (n / 4 + 2) off (8 * n) s
  unfold State.walkWords
  generalize s.engineReads c c ctx false (n / 4 + 2) off (8 * n) = r at h
  obtain ⟨r, d⟩ := r
  rcases r with (_ | _) | bs
  · exact h
  · exact h
  · dsimp only
    split <;> exact h

theorem SameWarps.readHead (s : State) (c ctx obj : Nat) : SameWarps s.dev (s.readHead c ctx obj).2 := by
  have h := SameWarps.walkWords s c ctx obj 8
  unfold State.readHead
  split
  · exact .refl _
  · generalize s.walkWords c ctx obj 8 = r at h
    obtain ⟨r, d⟩ := r
    cases r with
    | error f => exact h
    | ok ws =>
      dsimp only
      split <;> exact h

theorem SameWarps.readNode (s : State) (c ctx : Nat) (g : GHead) (j : Nat) : SameWarps s.dev (s.readNode c ctx g j).2 := by
  have h := SameWarps.walkWords s c ctx (g.nodes + 64 * j) 8
  unfold State.readNode
  generalize s.walkWords c ctx (g.nodes + 64 * j) 8 = r at h
  obtain ⟨r, d⟩ := r
  cases r with
  | error f => exact h
  | ok ws =>
    dsimp only
    split
    · exact h
    · generalize bitsOf (ws.getD 0 0) 43 32 = sn
      generalize g.succ + 2 * bitsOf (ws.getD 0 0) 63 44 = at_
      have hs := h.trans (SameWarps.engineReads c c ctx false (sn / 16 + 2) at_ (2 * sn) { s with dev := d })
      generalize State.engineReads { s with dev := d } c c ctx false (sn / 16 + 2) at_ (2 * sn) = q at hs
      obtain ⟨q, e⟩ := q
      rcases q with (_ | _) | bs
      · exact hs
      · exact hs
      · dsimp only
        split
        · exact hs
        · split <;> exact hs

theorem SameWarps.readNodes (c ctx : Nat) (g : GHead) (n j : Nat) (s : State) : SameWarps s.dev (s.readNodes c ctx g n j).2 := by
  induction n generalizing s j with
  | zero => exact .refl _
  | succ n ih =>
    have hone := SameWarps.readNode s c ctx g j
    unfold State.readNodes
    generalize s.readNode c ctx g j = r at hone
    obtain ⟨r, d⟩ := r
    cases r with
    | error f => exact hone
    | ok x =>
      have hrest := hone.trans (ih (j + 1) { s with dev := d })
      dsimp only
      generalize State.readNodes { s with dev := d } c ctx g n (j + 1) = q at hrest
      obtain ⟨q, e⟩ := q
      cases q <;> exact hrest

theorem SameWarps.readGraph (s : State) (c ctx obj : Nat) : SameWarps s.dev (s.readGraph c ctx obj).2 := by
  have hhead := SameWarps.readHead s c ctx obj
  unfold State.readGraph
  generalize s.readHead c ctx obj = r at hhead
  obtain ⟨r, d⟩ := r
  cases r with
  | error f => exact hhead
  | ok g =>
    have hnodes := hhead.trans (SameWarps.readNodes c ctx g g.nnodes 0 { s with dev := d })
    dsimp only
    generalize State.readNodes { s with dev := d } c ctx g g.nnodes 0 = q at hnodes
    obtain ⟨q, e⟩ := q
    cases q with
    | error f => exact hnodes
    | ok ns =>
      dsimp only
      split <;> exact hnodes

/-! ## Writes at the home slices -/

theorem SameCore.setPois (d : Dev) (key : Nat) (b : Bool) : SameCore d (d.setPois key b) := ⟨rfl, fun _ => rfl⟩

theorem SameCore.setPoisIf (d : Dev) (key : Nat) (b p : Bool) : SameCore d (if p then d.setPois key b else d) := by
  cases p
  · exact .refl d
  · exact .setPois d key b

theorem SameCore.poisonSectors (d : Dev) (ls : List LaneAcc) : SameCore d (d.poisonSectors ls) := by
  refine SameCore.foldl _ (fun d x => ?_) _ d
  dsimp only
  cases ls.find? (fun a => a.sectors.contains x) with
  | none => exact .refl _
  | some a => exact .setPois _ _ _

/-- The lane of an engine's write. -/
def engineLane (tc off : Nat) (e : TlbEntry) (bs : List (Byte × Bool)) : LaneAcc :=
  { laneWant 0 tc off bs.length 0 with va := e.va off, cut := bs.length, pois := bs.map Prod.snd, zc := e.zc, stable := e.stable }

theorem SameCore.engineWrite (s : State) (c tc ctx off : Nat) (priv : Bool) (bs : List (Byte × Bool)) (clean : Unit → Bool) :
    SameCore s.dev (s.engineWrite c tc ctx off priv bs clean).2.dev := by
  have htr := SameWarps.translate s c ctx off true priv
  unfold State.engineWrite
  generalize s.translate c ctx off true priv = r at htr
  obtain ⟨r, d⟩ := r
  cases r with
  | error f => exact htr.core
  | ok e =>
    let a := engineLane tc off e bs
    let marked : State := if e.stable then ({ s with dev := d } : State).stableMark c a ctx else { s with dev := d }
    let bytes := ({ marked with dev := marked.dev.poisonSectors [a] } : State).ahead [(a, bs.map Prod.fst)]
    have hmark : SameCore s.dev marked.dev := htr.core.trans (.ite (.stableMark { s with dev := d } c a ctx) (.refl _))
    have hpois : SameCore s.dev bytes.dev := hmark.trans (.poisonSectors marked.dev [a])
    have hlines : SameCore s.dev (bytes.writeLines [a]).1 := hpois.trans (SameWarps.writeLinesAt bytes [a] _).core
    refine SameCore.trans ?_ (SameCore.putLane _ _ _)
    exact hlines.trans (.setPoisIf _ _ _ _)

theorem SameCore.engineWrites (c tc ctx : Nat) (priv : Bool) (k off : Nat) (bs : List (Byte × Bool)) (s : State) :
    SameCore s.dev (s.engineWrites c tc ctx priv k off bs).2.dev := by
  induction k generalizing s off bs with
  | zero => exact .refl _
  | succ k ih =>
    have hone := SameCore.engineWrite s c tc ctx (off % 2 ^ 44) priv (bs.take (32 - off % 32)) (fun _ => false)
    unfold State.engineWrites
    split
    · exact .refl _
    · dsimp only
      generalize s.engineWrite c tc ctx (off % 2 ^ 44) priv (bs.take (32 - off % 32)) (fun _ => false) = r at hone
      obtain ⟨r, t⟩ := r
      cases r with
      | error f => exact hone
      | ok n =>
        have hrest := hone.trans (ih (off + (32 - off % 32)) (bs.drop (32 - off % 32)) t)
        dsimp only
        generalize t.engineWrites c tc ctx priv k (off + (32 - off % 32)) (bs.drop (32 - off % 32)) = q at hrest
        obtain ⟨q, v⟩ := q
        cases q <;> exact hrest

theorem SameCore.takeSlot (s : State) (x : Replay) (g : GHead) (k : Nat) : SameCore s.dev (s.takeSlot x g k).2.dev := by
  have hread := (SameWarps.engineReads x.home x.home x.ctx false 20 (x.pbOff.getD g.stage) (64 * g.pblen) s).core
  unfold State.takeSlot
  dsimp only
  generalize s.engineReads x.home x.home x.ctx false 20 (x.pbOff.getD g.stage) (64 * g.pblen) = r at hread
  obtain ⟨r, d⟩ := r
  cases r with
  | error f => exact hread
  | ok bs =>
    have hblock := hread.trans (SameCore.engineWrites x.home x.home x.ctx false 20 (g.pb.getD k 0) bs { s with dev := d })
    dsimp only
    generalize State.engineWrites { s with dev := d } x.home x.home x.ctx false 20 (g.pb.getD k 0) bs = q at hblock
    obtain ⟨q, t⟩ := q
    cases q with
    | error f => exact hblock
    | ok n =>
      dsimp only
      generalize busyWord ((t.dev.running x).filterMap (fun y => y.slot) ++ [k]) (g.nrep + 1) = word
      have hword := hblock.trans (SameCore.engineWrites x.home x.home x.ctx false 2 (x.obj + 0x30) word t)
      generalize t.engineWrites x.home x.home x.ctx false 2 (x.obj + 0x30) word = p at hword
      obtain ⟨p, v⟩ := p
      cases p <;> exact hword

/-! ## The start of a replay -/

/-- Two devices have the same turn, the same tick and the same warps. -/
structure SameTurn (d e : Dev) : Prop where
  cur   : e.cur = d.cur
  now   : e.now = d.now
  warps : ∀ c, (e.col c).warps = (d.col c).warps

theorem SameTurn.trans {d e g : Dev} (h : SameTurn d e) (k : SameTurn e g) : SameTurn d g :=
  ⟨k.cur.trans h.cur, k.now.trans h.now, fun c => (k.warps c).trans (h.warps c)⟩

theorem SameCore.turn {d e : Dev} (h : SameCore d e) : SameTurn d e :=
  ⟨(congrArg Dev.cur h.dev :), (congrArg Dev.now h.dev :), h.warps⟩

theorem SameTurn.replays {d e : Dev} (h : SameTurn d e) (t : Table Replay) : SameTurn d { e with replays := t } := ⟨h.cur, h.now, h.warps⟩

theorem SameTurn.curWarp {d e : Dev} (h : SameTurn d e) : e.curWarp = d.curWarp := by
  change (e.col e.cur.col).warps.getD e.cur.slot Warp.start = (d.col d.cur.col).warps.getD d.cur.slot Warp.start
  rw [h.warps, h.cur]

theorem SameTurn.report (d : Dev) (c ctx gran : Nat) (f : Flt) (a : AccKind) : SameTurn d (d.report c ctx gran f a) := by
  have h : SameOps d (d.report c ctx gran f a) := .modCol _ _ _ (Column.asked_report _ _ _ _ _ _)
  exact ⟨h.cur, h.now, fun x => (congrArg Column.warps (h.cols x) :)⟩

theorem SameTurn.replayRefused (d : Dev) (x : Replay) (status : Nat) : SameTurn d (d.replayRefused x status) := by
  unfold Dev.replayRefused
  split
  · exact (SameWarps.recordCol d _ _).core.turn.replays _
  · exact (SameCore.refl d).turn.replays _

theorem SameTurn.replayHeld (d : Dev) (x : Replay) (f : Flt) (g : Nat) : SameTurn d (d.replayHeld x f g) := (SameTurn.report d _ _ _ _ _).replays _

theorem SameTurn.tryReplay (s : State) (x : Replay) : SameTurn s.dev (s.tryReplay x).2.dev := by
  have hgraph := (SameWarps.readGraph s x.home x.ctx x.obj).core.turn
  unfold State.tryReplay
  cases s.dev.slotFor x with
  | none => exact (SameCore.refl _).turn
  | some k =>
    dsimp only
    generalize s.readGraph x.home x.ctx x.obj = r at hgraph
    obtain ⟨r, d⟩ := r
    rcases r with (_ | _ | _) | ⟨g, ns⟩
    · exact hgraph.trans (.replayRefused _ _ _)
    · exact hgraph.trans (.replayRefused _ _ _)
    · exact hgraph.trans (.replayHeld _ _ _ _)
    · have hslot := hgraph.trans (SameCore.takeSlot { s with dev := d } x g k).turn
      dsimp only
      generalize State.takeSlot { s with dev := d } x g k = q at hslot
      obtain ⟨q, t⟩ := q
      rcases q with _ | (_ | _)
      · exact hslot.replays _
      · exact hslot.trans (.replayHeld _ _ _ _)
      · exact hslot.trans (.replayRefused _ _ _)

/-- A replay that finds no slot leaves the state as it is. -/
theorem State.tryReplay_busy {s : State} {x : Replay} (h : (s.tryReplay x).1 = .busy) : (s.tryReplay x).2 = s := by
  revert h
  unfold State.tryReplay
  cases s.dev.slotFor x with
  | none => exact fun _ => rfl
  | some k =>
    dsimp only
    generalize s.readGraph x.home x.ctx x.obj = r
    obtain ⟨r, d⟩ := r
    rcases r with (_ | _ | _) | ⟨g, ns⟩
    · exact fun h => nomatch h
    · exact fun h => nomatch h
    · exact fun h => nomatch h
    · dsimp only
      generalize State.takeSlot { s with dev := d } x g k = q
      obtain ⟨q, t⟩ := q
      rcases q with _ | (_ | _)
      · exact fun h => nomatch h
      · exact fun h => nomatch h
      · exact fun h => nomatch h

end Sys2Proof.Machine
end

section
/-! Proofs about CUE, GPATCH, GLAUNCH and NMRUN (R352, R358-R361, R372, R373): what their checks lead to, and what the work that they start
leaves of the issuing warp. -/

namespace Sys2Proof.Machine

/-! ## The hint after the advance -/

theorem Dev.curWarp_advance_hint (d : Dev) (h : BitVec 7) :
    (d.advance.hint h).curWarp = { d.curWarp with
      pc := d.cur.pc + (if d.cur.second then 2 else 1), stallUntil := (d.advance.hint h).curWarp.stallUntil,
      yld := (d.advance.hint h).curWarp.yld } := by
  unfold Dev.hint
  rw [Dev.curWarp_modCurWarp, Dev.curWarp_advance]

theorem Dev.curCol_advance_hint (d : Dev) (h : BitVec 7) :
    (d.advance.hint h).curCol = { d.curCol with warps := (d.advance.hint h).curCol.warps } := by
  unfold Dev.hint
  rw [Dev.curCol_modCurWarp, Dev.curCol_advance]
  rfl

theorem Issues.of_advance_hint {s : State} {d : Dev} (h : BitVec 7) (hcur : d.cur = s.dev.cur) (hregs : d.curWarp.regs = s.dev.curWarp.regs)
    (hpreds : d.curWarp.preds = s.dev.curWarp.preds) : Issues s { s with dev := { d.advance.hint h with issued := .retired } } := by
  have hw : ({ d.advance.hint h with issued := .retired } : Dev).curWarp = _ := d.curWarp_advance_hint h
  refine ⟨rfl, rfl, ?_, ?_, ?_⟩
  · rw [hw, hcur]
    rfl
  · rw [hw]
    exact hregs
  · rw [hw]
    exact hpreds

/-- A store that retires with its operation entered, and its issue hint taken. -/
theorem Entered.hinted {i : Instr} {s : State} {o : MemOp} {d : Dev} {h : BitVec 7} (hin : Entered s o d) (hstore : o.kind.isStore = true)
    (hi : exec i s = s.conclude (.retire (d.advance.hint h))) :
    ∃ u, exec i s = .next u ∧ Issues s u ∧ u.dev.curWarp.stores = s.dev.curWarp.stores + 1 ∧
      u.dev.curCol.ops = s.dev.curCol.ops ++ [{ o with id := s.dev.curCol.nextOp }] := by
  have hw : ({ d.advance.hint h with issued := .retired } : Dev).curWarp = _ := d.curWarp_advance_hint h
  have hc : ({ d.advance.hint h with issued := .retired } : Dev).curCol = _ := d.curCol_advance_hint h
  refine ⟨_, hi, .of_advance_hint h hin.cur hin.regs hin.preds, ?_, ?_⟩
  · rw [hw]
    exact hin.stores.trans (congrArg (s.dev.curWarp.stores + ·) (if_pos hstore))
  · rw [hc]
    exact hin.ops

/-! ## Checks of a uniform pointer -/

/-- An instruction's own checks of its pointer pass, beside those of its operands. -/
theorem VCtx.ReadyUni.pointer {x : VCtx} {bounds : List (Option TrapInfo)} {us : List Use} (h : x.ReadyUni bounds us []) {m : Mask} {p : BitVec 64}
    {a b : Bool} {i j : Nat} (ha : a = true) (hb : b = true) : x.ReadyUni bounds us [pairTrap m p a i, pairTrap m p b j] := by
  obtain ⟨hready, hchecks⟩ := h
  refine ⟨hready, ?_⟩
  rw [firstTrap_eq_none_iff] at hchecks ⊢
  intro t ht
  rw [List.append_nil] at hchecks
  rcases List.mem_append.mp ht with ht | ht
  · rcases List.mem_append.mp ht with ht | ht
    · exact hchecks t (List.mem_append_left _ ht)
    · rcases List.mem_cons.mp ht with rfl | ht
      · exact check_of ha _
      · obtain rfl := List.mem_singleton.mp ht
        exact check_of hb _
  · exact hchecks t (List.mem_append_right _ ht)

theorem storeRoom_afterRelease (d : Dev) (on : Bool) (n : Nat) :
    (d.afterRelease on).curCol.storeRoom (d.afterRelease on).cur.slot n = d.curCol.storeRoom d.cur.slot n := by
  have hstores : ((d.afterRelease on).curCol.warp (d.afterRelease on).cur.slot).stores = (d.curCol.warp d.cur.slot).stores :=
    (congrArg Warp.stores (d.afterRelease_warp on) :)
  unfold Column.storeRoom Column.logFree
  rw [hstores, d.afterRelease_col on]

/-! ## CUE and GPATCH -/

/-- The operation of a CUE that adds v to a word. -/
def cueOp (d : Dev) (p : BitVec 64) (v : Word) : MemOp :=
  d.newOp .cue Fmt.ui32 2 [{ laneWant 0 (colOf d.cur.col p) (ptrOff p) 4 0 with data := [v], pois := [false] }]

/-- The operation of a GPATCH that stores three words. -/
def gpatchOp (d : Dev) (p : BitVec 64) (a b q : Word) : MemOp :=
  d.newOp .gpatch Fmt.ui32 3 [{ laneWant 0 (colOf d.cur.col p) (ptrOff p) 8 0 with data := [a, b, q], pois := [false, false, false] }]

/-- A CUE past its checks and its release. -/
def cueGo (s : State) (p : BitVec 64) (v : Word) (d : Dev) : Issue :=
  if !d.curCol.storeRoom d.cur.slot 1 then .hold d
  else .retire (({ s with dev := d }.startStore d.cur.col (cueOp d p v) .store d.cur.priv).dropLanes d.curWarp.ctx (cueOp d p v).lanes).advance

theorem Issue.hinted_retire (h : BitVec 7) (d : Dev) : (Issue.retire d).hinted h = .retire (d.hint h) := rfl

section
variable {f : VFields} {s : State}

theorem cueIssue_of_checks (hs : s.selected f.h) (hacq : s.dev.curCol.acquiring s.dev.cur.slot = false) :
    let d := s.dev
    let x := vctx d f.h []
    let lo := rangeSrc x.w 1 f.a 0
    let hi := rangeSrc x.w 1 f.a 1
    let v := x.src 2 f.b
    let p := ptrOf (lane lo.vals 0) (lane hi.vals 0)
    let rel := f.sub.getLsbD 0
    d.partPtr d.curWarp.ctx p = true → ptrOff p % 4 = 0 → x.ReadyUni [rangeBound x.regs f.a.reg.toNat 2] [Use.ptr lo, Use.ptr hi, Use.ptr v] [] →
      d.releaseOver rel d.curWarp.obs → cueIssue f s = cueGo s p (lane v.vals 0) (d.afterRelease rel) := by
  intro d x lo hi v p rel hpart halign hready hover
  rw [cueIssue, s.whole_of_selected hs]
  exact (VCtx.withUni_of_ready (hready.pointer hpart (beq_iff_eq.mpr halign)) _).trans ((Dev.afterAcquire_of_not hacq _).trans
    (Dev.release_if Iff.rfl hover (cueGo s p (lane v.vals 0))))

theorem cueGo_starts {p : BitVec 64} {v : Word} {e : Dev} (h : s.dev.Alike e) (hroom : e.curCol.storeRoom e.cur.slot 1 = true) :
    ∃ d, cueGo s p v e = .retire d.advance ∧
      let got := { s with dev := e }.placeLanes s.dev.cur.col (cueOp e p v) .store s.dev.cur.priv (cueOp e p v).lanes
      Entered s { cueOp e p v with lanes := got.2.1, logged := got.2.2 } d := by
  refine ⟨_, if_neg (Column.storeRoom_not hroom), ?_⟩
  rw [h.cur]
  exact (h.storeEntered (congrArg Cur.slot h.cur) .store s.dev.cur.priv).dropLanes _ _

theorem gpatchIssue_of_checks (hs : s.selected f.h) (hacq : s.dev.curCol.acquiring s.dev.cur.slot = false) :
    let d := s.dev
    let x := vctx d f.h []
    let lo := rangeSrc x.w 1 f.a 0
    let hi := rangeSrc x.w 1 f.a 1
    let v0 := rangeSrc x.w 2 f.b 0
    let v1 := rangeSrc x.w 2 f.b 1
    let q := x.src 3 f.c
    let p := ptrOf (lane lo.vals 0) (lane hi.vals 0)
    d.partPtr d.curWarp.ctx p = true → ptrOff p % 64 = 0 →
    x.ReadyUni [rangeBound x.regs f.a.reg.toNat 2, rangeBound x.regs f.b.reg.toNat 2] [Use.ptr lo, Use.ptr hi, Use.ptr v0, Use.ptr v1, Use.ptr q] [] →
    d.curCol.storeRoom d.cur.slot 1 = true →
      gpatchIssue f s = .retire (s.startStore d.cur.col (gpatchOp d p (lane v0.vals 0) (lane v1.vals 0) (lane q.vals 0)) .store d.cur.priv).advance := by
  intro d x lo hi v0 v1 q p hpart halign hready hroom
  rw [gpatchIssue, s.whole_of_selected hs]
  exact (VCtx.withUni_of_ready (hready.pointer hpart (beq_iff_eq.mpr halign)) _).trans ((Dev.afterAcquire_of_not hacq _).trans
    (if_neg (Column.storeRoom_not hroom)))

/-! ## GLAUNCH -/

theorem glaunchIssue_of_checks (hs : s.selected f.h) (hacq : s.dev.curCol.acquiring s.dev.cur.slot = false)
    (hpatch : s.dev.curCol.patching s.dev.cur.slot = false) :
    let d := s.dev
    let x := vctx d f.h []
    let lo := rangeSrc x.w 1 f.a 0
    let hi := rangeSrc x.w 1 f.a 1
    let p := ptrOf (lane lo.vals 0) (lane hi.vals 0)
    d.partPtr d.curWarp.ctx p = true → ptrOff p % 64 = 0 →
    x.ReadyUni [boundCheck x.regs (dstReg f.d), rangeBound x.regs f.a.reg.toNat 2] [Use.ptr lo, Use.ptr hi] [] →
      glaunchIssue f s = .made (s.glaunchGo (dstReg f.d) (f.sub.getLsbD 0) p) := by
  intro d x lo hi p hpart halign hready
  rw [glaunchIssue, s.whole_of_selected hs]
  exact (VCtx.withUni_of_ready (hready.pointer hpart (beq_iff_eq.mpr halign)) _).trans ((Dev.afterAcquire_of_not hacq _).trans
    (if_neg (ne_true_of_eq_false hpatch)))

end

/-- The registers of a warp past a GLAUNCH whose result is written. -/
theorem Dev.glaunched_hint (d : Dev) (vd : Nat) (t : ReplayTry) (h : BitVec 7) :
    let w := ((d.glaunched vd t).hint h).curWarp
    w.pc = d.cur.pc + (if d.cur.second then 2 else 1) ∧
      (∀ l, l < 32 → w.laneOf vd l = t.word ∧ (w.reg vd).data.pois l = false) ∧ (w.reg vd).fmt = Fmt.ui32 ∧
      ∀ r, r ≠ vd → w.reg r = d.curWarp.reg r := by
  obtain ⟨x, hx⟩ : ∃ x, x = Result.uni t.word false Fmt.ui32 := ⟨_, rfl⟩
  have hval : x.vals = tab (fun _ => t.word) ∧ x.pois = 0 ∧ x.fmt = Fmt.ui32 := by
    rw [hx]
    exact ⟨rfl, rfl, rfl⟩
  have hgood : x.Good := by
    rw [hx]
    exact Result.uni_good _ _ _
  unfold Dev.glaunched
  rw [← hx]
  have hall : Mask.all ≠ 0 := by decide
  have hw : ((d.writeReg vd Mask.all x).advance.hint h).curWarp = _ := (d.writeReg vd Mask.all x).curWarp_advance_hint h
  have hwrite : (d.writeReg vd Mask.all x).curWarp = d.curWarp.write vd Mask.all x false :=
    (Dev.curWarp_modCurCol d _).trans (Column.warp_writeReg _ _ _ _ _ _)
  have hreg (r : Nat) : ((d.writeReg vd Mask.all x).advance.hint h).curWarp.reg r = (d.curWarp.write vd Mask.all x false).reg r := by
    rw [hw, ← hwrite]
    rfl
  refine ⟨?_, fun l hl => ⟨?_, ?_⟩, ?_, fun r hr => ?_⟩
  · rw [hw]
    rfl
  · refine (congrArg (fun v : VReg => v.data.lane l) (hreg vd)).trans ?_
    rw [Warp.write_lane _ _ _ _ _ hgood hl, if_pos (Mask.has_all hl), hval.1]
    exact lane_tab _ hl
  · rw [hreg, Warp.write_pois _ _ _ _ _ hgood hl, if_pos (Mask.has_all hl), hval.2.1]
    exact Mask.has_zero l
  · rw [hreg, Warp.write_fmt d.curWarp vd Mask.all x false hall]
    exact hval.2.2
  · rw [hreg]
    exact Warp.write_reg_ne _ _ _ _ hr

theorem Dev.curWarp_park_hint (d : Dev) (p : Park) (h : BitVec 7) :
    ((d.park p).hint h).curWarp = { d.curWarp with
      park := p, active := false, entered := d.now, stallUntil := ((d.park p).hint h).curWarp.stallUntil,
      yld := ((d.park p).hint h).curWarp.yld } := by
  unfold Dev.hint Dev.park
  rw [Dev.curWarp_modCurWarp, Dev.curWarp_modCurWarp]

/-- The replay that a GLAUNCH asks for. -/
def Dev.glaunchAsk (d : Dev) (p : BitVec 64) : Replay × Dev :=
  d.askReplay d.curWarp.ctx (colOf d.cur.col p) (ptrOff p) none (.warp d.cur.col d.cur.slot)

/-- What a GLAUNCH's try to begin its replay gives. -/
def State.glaunchTry (s : State) (p : BitVec 64) : ReplayTry × State := { s with dev := (s.dev.glaunchAsk p).2 }.tryReplay (s.dev.glaunchAsk p).1

theorem SameTurn.glaunchTry (s : State) (p : BitVec 64) : SameTurn s.dev (s.glaunchTry p).2.dev := by
  have hask : SameTurn s.dev (s.dev.glaunchAsk p).2 := ⟨rfl, rfl, fun _ => rfl⟩
  exact hask.trans (SameTurn.tryReplay { s with dev := (s.dev.glaunchAsk p).2 } (s.dev.glaunchAsk p).1)

section
variable {s : State} {p : BitVec 64} {vd : Nat}

theorem State.glaunchGo_writes {once : Bool} (h : (∃ k, (s.glaunchTry p).1 = .begun k) ∨ ∃ st, (s.glaunchTry p).1 = .bad st) :
    s.glaunchGo vd once p = { (s.glaunchTry p).2 with dev := (s.glaunchTry p).2.dev.glaunched vd (s.glaunchTry p).1 } := by
  unfold State.glaunchTry Dev.glaunchAsk at h ⊢
  unfold State.glaunchGo
  dsimp only at h ⊢
  generalize s.dev.askReplay s.dev.curWarp.ctx (colOf s.dev.cur.col p) (ptrOff p) none (.warp s.dev.cur.col s.dev.cur.slot) = asked at h ⊢
  obtain ⟨x, d⟩ := asked
  dsimp only at h ⊢
  generalize State.tryReplay { s with dev := d } x = r at h ⊢
  obtain ⟨t, v⟩ := r
  dsimp only at h ⊢
  rcases h with ⟨k, rfl⟩ | ⟨st, rfl⟩ <;> rfl

theorem State.glaunchGo_busy (h : (s.glaunchTry p).1 = .busy) (once : Bool) :
    s.glaunchGo vd once p = if once
      then { s with dev := Dev.glaunched { (s.glaunchTry p).2.dev with replays := (s.glaunchTry p).2.dev.replays.del (s.dev.glaunchAsk p).1.id } vd .busy }
      else { s with dev := (s.dev.glaunchAsk p).2.park (.glaunch vd) } := by
  have hstay := State.tryReplay_busy h
  unfold State.glaunchTry Dev.glaunchAsk at h ⊢
  unfold Dev.glaunchAsk at hstay
  unfold State.glaunchGo
  dsimp only at h hstay ⊢
  generalize s.dev.askReplay s.dev.curWarp.ctx (colOf s.dev.cur.col p) (ptrOff p) none (.warp s.dev.cur.col s.dev.cur.slot) = asked at h hstay ⊢
  obtain ⟨x, d⟩ := asked
  dsimp only at h hstay ⊢
  generalize State.tryReplay { s with dev := d } x = r at h hstay ⊢
  obtain ⟨t, v⟩ := r
  dsimp only at h hstay ⊢
  subst h hstay
  rfl

end

/-! ## NMRUN -/

theorem SameWarps.runq {d e : Dev} (h : SameWarps d e) (c : Nat) : (e.col c).hand.runq = (d.col c).hand.runq :=
  (congrArg (fun k : Column => k.hand.runq) (h.cols c) :)

/-- A descriptor enters the run queue of its column's stagehand, counted for the issuing warp. -/
def Dev.nmEnter (d : Dev) (r : RunDesc) : Dev :=
  (d.modHand d.cur.col (fun h => { h with runq := h.runq ++ [r] })).modCurWarp (fun w => { w with copies := w.copies + 1 })

theorem Dev.nmEnter_spec (d : Dev) (r : RunDesc) :
    (d.nmEnter r).curWarp = { d.curWarp with copies := d.curWarp.copies + 1 } ∧ (d.nmEnter r).curCol.hand.runq = d.curCol.hand.runq ++ [r] := by
  have hmod : d.modHand d.cur.col (fun h => { h with runq := h.runq ++ [r] }) =
    d.modCurCol (fun k => { k with hand := { k.hand with runq := k.hand.runq ++ [r] } }) := rfl
  unfold Dev.nmEnter
  rw [Dev.curWarp_modCurWarp, Dev.curCol_modCurWarp, hmod, Dev.curWarp_modCurCol, Dev.curCol_modCurCol]
  exact ⟨rfl, rfl⟩

/-- The descriptor of a stagehand program read from memory. -/
def runDescOf (d : Dev) (bs : List (Byte × Bool)) : RunDesc :=
  let qs := wordsOf (bs.map Prod.fst) 6
  { q := Vector.ofFn (fun i => BitVec.ofNat 64 (qs.getD i.val 0)), owner := .warp d.cur.col d.cur.slot none, ctx := d.curWarp.ctx,
    pois := bs.any Prod.snd }

theorem State.nmrunGo_reads {s : State} {p : BitVec 64} {bs : List (Byte × Bool)} {e : Dev} (hroom : s.dev.curCol.hand.runq.length < 8)
    (hcopies : s.dev.curWarp.copies < 63)
    (hread : s.engineReads s.dev.cur.col s.dev.cur.col s.dev.curWarp.ctx s.dev.cur.priv 3 (ptrOff p) 48 = (.ok bs, e)) :
    s.nmrunGo p = .retire (e.nmEnter (runDescOf s.dev bs)).advance := by
  have hsame := SameWarps.engineReads s.dev.cur.col s.dev.cur.col s.dev.curWarp.ctx s.dev.cur.priv 3 (ptrOff p) 48 s
  rw [hread] at hsame
  have hcur : e.cur = s.dev.cur := hsame.core.turn.cur
  have hno : ¬ (8 ≤ s.dev.curCol.hand.runq.length ∨ 63 ≤ s.dev.curWarp.copies) := by omega
  unfold State.nmrunGo
  dsimp only
  rw [if_neg hno, hread]
  unfold Dev.nmEnter runDescOf
  dsimp only
  rw [hcur]

end Sys2Proof.Machine
end

section
namespace Sys2Proof
open Sys2Proof.Machine

/-- Settles O39. -/
theorem graphAndProgramInstructions : Obligations.GraphAndProgramInstructions := by
  refine ⟨?_, ?_, ?_⟩
  · intro f s d x lo hi p v v0 v1 q rel e cue patch starts hs hpart hacq hroom
    refine ⟨fun halign hready hover => ?_, fun halign hready => ?_⟩
    · have halike := Dev.Alike.afterRelease d rel
      obtain ⟨d', hgo, hin⟩ := cueGo_starts (p := p) (v := lane v.vals 0) halike ((storeRoom_afterRelease d rel 1).trans hroom)
      have hissue : cueIssue f s = _ := (cueIssue_of_checks hs hacq hpart halign hready hover).trans hgo
      have hexec : exec (.cue f) s = s.conclude (.retire (d'.advance.hint f.hint)) := congrArg (fun i : Issue => s.conclude (i.hinted f.hint)) hissue
      have hop : cueOp e p (lane v.vals 0) = cue := by
        unfold cueOp
        rw [halike.cur]
      rw [← hop]
      exact hin.hinted rfl hexec
    · have hin := (Dev.Alike.refl d).storeEntered (s := s) (o := patch) rfl .store d.cur.priv
      have hissue := gpatchIssue_of_checks hs hacq hpart halign hready hroom
      have hexec : exec (.gpatch f) s = _ := congrArg (fun i : Issue => s.conclude (i.hinted f.hint)) hissue
      exact hin.hinted rfl hexec
  · intro f s d x lo hi p vd asked tried writes hs hpart halign hacq hpatch hready
    have hissue := glaunchIssue_of_checks hs hacq hpatch hpart halign hready
    have hexec {v : State} (hv : s.glaunchGo vd (f.sub.getLsbD 0) p = v) :
        exec (.glaunch f) s = .next { v with dev := { v.dev.hint f.hint with issued := .retired } } := by
      rw [← hv]
      exact congrArg (fun i : Issue => s.conclude (i.hinted f.hint)) hissue
    have hwrites {vault : Memory} {e : Dev} {t : ReplayTry} (hturn : SameTurn d e)
        (hv : s.glaunchGo vd (f.sub.getLsbD 0) p = { vault := vault, dev := e.glaunched vd t }) : writes t.word := by
      obtain ⟨hpc, hval, htag, hother⟩ := e.glaunched_hint vd t f.hint
      refine ⟨_, hexec hv, rfl, ?_, hval, htag, fun r hr => ?_⟩
      · exact hpc.trans (by rw [hturn.cur]; rfl)
      · exact (hother r hr).trans (by rw [hturn.curWarp])
    have hturn : SameTurn d (s.glaunchTry p).2.dev := .glaunchTry s p
    refine ⟨fun slot h => ?_, fun st h => ?_, fun h hon => ?_, fun h hoff => ?_⟩
    · have hw := hwrites hturn (State.glaunchGo_writes (.inl ⟨slot, h⟩))
      rw [show (s.glaunchTry p).1 = .begun slot from h] at hw
      exact hw
    · have hw := hwrites hturn (State.glaunchGo_writes (.inr ⟨st, h⟩))
      rw [show (s.glaunchTry p).1 = .bad st from h] at hw
      exact hw
    · exact hwrites (hturn.replays _) ((State.glaunchGo_busy h _).trans (if_pos hon))
    · refine ⟨_, hexec ((State.glaunchGo_busy h _).trans (if_neg (ne_true_of_eq_false hoff))), rfl, rfl, ?_⟩
      exact (s.dev.glaunchAsk p).2.curWarp_park_hint (.glaunch vd) f.hint
  · intro f s bs e d x lo hi p qs hs hown halign hready hacq hroom hcopies hread
    have hsame := SameWarps.engineReads s.dev.cur.col s.dev.cur.col s.dev.curWarp.ctx s.dev.cur.priv 3 (ptrOff p) 48 s
    rw [hread] at hsame
    have hturn := hsame.core.turn
    obtain ⟨hwarp, hrunq⟩ := e.nmEnter_spec (runDescOf s.dev bs)
    have hissue : nmrunIssue f s = .retire (e.nmEnter (runDescOf s.dev bs)).advance := by
      rw [nmrunIssue, s.whole_of_selected hs]
      exact (VCtx.withUni_of_ready (hready.pointer hown (beq_iff_eq.mpr halign)) _).trans ((Dev.afterAcquire_of_not hacq _).trans
        (State.nmrunGo_reads hroom hcopies hread))
    have hexec : exec (.nmrun f) s = s.conclude (.retire ((e.nmEnter (runDescOf s.dev bs)).advance.hint f.hint)) :=
      congrArg (fun i : Issue => s.conclude (i.hinted f.hint)) hissue
    have hw : ({ (e.nmEnter (runDescOf s.dev bs)).advance.hint f.hint with issued := .retired } : Dev).curWarp = _ := Dev.curWarp_advance_hint _ _
    have hc : ({ (e.nmEnter (runDescOf s.dev bs)).advance.hint f.hint with issued := .retired } : Dev).curCol = _ := Dev.curCol_advance_hint _ _
    refine ⟨_, hexec, .of_advance_hint f.hint hturn.cur ?_ ?_, ?_, ?_⟩
    · rw [hwarp, hturn.curWarp]
    · rw [hwarp, hturn.curWarp]
    · rw [hw, hwarp, hturn.curWarp]
    · rw [hc]
      refine hrunq.trans ?_
      rw [Dev.curCol, hturn.cur, hsame.runq]
      rfl

end Sys2Proof
end

section
/-! Proofs about the bytes that a write at the home slices leaves (R204, R209, R223, R258): memories of canonical form, and the words that a
stagehand's row operation keeps. -/

namespace Sys2Proof.Machine

/-! ## Memories of canonical form -/

/-- Bytes read back where they have been written. -/
theorem Memory.bytes_write {m : Memory} (h : m.wf = true) (a : Nat) (bs : List Byte) : (m.write a bs).bytes a bs.length = bs := by
  have hread (n : Nat) (q : Memory) (b : Nat) : q.bytes b n = (List.range n).map (fun i => q.byte (b + i)) := by
    induction n generalizing b with
    | zero => rfl
    | succ n ih =>
      rw [Memory.bytes, ih, List.range_succ_eq_map, List.map_cons, List.map_map]
      refine congrArg₂ List.cons rfl (List.map_congr_left fun i _ => ?_)
      simp only [Function.comp]
      rw [show b + 1 + i = b + (i + 1) by omega]
  rw [hread]
  refine List.ext_getElem (by simp) fun i hi hi' => ?_
  simp only [List.getElem_map, List.getElem_range]
  rw [Memory.byte_write h, if_pos ⟨by omega, by omega⟩, Nat.add_sub_cancel_left]
  exact List.getD_eq_getElem _ _ _

theorem numOf_bytesOf (n x : Nat) : numOf (bytesOf n x) = x % 256 ^ n := by
  induction n generalizing x with
  | zero =>
    rw [Nat.pow_zero, Nat.mod_one]
    rfl
  | succ n ih =>
    rw [bytesOf, numOf, ih, BitVec.toNat_ofNat, show 256 ^ (n + 1) = 256 * 256 ^ n from Nat.pow_succ']
    exact Nat.mod_mul.symm

theorem length_bytesOf (n x : Nat) : (bytesOf n x).length = n := by
  induction n generalizing x with
  | zero => rfl
  | succ n ih => rw [bytesOf, List.length_cons, ih]

/-- A word read back where it has been written. -/
theorem Memory.num_write_word {m : Memory} (h : m.wf = true) (a : Nat) (v : Word) : BitVec.ofNat 32 ((m.write a (bytesOf 4 v.toNat)).num a 4) = v := by
  have hbytes := Memory.bytes_write h a (bytesOf 4 v.toNat)
  rw [length_bytesOf] at hbytes
  rw [Memory.num, hbytes, numOf_bytesOf]
  exact BitVec.eq_of_toNat_eq ((BitVec.toNat_ofNat _ _).trans ((Nat.mod_mod _ _).trans (Nat.mod_eq_of_lt v.isLt)))

/-! ## The words that a row operation keeps -/

/-- The words that the stagehand of a column keeps while it writes them (R380). -/
def Dev.oldsAt (d : Dev) (c : Nat) : List HandWord := (d.col c).hand.banks.olds

/-- No column's kept words differ between two devices. -/
def SameOlds (d e : Dev) : Prop := ∀ c, e.oldsAt c = d.oldsAt c

theorem SameOlds.refl (d : Dev) : SameOlds d d := fun _ => rfl
theorem SameOlds.trans {d e g : Dev} (h : SameOlds d e) (k : SameOlds e g) : SameOlds d g := fun c => (k c).trans (h c)

theorem SameOlds.of_cols {d e : Dev} (h : e.cols = d.cols) : SameOlds d e := fun c => by
  unfold Dev.oldsAt Dev.col
  rw [h]

theorem SameOlds.modCol (d : Dev) (c : Nat) (f : Column → Column) (h : (f (d.col c)).hand.banks.olds = (d.col c).hand.banks.olds) :
    SameOlds d (d.modCol c f) := by
  intro e
  unfold Dev.oldsAt
  by_cases he : e = c
  · subst he
    rw [Dev.col_modCol, h]
  · rw [Dev.col_modCol_ne _ _ _ he]

theorem SameOlds.foldl {α : Type} (f : Dev → α → Dev) (h : ∀ d x, SameOlds d (f d x)) (l : List α) (d : Dev) : SameOlds d (l.foldl f d) := by
  induction l generalizing d with
  | nil => exact .refl d
  | cons x l ih => exact (h d x).trans (ih _)

/-- What is read of a choice is what is read of both. -/
theorem proj_ite {α β : Type} (f : α → β) {p : Prop} [Decidable p] {a b : α} {c : β} (ha : f a = c) (hb : f b = c) : f (if p then a else b) = c := by
  split
  · exact ha
  · exact hb

theorem BankTimes.olds_request (b : BankTimes) (now bank : Nat) : (b.request now bank).olds = b.olds := by
  unfold BankTimes.request
  cases b.run with
  | none => rfl
  | some r =>
    dsimp only
    split <;> rfl

theorem Hand.olds_resume (h : Hand) (now : Nat) (wanted : Bool) : (h.resume now wanted).banks.olds = h.banks.olds := by
  unfold Hand.resume
  cases h.banks.run with
  | none => rfl
  | some r =>
    dsimp only
    cases h.banks.windows.get? r.bank with
    | none => rfl
    | some t =>
      refine proj_ite (fun h : Hand => h.banks.olds) rfl (proj_ite (fun h : Hand => h.banks.olds) rfl ?_)
      exact BankTimes.olds_request _ _ _

theorem Hand.olds_ordinary (h : Hand) (now bank : Nat) : (h.ordinary now bank).banks.olds = h.banks.olds := by
  unfold Hand.ordinary
  cases h.banks.run with
  | none => exact BankTimes.olds_request _ _ _
  | some r =>
    dsimp only
    split
    · exact (BankTimes.olds_request _ _ _).trans (Hand.olds_resume _ _ _)
    · exact BankTimes.olds_request _ _ _

theorem Column.hand_l2Evict (k : Column) (sb : Nat) : (k.l2Evict sb).hand = k.hand := by
  unfold Column.l2Evict
  split <;> rfl

theorem Column.hand_l2Repack (sb n : Nat) (k : Column) : (Column.l2Repack sb n k).hand = k.hand := by
  induction n generalizing k with
  | zero => rfl
  | succ n ih =>
    unfold Column.l2Repack
    cases k.l2Tag sb with
    | none => rfl
    | some t =>
      dsimp only
      split
      · rfl
      · cases k.l2Victim sb false with
        | none => rfl
        | some v => exact (ih _).trans (Column.hand_l2Evict _ _)

theorem Column.hand_l2Change (k : Column) (va : Nat) (f : L2Line → L2Line) : (k.l2Change va f).hand = k.hand := Column.hand_l2Repack _ _ _

theorem Column.hand_l2Enter (k : Column) (va : Nat) (l : L2Line) (last : Bool) : (k.l2Enter va l last).hand = k.hand := by
  unfold Column.l2Enter
  refine (Column.hand_l2Repack _ _ _).trans ?_
  dsimp only
  split
  · cases k.l2Victim (va / 512) true with
    | none => rfl
    | some v => exact Column.hand_l2Evict _ _
  · rfl

theorem Column.hand_l2Use (k : Column) (va : Nat) : (k.l2Use va).hand = k.hand := by
  unfold Column.l2Use
  cases k.l2Tag (va / 512) <;> rfl

theorem Column.hand_l2Zc (k : Column) (va : Nat) (zc : Bool) : (k.l2Zc va zc).hand = k.hand := by
  unfold Column.l2Zc
  split
  · rfl
  · exact Column.hand_l2Change _ _ _

theorem SameOlds.bankShut (d : Dev) (c va : Nat) : SameOlds d (d.bankShut c va) := .modCol d c _ (Hand.olds_ordinary _ _ _)

theorem Dev.cols_corrected (d : Dev) (c va : Nat) : (d.corrected c va).cols = d.cols := by
  have hreach (d : Dev) (col : Option Nat) (die unit block n old new : Nat) : (d.reaches col die unit block n old new).cols = d.cols := by
    unfold Dev.reaches
    split <;> rfl
  unfold Dev.corrected
  exact (hreach _ _ _ _ _ _ _ _).trans ((hreach _ _ _ _ _ _ _ _).trans (hreach _ _ _ _ _ _ _ _))

theorem SameOlds.bankRead (d : Dev) (c va : Nat) : SameOlds d (d.bankRead c va) := by
  refine .of_cols ?_
  unfold Dev.bankRead
  dsimp only
  generalize d.inject.find? (fun x => x.1 == vkey c va / 32) = r
  cases r with
  | none => rfl
  | some x =>
    obtain ⟨key, ce⟩ := x
    cases ce
    · rfl
    · exact Dev.cols_corrected _ _ _

theorem SameOlds.controllerReads (d : Dev) (c : Nat) (secs : List Nat) : SameOlds d (d.controllerReads c secs) := by
  cases secs with
  | nil => exact .refl d
  | cons a secs => exact (SameOlds.bankShut d c a).trans (.foldl _ (fun d x => .bankRead d c x) _ _)

theorem SameOlds.l2Bring (s : State) (c va : Nat) (zc last : Bool) (secs : List Nat) : SameOlds s.dev (s.l2Bring c va zc last secs) := by
  unfold State.l2Bring
  dsimp only
  split
  · exact .modCol _ _ _ rfl
  · exact (SameOlds.controllerReads _ _ _).trans (.modCol _ _ _ (congrArg (fun h : Hand => h.banks.olds) (Column.hand_l2Enter _ _ _ _)))

theorem SameOlds.l2Hit (d : Dev) (c va : Nat) (zc : Bool) : SameOlds d (d.modCol c (fun k => (k.l2Use va).l2Zc va zc)) :=
  .modCol _ _ _ (congrArg (fun h : Hand => h.banks.olds) ((Column.hand_l2Zc _ _ _).trans (Column.hand_l2Use _ _)))

theorem SameOlds.homeRead (s : State) (c va pol : Nat) (zc : Bool) (lease : Option Nat) (secs : List Nat) :
    SameOlds s.dev (s.homeRead c va pol zc lease secs).1 := by
  have hline (q : Bool) (secs : List Nat) : SameOlds s.dev (if q then s.l2Bring c va zc (pol == 2) secs
      else s.dev.modCol c (fun k => (k.l2Use va).l2Zc va zc)) := by
    cases q
    · exact .l2Hit _ _ _ _
    · exact .l2Bring _ _ _ _ _ _
  unfold State.homeRead
  dsimp only
  split
  · exact .controllerReads _ _ _
  · have hd := hline (!(s.dev.col c).l2Valid va) (lineSectors va)
    revert hd
    generalize (if (!(s.dev.col c).l2Valid va) = true then _ else _ : Dev) = d
    intro hd
    split
    · dsimp only
      split
      · exact hd.trans (.controllerReads _ _ _)
      · exact hd
    · cases lease with
      | none => exact hd
      | some n =>
        dsimp only
        split
        · exact hd
        · exact hd.trans (.modCol _ _ _ rfl)

theorem SameOlds.homeWrite (s : State) (c va pol : Nat) (zc stable : Bool) (whole : List Nat) :
    SameOlds s.dev (s.homeWrite c va pol zc stable whole).1 := by
  have hline (q : Bool) (secs : List Nat) : SameOlds s.dev (if q then s.l2Bring c va zc (pol == 2) secs
      else s.dev.modCol c (fun k => (k.l2Use va).l2Zc va zc)) := by
    cases q
    · exact .l2Hit _ _ _ _
    · exact .l2Bring _ _ _ _ _ _
  unfold State.homeWrite
  dsimp only
  split
  · exact .bankShut _ _ _
  · have hd := hline (!(s.dev.col c).l2Valid va) ((lineSectors va).filter (fun a => !whole.contains a))
    revert hd
    generalize (if (!(s.dev.col c).l2Valid va) = true then _ else _ : Dev) = d
    intro hd
    split
    · exact hd.trans (.bankShut _ _ _)
    · exact hd.trans (.modCol _ _ _ rfl)

theorem SameOlds.writeLinesAt (s : State) (ls : List LaneAcc) (xs : List (Nat × Nat)) : SameOlds s.dev (s.writeLinesAt ls xs).1 := by
  induction xs generalizing s with
  | nil => exact .refl _
  | cons x xs ih =>
    unfold State.writeLinesAt
    dsimp only
    generalize ls.filter (fun a => a.tcol == x.1 && a.sectors.any (fun y => y.2 / 128 == x.2)) = mine
    cases mine with
    | nil => exact ih s
    | cons a mine => exact (SameOlds.homeWrite s _ _ _ _ _ _).trans (ih { s with dev := _ })

theorem SameOlds.poisonSectors (d : Dev) (ls : List LaneAcc) : SameOlds d (d.poisonSectors ls) := by
  refine SameOlds.foldl _ (fun d x => ?_) _ d
  dsimp only
  cases ls.find? (fun a => a.sectors.contains x) with
  | none => exact .refl _
  | some a => exact .of_cols rfl

/-! ## One lane's bytes -/

theorem SameOlds.keepOld (s : State) (c va : Nat) (bs : List Byte) : SameOlds s.dev (s.keepOld c va bs) := by
  have hptes : SameOlds s.dev (s.keepPtes c va bs) := by
    unfold State.keepPtes
    dsimp only
    split
    · exact .refl _
    · exact .modCol _ _ _ rfl
  refine hptes.trans ?_
  unfold State.keepOld State.keepPast
  dsimp only
  split
  · exact .refl _
  · exact .modCol _ _ _ rfl

theorem SameOlds.l2Written (s : State) (c va : Nat) : SameOlds s.dev (s.l2Written c va) := by
  unfold State.l2Written
  dsimp only
  split
  · exact .refl _
  · refine .modCol _ _ _ ?_
    generalize Option.any _ _ = same
    cases same
    · exact congrArg (fun h : Hand => h.banks.olds) (Column.hand_l2Change _ _ _)
    · rfl

/-- A piece of a lane's bytes is written as it stands in a column whose stagehand writes no word. -/
theorem State.putPiece_quiet {s : State} {c : Nat} (h : s.dev.oldsAt c = []) (va : Nat) (bs : List Byte) :
    (s.putPiece c va bs).vault = s.vault.write (vkey c va) bs ∧ SameOlds s.dev (s.putPiece c va bs).dev := by
  unfold State.putPiece
  cases bs with
  | nil => exact ⟨rfl, .refl _⟩
  | cons b bs =>
    have hraced : s.raced c va (b :: bs) = (b :: bs, s.dev) := by
      unfold State.raced
      exact if_pos (by rw [show (s.dev.col c).hand.banks.olds = [] from h]; rfl)
    rw [hraced]
    refine ⟨rfl, ?_⟩
    have hkeep := SameOlds.keepOld s c va (b :: bs)
    let t : State := { vault := s.vault.write (vkey c va) (b :: bs), dev := s.keepOld c va (b :: bs) }
    exact (hkeep.trans (SameOlds.l2Written t c va)).trans (.modCol (t.l2Written c va) c _ rfl)

/-- What a lane writes of a memory. -/
def Memory.putLane (m : Memory) (a : LaneAcc) (bs : List Byte) : Memory :=
  (m.write (vkey a.tcol a.va) (bs.take a.cut)).write (vkey a.tcol a.va2) (bs.drop a.cut)

theorem State.putLane_quiet {s : State} {a : LaneAcc} (h : s.dev.oldsAt a.tcol = []) (bs : List Byte) :
    (s.putLane a bs).vault = s.vault.putLane a bs ∧ SameOlds s.dev (s.putLane a bs).dev := by
  obtain ⟨hv, ho⟩ := State.putPiece_quiet h a.va (bs.take a.cut)
  obtain ⟨hv2, ho2⟩ := State.putPiece_quiet ((ho a.tcol).trans h) a.va2 (bs.drop a.cut)
  rw [State.putLane_eq]
  refine ⟨hv2.trans ?_, ho.trans ho2⟩
  rw [hv]
  rfl

theorem Memory.wf_putLane {m : Memory} (h : m.wf = true) (a : LaneAcc) (bs : List Byte) : (m.putLane a bs).wf = true :=
  Memory.wf_write (Memory.wf_write h _ _) _ _

theorem Memory.byte_putLane {m : Memory} (h : m.wf = true) {a : LaneAcc} {bs : List Byte} {k : Nat} (h1 : k < vkey a.tcol a.va ∨ vkey a.tcol a.va + a.cut ≤ k)
    (h2 : k < vkey a.tcol a.va2 ∨ vkey a.tcol a.va2 + (bs.length - a.cut) ≤ k) : (m.putLane a bs).byte k = m.byte k := by
  rw [Memory.putLane, Memory.byte_write (Memory.wf_write h _ _), Memory.byte_write h, if_neg, if_neg]
  · rw [List.length_take]
    omega
  · rw [List.length_drop]
    omega

/-! ## Atomics -/

/-- A word written by a lane whose bytes lie in its first piece. -/
theorem Memory.putLane_word (m : Memory) {a : LaneAcc} (h : 4 ≤ a.cut) (v : Word) :
    m.putLane a (bytesOf 4 v.toNat) = m.write (vkey a.tcol a.va) (bytesOf 4 v.toNat) := by
  have hlen : (bytesOf 4 v.toNat).length ≤ a.cut := by
    rw [length_bytesOf]
    exact h
  rw [Memory.putLane, List.take_of_length_le hlen, List.drop_of_length_le hlen]
  rfl

section
variable {s : State} {a : LaneAcc} {aop ty : BitVec 5} {rm : BitVec 2}

/-- What an atomic's lane gives in a column whose stagehand writes no word: the word before it, and whether it writes. -/
theorem State.atomLane_writes {v : Word} (h : s.dev.oldsAt a.tcol = [])
    (hv : atomNew aop ty rm (BitVec.ofNat 32 (s.vault.num (vkey a.tcol a.va) 4)) (a.data.getD 0 0) (a.data.getD 1 0) = some v) :
    s.atomLane aop ty rm a =
      (({ s with dev := s.dev.setPois (vkey a.tcol a.va) (s.dev.poisoned (vkey a.tcol a.va) || a.pois.any id) } : State).putLane a (bytesOf 4 v.toNat),
        BitVec.ofNat 32 (s.vault.num (vkey a.tcol a.va) 4), s.dev.poisoned (vkey a.tcol a.va), true) := by
  have hempty : (s.dev.col a.tcol).hand.banks.olds.isEmpty = true := List.isEmpty_iff.mpr h
  have hseen : s.seen a.tcol s.dev.free a.va 4 = s.vault.bytes (vkey a.tcol a.va) 4 := if_pos hempty
  unfold State.atomLane
  rw [hseen, if_pos hempty]
  dsimp only
  rw [show BitVec.ofNat 32 (numOf (s.vault.bytes (vkey a.tcol a.va) 4)) = BitVec.ofNat 32 (s.vault.num (vkey a.tcol a.va) 4) from rfl, hv]

theorem State.atomLane_reads (h : s.dev.oldsAt a.tcol = [])
    (hv : atomNew aop ty rm (BitVec.ofNat 32 (s.vault.num (vkey a.tcol a.va) 4)) (a.data.getD 0 0) (a.data.getD 1 0) = none) :
    s.atomLane aop ty rm a = (s, BitVec.ofNat 32 (s.vault.num (vkey a.tcol a.va) 4), s.dev.poisoned (vkey a.tcol a.va), false) := by
  have hempty : (s.dev.col a.tcol).hand.banks.olds.isEmpty = true := List.isEmpty_iff.mpr h
  have hseen : s.seen a.tcol s.dev.free a.va 4 = s.vault.bytes (vkey a.tcol a.va) 4 := if_pos hempty
  unfold State.atomLane
  rw [hseen, if_pos hempty]
  dsimp only
  rw [show BitVec.ofNat 32 (numOf (s.vault.bytes (vkey a.tcol a.va) 4)) = BitVec.ofNat 32 (s.vault.num (vkey a.tcol a.va) 4) from rfl, hv]

end

/-! ## Stores -/

theorem State.ownWrite_frame (s : State) (c : Nat) (o : MemOp) (a : LaneAcc) (bs : List Byte) :
    (s.ownWrite c o a bs).vault = s.vault ∧ SameOlds s.dev (s.ownWrite c o a bs).dev := by
  unfold State.ownWrite
  split
  · exact ⟨rfl, .modCol _ _ _ rfl⟩
  · exact ⟨rfl, .refl _⟩

/-- A lane of a store without a value-range rule, performed in a column whose stagehand writes no word. -/
theorem State.storeLane_quiet {s : State} {a : LaneAcc} (h : s.dev.oldsAt a.tcol = []) (hr : a.rng = none) (c : Nat) (o : MemOp) :
    (s.storeLane c o a).vault = s.vault.putLane a (o.pieceBytes a).1 ∧ SameOlds s.dev (s.storeLane c o a).dev := by
  have hstore : s.storeLane c o a = (s.putLane a (o.pieceBytes a).1).ownWrite c o a (o.pieceBytes a).1 := by
    unfold State.storeLane State.rangeEffect
    rw [hr]
  obtain ⟨hv, ho⟩ := State.putLane_quiet h (o.pieceBytes a).1
  obtain ⟨hv2, ho2⟩ := (s.putLane a (o.pieceBytes a).1).ownWrite_frame c o a (o.pieceBytes a).1
  rw [hstore]
  exact ⟨hv2.trans hv, ho.trans ho2⟩

/-- The lanes of a store performed in order. -/
theorem State.storeLanes_quiet (c : Nat) (o : MemOp) (ls : List LaneAcc) {s : State} (h : ∀ a ∈ ls, a.rng = none ∧ s.dev.oldsAt a.tcol = []) :
    (ls.foldl (fun s a => s.storeLane c o a) s).vault = ls.foldl (fun m a => m.putLane a (o.pieceBytes a).1) s.vault := by
  induction ls generalizing s with
  | nil => rfl
  | cons a ls ih =>
    obtain ⟨hr, ho⟩ := h a List.mem_cons_self
    obtain ⟨hv, hs⟩ := State.storeLane_quiet ho hr c o
    rw [List.foldl_cons, List.foldl_cons, ← hv]
    exact ih fun b hb => ⟨(h b (List.mem_cons_of_mem _ hb)).1, (hs _).trans (h b (List.mem_cons_of_mem _ hb)).2⟩

theorem MemOp.pieceBytes_plain {o : MemOp} (hkind : o.kind = .store ∨ o.kind = .ustore) {a : LaneAcc} (hr : a.rng = none) :
    (o.pieceBytes a).1 = (match a.part with
      | none => storeBytes o.size (o.obj != 0 && fp6 o.fmt) a.data
      | some p => ((storeBytes o.size (o.obj != 0 && fp6 o.fmt) a.data).drop p).take a.size) := by
  have hsix : o.six = (o.obj != 0 && fp6 o.fmt) := by
    unfold MemOp.six
    rcases hkind with h | h <;>
    · rw [h]
      exact Bool.and_true _
  have hwords : rangeWords a.rng a.data a.pois = (a.data, 0, 0) := by
    rw [hr]
    rfl
  unfold MemOp.pieceBytes
  rw [hwords, hsix]
  cases a.part <;> rfl

/-- The bytes of memory after a request of a store has been performed. -/
theorem State.storeReq_vault {s : State} {c : Nat} {o : MemOp} (hkind : o.kind = .store ∨ o.kind = .ustore) {req : Nat}
    (h : ∀ a ∈ o.lanes.filter (fun a => a.req == req), a.rng = none ∧ s.dev.oldsAt a.tcol = [])
    (hov : (s.dev.col c).overtakes o (o.lanes.filter (fun a => a.req == req)) = false)
    (hbe : (s.dev.col c).behind s.dev.now o (o.lanes.filter (fun a => a.req == req)) = false) :
    (s.storeReq c o req).vault = (o.lanes.filter (fun a => a.req == req)).foldl (fun m a => m.putLane a (o.pieceBytes a).1) s.vault := by
  generalize hls : o.lanes.filter (fun a => a.req == req) = ls at h hov hbe ⊢
  have hperform : (s.perform c o ls).1.vault = ls.foldl (fun m a => m.putLane a (o.pieceBytes a).1) s.vault := by
    let written : State := ({ s with dev := s.dev.poisonSectors ls } : State).ahead (ls.map (fun a => (a, (o.pieceBytes a).1)))
    have hsame : SameOlds s.dev (written.writeLines ls).1 := (SameOlds.poisonSectors s.dev ls).trans (SameOlds.writeLinesAt written ls _)
    have hlanes := State.storeLanes_quiet c o ls (s := { s with dev := (written.writeLines ls).1 }) fun a ha => ⟨(h a ha).1, (hsame _).trans (h a ha).2⟩
    unfold State.perform
    rcases hkind with hk | hk <;>
    · rw [hk]
      exact hlanes
  have hnot : o.kind ≠ .gpatch := by
    rcases hkind with hk | hk <;> rw [hk] <;> exact fun h => nomatch h
  unfold State.storeReq
  rw [hls]
  dsimp only
  rw [hov, hbe, if_neg hnot, Bool.or_false, Bool.or_false]
  cases ls with
  | nil => rfl
  | cons a ls =>
    rw [if_neg (by simp)]
    refine Eq.trans ?_ hperform
    dsimp only
    generalize s.perform c o (a :: ls) = r
    obtain ⟨t, n, ws⟩ := r
    dsimp only
    cases (t.dev.col c).op? o.id <;> rfl

theorem Memory.foldl_putLane_byte {k : Nat} (g : LaneAcc → List Byte) (ls : List LaneAcc) {m : Memory} (hm : m.wf = true)
    (h : ∀ a ∈ ls, (k < vkey a.tcol a.va ∨ vkey a.tcol a.va + a.cut ≤ k) ∧
      (k < vkey a.tcol a.va2 ∨ vkey a.tcol a.va2 + ((g a).length - a.cut) ≤ k)) :
    (ls.foldl (fun m a => m.putLane a (g a)) m).byte k = m.byte k := by
  induction ls generalizing m with
  | nil => rfl
  | cons a ls ih =>
    obtain ⟨h1, h2⟩ := h a List.mem_cons_self
    exact (ih (Memory.wf_putLane hm a (g a)) fun b hb => h b (List.mem_cons_of_mem _ hb)).trans (Memory.byte_putLane hm h1 h2)

end Sys2Proof.Machine
end

section
namespace Sys2Proof
open Sys2Proof.Machine

/-- Settles O27. -/
theorem atomicLanePerformed : Obligations.AtomicLanePerformed := by
  intro s aop ty rm a key old got hinv hcut holds
  cases hnew : atomNew aop ty rm old (a.data.getD 0 0) (a.data.getD 1 0) with
  | none =>
    have hgot : got = _ := State.atomLane_reads holds hnew
    rw [hgot]
    exact ⟨rfl, rfl, fun _ h => (nomatch h), fun _ => rfl, fun _ _ => rfl⟩
  | some v =>
    have hgot : got = _ := State.atomLane_writes holds hnew
    have hvault : got.1.vault = s.vault.write key (bytesOf 4 v.toNat) := by
      rw [hgot]
      refine (State.putLane_quiet (s := { s with dev := s.dev.setPois key (s.dev.poisoned key || a.pois.any id) }) holds _).1.trans ?_
      exact Memory.putLane_word _ hcut v
    refine ⟨by rw [hgot], by rw [hgot]; rfl, fun w hw => ?_, fun h => (nomatch h), fun k hk => ?_⟩
    · obtain rfl := Option.some.inj hw
      rw [hvault]
      exact Memory.num_write_word hinv key v
    · rw [hvault, Memory.byte_write hinv, if_neg]
      rw [length_bytesOf]
      omega

/-- Settles O23. -/
theorem storePerformedWrites : Obligations.StorePerformedWrites := by
  intro col op req s o ls all bytes hinv hop hkind hls hov hbe
  have hexec : exec (.storePerformed col op req) s = .next (s.storeReq col o req) := by
    change execStorePerformed col op req s = _
    unfold execStorePerformed
    rw [hop]
    rcases hkind with hk | hk <;>
    · dsimp only
      rw [hk]
  have hbytes (a : LaneAcc) (ha : a ∈ ls) : (o.pieceBytes a).1 = bytes a := (MemOp.pieceBytes_plain hkind (hls a ha).1).trans rfl
  have hvault : (s.storeReq col o req).vault = ls.foldl (fun m a => m.putLane a (bytes a)) s.vault := by
    rw [State.storeReq_vault hkind hls hov hbe]
    exact List.foldl_ext _ _ _ fun m a ha => by rw [hbytes a ha]
  refine ⟨_, hexec, hvault, fun k hk => ?_⟩
  rw [hvault]
  exact Memory.foldl_putLane_byte bytes ls hinv hk

end Sys2Proof
end

section
/-! Proofs about the fabric ports and the host's accesses (R385-R389, R463): what a port's events change, and the bytes that the host reads and
writes. -/

namespace Sys2Proof.Machine

/-! ## Ports -/

theorem Dev.port_modPort (d : Dev) (i : Nat) (f : Port → Port) : (d.modPort i f).port i = f (d.port i) := by
  exact (Table.getD_set _ _ _ _ _).trans (if_pos rfl)

theorem SameWarps.ports {d e : Dev} (h : SameWarps d e) : e.ports = d.ports := (congrArg Dev.ports h.dev :)
theorem SameWarps.ready {d e : Dev} (h : SameWarps d e) : e.ready = d.ready := (congrArg Dev.ready h.dev :)
theorem SameCore.replies {d e : Dev} (h : SameCore d e) : e.replies = d.replies := (congrArg Dev.replies h.dev :)
theorem SameCore.acks {d e : Dev} (h : SameCore d e) : e.acks = d.acks := (congrArg Dev.acks h.dev :)
theorem SameCore.now {d e : Dev} (h : SameCore d e) : e.now = d.now := (congrArg Dev.now h.dev :)

theorem SameWarps.port {d e : Dev} (h : SameWarps d e) (i : Nat) : e.port i = d.port i := by
  unfold Dev.port
  rw [h.ports]

theorem SameWarps.foldl {α : Type} (f : Dev → α → Dev) (h : ∀ d x, SameWarps d (f d x)) (l : List α) (d : Dev) : SameWarps d (l.foldl f d) := by
  induction l generalizing d with
  | nil => exact .refl d
  | cons x l ih => exact (h d x).trans (ih _)

/-- A port's lanes with the margins of a training. -/
def Port.measured (p : Port) (margins : List Nat) : Port :=
  { p with lanes := Vector.ofFn (fun k => { p.lanes[k] with margin := min (margins.getD k.val 0) 255 }) }

theorem Dev.trained_spec (d : Dev) (i : Nat) (margins : List Nat) :
    (d.trained i margins).port i = (d.port i).measured margins ∧ (d.trained i margins).ready = d.ready := by
  have hsame : SameWarps (d.modPort i (fun p => p.measured margins)) (d.trained i margins) :=
    SameWarps.foldl _ (fun d l => SameWarps.record d 0 _) _ _
  exact ⟨(hsame.port i).trans (d.port_modPort i _), hsame.ready⟩

theorem Port.measured_lane (p : Port) (margins : List Nat) (l : Fin 8) :
    (p.measured margins).lanes[l] = { p.lanes[l] with margin := min (margins.getD l 0) 255 } := by
  unfold Port.measured
  simp

/-- What a port has received and been promised. -/
def Port.received (p : Port) : List Flit × BitVec 16 × Nat := (p.delivered, p.rxSeq, p.credits)

theorem Port.received_drain (q : List (BitVec 8 × List Byte)) (p : Port) : (p.drain q).received = p.received := by
  induction q generalizing p with
  | nil => rfl
  | cons x q ih =>
    unfold Port.drain
    split
    · rfl
    · exact (ih _).trans rfl

theorem Port.received_acked (p : Port) (ack : BitVec 16) : (p.acked ack).received = p.received := by
  unfold Port.acked
  split
  · exact Port.received_drain _ _
  · rfl

/-- A flit that carries a transaction is delivered. -/
theorem Port.take_spec {p : Port} {f : Flit} (h : f.typ = 1 ∨ f.typ = 2) (now : Nat) :
    (p.take now f).delivered = p.delivered ++ [f] ∧ (p.take now f).rxSeq = f.fseq ∧ (p.take now f).retryReq = false ∧
      (p.take now f).credits = p.credits + f.cred.toNat := by
  have hack := p.received_acked f.ack
  have hdel : (p.acked f.ack).delivered = p.delivered := (congrArg Prod.fst hack :)
  have hcred : (p.acked f.ack).credits = p.credits := (congrArg (fun x => x.2.2) hack :)
  have hnot : ¬ f.typ = 3 := by
    rcases h with h | h <;> rw [h] <;> decide
  unfold Port.take
  dsimp only
  rw [if_neg hnot, if_pos h, hdel, hcred]
  exact ⟨rfl, rfl, rfl, rfl⟩

theorem Port.received_put (p : Port) (typ : BitVec 8) (pay : List Byte) : (p.put typ pay).received = p.received := by
  unfold Port.put
  split <;> rfl

theorem Port.put_sent {p : Port} (h : p.buffer.length < 512) (hq : p.queue = []) (typ : BitVec 8) (pay : List Byte) :
    (p.put typ pay).sent = p.sent ++ [p.nextFlit typ pay] := by
  have hroom : ¬ (512 ≤ p.buffer.length ∨ p.queue ≠ []) := by
    rintro (h' | h')
    · omega
    · exact h' hq
  unfold Port.put
  rw [if_neg hroom]
  rfl

/-- A dropped flit is answered by a retry request. -/
theorem Dev.dropFlit_spec (d : Dev) (i : Nat) :
    let q := (d.dropFlit i).port i
    q.received = (d.port i).received ∧ q.retryReq = true ∧ q.sent = ((d.port i).put 3 []).sent := by
  intro q
  let l := (Config.freeWord d.free).toNat % 8
  let old := ((d.port i).lanes.toList.getD l { margin := 0, retry := 0, corr := 0 }).retry
  have hsame : SameWarps (({ d with free := d.free + 1 } : Dev).modPort i (fun p => { (p.put 3 []).fails d.now with
      retryReq := true, lanes := Vector.ofFn (fun k => if k.val = l then { p.lanes[k] with retry := satNext old 16 } else p.lanes[k]) })) (d.dropFlit i) :=
    SameWarps.reaches _ _ _ _ _ _ _ _
  have hport := (hsame.port i).trans (Dev.port_modPort _ _ _)
  have hq : q = _ := hport
  rw [hq]
  exact ⟨Port.received_put _ _ _, rfl, rfl⟩

/-- A retry sends what is kept once more. -/
theorem Port.retry_spec (p : Port) (now : Nat) (ack : BitVec 16) :
    (p.retry now ack).sent = (p.acked ack).sent ++ (p.acked ack).buffer ∧ (p.retry now ack).buffer = (p.acked ack).buffer := by
  unfold Port.retry
  dsimp only
  split
  · next h =>
    rw [List.isEmpty_iff.mp h, List.append_nil]
    exact ⟨rfl, rfl⟩
  · exact ⟨rfl, rfl⟩

theorem Dev.send_replies (d : Dev) (r : Reply) (typ : BitVec 8) : (d.send r typ).replies = d.replies ++ [r] := by
  unfold Dev.send
  dsimp only
  generalize ({ d with replies := d.replies ++ [r] } : Dev).route = i
  cases i <;> rfl

/-! ## Fabric addresses -/

theorem not_and_decide {b : Bool} {p : Prop} [Decidable p] (h : ¬ p) : ¬ (b && decide p) = true := by
  rw [decide_eq_false h, Bool.and_false]
  exact Bool.false_ne_true

theorem fabricPlace_column {c off n : Nat} (hc : c < 1024) (hoff : off < 2 ^ 44) :
    fabricPlace (0x40000000000000 + c * 2 ^ 44 + off) n = if off + n ≤ 2 ^ 44 then some (.column c off) else none := by
  have hcol : (0x40000000000000 + c * 2 ^ 44 + off - 0x40000000000000) / 2 ^ 44 = c := by omega
  have hat : (0x40000000000000 + c * 2 ^ 44 + off - 0x40000000000000) % 2 ^ 44 = off := by omega
  have hring : ¬ (0x40000000000000 + c * 2 ^ 44 + off - 0x100000000) / 0x100000 < 256 := by omega
  have hadmin : ¬ 0x40000000000000 + c * 2 ^ 44 + off + n ≤ 0x100000 + 0x61000 := by omega
  have hid : ¬ 0x40000000000000 + c * 2 ^ 44 + off + n ≤ 0 + 0x1000 := by omega
  have hready : ¬ 0x40000000000000 + c * 2 ^ 44 + off + n ≤ 0x1000 + 0x100 := by omega
  have hplace : fabricPlace (0x40000000000000 + c * 2 ^ 44 + off) n = if (decide (0x40000000000000 + c * 2 ^ 44 ≤ 0x40000000000000 + c * 2 ^ 44 + off) &&
      decide (0x40000000000000 + c * 2 ^ 44 + off + n ≤ 0x40000000000000 + c * 2 ^ 44 + 2 ^ 44) && decide (c < 1024)) = true
      then some (.column c off) else none := by
    refine (if_neg (not_and_decide hid)).trans ((if_neg (not_and_decide hready)).trans ((if_neg (not_and_decide hadmin)).trans
      ((if_neg (not_and_decide hring)).trans ?_)))
    rw [hcol, hat]
  rw [hplace]
  refine if_congr ?_ rfl rfl
  simp only [Bool.and_eq_true, decide_eq_true_eq]
  omega

theorem fabricPlace_ring {q off n : Nat} (hq : q < 256) (h : off + n ≤ 0x61000) :
    fabricPlace (0x100000000 + q * 0x100000 + off) n = some (.ring (.part q) off) := by
  have hpart : (0x100000000 + q * 0x100000 + off - 0x100000000) / 0x100000 = q := by omega
  have hat : (0x100000000 + q * 0x100000 + off - 0x100000000) % 0x100000 = off := by omega
  have hadmin : ¬ 0x100000000 + q * 0x100000 + off + n ≤ 0x100000 + 0x61000 := by omega
  have hid : ¬ 0x100000000 + q * 0x100000 + off + n ≤ 0 + 0x1000 := by omega
  have hready : ¬ 0x100000000 + q * 0x100000 + off + n ≤ 0x1000 + 0x100 := by omega
  refine (if_neg (not_and_decide hid)).trans ((if_neg (not_and_decide hready)).trans ((if_neg (not_and_decide hadmin)).trans ?_))
  rw [hpart, hat]
  refine if_pos ?_
  simp only [Bool.and_eq_true, decide_eq_true_eq]
  omega

theorem Dev.hostOk_of {d : Dev} {c off n : Nat} (hc : c < 1024) (habs : c ∉ d.absent) (h : off + n ≤ vaultUsable) : d.hostOk c off n = true := by
  unfold Dev.hostOk
  simp [hc, habs, h]

theorem Dev.hostOk_not {d : Dev} {c off n : Nat} (h : vaultUsable < off + n) : d.hostOk c off n = false := by
  unfold Dev.hostOk
  rw [decide_eq_false (Nat.not_le.mpr h), Bool.and_false]

/-! ## The host's reads -/

theorem SameWarps.hostReads (c k off n : Nat) (s : State) : SameWarps s.dev (s.hostReads c k off n) := by
  induction k generalizing s off n with
  | zero => exact .refl _
  | succ k ih =>
    unfold State.hostReads
    split
    · exact .refl _
    · exact (SameWarps.homeRead s c off 0 false none _).trans (ih _ _ { s with dev := s.homeSector c off false })

theorem State.fabricRead_of_column {s : State} {a n c off : Nat} (h : fabricPlace a n = some (.column c off)) :
    s.fabricRead a n = if s.dev.hostOk c off n then
        (some (s.seen c (s.hostReads c (n / 32 + 2) off n).free off n),
          { s.hostReads c (n / 32 + 2) off n with free := (s.hostReads c (n / 32 + 2) off n).free + 1 })
      else (none, s.dev) := by
  unfold State.fabricRead
  rw [h]

theorem State.fabricRead_of_ring {s : State} {a n off : Nat} {r : RingId} (h : fabricPlace a n = some (.ring r off)) :
    s.fabricRead a n = (some ((List.range n).map (fun i => (s.dev.ring r).byte (off + i))), s.dev) := by
  unfold State.fabricRead
  rw [h]

theorem State.fabricRead_of_none {s : State} {a n : Nat} (h : fabricPlace a n = none) : s.fabricRead a n = (none, s.dev) := by
  unfold State.fabricRead
  rw [h]

/-- A read of column memory that the device serves. -/
theorem State.fabricRead_column {s : State} {a c off n : Nat} (hplace : fabricPlace a n = some (.column c off)) (hok : s.dev.hostOk c off n = true)
    (holds : s.dev.oldsAt c = []) :
    ∃ d, s.fabricRead a n = (some (s.vault.bytes (vkey c off) n), d) ∧ d.replies = s.dev.replies := by
  have hempty : (s.dev.col c).hand.banks.olds.isEmpty = true := List.isEmpty_iff.mpr holds
  have hseen (f : Nat) : s.seen c f off n = s.vault.bytes (vkey c off) n := if_pos hempty
  have hsame := SameWarps.hostReads c (n / 32 + 2) off n s
  refine ⟨{ s.hostReads c (n / 32 + 2) off n with free := (s.hostReads c (n / 32 + 2) off n).free + 1 }, ?_, hsame.core.replies⟩
  rw [State.fabricRead_of_column hplace, if_pos hok, hseen]

/-! ## The host's writes -/

theorem State.homeWrite_time (s : State) (c va pol : Nat) (zc stable : Bool) (whole : List Nat) :
    s.dev.now + 4 ≤ (s.homeWrite c va pol zc stable whole).2 := by
  have htime : (s.homeWrite c va pol zc stable whole).2 =
      gwct s.dev.now (if stable || (s.dev.col c).claimed va then 0 else (s.dev.col c).lx va) :=
    proj_ite Prod.snd rfl (proj_ite Prod.snd rfl rfl)
  rw [htime]
  unfold gwct
  omega

/-- A lane's write of at least one byte completes after its controller's four ticks. -/
theorem State.writeLines_time (s : State) {a : LaneAcc} (h : 0 < a.size) : s.dev.now + 4 ≤ (s.writeLines [a]).2 := by
  have hsector : ((a.off + 0) / 32 * 32, a.addr 0 / 32 * 32) ∈ a.sectors := by
    unfold LaneAcc.sectors
    exact List.mem_eraseDups.mpr (List.mem_map.mpr ⟨0, List.mem_range.mpr h, rfl⟩)
  have hline : ∀ x ∈ linesOf [a], x.1 = a.tcol ∧ ∃ y ∈ a.sectors, y.2 / 128 = x.2 := by
    intro x hx
    unfold linesOf at hx
    obtain ⟨off, va, hy, rfl⟩ : ∃ off va, (off, va) ∈ a.sectors ∧ (a.tcol, va / 128) = x := by simpa using hx
    exact ⟨rfl, (off, va), hy, rfl⟩
  have hmem : (a.tcol, a.addr 0 / 32 * 32 / 128) ∈ linesOf [a] := by
    unfold linesOf
    rw [List.mem_eraseDups]
    simpa using ⟨_, _, hsector, rfl⟩
  unfold State.writeLines
  cases hx : linesOf [a] with
  | nil =>
    rw [hx] at hmem
    cases hmem
  | cons x xs =>
    obtain ⟨hcol, y, hy, hdiv⟩ := hline x (hx ▸ List.mem_cons_self)
    have hmine : [a].filter (fun a => a.tcol == x.1 && a.sectors.any (fun y => y.2 / 128 == x.2)) = [a] := by
      rw [List.filter_cons_of_pos]
      · rfl
      · rw [Bool.and_eq_true, beq_iff_eq, List.any_eq_true]
        exact ⟨hcol.symm, y, hy, beq_iff_eq.mpr hdiv⟩
    unfold State.writeLinesAt
    dsimp only
    rw [hmine]
    exact Nat.le_trans (s.homeWrite_time _ _ _ _ _ _) (Nat.le_max_left _ _)

theorem SameCore.keepStable (s : State) (c va n : Nat) : SameCore s.dev (s.keepStable c va n) :=
  SameCore.foldl _ (fun d ctx => SameCore.keepWas { s with dev := d } c ctx va n) _ _

theorem SameOlds.keepStable (s : State) (c va n : Nat) : SameOlds s.dev (s.keepStable c va n) := by
  refine SameOlds.foldl _ (fun d ctx => ?_) _ _
  unfold State.keepWas
  exact .modCol _ _ _ rfl

theorem Memory.write_append (m : Memory) (a : Nat) (bs cs : List Byte) : m.write a (bs ++ cs) = (m.write a bs).write (a + bs.length) cs := by
  induction bs generalizing m a with
  | nil => rfl
  | cons b bs ih =>
    rw [List.cons_append, Memory.write, Memory.write, ih, List.length_cons, Nat.add_assoc, Nat.add_comm 1]

/-- The lane of a piece of a host's write. -/
def hostLane (c off m : Nat) : LaneAcc := { laneWant 0 c off m 0 with va := off, cut := m, pois := [false] }

/-- The state in which a piece of a host's write is put: its line is held. -/
def State.hostLine (s : State) (c off : Nat) (bs : List Byte) : Dev × Nat :=
  let a := hostLane c off bs.length
  ({ s with dev := (s.keepStable c off bs.length).poisonSectors [a] }.ahead [(a, bs)]).writeLines [a]

/-- One piece of a host's write. -/
theorem State.hostPiece_spec {s : State} {c : Nat} (holds : s.dev.oldsAt c = []) (off : Nat) {bs : List Byte} (hbs : bs ≠ []) :
    let t : State := ({ s with dev := (s.hostLine c off bs).1 } : State).putLane (hostLane c off bs.length) bs
    t.vault = s.vault.write (vkey c off) bs ∧ SameCore s.dev t.dev ∧ SameOlds s.dev t.dev ∧ s.dev.now + 4 ≤ (s.hostLine c off bs).2 := by
  intro t
  let a := hostLane c off bs.length
  let kept := s.keepStable c off bs.length
  let bytes : State := ({ s with dev := kept.poisonSectors [a] } : State).ahead [(a, bs)]
  have hcore : SameCore s.dev bytes.dev := (SameCore.keepStable s c off bs.length).trans (.poisonSectors kept [a])
  have holdsame : SameOlds s.dev bytes.dev := (SameOlds.keepStable s c off bs.length).trans (.poisonSectors kept [a])
  have hline : SameCore s.dev (s.hostLine c off bs).1 := hcore.trans (SameWarps.writeLinesAt bytes [a] _).core
  have hlolds : SameOlds s.dev (s.hostLine c off bs).1 := holdsame.trans (SameOlds.writeLinesAt bytes [a] _)
  obtain ⟨hv, ho⟩ := State.putLane_quiet (s := { s with dev := (s.hostLine c off bs).1 }) (a := a) ((hlolds c).trans holds) bs
  refine ⟨hv.trans ?_, hline.trans (SameCore.putLane { s with dev := (s.hostLine c off bs).1 } a bs), hlolds.trans ho, ?_⟩
  · change (s.vault.write (vkey c off) (bs.take bs.length)).write (vkey c 0) (bs.drop bs.length) = _
    rw [List.take_length, List.drop_length]
    rfl
  · rw [← hcore.now]
    exact bytes.writeLines_time (a := a) (List.length_pos_iff.mpr hbs)

/-- A host's write, sector by sector: its bytes stand in the vault, and it completes after its controllers' four ticks. -/
theorem State.hostWrites_spec {c : Nat} (k off : Nat) (bs : List Byte) {s : State} (holds : s.dev.oldsAt c = []) (hfuel : bs ≠ [] → off % 32 + bs.length ≤ 32 * k) :
    (s.hostWrites c k off bs).1.vault = s.vault.write (vkey c off) bs ∧ SameCore s.dev (s.hostWrites c k off bs).1.dev ∧
      (bs ≠ [] → s.dev.now + 4 ≤ (s.hostWrites c k off bs).2) := by
  induction k generalizing s off bs with
  | zero =>
    have hnil : bs = [] := by
      by_contra hne
      have hlen := List.length_pos_iff.mpr hne
      have := hfuel hne
      omega
    subst hnil
    exact ⟨rfl, .refl _, fun h => absurd rfl h⟩
  | succ k ih =>
    cases hbs : bs with
    | nil => exact ⟨rfl, .refl _, fun h => absurd rfl h⟩
    | cons b l =>
      rw [← hbs]
      have hne : bs ≠ [] := by
        rw [hbs]
        exact List.cons_ne_nil _ _
      have hpos : 0 < bs.length := List.length_pos_iff.mpr hne
      obtain ⟨m, hm⟩ : ∃ m, m = min bs.length (32 - off % 32) := ⟨_, rfl⟩
      have hlen : (bs.take m).length = m := by
        rw [List.length_take]
        omega
      have htake : bs.take m ≠ [] := List.length_pos_iff.mp (by omega)
      obtain ⟨hv, hcore, hold, htime⟩ := s.hostPiece_spec holds off htake
      let t : State := ({ s with dev := (s.hostLine c off (bs.take m)).1 } : State).putLane (hostLane c off (bs.take m).length) (bs.take m)
      have hstep : s.hostWrites c (k + 1) off bs =
          ((t.hostWrites c k (off + m) (bs.drop m)).1, max (s.hostLine c off (bs.take m)).2 (t.hostWrites c k (off + m) (bs.drop m)).2) := by
        conv_lhs => unfold State.hostWrites
        rw [if_neg (by rw [hbs]; exact Bool.false_ne_true), ← hm]
        dsimp only [t]
        unfold State.hostLine hostLane
        rw [hlen]
      have hrest : bs.drop m ≠ [] → (off + m) % 32 + (bs.drop m).length ≤ 32 * k := by
        intro hdrop
        have hlong := List.length_pos_iff.mpr hdrop
        have hneed := hfuel hne
        rw [List.length_drop] at hlong ⊢
        omega
      obtain ⟨hv2, hcore2, -⟩ := ih (off + m) (bs.drop m) ((hold c).trans holds) hrest
      rw [hstep]
      refine ⟨hv2.trans ?_, hcore.trans hcore2, fun _ => Nat.le_trans htime (Nat.le_max_left _ _)⟩
      have happend := s.vault.write_append (vkey c off) (bs.take m) (bs.drop m)
      rw [List.take_append_drop, hlen] at happend
      have hkey : vkey c (off + m) = vkey c off + m := by
        unfold vkey
        omega
      rw [hv, happend, hkey]

/-! ## The host's accesses -/

theorem Dev.portOpen_iff {d : Dev} {i : Nat} (hi : i < 24) (hr : d.ready.contains (.port i) = true) : d.portOpen i = true := by
  unfold Dev.portOpen
  rw [decide_eq_true hi, hr]
  rfl

theorem Dev.portOpen_not {d : Dev} {i : Nat} (hr : d.ready.contains (.port i) = false) : d.portOpen i = false := by
  unfold Dev.portOpen
  rw [hr, Bool.and_false]

section
variable {s : State} {i a : Nat}

theorem exec_hostMemoryRead {n : Nat} (ho : s.dev.portOpen i = true) {d : Dev} {r : Option (List Byte)} (h : s.fabricRead a n = (r, d)) :
    exec (.hostMemoryRead i a n) s = .next { s with dev := d.send ((r.map (Reply.data a)).getD (.refused a)) 2 } := by
  change execHostMemoryRead i a n s = _
  unfold execHostMemoryRead
  rw [ho, h]
  cases r <;> rfl

theorem exec_hostMemoryRead_shut {n : Nat} (ho : s.dev.portOpen i = false) : exec (.hostMemoryRead i a n) s = .next s := by
  change execHostMemoryRead i a n s = _
  unfold execHostMemoryRead
  rw [ho]
  rfl

theorem exec_hostMemoryWrite_shut {bs : List Byte} (ho : s.dev.portOpen i = false) : exec (.hostMemoryWrite i a bs) s = .next s := by
  change execHostMemoryWrite i a bs s = _
  unfold execHostMemoryWrite
  rw [ho]
  rfl

theorem exec_hostMemoryWrite_ring {bs : List Byte} (ho : s.dev.portOpen i = true) {r : RingId} {off : Nat}
    (h : fabricPlace a bs.length = some (.ring r off)) :
    exec (.hostMemoryWrite i a bs) s = .next { s with dev := (s.dev.ringWrite r off bs).send (.ack a) 2 } := by
  change execHostMemoryWrite i a bs s = _
  unfold execHostMemoryWrite
  rw [ho, h]
  rfl

theorem exec_hostMemoryWrite_column {bs : List Byte} (ho : s.dev.portOpen i = true) {c off : Nat}
    (h : fabricPlace a bs.length = some (.column c off)) (hok : s.dev.hostOk c off bs.length = true) :
    let w := s.hostWrites c (bs.length / 32 + 2) off bs
    exec (.hostMemoryWrite i a bs) s = .next { w.1 with dev := w.1.dev.ackLater c a w.2 } := by
  intro w
  change execHostMemoryWrite i a bs s = _
  unfold execHostMemoryWrite
  rw [ho, h]
  dsimp only
  rw [hok]
  rfl

/-- What the device does not serve is refused. -/
theorem exec_hostMemoryWrite_refused {bs : List Byte} (ho : s.dev.portOpen i = true)
    (h : fabricPlace a bs.length = none ∨ ∃ c off, fabricPlace a bs.length = some (.column c off) ∧ s.dev.hostOk c off bs.length = false) :
    exec (.hostMemoryWrite i a bs) s = .next { s with dev := s.dev.send (.refused a) 2 } := by
  change execHostMemoryWrite i a bs s = _
  unfold execHostMemoryWrite
  rw [ho]
  rcases h with h | ⟨c, off, h, hok⟩
  · rw [h]
    rfl
  · rw [h]
    dsimp only
    rw [hok]
    rfl

end

end Sys2Proof.Machine
end

section
namespace Sys2Proof
open Sys2Proof.Machine

/-- Settles O55. -/
theorem portsHostAndTwimor : Obligations.PortsHostAndTwimor := by
  intro s i c q off n die margins wire ack bytes rest d p fl mem ring refused measured
  have hmeasured {e : Dev} {x : Port} (h : e.port i = x.measured margins) (hx : x.lanes = p.lanes) : measured { s with dev := e } := by
    intro l
    change (e.port i).lanes[l] = _
    rw [h, x.measured_lane margins l, hx]
  refine ⟨?_, ?_, ?_, ?_, ?_, ?_, ?_, ?_, ?_⟩
  · intro hi hready
    have hnot : ¬ (24 ≤ i ∨ d.ready.contains (.port i) = true) := by
      rw [hready]
      simp only [Bool.false_eq_true, or_false]
      omega
    obtain ⟨hport, hset⟩ := (d.setReady (.port i) true).trained_spec i margins
    refine ⟨_, if_neg hnot, rfl, ?_, hmeasured hport ?_⟩
    · refine hset.symm ▸ ?_
      exact d.mem_setReady_true _
    · exact (congrArg (fun d : Dev => (d.port i).lanes) (d.setReady_readyless (.port i) true) :)
  · intro hready
    have hopen : ¬ (!d.ready.contains (.port i)) = true := by
      rw [hready]
      exact Bool.false_ne_true
    have hgoing (hlost : p.lost d.now = true) : ¬ (!d.ready.contains (.port i) || !p.lost d.now) = true := by
      rw [hready, hlost]
      exact Bool.false_ne_true
    refine ⟨fun hok hseq htyp => ?_, fun hbad => ?_, ?_, fun hlost => ⟨?_, ?_⟩, fun hlost b => ?_⟩
    · have hin : (wireOk wire && fl.fseq == p.rxSeq + 1) = true := by
        rw [hok, hseq]
        exact beq_self_eq_true _
      have hport := d.port_modPort i (fun p => p.take d.now fl)
      have htake := p.take_spec htyp d.now
      refine ⟨_, (if_neg hopen).trans (if_pos hin), rfl, ?_⟩
      dsimp only
      rw [hport]
      exact htake
    · have hout : ¬ (wireOk wire && fl.fseq == p.rxSeq + 1) = true := by
        rw [Bool.and_eq_true, beq_iff_eq]
        rintro ⟨h1, h2⟩
        rcases hbad with h | h
        · exact Bool.false_ne_true (h.symm.trans h1)
        · exact h h2
      obtain ⟨hrec, hreq, hsent⟩ := d.dropFlit_spec i
      refine ⟨_, (if_neg hopen).trans (if_neg hout), rfl, (congrArg Prod.fst hrec :), (congrArg (fun x => x.2.1) hrec :), hreq, fun hroom hq => ?_⟩
      exact ⟨_, hsent.trans (p.put_sent hroom hq 3 []), rfl, rfl⟩
    · have hport := d.port_modPort i (fun p => p.retry d.now ack)
      obtain ⟨hsent, hbuf⟩ := p.retry_spec d.now ack
      refine ⟨_, if_neg hopen, rfl, ?_⟩
      dsimp only
      rw [hport]
      exact ⟨hsent, hbuf⟩
    · obtain ⟨hport, hset⟩ := (d.modPort i (fun p => { p with sent := p.sent ++ p.buffer, retryReq := false, failing := none })).trained_spec i margins
      rw [d.port_modPort i] at hport
      have hrec := SameWarps.record ((d.modPort i (fun p => { p with sent := p.sent ++ p.buffer, retryReq := false, failing := none })).trained i margins) 0
      refine ⟨_, if_neg (hgoing hlost), rfl, ?_, ?_, (hrec _).ready.trans hset, hmeasured (((hrec _).port i).trans hport) rfl⟩
      · exact (congrArg Port.sent (((hrec _).port i).trans hport) :)
      · exact (congrArg Port.failing (((hrec _).port i).trans hport) :)
    · exact ⟨_, if_neg (hgoing hlost), rfl, Dev.not_mem_setReady_false _ _⟩
    · refine if_pos ?_
      rw [show (s.dev.port i).lost s.dev.now = false from hlost]
      exact Bool.or_true _
  · intro hi hready hc habs hoff
    have hopen := Dev.portOpen_iff hi hready
    have hwithin {m : Nat} (h : off + m ≤ vaultUsable) : fabricPlace mem m = some (.column c off) := by
      refine (fabricPlace_column hc hoff).trans (if_pos ?_)
      unfold vaultUsable at h
      omega
    have hbeyond {m : Nat} (h : vaultUsable < off + m) :
        fabricPlace mem m = none ∨ ∃ c off, fabricPlace mem m = some (.column c off) ∧ d.hostOk c off m = false := by
      have hplace := fabricPlace_column (n := m) hc hoff
      by_cases hm : off + m ≤ 2 ^ 44
      · exact .inr ⟨c, off, hplace.trans (if_pos hm), Dev.hostOk_not h⟩
      · exact .inl (hplace.trans (if_neg hm))
    refine ⟨fun h holds => ?_, fun h hne holds => ?_, fun h => ?_, fun h => ?_⟩
    · obtain ⟨e, hread, hreplies⟩ := State.fabricRead_column (hwithin h) (Dev.hostOk_of hc habs h) holds
      refine ⟨_, exec_hostMemoryRead hopen hread, rfl, (Dev.send_replies _ _ _).trans ?_⟩
      rw [hreplies]
      rfl
    · have hfuel : bytes ≠ [] → off % 32 + bytes.length ≤ 32 * (bytes.length / 32 + 2) := fun _ => by omega
      obtain ⟨hv, hcore, htime⟩ := State.hostWrites_spec (bytes.length / 32 + 2) off bytes holds hfuel
      let w := s.hostWrites c (bytes.length / 32 + 2) off bytes
      refine ⟨_, { col := c, op := (w.1.dev.col c).nextOp, addr := mem, at_ := w.2 },
        exec_hostMemoryWrite_column hopen (hwithin h) (Dev.hostOk_of hc habs h), hv, hcore.replies, ?_, rfl, rfl, htime hne⟩
      exact congrArg (· ++ _) hcore.acks
    · have hread : s.fabricRead mem n = (none, d) := by
        rcases hbeyond h with hnone | ⟨c', off', hcol, hok⟩
        · exact State.fabricRead_of_none hnone
        · exact (State.fabricRead_of_column hcol).trans (if_neg (ne_true_of_eq_false hok))
      exact ⟨_, exec_hostMemoryRead hopen hread, rfl, Dev.send_replies _ _ _⟩
    · exact ⟨_, exec_hostMemoryWrite_refused hopen (hbeyond h), rfl, Dev.send_replies _ _ _⟩
  · intro hready a
    exact ⟨exec_hostMemoryRead_shut (Dev.portOpen_not hready), exec_hostMemoryWrite_shut (Dev.portOpen_not hready)⟩
  · intro hi hready hq
    refine ⟨fun h => ?_, fun h => ?_⟩
    · exact ⟨_, exec_hostMemoryRead (Dev.portOpen_iff hi hready) (State.fabricRead_of_ring (fabricPlace_ring hq h)), rfl, Dev.send_replies _ _ _⟩
    · exact exec_hostMemoryWrite_ring (Dev.portOpen_iff hi hready) (fabricPlace_ring hq h)
  · intro hon
    have htold (bs : List Byte) : d.twimor bs = { d with replies := d.replies ++ [.twimor bs] } := if_pos hon
    refine ⟨?_, fun hdie => ?_, ?_⟩
    · intro told
      have hnext (bs : List Byte) : (.next { s with dev := d.twimor bs } : Host.Outcome State Fault Refusal) = .next (told bs) := by
        rw [htold]
      refine ⟨hnext _, hnext _, hnext _, fun l hi => ?_, fun z hdie hc hq hz => ?_⟩
      · intro z
        have hlane : (d.port i).lanes.toList.getD l { margin := 0, retry := 0, corr := 0 } = z := by
          rw [List.getD_eq_getElem _ _ (by simp)]
          simp [z, p]
        refine (if_pos ⟨rfl, hi, l.isLt⟩).trans ?_
        rw [hlane, htold]
        rfl
      · have hbank : d.banks.getD ((die * 256 + c) * 32 + q) { csec := 0, rrow := 0, scrub := 0, rows := [] } = z := by
          unfold Table.getD
          rw [hz]
          rfl
        refine (if_pos ⟨hdie, hc, hq⟩).trans ?_
        rw [hbank, htold]
        rfl
    · have hserved : ¬ d.twimorDie ≠ some die := not_not_intro hdie
      exact ⟨if_neg hserved, if_neg hserved⟩
    · have hserved : ¬ (!d.twimorOn) = true := by
        rw [hon]
        exact Bool.false_ne_true
      exact ⟨_, if_neg hserved, rfl, rfl, rfl, rfl, rfl, rfl⟩
  · intro hoff
    have hsilent (bs : List Byte) : d.twimor bs = d := if_neg (ne_true_of_eq_false hoff)
    have hnext (bs : List Byte) : (.next { s with dev := d.twimor bs } : Host.Outcome State Fault Refusal) = .next s := by
      rw [hsilent]
    refine ⟨hnext _, hnext _, hnext _, ?_, fun l => ⟨?_, ?_⟩⟩
    · refine if_pos ?_
      rw [show s.dev.twimorOn = false from hoff]
      rfl
    · refine proj_ite id ?_ rfl
      exact (congrArg (fun d : Dev => { s with dev := d }) (hsilent _) :)
    · refine proj_ite id ?_ rfl
      exact (congrArg (fun d : Dev => { s with dev := d }) (hsilent _) :)
  · intro a h
    unfold step
    rw [h]
  · intro hdebug hc hq hsmgr
    refine if_pos ?_
    rw [decide_eq_true hc, decide_eq_true hq, Bool.and_true, Bool.and_true]
    exact (congrArg₂ _ hdebug hsmgr : (d.debugger && d.ready.contains (.smgr (dieOf c))) = (true && true))

end Sys2Proof
end

section
/-! Proofs about the L2 slices (R208-R213): what a change of a line, and the repacking of its superblock, leave of the tags and of their pins. -/

namespace Sys2Proof.Machine

/-! ## Tags -/

theorem L2Tag.line_setLine (t : L2Tag) (i j : Nat) (l : L2Line) : (t.setLine i l).line j = if i % 4 = j % 4 then l else t.line j := by
  unfold L2Tag.line L2Tag.setLine
  rw [Vector.getElem_set]

theorem L2Tag.line_mk_ofFn (sb : Nat) (g : Fin 4 → L2Line) (i : Nat) :
    ({ sb := sb, lines := Vector.ofFn g } : L2Tag).line i = g ⟨i % 4, Nat.mod_lt _ (by decide)⟩ := by
  unfold L2Tag.line
  rw [Vector.getElem_ofFn]

/-- What a line says beside its place. -/
def L2Line.said (l : L2Line) : L2Line := { l with place := .none }

theorem L2Tag.said_placed (t : L2Tag) (free : List Nat) (i : Nat) : ((t.placed free).line i).said = (t.line i).said := by
  unfold L2Tag.placed
  rw [L2Tag.line_mk_ofFn]
  simp [L2Line.said, L2Tag.line]

theorem L2Tag.shed_pinned (t : L2Tag) (n i : Nat) : ((t.shed n).line i).pinned = true → (t.line i).pinned = true := by
  have hline (p : L2Line → Bool) (l : L2Line) : (if (l.pinned && l.place.isSome) || !p l then l else { l.drop with pinned := false }).pinned = true →
      l.pinned = true := by
    split
    · exact id
    · exact fun h => absurd h Bool.false_ne_true
  have hmap (p : L2Line → Bool) : (({ t with lines := t.lines.map (fun l : L2Line =>
      if (l.pinned && l.place.isSome) || !p l then l else { l.drop with pinned := false }) } : L2Tag).line i).pinned = true → (t.line i).pinned = true := by
    unfold L2Tag.line
    rw [Vector.getElem_map]
    exact hline p _
  unfold L2Tag.shed
  dsimp only
  split
  · exact hmap _
  · exact hmap _

theorem L2Tag.shed_sb (t : L2Tag) (n : Nat) : (t.shed n).sb = t.sb := by
  unfold L2Tag.shed
  dsimp only
  split <;> rfl

/-! ## The tags of a column -/

/-- A change of tags that keeps their superblocks changes the tag that is found. -/
theorem l2Tag_map (k : Column) {f : L2Tag → L2Tag} (h : ∀ t, (f t).sb = t.sb) (sb : Nat) :
    ({ k with l2 := k.l2.map f } : Column).l2Tag sb = (k.l2Tag sb).map f := by
  unfold Column.l2Tag
  rw [List.find?_map]
  refine congrArg (Option.map f) (congrArg (fun p => k.l2.find? p) ?_)
  funext t
  simp only [Function.comp, h]

theorem Column.l2Tag_sb {k : Column} {sb : Nat} {t : L2Tag} (h : k.l2Tag sb = some t) : t.sb = sb := beq_iff_eq.mp (List.find?_some h :)

theorem Column.l2Tag_l2Set (k : Column) (t : L2Tag) (sb : Nat) :
    (k.l2Set t).l2Tag sb = (k.l2Tag sb).map (fun x => if sb = t.sb then t else x) := by
  have hmap := l2Tag_map k (f := fun x => if x.sb = t.sb then t else x) (fun x => by split <;> simp_all) sb
  refine hmap.trans ?_
  cases hx : k.l2Tag sb with
  | none => rfl
  | some x => rw [Option.map_some, Option.map_some, Column.l2Tag_sb hx]

theorem Column.l2Tag_l2Mod (k : Column) (va : Nat) (f : L2Line → L2Line) (sb : Nat) :
    (k.l2Mod va f).l2Tag sb = (k.l2Tag sb).map (fun t => if sb = va / 512 then t.setLine (va / 128) (f (t.line (va / 128))) else t) := by
  have hmap := l2Tag_map k (f := fun t => if t.sb = va / 512 then t.setLine (va / 128) (f (t.line (va / 128))) else t)
    (fun x => by split <;> rfl) sb
  refine hmap.trans ?_
  cases hx : k.l2Tag sb with
  | none => rfl
  | some x => rw [Option.map_some, Option.map_some, Column.l2Tag_sb hx]

theorem Column.l2Tag_l2Evict (k : Column) (v sb : Nat) : (k.l2Evict v).l2Tag sb = if sb = v then none else k.l2Tag sb := by
  unfold Column.l2Evict
  cases hv : k.l2Tag v with
  | none =>
    by_cases h : sb = v
    · rw [if_pos h, h]
      exact hv
    · exact (if_neg h).symm
  | some t =>
    refine (List.find?_filter).trans ?_
    by_cases h : sb = v
    · rw [if_pos h, h]
      refine List.find?_eq_none.mpr fun x _ hx => ?_
      simp at hx
    · rw [if_neg h]
      refine congrArg (fun p => k.l2.find? p) (funext fun x => ?_)
      by_cases hx : x.sb = sb
      · simp [hx, h]
      · simp [hx]

theorem Column.l2Victim_spec {k : Column} {sb v : Nat} {own : Bool} (h : k.l2Victim sb own = some v) : sameSet v sb = true ∧ (own = false → v ≠ sb) := by
  unfold Column.l2Victim at h
  obtain ⟨t, ht, rfl⟩ := Option.map_eq_some_iff.mp h
  have hmem := (List.mem_filter.mp (List.mem_of_getLast? ht)).2
  simp only [Bool.and_eq_true, Bool.or_eq_true, bne_iff_ne] at hmem
  obtain ⟨⟨hset, -⟩, hown⟩ := hmem
  exact ⟨hset, fun hf => hown.resolve_left (fun h => Bool.false_ne_true (hf.symm.trans h))⟩

theorem sameSet_refl (a : Nat) : sameSet a a = true := beq_self_eq_true _

/-! ## Pins -/

theorem Column.pinnedAt_iff {k : Column} {va : Nat} :
    k.pinnedAt va = true ↔ ∃ t, k.l2Tag (va / 512) = some t ∧ (t.line (va / 128)).pinned = true := by
  unfold Column.pinnedAt Column.l2At
  cases k.l2Tag (va / 512) with
  | none => simp
  | some t => simp

/-- A change of one set that pins no line. -/
structure Unpins (sb : Nat) (k e : Column) : Prop where
  pins : ∀ va, e.pinnedAt va = true → k.pinnedAt va = true
  far  : ∀ b, sameSet b sb = false → e.l2Tag b = k.l2Tag b

theorem Unpins.refl (sb : Nat) (k : Column) : Unpins sb k k := ⟨fun _ h => h, fun _ _ => rfl⟩

theorem Unpins.trans {sb : Nat} {k e g : Column} (h : Unpins sb k e) (j : Unpins sb e g) : Unpins sb k g :=
  ⟨fun va hv => h.pins va (j.pins va hv), fun b hb => (j.far b hb).trans (h.far b hb)⟩

/-- A change of the tags of one superblock that pins no line. -/
theorem Unpins.of_tags {sb : Nat} {k e : Column} {g : L2Tag → L2Tag} (hg : ∀ t i, ((g t).line i).pinned = true → (t.line i).pinned = true)
    (h : ∀ b, e.l2Tag b = (k.l2Tag b).map (fun t => if b = sb then g t else t)) : Unpins sb k e := by
  refine ⟨fun va hv => ?_, fun b hb => ?_⟩
  · obtain ⟨t, ht, hp⟩ := Column.pinnedAt_iff.mp hv
    rw [h] at ht
    obtain ⟨x, hx, rfl⟩ := Option.map_eq_some_iff.mp ht
    refine Column.pinnedAt_iff.mpr ⟨x, hx, ?_⟩
    by_cases hb : va / 512 = sb
    · rw [if_pos hb] at hp
      exact hg x _ hp
    · rwa [if_neg hb] at hp
  · have hne : b ≠ sb := by
      rintro rfl
      rw [sameSet_refl] at hb
      cases hb
    refine (h b).trans ?_
    simp [hne]

theorem Unpins.l2Evict (k : Column) {v sb : Nat} (h : sameSet v sb = true) : Unpins sb k (k.l2Evict v) := by
  refine ⟨fun va hv => ?_, fun b hb => ?_⟩
  · obtain ⟨t, ht, hp⟩ := Column.pinnedAt_iff.mp hv
    rw [Column.l2Tag_l2Evict] at ht
    split at ht
    · cases ht
    · exact Column.pinnedAt_iff.mpr ⟨t, ht, hp⟩
  · rw [Column.l2Tag_l2Evict, if_neg]
    rintro rfl
    rw [h] at hb
    cases hb

/-- A tag put in the place of the one of its superblock pins no line that was not pinned. -/
theorem Unpins.l2Set {k : Column} {t u : L2Tag} (ht : k.l2Tag t.sb = some t) (hsb : u.sb = t.sb)
    (hp : ∀ i, (u.line i).pinned = true → (t.line i).pinned = true) : Unpins t.sb k (k.l2Set u) := by
  refine ⟨fun va hv => ?_, fun b hb => ?_⟩
  · obtain ⟨x, hx, hpin⟩ := Column.pinnedAt_iff.mp hv
    rw [Column.l2Tag_l2Set] at hx
    obtain ⟨y, hy, rfl⟩ := Option.map_eq_some_iff.mp hx
    by_cases hb : va / 512 = u.sb
    · rw [if_pos hb] at hpin
      exact Column.pinnedAt_iff.mpr ⟨t, by rw [hb, hsb]; exact ht, hp _ hpin⟩
    · rw [if_neg hb] at hpin
      exact Column.pinnedAt_iff.mpr ⟨y, hy, hpin⟩
  · have hne : b ≠ u.sb := by
      rw [hsb]
      rintro rfl
      rw [sameSet_refl] at hb
      cases hb
    rw [Column.l2Tag_l2Set]
    simp [hne]

theorem said_pinned {a b : L2Line} (h : a.said = b.said) : a.pinned = b.pinned := (congrArg L2Line.pinned h :)

theorem Unpins.l2Repack (sb n : Nat) (k : Column) : Unpins sb k (Column.l2Repack sb n k) := by
  induction n generalizing k with
  | zero => exact .refl _ _
  | succ n ih =>
    unfold Column.l2Repack
    cases ht : k.l2Tag sb with
    | none => exact .refl _ _
    | some t =>
      obtain rfl := Column.l2Tag_sb ht
      dsimp only
      split
      · exact .l2Set ht rfl fun i hi => (said_pinned (t.said_placed _ i)).symm.trans hi
      · cases hv : k.l2Victim t.sb false with
        | some v => exact (Unpins.l2Evict k (Column.l2Victim_spec hv).1).trans (ih _)
        | none =>
          have hset := Unpins.l2Set ht (u := (t.shed (k.freeSlots t.sb).length).placed (k.freeSlots t.sb)) (t.shed_sb _)
            fun i hi => t.shed_pinned _ i ((said_pinned (L2Tag.said_placed _ _ i)).symm.trans hi)
          exact ⟨hset.pins, hset.far⟩

/-- A line unpinned, and its superblock repacked (R212). -/
def Column.unpin (k : Column) (va : Nat) : Column := k.l2Change va (fun l => { l with pinned := false })

theorem Column.unpin_unpins (k : Column) (va : Nat) : Unpins (va / 512) k (k.unpin va) := by
  refine Unpins.trans ?_ (Unpins.l2Repack (va / 512) 32 _)
  refine Unpins.of_tags (g := fun t => t.setLine (va / 128) { t.line (va / 128) with pinned := false }) (fun t i => ?_) (k.l2Tag_l2Mod va _)
  rw [L2Tag.line_setLine]
  split
  · exact fun h => absurd h Bool.false_ne_true
  · exact id

theorem Column.unpin_pinnedAt (k : Column) (va : Nat) : (k.unpin va).pinnedAt va = false := by
  refine eq_false_of_ne_true fun h => ?_
  have hmod := (Unpins.l2Repack (va / 512) 32 (k.l2Mod va (fun l => { l with pinned := false }))).pins va h
  obtain ⟨t, ht, hp⟩ := Column.pinnedAt_iff.mp hmod
  rw [Column.l2Tag_l2Mod] at ht
  obtain ⟨x, -, rfl⟩ := Option.map_eq_some_iff.mp ht
  rw [if_pos rfl, L2Tag.line_setLine, if_pos rfl] at hp
  exact Bool.false_ne_true hp

/-- Lines unpinned one after the other. -/
theorem Column.unpins_spec (as : List LaneAcc) (k : Column) :
    let e := as.foldl (fun k a => k.unpin a.va) k
    (∀ a ∈ as, e.pinnedAt a.va = false) ∧ (∀ va, e.pinnedAt va = true → k.pinnedAt va = true) ∧
      ∀ va, (∀ a ∈ as, sameSet (va / 512) (a.va / 512) = false) → e.l2At va = k.l2At va := by
  induction as generalizing k with
  | nil => exact ⟨fun _ h => (nomatch h), fun _ h => h, fun _ _ => rfl⟩
  | cons a as ih =>
    obtain ⟨hall, hpins, hfar⟩ := ih (k.unpin a.va)
    have hstep := k.unpin_unpins a.va
    refine ⟨fun b hb => ?_, fun va h => hstep.pins va (hpins va h), fun va h => ?_⟩
    · rcases List.mem_cons.mp hb with rfl | hb
      · exact eq_false_of_ne_true fun h => Bool.false_ne_true ((k.unpin_pinnedAt b.va).symm.trans (hpins _ h))
      · exact hall b hb
    · refine (hfar va fun b hb => h b (List.mem_cons_of_mem _ hb)).trans ?_
      unfold Column.l2At
      rw [hstep.far _ (h a List.mem_cons_self)]

/-! ## A line's change where it stands -/

theorem Column.l2At_l2Mod_same (k : Column) (va : Nat) (f : L2Line → L2Line) : (k.l2Mod va f).l2At va = (k.l2At va).map f := by
  unfold Column.l2At
  rw [Column.l2Tag_l2Mod, Option.map_map, Option.map_map]
  refine congrArg (fun g => Option.map g (k.l2Tag (va / 512))) (funext fun t => ?_)
  simp only [Function.comp, if_true, L2Tag.line_setLine]

theorem Column.l2At_l2Mod_ne (k : Column) {va b : Nat} (f : L2Line → L2Line) (h : b / 128 ≠ va / 128) : (k.l2Mod va f).l2At b = k.l2At b := by
  unfold Column.l2At
  rw [Column.l2Tag_l2Mod, Option.map_map]
  refine congrArg (fun g => Option.map g (k.l2Tag (b / 512))) (funext fun t => ?_)
  simp only [Function.comp]
  by_cases hb : b / 512 = va / 512
  · rw [if_pos hb, L2Tag.line_setLine, if_neg]
    omega
  · rw [if_neg hb]

/-! ## The repacking of a superblock -/

/-- A superblock after its repacking: its lines say what they said, or it bypassed its set. -/
def Repacked (sb : Nat) (k e : Column) : Prop :=
  (e.l2Bypass = k.l2Bypass ∧ ∀ t, k.l2Tag sb = some t → ∃ u, e.l2Tag sb = some u ∧ ∀ i, (u.line i).said = (t.line i).said) ∨
    e.l2Bypass = k.l2Bypass + 1

theorem Column.l2Bypass_l2Evict (k : Column) (v : Nat) : (k.l2Evict v).l2Bypass = k.l2Bypass := by
  unfold Column.l2Evict
  cases k.l2Tag v <;> rfl

theorem Column.l2Repack_repacked (sb n : Nat) (k : Column) : Repacked sb k (Column.l2Repack sb n k) := by
  induction n generalizing k with
  | zero => exact .inl ⟨rfl, fun t ht => ⟨t, ht, fun _ => rfl⟩⟩
  | succ n ih =>
    unfold Column.l2Repack
    cases ht : k.l2Tag sb with
    | none => exact .inl ⟨rfl, fun t h => by rw [ht] at h; cases h⟩
    | some t =>
      have hsb := Column.l2Tag_sb ht
      dsimp only
      split
      · refine .inl ⟨rfl, fun u hu => ⟨t.placed (k.freeSlots sb), ?_, fun i => ?_⟩⟩
        · rw [Column.l2Tag_l2Set, ht]
          exact congrArg some (if_pos hsb.symm)
        · obtain rfl := Option.some.inj (ht.symm.trans hu)
          exact t.said_placed _ i
      · cases hv : k.l2Victim sb false with
        | some v =>
          have hne : sb ≠ v := fun h => (Column.l2Victim_spec hv).2 rfl h.symm
          have hmore := ih (k.l2Evict v)
          unfold Repacked at hmore
          rw [Column.l2Bypass_l2Evict, Column.l2Tag_l2Evict, if_neg hne] at hmore
          exact hmore
        | none => exact .inr rfl

end Sys2Proof.Machine
end

section
/-! Proofs about memory instructions without a lane, and about PREF and CCTL (R104, R121, R224, R227, R228). -/

namespace Sys2Proof.Machine

/-! ## Instructions that no lane executes -/

/-- A memory instruction without a lane, whose registers pass their checks, advances the PC and does nothing else. -/
theorem idle_advances {i : Instr} {s : State} {x : VCtx} {cs : List (Option TrapInfo)} {us : List Use} (hexec : exec i s = s.conclude (x.idle cs us))
    (hx : x.d = s.dev) (hready : x.notReady us = false) (hcs : ∀ t ∈ cs, t = none) (hus : ∀ t ∈ us.map Use.tagCheck, t = none) :
    exec i s = .next { s with dev := { s.dev.modCurWarp (fun w => { w with pc := s.nextPc }) with issued := .retired } } := by
  have hall : firstTrap (cs ++ us.map Use.tagCheck) = none :=
    firstTrap_eq_none_iff.mpr fun t ht => (List.mem_append.mp ht).elim (hcs t) (hus t)
  have hidle : x.idle cs us = .retire x.d.advance := Issue.of_checks hready hall
  rw [hexec, hidle, hx]
  rfl

/-! ## PREF -/

theorem SameOps.col_warp {d e : Dev} (h : SameOps d e) (c y : Nat) : e.warp c y = d.warp c y := by
  unfold Dev.warp Column.warp
  rw [show (e.col c).warps = (d.col c).warps from (congrArg Column.warps (h.cols c) :)]

theorem Column.asked_l1Fill (k : Column) (now ctx : Nat) (secs : List (Nat × List Byte × Bool)) (expiry : Nat) (stable last : Bool) :
    (k.l1Fill now ctx secs expiry stable last).asked = k.asked := by
  have hput (k : Column) (f : L1Frame) (last : Bool) : (k.l1Put f last).asked = k.asked := by
    unfold Column.l1Put
    rfl
  unfold Column.l1Fill
  dsimp only
  generalize (secs.head?.map Prod.fst).getD 0 / 512 = sb
  cases k.l1Frame ctx sb with
  | some f =>
    cases last
    · exact hput _ _ _
    · rfl
  | none =>
    cases k.l1Victim sb with
    | some v => exact hput _ _ _
    | none => exact hput _ _ _

/-- A read at the home slice without a lease brings none. -/
theorem State.homeRead_unleased (s : State) (c va pol : Nat) (zc : Bool) (secs : List Nat) : (s.homeRead c va pol zc none secs).2 = none :=
  proj_ite Prod.snd rfl (proj_ite Prod.snd rfl rfl)

section
variable {s : State} {c ctx : Nat} {l2only : Bool} {a : LaneAcc}

theorem SameOps.prefLine (secs : List (Nat × Nat)) : SameOps s.dev (s.prefLine c ctx l2only a secs) := by
  unfold State.prefLine
  cases secs with
  | nil => exact .refl _
  | cons x secs =>
    dsimp only
    split
    · exact .refl _
    · generalize (if l2only || a.pol == 1 then none else some (if a.stable then 0 else (s.dev.ctx ctx).lease) : Option Nat) = lease
      have hread := (SameWarps.homeRead s c x.2 a.pol a.zc lease ((x :: secs).map Prod.snd)).ops_same
      generalize s.homeRead c x.2 a.pol a.zc lease ((x :: secs).map Prod.snd) = r at hread
      obtain ⟨d, got⟩ := r
      cases got with
      | none => exact hread
      | some e => exact hread.trans (.modCol _ _ _ (Column.asked_l1Fill _ _ _ _ _ _ _))

/-- Under the L2-only policy a prefetch takes nothing into the L1. -/
theorem State.prefLine_l1 (h : l2only = true ∨ a.pol = 1) (secs : List (Nat × Nat)) :
    ((s.prefLine c ctx l2only a secs).col c).l1 = (s.dev.col c).l1 := by
  unfold State.prefLine
  cases secs with
  | nil => rfl
  | cons x secs =>
    dsimp only
    split
    · rfl
    · have hlease : (l2only || a.pol == 1) = true := by
        rcases h with h | h
        · rw [h, Bool.true_or]
        · rw [h, beq_self_eq_true, Bool.or_true]
      rw [if_pos hlease]
      have hread := SameWarps.homeRead s c x.2 a.pol a.zc none ((x :: secs).map Prod.snd)
      have hnone := s.homeRead_unleased c x.2 a.pol a.zc ((x :: secs).map Prod.snd)
      generalize s.homeRead c x.2 a.pol a.zc none ((x :: secs).map Prod.snd) = r at hread hnone
      obtain ⟨d, got⟩ := r
      obtain rfl : got = none := hnone
      exact (congrArg Column.l1 (hread.cols c) :)

end

/-- The sectors of one line of a prefetch's request. -/
def State.prefStep (s : State) (c : Nat) (o : MemOp) (l2only : Bool) (ls : List LaneAcc) (d : Dev) (secs : List (Nat × Nat)) : Dev :=
  match ls.find? (fun a => a.sectors.any (fun x => secs.contains x)) with
  | some a => { s with dev := d }.prefLine c o.ctx l2only a secs
  | none => d

/-- A column whose operation has lost a request, and goes with its last one. -/
def Column.unasked (k : Column) (o : MemOp) : Column := if o.lanes.isEmpty then k.delOp o.id else k.setOp o

theorem Column.unasked_frame (k : Column) (o : MemOp) : (k.unasked o).warps = k.warps ∧ (k.unasked o).l1 = k.l1 :=
  ⟨proj_ite Column.warps rfl rfl, proj_ite Column.l1 rfl rfl⟩

section
variable {s : State} {c : Nat} {o : MemOp} {l2only : Bool}

theorem SameOps.prefStep (ls : List LaneAcc) (d : Dev) (secs : List (Nat × Nat)) : SameOps d (s.prefStep c o l2only ls d secs) := by
  unfold State.prefStep
  cases ls.find? (fun a => a.sectors.any (fun x => secs.contains x)) with
  | none => exact .refl d
  | some a => exact SameOps.prefLine (s := { s with dev := d }) secs

theorem State.prefStep_l1 {ls : List LaneAcc} (h : l2only = true ∨ ∀ a ∈ ls, a.pol = 1) (d : Dev) (secs : List (Nat × Nat)) :
    ((s.prefStep c o l2only ls d secs).col c).l1 = (d.col c).l1 := by
  unfold State.prefStep
  cases ha : ls.find? (fun a => a.sectors.any (fun x => secs.contains x)) with
  | none => rfl
  | some a => exact State.prefLine_l1 (s := { s with dev := d }) (h.imp_right fun hp => hp a (List.mem_of_find?_eq_some ha)) secs

/-- A request of a prefetch. -/
theorem State.prefReq_spec (req : Nat) :
    (∀ y, (s.prefReq c o l2only req).warp c y = s.dev.warp c y) ∧
      (l2only = true ∨ (∀ a ∈ o.lanes, a.pol = 1) → ((s.prefReq c o l2only req).col c).l1 = (s.dev.col c).l1) := by
  obtain ⟨ls, hls⟩ : ∃ ls, ls = o.lanes.filter (fun a => a.req == req) := ⟨_, rfl⟩
  obtain ⟨e, he⟩ : ∃ e, e = (byLine (sectorsOf ls)).foldl (s.prefStep c o l2only ls) s.dev := ⟨_, rfl⟩
  have hreq : s.prefReq c o l2only req = e.modCol c (fun k => k.unasked { o with lanes := o.lanes.filter (fun a => a.req != req) }) := by
    rw [he, hls]
    rfl
  obtain ⟨hw, hl⟩ := (e.col c).unasked_frame { o with lanes := o.lanes.filter (fun a => a.req != req) }
  have hops : SameOps s.dev e := by
    rw [he]
    generalize byLine (sectorsOf ls) = xs
    generalize s.dev = d
    induction xs generalizing d with
    | nil => exact .refl d
    | cons x xs ih => exact (SameOps.prefStep ls d x).trans (ih _)
  have hcol : (s.prefReq c o l2only req).col c = (e.col c).unasked { o with lanes := o.lanes.filter (fun a => a.req != req) } := by
    rw [hreq, Dev.col_modCol]
  refine ⟨fun y => ?_, fun h => ?_⟩
  · refine Eq.trans ?_ (hops.col_warp c y)
    unfold Dev.warp Column.warp
    rw [hcol, hw]
  · have hlanes : l2only = true ∨ ∀ a ∈ ls, a.pol = 1 := h.imp_right fun hp a ha => hp a (List.mem_filter.mp (hls ▸ ha)).1
    rw [hcol, hl, he]
    exact Machine.foldl_keeps (fun d : Dev => (d.col c).l1) (s.prefStep c o l2only ls) (fun d x => State.prefStep_l1 hlanes d x) (byLine (sectorsOf ls)) s.dev

end

/-! ## CCTL -/

section
variable {f : MFields} {s : State}

/-- A CCTL with an address whose checks pass goes on with the lines that its lanes name. -/
theorem cctlAt_of_checks {go : VCtx → List (Nat × Nat) → Issue} :
    let x := vctx s.dev f.h []
    let c := s.dev.cur.col
    let lo := rangeSrc x.w 1 f.adr 0
    let hi := rangeSrc x.w 1 f.adr 1
    let us := [Use.ptr lo, Use.ptr hi]
    let offs := (Mask.list x.act).map (fun l => (l, laneOff lo hi f.offset l / 128 * 128))
    let lines := ((offs.map Prod.snd).eraseDups).map (fun o => (((offs.find? (fun p => p.2 == o)).map Prod.fst).getD 0, o))
    x.act ≠ 0 ∧ x.notReady us = false ∧ s.dev.curCol.acquiring s.dev.cur.slot = false ∧
      firstTrap ([rangeBound x.regs f.adr.reg.toNat 2] ++ us.map Use.tagCheck ++ [selCheck c x.act lo hi, poisJoin [lo, hi] x.act]) = none →
      cctlAt f s go = go x lines := by
  rintro x c lo hi us offs lines ⟨hact, hready, hacq, hchecks⟩
  exact (if_neg hact).trans ((Issue.of_checks hready hchecks).trans (Dev.afterAcquire_of_not hacq _))

end

section
variable {s : State} {d : Dev}

/-- A change of the issuing column that keeps its warps, after which the instruction advances. -/
theorem Issues.of_column (h : SameOps s.dev d) (g : Column → Column) (hg : (g d.curCol).warps = d.curCol.warps) :
    Issues s { s with dev := { (d.modCurCol g).advance with issued := .retired } } ∧
      ({ (d.modCurCol g).advance with issued := .retired } : Dev).curWarp = { s.dev.curWarp with pc := s.nextPc } ∧
      ({ (d.modCurCol g).advance with issued := .retired } : Dev).curCol = (g d.curCol).putWarp s.dev.cur.slot { s.dev.curWarp with pc := s.nextPc } := by
  have hwarp : (d.modCurCol g).curWarp = s.dev.curWarp := by
    rw [Dev.curWarp_modCurCol]
    change (g d.curCol).warps.getD _ _ = _
    rw [hg]
    exact h.curWarp
  have hcur : (d.modCurCol g).cur = s.dev.cur := h.cur
  have hw : ({ (d.modCurCol g).advance with issued := .retired } : Dev).curWarp = _ := Dev.curWarp_advance _
  have hc : ({ (d.modCurCol g).advance with issued := .retired } : Dev).curCol = _ := Dev.curCol_advance _
  rw [hwarp, hcur] at hw hc
  refine ⟨.of_advance hcur (by rw [hwarp]) (by rw [hwarp]), hw, ?_⟩
  rw [hc, Dev.curCol_modCurCol]
  rfl

/-- The warp slot under which a PREF's requests stand. -/
def prefOp (d : Dev) (l2only : Bool) (ls : List LaneAcc) : MemOp := { d.newOp (.pref l2only) 0 0 ls with slot := 48, reach := 0 }

theorem pref_enters {i : Instr} {l2only : Bool} {ls : List LaneAcc} (h : SameOps s.dev d)
    (hi : exec i s = s.conclude (.retire (if ls.isEmpty then d else d.modCol d.cur.col (fun k => k.addOp (prefOp d l2only ls))).advance)) :
    ∃ u, exec i s = .next u ∧ Issues s u ∧ u.dev.curWarp.loads = s.dev.curWarp.loads ∧ u.dev.curWarp.stores = s.dev.curWarp.stores ∧
      u.dev.curCol.ops = s.dev.curCol.ops ++ (if ls = [] then [] else [{ prefOp d l2only ls with id := s.dev.curCol.nextOp }]) := by
  cases ls with
  | nil =>
    replace hi : exec i s = s.conclude (.retire d.advance) := hi
    have hw : ({ d.advance with issued := .retired } : Dev).curWarp = _ := d.curWarp_advance
    have hc : ({ d.advance with issued := .retired } : Dev).curCol = _ := d.curCol_advance
    refine ⟨_, hi, .of_advance h.cur (by rw [h.curWarp]) (by rw [h.curWarp]), ?_, ?_, ?_⟩
    · rw [← h.curWarp]
      exact (congrArg Warp.loads hw :)
    · rw [← h.curWarp]
      exact (congrArg Warp.stores hw :)
    · rw [if_pos rfl, List.append_nil, ← h.ops]
      exact (congrArg Column.ops hc :)
  | cons a ls =>
    obtain ⟨hissues, hw, hc⟩ := Issues.of_column h (fun k => k.addOp (prefOp d l2only (a :: ls))) rfl
    refine ⟨_, hi, hissues, (congrArg Warp.loads hw :), (congrArg Warp.stores hw :), ?_⟩
    rw [if_neg (List.cons_ne_nil _ _), ← h.ops, ← h.nextOp]
    exact (congrArg Column.ops hc :)

end

/-! ## A line of a CCTL performed -/

/-- What a column keeps in its L2 slices. -/
def Column.l2State (k : Column) : List L2Tag × BitVec 64 := (k.l2, k.l2Bypass)

theorem Dev.l2State_controllerReads (d : Dev) (c : Nat) (secs : List Nat) : ((d.controllerReads c secs).col c).l2State = (d.col c).l2State := by
  have hread (d : Dev) (va : Nat) : ((d.bankRead c va).col c).l2State = (d.col c).l2State := by
    unfold Dev.bankRead
    dsimp only
    generalize d.inject.find? (fun x => x.1 == vkey c va / 32) = r
    cases r with
    | none => rfl
    | some x =>
      obtain ⟨key, ce⟩ := x
      cases ce
      · rfl
      · dsimp only
        unfold Dev.col
        rw [if_pos rfl, Dev.cols_corrected]
  cases secs with
  | nil => rfl
  | cons a secs =>
    refine (foldl_keeps (fun d : Dev => (d.col c).l2State) (fun d a => d.bankRead c a) hread (a :: secs) (d.bankShut c a)).trans ?_
    refine (congrArg Column.l2State (d.col_modCol c (fun k => { k with hand := k.hand.ordinary d.now (bankOf a) }))).trans ?_
    rfl

theorem Column.l2Valid_iff {k : Column} {va : Nat} : k.l2Valid va = true ↔ ∃ t, k.l2Tag (va / 512) = some t ∧ (t.line (va / 128)).valid = true := by
  unfold Column.l2Valid
  cases k.l2Tag (va / 512) with
  | none => simp
  | some t => simp

/-- A line with its pin set, where it is valid, and its superblock repacked (R212). -/
def Column.pin (k : Column) (va : Nat) : Column := k.l2Change va (fun l => { l with pinned := l.valid })

theorem said_valid {a b : L2Line} (h : a.said = b.said) : a.valid = b.valid := (congrArg L2Line.valid h :)

/-- A valid line is pinned, or its set is bypassed. -/
theorem Column.pin_spec (k : Column) (va : Nat) :
    ((k.pin va).l2Bypass = k.l2Bypass ∧ (k.l2Valid va = true → (k.pin va).pinnedAt va = true)) ∨ (k.pin va).l2Bypass = k.l2Bypass + 1 := by
  rcases Column.l2Repack_repacked (va / 512) 32 (k.l2Mod va (fun l => { l with pinned := l.valid })) with ⟨hby, htag⟩ | hby
  · refine .inl ⟨hby, fun hvalid => ?_⟩
    obtain ⟨t, ht, hv⟩ := Column.l2Valid_iff.mp hvalid
    have hmod : (k.l2Mod va (fun l => { l with pinned := l.valid })).l2Tag (va / 512) =
        some (t.setLine (va / 128) { t.line (va / 128) with pinned := (t.line (va / 128)).valid }) := by
      rw [Column.l2Tag_l2Mod, ht]
      exact congrArg some (if_pos rfl)
    obtain ⟨u, hu, hline⟩ := htag _ hmod
    refine Column.pinnedAt_iff.mpr ⟨u, hu, ?_⟩
    rw [said_pinned (hline (va / 128)), L2Tag.line_setLine, if_pos rfl]
    exact hv
  · exact .inr hby

theorem Column.freeSlots_l2Mod (k : Column) (va : Nat) (f : L2Line → L2Line) : (k.l2Mod va f).freeSlots (va / 512) = k.freeSlots (va / 512) := by
  have hused : ((k.l2Mod va f).l2.filter (fun t => sameSet t.sb (va / 512) && t.sb != va / 512)).map L2Tag.slots =
      (k.l2.filter (fun t => sameSet t.sb (va / 512) && t.sb != va / 512)).map L2Tag.slots := by
    change ((k.l2.map _).filter _).map _ = _
    rw [List.filter_map, List.map_map]
    have hp : ((fun t : L2Tag => sameSet t.sb (va / 512) && t.sb != va / 512) ∘
        fun t : L2Tag => if t.sb = va / 512 then t.setLine (va / 128) (f (t.line (va / 128))) else t) =
        fun t => sameSet t.sb (va / 512) && t.sb != va / 512 := by
      funext t
      simp only [Function.comp]
      split <;> rfl
    rw [hp]
    refine List.map_congr_left fun t ht => ?_
    have hne := (List.mem_filter.mp ht).2
    simp only [Bool.and_eq_true, bne_iff_ne] at hne
    simp only [Function.comp, if_neg hne.2]
  unfold Column.freeSlots
  rw [hused]

/-- A valid line is pinned where its superblock fits into the slots that its set leaves free. -/
theorem Column.pin_fits {k : Column} {va : Nat} (hvalid : k.l2Valid va = true)
    (h : let t := (k.l2Tag (va / 512)).getD { sb := va / 512, lines := Vector.replicate 4 L2Line.none }
      (t.setLine (va / 128) { t.line (va / 128) with pinned := true }).fitsIn (k.freeSlots (va / 512)).length = true) :
    (k.pin va).pinnedAt va = true := by
  obtain ⟨t, ht, hv⟩ := Column.l2Valid_iff.mp hvalid
  rw [ht] at h
  obtain ⟨p, hp⟩ : ∃ p, p = t.setLine (va / 128) { t.line (va / 128) with pinned := true } := ⟨_, rfl⟩
  have hmod : (k.l2Mod va (fun l => { l with pinned := l.valid })).l2Tag (va / 512) = some p := by
    rw [Column.l2Tag_l2Mod, ht, hp, ← hv]
    exact congrArg some (if_pos rfl)
  have hfit : p.fitsIn (k.freeSlots (va / 512)).length = true := by
    rw [hp]
    exact h
  have hpin : k.pin va = (k.l2Mod va (fun l => { l with pinned := l.valid })).l2Set (p.placed (k.freeSlots (va / 512))) := by
    unfold Column.pin Column.l2Change Column.l2Repack
    rw [hmod]
    dsimp only
    rw [Column.freeSlots_l2Mod, if_pos hfit]
  have hsb := Column.l2Tag_sb hmod
  refine Column.pinnedAt_iff.mpr ⟨p.placed (k.freeSlots (va / 512)), ?_, ?_⟩
  · rw [hpin, Column.l2Tag_l2Set, hmod]
    exact congrArg some (if_pos hsb.symm)
  · rw [said_pinned (L2Tag.said_placed _ _ _), hp, L2Tag.line_setLine, if_pos rfl]

/-- A missing line that enters its set is valid, or the set is bypassed. -/
theorem Column.l2Enter_spec (k : Column) (va : Nat) {l : L2Line} (hl : l.valid = true) :
    ((k.l2Enter va l false).l2Bypass = k.l2Bypass ∧ (k.l2Enter va l false).l2Valid va = true) ∨ (k.l2Enter va l false).l2Bypass = k.l2Bypass + 1 := by
  obtain ⟨k0, hk0, hby0⟩ : ∃ k0, k0 = (if (k.l2Tag (va / 512)).isNone && decide (16 ≤ (k.l2.filter (fun t => sameSet t.sb (va / 512))).length) then
      match k.l2Victim (va / 512) true with
      | some v => k.l2Evict v
      | none => k
    else k) ∧ k0.l2Bypass = k.l2Bypass := by
    refine ⟨_, rfl, proj_ite Column.l2Bypass ?_ rfl⟩
    cases k.l2Victim (va / 512) true with
    | none => rfl
    | some v => exact Column.l2Bypass_l2Evict _ _
  obtain ⟨t, ht⟩ : ∃ t, t = (k0.l2Tag (va / 512)).getD { sb := va / 512, lines := Vector.replicate 4 L2Line.none } := ⟨_, rfl⟩
  have hsb : t.sb = va / 512 := by
    rw [ht]
    cases hx : k0.l2Tag (va / 512) with
    | none => rfl
    | some x => exact Column.l2Tag_sb hx
  obtain ⟨u, hu⟩ : ∃ u, u = t.setLine (va / 128) { l with expiry := (t.line (va / 128)).expiry } := ⟨_, rfl⟩
  obtain ⟨k1, hk1⟩ : ∃ k1 : Column, k1 = { k0 with l2 := u :: k0.l2.filter (fun x => x.sb != va / 512) } := ⟨_, rfl⟩
  have henter : k.l2Enter va l false = Column.l2Repack (va / 512) 32 k1 := by
    rw [hk1, hu, ht, hk0]
    rfl
  have htag : k1.l2Tag (va / 512) = some u := by
    rw [hk1]
    refine List.find?_cons_of_pos ?_
    rw [hu]
    exact beq_iff_eq.mpr hsb
  have hby1 : k1.l2Bypass = k.l2Bypass := by
    rw [hk1]
    exact hby0
  rw [henter]
  rcases Column.l2Repack_repacked (va / 512) 32 k1 with ⟨hby, hkeep⟩ | hby
  · obtain ⟨w, hw, hline⟩ := hkeep u htag
    refine .inl ⟨hby.trans hby1, Column.l2Valid_iff.mpr ⟨w, hw, ?_⟩⟩
    rw [said_valid (hline (va / 128)), hu, L2Tag.line_setLine, if_pos rfl]
    exact hl
  · exact .inr (hby.trans (congrArg (· + 1) hby1))

theorem State.l2Bring_spec (s : State) (c va : Nat) (zc : Bool) (secs : List Nat) :
    (((s.l2Bring c va zc false secs).col c).l2Bypass = (s.dev.col c).l2Bypass ∧ ((s.l2Bring c va zc false secs).col c).l2Valid va = true) ∨
      ((s.l2Bring c va zc false secs).col c).l2Bypass = (s.dev.col c).l2Bypass + 1 := by
  unfold State.l2Bring
  dsimp only
  split
  · rw [Dev.col_modCol]
    exact .inr rfl
  · rw [Dev.col_modCol]
    have hby : ((s.dev.controllerReads c secs).col c).l2Bypass = (s.dev.col c).l2Bypass :=
      (congrArg Prod.snd (s.dev.l2State_controllerReads c secs) :)
    rw [← hby]
    exact Column.l2Enter_spec _ va rfl

/-! ## A request of a CCTL -/

theorem Dev.modCol_const (d : Dev) (c : Nat) (k : Column) : d.putCol c k = d.modCol c (fun _ => k) := rfl

section
variable {s : State} {a : LaneAcc}

theorem State.cctlLine_clean : (s.cctlLine 0 a).1 = { s with dev := s.dev.modCol a.tcol (fun k => k.l2Mod a.va (fun l => { l with dirty := false })) } := rfl

theorem State.cctlLine_flush : (s.cctlLine 1 a).1 =
    { s with dev := s.dev.modCol a.tcol (fun k => k.l2Mod a.va (fun l => if l.pinned then { l with dirty := false } else l.drop)) } := rfl

/-- A line pinned, brought into its set first where it is absent. -/
def State.pinLine (s : State) (a : LaneAcc) : Dev :=
  (if (s.dev.col a.tcol).l2Valid a.va then s.dev else s.l2Bring a.tcol a.va a.zc false (lineSectors a.va)).modCol a.tcol (fun k => k.pin a.va)

/-- A line that a .pin names: one that is pinned or kept aside stays as it is, and a set that is all pinned is bypassed. -/
theorem State.cctlLine_pin (p : BitVec 3) (h0 : p ≠ 0) (h1 : p ≠ 1) : (s.cctlLine p a).1 =
    if (s.dev.col a.tcol).pinnedAt a.va || (s.dev.col a.tcol).aside a.va then s
    else if (s.dev.col a.tcol).l2Full (a.va / 512) true then { s with dev := s.dev.modCol a.tcol (fun k => { k with l2Bypass := k.l2Bypass + 1 }) }
    else { s with dev := s.pinLine a } := by
  have hpinned : (((s.dev.col a.tcol).l2Tag (a.va / 512)).map (fun t => (t.line (a.va / 128)).pinned)).getD false = (s.dev.col a.tcol).pinnedAt a.va := by
    unfold Column.pinnedAt Column.l2At
    cases (s.dev.col a.tcol).l2Tag (a.va / 512) <;> rfl
  unfold State.cctlLine
  dsimp only
  rw [if_neg h0, if_neg h1, hpinned]
  rw [apply_ite Prod.fst, apply_ite Prod.fst]
  rfl

theorem State.cctlLine_clean_col : (s.cctlLine 0 a).1.dev.col a.tcol = (s.dev.col a.tcol).l2Mod a.va (fun l => { l with dirty := false }) := by
  rw [State.cctlLine_clean]
  exact Dev.col_modCol _ _ (fun k => k.l2Mod a.va (fun l => { l with dirty := false }))

theorem State.cctlLine_flush_col : (s.cctlLine 1 a).1.dev.col a.tcol =
    (s.dev.col a.tcol).l2Mod a.va (fun l => if l.pinned then { l with dirty := false } else l.drop) := by
  rw [State.cctlLine_flush]
  exact Dev.col_modCol _ _ (fun k => k.l2Mod a.va (fun l => if l.pinned then { l with dirty := false } else l.drop))

theorem State.cctlLine_vault (p : BitVec 3) : (s.cctlLine p a).1.vault = s.vault := by
  by_cases h0 : p = 0
  · subst h0
    rfl
  · by_cases h1 : p = 1
    · subst h1
      rfl
    · rw [State.cctlLine_pin p h0 h1]
      exact proj_ite State.vault rfl (proj_ite State.vault rfl rfl)

theorem SameWarps.ite_state {d : Dev} {q : Prop} [Decidable q] {s t : State} (hs : SameWarps d s.dev) (ht : SameWarps d t.dev) :
    SameWarps d (if q then s else t).dev := by
  split
  · exact hs
  · exact ht

theorem SameWarps.pinLine (s : State) (a : LaneAcc) : SameWarps s.dev (s.pinLine a) := by
  have hline : SameWarps s.dev (if (s.dev.col a.tcol).l2Valid a.va then s.dev else s.l2Bring a.tcol a.va a.zc false (lineSectors a.va)) := by
    split
    · exact .refl _
    · exact .l2Bring _ _ _ _ _ _
  exact hline.trans (.modCol _ _ _ (Column.kept_l2Change _ _ _))

theorem SameWarps.cctlLine (p : BitVec 3) : SameWarps s.dev (s.cctlLine p a).1.dev := by
  by_cases h0 : p = 0
  · subst h0
    exact .modCol s.dev a.tcol (fun k => k.l2Mod a.va (fun l => { l with dirty := false })) (Column.kept_l2Mod _ _ _)
  · by_cases h1 : p = 1
    · subst h1
      exact .modCol s.dev a.tcol (fun k => k.l2Mod a.va (fun l => if l.pinned then { l with dirty := false } else l.drop)) (Column.kept_l2Mod _ _ _)
    · rw [State.cctlLine_pin p h0 h1]
      exact .ite_state (.refl _) (.ite_state (.modCol _ _ (fun k => { k with l2Bypass := k.l2Bypass + 1 }) rfl) (.pinLine s a))

/-- A .pin that its set does not refuse pins the line, or counts a bypass. -/
theorem State.pinLine_spec : ((s.pinLine a).col a.tcol).pinnedAt a.va = true ∨ ((s.pinLine a).col a.tcol).l2Bypass ≠ (s.dev.col a.tcol).l2Bypass := by
  have hone (b : BitVec 64) : b + 1 ≠ b := by bv_omega
  have htwo (b : BitVec 64) : b + 1 + 1 ≠ b := by bv_omega
  have hpin (d : Dev) : (d.modCol a.tcol (fun k => k.pin a.va)).col a.tcol = (d.col a.tcol).pin a.va := d.col_modCol a.tcol (fun k => k.pin a.va)
  unfold State.pinLine
  rw [hpin]
  by_cases hv : (s.dev.col a.tcol).l2Valid a.va = true
  · rw [if_pos hv]
    rcases (s.dev.col a.tcol).pin_spec a.va with ⟨-, h⟩ | h
    · exact .inl (h hv)
    · rw [h]
      exact .inr (hone _)
  · rw [if_neg hv]
    have hline := s.l2Bring_spec a.tcol a.va a.zc (lineSectors a.va)
    generalize s.l2Bring a.tcol a.va a.zc false (lineSectors a.va) = d at hline ⊢
    rcases (d.col a.tcol).pin_spec a.va with ⟨hp, hpinned⟩ | hp
    · rcases hline with ⟨-, hvalid⟩ | hb
      · exact .inl (hpinned hvalid)
      · rw [hp, hb]
        exact .inr (hone _)
    · rcases hline with ⟨hb, -⟩ | hb
      · rw [hp, hb]
        exact .inr (hone _)
      · rw [hp, hb]
        exact .inr (htwo _)

theorem State.pinLine_valid (h : (s.dev.col a.tcol).l2Valid a.va = true) : (s.pinLine a).col a.tcol = (s.dev.col a.tcol).pin a.va := by
  unfold State.pinLine
  rw [if_pos h]
  exact Dev.col_modCol _ _ (fun k => k.pin a.va)

/-- A request of one line, performed: what it leaves of memory and of the L2 slices. -/
theorem State.storeReq_cctl {c req : Nat} {o : MemOp} {p : BitVec 3} (hop : (s.dev.col c).op? o.id = some o) (hkind : o.kind = .cctl p)
    (hls : o.lanes.filter (fun b => b.req == req) = [a]) (hov : (s.dev.col c).overtakes o [a] = false) :
    (s.storeReq c o req).vault = s.vault ∧
      ∀ e, ((s.storeReq c o req).dev.col e).l2State = ((s.cctlLine p a).1.dev.col e).l2State := by
  have hperform : s.perform c o [a] = ((s.cctlLine p a).1, max 0 (s.cctlLine p a).2, []) := by
    unfold State.perform
    rw [hkind]
    rfl
  have hbehind : (s.dev.col c).behind s.dev.now o [a] = false := by
    unfold Column.behind
    rw [hkind]
    rfl
  have hnot : o.kind ≠ .gpatch := by
    rw [hkind]
    exact fun h => nomatch h
  have hsame := SameWarps.cctlLine (s := s) (a := a) p
  have hfound : ((s.cctlLine p a).1.dev.col c).op? o.id = some o := by
    unfold Column.op?
    rw [hsame.core.ops]
    exact hop
  obtain ⟨t, ht⟩ : ∃ t, t = (s.cctlLine p a).1 := ⟨_, rfl⟩
  obtain ⟨n, hn⟩ : ∃ n, n = max 0 (s.cctlLine p a).2 := ⟨_, rfl⟩
  rw [← ht] at hfound
  have hload : o.kind.isLoad = false := by
    rw [hkind]
    rfl
  have hreq : s.storeReq c o req = { t with dev := t.dev.modCol c (fun k =>
      k.setOp { o with lanes := o.lanes.filter (fun a => a.req != req), time := max o.time n, done := o.done ++ [] }) } := by
    unfold State.storeReq
    rw [hls]
    dsimp only
    rw [hov, hbehind, if_neg hnot, hperform, ← ht, ← hn]
    dsimp only
    rw [hfound]
    dsimp only
    rw [hload]
    rfl
  rw [hreq, ← ht]
  refine ⟨(congrArg State.vault ht).trans (State.cctlLine_vault p), fun e => ?_⟩
  refine Dev.modCol_keeps Column.l2State ?_ _ _ _
  intro k
  rfl

end

theorem Column.kept_unpins (as : List LaneAcc) (k : Column) :
    (as.foldl (fun (k : Column) (a : LaneAcc) => k.unpin a.va) k).kept = k.kept := by
  induction as generalizing k with
  | nil => rfl
  | cons a as ih => exact (ih _).trans (Column.kept_l2Change _ _ _)

/-- Lines unpinned by an instruction that then advances. -/
theorem unpin_enters {i : Instr} {s : State} {d : Dev} {as : List LaneAcc} (h : SameOps s.dev d)
    (hi : exec i s = s.conclude (.retire (d.modCol s.dev.cur.col (fun k => as.foldl (fun (k : Column) (a : LaneAcc) => k.unpin a.va) k)).advance)) :
    ∃ u, exec i s = .next u ∧ Issues s u ∧ u.dev.curCol.ops = s.dev.curCol.ops ∧ (∀ a ∈ as, u.dev.curCol.pinnedAt a.va = false) ∧
      (∀ va, u.dev.curCol.pinnedAt va = true → d.curCol.pinnedAt va = true) ∧
      ∀ va, (∀ a ∈ as, sameSet (va / 512) (a.va / 512) = false) → u.dev.curCol.l2At va = d.curCol.l2At va := by
  have hkeep := Column.kept_unpins as d.curCol
  obtain ⟨hissues, -, hcol⟩ := Issues.of_column h (fun k => as.foldl (fun (k : Column) (a : LaneAcc) => k.unpin a.va) k) (congrArg Column.warps hkeep :)
  rw [← h.cur] at hi
  obtain ⟨hoff, hpins, hfar⟩ := Column.unpins_spec as d.curCol
  refine ⟨_, hi, hissues, ?_, ?_, ?_, ?_⟩
  · rw [← h.ops]
    exact (congrArg Column.ops hcol :).trans (congrArg Column.ops hkeep :)
  · exact fun a ha => (congrArg (fun k : Column => k.pinnedAt a.va) hcol :).trans (hoff a ha)
  · exact fun va hva => hpins va ((congrArg (fun k : Column => k.pinnedAt va) hcol :).symm.trans hva)
  · exact fun va hva => (congrArg (fun k : Column => k.l2At va) hcol :).trans (hfar va hva)

/-- A line of a CCTL performed. -/
theorem cctl_performed {col op req : Nat} {s : State} {o : MemOp} {p : BitVec 3} {a : LaneAcc} :
    let k := s.dev.col a.tcol
    let t := (k.l2Tag (a.va / 512)).getD { sb := a.va / 512, lines := Vector.replicate 4 L2Line.none }
    let pins := t.setLine (a.va / 128) { t.line (a.va / 128) with pinned := true }
    (s.dev.col col).op? op = some o → o.kind = .cctl p → o.lanes.filter (fun b => b.req == req) = [a] →
    (s.dev.col col).overtakes o [a] = false →
      ∃ u, exec (.storePerformed col op req) s = .next u ∧ u.vault = s.vault ∧
        let v := u.dev.col a.tcol
        (p = 0 → v.l2At a.va = (k.l2At a.va).map (fun l => { l with dirty := false })) ∧
        (p = 1 → v.l2At a.va = (k.l2At a.va).map (fun l => if l.pinned then { l with dirty := false } else l.drop)) ∧
        (p.toNat ≤ 1 → ∀ va, va / 128 ≠ a.va / 128 → v.l2At va = k.l2At va) ∧
        (p = 2 → k.pinnedAt a.va = true → v.l2 = k.l2) ∧
        (p = 2 → k.pinnedAt a.va = false → k.aside a.va = false →
          (k.l2Full (a.va / 512) true = true → v.l2 = k.l2 ∧ v.l2Bypass = k.l2Bypass + 1) ∧
          (k.l2Full (a.va / 512) true = false → v.pinnedAt a.va = true ∨ v.l2Bypass ≠ k.l2Bypass) ∧
          (k.l2Full (a.va / 512) true = false → k.l2Valid a.va = true → pins.fitsIn (k.freeSlots (a.va / 512)).length = true →
            v.pinnedAt a.va = true)) := by
  intro k t pins hop hkind hls hov
  obtain rfl := Column.op?_id hop
  obtain ⟨hv, hl2⟩ := State.storeReq_cctl hop hkind hls hov
  have hexec : exec (.storePerformed col o.id req) s = .next (s.storeReq col o req) := by
    change execStorePerformed col o.id req s = _
    unfold execStorePerformed
    rw [hop]
    dsimp only
    rw [hkind]
  refine ⟨_, hexec, hv, ?_⟩
  intro v
  have hst := hl2 a.tcol
  have hvl2 : v.l2 = ((s.cctlLine p a).1.dev.col a.tcol).l2 := (congrArg Prod.fst hst :)
  have hvby : v.l2Bypass = ((s.cctlLine p a).1.dev.col a.tcol).l2Bypass := (congrArg Prod.snd hst :)
  have hat (va : Nat) : v.l2At va = ((s.cctlLine p a).1.dev.col a.tcol).l2At va := by
    unfold Column.l2At Column.l2Tag
    rw [hvl2]
  refine ⟨?_, ?_, ?_, ?_, ?_⟩
  · rintro rfl
    rw [hat, State.cctlLine_clean_col, Column.l2At_l2Mod_same]
  · rintro rfl
    rw [hat, State.cctlLine_flush_col, Column.l2At_l2Mod_same]
  · intro hp va hva
    have hcase : p = 0 ∨ p = 1 := by
      have : p.toNat = 0 ∨ p.toNat = 1 := by omega
      exact this.imp (fun h => BitVec.eq_of_toNat_eq h) (fun h => BitVec.eq_of_toNat_eq h)
    rcases hcase with rfl | rfl
    · rw [hat, State.cctlLine_clean_col, Column.l2At_l2Mod_ne _ _ hva]
    · rw [hat, State.cctlLine_flush_col, Column.l2At_l2Mod_ne _ _ hva]
  · rintro rfl hpin
    rw [hvl2, State.cctlLine_pin 2 (by decide) (by decide), show (s.dev.col a.tcol).pinnedAt a.va = true from hpin]
    rfl
  · rintro rfl hpin haside
    have hgo : ((s.dev.col a.tcol).pinnedAt a.va || (s.dev.col a.tcol).aside a.va) = false := by
      rw [show (s.dev.col a.tcol).pinnedAt a.va = false from hpin, show (s.dev.col a.tcol).aside a.va = false from haside]
      rfl
    have hline := State.cctlLine_pin (s := s) (a := a) 2 (by decide) (by decide)
    rw [if_neg (ne_true_of_eq_false hgo)] at hline
    have hpinned {b : Bool} (h : ((s.cctlLine 2 a).1.dev.col a.tcol).pinnedAt a.va = b) : v.pinnedAt a.va = b := by
      unfold Column.pinnedAt at h ⊢
      rw [hat]
      exact h
    refine ⟨fun hfull => ?_, fun hroom => ?_, fun hroom hvalid hfit => ?_⟩
    · rw [if_pos hfull] at hline
      rw [hvl2, hvby, hline]
      dsimp only
      rw [Dev.col_modCol]
      exact ⟨rfl, rfl⟩
    · rw [if_neg (ne_true_of_eq_false hroom)] at hline
      rw [hvby]
      have hspec := State.pinLine_spec (s := s) (a := a)
      rw [← show (s.cctlLine 2 a).1.dev = s.pinLine a from congrArg State.dev hline] at hspec
      exact hspec.imp_left hpinned
    · rw [if_neg (ne_true_of_eq_false hroom)] at hline
      refine hpinned ?_
      rw [show (s.cctlLine 2 a).1.dev = s.pinLine a from congrArg State.dev hline, State.pinLine_valid hvalid]
      exact Column.pin_fits hvalid hfit

end Sys2Proof.Machine
end

section
namespace Sys2Proof
open Sys2Proof.Machine

/-- Settles O20. -/
theorem cacheControlAndNoLanes : Obligations.CacheControlAndNoLanes := by
  refine ⟨?_, ?_, ?_, ?_⟩
  · intro f s hact x y k lo hi ad spad dat data pair own old p hp hready hfirst
    have hall := firstTrap_eq_none_iff.mp hfirst
    have hcs : ∀ t ∈ p.2.1, t = none := fun t ht => hall t (List.mem_append_left _ ht)
    have hus : ∀ t ∈ p.2.2.map Use.tagCheck, t = none := fun t ht => hall t (List.mem_append_right _ ht)
    simp only [List.mem_cons, List.not_mem_nil, or_false] at hp
    rcases hp with rfl | rfl | rfl | rfl | rfl | rfl | rfl | rfl | rfl | rfl | rfl | rfl | rfl | rfl | rfl | rfl | rfl
    case inl =>
      refine idle_advances (congrArg s.conclude (if_pos hact)) rfl hready (fun t ht => ?_) hus
      simp only [List.mem_cons, List.not_mem_nil, or_false] at ht hcs
      rcases ht with rfl | rfl | rfl | rfl
      · exact hcs _ (.inl rfl)
      · exact hcs _ (.inr rfl)
      · rfl
      · rfl
    case inr.inr.inr.inl =>
      refine idle_advances (congrArg s.conclude (if_pos hact)) rfl hready (fun t ht => ?_) hus
      rcases List.mem_append.mp ht with ht | ht
      · rcases List.mem_append.mp ht with ht | ht
        · exact hcs t ht
        · obtain ⟨q, -, rfl⟩ := List.mem_map.mp ht
          rfl
      · simp only [List.mem_cons, List.not_mem_nil, or_false] at ht
        rcases ht with rfl | rfl <;> rfl
    case inr.inr.inr.inr.inr.inr.inr.inr.inr.inr.inr.inr.inr.inl => exact congrArg s.conclude (if_pos hact)
    all_goals exact idle_advances (congrArg s.conclude (if_pos hact)) rfl hready hcs hus
  · intro f s d r x c lo hi us offs lines n ready
    have hat {i : Instr} {go : VCtx → List (Nat × Nat) → Issue} (hready : ready) (hi : exec i s = s.conclude (cctlAt f s go)) :
        exec i s = s.conclude (go x lines) := hi.trans (congrArg s.conclude (cctlAt_of_checks hready))
    refine ⟨?_, ?_, ?_, ?_, ?_⟩
    · intro hrec hready hchecks ls got o
      obtain ⟨hact, hbusy, hacq, hfirst⟩ := hready
      have hsame : SameOps s.dev got.1 := hrec.same.1.trans (SameOps.seekPref c x.w.ctx f.cpol s.dev.cur.priv ls { s with dev := d })
      have hacq' := hrec.acquiring hacq
      have hall : firstTrap ([rangeBound ({ x with d := d } : VCtx).regs f.adr.reg.toNat 2] ++ us.map Use.tagCheck ++
          [selCheck c x.act lo hi, recCheck c x.act lo hi f.offset f.obj.toNat n TRec.rd r, alignCheck x.act lo hi f.offset n r, poisJoin [lo, hi] x.act]) = none := by
        rw [hrec.regs x]
        rw [firstTrap_eq_none_iff] at hfirst hchecks ⊢
        intro t ht
        simp only [List.mem_append, List.mem_cons, List.not_mem_nil, or_false] at ht hfirst hchecks
        rcases ht with (ht | ht) | rfl | rfl | rfl | rfl
        · exact hfirst t (.inl (.inl ht))
        · exact hfirst t (.inl (.inr ht))
        · exact hfirst _ (.inr (.inl rfl))
        · exact hchecks _ (.inl rfl)
        · exact hchecks _ (.inr rfl)
        · exact hfirst _ (.inr (.inr rfl))
      obtain ⟨e, rfl⟩ := hrec.withCur
      have hissue : prefIssue f s = _ := (if_neg hact).trans ((if_neg (ne_true_of_eq_false hbusy)).trans ((State.withRecord_of_has hrec _ _).trans
        ((Issue.of_none hall).trans (Dev.afterAcquire_of_not hacq' _))))
      refine pref_enters (i := .pref f) (l2only := f.cpol == 1) (ls := got.2) hsame ((congrArg s.conclude hissue).trans ?_)
      rw [hsame.cur]
      rfl
    · intro p hp o got hready hstores hfound
      have hroom : ¬ (!decide (x.w.stores < 63)) = true := by
        rw [decide_eq_true (show x.w.stores < 63 from hstores)]
        decide
      have hload := State.startLoad_found (s := s) (o := o) (acc := .load) (write := false) (priv := s.dev.cur.priv) rfl rfl hfound
      have hnone : got.2.2.1 = [] := State.seekLanes_far (o := o) rfl (.inr (.inl rfl)) _ _ _ _
      have hin := (Dev.Alike.refl s.dev).loadEntered (s := s) (o := o) rfl false s.dev.cur.priv
      have hexec : exec p.1 s = s.conclude (cctlStore f s p.2) := by
        simp only [List.mem_cons, List.not_mem_nil, or_false] at hp
        rcases hp with rfl | rfl | rfl <;> rfl
      have hissue : exec p.1 s = s.conclude (.retire _) := (hat hready hexec).trans (congrArg s.conclude ((if_neg hroom).trans
        (Issue.of_found hload (fun d => .retire d.advance))))
      obtain ⟨u, hu, hissues, -, hst, hops⟩ := hin.issues hissue
      refine ⟨u, hu, hissues, hst, ?_⟩
      rw [hops, ← hnone]
      rfl
    · intro o got hready hfound
      have hsame : SameOps s.dev got.1 := SameOps.seekLanes c o false s.dev.cur.priv (cctlLanes c lines) s
      have hempty : got.2.2.2.isEmpty = true := List.isEmpty_iff.mpr hfound
      have hexec : exec (.cctlUnpin f) s = s.conclude (.retire (got.1.modCol c (fun k => got.2.1.foldl (fun (k : Column) (a : LaneAcc) => k.unpin a.va) k)).advance) :=
        (hat hready rfl).trans (congrArg s.conclude (if_pos hempty))
      exact unpin_enters hsame hexec
    · intro hready
      obtain ⟨hissues, -, hcol⟩ := Issues.of_column (SameOps.refl s.dev)
        (fun k => k.l1Drop x.w.ctx (fun o l => (lines.map Prod.snd).contains o && !l.stable)) rfl
      exact ⟨_, hat (go := fun x ls => .retire (x.d.modCurCol (fun k =>
        k.l1Drop x.w.ctx (fun o l => (ls.map Prod.snd).contains o && !l.stable))).advance) hready rfl, hissues, (congrArg Column.l1 hcol :)⟩
    · intro hact hacq
      obtain ⟨hissues, -, hcol⟩ := Issues.of_column (SameOps.refl s.dev) (fun k => k.l1Drop x.w.ctx (fun _ _ => true)) rfl
      have hissue : dropallIssue f s = _ := (if_neg hact).trans (Dev.afterAcquire_of_not hacq _)
      exact ⟨_, congrArg s.conclude hissue, hissues, (congrArg Column.l1 hcol :)⟩
  · intro col op req s o l2 hop hkind
    obtain ⟨hwarps, hl1⟩ := State.prefReq_spec (s := s) (c := col) (o := o) (l2only := l2) req
    refine ⟨{ s with dev := s.prefReq col o l2 req }, ?_, rfl, hwarps, hl1⟩
    change execLoadDataReturn col op req s = _
    unfold execLoadDataReturn
    rw [hop]
    dsimp only
    rw [hkind]
  · exact fun col op req s o p a => cctl_performed

end Sys2Proof
end

section
/-! Proofs about LDS and STS, and about the bytes of the pool (R202, R221, R225). -/

namespace Sys2Proof.Machine

/-! ## Bytes of a word -/

theorem BitVec.byte_or (v w : Word) (j : Nat) : (v ||| w).extractLsb' (8 * j) 8 = v.extractLsb' (8 * j) 8 ||| w.extractLsb' (8 * j) 8 := by
  ext n hn
  simp

theorem BitVec.byte_and (v w : Word) (j : Nat) : (v &&& w).extractLsb' (8 * j) 8 = v.extractLsb' (8 * j) 8 &&& w.extractLsb' (8 * j) 8 := by
  ext n hn
  simp

theorem BitVec.byte_mask : ∀ i < 4, ∀ j < 4, (0xFF#32 <<< (8 * i)).extractLsb' (8 * j) 8 = if j = i then BitVec.allOnes 8 else 0#8 := by decide

theorem setByte_byte (w : Word) (i : Nat) (b : Byte) {j : Nat} (hj : j < 4) :
    (setByte w i b).extractLsb' (8 * j) 8 = if j = i % 4 then b else w.extractLsb' (8 * j) 8 := by
  have hi : i % 4 < 4 := Nat.mod_lt _ (by decide)
  unfold setByte
  generalize i % 4 = i at hi
  ext n hn
  have h1 : 8 * j + n < 32 := by omega
  by_cases h : j = i
  · subst h
    have hff : (0xFF#32).getLsbD n = true := by
      interval_cases n <;> rfl
    simp [h1, hff, hn]
  · by_cases hlt : 8 * j + n < 8 * i
    · simp [h1, hlt, h]
    · have hb : b.getLsbD (8 * j + n - 8 * i) = false := BitVec.getLsbD_of_ge _ _ (by omega)
      have hff : (0xFF#32).getLsbD (8 * j + n - 8 * i) = false := (BitVec.getLsbD_setWidth (x := 0xFF#8) (m := 32) ..).trans (by
        rw [BitVec.getLsbD_of_ge _ _ (by omega), Bool.and_false])
      rw [BitVec.getLsbD_eq_getElem (by omega)] at hff
      simp [h1, hlt, h, hb, hff]

/-! ## Bytes of an entry -/

/-- The context of a byte once one byte has been written. -/
theorem PoolWord.owner_putByte (p : PoolWord) (ctx i : Nat) (b : Byte) (pois : Bool) {j : Nat} (hj : j < 4) :
    (p.putByte ctx i b pois).owner j = if j = i % 4 then ctx else p.owner j := by
  obtain ⟨own, hown⟩ : ∃ own : Nat → Nat, own = fun j => if j = i % 4 then ctx else p.owner j := ⟨_, rfl⟩
  have hput : p.putByte ctx i b pois =
      { val := setByte p.val i b, pois, ctx := own 0, alt := ([1, 2, 3].filter (fun j => own j != own 0)).map (fun j => (j, own j)) } := by
    rw [hown]
    rfl
  rw [hput, show (if j = i % 4 then ctx else p.owner j) = own j by rw [hown]]
  unfold PoolWord.owner
  by_cases h1 : own 1 = own 0 <;> by_cases h2 : own 2 = own 0 <;> by_cases h3 : own 3 = own 0 <;> interval_cases j <;> simp [h1, h2, h3]

/-- The byte j of a word of which a context sees its own bytes. -/
theorem Column.ofEntry_byte (k : Column) (ctx i : Nat) (p : PoolWord) {j : Nat} (hj : j < 4) :
    (k.ofEntry ctx i (some p)).1.extractLsb' (8 * j) 8 = if p.owner j = ctx then p.val.extractLsb' (8 * j) 8 else 0 := by
  have hfold (l : List Nat) (hl : ∀ i ∈ l, i < 4) (w : Word) :
      (l.foldl (fun w i => if p.owner i == ctx then w ||| (p.val &&& (0xFF#32 <<< (8 * i))) else w) w).extractLsb' (8 * j) 8 =
        w.extractLsb' (8 * j) 8 ||| (if p.owner j = ctx ∧ j ∈ l then p.val.extractLsb' (8 * j) 8 else 0) := by
    induction l generalizing w with
    | nil => simp
    | cons i l ih =>
      rw [List.foldl_cons, ih (fun x hx => hl x (List.mem_cons_of_mem _ hx))]
      by_cases hown : p.owner i = ctx
      · rw [if_pos (beq_iff_eq.mpr hown), BitVec.byte_or, BitVec.byte_and, BitVec.byte_mask i (hl i List.mem_cons_self) j hj]
        by_cases hji : j = i
        · subst hji
          rw [if_pos rfl, BitVec.and_allOnes]
          by_cases hjl : j ∈ l <;> simp [hown, hjl, BitVec.or_assoc]
        · simp [hji]
      · rw [if_neg (by simpa using hown)]
        by_cases hji : j = i
        · subst hji
          simp [hown]
        · simp [hji]
  unfold Column.ofEntry
  dsimp only
  split
  case isTrue h =>
    have howner : p.owner j = p.ctx := by
      unfold PoolWord.owner
      rw [List.isEmpty_iff.mp h]
      rfl
    rw [howner]
    split
    · rfl
    · exact extract_zero _ _
  case isFalse h =>
    refine (hfold (List.range 4) (fun i hi => List.mem_range.mp hi) 0).trans ?_
    simp [hj]

/-- Byte i, for a context, of words that stand in a table and are blank from `base` on. -/
def Column.entryByte (k : Column) (base ctx : Nat) (t : Table PoolWord) (i : Nat) : Byte :=
  (k.ofEntry ctx (base + i / 4) (t.get? (i / 4))).1.extractLsb' (8 * (i % 4)) 8

/-- Byte i of the pool for a context. -/
def Column.poolByte (k : Column) (ctx i : Nat) : Byte := (k.poolWord ctx (i / 4)).1.extractLsb' (8 * (i % 4)) 8

theorem Column.poolByte_eq (k : Column) (ctx i : Nat) : k.poolByte ctx i = k.entryByte 0 ctx k.pool i := by
  unfold Column.poolByte Column.poolWord Column.entryByte
  rw [Nat.zero_add]

/-- The entry that a write of a byte finds. -/
def Column.entryFor (k : Column) (base ctx : Nat) (t : Table PoolWord) (n : Nat) : PoolWord :=
  match t.get? n with
  | some p => p
  | none => { val := (k.blank ctx (base + n)).1, pois := (k.blank ctx (base + n)).2, ctx := ctx }

section
variable {k : Column} {base ctx : Nat}

theorem Column.entryFor_byte (t : Table PoolWord) (n : Nat) {j : Nat} (hj : j < 4) :
    (k.ofEntry ctx (base + n) (some (k.entryFor base ctx t n))).1.extractLsb' (8 * j) 8 =
      (k.ofEntry ctx (base + n) (t.get? n)).1.extractLsb' (8 * j) 8 := by
  unfold Column.entryFor
  cases t.get? n with
  | some p => rfl
  | none =>
    rw [Column.ofEntry_byte _ _ _ _ hj]
    exact if_pos rfl

/-- What one byte written for a context leaves in the bytes that the context sees. -/
theorem Column.entryByte_set (t : Table PoolWord) (a : Nat) (b : Byte) (pois : Bool) (i : Nat) :
    k.entryByte base ctx (t.set (a / 4) ((k.entryFor base ctx t (a / 4)).putByte ctx a b pois)) i =
      if i = a then b else k.entryByte base ctx t i := by
  have hi : i % 4 < 4 := Nat.mod_lt _ (by decide)
  unfold Column.entryByte
  rw [Table.get?_set]
  by_cases hw : i / 4 = a / 4
  · rw [if_pos hw, hw, Column.ofEntry_byte _ _ _ _ hi, PoolWord.owner_putByte _ _ _ _ _ hi]
    have hval : ((k.entryFor base ctx t (a / 4)).putByte ctx a b pois).val = setByte (k.entryFor base ctx t (a / 4)).val a b := rfl
    rw [hval, setByte_byte _ _ _ hi, ← k.entryFor_byte t (a / 4) hi, Column.ofEntry_byte _ _ _ _ hi]
    by_cases hia : i = a
    · rw [if_pos (congrArg (· % 4) hia), if_pos rfl, if_pos (congrArg (· % 4) hia), if_pos hia]
    · have hne : i % 4 ≠ a % 4 := by omega
      rw [if_neg hne, if_neg hne, if_neg hia]
  · rw [if_neg hw, if_neg (fun h => hw (congrArg (· / 4) h))]

theorem Column.putBytes_cons (pois : Bool) (t : Table PoolWord) (a : Nat) (b : Byte) (bs : List Byte) :
    k.putBytes base ctx pois t a (b :: bs) =
      k.putBytes base ctx pois (t.set (a / 4) ((k.entryFor base ctx t (a / 4)).putByte ctx a b
        (pois || ((k.entryFor base ctx t (a / 4)).pois && !(a % 4 == 0 && decide (3 ≤ bs.length)))))) (a + 1) bs := by
  unfold Column.entryFor
  rewrite [Column.putBytes]
  cases t.get? (a / 4) <;> rfl

/-- Bytes written for a context. -/
theorem Column.putBytes_byte (pois : Bool) (t : Table PoolWord) (a : Nat) (bs : List Byte) (i : Nat) :
    k.entryByte base ctx (k.putBytes base ctx pois t a bs) i =
      if a ≤ i ∧ i < a + bs.length then bs.getD (i - a) 0 else k.entryByte base ctx t i := by
  induction bs generalizing t a with
  | nil => exact (if_neg (by simp)).symm
  | cons b bs ih =>
    rw [Column.putBytes_cons, ih, Column.entryByte_set, List.length_cons]
    by_cases hia : i = a
    · subst hia
      rw [if_neg (by omega), if_pos rfl, if_pos (by omega), Nat.sub_self]
      rfl
    · rw [if_neg hia]
      by_cases hin : a + 1 ≤ i ∧ i < a + 1 + bs.length
      · rw [if_pos hin, if_pos (by omega), show i - a = (i - (a + 1)) + 1 by omega]
        rfl
      · rw [if_neg hin, if_neg (by omega)]

/-- A word of which no byte is written. -/
theorem Column.putBytes_word (pois : Bool) (t : Table PoolWord) (a : Nat) (bs : List Byte) {n : Nat} (h : 4 * n + 4 ≤ a ∨ a + bs.length ≤ 4 * n) :
    (k.putBytes base ctx pois t a bs).get? n = t.get? n := by
  induction bs generalizing t a with
  | nil => rfl
  | cons b bs ih =>
    rw [List.length_cons] at h
    rw [Column.putBytes_cons, ih _ _ (by omega), Table.get?_set_ne _ _ (by omega)]

end

/-! ## An STS performed -/

/-- What a lane of an STS leaves as it was: all but the pool and the marks of tile operations. -/
def Column.tiled (k : Column) : Column := { k with pool := [], tileQ := Vector.replicate 2 [] }

theorem Column.putPoolBytes_byte (k : Column) (ctx : Nat) (pois : Bool) (a : Nat) (bs : List Byte) (i : Nat) :
    (k.putPoolBytes ctx pois a bs).poolByte ctx i = if a ≤ i ∧ i < a + bs.length then bs.getD (i - a) 0 else k.poolByte ctx i := by
  rw [Column.poolByte_eq, Column.poolByte_eq]
  exact Column.putBytes_byte pois k.pool a bs i

theorem Column.putPoolBytes_word (k : Column) (ctx : Nat) (pois : Bool) (a : Nat) (bs : List Byte) {n : Nat}
    (h : 4 * n + 4 ≤ a ∨ a + bs.length ≤ 4 * n) : (k.putPoolBytes ctx pois a bs).poolWord ctx n = k.poolWord ctx n := by
  change k.ofEntry ctx n ((k.putBytes 0 ctx pois k.pool a bs).get? n) = k.ofEntry ctx n (k.pool.get? n)
  rw [Column.putBytes_word _ _ _ _ h]

/-- A column with the bytes bs written from a on for a context, and all else but tile operations' marks kept. -/
structure Wrote (k k1 : Column) (ctx a : Nat) (bs : List Byte) : Prop where
  frame : k1.tiled = k.tiled
  byte  : ∀ i, k1.poolByte ctx i = if a ≤ i ∧ i < a + bs.length then bs.getD (i - a) 0 else k.poolByte ctx i
  word  : ∀ n, (4 * n + 4 ≤ a ∨ a + bs.length ≤ 4 * n) → k1.poolWord ctx n = k.poolWord ctx n

theorem Column.putPoolBytes_wrote (k : Column) (ctx : Nat) (pois : Bool) (a : Nat) (bs : List Byte) :
    Wrote k (k.putPoolBytes ctx pois a bs) ctx a bs :=
  ⟨rfl, k.putPoolBytes_byte ctx pois a bs, fun _ => k.putPoolBytes_word ctx pois a bs⟩

theorem Wrote.append {k k1 k2 : Column} {ctx a : Nat} {bs cs : List Byte} (h : Wrote k k1 ctx a bs) (h2 : Wrote k1 k2 ctx (a + bs.length) cs) :
    Wrote k k2 ctx a (bs ++ cs) := by
  refine ⟨h2.frame.trans h.frame, fun i => ?_, fun n hn => ?_⟩
  · rw [h2.byte, h.byte, List.length_append]
    by_cases h1 : a + bs.length ≤ i ∧ i < a + bs.length + cs.length
    · rw [if_pos h1, if_pos (by omega), List.getD_append_right _ _ _ _ (by omega), Nat.sub_sub]
    · rw [if_neg h1]
      by_cases h3 : a ≤ i ∧ i < a + bs.length
      · rw [if_pos h3, if_pos (by omega), List.getD_append _ _ _ _ (by omega)]
      · rw [if_neg h3, if_neg (by omega)]
  · rw [List.length_append] at hn
    rw [h2.word n (by omega), h.word n (by omega)]

/-- Words written one after the other, each with its poison. -/
theorem Column.putWords_wrote (ctx a : Nat) (ws : List (Word × Bool)) (n : Nat) (k : Column) :
    Wrote k ((ws.zipIdx n).foldl (fun k x => k.putPoolBytes ctx x.1.2 (a + 4 * x.2) (bytesOf 4 x.1.1.toNat)) k) ctx (a + 4 * n)
      (ws.map (fun w => bytesOf 4 w.1.toNat)).flatten := by
  induction ws generalizing n k with
  | nil => exact ⟨rfl, fun i => (if_neg (by simp)).symm, fun _ _ => rfl⟩
  | cons w ws ih =>
    have h := ih (n + 1) (k.putPoolBytes ctx w.2 (a + 4 * n) (bytesOf 4 w.1.toNat))
    rw [show a + 4 * (n + 1) = a + 4 * n + (bytesOf 4 w.1.toNat).length by rw [length_bytesOf]; omega] at h
    exact (k.putPoolBytes_wrote ctx w.2 (a + 4 * n) (bytesOf 4 w.1.toNat)).append h

theorem Column.spadPut_wrote (k : Column) {o : MemOp} {a : LaneAcc} (h : a.pois.length = a.data.length) :
    Wrote k (k.spadPut o a) o.ctx a.va (storeBytes o.size false a.data) := by
  unfold Column.spadPut
  by_cases hs : o.size ≤ 1
  · rw [if_pos hs]
    unfold storeBytes
    rw [if_pos hs]
    exact k.putPoolBytes_wrote _ _ _ _
  · rw [if_neg hs]
    unfold storeBytes
    rw [if_neg hs, if_neg Bool.false_ne_true]
    have hw := Column.putWords_wrote o.ctx a.va (a.data.zip a.pois) 0 k
    have hdata : (a.data.zip a.pois).map (fun w => bytesOf 4 w.1.toNat) = a.data.map (fun w => bytesOf 4 w.toNat) := by
      rw [show (fun w : Word × Bool => bytesOf 4 w.1.toNat) = (fun w : Word => bytesOf 4 w.toNat) ∘ Prod.fst from rfl, ← List.map_map,
        List.map_fst_zip (by omega)]
    rw [hdata] at hw
    exact hw

theorem length_storeBytes {size : Nat} {ws : List Word} (hsize : size ≤ 4) (h : ws.length = accessRegs size) :
    (storeBytes size false ws).length = accessBytes size := by
  unfold storeBytes accessBytes
  by_cases hs : size ≤ 1
  · rw [if_pos hs, length_bytesOf]
  · rw [if_neg hs, if_neg Bool.false_ne_true, List.length_flatten, List.map_map,
      show List.length ∘ (fun w : Word => bytesOf 4 w.toNat) = Function.const Word 4 from funext fun w => length_bytesOf 4 _,
      List.map_const, List.sum_replicate, h]
    interval_cases size <;> rfl

/-- No tile operation of a queue writes the words of a lane's bytes (R263). -/
def Column.unwritten (k : Column) (a : LaneAcc) : Prop :=
  ∀ q ∈ k.queue 0 ++ k.queue 1, shared q.writes [(a.va / 4 * 4, (a.va + a.size + 3) / 4 * 4)] = []

/-- A tile operation marked where it reads bytes that have been written. -/
def TileOp.marked (lo hi : Nat) (from_ : Option (Nat × Nat)) (o : TileOp) : TileOp :=
  if meets o.reads [(lo, hi)] && !from_.any (fun x => o.slot == x.1 && decide (x.2 < o.itick)) then { o with spoiled := true } else o

theorem TileOp.marked_writes (lo hi : Nat) (from_ : Option (Nat × Nat)) (o : TileOp) : (o.marked lo hi from_).writes = o.writes :=
  proj_ite TileOp.writes rfl rfl

/-- A column whose tile operations are marked. -/
def Column.marked (k : Column) (lo hi : Nat) (from_ : Option (Nat × Nat)) : Column :=
  { k with tileQ := k.tileQ.map (fun q => q.map (TileOp.marked lo hi from_)) }

theorem Column.queue_marked (k : Column) (lo hi : Nat) (from_ : Option (Nat × Nat)) (n : Nat) :
    (k.marked lo hi from_).queue n = (k.queue n).map (TileOp.marked lo hi from_) := by
  unfold Column.queue Column.marked
  exact Vector.getElem_map _ _

theorem Column.mem_queues_marked {k : Column} {lo hi : Nat} {from_ : Option (Nat × Nat)} {q : TileOp}
    (h : q ∈ (k.marked lo hi from_).queue 0 ++ (k.marked lo hi from_).queue 1) : ∃ p ∈ k.queue 0 ++ k.queue 1, q.writes = p.writes := by
  rw [Column.queue_marked, Column.queue_marked, ← List.map_append] at h
  obtain ⟨p, hp, rfl⟩ := List.mem_map.mp h
  exact ⟨p, hp, p.marked_writes lo hi from_⟩

theorem Column.unwritten.marked {k : Column} {a : LaneAcc} (h : k.unwritten a) (lo hi : Nat) (from_ : Option (Nat × Nat)) :
    (k.marked lo hi from_).unwritten a := by
  intro q hq
  obtain ⟨p, hp, hw⟩ := Column.mem_queues_marked hq
  rw [hw]
  exact h p hp

/-- A fold over operations that share nothing. -/
theorem Column.fogRanges_nil {xs : List (TileOp × List (Nat × Nat))} (h : ∀ x ∈ xs, x.2 = []) (k : Column) :
    xs.foldl (fun (k : Column) x => x.2.foldl (fun k r => k.fogRange x.1 r) k) k = k := by
  induction xs generalizing k with
  | nil => rfl
  | cons x xs ih =>
    rw [List.foldl_cons, h x List.mem_cons_self]
    exact ih (fun y hy => h y (List.mem_cons_of_mem _ hy)) k

/-- Bytes that no tile operation writes: the tile operations that read them are marked. -/
theorem Column.touched_unwritten {k : Column} {a : LaneAcc} (h : k.unwritten a) (from_ : Option (Nat × Nat)) :
    k.touched a.va (a.va + a.size) from_ = k.marked a.va (a.va + a.size) from_ := by
  refine Column.fogRanges_nil (fun x hx => ?_) (k.marked a.va (a.va + a.size) from_)
  obtain ⟨o, ho, rfl⟩ := List.mem_map.mp hx
  exact h.marked a.va (a.va + a.size) from_ o ho

/-- A lane of an STS performed. -/
def Column.spadStep (from_ : Option (Nat × Nat)) (o : MemOp) (k : Column) (a : LaneAcc) : Column :=
  (k.spadPut o a).touched a.va (a.va + a.size) from_

section
variable {o : MemOp} {from_ : Option (Nat × Nat)}

theorem Column.tileQ_spadPut (k : Column) (o : MemOp) (a : LaneAcc) : (k.spadPut o a).tileQ = k.tileQ := by
  refine proj_ite Column.tileQ rfl ?_
  generalize (a.data.zip a.pois).zipIdx = xs
  induction xs generalizing k with
  | nil => rfl
  | cons x xs ih => exact ih _

theorem Column.unwritten.put {k : Column} {b : LaneAcc} (h : k.unwritten b) (o : MemOp) (a : LaneAcc) : (k.spadPut o a).unwritten b := by
  unfold Column.unwritten Column.queue
  rw [k.tileQ_spadPut]
  exact h

theorem Column.spadStep_wrote {k : Column} {a : LaneAcc} (h : k.unwritten a) (hlen : a.pois.length = a.data.length) :
    Wrote k (k.spadStep from_ o a) o.ctx a.va (storeBytes o.size false a.data) := by
  obtain ⟨hframe, hbyte, hword⟩ := k.spadPut_wrote (o := o) hlen
  have hstep : k.spadStep from_ o a = (k.spadPut o a).marked a.va (a.va + a.size) from_ := Column.touched_unwritten (h.put o a) from_
  rw [hstep]
  exact ⟨hframe, hbyte, hword⟩

theorem Column.unwritten.step {k : Column} {a b : LaneAcc} (h : k.unwritten b) (ha : k.unwritten a) : (k.spadStep from_ o a).unwritten b := by
  have hstep : k.spadStep from_ o a = (k.spadPut o a).marked a.va (a.va + a.size) from_ := Column.touched_unwritten (ha.put o a) from_
  rw [hstep]
  exact (h.put o a).marked _ _ _

/-- The lanes that an STS may write as the obligation has them. -/
structure MemOp.Stores (o : MemOp) (k : Column) (as : List LaneAcc) : Prop where
  size  : o.size ≤ 4
  lanes : ∀ a ∈ as, a.size = accessBytes o.size
  data  : ∀ a ∈ as, a.data.length = accessRegs o.size ∧ a.pois.length = accessRegs o.size
  quiet : ∀ a ∈ as, k.unwritten a

theorem MemOp.Stores.length {k : Column} {as : List LaneAcc} (h : o.Stores k as) {a : LaneAcc} (ha : a ∈ as) :
    (storeBytes o.size false a.data).length = a.size :=
  (length_storeBytes h.size (h.data a ha).1).trans (h.lanes a ha).symm

theorem MemOp.Stores.tail {k : Column} {a : LaneAcc} {as : List LaneAcc} (h : o.Stores k (a :: as)) : o.Stores (k.spadStep from_ o a) as :=
  ⟨h.size, fun b hb => h.lanes b (List.mem_cons_of_mem _ hb), fun b hb => h.data b (List.mem_cons_of_mem _ hb),
    fun b hb => (h.quiet b (List.mem_cons_of_mem _ hb)).step (h.quiet a List.mem_cons_self)⟩

theorem MemOp.Stores.head {k : Column} {a : LaneAcc} {as : List LaneAcc} (h : o.Stores k (a :: as)) :
    Wrote k (k.spadStep from_ o a) o.ctx a.va (storeBytes o.size false a.data) := by
  obtain ⟨hd, hp⟩ := h.data a List.mem_cons_self
  exact Column.spadStep_wrote (h.quiet a List.mem_cons_self) (hp.trans hd.symm)

/-- The lanes of an STS, one after the other. -/
theorem Column.spadSteps_spec {as : List LaneAcc} {k : Column} (h : o.Stores k as) :
    (as.foldl (Column.spadStep from_ o) k).tiled = k.tiled ∧
      (∀ n, (∀ a ∈ as, 4 * n + 4 ≤ a.va ∨ a.va + a.size ≤ 4 * n) →
        (as.foldl (Column.spadStep from_ o) k).poolWord o.ctx n = k.poolWord o.ctx n) ∧
      (∀ i, (∀ a ∈ as, i < a.va ∨ a.va + a.size ≤ i) → (as.foldl (Column.spadStep from_ o) k).poolByte o.ctx i = k.poolByte o.ctx i) ∧
      ∀ pre a post, as = pre ++ a :: post → (∀ b ∈ post, a.va + a.size ≤ b.va ∨ b.va + b.size ≤ a.va) →
        ∀ j < a.size, (as.foldl (Column.spadStep from_ o) k).poolByte o.ctx (a.va + j) = (storeBytes o.size false a.data).getD j 0 := by
  induction as generalizing k with
  | nil => exact ⟨rfl, fun _ _ => rfl, fun _ _ => rfl, fun pre a post hp => absurd hp (by simp)⟩
  | cons a as ih =>
    obtain ⟨hframe, hword, hbyte, hlane⟩ := ih (h.tail (from_ := from_))
    obtain ⟨hframe0, hbyte0, hword0⟩ := h.head (from_ := from_)
    rw [h.length List.mem_cons_self] at hbyte0 hword0
    refine ⟨hframe.trans hframe0, fun n hn => ?_, fun i hi => ?_, fun pre b post hp hpost j hj => ?_⟩
    · exact (hword n fun b hb => hn b (List.mem_cons_of_mem _ hb)).trans (hword0 n (hn a List.mem_cons_self))
    · have hout := hi a List.mem_cons_self
      exact (hbyte i fun b hb => hi b (List.mem_cons_of_mem _ hb)).trans ((hbyte0 i).trans (if_neg (by omega)))
    · cases pre with
      | nil =>
        obtain ⟨rfl, rfl⟩ := List.cons.inj hp
        have hin : a.va ≤ a.va + j ∧ a.va + j < a.va + a.size := by omega
        refine (hbyte (a.va + j) fun b hb => ?_).trans ((hbyte0 _).trans ((if_pos hin).trans ?_))
        · have := hpost b hb
          omega
        · rw [Nat.add_sub_cancel_left]
      | cons c pre => exact hlane pre b post (List.cons.inj hp).2 hpost j hj

end

theorem Column.poolBytes_of {k : Column} {ctx a n : Nat} {bs : List Byte} (hlen : bs.length = n)
    (h : ∀ j < n, k.poolByte ctx (a + j) = bs.getD j 0) : (k.poolBytes ctx a n).1 = bs := by
  change (List.range n).map (fun j => k.poolByte ctx (a + j)) = bs
  refine List.ext_getElem (by rw [List.length_map, List.length_range, hlen]) fun j hj hj2 => ?_
  rw [List.getElem_map, List.getElem_range, h j (hlen ▸ hj2), List.getD_eq_getElem _ _ hj2]

theorem Column.storeDone_puts (k : Column) {o : MemOp} (hentry : o.entry = none) (hstore : o.kind.isStore = true) :
    ∃ w1 w2, k.storeDone o = ((k.putWarp o.slot w1).putWarp o.slot w2).delOp o.id := by
  have h1 : k.completeTime o = k.putWarp o.slot { k.warp o.slot with relTimes := timesWith (k.warp o.slot).relTimes o.reach o.time } := by
    unfold Column.completeTime
    rw [hentry]
  have h2 : (o.entry.isNone && o.kind.isStore) = true := by rw [hentry, hstore]; rfl
  have h3 : k.storeDone o = ((k.completeTime o).putWarp o.slot ((k.completeTime o).warp o.slot).unstore).delOp o.id :=
    congrArg (fun k => Column.delOp k o.id) (if_pos h2)
  rw [h3, h1]
  exact ⟨_, _, rfl⟩

/-- An STS of a warp that has not ended, performed. -/
theorem Column.spadStore_spec {k : Column} {o : MemOp} (now : Nat) (hkind : o.kind = .sts) (hentry : o.entry = none) (h : o.Stores k o.lanes) :
    (k.spadStore now o).op? o.id = none ∧ ((k.spadStore now o).warp o.slot).stores = (k.warp o.slot).stores - 1 ∧
      (∀ y, y ≠ o.slot → (k.spadStore now o).warp y = k.warp y) ∧
      (∀ n, (∀ a ∈ o.lanes, 4 * n + 4 ≤ a.va ∨ a.va + a.size ≤ 4 * n) → (k.spadStore now o).poolWord o.ctx n = k.poolWord o.ctx n) ∧
      ∀ pre a post, o.lanes = pre ++ a :: post → (∀ b ∈ post, a.va + a.size ≤ b.va ∨ b.va + b.size ≤ a.va) →
        ((k.spadStore now o).poolBytes o.ctx a.va a.size).1 = storeBytes o.size false a.data := by
  obtain ⟨hframe, hword, -, hlane⟩ := Column.spadSteps_spec (from_ := some (o.slot, o.itick)) h
  obtain ⟨k1, hk1⟩ : ∃ k1, k1 = o.lanes.foldl (Column.spadStep (some (o.slot, o.itick)) o) k := ⟨_, rfl⟩
  rw [← hk1] at hframe hword hlane
  have hdone : k.spadStore now o = k1.storeDone { o with time := now } := by
    rw [hk1]
    unfold Column.spadStore
    rw [hentry]
    rfl
  have hwarps : k1.warps = k.warps := (congrArg Column.warps hframe :)
  have hwarp (y : Nat) : k1.warp y = k.warp y := by
    unfold Column.warp
    rw [hwarps]
  have hstore : ({ o with time := now } : MemOp).kind.isStore = true := by
    change o.kind.isStore = true
    rw [hkind]
    rfl
  obtain ⟨w1, w2, hput⟩ := Column.storeDone_puts k1 (o := { o with time := now }) hentry hstore
  have hpool : (k1.storeDone { o with time := now }).poolWord = k1.poolWord := by
    rw [hput]
    rfl
  rw [hdone]
  refine ⟨Column.storeDone_op? _ _, ?_, fun y hy => ?_, fun n hn => ?_, fun pre a post hp hpost => ?_⟩
  · rw [← hwarp]
    exact congrArg Warp.stores (Column.storeDone_warp (o := { o with time := now }) hentry hstore)
  · rw [← hwarp, hput]
    change ((k1.putWarp o.slot w1).putWarp o.slot w2).warp y = k1.warp y
    unfold Column.warp Column.putWarp
    rw [Table.getD_set_ne _ _ _ hy, Table.getD_set_ne _ _ _ hy]
  · rw [hpool]
    exact hword n hn
  · have hb := hlane pre a post hp hpost
    have hlen : (storeBytes o.size false a.data).length = a.size := h.length (hp ▸ List.mem_append_right _ List.mem_cons_self)
    refine Column.poolBytes_of hlen fun j hj => ?_
    rw [← hb j hj]
    unfold Column.poolByte
    rw [hpool]

/-! ## An LDS performed -/

/-- The operation with the results of one of its registers. -/
def MemOp.only (o : MemOp) (r : Nat) : MemOp := { o with done := o.done.filter (fun x => x.reg == r) }

theorem Column.commitReg_only (k : Column) (o : MemOp) (r : Nat) : k.commitReg o r = k.commitReg (o.only r) r := by
  have hfilter : (o.done.filter (fun x => x.reg == r)).filter (fun x => x.reg == r && !o.dead r x.lane) =
      o.done.filter (fun x => x.reg == r && !o.dead r x.lane) := by
    rw [List.filter_filter]
    refine List.filter_congr fun x _ => ?_
    cases x.reg == r <;> simp
  unfold Column.commitReg
  rw [show (o.only r).done.filter (fun x => x.reg == r && !(o.only r).dead r x.lane) = _ from hfilter]
  rfl

/-- What the commit of results leaves in a register lane of which there is one write. -/
theorem Column.commit_each {k : Column} {o : MemOp} {x : LaneWrite} (hd : (o.only x.reg).Distinct) (hx : x ∈ o.done)
    (hlive : o.dead x.reg x.lane = false) : ((k.commit o).warp o.slot).laneOf x.reg x.lane = x.val := by
  obtain ⟨k1, -, hv⟩ := k.commit_reg o hx
  have hmem : x ∈ (o.only x.reg).done := List.mem_filter.mpr ⟨hx, beq_self_eq_true _⟩
  have h := (Column.commitReg_live (k := k1) hd hmem hlive).1
  unfold Warp.laneOf at h ⊢
  rw [hv, k1.commitReg_only]
  exact h

/-- What a commit leaves as it was: all but the warps, the operations' marks and the tile operations' marks. -/
def Column.settledParts (k : Column) : Column := { k with warps := [], ops := [], tileQ := Vector.replicate 2 [] }

theorem Column.commit_parts (k : Column) (o : MemOp) : (k.commit o).settledParts = k.settledParts := by
  unfold Column.commit
  generalize (o.done.map (fun x => x.reg)).eraseDups = rs
  induction rs generalizing k with
  | nil => rfl
  | cons r rs ih =>
    refine (ih _).trans ?_
    unfold Column.commitReg
    exact proj_ite Column.settledParts rfl rfl

/-- A load's last request returned, where the load writes registers and is no atomic. -/
theorem Column.loaded_eq {k : Column} {o : MemOp} (hret : ∀ h, o.kind ≠ .ret h) (hload : o.kind.isStore = false) :
    k.loaded o = (((if o.acq then (k.commit o).acquire o.ctx else k.commit o)).putWarp o.slot
      ((k.commit o).warp o.slot).unload).delOp o.id := by
  have hmatch : k.loaded o = (let k := if o.acq then (k.commit o).acquire o.ctx else k.commit o
      let k := k.putWarp o.slot (k.warp o.slot).unload
      if o.kind.isStore then k.setOp { o with lanes := [], resv := [], done := [], acq := false } else k.delOp o.id) := by
    unfold Column.loaded
    generalize o.kind = kind at hret
    cases kind
    case ret h => exact absurd rfl (hret h)
    all_goals rfl
  have hnot : ¬ o.kind.isStore = true := by rw [hload]; exact Bool.false_ne_true
  refine hmatch.trans ((if_neg hnot).trans ?_)
  cases o.acq <;> rfl

theorem Column.loaded_spec {k : Column} {o : MemOp} (hret : ∀ h, o.kind ≠ .ret h) (hload : o.kind.isStore = false) :
    (k.loaded o).op? o.id = none ∧ (k.loaded o).pool = k.pool ∧ ((k.loaded o).warp o.slot).loads = (k.warp o.slot).loads - 1 ∧
      ((k.loaded o).warp o.slot).regs = ((k.commit o).warp o.slot).regs := by
  have hpool : (k.commit o).pool = k.pool := (congrArg Column.pool (k.commit_parts o) :)
  rw [Column.loaded_eq hret hload]
  refine ⟨Column.op?_delOp _ _, ?_, ?_, ?_⟩
  · refine Eq.trans ?_ hpool
    cases o.acq <;> rfl
  · change (Column.warp (Column.putWarp _ _ _) o.slot).loads = _
    rw [Column.warp_putWarp]
    exact congrArg (· - 1) (k.commit_frame o).1
  · change (Column.warp (Column.putWarp _ _ _) o.slot).regs = _
    rw [Column.warp_putWarp]
    rfl

section
variable {k : Column} {o : MemOp}

/-- The lanes that an LDS may read into its registers, as the obligation has them. -/
structure MemOp.Loads (o : MemOp) : Prop where
  lanes : ∀ a ∈ o.lanes, a.size = accessBytes o.size ∧ a.lane < 32
  once  : ∀ a ∈ o.lanes, a.dst.length = accessRegs o.size ∧ a.dst.Nodup ∧ ∀ b ∈ o.lanes, b.lane = a.lane → b = a
  uni   : o.uni = true → ∀ a ∈ o.lanes, ∀ b ∈ o.lanes, a.va = b.va ∧ a.dst = b.dst

/-- The operation of an LDS with all that its lanes read. -/
def MemOp.spadRead (o : MemOp) (k : Column) : MemOp := { o with done := (o.lanes.map (k.spadLane o)).flatten }

/-- The j-th register of a lane. -/
def Column.spadWord (k : Column) (o : MemOp) (a : LaneAcc) (j : Nat) : LaneWrite :=
  { reg := a.dst.getD j 0, lane := a.lane,
    val := padded o.fmt ((loadWords o.size false (o.fmt == Fmt.i32) (k.poolBytes o.ctx a.va a.size).1).getD j 0),
    pois := (k.poolBytes o.ctx (a.va + 4 * j) (min 4 a.size)).2 }

theorem MemOp.mem_spadRead {x : LaneWrite} : x ∈ (o.spadRead k).done ↔ ∃ a ∈ o.lanes, ∃ j < accessRegs o.size, x = k.spadWord o a j := by
  constructor
  · intro h
    obtain ⟨l, hl, hx⟩ := List.mem_flatten.mp h
    obtain ⟨a, ha, rfl⟩ := List.mem_map.mp hl
    obtain ⟨j, hj, rfl⟩ := List.mem_map.mp hx
    exact ⟨a, ha, j, List.mem_range.mp hj, rfl⟩
  · rintro ⟨a, ha, j, hj, rfl⟩
    exact List.mem_flatten.mpr ⟨_, List.mem_map_of_mem ha, List.mem_map_of_mem (f := fun j => k.spadWord o a j) (List.mem_range.mpr hj)⟩

/-- A register of a lane has one number among its registers. -/
theorem MemOp.Loads.index {a b : LaneAcc} (h : o.Loads) (ha : a ∈ o.lanes) (hab : b.dst = a.dst) {i j : Nat} (hi : i < accessRegs o.size)
    (hj : j < accessRegs o.size) (hreg : b.dst.getD j 0 = a.dst.getD i 0) : j = i := by
  obtain ⟨hlen, hnodup, -⟩ := h.once a ha
  rw [hab, List.getD_eq_getElem _ _ (by omega), List.getD_eq_getElem _ _ (by omega)] at hreg
  exact (List.Nodup.getElem_inj_iff hnodup).mp hreg

theorem MemOp.Loads.distinct (h : o.Loads) (r : Nat) : ((o.spadRead k).only r).Distinct := by
  have hmem (x : LaneWrite) (hx : x ∈ ((o.spadRead k).only r).done) : ∃ a ∈ o.lanes, ∃ j < accessRegs o.size, x = k.spadWord o a j ∧ a.dst.getD j 0 = r := by
    obtain ⟨hx, hr⟩ := List.mem_filter.mp hx
    obtain ⟨a, ha, j, hj, rfl⟩ := MemOp.mem_spadRead.mp hx
    exact ⟨a, ha, j, hj, rfl, beq_iff_eq.mp hr⟩
  constructor
  · intro x hx
    obtain ⟨a, ha, i, hi, rfl, hai⟩ := hmem x hx
    refine ⟨(h.lanes a ha).2, fun y hy _ hlane => ?_⟩
    obtain ⟨b, hb, j, hj, rfl, hbj⟩ := hmem y hy
    obtain rfl := (h.once a ha).2.2 b hb hlane
    rw [h.index ha rfl hi hj (hbj.trans hai.symm)]
  · intro hu x hx y hy
    obtain ⟨a, ha, i, hi, rfl, hai⟩ := hmem x hx
    obtain ⟨b, hb, j, hj, rfl, hbj⟩ := hmem y hy
    obtain ⟨hva, hdst⟩ := h.uni hu b hb a ha
    obtain rfl := h.index ha hdst hi hj (hbj.trans hai.symm)
    have hsize : b.size = a.size := (h.lanes b hb).1.trans (h.lanes a ha).1.symm
    unfold Column.spadWord
    rw [hva, hsize]
    exact ⟨rfl, rfl⟩

/-- An LDS performed. -/
theorem Column.spadLoad_spec (hkind : o.kind = .lds) (h : o.Loads) :
    (k.spadLoad o).op? o.id = none ∧ (k.spadLoad o).pool = k.pool ∧ ((k.spadLoad o).warp o.slot).loads = (k.warp o.slot).loads - 1 ∧
      ∀ a ∈ o.lanes, ∀ j r, a.dst[j]? = some r → o.dead r a.lane = false → ((k.spadLoad o).warp o.slot).laneOf r a.lane =
        padded o.fmt ((loadWords o.size false (o.fmt == Fmt.i32) (k.poolBytes o.ctx a.va a.size).1).getD j 0) := by
  have hread : (o.spadRead k).kind = .lds := hkind
  obtain ⟨hop, hpool, hloads, hregs⟩ := Column.loaded_spec (k := k) (o := o.spadRead k) (by rw [hread]; exact fun _ => nofun) (by rw [hread]; rfl)
  refine ⟨hop, hpool, hloads, fun a ha j r hr hlive => ?_⟩
  obtain ⟨hj, hget⟩ := List.getElem?_eq_some_iff.mp hr
  have hmem : k.spadWord o a j ∈ (o.spadRead k).done := MemOp.mem_spadRead.mpr ⟨a, ha, j, (h.once a ha).1 ▸ hj, rfl⟩
  have hreg : (k.spadWord o a j).reg = r := (List.getD_eq_getElem _ _ hj).trans hget
  have hcommit := Column.commit_each (k := k) (h.distinct _) hmem (by rw [hreg]; exact hlive)
  rw [hreg] at hcommit
  refine Eq.trans ?_ hcommit
  exact congrArg (fun t : Table VReg => (t.getD r VReg.start).data.lane a.lane) hregs

end

/-! ## The event -/

section
variable {s : State} {c : Nat} {o : MemOp}

theorem Column.spadDone_of {k : Column} {now : Nat} (htime : o.itick + 6 + (o.reqs + 1) / 2 ≤ now)
    (hfirst : ∀ p ∈ k.ops, (p.kind = .lds ∨ p.kind = .sts) → o.id ≤ p.id) :
    k.spadDone now o = if o.kind = .lds then k.spadLoad o else k.spadStore now o := by
  have hturn : k.spadTurn now o = true := by
    refine Bool.and_eq_true_iff.mpr ⟨decide_eq_true htime, List.all_eq_true.mpr fun p hp => ?_⟩
    cases hk : p.kind.isSpad with
    | false => rfl
    | true =>
      have hspad : p.kind = .lds ∨ p.kind = .sts := by
        generalize p.kind = kind at hk
        cases kind
        case lds => exact .inl rfl
        case sts => exact .inr rfl
        all_goals cases hk
      exact decide_eq_true (hfirst p hp hspad)
  unfold Column.spadDone
  rw [hturn]
  rfl

theorem exec_loadDataReturn_lds {req : Nat} (hop : (s.dev.col c).op? o.id = some o) (hkind : o.kind = .lds) :
    exec (.loadDataReturn c o.id req) s = .next { s with dev := s.dev.modCol c (fun k => k.spadDone s.dev.now o) } := by
  change execLoadDataReturn c o.id req s = _
  unfold execLoadDataReturn
  rw [hop]
  dsimp only
  rw [hkind]

theorem exec_storePerformed_sts {req : Nat} (hop : (s.dev.col c).op? o.id = some o) (hkind : o.kind = .sts) :
    exec (.storePerformed c o.id req) s = .next { s with dev := s.dev.modCol c (fun k => k.spadDone s.dev.now o) } := by
  change execStorePerformed c o.id req s = _
  unfold execStorePerformed
  rw [hop]
  dsimp only
  rw [hkind]

end

/-! ## The issue -/

/-- A scratchpad access enters its column, and no byte of the pool changes. -/
theorem spad_enters {i : Instr} {s : State} (x : VCtx) {o : MemOp} (hslot : o.slot = s.dev.cur.slot)
    (hi : exec i s = s.conclude (.retire (x.step (s.dev.enter s.dev.cur.col o)).advance)) :
    ∃ u, exec i s = .next u ∧ Issues s u ∧ u.dev.curCol.pool = s.dev.curCol.pool ∧
      u.dev.curWarp.loads = s.dev.curWarp.loads + (if o.kind.isLoad then 1 else 0) ∧
      u.dev.curWarp.stores = s.dev.curWarp.stores + (if o.kind.isStore then 1 else 0) ∧
      u.dev.curCol.ops = s.dev.curCol.ops ++ [{ o with id := s.dev.curCol.nextOp }] := by
  obtain ⟨u, hu, hissues, hcounts⟩ := (((Dev.Alike.refl s.dev).entered hslot).step x).issues hi
  refine ⟨u, hu, hissues, ?_, hcounts⟩
  cases hu.symm.trans hi
  refine (congrArg Column.pool (Dev.curCol_advance (x.step (s.dev.enter s.dev.cur.col o))) :).trans ?_
  exact (congrArg Column.pool (Dev.curCol_modCurWarp _ _) :).trans (congrArg Column.pool (Dev.enter_col hslot) :)

end Sys2Proof.Machine
end

section
namespace Sys2Proof
open Sys2Proof.Machine

/-- Settles O25: an LDS or STS enters its column when it issues, and is performed on the pool's bytes, the lanes in their order. -/
theorem scratchpadAccesses : Obligations.ScratchpadAccesses := by
  refine ⟨?_, ?_⟩
  · intro f s x col a k n off base dat us bound mine loads stores op hact hacq
    refine ⟨fun hready hchecks hroom hfifth => ?_, fun hready hchecks hroom => ?_⟩
    · have hfree : ¬ (!x.w.loadRoom || x.fifthWindow f.dat) = true := by
        rw [hfifth, show x.w.loadRoom = true from decide_eq_true hroom]
        exact Bool.false_ne_true
      let o : MemOp := { s.dev.newOp .lds f.h.ty f.size.toNat loads with
        resv := x.reserve f.dat k, window := f.dat.getLsbD 8, uni := a.shape == .uniform,
        reqs := spadDepth ((Mask.list x.act).map off) n, reach := 0 }
      have hissue : ldsIssue f s = .retire (x.step (s.dev.enter s.dev.cur.col o)).advance :=
        (if_neg hact).trans ((Issue.of_checks hready hchecks).trans ((Dev.afterAcquire_of_not hacq _).trans (if_neg hfree)))
      exact spad_enters (i := .lds f) x rfl (congrArg s.conclude hissue)
    · have hfree : ¬ (!decide (x.w.stores < 63)) = true := by
        rw [decide_eq_true hroom]
        exact Bool.false_ne_true
      let o : MemOp := { s.dev.newOp .sts f.h.ty f.size.toNat stores with reqs := spadDepth ((Mask.list x.act).map off) n, reach := 0x0C }
      have hissue : stsIssue f s = .retire (x.step (s.dev.enter s.dev.cur.col o)).advance :=
        (if_neg hact).trans ((Issue.of_checks hready hchecks).trans ((Dev.afterAcquire_of_not hacq _).trans (if_neg hfree)))
      exact spad_enters (i := .sts f) x rfl (congrArg s.conclude hissue)
  · intro col op req s o k w hop htime hfirst hsize hlanes
    obtain rfl := Column.op?_id hop
    have hcol (f : Column → Column) : (s.dev.modCol col f).col col = f k := Dev.col_modCol _ _ _
    have hwarp (f : Column → Column) (y : Nat) : (s.dev.modCol col f).warp col y = (f k).warp y := congrArg (fun k : Column => k.warp y) (hcol f)
    have hdone := Column.spadDone_of (k := k) htime hfirst
    refine ⟨fun hkind honce huni => ?_, fun hkind hentry hdata hquiet => ?_⟩
    · obtain ⟨hgone, hpool, hloads, hvals⟩ := Column.spadLoad_spec (k := k) hkind ⟨hlanes, honce, huni⟩
      rw [if_pos hkind] at hdone
      refine ⟨_, exec_loadDataReturn_lds hop hkind, rfl, ?_⟩
      dsimp only
      simp only [hwarp, hcol, hdone]
      exact ⟨hgone, hpool, hloads, hvals⟩
    · obtain ⟨hgone, hstores, hwarps, hwords, hbytes⟩ := Column.spadStore_spec (k := k) s.dev.now hkind hentry
        ⟨hsize, fun a ha => (hlanes a ha).1, hdata, hquiet⟩
      rw [if_neg (by rw [hkind]; exact nofun)] at hdone
      refine ⟨_, exec_storePerformed_sts hop hkind, rfl, ?_⟩
      dsimp only
      simp only [hwarp, hcol, hdone]
      exact ⟨hgone, hstores, hwarps, hwords, hbytes⟩

end Sys2Proof
end

section
/-! Proofs about a request of a load (R204, R223): the lanes of one line whose sectors lie on two columns. -/

namespace Sys2Proof.Machine

/-- A lane of a load of four bytes past the L1, at offset and vault address `a` of column `tcol`. -/
def farLane (lane tcol a : Nat) : LaneAcc := { laneWant lane tcol a 4 0 with va := a, cut := 4, dst := [8], pol := 1 }

/-- A load of two lanes, whose sectors lie in one line and on two columns. -/
def twoColumnLoad : MemOp :=
  { Dev.start.newOp .load Fmt.raw 2 [farLane 0 0 0, farLane 1 1 32] with id := 0, resv := [(8, 3)], missed := true }

/-- Column 0 with that load of slot 0, and column 1 with a byte of the second lane. -/
def twoColumnState : State :=
  { vault := Memory.write [] (vkey 1 32) [1],
    dev := { Dev.start with cols := [(0, { Column.start with ops := [twoColumnLoad], warps := [(0, { Warp.start with loads := 1 })] }), (1, Column.start)] } }

theorem twoColumnState_value : (match exec (.loadDataReturn 0 0 0) twoColumnState with
    | .next u => (u.dev.warp 0 0).laneOf 8 1
    | _ => 7) = 0 := by decide +kernel

end Sys2Proof.Machine
end

section
namespace Sys2Proof
open Sys2Proof.Machine

/-- Refutes O24, in its first clause, whose premises let the lanes of one request name two columns in one line, if in different sectors. A request
reads a line at one column. In `twoColumnState` the second lane's sector lies on column 1, in the line of the first lane's on column 0: the lane takes
column 0's bytes, and the clause wants column 1's. -/
theorem not_loadReturnsBytes : ¬ Obligations.LoadReturnsBytes := by
  rintro ⟨h, -⟩
  obtain ⟨u, hu, -, -, hval⟩ := h 0 0 0 twoColumnState twoColumnLoad (farLane 1 1 32) 0 8 (by decide) (.inl rfl) rfl rfl rfl rfl (by decide) rfl
    (by decide) (by decide) (.inl rfl) (by decide +kernel) (by decide) rfl (by decide) ⟨3, by decide, by decide⟩ (by decide)
  have hzero := twoColumnState_value
  rw [hu] at hzero
  have hone : padded twoColumnLoad.fmt ((loadWords twoColumnLoad.size false (twoColumnLoad.fmt == Fmt.i32)
      (twoColumnState.vault.bytes (vkey (farLane 1 1 32).tcol (farLane 1 1 32).va) (farLane 1 1 32).size)).getD 0 0) = 1 := by decide +kernel
  exact absurd (hzero.symm.trans (hval.trans hone)) (by decide)

end Sys2Proof
end

section
/-! Proofs about claims, waits, SIGNAL and END of the stagehand (R349, R365, R369, R371, R374, R376, R384). -/

namespace Sys2Proof.Machine

/-! ## A stagehand apart from its banks -/

theorem Hand.Same.of_kept {g h : Hand} (hk : g.kept = h.kept) : g.Same h :=
  (congrArg (fun k : Hand => { k with banks := h.banks, openRow := h.openRow }) hk :)

theorem SameCore.hand {d e : Dev} (h : SameCore d e) (c : Nat) : (e.col c).hand.kept = (d.col c).hand.kept := (congrArg Column.hand (h.cols c) :)
theorem SameCore.cur {d e : Dev} (h : SameCore d e) : e.cur = d.cur := (congrArg Dev.cur h.dev :)

theorem SameWarps.handXlate (s : State) (c ctx off : Nat) (write : Bool) : SameWarps s.dev (s.handXlate c ctx off write).2 := by
  have h := SameWarps.lookup s c ctx off
  unfold State.handXlate
  generalize s.lookup c ctx off = r at h
  obtain ⟨r, d⟩ := r
  cases r <;> exact h

theorem SameWarps.xlated (s : State) (off : Nat) (write : Bool) : SameWarps s.dev (s.xlated off write).dev := SameWarps.handXlate s _ _ _ _

theorem State.handCheck_of {s : State} {cs : List (Bool × Nat)} (h : ∀ x ∈ cs, x.1 = true) (go : Unit → State) : s.handCheck cs go = go () := by
  have hnone : cs.find? (fun x => !x.1) = none := List.find?_eq_none.mpr fun x hx => by rw [h x hx]; decide
  unfold State.handCheck
  rw [hnone]

/-- An access whose checks pass and whose page translates goes on under its translation. -/
theorem State.handAt_of {s : State} {cs : List (Bool × Nat)} {off : Nat} {write : Bool} {e : TlbEntry} (h : ∀ x ∈ cs, x.1 = true)
    (he : (s.handXlate s.dev.cur.col s.hand.ctx off write).1 = some e) (go : TlbEntry → State → State) :
    s.handAt cs off write go = .next (go e (s.xlated off write)) := by
  unfold State.handAt State.xlated
  rw [State.handCheck_of h]
  generalize s.handXlate s.dev.cur.col s.hand.ctx off write = r at he
  obtain ⟨r, d⟩ := r
  obtain rfl : r = some e := he
  rfl

theorem State.hand_modHand {s : State} {m : Memory} {d : Dev} (hcur : d.cur = s.dev.cur) (f : Hand → Hand) :
    ({ vault := m, dev := d.modHand s.dev.cur.col f } : State).hand = f (d.col s.dev.cur.col).hand := by
  rw [← hcur]
  exact (congrArg Column.hand (Dev.col_modCol d d.cur.col (fun k => { k with hand := f k.hand })) :)

/-! ## Claims -/

theorem SameWarps.claimPages (c ctx slot lo hi : Nat) (gs : List Nat) (s : State) : SameWarps s.dev (s.claimPages c ctx slot lo hi gs).2 := by
  induction gs generalizing s with
  | nil => exact .refl _
  | cons g gs ih =>
    have h := SameWarps.handXlate s c ctx (max lo (g * 65536) % 2 ^ 44) true
    unfold State.claimPages
    dsimp only
    generalize s.handXlate c ctx (max lo (g * 65536) % 2 ^ 44) true = r at h
    obtain ⟨r, d⟩ := r
    cases r with
    | none => exact h
    | some e =>
      have h2 := h.trans (ih { s with dev := d })
      dsimp only
      generalize State.claimPages { s with dev := d } c ctx slot lo hi gs = q at h2
      obtain ⟨q, d2⟩ := q
      cases q <;> exact h2

/-- A line's first offset translates to a line's first byte. -/
theorem TlbEntry.va_line (e : TlbEntry) {off : Nat} (h : off % 128 = 0) : e.va off % 128 = 0 := by
  unfold TlbEntry.va
  omega

/-- The parts of a claim begin at lines. -/
theorem State.claimPages_aligned {c ctx slot lo hi : Nat} (hlo : lo % 128 = 0) {gs : List Nat} {s : State} {ps : List Claim}
    (h : (s.claimPages c ctx slot lo hi gs).1 = some ps) : ∀ x ∈ ps, x.off % 128 = 0 := by
  induction gs generalizing s ps with
  | nil =>
    obtain rfl : [] = ps := Option.some.inj h
    exact fun x hx => nomatch hx
  | cons g gs ih =>
    unfold State.claimPages at h
    dsimp only at h
    generalize s.handXlate c ctx (max lo (g * 65536) % 2 ^ 44) true = r at h
    obtain ⟨r, d⟩ := r
    cases r with
    | none => cases h
    | some e =>
      dsimp only at h
      generalize hq : State.claimPages { s with dev := d } c ctx slot lo hi gs = q at h
      obtain ⟨q, d2⟩ := q
      cases q with
      | none => cases h
      | some qs =>
        obtain rfl := Option.some.inj h
        intro x hx
        rcases List.mem_cons.mp hx with rfl | hx
        · have hg : g * 65536 % 128 = 0 := by omega
          have hmax : max lo (g * 65536) % 128 = 0 := by
            rcases Nat.le_total lo (g * 65536) with hle | hle
            · rw [Nat.max_eq_right hle, hg]
            · rw [Nat.max_eq_left hle, hlo]
          exact e.va_line hmax
        · exact ih (congrArg Prod.fst hq) x hx

theorem Column.l2Tag_l2Invalidate (k : Column) (lo hi sb : Nat) :
    (k.l2Invalidate lo hi).l2Tag sb = (k.l2Tag sb).map (fun t => { t with lines := Vector.ofFn (fun i : Fin 4 =>
      if decide (lo ≤ t.sb * 512 + i.val * 128) && decide (t.sb * 512 + i.val * 128 < hi) then { (t.line i.val).drop with pinned := false } else t.line i.val) }) := by
  unfold Column.l2Tag Column.l2Invalidate
  rw [List.find?_map]
  rfl

/-- Lines invalidated: the line of an address is valid where it was and its first byte lies outside. -/
theorem Column.l2Valid_invalidated (k : Column) (lo hi va : Nat) :
    (k.l2Invalidate lo hi).l2Valid va = (k.l2Valid va && !(decide (lo ≤ va / 128 * 128) && decide (va / 128 * 128 < hi))) := by
  unfold Column.l2Valid
  rw [Column.l2Tag_l2Invalidate]
  cases ht : k.l2Tag (va / 512) with
  | none => rfl
  | some t =>
    have hsb := Column.l2Tag_sb ht
    have hat : t.sb * 512 + va / 128 % 4 * 128 = va / 128 * 128 := by omega
    dsimp only [Option.map_some]
    unfold L2Tag.line
    simp only [Vector.getElem_ofFn, hat, Nat.mod_mod]
    cases decide (lo ≤ va / 128 * 128) && decide (va / 128 * 128 < hi)
    · exact (Bool.and_true _).symm
    · exact (Bool.and_false _).symm

/-- The lines of a claim's parts are not valid once they have left. -/
theorem Column.l2Invalidates_spec (ps : List Claim) (k : Column) :
    (ps.foldl (fun (k : Column) x => k.l2Invalidate x.off (x.off + x.len)) k).hand = k.hand ∧
      (∀ a, k.l2Valid a = false → (ps.foldl (fun (k : Column) x => k.l2Invalidate x.off (x.off + x.len)) k).l2Valid a = false) ∧
      ((∀ x ∈ ps, x.off % 128 = 0) → ∀ x ∈ ps, ∀ a, x.off ≤ a → a < x.off + x.len →
        (ps.foldl (fun (k : Column) x => k.l2Invalidate x.off (x.off + x.len)) k).l2Valid a = false) := by
  induction ps generalizing k with
  | nil => exact ⟨rfl, fun _ h => h, fun _ x hx => nomatch hx⟩
  | cons p ps ih =>
    obtain ⟨hhand, hkeep, hgone⟩ := ih (k.l2Invalidate p.off (p.off + p.len))
    refine ⟨hhand, fun a ha => hkeep a ?_, fun hal x hx a hlo hhi => ?_⟩
    · rw [Column.l2Valid_invalidated, ha, Bool.false_and]
    · rcases List.mem_cons.mp hx with rfl | hx
      · have hp := hal x List.mem_cons_self
        have h1 : x.off ≤ a / 128 * 128 := by omega
        have h2 : a / 128 * 128 < x.off + x.len := by omega
        refine hkeep a ?_
        rw [Column.l2Valid_invalidated, decide_eq_true h1, decide_eq_true h2]
        exact Bool.and_false _
      · exact hgone (fun y hy => hal y (List.mem_cons_of_mem _ hy)) x hx a hlo hhi

theorem exec_claim {f : HFields} {s : State} {ps : List Claim} :
    let c := s.dev.cur.col
    let h := s.hand
    let lo := (h.hreg f.s).toNat % 2 ^ 44
    let n := (h.hreg f.t).toNat
    let slot := f.x.toNat % 4
    1 ≤ n → n ≤ 2 ^ 22 → (∀ x ∈ h.claims, x.slot ≠ slot) →
    (s.claimParts c h.ctx slot (lo / 1024 * 1024) ((lo + n + 1023) / 1024 * 1024)).1 = some ps →
      ∃ u, exec (.claim f) s = .next u ∧ u.vault = s.vault ∧ u.hand.Same { h with claims := h.claims ++ ps, wait := .claim } ∧
        ∀ x ∈ ps, ∀ a, x.off ≤ a → a < x.off + x.len → (u.dev.col c).l2Valid a = false := by
  intro c h lo n slot hn hmax hfree hps
  have hcheck : ∀ x ∈ [(decide (1 ≤ n) && decide (n ≤ 2 ^ 22) && h.claims.all (fun x => x.slot != slot), 6)], x.1 = true := by
    intro x hx
    obtain rfl := List.mem_singleton.mp hx
    rw [decide_eq_true hn, decide_eq_true hmax]
    exact List.all_eq_true.mpr fun y hy => bne_iff_ne.mpr (hfree y hy)
  have hal := State.claimPages_aligned (by omega) hps
  have hsame : SameWarps s.dev (s.claimParts c h.ctx slot (lo / 1024 * 1024) ((lo + n + 1023) / 1024 * 1024)).2 := SameWarps.claimPages _ _ _ _ _ _ _
  change ∃ u, execClaim f s = .next u ∧ _
  unfold execClaim
  dsimp only
  rw [State.handCheck_of hcheck]
  generalize State.claimParts s _ _ _ _ _ = r at hps hsame ⊢
  obtain ⟨r, d⟩ := r
  obtain rfl : r = some ps := hps
  obtain ⟨hhand, -, hgone⟩ := Column.l2Invalidates_spec ps (d.col c)
  have hk : (d.col c).hand.kept = h.kept := hsame.core.hand c
  refine ⟨_, rfl, rfl, ?_, fun x hx a hlo hhi => ?_⟩
  · dsimp only
    rw [State.hand_modHand (d := d.modCol _ _) hsame.cur, Dev.col_modCol, hhand]
    exact .of_kept (congrArg (fun g : Hand => { g with claims := g.claims ++ ps, wait := .claim }) hk)
  · dsimp only
    rw [Dev.modHand, Dev.col_modCol, Dev.col_modCol]
    exact hgone hal x hx a hlo hhi

/-! ## UNCLM and END -/

theorem State.endClaims_hand (s : State) (c : Nat) (p : Claim → Bool) :
    (s.endClaims c p).vault = s.vault ∧ (s.endClaims c p).dev.cur = s.dev.cur ∧
      ((s.endClaims c p).dev.col c).hand = { (s.dev.col c).hand with claims := (s.dev.col c).hand.claims.filter (fun x => !p x) } := by
  have htest (cs : List Claim) (t : State) : (t.testClaims c cs).vault = t.vault ∧ (t.testClaims c cs).dev.cur = t.dev.cur ∧
      ((t.testClaims c cs).dev.col c).hand = (t.dev.col c).hand := by
    unfold State.testClaims
    induction cs generalizing t with
    | nil => exact ⟨rfl, rfl, rfl⟩
    | cons x cs ih =>
      obtain ⟨hv, hc, hh⟩ := ih (t.testWatches c x.off x.len)
      refine ⟨hv, hc, hh.trans ?_⟩
      exact (congrArg Column.hand (Dev.col_modCol _ _ _) :)
  obtain ⟨hv, hc, hh⟩ := htest ((s.dev.col c).hand.claims.filter p)
    { s with dev := s.dev.modHand c (fun h => { h with claims := h.claims.filter (fun x => !p x) }) }
  exact ⟨hv, hc, hh.trans (congrArg Column.hand (Dev.col_modCol _ _ _) :)⟩

section
variable {f : HFields} {s : State}

theorem exec_unclm : ∃ u, exec (.unclm f) s = .next u ∧ u.vault = s.vault ∧ u.hand.pc = s.hand.pc + 1 ∧ u.hand.h = s.hand.h ∧ u.hand.q = s.hand.q ∧
    u.hand.claims = s.hand.claims.filter (fun x => x.slot != f.x.toNat % 4) := by
  obtain ⟨t, ht⟩ : ∃ t, t = s.endClaims s.dev.cur.col (fun x => x.slot == f.x.toNat % 4) := ⟨_, rfl⟩
  obtain ⟨hv, hc, hh⟩ := s.endClaims_hand s.dev.cur.col (fun x => x.slot == f.x.toNat % 4)
  rw [← ht] at hv hc hh
  have hexec : exec (.unclm f) s = .next { t with dev := t.dev.modHand s.dev.cur.col Hand.next } := by
    rw [ht]
    rfl
  have hhand := (State.hand_modHand (m := t.vault) hc Hand.next).trans (congrArg Hand.next hh)
  refine ⟨_, hexec, hv, ?_, ?_, ?_, ?_⟩
  all_goals
    rw [hhand]
    rfl

theorem Dev.nodeReady_cols (d : Dev) (o : Owner) (t : Nat) : (d.nodeReady o t).cols = d.cols ∧ (d.nodeReady o t).cur = d.cur := by
  unfold Dev.nodeReady
  cases o with
  | warp c x y => exact ⟨rfl, rfl⟩
  | node a r j =>
    dsimp only
    unfold Dev.modNode
    cases d.replays.get? r <;> exact ⟨rfl, rfl⟩

/-- The end of a program without a completion word. -/
theorem Dev.programOver_hand (d : Dev) (c : Nat) (r : RunDesc) : (d.programOver c r none 0).cur = d.cur ∧
    ((d.programOver c r none 0).col c).hand =
      { (d.col c).hand with running := none, wait := .none, halted := false, banks := (d.col c).hand.banks.left } := by
  obtain ⟨e, he⟩ : ∃ e : Dev, e = (d.modHand c (fun h => { h with running := none, wait := .none, halted := false, banks := h.banks.left })).modCol c
    (fun k => { k with busyEnd := d.now }) := ⟨_, rfl⟩
  have hcur : e.cur = d.cur := by rw [he]; rfl
  have hhand : (e.col c).hand = { (d.col c).hand with running := none, wait := .none, halted := false, banks := (d.col c).hand.banks.left } := by
    rw [he, Dev.col_modCol, Dev.modHand, Dev.col_modCol]
  unfold Dev.programOver
  dsimp only
  rw [show (d.modHand c (fun h => { h with running := none, wait := .none, halted := false, banks := h.banks.left })).modCol c
    (fun k => { k with busyEnd := (d.modHand c (fun h => { h with running := none, wait := .none, halted := false, banks := h.banks.left })).now }) = e from he.symm]
  cases r.owner with
  | warp b x y =>
    cases y with
    | some y => exact ⟨hcur, hhand⟩
    | none =>
      refine ⟨hcur, ?_⟩
      dsimp only
      rw [if_neg (by decide : ¬ (none : Option Nat).isSome = true), Dev.modWarp, Dev.putWarp, Dev.col_modCol]
      exact hhand
  | node a b j =>
    obtain ⟨hcols, hcur'⟩ := e.nodeReady_cols (.node a b j) (Option.getD none e.now)
    refine ⟨hcur'.trans hcur, Eq.trans ?_ hhand⟩
    exact congrArg (fun cols : Table Column => (cols.getD c Column.start).hand) hcols

theorem exec_end {r : RunDesc} (hr : s.hand.running = some r) (hq : r.q[2] = 0) : ∃ v, exec (.end_ f) s = .next v ∧ v.vault = s.vault ∧
    v.hand.running = none ∧ v.hand.claims = [] ∧ v.hand.wait = .none ∧ v.hand.openRow = s.hand.openRow ∧ v.hand.banks.run = none := by
  obtain ⟨t, ht⟩ : ∃ t, t = s.endClaims s.dev.cur.col (fun _ => true) := ⟨_, rfl⟩
  obtain ⟨hv, hc, hh⟩ := s.endClaims_hand s.dev.cur.col (fun _ => true)
  rw [← ht] at hv hc hh
  obtain ⟨hcur, hover⟩ := t.dev.programOver_hand s.dev.cur.col r
  have hexec : exec (.end_ f) s = .next { t with dev := t.dev.programOver s.dev.cur.col r none 0 } := by
    change Host.Outcome.next (s.endProgram s.dev.cur.col 0 true) = _
    unfold State.endProgram
    rw [show (s.dev.col s.dev.cur.col).hand.running = some r from hr]
    dsimp only
    rw [← ht]
    exact congrArg Host.Outcome.next (if_pos (by rw [hq]; rfl))
  have hhand : ({ t with dev := t.dev.programOver s.dev.cur.col r none 0 } : State).hand = _ :=
    (congrArg (fun c : Cur => ((t.dev.programOver s.dev.cur.col r none 0).col c.col).hand) (hcur.trans hc)).trans (hover.trans (by rw [hh]))
  refine ⟨_, hexec, hv, ?_, ?_, ?_, ?_, ?_⟩
  all_goals rw [hhand]
  · exact List.filter_eq_nil_iff.mpr fun _ _ => Bool.false_ne_true
  · rfl
  · rfl

end

/-! ## CUEW -/

/-- A column without the watch entries of the stagehand of column c. -/
def Column.forget (c : Nat) (k : Column) : Column := { k with watches := k.watches.filter (fun w => !(w.who == .hand && w.wcol == c)) }

theorem Dev.cuewForget_col (d : Dev) (c e : Nat) : (d.cuewForget c).col e = (d.col e).forget c :=
  Table.getD_mapVals d.cols (fun _ k => k.forget c) e Column.start rfl

theorem SameOlds.walkReading (c ctx gran n : Nat) (s : State) (level table : Nat) : SameOlds s.dev (s.walkReading c ctx gran n level table).2 := by
  induction n generalizing s level table with
  | zero => exact .refl _
  | succ n ih =>
    unfold State.walkReading
    dsimp only
    generalize table + 8 * (if level = 0 then gran / 2 ^ 14 % 2 ^ 14 else if level = 1 then gran / 2 ^ 5 % 2 ^ 9 else gran % 2 ^ 5) = addr
    have h : SameOlds s.dev (s.homeSector c addr false) := SameOlds.homeRead s c addr 0 false none _
    split
    · exact h
    · split
      · exact h
      · split
        · exact h
        · split
          · exact h.trans (ih { s with dev := s.homeSector c addr false } _ _)
          · exact h

theorem SameOlds.pickOf {α : Type} (d : Dev) (x : α) (xs : List α) : SameOlds d (d.pickOf x xs).2 := by
  refine .of_cols ?_
  unfold Dev.pickOf
  cases xs <;> rfl

theorem SameOlds.useWalk (s : State) (c ctx off : Nat) : SameOlds s.dev (s.useWalk c ctx off).2 := by
  have h := SameOlds.walkReading c ctx (granOf off) 3 s 0 (bitsOf (s.dev.ctx ctx).ptRoot.toNat 23 0 * 256)
  unfold State.useWalk
  generalize s.walkReading c ctx (granOf off) 3 0 (bitsOf (s.dev.ctx ctx).ptRoot.toNat 23 0 * 256) = r at h
  obtain ⟨r, d⟩ := r
  cases r with
  | error f => exact h
  | ok e => exact h.trans (.modCol d c _ (proj_ite (fun k : Column => k.hand.banks.olds) rfl rfl))

theorem SameOlds.lookup (s : State) (c ctx off : Nat) : SameOlds s.dev (s.lookup c ctx off).2 := by
  unfold State.lookup
  cases s.olderXlates c ctx off with
  | nil => exact .useWalk s c ctx off
  | cons x xs =>
    dsimp only
    generalize hp : Dev.pickOf _ _ _ = p
    have h : SameOlds s.dev p.2 := by rw [← hp]; exact .pickOf _ _ _
    obtain ⟨x, d⟩ := p
    cases x with
    | some e => exact h
    | none => exact h.trans (SameOlds.useWalk { s with dev := d } c ctx off)

theorem SameOlds.xlated (s : State) (off : Nat) (write : Bool) : SameOlds s.dev (s.xlated off write).dev := by
  have h := SameOlds.lookup s s.dev.cur.col s.hand.ctx off
  unfold State.xlated State.handXlate
  generalize s.lookup s.dev.cur.col s.hand.ctx off = r at h
  obtain ⟨r, d⟩ := r
  cases r <;> exact h

theorem SameOlds.touchLines (s : State) (ls : List LaneAcc) : SameOlds s.dev (s.touchLines ls) := by
  refine SameOlds.foldl _ (fun d x => ?_) _ _
  dsimp only
  generalize ls.filter (fun a => a.tcol == x.1 && a.sectors.any (fun y => y.2 / 128 == x.2)) = mine
  cases mine with
  | nil => exact .refl _
  | cons a mine => exact SameOlds.homeRead { s with dev := d } _ _ _ _ _ _

/-- A word read at its slice. -/
theorem State.sliceWord_same (s : State) (a : LaneAcc) : SameWarps s.dev (s.sliceWord a).2.2 ∧
    (s.dev.oldsAt a.tcol = [] → (s.sliceWord a).1 = BitVec.ofNat 32 (s.vault.num (vkey a.tcol a.va) 4)) := by
  refine ⟨(SameWarps.touchLines s [a]).trans ⟨rfl, fun _ => rfl⟩, fun h => ?_⟩
  change BitVec.ofNat 32 (numOf (s.seen a.tcol (s.touchLines [a]).free a.va 4)) = _
  unfold State.seen
  rw [if_pos (by rw [show (s.dev.col a.tcol).hand.banks.olds = [] from h]; rfl)]
  rfl

theorem SameOlds.sliceWord (s : State) (a : LaneAcc) : SameOlds s.dev (s.sliceWord a).2.2 :=
  (SameOlds.touchLines s [a]).trans (.of_cols rfl)

/-- The end of a wait on a cue. -/
theorem Dev.cuewEnd_hand (d : Dev) (c : Nat) (r : BitVec 5) (status : Nat) :
    ((d.cuewEnd c r status).col c).hand = { ((d.col c).hand.setH r (BitVec.ofNat 64 status)).next with wait := .none, halted := false } := by
  unfold Dev.cuewEnd Dev.modHand
  rw [Dev.col_modCol, Dev.cuewForget_col]
  rfl

theorem Hand.pc_setH (h : Hand) (i : BitVec 5) (v : BitVec 64) : (h.setH i v).pc = h.pc := proj_ite Hand.pc rfl rfl

theorem Hand.kept_setH (h : Hand) (i : BitVec 5) (v : BitVec 64) : (h.setH i v).kept = h.kept.setH i v := by
  unfold Hand.setH
  split <;> rfl

/-- A column with one more watch entry. -/
def Column.watching (w : Watch) (k : Column) : Column := { k with watches := k.watches ++ [w] }

theorem Dev.hand_watching (d : Dev) (tc c : Nat) (w : Watch) : ((d.modCol tc (Column.watching w)).col c).hand = (d.col c).hand :=
  Dev.modCol_keeps (f := Column.watching w) Column.hand (fun _ => rfl) d tc c

/-- The stagehand waits. -/
def Hand.waits (w : HandWait) (h : Hand) : Hand := { h with wait := w }

theorem Dev.watches_modHand (d : Dev) (c : Nat) (f : Hand → Hand) (e : Nat) : ((d.modHand c f).col e).watches = (d.col e).watches :=
  Dev.modCol_keeps (f := fun k => { k with hand := f k.hand }) Column.watches (fun _ => rfl) d c e

theorem Hand.waits_same {s : State} {d : Dev} (hcur : d.cur = s.dev.cur) (hk : (d.col s.dev.cur.col).hand.kept = s.hand.kept) (w : HandWait) :
    ({ s with dev := d.modHand s.dev.cur.col (Hand.waits w) } : State).hand.Same { s.hand with wait := w } := by
  rw [State.hand_modHand hcur]
  exact .of_kept (congrArg (Hand.waits w) hk)

theorem Hand.cuewEnd_same {s : State} {d : Dev} (hcur : d.cur = s.dev.cur) (hk : (d.col s.dev.cur.col).hand.kept = s.hand.kept) (r : BitVec 5) (n : Nat) :
    ({ s with dev := d.cuewEnd s.dev.cur.col r n } : State).hand.Same
      { s.hand.setH r (BitVec.ofNat 64 n) with pc := s.hand.pc + 1, wait := .none, halted := false } := by
  have hhand : ({ s with dev := d.cuewEnd s.dev.cur.col r n } : State).hand = _ :=
    (congrArg (fun x : Cur => ((d.cuewEnd s.dev.cur.col r n).col x.col).hand) hcur).trans (Dev.cuewEnd_hand _ _ _ _)
  have hset := ((d.col s.dev.cur.col).hand.kept_setH r (BitVec.ofNat 64 n)).trans
    ((congrArg (fun g : Hand => g.setH r (BitVec.ofNat 64 n)) hk).trans (s.hand.kept_setH r (BitVec.ofNat 64 n)).symm)
  refine .of_kept ((congrArg Hand.kept hhand).trans ?_)
  rw [← s.hand.pc_setH r (BitVec.ofNat 64 n)]
  exact (congrArg (fun g : Hand => { g with pc := g.pc + 1, wait := .none, halted := false }) hset :)

/-- A CUEW of the stagehand `h` of column c that has read its word. -/
def State.cuewGo (s : State) (f : HFields) (c : Nat) (h : Hand) (e : TlbEntry) (read : Word × Bool × Dev) : State :=
  let off := ptrOff (h.hreg f.s)
  let tc := colOf c (h.hreg f.s)
  let t := (h.hreg f.t).extractLsb' 0 32
  let d := read.2.2
  let dl := if f.imm = 0 then none else some (d.now + 256 * f.imm.toNat)
  let w : Watch := { va := e.va off, cmp := 6, value := t, who := .hand, wcol := c, ctx := h.ctx, fired := none }
  let watched := d.modCol tc (Column.watching w)
  if cmpOk 6 read.1 t then { s with dev := d.cuewEnd c f.d 0 }
  else if (d.col tc).watchCount (e.va off) < 64 then { s with dev := watched.modHand c (Hand.waits (.cuew f.d tc off t dl none)) }
  else { s with dev := d.modHand c (Hand.waits (.cuew f.d tc off t dl (some d.now))) }

theorem State.cueReached_eq (s : State) (a : LaneAcc) (t : Word) : s.cueReached a t = (cmpOk 6 (s.sliceWord a).1 t, (s.sliceWord a).2.2) := rfl

/-- A CUEW whose checks pass goes on under its translation. -/
theorem exec_cuew_at {f : HFields} {s : State} {e : TlbEntry} (hpart : s.dev.partPtr s.hand.ctx (s.hand.hreg f.s) = true)
    (hal : ptrOff (s.hand.hreg f.s) % 4 = 0) (he : (s.handXlate s.dev.cur.col s.hand.ctx (ptrOff (s.hand.hreg f.s)) false).1 = some e) :
    exec (.cuew f) s = .next (s.cuewGo f s.dev.cur.col s.hand e
      ((s.xlated (ptrOff (s.hand.hreg f.s)) false).sliceWord (cueLane (colOf s.dev.cur.col (s.hand.hreg f.s)) (ptrOff (s.hand.hreg f.s)) e))) := by
  have hchecks : ∀ x ∈ [(s.dev.partPtr s.hand.ctx (s.hand.hreg f.s) && ptrOff (s.hand.hreg f.s) % 4 == 0, 7)], x.1 = true := by
    intro x hx
    obtain rfl := List.mem_singleton.mp hx
    rw [hpart, hal]
    rfl
  change execCuew f s = _
  unfold execCuew
  dsimp only
  rw [State.handAt_of hchecks he]
  unfold State.cuewGo
  simp only [State.cueReached_eq]
  rfl

/-- What a CUEW does with the word that it has read. -/
theorem State.cuewGo_spec {f : HFields} {s : State} {e : TlbEntry} {read : Word × Bool × Dev} (hsame : SameWarps s.dev read.2.2) :
    let c := s.dev.cur.col
    let h := s.hand
    let p := h.hreg f.s
    let tc := colOf c p
    let va := e.va (ptrOff p)
    let t := (h.hreg f.t).extractLsb' 0 32
    let k := read.2.2.col tc
    let dl := if f.imm = 0 then none else some (s.dev.now + 256 * f.imm.toNat)
    let u := s.cuewGo f c h e read
    u.vault = s.vault ∧
      (cmpOk 6 read.1 t = true → u.hand.Same { h.setH f.d 0 with pc := h.pc + 1, wait := .none, halted := false }) ∧
      (cmpOk 6 read.1 t = false →
        u.hand.Same { h with wait := .cuew f.d tc (ptrOff p) t dl (if k.watchCount va < 64 then none else some s.dev.now) } ∧
        (k.watchCount va < 64 → (u.dev.col tc).watches =
          k.watches ++ [{ va := va, cmp := 6, value := t, who := .hand, wcol := c, ctx := h.ctx, fired := none }])) := by
  intro c h p tc va t k dl u
  have hk : (read.2.2.col c).hand.kept = h.kept := hsame.core.hand c
  have hcur : read.2.2.cur = s.dev.cur := hsame.cur
  by_cases hreached : cmpOk 6 read.1 t = true
  · have hu : u = { s with dev := read.2.2.cuewEnd c f.d 0 } := if_pos hreached
    rw [hu]
    exact ⟨rfl, fun _ => Hand.cuewEnd_same hcur hk f.d 0, fun hnot => absurd hreached (ne_true_of_eq_false hnot)⟩
  by_cases hroom : k.watchCount va < 64
  · obtain ⟨w, hw⟩ : ∃ w : Watch, w = { va := va, cmp := 6, value := t, who := .hand, wcol := c, ctx := h.ctx, fired := none } := ⟨_, rfl⟩
    have hu : u = { s with dev := (read.2.2.modCol tc (Column.watching w)).modHand c (Hand.waits (.cuew f.d tc (ptrOff p) t dl none)) } := by
      refine ((if_neg hreached).trans (if_pos hroom)).trans ?_
      rw [hsame.now, hw]
    rw [hu, ← hw, if_pos hroom]
    refine ⟨rfl, fun h => absurd h hreached, fun _ => ⟨Hand.waits_same (d := read.2.2.modCol tc (Column.watching w)) hcur ?_ _, fun _ => ?_⟩⟩
    · rw [Dev.hand_watching]
      exact hk
    · refine (Dev.watches_modHand _ _ _ _).trans ?_
      exact (congrArg Column.watches (Dev.col_modCol _ _ _) :)
  · have hu : u = { s with dev := read.2.2.modHand c (Hand.waits (.cuew f.d tc (ptrOff p) t dl (some s.dev.now))) } := by
      refine ((if_neg hreached).trans (if_neg hroom)).trans ?_
      rw [hsame.now]
    rw [hu, if_neg hroom]
    exact ⟨rfl, fun h => absurd h hreached, fun _ => ⟨Hand.waits_same hcur hk _, fun h => absurd h hroom⟩⟩

/-! ## SIGNAL -/

/-- Bytes of words that no row operation of the stagehand is writing are written as they stand. -/
theorem State.raced_free {s : State} {c va : Nat} {bs : List Byte}
    (h : ∀ i < bs.length, (s.dev.col c).hand.oldWords s.dev.now ((va + i) / 4) = []) : (s.raced c va bs).1 = bs := by
  unfold State.raced
  dsimp only
  split
  · rfl
  · refine Eq.trans (List.map_congr_left (g := Prod.fst) fun b hb => ?_) (List.zipIdx_map_fst 0 bs)
    obtain ⟨-, hlt, -⟩ := List.mem_zipIdx (x := b.1) (i := b.2) hb
    exact if_pos (by rw [h b.2 (by omega)]; rfl)

theorem State.putPiece_free {s : State} {c va : Nat} {bs : List Byte}
    (h : ∀ i < bs.length, (s.dev.col c).hand.oldWords s.dev.now ((va + i) / 4) = []) :
    (s.putPiece c va bs).vault = s.vault.write (vkey c va) bs := by
  unfold State.putPiece
  cases bs with
  | nil => rfl
  | cons b bs =>
    have hraced := State.raced_free h
    generalize s.raced c va (b :: bs) = r at hraced
    obtain ⟨own, d⟩ := r
    obtain rfl : own = b :: bs := hraced
    rfl

theorem SameOlds.ite {d : Dev} {p : Prop} [Decidable p] {s t : State} (hs : SameOlds d s.dev) (ht : SameOlds d t.dev) :
    SameOlds d (if p then s else t).dev := by
  split
  · exact hs
  · exact ht

theorem SameOlds.recordCol (d : Dev) (c : Nat) (r : RecordInfo) : SameOlds d (d.recordCol c r) := .of_cols rfl

theorem SameOlds.stableMark (s : State) (c : Nat) (a : LaneAcc) (ctx : Nat) : SameOlds s.dev (s.stableMark c a ctx).dev := by
  unfold State.stableMark
  dsimp only
  cases ((s.dev.col a.tcol).warps.filter (fun w => w.2.ctx == ctx)).head? with
  | none => exact .refl _
  | some w =>
    have hwas : SameOlds s.dev (s.keepWas a.tcol ctx a.va a.size) := .modCol _ _ _ rfl
    refine .ite hwas (SameOlds.trans (hwas.trans ?_) (SameOlds.recordCol _ _ _))
    exact .modCol _ _ _ rfl

theorem State.stableMark_vault (s : State) (c : Nat) (a : LaneAcc) (ctx : Nat) : (s.stableMark c a ctx).vault = s.vault := by
  unfold State.stableMark
  dsimp only
  cases ((s.dev.col a.tcol).warps.filter (fun w => w.2.ctx == ctx)).head? with
  | none => rfl
  | some w => exact proj_ite State.vault rfl rfl

theorem SameOlds.oldWords {d e : Dev} (h : SameOlds d e) (hnow : e.now = d.now) (c w : Nat) :
    (e.col c).hand.oldWords e.now w = (d.col c).hand.oldWords d.now w := by
  unfold Hand.oldWords
  rw [hnow, show (e.col c).hand.banks.olds = (d.col c).hand.banks.olds from h c]

/-- The update of a completion word of which no row operation writes a word. -/
theorem State.wordAt_vault {s : State} {c tc ctx off : Nat} {e : TlbEntry} {err : Option Word} (hal : e.va off % 8 = 0)
    (h : ∀ i < 2, (s.dev.col tc).hand.oldWords s.dev.now (e.va off / 4 + i) = []) :
    (s.wordAt c tc ctx off e err).1.vault =
      s.vault.write (vkey tc (e.va off)) (bytesOf 8 (wordUpdate (s.vault.num (vkey tc (e.va off)) 8) err)) := by
  let a : LaneAcc := {
    lane := 0, tcol := tc, off := off, va := e.va off, cut := 8, va2 := 0, size := 8, req := 0, dst := [], data := [], pois := [],
    rng := none, pol := 0, zc := e.zc, stable := e.stable }
  let touched : State := { s with dev := s.touchLines [a] }
  let marked : State := if e.stable then touched.stableMark c a ctx else touched
  let written : State := { marked with dev := (marked.writeBack [a]).1 }
  have hvault : written.vault = s.vault := proj_ite State.vault (touched.stableMark_vault c a ctx) rfl
  have holdm : SameOlds touched.dev marked.dev := .ite (.stableMark _ _ _ _) (.refl _)
  have hcorem : SameCore touched.dev marked.dev := .ite (.stableMark _ _ _ _) (.refl _)
  have holds : SameOlds s.dev written.dev := ((SameOlds.touchLines s [a]).trans holdm).trans (.writeLinesAt _ _ _)
  have hnow : written.dev.now = s.dev.now := (((SameWarps.touchLines s [a]).core.trans hcorem).trans (SameWarps.writeBack marked [a]).core).now
  have hword : (s.wordAt c tc ctx off e err).1 = written.putLane a (bytesOf 8 (wordUpdate (written.vault.num (vkey tc a.va) 8) err)) := rfl
  rw [hword, hvault, State.putLane_eq]
  generalize hbs : bytesOf 8 (wordUpdate (s.vault.num (vkey tc a.va) 8) err) = bs
  have hlen : bs.length = 8 := by rw [← hbs, length_bytesOf]
  have htake : bs.take a.cut = bs := List.take_of_length_le (le_of_eq hlen)
  have hdrop : bs.drop a.cut = [] := List.drop_of_length_le (le_of_eq hlen)
  rw [htake, hdrop]
  refine (State.putPiece_free (s := written) fun i hi => ?_).trans ?_
  · rw [holds.oldWords hnow]
    have hi4 : (a.va + i) / 4 = e.va off / 4 + i / 4 := by
      change (e.va off + i) / 4 = _
      omega
    rw [hi4]
    exact h (i / 4) (by omega)
  · rw [hvault]

/-! ### The fields of a completion word -/

theorem Memory.bytes_split (m : Memory) (a n k : Nat) : m.bytes a (n + k) = m.bytes a n ++ m.bytes (a + n) k := by
  induction n generalizing a with
  | zero => rw [Nat.zero_add]; rfl
  | succ n ih =>
    rw [Nat.succ_add, Memory.bytes, ih, Memory.bytes, List.cons_append, show a + 1 + n = a + (n + 1) by omega]

theorem Memory.length_bytes (m : Memory) (a n : Nat) : (m.bytes a n).length = n := by
  induction n generalizing a with
  | zero => rfl
  | succ n ih => rw [Memory.bytes, List.length_cons, ih]

theorem numOf_append (a b : List Byte) : numOf (a ++ b) = numOf a + 256 ^ a.length * numOf b := by
  induction a with
  | nil => rw [List.nil_append, numOf, List.length_nil, Nat.pow_zero, Nat.one_mul, Nat.zero_add]
  | cons x a ih =>
    rw [List.cons_append, numOf, numOf, ih, List.length_cons, Nat.pow_succ]
    ring

theorem Memory.num_split (m : Memory) (a n k : Nat) : m.num a (n + k) = m.num a n + 256 ^ n * m.num (a + n) k := by
  unfold Memory.num
  rw [m.bytes_split, numOf_append, m.length_bytes]

theorem numOf_lt (bs : List Byte) : numOf bs < 256 ^ bs.length := by
  induction bs with
  | nil => exact Nat.one_pos
  | cons b bs ih =>
    have hb : b.toNat < 256 := b.isLt
    rw [numOf, List.length_cons, Nat.pow_succ]
    omega

theorem Memory.num_lt (m : Memory) (a n : Nat) : m.num a n < 256 ^ n := by
  have h := numOf_lt (m.bytes a n)
  rwa [m.length_bytes] at h

/-- An update without an error adds 1 to COUNT and keeps ERR. -/
theorem Memory.wordUpdate_fields {m : Memory} (h : m.wf = true) (key : Nat) :
    let n := m.write key (bytesOf 8 (wordUpdate (m.num key 8) none))
    (∀ b, ¬ (key ≤ b ∧ b < key + 8) → n.byte b = m.byte b) ∧ n.num key 4 = (m.num key 4 + 1) % 2 ^ 32 ∧ n.num (key + 4) 4 = m.num (key + 4) 4 := by
  intro n
  have hold := m.num_split key 4 4
  have hnew := n.num_split key 4 4
  have hbytes := Memory.bytes_write h key (bytesOf 8 (wordUpdate (m.num key 8) none))
  rw [length_bytesOf] at hbytes
  have hnum : n.num key 8 = wordUpdate (m.num key 8) none % 256 ^ 8 := by
    rw [Memory.num, hbytes, numOf_bytesOf]
  have h1 := m.num_lt key 4
  have h2 := m.num_lt (key + 4) 4
  have h3 := n.num_lt key 4
  have h4 := n.num_lt (key + 4) 4
  refine ⟨fun b hb => ?_, ?_⟩
  · rw [Memory.byte_write h, if_neg]
    rw [length_bytesOf]
    exact hb
  · unfold wordUpdate at hnum
    dsimp only at hnum
    have hp : (2 : Nat) ^ 32 = 256 ^ 4 := by norm_num
    rw [hp] at hnum ⊢
    norm_num at hold hnew hnum h1 h2 h3 h4 ⊢
    omega

theorem TlbEntry.va_word (e : TlbEntry) {off : Nat} (h : off % 8 = 0) : e.va off % 8 = 0 := by
  unfold TlbEntry.va
  omega

/-- The stagehand after a SIGNAL whose word's completion time is t. -/
def Hand.signals (h : Hand) (t : Nat) : Hand := { h with writeTime := max h.writeTime t, pc := h.pc + 1 }

theorem Hand.signals_same {g h : Hand} (hk : g.kept = h.kept) (t : Nat) :
    (g.signals t).Same { h with pc := h.pc + 1, writeTime := max h.writeTime t } :=
  .of_kept (congrArg (fun g : Hand => g.signals t) hk)

theorem exec_signal_at {f : HFields} {s : State} {e : TlbEntry} (hpart : s.dev.partPtr s.hand.ctx (s.hand.hreg f.s) = true)
    (hal : ptrOff (s.hand.hreg f.s) % 8 = 0) (he : (s.handXlate s.dev.cur.col s.hand.ctx (ptrOff (s.hand.hreg f.s)) true).1 = some e) :
    let upd := (s.xlated (ptrOff (s.hand.hreg f.s)) true).wordAt s.dev.cur.col (colOf s.dev.cur.col (s.hand.hreg f.s)) s.hand.ctx
      (ptrOff (s.hand.hreg f.s)) e none
    exec (.signal f) s = .next { upd.1 with dev := upd.1.dev.modHand s.dev.cur.col (fun h => h.signals upd.2) } := by
  have hchecks : ∀ x ∈ [(s.dev.partPtr s.hand.ctx (s.hand.hreg f.s) && ptrOff (s.hand.hreg f.s) % 8 == 0, 7)], x.1 = true := by
    intro x hx
    obtain rfl := List.mem_singleton.mp hx
    rw [hpart, hal]
    rfl
  intro upd
  change execSignal f s = _
  unfold execSignal
  dsimp only
  rw [State.handAt_of hchecks he]
  rfl

theorem State.xlated_vault (s : State) (off : Nat) (write : Bool) : (s.xlated off write).vault = s.vault := rfl

theorem exec_signal {f : HFields} {s : State} {e : TlbEntry} :
    let c := s.dev.cur.col
    let h := s.hand
    let p := h.hreg f.s
    let tc := colOf c p
    let word := e.va (ptrOff p)
    let key := vkey tc word
    let upd := (s.xlated (ptrOff p) true).wordAt c tc h.ctx (ptrOff p) e none
    s.Inv → s.dev.partPtr h.ctx p = true → ptrOff p % 8 = 0 → (s.handXlate c h.ctx (ptrOff p) true).1 = some e →
      (∀ i, i < 2 → (s.dev.col tc).hand.oldWords s.dev.now (word / 4 + i) = []) →
      ∃ u, exec (.signal f) s = .next u ∧ u.hand.Same { h with pc := h.pc + 1, writeTime := max h.writeTime upd.2 } ∧
      (∀ b, ¬ (key ≤ b ∧ b < key + 8) → u.vault.byte b = s.vault.byte b) ∧
      u.vault.num key 4 = (s.vault.num key 4 + 1) % 2 ^ 32 ∧ u.vault.num (key + 4) 4 = s.vault.num (key + 4) 4 := by
  intro c h p tc word key upd hinv hpart hal he hfree
  have hx := SameWarps.xlated s (ptrOff p) true
  have hsame : SameCore s.dev upd.1.dev := hx.core.trans (.wordAt _ _ _ _ _ _ _)
  have hfree' (i : Nat) (hi : i < 2) : ((s.xlated (ptrOff p) true).dev.col tc).hand.oldWords (s.xlated (ptrOff p) true).dev.now (e.va (ptrOff p) / 4 + i) = [] := by
    rw [(SameOlds.xlated s (ptrOff p) true).oldWords hx.now]
    exact hfree i hi
  have hvault := State.wordAt_vault (c := c) (ctx := h.ctx) (err := none) (e.va_word hal) hfree'
  rw [s.xlated_vault] at hvault
  refine ⟨_, exec_signal_at hpart hal he, ?_, ?_⟩
  · rw [State.hand_modHand hsame.cur]
    exact Hand.signals_same (hsame.hand c) upd.2
  · have hfields := Memory.wordUpdate_fields hinv key
    rw [← hvault] at hfields
    exact hfields

end Sys2Proof.Machine
end

section
namespace Sys2Proof
open Sys2Proof.Machine

/-- Settles O44: each instruction's checks, its translation, and what it leaves of the stagehand, of its claims' lines and of the word it updates. -/
theorem handClaimsAndWaits : Obligations.HandClaimsAndWaits := by
  refine ⟨?_, ?_⟩
  · intro f s ps e c h lo n slot p tc va t read k dl
    refine ⟨exec_claim, exec_unclm, fun hpart hal he => ?_, fun hempty => ?_, fun hsome => ?_⟩
    · obtain ⟨hread, hword⟩ := (s.xlated (ptrOff p) false).sliceWord_same (cueLane tc (ptrOff p) e)
      have hsame : SameWarps s.dev read.2.2 := (SameWarps.xlated s _ _).trans hread
      have hexec : exec (.cuew f) s = .next (s.cuewGo f c h e read) := exec_cuew_at hpart hal he
      obtain ⟨hv, hreached, hnot⟩ := State.cuewGo_spec (f := f) (e := e) hsame
      refine ⟨fun holds => hword ((SameOlds.xlated s _ _ tc).trans holds), fun hc => ⟨_, hexec, hv, hreached hc⟩, fun hc => ⟨_, hexec, hv, ?_⟩⟩
      exact hnot hc
    · exact congrArg Host.Outcome.next (congrArg (fun g : Hand => s.putHand g) (if_pos (List.isEmpty_iff.mpr hempty)))
    · exact congrArg Host.Outcome.next (congrArg (fun g : Hand => s.putHand g) (if_neg (fun h => hsome (List.isEmpty_iff.mp h))))
  · intro f s e r c h p tc word key upd
    exact ⟨exec_signal, exec_end⟩

end Sys2Proof
end

section
/-! Proofs about what happens at a stagehand (R369, R374, R376, R377, R379, R381, R384): programs, claims, cue waits, the atomic queue and windows. -/

namespace Sys2Proof.Machine

/-! ## The start of a program -/

theorem SameWarps.handRead (s : State) (c va n : Nat) (zc : Bool) : SameWarps s.dev (s.handRead c va n zc) := by
  exact SameWarps.foldl _ (fun d i => SameWarps.homeSector { s with dev := d } c _ zc) _ _

theorem SameWarps.loadImage (c ctx n off : Nat) (s : State) : SameWarps s.dev (s.loadImage c ctx n off).2 := by
  induction n generalizing off s with
  | zero => exact .refl _
  | succ n ih =>
    have h := SameWarps.handXlate s c ctx (off % 2 ^ 44) false
    unfold State.loadImage
    generalize s.handXlate c ctx (off % 2 ^ 44) false = r at h
    obtain ⟨r, d⟩ := r
    cases r with
    | none => exact h
    | some e =>
      have h2 := (h.trans (SameWarps.handRead { s with dev := d } c (e.va (off % 2 ^ 44)) 8 e.zc)).trans (ih (off + 8) { s with dev := ({ s with dev := d } : State).handRead c (e.va (off % 2 ^ 44)) 8 e.zc })
      dsimp only
      generalize State.loadImage { s with dev := ({ s with dev := d } : State).handRead c (e.va (off % 2 ^ 44)) 8 e.zc } c ctx n (off + 8) = q at h2
      obtain ⟨q, d2⟩ := q
      cases q <;> exact h2

/-- A column whose stagehand takes a program from its queue. -/
def Column.takes (r : RunDesc) (k : Column) : Column :=
  { k with gated := false, hand := { k.hand with
    runq := k.hand.runq.drop 1, running := some r, wait := .none, pc := r.entry, acc := [], halted := false } }

section
variable {c : Nat} {s : State} {r : RunDesc} {ws : Table (BitVec 64)} {d : Dev}

theorem State.startProgram_of (hpois : r.pois = false) (hok : (s.dev.modCol c (Column.takes r)).runOk r = true)
    (hload : ({ s with dev := s.dev.modCol c (Column.takes r) } : State).loadImage c r.ctx r.ilen r.img = (some (ws, false), d)) :
    s.startProgram c r = { s with dev := d.modHand c (fun h => h.begin r ws) } := by
  have hno : ¬ (!(s.dev.modCol c (Column.takes r)).runOk r) = true := by rw [hok]; decide
  unfold Column.takes at hno hload
  unfold State.startProgram
  dsimp only
  rw [if_neg (ne_true_of_eq_false hpois), if_neg hno, hload]
  rfl

theorem Hand.begin_regs (h : Hand) (r : RunDesc) (ws : Table (BitVec 64)) :
    (h.begin r ws).hreg 1 = r.q[3] ∧ (h.begin r ws).hreg 2 = r.q[4] ∧ (h.begin r ws).hreg 3 = r.q[5] ∧
      (∀ i : BitVec 5, 4 ≤ i.toNat → (h.begin r ws).hreg i = 0) ∧ ∀ i l, qLane ((h.begin r ws).qreg i) l = 0 := by
  refine ⟨?_, ?_, ?_, fun i hi => ?_, fun i l => ?_⟩
  · simp [Hand.hreg, Hand.begin]
  · simp [Hand.hreg, Hand.begin]
  · simp [Hand.hreg, Hand.begin]
  · have h1 : i.toNat ≠ 1 := by omega
    have h2 : i.toNat ≠ 2 := by omega
    have h3 : i.toNat ≠ 3 := by omega
    simp [Hand.hreg, Hand.begin, h1, h2, h3]
  · simp [Hand.qreg, Hand.begin, qLane]

/-- A program started: its registers, and the column no longer gated. -/
theorem programStart_spec {rest : List RunDesc} (hq : (s.dev.col c).hand.runq = r :: rest) (hfree : s.dev.handFree c r = true) (hpois : r.pois = false)
    (hok : (s.dev.modCol c (Column.takes r)).runOk r = true)
    (hload : ({ s with dev := s.dev.modCol c (Column.takes r) } : State).loadImage c r.ctx r.ilen r.img = (some (ws, false), d)) :
    ∃ u, exec (.stagehandProgramStart c) s = .next u ∧ u.vault = s.vault ∧ (u.dev.col c).gated = false ∧
      let g := (u.dev.col c).hand
      g.running = some r ∧ g.pc = r.entry ∧ g.prog = ws ∧ g.ilen = r.ilen ∧ g.wait = .none ∧ g.runq = rest ∧ g.acc = [] ∧
      g.hreg 1 = r.q[3] ∧ g.hreg 2 = r.q[4] ∧ g.hreg 3 = r.q[5] ∧ (∀ i : BitVec 5, 4 ≤ i.toNat → g.hreg i = 0) ∧
      ∀ i l, qLane (g.qreg i) l = 0 := by
  have hsame : SameWarps (s.dev.modCol c (Column.takes r)) d := by
    have := SameWarps.loadImage c r.ctx r.ilen r.img { s with dev := s.dev.modCol c (Column.takes r) }
    rwa [hload] at this
  have hkept : (d.col c).kept = ((s.dev.col c).takes r).kept := (hsame.cols c).trans (congrArg Column.kept (Dev.col_modCol _ _ _))
  have hexec : exec (.stagehandProgramStart c) s = .next { s with dev := d.modHand c (fun h => h.begin r ws) } := by
    change execStagehandProgramStart c s = _
    unfold execStagehandProgramStart
    rw [hq]
    dsimp only
    rw [if_pos hfree, State.startProgram_of hpois hok hload]
  have hcol : (d.modHand c (fun h => h.begin r ws)).col c = { d.col c with hand := (d.col c).hand.begin r ws } := Dev.col_modCol _ _ _
  obtain ⟨h1, h2, h3, h4, hqs⟩ := (d.col c).hand.begin_regs r ws
  refine ⟨_, hexec, rfl, ?_, ?_⟩
  · dsimp only
    rw [hcol]
    exact (congrArg Column.gated hkept :)
  · dsimp only
    rw [hcol]
    refine ⟨(congrArg (fun k : Column => k.hand.running) hkept :), rfl, rfl, rfl, rfl, ?_, rfl, h1, h2, h3, h4, hqs⟩
    refine (congrArg (fun k : Column => k.hand.runq) hkept :).trans ?_
    exact (congrArg (List.drop 1) hq :)

end

/-! ## Claims and cue waits -/

section
variable {c : Nat} {s : State}

theorem claimComplete_spec (hwait : (s.dev.col c).hand.wait = .claim)
    (hover : ∀ x ∈ (s.dev.col c).hand.claims, x.done = false → (s.dev.col c).leasesOver s.dev.now x.off (x.off + x.len) = true) :
    ∃ u, exec (.claimComplete c) s = .next u ∧ u.vault = s.vault ∧ (u.dev.col c).hand = { (s.dev.col c).hand with
      claims := (s.dev.col c).hand.claims.map (fun x => { x with done := true }), wait := .none, pc := (s.dev.col c).hand.pc + 1 } := by
  obtain ⟨ps, hps⟩ : ∃ ps, ps = (s.dev.col c).hand.claims.filter (fun x => !x.done) := ⟨_, rfl⟩
  have hall : ((s.dev.col c).hand.wait == .claim && ps.all (fun x => (s.dev.col c).leasesOver s.dev.now x.off (x.off + x.len))) = true := by
    rw [hwait, hps]
    refine Bool.and_eq_true_iff.mpr ⟨by decide, List.all_eq_true.mpr fun x hx => ?_⟩
    obtain ⟨hmem, hdone⟩ := List.mem_filter.mp hx
    exact hover x hmem (by simpa using hdone)
  obtain ⟨hhand, -, -⟩ := Column.l2Invalidates_spec ps (s.dev.col c)
  have hexec : exec (.claimComplete c) s = .next _ := if_pos (by rw [← hps]; exact hall)
  refine ⟨_, hexec, rfl, ?_⟩
  dsimp only
  rw [Dev.modHand, Dev.col_modCol, Dev.col_modCol, ← hps, hhand]

theorem SameWarps.cueSeen (s : State) (c tc off : Nat) (t : Word) (poll : Option Nat) : SameWarps s.dev (s.cueSeen c tc off t poll).2 := by
  unfold State.cueSeen
  cases poll with
  | none => exact .refl _
  | some n =>
    dsimp only
    split
    · exact .refl _
    · have h := SameWarps.handXlate s c (s.dev.col c).hand.ctx off false
      generalize s.handXlate c (s.dev.col c).hand.ctx off false = r at h
      obtain ⟨r, d⟩ := r
      cases r with
      | none => exact h
      | some e =>
        dsimp only
        rw [State.cueReached_eq]
        exact h.trans (State.sliceWord_same { s with dev := d } (cueLane tc off e)).1

/-- What the end of a wait on a cue leaves. -/
theorem cuewEnd_ends {d : Dev} (hsame : SameWarps s.dev d) (q : BitVec 5) (n : Nat) :
    ((d.cuewEnd c q n).col c).hand.Same
      { (s.dev.col c).hand.setH q (BitVec.ofNat 64 n) with pc := (s.dev.col c).hand.pc + 1, wait := .none, halted := false } := by
  rw [Dev.cuewEnd_hand]
  have hset := ((d.col c).hand.kept_setH q (BitVec.ofNat 64 n)).trans
    ((congrArg (fun g : Hand => g.setH q (BitVec.ofNat 64 n)) (hsame.core.hand c)).trans ((s.dev.col c).hand.kept_setH q (BitVec.ofNat 64 n)).symm)
  rw [← (s.dev.col c).hand.pc_setH q (BitVec.ofNat 64 n)]
  exact .of_kept (congrArg (fun g : Hand => { g with pc := g.pc + 1, wait := .none, halted := false }) hset :)

theorem cuewWake_spec {q : BitVec 5} {tc off : Nat} {t : Word} {dl poll : Option Nat} (hwait : (s.dev.col c).hand.wait = .cuew q tc off t dl poll) :
    let h := (s.dev.col c).hand
    let seen := (s.cueSeen c tc off t poll).1
    let ends (v : BitVec 64) : Prop := ∃ u, exec (.cuewWake c) s = .next u ∧ u.vault = s.vault ∧
      (u.dev.col c).hand.Same { h.setH q v with pc := h.pc + 1, wait := .none, halted := false }
    (seen = true → ends 0) ∧ (seen = false → ∀ n, dl = some n → n ≤ s.dev.now → ends 1) ∧
      (seen = false → (∀ n, dl = some n → s.dev.now < n) → h.halted = true → ends 2) := by
  intro h seen ends
  have hsame := SameWarps.cueSeen s c tc off t poll
  obtain ⟨d, hd⟩ : ∃ d, d = (s.cueSeen c tc off t poll).2 := ⟨_, rfl⟩
  rw [← hd] at hsame
  have hpair : s.cueSeen c tc off t poll = (seen, d) := by rw [hd]
  have hexec : exec (.cuewWake c) s = execCuewWake c s := rfl
  unfold execCuewWake at hexec
  dsimp only at hexec
  rw [hwait] at hexec
  dsimp only at hexec
  rw [hpair] at hexec
  dsimp only at hexec
  refine ⟨fun hs => ?_, fun hs n hdl hn => ?_, fun hs hdl hhalt => ?_⟩
  · rw [if_pos hs] at hexec
    exact ⟨_, hexec, rfl, cuewEnd_ends hsame q 0⟩
  · rw [if_neg (ne_true_of_eq_false hs), hdl] at hexec
    dsimp only at hexec
    rw [if_pos (decide_eq_true (hsame.now.symm ▸ hn))] at hexec
    exact ⟨_, hexec, rfl, cuewEnd_ends hsame q 1⟩
  · rw [if_neg (ne_true_of_eq_false hs)] at hexec
    cases dl with
    | none =>
      dsimp only at hexec
      rw [if_neg Bool.false_ne_true, if_pos hhalt] at hexec
      exact ⟨_, hexec, rfl, cuewEnd_ends hsame q 2⟩
    | some n =>
      have hn : ¬ n ≤ d.now := by
        rw [hsame.now]
        exact Nat.not_le.mpr (hdl n rfl)
      rw [if_neg (by simpa using hn), if_pos hhalt] at hexec
      exact ⟨_, hexec, rfl, cuewEnd_ends hsame q 2⟩

end

/-! ## The atomic queue -/

theorem SameWarps.modHand (d : Dev) (c : Nat) (f : Hand → Hand) (h : (f (d.col c).hand).kept = (d.col c).hand.kept) : SameWarps d (d.modHand c f) := by
  refine SameWarps.modCol d c (fun k => { k with hand := f k.hand }) ?_
  exact (congrArg (fun g : Hand => ({ (d.col c).kept with hand := g } : Column)) h :)

theorem SameWarps.resumeHand (d : Dev) (c : Nat) : SameWarps d (d.resumeHand c) := by
  unfold Dev.resumeHand
  cases (d.col c).hand.banks.run with
  | none => exact .refl d
  | some r => exact .modHand d c _ (Hand.kept_resume _ _ _)

section
variable {c : Nat} {s : State} {e : NmEntry} {v : Word}

/-- The count and the latest completion time of a warp whose entry has been performed at a tick. -/
def Warp.nmDone (now : Nat) (w : Warp) : Warp := { w with nmPending := w.nmPending - 1, nmTime := max w.nmTime (now + 4) }

/-- An entry that writes, performed. -/
theorem State.nmPerform_spec (hnew : e.new (BitVec.ofNat 32 (s.vault.num (vkey c e.va) 4)) = some v) (horph : e.orph = false) :
    ∃ d, SameCore s.dev d ∧ s.nmPerform c e =
      { vault := s.vault.write (vkey c e.va) (bytesOf 4 v.toNat), dev := d.modWarp c e.slot (Warp.nmDone s.dev.now) } := by
  let read : State := { s with dev := (s.dev.bankRead c e.va).modHand c (fun h => h.serveEntry s.dev.now (bankOf e.va)) }
  let kept : State := if e.stable then { read with dev := read.keepStable c e.va 4 } else read
  let d : Dev := (kept.keepOld c e.va (bytesOf 4 v.toNat)).setPois (vkey c e.va) (kept.dev.poisoned (vkey c e.va) || e.pois)
  have h1 : SameCore s.dev read.dev := ((SameWarps.bankRead s.dev c e.va).trans
    (.modHand (s.dev.bankRead c e.va) c (fun h => h.serveEntry s.dev.now (bankOf e.va)) rfl)).core
  have h2 : SameCore read.dev kept.dev := .ite (SameCore.keepStable read c e.va 4) (.refl _)
  have h3 : SameCore s.dev d := (h1.trans h2).trans ((SameCore.keepOld kept c e.va _).trans (.setPois _ _ _))
  have hvault : kept.vault = s.vault := proj_ite State.vault rfl rfl
  refine ⟨d, h3, ?_⟩
  unfold State.nmPerform
  dsimp only
  rw [hnew]
  dsimp only
  rw [if_neg (ne_true_of_eq_false horph)]
  change ({ vault := kept.vault.write (vkey c e.va) (bytesOf 4 v.toNat), dev := d.modWarp c e.slot (Warp.nmDone d.now) } : State) = _
  rw [hvault, h3.now]

/-- The queue of a column without its head entry, and the service claim that is left. -/
def State.served (s : State) (c : Nat) (rest : List NmEntry) (row : Option Nat) : State :=
  { s with dev := (s.dev.modHand c (fun h => { h with atomq := rest, service := row })).modCol c (fun k => { k with busyEnd := s.dev.now }) }

theorem State.nmServe_cases (s : State) (c : Nat) (e : NmEntry) (rest : List NmEntry) :
    ∃ row, s.nmServe c e rest = (s.nmPerform c e).served c rest row ∨
      s.nmServe c e rest = ((s.nmPerform c e).served c rest row).testWatches c (e.va / 1024 * 1024) 1024 := by
  unfold State.nmServe
  dsimp only
  generalize (s.dev.col c).hand.claims.any (fun x => x.done && decide (x.off / 1024 ≤ e.va / 1024) && decide (e.va / 1024 < (x.off + x.len) / 1024)) = own
  generalize (!own && (match rest with
    | n :: _ => n.va / 1024 == e.va / 1024
    | [] => false)) = keep
  refine ⟨if keep then some (e.va / 1024) else none, ?_⟩
  cases own || keep
  · exact .inr rfl
  · exact .inl rfl

theorem State.served_spec (s : State) (c : Nat) (rest : List NmEntry) (row : Option Nat) (lo n : Nat) :
    let u := s.served c rest row
    let t := u.testWatches c lo n
    (u.vault = s.vault ∧ (u.dev.col c).hand.atomq = rest ∧ ∀ x, u.dev.warp c x = s.dev.warp c x) ∧
      (t.vault = s.vault ∧ (t.dev.col c).hand.atomq = rest ∧ ∀ x, t.dev.warp c x = s.dev.warp c x) := by
  intro u t
  have hu : u.dev.col c = { s.dev.col c with hand := { (s.dev.col c).hand with atomq := rest, service := row }, busyEnd := s.dev.now } := by
    change Dev.col (Dev.modCol _ c _) c = _
    rw [Dev.col_modCol, Dev.modHand, Dev.col_modCol]
  have hw (x : Nat) : u.dev.warp c x = s.dev.warp c x := (congrArg (fun k : Column => k.warp x) hu :)
  have ha : (u.dev.col c).hand.atomq = rest := (congrArg (fun k : Column => k.hand.atomq) hu :)
  have hcore := SameCore.testWatches u c lo n
  refine ⟨⟨rfl, ha, hw⟩, rfl, ?_, fun x => ?_⟩
  · exact (congrArg Hand.atomq (hcore.hand c) :).trans ha
  · refine Eq.trans ?_ (hw x)
    exact congrArg (fun t : Table Warp => t.getD x Warp.start) (hcore.warps c)

/-- The head entry, which writes, served. -/
theorem State.nmServe_spec {rest : List NmEntry} (hnew : e.new (BitVec.ofNat 32 (s.vault.num (vkey c e.va) 4)) = some v) (horph : e.orph = false) :
    (s.nmServe c e rest).vault = s.vault.write (vkey c e.va) (bytesOf 4 v.toNat) ∧ ((s.nmServe c e rest).dev.col c).hand.atomq = rest ∧
      (s.nmServe c e rest).dev.warp c e.slot = (s.dev.warp c e.slot).nmDone s.dev.now := by
  obtain ⟨d, hsame, hperform⟩ := State.nmPerform_spec (s := s) hnew horph
  have hwarp : (d.modWarp c e.slot (Warp.nmDone s.dev.now)).warp c e.slot = (s.dev.warp c e.slot).nmDone s.dev.now := by
    rw [Dev.warp_modWarp]
    exact congrArg (fun t : Table Warp => (t.getD e.slot Warp.start).nmDone s.dev.now) (hsame.warps c)
  obtain ⟨row, hserve⟩ := s.nmServe_cases c e rest
  obtain ⟨⟨hv, ha, hw⟩, hv', ha', hw'⟩ := (s.nmPerform c e).served_spec c rest row (e.va / 1024 * 1024) 1024
  rw [hperform] at hv ha hw hv' ha' hw' hserve
  rcases hserve with hs | hs
  · rw [hs]
    exact ⟨hv, ha, (hw e.slot).trans hwarp⟩
  · rw [hs]
    exact ⟨hv', ha', (hw' e.slot).trans hwarp⟩

theorem atomicQueueServe_spec {rest : List NmEntry} (hinv : s.Inv) (hq : ((s.dev.resumeHand c).col c).hand.atomq = e :: rest)
    (hserves : ((s.dev.resumeHand c).col c).hand.serves s.dev.now = true) (hclaimed : ((s.dev.resumeHand c).col c).claimed e.va = true)
    (hnew : e.new (BitVec.ofNat 32 (s.vault.num (vkey c e.va) 4)) = some v) (horph : e.orph = false) :
    ∃ u, exec (.atomicQueueServe c) s = .next u ∧ (u.dev.col c).hand.atomq = rest ∧ BitVec.ofNat 32 (u.vault.num (vkey c e.va) 4) = v ∧
      (∀ b, b < vkey c e.va ∨ vkey c e.va + 4 ≤ b → u.vault.byte b = s.vault.byte b) ∧
      (u.dev.warp c e.slot).nmPending = (s.dev.warp c e.slot).nmPending - 1 ∧
      (u.dev.warp c e.slot).nmTime = max (s.dev.warp c e.slot).nmTime (s.dev.now + 4) := by
  have hsame := SameWarps.resumeHand s.dev c
  obtain ⟨t, ht⟩ : ∃ t : State, t = { s with dev := s.dev.resumeHand c } := ⟨_, rfl⟩
  have hexec : exec (.atomicQueueServe c) s = .next (t.nmServe c e rest) := by
    change execAtomicQueueServe c s = _
    unfold execAtomicQueueServe
    dsimp only
    rw [hq]
    dsimp only
    rw [hsame.now, hserves, hclaimed, if_neg (by decide), if_pos rfl, ht]
  have hvt : t.vault = s.vault := by rw [ht]
  have hdt : t.dev = s.dev.resumeHand c := by rw [ht]
  obtain ⟨hv, ha, hw⟩ := State.nmServe_spec (s := t) (rest := rest) (by rw [hvt]; exact hnew) horph
  rw [hvt] at hv
  rw [hdt, hsame.now, hsame.warp] at hw
  refine ⟨_, hexec, ha, ?_, fun b hb => ?_, ?_, ?_⟩
  · rw [hv]
    exact Memory.num_write_word hinv _ v
  · rw [hv, Memory.byte_write hinv, if_neg]
    rw [length_bytesOf]
    omega
  · rw [hw]
    rfl
  · rw [hw]
    rfl

end

/-! ## Windows -/

section
variable {c bank : Nat} {s : State}

theorem bankWindow_col (hwant : s.dev.bankWanted c bank = true) : ∃ u, exec (.bankWindow c bank) s = .next u ∧ u.vault = s.vault ∧
    (u.dev.col c).hand = (s.dev.col c).hand.window s.dev.now bank :=
  ⟨_, if_pos hwant, rfl, (congrArg Column.hand (Dev.col_modCol _ _ _) :)⟩

theorem bankWindow_opens {r : RowRun} {n : Nat} (hwant : s.dev.bankWanted c bank = true) (hrun : (s.dev.col c).hand.banks.run = some r) (hbank : r.bank = bank)
    (hover : s.dev.now < r.over) (hclosed : (s.dev.col c).hand.banks.windows.get? bank = none) (hkept : (s.dev.col c).hand.banks.kept.get? bank ≠ some none)
    (hend : (r.ends.filter (fun t => decide (s.dev.now < t))).find? (fun t => decide ((((s.dev.col c).hand.banks.kept.get? bank).bind id).getD 0 ≤ t)) = some n) :
    ∃ u, exec (.bankWindow c bank) s = .next u ∧ u.vault = s.vault ∧
      let g := (u.dev.col c).hand
      g.openRow = (s.dev.col c).hand.openRow.del bank ∧ g.banks.windows.get? bank = some (n + 8 + 64) ∧
      g.banks.run.map RowRun.ends = some ((r.ends.filter (fun t => decide (s.dev.now < t))).filter (fun t => decide (t ≤ n))) := by
  obtain ⟨u, hu, hv, hhand⟩ := bankWindow_col hwant
  refine ⟨u, hu, hv, ?_⟩
  dsimp only
  rw [hhand]
  generalize (s.dev.col c).hand = h at hrun hclosed hkept hend
  have hholds : h.banks.holds s.dev.now bank = true := by
    unfold BankTimes.holds
    rw [hrun]
    dsimp only
    rw [hbank]
    exact Bool.and_eq_true_iff.mpr ⟨beq_self_eq_true _, decide_eq_true hover⟩
  have hhas : h.banks.windows.has bank = false := by
    unfold Table.has
    rw [hclosed]
    rfl
  have hwindow : h.window s.dev.now bank = { h with openRow := h.openRow.del bank, banks := h.banks.request s.dev.now bank } := by
    refine if_pos ?_
    rw [hholds, hhas]
    exact bne_iff_ne.mpr hkept
  have hgo : ¬ (!h.banks.holds s.dev.now bank || h.banks.windows.has bank || h.banks.kept.get? bank == some none) = true := by
    rw [hholds, hhas]
    simpa using hkept
  have hrequest : (h.banks.request s.dev.now bank).windows = h.banks.windows.set bank (n + 8 + 64) ∧
      (h.banks.request s.dev.now bank).run.map RowRun.ends =
        some ((r.ends.filter (fun t => decide (s.dev.now < t))).filter (fun t => decide (t ≤ n))) := by
    unfold BankTimes.request
    rw [hrun]
    dsimp only
    rw [if_neg hgo, hend]
    exact ⟨rfl, rfl⟩
  rw [hwindow]
  exact ⟨rfl, (congrArg (fun t : Table Nat => t.get? bank) hrequest.1).trans (Table.get?_set_same _ _ _), hrequest.2⟩

/-- No window opens without a request, without a phase under way, beside an open window, or while the stagehand keeps the bank. -/
theorem bankWindow_keeps (h : s.dev.bankWanted c bank = false ∨ (s.dev.col c).hand.banks.holds s.dev.now bank = false ∨
      ((s.dev.col c).hand.banks.windows.get? bank).isSome = true ∨ (s.dev.col c).hand.banks.kept.get? bank = some none) :
    ∃ u, exec (.bankWindow c bank) s = .next u ∧ u.vault = s.vault ∧ (u.dev.col c).hand = (s.dev.col c).hand := by
  cases hwant : s.dev.bankWanted c bank with
  | false => exact ⟨s, if_neg (ne_true_of_eq_false hwant), rfl, rfl⟩
  | true =>
    obtain ⟨u, hu, hv, hhand⟩ := bankWindow_col hwant
    refine ⟨u, hu, hv, hhand.trans (if_neg ?_)⟩
    rw [hwant] at h
    rcases h with h | h | h | h
    · cases h
    · rw [h]
      exact Bool.false_ne_true
    · rw [show (s.dev.col c).hand.banks.windows.has bank = true from h, Bool.not_true, Bool.and_false, Bool.false_and]
      exact Bool.false_ne_true
    · rw [h, bne_self_eq_false, Bool.and_false]
      exact Bool.false_ne_true

end

end Sys2Proof.Machine
end

section
namespace Sys2Proof
open Sys2Proof.Machine

/-- Settles O45: what a program's start, the end of a claim and of a wait, an entry served and a bank's window leave of the column. -/
theorem handEvents : Obligations.HandEvents := by
  refine ⟨?_, ?_⟩
  · intro c s r rest ws d k h taken
    exact ⟨programStart_spec, claimComplete_spec, fun q tc off t dl poll => cuewWake_spec⟩
  · intro c bank s e rest v k h key old
    exact ⟨atomicQueueServe_spec, fun r n => bankWindow_opens, bankWindow_keeps⟩

end Sys2Proof
end

section
/-! Proofs about the stagehand's accesses (R365, R368, R381): the rows that stand open where a window is over. -/

namespace Sys2Proof.Machine

/-- A page table of column 0 whose first 2 MiB are the big page at frame 32. -/
def pageTable : Memory := Memory.write (Memory.write [] (vkey 0 0) (bytesOf 8 65537)) (vkey 0 256) (bytesOf 8 (9 + 32 * 65536))

/-- The translation of the first granule. -/
def firstEntry : TlbEntry :=
  { ctx := 0, gran := 0, frame := 32, w := false, sys := false, mig := 0, cp := 0, zc := false, stable := false, big := true }

/-- A stagehand whose window at bank 4 is over, and whose open rows are listed out of order. -/
def windowHand : Hand :=
  { Column.start.hand with
    claims := [{ slot := 0, off := 32 * 65536 + 4096, len := 1024, done := true }], openRow := [(5, 0), (3, 0)],
    banks := { Column.start.hand.banks with run := some { bank := 4, row := some 7, ends := [], rest := [] }, windows := [(4, 64)] } }

def windowState : State := { vault := pageTable, dev := { Dev.start with now := 100, cols := [(0, { Column.start with hand := windowHand })] } }

/-- VLD of four bytes at offset 4096. -/
def bankLoad : HFields := { d := 1, s := 0, t := 0, x := 2, imm := 4096 }

theorem windowState_rows : (match exec (.vld bankLoad) windowState with
    | .next u => u.hand.openRow
    | _ => []) = [(5, 0)] := by decide +kernel

theorem windowState_xlated : (windowState.xlated 4096 false).hand.openRow.del 4 = [(5, 0), (3, 0)] := by decide +kernel

end Sys2Proof.Machine
end

section
namespace Sys2Proof
open Sys2Proof.Machine

/-- Refutes O43, in its clause of a VLD under a claim, which says of the rows open after it that they are those before it without the accessed bank's,
as the same table. Where a window at that bank is over, the stagehand first takes the bank again, which sets its row open, and the access then
takes it out: of a table whose keys ascend this leaves the table without the bank. In `windowState` the keys do not ascend, and another row goes too. -/
theorem not_handMemory : ¬ Obligations.HandMemory := by
  rintro ⟨h, -⟩
  obtain ⟨-, hload, -⟩ := h bankLoad windowState firstEntry
  obtain ⟨u, hu, -, -, hrows⟩ := hload (by decide) (by decide +kernel) (by decide +kernel)
  have hleft := windowState_rows
  rw [hu] at hleft
  have hall := hrows (by decide +kernel)
  exact absurd (hleft.symm.trans (hall.trans windowState_xlated)) (by decide)

end Sys2Proof
end

section
/-! Proofs about faults on their way to the stage manager and back (R38, R101, R425-R430), deferred traps (R400) and migration (R434). -/

namespace Sys2Proof.Machine

variable {s : State} {c ctx gran off y p : Nat}

/-! ## Walks and lines -/

theorem TlbEntry.for_self (e : TlbEntry) : e.for_ e.gran = e := by
  unfold TlbEntry.for_
  rw [Nat.add_sub_cancel]

theorem Column.cached_cache (k : Column) (e : TlbEntry) : e ∈ (k.cache e).cached e.ctx e.gran := by
  unfold Column.cache
  split
  · next h => exact List.contains_iff_mem.mp h
  · refine List.mem_eraseDups.mpr (List.mem_map.mpr ⟨e, List.mem_filter.mpr ⟨List.mem_cons_self, ?_⟩, e.for_self⟩)
    simp [TlbEntry.serves]

/-- A translation found is one of a granule of a context. -/
def Names (ctx gran : Nat) (r : Except Flt TlbEntry × Dev) : Prop := ∀ e, r.1 = .ok e → e.ctx = ctx ∧ e.gran = gran

theorem Names.error (ctx gran : Nat) (f : Flt) (d : Dev) : Names ctx gran (.error f, d) := fun _ h => nomatch h

/-- A walk gives an entry of the granule that it was asked for. -/
theorem State.walkReading_names (c ctx gran n : Nat) (s : State) (level table : Nat) : Names ctx gran (s.walkReading c ctx gran n level table) := by
  induction n generalizing s level table with
  | zero => exact .error _ _ _ _
  | succ n ih =>
    unfold State.walkReading
    refine iteInduction (fun _ => .error _ _ _ _) fun _ => iteInduction (fun _ => .error _ _ _ _) fun _ => ?_
    refine iteInduction (fun _ => .error _ _ _ _) fun _ => iteInduction (fun _ => ih _ _ _) fun _ e h => ?_
    cases h
    exact ⟨rfl, rfl⟩

theorem State.useWalk_cached {e : TlbEntry} {d : Dev} (h : s.useWalk c ctx off = (.ok e, d)) : e ∈ (d.col c).cached ctx (granOf off) := by
  unfold State.useWalk at h
  have hnames := s.walkReading_names c ctx (granOf off) 3 0 (bitsOf (s.dev.ctx ctx).ptRoot.toNat 23 0 * 256)
  generalize s.walkReading c ctx (granOf off) 3 0 _ = w at h hnames
  obtain ⟨r, d'⟩ := w
  cases r with
  | error f => exact nomatch (congrArg Prod.fst h :)
  | ok e' =>
    dsimp only at h
    obtain ⟨he, rfl⟩ := Prod.mk.inj h
    cases he
    obtain ⟨rfl, hg⟩ := hnames e rfl
    rw [Dev.col_modCol, ← hg]
    exact Column.cached_cache _ _

theorem State.translate_cached {write priv : Bool} {e : TlbEntry} {d : Dev} (h : s.translate c ctx off write priv = (.ok e, d))
    (hold : s.olderXlates c ctx off = []) : e ∈ (d.col c).cached ctx (granOf off) := by
  unfold State.translate at h
  generalize (s.dev.col c).filterOf ctx (granOf off) = g at h
  cases g with
  | some f => exact nomatch (congrArg Prod.fst h :)
  | none =>
    dsimp only at h
    have hlook : s.lookup c ctx off = s.useWalk c ctx off := by
      unfold State.lookup
      rw [hold]
    rw [hlook] at h
    generalize hw : s.useWalk c ctx off = w at h
    obtain ⟨r, d'⟩ := w
    cases r with
    | error f => exact nomatch (congrArg Prod.fst h :)
    | ok e' =>
      dsimp only at h
      generalize e'.forbids write priv = k at h
      cases k with
      | some k => exact nomatch (congrArg Prod.fst h :)
      | none =>
        obtain ⟨he, rfl⟩ := Prod.mk.inj h
        cases he
        exact State.useWalk_cached hw

theorem tableWalkComplete_found {write priv : Bool} {e : TlbEntry} {t : Dev} (hin : s.dev.inPart ctx c = true)
    (h : s.translate c ctx (off % 2 ^ 44) write priv = (.ok e, t)) :
    exec (.tableWalkComplete c ctx off write priv) s = .next { s with dev := t } := by
  change execTableWalkComplete c ctx off write priv s = _
  unfold execTableWalkComplete
  dsimp only
  rw [hin, h]
  rfl

theorem tableWalkComplete_faults {write priv : Bool} {e : Flt} {t : Dev} (hin : s.dev.inPart ctx c = true)
    (h : s.translate c ctx (off % 2 ^ 44) write priv = (.error e, t)) :
    exec (.tableWalkComplete c ctx off write priv) s = .next
      { s with dev := t.report c ctx (granOf (off % 2 ^ 44)) e (if write then .store else .load) } := by
  change execTableWalkComplete c ctx off write priv s = _
  unfold execTableWalkComplete
  dsimp only
  rw [hin, h]
  rfl

/-- A line can arrive for a warp of a column that issues. -/
theorem fetchLineArrival_eq (hhas : (s.dev.col c).warps.has y = true) (hpc : pcInRange (s.dev.warp c y).pc = true)
    (hhalt : (s.dev.col c).halted = false) :
    (∀ x t, s.fetchLine c (s.dev.warp c y).ctx (pcLine (s.dev.warp c y).pc) = (.ok x, t) → exec (.fetchLineArrival c y) s = .next { s with dev := t }) ∧
      ∀ e t, s.fetchLine c (s.dev.warp c y).ctx (pcLine (s.dev.warp c y).pc) = (.error e, t) → (s.dev.warp c y).park = .none →
        (s.dev.warp c y).stopped = false → ∃ u, exec (.fetchLineArrival c y) s = .next u ∧ u.vault = s.vault ∧
          u.dev.warp c y = { s.dev.warp c y with
            wait := .translation [granOf (pcLine (s.dev.warp c y).pc)] true 0, active := false, entered := s.dev.now } := by
  have hgo : exec (.fetchLineArrival c y) s = execFetchLineArrival c y s := rfl
  have hif : ¬(!(s.dev.col c).warps.has y || !pcInRange (s.dev.warp c y).pc || (s.dev.col c).halted) = true := by
    rw [hhas, hpc, hhalt]
    exact Bool.false_ne_true
  unfold execFetchLineArrival at hgo
  dsimp only at hgo
  rw [if_neg hif] at hgo
  refine ⟨fun x t h => ?_, fun e t h hpark hstop => ?_⟩
  · rw [h] at hgo
    exact hgo
  · rw [h] at hgo
    dsimp only at hgo
    have hsame : SameWarps s.dev t := by
      have := SameWarps.fetchLine s c (s.dev.warp c y).ctx (pcLine (s.dev.warp c y).pc)
      rwa [h] at this
    have hturn := hsame.core.turn.trans (SameTurn.report t c (s.dev.warp c y).ctx (granOf (pcLine (s.dev.warp c y).pc)) e .fetch)
    have hwarp : (t.report c (s.dev.warp c y).ctx (granOf (pcLine (s.dev.warp c y).pc)) e .fetch).warp c y = s.dev.warp c y := by
      have hw := hturn.warps c
      generalize t.report c (s.dev.warp c y).ctx _ e .fetch = t' at hw
      unfold Dev.warp Column.warp
      rw [hw]
    rw [hpark, hstop, if_neg (by decide)] at hgo
    refine ⟨_, hgo, rfl, ?_⟩
    dsimp only
    rw [Dev.warp_modWarp, hwarp, hturn.now]

/-! ## The wing stages -/

theorem Column.sent_modFilter (k : Column) (ctx gran : Nat) {g : FilterEntry}
    (h : g ∈ (k.modFilter ctx gran (fun x => { x with sent := true })).filter) (hctx : g.ctx = ctx) (hgran : g.gran = gran) : g.sent = true := by
  obtain ⟨x, -, rfl⟩ := List.mem_map.mp h
  by_cases hx : x.ctx = ctx ∧ x.gran = gran
  · rw [if_pos hx]
  · rw [if_neg hx] at hctx hgran
    exact absurd ⟨hctx, hgran⟩ hx

/-- The entry of a stage that a fault joins (R427). -/
def WingEntry.at_ (e : WingEntry) (wing : Nat) (z : Nat × WingEntry) : Bool := z.1 == wing && z.2.isFor e.part e.ctx e.gran e.kind

/-- That entry with the fault's access types and waiters added. -/
def WingEntry.joins (e : WingEntry) (wing : Nat) (z : Nat × WingEntry) : Nat × WingEntry :=
  if e.at_ wing z then (z.1, { z.2 with acc := z.2.acc ||| e.acc, waiters := z.2.waiters + e.waiters }) else z

theorem Dev.stageTakes_joins {d : Dev} {wing : Nat} {e : WingEntry} (h : d.wings.any (e.at_ wing) = true) :
    d.stageTakes wing e = some { d with wings := d.wings.map (e.joins wing) } := if_pos h

theorem Dev.stageTakes_opens {d : Dev} {wing : Nat} {e : WingEntry} (h : d.wings.any (e.at_ wing) = false)
    (hroom : (d.wings.filter (fun z => z.1 == wing)).length < 64) : d.stageTakes wing e = some { d with wings := d.wings ++ [(wing, e)] } :=
  (if_neg (ne_true_of_eq_false h)).trans (if_neg (Nat.not_le_of_gt hroom))

theorem Dev.stageTakes_full {d : Dev} {wing : Nat} {e : WingEntry} (h : d.wings.any (e.at_ wing) = false)
    (hfull : 64 ≤ (d.wings.filter (fun z => z.1 == wing)).length) : d.stageTakes wing e = none :=
  (if_neg (ne_true_of_eq_false h)).trans (if_pos hfull)

/-- The entry with which a fault of a column's filter reaches a stage. -/
def Dev.wingEntry (d : Dev) (c ctx gran : Nat) (f : FilterEntry) : WingEntry :=
  { part := (d.ctx ctx).part, ctx := ctx, gran := gran, kind := f.kind, level := f.level, acc := f.acc, waiters := d.waiters c ctx gran,
    fcol := c, tick := f.tick, arrived := d.now, rseq := none }

section
variable {f : FilterEntry} (hf : ((s.dev.col c).filter.take 16).find? (fun f => f.ctx == ctx && f.gran == gran && !f.sent) = some f)
include hf

theorem wingStageFaultArrival_waits (h : s.dev.stageTakes (wingOf c) (s.dev.wingEntry c ctx gran f) = none) :
    exec (.wingStageFaultArrival c ctx gran) s = .next s := by
  change execWingStageFaultArrival c ctx gran s = _
  unfold execWingStageFaultArrival
  dsimp only
  rw [hf]
  dsimp only
  unfold Dev.wingEntry at h
  rw [h]

theorem wingStageFaultArrival_takes {ws : List (Nat × WingEntry)}
    (h : s.dev.stageTakes (wingOf c) (s.dev.wingEntry c ctx gran f) = some { s.dev with wings := ws }) :
    ∃ u, exec (.wingStageFaultArrival c ctx gran) s = .next u ∧ u.vault = s.vault ∧ u.dev.wings = ws ∧
      ∀ g ∈ (u.dev.col c).filter, g.ctx = ctx → g.gran = gran → g.sent = true := by
  have hgo : exec (.wingStageFaultArrival c ctx gran) s = execWingStageFaultArrival c ctx gran s := rfl
  unfold execWingStageFaultArrival at hgo
  dsimp only at hgo
  rw [hf] at hgo
  dsimp only at hgo
  unfold Dev.wingEntry at h
  rw [h] at hgo
  refine ⟨_, hgo, rfl, rfl, fun g hg => ?_⟩
  dsimp only at hg
  rw [Dev.col_modCol] at hg
  exact Column.sent_modFilter _ ctx gran hg

end

theorem find?_eq_of_forall {α : Type} {l : List α} {p q : α → Bool} (h : ∀ x, p x = q x) : l.find? p = l.find? q := by
  rw [funext h]

/-- The entry that a stage forwards, once it has been sent to the lead. -/
def forwarded (p c ctx gran kind : Nat) (w : Nat × WingEntry) : Nat × WingEntry :=
  if w.1 = wingOf c ∧ w.2.isFor p ctx gran kind then (w.1, { w.2 with fwd := true }) else w

theorem wingStageFaultArrival_forwards {w : WingEntry} {ws : List (Nat × WingEntry)} (hpart : (s.dev.ctx ctx).part = p)
    (hf : ((s.dev.col c).filter.take 16).find? (fun f => f.ctx == ctx && f.gran == gran && !f.sent) = none) (hown : wingOf c ≠ s.dev.leadWing p)
    (hw : s.dev.wings.find? (fun z => z.1 == wingOf c && z.2.part == p && z.2.ctx == ctx && z.2.gran == gran && !z.2.fwd) = some (wingOf c, w))
    (h : s.dev.stageTakes (s.dev.leadWing p) { w with arrived := s.dev.now } = some { s.dev with wings := ws }) :
    exec (.wingStageFaultArrival c ctx gran) s = .next { s with dev := { s.dev with wings := ws.map (forwarded p c ctx gran w.kind) } } := by
  change execWingStageFaultArrival c ctx gran s = _
  unfold execWingStageFaultArrival
  dsimp only
  rw [hf, hpart]
  have hfind : s.dev.wings.find? (fun z => z.1 == wingOf c && s.dev.unsent p ctx gran z) = some (wingOf c, w) := by
    rw [← hw]
    refine find?_eq_of_forall fun z => ?_
    unfold Dev.unsent
    by_cases hz : z.1 = wingOf c
    · rw [hz, bne_iff_ne.mpr hown, Bool.true_and]
      simp only [Bool.and_assoc]
    · rw [beq_false_of_ne hz]
      simp only [Bool.false_and]
  dsimp only
  unfold Dev.forward
  rw [hfind]
  dsimp only
  rw [h]
  rfl

theorem WingEntry.named {ws : List (Nat × WingEntry)} {w : Nat × WingEntry} {q : Nat}
    (h : ws.find? (fun z => z.1 == q && z.2.part == p && z.2.ctx == ctx && z.2.gran == gran && !z.2.fwd) = some w) :
    w.2.part = p ∧ w.2.ctx = ctx ∧ w.2.gran = gran := by
  have := List.find?_some h
  simp only [Bool.and_eq_true, beq_iff_eq] at this
  obtain ⟨⟨⟨⟨-, hp⟩, hc⟩, hg⟩, -⟩ := this
  exact ⟨hp, hc, hg⟩

theorem faultRecordSend_sends {lead : Nat} {w : WingEntry} (hlead : s.dev.leadWing p = lead)
    (hw : s.dev.wings.find? (fun z => z.1 == lead && z.2.part == p && z.2.ctx == ctx && z.2.gran == gran && z.2.rseq.isNone &&
      decide (z.2.arrived + 64 ≤ s.dev.now)) = some (lead, w)) (hhas : s.dev.parts.has p = true) :
    ∃ u, exec (.faultRecordSend p ctx gran) s = .next u ∧ u.vault = s.vault ∧ (u.dev.part p).rseq = (s.dev.part p).rseq + 1 ∧
      u.dev.faults = s.dev.faults ++ [{
        part := p, rseq := (s.dev.part p).rseq + 1, ctx := ctx, gran := gran, kind := w.kind, level := w.level, acc := (s.dev.joined p w).1,
        waiters := min (s.dev.joined p w).2 65535, fcol := w.fcol, tick := w.tick }] := by
  have hgo : exec (.faultRecordSend p ctx gran) s = execFaultRecordSend p ctx gran s := rfl
  unfold execFaultRecordSend at hgo
  dsimp only at hgo
  rw [hlead, hw] at hgo
  refine ⟨_, hgo, rfl, congrArg Partition.rseq (Dev.part_modPart hhas _), ?_⟩
  dsimp only
  rw [Dev.modPart_of_has hhas]

/-! ## Resolutions -/

/-- The columns that a resolution reaches (R430). -/
def Dev.openCols (d : Dev) (r : FaultRecord) : List Nat :=
  (d.ctxCols r.ctx).filter (fun c => ((d.col c).filterOf r.ctx r.gran).isSome || d.away r.ctx c)

/-- The resolution that a verdict on a record gives. -/
def Dev.resolutionOf (d : Dev) (r : FaultRecord) (v : Verdict) : Resolution :=
  { part := r.part, rseq := r.rseq, ctx := r.ctx, gran := r.gran, verdict := effective v r.kind, cols := d.openCols r }

/-- The device with the record resolved, but for the error record of a refusal. -/
def Dev.resolved (d : Dev) (r : FaultRecord) (v : Verdict) : Dev :=
  { d with
    faults := d.faults.filter (fun f => !(f.part == r.part && f.rseq == r.rseq)),
    wings := d.wings.filter (fun w => !(w.2.part == r.part && (w.2.rseq == some r.rseq ||
      (w.2.fwd && w.1 != d.leadWing r.part && w.2.isFor r.part r.ctx r.gran r.kind)))),
    resolutions := d.resolutions ++ [d.resolutionOf r v] }

theorem Dev.resolveRecord_resolved {d : Dev} {r : FaultRecord} (h : d.openCols r ≠ []) (v : Verdict) :
    SameWarps (d.resolved r v) (d.resolveRecord r v) ∧ (effective v r.kind = .retry → d.resolveRecord r v = d.resolved r v) := by
  have hif : (if (d.openCols r).isEmpty then d.resolutions else d.resolutions ++ [d.resolutionOf r v]) = d.resolutions ++ [d.resolutionOf r v] :=
    if_neg (by simpa using h)
  unfold Dev.resolved
  rw [← hif]
  unfold Dev.resolveRecord Dev.resolutionOf
  generalize effective v r.kind = e
  cases e with
  | retry => exact ⟨.refl _, fun _ => rfl⟩
  | refuse n => exact ⟨.record _ _ _, fun h => nomatch h⟩

section
variable {r : FaultRecord} {f : FilterEntry} (hr : s.dev.faults.find? (fun z => z.part == p && z.rseq == r.rseq) = some r) (hp : r.part = p)
  (haway : s.dev.away r.ctx c = false) (hc : c ∈ s.dev.ctxCols r.ctx) (hf : (s.dev.col c).filterOf r.ctx r.gran = some f)
  (hnew : ∀ z ∈ s.dev.resolutions, ¬(z.part = p ∧ z.rseq = r.rseq)) (hroom : (s.dev.col c).queueRoom r.ctx r.gran = true)

include hc hf in
theorem Dev.mem_openCols : c ∈ s.dev.openCols r := by
  refine List.mem_filter.mpr ⟨hc, ?_⟩
  rw [hf]
  rfl

include hp hc hf hnew in
theorem Dev.resolved_find (v : Verdict) :
    (s.dev.resolved r v).resolutions.find? (fun x => x.part == p && x.rseq == r.rseq && x.cols.contains c) = some (s.dev.resolutionOf r v) := by
  have hnone : s.dev.resolutions.find? (fun x => x.part == p && x.rseq == r.rseq && x.cols.contains c) = none := by
    refine List.find?_eq_none.mpr fun x hx h => hnew x hx ?_
    simp only [Bool.and_eq_true, beq_iff_eq] at h
    exact h.1
  have hmem : (s.dev.resolutionOf r v).cols.contains c = true := List.contains_iff_mem.mpr (Dev.mem_openCols hc hf)
  unfold Dev.resolved
  rw [List.find?_append, hnone, Option.none_or, List.find?_cons_of_pos]
  rw [hmem]
  simp [Dev.resolutionOf, hp]

include hr hp haway hc hf hnew hroom in
/-- A verdict reaches a column that has the granule open and room in its atomic queue. -/
theorem faultResolution_delivers (v : Verdict) :
    exec (.faultResolution p r.rseq c v) s = .next (State.deliver { s with dev := s.dev.resolveRecord r v } (s.dev.resolutionOf r v) c) := by
  obtain ⟨hsame, -⟩ := Dev.resolveRecord_resolved (List.ne_nil_of_mem (Dev.mem_openCols hc hf)) v
  change execFaultResolution p r.rseq c v s = _
  unfold execFaultResolution
  rw [hr]
  dsimp only
  have hres : (s.dev.resolveRecord r v).resolutions = (s.dev.resolved r v).resolutions := (congrArg Dev.resolutions hsame.dev :)
  rw [hres, Dev.resolved_find hp hc hf hnew v]
  refine if_neg (not_or.mpr ⟨ne_true_of_eq_false ?_, ?_⟩)
  · rw [← haway]
    have hctxs : (s.dev.resolveRecord r v).ctxs = s.dev.ctxs := (congrArg Dev.ctxs hsame.dev :)
    have hparts : (s.dev.resolveRecord r v).parts = s.dev.parts := (congrArg Dev.parts hsame.dev :)
    unfold Dev.away Dev.part Dev.ctx
    rw [hctxs, hparts]
    rfl
  · have hcol : ((s.dev.resolveRecord r v).col c).queueRoom r.ctx r.gran = (s.dev.col c).queueRoom r.ctx r.gran :=
      (congrArg (fun k : Column => k.queueRoom r.ctx r.gran) (hsame.cols c) :)
    change ¬(!((s.dev.resolveRecord r v).col c).queueRoom r.ctx r.gran) = true
    rw [hcol, hroom]
    exact Bool.false_ne_true

end

theorem Dev.held_modFilter (d : Dev) (c ctx gran : Nat) (g : FilterEntry → FilterEntry) :
    (d.modCol c (fun k => k.modFilter ctx gran g)).held_ c ctx gran = d.held_ c ctx gran := by
  unfold Dev.held_ Dev.heldEngines
  rw [Dev.col_modCol]
  rfl

theorem lift_ne (gran : Nat) (g : Option Nat) : lift gran g ≠ some gran := by
  unfold lift
  split
  · exact fun h => nomatch h
  · assumption

/-- A column whose engines go on from a granule (R433). -/
def Column.wakes (ctx gran : Nat) (k : Column) : Column :=
  { k with
    copies := k.copies.map (fun x : CopyCmd => if x.ctx = ctx then { x with held := lift gran x.held } else x),
    tileQ := k.tileQ.map (fun q => q.map (fun o : TileOp => if o.ctx = ctx then { o with held := lift gran o.held } else o)) }

theorem Column.copies_wakes (k : Column) (ctx gran : Nat) : ∀ x ∈ (k.wakes ctx gran).copies, x.ctx = ctx → x.held ≠ some gran := by
  intro x hx hctx
  obtain ⟨y, -, rfl⟩ := List.mem_map.mp hx
  by_cases hy : y.ctx = ctx
  · rw [if_pos hy]
    exact lift_ne _ _
  · rw [if_neg hy] at hctx
    exact absurd hctx hy

theorem Dev.wakeEngines_faults (d : Dev) (c ctx gran : Nat) : (d.wakeEngines c ctx gran).faults = d.faults := by
  unfold Dev.wakeEngines
  dsimp only
  split <;> rfl

theorem Dev.wakeEngines_col (d : Dev) (c ctx gran : Nat) : (d.wakeEngines c ctx gran).col c = (d.col c).wakes ctx gran := by
  have hcols : (d.wakeEngines c ctx gran).cols = (d.modCol c (Column.wakes ctx gran)).cols := by
    unfold Dev.wakeEngines
    dsimp only
    split <;> rfl
  rw [← Dev.col_modCol d c (Column.wakes ctx gran)]
  unfold Dev.col
  rw [hcols]

theorem Column.modFilter_modFilter (k : Column) (ctx gran : Nat) {g : FilterEntry → FilterEntry} (h : FilterEntry → FilterEntry)
    (hg : ∀ e, (g e).ctx = e.ctx ∧ (g e).gran = e.gran) :
    (k.modFilter ctx gran g).modFilter ctx gran h = k.modFilter ctx gran (fun e => h (g e)) := by
  unfold Column.modFilter
  dsimp only
  rw [List.map_map]
  congr 1
  refine List.map_congr_left fun e _ => ?_
  obtain ⟨hctx, hgran⟩ := hg e
  by_cases he : e.ctx = ctx ∧ e.gran = gran
  · simp only [Function.comp, if_pos he, hctx, hgran]
  · simp only [Function.comp, if_neg he]

theorem Column.filterOf_modFilter {k : Column} {f : FilterEntry} (h : k.filterOf ctx gran = some f) {g : FilterEntry → FilterEntry}
    (hg : ∀ e, (g e).lifted = false ∧ (g e).ctx = e.ctx ∧ (g e).gran = e.gran) :
    ∃ e, (k.modFilter ctx gran g).filterOf ctx gran = some (g e) := by
  have hf := List.find?_some h
  simp only [Bool.and_eq_true, beq_iff_eq] at hf
  obtain ⟨⟨-, hctx⟩, hgran⟩ := hf
  have hmem : g f ∈ (k.modFilter ctx gran g).filter := by
    refine List.mem_map.mpr ⟨f, List.mem_of_find?_eq_some h, ?_⟩
    exact if_pos ⟨hctx, hgran⟩
  have hsome : ((k.modFilter ctx gran g).filterOf ctx gran).isSome = true := by
    refine List.find?_isSome.mpr ⟨g f, hmem, ?_⟩
    obtain ⟨hlift, hc, hr⟩ := hg f
    simp [hlift, hc, hr, hctx, hgran]
  obtain ⟨z, hz⟩ := Option.isSome_iff_exists.mp hsome
  obtain ⟨e, -, rfl⟩ := List.mem_map.mp (List.mem_of_find?_eq_some hz)
  have hp := List.find?_some hz
  by_cases he : e.ctx = ctx ∧ e.gran = gran
  · rw [if_pos he] at hz
    exact ⟨e, hz⟩
  · rw [if_neg he] at hp
    simp only [Bool.and_eq_true, beq_iff_eq] at hp
    exact absurd ⟨hp.1.2, hp.2⟩ he

theorem Column.filterOf_closeFilter (k : Column) (ctx gran : Nat) : (k.closeFilter ctx gran).filterOf ctx gran = none := by
  refine List.find?_eq_none.mpr fun x hx h => ?_
  have hne := (List.mem_filter.mp hx).2
  simp only [Bool.and_eq_true, beq_iff_eq] at h
  obtain ⟨⟨-, hctx⟩, hgran⟩ := h
  simp [hctx, hgran] at hne

/-- A filter entry once a retry has the held accesses run again (R425). -/
def FilterEntry.reruns (held : List Waiter) (e : FilterEntry) : FilterEntry := { e with sent := true, again := false, rerun := held }

/-- A column's entries of a granule as they stand once nothing of the side log is left to replay. -/
def Dev.replayed (d : Dev) (c ctx gran : Nat) : Dev :=
  (d.modCol c (fun k => k.modFilter ctx gran (fun e => { e with lifted := true }))).modCol c
    (fun k => k.modFilter ctx gran (fun e => { e with lifted := false }))

theorem Dev.held_replayed (d : Dev) (c ctx gran : Nat) : (d.replayed c ctx gran).held_ c ctx gran = d.held_ c ctx gran :=
  (Dev.held_modFilter _ _ _ _ _).trans (Dev.held_modFilter _ _ _ _ _)

theorem Dev.filterOf_reruns {d : Dev} {f : FilterEntry} (h : (d.col c).filterOf ctx gran = some f) (held : List Waiter) :
    ∃ e, (((d.replayed c ctx gran).modCol c (fun k => k.modFilter ctx gran (FilterEntry.reruns held))).col c).filterOf ctx gran = some e ∧
      e.rerun = held := by
  unfold Dev.replayed
  rw [Dev.col_modCol, Dev.col_modCol, Dev.col_modCol, Column.modFilter_modFilter (g := fun e => { e with lifted := true }) _ _ _ _ (fun _ => ⟨rfl, rfl⟩),
    Column.modFilter_modFilter (g := fun e => { e with lifted := false }) _ _ _ _ (fun _ => ⟨rfl, rfl⟩)]
  obtain ⟨e, he⟩ := Column.filterOf_modFilter h (g := fun e => FilterEntry.reruns held { e with lifted := false }) fun _ => ⟨rfl, rfl, rfl⟩
  exact ⟨_, he, rfl⟩

theorem State.retryAt_eq {f : FilterEntry} (hf : (s.dev.col c).filterOf ctx gran = some f) (hlog : (s.dev.col c).logOf ctx gran = []) :
    let d := s.dev.replayed c ctx gran
    let held := (s.dev.held_ c ctx gran ++ f.rerun).eraseDups
    s.retryAt c ctx gran = ({ s with dev := if held.isEmpty then d.modCol c (fun k => k.closeFilter ctx gran)
      else (d.modCol c (fun k => k.modFilter ctx gran (FilterEntry.reruns held))).wakeEngines c ctx gran }, true) := by
  intro d held
  let reran (h : List Waiter) : State := { s with dev := (d.modCol c (fun k => k.modFilter ctx gran (FilterEntry.reruns h))).wakeEngines c ctx gran }
  have hlog' : ((s.dev.modCol c (fun k => k.modFilter ctx gran (fun e => { e with lifted := true }))).col c).logOf ctx gran = [] := by
    rw [Dev.col_modCol]
    exact hlog
  have hgo : s.retryAt c ctx gran = if ((d.held_ c ctx gran ++ f.rerun).eraseDups).isEmpty then
      ({ s with dev := d.modCol c (fun k => k.closeFilter ctx gran) }, true)
      else (reran (d.held_ c ctx gran ++ f.rerun).eraseDups, true) := by
    unfold State.retryAt
    rw [hf]
    dsimp only
    rw [hlog']
    rfl
  rw [Dev.held_replayed] at hgo
  rw [hgo]
  split <;> rfl

/-- A retry at a column with nothing of the granule in its side log. -/
theorem State.retryAt_spec {f : FilterEntry} (hf : (s.dev.col c).filterOf ctx gran = some f) (hlog : (s.dev.col c).logOf ctx gran = []) :
    let held := (s.dev.held_ c ctx gran ++ f.rerun).eraseDups
    ∃ t, s.retryAt c ctx gran = (t, true) ∧ t.vault = s.vault ∧ t.dev.faults = s.dev.faults ∧
      ((held = [] → (t.dev.col c).filterOf ctx gran = none) ∧
        (held ≠ [] → ∃ g, (t.dev.col c).filterOf ctx gran = some g ∧ g.rerun = held ∧
          ∀ x ∈ (t.dev.col c).copies, x.ctx = ctx → x.held ≠ some gran)) := by
  intro held
  refine ⟨_, State.retryAt_eq hf hlog, rfl, ?_, fun h => ?_, fun h => ?_⟩
  · exact proj_ite Dev.faults rfl (Dev.wakeEngines_faults _ _ _ _)
  · dsimp only
    rw [if_pos (List.isEmpty_iff.mpr h), Dev.col_modCol]
    exact Column.filterOf_closeFilter _ _ _
  · obtain ⟨e, he, hrerun⟩ := Dev.filterOf_reruns hf held
    dsimp only
    rw [if_neg (mt List.isEmpty_iff.mp h), Dev.wakeEngines_col]
    exact ⟨e, he, hrerun, Column.copies_wakes _ _ _⟩

/-- The resolutions once one has been delivered to a column. -/
def Dev.delivered (d : Dev) (x : Resolution) (c : Nat) : List Resolution :=
  let left := x.cols.filter (· != c)
  let same (y : Resolution) : Bool := y.part == x.part && y.rseq == x.rseq && y.ctx == x.ctx && y.gran == x.gran
  if left.isEmpty then d.resolutions.filter (fun y => !same y) else d.resolutions.map (fun y : Resolution => if same y then { y with cols := left } else y)

/-- A retry that is over at a column is what is delivered to it. -/
theorem State.deliver_retry {x : Resolution} {c : Nat} {t : State} (hx : x.verdict = .retry)
    (ht : ({ s with dev := { s.dev with resolutions := s.dev.delivered x c } } : State).retryAt c x.ctx x.gran = (t, true)) : s.deliver x c = t := by
  unfold Dev.delivered at ht
  unfold State.deliver
  dsimp only
  rw [hx]
  dsimp only
  rw [ht]
  rfl

section
variable {r : FaultRecord} {f : FilterEntry} (hr : s.dev.faults.find? (fun z => z.part == p && z.rseq == r.rseq) = some r) (hp : r.part = p)
  (haway : s.dev.away r.ctx c = false) (hc : c ∈ s.dev.ctxCols r.ctx) (hf : (s.dev.col c).filterOf r.ctx r.gran = some f)
  (hnew : ∀ z ∈ s.dev.resolutions, ¬(z.part = p ∧ z.rseq = r.rseq)) (hroom : (s.dev.col c).queueRoom r.ctx r.gran = true)
include hr hp haway hc hf hnew hroom

theorem faultResolution_retries (hkind : r.kind ≠ 5) (hlog : (s.dev.col c).logOf r.ctx r.gran = []) :
    let held := (s.dev.held_ c r.ctx r.gran ++ f.rerun).eraseDups
    ∃ u, exec (.faultResolution p r.rseq c .retry) s = .next u ∧ u.vault = s.vault ∧ (∀ z ∈ u.dev.faults, ¬(z.part = p ∧ z.rseq = r.rseq)) ∧
      ((held = [] → (u.dev.col c).filterOf r.ctx r.gran = none) ∧
        (held ≠ [] → ∃ g, (u.dev.col c).filterOf r.ctx r.gran = some g ∧ g.rerun = held ∧
          ∀ x ∈ (u.dev.col c).copies, x.ctx = r.ctx → x.held ≠ some r.gran)) := by
  intro held
  have heff : effective .retry r.kind = .retry := if_neg hkind
  obtain ⟨-, heq⟩ := Dev.resolveRecord_resolved (List.ne_nil_of_mem (Dev.mem_openCols hc hf)) .retry
  have hgo := faultResolution_delivers hr hp haway hc hf hnew hroom .retry
  rw [heq heff] at hgo
  obtain ⟨rs, hrs⟩ : ∃ rs, rs = (s.dev.resolved r .retry).delivered (s.dev.resolutionOf r .retry) c := ⟨_, rfl⟩
  obtain ⟨t, ht, hv, hfaults, hspec⟩ := State.retryAt_spec (s := { s with dev := { s.dev.resolved r .retry with resolutions := rs } }) hf hlog
  rw [hrs] at ht
  rw [State.deliver_retry (s := { s with dev := s.dev.resolved r .retry }) heff ht] at hgo
  refine ⟨t, hgo, hv, fun z hz h => ?_, hspec⟩
  rw [hfaults] at hz
  have := (List.mem_filter.mp hz).2
  simp [h.1, h.2, hp] at this

theorem faultResolution_resets {m : Nat} (hheld : (s.dev.col c).heldWarps r.ctx r.gran ≠ []) (hhas : s.dev.ctxs.has r.ctx = true) :
    ∃ u, exec (.faultResolution p r.rseq c (.refuse m)) s = .next u ∧ (u.dev.ctx r.ctx).state = .empty := by
  obtain ⟨hsame, -⟩ := Dev.resolveRecord_resolved (List.ne_nil_of_mem (Dev.mem_openCols hc hf)) (.refuse m)
  have hgo := faultResolution_delivers hr hp haway hc hf hnew hroom (.refuse m)
  obtain ⟨d, hd⟩ : ∃ d, d = s.dev.resolveRecord r (.refuse m) := ⟨_, rfl⟩
  rw [← hd] at hgo hsame
  obtain ⟨rs, hrs⟩ : ∃ rs, State.deliver { s with dev := d } (s.dev.resolutionOf r (.refuse m)) c =
      State.refuseAt { s with dev := { d with resolutions := rs } } c r.ctx r.gran m := ⟨_, rfl⟩
  have hfilter : (d.col c).filterOf r.ctx r.gran = some f := (congrArg (fun k : Column => k.filterOf r.ctx r.gran) (hsame.cols c) :).trans hf
  have hwarps : (d.col c).heldWarps r.ctx r.gran ≠ [] := by
    unfold Column.heldWarps at hheld ⊢
    rw [hsame.warps]
    exact hheld
  have hctxs : d.ctxs = s.dev.ctxs := (congrArg Dev.ctxs hsame.dev :)
  have hparts : d.parts = s.dev.parts := (congrArg Dev.parts hsame.dev :)
  have href : State.refuseAt { s with dev := { d with resolutions := rs } } c r.ctx r.gran m =
      State.contextReset { s with dev := { d with resolutions := rs } } r.ctx 4 0 none := by
    refine (if_neg ?_).trans (if_pos ?_)
    · change ¬((d.col c).filterOf r.ctx r.gran).isNone = true
      rw [hfilter]
      exact Bool.false_ne_true
    · change (!((d.col c).heldWarps r.ctx r.gran).isEmpty) = true
      simpa using hwarps
  have hres : (s.dev.ctx r.ctx).state = .resident := by
    unfold Dev.away at haway
    simpa using (Bool.or_eq_false_iff.mp haway).1
  refine ⟨_, hgo.trans (congrArg _ (hrs.trans href)), (contextReset_free (c := c) 4 0 none ?_ ?_ ?_).1⟩
  · change (d.ctxs.getD r.ctx _).state = _
    rw [hctxs]
    exact hres
  · change d.ctxs.has r.ctx = true
    rw [hctxs]
    exact hhas
  · change c ∈ d.ctxCols r.ctx
    unfold Dev.ctxCols Dev.part Dev.ctx at hc ⊢
    rw [hctxs, hparts]
    exact hc

end

/-! ## Migration -/

theorem frameOk_iff {frame n : Nat} : frameOk frame n = true ↔ frame % n = 0 ∧ frame + n ≤ 24576 := by
  unfold frameOk
  rw [Bool.and_eq_true, beq_iff_eq, decide_eq_true_iff]

/-- Two devices have the same partitions and contexts. -/
structure SameParts (d e : Dev) : Prop where
  parts : e.parts = d.parts
  ctxs  : e.ctxs = d.ctxs

theorem SameParts.refl (d : Dev) : SameParts d d := ⟨rfl, rfl⟩
theorem SameParts.trans {d e g : Dev} (h : SameParts d e) (k : SameParts e g) : SameParts d g := ⟨k.parts.trans h.parts, k.ctxs.trans h.ctxs⟩
theorem SameCore.sameParts {d e : Dev} (h : SameCore d e) : SameParts d e := ⟨(congrArg Dev.parts h.dev :), h.ctxs⟩

theorem SameParts.ctxCols {d e : Dev} (h : SameParts d e) (ctx : Nat) : e.ctxCols ctx = d.ctxCols ctx := by
  unfold Dev.ctxCols Dev.part Dev.ctx
  rw [h.parts, h.ctxs]

theorem SameCore.stageWrite (s : State) (c va n : Nat) : SameCore s.dev (s.stageWrite c va n).dev := by
  unfold State.stageWrite
  dsimp only
  obtain ⟨a, ha⟩ : ∃ a : LaneAcc, a = { laneWant 0 c va 8 0 with va := va, cut := 8, pois := [false] } := ⟨_, rfl⟩
  rw [← ha]
  obtain ⟨t, ht⟩ : ∃ t : State, t = ({ s with dev := s.dev.poisonSectors [a] } : State).ahead [(a, bytesOf 8 n)] := ⟨_, rfl⟩
  have hpois : SameCore s.dev t.dev := by
    rw [ht]
    exact .poisonSectors _ _
  rw [← ht]
  exact (hpois.trans (SameWarps.writeLinesAt t [a] _).core).trans (SameCore.putLane { s with dev := (t.writeLines [a]).1 } a (bytesOf 8 n))

theorem SameCore.setLeaf (s : State) (c ctx gran : Nat) (f : Nat → Nat) : SameCore s.dev (s.setLeaf c ctx gran f).dev := by
  unfold State.setLeaf
  generalize s.leafAddr c gran 3 0 _ = a
  cases a with
  | none => exact .refl _
  | some a => exact .stageWrite _ _ _ _

theorem SameParts.repoll (d : Dev) (w : Watch) : SameParts d (d.repoll w) := by
  unfold Dev.repoll
  cases w.who with
  | warp _ => exact .refl _
  | hand => exact ⟨rfl, rfl⟩
  | node _ r j =>
    dsimp only
    unfold Dev.modNode
    cases d.replays.get? r <;> exact ⟨rfl, rfl⟩

theorem SameParts.repolls (ws : List Watch) (d : Dev) : SameParts d (ws.foldl Dev.repoll d) := by
  induction ws generalizing d with
  | nil => exact .refl _
  | cons w ws ih => exact (SameParts.repoll d w).trans (ih _)

theorem SameParts.migrateWatches (s : State) (c ctx lo hi : Nat) : SameParts s.dev (s.migrateWatches c ctx lo hi).dev := by
  have h := SameParts.repolls ((s.dev.col c).watches.filter (fun w => (w.fired.isNone && decide (lo ≤ w.va) && decide (w.va < hi)) && !w.ofWarp w.ctx)) s.dev
  exact ⟨h.parts, h.ctxs⟩

theorem SameParts.migrateCols (ctx base n old : Nat) (cs : List Nat) (s : State) :
    SameParts s.dev (cs.foldl (fun (s : State) c =>
      (s.setLeaf c ctx base (leafMig 1)).migrateWatches c ctx (old * 65536) ((old + n) * 65536)) s).dev := by
  induction cs generalizing s with
  | nil => exact .refl _
  | cons c cs ih => exact ((SameCore.setLeaf s c ctx base _).sameParts.trans (.migrateWatches _ _ _ _ _)).trans (ih _)

/-- A column translates none of the granules. -/
def Column.Dropped (ctx base n : Nat) (k : Column) : Prop := ∀ z ∈ k.tlb, z.ctx = ctx → ¬(base ≤ z.gran ∧ z.gran < base + n)

theorem Column.dropXlate_dropped (k : Column) (ctx base n : Nat) : (k.dropXlate ctx base n).Dropped ctx base n := by
  intro z hz hctx hin
  have h := (List.mem_filter.mp hz).2
  rw [hctx, beq_self_eq_true, Bool.true_and] at h
  cases hbig : z.big with
  | true =>
    simp only [hbig, if_true, Bool.not_eq_true', Bool.and_eq_false_iff, decide_eq_false_iff_not] at h
    omega
  | false =>
    simp only [hbig, Bool.false_eq_true, if_false, Bool.not_eq_true', Bool.and_eq_false_iff, decide_eq_false_iff_not] at h
    omega

theorem Dev.dropPage_dropped (d : Dev) {ctx c : Nat} (base n : Nat) (hc : c ∈ d.ctxCols ctx) : ((d.dropPage ctx base n).col c).Dropped ctx base n :=
  fold_modCol_of_mem (P := Column.Dropped ctx base n) (F := fun _ _ k => k.dropXlate ctx base n) (fun _ _ k => k.dropXlate_dropped ctx base n) _ _ (.inl hc)

theorem State.migrateStart_drops (s : State) {ctx c : Nat} (base n old : Nat) (hc : c ∈ s.dev.ctxCols ctx) :
    ((s.migrateStart ctx base n old).dev.col c).Dropped ctx base n := by
  have hsame := (SameParts.migrateCols ctx base n old (s.dev.ctxCols ctx) s).ctxCols ctx
  unfold State.migrateStart
  refine Dev.dropPage_dropped _ base n ?_
  rw [hsame]
  exact hc

section
variable {page frame : Nat} {e : TlbEntry} (hin : s.dev.ctxIn ctx p = true) (he : s.leafOf (s.dev.part p).first ctx page = some e)
include hin he

/-- What a migration of a page does, by its frame, its state and what step 2 waits for. -/
theorem exec_migration : exec (.migration p ctx page frame) s =
    if !(frameOk frame (e.page page).2 || (noFrame frame && e.mig != 2)) then .next s
    else if e.mig ≠ 1 then .next (s.migrateStart ctx (e.page page).1 (e.page page).2 (e.frame - (page - (e.page page).1)))
    else if (s.dev.ctxCols ctx).any (fun c =>
      s.dev.pageBusy c ctx (e.page page).1 (e.page page).2 (e.frame - (page - (e.page page).1))) then .next s
    else if noFrame frame then .next (s.migrateAway ctx (e.page page).1 (e.page page).2 (e.frame - (page - (e.page page).1)))
    else .next (s.migrateEnd p ctx (e.page page).1 (e.page page).2 (e.frame - (page - (e.page page).1)) frame e.zc) := by
  change execMigration p ctx page frame s = _
  unfold execMigration
  dsimp only
  rw [hin, if_neg (by decide), he]

theorem migration_refused (hfits : ¬(frame % (e.page page).2 = 0 ∧ frame + (e.page page).2 ≤ 24576)) (hno : frame < 24576 ∨ e.mig = 2) :
    exec (.migration p ctx page frame) s = .next s := by
  rw [exec_migration hin he]
  refine if_pos ?_
  have hok : frameOk frame (e.page page).2 = false := Bool.eq_false_iff.mpr (mt frameOk_iff.mp hfits)
  have hout : (noFrame frame && e.mig != 2) = false := by
    rcases hno with h | h
    · rw [show noFrame frame = false from decide_eq_false (Nat.not_le_of_gt h), Bool.false_and]
    · rw [h, bne_self_eq_false, Bool.and_false]
  rw [hok, hout]
  rfl

/-- A frame of the vaults, or none for a page that is on the device, is one that a page can go to. -/
theorem migration_goes (h : (frame % (e.page page).2 = 0 ∧ frame + (e.page page).2 ≤ 24576) ∨ 24576 ≤ frame ∧ e.mig ≠ 2) :
    exec (.migration p ctx page frame) s =
      if e.mig ≠ 1 then .next (s.migrateStart ctx (e.page page).1 (e.page page).2 (e.frame - (page - (e.page page).1)))
      else if (s.dev.ctxCols ctx).any (fun c =>
        s.dev.pageBusy c ctx (e.page page).1 (e.page page).2 (e.frame - (page - (e.page page).1))) then .next s
      else if noFrame frame then .next (s.migrateAway ctx (e.page page).1 (e.page page).2 (e.frame - (page - (e.page page).1)))
      else .next (s.migrateEnd p ctx (e.page page).1 (e.page page).2 (e.frame - (page - (e.page page).1)) frame e.zc) := by
  rw [exec_migration hin he]
  refine if_neg ?_
  rcases h with h | ⟨h, hmig⟩
  · rw [frameOk_iff.mpr h, Bool.true_or]
    exact Bool.false_ne_true
  · rw [show noFrame frame = true from decide_eq_true h, bne_iff_ne.mpr hmig, Bool.and_self, Bool.or_true]
    exact Bool.false_ne_true

theorem migration_starts (hmig : e.mig ≠ 1) (h : (frame % (e.page page).2 = 0 ∧ frame + (e.page page).2 ≤ 24576) ∨ 24576 ≤ frame ∧ e.mig ≠ 2) :
    ∃ u, exec (.migration p ctx page frame) s = .next u ∧ ∀ c ∈ s.dev.ctxCols ctx, ∀ z ∈ (u.dev.col c).tlb, z.ctx = ctx →
      ¬((e.page page).1 ≤ z.gran ∧ z.gran < (e.page page).1 + (e.page page).2) :=
  ⟨_, (migration_goes hin he h).trans (if_pos hmig), fun _ hc => s.migrateStart_drops _ _ _ hc⟩

theorem migration_waits (hmig : e.mig = 1) (h : (frame % (e.page page).2 = 0 ∧ frame + (e.page page).2 ≤ 24576) ∨ 24576 ≤ frame)
    (hbusy : ∃ c ∈ s.dev.ctxCols ctx, s.dev.pageBusy c ctx (e.page page).1 (e.page page).2 (e.frame - (page - (e.page page).1)) = true) :
    exec (.migration p ctx page frame) s = .next s := by
  rw [migration_goes hin he (h.imp_right fun h => ⟨h, by rw [hmig]; decide⟩), if_neg (not_not_intro hmig)]
  exact if_pos (List.any_eq_true.mpr hbusy)

theorem migration_moves (hmig : e.mig = 1)
    (hidle : ∀ c ∈ s.dev.ctxCols ctx, s.dev.pageBusy c ctx (e.page page).1 (e.page page).2 (e.frame - (page - (e.page page).1)) = false) :
    (frame % (e.page page).2 = 0 ∧ frame + (e.page page).2 ≤ 24576 → exec (.migration p ctx page frame) s =
      .next (s.migrateEnd p ctx (e.page page).1 (e.page page).2 (e.frame - (page - (e.page page).1)) frame e.zc)) ∧
    (24576 ≤ frame → exec (.migration p ctx page frame) s =
      .next (s.migrateAway ctx (e.page page).1 (e.page page).2 (e.frame - (page - (e.page page).1)))) := by
  have hany : ¬(s.dev.ctxCols ctx).any (fun c =>
      s.dev.pageBusy c ctx (e.page page).1 (e.page page).2 (e.frame - (page - (e.page page).1))) = true := by
    rw [List.any_eq_true]
    rintro ⟨c, hc, hbusy⟩
    exact Bool.false_ne_true ((hidle c hc).symm.trans hbusy)
  have hpos : 0 < (e.page page).2 := by
    unfold TlbEntry.page
    split
    · exact Nat.zero_lt_succ 31
    · exact Nat.zero_lt_one
  refine ⟨fun h => ?_, fun h => ?_⟩
  · rw [migration_goes hin he (.inl h), if_neg (not_not_intro hmig), if_neg hany]
    exact if_neg (ne_true_of_eq_false (decide_eq_false (by omega)))
  · rw [migration_goes hin he (.inr ⟨h, by rw [hmig]; decide⟩), if_neg (not_not_intro hmig), if_neg hany]
    exact if_pos (decide_eq_true h)

end

theorem deferredTrap_eq {x : Deferred} {rest : List Deferred} {t : Dev} {g : Fetched} (hx : (s.dev.warp c y).deferred = x :: rest)
    (hact : (s.dev.warp c y).active = true) (hready : y ∈ (s.dev.col c).readied) (hover : s.dev.waitOver c y = true)
    (hrel : (s.dev.warp c y).atRelease = false) (hhalt : (s.dev.col c).halted = false) (hpc : pcInRange (s.dev.warp c y).pc = true)
    (hline : s.fetchLine c (s.dev.warp c y).ctx (pcLine (s.dev.warp c y).pc) = (.ok g, t)) :
    exec (.deferredTrap c y) s = if g.sys then .next { s with dev := t } else .next (State.takeDeferred { s with dev := t } c y x) := by
  change execDeferredTrap c y s = _
  unfold execDeferredTrap
  dsimp only
  rw [hx]
  dsimp only
  rw [hact, List.contains_iff_mem.mpr hready, hover, hrel, hhalt, hpc, hline]
  rfl

end Sys2Proof.Machine
end

section
namespace Sys2Proof
open Sys2Proof.Machine

/-- Settles O51. -/
theorem faultsReachAndReturn : Obligations.FaultsReachAndReturn := by
  refine ⟨fun s c ctx off gran p y write priv f w r => ⟨fun e t hin h => ?_, fun e t hin h => tableWalkComplete_faults hin h,
    fun hhas hpc hhalt => fetchLineArrival_eq hhas hpc hhalt, fun hpart hf => ?_, fun hpart hf hown hw => ?_, fun hw hhas => ?_,
    fun hr hp haway hc hf hnew hroom => ⟨fun hkind hlog => ?_, fun hkind => ?_, fun m hheld hhas => ?_⟩⟩,
    fun s c y p ctx page frame x rest t e g => ⟨fun hx hact hready hover hrel hhalt hpc hline => ?_, fun hin he => ?_⟩⟩
  · exact ⟨tableWalkComplete_found hin h, fun hold => State.translate_cached h hold⟩
  · subst hpart
    refine ⟨fun hnone hroom => ?_, fun hnone hfull => ?_, fun hany => ?_⟩
    · exact wingStageFaultArrival_takes hf (Dev.stageTakes_opens hnone hroom)
    · exact wingStageFaultArrival_waits hf (Dev.stageTakes_full hnone hfull)
    · exact wingStageFaultArrival_takes hf (Dev.stageTakes_joins hany)
  · obtain ⟨hwp, hwc, hwg⟩ := WingEntry.named hw
    have hat : ∀ z : Nat × WingEntry, ({ w with arrived := s.dev.now } : WingEntry).at_ (s.dev.leadWing p) z =
        (z.1 == s.dev.leadWing p && z.2.isFor p ctx gran w.kind) := by
      intro z
      unfold WingEntry.at_
      rw [hwp, hwc, hwg]
    have hany : s.dev.wings.any (({ w with arrived := s.dev.now } : WingEntry).at_ (s.dev.leadWing p)) =
        s.dev.wings.any (fun z => z.1 == s.dev.leadWing p && z.2.isFor p ctx gran w.kind) := by rw [funext hat]
    have hjoins : ({ w with arrived := s.dev.now } : WingEntry).joins (s.dev.leadWing p) = fun z =>
        if z.1 == s.dev.leadWing p && z.2.isFor p ctx gran w.kind then
          (z.1, { z.2 with acc := z.2.acc ||| w.acc, waiters := z.2.waiters + w.waiters }) else z := by
      funext z
      unfold WingEntry.joins
      rw [hat]
    refine ⟨fun hnone hroom => ?_, fun hsome => ?_⟩
    · exact wingStageFaultArrival_forwards hpart hf hown hw (Dev.stageTakes_opens (hany.trans hnone) hroom)
    · refine (wingStageFaultArrival_forwards hpart hf hown hw (Dev.stageTakes_joins (hany.trans hsome))).trans ?_
      rw [hjoins]
      rfl
  · exact faultRecordSend_sends rfl hw hhas
  · exact faultResolution_retries hr hp haway hc hf hnew hroom hkind hlog
  · have heff : effective .retry r.kind = effective (.refuse 3) r.kind := if_pos hkind
    rw [faultResolution_delivers hr hp haway hc hf hnew hroom .retry, faultResolution_delivers hr hp haway hc hf hnew hroom (.refuse 3)]
    unfold Dev.resolveRecord Dev.resolutionOf
    rw [heff]
  · exact faultResolution_resets hr hp haway hc hf hnew hroom hheld hhas
  · have hgo := deferredTrap_eq hx hact hready hover hrel hhalt hpc hline
    exact ⟨fun hsys => hgo.trans (if_neg (ne_true_of_eq_false hsys)), fun hsys => hgo.trans (if_pos hsys)⟩
  · exact ⟨migration_refused hin he, migration_starts hin he, migration_waits hin he, migration_moves hin he⟩

end Sys2Proof
end

section
/-! Proofs about the copy engine (R345, R347, R349). -/

namespace Sys2Proof.Machine

variable {s : State} {c id : Nat} {x : CopyCmd}

/-- What is not to run again runs as it stands. -/
theorem State.trial_untried {w : Waiter} (h : s.untried c w) (run : State → State) : s.trial c w run = run s := if_neg (ne_true_of_eq_false h)

section
variable (hx : (s.dev.col c).copy? id = some x) (hhalt : (s.dev.col c).halted = false) (hheld : x.held = none) (hun : s.untried c (.copy id))

section
include hhalt hheld

/-- Nothing holds the copy back. -/
theorem copyRuns : ¬(((s.dev.col c).halted && !x.urgent (s.dev.col c)) || x.held.isSome) = true := by
  rw [hhalt, hheld]
  exact Bool.false_ne_true

include hx

theorem copyStart_begins (hst : x.stage = 0) (hroom : ((s.dev.col c).copies.filter (fun y => y.stage != 0)).length < 16) :
    exec (.copyStart c id) s = .next { s with dev := s.dev.modCol c (fun k => k.setCopy { x with stage := 1 }) } := by
  change Host.Outcome.next (s.copyRun c id) = _
  unfold State.copyRun
  dsimp only
  rw [hx]
  dsimp only
  rw [if_neg (copyRuns hhalt hheld), if_pos hst, if_neg (Nat.not_le_of_gt hroom)]

include hun in
theorem copyStart_moves (hst : x.stage = 1) : exec (.copyStart c id) s =
    .next ((s.copyPiece c x).1.afterPiece c (s.copyPiece c x).2.1 (s.copyPiece c x).2.2) := by
  change Host.Outcome.next (s.copyRun c id) = _
  unfold State.copyRun
  dsimp only
  rw [hx]
  dsimp only
  rw [if_neg (copyRuns hhalt hheld), hst, if_neg (by decide), if_pos rfl, State.trial_untried hun]

end

section
include hx

section
include hheld

include hun in
theorem copyComplete_word {u : State} {v : Nat} {e : Dev} (hst : x.stage = 2) (hck : x.desc.ck = 0)
    (hw : s.finishWord c x.ctx x.desc.cw (if x.err = 0 then none else some x.err) = (.ok (u, v), e)) :
    exec (.copyComplete c id) s = .next { u with dev := u.dev.modCol c (fun k => k.setCopy { x with stage := 3, time := max x.time v }) } := by
  change Host.Outcome.next (s.copyEndRun c id) = _
  unfold State.copyEndRun
  rw [hx]
  dsimp only
  rw [if_pos ⟨hst, hheld⟩, if_pos hck, State.trial_untried hun, hw]

theorem copyComplete_barrier (hst : x.stage = 2) (hck : x.desc.ck ≠ 0) :
    exec (.copyComplete c id) s = .next { s with dev := s.dev.modCol c (fun k => k.setCopy { x with stage := 3 }) } := by
  change Host.Outcome.next (s.copyEndRun c id) = _
  unfold State.copyEndRun
  rw [hx]
  dsimp only
  rw [if_pos ⟨hst, hheld⟩, if_neg hck]

end

theorem copyComplete_waits (hst : x.stage = 3) (ht : s.dev.now < x.time) : exec (.copyComplete c id) s = .next s := by
  change Host.Outcome.next (s.copyEndRun c id) = _
  unfold State.copyEndRun
  rw [hx]
  dsimp only
  rw [if_neg (fun h => absurd (hst.symm.trans h.1) (by decide)), if_neg (fun h => absurd h.2 (Nat.not_le_of_gt ht))]

theorem copyComplete_goes (hst : x.stage = 3) (ht : x.time ≤ s.dev.now) : exec (.copyComplete c id) s = .next { s with dev := s.dev.copyGone c x } := by
  change Host.Outcome.next (s.copyEndRun c id) = _
  unfold State.copyEndRun
  rw [hx]
  dsimp only
  rw [if_neg (fun h => absurd (hst.symm.trans h.1) (by decide)), if_pos ⟨hst, ht⟩]

end

end

/-! ## The end of a copy of a warp -/

/-- A column without a copy that has ended. -/
def Column.copyLeft (now : Nat) (x : CopyCmd) (k : Column) : Column :=
  let k : Column := { k with copies := k.copies.filter (fun y => y.id != x.id), busyEnd := now }
  if x.desc.ck = 1 then k.engineArrive x.gang x.desc.barn else k

theorem Column.copyLeft_spec (now : Nat) (x : CopyCmd) (k : Column) : (k.copyLeft now x).warps = k.warps ∧
    (k.copyLeft now x).copies = k.copies.filter (fun y => y.id != x.id) := by
  unfold Column.copyLeft
  dsimp only
  split
  · exact ⟨rfl, rfl⟩
  · exact ⟨rfl, rfl⟩

/-- A warp's engine times with one more. -/
def Warp.engineTime (reach : BitVec 7) (t : Nat) (w : Warp) : Warp := { w with relTimes := timesWith w.relTimes reach t }

theorem Dev.copies_modWarp (d : Dev) (c y : Nat) (g : Warp → Warp) : ((d.modWarp c y g).col c).copies = (d.col c).copies :=
  (congrArg Column.copies (Dev.col_putCol d c _) :)

/-- The report of a failed engine command leaves the columns. -/
theorem Dev.failedCopy_cols (d : Dev) (c y block : Nat) (x : CopyCmd) (hx : x.owner = .warp c y none) :
    (if x.err = 0 then d.nodeReady x.owner d.now else (d.engineFailed c 0x14 block x.ctx x.owner.slot x.err x.desc.cw).nodeFails x.owner 7 x.err).cols =
      d.cols := by
  rw [hx]
  split
  · rfl
  · rfl

theorem Dev.copyGone_spec {d : Dev} {c y : Nat} {x : CopyCmd} (hx : x.owner = .warp c y none) (hstop : (d.warp c y).stopped = false) :
    ((d.copyGone c x).warp c y).copies = (d.warp c y).copies - 1 ∧
      ((d.copyGone c x).col c).copies = (d.col c).copies.filter (fun z => z.id != x.id) := by
  obtain ⟨hwarps, hcopies⟩ := Column.copyLeft_spec d.now x (d.col c)
  let left := d.modCol c (Column.copyLeft d.now x)
  let timed := left.modWarp c y (Warp.engineTime x.desc.reach x.time)
  have hleft : left.warp c y = d.warp c y := by
    have hcol : left.col c = (d.col c).copyLeft d.now x := Dev.col_modCol _ _ _
    unfold Dev.warp Column.warp
    rw [hcol, hwarps]
  obtain ⟨e, hcols, hgone⟩ : ∃ e : Dev, e.cols = timed.cols ∧
      d.copyGone c x = (e.modWarp c y (fun w => { w with copies := w.copies - 1 })).reportStop c y := by
    refine ⟨_, Dev.failedCopy_cols timed c y (((d.col c).copies.filter (fun y => y.stage != 0)).findIdx (fun y => y.id == x.id)) x hx, ?_⟩
    unfold Dev.copyGone
    dsimp only
    rw [hx]
    rfl
  have hwarp : e.warp c y = Warp.engineTime x.desc.reach x.time (d.warp c y) := by
    rw [← hleft, ← Dev.warp_modWarp left c y (Warp.engineTime x.desc.reach x.time)]
    unfold Dev.warp Dev.col
    rw [hcols]
  have hcol : (e.col c).copies = (d.col c).copies.filter (fun z => z.id != x.id) := by
    rw [← hcopies, ← Dev.col_modCol d c (Column.copyLeft d.now x), ← Dev.copies_modWarp left c y (Warp.engineTime x.desc.reach x.time)]
    unfold Dev.col
    rw [hcols]
  have hreport : d.copyGone c x = e.modWarp c y (fun w => { w with copies := w.copies - 1 }) := by
    rw [hgone]
    refine if_neg ?_
    rw [Dev.warp_modWarp, hwarp]
    change ¬((d.warp c y).stopped && _ && _) = true
    rw [hstop]
    exact Bool.false_ne_true
  rw [hreport, Dev.warp_modWarp, hwarp, Dev.copies_modWarp, hcol]
  exact ⟨rfl, rfl⟩

/-! ## Pieces -/

theorem CopyCmd.total_linear (hform : x.desc.form = 0) : x.total = x.desc.len.toNat := by
  unfold CopyCmd.total
  cases x.srec with
  | none => rfl
  | some p => cases x.drec with
    | none => rfl
    | some q => exact if_pos hform

theorem CopyCmd.boundary_linear (hform : x.desc.form = 0) : x.boundary = (x.pos / 4096 + 1) * 4096 := by
  unfold CopyCmd.boundary
  cases x.srec with
  | none => rfl
  | some p => exact if_pos hform

theorem State.copyPiece_linear (hform : x.desc.form = 0) :
    s.copyPiece c x = s.linearMove c (min x.desc.len.toNat ((x.pos / 4096 + 1) * 4096)) 4096 x := by
  unfold State.copyPiece
  rw [CopyCmd.total_linear hform, CopyCmd.boundary_linear hform]
  cases x.srec with
  | none => rfl
  | some p => cases x.drec with
    | none => rfl
    | some q => exact if_pos hform

theorem State.copyPiece_tensor {p q : TRec} (hform : x.desc.form ≠ 0) (hp : x.srec = some p) (hq : x.drec = some q) :
    s.copyPiece c x = s.tensorMove c (min (boxSize (copyBox x.desc p q)) x.boundary) p q (copyBox x.desc p q) 8193 x := by
  have htotal : x.total = boxSize (copyBox x.desc p q) := by
    unfold CopyCmd.total
    rw [hp, hq]
    exact if_neg hform
  unfold State.copyPiece
  rw [htotal, hp, hq]
  exact if_neg hform

theorem State.linearMove_over {lim : Nat} (h : lim ≤ x.pos) (fuel : Nat) : s.linearMove c lim fuel x = (s, x, none) := by
  cases fuel with
  | zero => rfl
  | succ fuel => exact if_pos h

theorem State.tensorMove_over {lim : Nat} {p q : TRec} {box : List Nat} (h : lim ≤ x.pos) (fuel : Nat) :
    s.tensorMove c lim p q box fuel x = (s, x, none) := by
  cases fuel with
  | zero => rfl
  | succ fuel => exact if_pos h

/-- One step of a linear copy between two storages. -/
theorem State.linearMove_step {lim fuel v : Nat} {bs : List (Byte × Bool)} {d : Dev} {u : State} (hpos : x.pos < lim) (hspace : x.desc.oneSpace c = false)
    (hread : s.copyRead c x (ptrOff x.desc.src + x.pos) (min (lim - x.pos) (min (32 - (ptrOff x.desc.src + x.pos) % 32) (32 - (ptrOff x.desc.dst + x.pos) % 32))) = (.ok bs, d))
    (hwrite : State.copyWrite { s with dev := d } c x
      (x.pos + min (lim - x.pos) (min (32 - (ptrOff x.desc.src + x.pos) % 32) (32 - (ptrOff x.desc.dst + x.pos) % 32))) (ptrOff x.desc.dst + x.pos) bs = (.ok v, u)) :
    s.linearMove c lim (fuel + 1) x = u.linearMove c lim fuel { x.taint (ptrOff x.desc.dst + x.pos) bs with
      pos := x.pos + min (lim - x.pos) (min (32 - (ptrOff x.desc.src + x.pos) % 32) (32 - (ptrOff x.desc.dst + x.pos) % 32)), time := max x.time v } := by
  conv => lhs; unfold State.linearMove
  dsimp only
  rw [if_neg (Nat.not_le_of_gt hpos), hread, hspace]
  dsimp only
  rw [if_neg Bool.false_ne_true]
  dsimp only
  rw [hwrite]

theorem CopyCmd.taint_eq (x : CopyCmd) (a : Nat) (bs : List (Byte × Bool)) : ∃ g, x.taint a bs = { x with tainted := g } := by
  unfold CopyCmd.taint
  dsimp only
  split
  · exact ⟨x.tainted, rfl⟩
  · exact ⟨_, rfl⟩

/-- A linear copy within one sector on each side is moved in one step. -/
theorem copyPiece_sector {n v : Nat} {bs : List (Byte × Bool)} {d : Dev} {u : State} (hform : x.desc.form = 0) (hspace : x.desc.oneSpace c = false)
    (hpos : x.pos = 0) (hlate : x.late = false) (hn : x.desc.len.toNat = n) (h1 : 1 ≤ n) (ha : ptrOff x.desc.src % 32 + n ≤ 32)
    (hb : ptrOff x.desc.dst % 32 + n ≤ 32) (hread : s.copyRead c x (ptrOff x.desc.src) n = (.ok bs, d))
    (hwrite : State.copyWrite { s with dev := d } c x n (ptrOff x.desc.dst) bs = (.ok v, u)) :
    (s.copyPiece c x).1.afterPiece c (s.copyPiece c x).2.1 (s.copyPiece c x).2.2 =
      { u with dev := u.dev.modCol c (fun k => k.setCopy { x.taint (ptrOff x.desc.dst) bs with pos := n, time := max x.time v, stage := 2 }) } := by
  have hlim : min x.desc.len.toNat ((x.pos / 4096 + 1) * 4096) = n := by omega
  have hm : min (n - x.pos) (min (32 - (ptrOff x.desc.src + x.pos) % 32) (32 - (ptrOff x.desc.dst + x.pos) % 32)) = n := by omega
  have hstep := State.linearMove_step (s := s) (lim := n) (fuel := 4095) (by omega) hspace (by rw [hm, hpos]; exact hread)
    (by rw [hm, hpos, Nat.zero_add]; exact hwrite)
  rw [hm, hpos, Nat.zero_add, Nat.add_zero] at hstep
  obtain ⟨g, hg⟩ := x.taint_eq (ptrOff x.desc.dst) bs
  have hpiece : s.copyPiece c x = (u, { x.taint (ptrOff x.desc.dst) bs with pos := n, time := max x.time v }, none) := by
    rw [State.copyPiece_linear hform, hlim]
    exact hstep.trans (State.linearMove_over (le_refl n) _)
  rw [hpiece]
  unfold State.afterPiece
  dsimp only
  rw [CopyCmd.total_linear (by rw [hg]; exact hform), hg, if_pos (le_of_eq hn), hlate]
  rfl

/-- One element of a tensor copy between two storages, under a record without a range rule. -/
theorem State.tensorMove_step {lim fuel : Nat} {y : CopyCmd} {p q : TRec} {box : List Nat} {bs old : List (Byte × Bool)} {d e : Dev} {u : State}
    (hpos : x.pos < lim) (hspace : x.desc.oneSpace c = false) (hrest : x.rest = []) (hrule : q.rule 0 = none)
    (hread : s.copyReads c x (p.bitFrom (ptrOff x.desc.src) (copyIndex x.desc box x.pos).1 / 8)
      ((p.bitFrom (ptrOff x.desc.src) (copyIndex x.desc box x.pos).1 % 8 + memBits p.fmt + 7) / 8) = (.ok bs, d))
    (hold : State.oldBytes { s with dev := d } c x (q.bitFrom (ptrOff x.desc.dst) (copyIndex x.desc box x.pos).2 % 8) (memBits p.fmt)
      (q.bitFrom (ptrOff x.desc.dst) (copyIndex x.desc box x.pos).2 / 8)
      (List.range ((q.bitFrom (ptrOff x.desc.dst) (copyIndex x.desc box x.pos).2 % 8 + memBits p.fmt + 7) / 8)) = (.ok old, e))
    (hwrite : State.copyWrites { s with dev := e } c x (q.bitFrom (ptrOff x.desc.dst) (copyIndex x.desc box x.pos).2 / 8)
      (old.zipIdx.map (fun z => (mergeByte z.1.1
        (numOf (bs.map Prod.fst) / 2 ^ (p.bitFrom (ptrOff x.desc.src) (copyIndex x.desc box x.pos).1 % 8) % 2 ^ memBits p.fmt)
        (q.bitFrom (ptrOff x.desc.dst) (copyIndex x.desc box x.pos).2 % 8) (memBits p.fmt) z.2, bs.any Prod.snd || z.1.2))) = (u, y, none)) :
    s.tensorMove c lim p q box (fuel + 1) x = u.tensorMove c lim p q box fuel { y with pos := y.pos + 1 } := by
  have hlate : ({ x with late := x.late || (false && q.ract == 3) } : CopyCmd) = x := by
    rw [Bool.false_and, Bool.or_false]
  have helem : s.moveElem c x p q box = (u, { y with pos := y.pos + 1 }, none) := by
    unfold State.moveElem
    generalize copyIndex x.desc box x.pos = ij at hread hold hwrite ⊢
    obtain ⟨i, j⟩ := ij
    dsimp only at hread hold hwrite ⊢
    rw [List.isEmpty_iff.mpr hrest, if_neg (show ¬(!true) = true from Bool.false_ne_true), hread]
    unfold elemRule
    rw [hrule]
    dsimp only
    rw [hold, hspace]
    dsimp only
    rw [if_neg Bool.false_ne_true, if_neg Bool.false_ne_true, hlate]
    unfold State.putElem
    rw [hwrite]
  conv => lhs; unfold State.tensorMove
  rw [if_neg (Nat.not_le_of_gt hpos), helem]

end Sys2Proof.Machine
end

section
/-! Proofs about replays and their nodes (R355, R357, R358). -/

namespace Sys2Proof.Machine

variable {s : State} {die r j : Nat} {x : Replay} {n : GNode} {qs : List (BitVec 64)} {d : Dev}

/-! ## The nodes of a replay -/

theorem Dev.modNode_replays {d e : Dev} (h : e.replays = d.replays) (r j : Nat) (f : GNode → GNode) :
    (e.modNode r j f).replays = (d.modNode r j f).replays := by
  unfold Dev.modNode
  rw [h]
  cases d.replays.get? r with
  | none => exact h
  | some x => rfl

/-- A replay with one of its nodes changed. -/
def Replay.modNode (x : Replay) (j : Nat) (f : GNode → GNode) : Replay :=
  { x with nodes := x.nodes.zipIdx.map (fun n => if n.2 = j then f n.1 else n.1) }

theorem Replay.node?_modNode {x : Replay} (h : x.node? j = some n) (f : GNode → GNode) : (x.modNode j f).node? j = some (f n) := by
  unfold Replay.node? at h ⊢
  unfold Replay.modNode
  rw [List.getElem?_map, List.getElem?_zipIdx, h]
  exact congrArg some (if_pos (Nat.zero_add j))

theorem Dev.modNode_get {d : Dev} (h : d.replays.get? r = some x) (f : GNode → GNode) : d.modNode r j f = { d with replays := d.replays.set r (x.modNode j f) } := by
  unfold Dev.modNode
  rw [h]
  rfl

theorem Dev.nodeBad_spec {d : Dev} (h : d.replays.get? r = some x) (hid : x.id = r) (hj : x.node? j = some n) (hfail : x.failed = none) (code : Nat) :
    ∃ y, (d.nodeBad x j code).replays.get? r = some y ∧ y.failed = some 7 ∧ ∃ m, y.node? j = some m ∧ m.started = true ∧ m.ready = some d.now := by
  subst hid
  let run (n : GNode) : GNode := { n with started := true, ready := none, held := none, hcol := none, waited := false }
  have hruns : d.nodeRuns x j none = { d with replays := d.replays.set x.id (x.modNode j run) } := Dev.modNode_get h run
  obtain ⟨e, he, hnow⟩ : ∃ e, d.nodeRuns x j none = e ∧ e.now = d.now := ⟨_, hruns, rfl⟩
  let ready (n : GNode) : GNode := { n with ready := some e.now }
  have hget : e.replays.get? x.id = some (x.modNode j run) := by
    rw [← he, hruns]
    exact Table.get?_set_same _ _ _
  have hready : e.nodeReady (.node (dieOf x.home) x.id j) e.now = { e with replays := e.replays.set x.id ((x.modNode j run).modNode j ready) } :=
    Dev.modNode_get hget ready
  have hbad : (d.nodeBad x j code).replays = (e.replays.set x.id ((x.modNode j run).modNode j ready)).set x.id
      { (x.modNode j run).modNode j ready with failed := some ((x.modNode j run).modNode j ready |>.failed.getD 7) } := by
    unfold Dev.nodeBad
    rw [he]
    unfold Dev.nodeFails
    dsimp only
    rw [hget, hready]
    dsimp only
    unfold Dev.replayFails
    dsimp only
    rw [Table.get?_set_same]
    rfl
  rw [hbad, Table.get?_set_same]
  refine ⟨_, rfl, ?_, ready (run n), Replay.node?_modNode (Replay.node?_modNode hj run) ready, rfl, congrArg some hnow⟩
  change some (x.failed.getD 7) = some 7
  rw [hfail]
  rfl

/-! ## Replays that begin -/

theorem graphReplayStart_begins {k : Nat} {v : State} (h : (s.dev.waitingReplays die).find? (fun y => (s.dev.slotFor y).isSome) = some x)
    (hun : s.untried x.home (.replay x.id)) (ht : s.tryReplay x = (.begun k, v)) :
    exec (.graphReplayStart die) s = .next { v with dev := v.dev.replayTold x (.begun k) } := by
  change execGraphReplayStart die s = _
  unfold execGraphReplayStart
  rw [h]
  dsimp only
  rw [State.trial_untried hun]
  unfold State.beginReplay
  rw [ht]

theorem graphReplayStart_none (h : (s.dev.waitingReplays die).find? (fun y => (s.dev.slotFor y).isSome) = none) :
    exec (.graphReplayStart die) s = .next s := by
  change execGraphReplayStart die s = _
  unfold execGraphReplayStart
  rw [h]

/-! ## Nodes that start -/

section
variable (hx : s.dev.replays.get? r = some x) (hj : x.node? j = some n) (hdie : dieOf x.home = die)

section
variable (hun : s.untried (n.hcol.getD x.home) (.node r j))
include hx hj hdie

theorem graphNodeFinish_finishes (hslot : x.slot ≠ none) (hheld : x.held = none) (hdone : s.dev.nodeDone r j n = true) (hover : (x.finish j n).over = false) :
    exec (.graphNodeFinish die r j) s = .next { s with dev := { s.dev.dropNodeWatch r j with
      replays := (s.dev.dropNodeWatch r j).replays.set r (x.finish j n) } } := by
  have hif : ¬(dieOf x.home ≠ die ∨ x.slot = none ∨ x.held.isSome = true) := by
    rintro (h | h | h)
    · exact h hdie
    · exact hslot h
    · rw [hheld] at h
      exact Bool.false_ne_true h
  change execGraphNodeFinish die r j s = _
  unfold execGraphNodeFinish
  rw [hx]
  dsimp only
  rw [hj]
  dsimp only
  rw [if_neg hif, if_pos hdone, if_neg (ne_true_of_eq_false hover)]

include hun

theorem graphNodeStart_starts (hmay : s.dev.nodeMay x j n = true) (hb : s.nodeBody x n = (.ok qs, d)) :
    exec (.graphNodeStart die r j) s = .next (State.startNode { s with dev := d } x j n.kind (fun i => qs.getD i 0)) := by
  change execGraphNodeStart die r j s = _
  unfold execGraphNodeStart
  rw [hx]
  dsimp only
  rw [hj]
  dsimp only
  rw [hmay, if_neg (by rintro (h | h); exacts [h hdie, Bool.false_ne_true h]), State.trial_untried hun, hb]

theorem cueWaitPoll_polls {t : Nat} {p : BitVec 64} {v : Word} {a : LaneAcc} {e : Dev} (hid : x.id = r) (hpoll : n.poll = some t) (hheld : n.held = none)
    (hready : n.ready = none) (hcue : n.cue = some (p, v)) (ht : t + 256 ≤ s.dev.now) (ha : s.cueAt x p false = (.ok a, e)) :
    let read := State.cueReached { s with dev := e } a v
    exec (.cueWaitPoll die r j) s = .next { s with dev := read.2.modNode r j (fun n => { n with
      ready := (if read.1 then some read.2.now else none), poll := (if read.1 then none else some read.2.now) }) } := by
  have hif : ¬(dieOf x.home ≠ die ∨ n.held.isSome = true ∨ n.ready.isSome = true ∨ s.dev.now < t + 256) := by
    rintro (h | h | h | h)
    · exact h hdie
    · rw [hheld] at h
      exact Bool.false_ne_true h
    · rw [hready] at h
      exact Bool.false_ne_true h
    · omega
  intro read
  change execCueWaitPoll die r j s = _
  unfold execCueWaitPoll
  rw [hx]
  dsimp only
  rw [hj]
  dsimp only
  rw [hpoll]
  dsimp only
  rw [if_neg hif, State.trial_untried hun]
  unfold State.pollNode
  rw [hcue]
  dsimp only
  rw [ha, hid]

end

end

/-! ## Words that a stagehand keeps -/

theorem SameOlds.translate (s : State) (c ctx off : Nat) (write priv : Bool) : SameOlds s.dev (s.translate c ctx off write priv).2 := by
  have h := SameOlds.lookup s c ctx off
  unfold State.translate
  cases (s.dev.col c).filterOf ctx (granOf off) with
  | some f => exact .refl _
  | none =>
    dsimp only
    generalize s.lookup c ctx off = r at h
    obtain ⟨r, d⟩ := r
    cases r with
    | error f => exact h
    | ok e =>
      dsimp only
      cases e.forbids write priv <;> exact h

theorem SameOlds.engineRead (s : State) (c tc ctx off n : Nat) (priv : Bool) : SameOlds s.dev (s.engineRead c tc ctx off n priv).2 := by
  have htr := SameOlds.translate s c ctx off false priv
  unfold State.engineRead
  generalize s.translate c ctx off false priv = r at htr
  obtain ⟨r, d⟩ := r
  cases r with
  | error f => exact htr
  | ok e => exact htr.trans ((SameOlds.homeRead { s with dev := d } tc _ 0 e.zc none _).trans (.of_cols rfl))

theorem SameOlds.engineReads (c tc ctx : Nat) (priv : Bool) (k off n : Nat) (s : State) :
    SameOlds s.dev (s.engineReads c tc ctx priv k off n).2 := by
  induction k generalizing s off n with
  | zero => exact .refl _
  | succ k ih =>
    have hone := SameOlds.engineRead s c tc ctx (off % 2 ^ 44) (min n (32 - off % 32)) priv
    unfold State.engineReads
    by_cases hn : n = 0
    · rw [if_pos hn]
      exact .refl _
    · rw [if_neg hn]
      dsimp only
      generalize s.engineRead c tc ctx (off % 2 ^ 44) (min n (32 - off % 32)) priv = r at hone
      obtain ⟨r, d⟩ := r
      cases r with
      | error f => exact hone
      | ok bs =>
        have hrest := hone.trans (ih (off + min n (32 - off % 32)) (n - min n (32 - off % 32)) { s with dev := d })
        dsimp only
        generalize State.engineReads { s with dev := d } c tc ctx priv k (off + min n (32 - off % 32)) (n - min n (32 - off % 32)) = q at hrest
        obtain ⟨q, e⟩ := q
        cases q <;> exact hrest

theorem SameOlds.walkWords (s : State) (c ctx off n : Nat) : SameOlds s.dev (s.walkWords c ctx off n).2 := by
  have h := SameOlds.engineReads c c ctx false (n / 4 + 2) off (8 * n) s
  unfold State.walkWords
  generalize s.engineReads c c ctx false (n / 4 + 2) off (8 * n) = r at h
  obtain ⟨r, d⟩ := r
  rcases r with (_ | _) | bs
  · exact h
  · exact h
  · dsimp only
    split <;> exact h

/-- The body of a node is read from its replay's parameter block. -/
theorem SameOlds.nodeBody (s : State) (x : Replay) (n : GNode) : SameOlds s.dev (s.nodeBody x n).2 := by
  unfold State.nodeBody
  dsimp only
  generalize List.zip n.pidx n.body = ps
  induction ps generalizing s with
  | nil => exact .refl _
  | cons q ps ih =>
    obtain ⟨i, q⟩ := q
    have hword : SameOlds s.dev (if i = 255 then ((.ok [q.toNat], s.dev) : Except WalkStop (List Nat) × Dev) else s.walkWords x.home x.ctx (x.pb + 8 * i) 1).2 := by
      split
      · exact .refl _
      · exact .walkWords _ _ _ _ _
    unfold State.nodeBody.go
    dsimp only
    generalize (if i = 255 then ((.ok [q.toNat], s.dev) : Except WalkStop (List Nat) × Dev) else s.walkWords x.home x.ctx (x.pb + 8 * i) 1) = w at hword
    obtain ⟨w, d⟩ := w
    cases w with
    | error e => exact hword
    | ok ws =>
      have hrest := hword.trans (ih { s with dev := d })
      dsimp only
      generalize State.nodeBody.go x { s with dev := d } ps = g at hrest
      obtain ⟨g, d'⟩ := g
      cases g <;> exact hrest

/-! ## Cues -/

/-- A cue's word, as its home column translates it. -/
theorem State.cueAt_ok {p : BitVec 64} {write : Bool} {a : LaneAcc} {e : Dev} (h : s.cueAt x p write = (.ok a, e)) :
    SameWarps s.dev e ∧ SameOlds s.dev e ∧ a.cut = 4 := by
  have hsame := SameWarps.translate s x.home x.ctx (ptrOff p) write false
  have holds := SameOlds.translate s x.home x.ctx (ptrOff p) write false
  unfold State.cueAt at h
  generalize s.translate x.home x.ctx (ptrOff p) write false = r at h hsame holds
  obtain ⟨r, d⟩ := r
  cases r with
  | error f => exact nomatch (congrArg Prod.fst h :)
  | ok y =>
    dsimp only at h
    obtain ⟨ha, rfl⟩ := Prod.mk.inj h
    cases ha
    exact ⟨hsame, holds, rfl⟩

/-- The fields of a word that a 32-bit addition leaves. -/
theorem Memory.added_word {m : Memory} (h : m.wf = true) (key : Nat) (v : Word) :
    let n := m.write key (bytesOf 4 (BitVec.ofNat 32 (m.num key 4) + v).toNat)
    (∀ b, ¬(key ≤ b ∧ b < key + 4) → n.byte b = m.byte b) ∧ n.num key 4 = (m.num key 4 + v.toNat) % 2 ^ 32 := by
  intro n
  refine ⟨fun b hb => ?_, ?_⟩
  · rw [Memory.byte_write h, if_neg]
    rw [length_bytesOf]
    exact hb
  · have hnum : BitVec.toNat (BitVec.ofNat 32 (n.num key 4)) = _ := congrArg BitVec.toNat (Memory.num_write_word h key (BitVec.ofNat 32 (m.num key 4) + v))
    have hlt := n.num_lt key 4
    generalize n.num key 4 = k at hnum hlt ⊢
    rw [BitVec.toNat_ofNat, BitVec.toNat_add, BitVec.toNat_ofNat] at hnum
    norm_num at hlt hnum ⊢
    omega

section
variable {p : BitVec 64} {a : LaneAcc} {e : Dev}

/-- The lane with which a cue-add node adds to its word. -/
def LaneAcc.adds (a : LaneAcc) (v : Word) : LaneAcc := { a with data := [v], pois := [false] }

theorem State.atomLanes_one (s : State) (aop ty : BitVec 5) (rm : BitVec 2) (a : LaneAcc) : (s.atomLanes aop ty rm [a]).1 = (s.atomLane aop ty rm a).1 := rfl

/-- The state in which a cue-add node adds. -/
def State.cueMarked (s : State) (x : Replay) (a : LaneAcc) : State :=
  let marked : State := if a.stable then s.stableMark x.home a x.ctx else s
  { marked with dev := marked.touchLines [a] }

theorem State.cueMarked_spec (s : State) (x : Replay) (a : LaneAcc) : (s.cueMarked x a).vault = s.vault ∧ SameCore s.dev (s.cueMarked x a).dev ∧
    SameOlds s.dev (s.cueMarked x a).dev := by
  let marked : State := if a.stable then s.stableMark x.home a x.ctx else s
  have hcore : SameCore s.dev marked.dev := .ite (.stableMark _ _ _ _) (.refl _)
  have holds : SameOlds s.dev marked.dev := .ite (.stableMark _ _ _ _) (.refl _)
  exact ⟨proj_ite State.vault (s.stableMark_vault x.home a x.ctx) rfl, hcore.trans (SameWarps.touchLines marked [a]).core,
    holds.trans (SameOlds.touchLines marked [a])⟩

/-- A cue-add node adds its value to its word, and changes nothing else of memory. -/
theorem State.cueAddNode_spec {v : Word} (ha : s.cueAt x p true = (.ok a, e)) (hfree : s.dev.oldsAt a.tcol = []) :
    ∃ tick, (s.cueAddNode x j p v).dev.replays = (s.dev.nodeRuns x j (some tick)).replays ∧
      (s.cueAddNode x j p v).vault = s.vault.write (vkey a.tcol a.va) (bytesOf 4 (BitVec.ofNat 32 (s.vault.num (vkey a.tcol a.va) 4) + v).toNat) := by
  obtain ⟨hsame, holds, hcut⟩ := State.cueAt_ok ha
  let t : State := { s with dev := e }
  obtain ⟨hvault, hcore, holdm⟩ := t.cueMarked_spec x (a.adds v)
  obtain ⟨m, hm⟩ : ∃ m, m = t.cueMarked x (a.adds v) := ⟨_, rfl⟩
  rw [← hm] at hvault hcore holdm
  obtain ⟨w, hw⟩ : ∃ w, w = (m.atomLane 0 Fmt.ui32 0 (a.adds v)).1 := ⟨_, rfl⟩
  have hadd : s.cueAddNode x j p v = { w with dev := (w.writeBack [a.adds v]).1.nodeRuns x j (some (w.writeBack [a.adds v]).2) } := by
    unfold State.cueAddNode
    rw [ha, hw, hm]
    rfl
  have hquiet : m.dev.oldsAt a.tcol = [] := (holdm a.tcol).trans ((holds a.tcol).trans hfree)
  have hnew : atomNew 0 Fmt.ui32 0 (BitVec.ofNat 32 (m.vault.num (vkey a.tcol a.va) 4)) v 0 = some (BitVec.ofNat 32 (m.vault.num (vkey a.tcol a.va) 4) + v) := rfl
  have hlane := State.atomLane_writes (a := a.adds v) (ty := Fmt.ui32) (rm := 0) hquiet hnew
  rw [hlane] at hw
  have hcore' : SameCore s.dev w.dev := by
    refine (hsame.core.trans hcore).trans ?_
    rw [hw]
    exact (SameCore.setPois m.dev _ _).trans (SameCore.putLane { m with dev := m.dev.setPois _ _ } _ _)
  refine ⟨(w.writeBack [a.adds v]).2, ?_, ?_⟩
  · rw [hadd]
    have hreplays : (w.writeBack [a.adds v]).1.replays = s.dev.replays := (congrArg Dev.replays (hcore'.trans (SameWarps.writeBack w _).core).dev :)
    exact Dev.modNode_replays hreplays _ _ _
  · rw [hadd]
    change w.vault = _
    rw [hw]
    refine (State.putLane_quiet (a := a.adds v) (s := { m with dev := m.dev.setPois _ _ }) hquiet _).1.trans ?_
    refine (Memory.putLane_word _ (a := a.adds v) (le_of_eq hcut.symm) _).trans ?_
    rw [hvault]
    rfl

/-- A cue-wait node reads its cue, and goes on with what it has read. -/
theorem State.cueWaitNode_eq {v : Word} (ha : s.cueAt x p false = (.ok a, e)) :
    let read := State.cueReached { s with dev := e } a v
    let told := read.2.modNode x.id j (fun n => { n with cue := some (p, v) })
    (read.1 = true → s.cueWaitNode x j p v = { s with dev := told.nodeRuns x j (some told.now) }) ∧
    (read.1 = false → (told.col a.tcol).watchCount a.va < 64 →
      s.cueWaitNode x j p v = { s with dev := (told.nodeRuns x j none).modCol a.tcol (fun k => { k with watches := k.watches ++ [{
        va := a.va, cmp := 6, value := v, who := .node (dieOf x.home) x.id j, wcol := x.home, ctx := x.ctx, fired := none }] }) }) ∧
    (read.1 = false → 64 ≤ (told.col a.tcol).watchCount a.va →
      s.cueWaitNode x j p v = { s with dev := (told.nodeRuns x j none).modNode x.id j (fun n => { n with poll := some told.now }) }) := by
  intro read told
  obtain ⟨r, hr⟩ : ∃ r, r = State.cueReached { s with dev := e } a v := ⟨_, rfl⟩
  unfold State.cueWaitNode
  rw [ha]
  dsimp only
  rw [← hr]
  rw [show read = r from hr.symm]
  have htold : told = r.2.modNode x.id j (fun n => { n with cue := some (p, v) }) := by rw [hr]
  rw [htold]
  refine ⟨fun h => if_pos h, fun h hroom => ?_, fun h hfull => ?_⟩
  · exact (if_neg (ne_true_of_eq_false h)).trans (if_pos hroom)
  · exact (if_neg (ne_true_of_eq_false h)).trans (if_neg (Nat.not_lt_of_ge hfull))

theorem Hand.oldWords_none {h : Hand} (hfree : h.banks.olds = []) (now w : Nat) : h.oldWords now w = [] := by
  unfold Hand.oldWords
  rw [hfree]
  rfl

/-- A signal node adds 1 to the COUNT of its word, and changes nothing else of memory. -/
theorem State.signalNode_spec {y : TlbEntry} (hy : s.translate x.home x.ctx (ptrOff p) true false = (.ok y, e)) (hal : ptrOff p % 8 = 0)
    (hfree : s.dev.oldsAt (colOf x.home p) = []) :
    ∃ tick, (s.signalNode x j p).dev.replays = (s.dev.nodeRuns x j (some tick)).replays ∧
      (s.signalNode x j p).vault = s.vault.write (vkey (colOf x.home p) (y.va (ptrOff p)))
        (bytesOf 8 (wordUpdate (s.vault.num (vkey (colOf x.home p) (y.va (ptrOff p))) 8) none)) := by
  have hsame := SameWarps.translate s x.home x.ctx (ptrOff p) true false
  have holds := SameOlds.translate s x.home x.ctx (ptrOff p) true false
  rw [hy] at hsame holds
  let t : State := { s with dev := e }
  obtain ⟨w, hw⟩ : ∃ w, w = t.wordAt x.home (colOf x.home p) x.ctx (ptrOff p) y none := ⟨_, rfl⟩
  have hsignal : s.signalNode x j p = { w.1 with dev := w.1.dev.nodeRuns x j (some w.2) } := by
    unfold State.signalNode State.wordDone
    rw [hy, hw]
  refine ⟨w.2, ?_, ?_⟩
  · have hcore : SameCore s.dev w.1.dev := by
      rw [hw]
      exact hsame.core.trans (SameCore.wordAt t _ _ _ _ _ _)
    have hreplays : w.1.dev.replays = s.dev.replays := (congrArg Dev.replays hcore.dev :)
    rw [hsignal]
    exact Dev.modNode_replays hreplays _ _ _
  · rw [hsignal]
    change w.1.vault = _
    rw [hw]
    exact State.wordAt_vault (s := t) (y.va_word hal) fun i _ => Hand.oldWords_none ((holds _).trans hfree) _ _

end

/-! ## Copies, programs and launches -/

section
variable {q : Nat → BitVec 64}

theorem State.launchNode_taken {p : BitVec 64} {l : LaunchRec} {e : Dev} (hp : s.dev.partPtr x.ctx p = true)
    (hl : s.readLaunch (ptrSel p) x.ctx x.part (ptrOff p) = (.taken l, e)) :
    s.launchNode x j p = { s with dev := (e.nodeRuns x j none).queueLaunch x.ctx x.part l (.node (dieOf x.home) x.id j) } := by
  unfold State.launchNode
  rw [hp, hl]
  rfl

theorem State.launchNode_foreign {p : BitVec 64} (hp : s.dev.partPtr x.ctx p = false) : s.launchNode x j p = { s with dev := s.dev.nodeBad x j 4 } := by
  unfold State.launchNode
  rw [hp]
  rfl

/-- The executing column of a node that names one by SEL. -/
def Replay.execCol (x : Replay) (sel : BitVec 11) : Nat := if sel = 0x7FF then x.home else sel.toNat

theorem Replay.execCol_eq (x : Replay) (sel : BitVec 11) : (if sel.toNat = 0x7FF then x.home else sel.toNat) = x.execCol sel := by
  unfold Replay.execCol
  refine if_congr ⟨fun h => BitVec.eq_of_toNat_eq h, fun h => ?_⟩ rfl rfl
  rw [h]
  rfl

section
variable {c : Nat} (hc : x.execCol ((q 4).extractLsb' 0 11) = c)
include hc

theorem State.copyNode_refused (h : s.dev.inPart x.ctx c = false ∨ s.dev.nodeCopyOk x.ctx (nodeDesc x.home q) = false) :
    s.copyNode x j q = { s with dev := s.dev.nodeBad x j 4 } := by
  unfold State.copyNode
  dsimp only
  rw [Replay.execCol_eq, hc]
  refine if_pos ?_
  rcases h with h | h
  · rw [h]
    rfl
  · rw [h]
    exact Bool.or_true _

section
variable (hin : s.dev.inPart x.ctx c = true) (hok : s.dev.nodeCopyOk x.ctx (nodeDesc x.home q) = true)
include hin hok

theorem State.copyNode_linear (hform : (nodeDesc x.home q).form = 0) :
    s.copyNode x j q = { s with dev := s.dev.copyQueued x j c (nodeDesc x.home q) none } := by
  unfold State.copyNode
  dsimp only
  rw [Replay.execCol_eq, hc, hin, hok]
  exact if_pos hform

theorem State.copyNode_null (hform : (nodeDesc x.home q).form ≠ 0) (h : (nodeDesc x.home q).sobj = 0 ∨ (nodeDesc x.home q).dobj = 0) :
    s.copyNode x j q = { s with dev := s.dev.nodeBad x j 4 } := by
  unfold State.copyNode
  dsimp only
  rw [Replay.execCol_eq, hc, hin, hok]
  exact (if_neg hform).trans (if_pos h)

theorem State.copyNode_tensor {f g : TRec} {e e' : Dev} (hform : (nodeDesc x.home q).form ≠ 0) (hs : (nodeDesc x.home q).sobj ≠ 0)
    (hd : (nodeDesc x.home q).dobj ≠ 0)
    (hf : s.tensorAt c x.ctx (s.dev.ctx x.ctx).objBase (s.dev.ctx x.ctx).objLast (nodeDesc x.home q).sobj = (.ok (some f), e))
    (hg : State.tensorAt { s with dev := e } c x.ctx (s.dev.ctx x.ctx).objBase (s.dev.ctx x.ctx).objLast (nodeDesc x.home q).dobj = (.ok (some g), e'))
    (hrec : copyRecords c (nodeDesc x.home q) f g = true) :
    s.copyNode x j q = { s with dev := e'.copyQueued x j c (nodeDesc x.home q) (some (f, g)) } := by
  unfold State.copyNode
  dsimp only
  rw [Replay.execCol_eq, hc, hin, hok, hf]
  refine ((if_neg hform).trans (if_neg (not_or.mpr ⟨hs, hd⟩))).trans ?_
  dsimp only
  rw [hg]
  dsimp only
  rw [if_pos hrec]

end

end

/-- The descriptor of a stagehand node (R375). -/
def Replay.program (x : Replay) (j : Nat) (q : Nat → BitVec 64) : RunDesc :=
  { q := Vector.ofFn (fun i => if i.val = 1 then q 1 ||| 0x7FF0000#64 else if i.val = 2 ∧ q 2 ≠ 0 then homePtr x.home (q 2) else q i.val),
    owner := .node (dieOf x.home) x.id j, ctx := x.ctx, pois := false }

section
variable {c : Nat} (hc : x.execCol ((q 1).extractLsb' 16 11) = c)
include hc

theorem Dev.handNode_refused {d : Dev} (h : d.inPart x.ctx c = false) : d.handNode x j q = d.nodeBad x j 4 := by
  unfold Dev.handNode
  dsimp only
  rw [Replay.execCol_eq, hc, h]
  rfl

theorem Dev.handNode_waits {d : Dev} (h : d.inPart x.ctx c = true) (hfull : 8 ≤ (d.col c).hand.runq.length) : d.handNode x j q = d := by
  unfold Dev.handNode
  dsimp only
  rw [Replay.execCol_eq, hc, h]
  exact if_pos hfull

theorem Dev.handNode_queues {d : Dev} (h : d.inPart x.ctx c = true) (hroom : (d.col c).hand.runq.length < 8) :
    ∃ g : RunDesc, d.handNode x j q = (d.nodeRuns x j none).modCol c (fun k => { k with
        gated := false, hand := { k.hand with runq := k.hand.runq ++ [g] } }) ∧
      g.owner = .node (dieOf x.home) x.id j ∧ g.ctx = x.ctx ∧ g.pois = false ∧ g.q[0] = q 0 ∧ g.q[1] = q 1 ||| 0x7FF0000 ∧
      g.q[2] = (if q 2 = 0 then 0 else homePtr x.home (q 2)) ∧ g.q[3] = q 3 ∧ g.q[4] = q 4 ∧ g.q[5] = q 5 := by
  refine ⟨x.program j q, ?_, rfl, rfl, rfl, ?_⟩
  · unfold Dev.handNode
    dsimp only
    rw [Replay.execCol_eq, hc, h]
    exact if_neg (Nat.not_le_of_gt hroom)
  · have hq (i : Nat) (hi : i < 6) : (x.program j q).q[i] =
        if i = 1 then q 1 ||| 0x7FF0000#64 else if i = 2 ∧ q 2 ≠ 0 then homePtr x.home (q 2) else q i := Vector.getElem_ofFn hi
    refine ⟨(hq 0 _).trans rfl, (hq 1 _).trans rfl, (hq 2 _).trans ?_, (hq 3 _).trans rfl, (hq 4 _).trans rfl, (hq 5 _).trans rfl⟩
    by_cases h2 : q 2 = 0
    · rw [if_pos h2]
      exact (if_neg (by decide)).trans ((if_neg fun h => h.2 h2).trans h2)
    · rw [if_neg h2]
      exact (if_neg (by decide)).trans (if_pos ⟨rfl, h2⟩)

end

end

/-! ## Nodes by their kind -/

theorem State.startNode_eq (s : State) (x : Replay) (j : Nat) (q : Nat → BitVec 64) :
    let p := homePtr x.home (q 0)
    let bad : State := { s with dev := s.dev.nodeBad x j 4 }
    s.startNode x j 0 q = (if (List.range 6).all (fun i => q i == 0) then { s with dev := s.dev.nodeRuns x j (some s.dev.now) } else bad) ∧
    s.startNode x j 1 q = s.launchNode x j p ∧ s.startNode x j 2 q = s.copyNode x j q ∧
    s.startNode x j 4 q = (if s.dev.partPtr x.ctx p && ptrOff p % 4 == 0 then s.cueAddNode x j p ((q 1).extractLsb' 0 32) else bad) ∧
    s.startNode x j 5 q = (if s.dev.partPtr x.ctx p && ptrOff p % 4 == 0 then s.cueWaitNode x j p ((q 1).extractLsb' 0 32) else bad) ∧
    s.startNode x j 6 q = (if s.dev.partPtr x.ctx p && ptrOff p % 8 == 0 then s.signalNode x j p else bad) :=
  ⟨rfl, rfl, rfl, rfl, rfl, rfl⟩

theorem ptrFits_iff {d : Dev} {ctx : Nat} {p : BitVec 64} (k : Nat) :
    (d.partPtr ctx p && ptrOff p % k == 0) = true ↔ d.partPtr ctx p = true ∧ ptrOff p % k = 0 := by
  rw [Bool.and_eq_true, beq_iff_eq]

section
variable {k : Nat} {t : State}

/-- A start of a node of a known kind, in the state after its body has been read. -/
theorem starts_of {q : Nat → BitVec 64} {i : Instr} {w : State} (hgo : exec i s = .next (t.startNode x j n.kind q)) (hk : n.kind = k)
    (h : t.startNode x j k q = w) : exec i s = .next w := by
  rw [hgo, hk, h]

theorem handNode_starts {q : Nat → BitVec 64} {i : Instr} {e : Dev} (hgo : exec i s = .next (State.startNode { s with dev := d } x j n.kind q))
    (hk : n.kind = 3) (h : d.handNode x j q = e) : exec i s = .next { s with dev := e } := by
  rw [hgo, hk, ← h]
  rfl

end

end Sys2Proof.Machine
end

section
namespace Sys2Proof
open Sys2Proof.Machine

/-- Settles O50. -/
theorem copiesAndGraphsRun : Obligations.CopiesAndGraphsRun := by
  refine ⟨fun s u c id n v x bs d e => ?_, fun s u c lim fuel v x y p q box bs old d e => ?_, fun s v die r j x n qs a d e => ?_⟩
  · intro k a b hx hhalt hheld hun
    refine ⟨fun hst hroom => copyStart_begins hx hhalt hheld hst hroom, fun hst hform _ _ hspace hpos hlate hn h1 ha hb hread hwrite => ?_,
      fun hst hform => ?_, fun p q hst hform hp hq => ?_, fun hst hck hw => copyComplete_word hx hheld hun hst hck hw,
      fun hst hck => copyComplete_barrier hx hheld hst hck, fun hst ht y hy hstop => ?_, fun hst ht => copyComplete_waits hx hst ht⟩
    · exact (copyStart_moves hx hhalt hheld hun hst).trans (congrArg _ (copyPiece_sector hform hspace hpos hlate hn h1 ha hb hread hwrite))
    · have hgo := copyStart_moves hx hhalt hheld hun hst
      rwa [State.copyPiece_linear hform] at hgo
    · have hgo := copyStart_moves hx hhalt hheld hun hst
      rwa [State.copyPiece_tensor hform hp hq] at hgo
    · obtain ⟨hcopies, hleft⟩ := Dev.copyGone_spec (d := s.dev) hy hstop
      exact ⟨_, copyComplete_goes hx hst ht, rfl, hcopies, hleft⟩
  · intro a b m ij w sb db code new
    refine ⟨fun h => ⟨State.linearMove_over h fuel, State.tensorMove_over h fuel⟩, fun hpos hspace => ⟨fun hread hwrite => ?_,
      fun hrest hrule hread hold hwrite => ?_⟩⟩
    · exact State.linearMove_step hpos hspace hread hwrite
    · exact State.tensorMove_step hpos hspace hrest hrule hread hold hwrite
  · intro q p me t
    refine ⟨fun k hfind hun ht => graphReplayStart_begins hfind hun ht, graphReplayStart_none, fun hx hid hj hdie hun => ⟨fun hmay hb => ?_,
      graphNodeFinish_finishes hx hj hdie, fun _ _ _ hpoll hheld hready hcue ht ha => cueWaitPoll_polls hx hj hdie hun hid hpoll hheld hready hcue ht ha⟩⟩
    subst hid
    have hgo := graphNodeStart_starts hx hj hdie hun hmay hb
    have hfail : x.failed = none := by
      unfold Dev.nodeMay at hmay
      simp only [Bool.and_eq_true, Option.isNone_iff_eq_none] at hmay
      obtain ⟨⟨⟨⟨⟨⟨⟨-, h⟩, -⟩, -⟩, -⟩, -⟩, -⟩, -⟩ := hmay
      exact h
    have hbad : ∀ h : exec (.graphNodeStart die x.id j) s = .next { s with dev := d.nodeBad x j 4 },
        exec (.graphNodeStart die x.id j) s = .next { s with dev := d.nodeBad x j 4 } ∧ (d.replays.get? x.id = some x →
          ∃ y, (d.nodeBad x j 4).replays.get? x.id = some y ∧ y.failed = some 7 ∧ ∃ m, y.node? j = some m ∧ m.started = true ∧ m.ready = some d.now) :=
      fun h => ⟨h, fun hget => Dev.nodeBad_spec hget rfl hj hfail 4⟩
    obtain ⟨h0, h1, h2, h4, h5, h6⟩ := t.startNode_eq x j q
    have holds := SameOlds.nodeBody s x n
    rw [hb] at holds
    intro starts bad on own adds
    refine ⟨fun hk hz => ?_, fun hk hz => ?_, fun hk hp => ?_, fun l hk hp hl => ?_, fun hk => ?_, fun hk => ?_, fun hk h => ?_,
      fun hk h ha hinv hfree => ?_, fun hk h => ?_, fun hk h ha => ⟨fun hr => ?_, fun hr hroom => ?_, fun hr hfull => ?_⟩, fun hk h => ?_,
      fun hk h y hy htcol hva hinv hfree => ?_⟩
    · refine starts_of hgo hk (h0.trans (if_pos ?_))
      exact List.all_eq_true.mpr fun i hi => beq_iff_eq.mpr (hz i (List.mem_range.mp hi))
    · refine hbad (starts_of hgo hk (h0.trans (if_neg fun hall => ?_)))
      obtain ⟨i, hi, hne⟩ := hz
      exact hne (beq_iff_eq.mp (List.all_eq_true.mp hall i (List.mem_range.mpr hi)))
    · exact hbad (starts_of hgo hk (h1.trans (State.launchNode_foreign hp)))
    · exact starts_of hgo hk (h1.trans (State.launchNode_taken hp hl))
    · intro c desc cmd base last rec_
      have hc : x.execCol ((q 4).extractLsb' 0 11) = c := rfl
      refine ⟨fun h => hbad (starts_of hgo hk (h2.trans (State.copyNode_refused hc h))), fun hin hok => ⟨fun hform => ?_, fun hform h => ?_,
        fun f g hform hs hd hf hg hrec => ?_⟩⟩
      · exact starts_of hgo hk (h2.trans (State.copyNode_linear hc hin hok hform))
      · exact hbad (starts_of hgo hk (h2.trans (State.copyNode_null hc hin hok hform h)))
      · obtain ⟨z, hz⟩ : ∃ z, rec_ e desc.dobj = z := ⟨_, rfl⟩
        rw [hz] at hg ⊢
        obtain ⟨z, e'⟩ := z
        obtain rfl : z = .ok (some g) := hg
        have hcopy : t.copyNode x j q = { t with dev := e'.copyQueued x j c desc (some (f, g)) } :=
          State.copyNode_tensor (s := t) (c := c) hc hin hok hform hs hd hf hz hrec
        exact starts_of hgo hk (h2.trans hcopy)
    · intro c
      have hc : x.execCol ((q 1).extractLsb' 16 11) = c := rfl
      refine ⟨fun h => hbad (handNode_starts hgo hk (Dev.handNode_refused hc h)), fun h hfull => handNode_starts hgo hk (Dev.handNode_waits hc h hfull),
        fun h hroom => ?_⟩
      obtain ⟨g, hg, hfields⟩ := Dev.handNode_queues (d := d) (j := j) (q := q) hc h hroom
      exact ⟨g, handNode_starts hgo hk hg, hfields⟩
    · exact hbad (starts_of hgo hk (h4.trans (if_neg (mt (ptrFits_iff 4).mp h))))
    · have hquiet : t.dev.oldsAt a.tcol = [] := (holds a.tcol).trans hfree
      obtain ⟨tick, hreplays, hvault⟩ := State.cueAddNode_spec (j := j) (v := (q 1).extractLsb' 0 32) ha hquiet
      refine ⟨_, starts_of hgo hk (h4.trans (if_pos ((ptrFits_iff 4).mpr h))), ⟨tick, congrArg (fun m : Table Replay => m.get? x.id) hreplays⟩, ?_⟩
      obtain ⟨hframe, hnum⟩ := Memory.added_word hinv (vkey a.tcol a.va) ((q 1).extractLsb' 0 32)
      rw [BitVec.extractLsb'_toNat, Nat.shiftRight_zero] at hnum
      rw [hvault]
      exact ⟨hframe, hnum, fun h => absurd h (by decide)⟩
    · exact hbad (starts_of hgo hk (h5.trans (if_neg (mt (ptrFits_iff 4).mp h))))
    · exact starts_of hgo hk ((h5.trans (if_pos ((ptrFits_iff 4).mpr h))).trans ((State.cueWaitNode_eq ha).1 hr))
    · exact starts_of hgo hk ((h5.trans (if_pos ((ptrFits_iff 4).mpr h))).trans ((State.cueWaitNode_eq ha).2.1 hr hroom))
    · exact starts_of hgo hk ((h5.trans (if_pos ((ptrFits_iff 4).mpr h))).trans ((State.cueWaitNode_eq ha).2.2 hr hfull))
    · exact hbad (starts_of hgo hk (h6.trans (if_neg (mt (ptrFits_iff 8).mp h))))
    · have hquiet : t.dev.oldsAt (colOf x.home p) = [] := by
        rw [← htcol]
        exact (holds a.tcol).trans hfree
      obtain ⟨hown, hal⟩ := h
      obtain ⟨tick, hreplays, hvault⟩ := State.signalNode_spec (j := j) hy hal hquiet
      refine ⟨_, starts_of hgo hk (h6.trans (if_pos ((ptrFits_iff 8).mpr ⟨hown, hal⟩))), ⟨tick, congrArg (fun m : Table Replay => m.get? x.id) hreplays⟩, ?_⟩
      obtain ⟨hframe, hcount, herr⟩ := Memory.wordUpdate_fields hinv (vkey a.tcol a.va)
      rw [hvault, ← htcol, ← hva]
      exact ⟨hframe, hcount, fun _ => herr⟩

end Sys2Proof
end

section
/-! Proofs about a drain's row (R326, R330, R334): an output format without room for the root that the L2 ball gives. -/

namespace Sys2Proof.Machine

/-- MDRAIN of the L2 ball into register 16, whose OF names E8M0, which R330 does not allow a drain. -/
def ballDrain : PFields :=
  { h := { ty := Fmt.f32, u := false, s := false, rm := 0, gn := false, gp := 7 }, tf := 0, tl := 0, dst := 16, selp := 3,
    par := 10, sup := 0, stw := 0, of := 9, dk := false }

/-- It in its queue, started: one row of one element, z = 1. -/
def ballOp : TileOp :=
  { insn := .mdrain ballDrain, slot := 0, gang := 0, ctx := 0, priv := false, aoff := 0, ahi := 0, boff := 0x3F800000, asc := 0, bsc := 0,
    rowsv := 0x10001, step := 0, itick := 0, started := some 4, held := none, line := 0, wrote := none, tiles := [0], reads := [],
    writes := [], bread := [], bwrite := [], rregs := [], wregs := [], clash := [], vague := [], bclash := [], spoiled := false, kept := [],
    keptRegs := [], killed := [], rescan := false, base := 0 }

/-- Column 0 with the drain, +infinity standing in its tile. -/
def ballColumn : Column := (Column.start.putPool 0 ((Column.start.tileRange 0).1 / 4) 0x7F800000 false).putQueue 0 [ballOp]

def ballState : State := { vault := [], dev := { Dev.start with now := 100, cols := [(0, ballColumn)] } }

theorem ballState_row : (ballOp.row (ballState.dev.col 0) ballDrain false 0).codes.getD 0 0 = 0x3F800000 := by decide +kernel

theorem elemCode_e8m0_lt (x : Word) (i : Nat) : elemCode Fmt.e8m0x4 x i < 256 :=
  Nat.mod_lt _ (by decide)

end Sys2Proof.Machine
end

section
namespace Sys2Proof
open Sys2Proof.Machine

/-- Refutes O37, in its clause of the registers that a drain writes, which leaves OF open. Under an OF that R330 does not allow, here E8M0, the L2
ball's root of a row with an infinity is rounded as FP32 (R334), and its code does not fit the eight bits of its element in the register. -/
theorem not_tileOperationsRun : ¬ Obligations.TileOperationsRun := by
  rintro ⟨-, -, -, hdrain, -⟩
  obtain ⟨u, -, -, -, -, -, hdst, -⟩ := hdrain ballState 0 ballOp ballDrain false 4 (by decide +kernel) (by decide +kernel) (by decide +kernel)
    ⟨rfl, rfl, rfl, rfl, rfl, rfl, rfl⟩ rfl rfl (by decide +kernel) (by decide +kernel) (by decide +kernel) (by decide +kernel)
  obtain ⟨-, hcode⟩ := hdst (by decide) rfl 0 0 (by decide +kernel) (by decide +kernel)
  rw [if_pos (by decide +kernel : 0 < geoN ballOp.rowsv), ballState_row] at hcode
  exact absurd (hcode ▸ elemCode_e8m0_lt _ _) (by decide)

end Sys2Proof
end
